-- ==== Sys2Proof/Machine/Bits.lean ====
section
/-! DEFINITION. Bit-field helpers (R4, R119, R126). Arithmetic is exact in Nat and Int and narrowed at
the end. -/

namespace Sys2Proof.Machine

def sumOf (xs : List Nat) : Nat := xs.foldl (fun m x => m + x) 0

/-- Bits hi..lo of a word, as a number. -/
def field (x : Word) (hi lo : Nat) : Nat := x.toNat / 2 ^ lo % 2 ^ (hi + 1 - lo)

/-- Bit i of a word. -/
def bit (x : Word) (i : Nat) : Bool := x.toNat / 2 ^ i % 2 == 1

/-- Replace bits hi..lo. -/
def setField (x : Word) (hi lo v : Nat) : Word :=
  let m := 2 ^ (hi + 1 - lo)
  BitVec.ofNat 64 (x.toNat - field x hi lo * 2 ^ lo + v % m * 2 ^ lo)

/-- The low n bits of x, read as a signed number. -/
def sextNat (x n : Nat) : Int :=
  if x % 2 ^ n < 2 ^ (n - 1) then ((x % 2 ^ n : Nat) : Int) else ((x % 2 ^ n : Nat) : Int) - ((2 ^ n : Nat) : Int)

/-- Sext of R119: the low n bits sign-extended to 64. -/
def sext (x : Nat) (n : Nat) : Word := BitVec.ofInt 64 (sextNat x n)

/-- Zext of R119. -/
def zext (x : Nat) (n : Nat) : Word := BitVec.ofNat 64 (x % 2 ^ n)

/-- Clamp of R119. -/
def clamp (x lo hi : Int) : Int := if x < lo then lo else if hi < x then hi else x

/-- A word from a number and from an integer, modulo 2^64 (Wrap of R119). -/
def w64 (n : Nat) : Word := BitVec.ofNat 64 n
def wrap (i : Int) : Word := BitVec.ofInt 64 i

/-- A Bool as a word. -/
def wordOfBool (b : Bool) : Word := if b then 1 else 0

/-- Number of set bits among the low n of x. -/
def countOnes : Nat → Nat → Nat
  | 0, _ => 0
  | n + 1, x => x % 2 + countOnes n (x / 2)

/-- Bit i of a number. -/
def hasBit (x i : Nat) : Bool := x / 2 ^ i % 2 == 1

/-- Set operations on masks. -/
def maskMinus (x y : Nat) : Nat := x - (x &&& y)

/-- The members of an 8-bit mask, ascending. -/
def lanes (m : Nat) : List Nat := (List.range 8).filter (hasBit m)

/-- Least multiple of m that is at least x; m is not 0. -/
def roundUp (x m : Nat) : Nat := (x + m - 1) / m * m

end Sys2Proof.Machine
end

