-- ==== Sys2Proof/Machine/Flags.lean ====
section
/-! DEFINITION. Tests that write predicates or decide branches (R42, R131). -/

namespace Sys2Proof.Machine

/-- The tests of R42. -/
def condHolds (cond : BitVec 3) (a b : Word) : Bool :=
  match cond.toNat with
  | 0 => a == b
  | 1 => a != b
  | 2 => a.slt b
  | 3 => !(a.slt b)
  | 4 => a.ult b
  | 5 => !(a.ult b)
  | 6 => (a &&& b) != 0
  | _ => (a &&& b) == 0

/-- The tests of CMPI (R131): i is the sign-extended immediate. -/
def cmpiHolds (c : BitVec 2) (a i : Word) : Bool :=
  match c.toNat with
  | 0 => a == i
  | 1 => a.slt i
  | 2 => a.ult i
  | _ => (a &&& i) != 0

/-- The immediate of BCMPI: signed for conditions 0 to 3, zero-extended for 4 to 7 (R40). -/
def bcmpiImm (cond : BitVec 3) (i : BitVec 5) : Word :=
  if cond.toNat < 4 then i.signExtend 64 else i.zeroExtend 64

end Sys2Proof.Machine
end

