-- ==== Sys2Proof/Config.lean ====
section
/-! DEFINITION. What the part fixes (figures of R11, R33, R34) and the values the manual leaves open.
An opaque constant has no value that any proof can see: a statement about it holds for every value. -/

namespace Sys2Proof.Config

/-- R33: rill cycles in a microsecond at 3.3 GHz. -/
def usCycles : Nat := 3300

/-- Rill cycles that cover n slice cycles (2.0 GHz against 3.3 GHz, R5). -/
def sliceCycles (n : Nat) : Nat := (n * 33 + 19) / 20

/-- R393: entries of a rill's replay queue. -/
def replayEntries : Nat := 32

/-- R242: entries of a context's vector sequencer. -/
def seqEntries : Nat := 16

/-- R315: entries of the two transaction logs. -/
def readLogEntries : Nat := 64
def writeLogEntries : Nat := 32

/-- A value that the manual leaves open, drawn afresh at each count. -/
opaque freeWord : Nat → Word

/-- R177: which of the values that a word has held an engine's source read returns where no order is stated, by the command and
the word. -/
opaque olderWrite : Nat → Nat → Nat

/-- R408: whether a scrub in progress has cleared a word, by draw and word. -/
opaque sweptWord : Nat → Nat → Bool

/-- R435: the least security version that the package accepts for an image, which is fused. -/
opaque fusedMinimum : Nat → Nat

/-- R458, IDENT: build number of Headwater (33) and of the Voxsis core (32) that the package came with. -/
opaque imageBuild : Nat → Nat

/-- R442, R458: the CSR numbers that an application core implements, which its RISC-V profile gives. -/
opaque coreCsr : Nat → Bool

/-- R443: 64-bit word of the SHA-384 value of an image that the package came with, by image and word 0 to 5. -/
opaque imageMeasure : Nat → Nat → Word

/-- R443: word of the answer to an SPDM request, by message, its parameter and the number of messages before it. -/
opaque spdmWord : Nat → Word → Nat → Word

/-- R442: the word in which a load of a user-interrupt file returns an entry, by vector, NPAYLOAD and TAG: its layout is not
stated. -/
opaque uifEntry : Nat → Nat → Nat → Word

end Sys2Proof.Config
end

