-- ==== Sys2Proof/Machine/Table.lean ====
section
/-! DEFINITION. Sparse tables: the entries of a table that were ever written, by number. An entry that
is not listed holds the default that the reader names (the reset value of what the table holds). -/

namespace Sys2Proof.Machine

/-- A sparse table. -/
abbrev Table (α : Type) := List (Nat × α)

/-- Entry k, or d when it was never written. -/
def Table.get {α : Type} (d : α) : Table α → Nat → α
  | [], _ => d
  | (j, v) :: t, k => if j = k then v else Table.get d t k

/-- Write entry k, keeping the numbers in rising order. -/
def Table.put {α : Type} : Table α → Nat → α → Table α
  | [], k, v => [(k, v)]
  | (j, w) :: t, k, v =>
    if k < j then (k, v) :: (j, w) :: t
    else if k = j then (k, v) :: t
    else (j, w) :: Table.put t k v

/-- Forget entry k: it reads as the default again. -/
def Table.drop {α : Type} (t : Table α) (k : Nat) : Table α := t.filter fun p => p.1 != k

/-- The entry, when it is listed. -/
def Table.find {α : Type} (t : Table α) (k : Nat) : Option α :=
  Table.get none (t.map fun p => (p.1, some p.2)) k

/-- Change every listed entry. -/
def Table.update {α : Type} (t : Table α) (f : Nat → α → α) : Table α :=
  t.map fun p => (p.1, f p.1 p.2)

/-- A sorted list of numbers without repeats, used as a set. -/
def setInsert : List Nat → Nat → List Nat
  | [], k => [k]
  | j :: t, k => if k < j then k :: j :: t else if k = j then j :: t else j :: setInsert t k

/-- Remove a number from a set. -/
def setErase (t : List Nat) (k : Nat) : List Nat := t.filter fun j => j != k

/-- Put k into the set or take it out. -/
def setTo (t : List Nat) (k : Nat) (b : Bool) : List Nat := if b then setInsert t k else setErase t k

end Sys2Proof.Machine
end

