-- ==== Sys2Proof/Machine/Memory.lean ====
section
/-! DEFINITION. Memory: one list of bytes for HBM, the local stores and the host (R28 to R32), with the
full/empty and poison bits of each 64-bit word and the release tags of R164. Address spaces are told
apart by their place: HBM at its physical address, the local store of a rill from 2^56 up, host memory
from 2^60 up. A byte that nothing has written reads 0, a word's FE bit empty and its poison bit clear
(R447 for device memory). -/

namespace Sys2Proof.Machine

/-- R164: the release tag of a byte: rill (braid * 8 + logical rill), context, current scope, and the
virtual address of the word as the releasing context wrote it. now is the rill that the releasing thread has since moved
to, and basin the basin of the releaser at the release (R182). -/
structure Tag where
  rill : Nat
  now : Nat := rill
  basin : Option Nat := none
  ctx : Nat
  scope : Nat
  va : Word
  deriving DecidableEq, Repr

/-- Bytes, sorted by address with no zero byte listed; the numbers of the words that are full and of
those that are poisoned; the tags, by byte address; the packages to which no ZCL route is left, whose ranges
read poisoned zeros and discard writes (R446). -/
structure Memory where
  cells : List Host.Cell := []
  full : List Nat := []
  poison : List Nat := []
  tags : Table Tag := []
  lost : List Nat := []
  deriving DecidableEq, Repr

/-- Read a byte of a sorted cell list. -/
def cellsRead : List Host.Cell → Nat → Byte
  | [], _ => 0
  | (j, v) :: t, a => if j = a then v else cellsRead t a

/-- Insert a byte at its place. -/
def cellsPut : List Host.Cell → Nat → Byte → List Host.Cell
  | [], a, v => [(a, v)]
  | (j, w) :: t, a, v =>
    if a < j then (a, v) :: (j, w) :: t
    else if a = j then (a, v) :: t
    else (j, w) :: cellsPut t a v

/-- Write a byte: a zero byte is not listed. -/
def cellsWrite (m : List Host.Cell) (a : Nat) (v : Byte) : List Host.Cell :=
  if v = 0 then m.filter fun p => p.1 != a else cellsPut m a v

/-- The addresses of a list rise. -/
def rising : List Nat → Bool
  | a :: b :: t => decide (a < b) && rising (b :: t)
  | _ => true

/-- The canonical form: cells rise and list no zero byte, the two word sets rise. -/
def Memory.wf (m : Memory) : Bool :=
  rising (m.cells.map Prod.fst) && m.cells.all (fun p => p.2 != 0) && rising m.full && rising m.poison

/-- An address lies in the range of a package without a route. -/
def Memory.isLost (m : Memory) (a : Nat) : Bool := decide (2 ^ 44 ≤ a ∧ a < 2 ^ 52) && m.lost.contains ((a - 2 ^ 44) / 2 ^ 40)

/-- One byte. -/
def Memory.byte (m : Memory) (a : Nat) : Byte := if m.isLost a then 0 else cellsRead m.cells a

/-- n bytes from a, the lowest address least significant (R28). -/
def Memory.read (m : Memory) (a : Nat) : Nat → Nat
  | 0 => 0
  | n + 1 => (m.byte a).toNat + 256 * Memory.read m (a + 1) n

/-- Write one byte. -/
def Memory.setByte (m : Memory) (a : Nat) (v : Byte) : Memory :=
  if m.isLost a then m else { m with cells := cellsWrite m.cells a v }

/-- Write the n low bytes of v from a upward. -/
def Memory.write (m : Memory) (a : Nat) : Nat → Nat → Memory
  | 0, _ => m
  | n + 1, v => Memory.write (m.setByte a (BitVec.ofNat 8 v)) (a + 1) n (v / 256)

/-- The 64-bit word that holds a byte address. -/
def wordOf (a : Nat) : Nat := a / 8

/-- Poison and FE bits of the word that holds an address. -/
def Memory.poisoned (m : Memory) (a : Nat) : Bool := m.isLost a || m.poison.contains (wordOf a)
def Memory.isFull (m : Memory) (a : Nat) : Bool := !m.isLost a && m.full.contains (wordOf a)
def Memory.setPoison (m : Memory) (a : Nat) (b : Bool) : Memory :=
  if m.isLost a then m else { m with poison := setTo m.poison (wordOf a) b }
def Memory.setFull (m : Memory) (a : Nat) (b : Bool) : Memory :=
  if m.isLost a then m else { m with full := setTo m.full (wordOf a) b }

/-- Put a tag, or none, on n bytes. -/
def Memory.setTags (m : Memory) (a : Nat) (t : Option Tag) : Nat → Memory
  | 0 => m
  | n + 1 =>
    Memory.setTags { m with tags := match t with
      | some x => m.tags.put a x
      | none => m.tags.drop a } (a + 1) t n

/-- The distinct tags on n bytes. -/
def Memory.tagsOn (m : Memory) (a : Nat) : Nat → List Tag
  | 0 => []
  | n + 1 =>
    match m.tags.find a with
    | some t => let r := Memory.tagsOn m (a + 1) n; if r.contains t then r else t :: r
    | none => Memory.tagsOn m (a + 1) n

/-- Where the spaces lie. -/
def lsBase : Nat := 2 ^ 56
def hostBase : Nat := 2 ^ 60
def lsAddr (b r off : Nat) : Nat := lsBase + (b * 8 + r) * 2 ^ 18 + off
def hostAddr (a : Nat) : Nat := hostBase + a
def isLocal (a : Nat) : Bool := decide (lsBase ≤ a ∧ a < hostBase)
def isHost (a : Nat) : Bool := decide (hostBase ≤ a)
def lineOf (a : Nat) : Nat := a / 64

end Sys2Proof.Machine
end

