-- ==== Sys2Proof/Syntax.lean ====
section
/-! DEFINITION. The instruction set and the events of the Zheura Z9, one constructor for every row of
spec/opcode_table.json. Rows with an encoding carry the fields of that encoding, each at its own width.
Rows without one are steps of the hardware or requests to the firmware; their arguments say where in the
package the step takes place (b braid, r logical rill, k context, n the number of an access, command or
request) and what the outside world supplies. -/

namespace Sys2Proof

/-- One step of the part (R56, R59, and the events of the chapters). -/
inductive Instr where
  | issueCycle (b r : Nat)  -- ISSUE_CYCLE, R79
  | instructionFetchMissFill (b r k : Nat)  -- INSTRUCTION_FETCH_MISS_FILL, R82
  | loadDataReturn (b r k n : Nat)  -- LOAD_DATA_RETURN, R147
  | storePerformed (b r k n : Nat)  -- STORE_PERFORMED, R148
  | windowSpill (b r k : Nat)  -- WINDOW_SPILL, R84
  | windowFill (b r k : Nat)  -- WINDOW_FILL, R84
  | multiplyResult (b r k n : Nat)  -- MULTIPLY_RESULT, R130
  | divideResult (b r : Nat)  -- DIVIDE_RESULT, R130
  | fpLongResult (b r k n : Nat)  -- FP_LONG_RESULT, R239
  | sharedRegisterEffect (b r : Nat)  -- SHARED_REGISTER_EFFECT, R135
  | sharedRegisterFeRetry (b r k : Nat)  -- SHARED_REGISTER_FE_RETRY, R136
  | nwrAttempt (b r k : Nat)  -- NWR_ATTEMPT, R140
  | nwrLand (b r k : Nat)  -- NWR_LAND, R140
  | fuseGroupForm (b k m : Nat)  -- FUSE_GROUP_FORM, R94
  | fuseTimeout (b r k : Nat)  -- FUSE_TIMEOUT, R94
  | bmodeSwitchEnd (b : Nat)  -- BMODE_SWITCH_END, R26
  | bmodeWrite (b r : Nat) (v : Word)  -- BMODE_WRITE, R115
  | blockElement (b r : Nat)  -- BLOCK_ELEMENT, R160
  | vectorCycle (b r : Nat)  -- VECTOR_CYCLE, R243
  | vectorResultWrite (b r k : Nat)  -- VECTOR_RESULT_WRITE, R243
  | streamFetch (b r : Nat)  -- STREAM_FETCH, R200
  | streamStore (b r : Nat)  -- STREAM_STORE, R199
  | copyEngineStep (b : Nat)  -- COPY_ENGINE_STEP, R195
  | copyComplete (b q : Nat)  -- COPY_COMPLETE, R211
  | matrixArbitrate (b : Nat)  -- MATRIX_ARBITRATE, R275
  | matrixAccessStop (b n : Nat)  -- MATRIX_ACCESS_STOP, R266
  | matrixCommandComplete (b n : Nat)  -- MATRIX_COMMAND_COMPLETE, R263
  | mxrotTransfer (b dir w : Nat)  -- MXROT_TRANSFER, R279
  | networkArbitrate (o : Nat)  -- NETWORK_ARBITRATE, R365
  | sliceServe (line : Nat)  -- SLICE_SERVE, R286
  | sliceRequestStarved (n : Nat)  -- SLICE_REQUEST_STARVED, R286
  | ownerRmw (n : Nat)  -- OWNER_RMW, R285
  | feParkedRetry (n : Nat)  -- FE_PARKED_RETRY, R298
  | scopeMissNotification (n : Nat)  -- SCOPE_MISS_NOTIFICATION, R184
  | hbmWriteback (line : Nat)  -- HBM_WRITEBACK, R185
  | writeUpdateAck (b line : Nat)  -- WRITE_UPDATE_ACK, R309
  | fanoutTimeout (b line : Nat)  -- FANOUT_TIMEOUT, R309
  | keepaliveLoss (b : Nat)  -- KEEPALIVE_LOSS, R309
  | monitorTrigger (b r k line : Nat)  -- MONITOR_TRIGGER, R302
  | monwaitEnd (b r k : Nat)  -- MONWAIT_END, R303
  | monwaitTimeout (b r k : Nat)  -- MONWAIT_TIMEOUT, R303
  | monstatWakeWrite (b r k : Nat) (v : Word)  -- MONSTAT_WAKE_WRITE, R300
  | barrierRelease (b r k : Nat)  -- BARRIER_RELEASE, R306
  | rupdSend (b r k n : Nat)  -- RUPD_SEND, R293
  | txCommitLockReply (b r k sl : Nat)  -- TX_COMMIT_LOCK_REPLY, R331
  | txCommitDeadline (b r k : Nat)  -- TX_COMMIT_DEADLINE, R331
  | txCommitApplied (b r k sl : Nat)  -- TX_COMMIT_APPLIED, R331
  | txstatAbortreqWrite (b r k : Nat) (v : Word)  -- TXSTAT_ABORTREQ_WRITE, R326
  | weirTokenGrant (bs : Nat)  -- WEIR_TOKEN_GRANT, R335
  | irrevocableLockGrant (b r k : Nat)  -- IRREVOCABLE_LOCK_GRANT, R337
  | irrevocablePreemptTimeout (b r k : Nat)  -- IRREVOCABLE_PREEMPT_TIMEOUT, R340
  | submissionWrite (vf q : Nat) (ws : List Word)  -- SUBMISSION_WRITE, R345
  | dependenceReread (bs n : Nat)  -- DEPENDENCE_REREAD, R346
  | recordAged (bs n : Nat)  -- RECORD_AGED, R347
  | placementRound (die bs : Nat)  -- PLACEMENT_ROUND, R350
  | cohortEnd (b n : Nat)  -- COHORT_END, R352
  | dequeOperation (b r : Nat)  -- DEQUE_OPERATION, R355
  | stealProbe (b r : Nat)  -- STEAL_PROBE, R358
  | contextStop (b r k : Nat)  -- CONTEXT_STOP, R386
  | watchdogExpire (b r k : Nat)  -- WATCHDOG_EXPIRE, R383
  | evwaitTimeout (b r : Nat)  -- EVWAIT_TIMEOUT, R382
  | atsCompletion (n : Nat) (ok : Bool) (e : Word)  -- ATS_COMPLETION, R403
  | priResponse (n : Nat) (ok : Bool)  -- PRI_RESPONSE, R403
  | atsInvalidateRequest (bs asid : Nat) (va : Word)  -- ATS_INVALIDATE_REQUEST, R403
  | uncorrectableError (site x y : Nat)  -- UNCORRECTABLE_ERROR, R396
  | correctedError (b r : Nat)  -- CORRECTED_ERROR, R429
  | resizePhaseStart (bs : Nat)  -- RESIZE_PHASE_START, R411
  | resizePhaseEnd (bs : Nat)  -- RESIZE_PHASE_END, R411
  | phaseDeadline (bs : Nat)  -- PHASE_DEADLINE, R414
  | rehashHandover (bs line : Nat)  -- REHASH_HANDOVER, R416
  | rehashFirstTouch (bs line : Nat)  -- REHASH_FIRST_TOUCH, R415
  | scrubComplete (kind n : Nat)  -- SCRUB_COMPLETE, R418
  | rillRetire (b r : Nat)  -- RILL_RETIRE, R426
  | packageReset  -- PACKAGE_RESET, R447
  | hostCxlMemAccess (w : Bool) (pa : Nat) (v : Word)  -- HOST_CXL_MEM_ACCESS, R439
  | hostCxlCacheSnoop (line : Nat)  -- HOST_CXL_CACHE_SNOOP, R410
  | hostAtomicop (op size pa : Nat) (x y : Word)  -- HOST_ATOMICOP, R436
  | hmsgRingHeadWrite (bs : Nat) (v : Word)  -- HMSG_RING_HEAD_WRITE, R438
  | notifyOverflowClear (vf : Nat) (v : Word)  -- NOTIFY_OVERFLOW_CLEAR, R437
  | appCoreLaunchStore (core : Nat) (v : Word)  -- APP_CORE_LAUNCH_STORE, R442
  | uifPop (core : Nat)  -- UIF_POP, R442
  | linkRouteLoss (pk : Nat)  -- LINK_ROUTE_LOSS, R446
  | guestKeepaliveLoss (pk : Nat)  -- GUEST_KEEPALIVE_LOSS, R446
  | powerMeasure (w : Nat)  -- POWER_MEASURE, R448
  | powerBudgetAdjust  -- POWER_BUDGET_ADJUST, R448
  | serviceComplete (n : Nat)  -- SERVICE_COMPLETE, R432
  | ident (n : Nat)  -- IDENT, R433
  | basinCreate (n : Nat)  -- BASIN_CREATE, R433
  | basinDestroy (n : Nat)  -- BASIN_DESTROY, R428
  | basinResize (n : Nat)  -- BASIN_RESIZE, R411
  | basinStatus (n : Nat)  -- BASIN_STATUS, R433
  | queueConfig (n : Nat)  -- QUEUE_CONFIG, R345
  | queueStatus (n : Nat)  -- QUEUE_STATUS, R433
  | launchCancel (n : Nat)  -- LAUNCH_CANCEL, R433
  | hmsgqConfig (n : Nat)  -- HMSGQ_CONFIG, R438
  | notifyConfig (n : Nat)  -- NOTIFY_CONFIG, R437
  | uifConfig (n : Nat)  -- UIF_CONFIG, R442
  | coreStart (n : Nat)  -- CORE_START, R433
  | coreStop (n : Nat)  -- CORE_STOP, R433
  | coreStatus (n : Nat)  -- CORE_STATUS, R458
  | hostWindow (n : Nat)  -- HOST_WINDOW, R439
  | errlogRead (n : Nat)  -- ERRLOG_READ, R458
  | errlogClear (n : Nat)  -- ERRLOG_CLEAR, R433
  | retireRequest (n : Nat)  -- RETIRE_REQUEST, R429
  | spareStatus (n : Nat)  -- SPARE_STATUS, R430
  | powerLimit (n : Nat)  -- POWER_LIMIT, R448
  | powerStatus (n : Nat)  -- POWER_STATUS, R458
  | telemetry (n : Nat)  -- TELEMETRY, R458
  | imageStage (n : Nat)  -- IMAGE_STAGE, R435
  | imageSwitch (n : Nat)  -- IMAGE_SWITCH, R434
  | imageStatus (n : Nat)  -- IMAGE_STATUS, R458
  | measureRead (n : Nat)  -- MEASURE_READ, R443
  | zclConfig (n : Nat)  -- ZCL_CONFIG, R444
  | zclStatus (n : Nat)  -- ZCL_STATUS, R458
  | zclGrant (n : Nat)  -- ZCL_GRANT, R445
  | timeSync (n : Nat)  -- TIME_SYNC, R433
  | eventRing (n : Nat)  -- EVENT_RING, R440
  | echo (n : Nat)  -- ECHO, R458
  | getVersion (x : Word)  -- GET_VERSION, R443
  | getCapabilities (x : Word)  -- GET_CAPABILITIES, R443
  | negotiateAlgorithms (x : Word)  -- NEGOTIATE_ALGORITHMS, R443
  | getDigests (x : Word)  -- GET_DIGESTS, R443
  | getCertificate (x : Word)  -- GET_CERTIFICATE, R443
  | challenge (x : Word)  -- CHALLENGE, R443
  | getMeasurements (x : Word)  -- GET_MEASUREMENTS, R443
  | frint (d a : BitVec 5) (x : BitVec 3) (r : BitVec 4)  -- FRINT, R240
  | dqspillWrite (b r : Nat)  -- DQSPILL_WRITE, R355
  | contextHalted (b r k : Nat)  -- CONTEXT_HALTED, R93
  | notifyRingHeadWrite (vf : Nat) (v : Word)  -- NOTIFY_RING_HEAD_WRITE, R436
  | keepaliveReturn (b : Nat)  -- KEEPALIVE_RETURN, R309
  | routeReturn (pk : Nat)  -- ROUTE_RETURN, R446
  | zclRemoteRequest (pk op pa : Nat) (v : Word × Word)  -- ZCL_REMOTE_REQUEST, R445
  | applicationCoreAccess (core op size pa : Nat) (v : Word)  -- APPLICATION_CORE_ACCESS, R442
  | configurationRequest  -- CONFIGURATION_REQUEST, R435
  | illegal (x : BitVec 25)  -- ILLEGAL, R57
  | extensionSpace (x : BitVec 25)  -- EXTENSION_SPACE, R57
  | illegalH (x : BitVec 10)  -- ILLEGAL_H, R59
  | poolguard (x : BitVec 10)  -- POOLGUARD, R62
  | add (d a b : BitVec 5)  -- ADD, R122
  | sub (d a b : BitVec 5)  -- SUB, R122
  | and (d a b : BitVec 5)  -- AND, R122
  | or (d a b : BitVec 5)  -- OR, R122
  | xor (d a b : BitVec 5)  -- XOR, R122
  | andn (d a b : BitVec 5)  -- ANDN, R122
  | orn (d a b : BitVec 5)  -- ORN, R122
  | xnor (d a b : BitVec 5)  -- XNOR, R122
  | shl (d a b : BitVec 5)  -- SHL, R122
  | shr (d a b : BitVec 5)  -- SHR, R122
  | sra (d a b : BitVec 5)  -- SRA, R122
  | ror (d a b : BitVec 5)  -- ROR, R122
  | min (d a b : BitVec 5)  -- MIN, R122
  | max (d a b : BitVec 5)  -- MAX, R122
  | minz (d a b : BitVec 5)  -- MINZ, R122
  | maxz (d a b : BitVec 5)  -- MAXZ, R122
  | adds (d a b : BitVec 5)  -- ADDS, R122
  | subs (d a b : BitVec 5)  -- SUBS, R122
  | addzs (d a b : BitVec 5)  -- ADDZS, R122
  | subzs (d a b : BitVec 5)  -- SUBZS, R122
  | shadd (d a b : BitVec 5) (s : BitVec 2)  -- SHADD, R122
  | mul (d a b : BitVec 5) (l : BitVec 4)  -- MUL, R129
  | mulh (d a b : BitVec 5) (l : BitVec 4)  -- MULH, R129
  | mulhz (d a b : BitVec 5) (l : BitVec 4)  -- MULHZ, R129
  | mulhsz (d a b : BitVec 5) (l : BitVec 4)  -- MULHSZ, R129
  | div (d a b : BitVec 5) (l : BitVec 4)  -- DIV, R129
  | divz (d a b : BitVec 5) (l : BitVec 4)  -- DIVZ, R129
  | rem (d a b : BitVec 5) (l : BitVec 4)  -- REM, R129
  | remz (d a b : BitVec 5) (l : BitVec 4)  -- REMZ, R129
  | ext (d a b : BitVec 5)  -- EXT, R127
  | extz (d a b : BitVec 5)  -- EXTZ, R127
  | ins (d a b : BitVec 5)  -- INS, R127
  | clz (d a : BitVec 5)  -- CLZ, R127
  | ctz (d a : BitVec 5)  -- CTZ, R127
  | cls (d a : BitVec 5)  -- CLS, R127
  | popc (d a : BitVec 5)  -- POPC, R127
  | brev (d a : BitVec 5)  -- BREV, R127
  | bswap (d a : BitVec 5)  -- BSWAP, R127
  | bperm (d a b : BitVec 5)  -- BPERM, R128
  | addi (d a : BitVec 5) (i : BitVec 15)  -- ADDI, R123
  | andi (d a : BitVec 5) (i : BitVec 15)  -- ANDI, R123
  | ori (d a : BitVec 5) (i : BitVec 15)  -- ORI, R123
  | xori (d a : BitVec 5) (i : BitVec 15)  -- XORI, R123
  | shli (d a : BitVec 5) (p : BitVec 6)  -- SHLI, R125
  | shri (d a : BitVec 5) (p : BitVec 6)  -- SHRI, R125
  | srai (d a : BitVec 5) (p : BitVec 6)  -- SRAI, R125
  | rori (d a : BitVec 5) (p : BitVec 6)  -- RORI, R125
  | exti (d a : BitVec 5) (n p : BitVec 6)  -- EXTI, R126
  | extzi (d a : BitVec 5) (n p : BitVec 6)  -- EXTZI, R126
  | insi (d a : BitVec 5) (n p : BitVec 6)  -- INSI, R126
  | cmpi (c : BitVec 2) (q : BitVec 3) (a : BitVec 5) (i : BitVec 15)  -- CMPI, R131
  | lui (d : BitVec 5) (i : BitVec 20)  -- LUI, R124
  | addpc (d : BitVec 5) (i : BitVec 20)  -- ADDPC, R124
  | cmp (q : BitVec 3) (a b : BitVec 5) (c : BitVec 3)  -- CMP, R132
  | sel (d a b : BitVec 5) (n : BitVec 3)  -- SEL, R132
  | mvqr (d : BitVec 5) (q : BitVec 3)  -- MVQR, R132
  | mvrq (q : BitVec 3) (a : BitVec 5)  -- MVRQ, R132
  | pand (q a b : BitVec 3)  -- PAND, R132
  | por (q a b : BitVec 3)  -- POR, R132
  | pxor (q a b : BitVec 3)  -- PXOR, R132
  | pandn (q a b : BitVec 3)  -- PANDN, R132
  | porn (q a b : BitVec 3)  -- PORN, R132
  | mrd (d : BitVec 5) (m : BitVec 4)  -- MRD, R137
  | mwr (m : BitVec 4) (a : BitVec 5)  -- MWR, R137
  | mrdfe (d : BitVec 5) (m : BitVec 4)  -- MRDFE, R137
  | mrdff (d : BitVec 5) (m : BitVec 4)  -- MRDFF, R137
  | mwrfe (m : BitVec 4) (a : BitVec 5)  -- MWRFE, R137
  | mwrff (m : BitVec 4) (a : BitVec 5)  -- MWRFF, R137
  | mfeclr (m : BitVec 4)  -- MFECLR, R137
  | rempty (d : BitVec 5)  -- REMPTY, R138
  | rfull (d : BitVec 5)  -- RFULL, R138
  | rtest (q : BitVec 3) (a : BitVec 5)  -- RTEST, R138
  | nwrE (d a : BitVec 5)  -- NWR_E, R139
  | nwrW (d a : BitVec 5)  -- NWR_W, R139
  | lox (n : BitVec 3) (a : BitVec 5)  -- LOX, R55
  | mox (d : BitVec 5) (n : BitVec 3)  -- MOX, R55
  | loxm (n : BitVec 3) (a : BitVec 5) (k : BitVec 3)  -- LOXM, R55
  | ld (d a : BitVec 5) (t : BitVec 3) (p : BitVec 8) (l : BitVec 4)  -- LD, R147
  | st (d a : BitVec 5) (t : BitVec 2) (p : BitVec 8) (l : BitVec 4)  -- ST, R148
  | ldIndexed (d a b : BitVec 5) (s : BitVec 2) (t : BitVec 3) (l : BitVec 4)  -- LD_INDEXED, R149
  | stIndexed (d a b : BitVec 5) (s t : BitVec 2) (l : BitVec 4)  -- ST_INDEXED, R149
  | bmov (n a b : BitVec 5) (e : BitVec 2) (l : BitVec 4)  -- BMOV, R158
  | bmovd (n a b : BitVec 5) (e : BitVec 2) (l : BitVec 4)  -- BMOVD, R158
  | bfill (n a b : BitVec 5) (e : BitVec 2) (l : BitVec 4)  -- BFILL, R158
  | bscanEq (n a b : BitVec 5) (e : BitVec 2) (l : BitVec 4)  -- BSCAN_EQ, R158
  | bscanNe (n a b : BitVec 5) (e : BitVec 2) (l : BitVec 4)  -- BSCAN_NE, R158
  | cpf (a : BitVec 5) (p : BitVec 8) (l : BitVec 4)  -- CPF, R155
  | cwb (a : BitVec 5) (p : BitVec 8) (l : BitVec 4)  -- CWB, R155
  | cflush (a : BitVec 5) (p : BitVec 8) (l : BitVec 4)  -- CFLUSH, R155
  | czero (a : BitVec 5) (p : BitVec 8) (l : BitVec 4)  -- CZERO, R155
  | cpfw (a : BitVec 5) (p : BitVec 8) (l : BitVec 4)  -- CPFW, R155
  | iinv (r : BitVec 2) (a : BitVec 5) (p : BitVec 8) (l : BitVec 4)  -- IINV, R156
  | fence (s : BitVec 3)  -- FENCE, R189
  | fenceAcq (s : BitVec 3)  -- FENCE_ACQ, R189
  | fenceRel (s : BitVec 3)  -- FENCE_REL, R189
  | fenceRelWiden (a b : BitVec 5) (s : BitVec 3)  -- FENCE_REL_WIDEN, R193
  | fenceXp  -- FENCE_XP, R189
  | lda (d a : BitVec 5) (q t : BitVec 3) (x : BitVec 1) (s : BitVec 3)  -- LDA, R191
  | strel (d a : BitVec 5) (t : BitVec 2) (s : BitVec 3)  -- STREL, R192
  | ldfe (d a : BitVec 5) (p : BitVec 8) (l : BitVec 4)  -- LDFE, R297
  | ldff (d a : BitVec 5) (p : BitVec 8) (l : BitVec 4)  -- LDFF, R297
  | stfe (d a : BitVec 5) (p : BitVec 8) (l : BitVec 4)  -- STFE, R297
  | stff (d a : BitVec 5) (p : BitVec 8) (l : BitVec 4)  -- STFF, R297
  | feclr (a : BitVec 5) (p : BitVec 8) (l : BitVec 4)  -- FECLR, R297
  | amoadd (d a b : BitVec 5) (z o : BitVec 1) (l : BitVec 4)  -- AMOADD, R289
  | amoand (d a b : BitVec 5) (z o : BitVec 1) (l : BitVec 4)  -- AMOAND, R289
  | amoor (d a b : BitVec 5) (z o : BitVec 1) (l : BitVec 4)  -- AMOOR, R289
  | amoxor (d a b : BitVec 5) (z o : BitVec 1) (l : BitVec 4)  -- AMOXOR, R289
  | amomin (d a b : BitVec 5) (z o : BitVec 1) (l : BitVec 4)  -- AMOMIN, R289
  | amomax (d a b : BitVec 5) (z o : BitVec 1) (l : BitVec 4)  -- AMOMAX, R289
  | amominz (d a b : BitVec 5) (z o : BitVec 1) (l : BitVec 4)  -- AMOMINZ, R289
  | amomaxz (d a b : BitVec 5) (z o : BitVec 1) (l : BitVec 4)  -- AMOMAXZ, R289
  | amoxchg (d a b : BitVec 5) (z o : BitVec 1) (l : BitVec 4)  -- AMOXCHG, R289
  | amofadd (d a b : BitVec 5) (z o : BitVec 1) (l : BitVec 4)  -- AMOFADD, R290
  | cas (d a b : BitVec 5) (z : BitVec 1) (e : BitVec 2) (s : BitVec 3) (l : BitVec 4)  -- CAS, R291
  | rupd (p : BitVec 4) (a b : BitVec 5) (c : BitVec 3) (l : BitVec 4)  -- RUPD, R293
  | rupdAddzZ64 (a b : BitVec 5) (o c : BitVec 3) (l : BitVec 4)  -- RUPD_ADDZ_Z64, R294
  | rupdAddzZ32 (a b : BitVec 5) (o c : BitVec 3) (l : BitVec 4)  -- RUPD_ADDZ_Z32, R294
  | vamo (p : BitVec 4) (a : BitVec 5) (b v : BitVec 4) (f m : BitVec 1) (l : BitVec 4)  -- VAMO, R295
  | monarm (k : BitVec 2) (a : BitVec 5)  -- MONARM, R301
  | mondis (k : BitVec 2)  -- MONDIS, R301
  | monwait (d b : BitVec 5)  -- MONWAIT, R303
  | hmsg (d a : BitVec 5)  -- HMSG, R308
  | barcfg (a : BitVec 5) (n : BitVec 4)  -- BARCFG, R306
  | bararv (d : BitVec 5) (n : BitVec 4)  -- BARARV, R306
  | barwait (a : BitVec 5) (n : BitVec 4)  -- BARWAIT, R306
  | barsync (n : BitVec 4)  -- BARSYNC, R306
  | waitlt (c : BitVec 3) (k : BitVec 5)  -- WAITLT, R277
  | waitltr (c : BitVec 3) (a : BitVec 5)  -- WAITLTR, R277
  | bra (p : BitVec 20)  -- B, R89
  | call (p : BitVec 20)  -- CALL, R91
  | bl (p : BitVec 20)  -- BL, R91
  | bq (q : BitVec 3) (p : BitVec 20)  -- BQ, R89
  | bnq (q : BitVec 3) (p : BitVec 20)  -- BNQ, R89
  | bcmp (a b : BitVec 5) (c : BitVec 3) (p : BitVec 12)  -- BCMP, R89
  | bcmpi (a i : BitVec 5) (c : BitVec 3) (p : BitVec 12)  -- BCMPI, R89
  | jr (a : BitVec 5)  -- JR, R92
  | jl (d a : BitVec 5)  -- JL, R92
  | callr (a : BitVec 5)  -- CALLR, R92
  | ret  -- RET, R92
  | loopn (a : BitVec 5) (p : BitVec 12)  -- LOOPN, R90
  | loopns (a b : BitVec 5) (p : BitVec 12)  -- LOOPNS, R90
  | fuse (d a b : BitVec 5)  -- FUSE, R94
  | split  -- SPLIT, R110
  | rgn (p : BitVec 15)  -- RGN, R99
  | join  -- JOIN, R101
  | brk (n : BitVec 5)  -- BRK, R103
  | vote (q r : BitVec 3) (t : BitVec 2)  -- VOTE, R111
  | ballot (d : BitVec 5) (q : BitVec 3)  -- BALLOT, R112
  | shfl (d a b : BitVec 5) (m : BitVec 2)  -- SHFL, R113
  | fadd (d a b : BitVec 5) (f : BitVec 2) (r : BitVec 4)  -- FADD, R237
  | fsub (d a b : BitVec 5) (f : BitVec 2) (r : BitVec 4)  -- FSUB, R237
  | fmul (d a b : BitVec 5) (f : BitVec 2) (r : BitVec 4)  -- FMUL, R237
  | fma (d a b : BitVec 5) (f : BitVec 2) (r : BitVec 4)  -- FMA, R237
  | fnma (d a b : BitVec 5) (f : BitVec 2) (r : BitVec 4)  -- FNMA, R237
  | fmin (d a b : BitVec 5) (f : BitVec 2)  -- FMIN, R231
  | fmax (d a b : BitVec 5) (f : BitVec 2)  -- FMAX, R231
  | fsgnj (d a b : BitVec 5) (f : BitVec 2)  -- FSGNJ, R237
  | fsgnjn (d a b : BitVec 5) (f : BitVec 2)  -- FSGNJN, R237
  | fsgnjx (d a b : BitVec 5) (f : BitVec 2)  -- FSGNJX, R237
  | fclass (d a : BitVec 5) (f : BitVec 2)  -- FCLASS, R237
  | fcmp (q : BitVec 3) (a b : BitVec 5) (f c : BitVec 2)  -- FCMP, R231
  | fldexp (d a b : BitVec 5) (f : BitVec 2) (r : BitVec 4)  -- FLDEXP, R237
  | fmxsc (d a : BitVec 5) (e : BitVec 4)  -- FMXSC, R238
  | fdiv (d a b : BitVec 5) (f : BitVec 2) (l : BitVec 4)  -- FDIV, R239
  | fsqrt (d a : BitVec 5) (f : BitVec 2) (l : BitVec 4)  -- FSQRT, R239
  | frcp (d a : BitVec 5) (f : BitVec 2) (l : BitVec 4)  -- FRCP, R239
  | frsqrt (d a : BitVec 5) (f : BitVec 2) (l : BitVec 4)  -- FRSQRT, R239
  | fexp2 (d a : BitVec 5) (f : BitVec 2) (l : BitVec 4)  -- FEXP2, R239
  | flog2 (d a : BitVec 5) (f : BitVec 2) (l : BitVec 4)  -- FLOG2, R239
  | fsinpi (d a : BitVec 5) (f : BitVec 2) (l : BitVec 4)  -- FSINPI, R239
  | fcospi (d a : BitVec 5) (f : BitVec 2) (l : BitVec 4)  -- FCOSPI, R239
  | fcvt (d a : BitVec 5) (x y : BitVec 3) (r : BitVec 4)  -- FCVT, R240
  | vadd (d a b : BitVec 4) (m : BitVec 1) (t : BitVec 3)  -- VADD, R247
  | vsub (d a b : BitVec 4) (m : BitVec 1) (t : BitVec 3)  -- VSUB, R247
  | vmul (d a b : BitVec 4) (m : BitVec 1) (t : BitVec 3)  -- VMUL, R247
  | vfma (d a b : BitVec 4) (m : BitVec 1) (t : BitVec 3)  -- VFMA, R247
  | vfnma (d a b : BitVec 4) (m : BitVec 1) (t : BitVec 3)  -- VFNMA, R247
  | vmin (d a b : BitVec 4) (m : BitVec 1) (t : BitVec 3)  -- VMIN, R247
  | vmax (d a b : BitVec 4) (m : BitVec 1) (t : BitVec 3)  -- VMAX, R247
  | vabs (d a : BitVec 4) (m : BitVec 1) (t : BitVec 3)  -- VABS, R247
  | vneg (d a : BitVec 4) (m : BitVec 1) (t : BitVec 3)  -- VNEG, R247
  | vldexp (d a : BitVec 4) (b : BitVec 5) (m : BitVec 1) (t : BitVec 3)  -- VLDEXP, R247
  | vexp2 (d a : BitVec 4) (m : BitVec 1) (t : BitVec 3)  -- VEXP2, R247
  | vrcp (d a : BitVec 4) (m : BitVec 1) (t : BitVec 3)  -- VRCP, R247
  | vrsqrt (d a : BitVec 4) (m : BitVec 1) (t : BitVec 3)  -- VRSQRT, R247
  | vlog2 (d a : BitVec 4) (m : BitVec 1) (t : BitVec 3)  -- VLOG2, R247
  | vcmp (a b : BitVec 4) (c : BitVec 2) (m : BitVec 1) (t : BitVec 3)  -- VCMP, R248
  | vand (d a b : BitVec 4) (m : BitVec 1) (t : BitVec 3)  -- VAND, R247
  | vor (d a b : BitVec 4) (m : BitVec 1) (t : BitVec 3)  -- VOR, R247
  | vxor (d a b : BitVec 4) (m : BitVec 1) (t : BitVec 3)  -- VXOR, R247
  | vshl (d a b : BitVec 4) (m : BitVec 1) (t : BitVec 3)  -- VSHL, R247
  | vshr (d a b : BitVec 4) (m : BitVec 1) (t : BitVec 3)  -- VSHR, R247
  | vsra (d a b : BitVec 4) (m : BitVec 1) (t : BitVec 3)  -- VSRA, R247
  | vminz (d a b : BitVec 4) (m : BitVec 1) (t : BitVec 3)  -- VMINZ, R247
  | vmaxz (d a b : BitVec 4) (m : BitVec 1) (t : BitVec 3)  -- VMAXZ, R247
  | vadds (d a b : BitVec 4) (m : BitVec 1) (t : BitVec 3)  -- VADDS, R247
  | vsubs (d a b : BitVec 4) (m : BitVec 1) (t : BitVec 3)  -- VSUBS, R247
  | vaddzs (d a b : BitVec 4) (m : BitVec 1) (t : BitVec 3)  -- VADDZS, R247
  | vsubzs (d a b : BitVec 4) (m : BitVec 1) (t : BitVec 3)  -- VSUBZS, R247
  | vbcast (d : BitVec 4) (a : BitVec 5) (m : BitVec 1) (t : BitVec 3)  -- VBCAST, R247
  | vmov (d a : BitVec 4) (m : BitVec 1) (t : BitVec 3)  -- VMOV, R247
  | vrsum (d : BitVec 5) (a : BitVec 4) (m : BitVec 1) (t : BitVec 3)  -- VRSUM, R250
  | vrmax (d : BitVec 5) (a : BitVec 4) (m : BitVec 1) (t : BitVec 3)  -- VRMAX, R249
  | vrmin (d : BitVec 5) (a : BitVec 4) (m : BitVec 1) (t : BitVec 3)  -- VRMIN, R249
  | vramax (d : BitVec 5) (a : BitVec 4) (m : BitVec 1) (t : BitVec 3)  -- VRAMAX, R249
  | vperm (d a b : BitVec 4) (m : BitVec 1) (t : BitVec 3)  -- VPERM, R249
  | vext (d : BitVec 5) (a : BitVec 4) (b : BitVec 5) (t : BitVec 3)  -- VEXT, R249
  | vins (d : BitVec 4) (a b : BitVec 5) (t : BitVec 3)  -- VINS, R249
  | vrot (d a : BitVec 4) (b : BitVec 5) (m : BitVec 1) (t : BitVec 3)  -- VROT, R249
  | vld (d : BitVec 4) (a b : BitVec 5) (m : BitVec 1) (e : BitVec 2) (l : BitVec 4)  -- VLD, R251
  | vst (d : BitVec 4) (a b : BitVec 5) (m : BitVec 1) (e : BitVec 2) (l : BitVec 4)  -- VST, R251
  | vlds (d : BitVec 4) (a b : BitVec 5) (m : BitVec 1) (e : BitVec 2) (l : BitVec 4)  -- VLDS, R251
  | vsts (d : BitVec 4) (a b : BitVec 5) (m : BitVec 1) (e : BitVec 2) (l : BitVec 4)  -- VSTS, R251
  | vgath (d : BitVec 4) (a : BitVec 5) (b : BitVec 4) (m : BitVec 1) (e : BitVec 2) (l : BitVec 4)  -- VGATH, R251
  | vscat (d : BitVec 4) (a : BitVec 5) (b : BitVec 4) (m : BitVec 1) (e : BitVec 2) (l : BitVec 4)  -- VSCAT, R251
  | vcvt (d a : BitVec 4) (s : BitVec 5) (x : BitVec 4) (m : BitVec 1) (p : BitVec 3)  -- VCVT, R253
  | vseq (a : BitVec 5) (k : BitVec 4)  -- VSEQ, R246
  | sbindIn (x : BitVec 1) (v : BitVec 2) (b : BitVec 5) (o c : BitVec 3) (l : BitVec 4)  -- SBIND_IN, R203
  | sbindOut (v : BitVec 2) (b : BitVec 5) (o c : BitVec 3) (l : BitVec 4)  -- SBIND_OUT, R203
  | sunbind (v : BitVec 2)  -- SUNBIND, R204
  | sdrain (v : BitVec 2)  -- SDRAIN, R204
  | sstat (v : BitVec 2) (d : BitVec 5)  -- SSTAT, R205
  | sres (a b : BitVec 5)  -- SRES, R215
  | copy (x : BitVec 1) (t : BitVec 5) (o c : BitVec 3) (l : BitVec 4)  -- COPY, R208
  | copyg (x : BitVec 1) (t : BitVec 5) (o c : BitVec 3) (l : BitVec 4)  -- COPYG, R208
  | copyf (t v : BitVec 5) (o c : BitVec 3) (l : BitVec 4)  -- COPYF, R208
  | cres (a b : BitVec 5)  -- CRES, R215
  | mxldb (x : BitVec 1) (a b : BitVec 5) (o c : BitVec 3) (l : BitVec 4)  -- MXLDB, R267
  | mxmma (a b : BitVec 5) (o c : BitVec 3) (l : BitVec 4)  -- MXMMA, R269
  | mxrot (a b : BitVec 5) (o c : BitVec 3) (l : BitVec 4)  -- MXROT, R279
  | mxswap (b : BitVec 5) (c : BitVec 3) (l : BitVec 4)  -- MXSWAP, R268
  | mxclr (b : BitVec 5) (c : BitVec 3) (l : BitVec 4)  -- MXCLR, R271
  | mxldacc (x : BitVec 1) (a b : BitVec 5) (o c : BitVec 3) (l : BitVec 4)  -- MXLDACC, R271
  | mxstacc (a b : BitVec 5) (o c : BitVec 3) (l : BitVec 4)  -- MXSTACC, R272
  | mxscale (a b : BitVec 5) (c : BitVec 3) (l : BitVec 4)  -- MXSCALE, R271
  | mxrmax (a b : BitVec 5) (c : BitVec 3) (l : BitVec 4)  -- MXRMAX, R271
  | mxquotaMv (a b : BitVec 5)  -- MXQUOTA_MV, R281
  | mxquotaWt (a b : BitVec 5)  -- MXQUOTA_WT, R281
  | mxteam (a : BitVec 5)  -- MXTEAM, R282
  | mxres (a b : BitVec 5)  -- MXRES, R283
  | tbegin (p : BitVec 12)  -- TBEGIN, R313
  | tend (q : BitVec 3)  -- TEND, R331
  | tabort (c : BitVec 8)  -- TABORT, R326
  | tstat (d : BitVec 5)  -- TSTAT, R323
  | txld (d b : BitVec 5) (t : BitVec 3)  -- TXLD, R322
  | tirrev (b : BitVec 5) (p : BitVec 12)  -- TIRREV, R336
  | txchk  -- TXCHK, R323
  | launch (a s : BitVec 5) (l : BitVec 4)  -- LAUNCH, R354
  | spawn (k : BitVec 3) (l : BitVec 4)  -- SPAWN, R356
  | take (s : BitVec 5) (k : BitVec 3) (l : BitVec 4)  -- TAKE, R357
  | takeL (s : BitVec 5) (k : BitVec 3) (l : BitVec 4)  -- TAKE_L, R357
  | syncj (a s : BitVec 5) (k : BitVec 3) (l : BitVec 4)  -- SYNCJ, R359
  | nest (k : BitVec 3) (l : BitVec 4)  -- NEST, R360
  | iter (s : BitVec 5) (l : BitVec 4)  -- ITER, R362
  | itnext (s : BitVec 5) (l : BitVec 4)  -- ITNEXT, R363
  | ixmov (n : BitVec 2) (d : BitVec 5) (l : BitVec 4)  -- IXMOV, R363
  | mfs (d k y : BitVec 5) (x : BitVec 3) (z : BitVec 4)  -- MFS, R371
  | mts (k a y : BitVec 5) (x : BitVec 3) (z : BitVec 4)  -- MTS, R371
  | sys (a : BitVec 5)  -- SYS, R378
  | trap (a : BitVec 5)  -- TRAP, R378
  | eret (a : BitVec 5)  -- ERET, R379
  | eretN (a : BitVec 5)  -- ERET_N, R379
  | evwait (d b : BitVec 5)  -- EVWAIT, R382
  | cstart (d a b : BitVec 5)  -- CSTART, R385
  | cstop (a : BitVec 5)  -- CSTOP, R386
  | csave (a b : BitVec 5)  -- CSAVE, R388
  | crest (d a b : BitVec 5)  -- CREST, R392
  | replay (d a : BitVec 5)  -- REPLAY, R395
  | replayDrop (d a : BitVec 5)  -- REPLAY_DROP, R395
  | tlbinv (a b : BitVec 5) (m : BitVec 2)  -- TLBINV, R404
  | svcall (d a b : BitVec 5)  -- SVCALL, R405
  | binfo (a s : BitVec 5)  -- BINFO, R420
  | bhome (a s : BitVec 5)  -- BHOME, R421
  | brack (a s : BitVec 5)  -- BRACK, R422
  | cmig (a s : BitVec 5)  -- CMIG, R424
  | cmigChk (a s : BitVec 5)  -- CMIG_CHK, R423
  | movH (d b : BitVec 5)  -- MOV_H, R133
  | addH (d b : BitVec 5)  -- ADD_H, R133
  | subH (d b : BitVec 5)  -- SUB_H, R133
  | andH (d b : BitVec 5)  -- AND_H, R133
  | orH (d b : BitVec 5)  -- OR_H, R133
  | xorH (d b : BitVec 5)  -- XOR_H, R133
  | shliH (d i : BitVec 5)  -- SHLI_H, R133
  | shriH (d i : BitVec 5)  -- SHRI_H, R133
  | addiH (d i : BitVec 5)  -- ADDI_H, R133
  | moviH (d i : BitVec 5)  -- MOVI_H, R133
  | ldlH (d k : BitVec 5)  -- LDL_H, R151
  | stlH (d k : BitVec 5)  -- STL_H, R151
  | bH (p : BitVec 10)  -- B_H, R89
  | bqH (q : BitVec 3) (p : BitVec 6)  -- BQ_H, R89
  | bnqH (q : BitVec 3) (p : BitVec 6)  -- BNQ_H, R89
  | retH  -- RET_H, R92
  | nopH  -- NOP_H, R59
  | ifq (q : BitVec 3) (n : BitVec 1)  -- IFQ, R60
  | joinH  -- JOIN_H, R101
  | haltH  -- HALT_H, R93
  deriving DecidableEq, Repr

end Sys2Proof
end

