-- ==== Sys2Proof/Machine/State.lean ====
section
/-! DEFINITION. The state of a ZV9-4096 package, as plain data. A table entry that nothing has written
holds the default named beside its accessor, which is its value after package reset (R447). Fields marked
MODEL are the model's own: they say what a step works on or keep the model's bookkeeping, and stand for
nothing that the manual gives the machine. -/

namespace Sys2Proof.Machine

/-! ### Registers of a thread -/

/-- A register with its FE and poison bits. MODEL: src numbers the outstanding instruction that is to
fill it, 0 when none is; a result that arrives for a register written since is dropped. -/
structure Cell where
  val : Word := 0
  full : Bool := true
  poison : Bool := false
  src : Nat := 0
  deriving DecidableEq, Repr

/-- A predicate (R120). -/
structure QCell where
  val : Bool := false
  full : Bool := true
  poison : Bool := false
  src : Nat := 0
  deriving DecidableEq, Repr

/-- A vector register (R241). -/
structure VCell where
  val : BitVec 256 := 0
  full : Bool := true
  poison : Bool := false
  src : Nat := 0
  deriving DecidableEq, Repr

/-- Where a late result goes. A window register is named by its absolute place: window w holds its a at
16w to 16w + 7, its l at 16w + 8 to 16w + 15, and its c are the a of window w + 1 (R83). -/
inductive Dest where
  | none
  | g (n : Nat)
  | win (n : Nat)
  | v (n : Nat)
  | ox (n : Nat)
  | q (n : Nat)
  deriving DecidableEq, Repr

/-- Positions of contexts: braid, logical rill, context index. -/
structure Pos where
  b : Nat := 0
  r : Nat := 0
  k : Nat := 0
  deriving DecidableEq, Repr

/-! ### Accesses in flight -/

/-- What an access does when it is performed. -/
inductive AccKind where
  /-- A load (R147); sx says whether the bytes are sign-extended. -/
  | load (sx : Bool)
  | store
  | cwb | cflush | czero | iinv (reach : Nat)
  | ldfe | ldff | stfe | stff | feclr
  /-- An AMO (R289) by its op. -/
  | amo (op : Nat)
  /-- CAS (R291): sem and scope. -/
  | cas (sem scope : Nat)
  /-- RUPD by op; ops 11 and 12 push a task (R293). -/
  | rupd (op : Nat)
  /-- One element of VAMO (R295). -/
  | vamo (op : Nat) (fetch : Bool)
  /-- LDA (R191): scope, and the status predicate. -/
  | lda (sx : Bool) (scope : Nat) (qs : Option Nat)
  | strel (scope : Nat)
  | monarm (slot : Nat)
  /-- The 64 bytes of HMSG (R308) and the record of LAUNCH (R354). -/
  | hmsg | launch
  /-- The ticket of ITER (R362), the join increment of SPAWN (R356) and the join read of SYNCJ (R359). -/
  | ticket | joinInc | joinRead (k : Nat)
  deriving DecidableEq, Repr

/-- One access of a thread, from issue until it is performed. -/
structure Access where
  /-- MODEL: its number, rising in issue order, and the number that its destination waits for (Cell.src). -/
  id : Nat
  src : Nat := 0
  /-- Program-order number of its instruction in the thread. -/
  seq : Nat
  kind : AccKind
  va : Word
  /-- Translated address, in the places of Memory. -/
  pa : Nat := 0
  size : Nat
  /-- Element of a vector register (R251). -/
  elem : Nat := 0
  dst : Dest := .none
  data : Word := 0
  poison : Bool := false
  aux : Word := 0
  auxPoison : Bool := false
  /-- Attributes of the page: S (R309), NC. -/
  sync : Bool := false
  nc : Bool := false
  /-- Scope of the release tag its write carries (R164). -/
  tag : Option Nat := none
  /-- It waits for every earlier access of the thread (ordered AMO, R290; RUPD, R293). -/
  ordered : Bool := false
  /-- Completion counter lowered when it is performed. -/
  cc : Option Nat := none
  /-- Task record and target rill of RUPD.ADDZ (R294); pc and length of the unit where a later event can withdraw
  it; base, stride and the four words of the index vector of an element form (R394). -/
  ext : List Word := []
  /-- The word of its instruction, of which a saved replay entry holds fields (R394). -/
  code : Nat := 0
  /-- 0 on the way, 1 queued at its owner, 2 next to be performed (R286), 3 parked there (R298), 4 in an
  update fan-out (R309). -/
  stage : Nat := 0
  /-- Rill cycle of its arrival at the owner, for R286 and R298. -/
  since : Nat := 0
  /-- Retries counted while parked (R298). -/
  retries : Nat := 0
  starved : Bool := false
  /-- Requests combined into this one, by number, in order (R287). -/
  merged : List Nat := []
  /-- Sent by REPLAY from an entry of the queue (R145). -/
  replayed : Bool := false
  /-- Instructions in whose lookahead windows it was issued, by number (R51). -/
  within : List Nat := []
  /-- Value and poison that an RMW of host memory has read and not yet written (R285). -/
  old : Option (Nat × Bool) := none
  deriving DecidableEq, Repr

/-- The lookahead window of an instruction that is not LA-complete (R50). -/
structure Window where
  seq : Nat
  la : Nat
  after : Nat := 0
  /-- It stays open while an entry of the replay queue holds accesses of the instruction (R296, R353). -/
  kept : Bool := false
  deriving DecidableEq, Repr

/-- A multiply, divide or FP long result on its way (R130, R239). -/
structure LongOp where
  id : Nat
  seq : Nat
  /-- 0 multiply, 1 divide, 2 FP long. -/
  unit : Nat
  dst : Dest
  val : Word
  poison : Bool
  flags : BitVec 5 := 0
  due : Nat
  deriving DecidableEq, Repr

/-- An entry of the replay queue (R394): the accesses that one instruction logged for one page or line. -/
structure REntry where
  pos : Pos
  seq : Nat
  cause : Nat
  /-- XSTAT.SUB of its wake record (R403), plus 8 while the record waits for the page request's response. -/
  sub : Nat := 0
  accs : List Access
  /-- Its wake record was delivered or is pending (R145: later entries of a chain make none). -/
  woken : Bool := true
  deriving DecidableEq, Repr

/-- A running block instruction (R157 to R160). -/
structure Block where
  id : Nat
  seq : Nat
  op : Nat
  esize : Nat
  nd : Dest
  ad : Dest
  bd : Dest
  n : Word
  a : Word
  b : Word
  bPoison : Bool
  pc : Word
  len : Nat
  /-- Instructions in whose lookahead windows it was issued, by number (R51). -/
  within : List Nat := []
  /-- No element of it has been done since it issued. -/
  fresh : Bool := true
  deriving DecidableEq, Repr

/-- An entry of the vector sequencer (R242): major 0x30, 0x31 or 0x33 with fn (for VCVT the destination
code), the fields d, a and b (for VCVT the source code), .m, and the type or part; the general operands
captured at issue; the destination register; and the VSEQ block it belongs to, 0 for none. -/
structure VEntry where
  id : Nat
  seq : Nat
  major : Nat
  fn : Nat
  d : Nat
  a : Nat
  b : Nat
  m : Bool
  t : Nat
  x : Word := 0
  y : Word := 0
  xp : Bool := false
  yp : Bool := false
  dst : Dest := .none
  blk : Nat := 0
  /-- The instruction's word, which a save image holds (R391). -/
  word : Nat := 0
  deriving DecidableEq, Repr

/-- A VSEQ block (R246). -/
structure VBlock where
  id : Nat
  /-- Entries of the block. -/
  size : Nat
  /-- Units still to be captured. -/
  missing : Nat
  /-- Next entry to execute, and repetitions including the current one. -/
  pos : Nat := 0
  reps : Nat
  pc : Word
  deriving DecidableEq, Repr

/-- A vector result to be written (R243). -/
structure VResult where
  id : Nat
  seq : Nat
  due : Nat
  dst : Dest
  val : BitVec 256
  poison : Bool
  /-- It is the result of the instruction's last execution, which fills the destination. -/
  last : Bool := true
  deriving DecidableEq, Repr

/-- A FIFO entry of a stream (R194): value and poison; for a push its number in the order of ownership, the
number of its instruction and the elements it writes; the position of its first element. -/
structure SEntry where
  id : Nat := 0
  seq : Nat := 0
  first : Nat := 0
  val : BitVec 256 := 0
  poison : Bool := false
  mask : Nat := 0
  /-- Elements already read or stored. -/
  done : Nat := 0
  deriving DecidableEq, Repr

/-- A bound stream slot (R197, R205). -/
structure Stream where
  input : Bool
  base : Word
  w1 : Word
  w2 : Word
  w3 : Word
  ctl : Word
  cc : Nat
  xp : Bool
  /-- Number of the SBIND in its thread; MODEL: that of the last release at .bs or wider before it that is still to be performed
  (R177). -/
  seq : Nat
  after : Nat := 0
  /-- Entries popped, or pushed. -/
  moved : Nat := 0
  fifo : List SEntry := []
  ended : Bool := false
  flt : Bool := false
  canc : Bool := false
  /-- Position at the bind, in elements; START of ctl unless it was restored (R218). -/
  start : Nat
  deriving DecidableEq, Repr

/-- A loop-nest binding (R360, R362, R391). -/
structure Nest where
  /-- MODEL: program-order number of its NEST. -/
  seq : Nat := 0
  line : Word
  extents : Word
  parts : Word
  current : Bool := false
  start : Nat := 0
  size : Nat := 0
  unpacked : Nat := 0
  ticket : Nat := 0
  poison : Bool := false
  deriving DecidableEq, Repr

/-- MODEL: what a word held before a plain store of the thread that no release at .bs or wider and no FENCE.XP has ordered
since, which an engine's source read may still return (R177): the number of the store's instruction, value and poison. -/
structure Older where
  word : Nat
  seq : Nat
  val : Nat
  poison : Bool
  deriving DecidableEq, Repr

/-- The register checkpoint of a transaction (R314). -/
structure Ckpt where
  g : Table Cell
  win : Table Cell
  depth : Nat
  q : Table QCell
  v : Table VCell
  ox : Table Cell
  ix : Table Cell
  sr : List (Nat × Word)
  deriving DecidableEq, Repr

/-- A read-log or write-log entry (R315): word address, value, poison, byte mask, page attribute S. -/
structure LogEntry where
  word : Nat
  val : Word
  poison : Bool
  mask : Nat := 255
  sync : Bool := false
  va : Word := 0
  deriving DecidableEq, Repr

/-- A cached translation (R402). -/
structure TlbEntry where
  basin : Nat
  asid : Nat
  /-- Virtual page base, page size in bytes, physical base, leaf. -/
  va : Nat
  size : Nat
  pa : Nat
  leaf : Word
  deriving DecidableEq, Repr

/-- A transaction (R312). commit: 0 running, 1 LOCKING, 2 APPLY. -/
structure Tx where
  pc : Word
  label : Word
  ckpt : Ckpt
  reads : List LogEntry := []
  writes : List LogEntry := []
  /-- Spill area and its entries (R337). -/
  spill : Word := 0
  spilled : List LogEntry := []
  /-- Lines an irrevocable transaction or a commit holds, and the words that an irrevocable one has read (R179). -/
  lines : List Nat := []
  acqs : List Nat := []
  commit : Nat := 0
  began : Nat := 0
  /-- Slices whose reply is awaited, and the answers: 0 valid, 1 invalid, 2 CONFLICT-LOCK. -/
  awaiting : List Nat := []
  verdict : Nat := 0
  /-- The translations that its accesses have used (R341). -/
  used : List TlbEntry := []
  /-- Predicate that TEND writes. -/
  qd : Nat := 0
  deriving DecidableEq, Repr

/-- Why a unit is held in its slot without effect (R79). -/
inductive Hold where
  | register | lookahead | replayFull | fetchMiss | window | engine | counter | order | order2
  | quiet | sequencer | room | lock | translation | tokenWait | drain
  /-- An FE-synchronising shared-register operation (R136) or a neighbour write (R140), retried by its
  own event. -/
  | shared | neighbour
  deriving DecidableEq, Repr

/-- What a thread waits for after its unit has issued (R79). A deadline of 0 is none. -/
inductive Wait where
  /-- The accesses of the unit with this number (LDA, STREL, MONARM, HMSG; FE memory in context 15). -/
  | access (seq : Nat)
  /-- limit is the TIMEOUT operand; cleared are the REJOIN entries that an implicit FUSE cleared (R107),
  which a withdrawal by CSTOP sets again. -/
  | fuse (mask tag limit deadline : Nat) (d : Dest) (implicit : Bool) (cleared : Nat) (next : Word)
  | barrier (n phase : Nat)
  | monwait (d : Dest) (deadline : Nat)
  | evwait (d : Dest) (deadline : Nat)
  | service (d : Dest) (call : Nat)
  /-- The lock of a line (R337) and the rill cycle in which it was asked for. -/
  | token | irrLock (line since : Nat) | commit
  /-- TLBINV: the accesses, by number, that use a translation it has removed (R404). -/
  | shootdown (ids : List Nat)
  /-- BRACK on a leaving rill (R422), with RSEQ * 8 + PHASE; CMIG until its braid has drained (R424). -/
  | brack (d : Dest) (code : Nat) | cmig (d : Dest) (src dst : Nat)
  deriving DecidableEq, Repr

/-- States of a context (R384); paused is a running context that a CMIG or a retirement holds (R424, R426). -/
inductive Run where
  | empty | running | stopping | stopped | paused
  deriving DecidableEq, Repr

/-- MODEL: what the unit that a context issued in a rill cycle has changed: the depth of its windows before, and each
register whose cell it changed, with whether a neighbour write could have had it before (R140). -/
structure SlotFe where
  cycle : Nat
  depth : Nat
  was : List (Dest × Bool) := []
  /-- The unit has changed FE bits alone (R138). -/
  fe : Bool := false
  deriving DecidableEq, Repr

/-- A hardware context (R14). -/
structure Ctx where
  run : Run := .empty
  /-- HALT.H has executed; the context becomes empty when its work is done (R93). -/
  halting : Bool := false
  pc : Word := 0
  /-- First rill cycle in which it may issue (R81). -/
  startAt : Nat := 0
  /-- Address of its last issued unit. -/
  lastPc : Word := 0
  /-- Rill cycle of its last issued unit, its start or its resumption (R383), and whether the wait since
  has made its watchdog record. -/
  lastIssue : Nat := 0
  dogged : Bool := false
  g : Table Cell := []
  win : Table Cell := []
  /-- The current window and how many are resident (R84). MODEL: windows are numbered from 2048 at a
  start, so that window depth - 1 is current and depth - resident is the oldest resident one; D is
  resident + S with S from WSP and WSBASE. -/
  depth : Nat := 2048
  resident : Nat := 1
  q : Table QCell := []
  v : Table VCell := []
  ox : Table Cell := []
  ix : Table Cell := []
  /-- System registers of the thread, by number. -/
  sr : Table Word := []
  /-- Retries of the held FE or neighbour operation (R141). -/
  retry : Nat := 0
  /-- The unit that is held, for the events that retry it, its length in halfwords, and the rill cycle after
  its latest attempt (0 before the first). -/
  heldUnit : Option Instr := none
  heldLen : Nat := 2
  triedAt : Nat := 0
  slotFe : SlotFe := { cycle := 0, depth := 2048 }
  held : Option Hold := none
  wait : Option Wait := none
  /-- MODEL: program-order counter. -/
  seq : Nat := 0
  flights : List Access := []
  las : List Window := []
  longs : List LongOp := []
  /-- The running block instruction, and those issued in its window, which wait for the block unit (R50, R160). -/
  block : Option Block := none
  more : List Block := []
  vseq : List VEntry := []
  vblocks : List VBlock := []
  vres : List VResult := []
  /-- MODEL: the number of the last instruction whose execution has written a vector register; what an earlier load of it
  still delivers is dropped (R243). -/
  vWrote : Table Nat := []
  streams : Table Stream := []
  nest : Option Nest := none
  /-- MODEL: number of the thread's last ITER (R363). -/
  lastIter : Nat := 0
  /-- MODEL: the words that the window engine has spilled and not yet filled, by word of the rill's local store, with their
  poison (R84). -/
  frames : Table (Nat × Bool) := []
  /-- Scope of the most recent FENCE or FENCE.REL (R164). -/
  relTag : Option Nat := none
  /-- MODEL: the edges of R180 that end at this context: the accesses of another context, named by its place among all
  contexts, that are numbered below a number come before those of this one from that number on. -/
  after : List (Nat × Nat) := []
  /-- MODEL: after a CMIG, the number of the unit before which everything that the thread has issued must be complete (R182);
  0 when there is none. -/
  fenceAt : Nat := 0
  older : List Older := []
  tx : Option Tx := none
  /-- Physical lines of armed monitor slots (R301). -/
  mons : Table Nat := []
  /-- Armed team word (R282). -/
  team : Option Word := none
  /-- Cohort of the braid that the thread belongs to. -/
  cohort : Option Nat := none
  /-- Waiting CSTOP of an irrevocable transaction (R340): the cycle at which it ends by force. -/
  stopBy : Nat := 0
  /-- MODEL: the lane's last unit transferred control; the cause with which it leaves its group. -/
  took : Bool := false
  left : Option Nat := none
  deriving DecidableEq, Repr

/-! ### Rills -/

/-- An effect on a shared register still to come (R135): FE value when it is set. -/
structure SharedEffect where
  due : Nat
  m : Nat
  val : Option (Word × Bool)
  full : Option Bool
  deriving DecidableEq, Repr

/-- An accepted neighbour write (R140). -/
structure Landing where
  id : Nat
  due : Nat
  k : Nat
  dst : Dest
  val : Word
  poison : Bool
  deriving DecidableEq, Repr

/-- An event record (R381). cls: 0 resize, 1 trap or stop, 2 replay wake, 3 engine, 4 notification,
5 watchdog. -/
structure EventRec where
  cls : Nat
  cause : Nat
  val : Word
  xstat : Word
  /-- Rank within the class: context, replay entry or order of arrival. -/
  rank : Nat
  deriving DecidableEq, Repr

/-- The window engine's operation (R85). -/
structure WinOp where
  k : Nat
  spill : Bool
  slots : Nat := 0
  deriving DecidableEq, Repr

/-- A deque push that waits for room (R355): the record and the SPAWN it belongs to. -/
structure DqPush where
  task : List (Word × Bool)
  src : Option (Pos × Nat) := none
  cc : Option (Pos × Nat) := none
  /-- Rill cycle of its arrival. -/
  since : Nat := 0
  deriving DecidableEq, Repr

/-- A TAKE, TAKE.L or SYNCJ that is to pop the deque (R357, R359), or steals (R358): context, the number its
destinations wait for, s and the ox block, which of the three it is (0, 1, 2), the probe it makes next (0: it is
to pop its own deque; 1 to 7: a rill of the braid; from 8 up: a braid, with the level, the tries and the
distance from the own braid's index reached). -/
structure TakeOp where
  k : Nat
  id : Nat
  s : Dest
  ox : Nat
  kind : Nat
  probe : Nat := 0
  deriving DecidableEq, Repr

/-- A logical rill of a braid (R14). -/
structure Rill where
  /-- m0 to m15; an entry never written is 0 and EMPTY (R134). -/
  m : Table Cell := []
  mEffects : List SharedEffect := []
  /-- Rill cycle in which the last FE operation on a register issued (R136). -/
  mReserved : Table Nat := []
  landings : List Landing := []
  cc : Table Nat := []
  /-- Replay queue: entry by index 0 to 31. -/
  replay : Table REntry := []
  tlb : List TlbEntry := []
  /-- L1 instruction cache: the 64 bytes of each line held, by physical line. -/
  icache : Table Nat := []
  /-- MODEL: what each of those lines has held since, as stores wrote it (R65). -/
  versions : Table (List Nat) := []
  /-- Lines on their way to the fetch stage. -/
  fetching : List Nat := []
  /-- The entries of the task deque held in hardware, oldest first: four words each with their poison
  (R355). -/
  deque : List (List (Word × Bool)) := []
  dqWait : List DqPush := []
  takes : List TakeOp := []
  /-- Older entries, which lie in the spill area: how many, and the place of the oldest (R355). -/
  spilled : Nat := 0
  spillHead : Nat := 0
  dqSpillNext : Option Word := none
  /-- MODEL: the words that the deque unit has spilled and not yet loaded, by word of the rill's local store, with their poison
  (R355). -/
  dqFrames : Table (Nat × Bool) := []
  sr : Table Word := []
  events : List EventRec := []
  /-- Records whose source has an undelivered one, before which they do not become pending (R381). -/
  later : List EventRec := []
  /-- Operation of the window engine in progress (R85). -/
  winOp : Option WinOp := none
  /-- Next context of the vector unit and of the block unit, next slot of the stream engine. -/
  vNext : Nat := 0
  bNext : Nat := 0
  sNext : Nat := 0
  /-- Rill cycles of the corrected errors reported within the last second (R429). -/
  corrected : List Nat := []
  deriving DecidableEq, Repr

/-! ### Braids -/

/-- A fused group (R96, R98). -/
inductive StackEntry where
  | region (jpc : Word) (cover pend : Nat)
  | path (rpc : Word) (defer : Nat)
  deriving DecidableEq, Repr

structure Group where
  k : Nat
  mask : Nat
  active : Nat
  pc : Word
  stack : List StackEntry := []
  /-- Lanes whose handler has not yet returned them from a SYS of the whole group (R108). -/
  sysWait : Nat := 0
  deriving DecidableEq, Repr

/-- MODEL: an arrival at a barrier: rill, context, where the phase goes, and whether it is a BARSYNC's. -/
structure Arrival where
  r : Nat
  k : Nat
  dst : Dest
  sync : Bool
  deriving DecidableEq, Repr

/-- A barrier (R305). MODEL: the arrivals of the rill cycle logAt - 1 in their order, and COUNT, ARRIVED, PHASE and the COUNT
to come before them (R306). -/
structure Barrier where
  cohort : Option Nat := none
  count : Nat := 1
  arrived : Nat := 0
  phase : Nat := 0
  nextCount : Option Nat := none
  logAt : Nat := 0
  logged : List Arrival := []
  was : Nat × Nat × Nat × Option Nat := (1, 0, 0, none)
  deriving DecidableEq, Repr

/-- An aligned block of 24 values (R259): SPECIAL, exponent, mantissas, poison. -/
structure MBlock where
  special : Bool := false
  e : Int := 0
  m : List Int := []
  poison : Bool := false
  deriving DecidableEq, Repr

/-- A bank of a macro slot (R254): blocks by column * 16 + block. -/
structure Bank where
  loaded : Bool := false
  width : Nat := 0
  sparsity : Nat := 0
  blocks : Table MBlock := []
  deriving DecidableEq, Repr

/-- A matrix command (R262, R263). phase: 0 queued, 1 running, 2 stopped. -/
structure MxCmd where
  id : Nat
  /-- Queue entry, 0 to 15. -/
  entry : Nat
  rill : Nat
  ctx : Nat
  op : Nat
  a : Word
  b : Word
  o0 : Word := 0
  o1 : Word := 0
  cc : Nat
  xp : Bool := false
  /-- MXSTACC: rounding code and SATF resolved at issue (R272). -/
  rm : Nat := 0
  satf : Bool := false
  team : Option Word := none
  /-- The lead's command that it starts and completes with (R282); 0 for its own. -/
  lead : Nat := 0
  /-- Tiles whose OUT counts it. -/
  tiles : List Nat := []
  seq : Nat := 0
  /-- MODEL: number of the last unit before it that is a release at .bs or wider and is still to be performed (R177). -/
  after : Nat := 0
  phase : Nat := 0
  began : Nat := 0
  due : Nat := 0
  /-- Elements done (R266). -/
  done : Nat := 0
  /-- Code of R265 found at start or while loading, 0 for none. -/
  code : Nat := 0
  /-- Values taken at start: the A bytes of MXROT, the results of MXRMAX; the shadow bank of MXROT. -/
  saved : List (Nat × Bool) := []
  bank : Bank := {}
  /-- MXROT: transfers still awaited: 0 A from the east, 1 B from the south, 2 A to the west, 3 B to the
  north. -/
  links : List Nat := []
  deriving DecidableEq, Repr

structure Slot where
  cohort : Option Nat := none
  active : Bank := {}
  shadow : Bank := {}
  deriving DecidableEq, Repr

/-- An accumulator tile with its quota entry (R254): elements by row * 96 + column, as binary32 bits and
poison. -/
structure Tile where
  cohort : Option Nat := none
  owner : Option Nat := none
  pending : Option Nat := none
  out : Nat := 0
  els : Table (Nat × Bool) := []
  deriving DecidableEq, Repr

/-- A copy command (R208, R209). phase: 0 accepted, 1 in progress, 2 stopped, 3 to complete. -/
structure CopyCmd where
  /-- Number in the order of acceptance, over the package. -/
  id : Nat
  entry : Nat
  rill : Nat
  ctx : Nat
  op : Nat
  o0 : Word
  o1 : Word
  o2 : Word
  o3 : Word
  fill : Word := 0
  fillPoison : Bool := false
  token : Dest
  seq : Nat
  cc : Nat
  xp : Bool
  /-- MODEL: number of the last unit before it that is a release at .bs or wider and is still to be performed (R177). -/
  after : Nat := 0
  phase : Nat := 0
  done : Nat := 0
  cancelled : Bool := false
  /-- Words that are written in part so far, by address, with the OR of the poison bits supplied to them (R210). -/
  parts : Table Bool := []
  deriving DecidableEq, Repr

/-- A line of a braid's L1 data structures (R152, R153): where (n is the private half of rill n, 8 + n its pool half),
the line of the address that its latest access used, whether it is a line of an S page, writable, dirty, and the
home's last written-back bytes with their poison bits while it is dirty. -/
structure L1Line where
  place : Nat
  va : Nat := 0
  sync : Bool := false
  writable : Bool := false
  dirty : Bool := false
  home : Nat := 0
  homePoison : Nat := 0
  deriving DecidableEq, Repr

/-- A cohort placed on a braid (R349). -/
structure Cohort where
  record : Nat
  basin : Nat
  threads : List (Nat × Nat)
  /-- Those that have halted. -/
  halted : List (Nat × Nat) := []
  /-- Local store held: rill, first byte, end. -/
  store : List (Nat × Nat × Nat)
  tile0 : Nat := 0
  tiles : Nat := 0
  slot0 : Nat := 0
  slots : Nat := 0
  bar0 : Nat := 0
  bars : Nat := 0
  deriving DecidableEq, Repr

/-- States of a granule (R407). -/
inductive GState where
  | free | owned | leaving | scrubbing | retired
  deriving DecidableEq, Repr

structure Granule where
  state : GState := .free
  basin : Nat := 0
  /-- It becomes RETIRED, not FREE, when its scrub ends (R427). -/
  retiring : Bool := false
  /-- It joined in the current resize (R420). -/
  joining : Bool := false
  /-- MODEL: how often its scrub has cleared some of its words so far (R408). -/
  sweeps : Nat := 0
  deriving DecidableEq, Repr

/-- A braid (R14, R15). -/
structure Braid where
  gran : Granule := {}
  /-- Basin braid index (R20). -/
  index : Nat := 0
  /-- Physical rill of each logical rill, and the spare; never written: rill n and 8 (R15). -/
  l2p : Table Nat := []
  spare : Option Nat := some 8
  /-- BMODE.SHARED, a running switch and the end of it, switches that wait (R115). -/
  shared : Bool := false
  busy : Bool := false
  modeQueue : List Bool := []
  groups : List Group := []
  barriers : Table Barrier := []
  slots : Table Slot := []
  tiles : Table Tile := []
  mx : List MxCmd := []
  /-- Arbiter credits and pointer (R275), and starts counted in the current 1024 cycles (R448). -/
  credits : Table Nat := []
  arbNext : Nat := 0
  starts : Nat := 0
  startsFrom : Nat := 0
  tlb : List TlbEntry := []
  l1 : Table L1Line := []
  copies : List CopyCmd := []
  copyNext : Nat := 0
  cohorts : Table Cohort := []
  /-- RP of the dispatcher and the record the braid is reserved for (R350). -/
  rp : Nat := 0
  reserved : Option Nat := none
  /-- Fenced (R309); without keep-alive. -/
  fenced : Bool := false
  cut : Bool := false
  /-- A CMIG that names this braid runs (R423). -/
  moving : Bool := false
  /-- The braid to which a CMIG of a resize has moved its state (R413). -/
  movedTo : Option Nat := none
  /-- Logical rills whose retirement R429 still owes, as the resize that was to make it has been abandoned. -/
  owed : List Nat := []
  deriving DecidableEq, Repr

/-! ### Basins -/

/-- A submission record held by a queue (R343, R346). -/
structure Record where
  id : Nat
  queue : Nat
  words : List Word
  eligible : Bool := false
  since : Nat := 0
  aged : Bool := false
  placed : Nat := 0
  running : Nat := 0
  cancelled : Bool := false
  status : Nat := 0
  /-- Lines of the dependence words as the queue last read them, which it watches as a monitor does, and whether it is to
  read them again: a write to one of them is performed, or a read could not be made yet (R346). -/
  deps : List Nat := []
  reread : Bool := false
  /-- MODEL: the edges of R180 from the writes that have made it eligible. -/
  edges : List (Nat × Nat) := []
  deriving DecidableEq, Repr

/-- MODEL: a write that has raised a word while accesses that come before it were in flight: the word, its values before
and after, and those accesses as edges of R180. -/
structure Raise where
  word : Nat
  old : Nat
  new : Nat
  edges : List (Nat × Nat)
  deriving DecidableEq, Repr

/-- A launch queue (R345). -/
structure Queue where
  prio : Nat := 0
  enable : Bool := false
  aspace : Word := 0
  vf : Nat := 0
  placed : Nat := 0
  deriving DecidableEq, Repr

/-- A resize (R411). -/
structure Resize where
  add : List (Nat × Nat)
  remove : List (Nat × Nat)
  dest : Table Nat := []
  deadline : Nat
  seq : Nat
  phase : Nat := 0
  /-- The phase has been started; its start; its hardware work is done. -/
  began : Bool := false
  since : Nat := 0
  worked : Bool := false
  notified : List Nat := []
  acked : List Nat := []
  forced : Bool := false
  /-- The deadline of the running phase has passed; moves of braids that Headwater makes, and leaving braids whose forced
  move waits for a CMIG that runs (R414). -/
  late : Bool := false
  moves : List (Nat × Nat) := []
  forcing : List Nat := []
  /-- Rill being retired: braid and logical rill (R426). -/
  retire : Option (Nat × Nat) := none
  deriving DecidableEq, Repr

/-- A ring of entries in host memory (R437, R438, R440). -/
structure Ring where
  vf : Nat := 0
  base : Word := 0
  k : Nat := 0
  tailAddr : Word := 0
  vector : Nat := 0
  head : Nat := 0
  tail : Nat := 0
  overflow : Bool := false
  deriving DecidableEq, Repr

/-- The weir token (R335). -/
structure Token where
  holder : Option Pos := none
  pending : List (Nat × Pos) := []
  deriving DecidableEq, Repr

structure Basin where
  alive : Bool := false
  contained : Bool := false
  /-- Slice list and its generation; the next list during a rehash; lines handed over (R415). -/
  slices : List Nat := []
  gen : Nat := 0
  nextSlices : Option (List Nat) := none
  handed : List Nat := []
  /-- Supervisor configuration (R409): entry, ASPACE, WSBASE, WSP, WSLIMIT, LSBASE, LSDISP of each rill. -/
  entry : Word := 0
  aspace : Word := 0
  wsbase : Word := 0
  wsp : Word := 0
  wslimit : Word := 0
  lsbase : Word := 0
  lsdisp : List Word := []
  queues : Table Queue := []
  records : List Record := []
  qrr : Nat := 0
  token : Token := {}
  rseq : Nat := 0
  resize : Option Resize := none
  waiting : List Resize := []
  lastForced : Bool := false
  hmsg : Option Ring := none
  key : Nat := 0
  deriving DecidableEq, Repr

/-! ### The package -/

/-- An update or invalidation fan-out of a line (R309): the sharers still to acknowledge, and the write
that waits for them. agent: the writer that is no thread's single access, by its number, whose write follows at its own
next event once no sharer is left; 2^60 is one from outside, whose write acc holds. -/
structure Fanout where
  line : Nat
  sharers : List Nat
  agent : Option Nat := none
  pos : Pos
  acc : Access
  since : Nat
  deriving DecidableEq, Repr

/-- MODEL: a write that waits in the queue of a line at its home slice and is no request of a thread's unit (R286): its
thread or agent, its number, that of its instruction, when it came and when it last asked. -/
structure LineWait where
  line : Nat
  pos : Pos
  id : Nat
  seq : Nat
  since : Nat
  last : Nat
  deriving DecidableEq, Repr

/-- The lock state of a line (R332): kind 1 HELD, 2 APPLY, 3 held by an irrevocable transaction. -/
structure Lock where
  kind : Nat
  pos : Pos
  tid : Nat
  deriving DecidableEq, Repr

/-- A packet at an input of an egress port (R364, R365). -/
structure Packet where
  pos : Pos
  acc : Access
  prio : Nat
  age : Nat := 0
  input : Nat := 0
  headAt : Nat := 0
  deriving DecidableEq, Repr

/-- An address-translation request to the host (R403). -/
structure AtsReq where
  id : Nat
  pos : Pos
  asid : Nat
  va : Word
  write : Bool
  /-- The leaf of the page and its size. -/
  leaf : Word := 0
  size : Nat := 4096
  /-- 0 asked, 1 not translated and a page request is out, 2 not translated, 3 granted to a queue, with its place. -/
  phase : Nat := 0
  pa : Nat := 0
  deriving DecidableEq, Repr

/-- A call of a service (R431, R432). The caller is a basin, or 64 for the host; the block is a mailbox
slot or an address of context 15. -/
structure Call where
  id : Nat
  caller : Nat
  service : Nat
  slot : Nat := 0
  pos : Pos := {}
  va : Word := 0
  /-- 0 waits, 1 in service, 2 performed, its status word to be returned. -/
  phase : Nat := 0
  /-- The basin that a BASIN-DESTROY in service waits for. -/
  target : Nat := 0
  status : Word := 0
  deriving DecidableEq, Repr

/-- An application core (R442). run: 0 stopped, 1 running, 2 starting, 3 stopping. mode: 0 before its first start,
1 HS mode (CORE-START); what its RISC-V program makes of it since is not part of this model. -/
structure Core where
  gran : Granule := {}
  run : Nat := 0
  mode : Nat := 0
  pc : Word := 0
  x : Table Word := []
  f : Table Word := []
  csr : Table Word := []
  /-- User-interrupt file: pending bits, FIFO, overflow, and the identity bound by UIF-CONFIG. -/
  pending : Nat := 0
  fifo : List (Nat × Nat × Nat) := []
  ovf : Bool := false
  identity : Nat := 0
  file : Nat := 0
  /-- The address at which its latest access took a RISC-V access fault. -/
  fault : Option Nat := none
  /-- The line that an LR of the core has reserved. -/
  resv : Option Nat := none
  /-- IMSIC identities that the user-interrupt file has raised, each with its guest interrupt file, oldest first. -/
  imsic : List (Nat × Nat) := []
  /-- Answer for the core's latest launch store: 3 pending, 0 accept, 1 retry, 2 refused. -/
  launch : Nat := 0
  deriving DecidableEq, Repr

/-- A virtual function (R436): granule, notification ring, DOWN, MSI-X vectors sent, writes discarded; the 64-bit words of
its MSI-X table, of which one that is never written masks its vector, and the pending bits of masked vectors. -/
structure Vf where
  gran : Granule := {}
  notify : Option Ring := none
  down : Bool := false
  msix : List Nat := []
  discarded : Nat := 0
  table : Table Word := []
  pba : Nat := 0
  deriving DecidableEq, Repr

/-- An entry of the error log (R458, ERRLOG-READ). -/
structure ErrEntry where
  time : Nat
  basin : Option Nat
  cls : Nat
  kind : Nat
  num : Nat
  addr : Word
  deriving DecidableEq, Repr

/-- A firmware image (R435): its security version; for one that has been staged, the build number drawn with it and its
length and bytes, the lowest first. The bytes of an image that the package came with are not known. -/
structure Firmware where
  version : Nat := 0
  build : Nat := 0
  text : Option (Nat × Nat) := none
  deriving DecidableEq, Repr

/-- The place of an image: the active one and the staged verified one. -/
structure Image where
  active : Firmware := {}
  staged : Option Firmware := none
  /-- The active image failed verification at reset. -/
  bad : Bool := false
  /-- The image that a switch has chosen, until no call is in service (R434). -/
  next : Option Firmware := none
  /-- The image that the measurement shows: the active one, once it has taken a call (R443). -/
  shown : Firmware := {}
  deriving DecidableEq, Repr

/-- Where the machine stops because the manual gives no effect at all. There is no such place: every
undefined value of the manual is a free value, and every error has its trap or event. -/
inductive Fault where
  deriving DecidableEq, Repr

/-- Where the model gives an instruction no meaning. -/
inductive Refusal where
  /-- The instruction has no meaning in the model yet. Raised by exec. Safe: nothing can be proved about
  a step that is refused. -/
  | notModelled (mnemonic : String)
  deriving DecidableEq, Repr

/-- A partner of a cancelled MXROT, by the number of that command (R283): its braid and tag; MODEL: how many steps it is still
to complete before the one that was to be paired; it has completed that one or it has been cancelled. -/
structure BadTag where
  rot : Nat
  braid : Nat
  tag : Nat
  skip : Nat := 0
  done : Bool := false
  deriving DecidableEq, Repr

/-- The package. -/
structure State where
  mem : Memory := {}
  ctxs : Table Ctx := []
  rills : Table Rill := []
  braids : Table Braid := []
  basins : Table Basin := []
  gslices : Table Granule := []
  gchans : Table Granule := []
  cores : Table Core := []
  vfs : Table Vf := []
  /-- Rill cycle (R78); every braid of the model counts the same cycles. -/
  cycle : Nat := 0
  /-- Requests at their owners (R286) and packets at egress ports with each port's RR (R365). -/
  requests : List (Pos × Access) := []
  packets : Table (List Packet) := []
  portNext : Table Nat := []
  fanouts : List Fanout := []
  locks : Table Lock := []
  ats : List AtsReq := []
  /-- Scope-miss notifications that wait at a slice (R184): rill, word, context, scope code. -/
  misses : List (Nat × Word × Nat × Nat) := []
  /-- Monitor slots that a performed write is to trigger (R302): position and slot. -/
  triggers : List (Pos × Nat) := []
  calls : List Call := []
  lastServed : Table Nat := []
  mailbox : Table Word := []
  mailStatus : Table Word := []
  /-- PF 0 MSI-X vectors sent; event ring (R440). -/
  msix : List Nat := []
  eventRing : Option Ring := none
  errlog : List ErrEntry := []
  /-- Entries, from the oldest, that the host has read (ERRLOG-CLEAR). -/
  errRead : Nat := 0
  /-- Package time (TIME-SYNC): its value in ns at the rill cycle timeAt. -/
  timeBase : Nat := 0
  timeAt : Nat := 0
  images : Table Image := []
  /-- Image verification after reset has ended (R435). -/
  verified : Bool := false
  /-- Spare table (R430): retired granules (kind, number) and rills (braid, physical rill). -/
  spareGranules : List (Nat × Nat) := []
  spareRills : List (Nat × Nat) := []
  /-- Opened CXL.mem windows by pseudo-channel (R439). -/
  windows : List Nat := []
  /-- Host copies of device lines and host lines held by the package (R439, R410). -/
  hostCopies : List Nat := []
  /-- ZCL (R444 to R446): number, ports, routes, grants in both directions (package * 512 + pseudo-channel, basin),
  and the lines of this package that another holds: package, line, writable. -/
  zclNumber : Nat := 0
  zclPorts : Nat := 0
  zclRoutes : Table Nat := []
  zclIn : List (Nat × Nat) := []
  zclOut : List (Nat × Nat) := []
  remote : List (Nat × Nat × Bool) := []
  /-- Power controller (R448): measurements, newest first, of the last second; limit, 1 ms and 1 s averages in W,
  budget. -/
  powerSamples : List Nat := []
  powerLimit : Nat := 3600
  power1ms : Nat := 0
  power1s : Nat := 0
  budget : Option Nat := none
  /-- SPDM responder (R443): messages exchanged so far, as far as a later message depends on them. -/
  spdm : Nat := 0
  spdmReply : List Word := []
  /-- The model's own field: data and poison of the latest answer to a read, AtomicOp, AMO or SC of an agent outside the
  rills, which the manual says such an agent receives (R285, R437, R439, R442). -/
  reply : Word × Bool := (0, false)
  nextRecord : Nat := 1
  /-- MODEL: raises of words whose edges of R180 are still open. -/
  raises : List Raise := []
  /-- MODEL: writes of agents that wait in the queues of lines (R286). -/
  lineWaits : List LineWait := []
  /-- Torus tags whose pairing is undefined (R283): the partners that are to complete first. -/
  badTags : List BadTag := []
  /-- MODEL: next number of an access, command or call. -/
  nextId : Nat := 1
  /-- MODEL: count of free values drawn. -/
  free : Nat := 0
  /-- MODEL: the thread or lane whose unit executes; address of the unit and of its instruction, length
  of the unit in halfwords, its words as XVAL shows them (R61), the word of its instruction, and whether its condition passed. -/
  cur : Pos := {}
  upc : Word := 0
  ipc : Word := 0
  ulen : Nat := 2
  uw : Word := 0
  iword : Nat := 0
  cond : Bool := true
  /-- MODEL: the lanes for which LaneActive holds (R60, R111), as a mask of rills, and whether the unit has
  set the pc of its group itself. -/
  xlanes : Nat := 0
  moved : Bool := false
  /-- MODEL: events that are to happen next, and the context that is offered the next slot. -/
  agenda : List Instr := []
  grant : Option Pos := none
  /-- MODEL: positions offered a slot in the current rill cycle. -/
  offered : List Nat := []
  deriving DecidableEq, Repr

/-- The package after reset (R447): nothing is written, no basin exists. -/
def State.reset : State := {}

end Sys2Proof.Machine
end

