-- ==== Sys2Proof/Machine/Rings.lean ====
section
/-! DEFINITION. What a write to a line sets off (R302), and rings of entries in host memory with what the device appends
to them (R437, R438, R440). -/

namespace Sys2Proof.Machine

/-! ### Writes to a line (R65, R302, R442) -/

def Memory.poisonMask (m : Memory) (line : Nat) : Nat :=
  (List.range 8).foldl (fun k i => if m.poisoned (64 * line + 8 * i) then k + 2 ^ i else k) 0

/-- Weight of the poison mask of a line, above its 64 bytes. -/
def lineSpan : Nat := 2 ^ 256 * 2 ^ 256

/-- The bytes of a line with its poison mask. -/
def Memory.line (m : Memory) (n : Nat) : Nat := m.read (64 * n) 64 + m.poisonMask n * lineSpan

/-- A write to a line is performed: armed slots on it are to trigger, queues that watch it are to read it again (R346),
reservations of application cores on it are lost (R442), and a rill that has the line in its instruction cache may fetch
what was written (R65). -/
def State.wrote (s : State) (line : Nat) : State :=
  { s with
    cores := s.cores.update fun _ c => if c.resv == some line then { c with resv := none } else c
    rills := s.rills.update fun _ x =>
      if (x.icache.find line).isSome then
        { x with versions := x.versions.put line (x.versions.get [] line ++ [s.mem.line line]) }
      else x
    basins := s.basins.update fun _ x => { x with
      records := x.records.map fun r => if r.deps.contains line then { r with reread := true } else r }
    triggers := s.triggers ++ s.ctxs.flatMap fun e =>
      (e.2.mons.filter fun m => m.2 == line).map fun m =>
        (({ b := e.1 / 128, r := e.1 / 16 % 8, k := e.1 % 16 } : Pos), m.1) }

/-! ### Rings -/

/-- A ring is full when one more entry would make TAIL equal HEAD (R438). -/
def Ring.full (x : Ring) : Bool := (x.tail + 1) % 2 ^ x.k == x.head

/-- Write 64-bit words to host memory from an address upward. They carry no release tag (R164). -/
def Memory.hostWords (m : Memory) (a : Nat) : List Word → Memory
  | [] => m
  | w :: t => ((m.write (hostAddr a) 8 w.toNat).setTags (hostAddr a) none 8).hostWords (a + 8) t

/-- Append an entry of words: at TAIL, then TAIL + 1 in the tail word. That the tail word wraps at the ring's size, and is no
free-running count, is the model's choice (log entry 143). -/
def Ring.append (x : Ring) (m : Memory) (ws : List Word) : Ring × Memory :=
  let t := (x.tail + 1) % 2 ^ x.k
  let m1 := m.hostWords (x.base.toNat + 8 * ws.length * x.tail) ws
  ({ x with tail := t }, m1.hostWords x.tailAddr.toNat [w64 t])

/-- The lines of host memory that an append of n words writes. -/
def Ring.lines (x : Ring) (n : Nat) : List Nat :=
  let a := x.base.toNat + 8 * n * x.tail
  [lineOf (hostAddr a), lineOf (hostAddr (a + 8 * n - 1)), lineOf (hostAddr x.tailAddr.toNat)].eraseDups

def State.wroteAll (s : State) (lines : List Nat) : State := lines.foldl (fun t n => t.wrote n) s

/-! ### Copies of a line at its home -/

/-- R439, R445: an access of this package takes a line back: a write from the host and from other packages, which a
read leaves with a copy that is not writable. -/
def State.callBack (s : State) (line : Nat) (write : Bool) : State :=
  if write then
    { s with hostCopies := setErase s.hostCopies line, remote := s.remote.filter fun x => x.2.1 != line }
  else { s with remote := s.remote.map fun x => if x.2.1 == line then (x.1, line, false) else x }

/-- The owner takes back every copy of a line before an RMW or an engine's write (R285); copies of a line of an S page
are updated and stay (R309). -/
def State.recall (s : State) (line : Nat) : State :=
  let t := s.callBack line true
  { t with braids := t.braids.update fun _ x => match x.l1.find line with
      | some l => if l.sync then x else { x with l1 := x.l1.drop line }
      | none => x }

/-- The package has written lines of a ring in host memory: copies of them are taken back, and an RMW of them that has read
and not yet written reads again, since no write of a package agent falls between the two (R285). -/
def State.ringWrote (s : State) (lines : List Nat) : State :=
  let s1 := lines.foldl (fun t n => t.recall n) s
  State.wroteAll { s1 with
    requests := s1.requests.map fun q => if lines.contains (lineOf q.2.pa) then (q.1, { q.2 with old := none }) else q } lines

/-- An agent outside the rills receives the data and the poison of an answer. -/
def State.answerOuter (s : State) (v : Nat × Bool) : State := { s with reply := (w64 v.1, v.2) }

/-! ### MSI-X vectors of a VF (R436) -/

/-- Word i of the MSI-X table: the address of vector i / 2, or its data below its control, whose bit 0 masks it. The layout
and the reset value, by which a vector is masked, are those of PCIe (log entry 142). -/
def Vf.tableWord (f : Vf) (i : Nat) : Word := f.table.get (if i % 2 = 0 then 0 else 0x100000000) i

def Vf.masked (f : Vf) (v : Nat) : Bool := (f.tableWord (2 * v + 1)).toNat / 2 ^ 32 % 2 == 1

/-- A vector is sent; a masked one becomes pending. -/
def Vf.send (f : Vf) (v : Nat) : Vf :=
  if f.masked v then { f with pba := f.pba ||| 2 ^ v } else { f with msix := f.msix ++ [v] }

/-- The host writes word i of the table: a pending vector that is masked no more is sent. -/
def Vf.writeTable (f : Vf) (i : Nat) (x : Word) : Vf :=
  let g : Vf := { f with table := f.table.put i x }
  let v := i / 2
  if f.pba / 2 ^ v % 2 = 1 && !g.masked v then { g with pba := g.pba - 2 ^ v, msix := g.msix ++ [v] } else g

/-! ### The event ring -/

/-- R440: an entry of 32 bytes in the event ring of PF 0, and MSI-X vector 0. The manual names the events but
not the layout of an entry, whose words are free. A full ring keeps its oldest entries. That a full ring still sends the
vector, and that nothing is sent while no ring is set, is the model's choice (log entry 49). -/
def State.hostEvent (s : State) : State :=
  match s.eventRing with
  | none => s
  | some x =>
    let s1 := { s with msix := s.msix ++ [0] }
    if x.full then s1
    else
      let (y, m) := x.append s.mem ((List.range 4).map fun i => Config.freeWord (s.free + i))
      ({ s1 with eventRing := some y, mem := m, free := s.free + 4 } : State).ringWrote (x.lines 4)

/-- The package time in ns: 33 rill cycles are 10 ns (R78). -/
def State.timeNs (s : State) : Nat := s.timeBase + (s.cycle - s.timeAt) * 10 / 33

/-- An entry of the error log. -/
def State.logError (s : State) (basin : Option Nat) (cls kind num : Nat) (addr : Word) : State :=
  { s with errlog := s.errlog ++ [{ time := s.timeNs, basin := basin, cls := cls, kind := kind, num := num, addr := addr }] }

end Sys2Proof.Machine
end

