-- ==== Sys2Proof/Machine/Ops.lean ====
section
/-! DEFINITION. The named operations over registers, contexts and traps that the meanings share. -/

namespace Sys2Proof.Machine

/-- What a step answers. -/
abbrev Res := Host.Outcome State Fault Refusal

/-! ### Parts of the package -/

def Pos.key (p : Pos) : Nat := p.b * 128 + p.r * 16 + p.k
def rillKey (b r : Nat) : Nat := b * 8 + r

def State.ctx (s : State) (p : Pos) : Ctx := s.ctxs.get {} p.key
def State.setCtx (s : State) (p : Pos) (c : Ctx) : State := { s with ctxs := s.ctxs.put p.key c }
def State.modCtx (s : State) (p : Pos) (f : Ctx → Ctx) : State := s.setCtx p (f (s.ctx p))
def State.rill (s : State) (b r : Nat) : Rill := s.rills.get {} (rillKey b r)
def State.setRill (s : State) (b r : Nat) (x : Rill) : State := { s with rills := s.rills.put (rillKey b r) x }
def State.modRill (s : State) (b r : Nat) (f : Rill → Rill) : State := s.setRill b r (f (s.rill b r))
def State.braid (s : State) (b : Nat) : Braid := s.braids.get {} b
def State.setBraid (s : State) (b : Nat) (x : Braid) : State := { s with braids := s.braids.put b x }
def State.modBraid (s : State) (b : Nat) (f : Braid → Braid) : State := s.setBraid b (f (s.braid b))
def State.basin (s : State) (n : Nat) : Basin := s.basins.get {} n
def State.setBasin (s : State) (n : Nat) (x : Basin) : State := { s with basins := s.basins.put n x }
def State.modBasin (s : State) (n : Nat) (f : Basin → Basin) : State := s.setBasin n (f (s.basin n))

/-- The context whose unit executes. -/
def State.me (s : State) : Ctx := s.ctx s.cur
def State.setMe (s : State) (c : Ctx) : State := s.setCtx s.cur c
def State.modMe (s : State) (f : Ctx → Ctx) : State := s.setCtx s.cur (f s.me)
def State.myRill (s : State) : Rill := s.rill s.cur.b s.cur.r
def State.modMyRill (s : State) (f : Rill → Rill) : State := s.modRill s.cur.b s.cur.r f
/-- The basin number that owns a braid. -/
def State.basinOf (s : State) (b : Nat) : Nat := (s.braid b).gran.basin

/-! ### Identifiers (R20, R21) -/

def State.rillNumber (s : State) (b r : Nat) : Nat := (s.braid b).index * 8 + r
def State.tid (s : State) (p : Pos) : Nat := s.rillNumber p.b p.r * 16 + p.k

/-! ### General registers (R45, R83) -/

/-- Absolute place of a window register in the current window. -/
def Ctx.winAt (c : Ctx) (n : Nat) : Nat := 16 * (c.depth - 1) + (n - 8)

/-- The place that a register field names now. -/
def Ctx.dest (c : Ctx) (r : BitVec 5) : Dest :=
  if r.toNat = 0 then .none else if r.toNat < 8 then .g r.toNat else .win (c.winAt r.toNat)

/-- A register's cell at a place. -/
def Ctx.cellAt (c : Ctx) : Dest → Cell
  | .g n => c.g.get {} n
  | .win n => c.win.get {} n
  | .ox n => c.ox.get {} n
  | .none => {}
  | .v _ => {}
  | .q _ => {}

def Ctx.setCellAt (c : Ctx) (d : Dest) (x : Cell) : Ctx :=
  match d with
  | .g n => { c with g := c.g.put n x }
  | .win n => { c with win := c.win.put n x }
  | .ox n => { c with ox := c.ox.put n x }
  | .none => c
  | .v _ => c
  | .q _ => c

/-- A general register: g0 reads zero, full and unpoisoned. -/
def Ctx.reg (c : Ctx) (r : BitVec 5) : Cell := c.cellAt (c.dest r)

/-- Write a general register: full, with the poison given; a write to g0 is discarded. -/
def Ctx.setReg (c : Ctx) (r : BitVec 5) (v : Word) (p : Bool) : Ctx :=
  c.setCellAt (c.dest r) { val := v, full := true, poison := p }

/-- Predicates: q0 reads 1 and discards writes (R120). -/
def Ctx.pred (c : Ctx) (q : BitVec 3) : QCell := if q = 0 then { val := true } else c.q.get {} q.toNat
def Ctx.setPred (c : Ctx) (q : BitVec 3) (v p : Bool) : Ctx :=
  if q = 0 then c else { c with q := c.q.put q.toNat { val := v, full := true, poison := p } }

/-- ox registers (R53) and ix registers. -/
def Ctx.oxReg (c : Ctx) (n : Nat) : Cell := c.ox.get {} n
def Ctx.setOx (c : Ctx) (n : Nat) (v : Word) (p : Bool) : Ctx :=
  { c with ox := c.ox.put n { val := v, full := true, poison := p } }
def Ctx.ixReg (c : Ctx) (n : Nat) : Cell := c.ix.get {} n
/-- Vector registers (R241). -/
def Ctx.vreg (c : Ctx) (n : Nat) : VCell := c.v.get {} n
def Ctx.setVreg (c : Ctx) (n : Nat) (x : VCell) : Ctx := { c with v := c.v.put n x }

/-- Set a place empty: it will be filled by instruction id. -/
def Ctx.setEmpty (c : Ctx) (d : Dest) (id : Nat) : Ctx :=
  match d with
  | .v n => c.setVreg n { c.vreg n with full := false, src := id }
  | .q n => if n = 0 then c else { c with q := c.q.put n { c.q.get {} n with full := false, src := id } }
  | .none => c
  | .g n => c.setCellAt (.g n) { c.cellAt (.g n) with full := false, src := id }
  | .win n => c.setCellAt (.win n) { c.cellAt (.win n) with full := false, src := id }
  | .ox n => c.setCellAt (.ox n) { c.cellAt (.ox n) with full := false, src := id }

/-- Instruction id delivers its result to a place; nothing happens when the place was written since. -/
def Ctx.fill (c : Ctx) (d : Dest) (id : Nat) (v : Word) (p : Bool) : Ctx :=
  match d with
  | .q n =>
    let x := c.q.get {} n
    if !x.full && x.src == id then { c with q := c.q.put n { val := bit v 0, full := true, poison := p } } else c
  | .none => c
  | .v n =>
    let x := c.vreg n
    if !x.full && x.src == id then c.setVreg n { x with full := true, poison := p, src := 0 } else c
  | .g n =>
    let x := c.cellAt (.g n)
    if !x.full && x.src == id then c.setCellAt (.g n) { val := v, full := true, poison := p } else c
  | .win n =>
    let x := c.cellAt (.win n)
    if !x.full && x.src == id then c.setCellAt (.win n) { val := v, full := true, poison := p } else c
  | .ox n =>
    let x := c.cellAt (.ox n)
    if !x.full && x.src == id then c.setCellAt (.ox n) { val := v, full := true, poison := p } else c

/-- Fill a vector register with a whole value. -/
def Ctx.fillV (c : Ctx) (n id : Nat) (v : BitVec 256) (p : Bool) : Ctx :=
  let x := c.vreg n
  if !x.full && x.src == id then c.setVreg n { val := v, full := true, poison := p } else c

/-! ### Stored system registers -/

/-- The value a thread's system register has at a start and at reset (R87, R141, R227, R328, R329, and
the maps of the registers); those not named are 0. SRSEED starts from the thread identifier (R235). -/
def srStart (n k tid : Nat) : Word :=
  if n = 0x013 then w64 k
  else if n = 0x022 then w64 (0x6A09E667 ^^^ tid)
  else if n = 0x040 then 0xFFFF
  else if n = 0x041 then 0xFFFF
  else if n = 0x051 then 0x10000
  else if n = 0x052 then 8
  else if n = 0x099 then 0xFFFFFFFFFFFFFFFF
  else 0

/-- R349, R256: reset values of the stored registers of a rill. -/
def rillSrReset (n : Nat) : Word :=
  if n = 0x124 then w64 (0x6000 * 2 ^ 35) else if n = 0x121 then w64 (1 * 256) else 0

def State.srAt (s : State) (p : Pos) (n : Nat) : Word :=
  (s.ctx p).sr.get (if n = 0x022 then 0x6A09E667 else srStart n p.k 0) n
def State.setSr (s : State) (p : Pos) (n : Nat) (v : Word) : State :=
  s.modCtx p fun c => { c with sr := c.sr.put n v }
def State.sr (s : State) (n : Nat) : Word := s.srAt s.cur n
def State.rillSr (s : State) (b r n : Nat) : Word := (s.rill b r).sr.get (rillSrReset n) n
def State.setRillSr (s : State) (b r n : Nat) (v : Word) : State :=
  s.modRill b r fun x => { x with sr := x.sr.put n v }

/-! ### Ends of a unit -/

/-- Address of the unit that follows. -/
def State.nextPc (s : State) : Word := s.upc + w64 (2 * s.ulen)

/-- The unit completes and the thread goes on at the next one. -/
def State.advance (s : State) : State := s.modMe fun c => { c with pc := s.nextPc, took := false }

/-- The unit completes and the thread goes on at t (R82). -/
def State.jump (s : State) (t : Word) : State := s.modMe fun c => { c with pc := t, took := true }

/-- R79: the unit has no effect and is tried again in a later slot. -/
def State.park (s : State) (h : Hold) : State := s.modMe fun c => { c with held := some h }

def parked (s : State) (h : Hold) : Res := .next (s.park h)

/-! ### Fused groups -/

/-- The group that a position is a lane of. -/
def State.groupOf (s : State) (p : Pos) : Option Group :=
  (s.braid p.b).groups.find? fun g => g.k == p.k && hasBit g.mask p.r

/-- The positions that a slot of p concerns: the active lanes of its group, or p alone. -/
def State.lanesOf (s : State) (p : Pos) : List Pos :=
  match s.groupOf p with
  | some g => (lanes g.active).map fun r => { p with r := r }
  | none => [p]

/-! ### Event records (R381) -/

/-- Fields of XSTAT (R376). -/
def xstat (kind len idx orig sub ctx : Nat) (write : Bool) : Word :=
  w64 (kind * 2 ^ 28 + len * 2 ^ 24 + (if write then 2 ^ 21 else 0) + idx * 2 ^ 16 + orig * 2 ^ 8
    + sub * 2 ^ 4 + ctx)

/-- R412: µs left until the phase that runs in a basin is forced. -/
def State.deadlineLeft (s : State) (n : Nat) : Nat :=
  match (s.basin n).resize with
  | some z => if z.began then (z.since + z.deadline * Config.usCycles - s.cycle) / Config.usCycles else 0
  | none => 0

/-- R412: DEADLINE of a resize record as it is delivered: 0 when the phase that it names is over, having been forced. -/
def State.noticeLeft (s : State) (n : Nat) (v : Word) : Nat :=
  match (s.basin n).resize with
  | some z => if field v 15 0 == z.seq % 65536 && field v 18 16 == z.phase then s.deadlineLeft n else 0
  | none => 0

/-- Before in the order of R382. -/
def EventRec.before (x y : EventRec) : Bool :=
  decide (x.cls < y.cls) || (x.cls == y.cls && decide (x.rank < y.rank))

/-- The record that EVWAIT takes: of equal ones, the first to arrive. -/
def firstRecord : List EventRec → Option EventRec
  | [] => none
  | e :: t => match firstRecord t with
    | some f => if f.before e then some f else some e
    | none => some e

/-- Two records come from one source (R381): the context, the chain, the slot or command. -/
def EventRec.sameSource (x y : EventRec) : Bool :=
  x.cls == y.cls && (match x.cls with
    | 0 => true
    | 1 => x.rank == y.rank
    | 2 => x.rank == y.rank
    | 3 => x.cause == y.cause && field x.xstat 20 16 == field y.xstat 20 16 && field x.xstat 3 0 == field y.xstat 3 0
    | _ => false)

/-- A record is delivered: the next one of its source becomes pending. -/
def Rill.deliverRecord (x : Rill) (e : EventRec) : Rill :=
  let y := { x with events := x.events.erase e }
  match x.later.find? e.sameSource with
  | some f => { y with events := y.events ++ [f], later := x.later.erase f }
  | none => y

/-- A record becomes pending: a resize record takes the place of an undelivered one, a record of another source that has
an undelivered one follows it. -/
def Rill.postRecord (x : Rill) (e : EventRec) : Rill :=
  if e.cls = 0 then { x with events := x.events.filter (fun y => y.cls != 0) ++ [e] }
  else if x.events.any e.sameSource then { x with later := x.later ++ [e] }
  else { x with events := x.events ++ [e] }

/-- The first record is delivered to the registers of context 15. -/
def State.takeRecord (s : State) (b r : Nat) : Option State :=
  match firstRecord (s.rill b r).events with
  | none => none
  | some e =>
    let p : Pos := ⟨b, r, 15⟩
    let v := if e.cls = 0 then setField e.val 63 32 (s.noticeLeft (s.basinOf b) e.val) else e.val
    let xs := setField e.xstat 22 22 (field (s.srAt p 0x013) 22 22)
    let s1 := s.modRill b r fun x => x.deliverRecord e
    some (((s1.setSr p 0x011 (w64 e.cause)).setSr p 0x012 v).setSr p 0x013 xs)

/-- An EVWAIT ends with status v. -/
def State.endEvwait (s : State) (b r : Nat) (d : Dest) (v : Word) : State :=
  s.modCtx ⟨b, r, 15⟩ fun c => { (c.setCellAt d { val := v }) with wait := none, startAt := s.cycle + 4 }

/-- A record becomes pending for context 15 of a rill. An EVWAIT that waits takes it. -/
def State.post (s : State) (b r : Nat) (e : EventRec) : State :=
  let s1 := s.modRill b r fun x => x.postRecord e
  match (s1.ctx ⟨b, r, 15⟩).wait with
  | some (.evwait d _) =>
    match s1.takeRecord b r with
    | some s2 => s2.endEvwait b r d 0
    | none => s1
  | _ => s1

/-! ### Containment (R397, R428) -/

/-- A braid belongs to a basin in one of the states of R407. -/
def State.holds (s : State) (n b : Nat) : Bool :=
  (s.braid b).gran.state != .free && (s.braid b).gran.state != .retired && s.basinOf b == n

/-- A contained context: stopped, with nothing under way; a commit goes no further, a deferred stop makes no record. -/
def Ctx.contained (c : Ctx) : Ctx :=
  { c with
    run := if c.run = .empty then .empty else .stopped
    wait := none, held := none, heldUnit := none, halting := false, stopBy := 0
    flights := [], longs := [], vseq := [], vblocks := [], vres := [], streams := [], block := none, more := []
    tx := c.tx.map fun t => { t with commit := 0, awaiting := [] } }

/-- Where the queues and dispatchers of a basin stand, as those who make accesses (R346). -/
def queuePlace (n : Nat) : Pos := ⟨1024 + n, 0, 0⟩

/-- The basin that a translation request belongs to: of a braid, or of its queues. -/
def State.atsBasin (s : State) (q : AtsReq) : Nat := if q.pos.b < 512 then s.basinOf q.pos.b else q.pos.b - 1024

/-- The retirements of rills that the resizes of a basin were still to make. -/
def Basin.owed (x : Basin) : List (Nat × Nat) :=
  ((x.resize.toList.filter fun z => !z.worked) ++ x.waiting).filterMap fun z => z.retire

/-- The work of a basin ends: its contexts stop without a record, its engines take no further command and nothing
that they hold goes on, its resizes are abandoned; what they owe a braid's rill stays with that braid (R429). -/
def State.cutBasin (s0 : State) (n : Nat) : State :=
  let s := (s0.basin n).owed.foldl (fun t e => t.modBraid e.1 fun x => { x with owed := setInsert x.owed e.2 }) s0
  let s1 := s.modBasin n fun x => { x with contained := true, resize := none, waiting := [] }
  { s1 with
    ctxs := s1.ctxs.update fun key c => if s.holds n (key / 128) then c.contained else c
    braids := s1.braids.update fun b x => if s.holds n b then { x with copies := [], mx := [], groups := [] } else x
    rills := s1.rills.update fun key x =>
      if s.holds n (key / 8) then { x with takes := [], dqWait := [], landings := [], mEffects := [], winOp := none } else x
    misses := s1.misses.filter fun m => !s.holds n (m.1 / 8)
    triggers := s1.triggers.filter fun t => !s.holds n t.1.b
    lineWaits := s1.lineWaits.filter fun w => !s.holds n w.pos.b
    requests := s1.requests.filter fun q => !s.holds n q.1.b
    packets := s1.packets.update fun _ ps => ps.filter fun q => !s.holds n q.pos.b
    fanouts := s1.fanouts.filter fun f => !(s.holds n f.pos.b || f.pos == queuePlace n)
    locks := s1.locks.filter fun e => !s.holds n e.2.pos.b
    ats := s1.ats.filter fun q => s.atsBasin q != n }

/-- Containment of a basin: its work ends, its VFs are DOWN and the host is told. -/
def State.closeBasin (s : State) (n : Nat) : State :=
  if (s.basin n).contained then s
  else
    let s1 := s.cutBasin n
    State.hostEvent { s1 with
      vfs := s1.vfs.update fun _ v => if v.gran.state != .free && v.gran.basin == n then { v with down := true } else v }

/-- Containment by an unhandled event. The manual does not say which resource its error entry names, so that
those fields are free. -/
def State.contain (s : State) (n : Nat) : State :=
  if (s.basin n).contained then s
  else
    let x := Config.freeWord s.free
    (({ s with free := s.free + 2 } : State).logError (some n) 2 (field x 3 0) (field x 31 16)
      (Config.freeWord (s.free + 1))).closeBasin n

/-! ### Block instructions that end early (R159) -/

/-- The block instructions of a context in program order: the running one and those that wait. -/
def Ctx.blocks (c : Ctx) : List Block := c.block.toList ++ c.more

/-- The written registers of a block instruction receive their values at the element boundary. -/
def Ctx.fillBlock (c : Ctx) (x : Block) : Ctx :=
  let c1 := c.fill x.nd x.id x.n false
  let c2 := if x.op = 1 then c1 else c1.fill x.ad x.id x.a false
  let c3 := if x.op = 0 then c2.fill x.bd x.id x.b false else c2
  { c3 with las := c3.las.filter fun w => w.seq != x.seq }

/-- The running block instruction x ends, and the next one that waits is the running one. -/
def Ctx.endBlock (c : Ctx) (x : Block) : Ctx :=
  { c.fillBlock x with block := c.more.head?, more := c.more.drop 1 }

/-- Every block instruction of the context ends where it stands (R159). -/
def Ctx.endBlocks (c : Ctx) : Ctx := { c.blocks.foldl Ctx.fillBlock c with block := none, more := [] }

/-! ### Transactions: abort (R324, R325) -/

/-- Quantities of TXSTAT (R327). -/
def State.txDepth (s : State) (p : Pos) : Nat := field (s.srAt p 0x050) 2 0
def State.inTx (s : State) : Bool := s.txDepth s.cur != 0
def State.irrevocable (s : State) : Bool := bit (s.sr 0x050) 8

/-- R320: every filled read-log entry still has its value and poison. -/
def State.readsValid (s : State) (t : Tx) : Bool :=
  t.reads.all fun e => s.mem.read (e.word * 8) 8 == e.val.toNat && s.mem.poisoned (e.word * 8) == e.poison

/-- The home recalls writable copies of a line: they stay as clean copies. -/
def State.recallWritable (s : State) (line : Nat) : State :=
  { s with braids := s.braids.update fun _ x => match x.l1.find line with
      | some l => { x with l1 := x.l1.put line { l with writable := false, dirty := false } }
      | none => x }

/-- R320: causes before whose record the read log is validated. -/
def validated (cause : Nat) : Bool := 3 ≤ cause && cause ≤ 7

/-- A line of the read log of p is in APPLY, so that the validation of R320 waits. -/
def State.readsLocked (s : State) (p : Pos) : Bool :=
  (s.ctx p).tx.any fun t => !bit (s.srAt p 0x050) 8
    && t.reads.any fun e => (s.locks.find (e.word / 8)).any fun l => l.kind == 2

/-- Columns Retryable and Irrevocable of R324. -/
def retryable (cause : Nat) (irrev : Bool) : Bool :=
  if irrev then cause == 8 || cause == 9
  else cause == 1 || cause == 2 || cause == 7 || cause == 8 || cause == 9

/-! ### Words that a unit has stored and loads again (R84, R336, R355) -/

/-- The key of a word of local store among those that a unit remembers. -/
def frameKey (a : Nat) : Nat := a % 2 ^ 18 / 8

/-- A remembered word and what its place holds now differ: something else has written it. -/
def State.overwritten (s : State) (a : Nat) (kept : Option (Nat × Bool)) : Bool :=
  kept.any fun x => x != (s.mem.read a 8, s.mem.poisoned a)

/-- What a unit loads from a: the word it has stored or the one written over it, drawn freely as draw i. -/
def State.keptWord (s : State) (a i : Nat) (kept : Option (Nat × Bool)) : Nat × Bool :=
  if s.overwritten a kept && bit (Config.freeWord (s.free + i)) 0 then kept.getD (0, false)
  else (s.mem.read a 8, s.mem.poisoned a)

/-- The state once the words of n draws, of which some differ, have been loaded. -/
def State.afterKept (s : State) (n : Nat) (differ : Bool) : State := if differ then { s with free := s.free + n } else s

/-- R314, R325: registers go back to the checkpoint; windows opened since are closed. -/
def Ctx.restore (c : Ctx) (k : Ckpt) (wsp : Word) : Ctx :=
  let spilledNow := c.depth - c.resident
  let gone := decide (k.depth ≤ spilledNow)
  let w := 16 * (k.depth - 1)
  { c with
    g := k.g, q := k.q, v := k.v, ox := k.ox, ix := k.ix, depth := k.depth
    win := k.win.foldl (fun t e => if w ≤ e.1 ∧ e.1 < w + 24 then t.put e.1 e.2 else t)
      (c.win.filter fun e => decide (e.1 < w))
    resident := if gone then 1 else k.depth - spilledNow
    sr := (k.sr.foldl (fun t e => t.put e.1 e.2) c.sr).put 0x030
      (if gone then wsp - w64 (136 * (spilledNow + 1 - k.depth)) else wsp) }

/-- Locks that a position holds are freed and its token is released (R325, R335). -/
def State.dropLocks (s : State) (p : Pos) : State :=
  let n := s.basinOf p.b
  let s1 := { s with locks := s.locks.filter fun e => e.2.pos != p }
  if (s1.basin n).token.holder == some p then
    s1.modBasin n fun x => { x with token := { x.token with holder := none } }
  else s1

/-- A remote update, which its rill has accepted (R293). -/
def AccKind.isRupd : AccKind → Bool
  | .rupd _ => true
  | _ => false

/-- Abort of R325 for a position: cause and info, with R320 applied to cause. keepPc is TEND's form in a
group (R330). -/
def State.txAbortAt (s : State) (p : Pos) (cause0 info0 : Nat) (keepPc : Option Word) : State :=
  let c := s.ctx p
  match c.tx with
  | none => s
  | some t =>
    let st := s.srAt p 0x050
    let irrev := bit st 8
    let zombie := !irrev && validated cause0 && !s.readsValid t
    let cause := if zombie then 1 else cause0
    let info := if zombie then 0 else info0
    let again := retryable cause irrev
    let st' := setField (setField (setField (setField st 39 32 info) 31 31 0) 27 24 cause) 8 0 0
    let tr := s.srAt p 0x052
    let count := if again then min 0xFFFF (field tr 47 32 + 1) else 0
    let c1 := c.restore t.ckpt (s.srAt p 0x030)
    let sr1 := (c1.sr.put 0x050 st').put 0x052 (setField tr 47 32 count)
    let c2 := { c1 with
      sr := sr1
      tx := none, flights := c1.flights.filter fun a => a.kind.isRupd, las := [], longs := [], vseq := [], vblocks := [], vres := []
      block := none, more := [], wait := none, held := none, took := true
      triedAt := 0, retry := 0, heldUnit := none
      pc := keepPc.getD (if again then t.pc else t.label) }
    let s1 := if validated cause0 && !irrev then t.reads.foldl (fun z e => z.recallWritable (e.word / 8)) s else s
    (s1.setCtx p c2).dropLocks p

/-- The unit aborts the transaction of its thread; it is held while the validation of R320 waits. -/
def State.txAbort (s : State) (cause info : Nat) : State :=
  if validated cause && s.readsLocked s.cur then s.park .lock
  else (s.txAbortAt s.cur cause info none).modMe fun c => { c with left := some 0x15 }

/-! ### Traps (R374, R380, R319, R339) -/

/-- The accesses of a thread that the replay queue holds. -/
def State.loggedOf (s : State) (p : Pos) : List Access :=
  (s.rill p.b p.r).replay.flatMap fun e => if e.2.pos == p then e.2.accs else []

/-- The latest instruction that is still to fill a place; logged are the thread's accesses in the replay queue. -/
def Ctx.pendingFor (c : Ctx) (logged : List Access) (d : Dest) : Option Nat :=
  let open' (a : Access) : Bool := a.dst == d && match d with
    | .v n => decide (c.vWrote.get 0 n ≤ a.seq)
    | _ => true
  (((c.flights ++ logged).filter open').map Access.src ++ (c.longs.filter fun l => l.dst == d).map LongOp.id
    ++ (c.vseq.filter fun e => e.dst == d).map VEntry.id ++ (c.vres.filter fun r => r.dst == d).map VResult.id).max?

/-- A place that a discarded instruction was to fill is full with its old value, or waits for an earlier one. -/
def Ctx.unclaim (c : Ctx) (logged : List Access) (d : Dest) (id : Nat) : Ctx :=
  match d with
  | .v n =>
    let x := c.vreg n
    if x.full || x.src != id then c
    else match c.pendingFor logged d with
      | some i => c.setVreg n { x with src := i }
      | none => c.setVreg n { x with full := true, src := 0 }
  | .q _ => c
  | .none => c
  | .g n =>
    let x := c.cellAt (.g n)
    if x.full || x.src != id then c
    else match c.pendingFor logged d with
      | some i => c.setCellAt d { x with src := i }
      | none => c.setCellAt d { x with full := true, src := 0 }
  | .win n =>
    let x := c.cellAt (.win n)
    if x.full || x.src != id then c
    else match c.pendingFor logged d with
      | some i => c.setCellAt d { x with src := i }
      | none => c.setCellAt d { x with full := true, src := 0 }
  | .ox _ => c

/-- R246: the captured units of an unfinished VSEQ block are discarded with no effect. -/
def Ctx.dropCapture (c : Ctx) (logged : List Access) : Ctx :=
  match c.vblocks.find? fun v => v.missing != 0 with
  | some v =>
    let gone := c.vseq.filter fun e => e.blk == v.id
    let c1 := { c with vblocks := c.vblocks.erase v, vseq := c.vseq.filter fun e => e.blk != v.id }
    gone.foldl (fun x e => x.unclaim logged e.dst e.id) c1
  | none => c

/-- The address of the VSEQ whose capture is unfinished. -/
def Ctx.capturePc (c : Ctx) : Option Word := (c.vblocks.find? fun v => v.missing != 0).map fun v => v.pc

/-- An agent gives its writes up. -/
def State.dropGate (s : State) (agent : Nat) : State :=
  { s with fanouts := s.fanouts.filter fun f => f.agent != some agent }

/-- The running block instruction of p gives its write up (R159, R309). R159 completes the element in progress first and does
not say which that is: that an element whose write has asked its sharers, or has taken its place at the slice, and is not yet
performed is given up and done again on restart is the model's choice (log entry 156). -/
def State.dropBlockGate (s : State) (p : Pos) : State :=
  match (s.ctx p).block with
  | some x => s.dropGate x.id
  | none => s

/-- What a trap or stop ends: the block instructions at their element boundaries, with XPC at the first and LEN 0
(R159); a capture, which is discarded with XPC at its VSEQ (R246). -/
def Ctx.cutWork (c : Ctx) (logged : List Access) (pc : Word) (len : Nat) : Ctx × Word × Nat :=
  let (c1, pc1, len1) := match c.block with
    | some x => (c.endBlocks, x.pc, 0)
    | none => (c, pc, len)
  (c1.dropCapture logged, if c.block.isSome then pc1 else c1.capturePc.getD pc1, len1)

/-- The position of the context with a number. -/
def posOf (n : Nat) : Pos := ⟨n / 128, n / 16 % 8, n % 16⟩

/-- Something that an edge of R180 puts first is still in flight. -/
def State.edgeLive (s : State) (e : Nat × Nat) : Bool := (s.ctx (posOf e.1)).flights.any fun x => decide (x.id < e.2)

/-- Edges of R180 from other contexts to p; those of which nothing is in flight any more are gone. -/
def State.addEdges (s : State) (p : Pos) (e : Nat × Nat) (es : List (Nat × Nat)) : State :=
  s.modCtx p fun c => { c with after := (c.after ++ e :: es).filter fun e => e.1 != p.key && s.edgeLive e }

/-- The edges of R180 that are still open before access id of p: its own earlier accesses, and what comes before those. -/
def State.openEdges (s : State) (p : Pos) (id : Nat) : List (Nat × Nat) :=
  ((p.key, id) :: (s.ctx p).after.filter fun e => decide (e.2 ≤ id)).filter s.edgeLive

/-- Access id of p has written size bytes from pa, which memory old held before: words that it has raised are kept with the
edges that are open before it (R180). -/
def State.noteRaise (s : State) (old : Memory) (p : Pos) (id pa size : Nat) : State :=
  let es := s.openEdges p id
  let kept := s.raises.filter fun x => x.edges.any s.edgeLive
  let words := if es.isEmpty || 512 ≤ p.b then [] else (List.range ((size + 7) / 8)).map fun i => wordOf pa + i
  { s with raises := kept ++ words.filterMap fun w =>
      let o := old.read (8 * w) 8
      let n := s.mem.read (8 * w) 8
      if o < n then some { word := w, old := o, new := n, edges := es } else none }

/-- An edge of R180 that ends at p: what context k of its rill has done so far comes before what p does from now on, and
so does what comes before that. -/
def State.orderAfter (s : State) (p : Pos) (k : Nat) : State :=
  s.addEdges p (({ p with k := k } : Pos).key, s.nextId) (s.ctx { p with k := k }).after

/-- The context at p enters stopped with a record for context 15 (R374, R386); a stop that was due is replaced. What
it has done comes before what the handler does (R180). -/
def State.stopAt (s0 : State) (p : Pos) (cause : Nat) (val : Word) (len orig : Nat) (pc : Word) (write : Bool) : State :=
  let s := s0.dropBlockGate p
  let (c2, pc2, len1) := (s.ctx p).cutWork (s.loggedOf p) pc len
  let xs := xstat 0 len1 0 orig 0 p.k write
  let c3 := { c2 with
    run := .stopped, held := none, retry := 0, heldUnit := none, triedAt := 0, stopBy := 0, pc := pc2
    sr := (((c2.sr.put 0x010 pc2).put 0x011 (w64 cause)).put 0x012 val).put 0x013 xs }
  ((s.setCtx p c3).orderAfter { p with k := 15 } p.k).post p.b p.r
    { cls := 1, cause := cause, val := val, xstat := xstat 1 len1 0 orig 0 p.k write, rank := p.k }

/-- A trap of the executing unit with an explicit XPC and length. In a revocable transaction it aborts with FAULT, and XVAL takes
the value; that it does so where R320 makes the abort CONFLICT-VALUE is the model's choice (log entry 146). -/
def State.trapAs (s : State) (cause : Nat) (val : Word) (len : Nat) (pc : Word) (write : Bool) : State :=
  let p := s.cur
  if s.inTx && !s.irrevocable then (s.setSr p 0x012 val).txAbort 5 cause
  else
    let irr := s.inTx
    let code := if irr then 0x1C else cause
    let orig := if irr then cause else 0
    if p.k = 15 then
      if bit (s.sr 0x013) 22 || s.sr 0x09E == 0 then
        (s.contain (s.basinOf p.b)).modMe fun c => { c with run := .stopped }
      else
        let (c, pc1, len1) := s.me.cutWork (s.loggedOf p) pc len
        let xs := setField (xstat 0 len1 0 orig 0 15 write) 22 22 1
        (s.dropBlockGate p).setMe { c with
          sr := (((c.sr.put 0x010 pc1).put 0x011 (w64 code)).put 0x012 val).put 0x013 xs
          pc := s.sr 0x09E, held := none, retry := 0, heldUnit := none, took := true }
    else (s.stopAt p code val len orig pc write).modMe fun c => { c with left := some code }

/-- TrapTo of R7. -/
def State.trapTo (s : State) (cause : Nat) (val : Word) : State := s.trapAs cause val s.ulen s.upc false

def trapped (s : State) (cause : Nat) (val : Word) : Res := .next (s.trapTo cause val)

/-- A privileged unit in a user context (R368): PRIVILEGE with the words of R61. -/
def supervisorOnly (s : State) (k : Res) : Res := if s.cur.k = 15 then k else trapped s 0x05 s.uw

/-- R318: a unit that aborts a transaction, by its major. -/
def outsideTx (s : State) (major : Nat) (k : Res) : Res :=
  if s.inTx then .next (s.txAbort 6 major) else k

/-! ### Slots (R79) -/

/-- The marker of a position whose unit has taken the slot of this cycle. -/
def usedKey (p : Pos) : Nat := 2 ^ 22 + p.key

/-! ### Return from a stop (R379) -/

/-- A stopped context runs again at its XPC, after what context 15 has done (R180). -/
def State.resume (s : State) (p : Pos) : State :=
  (s.modCtx p fun c => { c with
    run := .running, pc := c.sr.get 0 0x010, startAt := s.cycle + 4, lastIssue := s.cycle, triedAt := 0 }).orderAfter p 15

/-- Where a return from a self-trap of context 15 goes. -/
def State.selfTarget (s : State) (skip : Bool) : Word :=
  s.sr 0x010 + (if skip then w64 (2 * field (s.sr 0x013) 27 24) else 0)

/-- Return from a self-trap of context 15. -/
def State.selfReturn (s : State) (skip : Bool) : State :=
  (s.setSr s.cur 0x013 (setField (s.sr 0x013) 22 22 0)).jump (s.selfTarget skip)

/-! ### The accounts of a unit (R50, R79, R321, R383) -/

/-- A unit of p is about to issue: it has its number, and a transaction counts it. -/
def State.begin (s : State) (p : Pos) : State :=
  s.modCtx p fun c => { c with
    seq := c.seq + 1
    sr := if field (c.sr.get 0 0x050) 2 0 = 0 then c.sr
      else c.sr.put 0x051 (setField (c.sr.get (srStart 0x051 0 0) 0x051) 63 32 (field (c.sr.get (srStart 0x051 0 0) 0x051) 63 32 + 1)) }

/-- The unit at pc has issued in a rill cycle: it counts against the windows of earlier instructions. -/
def Ctx.issued (c : Ctx) (pc : Word) (now : Nat) : Ctx :=
  { c with las := c.las.map fun w => if w.seq < c.seq then { w with after := w.after + 1 } else w
           lastPc := pc, lastIssue := now, dogged := false, triedAt := 0, retry := 0, heldUnit := none }

/-- What a held unit leaves in its context: its hold, and the lock that it has asked for (R337). -/
def Ctx.heldAs (c d : Ctx) : Ctx :=
  { c with held := d.held, retry := d.retry, heldUnit := d.heldUnit, heldLen := d.heldLen, triedAt := d.triedAt
           wait := match d.wait with
             | some (.irrLock l t) => some (.irrLock l t)
             | _ => c.wait }

end Sys2Proof.Machine
end

