-- ==== Sys2Proof/Machine/Operands.lean ====
section
/-! DEFINITION. Operand forms: registers that park while empty (R8), control operands that trap when
poisoned (R456), immediates and displacements (R40), ox blocks (R54). -/

namespace Sys2Proof.Machine

/-! ### Immediates (R40, R44) -/

def imm15s (i : BitVec 15) : Word := i.signExtend 64
def imm15z (i : BitVec 15) : Word := i.zeroExtend 64
def imm5s (i : BitVec 5) : Word := i.signExtend 64
def imm5z (i : BitVec 5) : Word := i.zeroExtend 64

/-- A target that is n halfwords from the instruction's first halfword (R40, R88). -/
def State.relTarget {n : Nat} (s : State) (d : BitVec n) : Word := s.ipc + 2 * d.signExtend 64

/-- Displacement of WM: units of the access size. -/
def scaled (d : BitVec 8) (size : Nat) : Word := d.signExtend 64 * w64 size

/-! ### Registers -/

/-- A general register as an operand: an empty one parks the thread. -/
def withReg (s : State) (r : BitVec 5) (k : Cell → Res) : Res :=
  if (s.me.reg r).full then k (s.me.reg r) else parked s .register

/-- A predicate as an operand. -/
def withPred (s : State) (q : BitVec 3) (k : QCell → Res) : Res :=
  if (s.me.pred q).full then k (s.me.pred q) else parked s .register

/-- A vector register as an operand of the scalar pipeline. -/
def withVreg (s : State) (n : Nat) (k : VCell → Res) : Res :=
  if (s.me.vreg n).full then k (s.me.vreg n) else parked s .register

/-- A control operand: empty parks, poisoned traps POISON-CONSUMED with its value (R456). -/
def withControl (s : State) (r : BitVec 5) (k : Word → Res) : Res :=
  withReg s r fun x => if x.poison then trapped s 0x0C x.val else k x.val

/-- A predicate as a control operand. -/
def withPredControl (s : State) (q : BitVec 3) (k : Bool → Res) : Res :=
  withPred s q fun x => if x.poison then trapped s 0x0C (wordOfBool x.val) else k x.val

/-- Two control operands: both must be full before either is judged; the first poisoned one gives XVAL. -/
def withControls (s : State) (r1 r2 : BitVec 5) (k : Word → Word → Res) : Res :=
  withReg s r1 fun x => withReg s r2 fun y =>
    if x.poison then trapped s 0x0C x.val
    else if y.poison then trapped s 0x0C y.val
    else k x.val y.val

/-- R54: the n registers of an ox block from o. -/
def Ctx.oxBlock (c : Ctx) (o : Nat) : Nat → List Cell
  | 0 => []
  | n + 1 => c.oxReg o :: Ctx.oxBlock c (o + 1) n

/-- R54: an ox block as operands: an empty register parks, a poisoned one traps with its value. -/
def withOx (s : State) (o n : Nat) (k : List Word → Res) : Res :=
  if (s.me.oxBlock o n).all (fun x => x.full) then
    match (s.me.oxBlock o n).find? (fun x => x.poison) with
    | some x => trapped s 0x0C x.val
    | none => k ((s.me.oxBlock o n).map fun x => x.val)
  else parked s .register

/-! ### Results -/

/-- A simple result: written in the slot, full, with the poison given (R118). -/
def wrote (s : State) (d : BitVec 5) (v : Word) (p : Bool) : Res :=
  .next ((s.modMe fun c => c.setReg d v p).advance)

/-- A predicate result. -/
def wrotePred (s : State) (q : BitVec 3) (v p : Bool) : Res :=
  .next ((s.modMe fun c => c.setPred q v p).advance)

/-! ### Shapes of simple instructions (R118) -/

/-- d := f a. -/
def unary (f : Word → Word) (d a : BitVec 5) (s : State) : Res :=
  withReg s a fun x => wrote s d (f x.val) x.poison

/-- d := f a b. -/
def binary (f : Word → Word → Word) (d a b : BitVec 5) (s : State) : Res :=
  withReg s a fun x => withReg s b fun y => wrote s d (f x.val y.val) (x.poison || y.poison)

/-- d := f d a b, reading the old d. -/
def ternary (f : Word → Word → Word → Word) (d a b : BitVec 5) (s : State) : Res :=
  withReg s a fun x => withReg s b fun y => withReg s d fun z =>
    wrote s d (f z.val x.val y.val) (x.poison || y.poison || z.poison)

/-- d := f a with an immediate folded into f. -/
def unaryOld (f : Word → Word → Word) (d a : BitVec 5) (s : State) : Res :=
  withReg s a fun x => withReg s d fun z => wrote s d (f z.val x.val) (x.poison || z.poison)

/-- q := test a b. -/
def testing (f : Word → Word → Bool) (q : BitVec 3) (a b : BitVec 5) (s : State) : Res :=
  withReg s a fun x => withReg s b fun y => wrotePred s q (f x.val y.val) (x.poison || y.poison)

/-- q := f qa qb. -/
def predOp (f : Bool → Bool → Bool) (q a b : BitVec 3) (s : State) : Res :=
  withPred s a fun x => withPred s b fun y => wrotePred s q (f x.val y.val) (x.poison || y.poison)

end Sys2Proof.Machine
end

