-- ==== Sys2Proof/Machine/Groups.lean ====
section
/-! DEFINITION. Fused groups: formation, transfer of control, the reconvergence stack and splits
(R94 to R116, R26). -/

namespace Sys2Proof.Machine

/-! ### Lanes of the executing unit -/

/-- The lanes for which LaneActive holds, the executing one among them. -/
def State.laneSet (s : State) : List Nat := lanes (s.xlanes ||| 2 ^ s.cur.r)

/-- The lanes of X that carry the unit out: not those whose arm of MXTEAM it breaks (R282), nor those that have left by a
trap or an abort. The executing lane is one of them. -/
def State.acting (s : State) : List Nat :=
  s.laneSet.filter fun r => r == s.cur.r || ((s.ctx { s.cur with r := r }).team.isNone && (s.ctx { s.cur with r := r }).left.isNone)

/-- The same for a unit that aborts transactions: not the lanes that are in one (R318). -/
def State.actingOutsideTx (s : State) : List Nat :=
  s.acting.filter fun r => r == s.cur.r || s.txDepth { s.cur with r := r } == 0

/-- The lowest lane that carries the unit out acts for all of them; the others only go on. -/
def State.leads (s : State) : Bool := s.acting.head? == some s.cur.r

/-- The thread is not a lane, and no other lane runs the unit. -/
def State.unfused (s : State) : Bool := (s.groupOf s.cur).isNone && s.laneSet.length == 1

def State.lane (s : State) (r : Nat) : Pos := { s.cur with r := r }

/-- Change the group with context index k of braid b that has lane r. -/
def State.modGroup (s : State) (b k r : Nat) (f : Group → Group) : State :=
  s.modBraid b fun x =>
    { x with groups := x.groups.map fun g => if g.k == k && hasBit g.mask r then f g else g }

def State.dropGroup (s : State) (b k mask : Nat) : State :=
  s.modBraid b fun x => { x with groups := x.groups.filter fun g => !(g.k == k && g.mask == mask) }

/-- The unit that the group executes: instructions that act for every lane of X that carries them out are written once, for
the lowest of them. whole answers the effect; the other lanes only go on. -/
def groupWise (s : State) (alone : Res) (whole : Group → Res) (first : List Nat := s.acting) : Res :=
  if s.unfused then alone
  else if first.head? == some s.cur.r then
    match s.groupOf s.cur with
    | some g => whole g
    | none => .next s.advance
  else .next s.advance

/-! ### REJOIN and its entries (R106) -/

/-- Region entries that cover a lane, top first, as REJOINE words with V set. -/
def coverWords (stack : List StackEntry) (r : Nat) : List Word :=
  stack.filterMap fun e => match e with
    | .region jpc cover _ => if hasBit cover r then some (w64 (cover * 2 ^ 56 + jpc.toNat % 2 ^ 56 / 2 * 2 + 1)) else none
    | .path _ _ => none

/-- Write the eight REJOINE registers of a position: the words given, then entries with V = 0, whose COVER and JPC the manual
leaves open at a split: that they are 0 is the model's choice (log entry 132). -/
def State.setEntries (s : State) (p : Pos) (ws : List Word) : State :=
  s.modCtx p fun c => { c with
    sr := (List.range 8).foldl (fun t i => t.put (0x090 + i) (ws.getD i 0)) c.sr }

/-- Where an inactive lane goes on (R105). -/
def restPc : List StackEntry → Nat → Option Word
  | [], _ => none
  | .path rpc d :: t, r => if hasBit d r then some rpc else restPc t r
  | .region jpc _ pend :: t, r => if hasBit pend r then some jpc else restPc t r

/-- The lane has completed a unit of its group that another lane is still held at: its neighbour write has been accepted
(R140), or its own part of an ordering instruction is done (R188). -/
def Ctx.accepted (c : Ctx) : Bool := c.heldUnit.isSome && c.triedAt == 0 && c.retry == 1

/-- A lane stands at the unit at pc, or after it where it has completed it. -/
def Ctx.standAt (c : Ctx) (pc : Word) : Ctx :=
  if c.accepted then { c with pc := pc + w64 (2 * c.heldLen), heldUnit := none, retry := 0 } else { c with pc := pc }

/-- A split (R105, R106): every lane is a thread of its own, with the CAUSE given for it. An active lane
goes on at activePc, or where its unit has put it. -/
def State.splitGroup (s : State) (b : Nat) (g : Group) (cause : Nat → Nat) (activePc : Option Word) : State :=
  let s1 := (lanes g.mask).foldl (fun t r =>
    let p : Pos := ⟨b, r, g.k⟩
    let rj := t.srAt p 0x060
    let t1 := t.setSr p 0x060 (setField (setField rj 31 24 g.mask) 23 16 (cause r))
    let t2 := t1.setEntries p (coverWords g.stack r)
    let pc? := if (t.ctx p).left.isSome then none
      else if hasBit g.active r then activePc else restPc g.stack r
    match pc? with
    | some pc => t2.modCtx p fun c => { (if hasBit g.active r then c.standAt pc else { c with pc := pc }) with left := none }
    | none => t2.modCtx p fun c => { c with left := none }) s
  s1.dropGroup b g.k g.mask

/-- The CAUSE of each lane when some have left the group by a trap or an abort (R105, R330). -/
def State.leftCause (s : State) (b : Nat) (g : Group) (r : Nat) : Nat :=
  match (s.ctx ⟨b, r, g.k⟩).left with
  | some c => c
  | none => (((lanes g.mask).filterMap fun n => (s.ctx ⟨b, n, g.k⟩).left).head?).getD 0x15

/-- A lane that has left its group outside a unit, in an event, splits it; the active lanes go on at the next
unit. -/
def State.leaveGroup (s : State) (p : Pos) : State :=
  match s.groupOf p, (s.ctx p).left with
  | some g, some _ => s.splitGroup p.b g (s.leftCause p.b g) (some g.pc)
  | _, _ => s.modCtx p fun c => { c with left := none }

/-- A split of the executing unit's group by an instruction of it. -/
def State.splitUnit (s : State) (g : Group) (cause : Nat) : State :=
  { s.splitGroup s.cur.b g (fun _ => cause) none with moved := true }

/-! ### The reconvergence stack (R98 to R102) -/

/-- R102: what runs when no lane is active. -/
def settle (active : Nat) (pc : Word) : List StackEntry → Nat × Word × List StackEntry
  | [] => (active, pc, [])
  | .path rpc d :: t => if active != 0 then (active, pc, .path rpc d :: t) else settle d rpc t
  | .region jpc cover pend :: t =>
    if active != 0 then (active, pc, .region jpc cover pend :: t)
    else if pend = 0 then settle 0 pc t
    else (pend, jpc, .region jpc cover 0 :: t)

def Group.settled (g : Group) : Group :=
  let (a, pc, st) := settle g.active g.pc g.stack
  { g with active := a, pc := pc, stack := st }

/-- Add lanes to PEND of the topmost region entry. -/
def pendTop (x : Nat) : List StackEntry → List StackEntry
  | [] => []
  | .region jpc cover pend :: t => .region jpc cover (pend ||| x) :: t
  | e :: t => e :: pendTop x t

def isRegion : StackEntry → Bool
  | .region _ _ _ => true
  | .path _ _ => false

/-- Add lanes to PEND of region n, counted from 1 at the top; take them out of the COVER of regions 1 to
n - 1, of which those left without cover are discarded (R103). -/
def brkStack (x : Nat) : Nat → List StackEntry → List StackEntry
  | _, [] => []
  | n, .path rpc d :: t => .path rpc d :: brkStack x n t
  | 0, .region jpc cover pend :: t => .region jpc cover pend :: t
  | 1, .region jpc cover pend :: t => .region jpc cover (pend ||| x) :: t
  | n + 2, .region jpc cover pend :: t =>
    let c := maskMinus cover x
    if c = 0 then brkStack x (n + 1) t else .region jpc c pend :: brkStack x (n + 1) t

/-- Take lanes out of every COVER; regions left without cover are discarded (R104). -/
def haltStack (x : Nat) : List StackEntry → List StackEntry
  | [] => []
  | .path rpc d :: t => .path rpc d :: haltStack x t
  | .region jpc cover pend :: t =>
    let c := maskMinus cover x
    if c = 0 then haltStack x t else .region jpc c pend :: haltStack x t

/-- R101 for a group. -/
def Group.join (g : Group) (next : Word) : Group :=
  match g.stack with
  | [] => { g with pc := next }
  | .path rpc d :: t => { g with stack := pendTop g.active t, active := d, pc := rpc }
  | .region _ _ pend :: t => { g with stack := t, active := pend ||| g.active, pc := next }

/-- R100: the lanes in t transfer to target. none: the group splits. -/
def Group.transfer (g : Group) (t : Nat) (same : Bool) (target next : Word) : Option Group :=
  if t = 0 then some { g with pc := next }
  else if t = g.active && same then some { g with pc := target }
  else if same && g.stack.any isRegion then
    let rest := maskMinus g.active t
    match g.stack with
    | .path rpc d :: more =>
      if rpc = next then some { g with stack := .path rpc (d ||| rest) :: more, active := t, pc := target }
      else if g.stack.length ≥ 8 then none
      else some { g with stack := .path next rest :: g.stack, active := t, pc := target }
    | _ =>
      if g.stack.length ≥ 8 then none
      else some { g with stack := .path next rest :: g.stack, active := t, pc := target }
  else none

/-- R100 after a unit of the group: the lanes say whether and where they transferred. -/
def State.groupTransfer (s : State) (g : Group) : State :=
  let act := lanes g.active
  let took := act.filter fun r => (s.ctx (s.lane r)).took
  let t := took.foldl (fun m r => m + 2 ^ r) 0
  let target := ((took.head?.map fun r => (s.ctx (s.lane r)).pc).getD s.nextPc)
  let same := took.all fun r => (s.ctx (s.lane r)).pc == target
  match g.transfer t same target s.nextPc with
  | some g' => s.modGroup s.cur.b g.k s.cur.r fun _ => g'.settled
  | none => s.splitGroup s.cur.b g (fun _ => 0x15) none

/-! ### Group instructions of major 0x28 -/

/-- Exactly one lane is left in a group: it leaves as a split (R104). -/
def State.oneLeft (s : State) (b : Nat) (g : Group) : State :=
  if countOnes 8 g.mask = 1 then s.splitGroup b g (fun _ => 0x15) (some g.pc)
  else if g.mask = 0 then s.dropGroup b g.k 0
  else s

/-- SPLIT (R110). -/
def execSplit (s : State) : Res :=
  groupWise s (.next s.advance) fun g => .next (s.splitUnit g 0x15).advance

/-- RGN (R99). -/
def execRgn (p : BitVec 15) (s : State) : Res :=
  groupWise s (.next s.advance) fun g =>
    if g.stack.length ≥ 8 then .next (s.splitUnit g 0x15).advance
    else .next ((s.modGroup s.cur.b g.k s.cur.r fun x =>
      { x with stack := .region (s.relTarget p) g.active 0 :: x.stack }).advance)

/-- The lowest valid REJOIN entry that names x. -/
def State.entryFor (s : State) (x : Word) : Option Nat :=
  (List.range 8).find? fun i =>
    let e := s.sr (0x090 + i)
    bit e 0 && field e 55 1 == field x 55 1

/-- A FUSE that cannot wait (R95, R107). -/
def State.fuseInvalid (s : State) (mask : Nat) : Bool :=
  !hasBit mask s.cur.r || countOnes 8 mask < 2 || s.cur.k == 15

/-- R107: JOIN of an unfused thread. -/
def joinAlone (s : State) : Res :=
  if s.inTx then .next s.advance
  else match s.entryFor s.ipc with
    | none => .next s.advance
    | some i =>
      let mask := field (s.sr (0x090 + i)) 63 56
      if s.fuseInvalid mask then .next ((s.setEntries s.cur []).advance)
      else
        let limit := field (s.sr 0x060) 63 32
        let clear := (List.range (i + 1)).filter fun j => bit (s.sr (0x090 + j)) 0
        let s1 := clear.foldl (fun t j => t.setSr t.cur (0x090 + j) (setField (t.sr (0x090 + j)) 0 0 0)) s
        .next (s1.modMe fun c => { c with
          wait := some (.fuse mask (field (s.sr 0x060) 15 0) limit (if limit = 0 then 0 else s.cycle + limit) .none
            true (clear.foldl (fun m j => m + 2 ^ j) 0) s.nextPc)
          pc := s.upc, took := false })

/-- R101, R107. -/
def joinUnit (s : State) : Res :=
  groupWise s (joinAlone s) fun g =>
    .next { (s.modGroup s.cur.b g.k s.cur.r fun x => (x.join s.nextPc).settled).advance with moved := true }

def execJoin (s : State) : Res := joinUnit s
def execJoinH (s : State) : Res := joinUnit s

/-- BRK (R103). -/
def execBrk (n : BitVec 5) (s : State) : Res :=
  groupWise s
    (let valid := (List.range 8).filter fun i => bit (s.sr (0x090 + i)) 0
     .next (((valid.take n.toNat).foldl
       (fun t i => t.setSr t.cur (0x090 + i) (setField (t.sr (0x090 + i)) 0 0 0)) s).advance))
    fun g =>
      let regions := (g.stack.filter isRegion).length
      let x := s.acting.foldl (fun m r => m + 2 ^ r) 0
      if n.toNat ≥ regions then .next (s.splitUnit g 0x15).advance
      else .next { (s.modGroup s.cur.b g.k s.cur.r fun y =>
        ({ y with stack := brkStack x (n.toNat + 1) y.stack, active := maskMinus y.active x
                  pc := s.nextPc }).settled).advance with moved := true }

/-- The thread halts (R93). -/
def State.haltAt (s : State) (p : Pos) : State := s.modCtx p fun c => { c with halting := true }

/-- HALT.H (R93, R104). A lane in a transaction aborts and does not halt; the lowest of the others acts for those. -/
def execHaltH (s : State) : Res :=
  outsideTx s 0x53 <|
    groupWise s (.next (s.haltAt s.cur).advance) (first := s.actingOutsideTx) fun g =>
      let x := s.actingOutsideTx.foldl (fun m r => m + 2 ^ r) 0
      let s1 := s.actingOutsideTx.foldl (fun t r => t.haltAt (t.lane r)) s
      let g1 := ({ g with mask := maskMinus g.mask x, active := maskMinus g.active x
                          stack := haltStack x g.stack, pc := s.nextPc } : Group)
      let s2 := s1.modGroup s.cur.b g.k s.cur.r fun _ => g1
      if countOnes 8 g1.mask ≤ 1 then .next { (s2.oneLeft s.cur.b g1).advance with moved := true }
      else .next { (s1.modGroup s.cur.b g.k s.cur.r fun _ => g1.settled).advance with moved := true }

/-- A predicate of each lane of X. -/
def State.lanePreds (s : State) (q : BitVec 3) : List (Nat × QCell) :=
  s.laneSet.map fun r => (r, (s.ctx (s.lane r)).pred q)

/-- VOTE (R111): over every lane of X, written in those that carry it out. No rule states the poison of its result, since R118
stops at major 0x0D: that it is the OR of the poison of qa over X is the model's choice (log entry 155). -/
def execVote (q r : BitVec 3) (t : BitVec 2) (s : State) : Res :=
  if !s.leads then .next s.advance
  else
    let ps := s.lanePreds r
    if ps.all fun x => x.2.full then
      let v := match t.toNat with
        | 0 => ps.any fun x => x.2.val
        | 1 => ps.all fun x => x.2.val
        | _ => ps.all (fun x => x.2.val) || ps.all fun x => !x.2.val
      let p := ps.any fun x => x.2.poison
      .next ((s.acting.foldl (fun z r => z.modCtx (s.lane r) fun c => c.setPred q v p) s).advance)
    else parked s .register

/-- BALLOT (R112): of every lane of X, written in those that carry it out. -/
def execBallot (d : BitVec 5) (q : BitVec 3) (s : State) : Res :=
  if !s.leads then .next s.advance
  else
    let ps := s.lanePreds q
    if ps.all fun x => x.2.full then
      let v := ps.foldl (fun m x => if x.2.val then m + 2 ^ x.1 else m) 0
      .next ((s.acting.foldl (fun z r => z.modCtx (s.lane r) fun c => c.setReg d (w64 v) false) s).advance)
    else parked s .register

/-- The lane that SHFL reads for lane n (R113). -/
def shflSource (mode : Nat) (active n : Nat) (b : Word) : Nat :=
  let ok (j : Nat) : Nat := if j ≤ 7 && hasBit active j then j else n
  match mode with
  | 0 => ok (b.toNat % 8)
  | 1 => ok (n ^^^ (b.toNat % 8))
  | 2 => if b.toNat ≤ n then ok (n - b.toNat) else n
  | _ => ok (n + b.toNat)

/-- SHFL (R113): all reads precede all writes. -/
def execShfl (d a b : BitVec 5) (m : BitVec 2) (s : State) : Res :=
  if !s.leads then .next s.advance
  else
    let active := match s.groupOf s.cur with
      | some g => g.active
      | none => 2 ^ s.cur.r
    let bs := s.acting.map fun n => (n, (s.ctx (s.lane n)).reg b)
    if bs.all fun x => x.2.full then
      let rs := bs.map fun x =>
        (x.1, (s.ctx (s.lane (shflSource m.toNat active x.1 x.2.val))).reg a, x.2.poison)
      if rs.all fun x => x.2.1.full then
        .next ((rs.foldl (fun z x => z.modCtx (s.lane x.1) fun c =>
          c.setReg d x.2.1.val (x.2.1.poison || x.2.2)) s).advance)
      else parked s .register
    else parked s .register

/-! ### FUSE (R94, R95) -/

/-- FUSE. -/
def execFuse (d a b : BitVec 5) (s : State) : Res :=
  outsideTx s 0x28 <|
    withControls s a b fun x y =>
      let mask := field x 7 0
      let limit := field y 31 0
      if (s.groupOf s.cur).isSome then wrote s d 3 false
      else if s.fuseInvalid mask then wrote s d 2 false
      else .next (s.modMe fun c => { c with
        wait := some (.fuse mask (field x 31 16) limit (if limit = 0 then 0 else s.cycle + limit) (c.dest d)
          false 0 s.nextPc)
        pc := s.upc, took := false })

/-! ### Cache mode (R26, R115, R116) -/

/-- SHARED is set: a switch to the mode starts at once, or after the running one; the value held has no effect. -/
def State.cacheMode (s : State) (b : Nat) (shared : Bool) : State :=
  s.modBraid b fun x =>
    if x.shared == shared then x
    else if x.busy then { x with shared := shared, modeQueue := x.modeQueue ++ [shared] }
    else { x with shared := shared, busy := true }

/-- BMODE_WRITE (R115): supervisor code of rill r writes BMODE. -/
def execBmodeWrite (b r : Nat) (v : Word) (s : State) : Res :=
  let cleared := bit v 0
  if r < 8 then .next (s.cacheMode b cleared) else .next s

/-- The pool halves are written back and invalidated. -/
def Braid.flushPool (x : Braid) : Braid := { x with l1 := x.l1.filter fun e => decide (e.2.place < 8) }

/-- BMODE_SWITCH_END (R26, R115): the next switch that waits starts. -/
def execBmodeSwitchEnd (b : Nat) (s : State) : Res :=
  .next (s.modBraid b fun x =>
    if !x.busy then x
    else match x.modeQueue with
      | [] => { x.flushPool with busy := false }
      | _ :: t => { x.flushPool with modeQueue := t })

/-! ### Formation and time-out (R94, R95, R107) -/

/-- The FUSE wait of a context. -/
def Ctx.fuseWait (c : Ctx) : Option (Nat × Nat × Nat × Nat × Dest × Bool × Nat × Word) :=
  match c.wait with
  | some (.fuse m t l dl d i e n) => some (m, t, l, dl, d, i, e, n)
  | _ => none

/-- Every context k of the rills of m waits for m with one tag. -/
def State.fuseReady (s : State) (b k m : Nat) : Bool :=
  match ((lanes m).head?.bind fun r => (s.ctx ⟨b, r, k⟩).fuseWait) with
  | none => false
  | some w => (lanes m).all fun r =>
    match (s.ctx ⟨b, r, k⟩).fuseWait with
    | some v => v.1 == m && v.2.1 == w.2.1 && (s.ctx ⟨b, r, k⟩).run == .running
    | none => false

/-- A lane enters the group. -/
def Ctx.enterGroup (c : Ctx) (tag limit : Nat) (d : Dest) (pc : Word) (at' : Nat) (implicit : Bool) : Ctx :=
  let rj := c.sr.get 0 0x060
  let rj' := w64 ((if implicit then field rj 63 32 else limit) * 2 ^ 32 + tag)
  let c1 := if implicit then c else c.setCellAt d {}
  { c1 with wait := none, pc := pc, startAt := at', took := false
            sr := (List.range 8).foldl (fun t i => t.put (0x090 + i) 0) (c1.sr.put 0x060 rj') }

/-- The stack of a new group: the region entries still valid in the lead lane (R107). -/
def State.leadStack (s : State) (p : Pos) (mask : Nat) : List StackEntry :=
  (List.range 8).filterMap fun i =>
    let e := s.srAt p (0x090 + i)
    if bit e 0 then some (.region (w64 (field e 55 1 * 2)) (field e 63 56 &&& mask) 0) else none

/-- FUSE_GROUP_FORM (R94, R95): context k of the rills of m. -/
def execFuseGroupForm (b k m : Nat) (s : State) : Res :=
  if !(s.fuseReady b k m && decide (2 ≤ countOnes 8 m)) then .next s
  else
    let ls := lanes m
    let lead := ls.headD 0
    match (s.ctx ⟨b, lead, k⟩).fuseWait with
    | none => .next s
    | some (_, _, _, _, _, impl, _, pc) =>
      let t := ls.foldl (fun x r => max x (s.ctx ⟨b, r, k⟩).lastIssue) 0
      let stack := if impl then s.leadStack ⟨b, lead, k⟩ m else []
      let s1 := ls.foldl (fun z r =>
        match (z.ctx ⟨b, r, k⟩).fuseWait with
        | some (_, tag, limit, _, d, i, _, _) =>
          z.modCtx ⟨b, r, k⟩ fun c => c.enterGroup tag limit d pc (t + 16) i
        | none => z) s
      let s2 := s1.modBraid b fun x =>
        { x with groups := x.groups ++ [{ k := k, mask := m, active := m, pc := pc, stack := stack }] }
      .next (s2.cacheMode b true)

/-- FUSE_TIMEOUT (R94, R95, R107). -/
def execFuseTimeout (b r k : Nat) (s : State) : Res :=
  let p : Pos := ⟨b, r, k⟩
  match (s.ctx p).fuseWait with
  | some (_, _, _, dl, d, i, _, next) =>
    if dl = 0 || s.cycle < dl then .next s
    else
      let s1 := s.modCtx p fun c =>
        { (if i then c else c.setCellAt d { val := 1 }) with wait := none, pc := next }
      .next (if i then s1.setEntries p [] else s1)
  | none => .next s

/-- A withdrawal by CSTOP: the entries that an implicit FUSE cleared are valid again, so that a restart
executes it again (R94, R107). -/
def State.withdrawFuse (s : State) (p : Pos) : State :=
  match (s.ctx p).fuseWait with
  | some (_, _, _, _, _, _, cleared, _) =>
    let s1 := ((List.range 8).filter (hasBit cleared)).foldl
      (fun t j => t.setSr p (0x090 + j) (setField (t.srAt p (0x090 + j)) 0 0 1)) s
    s1.modCtx p fun c => { c with wait := none }
  | none => s

end Sys2Proof.Machine
end

