-- ==== Sys2Proof/Machine/Control.lean ====
section
/-! DEFINITION. Branches, jumps, register windows and the IFQ condition (R60, R83 to R93, R121). -/

namespace Sys2Proof.Machine

/-! ### Branches (R38, R88 to R90) -/

/-- R38, R92: the checks of a target. -/
def checkTarget (s : State) (t : Word) (k : Res) : Res :=
  if bit t 0 then trapped s 0x06 t
  else if field t 63 56 != 0 then trapped s 0x09 t
  else if bit t 55 then trapped s 0x0A t
  else k

/-- Go to t. -/
def goTo (s : State) (t : Word) : Res := checkTarget s t (.next (s.jump t))

/-- A conditional transfer. -/
def branchIf (s : State) (taken : Bool) (t : Word) : Res := if taken then goTo s t else .next s.advance

def execBra (p : BitVec 20) (s : State) : Res := goTo s (s.relTarget p)
def execBH (p : BitVec 10) (s : State) : Res := goTo s (s.relTarget p)
def execBq (q : BitVec 3) (p : BitVec 20) (s : State) : Res :=
  withPredControl s q fun v => branchIf s v (s.relTarget p)
def execBnq (q : BitVec 3) (p : BitVec 20) (s : State) : Res :=
  withPredControl s q fun v => branchIf s (!v) (s.relTarget p)
def execBqH (q : BitVec 3) (p : BitVec 6) (s : State) : Res :=
  withPredControl s q fun v => branchIf s v (s.relTarget p)
def execBnqH (q : BitVec 3) (p : BitVec 6) (s : State) : Res :=
  withPredControl s q fun v => branchIf s (!v) (s.relTarget p)
def execBcmp (a b : BitVec 5) (c : BitVec 3) (p : BitVec 12) (s : State) : Res :=
  withControls s a b fun x y => branchIf s (condHolds c x y) (s.relTarget p)
def execBcmpi (a i : BitVec 5) (c : BitVec 3) (p : BitVec 12) (s : State) : Res :=
  withControl s a fun x => branchIf s (condHolds c x (bcmpiImm c i)) (s.relTarget p)

/-- R90: the counter is written whether or not the branch is taken. -/
def countDown (s : State) (a : BitVec 5) (v : Word) (taken : Bool) (t : Word) : Res :=
  let s1 := s.modMe fun c => c.setReg a v false
  if taken then checkTarget s t (.next (s1.jump t)) else .next s1.advance

def execLoopn (a : BitVec 5) (p : BitVec 12) (s : State) : Res :=
  withControl s a fun x => countDown s a (x - 1) (x - 1 != 0) (s.relTarget p)
def execLoopns (a b : BitVec 5) (p : BitVec 12) (s : State) : Res :=
  withControls s a b fun x y => countDown s a (x - y) ((0 : Word).slt (x - y)) (s.relTarget p)

/-! ### Windows (R83, R84, R86) -/

/-- LIM of R86. -/
def windowLimit (wslimit : Word) : Nat := min wslimit.toNat 0x30000

/-- OpenWindow of R92: the new a registers are the caller's c registers; l and c read zero; l7 is next. -/
def Ctx.openWindow (c : Ctx) (next : Word) : Ctx :=
  let w := 16 * c.depth
  let fresh := (List.range 16).foldl (fun t i => t.put (w + 8 + i) ({} : Cell)) c.win
  { c with win := fresh.put (w + 15) { val := next }, depth := c.depth + 1, resident := c.resident + 1 }

/-- CloseWindow of R92: the callee's l and c registers are discarded. -/
def Ctx.closeWindow (c : Ctx) : Ctx :=
  let w := 16 * (c.depth - 1)
  { c with win := c.win.filter fun e => !(decide (w + 8 ≤ e.1) && decide (e.1 < w + 24))
           depth := c.depth - 1, resident := c.resident - 1 }

/-- The window engine is spilling (or filling) a window of the executing thread. -/
def State.moving (s : State) (spill : Bool) : Bool := s.myRill.winOp.any fun o => o.k == s.cur.k && o.spill == spill

/-- A call: it waits for a spill while four windows are resident, one that is being filled among them, and traps when
none fits (R86). -/
def opening (s : State) (t : Word) : Res :=
  if 4 ≤ s.me.resident then
    if !s.moving true && decide ((s.sr 0x030).toNat + 136 > windowLimit (s.sr 0x032)) then trapped s 0x14 (s.sr 0x030)
    else parked s .window
  else if s.me.resident = 3 && s.moving false then parked s .window
  else .next ((s.modMe fun c => c.openWindow s.nextPc).jump t)

/-- R211: the token of a copy command is to be written into a register of the current window, which RET would close. -/
def State.tokenInWindow (s : State) : Bool :=
  let w := 16 * (s.me.depth - 1)
  (s.braid s.cur.b).copies.any fun q => q.rill == s.cur.r && q.ctx == s.cur.k && match q.token with
    | .win n => decide (w ≤ n ∧ n < w + 24)
    | _ => false

/-- A return: it waits for a fill while one window is resident that the engine is not spilling, and traps when none is
spilled (R86); it waits for the token of a copy command in the window that it closes (R211). -/
def closing (s : State) (t : Word) : Res :=
  if s.me.resident ≤ 1 then
    if (s.sr 0x030).toNat < (s.sr 0x031).toNat + 136 then trapped s 0x14 (s.sr 0x030 + 0x8000000000000000)
    else parked s .window
  else if s.me.resident = 2 && s.moving true then parked s .window
  else if s.tokenInWindow then parked s .engine
  else .next ((s.modMe Ctx.closeWindow).jump t)

def execCall (p : BitVec 20) (s : State) : Res :=
  checkTarget s (s.relTarget p) (opening s (s.relTarget p))
/-- BL (R91). -/
def execBl (p : BitVec 20) (s : State) : Res :=
  checkTarget s (s.relTarget p)
    (.next ((s.modMe fun c => c.setReg 7 s.nextPc false).jump (s.relTarget p)))
def execJr (a : BitVec 5) (s : State) : Res := withControl s a fun t => goTo s t
def execJl (d a : BitVec 5) (s : State) : Res :=
  withControl s a fun t => checkTarget s t (.next ((s.modMe fun c => c.setReg d s.nextPc false).jump t))
def execCallr (a : BitVec 5) (s : State) : Res :=
  withControl s a fun t => checkTarget s t (opening s t)

/-- R318: a return that would close the window of the checkpoint. -/
def State.closesD0 (s : State) : Bool :=
  match s.me.tx with
  | some t => s.me.depth == t.ckpt.depth
  | none => false

/-- RET and RET.H (R92). -/
def returning (s : State) (major : Nat) : Res :=
  if s.closesD0 then outsideTx s major (withControl s 23 fun t => checkTarget s t (closing s t))
  else withControl s 23 fun t => checkTarget s t (closing s t)

def execRet (s : State) : Res := returning s 0x26
def execRetH (s : State) : Res := returning s 0x4F

/-! ### The window engine (R84, R85) -/

/-- Outstanding long-latency instructions with a given destination. -/
def Ctx.outstanding (c : Ctx) (d : Dest) : Bool :=
  c.flights.any (fun a => a.dst == d) || c.longs.any (fun l => l.dst == d) || c.vres.any (fun v => v.dst == d)
    || c.vseq.any (fun v => v.dst == d)
    || c.blocks.any fun x => x.nd == d || (x.op != 1 && x.ad == d) || (x.op == 0 && x.bd == d)

/-- The same, with the replay queue, the copy engine's tokens and the takes of the deque unit. -/
def State.outstanding (s : State) (p : Pos) (d : Dest) : Bool :=
  (s.ctx p).outstanding d
    || (s.rill p.b p.r).replay.any (fun e => e.2.pos == p && e.2.accs.any fun a => a.dst == d)
    || (s.braid p.b).copies.any (fun q => q.rill == p.r && q.ctx == p.k && q.token == d)
    || (s.rill p.b p.r).takes.any fun t => t.k == p.k && t.s == d

/-- The engine may begin to spill the oldest resident window of p. -/
def State.spillable (s : State) (p : Pos) : Bool :=
  let c := s.ctx p
  let w := 16 * (c.depth - c.resident)
  (List.range 16).all fun i => !s.outstanding p (.win (w + i))

/-- S > 0: the window stack of a thread holds a frame. -/
def State.spilledWindow (s : State) (p : Pos) : Bool := decide ((s.srAt p 0x031).toNat + 136 ≤ (s.srAt p 0x030).toNat)

/-- The work that a context asks of the engine: 0 none, 1 demand, 2 eager; and whether it is a spill. -/
def State.windowWork (s : State) (p : Pos) : Nat × Bool :=
  let c := s.ctx p
  let wsp := (s.srAt p 0x030).toNat
  let room := decide (wsp + 136 ≤ windowLimit (s.srAt p 0x032)) && s.spillable p
  let some' := s.spilledWindow p
  let waits := c.run == .running && c.held == some .window
  if c.run == .empty then (0, false)
  else if c.resident ≥ 4 && room then (if waits then 1 else 2, true)
  else if c.resident ≤ 1 && some' then (if waits then 1 else 2, false)
  else (0, false)

/-- The next operation of a rill's engine: demand work first, then the lowest context (R85). -/
def State.windowNext (s : State) (b r : Nat) : Option WinOp :=
  let f (n : Nat) := (List.range 16).find? fun k => (s.windowWork ⟨b, r, k⟩).1 == n
  match f 1 with
  | some k => some { k := k, spill := (s.windowWork ⟨b, r, k⟩).2 }
  | none => match f 2 with
    | some k => some { k := k, spill := (s.windowWork ⟨b, r, k⟩).2 }
    | none => none

/-- Sixteen FE or poison bits of a window from absolute place w. -/
def Ctx.windowBits (c : Ctx) (w : Nat) (f : Cell → Bool) : Nat :=
  (List.range 16).foldl (fun m i => if f (c.win.get {} (w + i)) then m + 2 ^ i else m) 0

/-- Store the frame of a window at local-store address a (R84), as plain writes without a release tag (R164). The rule
gives the poison of the registers to the tag word and says nothing of the local-store poison bits of the seventeen words
themselves: that a spill clears them is the model's choice (log entry 112). -/
def Memory.storeFrame (m : Memory) (c : Ctx) (w a : Nat) : Memory :=
  let m1 := (List.range 16).foldl (fun t i =>
    let x := c.win.get {} (w + i)
    ((t.write (a + 8 * i) 8 x.val.toNat).setPoison (a + 8 * i) false).setFull (a + 8 * i) true) m
  let tag := c.windowBits w (fun x => x.full) + c.windowBits w (fun x => x.poison) * 2 ^ 16
  (((m1.write (a + 128) 8 tag).setPoison (a + 128) false).setFull (a + 128) true).setTags a none 136

/-- The words of a frame as the engine stores them, by word of local store. -/
def Ctx.frameWords (c : Ctx) (m : Memory) (a : Nat) : Table (Nat × Bool) :=
  (List.range 17).foldl (fun t i => t.put (frameKey (a + 8 * i)) (m.read (a + 8 * i) 8, false)) c.frames

/-- Load the frame of words f as window w. -/
def Ctx.loadFrame (c : Ctx) (f : Nat → Nat × Bool) (w : Nat) : Ctx :=
  let (tag, bad) := f 16
  { c with win := (List.range 16).foldl (fun t i =>
      t.put (w + i)
        { val := w64 (f i).1
          full := bad || hasBit tag i
          poison := bad || hasBit tag (16 + i) || (f i).2 }) c.win }

/-- WINDOW_SPILL (R84, R85): after its nine slack slots the engine's spill for context k is complete. An abort (R325) may
meanwhile have left the window as the only one: it then stays resident. -/
def execWindowSpill (b r k : Nat) (s : State) : Res :=
  match (s.rill b r).winOp with
  | some op =>
    if op.k == k && op.spill && decide (9 ≤ op.slots) && decide ((s.ctx ⟨b, r, k⟩).resident ≤ 1) then
      .next (s.modRill b r fun x => { x with winOp := none })
    else if op.k == k && op.spill && decide (9 ≤ op.slots) then
      let p : Pos := ⟨b, r, k⟩
      let c := s.ctx p
      let w := 16 * (c.depth - c.resident)
      let wsp := s.srAt p 0x030
      let a := lsAddr b r wsp.toNat
      let s1 := ({ s with mem := s.mem.storeFrame c w a } : State).wroteAll [lineOf a, lineOf (a + 64), lineOf (a + 128)]
      let s2 := s1.modCtx p fun x => { x with
        resident := x.resident - 1
        win := x.win.filter fun e => !(decide (w ≤ e.1) && decide (e.1 < w + 16))
        frames := x.frameWords s1.mem a
        sr := x.sr.put 0x030 (wsp + 136) }
      .next (s2.modRill b r fun x => { x with winOp := none })
    else .next s
  | none => .next s

/-- WINDOW_FILL (R84, R85). A word of the frame that something else has written since the spill is loaded as it was spilled
or as it was written, drawn freely. An abort (R325) or a new start may meanwhile have left no spilled window: then nothing
is filled. -/
def execWindowFill (b r k : Nat) (s : State) : Res :=
  match (s.rill b r).winOp with
  | some op =>
    if op.k == k && !op.spill && decide (9 ≤ op.slots) && !s.spilledWindow ⟨b, r, k⟩ then
      .next (s.modRill b r fun x => { x with winOp := none })
    else if op.k == k && !op.spill && decide (9 ≤ op.slots) then
      let p : Pos := ⟨b, r, k⟩
      let wsp := s.srAt p 0x030
      let a := lsAddr b r (wsp.toNat - 136)
      let kept (i : Nat) := (s.ctx p).frames.find (frameKey (a + 8 * i))
      let s1 := (s.afterKept 17 ((List.range 17).any fun i => s.overwritten (a + 8 * i) (kept i))).modCtx p fun c =>
        let x := c.loadFrame (fun i => s.keptWord (a + 8 * i) i (kept i)) (16 * (c.depth - c.resident - 1))
        { x with
          resident := x.resident + 1
          frames := (List.range 17).foldl (fun t i => t.drop (frameKey (a + 8 * i))) x.frames
          sr := x.sr.put 0x030 (wsp - 136) }
      .next (s1.modRill b r fun x => { x with winOp := none })
    else .next s
  | none => .next s

/-! ### IFQ (R60, R121) -/

/-- IFQ: its condition governs the instruction of the unit. -/
def execIfq (q : BitVec 3) (n : BitVec 1) (s : State) : Res :=
  withPredControl s q fun v => .next { s with cond := v != (n == 1) }

end Sys2Proof.Machine
end

