-- ==== Sys2Proof/Machine/Shared.lean ====
section
/-! DEFINITION. Multiply and divide, shared registers, FE bits of general registers, neighbour writes and
ox moves (R55, R129, R130, R134 to R141). -/

namespace Sys2Proof.Machine

/-! ### Long-latency results (R49, R129, R130) -/

/-- The LA window of the executing instruction opens (R50). -/
def Ctx.openLa (c : Ctx) (la : Nat) (kept : Bool := false) : Ctx :=
  { c with las := c.las ++ [{ seq := c.seq, la := la, kept := kept }] }

/-- The LA window of an instruction closes when nothing of it is outstanding; one that waits for what is logged does
not close here. -/
def Ctx.closeLa (c : Ctx) (seq : Nat) : Ctx :=
  if c.flights.any (fun a => a.seq == seq) || c.longs.any (fun l => l.seq == seq) then c
  else { c with las := c.las.filter fun w => w.seq != seq || w.kept }

/-- The LA window of an instruction that is complete. -/
def Ctx.endLa (c : Ctx) (seq : Nat) : Ctx := { c with las := c.las.filter fun w => w.seq != seq }

/-- Issue an instruction whose result is computed now and written later. -/
def State.issueLong (s : State) (d : Dest) (la unit : Nat) (v : Word) (p : Bool) (fl : BitVec 5) (due : Nat) : State :=
  let id := s.nextId
  ({ s with nextId := id + 1 } : State).modMe fun c =>
    { (c.setEmpty d id).openLa la with
      longs := c.longs ++ [{ id := id, seq := c.seq, unit := unit, dst := d, val := v, poison := p, flags := fl, due := due }] }

/-- Latest end of the work given to a unit of the executing rill: 1 the divider, 2 the FP long unit. -/
def State.unitFree (s : State) (unit : Nat) : Nat :=
  (List.range 16).foldl (fun m k =>
    (s.ctx { s.cur with k := k }).longs.foldl (fun m' l => if l.unit = unit then max m' l.due else m') m) s.cycle

def multiply (f : Word → Word → Word) (d a b : BitVec 5) (la : BitVec 4) (s : State) : Res :=
  withReg s a fun x => withReg s b fun y =>
    .next ((s.issueLong (s.me.dest d) la.toNat 0 (f x.val y.val) (x.poison || y.poison) 0 (s.cycle + 8)).advance)

def divide (f : Word → Word → Word) (d a b : BitVec 5) (la : BitVec 4) (s : State) : Res :=
  withReg s a fun x => withReg s b fun y =>
    .next ((s.issueLong (s.me.dest d) la.toNat 1 (f x.val y.val) (x.poison || y.poison) 0 (s.unitFree 1 + 34)).advance)

def divS (a b : Word) : Word := if b = 0 then 0xFFFFFFFFFFFFFFFF else wrap (a.toInt.tdiv b.toInt)
def divU (a b : Word) : Word := if b = 0 then 0xFFFFFFFFFFFFFFFF else w64 (a.toNat / b.toNat)
def remS (a b : Word) : Word := if b = 0 then a else wrap (a.toInt.tmod b.toInt)
def remU (a b : Word) : Word := if b = 0 then a else w64 (a.toNat % b.toNat)

def execMul (d a b : BitVec 5) (l : BitVec 4) (s : State) : Res := multiply (fun x y => x * y) d a b l s
def execMulh (d a b : BitVec 5) (l : BitVec 4) (s : State) : Res :=
  multiply (fun x y => wrap ((x.toInt * y.toInt) / 2 ^ 64)) d a b l s
def execMulhz (d a b : BitVec 5) (l : BitVec 4) (s : State) : Res :=
  multiply (fun x y => w64 (x.toNat * y.toNat / 2 ^ 64)) d a b l s
def execMulhsz (d a b : BitVec 5) (l : BitVec 4) (s : State) : Res :=
  multiply (fun x y => wrap ((x.toInt * y.toNat) / 2 ^ 64)) d a b l s
def execDiv (d a b : BitVec 5) (l : BitVec 4) (s : State) : Res := divide divS d a b l s
def execDivz (d a b : BitVec 5) (l : BitVec 4) (s : State) : Res := divide divU d a b l s
def execRem (d a b : BitVec 5) (l : BitVec 4) (s : State) : Res := divide remS d a b l s
def execRemz (d a b : BitVec 5) (l : BitVec 4) (s : State) : Res := divide remU d a b l s

/-- Result n of context p is written, when it is due. -/
def State.landLong (s : State) (p : Pos) (unit n : Nat) : State :=
  match (s.ctx p).longs.find? fun l => l.id == n && l.unit == unit && decide (l.due ≤ s.cycle) with
  | some l => s.modCtx p fun c =>
    let c1 := { c with longs := c.longs.filter fun m => m.id != n }
    let c2 := (c1.fill l.dst l.id l.val l.poison).closeLa l.seq
    { c2 with sr := if l.flags = 0 then c2.sr
        else c2.sr.put 0x020 (w64 ((c2.sr.get 0 0x020).toNat ||| (l.flags.toNat * 16))) }
  | none => s

/-- MULTIPLY_RESULT (R130). -/
def execMultiplyResult (b r k n : Nat) (s : State) : Res := .next (s.landLong ⟨b, r, k⟩ 0 n)
/-- FP_LONG_RESULT (R239): the value and the flags. -/
def execFpLongResult (b r k n : Nat) (s : State) : Res := .next (s.landLong ⟨b, r, k⟩ 2 n)

/-- The divide of a rill that ends first. -/
def State.oldestDivide (s : State) (b r : Nat) : Option (Pos × LongOp) :=
  (List.range 16).foldl (fun o k =>
    (s.ctx ⟨b, r, k⟩).longs.foldl (fun o' l =>
      if l.unit != 1 then o' else
        match o' with
        | some (_, m) => if l.due < m.due then some (⟨b, r, k⟩, l) else o'
        | none => some (⟨b, r, k⟩, l)) o) none

/-- DIVIDE_RESULT (R130). -/
def execDivideResult (b r : Nat) (s : State) : Res :=
  match s.oldestDivide b r with
  | some (p, l) => .next (s.landLong p 1 l.id)
  | none => .next s

/-! ### Shared registers (R134 to R137) -/

/-- The reset value of a shared register: 0, EMPTY, unpoisoned (R134). -/
def emptyCell : Cell := { full := false }

/-- One effect on the shared registers. -/
def SharedEffect.apply (e : SharedEffect) (t : Table Cell) : Table Cell :=
  let x := t.get emptyCell e.m
  let x1 := match e.val with
    | some (v, p) => { x with val := v, poison := p }
    | none => x
  t.put e.m (match e.full with
    | some f => { x1 with full := f }
    | none => x1)

/-- A shared register as the rill sees it in a cycle: every effect due by then has taken place (R135). -/
def Rill.shared (x : Rill) (cycle m : Nat) : Cell :=
  ((x.mEffects.filter fun e => decide (e.due ≤ cycle)).foldl (fun t e => e.apply t) x.m).get emptyCell m

/-- R136: reserved in the three cycles after an FE operation on it. -/
def Rill.isReserved (x : Rill) (cycle m : Nat) : Bool :=
  match x.mReserved.find m with
  | some c => decide (c < cycle ∧ cycle ≤ c + 3)
  | none => false

/-- An effect for rill cycle c + 4. -/
def State.mEffect (s : State) (m : Nat) (val : Option (Word × Bool)) (full : Option Bool) : State :=
  s.modMyRill fun x => { x with mEffects := x.mEffects ++ [{ due := s.cycle + 4, m := m, val := val, full := full }] }

def State.mReserve (s : State) (m : Nat) : State :=
  s.modMyRill fun x => { x with mReserved := x.mReserved.put m s.cycle }

/-- A failed attempt (R136, R140, R141): held, one retry more, or the trap past LIMIT. What a lane tries again in the cycle of
its attempt, as its group is granted the slot once more, is no further attempt. -/
def failedAttempt (s : State) (i : Instr) (h : Hold) (sr cause : Nat) (val : Word) : Res :=
  let limit := field (s.sr sr) 31 0
  if s.me.heldUnit.isNone || s.me.triedAt == 0 then
    .next (s.modMe fun c =>
      { c with held := some h, retry := 0, heldUnit := some i, heldLen := s.ulen, triedAt := s.cycle + 1 })
  else if s.me.triedAt == s.cycle + 1 then .next (s.modMe fun c => { c with held := some h })
  else if limit != 0xFFFFFFFF && limit ≤ s.me.retry then trapped s cause val
  else .next (s.modMe fun c => { c with held := some h, retry := c.retry + 1, triedAt := s.cycle + 1 })

/-- The attempt succeeds. -/
def State.attempted (s : State) : State :=
  s.modMe fun c => { c with held := none, retry := 0, heldUnit := none }

/-- An FE-synchronising operation on m (R136, R137). -/
def sharedFe (s : State) (i : Instr) (m : BitVec 4) (ok : Cell → Bool) (k : State → Cell → Res) : Res :=
  let x := s.myRill.shared s.cycle m.toNat
  if s.myRill.isReserved s.cycle m.toNat || !ok x then
    failedAttempt s i .shared 0x040 0x0D (w64 (0x8000000000000000 + m.toNat))
  else k (s.attempted.mReserve m.toNat) x

/-- MRD: neither reserves nor is held; allowed in a transaction. -/
def execMrd (d : BitVec 5) (m : BitVec 4) (s : State) : Res :=
  let x := s.myRill.shared s.cycle m.toNat
  wrote s d x.val x.poison
def execMwr (m : BitVec 4) (a : BitVec 5) (s : State) : Res :=
  outsideTx s 0x0D <| withReg s a fun x =>
    .next ((s.mEffect m.toNat (some (x.val, x.poison)) none).advance)
def execMrdfe (d : BitVec 5) (m : BitVec 4) (s : State) : Res :=
  outsideTx s 0x0D <| sharedFe s (.mrdfe d m) m (fun x => x.full) fun t x =>
    wrote (t.mEffect m.toNat none (some false)) d x.val x.poison
def execMrdff (d : BitVec 5) (m : BitVec 4) (s : State) : Res :=
  outsideTx s 0x0D <| sharedFe s (.mrdff d m) m (fun x => x.full) fun t x => wrote t d x.val x.poison
def execMwrfe (m : BitVec 4) (a : BitVec 5) (s : State) : Res :=
  outsideTx s 0x0D <| withReg s a fun y => sharedFe s (.mwrfe m a) m (fun x => !x.full) fun t _ =>
    .next ((t.mEffect m.toNat (some (y.val, y.poison)) (some true)).advance)
def execMwrff (m : BitVec 4) (a : BitVec 5) (s : State) : Res :=
  outsideTx s 0x0D <| withReg s a fun y => sharedFe s (.mwrff m a) m (fun _ => true) fun t _ =>
    .next ((t.mEffect m.toNat (some (y.val, y.poison)) (some true)).advance)
def execMfeclr (m : BitVec 4) (s : State) : Res :=
  outsideTx s 0x0D <| sharedFe s (.mfeclr m) m (fun _ => true) fun t _ =>
    .next ((t.mEffect m.toNat none (some false)).advance)

/-- SHARED_REGISTER_EFFECT (R135): the oldest effect that is due takes place. -/
def execSharedRegisterEffect (b r : Nat) (s : State) : Res :=
  match (s.rill b r).mEffects with
  | [] => .next s
  | e :: t =>
    if e.due ≤ s.cycle then .next (s.modRill b r fun x => { x with m := e.apply x.m, mEffects := t })
    else .next s

/-- REMPTY or RFULL, by the word of the instruction: they change FE bits and write no value (R138). -/
def feBitWord (w : Nat) : Bool := w / 2 ^ 25 == 0x4D && (w / 16 % 64 == 0x10 || w / 16 % 64 == 0x11)

/-- What the unit of context q, which took s to t, has changed among its general registers (SlotFe). -/
def State.slotFeOf (s t : State) (q : Pos) : SlotFe :=
  let c := s.ctx q
  let d := t.ctx q
  let places := ((c.g ++ d.g).map fun e => Dest.g e.1) ++ (c.win ++ d.win).map fun e => Dest.win e.1
  { cycle := t.cycle, depth := c.depth, fe := feBitWord t.iword
    was := (places.filter fun x => c.cellAt x != d.cellAt x).eraseDups.map fun x =>
      (x, !(c.cellAt x).full && !s.outstanding q x) }

/-- A unit that was held, or has issued, or has trapped: what its outcome t makes of the state s before it. Unless it is
held, it has taken the slot. -/
def State.endUnit (s t : State) (p : Pos) (pc : Word) : State :=
  let c := t.ctx p
  if c.held.isSome then s.modCtx p fun x => x.heldAs c
  else
    let u : State := { t with offered := t.offered ++ [usedKey p] }
    if c.run == .running && c.left.isNone then u.modCtx p fun x => { x.issued pc t.cycle with slotFe := s.slotFeOf t p }
    else u

/-- The marker of a position whose westward write has waited for the other rills' slots of the cycle. -/
def waitedKey (p : Pos) : Nat := 2 ^ 23 + p.key

/-- A later attempt of a held unit: in a slot of its thread, once in the slot, or in the slack slot in which a westward
write of context 15 waits for the other rills' slots. A lane attempts with its group, so that the group is offered the
slot. -/
def State.retrying (s : State) (p : Pos) (h : Hold) (k : State → Instr → Res) : Res :=
  let c := s.ctx p
  match c.heldUnit with
  | some i =>
    if !(c.run == .running && c.held == some h && (s.cycle % 16 == p.k || (p.k == 15 && c.triedAt == 0))
        && c.triedAt ≤ s.cycle && !s.offered.contains (usedKey p)) then .next s
    else if (s.groupOf p).isSome then
      .next { s with grant := some p, offered := s.offered ++ (s.lanesOf p).map waitedKey }
    else match k { (s.begin p) with cur := p, upc := c.pc, ipc := c.pc + w64 (2 * (c.heldLen - 2)), ulen := c.heldLen
                                    cond := true, xlanes := 2 ^ p.r } i with
      | .next t => .next (s.endUnit t p c.pc)
      | r => r
  | none => .next s

/-- SHARED_REGISTER_FE_RETRY (R136). -/
def execSharedRegisterFeRetry (b r k : Nat) (s : State) : Res :=
  s.retrying ⟨b, r, k⟩ .shared fun t i =>
    match i with
    | .mrdfe d m => execMrdfe d m t
    | .mrdff d m => execMrdff d m t
    | .mwrfe m a => execMwrfe m a t
    | .mwrff m a => execMwrff m a t
    | .mfeclr m => execMfeclr m t
    | _ => .next s

/-! ### FE bits of the thread's own registers (R138) -/

/-! They wait for long-latency writers alone: a neighbour write that has been accepted lands all the same, since they write
no value (R138, R140). -/

def execRempty (d : BitVec 5) (s : State) : Res :=
  if d = 0 then .next s.advance
  else if s.outstanding s.cur (s.me.dest d) then parked s .register
  else .next ((s.modMe fun c => c.setCellAt (c.dest d) { c.reg d with full := false }).advance)
def execRfull (d : BitVec 5) (s : State) : Res :=
  if d = 0 then .next s.advance
  else if s.outstanding s.cur (s.me.dest d) then parked s .register
  else .next ((s.modMe fun c => c.setCellAt (c.dest d) { c.reg d with full := true }).advance)
def execRtest (q : BitVec 3) (a : BitVec 5) (s : State) : Res :=
  wrotePred s q (a == 0 || ((s.me.reg a).full && !s.outstanding s.cur (s.me.dest a))) false

/-! ### Neighbour writes (R139 to R141) -/

/-- A register of the target as it was at the start of the rill cycle: its place, and whether it was empty with nothing
outstanding for it. The target's own unit of the cycle, which may have come first, comes after the write (R140). -/
def State.target (s : State) (q : Pos) (d : BitVec 5) : Dest × Bool :=
  let c := s.ctx q
  let c0 : Ctx := if c.slotFe.cycle = s.cycle then { c with depth := c.slotFe.depth } else c
  let dst := c0.dest d
  let free := !(c.cellAt dst).full && !s.outstanding q dst
  (dst, if c.slotFe.cycle = s.cycle then
      match c.slotFe.was.find? fun e => e.1 == dst with
      | some e => e.2
      | none => free
    else free)

/-- The attempt is accepted by the target context. -/
def State.nwrAccepts (s : State) (q : Pos) (d : BitVec 5) : Bool :=
  let c := s.ctx q
  (c.run == .running || c.run == .stopping) && !c.halting && (s.target q d).2
    && !((s.rill q.b q.r).landings.any fun l => l.k == q.k && l.dst == (s.target q d).1) && s.txDepth q == 0

/-- R140: an attempt that is accepted fixes the register and lands after four cycles; the value is lost where the
target's own unit of this cycle has written the register, since that write comes after; one that has set the FE bit alone
has written nothing (R138). -/
def State.nwrAccept (s : State) (q : Pos) (d : BitVec 5) (v : Word) (p : Bool) : State :=
  let id := s.nextId
  let dst := (s.target q d).1
  let s1 := ({ s with nextId := id + 1 } : State).modCtx q fun c =>
    if c.slotFe.cycle == s.cycle && c.slotFe.was.any (fun e => e.1 == dst) then
      if c.slotFe.fe then c.setCellAt dst { c.cellAt dst with src := id } else c
    else c.setEmpty dst id
  s1.modRill q.b q.r fun x =>
    { x with landings := x.landings ++ [{ id := id, due := s.cycle + 4, k := q.k, dst := dst, val := v, poison := p }] }

/-- An attempt on the neighbour in direction dir: 0 east, 1 west. -/
def neighbour (s : State) (i : Instr) (dir : Nat) (d a : BitVec 5) : Res :=
  outsideTx s 0x0D <| withReg s a fun x =>
    if d = 0 then .next s.attempted.advance
    else
      let q : Pos := { s.cur with r := (s.cur.r + (if dir = 0 then 1 else 7)) % 8 }
      if s.nwrAccepts q d then .next ((s.attempted.nwrAccept q d x.val x.poison).advance)
      else failedAttempt s i .neighbour 0x041 0x0E (w64 (0x8000000000000000 + dir * 0x100 + d.toNat))

def execNwrE (d a : BitVec 5) (s : State) : Res := neighbour s (.nwrE d a) 0 d a

/-- R140: of two writes that arrive in one cycle, the one from the west neighbour of the target is
accepted, so that an attempt westward waits, within the cycle, for a slot still to be offered there. -/
def execNwrW (d a : BitVec 5) (s : State) : Res :=
  let w : Pos := { s.cur with r := (s.cur.r + 6) % 8 }
  if (s.ctx w).run == .running && (s.cycle % 16 == s.cur.k || s.cur.k == 15) && !s.offered.contains w.key
      && s.offered.contains s.cur.key && !s.offered.contains (waitedKey s.cur) then
    .next (s.modMe fun c =>
      { c with held := some .neighbour, heldUnit := some (.nwrW d a), heldLen := s.ulen
               triedAt := if c.heldUnit.isNone then 0 else c.triedAt
               retry := if c.heldUnit.isNone then 0 else c.retry })
  else neighbour s (.nwrW d a) 1 d a

/-- NWR_ATTEMPT (R140). -/
def execNwrAttempt (b r k : Nat) (s : State) : Res :=
  s.retrying ⟨b, r, k⟩ .neighbour fun t i =>
    match i with
    | .nwrE d a => neighbour t i 0 d a
    | .nwrW d a => neighbour t i 1 d a
    | _ => .next s

/-- NWR_LAND (R140): the oldest accepted write to context k that is due. It is dropped where the context has written the
register since; an FE bit that the context has set meanwhile is no such write. -/
def execNwrLand (b r k : Nat) (s : State) : Res :=
  match (s.rill b r).landings.find? fun l => l.k == k && decide (l.due ≤ s.cycle) with
  | some l =>
    let s1 := s.modRill b r fun x => { x with landings := x.landings.erase l }
    .next (s1.modCtx ⟨b, r, k⟩ fun c =>
      let x := c.cellAt l.dst
      if x.src != l.id then c else c.setCellAt l.dst { val := l.val, full := true, poison := l.poison })
  | none => .next s

/-! ### Operand-extension registers (R55) -/

def execLox (n : BitVec 3) (a : BitVec 5) (s : State) : Res :=
  withReg s a fun x => .next ((s.modMe fun c => c.setOx n.toNat x.val x.poison).advance)
def execMox (d : BitVec 5) (n : BitVec 3) (s : State) : Res :=
  if (s.me.oxReg n.toNat).full then wrote s d (s.me.oxReg n.toNat).val (s.me.oxReg n.toNat).poison
  else parked s .register

end Sys2Proof.Machine
end

