-- ==== Sys2Proof/Machine/Access.lean ====
section
/-! DEFINITION. Memory accesses of a thread: the checks of R143, translation (R398 to R403), logging in the
replay queue (R144, R145, R393, R394), and the accesses in flight. -/

namespace Sys2Proof.Machine

/-! ### Checks (R30, R31, R143) -/

/-- The check that an address fails: its cause. bad: a register that forms it is poisoned. -/
def addressFault (ea : Word) (size : Nat) (bad aligned : Bool) : Option Nat :=
  if bad then some 0x0C
  else if field ea 63 56 != 0 then some 0x09
  else if aligned && ea.toNat % size != 0 then some 0x06
  else if bit ea 55 && (field ea 54 24 != 0 || field ea 20 18 != 0 || decide (0x30000 < field ea 17 0 + size))
    then some 0x0A
  else none

/-- A trap of an access: XSTAT.WRITE says whether it writes (R376). -/
def trappedAt (s : State) (cause : Nat) (ea : Word) (write : Bool) : Res := .next (s.trapAs cause ea s.ulen s.upc write)

/-- R143: the unit traps with its address, or goes on. -/
def withAddress (s : State) (ea : Word) (size : Nat) (bad : Bool) (k : Res) (write : Bool := false) : Res :=
  match addressFault ea size bad true with
  | some cause => trappedAt s cause ea write
  | none => k

/-- Place of a local-store address of a braid. -/
def localPlace (b : Nat) (ea : Word) : Nat := lsAddr b (field ea 23 21) (field ea 17 0)

/-! ### Owners of physical addresses (R401, R406) -/

def hbmTop : Nat := 2 ^ 40
def zclBase : Nat := 2 ^ 44

/-- A granule belongs to a basin. -/
def Granule.ownedBy (g : Granule) (n : Nat) : Bool :=
  g.basin == n && (g.state == .owned || g.state == .leaving || g.state == .scrubbing)

/-- Owner(x) = basin n. The range of the package's own number has no owner (R445). -/
def State.owns (s : State) (n pa : Nat) : Bool :=
  if pa < hbmTop then (s.gchans.get {} (pa / 2 ^ 31)).ownedBy n
  else if zclBase ≤ pa && decide (pa < 2 ^ 52) && (pa - zclBase) / 2 ^ 40 != s.zclNumber then
    s.zclIn.any fun g => g.1 == (pa - zclBase) / 2 ^ 31 && g.2 == n
  else false

/-! ### The page table (R399 to R401) -/

/-- What an access needs of its page: read, write, fetch. -/
structure Need where
  r : Bool := false
  w : Bool := false
  x : Bool := false
  deriving DecidableEq, Repr

/-- Bytes of a page whose leaf lies at a level. -/
def pageBytes (lvl : Nat) : Nat := 2 ^ (12 + 9 * lvl)

/-- R400: malformed entries. -/
def malformed (p : Word) (lvl : Nat) : Bool :=
  let leaf := bit p 1
  field p 63 58 != 0 || field p 11 10 != 0
    || (if leaf then lvl == 3 || field p 51 12 % 2 ^ (9 * lvl) != 0 || (bit p 7 && lvl != 0) || (bit p 6 && bit p 9)
        else lvl == 0 || field p 63 52 != 0 || field p 9 2 != 0)

/-- Outcome of a walk. -/
inductive Walk where
  | leaf (p : Word) (lvl : Nat)
  | fault (cause : Nat)
  | poisoned
  deriving DecidableEq, Repr

/-- The 16 level-0 entries from address a on are a C group (R400): one of them has C. -/
def State.groupAt (s : State) (a : Nat) : Bool :=
  (List.range 16).any fun i => let p := w64 (s.mem.read (a + 8 * i) 8); bit p 0 && bit p 1 && bit p 7

/-- A leaf whose page begins m pages of 4 KiB later. -/
def leafPlus (p : Word) (m : Nat) : Word := setField p 51 12 (field p 51 12 + m)

/-- Walk(va) from the table t of a level. With group, the page of a C group is that of the group's first entry (R400). -/
def State.walk (s : State) (n : Nat) (va : Nat) (group : Bool) : Nat → Nat → Walk
  | lvl, t =>
    let i := if lvl = 3 then va / 2 ^ 39 % 2 ^ 17 else va / 2 ^ (12 + 9 * lvl) % 512
    let m := if group && lvl == 0 && s.groupAt (t + 8 * (i / 16 * 16)) then i % 16 else 0
    let a := t + 8 * (i - m)
    if !s.owns n t then .fault 0x0B
    else if s.mem.poisoned a then .poisoned
    else
      let p := w64 (s.mem.read a 8)
      if !bit p 0 then .fault 0x08
      else if malformed p lvl then .fault 0x09
      else if bit p 1 then .leaf (leafPlus p m) lvl
      else match lvl with
        | 0 => .fault 0x09
        | l + 1 => s.walk n va group l (field p 51 12 * 2 ^ 12)

/-- The results that a walk may give: through the own entry of a page and through the first entry of its C group, which
differ only where a program has broken a condition on the group (R400). -/
def State.walks (s : State) (n va root : Nat) : List Walk :=
  let own := s.walk n va false 3 (root * 2 ^ 20)
  let first := s.walk n va true 3 (root * 2 ^ 20)
  if own == first then [own] else [own, first]

/-- A translation: place and leaf; a fault with its SUB bits; the host is asked; the basin is contained. -/
inductive Xlat where
  | ok (pa : Nat) (leaf : Word)
  | fault (cause sub : Nat)
  | ask
  | poisoned
  deriving DecidableEq, Repr

def TlbEntry.covers (e : TlbEntry) (n asid va : Nat) : Bool :=
  e.basin == n && e.asid == asid && decide (e.va ≤ va ∧ va < e.va + e.size)

/-- The set of the braid TLB that an entry stands in. The manual gives 128 sets and not what selects one: this model
takes the page number modulo 128. -/
def TlbEntry.set (e : TlbEntry) : Nat := e.va / e.size % 128

/-- R402: a new entry; where n entries of those that `at` selects are there, the oldest of them is dropped. -/
def tlbPut (t : List TlbEntry) (n : Nat) (at' : TlbEntry → Bool) (e : TlbEntry) : List TlbEntry :=
  let old := t.filter at'
  (if old.length < n then t else match old with
    | x :: _ => t.erase x
    | [] => t) ++ [e]

/-- R402: the rill TLB is fully associative with 64 entries, the braid TLB has 128 sets of 8. -/
def State.fillTlb (s : State) (p : Pos) (e : TlbEntry) (braidToo : Bool) : State :=
  let s1 := s.modRill p.b p.r fun x => { x with tlb := tlbPut x.tlb 64 (fun _ => true) e }
  if braidToo then s1.modBraid p.b fun x => { x with tlb := tlbPut x.tlb 8 (fun y => y.set == e.set) e } else s1

/-- The permission and ownership checks of R401 on a leaf. -/
def State.leafFault (s : State) (n : Nat) (user : Bool) (need : Need) (leaf : Word) (pa : Nat) : Option Nat :=
  if field leaf 57 52 != n || (!bit leaf 9 && !s.owns n pa) then some 0x0B
  else if (need.r && !bit leaf 2) || (need.w && !bit leaf 3) || (need.x && !bit leaf 4) || (user && !bit leaf 5)
    then some 0x09
  else none

/-- The request to the host for a page (R403): the one made before, or none. -/
def State.atsFor (s : State) (n asid va : Nat) : Option AtsReq :=
  s.ats.find? fun q => s.atsBasin q == n && q.asid == asid && q.va.toNat / 4096 == va / 4096

/-- The cached translation of an address (R402): that of the rill, else that of the braid; whether it is the rill's. -/
def State.cachedLeaf (s : State) (p : Pos) (n asid va : Nat) : Option (TlbEntry × Bool) :=
  match (s.rill p.b p.r).tlb.find? (fun (e : TlbEntry) => e.covers n asid va) with
  | some e => some (e, true)
  | none => ((s.braid p.b).tlb.find? fun (e : TlbEntry) => e.covers n asid va).map fun e => (e, false)

/-- A cached translation is used; the rill takes the braid's. -/
def State.translateHit (s : State) (p : Pos) (n va : Nat) (user : Bool) (need : Need) (e : TlbEntry) (near : Bool) :
    State × Xlat :=
  let pa := e.pa + (va - e.va)
  (if near then s else s.fillTlb p e false,
    match s.leafFault n user need e.leaf pa with
    | some c => .fault c 0
    | none => .ok (if bit e.leaf 9 then hostAddr pa else pa) e.leaf)

/-- A page of the host (R403): the answer to the request made before, or a request. -/
def State.askHost (s : State) (p : Pos) (n asid va : Nat) (need : Need) (leaf : Word) (size : Nat) : State × Xlat :=
  match s.atsFor n asid va with
  | some q =>
    if q.phase = 2 then ({ s with ats := s.ats.filter fun x => x.id != q.id }, .fault 0x08 3)
    else if q.phase = 1 then (s, .fault 0x08 9)
    else if q.phase = 3 then
      let pa := q.pa + va % q.size
      ({ s with ats := s.ats.filter fun x => x.id != q.id },
        match s.leafFault n false need q.leaf pa with
        | some c => .fault c 0
        | none => .ok (hostAddr pa) q.leaf)
    else (s, .ask)
  | none =>
    ({ s with nextId := s.nextId + 1
              ats := s.ats ++ [{ id := s.nextId, pos := p, asid := asid, va := w64 va, write := need.w, leaf := leaf
                                 size := size }] }, .ask)

/-- A leaf that the walk found is used and cached. -/
def State.translateLeaf (s : State) (p : Pos) (n asid va : Nat) (user : Bool) (need : Need) (leaf : Word) (lvl : Nat) :
    State × Xlat :=
  let size := pageBytes lvl
  let base := field leaf 51 12 * 2 ^ 12
  match s.leafFault n user need leaf (base + va % size) with
  | some c => (s, .fault c 0)
  | none =>
    if bit leaf 9 then s.askHost p n asid va need leaf size
    else
      (s.fillTlb p { basin := n, asid := asid, va := va - va % size, size := size, pa := base, leaf := leaf } true,
        .ok (base + va % size) leaf)

/-- What a walk gives. -/
def State.translateWalk (s : State) (p : Pos) (n asid va : Nat) (user : Bool) (need : Need) : Walk → State × Xlat
  | .fault c => (s, .fault c 0)
  | .poisoned => (s, .poisoned)
  | .leaf leaf lvl => s.translateLeaf p n asid va user need leaf lvl

/-- One of several ways, drawn freely (R2). -/
def State.drawn (s : State) (vs : List α) : Option α :=
  match vs with
  | [] => none
  | [v] => some v
  | v :: t => (v :: t)[(Config.freeWord s.free).toNat % (t.length + 1)]?

/-- The state once one of several ways has been drawn. -/
def State.afterDraw (s : State) (vs : List α) : State := if 1 < vs.length then { s with free := s.free + 1 } else s

/-- What translates an access: a cached translation, with whether it is the rill's, or a walk. -/
inductive Via where
  | cached (e : TlbEntry) (near : Bool)
  | walked (w : Walk)
  deriving DecidableEq, Repr

/-- A walk gives another translation than a cached one: the table has changed since (R402), or its C group is broken. -/
def Walk.departs (w : Walk) (e : TlbEntry) : Bool :=
  match w with
  | .leaf l lvl => (l != e.leaf || pageBytes lvl != e.size) && !(bit l 9 && bit e.leaf 9)
  | .fault _ => false
  | .poisoned => false

/-- What may translate an access (R400 to R402). -/
def State.vias (s : State) (p : Pos) (n asid root va : Nat) : List Via :=
  match s.cachedLeaf p n asid va with
  | some e => .cached e.1 e.2 :: ((s.walks n va root).filter fun w => w.departs e.1).map .walked
  | none => (s.walks n va root).map .walked

/-- What translates an access. -/
def State.via (s : State) (p : Pos) (n asid root va : Nat) : Via :=
  (s.drawn (s.vias p n asid root va)).getD (.walked (.fault 0x08))

/-- Translate an address of a basin with a root and an ASID for a position (R401, R403). -/
def State.translateAs (s : State) (p : Pos) (n asid root va : Nat) (user : Bool) (need : Need) : State × Xlat :=
  let s1 := s.afterDraw (s.vias p n asid root va)
  match s.via p n asid root va with
  | .cached e near => s1.translateHit p n va user need e near
  | .walked w => s1.translateWalk p n asid va user need w

/-- Translate an address of the paged space for a thread. -/
def State.translate (s : State) (p : Pos) (va : Word) (need : Need) : State × Xlat :=
  let a := s.srAt p 0x0A0
  s.translateAs p (s.basinOf p.b) (field a 63 48) (field a 43 12) va.toNat (p.k != 15) need

/-! ### The replay queue (R393, R394) -/

/-- The lowest free entry. -/
def Rill.freeEntry (x : Rill) : Option Nat :=
  (List.range Config.replayEntries).find? fun i => (x.replay.find i).isNone

def Rill.replayRoom (x : Rill) : Nat := Config.replayEntries - x.replay.length

/-- R145: the thread has a pending entry for the line of an address. -/
def State.pendingLine (s : State) (p : Pos) (va : Word) : Bool :=
  (s.rill p.b p.r).replay.any fun e => e.2.pos == p && e.2.accs.any fun a => lineOf a.va.toNat == lineOf va.toNat

/-- Kinds that write. -/
def AccKind.writes : AccKind → Bool
  | .load _ => false
  | .lda _ _ _ => false
  | .monarm _ => false
  | .hmsg => false
  | .launch => false
  | .joinRead _ => false
  | .cwb => false
  | .cflush => false
  | .iinv _ => false
  | .store => true
  | .czero => true
  | .ldfe => true
  | .ldff => true
  | .stfe => true
  | .stff => true
  | .feclr => true
  | .amo _ => true
  | .cas _ _ => true
  | .rupd _ => true
  | .vamo _ _ => true
  | .strel _ => true
  | .ticket => true
  | .joinInc => true

/-- Kinds that read. -/
def AccKind.reads : AccKind → Bool
  | .store => false
  | .czero => false
  | .strel _ => false
  | .cwb => false
  | .cflush => false
  | .iinv _ => false
  | .load _ => true
  | .lda _ _ _ => true
  | .monarm _ => true
  | .hmsg => true
  | .launch => true
  | .joinRead _ => true
  | .ldfe => true
  | .ldff => true
  | .stfe => true
  | .stff => true
  | .feclr => true
  | .amo _ => true
  | .cas _ _ => true
  | .rupd _ => true
  | .vamo _ _ => true
  | .ticket => true
  | .joinInc => true

/-- RMWs and FE memory operations: performed at the owner (R285). -/
def AccKind.rmw : AccKind → Bool
  | .ldfe => true
  | .ldff => true
  | .stfe => true
  | .stff => true
  | .feclr => true
  | .amo _ => true
  | .cas _ _ => true
  | .rupd _ => true
  | .vamo _ _ => true
  | .ticket => true
  | .joinInc => true
  | .load _ => false
  | .lda _ _ _ => false
  | .monarm _ => false
  | .hmsg => false
  | .launch => false
  | .joinRead _ => false
  | .cwb => false
  | .cflush => false
  | .iinv _ => false
  | .store => false
  | .czero => false
  | .strel _ => false

/-- FE memory operations (R297). -/
def AccKind.fe : AccKind → Bool
  | .ldfe => true
  | .ldff => true
  | .stfe => true
  | .stff => true
  | .feclr => true
  | _ => false

/-- R401: what a kind of access needs of its page. -/
def AccKind.need (k : AccKind) : Need :=
  if k.rmw then { r := true, w := true } else if k.writes then { w := true } else { r := true }

/-- The wake record of a replay entry. -/
def State.wake (s : State) (i : Nat) (e : REntry) : State :=
  match e.accs with
  | a :: _ =>
    s.post e.pos.b e.pos.r
      { cls := 2, cause := e.cause, val := a.va, xstat := xstat 2 0 i 0 e.sub e.pos.k a.kind.writes, rank := a.id }
  | [] => s

/-- Log accesses of one instruction as one entry; a wake record is made unless they stand behind an earlier
entry for their line (R145, R381), or a page request is out for them (R403). -/
def State.logEntry (s : State) (p : Pos) (cause sub : Nat) (behind : Bool) (accs : List Access) : State :=
  match (s.rill p.b p.r).freeEntry, accs with
  | some i, a :: _ =>
    let quiet := behind || decide (8 ≤ sub)
    let e : REntry := { pos := p, seq := a.seq, cause := cause, sub := sub, accs := accs, woken := !quiet }
    let s1 := s.modRill p.b p.r fun x => { x with replay := x.replay.put i e }
    if quiet then s1 else s1.wake i e
  | _, _ => s

/-! ### Issue -/

/-- What becomes of one access at issue. -/
inductive Resolved where
  | go (a : Access)
  | log (a : Access) (cause sub : Nat) (behind : Bool) (page : Nat × Nat)
  | ask
  | poisoned
  deriving DecidableEq, Repr

/-- The page of an address for R252: its base and size, as the translation or the leaf of its walk gives them. An
address without a leaf has no page size in the manual; this model takes 4 KiB there. -/
def State.pageOf (s : State) (p : Pos) (va : Word) : Nat × Nat :=
  let w := s.srAt p 0x0A0
  let n := s.basinOf p.b
  let size := match s.cachedLeaf p n (field w 63 48) va.toNat with
    | some e => e.1.size
    | none => match s.walk n va.toNat false 3 (field w 43 12 * 2 ^ 20) with
      | .leaf _ lvl => pageBytes lvl
      | .fault _ => 4096
      | .poisoned => 4096
  (va.toNat / size, size)

/-- Resolve an access of a thread: one to a line with a pending entry is logged behind it; local store needs no
translation; otherwise the page table decides. -/
def State.resolve (s : State) (p : Pos) (a : Access) : State × Resolved :=
  if s.pendingLine p a.va then (s, .log a 0 0 true (if bit a.va 55 then (0, 0) else s.pageOf p a.va))
  else if bit a.va 55 then (s, .go { a with pa := localPlace p.b a.va })
  else match s.translate p a.va a.kind.need with
    | (s1, .ok pa leaf) => (s1, .go { a with pa := pa, sync := bit leaf 6, nc := bit leaf 8 })
    | (s1, .fault c sub) => (s1, .log a c sub false (s1.pageOf p a.va))
    | (s1, .ask) => (s1, .ask)
    | (s1, .poisoned) => (s1, .poisoned)

/-- Resolve the accesses of one instruction in order. -/
def State.resolveAll (s : State) (p : Pos) : List Access → State × List Resolved
  | [] => (s, [])
  | a :: t =>
    let (s1, r) := s.resolve p a
    let (s2, rs) := s1.resolveAll p t
    (s2, r :: rs)

/-- What one replay entry is to hold: the page, cause and SUB of its first access, whether an access of it stands behind
an earlier entry, and the accesses in ascending order. -/
structure LogGroup where
  page : Nat × Nat
  cause : Nat
  sub : Nat
  behind : Bool
  accs : List Access
  deriving DecidableEq, Repr

/-- One more failing access: it joins the group of its page. -/
def addLog (gs : List LogGroup) (a : Access) (c sub : Nat) (behind : Bool) (page : Nat × Nat) : List LogGroup :=
  if gs.any fun g => g.page == page then
    gs.map fun g => if g.page == page then { g with behind := g.behind || behind, accs := g.accs ++ [a] } else g
  else gs ++ [{ page := page, cause := c, sub := sub, behind := behind, accs := [a] }]

/-- The failing accesses in groups, one for each page, in the order of their first elements (R252, R296). -/
def groupFrom (gs : List LogGroup) : List Resolved → List LogGroup
  | [] => gs
  | .log a c sub bh page :: t => groupFrom (addLog gs a c sub bh page) t
  | .go _ :: t => groupFrom gs t
  | .ask :: t => groupFrom gs t
  | .poisoned :: t => groupFrom gs t

def groupLogs (rs : List Resolved) : List LogGroup := groupFrom [] rs

def goList : List Resolved → List Access
  | [] => []
  | .go a :: t => a :: goList t
  | .log _ _ _ _ _ :: t => goList t
  | .ask :: t => goList t
  | .poisoned :: t => goList t

/-- The priority of a request of a context (R364). A thread that belongs to no cohort, which CSTART has started, has none of a
queue: that it has 0 is the model's choice (log entry 147). -/
def State.priorityOf (s : State) (p : Pos) : Nat :=
  if p.k = 15 then 3
  else match (s.ctx p).cohort with
    | none => 0
    | some c =>
      let co := (s.braid p.b).cohorts.find c
      match co with
      | none => 0
      | some x =>
        let bs := s.basin x.basin
        match bs.records.find? fun r => r.id == x.record with
        | some r => (bs.queues.get {} r.queue).prio
        | none => 0

/-- R410: the place whose hash gives the home of a line: a host line has its caching slice by its host address. -/
def homeAddr (pa : Nat) : Nat := if isHost pa then pa - hostBase else pa

/-- R410: the home slice of a line under a slice list; the caching slice of a host line. -/
def homeOf (slices : List Nat) (pa : Nat) : Nat :=
  let lx := homeAddr pa / 64
  let h := (lx ^^^ (lx / 2 ^ 11) ^^^ (lx / 2 ^ 23) ^^^ (lx / 2 ^ 35)) % 2 ^ 32
  slices.getD (h % slices.length) 0

/-- R415: the home of a line of a basin at this instant. -/
def State.homeSlice (s : State) (n pa : Nat) : Nat :=
  let x := s.basin n
  match x.nextSlices with
  | none => homeOf x.slices pa
  | some next =>
    let l := lineOf pa
    if x.handed.contains l || homeOf x.slices pa == homeOf next pa then homeOf next pa else homeOf x.slices pa

/-- An access that no slice sees: one to local store, and one to a line of the host that is not cached. -/
def Access.direct (a : Access) : Bool := isLocal a.pa || (isHost a.pa && a.nc)

/-- Send a request to its owner: at once, or through the network. -/
def State.route (s : State) (p : Pos) (a : Access) : State :=
  if a.direct then
    { s with requests := s.requests ++ [(p, { a with stage := 2, since := s.cycle })] }
  else
    let o := s.homeSlice (s.basinOf p.b) a.pa
    let pk : Packet := { pos := p, acc := a, prio := s.priorityOf p, input := p.b, headAt := s.cycle }
    { s with packets := s.packets.put o (s.packets.get [] o ++ [pk]) }

/-- An access that the L1 of its braid does not serve goes to the home slice: a read of a line that is not there, a
store to a line that is not writable there, a registration, an RMW (R286, R364). Cache operations do not. -/
def State.needsSlice (s : State) (p : Pos) (a : Access) : Bool :=
  let l := (s.braid p.b).l1.find (lineOf a.pa)
  if a.kind.rmw then true
  else if a.direct then false
  else match a.kind with
    | .store => a.sync || a.nc || !l.any fun x => x.writable
    | .strel _ => a.sync || a.nc || !l.any fun x => x.writable
    | .czero => a.sync || a.nc || !l.any fun x => x.writable
    | .monarm _ => true
    | .cwb => false
    | .cflush => false
    | .iinv _ => false
    | _ => a.nc || l.isNone

/-- Send an access on its way: to the network, to its owner, or into flight only. A remote update stays at
its rill until RUPD_SEND (R293). -/
def State.launchAccess (s : State) (p : Pos) (a : Access) : State :=
  let s1 := s.modCtx p fun c => { c with flights := c.flights ++ [a] }
  match a.kind with
  | .rupd _ => s1
  | _ => if s1.needsSlice p a then s1.route p a else s1

/-- Give the accesses of one instruction their numbers, and the lookahead windows that they lie in. -/
def numberFrom (base seq code : Nat) (within : List Nat) : Nat → List Access → List Access
  | _, [] => []
  | i, a :: t => { a with id := base + i, src := base, seq := seq, code := code, within := within }
      :: numberFrom base seq code within (i + 1) t

/-- R296, R353: an instruction with such an access is LA-complete when its destination is written, not when it is
logged. -/
def AccKind.keepsLa : AccKind → Bool
  | .vamo _ fetch => fetch
  | .launch => true
  | _ => false

/-- R144, R380, R397: the accesses of one instruction are sent or logged. dests are set empty; post is
applied when the instruction goes on; la opens its lookahead window. In context 15 the lowest-numbered access that fails
gives the trap its address; for several pages the manual does not say which failing element does, and this is the
model's choice. -/
def issueThen (s : State) (dests : List Dest) (la : Option Nat) (accs : List Access) (post : State → State) : Res :=
  let p := s.cur
  if p.k != 15 && s.myRill.replayRoom == 0 then parked s .replayFull
  else
    let base := s.nextId
    let seq := s.me.seq
    let s0 := { s with nextId := base + accs.length }
    let (s1, rs) := s0.resolveAll p (numberFrom base seq s.iword (s.me.las.map Window.seq) 0 accs)
    if rs.any fun r => r == .poisoned then .next (s.contain (s.basinOf p.b))
    else if rs.any fun r => r == .ask then parked { s1 with nextId := max s1.nextId s.nextId } .translation
    else
      let logs := groupLogs rs
      match logs with
      | { page := _, cause := cause, sub := _, behind := _, accs := a :: _ } :: _ =>
        if p.k = 15 then .next (s1.trapAs cause a.va s.ulen s.upc a.kind.writes)
        else if s.myRill.replayRoom < logs.length then parked s .replayFull
        else
          let s2 := s1.modMe fun c => dests.foldl (fun x d => x.setEmpty d base) c
          let s3 := logs.foldl (fun t g => t.logEntry p g.cause g.sub g.behind g.accs) s2
          let gs := goList rs
          let s4 := gs.foldl (fun t x => t.launchAccess p x) s3
          let kept := accs.any fun x => x.kind.keepsLa
          let s5 := s4.modMe fun c => match la with
            | some n => if gs.isEmpty && !kept then c else c.openLa n kept
            | none => c
          .next (post s5).advance
      | _ =>
        let s2 := s1.modMe fun c => dests.foldl (fun x d => x.setEmpty d base) c
        let s3 := (goList rs).foldl (fun t x => t.launchAccess p x) s2
        let s4 := s3.modMe fun c => match la with
          | some n => c.openLa n (accs.any fun x => x.kind.keepsLa)
          | none => c
        .next (post s4).advance

/-- The same, where the instruction changes nothing but its thread. -/
def issueAll (s : State) (dests : List Dest) (la : Option Nat) (accs : List Access) (post : Ctx → Ctx) : Res :=
  issueThen s dests la accs fun t => t.modMe post

/-! ### What is still to come of a thread's earlier units -/

/-- R189: no earlier access that satisfies f is outstanding: none in flight, none logged, no block running. -/
def State.doneBefore (s : State) (p : Pos) (seq : Nat) (f : AccKind → Bool) : Bool :=
  let c := s.ctx p
  !(c.flights.any fun a => decide (a.seq < seq) && f a.kind)
    && !((s.rill p.b p.r).replay.any fun e => e.2.pos == p && decide (e.2.seq < seq) && e.2.accs.any fun a => f a.kind)
    && c.blocks.all fun x => decide (seq ≤ x.seq)

/-- Every earlier access of the executing thread is complete. -/
def State.quietBefore (s : State) : Bool := s.doneBefore s.cur s.me.seq fun _ => true

/-- A SPAWN of a context has not entered its record in the deque. -/
def State.pushing (s : State) (p : Pos) : Bool := s.rills.any fun e => e.2.dqWait.any fun w => w.src.any fun x => x.1 == p

/-- Quiet() of R313. -/
def State.quiet (s : State) (p : Pos) : Bool :=
  let c := s.ctx p
  c.flights.all (fun a => a.kind.isRupd) && c.longs.isEmpty && c.block.isNone && c.vseq.isEmpty && c.vres.isEmpty
    && !((s.rill p.b p.r).replay.any fun e => e.2.pos == p)
    && !((s.rill p.b p.r).takes.any fun t => t.k == p.k)
    && !s.pushing p

end Sys2Proof.Machine
end

