-- ==== Sys2Proof/Machine/MxWord.lean ====
section
/-! DEFINITION. Matrix commands as words: their control words, operand layouts and extents, what they name and
need, and the bytes they own (R255, R257, R258, R262, R267 to R276, R278). -/

namespace Sys2Proof.Machine

/-! ### Operand formats and layouts (R257, R258) -/

/-- Bits of an element of a format; pk selects the packed form. -/
def elementBits (fmt : Nat) (pk : Bool) : Nat :=
  if fmt = 1 then 32 else if fmt = 2 || fmt == 3 then 16 else if fmt = 8 then 4 else if pk then 6 else 8

/-- The unit that addresses and pitches are a multiple of. -/
def elementUnit (fmt : Nat) (pk : Bool) : Nat := if pk then 3 else (elementBits fmt false + 7) / 8

/-- A format with its MXS and PK bits is one of the table. -/
def formatOk (fmt : Nat) (mxs pk : Bool) : Bool :=
  decide (1 ≤ fmt ∧ fmt ≤ 9) && (!mxs || decide (4 ≤ fmt)) && (!pk || fmt == 6 || fmt == 7)

/-- Columns of a bank by width code; stored rows of a group and logical rows by sparsity. -/
def bankColumns (bw : Nat) : Nat := if bw = 0 then 96 else if bw = 1 then 192 else 48
def groupRows (sp : Nat) : Nat := if sp = 0 then 24 else if sp = 1 then 12 else if sp = 2 then 8 else 6
def logicalRows (sp : Nat) : Nat := 24 * (96 / groupRows sp)

/-! ### Fields of a command (R262, R267, R269, R271) -/

def MxCmd.fmt (q : MxCmd) : Nat :=
  if q.op = 0 then field q.b 7 4 else if q.op ≤ 2 then field q.b 14 11 else field q.b 9 6
def MxCmd.pk (q : MxCmd) : Bool := if q.op = 0 then bit q.b 12 else bit q.b 19
def MxCmd.mxs (q : MxCmd) : Bool := if q.op = 0 then bit q.b 13 else bit q.b 20
def MxCmd.bw (q : MxCmd) : Nat := if q.op = 0 then field q.b 9 8 else field q.b 23 22
def MxCmd.sp (q : MxCmd) : Nat := field q.b 11 10
def MxCmd.mode (q : MxCmd) : Nat := field q.b 10 9
def MxCmd.tile (q : MxCmd) : Nat := field q.b 5 0
def MxCmd.slot (q : MxCmd) : Nat := if q.op = 1 || q.op == 2 then field q.b 8 6 else field q.b 2 0
def MxCmd.rows (q : MxCmd) : Nat := field q.b 20 16 + 1
def MxCmd.columns (q : MxCmd) : Nat := if field q.b 30 24 = 0 then 96 else field q.b 30 24
def MxCmd.pitch (q : MxCmd) : Word := sext (field q.o0 31 0) 32
def MxCmd.spitch (q : MxCmd) : Word := sext (field q.o0 63 32) 32
/-- The A width in bits (R269). -/
def MxCmd.width (q : MxCmd) : Nat := [4, 6, 8, 12, 16].getD (field q.b 17 15) 0
/-- MXLDB reads index or scale bytes; MXMMA reads scale bytes. -/
def MxCmd.usesAux (q : MxCmd) : Bool := if q.op = 0 then q.mxs || q.sp != 0 else q.op == 1 && q.mxs
/-- Bytes of an element of a tile in memory. -/
def MxCmd.tileBytes (q : MxCmd) : Nat := elementBits q.fmt false / 8

/-! ### Slots, banks and tiles of a command (R269, R274) -/

def MxCmd.slots (q : MxCmd) : List Nat :=
  if q.op = 0 || q.op == 3 then [q.slot]
  else if q.op = 1 || q.op == 2 then (if q.mode = 0 then [q.slot] else List.range 8)
  else []

/-- Banks: slot * 2, and 1 more for the shadow bank. -/
def MxCmd.banks (q : MxCmd) : List Nat :=
  if q.op = 0 then [q.slot * 2 + (if bit q.b 3 then 1 else 0)]
  else if q.op = 1 then q.slots.map fun j => j * 2
  else if q.op ≤ 3 then [q.slot * 2, q.slot * 2 + 1]
  else []

def MxCmd.named (q : MxCmd) : List Nat :=
  if q.op = 1 || q.op == 2 then
    let n := if q.mode = 2 then (if q.bw = 0 then 8 else if q.bw = 1 then 16 else 4)
      else if q.bw = 1 then 2 else 1
    (List.range n).map fun i => q.tile + i
  else if q.op = 4 then (List.range (field q.b 37 32 + 1)).map fun i => q.tile + i
  else if 5 ≤ q.op then [q.tile]
  else []

/-- The load unit or the accumulator unit: 1, 2; none: 0. -/
def MxCmd.unitOf (q : MxCmd) : Nat := if q.op = 0 then 1 else if 4 ≤ q.op then 2 else 0

/-- Two commands need a common resource. -/
def MxCmd.shares (q r : MxCmd) : Bool :=
  (q.banks.any fun x => r.banks.contains x) || (q.named.any fun x => r.named.contains x)

/-! ### Teams (R282) -/

def teamMask (w : Word) : Nat := field w 7 0
/-- The command is executed itself: it is no team command, or its rill is the lowest of the mask. -/
def MxCmd.leads (q : MxCmd) : Bool :=
  match q.team with
  | none => true
  | some w => (lanes (teamMask w)).head? == some q.rill

/-! ### Extents and owned bytes (R258, R265, R271, R276, R279) -/

/-- K of a command's A operand, from its first slot's active bank. -/
def MxCmd.kOf (q : MxCmd) (x : Braid) : Nat :=
  let ks := logicalRows (x.slots.get {} (q.slots.headD 0)).active.sparsity
  if q.mode = 1 then 8 * ks else ks

/-- Bytes of one row of A. -/
def MxCmd.rowBytes (q : MxCmd) (x : Braid) : Nat := (q.kOf x * elementBits q.fmt q.pk + 7) / 8

/-- Address of element e of a tile in memory, in row-major order (R271). -/
def MxCmd.elementAddr (q : MxCmd) (e : Nat) : Word :=
  q.a + w64 (e / q.columns) * q.pitch + w64 (e % q.columns * q.tileBytes)

/-- R276: addresses in every line of the bytes that a command owns: what MXSTACC has still to store, the
vector of MXRMAX, and the bytes that MXROT is still to receive. -/
def MxCmd.claims (q : MxCmd) (x : Braid) : List Word :=
  if !q.leads then []
  else match q.op with
    | 6 => (List.range (q.rows * q.columns - q.done)).flatMap fun i =>
        [q.elementAddr (q.done + i), q.elementAddr (q.done + i) + w64 (q.tileBytes - 1)]
    | 8 => (List.range q.rows).map fun i => q.a + w64 (4 * i)
    | 2 =>
      if (q.phase == 0 && field q.o1 3 2 != 0) || q.links.contains 0 then
        (List.range 32).flatMap fun i =>
          (q.a + w64 i * q.pitch + w64 (q.rowBytes x - 1)) ::
            (List.range (q.rowBytes x / 64 + 1)).map fun j => q.a + w64 i * q.pitch + w64 (min (64 * j) (q.rowBytes x - 1))
      else []
    | _ => []

end Sys2Proof.Machine
end

