-- ==== Sys2Proof/Machine/Engines.lean ====
section
/-! DEFINITION. What the stream and copy engines walk through (R197, R208) and the lines that the engines own until
they have written them (R176). -/

namespace Sys2Proof.Machine

/-- Place of a virtual address of a thread, when it translates. -/
def State.placeOf (s : State) (p : Pos) (va : Word) (need : Need) : Option Nat :=
  if bit va 55 then some (localPlace p.b va)
  else match (s.translate p va need).2 with
    | .ok pa _ => some pa
    | .fault _ _ => none
    | .ask => none
    | .poisoned => none

/-! ### Streams (R197) -/

def Stream.esize (x : Stream) : Nat := 2 ^ field x.ctl 1 0
def Stream.lanes (x : Stream) : Nat := 32 / x.esize
def Stream.count (x : Stream) (d : Nat) : Nat :=
  field (if d = 0 then x.w1 else if d = 1 then x.w2 else x.w3) 31 0
def Stream.stride (x : Stream) (d : Nat) : Word :=
  sext (field (if d = 0 then x.w1 else if d = 1 then x.w2 else x.w3) 63 32) 32
def Stream.total (x : Stream) : Nat := x.count 0 * x.count 1 * x.count 2

/-- Addr(j). -/
def Stream.addr (x : Stream) (j : Nat) : Word :=
  x.base + w64 (j % x.count 0) * x.stride 0 + w64 (j / x.count 0 % x.count 1) * x.stride 1
    + w64 (j / (x.count 0 * x.count 1)) * x.stride 2

/-- Position of the next entry to be popped or pushed. -/
def Stream.pos (x : Stream) : Nat := x.start + x.moved * x.lanes

/-- The elements of a pushed entry that are still to be stored. -/
def Stream.toStore (x : Stream) (e : SEntry) : List Nat :=
  (List.range x.lanes).filter fun t => decide (e.done ≤ t) && hasBit e.mask t

/-- R176, R206: the addresses that an output slot owns, with the numbers of the push and of its instruction. -/
def Stream.claims (x : Stream) : List (Nat × Nat × Word) :=
  if x.input then []
  else x.fifo.flatMap fun e => (x.toStore e).map fun t => (e.id, e.seq, x.addr (e.first + t))

/-! ### Copies (R208) -/

def CopyCmd.rowBytes (q : CopyCmd) : Nat := field q.o2 31 0
def CopyCmd.gsize (q : CopyCmd) : Nat := 2 ^ field q.o3 33 32

/-- Destination bytes of a command. -/
def CopyCmd.total (q : CopyCmd) : Nat :=
  match q.op with
  | 0 => field q.o2 63 32 * q.rowBytes
  | 1 => field q.o3 31 0 * q.gsize
  | _ => field q.o1 39 0

/-- Address of destination byte i, in the order of R208. -/
def CopyCmd.dst (q : CopyCmd) (i : Nat) : Word :=
  match q.op with
  | 0 => q.o0 + w64 (i / q.rowBytes) * sext (field q.o3 31 0) 32 + w64 (i % q.rowBytes)
  | _ => q.o0 + w64 i

/-- Address of the source byte of destination byte i of COPY. -/
def CopyCmd.src (q : CopyCmd) (i : Nat) : Word :=
  q.o1 + w64 (i / q.rowBytes) * sext (field q.o3 63 32) 32 + w64 (i % q.rowBytes)

/-- R176: the destination bytes not yet written. -/
def CopyCmd.claims (q : CopyCmd) : List Word :=
  (List.range (q.total - q.done)).map fun i => q.dst (q.done + i)

/-! ### Ownership (R176) -/

/-- An operation of an engine that has not yet written all that it is to write: its thread and braid, its number, that of its
instruction, the kind of its engine (0 copy, 1 stream, 2 matrix), the lines that it still owns, those that it is still to
read, and whether it waits for a place in progress (R195). -/
structure EngOp where
  p : Pos
  id : Nat
  seq : Nat
  engine : Nat
  lines : List Nat
  reads : List Nat := []
  queued : Bool := false
  deriving DecidableEq, Repr

/-- The lines of virtual addresses of a thread. -/
def State.linesFor (s : State) (p : Pos) (need : Need) (vas : List Word) : List Nat :=
  (vas.filterMap fun va => (s.placeOf p va need).map lineOf).eraseDups

/-- Addresses that a command is still to read: sources of COPY, index words of COPYG. -/
def CopyCmd.sources (q : CopyCmd) : List Word :=
  match q.op with
  | 0 => (List.range (q.total - q.done)).map fun i => q.src (q.done + i)
  | 1 => (List.range ((q.total - q.done) / q.gsize)).map fun i =>
      q.o2 + w64 ((q.done / q.gsize + i) * if bit q.o3 34 then 8 else 4)
  | _ => []

/-- The operations of all engines. -/
def State.engOps (s : State) : List EngOp :=
  (s.braids.flatMap fun e => (e.2.copies.filter fun q => q.phase != 3).map fun q =>
      let p : Pos := ⟨e.1, q.rill, q.ctx⟩
      { p := p, id := q.id, seq := q.seq, engine := 0, lines := s.linesFor p { w := true } q.claims
        reads := s.linesFor p { r := true } q.sources, queued := q.phase == 0 })
    ++ (s.ctxs.flatMap fun e => e.2.streams.flatMap fun x => x.2.claims.map fun z =>
      let p : Pos := ⟨e.1 / 128, e.1 / 16 % 8, e.1 % 16⟩
      { p := p, id := z.1, seq := z.2.1, engine := 1, lines := s.linesFor p { w := true } [z.2.2] })
    ++ s.braids.flatMap fun e => e.2.mx.map fun q =>
      let p : Pos := ⟨e.1, q.rill, q.ctx⟩
      { p := p, id := q.id, seq := q.seq, engine := 2, lines := s.linesFor p { w := true } (q.claims e.2) }

/-- A line is owned by an operation of an engine that f selects by its thread, its number and that of its
instruction. -/
def State.ownedBy (s : State) (line : Nat) (f : Pos → Nat → Nat → Bool) : Bool :=
  s.engOps.any fun o => f o.p o.id o.seq && o.lines.contains line

/-- A line is owned by an engine's operation with a number below limit (any, when there is none). -/
def State.ownedLine (s : State) (line : Nat) (limit : Option Nat) : Bool :=
  s.ownedBy line fun _ id _ => limit.all fun n => decide (id < n)

/-- A line is owned, for an access of p: not by a later command of the thread itself, before whose writes the access
comes (R176), nor by an operation that takes the line after such a command. -/
def State.ownedFor (s : State) (p : Pos) (a : Access) (line : Nat) : Bool :=
  let own (q : Pos) (seq : Nat) : Bool := q == p && decide (a.seq < seq)
  s.ownedBy line fun q id seq => !own q seq && !(s.ownedBy line fun q1 id1 seq1 => own q1 seq1 && decide (id1 < id))

/-- Operation x cannot go on before operation y has. -/
def EngOp.waitsOn (x y : EngOp) : Bool :=
  x.id != y.id && (x.reads.any (fun l => y.lines.contains l)
    || (decide (y.id < x.id) && (x.lines.any (fun l => y.lines.contains l) || (x.queued && y.engine == x.engine && y.p.b == x.p.b))))

/-- The same, by way of at most n others. -/
def EngOp.waitsVia (ops : List EngOp) : Nat → EngOp → EngOp → Bool
  | 0, x, y => x.waitsOn y
  | n + 1, x, y => x.waitsOn y || ops.any fun z => x.waitsOn z && EngOp.waitsVia ops n z y

/-- A read by operation id of a line waits for an operation that owns it (R176). Of the later ones, it waits for no other
command of the same engine, and for none that waits, in turn, for it (model's choice, log entry 35). -/
def State.readWaits (s : State) (id line : Nat) : Bool :=
  let ops := s.engOps
  ops.any fun o => o.id != id && o.lines.contains line && (decide (o.id < id)
    || !(ops.any fun x => x.id == id && ((x.engine == o.engine && x.p.b == o.p.b) || EngOp.waitsVia ops 3 o x)))

end Sys2Proof.Machine
end

