-- ==== Sys2Proof/Machine/Float.lean ====
section
/-! DEFINITION. Number formats, rounding and exact arithmetic (R219 to R235). A finite value is a sign, an
integer magnitude and a power of two; results are computed exactly, or cut off with a sticky mark far
below the last bit that rounding looks at, and rounded once. -/

namespace Sys2Proof.Machine

/-- A format: width, exponent bits, significand bits, bias; top says what the highest exponent means:
0 infinities and NaNs, 1 numbers with one NaN per sign (E4M3), 2 numbers only. -/
structure Fmt where
  w : Nat
  eb : Nat
  m : Nat
  bias : Nat
  top : Nat
  deriving DecidableEq, Repr

def fmtF64 : Fmt := ⟨64, 11, 52, 1023, 0⟩
def fmtF32 : Fmt := ⟨32, 8, 23, 127, 0⟩
def fmtF16 : Fmt := ⟨16, 5, 10, 15, 0⟩
def fmtBf16 : Fmt := ⟨16, 8, 7, 127, 0⟩
def fmtE5m2 : Fmt := ⟨8, 5, 2, 15, 0⟩
def fmtE4m3 : Fmt := ⟨8, 4, 3, 7, 1⟩
def fmtE3m2 : Fmt := ⟨6, 3, 2, 3, 2⟩
def fmtE2m3 : Fmt := ⟨6, 2, 3, 1, 2⟩
def fmtE2m1 : Fmt := ⟨4, 2, 1, 1, 2⟩

/-- The scalar formats by fmt code (R237). -/
def fmtOf (n : Nat) : Fmt := if n = 0 then fmtF64 else if n = 1 then fmtF32 else if n = 2 then fmtF16 else fmtBf16

/-- A value: NaN (signalling or not), infinity, or (-1)^s * m * 2^e. -/
inductive FVal where
  | nan (signalling : Bool)
  | inf (s : Bool)
  | num (s : Bool) (m : Nat) (e : Int)
  deriving DecidableEq, Repr

/-- Exponent of the smallest normal, and of the largest finite values; the largest significand there. -/
def Fmt.emin (f : Fmt) : Int := 1 - f.bias
def Fmt.emax (f : Fmt) : Int := (2 ^ f.eb - 1 - (if f.top = 0 then 1 else 0) : Int) - f.bias
def Fmt.maxSig (f : Fmt) : Nat := 2 ^ (f.m + 1) - 1 - (if f.top = 1 then 1 else 0)

/-- The sign bit. -/
def Fmt.signBit (f : Fmt) (s : Bool) : Nat := if s then 2 ^ (f.w - 1) else 0

/-- R219: the value of the low bits of x. -/
def Fmt.decode (f : Fmt) (x : Nat) : FVal :=
  let s := hasBit x (f.w - 1)
  let ex := x / 2 ^ f.m % 2 ^ f.eb
  let fr := x % 2 ^ f.m
  let top := 2 ^ f.eb - 1
  if f.top = 0 && ex == top then
    if fr = 0 then .inf s else .nan (decide (8 ≤ f.w) && f.w != 8 && !hasBit fr (f.m - 1))
  else if f.top = 1 && ex == top && fr == 2 ^ f.m - 1 then .nan false
  else if ex = 0 then .num s fr (f.emin - f.m)
  else .num s (fr + 2 ^ f.m) ((ex : Int) - f.bias - f.m)

/-- Canonical NaN, infinity, the largest finite value and zero of a format. -/
def Fmt.nan (f : Fmt) : Nat :=
  if f.top = 1 then 0x7F
  else if f.top = 0 then (2 ^ f.eb - 1) * 2 ^ f.m + 2 ^ (f.m - 1)
  else 0
def Fmt.inf (f : Fmt) (s : Bool) : Nat := f.signBit s + (2 ^ f.eb - 1) * 2 ^ f.m
def Fmt.max (f : Fmt) (s : Bool) : Nat :=
  f.signBit s + ((f.emax + f.bias).toNat * 2 ^ f.m + (f.maxSig - 2 ^ f.m))

/-- Flags in the order of FCSR[8:4]. -/
def flNV : BitVec 5 := 16
def flDZ : BitVec 5 := 8
def flOF : BitVec 5 := 4
def flUF : BitVec 5 := 2
def flNX : BitVec 5 := 1

/-- Rounding up of R224: n units, rest r / 2^k with a sticky mark; mode 0 RNE, 1 RTZ, 2 RUP, 3 RDN,
4 RNA, 5 SR with its step. -/
def roundsUp (mode step : Nat) (s : Bool) (n r k : Nat) (sticky : Bool) : Bool :=
  let some' := r != 0 || sticky
  match mode with
  | 0 => decide (2 ^ k < 2 * r) || (2 * r == 2 ^ k && k != 0 && (sticky || n % 2 == 1))
  | 1 => false
  | 2 => some' && !s
  | 3 => some' && s
  | 4 => decide (2 ^ k ≤ 2 * r) && r != 0
  | _ => decide (2 ^ 32 ≤ r * 2 ^ 32 / 2 ^ k + step)

/-- R226. up: the truncated magnitude exceeds MAX or is rounded up. -/
def Fmt.overflow (f : Fmt) (mode : Nat) (satf up s : Bool) : Nat :=
  if f.top = 2 || (decide (f.w ≤ 8) && satf) then f.max s
  else if f.top = 1 then f.signBit s + 0x7F
  else match mode with
    | 0 => f.inf s
    | 1 => f.max s
    | 2 => if s then f.max s else f.inf s
    | 3 => if s then f.inf s else f.max s
    | 4 => f.inf s
    | _ => if up then f.inf s else f.max s

/-- Quotient and rest of m * 2^-k. -/
def cut (m : Nat) (k : Int) : Nat × Nat × Nat :=
  if k ≤ 0 then (m * 2 ^ (-k).toNat, 0, 0) else (m / 2 ^ k.toNat, m % 2 ^ k.toNat, k.toNat)

/-- Round of R224 with the flags of R228, for the value (-1)^s * (m + d) * 2^e with 0 < d < 1 when sticky is
set and d = 0 otherwise. A zero is returned as it is. -/
def Fmt.round (f : Fmt) (mode : Nat) (satf : Bool) (step : Nat) (s : Bool) (m : Nat) (e : Int)
    (sticky : Bool) : Nat × BitVec 5 :=
  if m = 0 && !sticky then (f.signBit s, 0)
  else
    let p : Int := f.m + 1
    let lg : Int := m.log2 + e
    let ee := if lg < f.emin then f.emin else lg
    let (n, r, k) := cut m (ee - p + 1 - e)
    let up := roundsUp mode step s n r k sticky
    let n' := if up then n + 1 else n
    let inexact := r != 0 || sticky
    if f.emax < ee || (ee == f.emax && decide (f.maxSig < n')) then
      (f.overflow mode satf (up || decide (f.emax < ee) || decide (f.maxSig < n)) s, flOF ||| flNX)
    else
      let (n2, r2, k2) := cut m (lg - p + 1 - e)
      let n3 := if roundsUp mode step s n2 r2 k2 sticky then n2 + 1 else n2
      let tiny := decide (lg < f.emin - 1) || (lg == f.emin - 1 && decide (n3 < 2 ^ (f.m + 1)))
      let bits :=
        if n' < 2 ^ f.m then n'
        else if n' = 2 ^ (f.m + 1) then (ee + 1 + f.bias).toNat * 2 ^ f.m
        else (ee + f.bias).toNat * 2 ^ f.m + (n' - 2 ^ f.m)
      (f.signBit s + bits, if inexact then (if tiny then flNX ||| flUF else flNX) else 0)

/-- What an arithmetic operation gives before rounding: a special result with its flag, or a value to be
rounded. -/
inductive FRes where
  | nan (flags : BitVec 5)
  | inf (s : Bool) (flags : BitVec 5)
  | val (s : Bool) (m : Nat) (e : Int) (sticky : Bool)
  deriving DecidableEq, Repr

/-- Round a result into a format. -/
def FRes.to (r : FRes) (f : Fmt) (mode : Nat) (satf : Bool) (step : Nat) : Nat × BitVec 5 :=
  match r with
  | .nan fl => (f.nan, fl)
  | .inf s fl => (f.inf s, fl)
  | .val s m e st => f.round mode satf step s m e st

/-- NV for a signalling NaN among the operands. -/
def FVal.isNan : FVal → Bool
  | .nan _ => true
  | .inf _ => false
  | .num _ _ _ => false
def FVal.isSnan : FVal → Bool
  | .nan b => b
  | .inf _ => false
  | .num _ _ _ => false
def FVal.neg : FVal → FVal
  | .nan b => .nan b
  | .inf s => .inf (!s)
  | .num s m e => .num (!s) m e
def FVal.isZero : FVal → Bool
  | .num _ m _ => m == 0
  | .nan _ => false
  | .inf _ => false
def FVal.sign : FVal → Bool
  | .nan _ => false
  | .inf s => s
  | .num s _ _ => s

/-- A NaN operand: canonical NaN, with NV when it signals. -/
def nanOf (xs : List FVal) : FRes := .nan (if xs.any FVal.isSnan then flNV else 0)

/-- The magnitude with its sign at a lower exponent. -/
def scaleTo (s : Bool) (m : Nat) (e lo : Int) : Int :=
  let v : Int := (m * 2 ^ (e - lo).toNat : Nat)
  if s then -v else v

/-- Exact sum with the zero rule of R224. -/
def sumNum (mode : Nat) (s1 : Bool) (m1 : Nat) (e1 : Int) (s2 : Bool) (m2 : Nat) (e2 : Int) : FRes :=
  if m1 = 0 && m2 == 0 then .val (if s1 == s2 then s1 else mode == 3) 0 0 false
  else
    let lo := if m1 = 0 then e2 else if m2 = 0 then e1 else if e1 < e2 then e1 else e2
    let t := (if m1 = 0 then 0 else scaleTo s1 m1 e1 lo) + (if m2 = 0 then 0 else scaleTo s2 m2 e2 lo)
    if t = 0 then .val (mode == 3) 0 0 false else .val (decide (t < 0)) t.natAbs lo false

def fAdd (mode : Nat) (a b : FVal) : FRes :=
  match a, b with
  | .num s1 m1 e1, .num s2 m2 e2 => sumNum mode s1 m1 e1 s2 m2 e2
  | .inf s, .inf t => if s == t then .inf s 0 else .nan flNV
  | .inf s, .num _ _ _ => .inf s 0
  | .num _ _ _, .inf s => .inf s 0
  | .nan x, y => nanOf [.nan x, y]
  | x, .nan y => nanOf [x, .nan y]

def fMul (a b : FVal) : FRes :=
  match a, b with
  | .num s1 m1 e1, .num s2 m2 e2 => .val (s1 != s2) (m1 * m2) (e1 + e2) false
  | .inf s, .inf t => .inf (s != t) 0
  | .inf s, .num t m _ => if m = 0 then .nan flNV else .inf (s != t) 0
  | .num t m _, .inf s => if m = 0 then .nan flNV else .inf (s != t) 0
  | .nan x, y => nanOf [.nan x, y]
  | x, .nan y => nanOf [x, .nan y]

/-- a * b + c with one rounding (R230: 0 times infinity is invalid whatever the addend). -/
def fFma (mode : Nat) (a b c : FVal) : FRes :=
  match fMul a b with
  | .nan fl => .nan (fl ||| if c.isSnan then flNV else 0)
  | .inf s _ => match c with
    | .nan x => nanOf [.nan x]
    | .inf t => if s == t then .inf s 0 else .nan flNV
    | .num _ _ _ => .inf s 0
  | .val s m e _ => match c with
    | .nan x => nanOf [.nan x]
    | .inf t => .inf t 0
    | .num t m2 e2 => sumNum mode s m e t m2 e2

/-- a * 2^k. -/
def fLdexp (a : FVal) (k : Int) : FRes :=
  match a with
  | .nan x => nanOf [.nan x]
  | .inf s => .inf s 0
  | .num s m e => .val s m (e + k) false

/-- Compare two numbers that are no NaN: negative, zero or positive; -0 = +0. -/
def FVal.cmp (a b : FVal) : Int :=
  match a, b with
  | .inf s, .inf t => (if s == t then 0 else if s then -1 else 1)
  | .inf s, _ => if s then -1 else 1
  | _, .inf t => if t then 1 else -1
  | .num s1 m1 e1, .num s2 m2 e2 =>
    let lo := if m1 = 0 then e2 else if m2 = 0 then e1 else if e1 < e2 then e1 else e2
    (if m1 = 0 then 0 else scaleTo s1 m1 e1 lo) - (if m2 = 0 then 0 else scaleTo s2 m2 e2 lo)
  | _, _ => 0

/-- R231: a comparison and its flag; cond 0 eq, 1 lt, 2 le, 3 un. -/
def fCompare (cond : Nat) (a b : FVal) : Bool × BitVec 5 :=
  let n := a.isNan || b.isNan
  let sn := a.isSnan || b.isSnan
  match cond with
  | 0 => (!n && a.cmp b == 0, if sn then flNV else 0)
  | 1 => (!n && decide (a.cmp b < 0), if n then flNV else 0)
  | 2 => (!n && decide (a.cmp b ≤ 0), if n then flNV else 0)
  | _ => (n, if sn then flNV else 0)

/-- R231: minimumNumber and maximumNumber on bit patterns, -0 below +0. -/
def Fmt.pick (f : Fmt) (isMax : Bool) (x y : Nat) : Nat × BitVec 5 :=
  let a := f.decode x
  let b := f.decode y
  let fl : BitVec 5 := if a.isSnan || b.isSnan then flNV else 0
  if a.isNan && b.isNan then (f.nan, fl)
  else if a.isNan then (y % 2 ^ f.w, fl)
  else if b.isNan then (x % 2 ^ f.w, fl)
  else
    let c := a.cmp b
    let less := decide (c < 0) || (c == 0 && a.sign && !b.sign)
    (if less != isMax then x % 2 ^ f.w else y % 2 ^ f.w, fl)

/-- One xorshift step of R225. -/
def srStep (x0 : Nat) : Nat :=
  let x1 := x0 ^^^ (x0 * 2 ^ 13 % 2 ^ 32)
  let x2 := x1 ^^^ (x1 / 2 ^ 17)
  x2 ^^^ (x2 * 2 ^ 5 % 2 ^ 32)

/-! ### Conversions (R232, R233) -/

/-- Round to an integer: the integer and whether it is inexact. -/
def roundInt (mode step : Nat) (s : Bool) (m : Nat) (e : Int) : Int × Bool :=
  let (n, r, k) := cut m (-e)
  let n' := if roundsUp mode step s n r k false then n + 1 else n
  (if s then -(n' : Int) else (n' : Int), r != 0)

/-- Floating point to floating point, before rounding (R232): the special columns. -/
def Fmt.convert (f : Fmt) (mode : Nat) (satf : Bool) (step : Nat) (x : FVal) : Nat × BitVec 5 :=
  match x with
  | .nan sig =>
    if f.top = 2 then (0, flNV) else (f.nan, if sig then flNV else 0)
  | .inf s =>
    if f.top = 2 then (f.max s, flNV)
    else if f.top = 1 then (if satf then f.max s else f.signBit s + 0x7F, flNV)
    else if f.w = 8 && satf then (f.max s, flNV)
    else (f.inf s, 0)
  | .num s m e => f.round mode satf step s m e false

/-- Floating point to MXINT8 (R232): two's-complement byte and flags. -/
def toMi8 (mode step : Nat) (x : FVal) : Nat × BitVec 5 :=
  match x with
  | .nan _ => (0, flNV)
  | .inf s => (if s then 0x80 else 0x7F, flNV)
  | .num s m e =>
    let (k, inexact) := roundInt mode step s m (e + 6)
    let c := clamp k (-128) 127
    ((c % 256).toNat, if c != k then flOF ||| flNX else if inexact then flNX else 0)

/-- Floating point to an integer between lo and hi (R233). -/
def toInt (mode step : Nat) (lo hi : Int) (x : FVal) : Int × BitVec 5 :=
  match x with
  | .nan _ => (0, flNV)
  | .inf s => (if s then lo else hi, flNV)
  | .num s m e =>
    let (k, inexact) := roundInt mode step s m e
    if k < lo || hi < k then (clamp k lo hi, flNV) else (k, if inexact then flNX else 0)

/-- An integer as a value. -/
def FVal.ofInt (i : Int) : FVal := .num (decide (i < 0)) i.natAbs 0

/-- FRINT (R240): an integral value in the same format. -/
def Fmt.rint (f : Fmt) (mode step : Nat) (x : FVal) : Nat × BitVec 5 :=
  match x with
  | .nan sig => (f.nan, if sig then flNV else 0)
  | .inf s => (f.inf s, 0)
  | .num s m e =>
    if m = 0 then (f.signBit s, 0)
    else
      let (k, inexact) := roundInt mode step s m e
      ((f.round 1 false 0 s k.natAbs 0 false).1, if inexact then flNX else 0)

/-- AMAX of R234 after converting a source value: NANSEEN, MAG. -/
def amaxUpdate (amax : Word) (x : FVal) : Word :=
  match x with
  | .nan _ => setField amax 32 32 1
  | .inf _ => setField amax 30 0 0x7F800000
  | .num _ m e =>
    let g := (fmtF32.round 2 false 0 false m e false).1
    if field amax 30 0 < g then setField amax 30 0 g else amax

/-- FCLASS (R237). -/
def Fmt.classify (f : Fmt) (x : Nat) : Nat :=
  match f.decode x with
  | .nan sig => if sig then 2 ^ 8 else 2 ^ 9
  | .inf s => if s then 1 else 2 ^ 7
  | .num s m _ =>
    if m = 0 then (if s then 2 ^ 3 else 2 ^ 4)
    else if m < 2 ^ f.m then (if s then 2 ^ 2 else 2 ^ 5)
    else (if s then 2 else 2 ^ 6)

/-- FMXSC (R238). -/
def mxScale (emax : Nat) (x : Nat) : Nat :=
  match fmtF32.decode x with
  | .nan _ => 0xFF
  | .inf _ => 0xFF
  | .num _ m e => if m = 0 then 0x7F else (clamp ((m.log2 : Int) + e - emax + 127) 0 254).toNat

end Sys2Proof.Machine
end

