-- ==== Sys2Proof/Machine/Owner.lean ====
section
/-! DEFINITION. Performing accesses: poison and tags (R146, R164, R165, R183), the L1 directory (R152 to R154),
monitors (R302), RMWs and full/empty operations at a word's owner (R285 to R298). -/

namespace Sys2Proof.Machine

/-! ### Scopes (R162, R165)

MODEL: application core k stands for rill 4096 + k, the host and the agents of other packages for rill 8192. -/

def dieOf (b : Nat) : Nat := b / 32

/-- Positions of an application core and of an agent outside the package. -/
def corePos (k : Nat) : Pos := ⟨512 + k / 8, k % 8, 0⟩
def outsidePos : Pos := ⟨1024, 0, 0⟩

/-- The basin of a braid or of an application core. -/
def State.agentBasin (s : State) (b r : Nat) : Option Nat :=
  if b < 512 then some (s.basinOf b)
  else if b < 1024 then
    let g := (s.cores.get {} (8 * (b - 512) + r)).gran
    if g.ownedBy g.basin then some g.basin else none
  else none

/-- The scope code of a releaser contains an acquirer. -/
def State.inScope (s : State) (rb rr ab ar scope : Nat) : Bool :=
  match scope with
  | 0 => rb == ab && rr == ar
  | 1 => rb == ab
  | 2 => s.basinOf rb == s.basinOf ab && dieOf rb == dieOf ab && decide (rb < 512 ∧ ab < 512)
  | 3 => (s.agentBasin rb rr).isSome && s.agentBasin rb rr == s.agentBasin ab ar
  | 4 => decide (ab < 1024)
  | _ => true

/-- R182: rill (b, r) lies in one scope up to .bs with the place that a thread held when it performed the release of tag t. -/
def State.besideRelease (s : State) (t : Tag) (b r scope : Nat) : Bool :=
  match scope with
  | 0 => t.rill == rillKey b r
  | 1 => t.rill / 8 == b
  | 2 => t.basin == some (s.basinOf b) && dieOf (t.rill / 8) == dieOf b && decide (t.rill < 4096 ∧ b < 512)
  | 3 => t.basin.isSome && t.basin == s.agentBasin b r
  | _ => false

/-- The scope of the release of tag t contains rill (b, r): from the place that its thread held then, or from the one that it
holds now. That either will do is the model's choice (log entry 152). -/
def State.tagInScope (s : State) (t : Tag) (b r scope : Nat) : Bool :=
  s.inScope (t.now / 8) (t.now % 8) b r scope || s.besideRelease t b r scope

/-- The smallest scope of the releaser that contains the acquirer. -/
def State.leastScope (s : State) (t : Tag) (b r : Nat) : Nat :=
  ((List.range 6).find? fun n => s.tagInScope t b r n).getD 5

/-- R181: a release or acquire in local store acts at .br at least. -/
def effectiveScope (pa scope : Nat) : Nat := if isLocal pa then max scope 1 else scope

/-- R183: the status of an acquire by p at a scope, and the notifications of the releases that do not reach
it. The notification of a release goes to the rill that its tag names (R185). A scope miss is never reported for local store (R181). -/
def State.judge (s : State) (p : Pos) (scope pa size : Nat) : Bool × List (Nat × Word × Nat × Nat) :=
  let ts := if isLocal pa then [] else s.mem.tagsOn pa size
  let c2 (t : Tag) : Bool := s.tagInScope t p.b p.r t.scope
  let c3 (t : Tag) : Bool := t.scope == 5
    || s.inScope p.b p.r (t.now / 8) (t.now % 8) (effectiveScope pa scope) || s.besideRelease t p.b p.r (effectiveScope pa scope)
  (ts.all fun t => c2 t && c3 t,
   (ts.filter fun t => !c2 t && decide (t.rill < 4096)).map fun t =>
     (t.rill, setField t.va 2 0 0, t.ctx, s.leastScope t p.b p.r))

/-- R184: notifications wait at the slice; those for the same word and context are one. Where their acquirers need different
scopes the rule does not say which of them XSTAT shows: that it is the earlier one's is the model's choice (log entry 158). -/
def State.notifyMisses (s : State) (ms : List (Nat × Word × Nat × Nat)) : State :=
  { s with misses := ms.foldl (fun t m =>
      if t.any fun x => x.1 == m.1 && x.2.1 == m.2.1 && x.2.2.1 == m.2.2.1 then t else t ++ [m]) s.misses }

def State.acquire (s : State) (p : Pos) (scope pa size : Nat) : State := s.notifyMisses (s.judge p scope pa size).2

/-- The tag of a release by p (R164). -/
def State.tagOf (s : State) (p : Pos) (scope : Nat) (pa : Nat) (va : Word) : Tag :=
  { rill := rillKey p.b p.r, ctx := p.k, scope := effectiveScope pa scope, va := setField va 2 0 0
    basin := s.agentBasin p.b p.r }

/-! ### Storing bytes (R146) -/

/-- Store the n low bytes of v: the poison bit becomes p for a full word, old OR p otherwise; host memory
carries no poison. -/
def Memory.store (m : Memory) (a n v : Nat) (p : Bool) : Memory :=
  let m1 := m.write a n v
  if isHost a then m1
  else if n ≥ 8 then m1.setPoison a p
  else m1.setPoison a (m.poisoned a || p)

/-- Store 64 zero bytes (R155). -/
def Memory.zeroLine (m : Memory) (a : Nat) : Memory :=
  (List.range 8).foldl (fun t i => t.store (a + 8 * i) 8 0 false) m

/-- Read bytes with the poison bit of their word. -/
def Memory.load (m : Memory) (a n : Nat) : Nat × Bool := (m.read a n, !isHost a && m.poisoned a)

/-! ### The L1 directory (R152 to R154) -/

/-- The structures of a braid that an access of a thread of rill r uses: the pool halves by bits 8:6 of its address in
shared mode, both halves of its rill in private mode. While a switch runs no pool half serves (R116). -/
def Braid.l1Halves (x : Braid) (fused : Bool) (r va : Nat) : List Nat :=
  if x.shared && fused then (if x.busy then [] else [8 + va % 8])
  else if x.shared || x.busy then [r]
  else [r, 8 + r]

/-- The set of a structure that holds a line. The manual gives the index of the pool in shared mode; elsewhere this model
takes the low bits of the line. -/
def Braid.l1Set (x : Braid) (place va : Nat) : Nat := if x.shared && decide (8 ≤ place) then va / 8 % 64 else va % 64

/-- The lines of a set of a structure, other than one. -/
def Braid.l1Ways (x : Braid) (place va but : Nat) : List (Nat × L1Line) :=
  x.l1.filter fun e => e.1 != but && e.2.place == place && x.l1Set place e.2.va == x.l1Set place va

/-- A line stands in a pending entry of the replay queue of the rill (R152). -/
def Rill.refersTo (x : Rill) (va : Nat) : Bool := x.replay.any fun e => e.2.accs.any fun a => lineOf a.va.toNat == va

/-- Line n, as l, goes to one of the structures `halves` of braid p.b: to one with a free way, or in place of a line that
no pending entry of the rill refers to, which is drawn freely; where there is none, it is not held. -/
def State.l1Fill (s : State) (p : Pos) (halves : List Nat) (n : Nat) (l : L1Line) : State :=
  let x := s.braid p.b
  match halves.find? fun h => decide ((x.l1Ways h l.va n).length < 8) with
  | some h => s.modBraid p.b fun y => { y with l1 := y.l1.put n { l with place := h } }
  | none =>
    let old := (halves.flatMap fun h => x.l1Ways h l.va n).filter fun e => !(s.rill p.b p.r).refersTo e.2.va
    match old[(Config.freeWord s.free).toNat % old.length]? with
    | some e => ({ s with free := s.free + 1 } : State).modBraid p.b fun y =>
        { y with l1 := (y.l1.drop e.1).put n { l with place := e.2.place } }
    | none => s.modBraid p.b fun y => { y with l1 := y.l1.drop n }

/-- Line n of the braid of p, as l, after an access of p at a line of addresses va: it stays where the access finds it,
in a structure that it uses or in the pool in shared mode, and moves to the accessor's structure otherwise (R154). -/
def State.l1Take (s : State) (p : Pos) (va n : Nat) (l : L1Line) : State :=
  let x := s.braid p.b
  let halves := x.l1Halves (s.groupOf p).isSome p.r va
  match x.l1.find n with
  | some o =>
    if halves.contains o.place || (x.shared && !x.busy && decide (8 ≤ o.place)) then
      s.modBraid p.b fun y => { y with l1 := y.l1.put n { l with place := o.place, va := o.va } }
    else s.l1Fill p halves n { l with va := va }
  | none => s.l1Fill p halves n { l with va := va }

/-- A context of a braid has armed a monitor slot on a line. -/
def State.monitored (s : State) (b line : Nat) : Bool :=
  s.ctxs.any fun e => e.1 / 128 == b && e.2.mons.any fun m => m.2 == line

/-- Braids that the directory records for a line: those that hold it and those that monitor it (R302). -/
def State.sharersOf (s : State) (line : Nat) : List Nat :=
  (s.braids.filter fun e => (e.2.l1.find line).isSome || s.monitored e.1 line).map Prod.fst

/-- Braids, other than b, that are recorded for a line. -/
def State.otherSharers (s : State) (b line : Nat) : List Nat := (s.sharersOf line).filter fun x => x != b

/-- The line that a read or store of a braid finds, or a new clean one. -/
def State.l1Held (s : State) (b line : Nat) : L1Line := ((s.braid b).l1.find line).getD { place := 0 }

/-- A read at va brings line n in; a writable copy elsewhere becomes clean. -/
def State.l1Read (s0 : State) (p : Pos) (va : Word) (line : Nat) (sync : Bool) : State :=
  let s := s0.callBack line false
  let s1 := { s with braids := s.braids.update fun b x =>
    if b == p.b then x else match x.l1.find line with
      | some l => { x with l1 := x.l1.put line { l with writable := false, dirty := false } }
      | none => x }
  s1.l1Take p (lineOf va.toNat) line { s1.l1Held p.b line with sync := sync }

/-- The L1 of the braid takes the line of a read. -/
def State.cached (s : State) (p : Pos) (a : Access) : State :=
  if isLocal a.pa then s
  else if a.nc then s.callBack (lineOf a.pa) false
  else s.l1Read p a.va (lineOf a.pa) a.sync

/-- The copies of other braids go, and the line is writable here. -/
def State.l1Own (s0 : State) (p : Pos) (va : Word) (line : Nat) (l : L1Line) : State :=
  let s := s0.callBack line true
  let s1 := { s with braids := s.braids.update fun b x =>
    if b == p.b then x else { x with l1 := x.l1.drop line } }
  s1.l1Take p (lineOf va.toNat) line { l with writable := true, sync := false }

/-- A store makes the line writable here and dirty: the home keeps what was last written back. -/
def State.l1Write (s : State) (p : Pos) (va : Word) (line : Nat) : State :=
  let l := s.l1Held p.b line
  s.l1Own p va line (if l.dirty then l else
    { l with dirty := true, home := s.mem.read (64 * line) 64, homePoison := s.mem.poisonMask line })

/-! ### Delivering results -/

/-- The cell of a vector register receives an element. -/
def VCell.element (x : VCell) (i size : Nat) (v : Nat) (p : Bool) : VCell :=
  let w := 8 * size
  let old := x.val.toNat
  { x with val := BitVec.ofNat 256 (old - old / 2 ^ (w * i) % 2 ^ w * 2 ^ (w * i) + v % 2 ^ w * 2 ^ (w * i))
           poison := x.poison || p }

/-- No other access of the same instruction is outstanding. -/
def State.lastOf (s : State) (p : Pos) (a : Access) : Bool :=
  !((s.ctx p).flights.any fun x => x.src == a.src && x.id != a.id)
    && !((s.rill p.b p.r).replay.any fun e => e.2.pos == p && e.2.accs.any fun x => x.src == a.src && x.id != a.id)

/-- A vector instruction with this number is still to write its result. -/
def Ctx.vectorWriter (c : Ctx) (id : Nat) : Bool := c.vseq.any (fun e => e.id == id) || c.vres.any fun r => r.id == id

/-- An access delivers its value to its destination; a vector register fills with its last element. A vector
register that a later vector instruction is to fill receives the value and stays empty. -/
def State.deliver (s : State) (p : Pos) (a : Access) (v : Word) (bad : Bool) : State :=
  match a.dst with
  | .v n =>
    let last := s.lastOf p a
    s.modCtx p fun c =>
      let x := c.vreg n
      if x.full || decide (a.seq < c.vWrote.get 0 n) then c
      else if x.src = a.src then
        let y := x.element a.elem a.size v.toNat bad
        c.setVreg n (if last then { y with full := true, src := 0 } else y)
      else if c.vectorWriter x.src then c.setVreg n (x.element a.elem a.size v.toNat bad)
      else c
  | .none => s
  | .g n => s.modCtx p fun c => c.fill (.g n) a.src v bad
  | .win n => s.modCtx p fun c => c.fill (.win n) a.src v bad
  | .ox n => s.modCtx p fun c => c.fill (.ox n) a.src v bad
  | .q n => s.modCtx p fun c => c.fill (.q n) a.src v bad

/-- A completion counter falls (R178). -/
def State.lowerCc (s : State) (b r m : Nat) : State :=
  s.modRill b r fun x => { x with cc := x.cc.put m (x.cc.get 0 m - 1) }
def State.raiseCc (s : State) (b r m : Nat) : State :=
  s.modRill b r fun x => { x with cc := x.cc.put m (x.cc.get 0 m + 1) }

/-- Nothing of the unit with this number is outstanding any more. -/
def State.unitDone (s : State) (p : Pos) (seq : Nat) : Bool :=
  !((s.ctx p).flights.any fun a => a.seq == seq)
    && !((s.rill p.b p.r).replay.any fun e => e.2.pos == p && e.2.seq == seq)

/-- A release at .bs or wider, for R177: an unconditional one by its kind, another by its tag. -/
def Access.releasesWide (a : Access) : Bool :=
  match a.kind with
  | .stfe | .stff | .hmsg | .launch | .joinInc => true
  | .store | .czero => false
  | _ => a.tag.any fun sc => decide (3 ≤ sc)

/-- What a release orders before later engine commands of the thread is no longer open to them (R177). -/
def State.orderOlder (s : State) (p : Pos) (a : Access) : State :=
  if a.releasesWide then s.modCtx p fun c => { c with older := c.older.filter fun o => decide (a.seq ≤ o.seq) } else s

/-- An access is performed and leaves the thread's flights: its counter falls, the lookahead window closes,
and a wait for the unit ends. -/
def State.retireAccess (s : State) (p : Pos) (a : Access) : State :=
  let s1 := (s.orderOlder p a).modCtx p fun c => ({ c with flights := c.flights.filter fun x => x.id != a.id }).closeLa a.seq
  let s2 := match a.cc with
    | some m => s1.lowerCc p.b p.r m
    | none => s1
  if s2.unitDone p a.seq then
    s2.modCtx p fun c => { (c.endLa a.seq) with wait := if c.wait == some (.access a.seq) then none else c.wait }
  else s2

/-! ### Operations at the owner (R288 to R297) -/

/-- The updates of R289 by op, on size bytes. -/
def amoNew (op size old x : Nat) : Nat :=
  let w := 8 * size
  let m := 2 ^ w
  let f := if size = 4 then fmtF32 else fmtF64
  match op with
  | 0 => (old + x) % m
  | 1 => old &&& (x % m)
  | 2 => (old ||| x) % m
  | 3 => (old ^^^ x) % m
  | 4 => if sextNat old w ≤ sextNat x w then old % m else x % m
  | 5 => if sextNat x w ≤ sextNat old w then old % m else x % m
  | 6 => if old % m ≤ x % m then old % m else x % m
  | 7 => if x % m ≤ old % m then old % m else x % m
  | 8 => x % m
  | _ => ((fAdd 0 (f.decode old) (f.decode x)).to f 0 false 0).1

/-- R292: the AMO op of an RUPD or VAMO op, and its element size. -/
def rupdOp (op : Nat) : Nat × Nat :=
  match op with
  | 0 => (0, 8)
  | 1 => (0, 4)
  | 2 => (1, 8)
  | 3 => (2, 8)
  | 4 => (3, 8)
  | 5 => (4, 8)
  | 6 => (5, 8)
  | 7 => (6, 8)
  | 8 => (7, 8)
  | 9 => (9, 4)
  | 10 => (9, 8)
  | 11 => (0, 8)
  | _ => (0, 4)

/-- R288: the poison bit an update leaves: old OR operand, but the operand's alone for a 64-bit exchange. -/
def rmwPoison (op size : Nat) (old new : Bool) : Bool := if op = 8 && size == 8 then new else old || new

/-- Write a word at its owner. tag: none leaves the tags, some none removes them, some (some t) sets them. -/
def State.ownerWrite (s : State) (pa size v : Nat) (p : Bool) (tag : Option (Option Tag)) : State :=
  let m1 := s.mem.write pa size v
  let m2 := if isHost pa then m1 else m1.setPoison pa p
  let m3 := match tag with
    | none => m2
    | some t => m2.setTags pa t size
  ({ s with mem := m3 }).wrote (lineOf pa)

/-- The op and size that an RMW access applies. -/
def AccKind.update : AccKind → Option Nat
  | .amo op => some op
  | .rupd op => some (rupdOp op).1
  | .vamo op _ => some (rupdOp op).1
  | .ticket => some 0
  | .joinInc => some 0
  | _ => none

/-- An FE operation may proceed on a word (R297). -/
def feReady (k : AccKind) (full : Bool) : Bool :=
  match k with
  | .ldfe => full
  | .ldff => full
  | .stfe => !full
  | _ => true

/-- The line of an access is held by a commit or by an irrevocable transaction (R332): kind of hold. -/
def State.lockOf (s : State) (line : Nat) : Nat := (s.locks.find line).elim 0 fun l => l.kind

/-- Perform an FE operation whose condition holds. -/
def State.performFe (s : State) (p : Pos) (a : Access) : State :=
  let (v, bad) := s.mem.load a.pa 8
  let s0 := if isLocal a.pa then s else s.recall (lineOf a.pa)
  let t := some (some (s.tagOf p 3 a.pa a.va))
  match a.kind with
  | .ldfe =>
    let s1 := (s0.acquire p 3 a.pa 8).wrote (lineOf a.pa)
    (({ s1 with mem := s1.mem.setFull a.pa false }).deliver p a (w64 v) bad).retireAccess p a
  | .ldff =>
    let s1 := (s0.acquire p 3 a.pa 8).wrote (lineOf a.pa)
    (s1.deliver p a (w64 v) bad).retireAccess p a
  | .feclr =>
    let s1 := s0.wrote (lineOf a.pa)
    ({ s1 with mem := s1.mem.setFull a.pa false }).retireAccess p a
  | _ =>
    let s1 := (s0.ownerWrite a.pa 8 a.data.toNat a.poison t).noteRaise s.mem p a.id a.pa 8
    ({ s1 with mem := s1.mem.setFull a.pa true }).retireAccess p a

/-- The sharers that must acknowledge before a write: those of an S page; otherwise, those that cannot be
reached. -/
def State.sharersFor (s : State) (p : Pos) (a : Access) : List Nat :=
  if isLocal a.pa then []
  else if a.sync then s.sharersOf (lineOf a.pa)
  else (s.otherSharers p.b (lineOf a.pa)).filter fun b => (s.braid b).cut

/-- A write of a thread starts its fan-out. -/
def State.startFanout (s : State) (p : Pos) (a : Access) (sharers : List Nat) : State :=
  { s with fanouts := s.fanouts ++
    [{ line := lineOf a.pa, sharers := sharers, pos := p, acc := { a with stage := 4 }, since := s.cycle }] }

/-- The sharers that must acknowledge before a write of an agent that is no thread's access: those that hold a line of an
S page, and those that cannot be reached. -/
def State.agentSharers (s : State) (line : Nat) : List Nat :=
  if isLocal (64 * line) then []
  else (s.sharersOf line).filter fun b => (s.braid b).cut || ((s.braid b).l1.find line).any fun l => l.sync

/-- Writes of an agent of p to lines, of which each that needs a fan-out starts it (R309); true once no sharer is left, when
the agent is to write them all at once. sync: the lines that it knows to be of S pages. -/
def State.gate (s : State) (p : Pos) (agent : Nat) (lines : List Nat) (sync : Nat → Bool := fun _ => false) : State × Bool :=
  let s1 := lines.foldl (fun t n =>
    let o := if sync n && !isLocal (64 * n) then t.sharersOf n else t.agentSharers n
    if o.isEmpty || t.fanouts.any (fun f => f.line == n) then t
    else { t with fanouts := t.fanouts ++
      [{ line := n, sharers := o, agent := some agent, pos := p, since := t.cycle
         acc := { id := agent, seq := 0, kind := .store, va := 0, pa := 64 * n, size := 64, stage := 4 } }] }) s
  if lines.all fun n => !(s1.fanouts.any fun f => f.line == n && !(f.agent == some agent && f.sharers.isEmpty)) then
    ({ s1 with fanouts := s1.fanouts.filter fun f => f.agent != some agent }, true)
  else (s1, false)

/-- R298: after an operation on a word, its parked requests are scanned in arrival order, and each whose
condition now holds is performed; not while the line is locked or a fan-out of it runs. One that needs a fan-out starts it, and the scan goes on
when it is performed. -/
def scanParked (word : Nat) : List (Pos × Access) → State → State
  | [], s => s
  | (p, a) :: t, s =>
    if a.stage = 3 && wordOf a.pa == word && feReady a.kind (s.mem.isFull a.pa) && s.lockOf (lineOf a.pa) == 0
        && !(s.fanouts.any fun f => f.line == lineOf a.pa) then
      let s1 := { s with requests := s.requests.filter fun x => x.2.id != a.id }
      let o := s1.sharersFor p a
      if o.isEmpty then scanParked word t (s1.performFe p a) else s1.startFanout p a o
    else scanParked word t s

def State.scan (s : State) (pa : Nat) : State := scanParked (wordOf pa) s.requests s

/-- A plain store of a thread to cached memory is performed: what its words held before, of which the latest 64 are kept. Of an
older value that is not kept the model shows no reading (log entry 149). -/
def State.noteOlder (s : State) (m : Memory) (p : Pos) (a : Access) : State :=
  if 512 ≤ p.b || isLocal a.pa || isHost a.pa || a.sync || a.nc || !(a.kind == .store || a.kind == .czero) then s
  else
    let words := (List.range ((a.pa % 8 + a.size + 7) / 8)).map fun i => wordOf a.pa + i
    s.modCtx p fun c =>
      let xs := c.older ++ words.map fun w => { word := w, seq := a.seq, val := m.read (8 * w) 8, poison := m.poisoned (8 * w) }
      { c with older := xs.drop (xs.length - 64) }

/-- The effect of a plain store: bytes, poison, tags, L1, monitors. A tag names the word that it stands on (R164). -/
def State.storeEffect (s : State) (p : Pos) (a : Access) : State :=
  let tag := a.tag.map fun sc => s.tagOf p sc a.pa a.va
  let z := a.kind == AccKind.czero
  let m := if z then s.mem.zeroLine a.pa else s.mem.store a.pa a.size a.data.toNat a.poison
  let s0 := if isLocal a.pa then s
    else if a.sync || a.nc then s.callBack (lineOf a.pa) true else s.l1Write p a.va (lineOf a.pa)
  let m1 := if z then (List.range 8).foldl (fun t i =>
      t.setTags (a.pa + 8 * i) (tag.map fun g => { g with va := g.va + w64 (8 * i) }) 8) m
    else m.setTags a.pa tag a.size
  ((({ s0 with mem := m1 } : State).wrote (lineOf a.pa)).noteRaise s.mem p a.id a.pa a.size).noteOlder s.mem p a

/-- A plain store is performed, and the parked requests of its word are scanned. -/
def State.performStore (s : State) (p : Pos) (a : Access) : State :=
  ((s.storeEffect p a).retireAccess p a).scan a.pa

/-! ### When an access may be performed -/

/-- Two accesses touch a common 64-bit word. -/
def overlaps (a b : Access) : Bool :=
  decide (a.pa / 8 ≤ (b.pa + b.size - 1) / 8) && decide (b.pa / 8 ≤ (a.pa + a.size - 1) / 8)

/-- The read of an access is an acquire (R163, R290, R291, R294, R297). -/
def Access.acquires (a : Access) : Bool :=
  match a.kind with
  | .ldfe => true
  | .ldff => true
  | .lda _ _ _ => true
  | .joinRead _ => true
  | .amo _ => a.ordered
  | .rupd op => op == 11 || op == 12
  | .cas sem _ => sem % 2 == 1
  | _ => false

/-- The elements of a VAMO are applied in ascending order (R295). -/
def AccKind.isVamo : AccKind → Bool
  | .vamo _ _ => true
  | _ => false

/-- LDL.H and STL.H, by the word of the instruction: they are ordered with every other access of the thread to their word,
whatever window they are issued in (R151). -/
def Access.short (a : Access) : Bool := a.code / 1024 == 0x0B || a.code / 1024 == 0x0C

/-- R51: a may be performed before x, an access to bytes of its own by an instruction in whose lookahead window it was
issued: an acquire and an ordered access too; not two reads (R170). Where the two meet in some bytes only, the choice is
the same for all of them. -/
def Access.mayPass (a x : Access) : Bool :=
  overlaps x a && a.within.contains x.seq && (a.kind.writes || x.kind.writes) && !x.replayed && !a.replayed && !a.short

/-! #### Block instructions that still run -/

/-- The element addresses of a block instruction from a on that are left. -/
def Block.left (x : Block) (a : Word) : List Word := (List.range x.n.toNat).map fun i => a + w64 (i * 2 ^ x.esize)

/-- The elements that it is still to read, and to write (R158). -/
def Block.toRead (x : Block) : List Word := if x.op ≤ 1 then x.left x.b else if x.op = 2 then [] else x.left x.a
def Block.toWrite (x : Block) : List Word := if x.op ≤ 2 then x.left x.a else []

/-- One of its elements at vas holds one of the n bytes from pa. -/
def State.elementsMeet (s : State) (p : Pos) (x : Block) (vas : List Word) (need : Need) (pa n : Nat) : Bool :=
  vas.any fun va => (s.placeOf p va need).any fun q => decide (q < pa + n ∧ pa < q + 2 ^ x.esize)

/-- R51, R151, R170, R173: access a of p may be performed before the rest of the earlier block instruction x. A plain access may
where they have no byte in common; in its window also where a byte they share is one that either writes. An ordered access may
only in its window, where every element that is left shares a byte with it. An entry that REPLAY has sent comes before an
element of its line, which waits for it (R145). -/
def State.mayPassBlock (s : State) (p : Pos) (a : Access) (x : Block) : Bool :=
  let rd := s.elementsMeet p x x.toRead { r := true }
  let wr := s.elementsMeet p x x.toWrite { w := true }
  let near := a.within.contains x.seq && !a.short
  (a.replayed && (x.toRead ++ x.toWrite).any fun va => lineOf va.toNat == lineOf a.va.toNat)
    || if a.ordered then near && x.toRead.all (fun va => s.elementsMeet p x [va] { r := true } a.pa a.size)
          && x.toWrite.all fun va => s.elementsMeet p x [va] { w := true } a.pa a.size
      else (List.range a.size).all fun i =>
        let r := rd (a.pa + i) 1
        let w := wr (a.pa + i) 1
        (!r && !w) || (near && (w || a.kind.writes))

/-- An earlier access x of the thread comes before a. -/
def Access.waitsFor (a x : Access) : Bool :=
  decide (x.id < a.id)
    && (((overlaps x a || x.acquires) && !a.mayPass x) || (a.kind.isVamo && x.src == a.src)
      || (x.replayed && a.replayed && lineOf x.va.toNat == lineOf a.va.toNat))

/-- An RMW of host memory other than n has read a word of the line and not yet written it (R285). -/
def State.halfDone (s : State) (line n : Nat) : Bool :=
  s.requests.any fun q => q.2.old.isSome && q.2.id != n && lineOf q.2.pa == line

/-- The line may be used by an access (R176, R309, R332): no engine owns it by a later command (an RMW that has read its word
comes before the command), no fan-out is in the way, no lock stops it, and the braid is connected. -/
def State.lineFreeFor (s : State) (p : Pos) (a : Access) (line : Nat) : Bool :=
  (a.old.isSome || !s.ownedFor p a line) && !(a.kind.writes && s.halfDone line a.id) &&
  (isLocal a.pa ||
    (!(s.fanouts.any fun f => f.line == line && f.agent != some a.id && (a.kind.writes || ((s.braid p.b).l1.find line).isSome || f.sharers.contains p.b))
      && (if a.kind.writes then s.lockOf line == 0 else s.lockOf line != 2)
      && !(s.braid p.b).cut))

/-- The lines that an access touches. -/
def Access.lines (a : Access) : List Nat :=
  if a.size ≤ 64 then [lineOf a.pa] else [lineOf a.pa, lineOf (a.pa + a.size - 1)]

def State.lineOpen (s : State) (p : Pos) (a : Access) : Bool := a.lines.all fun n => s.lineFreeFor p a n

/-- Earlier accesses of other contexts that an edge of R180 puts before access number id of p, and that f
selects. -/
def State.edgesBefore (s : State) (p : Pos) (id : Nat) (f : Pos → Access → Bool) : Bool :=
  (s.ctx p).after.any fun e => decide (e.2 ≤ id) && (s.ctx (posOf e.1)).flights.any fun x =>
    decide (x.id < e.2) && f (posOf e.1) x

/-- What those edges put before a release or fence numbered id of p is complete. A parked request of a user context does
not hold the release up: R298 withdraws it from a stopped thread and logs it, which may need this context. -/
def State.edgesDone (s : State) (p : Pos) (id : Nat) (f : AccKind → Bool) : Bool :=
  !(s.edgesBefore p id fun q x => f x.kind && (x.stage != 3 || q.k == 15))

/-- Every earlier access that a release by the executing unit puts before it is complete (R163, R180). -/
def State.releases (s : State) : Bool := s.quietBefore && s.edgesDone s.cur s.nextId fun _ => true

/-- Nothing earlier of the thread is outstanding, but for what the access may pass (R51). -/
def State.orderedReady (s : State) (p : Pos) (a : Access) : Bool :=
  let c := s.ctx p
  !(c.flights.any fun x => decide (x.seq < a.seq) && !a.mayPass x)
    && !((s.rill p.b p.r).replay.any fun e => e.2.pos == p && decide (e.2.seq < a.seq))
    && c.blocks.all fun x => decide (a.seq ≤ x.seq) || s.mayPassBlock p a x

/-- Program order of the thread (R168 to R170, R173, R145, R180): no earlier access to the same word and no earlier
acquire is outstanding, for an ordered access none at all, and no earlier block instruction runs, but for those that it
may pass (R51). -/
def State.inOrder (s : State) (p : Pos) (a : Access) : Bool :=
  let c := s.ctx p
  !(c.flights.any fun x => a.waitsFor x)
    && !(s.edgesBefore p a.id fun _ x => overlaps x a)
    && !((s.rill p.b p.r).replay.any fun e => e.2.pos == p && decide (e.2.seq < a.seq) && e.2.accs.any Access.acquires)
    && !((s.rill p.b p.r).replay.any fun e => e.2.pos == p && decide (e.2.seq < a.seq)
          && e.2.accs.any fun x => lineOf x.va.toNat == lineOf a.va.toNat)
    && (!a.ordered || (s.orderedReady p a && s.edgesDone p a.id fun _ => true))
    && c.blocks.all fun x => decide (a.seq ≤ x.seq) || s.mayPassBlock p a x

def State.mayPerform (s : State) (p : Pos) (a : Access) : Bool := s.inOrder p a && s.lineOpen p a

end Sys2Proof.Machine
end

