-- ==== Sys2Proof/Machine/Queue.lean ====
section
/-! DEFINITION. The queue of a line at its home slice (R286): requests, locks and the writes of block instructions,
the dispatcher and the services, in the order in which they came, and the starved before the others. -/

namespace Sys2Proof.Machine

/-! ### Lines of a commit -/

/-- Lines of both logs, ascending. -/
def Tx.logLines (t : Tx) : List Nat :=
  (t.reads ++ t.writes ++ t.spilled).foldl (fun l e => setInsert l (e.word / 8)) t.lines

/-- The slices that are home to lines. -/
def State.homesOf (s : State) (b : Nat) (lines : List Nat) : List Nat :=
  lines.foldl (fun l x => setInsert l (s.homeSlice (s.basinOf b) (64 * x))) []

/-- The lines of a commit at a slice, ascending. -/
def State.linesAt (s : State) (b : Nat) (t : Tx) (sl : Nat) : List Nat :=
  t.logLines.filter fun l => s.homeSlice (s.basinOf b) (64 * l) == sl

/-- The lines whose locks a commit of p asks for now: at each slice the first that it does not hold (R331). -/
def State.locksWanted (s : State) (p : Pos) (t : Tx) : List Nat :=
  if t.commit != 1 then []
  else t.awaiting.filterMap fun sl => (s.linesAt p.b t sl).find? fun l => !((s.locks.find l).any fun k => k.pos == p)

/-! ### The queue -/

/-- What waits at a line: its thread or agent, its number, that of its instruction, whether it is a lock, when it came and
whether it is starved. -/
structure Waiter where
  pos : Pos
  id : Nat := 0
  seq : Nat := 0
  lock : Bool := false
  since : Nat
  starved : Bool := false
  deriving DecidableEq, Repr

/-- Starved since rill cycle t: 1024 slice cycles at the slice. -/
def State.starvedSince (s : State) (t : Nat) : Bool := decide (t + Config.sliceCycles 1024 ≤ s.cycle)

/-- Locks of a line that are asked for and not yet held; none takes its place while an engine owns the line, since the engine's
write comes first (R176). -/
def State.lockWaiters (s : State) (line : Nat) : List Waiter :=
  if s.ownedLine line none then [] else s.ctxs.filterMap fun e =>
    let p : Pos := ⟨e.1 / 128, e.1 / 16 % 8, e.1 % 16⟩
    let ask (t : Nat) : Waiter := { pos := p, lock := true, since := t, starved := s.starvedSince t }
    match e.2.wait, e.2.tx with
    | some (.irrLock l t), _ => if l == line then some (ask t) else none
    | _, some x => if (s.locksWanted p x).contains line then some (ask x.began) else none
    | _, none => none

/-- A request stands in the queue once program order lets it be performed (an earlier one of its thread may still come) and no
engine owns the line before it, whose write comes first (R176). -/
def State.requestWaiters (s : State) (line stage : Nat) : List Waiter :=
  (s.requests.filter fun q => lineOf q.2.pa == line && q.2.stage == stage && s.inOrder q.1 q.2
      && (q.2.old.isSome || !s.ownedFor q.1 q.2 line)).map fun q =>
    { pos := q.1, id := q.2.id, seq := q.2.seq, since := q.2.since, starved := q.2.starved }

/-- Other writes that wait for the line; one that has not asked again for 32 rill cycles has gone. -/
def State.writeWaiters (s : State) (line : Nat) : List Waiter :=
  (s.lineWaits.filter fun w => w.line == line && decide (s.cycle ≤ w.last + 32)).map fun w =>
    { pos := w.pos, id := w.id, seq := w.seq, since := w.since, starved := s.starvedSince w.since }

def State.queueOf (s : State) (line : Nat) : List Waiter :=
  s.lockWaiters line ++ s.requestWaiters line 1 ++ s.writeWaiters line

/-- The slice serves x before y: a starved waiter first, of these the one with the lowest thread identifier, those without one
last; otherwise the one that came first. -/
def State.servesFirst (s : State) (x y : Waiter) : Bool :=
  if x.starved && y.starved && (decide (x.pos.b < 512) || decide (y.pos.b < 512)) then
    decide (x.pos.b < 512) && (!decide (y.pos.b < 512) || decide (s.tid x.pos < s.tid y.pos))
  else if x.starved != y.starved then x.starved
  else decide (x.since < y.since)

/-- The waiter that is served next: of those that came at once, the first of the list. -/
def State.served (s : State) : List Waiter → Option Waiter
  | [] => none
  | x :: t => some (t.foldl (fun m y => if s.servesFirst y m then y else m) x)

/-- The slice grants p the lock of a line: no request is being performed there, and the lock is the next to be served. -/
def State.lockTurn (s : State) (p : Pos) (line : Nat) : Bool :=
  (s.requestWaiters line 2).isEmpty && (s.served (s.queueOf line)).any fun w => w.lock && w.pos == p

/-! ### Other writes -/

/-- What holds up instruction seq of p among waiters: not a later instruction of the thread itself. -/
def aheadOf (p : Pos) (seq : Nat) (xs : List Waiter) : List Waiter := xs.filter fun w => !(w.pos == p && decide (seq < w.seq))

/-- A write of an agent of p needs no place in the queue of a line: one of local store, one that the braid holds writable, one
whose fan-out the agent has already started. -/
def State.needsNoPlace (s : State) (p : Pos) (agent line : Nat) : Bool :=
  isLocal (64 * line) || (s.fanouts.any fun f => f.line == line && f.agent == some agent)
    || (decide (p.b < 512) && ((s.braid p.b).l1.find line).any fun l => l.writable && !l.sync)

/-- The turn of the agent's write at a line: it is the next to be served, or finds the queue empty. -/
def State.writeTurn (s : State) (p : Pos) (agent seq line : Nat) : Bool :=
  let q := aheadOf p seq (s.queueOf line)
  let mine := s.lineWaits.any fun w => w.line == line && w.id == agent && decide (s.cycle ≤ w.last + 32)
  (aheadOf p seq (s.requestWaiters line 2)).isEmpty
    && if mine then (s.served q).any fun w => w.id == agent && !w.lock else q.isEmpty

/-- An agent's writes take their places in the queues of their lines: true when it is the turn of each; else the agent waits
in the queue of the first at which it is not. -/
def State.takePlace (s : State) (p : Pos) (agent seq : Nat) (lines : List Nat) : State × Bool :=
  let others := s.lineWaits.filter fun w => w.id != agent && decide (s.cycle ≤ w.last + 32)
  match lines.find? fun l => !(s.needsNoPlace p agent l || s.writeTurn p agent seq l) with
  | none => ({ s with lineWaits := others }, true)
  | some l =>
    let since := match s.lineWaits.find? fun w => w.id == agent && w.line == l && decide (s.cycle ≤ w.last + 32) with
      | some w => w.since
      | none => s.cycle
    ({ s with lineWaits := others ++ [{ line := l, pos := p, id := agent, seq := seq, since := since, last := s.cycle }] }, false)

/-- Writes of an agent of p that ask for writable copies in the order of R286, then as `gate` says. -/
def State.gateInLine (s : State) (p : Pos) (agent seq : Nat) (lines : List Nat) (sync : Nat → Bool := fun _ => false) :
    State × Bool :=
  match s.takePlace p agent seq lines with
  | (s1, false) => (s1, false)
  | (s1, true) => s1.gate p agent lines sync

/-- Nothing waits at a line, and nothing is being performed there. -/
def State.queueClear (s : State) (line : Nat) : Bool :=
  (s.queueOf line).isEmpty && !(s.requests.any fun q => lineOf q.2.pa == line && q.2.stage == 2)

end Sys2Proof.Machine
end

