-- ==== Sys2Proof/Machine/TxLog.lean ====
section
/-! DEFINITION. Accesses inside a transaction: the read log, the write log and the spill area (R315 to R319,
R337). -/

namespace Sys2Proof.Machine

/-- Bits of the bytes that a mask selects. -/
def maskBits (mask : Nat) : Nat :=
  (List.range 8).foldl (fun t i => if hasBit mask i then t + 255 * 2 ^ (8 * i) else t) 0

/-- The bytes of old that mask leaves, and the bytes of new that it selects. -/
def mergeBytes (old new mask : Nat) : Nat := old - (old &&& maskBits mask) + (new &&& maskBits mask)

/-- The mask of size bytes from an address. -/
def byteMask (pa size : Nat) : Nat := (2 ^ size - 1) * 2 ^ (pa % 8)

def Tx.writeOf (t : Tx) (w : Nat) : Option LogEntry :=
  match t.writes.find? fun e => e.word == w with
  | some e => some e
  | none => t.spilled.find? fun e => e.word == w

def Tx.readOf (t : Tx) (w : Nat) : Option LogEntry := t.reads.find? fun e => e.word == w

/-- Write into a log: merge into the entry of the word (R315). -/
def mergeLog (es : List LogEntry) (e : LogEntry) : List LogEntry :=
  es.map fun x => if x.word == e.word
    then { x with val := w64 (mergeBytes x.val.toNat e.val.toNat e.mask), mask := x.mask ||| e.mask
                  poison := x.poison || e.poison }
    else x

/-- The outcome of one transactional access. -/
inductive TxOut where
  | ok (s : State) (v : Nat) (bad : Bool)
  | stop (r : Res)
  /-- A log is full: the abort cause (R317). -/
  | full (cause : Nat)
  /-- The line is to be locked first (R337). -/
  | lock (line : Nat)

/-- Count the entries in TXSTAT (R327). -/
def State.countLogs (s : State) (t : Tx) : State :=
  s.setSr s.cur 0x050
    (setField (setField (s.sr 0x050) 23 17 t.reads.length) 16 11 (min 32 t.writes.length))

def State.setTx (s : State) (t : Tx) : State := (s.modMe fun c => { c with tx := some t }).countLogs t

/-- The value and poison of word w under its write-log entry: from the read log, else from memory (R316). -/
def Tx.base (t : Tx) (m : Memory) (w : Nat) : Nat × Bool :=
  match t.readOf w with
  | some e => (e.val.toNat, e.poison)
  | none => m.load (8 * w) 8

/-- The write log covers every byte of an access. -/
def Tx.covers (t : Tx) (pa size : Nat) : Bool :=
  (t.writeOf (wordOf pa)).any fun e => byteMask pa size &&& e.mask == byteMask pa size

/-- What a read of size bytes at pa returns (R316). -/
def Tx.look (t : Tx) (m : Memory) (pa size : Nat) : Nat × Bool :=
  let we := t.writeOf (wordOf pa)
  let base := t.base m (wordOf pa)
  let v := match we with
    | some e => mergeBytes base.1 e.val.toNat e.mask
    | none => base.1
  (v / 2 ^ (8 * (pa % 8)) % 2 ^ (8 * size),
    (!t.covers pa size && base.2) || we.any fun e => e.poison && byteMask pa size &&& e.mask != 0)

/-- R316: read size bytes at pa. The log entry is made unless the write log covers every byte. -/
def txReadAt (s : State) (t : Tx) (pa size : Nat) (sync : Bool) (va : Word) : TxOut :=
  let w := wordOf pa
  let base := t.base s.mem w
  let (out, bad) := t.look s.mem pa size
  if t.covers pa size || (t.readOf w).isSome then .ok s out bad
  else if s.irrevocable then .ok (s.setTx { t with acqs := setInsert t.acqs w }) out bad
  else if Config.readLogEntries ≤ t.reads.length then .full 3
  else
    .ok (s.setTx { t with reads := t.reads ++
      [{ word := w, val := w64 base.1, poison := base.2, sync := sync, va := va }] }) out bad

/-- R337: an entry goes to the spill area. Word 0 holds bits 55:3 of the address that the access used; the manual does
not say whether that one or the translated address stands there, and this is the model's choice. -/
def State.spillEntry (s : State) (t : Tx) (j : Nat) (e : LogEntry) : State :=
  let a := localPlace s.cur.b t.spill + 16 * j
  let m := (s.mem.write a 8 (e.mask * 2 ^ 56 + e.va.toNat / 8 * 8 % 2 ^ 56)).write (a + 8) 8 e.val.toNat
  (({ s with mem := (((m.setPoison a false).setPoison (a + 8) e.poison).setTags a none 16) } : State).wrote (lineOf a)).wrote
    (lineOf (a + 8))

/-- The places of the value words of the spilled entries. -/
def Tx.spillWords (t : Tx) (b : Nat) : List (Nat × LogEntry) :=
  ((List.range t.spilled.length).zip t.spilled).map fun x => (localPlace b t.spill + 16 * x.1 + 8, x.2)

/-- The spilled entries as a commit applies them: where something has written over the value of one, the entry's own value
or that one, drawn freely (R336). -/
def State.spilledNow (s : State) (p : Pos) (t : Tx) : List LogEntry :=
  ((List.range t.spilled.length).zip (t.spillWords p.b)).map fun x =>
    let v := s.keptWord x.2.1 x.1 (some (x.2.2.val.toNat, x.2.2.poison))
    { x.2.2 with val := w64 v.1, poison := v.2 }

/-- The state once they have been drawn. -/
def State.afterSpilled (s : State) (p : Pos) (t : Tx) : State :=
  s.afterKept t.spilled.length ((t.spillWords p.b).any fun x => s.overwritten x.1 (some (x.2.val.toNat, x.2.poison)))

/-- R315, R337: write size bytes at pa. -/
def txWriteAt (s : State) (t : Tx) (pa size v : Nat) (bad sync : Bool) (va : Word) : TxOut :=
  let w := wordOf pa
  let e : LogEntry := { word := w, val := w64 (v % 2 ^ (8 * size) * 2 ^ (8 * (pa % 8))), poison := bad
                        mask := byteMask pa size, sync := sync, va := va }
  if t.writes.any fun x => x.word == w then .ok (s.setTx { t with writes := mergeLog t.writes e }) 0 false
  else if t.writes.length < Config.writeLogEntries then .ok (s.setTx { t with writes := t.writes ++ [e] }) 0 false
  else if !s.irrevocable then .full 4
  else
    match t.spilled.findIdx? fun x => x.word == w with
    | some j =>
      let sp := mergeLog t.spilled e
      .ok ((s.setTx { t with spilled := sp }).spillEntry t j (sp.getD j e)) 0 false
    | none =>
      if t.spill = 0 || 4096 ≤ t.spilled.length then .full 4
      else .ok ((s.setTx { t with spilled := t.spilled ++ [e] }).spillEntry t t.spilled.length e) 0 false

/-- One transactional access: address, size, poison of the base; whether it reads and may write; what it
writes from the old value and its poison. -/
structure TxAcc where
  va : Word
  size : Nat
  bad : Bool := false
  rd : Bool := true
  w : Bool := false
  wr : Nat → Bool → Option (Nat × Bool) := fun _ _ => none

/-- Answer the one transaction of the executing thread. -/
def State.theTx (s : State) : Option Tx := s.me.tx

/-- The transaction has used the translation of an address (R341). -/
def State.noteUsed (s : State) (va : Word) : State :=
  match s.me.tx, s.cachedLeaf s.cur (s.basinOf s.cur.b) (field (s.sr 0x0A0) 63 48) va.toNat with
  | some t, some (e, _) => if t.used.contains e then s else s.modMe fun c => { c with tx := some { t with used := t.used ++ [e] } }
  | _, _ => s

/-- Perform one transactional access of a unit of a major (R315 to R319, R337, R457). -/
def txAccess (s : State) (major : Nat) (x : TxAcc) : TxOut :=
  let needs : Need := { r := x.rd, w := x.w }
  if bit x.va 55 then .stop (.next (s.txAbort 6 major))
  else match addressFault x.va x.size x.bad true with
    | some c => .stop (trappedAt s c x.va x.w)
    | none =>
      match s.translate s.cur x.va needs with
      | (s1, .fault c _) => .stop (trappedAt s1 c x.va needs.w)
      | (s1, .ask) => .stop (parked s1 .translation)
      | (s1, .poisoned) => .stop (.next (s1.contain (s1.basinOf s1.cur.b)))
      | (s1, .ok pa leaf) =>
        if isHost pa || zclBase ≤ pa then .stop (.next (s.txAbort 6 major))
        else if x.rd && !s1.lineOpen s1.cur { id := s1.nextId, seq := s1.me.seq, kind := .load false, va := x.va, pa := pa, size := x.size } then
          .stop (parked s .lock)
        else match (s1.noteUsed x.va).theTx with
          | none => .ok s1 0 false
          | some t =>
            if s1.irrevocable && !t.lines.contains (lineOf pa) then
              .lock (lineOf pa)
            else
              let r := if x.rd then txReadAt (s1.noteUsed x.va) t pa x.size (bit leaf 6) x.va
                else .ok (s1.noteUsed x.va) 0 false
              match r with
              | .stop z => .stop z
              | .full c => .full c
              | .lock l => .lock l
              | .ok s2 v bad =>
                match x.wr v bad, s2.theTx with
                | some (nv, np), some t2 =>
                  match txWriteAt s2 t2 pa x.size nv np (bit leaf 6) x.va with
                  | .ok s3 _ _ => .ok s3 v bad
                  | .stop z => .stop z
                  | .full c => .full c
                  | .lock l => .lock l
                | _, _ => .ok s2 v bad

/-- Among the accesses of a unit that are still to come, one meets a full read log. -/
def readLogFull (major : Nat) : List TxAcc → State → Bool
  | [], _ => false
  | x :: t, s =>
    match txAccess s major { x with wr := fun _ _ => none } with
    | .full _ => true
    | .ok s1 _ _ =>
      match txAccess s major x with
      | .ok s2 _ _ => readLogFull major t s2
      | _ => readLogFull major t s1
    | _ => false

/-- The accesses of a unit in order, from state s; a full read log comes before a full write log (R457). onFull answers when a log is full, onLock when the lock of a
line is needed first. -/
def txFrom (onFull onLock : Nat → Res) (major : Nat) : List TxAcc → State → (State → List (Nat × Bool) → Res) → Res
  | [], s, k => k s []
  | x :: t, s, k =>
    match txAccess s major x with
    | .stop r => r
    | .full c => onFull (if c != 3 && readLogFull major (x :: t) s then 3 else c)
    | .lock l => onLock l
    | .ok s1 v bad => txFrom onFull onLock major t s1 fun s2 vs => k s2 ((v, bad) :: vs)

/-- The place that the page table gives an address, whatever the access may do there. -/
def State.placeIn (s : State) (p : Pos) (va : Word) : Option Nat :=
  let w := s.srAt p 0x0A0
  let n := s.basinOf p.b
  if field va 63 56 != 0 then none
  else match s.via p n (field w 63 48) (field w 43 12) va.toNat with
  | .cached e _ =>
    let pa := e.pa + (va.toNat - e.va)
    some (if bit e.leaf 9 then hostAddr pa else pa)
  | .walked (.leaf leaf lvl) =>
    let pa := field leaf 51 12 * 2 ^ 12 + va.toNat % pageBytes lvl
    some (if bit leaf 9 then hostAddr pa else pa)
  | .walked (.fault _) => none
  | .walked .poisoned => none

/-- R318: the access lies in local store, in host memory or on a guest line of another package, whether or not it would
pass the checks of a load or store (R457). -/
def txIllegal (s : State) (x : TxAcc) : Bool :=
  bit x.va 55 || (s.placeIn s.cur x.va).any fun pa => isHost pa || decide (zclBase ≤ pa)

/-- What the accesses of a unit meet before any of them has an effect, in the order of R457: an illegal address, a
failed check of the lowest access, a failed translation of the lowest access. -/
def txRefused (s : State) (major : Nat) (xs : List TxAcc) : Option Res :=
  if xs.any (txIllegal s) then some (.next (s.txAbort 6 major))
  else match xs.findSome? fun x => (addressFault x.va x.size x.bad true).map fun c => (c, x.va, x.w) with
    | some (c, va, w) => some (trappedAt s c va w)
    | none => xs.findSome? fun x =>
        match (s.translate s.cur x.va { r := x.rd, w := x.w }).2 with
        | .fault c _ => some (trappedAt s c x.va x.w)
        | .ok _ _ => none
        | .ask => none
        | .poisoned => none

/-- The words that the logs would hold after further accesses, in order: those read and, with their bytes, those written
(R315). -/
structure LogWords where
  rd : List Nat
  wr : Table Nat

def LogWords.add (s : State) (l : LogWords) (x : TxAcc) : LogWords :=
  match s.placeIn s.cur x.va with
  | none => l
  | some pa =>
    let w := wordOf pa
    let m := byteMask pa x.size
    if x.w then { l with wr := l.wr.put w (l.wr.get 0 w ||| m) }
    else if m &&& l.wr.get 0 w == m || l.rd.contains w then l
    else { l with rd := l.rd ++ [w] }

/-- The log that a unit with these accesses would need more of than there is (R317, R337): the abort cause. -/
def State.fullLog (s : State) (xs : List TxAcc) : Option Nat :=
  match s.me.tx with
  | none => none
  | some t =>
    let l := xs.foldl (LogWords.add s)
      { rd := t.reads.map LogEntry.word, wr := (t.writes ++ t.spilled).foldl (fun k e => k.put e.word e.mask) [] }
    let spill := if s.irrevocable && t.spill != 0 then 4096 else 0
    if !s.irrevocable && Config.readLogEntries < l.rd.length then some 3
    else if Config.writeLogEntries + spill < l.wr.length then some 4
    else none

/-- The accesses of the executing unit, in order, once an earlier block instruction has ended; k gets the
values. A full log aborts with nothing of the unit done. A thread that needs the lock of a line
asks for it and is held until it is granted (R337). With a full replay queue the thread is held (R145). -/
def txAll (s : State) (major : Nat) (xs : List TxAcc) (k : State → List (Nat × Bool) → Res) : Res :=
  if s.me.block.isSome then parked s .engine
  else if s.cur.k != 15 && s.myRill.replayRoom == 0 then parked s .replayFull
  else match txRefused s major xs with
    | some r => r
    | none =>
      txFrom (fun c => .next (s.txAbort c 0))
        (fun l => .next (s.modMe fun c => { c with wait := some (.irrLock l s.cycle), held := some .lock })) major xs s k

end Sys2Proof.Machine
end

