-- ==== Sys2Proof/Machine/Mem.lean ====
section
/-! DEFINITION. Loads, stores, local-store short forms, cache maintenance and LOXM (R55, R147 to R156). -/

namespace Sys2Proof.Machine

/-! ### Types (R41) -/

def typeSize (t : Nat) : Nat := 2 ^ (t % 4)
def typeSigned (t : Nat) : Bool := decide (4 ≤ t)

/-- The bytes of a load as a register value. -/
def extend (sx : Bool) (size v : Nat) : Word := if sx then sext v (8 * size) else zext v (8 * size)

/-! ### Loads and stores -/

/-- A load of a general register (R147). -/
def loadAt (s : State) (major : Nat) (d : BitVec 5) (ea : Word) (bad : Bool) (t : Nat) (la : Option Nat) : Res :=
  let size := typeSize t
  if s.inTx then
    txAll s major [{ va := ea, size := size, bad := bad }] fun z vs =>
      match vs with
      | [(v, p)] => wrote z d (extend (typeSigned t) size v) p
      | _ => .next z
  else withAddress s ea size bad <|
    issueAll s [s.me.dest d] la
      [{ id := 0, seq := 0, kind := .load (typeSigned t), va := ea, size := size, dst := s.me.dest d }] id

/-- A store of size bytes (R148). -/
def storeAt (s : State) (major : Nat) (x : Cell) (ea : Word) (bad : Bool) (size : Nat) (la : Option Nat) : Res :=
  if s.inTx then
    txAll s major [{ va := ea, size := size, bad := bad, rd := false, w := true
                     wr := fun _ _ => some (x.val.toNat, x.poison) }] fun z _ => .next z.advance
  else withAddress (write := true) s ea size bad <|
    issueAll s [] la
      [{ id := 0, seq := 0, kind := .store, va := ea, size := size, data := x.val, poison := x.poison
         tag := s.me.relTag }] id

def execLd (d a : BitVec 5) (t : BitVec 3) (p : BitVec 8) (l : BitVec 4) (s : State) : Res :=
  withReg s a fun x => loadAt s 0x10 d (x.val + scaled p (typeSize t.toNat)) x.poison t.toNat (some l.toNat)
def execSt (d a : BitVec 5) (t : BitVec 2) (p : BitVec 8) (l : BitVec 4) (s : State) : Res :=
  withReg s d fun v => withReg s a fun x =>
    storeAt s 0x11 v (x.val + scaled p (typeSize t.toNat)) x.poison (typeSize t.toNat) (some l.toNat)
def execLdIndexed (d a b : BitVec 5) (sh : BitVec 2) (t : BitVec 3) (l : BitVec 4) (s : State) : Res :=
  withReg s a fun x => withReg s b fun y =>
    loadAt s 0x12 d (x.val + y.val <<< sh.toNat) (x.poison || y.poison) t.toNat (some l.toNat)
def execStIndexed (d a b : BitVec 5) (sh t : BitVec 2) (l : BitVec 4) (s : State) : Res :=
  withReg s d fun v => withReg s a fun x => withReg s b fun y =>
    storeAt s 0x12 v (x.val + y.val <<< sh.toNat) (x.poison || y.poison) (typeSize t.toNat) (some l.toNat)

/-- R151: the address of word k of the thread's local-store window. -/
def State.shortAddress (s : State) (k : Nat) : Word :=
  w64 (0x0080000000000000 + s.cur.r * 0x200000 + field (s.sr 0x098) 17 3 * 8 + 8 * k)

def execLdlH (d k : BitVec 5) (s : State) : Res :=
  outsideTx s 0x4B (loadAt s 0x4B d (s.shortAddress k.toNat) false 3 none)
def execStlH (d k : BitVec 5) (s : State) : Res :=
  withReg s d fun v => outsideTx s 0x4C (storeAt s 0x4C v (s.shortAddress k.toNat) false 8 none)

/-- LOXM (R55): a load of k words into the ox registers from n. Its own alignment check comes before those of R143,
but after an abort with ILLEGAL (R457). -/
def execLoxm (n : BitVec 3) (a : BitVec 5) (k : BitVec 3) (s : State) : Res :=
  withReg s a fun x =>
    let eas := (List.range (k.toNat + 1)).map fun i => x.val + w64 (8 * i)
    let elsewhere := s.inTx && (s.me.block.isSome || eas.any fun ea => txIllegal s { va := ea, size := 8 })
    if field x.val 2 0 != 0 && !elsewhere then trapped s 0x06 x.val
    else if s.inTx then
      txAll s 0x0D (eas.map fun ea => { va := ea, size := 8, bad := x.poison }) fun z vs =>
        .next ((z.modMe fun c => (List.range (k.toNat + 1)).foldl (fun c' i =>
          match vs[i]? with
          | some (v, p) => c'.setOx (n.toNat + i) (w64 v) p
          | none => c') c).advance)
    else
      match eas.findSome? fun ea => (addressFault ea 8 x.poison true).map fun c => (c, ea) with
      | some (c, ea) => trapped s c ea
      | none =>
        issueAll s ((List.range (k.toNat + 1)).map fun i => .ox (n.toNat + i)) (some 0)
          ((List.range (k.toNat + 1)).map fun i =>
            { id := 0, seq := 0, kind := .load false, va := x.val + w64 (8 * i), size := 8, elem := i
              dst := .ox (n.toNat + i), ext := [x.val, 0] }) id

/-! ### Cache maintenance (R155, R156) -/

/-- The address of a cache operation. -/
def lineAddress (x : Word) (p : BitVec 8) : Word := x + scaled p 64

/-- CPF and CPFW never trap, log or park: where a check, the translation or the operand fails, they have no
effect. CPFW takes a writable copy only where nothing waits in the queue of the line (R286), else a clean one: the model's
choice (log entry 148). -/
def prefetch (s : State) (a : BitVec 5) (p : BitVec 8) (own : Bool) : Res :=
  let x := s.me.reg a
  let ea := setField (lineAddress x.val p) 5 0 0
  if s.inTx || !x.full || bit ea 55 || (addressFault ea 64 x.poison false).isSome then .next s.advance
  else match s.translate s.cur ea { r := true } with
    | (_, .fault _ _) => .next s.advance
    | (_, .ask) => .next s.advance
    | (_, .poisoned) => .next (s.contain (s.basinOf s.cur.b))
    | (s1, .ok pa leaf) =>
      let line := lineOf pa
      if bit leaf 8 || s1.ownedLine line none || (s1.braid s.cur.b).cut then .next s1.advance
      else
        let s2 := s1.l1Read s.cur ea line (bit leaf 6)
        if own && !bit leaf 6 && s1.lockOf line == 0 && s1.queueClear line
            && !((s1.otherSharers s.cur.b line).any fun b => (s1.braid b).cut) && !s1.fanouts.any (fun f => f.line == line) then
          .next (s2.l1Own s.cur ea line (s2.l1Held s.cur.b line)).advance
        else .next s2.advance

def execCpf (a : BitVec 5) (p : BitVec 8) (_l : BitVec 4) (s : State) : Res := prefetch s a p false
def execCpfw (a : BitVec 5) (p : BitVec 8) (_l : BitVec 4) (s : State) : Res := prefetch s a p true

/-- CWB, CFLUSH and IINV: checks 1, 2 and 4; no effect on local store; logged like a load. -/
def cacheOp (s : State) (k : AccKind) (a : BitVec 5) (p : BitVec 8) (la : Nat) : Res :=
  outsideTx s 0x14 <| withReg s a fun x =>
    let ea := lineAddress x.val p
    match addressFault ea 1 x.poison false with
    | some c => trapped s c ea
    | none =>
      if bit ea 55 then .next s.advance
      else issueAll s [] (some la) [{ id := 0, seq := 0, kind := k, va := setField ea 5 0 0, size := 64 }] id

def execCwb (a : BitVec 5) (p : BitVec 8) (l : BitVec 4) (s : State) : Res := cacheOp s .cwb a p l.toNat
def execCflush (a : BitVec 5) (p : BitVec 8) (l : BitVec 4) (s : State) : Res := cacheOp s .cflush a p l.toNat
def execIinv (r : BitVec 2) (a : BitVec 5) (p : BitVec 8) (l : BitVec 4) (s : State) : Res :=
  cacheOp s (.iinv r.toNat) a p l.toNat

/-- CZERO: a store of 64 zero bytes. -/
def execCzero (a : BitVec 5) (p : BitVec 8) (l : BitVec 4) (s : State) : Res :=
  withReg s a fun x =>
    let ea := lineAddress x.val p
    let line := setField ea 5 0 0
    if s.inTx then
      match (if s.me.block.isSome || txIllegal s { va := ea, size := 1 } then none else addressFault ea 1 x.poison false) with
      | some c => trappedAt s c ea true
      | none => txAll s 0x14 ((List.range 8).map fun i =>
        { va := line + w64 (8 * i), size := 8, bad := x.poison, rd := false, w := true
          wr := fun _ _ => some (0, false) }) fun z _ => .next z.advance
    else
      match addressFault ea 1 x.poison false with
      | some c => trappedAt s c ea true
      | none => issueAll s [] (some l.toNat)
          [{ id := 0, seq := 0, kind := .czero, va := line, size := 64, tag := s.me.relTag }] id

end Sys2Proof.Machine
end

