-- ==== Sys2Proof/Machine/Order.lean ====
section
/-! DEFINITION. Fences, LDA, STREL, widening and scope misses (R183 to R193). -/

namespace Sys2Proof.Machine

/-! ### Fences (R188 to R190) -/

/-- A fence that completes once every earlier access that f selects is complete; f1 is what it leaves in the
thread. -/
def fence (s : State) (f : AccKind → Bool) (f1 : Ctx → Ctx) : Res :=
  if s.inTx then .next s.advance
  else if s.doneBefore s.cur s.me.seq f && s.edgesDone s.cur s.nextId f then .next ((s.modMe f1).advance)
  else parked s .order

/-- Later engine commands of the thread come after what its stores have written (R177). -/
def Ctx.xpOrdered (c : Ctx) : Ctx := { c with older := [] }

/-- R164: later plain writes carry the tag of the most recent FENCE or FENCE.REL. One at .bs or wider orders engine commands
(R177). -/
def Ctx.released (scope : Nat) (c : Ctx) : Ctx :=
  { c with relTag := some scope, older := if 3 ≤ scope then [] else c.older }

def execFence (sx : BitVec 3) (s : State) : Res := fence s (fun _ => true) (Ctx.released sx.toNat)
def execFenceAcq (_sx : BitVec 3) (s : State) : Res := fence s AccKind.reads id
def execFenceRel (sx : BitVec 3) (s : State) : Res := fence s (fun _ => true) (Ctx.released sx.toNat)
def execFenceXp (s : State) : Res := fence s AccKind.writes Ctx.xpOrdered

/-! ### LDA and STREL (R191, R192) -/

/-- LDA. In a transaction it is a transactional load; the manual states no status there, so that a predicate
receives a value that nothing constrains. -/
def execLda (d a : BitVec 5) (q t : BitVec 3) (x : BitVec 1) (sx : BitVec 3) (s : State) : Res :=
  withReg s a fun y =>
    let size := typeSize t.toNat
    if s.inTx then
      txAll s 0x15 [{ va := y.val, size := size, bad := y.poison }] fun z vs =>
        match vs with
        | [(v, p)] =>
          let z1 : State := if x = 1 then
              ({ z with free := z.free + 1 } : State).modMe fun c => c.setPred q (bit (Config.freeWord z.free) 0) false
            else z
          wrote z1 d (extend (typeSigned t.toNat) size v) p
        | _ => .next z
    else withAddress s y.val size y.poison <|
      let qs := if x = 1 then some q.toNat else none
      issueAll s (s.me.dest d :: (qs.toList.map Dest.q)) none
        [{ id := 0, seq := 0, kind := .lda (typeSigned t.toNat) sx.toNat qs, va := y.val, size := size, dst := s.me.dest d }]
        fun c => { c with wait := some (.access c.seq) }

def execStrel (d a : BitVec 5) (t : BitVec 2) (sx : BitVec 3) (s : State) : Res :=
  withReg s d fun v => withReg s a fun y =>
    let size := typeSize t.toNat
    if s.inTx then storeAt s 0x15 v y.val y.poison size none
    else withAddress (write := true) s y.val size y.poison <|
      if !s.releases then parked s .order
      else issueAll s [] none
        [{ id := 0, seq := 0, kind := .strel sx.toNat, va := y.val, size := size, data := v.val, poison := v.poison
           tag := some sx.toNat }]
        fun c => { c with wait := some (.access c.seq) }

/-! ### Widening (R185, R193) -/

/-- Change the tags on n bytes. -/
def Memory.mapTags (m : Memory) (a n : Nat) (f : Tag → Tag) : Memory :=
  { m with tags := m.tags.update fun i t => if a ≤ i ∧ i < a + n then f t else t }

/-- The tags of context k of a rill on a word, narrower than scope, get that scope. -/
def State.widen (s : State) (p : Pos) (pa scope : Nat) : State :=
  { s with mem := s.mem.mapTags (8 * wordOf pa) 8 fun t =>
      if t.rill = rillKey p.b p.r ∧ t.ctx = p.k ∧ t.scope < scope then { t with scope := scope } else t }

def execFenceRelWiden (a b : BitVec 5) (sx : BitVec 3) (s : State) : Res :=
  outsideTx s 0x15 <| supervisorOnly s <|
    withReg s a fun x => withReg s b fun y =>
      if y.poison && !x.poison then trapped s 0x0C y.val
      else withAddress s x.val 8 x.poison <|
        let p : Pos := { s.cur with k := field y.val 3 0 }
        if bit x.val 55 then .next ((s.widen p (localPlace s.cur.b x.val) sx.toNat).advance)
        else match s.translate p x.val { r := true } with
          | (s1, .ok pa _) => .next ((s1.widen p pa sx.toNat).advance)
          | (s1, .fault _ _) => .next s1.advance
          | (s1, .ask) => parked s1 .translation
          | (s1, .poisoned) => .next (s1.contain (s1.basinOf s1.cur.b))

/-- HBM_WRITEBACK (R185): the releases of the line become releases at .sy and their tags are dropped. -/
def execHbmWriteback (line : Nat) (s : State) : Res :=
  if 64 * line < hbmTop then .next { s with mem := s.mem.setTags (64 * line) none 64 } else .next s

/-- SCOPE_MISS_NOTIFICATION (R184): notification n reaches its rill, unless eight wait there. -/
def execScopeMissNotification (n : Nat) (s : State) : Res :=
  match s.misses[n]? with
  | none => .next s
  | some (rl, va, k, scope) =>
    let b := rl / 8
    let r := rl % 8
    let waiting := (s.rill b r).events.filter fun e => e.cause == 0x23
    let rest := { s with misses := s.misses.eraseIdx n }
    if waiting.any fun e => e.val == va && field e.xstat 3 0 == k then .next rest
    else if 8 ≤ waiting.length then .next s
    else .next (rest.post b r
      { cls := 4, cause := 0x23, val := va, xstat := xstat 4 0 0 0 scope k false, rank := 0 })

end Sys2Proof.Machine
end

