-- ==== Sys2Proof/Machine/Block.lean ====
section
/-! DEFINITION. Block instructions (R157 to R160). -/

namespace Sys2Proof.Machine

/-! ### The elements (R158) -/

/-- The element that a block instruction reads, and the one that it writes. -/
def Block.source (x : Block) : Option Word :=
  match x.op with
  | 0 => some x.b
  | 1 => some (x.b + (x.n - 1) * w64 (2 ^ x.esize))
  | 2 => none
  | _ => some x.a
def Block.target (x : Block) : Option Word :=
  match x.op with
  | 0 => some x.a
  | 1 => some (x.a + (x.n - 1) * w64 (2 ^ x.esize))
  | 2 => some x.a
  | _ => none

/-- The fill value or the key: register b as the loop reads it, which may be the pointer or the count (R157). -/
def Block.key (x : Block) : Word := if x.bd = x.ad then x.a else if x.bd = x.nd then x.n else x.b

/-- The registers after an element; none: BSCAN has found its element. -/
def Block.after (x : Block) (v : Nat) : Option Block :=
  let e := w64 (2 ^ x.esize)
  let eq := v == x.key.toNat % 2 ^ (8 * 2 ^ x.esize)
  match x.op with
  | 0 => some { x with a := x.a + e, b := x.b + e, n := x.n - 1 }
  | 1 => some { x with n := x.n - 1 }
  | 2 => some { x with a := x.a + e, n := x.n - 1 }
  | 3 => if eq then none else some { x with a := x.a + e, n := x.n - 1 }
  | _ => if eq then some { x with a := x.a + e, n := x.n - 1 } else none

/-- The accesses of one element. -/
def Block.accesses (x : Block) : List TxAcc :=
  let size := 2 ^ x.esize
  (x.source.toList.map fun ea => { va := ea, size := size })
    ++ x.target.toList.map fun ea => { va := ea, size := size, rd := false, w := true }

/-- What a scan in a transaction reads at its pointer: value and poison (R316); none where it has no place there. -/
def State.scanned (s : State) (x : Block) : Option (Nat × Bool) :=
  match s.me.tx, s.placeIn s.cur x.a with
  | some t, some pa => if x.accesses.any (txIllegal s) then none else some (t.look s.mem pa (2 ^ x.esize))
  | _, _ => none

/-- The elements that a block instruction comes to in a transaction, each with its registers: a scan goes no further than the
element that it stops at. -/
def State.elements (s : State) : Nat → Block → List Block
  | 0, _ => []
  | k + 1, x =>
    let next := if x.op < 3 then x.after 0 else match s.scanned x with
      | some (v, false) => x.after v
      | _ => none
    x :: match next with
      | some y => s.elements k y
      | none => []

/-- R318: an element of a block instruction lies where a transaction may not go. -/
def State.blockIllegal (s : State) (x : Block) : Bool :=
  s.inTx && (s.elements x.n.toNat x).any fun y => y.accesses.any (txIllegal s)

/-- What a block instruction meets in a transaction before it has any effect, in the order of R457: an illegal element; in a
revocable transaction the trap of an element; a full log (R317). In an irrevocable one the elements before a trap are done
(R160). -/
def blockRefused (s : State) (x : Block) : Option Res :=
  let ys := s.elements x.n.toNat x
  let trap (y : Block) : Option Res := match txRefused s 0x13 y.accesses, s.scanned y with
    | some r, _ => some r
    | none, some (_, true) => if 3 ≤ y.op then some (trapped s 0x0C y.a) else none
    | none, _ => none
  let full (zs : List Block) : Option Res := (s.fullLog (zs.flatMap Block.accesses)).map fun c => .next (s.txAbort c 0)
  if ys.any fun y => y.accesses.any (txIllegal s) then some (.next (s.txAbort 6 0x13))
  else if s.irrevocable then full (ys.takeWhile fun y => (trap y).isNone)
  else match ys.findSome? trap with
    | some r => some r
    | none => full ys

/-! ### Issue -/

/-- The registers that a block instruction writes (R157). -/
def Block.dests (x : Block) : List Dest :=
  [x.nd] ++ (if x.op = 1 then [] else [x.ad]) ++ (if x.op = 0 then [x.bd] else [])

/-- A block instruction runs, or waits for those before it (R50: no unit waits for one with lookahead 15). -/
def Ctx.addBlock (c : Ctx) (x : Block) : Ctx :=
  match c.block with
  | none => { c with block := some x }
  | some _ => { c with more := c.more ++ [x] }

/-- The block instruction that the executing unit is, with its registers as they stand. -/
def State.newBlock (s : State) (op : Nat) (n a b : BitVec 5) (e : BitVec 2) : Block :=
  { id := s.nextId, seq := s.me.seq, op := op, esize := e.toNat, nd := s.me.dest n, ad := s.me.dest a, bd := s.me.dest b
    n := (s.me.reg n).val, a := (s.me.reg a).val, b := (s.me.reg b).val, bPoison := (s.me.reg b).poison
    pc := s.upc, len := s.ulen, within := s.me.las.map Window.seq }

/-- The start of a block instruction: the checks of R158, and the rill's block unit takes it. In a transaction an illegal
element comes before them (R457). -/
def startBlock (s : State) (op : Nat) (n a b : BitVec 5) (e : BitVec 2) (la : BitVec 4) : Res :=
  withReg s a fun x => withReg s b fun y => withReg s n fun z =>
    let size := 2 ^ e.toNat
    let blk := s.newBlock op n a b e
    if s.blockIllegal blk then .next (s.txAbort 6 0x13)
    else if z.poison || x.poison || (op != 2 && y.poison) then trapped s 0x0C x.val
    else if x.val.toNat % size != 0 then trapped s 0x06 x.val
    else if op ≤ 1 && y.val.toNat % size != 0 then trapped s 0x06 y.val
    else if z.val = 0 then .next s.advance
    else if s.cur.k != 15 && s.myRill.replayRoom == 0 then parked s .replayFull
    else
      .next ((({ s with nextId := s.nextId + 1 } : State).modMe fun c =>
        ((blk.dests.foldl (fun t d => t.setEmpty d s.nextId) c).openLa la.toNat).addBlock blk).advance)

def execBmov (n a b : BitVec 5) (e : BitVec 2) (l : BitVec 4) (s : State) : Res := startBlock s 0 n a b e l
def execBmovd (n a b : BitVec 5) (e : BitVec 2) (l : BitVec 4) (s : State) : Res := startBlock s 1 n a b e l
def execBfill (n a b : BitVec 5) (e : BitVec 2) (l : BitVec 4) (s : State) : Res := startBlock s 2 n a b e l
def execBscanEq (n a b : BitVec 5) (e : BitVec 2) (l : BitVec 4) (s : State) : Res := startBlock s 3 n a b e l
def execBscanNe (n a b : BitVec 5) (e : BitVec 2) (l : BitVec 4) (s : State) : Res := startBlock s 4 n a b e l

/-! ### One element (R158) -/

/-- The thread waits for nothing that its restart at the block instruction would not ask for again. -/
def State.dropWait (s : State) (p : Pos) : State :=
  (s.withdrawFuse p).modCtx p fun c => match c.wait with
    | some (.access _) => c
    | _ => { c with wait := none }

/-- An element fault (R159): the registers hold their values at the element boundary, and a capture that the block stands
in is discarded. -/
def State.blockFault (s : State) (x : Block) (cause : Nat) (ea : Word) (write : Bool) : State :=
  (((s.dropWait s.cur).dropGate x.id).modMe fun c => c.endBlocks.dropCapture (s.loggedOf s.cur)).trapAs cause ea x.len x.pc write

/-- The thread has an entry for the line of an address that is still to be performed: in the queue, or sent by REPLAY and
in flight (R145). -/
def State.entryOn (s : State) (p : Pos) (ea : Word) : Bool :=
  s.pendingLine p ea || (s.ctx p).flights.any fun a => a.replayed && lineOf a.va.toNat == lineOf ea.toNat

/-- The instruction goes on with x, or ends. -/
def State.blockNext (s : State) (x : Block) (next : Option Block) : State :=
  s.modMe fun c => match next with
    | some y => if y.n = 0 then c.endBlock y else { c with block := some { y with fresh := false } }
    | none => c.endBlock x

/-- One element access: the place and whether the page is non-cacheable or S, when it may be performed. -/
def withElement (s : State) (x : Block) (ea : Word) (write : Bool) (k : State → Access → State) : State :=
  let size := 2 ^ x.esize
  let p := s.cur
  match addressFault ea size false true with
  | some c => s.blockFault x c ea write
  | none =>
    let acc : Access := { id := x.id, seq := x.seq, kind := if write then .store else .load false, va := ea, size := size
                          tag := if write then s.me.relTag else none, within := x.within }
    if s.entryOn p ea then s
    else if bit ea 55 then
      let a := { acc with pa := localPlace p.b ea }
      if s.mayPerform p a then k s a else s
    else match s.translate p ea { r := !write, w := write } with
      | (s1, .fault c _) => s1.blockFault x c ea write
      | (s1, .ask) => s1
      | (s1, .poisoned) => s1.contain (s1.basinOf p.b)
      | (s1, .ok pa leaf) =>
        let a := { acc with pa := pa, sync := bit leaf 6, nc := bit leaf 8 }
        if s1.mayPerform p a then k s1 a else s1

/-- Read an element. -/
def State.readElement (s : State) (a : Access) : State × Nat × Bool :=
  let (v, bad) := s.mem.load a.pa a.size
  (s.cached s.cur a, v, bad)

/-- The write of an element, once its fan-out is complete (R309), and the end of the step. -/
def State.putElement (s : State) (x : Block) (v : Nat) (bad : Bool) : State :=
  match x.target with
  | none => s.blockNext x (x.after v)
  | some ea => withElement s x ea true fun s1 a =>
      match s1.gateInLine s1.cur x.id x.seq [lineOf a.pa] with
      | (s2, true) => ((s2.storeEffect s2.cur { a with data := w64 v, poison := bad }).blockNext x (x.after v)).scan a.pa
      | (s2, false) => s2

/-- One element outside a transaction. -/
def State.plainElement (s : State) (x : Block) : State :=
  match x.source with
  | none => s.putElement x x.key.toNat x.bPoison
  | some ea => withElement s x ea false fun s1 a =>
    let (s2, v, bad) := s1.readElement a
    if 3 ≤ x.op && bad then s2.blockFault x 0x0C x.a false
    else s2.putElement x v bad

/-- One element inside a transaction (R160): it is logged and buffered; before the first, what the whole instruction meets
is judged (R317, R457). A fault aborts or traps with the registers at the element boundary. -/
def txElement (s : State) (x : Block) : Res :=
  let c0 := s.me
  let size := 2 ^ x.esize
  let wait (l : Nat) : Res := .next (s.modMe fun c => { c with wait := some (.irrLock l s.cycle) })
  let full (c : Nat) : Res := .next (s.txAbort c 0)
  let back (z : State) (next : Option Block) : Res :=
    .next ((z.modMe fun c => { c with g := c0.g, win := c0.win, las := c0.las, block := c0.block, more := c0.more }).blockNext x next)
  let put (z : State) (v : Nat) (bad : Bool) : Res :=
    match x.target with
    | none => if bad then trapped z 0x0C x.a else back z (x.after v)
    | some ea => txFrom full wait 0x13 [{ va := ea, size := size, rd := false, w := true, wr := fun _ _ => some (v, bad) }] z
        fun z1 _ => back z1 (x.after v)
  let s0 := s.modMe Ctx.endBlocks
  if s.readsLocked s.cur then .next s
  else match (if x.fresh then blockRefused s0 x else txRefused s0 0x13 x.accesses) with
  | some r => r
  | none => match x.source with
  | none => put s0 x.key.toNat x.bPoison
  | some ea => txFrom full wait 0x13 [{ va := ea, size := size }] s0 fun z vs =>
    match vs with
    | [(v, bad)] => put z v bad
    | _ => .next s

/-- One element of the block instruction of p. -/
def elementOf (s : State) (p : Pos) (x : Block) : Res :=
  let s1 := { s with cur := p, upc := x.pc, ipc := x.pc, ulen := x.len }
  let r := if s1.inTx then
      (if s1.me.wait.isSome then .next s else txElement s1 x)
    else .next (s1.plainElement x)
  match r with
  | .next s2 => .next (s2.leaveGroup p)
  | .fault f => .fault f
  | .refused f => .refused f

/-- BLOCK_ELEMENT (R160): the next running block instruction in ascending context order. -/
def execBlockElement (b r : Nat) (s : State) : Res :=
  let from' := (s.rill b r).bNext
  let k? := (List.range 16).find? fun i =>
    let c := s.ctx ⟨b, r, (from' + i) % 16⟩
    (c.run == .running || c.run == .paused) && c.block.isSome
  match k? with
  | none => .next s
  | some i =>
    let k := (from' + i) % 16
    let s1 := s.modRill b r fun y => { y with bNext := (k + 1) % 16 }
    match (s1.ctx ⟨b, r, k⟩).block with
    | some x => elementOf s1 ⟨b, r, k⟩ x
    | none => .next s1

end Sys2Proof.Machine
end

