-- ==== Sys2Proof/Machine/Deque.lean ====
section
/-! DEFINITION. Task deques: pushes, pops, steals and the spill area (R355 to R359). -/

namespace Sys2Proof.Machine

/-! ### Rills of a basin (R17, R20, R21) -/

/-- A braid takes part in a basin. -/
def Braid.inBasin (x : Braid) (n : Nat) : Bool := x.gran.basin == n && (x.gran.state == .owned || x.gran.state == .leaving)

/-- The braids of a basin as (basin braid index, braid), in no order of meaning. -/
def State.braidsOf (s : State) (n : Nat) : List (Nat × Nat) :=
  (s.braids.filter fun e => e.2.inBasin n).map fun e => (e.2.index, e.1)

/-- The rill with a basin-relative logical number. -/
def State.rillOf (s : State) (n num : Nat) : Option (Nat × Nat) :=
  ((s.braidsOf n).find? fun e => e.1 == num / 8).map fun e => (e.2, num % 8)

/-- The rill of a basin with the lowest number. -/
def State.lowestRill (s : State) (n : Nat) : Option (Nat × Nat) :=
  match s.braidsOf n with
  | [] => none
  | e :: t => some ((t.foldl (fun m x => if x.1 < m.1 then x else m) e).2, 0)

/-- R413: during a resize, a push or probe that reaches a braid after its state has moved goes on to the destination. -/
def State.dequeOf (s : State) (b : Nat) : Nat :=
  match (s.braid b).movedTo with
  | some d => if (s.basin (s.basinOf b)).resize.isSome && (s.braid d).inBasin (s.basinOf b) then d else b
  | none => b

/-- The deque that a push for logical rill r of braid b reaches: once the braid is SCRUBBING, the one of R294's fallback
(R413). -/
def State.dequeAt (s : State) (b r : Nat) : Nat × Nat :=
  if (s.braid b).gran.state == .scrubbing then match s.lowestRill (s.basinOf b) with
    | some e => (s.dequeOf e.1, e.2)
    | none => (b, r)
  else (s.dequeOf b, r)

/-- The rills whose contexts push on the deque of a rill. -/
def State.feeders (s : State) (b r : Nat) : List (Nat × Nat) :=
  ((b :: (s.braids.map Prod.fst).filter fun c => c != b).flatMap fun c => (List.range 8).map fun q => (c, q)).filter fun e =>
    s.dequeAt e.1 e.2 == (b, r)

/-! ### The deque (R355) -/

abbrev TaskRec := List (Word × Bool)

/-- CAP of DQSPILL. -/
def State.dqCap (s : State) (b r : Nat) : Nat := field (s.rillSr b r 0x122) 43 32

/-- The place of spilled entry i, counted from the oldest. -/
def State.spillPlace (s : State) (b r i : Nat) : Nat :=
  let v := s.rillSr b r 0x122
  lsAddr b r (field v 17 5 * 32 + 32 * (((s.rill b r).spillHead + i) % max 1 (field v 43 32)))

/-- The deque unit of a rill spills a record to a. -/
def State.storeTask (s : State) (b r a : Nat) (t : TaskRec) : State :=
  let m := ((List.range 4).zip t).foldl (fun m x => m.store (a + 8 * x.1) 8 x.2.1.toNat x.2.2) s.mem
  (({ s with mem := m.setTags a none 32 }).wrote (lineOf a)).modRill b r fun x => { x with
    dqFrames := ((List.range 4).zip t).foldl (fun u (y : Nat × Word × Bool) =>
      u.put (frameKey (a + 8 * y.1)) (y.2.1.toNat, y.2.2)) x.dqFrames }

/-- What the unit has spilled to word a. -/
def State.taskKept (s : State) (b r a : Nat) : Option (Nat × Bool) := (s.rill b r).dqFrames.find (frameKey a)

/-- The record at a: each word as it was spilled or as something else has written it since, drawn freely from draw i on
(R355). -/
def State.loadTask (s : State) (b r a : Nat) (i : Nat := 0) : TaskRec :=
  (List.range 4).map fun j => let x := s.keptWord (a + 8 * j) (i + j) (s.taskKept b r (a + 8 * j)); (w64 x.1, x.2)

/-- The state once n records from a list of places have been loaded. -/
def State.loadedTasks (s : State) (b r : Nat) (as : List Nat) : State :=
  (s.afterKept (4 * as.length)
    (as.any fun a => (List.range 4).any fun j => s.overwritten (a + 8 * j) (s.taskKept b r (a + 8 * j)))).modRill b r fun x =>
      { x with dqFrames := as.foldl (fun t a => (List.range 4).foldl (fun u j => u.drop (frameKey (a + 8 * j))) t) x.dqFrames }

/-- Entries of a deque. -/
def Rill.tasks (x : Rill) : Nat := x.deque.length + x.spilled

/-- A push at the bottom: the oldest of 16 entries in hardware goes to the spill area. -/
def State.push (s : State) (b r : Nat) (t : TaskRec) : State :=
  let x := s.rill b r
  match x.deque with
  | old :: rest =>
    if x.deque.length < 16 then s.modRill b r fun y => { y with deque := y.deque ++ [t] }
    else (s.storeTask b r (s.spillPlace b r x.spilled) old).modRill b r fun y =>
      { y with deque := rest ++ [t], spilled := y.spilled + 1 }
  | [] => s.modRill b r fun y => { y with deque := [t] }

/-- The bottom entry is removed; the newest spilled one comes back to hardware. -/
def State.popBottom (s : State) (b r : Nat) : Option (TaskRec × State) :=
  let x := s.rill b r
  match x.deque.getLast? with
  | none => none
  | some t =>
    let rest := x.deque.dropLast
    let a := s.spillPlace b r (x.spilled - 1)
    some (t, if x.spilled = 0 then s.modRill b r fun y => { y with deque := rest }
      else (s.loadedTasks b r [a]).modRill b r fun y =>
        { y with deque := s.loadTask b r a :: rest, spilled := y.spilled - 1 })

/-- The top entry is removed. -/
def State.popTop (s : State) (b r : Nat) : Option (TaskRec × State) :=
  let x := s.rill b r
  if x.spilled != 0 then
    let a := s.spillPlace b r 0
    some (s.loadTask b r a, (s.loadedTasks b r [a]).modRill b r fun y =>
      { y with spilled := y.spilled - 1, spillHead := (y.spillHead + 1) % max 1 (s.dqCap b r) })
  else match x.deque with
    | [] => none
    | t :: rest => some (t, s.modRill b r fun y => { y with deque := rest })

/-- Pushes of SPAWN that have reserved their room: those whose increment is still to come, and those to be
entered. -/
def State.dqReserved (s : State) (b r : Nat) : Nat :=
  let isJoin (a : Access) : Bool := a.kind == AccKind.joinInc
  let joins (e : Nat × Nat) : Nat :=
    sumOf ((List.range 16).map fun k => ((s.ctx ⟨e.1, e.2, k⟩).flights.filter isJoin).length)
      + ((s.rill e.1 e.2).replay.filter fun e => e.2.accs.any isJoin).length
  sumOf ((s.feeders b r).map joins) + ((s.rill b r).dqWait.filter fun w => w.src.isSome).length

/-- Room that is neither used nor reserved. -/
def State.dqRoom (s : State) (b r : Nat) : Nat := 16 + s.dqCap b r - ((s.rill b r).tasks + s.dqReserved b r)

/-- Rill cycles in which the pushes arrived that have no room yet: updates of RUPD.ADDZ and held SPAWNs. -/
def State.dqArrivals (s : State) (b r : Nat) : List Nat :=
  ((s.rill b r).dqWait.filter fun w => w.src.isNone).map (fun w => w.since)
    ++ (s.feeders b r).flatMap fun x => (List.range 16).filterMap fun k =>
      let c := s.ctx ⟨x.1, x.2, k⟩
      if c.held == some .room && c.triedAt != 0 then some (c.triedAt - 1) else none

/-- Pushes that wait for room and arrived before a rill cycle. -/
def State.dqEarlier (s : State) (b r t : Nat) : Nat := ((s.dqArrivals b r).filter fun u => decide (u < t)).length

/-- A push waits for room: those that arrived before it take all there is. -/
def State.dqWaiting (s : State) (b r : Nat) : Bool :=
  (s.dqArrivals b r).any fun t => decide (s.dqRoom b r ≤ s.dqEarlier b r t)

/-- A record is delivered to s and the ox block of a TAKE or SYNCJ. -/
def State.fillTake (s : State) (p : Pos) (t : TakeOp) (code : Nat) (rec : TaskRec) : State :=
  s.modCtx p fun c =>
    ((List.range 4).foldl (fun c' i =>
        let (v, bad) := rec.getD i (0, false)
        c'.fill (.ox (t.ox + i)) t.id v bad) c).fill t.s t.id (w64 code) false

def State.dropTake (s : State) (p : Pos) (t : TakeOp) : State :=
  s.modRill p.b p.r fun x => { x with takes := x.takes.erase t }

/-- A pop of the own deque (R357, R359). -/
def State.popFor (s : State) (p : Pos) (t : TakeOp) : State :=
  match s.popBottom p.b p.r with
  | some (rec, s1) => (s1.fillTake p t (if t.kind = 2 then 1 else 0) rec).dropTake p t
  | none =>
    if t.kind = 0 then
      s.modRill p.b p.r fun x => { x with takes := x.takes.map fun y => if y == t then { t with probe := 1 } else y }
    else (s.fillTake p t 2 []).dropTake p t

/-- A waiting push is entered, and what waits for it goes on. -/
def State.enterPush (s : State) (b r : Nat) (w : DqPush) : State :=
  let s1 := (s.push b r w.task).modRill b r fun x => { x with dqWait := x.dqWait.erase w }
  let s2 := match w.src with
    | some (p, seq) => s1.modCtx p fun c => { c with las := c.las.filter fun l => l.seq != seq }
    | none => s1
  match w.cc with
  | some (p, m) => s2.lowerCc p.b p.r m
  | none => s2

/-! ### Steals (R358) -/

/-- The rill of a braid with the deepest deque. -/
def State.deepest (s : State) (b : Nat) : Nat :=
  (List.range 8).foldl (fun m r => if (s.rill b m).tasks < (s.rill b r).tasks then r else m) 0

def State.workBit (s : State) (b : Nat) : Bool := (List.range 8).any fun r => (s.rill b r).tasks != 0

/-- The next braid of a level after a distance from the own index: distance and braid. -/
def State.nextVictim (s : State) (b level d : Nat) : Option (Nat × Nat) :=
  let own := (s.braid b).index
  let cands := ((s.braidsOf (s.basinOf b)).filter fun e =>
      e.2 != b && ((dieOf e.2 == dieOf b) == (level == 0)) && s.workBit e.2).map
    fun e => ((e.1 + 512 - own) % 512, e.2)
  (cands.filter fun e => decide (d < e.1)).foldl (fun o e =>
    match o with
    | some m => if e.1 < m.1 then some e else o
    | none => some e) none

/-- The rill that a thief probes next (R413 forwards the probe of a rill whose state has moved, unless its braid is
SCRUBBING), and the number of the probe after it; none: it gives up. -/
def State.probeOf (s : State) (b r probe : Nat) : Option (Nat × Nat × Nat) :=
  if probe < 8 then
    some (if (s.braid b).gran.state == .scrubbing then b else s.dequeOf b, (r + probe) % 8, if probe = 7 then 8 else probe + 1)
  else
    let n := probe - 8
    let level := n / 4096
    let tries := n / 512 % 8
    let go (level tries d : Nat) : Option (Nat × Nat × Nat) :=
      if tries < 4 then (s.nextVictim b level d).map fun e => (e.2, s.deepest e.2, 8 + level * 4096 + (tries + 1) * 512 + e.1)
      else none
    match go level tries (n % 512) with
    | some x => some x
    | none => if level = 0 then go 1 0 0 else none

/-- The thieves of the package: position, operation and the rill probed. -/
def State.thieves (s : State) : List (Pos × TakeOp) :=
  s.rills.flatMap fun e => (e.2.takes.filter fun t => t.probe != 0).map fun t =>
    (({ b := e.1 / 8, r := e.1 % 8, k := t.k } : Pos), t)

/-- A thief of its basin probes a rill next. -/
def State.probed (s : State) (b r : Nat) : Bool :=
  s.thieves.any fun q => s.basinOf q.1.b == s.basinOf b
    && (s.probeOf q.1.b q.1.r q.2.probe).any fun v => v.1 == b && v.2.1 == r

/-- The pushes that wait for room at a rill follow the fallback once its braid is SCRUBBING (R413). -/
def State.forwardPushes (s : State) (b r : Nat) : State :=
  let dq := s.dequeAt b r
  let x := s.rill b r
  if (s.braid b).gran.state == .scrubbing && !x.dqWait.isEmpty && dq != (b, r) then
    (s.modRill b r fun y => { y with dqWait := [] }).modRill dq.1 dq.2 fun y => { y with dqWait := y.dqWait ++ x.dqWait }
  else s

/-- DEQUE_OPERATION (R355): a pop by the rill's own contexts, lowest first; steals come next; or else a push that has
room. -/
def execDequeOperation (b r : Nat) (s0 : State) : Res :=
  let s := s0.forwardPushes b r
  let x := s.rill b r
  let pops := x.takes.filter fun t => t.probe == 0
  match (List.range 16).findSome? fun k => pops.find? fun t => t.k == k with
  | some t => .next (s.popFor ⟨b, r, t.k⟩ t)
  | none =>
    if s.probed b r then .next s
    else match x.dqWait.find? fun w => w.src.isSome || decide (s.dqEarlier b r w.since < s.dqRoom b r) with
    | some w => .next (s.enterPush b r w)
    | none => .next s

/-- STEAL_PROBE (R358): the thief of a rill with the lowest context makes its next probe; a victim takes its own
pops first, then the thief with the lowest identifier. -/
def execStealProbe (b r : Nat) (s : State) : Res :=
  let mine := (s.rill b r).takes.filter fun t => t.probe != 0
  match (List.range 16).findSome? fun k => mine.find? fun t => t.k == k with
  | none => .next s
  | some t =>
    let p : Pos := ⟨b, r, t.k⟩
    match s.probeOf b r t.probe with
    | none => .next ((s.fillTake p t 2 []).dropTake p t)
    | some (vb, vr, next) =>
      let busy := (s.rill vb vr).takes.any fun x => x.probe == 0
      let lower := s.thieves.any fun q => decide (s.tid q.1 < s.tid p) && s.basinOf q.1.b == s.basinOf b
        && ((s.probeOf q.1.b q.1.r q.2.probe).any fun v => v.1 == vb && v.2.1 == vr)
      if busy || lower then .next s
      else match (if (s.braid vb).gran.state == .scrubbing then none else s.popTop vb vr) with
        | some (rec, s1) => .next ((s1.fillTake p t 1 rec).dropTake p t)
        | none => .next (s.modRill b r fun x =>
            { x with takes := x.takes.map fun y => if y == t then { t with probe := next } else y })

/-- DQSPILL_WRITE (R355): a write of DQSPILL takes effect once no entry is spilled. -/
def execDqspillWrite (b r : Nat) (s : State) : Res :=
  match (s.rill b r).dqSpillNext with
  | some v =>
    if (s.rill b r).spilled = 0 then
      .next ((s.setRillSr b r 0x122 v).modRill b r fun x => { x with dqSpillNext := none, spillHead := 0, dqFrames := [] })
    else .next s
  | none => .next s

end Sys2Proof.Machine
end

