-- ==== Sys2Proof/Machine/FloatFn.lean ====
section
/-! DEFINITION. Division, roots and the transcendental functions, correctly rounded (R230, R239). Roots and
quotients are cut off at a sufficient length with a sticky mark. A transcendental result is enclosed
between two integers at a fixed-point precision and cut off where both agree; the precision grows until
they do. -/

namespace Sys2Proof.Machine

/-- Bits that are kept: more than the 53 + 32 that rounding and SR look at. -/
def keep : Nat := 120

/-- a / b of nonzero magnitudes. -/
def quotient (s : Bool) (m1 : Nat) (e1 : Int) (m2 : Nat) (e2 : Int) : FRes :=
  let sh := keep + m2.log2 + 1 - m1.log2
  let n := m1 * 2 ^ sh
  .val s (n / m2) (e1 - e2 - sh) (n % m2 != 0)

def fDiv (a b : FVal) : FRes :=
  match a, b with
  | .num s1 m1 e1, .num s2 m2 e2 =>
    if m2 = 0 then (if m1 = 0 then .nan flNV else .inf (s1 != s2) flDZ)
    else if m1 = 0 then .val (s1 != s2) 0 0 false
    else quotient (s1 != s2) m1 e1 m2 e2
  | .inf _, .inf _ => .nan flNV
  | .inf s, .num t _ _ => .inf (s != t) 0
  | .num s _ _, .inf t => .val (s != t) 0 0 false
  | .nan x, y => nanOf [.nan x, y]
  | x, .nan y => nanOf [x, .nan y]

def fRcp (a : FVal) : FRes := fDiv (.num false 1 0) a

/-- Integer square root from bit i downward. -/
def isqrtFrom : Nat → Nat → Nat → Nat
  | 0, _, r => r
  | i + 1, x, r => if (r + 2 ^ i) * (r + 2 ^ i) ≤ x then isqrtFrom i x (r + 2 ^ i) else isqrtFrom i x r

def isqrt (x : Nat) : Nat := isqrtFrom (x.log2 / 2 + 1) x 0

def fSqrt (a : FVal) : FRes :=
  match a with
  | .nan x => nanOf [.nan x]
  | .inf s => if s then .nan flNV else .inf false 0
  | .num s m e =>
    if m = 0 then .val s 0 0 false
    else if s then .nan flNV
    else
      let odd := e % 2 != 0
      let m1 := if odd then 2 * m else m
      let e1 := if odd then e - 1 else e
      let n := m1 * 2 ^ (2 * keep)
      let r := isqrt n
      .val false r (e1 / 2 - keep) (r * r != n)

def fRsqrt (a : FVal) : FRes :=
  match a with
  | .nan x => nanOf [.nan x]
  | .inf s => if s then .nan flNV else .val false 0 0 false
  | .num s m e =>
    if m = 0 then .inf s flDZ
    else if s then .nan flNV
    else
      let odd := e % 2 != 0
      let m1 := if odd then 2 * m else m
      let e1 := if odd then e - 1 else e
      let k := keep + m1.log2
      let r := isqrt (2 ^ (2 * k) / m1)
      .val false r (-(e1 / 2) - k) (r * r * m1 != 2 ^ (2 * k))

/-! ### Fixed-point series: every function answers a number not above the true value times 2^p, and less than
2^10 below it -/

/-- Sum of x^(2k+1) / (2k+1) with alternating signs or not, n terms from k; t is the current power. -/
def atanTerms : Nat → Nat → Nat → Nat → Bool → Int
  | 0, _, _, _, _ => 0
  | n + 1, k, t, d, alt =>
    let v : Int := (t / (2 * k + 1) : Nat)
    (if alt && k % 2 == 1 then -v else v) + atanTerms n (k + 1) (t / d) d alt

/-- 2^p * atanh(1/q) and 2^p * atan(1/q). -/
def atanhInv (p q : Nat) : Int := atanTerms p 0 (2 ^ p / q) (q * q) false
def atanInv (p q : Nat) : Int := atanTerms p 0 (2 ^ p / q) (q * q) true

def ln2At (p : Nat) : Nat := (2 * atanhInv (p + 16) 3 / 2 ^ 16).toNat
def piAt (p : Nat) : Nat := ((16 * atanInv (p + 16) 5 - 4 * atanInv (p + 16) 239) / 2 ^ 16).toNat

/-- Sum of y^n / n!, from term t with index n. -/
def expTerms : Nat → Nat → Nat → Nat → Nat → Nat
  | 0, _, _, _, _ => 0
  | i + 1, n, t, y, p => t + expTerms i (n + 1) (t * y / 2 ^ p / (n + 1)) y p

/-- 2^p * 2^f for a fraction f = num / 2^den. -/
def exp2At (p num den : Nat) : Nat :=
  let f := num * 2 ^ p / 2 ^ den
  expTerms p 0 (2 ^ p) (f * ln2At p / 2 ^ p) p

/-- Sum of t^(2k+1) / (2k+1) for a fixed-point t. -/
def atanhTerms : Nat → Nat → Nat → Nat → Nat → Nat
  | 0, _, _, _, _ => 0
  | i + 1, k, t, u, p => t / (2 * k + 1) + atanhTerms i (k + 1) (t * u / 2 ^ p) u p

/-- 2^p * log2 z for z = num / 2^den between 1 and 2. -/
def log2At (p num den : Nat) : Nat :=
  let t := (num - 2 ^ den) * 2 ^ p / (num + 2 ^ den)
  2 * atanhTerms p 0 t (t * t / 2 ^ p) p * 2 ^ p / ln2At p

/-- Alternating sum of x2^k / (2k+1)!, from term t with index k. -/
def sincTerms : Nat → Nat → Nat → Nat → Nat → Int
  | 0, _, _, _, _ => 0
  | i + 1, k, t, x2, p =>
    let v : Int := t
    (if k % 2 = 1 then -v else v) + sincTerms i (k + 1) (t * x2 / 2 ^ p / ((2 * k + 2) * (2 * k + 3))) x2 p

/-- 2^p * sin(pi a) / a for a = num / 2^den with 0 < a ≤ 1/2. -/
def sinpiOverAt (p num den : Nat) : Nat :=
  let a := num * 2 ^ p / 2 ^ den
  let x := a * piAt p / 2 ^ p
  (sincTerms p 0 (2 ^ p) (x * x / 2 ^ p) p * piAt p / 2 ^ p).toNat

/-! ### Enclosure -/

/-- The value that g encloses at growing precision: v at precision p lies between g p - 2^12 and g p + 2^12.
Answers the first number of bits that both ends share, as a magnitude, an exponent and the sticky mark. -/
def enclose (g : Nat → Nat) : List Nat → Nat × Int
  | [] => (0, 0)
  | p :: ps =>
    let lo := g p - 2 ^ 12
    let hi := g p + 2 ^ 12
    let sh := lo.log2 - keep
    if lo / 2 ^ sh = hi / 2 ^ sh && keep ≤ lo.log2 then (lo / 2 ^ sh, (sh : Int) - p) else
      match ps with
      | [] => (lo / 2 ^ sh, (sh : Int) - p)
      | _ :: _ => enclose g ps

def precisions : List Nat := [256, 512, 1024]

/-- 2^a. From 2^20 in magnitude on, the power lies so far outside every format that 2 to the power of plus
or minus 2^20 rounds to the same result. -/
def fExp2 (a : FVal) : FRes :=
  match a with
  | .nan x => nanOf [.nan x]
  | .inf s => if s then .val false 0 0 false else .inf false 0
  | .num s m e =>
    if m = 0 then .val false 1 0 false
    else if 20 < e + m.log2 then .val false 1 (if s then -(2 ^ 20) else 2 ^ 20) false
    else if 0 ≤ e then .val false 1 (if s then -((m * 2 ^ e.toNat : Nat) : Int) else (m * 2 ^ e.toNat : Nat)) false
    else
      let d := (-e).toNat
      if m % 2 ^ d = 0 then .val false 1 (if s then -((m / 2 ^ d : Nat) : Int) else (m / 2 ^ d : Nat)) false
      else if (m.log2 : Int) + e < -150 then
        if s then .val false (2 ^ keep - 1) (-keep) true else .val false (2 ^ keep) (-keep) true
      else
        let n : Int := if s then -((m / 2 ^ d : Nat) : Int) - 1 else (m / 2 ^ d : Nat)
        let f := if s then 2 ^ d - m % 2 ^ d else m % 2 ^ d
        let (r, re) := enclose (fun p => exp2At p f d) precisions
        .val false r (re + n) true

/-- log2 a. The sign of the exact zero log2 1 is left to "the rules below" (R224) and none of them gives it: this model
takes +0, which is its own choice. -/
def fLog2 (a : FVal) : FRes :=
  match a with
  | .nan x => nanOf [.nan x]
  | .inf s => if s then .nan flNV else .inf false 0
  | .num s m e =>
    if m = 0 then .inf true flDZ
    else if s then .nan flNV
    else
      let k := m.log2
      let n : Int := e + k
      if m = 2 ^ k then .val (decide (n < 0)) n.natAbs 0 false
      else if 0 ≤ n then
        let (r, re) := enclose (fun p => n.toNat * 2 ^ p + log2At p m k) precisions
        .val false r re true
      else
        let (r, re) := enclose (fun p => n.natAbs * 2 ^ p - log2At p m k) precisions
        .val true r re true

/-- sin(pi a) for 0 < a ≤ 1/2, a = m / 2^d. -/
def sinpiFirst (s : Bool) (m d : Nat) : FRes :=
  if 2 * m = 2 ^ d then .val s 1 0 false
  else
    let (r, re) := enclose (fun p => sinpiOverAt p m d * m / 2 ^ m.log2) precisions
    .val s r (re + m.log2 - d) true

/-- sin(pi a) for a = m / 2^d, any m: reduction to the first half of the half period. -/
def sinpiOf (s : Bool) (m d : Nat) : FRes :=
  let one := 2 ^ d
  let t := m % (2 * one)
  let neg := s != decide (one ≤ t)
  let u := t % one
  if u = 0 then .val s 0 0 false
  else if 2 * u ≤ one then sinpiFirst neg u d
  else sinpiFirst neg (one - u) d

def fSinpi (a : FVal) : FRes :=
  match a with
  | .nan x => nanOf [.nan x]
  | .inf _ => .nan flNV
  | .num s m e => if 0 ≤ e || m == 0 then .val s 0 0 false else sinpiOf s m (-e).toNat

/-- cos(pi a) = sin(pi (a + 1/2)) for the magnitude of a. -/
def fCospi (a : FVal) : FRes :=
  match a with
  | .nan x => nanOf [.nan x]
  | .inf _ => .nan flNV
  | .num _ m e =>
    if m = 0 then .val false 1 0 false
    else if 0 ≤ e then .val (e == 0 && m % 2 == 1) 1 0 false
    else if (m.log2 : Int) + e < -150 then .val false (2 ^ keep - 1) (-keep) true
    else
      let d := (-e).toNat
      match sinpiOf false (2 * m + 2 ^ d) (d + 1) with
      | .val s n x st => .val (s && n != 0) n x st
      | r => r

end Sys2Proof.Machine
end

