-- ==== Sys2Proof/Machine/VecFn.lean ====
section
/-! DEFINITION. What vector instructions compute (R247 to R250, R253): elements, reductions, permutations and
conversions, with flags, SR steps and AMAX. -/

namespace Sys2Proof.Machine

/-! ### Elements -/

/-- Element i of a vector value, of w bits. -/
def vElem (v : BitVec 256) (w i : Nat) : Nat := v.toNat / 2 ^ (w * i) % 2 ^ w

/-- The four 64-bit words of a vector register. -/
def vecWords (v : BitVec 256) : List Word := (List.range 4).map fun i => w64 (v.toNat / 2 ^ (64 * i))

/-- Elements packed from position 0 up. -/
def vPack (w : Nat) : List Nat → Nat
  | [] => 0
  | x :: t => x % 2 ^ w + 2 ^ w * vPack w t

/-- The type codes of R247: width, and the format of a floating-point type. -/
def vWidth (t : Nat) : Nat :=
  match t with
  | 0 => 64
  | 1 => 32
  | 2 => 16
  | 3 => 16
  | 4 => 8
  | 5 => 16
  | 6 => 32
  | _ => 64
def vIsFp (t : Nat) : Bool := decide (t < 4)

/-- What the rounding of elements reads and changes: mode, saturation; SR state, flags, AMAX. -/
structure VEnv where
  mode : Nat
  satf : Bool
  seed : Nat
  fl : BitVec 5 := 0
  amax : Word := 0

/-- Take the step of a rounding under SR. -/
def VEnv.step (e : VEnv) : VEnv := if e.mode = 5 then { e with seed := srStep e.seed } else e
def VEnv.flags (e : VEnv) (fl : BitVec 5) : VEnv := { e with fl := e.fl ||| fl }

/-- Round one result. -/
def VEnv.round (e : VEnv) (f : Fmt) (r : FRes) : Nat × VEnv :=
  let e1 := e.step
  let z := r.to f e.mode false e1.seed
  (z.1, e1.flags z.2)

/-! ### Major 0x30 (R247) -/

/-- A floating-point element: fn, format, a, b, d, and the integer operand of VLDEXP. -/
def vFpElem (fn : Nat) (f : Fmt) (e : VEnv) (a b d : Nat) (y : Word) : Nat × VEnv :=
  let x := f.decode a
  let z := f.decode b
  let top := 2 ^ (f.w - 1)
  match fn with
  | 0x00 => e.round f (fAdd e.mode x z)
  | 0x01 => e.round f (fAdd e.mode x z.neg)
  | 0x02 => e.round f (fMul x z)
  | 0x03 => e.round f (fFma e.mode x z (f.decode d))
  | 0x04 => e.round f (fFma e.mode x.neg z (f.decode d))
  | 0x05 => let r := f.pick false a b; (r.1, e.flags r.2)
  | 0x06 => let r := f.pick true a b; (r.1, e.flags r.2)
  | 0x07 => (a % top, e)
  | 0x08 => (if a < top then a + top else a - top, e)
  | 0x09 => e.round f (fLdexp x (clamp y.toInt (-8192) 8192))
  | 0x0A => e.round f (fExp2 x)
  | 0x0B => e.round f (fRcp x)
  | 0x0C => e.round f (fRsqrt x)
  | 0x0D => e.round f (fLog2 x)
  | _ => (a, e)

/-- An integer modulo 2^w. -/
def vWrap (w : Nat) (i : Int) : Nat := (i % (2 ^ w : Int)).toNat

/-- An integer element: fn, width, a, b, d. -/
def vIntElem (fn w : Nat) (a b d : Nat) : Nat :=
  let sa := sextNat a w
  let sb := sextNat b w
  let lo : Int := -(2 ^ (w - 1))
  let hi : Int := 2 ^ (w - 1) - 1
  match fn with
  | 0x00 => (a + b) % 2 ^ w
  | 0x01 => vWrap w (sa - sb)
  | 0x02 => a * b % 2 ^ w
  | 0x03 => (a * b + d) % 2 ^ w
  | 0x04 => vWrap w ((d : Int) - a * b)
  | 0x05 => if sa ≤ sb then a else b
  | 0x06 => if sa ≤ sb then b else a
  | 0x07 => vWrap w (if sa < 0 then -sa else sa)
  | 0x08 => vWrap w (-sa)
  | 0x14 => a &&& b
  | 0x15 => a ||| b
  | 0x16 => a ^^^ b
  | 0x17 => a * 2 ^ (b % w) % 2 ^ w
  | 0x18 => a / 2 ^ (b % w)
  | 0x19 => vWrap w (sa / 2 ^ (b % w))
  | 0x1A => min a b
  | 0x1B => max a b
  | 0x1C => vWrap w (clamp (sa + sb) lo hi)
  | 0x1D => vWrap w (clamp (sa - sb) lo hi)
  | 0x1E => min (a + b) (2 ^ w - 1)
  | 0x1F => a - b
  | _ => a

/-- The test of VCMP (R248). -/
def vTest (c t : Nat) (a b : Nat) : Bool × BitVec 5 :=
  if vIsFp t then fCompare c ((fmtOf t).decode a) ((fmtOf t).decode b)
  else
    let w := vWidth t
    (match c with
      | 0 => a == b
      | 1 => decide (sextNat a w < sextNat b w)
      | 2 => decide (sextNat a w ≤ sextNat b w)
      | _ => decide (a < b), 0)

/-! ### Reductions (R249, R250) -/

/-- Combine neighbours, ascending. -/
def pairUp (op : VEnv → Nat → Nat → Nat × VEnv) : List Nat → VEnv → List Nat × VEnv
  | a :: b :: t, e =>
    let (x, e1) := op e a b
    let (r, e2) := pairUp op t e1
    (x :: r, e2)
  | [a], e => ([a], e)
  | [], e => ([], e)

/-- Level by level, at most n levels. -/
def treeOf (op : VEnv → Nat → Nat → Nat × VEnv) : Nat → List Nat → VEnv → Nat × VEnv
  | 0, xs, e => (xs.headD 0, e)
  | n + 1, xs, e =>
    let (ys, e1) := pairUp op xs e
    treeOf op n ys e1

/-- Number of levels for L elements. -/
def treeLevels (n : Nat) : Nat := n.log2

/-- The combining operation of a reduction and what stands for an unselected element. -/
def reduceOp (fn t : Nat) (e : VEnv) (a b : Nat) : Nat × VEnv :=
  let w := vWidth t
  if vIsFp t then
    let f := fmtOf t
    match fn with
    | 0 => e.round f (fAdd e.mode (f.decode a) (f.decode b))
    | 2 => let r := f.pick false a b; (r.1, e.flags r.2)
    | _ => let r := f.pick true a b; (r.1, e.flags r.2)
  else
    (match fn with
      | 0 => (a + b) % 2 ^ w
      | 2 => if sextNat a w ≤ sextNat b w then a else b
      | _ => if sextNat a w ≤ sextNat b w then b else a, e)

def reduceUnit (fn t : Nat) : Nat :=
  let w := vWidth t
  if vIsFp t then
    let f := fmtOf t
    match fn with
    | 0 => 2 ^ (w - 1)
    | 1 => f.inf true
    | 2 => f.inf false
    | _ => 0
  else
    match fn with
    | 0 => 0
    | 1 => 2 ^ (w - 1)
    | 2 => 2 ^ (w - 1) - 1
    | _ => 0

/-! ### Conversions (R253) -/

def cvtBits (c : Nat) : Nat :=
  match c with
  | 0 => 64
  | 1 => 32
  | 2 => 16
  | 3 => 16
  | 8 => 4
  | 11 => 16
  | 12 => 32
  | 13 => 64
  | _ => 8

def cvtFmt (c : Nat) : Fmt :=
  match c with
  | 4 => fmtE4m3
  | 5 => fmtE5m2
  | 6 => fmtE3m2
  | 7 => fmtE2m3
  | 8 => fmtE2m1
  | _ => fmtOf c

/-- Every value of g is exact in f (R232). -/
def Fmt.widens (f g : Fmt) : Bool :=
  decide (g.m ≤ f.m) && decide (g.emax ≤ f.emax) && decide (f.emin - f.m ≤ g.emin - g.m)
    && (f.top == 0 || g.top == 2) && !(f == g)

/-- A source element as a value, and its width in R234; an integer has no width there. -/
def cvtSource (c x : Nat) : FVal :=
  if c < 9 then (cvtFmt c).decode x
  else if c = 9 then .num (decide (sextNat x 8 < 0)) (sextNat x 8).natAbs (-6)
  else FVal.ofInt (sextNat x (cvtBits c))

/-- One element from code src to code dst. R226 confines SATF to destinations of 8 bits or fewer, and R233 clamps an integer
narrowing when SATF is 1: the model clamps 16- and 32-bit integer destinations too (model's choice, log entry 133). -/
def cvtElem (src dst : Nat) (e : VEnv) (x : Nat) : Nat × VEnv :=
  let v := cvtSource src x
  let wd := cvtBits dst
  if 10 ≤ src && 10 ≤ dst then
    let i := sextNat x (cvtBits src)
    (if wd < cvtBits src && e.satf then vWrap wd (clamp i (-(2 ^ (wd - 1))) (2 ^ (wd - 1) - 1)) else vWrap wd i, e)
  else if dst < 9 then
    let f := cvtFmt dst
    let wide := if src < 9 then f.widens (cvtFmt src) else src == 9 && dst < 4
    if wide then
      let z := f.convert 1 false 0 v
      (z.1, e.flags z.2)
    else
      let e1 := e.step
      let z := f.convert e.mode e.satf e1.seed v
      let e2 := e1.flags z.2
      (z.1, if src < 9 && decide (f.w < (cvtFmt src).w) then { e2 with amax := amaxUpdate e2.amax v } else e2)
  else if dst = 9 then
    if 10 ≤ src then
      let k := 64 * sextNat x (cvtBits src)
      let c := clamp k (-128) 127
      (vWrap 8 c, if c != k then e.flags (flOF ||| flNX) else e)
    else
      let e1 := e.step
      let z := toMi8 e.mode e1.seed v
      let e2 := e1.flags z.2
      (z.1, if decide (8 < (cvtFmt src).w) then { e2 with amax := amaxUpdate e2.amax v } else e2)
  else
    let e1 := e.step
    let z := toInt e.mode e1.seed (-(2 ^ (wd - 1))) (2 ^ (wd - 1) - 1) v
    (vWrap wd z.1, e1.flags z.2)

/-! ### Whole registers -/

/-- Elements 0 to L - 1: f where it is selected, the old one elsewhere. -/
def vMap (w : Nat) (sel : Nat → Bool) (old : BitVec 256) (f : Nat → VEnv → Nat × VEnv) :
    List Nat → VEnv → List Nat × VEnv
  | [], e => ([], e)
  | i :: t, e =>
    let (x, e1) := if sel i then f i e else (vElem old w i, e)
    let (r, e2) := vMap w sel old f t e1
    (x :: r, e2)

/-- The bits of the elements that are written. -/
def vMask (w : Nat) (sel : Nat → Bool) (n : Nat) : Nat :=
  (List.range n).foldl (fun m i => if sel i then m + (2 ^ w - 1) * 2 ^ (w * i) else m) 0

end Sys2Proof.Machine
end

