-- ==== Sys2Proof/Machine/Atomics.lean ====
section
/-! DEFINITION. Full/empty memory, AMO, CAS, remote updates, vector atomics, monitors, HMSG, barriers and
WAITLT: issue (R277, R288 to R308). -/

namespace Sys2Proof.Machine

/-! ### Full/empty memory (R297) -/

/-- An FE memory operation is held until its translation completes; a host page traps FE-UNSUPPORTED. Context 15
goes on once it is performed, so that the limit of R298 can trap precisely (R380). -/
def feAccess (s : State) (k : AccKind) (dsts : List Dest) (v : Cell) (a : BitVec 5) (p : BitVec 8) (la : BitVec 4) : Res :=
  withReg s a fun x =>
    let ea := x.val + scaled p 8
    withAddress (write := k.writes) s ea 8 x.poison <|
      let go := issueAll s dsts (some la.toNat)
        [{ id := 0, seq := 0, kind := k, va := ea, size := 8, dst := dsts.headD .none, data := v.val, poison := v.poison
           ordered := k == AccKind.stfe || k == AccKind.stff, ext := [s.upc, w64 s.ulen] }]
        fun c => if s.cur.k = 15 then { c with wait := some (.access c.seq) } else c
      if bit ea 55 || s.pendingLine s.cur ea then go
      else match (s.translate s.cur ea k.need).2 with
        | .ok pa _ => if isHost pa then trappedAt s 0x24 ea k.writes else go
        | .fault _ _ => go
        | .ask => go
        | .poisoned => go

def execLdfe (d a : BitVec 5) (p : BitVec 8) (l : BitVec 4) (s : State) : Res :=
  outsideTx s 0x16 (feAccess s .ldfe [s.me.dest d] {} a p l)
def execLdff (d a : BitVec 5) (p : BitVec 8) (l : BitVec 4) (s : State) : Res :=
  outsideTx s 0x16 (feAccess s .ldff [s.me.dest d] {} a p l)
def execStfe (d a : BitVec 5) (p : BitVec 8) (l : BitVec 4) (s : State) : Res :=
  outsideTx s 0x16 <| withReg s d fun v => feAccess s .stfe [] v a p l
def execStff (d a : BitVec 5) (p : BitVec 8) (l : BitVec 4) (s : State) : Res :=
  outsideTx s 0x16 <| withReg s d fun v => feAccess s .stff [] v a p l
def execFeclr (a : BitVec 5) (p : BitVec 8) (l : BitVec 4) (s : State) : Res :=
  outsideTx s 0x16 (feAccess s .feclr [] {} a p l)

/-! ### AMO and CAS (R289 to R291) -/

def amo (s : State) (op : Nat) (d a b : BitVec 5) (z o : BitVec 1) (la : BitVec 4) : Res :=
  withReg s a fun x => withReg s b fun y =>
    let size := 4 * (1 + z.toNat)
    let opnd := y.val.toNat % 2 ^ (8 * size)
    if s.inTx then
      txAll s 0x17 [{ va := x.val, size := size, bad := x.poison, w := true
                      wr := fun v bad => some (amoNew op size v opnd, rmwPoison op size bad y.poison) }] fun t vs =>
        match vs with
        | [(v, bad)] => wrote t d (zext v (8 * size)) bad
        | _ => .next t
    else withAddress (write := true) s x.val size x.poison <|
      issueAll s [s.me.dest d] (some la.toNat)
        [{ id := 0, seq := 0, kind := .amo op, va := x.val, size := size, dst := s.me.dest d, data := w64 opnd
           poison := y.poison, ordered := o == 1, tag := if o = 1 then some 3 else none }] id

def execAmoadd (d a b : BitVec 5) (z o : BitVec 1) (l : BitVec 4) (s : State) : Res := amo s 0 d a b z o l
def execAmoand (d a b : BitVec 5) (z o : BitVec 1) (l : BitVec 4) (s : State) : Res := amo s 1 d a b z o l
def execAmoor (d a b : BitVec 5) (z o : BitVec 1) (l : BitVec 4) (s : State) : Res := amo s 2 d a b z o l
def execAmoxor (d a b : BitVec 5) (z o : BitVec 1) (l : BitVec 4) (s : State) : Res := amo s 3 d a b z o l
def execAmomin (d a b : BitVec 5) (z o : BitVec 1) (l : BitVec 4) (s : State) : Res := amo s 4 d a b z o l
def execAmomax (d a b : BitVec 5) (z o : BitVec 1) (l : BitVec 4) (s : State) : Res := amo s 5 d a b z o l
def execAmominz (d a b : BitVec 5) (z o : BitVec 1) (l : BitVec 4) (s : State) : Res := amo s 6 d a b z o l
def execAmomaxz (d a b : BitVec 5) (z o : BitVec 1) (l : BitVec 4) (s : State) : Res := amo s 7 d a b z o l
def execAmoxchg (d a b : BitVec 5) (z o : BitVec 1) (l : BitVec 4) (s : State) : Res := amo s 8 d a b z o l
def execAmofadd (d a b : BitVec 5) (z o : BitVec 1) (l : BitVec 4) (s : State) : Res := amo s 9 d a b z o l

/-- R291: what a CAS writes, when it succeeds: the new value and the poison bit. -/
def casWrite (size old exp new : Nat) (oldBad expBad newBad : Bool) : Option (Nat × Bool) :=
  if old = exp then some (new, newBad || expBad || (size == 4 && oldBad)) else none

def execCas (d a b : BitVec 5) (z : BitVec 1) (e : BitVec 2) (sx : BitVec 3) (l : BitVec 4) (s : State) : Res :=
  withReg s d fun x => withReg s a fun y => withReg s b fun w =>
    let size := 4 * (1 + z.toNat)
    let m := 2 ^ (8 * size)
    if s.inTx then
      txAll s 0x18 [{ va := y.val, size := size, bad := y.poison, w := true
                      wr := fun v bad => casWrite size v (x.val.toNat % m) (w.val.toNat % m) bad x.poison w.poison }]
        fun t vs => match vs with
          | [(v, bad)] => wrote t d (zext v (8 * size)) bad
          | _ => .next t
    else withAddress (write := true) s y.val size y.poison <|
      issueAll s [s.me.dest d] (some l.toNat)
        [{ id := 0, seq := 0, kind := .cas e.toNat sx.toNat, va := y.val, size := size, dst := s.me.dest d
           data := w64 (w.val.toNat % m), poison := w.poison, aux := w64 (x.val.toNat % m), auxPoison := x.poison
           ordered := bit (w64 e.toNat) 1, tag := if bit (w64 e.toNat) 1 then some sx.toNat else none }] id

/-! ### Remote updates (R292 to R294) -/

/-- The rill accepts an update: the counter rises, and it waits for RUPD_SEND. ext holds a task and its target. -/
def rupd (s : State) (op : Nat) (a b : BitVec 5) (c : BitVec 3) (ext : List Word) : Res :=
  withReg s a fun x => withReg s b fun y =>
    let size := (rupdOp op).2
    withAddress (write := true) s x.val size x.poison <|
      if s.myRill.cc.get 0 c.toNat = 0xFFFF then parked s .counter
      else
        let acc : Access :=
          { id := 0, seq := 0, kind := .rupd op, va := x.val, size := size, data := w64 (y.val.toNat % 2 ^ (8 * size))
            poison := y.poison, ordered := true, tag := some 3, cc := some c.toNat, ext := ext }
        issueThen s [] none [acc] fun t => t.raiseCc s.cur.b s.cur.r c.toNat

def execRupd (p : BitVec 4) (a b : BitVec 5) (c : BitVec 3) (_l : BitVec 4) (s : State) : Res :=
  outsideTx s 0x19 (rupd s p.toNat a b c [])

/-- RUPD.ADDZ: the checks of R294 on the target, then the update. -/
def rupdAddz (s : State) (op : Nat) (a b : BitVec 5) (o c : BitVec 3) : Res :=
  outsideTx s 0x19 <| withReg s a fun _ => withReg s b fun _ =>
    withOx s o.toNat 5 fun ws =>
      let t := ws.getD 4 0
      if field t 63 12 != 0 then trapped s 0x02 s.uw
      else if (s.rillOf (s.basinOf s.cur.b) t.toNat).isNone then trapped s 0x0B t
      else rupd s op a b c ws

def execRupdAddzZ64 (a b : BitVec 5) (o c : BitVec 3) (_l : BitVec 4) (s : State) : Res := rupdAddz s 11 a b o c
def execRupdAddzZ32 (a b : BitVec 5) (o c : BitVec 3) (_l : BitVec 4) (s : State) : Res := rupdAddz s 12 a b o c

/-- RUPD_SEND (R293): update n of a thread is sent once every earlier access of it is complete. -/
def execRupdSend (b r k n : Nat) (s : State) : Res :=
  let p : Pos := ⟨b, r, k⟩
  match (s.ctx p).flights.find? fun a => a.id == n && a.stage == 0 with
  | some a =>
    match a.kind with
    | .rupd _ =>
      if s.doneBefore p a.seq fun _ => true then
        .next ((s.modCtx p fun c => { c with flights := c.flights.map fun x =>
          if x.id == n then { x with stage := 1 } else x }).route p a)
      else .next s
    | _ => .next s
  | none => .next s

/-! ### Vector operands of the scalar pipeline (R251, R295) -/

/-- The selected elements of a form: all, or those whose VMASK bit is set. -/
def State.selected (s : State) (masked : Bool) (n : Nat) : List Nat :=
  (List.range n).filter fun i => !masked || bit (s.sr 0x099) i

/-- The addresses of a, vb and element size e (R251, R295). -/
def indexed (a : Word) (vb : BitVec 256) (e i : Nat) : Word := a + sext (vElem vb (8 * e) i) (8 * e) * w64 e

/-- The lowest element that fails a check of R143. -/
def firstFault (eas : List (Nat × Word)) (size : Nat) (bad : Bool) : Option (Nat × Word) :=
  eas.findSome? fun x => (addressFault x.2 size bad true).map fun c => (c, x.2)

/-- The slot of a vector register, when it is bound (R194). -/
def Ctx.slot (c : Ctx) (n : Nat) : Option Stream := if 12 ≤ n then c.streams.find (n - 12) else none

/-- A register named by major 0x32 or VAMO is bound (R201). -/
def boundFault (s : State) (ns : List Nat) : Option Nat := ns.find? fun n => (s.me.slot n).isSome

def execVamo (p : BitVec 4) (a : BitVec 5) (b v : BitVec 4) (f m : BitVec 1) (l : BitVec 4) (s : State) : Res :=
  outsideTx s 0x19 <|
    if !s.me.vseq.isEmpty || !s.me.vres.isEmpty then parked s .sequencer
    else match boundFault s [v.toNat, b.toNat] with
    | some n => trapped s 0x19 (w64 (0x8000000000000200 + n))
    | none => withReg s a fun x => withVreg s b.toNat fun ix => withVreg s v.toNat fun y =>
      let e := (rupdOp p.toNat).2
      let eas := (s.selected (m == 1) (32 / e)).map fun i => (i, indexed x.val ix.val e i)
      let bad := x.poison || ix.poison
      match firstFault eas e bad with
      | some (c, ea) => trappedAt s c ea true
      | none =>
        if eas.isEmpty then .next s.advance
        else
          let fetch := f == 1
          issueAll s (if fetch then [.v v.toNat] else []) (some l.toNat)
            (eas.map fun z => { id := 0, seq := 0, kind := .vamo p.toNat fetch, va := z.2, size := e, elem := z.1
                                dst := if fetch then .v v.toNat else .none
                                data := w64 (vElem y.val (8 * e) z.1), poison := y.poison
                                ext := x.val :: 0 :: vecWords ix.val })
            fun c => if fetch && eas.length == 32 / e then c.setVreg v.toNat { c.vreg v.toNat with poison := false } else c

/-! ### Monitors (R300 to R304) -/

def monHolds (st : Word) : Bool := field st 3 0 &&& field st 7 4 != 0 || bit st 8 || bit st 9

/-- The report of a MONWAIT, and MONSTAT after it. -/
def monReport (st : Word) (expired : Bool) : Word × Word :=
  let t := field st 3 0 &&& field st 7 4
  (w64 (t + (if expired then 256 else 0) + (if bit st 9 then 512 else 0) + (if bit st 8 then 1024 else 0)),
   setField (setField st 9 8 0) 3 0 (maskMinus (field st 3 0) t))

def execMonarm (k : BitVec 2) (a : BitVec 5) (s : State) : Res :=
  outsideTx s 0x1A <| withReg s a fun x =>
    match addressFault x.val 1 x.poison false with
    | some c => trapped s c x.val
    | none => issueAll s [] none [{ id := 0, seq := 0, kind := .monarm k.toNat, va := x.val, size := 1 }]
        fun c => { c with wait := some (.access c.seq) }

/-- The registration of slot k that a CREST was to make is void: its access has no effect any more. -/
def Access.voidRearm (k : Nat) (a : Access) : Access :=
  if a.kind == AccKind.monarm k && a.aux == 1 then { a with aux := 2 } else a

/-- A slot is no longer armed, and a registration that a CREST was to make is withdrawn. -/
def State.disarm (s0 : State) (p : Pos) (k : Nat) : State :=
  let st := s0.srAt p 0x080
  let s := (s0.modCtx p fun c => { c with flights := c.flights.map (Access.voidRearm k) }).modRill p.b p.r fun x =>
    { x with replay := x.replay.update fun _ e => if e.pos == p then { e with accs := e.accs.map (Access.voidRearm k) } else e }
  let s1 := { s with triggers := s.triggers.filter fun t => !(t.1 == p && t.2 == k) }
  (s1.setSr p 0x080 (setField (setField st (4 + k) (4 + k) 0) k k 0)).modCtx p fun c => { c with mons := c.mons.drop k }

def execMondis (k : BitVec 2) (s : State) : Res :=
  outsideTx s 0x1A (.next ((s.disarm s.cur k.toNat).advance))

def execMonwait (d b : BitVec 5) (s : State) : Res :=
  outsideTx s 0x1A <| withControl s b fun x =>
    let st := s.sr 0x080
    if monHolds st then
      let (v, st') := monReport st false
      wrote (s.setSr s.cur 0x080 st') d v false
    else
      let t := field x 31 0
      .next ((s.modMe fun c => { c with wait := some (.monwait (c.dest d) (if t = 0 then 0 else s.cycle + t)) }).advance)

/-- A MONWAIT ends with its report. -/
def State.endMonwait (s : State) (p : Pos) (d : Dest) (expired : Bool) : State :=
  let (v, st') := monReport (s.srAt p 0x080) expired
  (s.setSr p 0x080 st').modCtx p fun c =>
    { (c.setCellAt d { val := v }) with wait := none, startAt := s.cycle + 4 }

/-- MONWAIT_END (R303). -/
def execMonwaitEnd (b r k : Nat) (s : State) : Res :=
  let p : Pos := ⟨b, r, k⟩
  match (s.ctx p).wait with
  | some (.monwait d dl) =>
    if (s.ctx p).run == .running && monHolds (s.srAt p 0x080) then
      .next (s.endMonwait p d (decide (dl != 0 ∧ dl ≤ s.cycle)))
    else .next s
  | _ => .next s

/-- MONWAIT_TIMEOUT (R303). -/
def execMonwaitTimeout (b r k : Nat) (s : State) : Res :=
  let p : Pos := ⟨b, r, k⟩
  match (s.ctx p).wait with
  | some (.monwait d dl) =>
    if (s.ctx p).run == .running && decide (dl != 0 ∧ dl ≤ s.cycle) then .next (s.endMonwait p d true) else .next s
  | _ => .next s

/-- MONSTAT_WAKE_WRITE (R300): v is the value written to MONSTAT. -/
def execMonstatWakeWrite (b r k : Nat) (v : Word) (s : State) : Res :=
  let p : Pos := ⟨b, r, k⟩
  .next (s.setSr p 0x080 (setField (s.srAt p 0x080) 9 9 (if bit v 9 then 1 else 0)))

/-- MONITOR_TRIGGER (R302): a write performed to a line sets TRIG of the slots of a context on it. -/
def execMonitorTrigger (b r k line : Nat) (s : State) : Res :=
  let p : Pos := ⟨b, r, k⟩
  let hit := s.triggers.filter fun t => t.1 == p && (s.ctx p).mons.find t.2 == some line
  if (s.braid b).fenced then .next s
  else
    let s1 := { s with triggers := s.triggers.filter fun t => !hit.contains t }
    .next (hit.foldl (fun z t => z.setSr p 0x080 (setField (z.srAt p 0x080) t.2 t.2 1)) s1)

/-! ### HMSG (R308) -/

/-- HMSG: the message is read and posted when the access is performed. -/
def execHmsg (d a : BitVec 5) (s : State) : Res :=
  outsideTx s 0x1A <| withReg s a fun x =>
    withAddress s x.val 64 x.poison <|
      if !s.releases then parked s .order
      else issueAll s [s.me.dest d] none
        [{ id := 0, seq := 0, kind := .hmsg, va := x.val, size := 64, dst := s.me.dest d, ext := [s.upc, w64 s.ulen] }]
        fun c => { c with wait := some (.access c.seq) }

/-! ### Barriers (R305 to R307) -/

/-- R305: a user context names a barrier of its cohort only. -/
def withBarrier (s : State) (n : BitVec 4) (k : Barrier → Res) : Res :=
  let x := (s.braid s.cur.b).barriers.get {} n.toNat
  if s.cur.k == 15 || (x.cohort.isSome && x.cohort == s.me.cohort) then k x
  else trapped s 0x05 (w64 n.toNat)

def State.setBarrier (s : State) (n : BitVec 4) (x : Barrier) : State :=
  s.modBraid s.cur.b fun y => { y with barriers := y.barriers.put n.toNat x }

/-- Arrive(n): the phase arrived in and the barrier after it. -/
def Barrier.arrive (x : Barrier) : Barrier :=
  if x.arrived + 1 = x.count then
    { x with phase := (x.phase + 1) % 65536, arrived := 0, count := x.nextCount.getD x.count, nextCount := none }
  else { x with arrived := x.arrived + 1 }

/-- The barrier before the arrivals of the rill cycle now, which it keeps. -/
def Barrier.reopened (x : Barrier) (now : Nat) : Barrier :=
  if x.logAt = now + 1 then
    { x with count := x.was.1, arrived := x.was.2.1, phase := x.was.2.2.1, nextCount := x.was.2.2.2 }
  else { x with logAt := now + 1, logged := [], was := (x.count, x.arrived, x.phase, x.nextCount) }

/-- Arrivals in order: for each the phase arrived in and whether it completes that phase; the barrier after them. -/
def arriveAll : List Arrival → Barrier → List (Arrival × Nat × Bool) × Barrier
  | [], x => ([], x)
  | a :: t, x =>
    let (os, y) := arriveAll t x.arrive
    ((a, x.phase, x.arrive.phase != x.phase) :: os, y)

/-- What an arrival has brought its thread, where one of a lower rill in the same rill cycle comes before it (R306). -/
def State.correctArrival (s : State) (n : Nat) (o : Arrival × Nat × Bool) : State :=
  s.modCtx { s.cur with r := o.1.r, k := o.1.k } fun c =>
    if o.1.sync then { c with wait := if o.2.2 then none else some (.barrier n o.2.1) }
    else c.setCellAt o.1.dst { val := w64 o.2.1 }

/-- Arrive(n) of the executing thread: the state, the phase arrived in and whether that is complete. Arrivals of one rill
cycle apply in ascending logical rill order, in whatever order their units have been executed (R306). -/
def State.arriveBar (s : State) (n : BitVec 4) (a : Arrival) : State × Nat × Bool :=
  let x := ((s.braid s.cur.b).barriers.get {} n.toNat).reopened s.cycle
  let before := x.logged.filter fun y => decide (y.r ≤ a.r)
  let later := x.logged.filter fun y => decide (a.r < y.r)
  let (_, x1) := arriveAll before x
  let (os, x2) := arriveAll later x1.arrive
  (os.foldl (fun t o => t.correctArrival n.toNat o) (s.setBarrier n { x2 with logged := before ++ a :: later }),
    x1.phase, x1.arrive.phase != x1.phase)

/-- Clamp(a, 1, 120) on a zero-extended value. -/
def barCount (a : Word) : Nat := max 1 (min 120 a.toNat)

def execBarcfg (a : BitVec 5) (n : BitVec 4) (s : State) : Res :=
  outsideTx s 0x1B <| withBarrier s n fun x => withControl s a fun v =>
    .next ((s.setBarrier n (if x.arrived = 0 then { x with count := barCount v, nextCount := none, logAt := 0 }
      else { x with nextCount := some (barCount v), logAt := 0 })).advance)

def execBararv (d : BitVec 5) (n : BitVec 4) (s : State) : Res :=
  outsideTx s 0x1B <| withBarrier s n fun _ =>
    if !s.releases then parked s .order
    else
      let (s1, ph, _) := s.arriveBar n { r := s.cur.r, k := s.cur.k, dst := s.me.dest d, sync := false }
      wrote s1 d (w64 ph) false

def execBarwait (a : BitVec 5) (n : BitVec 4) (s : State) : Res :=
  outsideTx s 0x1B <| withBarrier s n fun x => withControl s a fun v =>
    if x.phase = field v 15 0 then
      .next ((s.modMe fun c => { c with wait := some (.barrier n.toNat x.phase) }).advance)
    else .next s.advance

def execBarsync (n : BitVec 4) (s : State) : Res :=
  outsideTx s 0x1B <| withBarrier s n fun _ =>
    if !s.releases then parked s .order
    else
      let (s1, ph, ended) := s.arriveBar n { r := s.cur.r, k := s.cur.k, dst := .none, sync := true }
      if ended then .next s1.advance
      else .next ((s1.modMe fun c => { c with wait := some (.barrier n.toNat ph) }).advance)

/-- BARRIER_RELEASE (R306): the phase that a thread waits for has completed. -/
def execBarrierRelease (b r k : Nat) (s : State) : Res :=
  let p : Pos := ⟨b, r, k⟩
  match (s.ctx p).wait with
  | some (.barrier n ph) =>
    if (s.ctx p).run == .running && ((s.braid b).barriers.get {} n).phase != ph then
      .next (s.modCtx p fun c => { c with wait := none, startAt := s.cycle + 4 })
    else .next s
  | _ => .next s

/-! ### WAITLT (R277) -/

/-- Held until the counter is below k. -/
def waitBelow (s : State) (c k : Nat) : Res :=
  if s.myRill.cc.get 0 c < k then .next s.advance else parked s .counter

def execWaitlt (c : BitVec 3) (k : BitVec 5) (s : State) : Res := waitBelow s c.toNat k.toNat
def execWaitltr (c : BitVec 3) (a : BitVec 5) (s : State) : Res :=
  withControl s a fun v => waitBelow s c.toNat (field v 15 0)

end Sys2Proof.Machine
end

