-- ==== Sys2Proof/Machine/Fp.lean ====
section
/-! DEFINITION. Scalar floating-point instructions: majors 0x2C to 0x2E (R223, R227 to R240). -/

namespace Sys2Proof.Machine

/-! ### FCSR, SRSEED and AMAX -/

/-- The rounding mode that a field names: 7 is FCSR.RM (R236). -/
def rmOf (fcsr : Word) (r : Nat) : Nat := if r = 7 then field fcsr 2 0 else r

def enables (fcsr : Word) : Nat := field fcsr 13 9

/-- OR flags into FCSR[8:4]. -/
def orFlags (fcsr : Word) (fl : BitVec 5) : Word := fcsr ||| w64 (fl.toNat * 16)

/-- The step that an SR rounding takes, and SRSEED after it (R225). -/
def seedStep (seed : Word) : Nat := srStep (field seed 31 0)

/-- The end of a scalar instruction with flags fl (R229): FCSR and AMAX are updated, also where one of
the flags is enabled and traps (AMAX by every element that is converted, R234); otherwise SRSEED is updated and k writes the
result. sr: it rounded in SR mode. -/
def fpEnd (s : State) (fl : BitVec 5) (sr : Bool) (amax : Word) (k : State → Res) : Res :=
  let fcsr := s.sr 0x020
  let met (t : State) : State := if amax == s.sr 0x021 then t else t.setSr s.cur 0x021 amax
  let s1 := s.setSr s.cur 0x020 (orFlags fcsr fl)
  if fl.toNat &&& enables fcsr != 0 then trapped (met s1) 0x13 (w64 fl.toNat)
  else k (met (if sr then s1.setSr s.cur 0x022 (w64 (seedStep (s.sr 0x022))) else s1))

/-- A scalar rounding instruction first waits for the vector instructions when it rounds in SR (R225). -/
def withRounding (s : State) (r : Nat) (rounds : Bool) (k : Nat → Nat → Bool → Res) : Res :=
  let mode := rmOf (s.sr 0x020) r
  let sr := rounds && mode == 5
  if sr && !s.me.vseq.isEmpty then parked s .sequencer
  else k mode (seedStep (s.sr 0x022)) sr

/-- A result in a general register. -/
def fpWrite (s : State) (d : BitVec 5) (v : Nat) (p : Bool) (fl : BitVec 5) (sr : Bool) : Res :=
  fpEnd s fl sr (s.sr 0x021) fun t => wrote t d (w64 v) p

/-- Value of a scalar operand. -/
def fval (f : Fmt) (x : Word) : FVal := f.decode x.toNat

/-! ### Major 0x2C (R237, R238) -/

/-- d := Round(g a b). -/
def fpBinary (g : Nat → FVal → FVal → FRes) (d a b : BitVec 5) (f : BitVec 2) (r : BitVec 4) (s : State) : Res :=
  withReg s a fun x => withReg s b fun y =>
    withRounding s r.toNat true fun mode step sr =>
      let v := (g mode (fval (fmtOf f.toNat) x.val) (fval (fmtOf f.toNat) y.val)).to (fmtOf f.toNat) mode false step
      fpWrite s d v.1 (x.poison || y.poison) v.2 sr

/-- d := Round(g a b d). -/
def fpTernary (g : Nat → FVal → FVal → FVal → FRes) (d a b : BitVec 5) (f : BitVec 2) (r : BitVec 4) (s : State) : Res :=
  withReg s a fun x => withReg s b fun y => withReg s d fun z =>
    withRounding s r.toNat true fun mode step sr =>
      let t := fmtOf f.toNat
      let v := (g mode (fval t x.val) (fval t y.val) (fval t z.val)).to t mode false step
      fpWrite s d v.1 (x.poison || y.poison || z.poison) v.2 sr

def execFadd (d a b : BitVec 5) (f : BitVec 2) (r : BitVec 4) (s : State) : Res :=
  fpBinary (fun m x y => fAdd m x y) d a b f r s
def execFsub (d a b : BitVec 5) (f : BitVec 2) (r : BitVec 4) (s : State) : Res :=
  fpBinary (fun m x y => fAdd m x y.neg) d a b f r s
def execFmul (d a b : BitVec 5) (f : BitVec 2) (r : BitVec 4) (s : State) : Res :=
  fpBinary (fun _ x y => fMul x y) d a b f r s
def execFma (d a b : BitVec 5) (f : BitVec 2) (r : BitVec 4) (s : State) : Res :=
  fpTernary (fun m x y z => fFma m x y z) d a b f r s
def execFnma (d a b : BitVec 5) (f : BitVec 2) (r : BitVec 4) (s : State) : Res :=
  fpTernary (fun m x y z => fFma m x.neg y z) d a b f r s

/-- FMIN and FMAX (R231): no rounding. -/
def fpPick (isMax : Bool) (d a b : BitVec 5) (f : BitVec 2) (s : State) : Res :=
  withReg s a fun x => withReg s b fun y =>
    let v := (fmtOf f.toNat).pick isMax x.val.toNat y.val.toNat
    fpWrite s d v.1 (x.poison || y.poison) v.2 false

def execFmin (d a b : BitVec 5) (f : BitVec 2) (s : State) : Res := fpPick false d a b f s
def execFmax (d a b : BitVec 5) (f : BitVec 2) (s : State) : Res := fpPick true d a b f s

/-- a with the sign bit g gives from both sign bits. -/
def withSign (f : Fmt) (g : Bool → Bool → Bool) (x y : Word) : Word :=
  let v := x.toNat % 2 ^ (f.w - 1)
  w64 (v + f.signBit (g (hasBit x.toNat (f.w - 1)) (hasBit y.toNat (f.w - 1))))

def execFsgnj (d a b : BitVec 5) (f : BitVec 2) (s : State) : Res :=
  binary (withSign (fmtOf f.toNat) fun _ y => y) d a b s
def execFsgnjn (d a b : BitVec 5) (f : BitVec 2) (s : State) : Res :=
  binary (withSign (fmtOf f.toNat) fun _ y => !y) d a b s
def execFsgnjx (d a b : BitVec 5) (f : BitVec 2) (s : State) : Res :=
  binary (withSign (fmtOf f.toNat) fun x y => x != y) d a b s
def execFclass (d a : BitVec 5) (f : BitVec 2) (s : State) : Res :=
  unary (fun x => w64 ((fmtOf f.toNat).classify x.toNat)) d a s

def execFcmp (q : BitVec 3) (a b : BitVec 5) (f c : BitVec 2) (s : State) : Res :=
  withReg s a fun x => withReg s b fun y =>
    let v := fCompare c.toNat (fval (fmtOf f.toNat) x.val) (fval (fmtOf f.toNat) y.val)
    fpEnd s v.2 false (s.sr 0x021) fun t => wrotePred t q v.1 (x.poison || y.poison)

/-- FLDEXP: b is an integer, clamped. -/
def execFldexp (d a b : BitVec 5) (f : BitVec 2) (r : BitVec 4) (s : State) : Res :=
  withReg s a fun x => withReg s b fun y =>
    withRounding s r.toNat true fun mode step sr =>
      let t := fmtOf f.toNat
      let v := (fLdexp (fval t x.val) (clamp y.val.toInt (-8192) 8192)).to t mode false step
      fpWrite s d v.1 (x.poison || y.poison) v.2 sr

/-- emax of R238 by element format. -/
def elementEmax (e : Nat) : Nat :=
  if e = 4 then 8 else if e = 5 then 15 else if e = 6 then 4 else if e = 9 then 0 else 2

def execFmxsc (d a : BitVec 5) (e : BitVec 4) (s : State) : Res :=
  unary (fun x => w64 (mxScale (elementEmax e.toNat) (x.toNat % 2 ^ 32))) d a s

/-! ### Major 0x2D (R239, R229) -/

/-- A long instruction on values x: unit time t. While an enable bit is set it ends in its slot and the
thread goes on after the unit time; otherwise its result is written later. -/
def fpLong (s : State) (d : BitVec 5) (la : Nat) (t : Nat) (p : Bool) (f : Fmt) (r : FRes) : Res :=
  withRounding s 7 true fun mode step sr =>
    let v := r.to f mode false step
    if enables (s.sr 0x020) != 0 then
      if s.cycle < s.unitFree 2 then parked s .engine
      else fpEnd s v.2 sr (s.sr 0x021) fun z =>
        wrote (z.modMe fun c => { c with startAt := s.cycle + t }) d (w64 v.1) p
    else
      let s1 := if sr then s.setSr s.cur 0x022 (w64 step) else s
      .next ((s1.issueLong (s.me.dest d) la 2 (w64 v.1) p v.2 (s.unitFree 2 + t)).advance)

def fpLong1 (g : FVal → FRes) (t64 t : Nat) (d a : BitVec 5) (f : BitVec 2) (la : BitVec 4) (s : State) : Res :=
  withReg s a fun x =>
    fpLong s d la.toNat (if f = 0 then t64 else t) x.poison (fmtOf f.toNat) (g (fval (fmtOf f.toNat) x.val))

def execFdiv (d a b : BitVec 5) (f : BitVec 2) (l : BitVec 4) (s : State) : Res :=
  withReg s a fun x => withReg s b fun y =>
    fpLong s d l.toNat (if f = 0 then 32 else 16) (x.poison || y.poison) (fmtOf f.toNat)
      (fDiv (fval (fmtOf f.toNat) x.val) (fval (fmtOf f.toNat) y.val))
def execFsqrt (d a : BitVec 5) (f : BitVec 2) (l : BitVec 4) (s : State) : Res := fpLong1 fSqrt 32 16 d a f l s
def execFrcp (d a : BitVec 5) (f : BitVec 2) (l : BitVec 4) (s : State) : Res := fpLong1 fRcp 32 16 d a f l s
def execFrsqrt (d a : BitVec 5) (f : BitVec 2) (l : BitVec 4) (s : State) : Res := fpLong1 fRsqrt 32 16 d a f l s
def execFexp2 (d a : BitVec 5) (f : BitVec 2) (l : BitVec 4) (s : State) : Res := fpLong1 fExp2 48 24 d a f l s
def execFlog2 (d a : BitVec 5) (f : BitVec 2) (l : BitVec 4) (s : State) : Res := fpLong1 fLog2 48 24 d a f l s
def execFsinpi (d a : BitVec 5) (f : BitVec 2) (l : BitVec 4) (s : State) : Res := fpLong1 fSinpi 48 24 d a f l s
def execFcospi (d a : BitVec 5) (f : BitVec 2) (l : BitVec 4) (s : State) : Res := fpLong1 fCospi 48 24 d a f l s

/-! ### Major 0x2E (R240) -/

/-- Range of an integer code: 4 s64, 5 z64, 6 s32, 7 z32. -/
def intRange (x : Nat) : Int × Int :=
  if x = 4 then (-(2 ^ 63), 2 ^ 63 - 1) else if x = 5 then (0, 2 ^ 64 - 1)
  else if x = 6 then (-(2 ^ 31), 2 ^ 31 - 1) else (0, 2 ^ 32 - 1)

/-- An integer source. -/
def intSource (y : Nat) (v : Word) : Int :=
  if y = 4 then v.toInt else if y = 5 then v.toNat else if y = 6 then sextNat v.toNat 32 else (v.toNat % 2 ^ 32 : Nat)

def execFcvt (d a : BitVec 5) (x y : BitVec 3) (r : BitVec 4) (s : State) : Res :=
  withReg s a fun v =>
    if x.toNat < 4 && y.toNat < 4 then
      let f := fmtOf x.toNat
      let g := fmtOf y.toNat
      let src := fval g v.val
      if f.widens g then
        let z := f.convert 1 false 0 src
        fpWrite s d z.1 v.poison z.2 false
      else
        withRounding s r.toNat true fun mode step sr =>
          let z := f.convert mode false step src
          fpEnd s z.2 sr (if f.w < g.w then amaxUpdate (s.sr 0x021) src else s.sr 0x021) fun t =>
            wrote t d (w64 z.1) v.poison
    else if x.toNat < 4 then
      withRounding s r.toNat true fun mode step sr =>
        let i := intSource y.toNat v.val
        let z := (fmtOf x.toNat).round mode false step (decide (i < 0)) i.natAbs 0 false
        fpWrite s d z.1 v.poison z.2 sr
    else
      withRounding s r.toNat true fun mode step sr =>
        let z := toInt mode step (intRange x.toNat).1 (intRange x.toNat).2 (fval (fmtOf y.toNat) v.val)
        fpEnd s z.2 sr (s.sr 0x021) fun t => wrote t d (wrap z.1) v.poison

def execFrint (d a : BitVec 5) (x : BitVec 3) (r : BitVec 4) (s : State) : Res :=
  withReg s a fun v =>
    withRounding s r.toNat true fun mode step sr =>
      let z := (fmtOf x.toNat).rint mode step (fval (fmtOf x.toNat) v.val)
      fpWrite s d z.1 v.poison z.2 sr

end Sys2Proof.Machine
end

