-- ==== Sys2Proof/Machine/Vector.lean ====
section
/-! DEFINITION. The vector sequencer and unit (R241 to R250, R253), VSEQ (R246), and the pops and pushes of
streams (R198 to R201). -/

namespace Sys2Proof.Machine

/-! ### What an entry reads and writes -/

/-- Vector registers read as operands (R201). -/
def VEntry.operands (e : VEntry) : List Nat :=
  if e.major = 0x30 then
    (if e.fn = 0x20 then []
      else if (7 ≤ e.fn && e.fn ≤ 0x0D) || e.fn == 0x21 then [e.a] else [e.a, e.b])
    ++ (if e.fn = 3 || e.fn = 4 then [e.d] else [])
  else if e.major = 0x31 then
    (if e.fn = 6 then [] else if e.fn = 4 then [e.a, e.b] else [e.a])
  else [e.a]

/-- It writes a vector register. -/
def VEntry.writesV (e : VEntry) : Bool :=
  if e.major = 0x30 then !(0x10 ≤ e.fn && e.fn ≤ 0x13)
  else if e.major = 0x31 then e.fn == 4 || e.fn == 6 || e.fn == 7
  else true

/-- It reads the old destination only to keep elements (R201). -/
def VEntry.keeps (e : VEntry) : Bool :=
  e.writesV && (e.m || (e.major == 0x31 && e.fn == 6) || (e.major == 0x33 && decide (cvtBits e.fn < cvtBits e.b)))

/-! ### Results of one execution -/

/-- Value, general result, rounding environment, VMASK, and the bits written. -/
structure VOut where
  val : Nat := 0
  gen : Word := 0
  env : VEnv
  mask : Word
  bits : Nat := 0

/-- A general-register result (R249): floating-point bits zero-extended, integers sign-extended. -/
def vGeneral (t v : Nat) : Word := if vIsFp t then zext v (vWidth t) else sext v (vWidth t)

/-- One execution on operands a, b and d. -/
def VEntry.compute (e : VEntry) (env : VEnv) (mask : Word) (a b d : BitVec 256) : VOut :=
  let on (i : Nat) : Bool := !e.m || bit mask i
  let w := vWidth e.t
  let n := 256 / w
  let all := List.range n
  let write (f : Nat → VEnv → Nat × VEnv) : VOut :=
    let (xs, env1) := vMap w on d f all env
    { val := vPack w xs, env := env1, mask := mask, bits := vMask w on n }
  if e.major = 0x30 then
    if 0x10 ≤ e.fn && e.fn ≤ 0x13 then
      let r := all.foldl (fun (x : Nat × BitVec 5) i =>
        let z := vTest (e.fn - 0x10) e.t (vElem a w i) (vElem b w i)
        if on i then ((if z.1 then x.1 + 2 ^ i else x.1), x.2 ||| z.2) else x) (0, 0)
      { env := env.flags r.2, mask := w64 r.1 }
    else if e.fn = 0x20 then write fun _ v => (e.x.toNat % 2 ^ w, v)
    else if e.fn = 0x21 then write fun i v => (vElem a w i, v)
    else if vIsFp e.t then
      write fun i v => vFpElem e.fn (fmtOf e.t) v (vElem a w i) (vElem b w i) (vElem d w i) e.y
    else write fun i v => (vIntElem e.fn w (vElem a w i) (vElem b w i) (vElem d w i), v)
  else if e.major = 0x31 then
    if e.fn < 4 then
      let xs := all.map fun i =>
        if on i then (if e.fn = 3 then vElem a w i % 2 ^ (w - 1) else vElem a w i) else reduceUnit e.fn e.t
      let (v, env1) := treeOf (reduceOp e.fn e.t) (treeLevels n) xs env
      { gen := vGeneral e.t v, env := env1, mask := mask }
    else if e.fn = 4 then write fun i v => (vElem a w (vElem b w i % n), v)
    else if e.fn = 5 then { gen := vGeneral e.t (vElem a w (e.y.toNat % n)), env := env, mask := mask }
    else if e.fn = 6 then
      let j := e.y.toNat % n
      { val := vPack w (all.map fun i => if i = j then e.x.toNat % 2 ^ w else vElem d w i), env := env, mask := mask
        bits := vMask w (fun i => i == j) n }
    else write fun i v => (vElem a w ((i + e.y.toNat) % n), v)
  else
    let cs := cvtBits e.b
    let cd := cvtBits e.fn
    let m := 256 / cd
    let base := if cd < cs then e.t * (256 / cs) else 0
    let sel (j : Nat) : Bool := on j && decide (base ≤ j ∧ j < base + 256 / max cs cd)
    let src (j : Nat) : Nat := if cd < cs then j - base else e.t * m + j
    let (xs, env1) := vMap cd sel d (fun j v => cvtElem e.b e.fn v (vElem a cs (src j))) (List.range m) env
    { val := vPack cd xs, env := env1, mask := mask, bits := vMask cd sel m }

/-! ### Stream slots seen from the vector unit (R198 to R200) -/

def Ctx.bindsIn (c : Ctx) (n : Nat) : Bool := (c.slot n).any fun x => x.input
def Ctx.bindsOut (c : Ctx) (n : Nat) : Bool := (c.slot n).any fun x => !x.input

/-- Every element of an entry has been read. -/
def Stream.ready (x : Stream) (e : SEntry) : Bool := decide (x.lanes ≤ e.done)

/-- A slot that starts again at its position: its ready entries are read again. Those of a cancelled slot are the only
ones that it will still give (R218), so that it keeps their number n. -/
def Stream.rebindAt (x : Stream) (pos n : Nat) : Stream :=
  { x with start := pos, moved := 0
           fifo := if x.input && x.canc then (List.range n).map fun i => { first := pos + i * x.lanes } else [] }

/-- A pop is possible. -/
def Stream.popReady (x : Stream) : Bool :=
  match x.fifo with
  | e :: _ => x.ready e
  | [] => x.canc || decide (x.total ≤ x.pos)

/-- The entry that a pop takes, and the slot after it. -/
def Stream.pop (x : Stream) : SEntry × Stream :=
  match x.fifo with
  | e :: t => (e, { x with fifo := t, moved := x.moved + 1 })
  | [] => ({}, { x with moved := x.moved + 1, ended := true })

/-- Stream elements that lie wholly in the bits written. -/
def Stream.writtenMask (x : Stream) (bits : Nat) : Nat :=
  let w := 8 * x.esize
  (List.range x.lanes).foldl (fun m t =>
    if bits / 2 ^ (w * t) % 2 ^ w = 2 ^ w - 1 && decide (x.pos + t < x.total) then m + 2 ^ t else m) 0

/-- A push. -/
def Stream.push (x : Stream) (id seq : Nat) (v : BitVec 256) (bad : Bool) (bits : Nat) : Stream :=
  let x1 := { x with moved := x.moved + 1 }
  if x.total ≤ x.pos then { x1 with ended := true }
  else if x.canc then x1
  else { x1 with fifo := x.fifo ++ [{ id := id, seq := seq, first := x.pos, val := v, poison := bad, mask := x.writtenMask bits }] }

/-! ### Issue (R242, R201, R218) -/

/-- A vector instruction enters the sequencer of its context. -/
def enqueue (s : State) (e0 : VEntry) (gen : Dest) : Res :=
  let c := s.me
  let pops := e0.operands.any c.bindsIn || (e0.writesV && c.bindsOut e0.d)
  if s.inTx && pops then .next (s.txAbort 6 e0.major)
  else match (if e0.writesV && c.bindsIn e0.d then some e0.d else e0.operands.find? c.bindsOut) with
    | some n => trapped s 0x19 (w64 (0x8000000000000200 + n))
    | none =>
      let cap := c.vblocks.find? fun v => v.missing != 0
      if cap.isNone && decide (Config.seqEntries ≤ c.vseq.length) then parked s .sequencer
      else
        let dst := if e0.writesV then (if c.bindsOut e0.d then .none else .v e0.d) else gen
        let e := { e0 with id := s.nextId, seq := c.seq, dst := dst, blk := cap.elim 0 fun v => v.id, word := s.iword }
        .next ((({ s with nextId := s.nextId + 1 } : State).modMe fun x =>
          { x.setEmpty dst e.id with
            vseq := x.vseq ++ [e]
            vblocks := x.vblocks.map fun v => if v.missing != 0 then { v with missing := v.missing - 1 } else v }).advance)

/-- Forms: vector operands only; with a general operand y; with general operands x and y. -/
def vec (s : State) (major fn d a b : Nat) (m : BitVec 1) (t : Nat) : Res :=
  enqueue s { id := 0, seq := 0, major := major, fn := fn, d := d, a := a, b := b, m := m == 1, t := t } .none

def vecY (s : State) (major fn d a : Nat) (b : BitVec 5) (m : BitVec 1) (t : Nat) (gen : Dest) : Res :=
  withReg s b fun y =>
    enqueue s { id := 0, seq := 0, major := major, fn := fn, d := d, a := a, b := 0, m := m == 1, t := t, y := y.val, yp := y.poison } gen

section arithmetic
variable (d a b : BitVec 4) (m : BitVec 1) (t : BitVec 3) (s : State)

def execVadd : Res := vec s 0x30 0x00 d.toNat a.toNat b.toNat m t.toNat
def execVsub : Res := vec s 0x30 0x01 d.toNat a.toNat b.toNat m t.toNat
def execVmul : Res := vec s 0x30 0x02 d.toNat a.toNat b.toNat m t.toNat
def execVfma : Res := vec s 0x30 0x03 d.toNat a.toNat b.toNat m t.toNat
def execVfnma : Res := vec s 0x30 0x04 d.toNat a.toNat b.toNat m t.toNat
def execVmin : Res := vec s 0x30 0x05 d.toNat a.toNat b.toNat m t.toNat
def execVmax : Res := vec s 0x30 0x06 d.toNat a.toNat b.toNat m t.toNat
def execVabs : Res := vec s 0x30 0x07 d.toNat a.toNat 0 m t.toNat
def execVneg : Res := vec s 0x30 0x08 d.toNat a.toNat 0 m t.toNat
def execVexp2 : Res := vec s 0x30 0x0A d.toNat a.toNat 0 m t.toNat
def execVrcp : Res := vec s 0x30 0x0B d.toNat a.toNat 0 m t.toNat
def execVrsqrt : Res := vec s 0x30 0x0C d.toNat a.toNat 0 m t.toNat
def execVlog2 : Res := vec s 0x30 0x0D d.toNat a.toNat 0 m t.toNat
def execVand : Res := vec s 0x30 0x14 d.toNat a.toNat b.toNat m t.toNat
def execVor : Res := vec s 0x30 0x15 d.toNat a.toNat b.toNat m t.toNat
def execVxor : Res := vec s 0x30 0x16 d.toNat a.toNat b.toNat m t.toNat
def execVshl : Res := vec s 0x30 0x17 d.toNat a.toNat b.toNat m t.toNat
def execVshr : Res := vec s 0x30 0x18 d.toNat a.toNat b.toNat m t.toNat
def execVsra : Res := vec s 0x30 0x19 d.toNat a.toNat b.toNat m t.toNat
def execVminz : Res := vec s 0x30 0x1A d.toNat a.toNat b.toNat m t.toNat
def execVmaxz : Res := vec s 0x30 0x1B d.toNat a.toNat b.toNat m t.toNat
def execVadds : Res := vec s 0x30 0x1C d.toNat a.toNat b.toNat m t.toNat
def execVsubs : Res := vec s 0x30 0x1D d.toNat a.toNat b.toNat m t.toNat
def execVaddzs : Res := vec s 0x30 0x1E d.toNat a.toNat b.toNat m t.toNat
def execVsubzs : Res := vec s 0x30 0x1F d.toNat a.toNat b.toNat m t.toNat
def execVmov : Res := vec s 0x30 0x21 d.toNat a.toNat 0 m t.toNat
def execVperm : Res := vec s 0x31 0x04 d.toNat a.toNat b.toNat m t.toNat

end arithmetic

def execVldexp (d a : BitVec 4) (b : BitVec 5) (m : BitVec 1) (t : BitVec 3) (s : State) : Res :=
  vecY s 0x30 0x09 d.toNat a.toNat b m t.toNat .none
def execVcmp (a b : BitVec 4) (c : BitVec 2) (m : BitVec 1) (t : BitVec 3) (s : State) : Res :=
  vec s 0x30 (0x10 + c.toNat) 0 a.toNat b.toNat m t.toNat
def execVbcast (d : BitVec 4) (a : BitVec 5) (m : BitVec 1) (t : BitVec 3) (s : State) : Res :=
  withReg s a fun x =>
    enqueue s { id := 0, seq := 0, major := 0x30, fn := 0x20, d := d.toNat, a := 0, b := 0, m := m == 1, t := t.toNat
                x := x.val, xp := x.poison } .none

/-- A reduction into a general register. -/
def reduce (s : State) (fn : Nat) (d : BitVec 5) (a : BitVec 4) (m : BitVec 1) (t : BitVec 3) : Res :=
  enqueue s { id := 0, seq := 0, major := 0x31, fn := fn, d := 0, a := a.toNat, b := 0, m := m == 1, t := t.toNat }
    (s.me.dest d)

def execVrsum (d : BitVec 5) (a : BitVec 4) (m : BitVec 1) (t : BitVec 3) (s : State) : Res := reduce s 0 d a m t
def execVrmax (d : BitVec 5) (a : BitVec 4) (m : BitVec 1) (t : BitVec 3) (s : State) : Res := reduce s 1 d a m t
def execVrmin (d : BitVec 5) (a : BitVec 4) (m : BitVec 1) (t : BitVec 3) (s : State) : Res := reduce s 2 d a m t
def execVramax (d : BitVec 5) (a : BitVec 4) (m : BitVec 1) (t : BitVec 3) (s : State) : Res := reduce s 3 d a m t
def execVext (d : BitVec 5) (a : BitVec 4) (b : BitVec 5) (t : BitVec 3) (s : State) : Res :=
  vecY s 0x31 5 0 a.toNat b 0 t.toNat (s.me.dest d)
def execVins (d : BitVec 4) (a b : BitVec 5) (t : BitVec 3) (s : State) : Res :=
  withReg s a fun x => withReg s b fun y =>
    enqueue s { id := 0, seq := 0, major := 0x31, fn := 6, d := d.toNat, a := 0, b := 0, m := false, t := t.toNat
                x := x.val, xp := x.poison, y := y.val, yp := y.poison } .none
def execVrot (d a : BitVec 4) (b : BitVec 5) (m : BitVec 1) (t : BitVec 3) (s : State) : Res :=
  vecY s 0x31 7 d.toNat a.toNat b m t.toNat .none
def execVcvt (d a : BitVec 4) (sx : BitVec 5) (x : BitVec 4) (m : BitVec 1) (p : BitVec 3) (s : State) : Res :=
  vec s 0x33 x.toNat d.toNat a.toNat sx.toNat m p.toNat

/-- VSEQ (R246). -/
def execVseq (a : BitVec 5) (k : BitVec 4) (s : State) : Res :=
  withControl s a fun n =>
    let size := k.toNat + 1
    if Config.seqEntries < s.me.vseq.length + size then parked s .sequencer
    else .next ((({ s with nextId := s.nextId + 1 } : State).modMe fun c => { c with
      vblocks := c.vblocks ++ [{ id := s.nextId, size := size, missing := size, reps := field n 31 0, pc := s.upc }] }).advance)

/-! ### Execution (R243, R244) -/

/-- The entry that a context executes next, and whether this execution is its last. -/
def Ctx.vHead (c : Ctx) : Option (VEntry × Bool) :=
  match c.vseq with
  | [] => none
  | e :: _ =>
    if e.blk = 0 then some (e, true)
    else match c.vblocks.find? fun v => v.id == e.blk with
      | some v => if v.missing != 0 || v.reps = 0 then none else (c.vseq[v.pos]?).map fun x => (x, v.reps == 1)
      | none => none

/-- A block of no repetitions stands first (R246). -/
def Ctx.vIdleBlock (c : Ctx) : Option VBlock :=
  match c.vseq with
  | [] => none
  | e :: _ => c.vblocks.find? fun v => v.id == e.blk && v.missing == 0 && v.reps == 0

/-- It ends: its destinations are full with their old values. -/
def Ctx.endIdle (c : Ctx) (logged : List Access) (v : VBlock) : Ctx :=
  let gone := c.vseq.filter fun e => e.blk == v.id
  gone.foldl (fun x e => x.unclaim logged e.dst e.id)
    { c with vblocks := c.vblocks.erase v, vseq := c.vseq.filter fun e => e.blk != v.id }

/-- Register n holds what entry e is to read: it is full, or it waits only for e or a later entry. A load before an entry that
has written it since does not count. -/
def State.vRegReady (s : State) (p : Pos) (e : VEntry) (n : Nat) : Bool :=
  let c := s.ctx p
  let x := c.vreg n
  let awaited (a : Access) : Bool := a.dst == .v n && decide (a.seq < e.seq) && decide (c.vWrote.get 0 n ≤ a.seq)
  !(c.vres.any fun v => v.dst == .v n)
    && (x.full || ((c.vseq.any fun v => v.id == x.src) && !c.flights.any awaited && !(s.loggedOf p).any awaited))

/-- HeadReady (R243). -/
def State.vReady (s : State) (p : Pos) (e : VEntry) : Bool :=
  let c := s.ctx p
  (e.operands.all fun n => if c.bindsIn n then (c.slot n).all Stream.popReady else s.vRegReady p e n)
    && (!e.keeps || c.bindsOut e.d || s.vRegReady p e e.d)
    && (!(e.writesV && c.bindsOut e.d) || (c.slot e.d).all fun x => decide (x.fifo.length < 8))

/-- The sequencer after an execution. -/
def Ctx.vStep (c : Ctx) (e : VEntry) : Ctx :=
  if e.blk = 0 then { c with vseq := c.vseq.drop 1 }
  else match c.vblocks.find? fun v => v.id == e.blk with
    | none => c
    | some v =>
      if v.pos + 1 < v.size then
        { c with vblocks := c.vblocks.map fun y => if y.id == v.id then { v with pos := v.pos + 1 } else y }
      else if 1 < v.reps then
        { c with vblocks := c.vblocks.map fun y => if y.id == v.id then { v with pos := 0, reps := v.reps - 1 } else y }
      else { c with vblocks := c.vblocks.erase v, vseq := c.vseq.filter fun y => y.blk != v.id }

/-- A register as an operand: a pop's entry, or the register. -/
def Ctx.vOperand (c : Ctx) (pops : List (Nat × SEntry)) (n : Nat) : BitVec 256 × Bool :=
  match pops.find? fun x => x.1 == n with
  | some x => (x.2.val, x.2.poison)
  | none => ((c.vreg n).val, (c.vreg n).poison)

/-- Execute an entry: pops, the result, flags and VMASK, and the result's write or push to come. -/
def State.vExecute (s : State) (p : Pos) (e : VEntry) (last : Bool) : State :=
  let c := s.ctx p
  let popped := (e.operands.filter c.bindsIn).eraseDups
  let pops := popped.filterMap fun n => (c.slot n).map fun x => (n, x.pop.1)
  let streams := popped.foldl (fun t n =>
    match c.slot n with
    | some x => t.put (n - 12) x.pop.2
    | none => t) c.streams
  let fcsr := s.srAt p 0x020
  let out := e.writesV && c.bindsOut e.d
  let env : VEnv := { mode := field fcsr 2 0, satf := bit fcsr 3, seed := field (s.srAt p 0x022) 31 0, amax := s.srAt p 0x021 }
  let old := if out then 0 else (c.vreg e.d).val
  let d := if e.operands.contains e.d then (c.vOperand pops e.d).1 else old
  let r := e.compute env (s.srAt p 0x099) (c.vOperand pops e.a).1 (c.vOperand pops e.b).1 d
  let opBad := e.operands.any (fun n => (c.vOperand pops n).2)
  let bad := if e.major = 0x31 && !e.writesV then opBad
    else opBad || e.xp || e.yp || (e.keeps && !out && (c.vreg e.d).poison)
  let sr1 : Table Word := if r.env.fl = 0 then c.sr else c.sr.put 0x020 (orFlags fcsr r.env.fl)
  let sr2 : Table Word := if field fcsr 2 0 = 5 then sr1.put 0x022 (w64 r.env.seed) else sr1
  let sr3 : Table Word := if r.env.amax == env.amax then sr2 else sr2.put 0x021 r.env.amax
  let sr4 : Table Word := if r.mask == s.srAt p 0x099 then sr3 else sr3.put 0x099 r.mask
  let c1 := { c with streams := streams, sr := sr4 }
  let c2 := c1.vStep e
  let v : BitVec 256 := if e.writesV then BitVec.ofNat 256 r.val else r.gen.zeroExtend 256
  let c3 := match e.dst with
    | .none => c2
    | .v n => { c2 with vres := c2.vres ++ [{ id := e.id, seq := e.seq, due := s.cycle + 4, dst := .v n, val := v, poison := bad, last := last }] }
    | .g n => { c2 with vres := c2.vres ++ [{ id := e.id, seq := e.seq, due := s.cycle + 6, dst := .g n, val := v, poison := bad, last := last }] }
    | .win n => { c2 with vres := c2.vres ++ [{ id := e.id, seq := e.seq, due := s.cycle + 6, dst := .win n, val := v, poison := bad, last := last }] }
    | .ox _ => c2
    | .q _ => c2
  if out then
    let s1 : State := { s with nextId := s.nextId + 1 }
    s1.setCtx p { c3 with streams := match c3.streams.find (e.d - 12) with
      | some x => c3.streams.put (e.d - 12) (x.push s.nextId e.seq v bad r.bits)
      | none => c3.streams }
  else s.setCtx p c3

/-- VECTOR_CYCLE (R243): the next ready context after the last one executes its oldest entry. -/
def execVectorCycle (b r : Nat) (s : State) : Res :=
  let first := (s.rill b r).vNext
  let at' (i : Nat) : Pos := ⟨b, r, (first + i) % 16⟩
  let ready (i : Nat) : Bool :=
    let c := s.ctx (at' i)
    c.run == .running && (c.vIdleBlock.isSome || c.vHead.any fun x => s.vReady (at' i) x.1)
  match (List.range 16).find? ready with
  | none => .next s
  | some i =>
    let p := at' i
    match (s.ctx p).vIdleBlock with
    | some v => .next (s.modCtx p fun c => c.endIdle (s.loggedOf p) v)
    | none =>
      match (s.ctx p).vHead with
      | some (e, last) =>
        .next ((s.vExecute p e last).modRill b r fun x => { x with vNext := (p.k + 1) % 16 })
      | none => .next s

/-- Write a result (R243). -/
def Ctx.vWrite (c : Ctx) (r : VResult) : Ctx :=
  let c1 := { c with
    vres := c.vres.erase r
    vWrote := match r.dst with
      | .v n => c.vWrote.put n r.seq
      | _ => c.vWrote }
  match r.dst with
  | .v n =>
    let x := c1.vreg n
    if x.full then c1
    else if x.src = r.id then
      c1.setVreg n (if r.last then { val := r.val, poison := r.poison } else { x with val := r.val, poison := r.poison })
    else if c1.vectorWriter x.src then c1.setVreg n { x with val := r.val, poison := r.poison }
    else c1
  | .none => c1
  | .g n => if r.last then c1.fill (.g n) r.id (r.val.truncate 64) r.poison else c1
  | .win n => if r.last then c1.fill (.win n) r.id (r.val.truncate 64) r.poison else c1
  | .ox _ => c1
  | .q _ => c1

/-- VECTOR_RESULT_WRITE (R243): the oldest result of context k that is due. -/
def execVectorResultWrite (b r k : Nat) (s : State) : Res :=
  match (s.ctx ⟨b, r, k⟩).vres.find? fun x => decide (x.due ≤ s.cycle) with
  | some x => .next (s.modCtx ⟨b, r, k⟩ fun c => c.vWrite x)
  | none => .next s

/-! ### Vector memory (R251, R252) -/

/-- Vector instructions still to execute, or whose results are still to be written, use register n. -/
def Ctx.vUses (c : Ctx) (n : Nat) : Bool :=
  c.vres.any (fun v => v.dst == .v n)
    || c.vseq.any fun e => e.operands.contains n || (e.writesV && e.d == n)

/-- The addresses, by element; load: d is filled, and m keeps what is not selected and the poison bit (R245). In a
transaction an illegal address comes before a bound register (R457). -/
def vecMem (s : State) (load : Bool) (d : Nat) (m : BitVec 1) (e la : Nat) (bad : Bool) (names : List Nat)
    (ext : List Word) (addr : Nat → Word) : Res :=
  let els := s.selected (m == 1) (32 / e)
  let eas := els.map fun i => (i, addr i)
  let whole := m == 0
  if m = 1 && !s.me.vseq.isEmpty then parked s .sequencer
  else if s.inTx && s.me.block.isNone && eas.any (fun z => txIllegal s { va := z.2, size := e }) then .next (s.txAbort 6 0x32)
  else match boundFault s names with
    | some n => trapped s 0x19 (w64 (0x8000000000000200 + n))
    | none =>
      if load && s.me.vUses d then parked s .sequencer
      else if (!load || m == 1) && !(s.me.vreg d).full then parked s .register
      else
        let x := s.me.vreg d
        if s.inTx then
          txAll s 0x32 (eas.map fun z =>
            { va := z.2, size := e, bad := bad, rd := load, w := !load
              wr := fun _ _ => if load then none else some (vElem x.val (8 * e) z.1, x.poison) }) fun t vs =>
            if load then
              let y : VCell := { x with poison := !whole && x.poison }
              let r := (els.zip vs).foldl (fun c v => c.element v.1 e v.2.1 v.2.2) y
              .next ((t.modMe fun c => c.setVreg d { r with full := true, src := 0 }).advance)
            else .next t.advance
        else match firstFault eas e bad with
          | some (c, ea) => trappedAt s c ea (!load)
          | none =>
            if eas.isEmpty then .next s.advance
            else issueAll s (if load then [.v d] else []) (some la)
              (eas.map fun z =>
                { id := 0, seq := 0, kind := if load then .load false else .store, va := z.2, size := e, elem := z.1
                  dst := if load then .v d else .none, data := if load then 0 else w64 (vElem x.val (8 * e) z.1)
                  poison := !load && x.poison, tag := if load then none else s.me.relTag, ext := ext })
              fun c => if load && whole then c.setVreg d { c.vreg d with poison := false } else c

/-- Contiguous and strided forms. -/
def vecLinear (s : State) (load strided : Bool) (d : BitVec 4) (a b : BitVec 5) (m : BitVec 1) (e : BitVec 2)
    (la : BitVec 4) : Res :=
  withReg s a fun x => withReg s b fun y =>
    vecMem s load d.toNat m (2 ^ e.toNat) la.toNat (x.poison || y.poison) [d.toNat]
      (if strided then [x.val, y.val] else [x.val + y.val, 0]) fun i =>
      if strided then x.val + w64 i * y.val else x.val + y.val + w64 (i * 2 ^ e.toNat)

/-- Indexed forms. -/
def vecIndexed (s : State) (load : Bool) (d : BitVec 4) (a : BitVec 5) (b : BitVec 4) (m : BitVec 1) (e : BitVec 2)
    (la : BitVec 4) : Res :=
  withReg s a fun x =>
    match boundFault s (if s.inTx then [b.toNat] else [d.toNat, b.toNat]) with
    | some n => trapped s 0x19 (w64 (0x8000000000000200 + n))
    | none => withVreg s b.toNat fun ix =>
      vecMem s load d.toNat m (2 ^ e.toNat) la.toNat (x.poison || ix.poison) [d.toNat, b.toNat]
        (x.val :: 0 :: vecWords ix.val) fun i =>
        indexed x.val ix.val (2 ^ e.toNat) i

def execVld (d : BitVec 4) (a b : BitVec 5) (m : BitVec 1) (e : BitVec 2) (l : BitVec 4) (s : State) : Res :=
  vecLinear s true false d a b m e l
def execVst (d : BitVec 4) (a b : BitVec 5) (m : BitVec 1) (e : BitVec 2) (l : BitVec 4) (s : State) : Res :=
  vecLinear s false false d a b m e l
def execVlds (d : BitVec 4) (a b : BitVec 5) (m : BitVec 1) (e : BitVec 2) (l : BitVec 4) (s : State) : Res :=
  vecLinear s true true d a b m e l
def execVsts (d : BitVec 4) (a b : BitVec 5) (m : BitVec 1) (e : BitVec 2) (l : BitVec 4) (s : State) : Res :=
  vecLinear s false true d a b m e l
def execVgath (d : BitVec 4) (a : BitVec 5) (b : BitVec 4) (m : BitVec 1) (e : BitVec 2) (l : BitVec 4) (s : State) : Res :=
  vecIndexed s true d a b m e l
def execVscat (d : BitVec 4) (a : BitVec 5) (b : BitVec 4) (m : BitVec 1) (e : BitVec 2) (l : BitVec 4) (s : State) : Res :=
  vecIndexed s false d a b m e l

end Sys2Proof.Machine
end

