-- ==== Sys2Proof/Machine/Streams.lean ====
section
/-! DEFINITION. Stream instructions and the stream engine (R194 to R206, R214 to R218). -/

namespace Sys2Proof.Machine

/-! ### Accesses of an engine (R176, R177, R196, R214, R332) -/

/-- Outcome of one engine access: its place, a failed check or translation, or not yet. -/
inductive EngOut where
  | ok (pa : Nat)
  | stop (cause : Nat)
  | wait
  | contain
  deriving DecidableEq, Repr

/-- An engine's operation with number id, for a thread at p, reaches size bytes at va. It waits for lines that
other operations own (a write: earlier ones), for commits, and for the fan-outs of writes. -/
def State.engineReach (s : State) (p : Pos) (id : Nat) (va : Word) (size : Nat) (write : Bool) : State × EngOut :=
  let free (pa : Nat) : Bool :=
    let line := lineOf pa
    !(if write then s.ownedLine line (some id) else s.readWaits id line) && !(write && s.halfDone line 0) && (if write then s.lockOf line != 1 && s.lockOf line != 2 else s.lockOf line != 2)
      && (isLocal pa || (!(s.braid p.b).cut
        && !(s.fanouts.any fun f => f.line == line && f.agent != some id && (write || f.sharers.contains p.b))))
  match addressFault va size false false with
  | some c => (s, .stop c)
  | none =>
    if bit va 55 then (s, if free (localPlace p.b va) then .ok (localPlace p.b va) else .wait)
    else match s.translate p va { r := !write, w := write } with
      | (s1, .ok pa _) => (s1, if free pa then .ok pa else .wait)
      | (s1, .fault c _) => (s1, .stop c)
      | (s1, .ask) => (s1, .wait)
      | (s1, .poisoned) => (s1, .contain)

/-- The last unit of p that is a release at .bs or wider and is still to be performed, or 0 (R177). -/
def State.wideRelease (s : State) (p : Pos) : Nat :=
  let xs := (s.ctx p).flights ++ ((s.rill p.b p.r).replay.filter fun e => e.2.pos == p).flatMap fun e => e.2.accs
  (xs.filter Access.releasesWide).foldl (fun m a => max m a.seq) 0

/-- A source read of n bytes by number id of an engine for p, whose command is unit seq and comes after unit `after`: the
current bytes, or what they held before a store of the thread that nothing orders before the command (R177). -/
def State.engineLoad (s : State) (p : Pos) (xp : Bool) (after seq id pa n : Nat) : Nat × Bool :=
  let xs := if xp then [] else (s.ctx p).older.filter fun o =>
    o.word == wordOf pa && decide (after ≤ o.seq) && decide (o.seq < seq)
  match xs[Config.olderWrite id (wordOf pa) % (xs.length + 1)]? with
  | some o => (o.val / 256 ^ (pa % 8) % 256 ^ n, o.poison)
  | none => s.mem.load pa n

/-- A write at the home: every copy is recalled; the bytes carry the tag, or none. -/
def State.homeStore (s : State) (pa size v : Nat) (bad : Bool) (tag : Option Tag) : State :=
  let s0 := if isLocal pa then s else s.recall (lineOf pa)
  let m := s0.mem.store pa size v bad
  (({ s0 with mem := m.setTags pa tag size }).wrote (lineOf pa)).scan pa

/-- An engine's write. -/
def State.engineStore (s : State) (pa size v : Nat) (bad : Bool) : State := s.homeStore pa size v bad none

/-- Earlier writes of the thread to the bytes at pa, whose address is va, are still to be performed: they are in flight,
or logged (R176). -/
def State.earlierOn (s : State) (p : Pos) (seq pa size : Nat) (va : Word) : Bool :=
  ((s.ctx p).flights.any fun a => decide (a.seq < seq) && a.kind.writes && overlaps a { a with pa := pa, size := size })
    || ((s.rill p.b p.r).replay.any fun e => e.2.pos == p && decide (e.2.seq < seq) && e.2.accs.any fun a =>
      a.kind.writes && overlaps { a with pa := a.va.toNat } { a with pa := va.toNat, size := size })

/-- R214: a slot or command stops and context 15 of its rill is told. -/
def State.engineEvent (s : State) (b r k cause idx orig : Nat) (va : Word) (write : Bool) : State :=
  s.post b r { cls := 3, cause := cause, val := va, xstat := xstat 3 0 idx orig 0 k write, rank := s.nextId }

/-! ### Instructions (R202 to R205) -/

/-- Major 0x36: never in a transaction, and after every earlier vector instruction. -/
def streamUnit (s : State) (k : Res) : Res :=
  outsideTx s 0x36 (if s.me.vseq.isEmpty then k else parked s .sequencer)

/-- The traps of SBIND in order: cause and XVAL. -/
def bindFault (bound : Bool) (n k : Nat) (ctl : Word) (ws : List Word) : Option (Nat × Nat) :=
  let e := 2 ^ field ctl 1 0
  let top := 0x8000000000000000
  let x : Stream := { input := true, base := ws.getD 0 0, w1 := ws.getD 1 0, w2 := ws.getD 2 0, w3 := ws.getD 3 0
                      ctl := ctl, cc := 0, xp := false, seq := 0, start := 0 }
  if bound then some (0x19, top + 0x100 + n)
  else if field ctl 31 2 != 0 then some (0x19, top + 0x300)
  else if x.base.toNat % e != 0 then some (0x19, top + k)
  else match [0, 1, 2].find? fun d => (x.stride d).toNat % e != 0 with
    | some d => some (0x19, top + k + d + 1)
    | none => if 2 ^ 48 < x.total then some (0x19, top + k + 1) else none

def bind (s : State) (input : Bool) (v : BitVec 2) (b : BitVec 5) (o c : BitVec 3) (xp : Bool) : Res :=
  streamUnit s <| withReg s b fun y =>
    if y.poison then trapped s 0x0C 0x8000000000000300
    else withOx s o.toNat 4 fun ws =>
      match bindFault (s.me.streams.find v.toNat).isSome (12 + v.toNat) o.toNat y.val ws with
      | some (cause, val) => trapped s cause (w64 val)
      | none =>
        if s.myRill.cc.get 0 c.toNat = 0xFFFF then parked s .counter
        else
          let x : Stream :=
            { input := input, base := ws.getD 0 0, w1 := ws.getD 1 0, w2 := ws.getD 2 0, w3 := ws.getD 3 0, ctl := y.val
              cc := c.toNat, xp := xp, seq := s.me.seq, after := s.wideRelease s.cur, start := field y.val 63 32 }
          .next (((s.modMe fun t => { t with streams := t.streams.put v.toNat x }).raiseCc s.cur.b s.cur.r c.toNat).advance)

def execSbindIn (x : BitVec 1) (v : BitVec 2) (b : BitVec 5) (o c : BitVec 3) (_l : BitVec 4) (s : State) : Res :=
  bind s true v b o c (x == 1)
def execSbindOut (v : BitVec 2) (b : BitVec 5) (o c : BitVec 3) (_l : BitVec 4) (s : State) : Res :=
  bind s false v b o c false

/-- A pushed entry of an output slot is still to be stored. -/
def Stream.undrained (x : Stream) : Bool := !x.input && !x.fifo.isEmpty

/-- The slot is freed and its counter falls; the register reads zero. -/
def State.unbind (s : State) (p : Pos) (v : Nat) (x : Stream) : State :=
  (s.modCtx p fun c => { (c.setVreg (12 + v) {}) with streams := c.streams.drop v }).lowerCc p.b p.r x.cc

def execSunbind (v : BitVec 2) (s : State) : Res :=
  streamUnit s <| match s.me.streams.find v.toNat with
    | none => .next s.advance
    | some x => if x.undrained then parked s .drain else .next (s.unbind s.cur v.toNat x).advance

def execSdrain (v : BitVec 2) (s : State) : Res :=
  streamUnit s <|
    if (s.me.streams.find v.toNat).any Stream.undrained then parked s .drain else .next s.advance

/-- SSTAT's word (R205). -/
def Stream.status (x : Stream) : Word :=
  w64 (x.pos % 2 ^ 48 * 2 ^ 16
    + (if x.input then (x.fifo.filter x.ready).length else x.fifo.length) * 2 ^ 8
    + (if x.canc then 16 else 0) + (if x.ended then 8 else 0) + (if x.flt then 4 else 0)
    + (if x.input then 0 else 2) + 1)

def execSstat (v : BitVec 2) (d : BitVec 5) (s : State) : Res :=
  streamUnit s (wrote s d ((s.me.streams.find v.toNat).elim 0 Stream.status) false)

/-- SRES (R215, R217). -/
def Stream.resolve (x : Stream) (how : Word) : Stream :=
  if how = 0 then { x with flt := false }
  else if how = 1 then { x with flt := false, canc := true, fifo := if x.input then x.fifo.filter x.ready else [] }
  else x

def execSres (a b : BitVec 5) (s : State) : Res :=
  outsideTx s 0x36 <| supervisorOnly s <| streamUnit s <| withControls s a b fun x y =>
    let n := field x 20 16
    let p : Pos := { s.cur with k := field x 3 0 }
    match (if 12 ≤ n && n ≤ 15 then (s.ctx p).streams.find (n - 12) else none) with
    | none => .next s.advance
    | some st =>
      if st.flt then
        let s1 := if y = 1 then st.fifo.foldl (fun t e => t.dropGate e.id) s else s
        .next ((s1.modCtx p fun c => { c with streams := c.streams.put (n - 12) (st.resolve y) }).advance)
      else .next s.advance

/-! ### The engine (R194, R199, R200, R214) -/

/-- The first slot of a rill from the next one on, in round-robin order, that satisfies f. -/
def State.nextSlot (s : State) (b r : Nat) (f : Pos → Stream → Bool) : Option (Pos × Nat × Stream) :=
  let first := (s.rill b r).sNext
  (List.range 64).findSome? fun i =>
    let n := (first + i) % 64
    let p : Pos := ⟨b, r, n / 4⟩
    match (s.ctx p).streams.find (n % 4) with
    | some x => if f p x then some (p, n % 4, x) else none
    | none => none

/-- An input slot has an element to read. Entries at or past the end are never fetched ahead, and so are never ready
entries of SSTAT.FIFO; the manual does not say whether they count there, and this is the model's choice. A cancelled slot
still reads the entries that an image or a move has brought as ready (R218). -/
def State.fetches (s : State) (p : Pos) (x : Stream) : Bool :=
  x.input && !x.flt && (!x.canc || x.fifo.any (fun e => !x.ready e))
    && s.doneBefore p (if x.xp then x.seq else x.after) AccKind.writes
    && (x.fifo.any (fun e => !x.ready e) || (decide (x.fifo.length < 8) && decide (x.pos + x.fifo.length * x.lanes < x.total)))

def State.setSlot (s : State) (p : Pos) (v : Nat) (x : Stream) : State :=
  s.modCtx p fun c => { c with streams := c.streams.put v x }

/-- The elements of an entry from done on, as far as they lie in one line: at most n of them. -/
def fetchEntry (p : Pos) (v : Nat) (x : Stream) : Nat → Option Nat → SEntry → State → State × SEntry
  | 0, _, e, s => (s, e)
  | n + 1, line, e, s =>
    let j := e.first + e.done
    if x.lanes ≤ e.done then (s, e)
    else if x.total ≤ j then (s, { e with done := x.lanes })
    else match s.engineReach p s.nextId (x.addr j) x.esize false with
      | (s1, .stop c) =>
        if line.isNone then
          ((s1.setSlot p v { x with flt := true }).engineEvent p.b p.r p.k 0x19 (12 + v) c (x.addr j) false, e)
        else (s1, e)
      | (s1, .wait) => (s1, e)
      | (s1, .contain) => (s1.contain (s1.basinOf p.b), e)
      | (s1, .ok pa) =>
        if line.all fun l => l == lineOf pa then
          let (w, bad) := s1.engineLoad p x.xp x.after x.seq x.seq pa x.esize
          let e1 := { e with val := e.val ||| BitVec.ofNat 256 (w * 2 ^ (8 * x.esize * e.done)), poison := e.poison || bad
                             done := e.done + 1 }
          fetchEntry p v x n (some (lineOf pa)) e1 s1
        else (s1, e)

/-- A slot with work for the engine of the rill: elements to read, or an entry to store. One round robin goes through
the slots of both kinds (R194). -/
def State.slotWorks (s : State) (p : Pos) (x : Stream) : Bool := s.fetches p x || (x.undrained && !x.flt)

/-- STREAM_FETCH (R200): one line for the next slot, when that is an input slot. -/
def execStreamFetch (b r : Nat) (s : State) : Res :=
  match s.nextSlot b r s.slotWorks with
  | none => .next s
  | some (p, v, x) =>
   if !x.input then .next s
   else
    let s0 := s.modRill b r fun y => { y with sNext := (p.k * 4 + v + 1) % 64 }
    let e := (x.fifo.find? fun e => !x.ready e).getD { first := x.pos + x.fifo.length * x.lanes }
    let (s1, e1) := fetchEntry p v x x.lanes none e s0
    match (s1.ctx p).streams.find v with
    | none => .next s1
    | some y => .next (s1.setSlot p v { y with
        fifo := y.fifo.takeWhile y.ready ++ e1 :: (y.fifo.dropWhile y.ready).drop 1 })

/-- Store the elements of a pushed entry that lie in one line: at most n of them. -/
def storeEntry (p : Pos) (v : Nat) (x : Stream) : Nat → Option Nat → SEntry → State → State × SEntry
  | 0, _, e, s => (s, e)
  | n + 1, line, e, s =>
    match x.toStore e with
    | [] => (s, { e with done := x.lanes })
    | t :: _ =>
      let ea := x.addr (e.first + t)
      match s.engineReach p e.id ea x.esize true with
      | (s1, .stop c) =>
        if line.isNone then
          ((s1.setSlot p v { x with flt := true }).engineEvent p.b p.r p.k 0x19 (12 + v) c ea true, e)
        else (s1, e)
      | (s1, .wait) => (s1, e)
      | (s1, .contain) => (s1.contain (s1.basinOf p.b), e)
      | (s1, .ok pa) =>
        if (line.all fun l => l == lineOf pa) && !s1.earlierOn p e.seq pa x.esize ea then
          match s1.gateInLine p e.id e.seq [lineOf pa] with
          | (s2, true) =>
            storeEntry p v x n (some (lineOf pa)) { e with done := t + 1 }
              (s2.engineStore pa x.esize (e.val.toNat / 2 ^ (8 * x.esize * t) % 2 ^ (8 * x.esize)) e.poison)
          | (s2, false) => (s2, e)
        else (s1, e)

/-- STREAM_STORE (R199): one line of the oldest entry of the next slot, when that is an output slot. -/
def execStreamStore (b r : Nat) (s : State) : Res :=
  match s.nextSlot b r s.slotWorks with
  | none => .next s
  | some (p, v, x) =>
   if x.input then .next s
   else
    let s0 := s.modRill b r fun y => { y with sNext := (p.k * 4 + v + 1) % 64 }
    match x.fifo with
    | [] => .next s0
    | e :: rest =>
      let (s1, e1) := storeEntry p v x (x.lanes + 1) none e s0
      match (s1.ctx p).streams.find v with
      | none => .next s1
      | some y => .next (s1.setSlot p v { y with fifo := if (y.toStore e1).isEmpty then rest else e1 :: rest })

end Sys2Proof.Machine
end

