-- ==== Sys2Proof/Machine/Copy.lean ====
section
/-! DEFINITION. Copy commands and the copy engine (R195, R207 to R217). -/

namespace Sys2Proof.Machine

/-! ### Instructions (R209) -/

/-- The queue entry that a command takes: the lowest that is free. The manual does not say which of several free entries
it is, and this is the model's choice. -/
def Braid.freeCopy (x : Braid) : Option Nat := (List.range 32).find? fun i => !(x.copies.any fun q => q.entry == i)

/-- A command is accepted, or the thread is held until it can be. -/
def acceptCopy (s : State) (op : Nat) (t : BitVec 5) (ws : List Word) (fill : Cell) (c : BitVec 3) (xp : Bool) : Res :=
  match (s.braid s.cur.b).freeCopy with
  | none => parked s .engine
  | some entry =>
    if s.myRill.cc.get 0 c.toNat = 0xFFFF then parked s .counter
    else
      let id := s.nextId
      let q : CopyCmd :=
        { id := id, entry := entry, rill := s.cur.r, ctx := s.cur.k, op := op, o0 := ws.getD 0 0, o1 := ws.getD 1 0
          o2 := ws.getD 2 0, o3 := ws.getD 3 0, fill := fill.val, fillPoison := fill.poison, token := s.me.dest t
          seq := s.me.seq, cc := c.toNat, xp := xp, after := s.wideRelease s.cur }
      let s1 := ({ s with nextId := id + 1 } : State).modMe fun x => x.setEmpty q.token id
      let s2 := s1.modBraid s.cur.b fun x => { x with copies := x.copies ++ [q] }
      .next (s2.raiseCc s.cur.b s.cur.r c.toNat).advance

/-- The ox register at fault in COPYG and COPYF (R209). -/
def copyFault (op : Nat) (ws : List Word) : Option Nat :=
  let e := 2 ^ field (ws.getD 3 0) 33 32
  let isz := if bit (ws.getD 3 0) 34 then 8 else 4
  if op = 1 then
    if (ws.getD 0 0).toNat % e != 0 then some 0
    else if (ws.getD 1 0).toNat % e != 0 then some 1
    else if field (ws.getD 3 0) 63 35 != 0 then some 3
    else if (ws.getD 2 0).toNat % isz != 0 then some 2
    else none
  else if op = 2 && field (ws.getD 1 0) 63 40 != 0 then some 1
  else none

def copyUnit (s : State) (op n : Nat) (t : BitVec 5) (fill : Cell) (o c : BitVec 3) (xp : Bool) : Res :=
  withOx s o.toNat n fun ws =>
    match copyFault op ws with
    | some i => trapped s 0x1A (w64 (0x8000000000000000 + o.toNat + i))
    | none => acceptCopy s op t ws fill c xp

def execCopy (x : BitVec 1) (t : BitVec 5) (o c : BitVec 3) (_l : BitVec 4) (s : State) : Res :=
  outsideTx s 0x37 (copyUnit s 0 4 t {} o c (x == 1))
def execCopyg (x : BitVec 1) (t : BitVec 5) (o c : BitVec 3) (_l : BitVec 4) (s : State) : Res :=
  outsideTx s 0x37 (copyUnit s 1 4 t {} o c (x == 1))
def execCopyf (t v : BitVec 5) (o c : BitVec 3) (_l : BitVec 4) (s : State) : Res :=
  outsideTx s 0x37 <| withReg s v fun y => copyUnit s 2 2 t y o c false

/-! ### The engine (R195, R208, R210, R214) -/

def State.setCopy (s : State) (b : Nat) (q : CopyCmd) : State :=
  s.modBraid b fun x => { x with copies := x.copies.map fun y => if y.id == q.id then q else y }

/-- Two addresses lie in one 64-bit word. -/
def sameWord (x y : Word) : Bool := x.toNat / 8 == y.toNat / 8

/-- R210: the command writes every byte of the word of address ea. -/
def CopyCmd.covers (q : CopyCmd) (ea : Word) : Bool :=
  (List.range 8).all fun j => (List.range q.total).any fun i => q.dst i == w64 (ea.toNat / 8 * 8 + j)

/-- R210: with the n bytes from byte i on, the command has written every byte of the word of address ea. -/
def CopyCmd.completes (q : CopyCmd) (ea : Word) (n : Nat) : Bool :=
  (List.range 8).all fun j => (List.range (q.done + n)).any fun i => q.dst i == w64 (ea.toNat / 8 * 8 + j)

/-- After the n bytes from its next one on, the command writes to the word of address ea again: rows may overlap. -/
def CopyCmd.again (q : CopyCmd) (ea : Word) (n : Nat) : Bool :=
  (List.range (q.total - (q.done + n))).any fun i => sameWord (q.dst (q.done + n + i)) ea

/-- What the command supplies at byte i: n bytes with their poison bit, the address that failed, or not yet. -/
def State.copySource (s : State) (p : Pos) (q : CopyCmd) (i n : Nat) : State × (EngOut × Word) × Nat × Bool :=
  let get (s : State) (va : Word) (n : Nat) : State × (EngOut × Word) × Nat × Bool :=
    match s.engineReach p q.id va n false with
    | (s1, .ok pa) => let (v, bad) := s1.engineLoad p q.xp q.after q.seq q.id pa n; (s1, (.ok pa, va), v, bad)
    | (s1, o) => (s1, (o, va), 0, false)
  match q.op with
  | 0 => get s (q.src i) n
  | 1 =>
    let isz := if bit q.o3 34 then 8 else 4
    let ia := q.o2 + w64 (i / q.gsize * isz)
    match get s ia isz with
    | (s1, (.ok _, _), v, bad) =>
      if bad then (s1, (.stop 0x0C, ia), 0, false)
      else get s1 (q.o1 + (if isz = 4 then sext v 32 else w64 v) * w64 q.gsize) n
    | r => r
  | _ => (s, (.ok 0, 0), q.fill.toNat / 2 ^ (8 * ((q.dst i).toNat % 8)) % 256, q.fillPoison)

/-- Bytes of one access: an element of COPYG, a byte otherwise. -/
def CopyCmd.unit (q : CopyCmd) : Nat := if q.op = 1 then q.gsize else 1

/-- The engine goes on with a command for at most n accesses. -/
def copySteps (p : Pos) : Nat → CopyCmd → State → State
  | 0, q, s => s.setCopy p.b q
  | n + 1, q, s =>
    let halt (s : State) (q : CopyCmd) (o : EngOut) (va : Word) (write : Bool) : State :=
      match o with
      | .stop c => (s.setCopy p.b { q with phase := 2 }).engineEvent p.b p.r p.k 0x1A q.entry c va write
      | .contain => (s.setCopy p.b q).contain (s.basinOf p.b)
      | .wait => s.setCopy p.b q
      | .ok _ => s.setCopy p.b q
    if q.total ≤ q.done then s.setCopy p.b { q with phase := 3 }
    else match s.copySource p q q.done q.unit with
      | (s1, (.ok _, _), v, bad) =>
        let ea := q.dst q.done
        match s1.engineReach p q.id ea q.unit true with
        | (s2, .ok pa) =>
          if s2.earlierOn p q.seq pa q.unit ea then s2.setCopy p.b q
          else match s2.gateInLine p q.id q.seq [lineOf pa] with
          | (s3, false) => s3.setCopy p.b q
          | (s3, true) =>
            let w := ea.toNat / 8
            let mine := q.parts.get false w || bad
            let ends := q.completes ea q.unit
            let old := if q.covers ea && ends then false else s3.mem.poisoned pa
            let s4 := s3.engineStore pa q.unit v bad
            let s5 := if isHost pa then s4 else { s4 with mem := s4.mem.setPoison pa (old || mine) }
            copySteps p n { q with done := q.done + q.unit, parts := if ends && !q.again ea q.unit then q.parts.drop w else q.parts.put w mine } s5
        | (s2, o) => halt s2 q o ea true
      | (s1, (o, va), _, _) => halt s1 q o va false

/-- Commands in progress, and the accepted ones that start now (R195). -/
def Braid.startCopies (x : Braid) : Braid :=
  let busy := (x.copies.filter fun q => q.phase == 1 || q.phase == 2).length
  let next := ((x.copies.filter fun q => q.phase == 0).take (4 - busy)).map CopyCmd.id
  { x with copies := x.copies.map fun q => if next.contains q.id then { q with phase := 1 } else q }

/-- COPY_ENGINE_STEP (R195): the next command in progress, for 64 destination bytes. -/
def execCopyEngineStep (b : Nat) (s : State) : Res :=
  let s1 := s.modBraid b Braid.startCopies
  let x := s1.braid b
  let able (q : CopyCmd) : Bool :=
    q.phase == 1 && s1.doneBefore ⟨b, q.rill, q.ctx⟩ (if q.xp then q.seq else q.after) AccKind.writes
  let next := (List.range 32).findSome? fun i =>
    x.copies.find? fun q => q.entry == (x.copyNext + i) % 32 && able q
  match next with
  | none => .next s1
  | some q =>
    .next ((copySteps ⟨b, q.rill, q.ctx⟩ (64 / q.unit) q s1).modBraid b fun y => { y with copyNext := (q.entry + 1) % 32 })

/-- COPY_COMPLETE (R211). -/
def execCopyComplete (b q : Nat) (s : State) : Res :=
  match (s.braid b).copies.find? fun x => x.entry == q && (x.phase == 3 || (x.phase == 1 && decide (x.total ≤ x.done))) with
  | none => .next s
  | some x =>
    let s1 := s.modBraid b fun y => { y with copies := y.copies.filter fun z => z.id != x.id }
    let v := w64 (x.done + if x.cancelled then 2 ^ 63 else 0)
    let s2 := s1.modCtx ⟨b, x.rill, x.ctx⟩ fun c => c.fill x.token x.id v false
    .next (s2.lowerCc b x.rill x.cc)

/-- CRES (R215, R217). -/
def execCres (a b : BitVec 5) (s : State) : Res :=
  outsideTx s 0x37 <| supervisorOnly s <| withControls s a b fun x y =>
    match (s.braid s.cur.b).copies.find? fun q =>
        q.phase == 2 && q.entry == field x 20 16 && q.rill == s.cur.r && q.ctx == field x 3 0 with
    | none => .next s.advance
    | some q =>
      if y = 0 then .next (s.setCopy s.cur.b { q with phase := 1 }).advance
      else if y = 1 then .next ((s.dropGate q.id).setCopy s.cur.b { q with phase := 3, cancelled := true }).advance
      else .next s.advance

end Sys2Proof.Machine
end

