-- ==== Sys2Proof/Machine/MxFn.lean ====
section
/-! DEFINITION. Arithmetic of the matrix engine: element values, alignment, contributions, multiplies, tile
conversions and the torus (R253, R257 to R261, R271, R272, R278). -/

namespace Sys2Proof.Machine

/-! ### Element values (R219, R221, R257) -/

/-- The value of an element code. -/
def elementValue (fmt x : Nat) : FVal :=
  match fmt with
  | 1 => fmtF32.decode x
  | 2 => fmtF16.decode x
  | 3 => fmtBf16.decode x
  | 4 => fmtE4m3.decode x
  | 5 => fmtE5m2.decode x
  | 6 => fmtE3m2.decode x
  | 7 => fmtE2m3.decode x
  | 8 => fmtE2m1.decode x
  | _ => let k := sextNat x 8; .num (decide (k < 0)) k.natAbs (-6)

/-- An MX element: scaled by its block's code (R222). -/
def mxValue (scale : Option Nat) (x : FVal) : FVal :=
  match scale with
  | none => x
  | some sc =>
    if sc = 255 then .nan false
    else match x with
      | .num s m e => .num s m (e + sc - 127)
      | .inf s => .inf s
      | .nan b => .nan b

/-! ### Alignment and contributions (R259, R260) -/

def FVal.special : FVal → Bool
  | .num _ _ _ => false
  | .inf _ => true
  | .nan _ => true

/-- floor(log2 |x|) of a nonzero number. -/
def FVal.exponent : FVal → Option Int
  | .num _ m e => if m = 0 then none else some (m.log2 + e)
  | .inf _ => none
  | .nan _ => none

/-- m_i of Align. -/
def alignOne (w : Nat) (e : Int) : FVal → Int
  | .num s m x =>
    clamp (roundInt 0 0 s m (x + ((w : Int) - 2 - e))).1 (-(2 ^ (w - 1) - 1)) (2 ^ (w - 1) - 1)
  | .inf _ => 0
  | .nan _ => 0

/-- Align(x, w), with the poison bits of the words that supply the block. -/
def align (w : Nat) (xs : List (FVal × Bool)) : MBlock :=
  let bad := xs.any Prod.snd
  if xs.any fun x => x.1.special then { special := true, poison := bad }
  else match (xs.filterMap fun x => x.1.exponent).max? with
    | none => { m := xs.map fun _ => 0, poison := bad }
    | some e => { e := e, m := xs.map fun x => alignOne w e x.1, poison := bad }

/-- Round(m * 2^e, binary32, RNE) of an integer m. -/
def roundF32 (m : Int) (e : Int) : Nat :=
  if m = 0 then 0 else (fmtF32.round 0 false 0 (decide (m < 0)) m.natAbs e false).1

/-- Contribution of an A block of width wa and a B block of width wb. -/
def contribution (a b : MBlock) (wa wb : Nat) : Nat :=
  if a.special || b.special then fmtF32.nan
  else
    let t := (a.m.zip b.m).foldl (fun n x => n + x.1 * x.2) 0
    match fmtF32.decode (roundF32 t 0) with
    | .num s m e =>
      let x : Int := if s then -(m : Int) else m
      roundF32 x (e + (a.e - wa + 2 + b.e - wb + 2))
    | .inf s => fmtF32.inf s
    | .nan _ => fmtF32.nan

/-- One update of R261. -/
def accumulate (e : Nat × Bool) (a b : MBlock) (wa wb : Nat) : Nat × Bool :=
  (((fAdd 0 (fmtF32.decode e.1) (fmtF32.decode (contribution a b wa wb))).to fmtF32 0 false 0).1,
   e.2 || a.poison || b.poison)

/-- Width in bits of a bank's cells (R267). -/
def bankWidth (bw : Nat) : Nat := if bw = 0 then 8 else if bw = 1 then 4 else 16

/-! ### Tiles (R254, R271) -/

def Tile.el (t : Tile) (i n : Nat) : Nat × Bool := t.els.get (0, false) (i * 96 + n)
def Tile.setEl (t : Tile) (i n : Nat) (v : Nat × Bool) : Tile := { t with els := t.els.put (i * 96 + n) v }
def Braid.tile (x : Braid) (t : Nat) : Tile := x.tiles.get {} t
def Braid.modTile (x : Braid) (t : Nat) (f : Tile → Tile) : Braid := { x with tiles := x.tiles.put t (f (x.tile t)) }
def Braid.slot (x : Braid) (j : Nat) : Slot := x.slots.get {} j
def Braid.modSlot (x : Braid) (j : Nat) (f : Slot → Slot) : Braid := { x with slots := x.slots.put j (f (x.slot j)) }

/-- A bank by its number: slot * 2, and 1 more for the shadow bank. -/
def Braid.bank (x : Braid) (n : Nat) : Bank := if n % 2 = 0 then (x.slot (n / 2)).active else (x.slot (n / 2)).shadow
def Braid.setBank (x : Braid) (n : Nat) (k : Bank) : Braid :=
  x.modSlot (n / 2) fun y => if n % 2 = 0 then { y with active := k } else { y with shadow := k }

/-! ### Multiplies (R261, R269) -/

/-- The panels of a multiply: the slots that feed a panel, each with the first A block it meets, and the
panel's number. -/
def MxCmd.panels (q : MxCmd) (x : Braid) : List (List (Nat × Nat) × Nat) :=
  let blocks := logicalRows (x.slot (q.slots.headD 0)).active.sparsity / 24
  match q.mode with
  | 0 => [([(q.slot, 0)], 0)]
  | 1 => [((List.range 8).map fun j => (j, j * blocks), 0)]
  | _ => (List.range 8).map fun j => ([(j, 0)], j)

/-- Tile and column of column n of a panel. -/
def MxCmd.place (q : MxCmd) (panel n : Nat) : Nat × Nat :=
  if q.bw = 0 then (q.tile + panel, n)
  else if q.bw = 1 then (q.tile + 2 * panel + n / 96, n % 96)
  else if q.mode = 2 then (q.tile + panel / 2, 48 * (panel % 2) + n)
  else (q.tile, (if bit q.b 21 then 48 else 0) + n)

/-- The element of row i and column n of a panel: its blocks in ascending order, slot 0 first. -/
def multiplyElement (x : Braid) (wa : Nat) (rowBlocks : List MBlock) (feeds : List (Nat × Nat)) (n : Nat)
    (e : Nat × Bool) : Nat × Bool :=
  feeds.foldl (fun e f =>
    let bk := (x.slot f.1).active
    (List.range (logicalRows bk.sparsity / 24)).foldl (fun e b =>
      accumulate e (rowBlocks.getD (f.2 + b) {}) (bk.blocks.get {} (n * 16 + b)) wa (bankWidth bk.width)) e) e

/-- Every element of every tile that a multiply writes, from the blocks of the rows of A. -/
def multiply32 (x : Braid) (q : MxCmd) (rows : List (List MBlock)) : Braid :=
  (q.panels x).foldl (fun y pn =>
    (List.range 32).foldl (fun y i =>
      (List.range (bankColumns q.bw)).foldl (fun y n =>
        let (t, c) := q.place pn.2 n
        y.modTile t fun z =>
          z.setEl i c (multiplyElement x q.width (rows.getD i []) pn.1 n (if bit q.b 18 then (0, false) else z.el i c))) y) y) x

/-! ### Conversions of tiles (R271, R272, R273) -/

/-- Convert of MXSTACC. -/
def storeConvert (fmt rm : Nat) (satf : Bool) (v : Nat) : Nat :=
  let x := fmtF32.decode v
  let mode := if rm = 5 then 0 else rm
  match fmt with
  | 1 => if x.isNan then fmtF32.nan else v
  | 2 => (fmtF16.convert mode satf 0 x).1
  | 3 => (fmtBf16.convert mode satf 0 x).1
  | 4 => (fmtE4m3.convert mode satf 0 x).1
  | _ => (fmtE5m2.convert mode satf 0 x).1

/-- The widened source value of MXLDACC. -/
def loadConvert (fmt v : Nat) : Nat := (fmtF32.convert 0 false 0 (elementValue fmt v)).1

/-- One row of MXRMAX over its first n elements, with the old word under MERGE. -/
def rowMax (t : Tile) (i n : Nat) (old : Option (Nat × Bool)) : Nat × Bool :=
  let xs := (List.range n).map (t.el i) ++ old.toList
  match xs with
  | [] => (0, false)
  | x :: _ => xs.foldl (fun m y => ((fmtF32.pick true m.1 y.1).1, m.2 || y.2)) x

/-! ### The torus (R12, R13, R278, R279) -/

/-- Origin column and row, columns and rows of the sub-torus of a torus word. -/
def subTorus (w : Word) : Nat × Nat × Nat × Nat :=
  (field w 8 6, field w 5 4, 2 ^ field w 3 2, 2 ^ field w 1 0)

/-- The braids of a sub-torus on the die of a braid. -/
def torusBraids (b : Nat) (w : Word) : List Nat :=
  let (x0, y0, nx, ny) := subTorus w
  (List.range ny).flatMap fun j => (List.range nx).map fun i => b / 32 * 32 + (y0 + j) * 8 + (x0 + i)

/-- The neighbour of a braid in its sub-torus: 0 east, 1 south, 2 west, 3 north. -/
def torusNeighbour (b dir : Nat) (w : Word) : Nat :=
  let (x0, y0, nx, ny) := subTorus w
  let x := b % 8 - x0
  let y := b % 32 / 8 - y0
  let (x', y') := match dir with
    | 0 => ((x + 1) % nx, y)
    | 1 => (x, (y + 1) % ny)
    | 2 => ((x + nx - 1) % nx, y)
    | _ => (x, (y + ny - 1) % ny)
  b / 32 * 32 + (y0 + y') * 8 + (x0 + x')

/-- Braids that a transfer between two neighbours passes on the wrap of the sub-torus. -/
def torusPassed (b c : Nat) : Nat :=
  let d := (if b % 8 < c % 8 then c % 8 - b % 8 else b % 8 - c % 8)
    + (if b % 32 / 8 < c % 32 / 8 then c % 32 / 8 - b % 32 / 8 else b % 32 / 8 - c % 32 / 8)
  d - 1

end Sys2Proof.Machine
end

