-- ==== Sys2Proof/Machine/Matrix.lean ====
section
/-! DEFINITION. Matrix commands: issue, the arbiter, the engine's work, completion and control instructions
(R254 to R284, R448). -/

namespace Sys2Proof.Machine

/-! ### Issue checks (R255, R264) -/

/-- An address fails R143 check 2, or check 4. -/
def badSpace (a : Word) : Bool := field a 63 56 != 0
def badLocal (a : Word) (must : Bool) : Bool :=
  if bit a 55 then (addressFault a 1 false false).isSome else must

/-- The addresses of a command that must lie in local store, and the others. -/
def MxCmd.localAddrs (q : MxCmd) : List Word :=
  match q.op with
  | 1 => if q.usesAux then [q.a, q.o1] else [q.a]
  | 2 => [q.a]
  | 7 => [q.a, q.a + w64 (4 * (q.rows - 1) + 3)]
  | 8 => [q.a, q.a + w64 (4 * (q.rows - 1) + 3)]
  | _ => []
def MxCmd.otherAddrs (q : MxCmd) : List Word :=
  match q.op with
  | 0 => if q.usesAux then [q.a, q.o1] else [q.a]
  | 5 => [q.a]
  | 6 => [q.a]
  | _ => []

/-- The alignment of R258: MXLDB is judged by B, AUX and both pitches (R264); MXMMA and MXROT by A and its pitch,
and by AUX and its pitch where the scale codes of A are read. -/
def MxCmd.aligned (q : MxCmd) : Bool :=
  let u := elementUnit q.fmt q.pk
  let on (x : Word) : Bool := x.toNat % u == 0
  let pitch (x : Word) : Bool := x.toInt % (u : Int) == 0
  on q.a && pitch q.pitch && ((q.op != 0 && !q.mxs) || (pitch q.spitch && on q.o1))

/-- The torus word of MXROT for a braid (R278). -/
def torusOk (b : Nat) (w : Word) : Bool :=
  let (x0, y0, nx, ny) := subTorus w
  field w 63 32 == 0 && field w 15 9 == 0 && field w 1 0 != 3 && x0 % nx == 0 && y0 % ny == 0
    && (torusBraids b w).contains b

/-- The fields of control words of accumulator-unit commands (R271), with what each command uses. -/
def accFieldsOk (q : MxCmd) : Bool :=
  let b := q.b
  let orZero (used : Bool) (hi lo : Nat) : Bool := used || field b hi lo == 0
  field b 63 38 == 0 && !bit b 31 && field b 23 21 == 0 && !bit b 15
    && orZero (q.op == 4) 37 32 && (q.op != 4 || decide (q.tile + field b 37 32 ≤ 63))
    && orZero (q.op == 5 || q.op == 6 || q.op == 8) 30 24 && decide (field b 30 24 ≤ 96)
    && orZero (5 ≤ q.op) 20 16
    && orZero (q.op == 6) 14 12 && field b 14 12 != 6
    && orZero (q.op == 8) 11 11 && orZero (q.op == 6) 10 10
    && (if q.op = 5 then decide (1 ≤ q.fmt ∧ q.fmt ≤ 3) else if q.op = 6 then decide (1 ≤ q.fmt ∧ q.fmt ≤ 5)
        else q.fmt == 0)
    && (q.op ≤ 6 || q.a.toNat % 4 == 0)

/-- The control fields of a command (code 0x40). -/
def MxCmd.fieldsOk (q : MxCmd) (br : Nat) : Bool :=
  let b := q.b
  let own := match q.op with
    | 0 => field b 63 14 == 0 && formatOk q.fmt q.mxs q.pk && q.bw != 3 && !(q.mxs && q.sp != 0) && q.aligned
    | 1 => field b 63 24 == 0 && formatOk q.fmt q.mxs q.pk && q.bw != 3 && decide (field b 17 15 ≤ 4) && q.mode != 3
        && (!bit b 21 || (q.bw == 2 && q.mode != 2)) && q.aligned
    | 2 => field b 63 24 == 0 && formatOk q.fmt q.mxs q.pk && q.bw != 3 && decide (field b 17 15 ≤ 4) && q.mode == 0
        && !bit b 21 && !q.mxs && q.aligned && torusOk br q.o1
    | 3 => field b 63 3 == 0
    | _ => accFieldsOk q
  own && !((q.localAddrs ++ q.otherAddrs).any badSpace)

/-- A tile that a command may name (R255). Once a tile has a pending rill, its old owner may no longer name it
(R281). -/
def State.tileOk (s : State) (t : Nat) : Bool :=
  let x := (s.braid s.cur.b).tile t
  decide (t ≤ 63) && (if x.pending.isSome then x.pending == some s.cur.r else x.owner == some s.cur.r)
    && (s.cur.k == 15 || (x.cohort.isSome && x.cohort == s.me.cohort))
def State.slotOk (s : State) (j : Nat) : Bool :=
  let x := (s.braid s.cur.b).slot j
  s.cur.k == 15 || (x.cohort.isSome && x.cohort == s.me.cohort)

/-- IssueChecks: 0 when none applies. Only the lead of a team is checked under 0x41 to 0x43. -/
def State.mxIssueCode (s : State) (q : MxCmd) : Nat :=
  if !q.fieldsOk s.cur.b then 0x40
  else if !q.leads then 0
  else if !q.named.all s.tileOk then 0x41
  else if !q.slots.all s.slotOk then 0x42
  else if (q.localAddrs.any fun a => badLocal a true) || (q.otherAddrs.any fun a => badLocal a false) then 0x43
  else 0

/-! ### Issue (R262, R263) -/

/-- Commands in the queue of a rill, in order. -/
def Braid.mxQueue (x : Braid) (r : Nat) : List MxCmd := x.mx.filter fun q => q.rill == r

def Braid.mxEntry (x : Braid) (r : Nat) : Option Nat :=
  (List.range 16).find? fun i => !((x.mxQueue r).any fun q => q.entry == i)

/-- Tiles that a command counts at acceptance: those of its rill. -/
def Braid.countOut (x : Braid) (r : Nat) (ts : List Nat) : Braid × List Nat :=
  let mine := ts.filter fun t => (x.tile t).owner == some r
  (mine.foldl (fun y t => y.modTile t fun z => { z with out := z.out + 1 }) x, mine)

/-- Enqueue a command of rill r and context k on braid b, with its counter and OUT raised. -/
def State.enqueueMx (s : State) (b : Nat) (q : MxCmd) (entry : Nat) : State :=
  let (x, ts) := (s.braid b).countOut q.rill q.named
  let y := { x with mx := x.mx ++ [{ q with id := s.nextId, entry := entry, tiles := ts }] }
  (({ s with nextId := s.nextId + 1 } : State).setBraid b y).raiseCc b q.rill q.cc

/-- A command of major 0x38. n is the size of its ox block. -/
def matrixCmd (s : State) (op : Nat) (a b : BitVec 5) (o : BitVec 3) (n : Nat) (c : BitVec 3) (xp : Bool) : Res :=
  outsideTx s 0x38 <| withReg s a fun x => withReg s b fun y =>
    if !((s.me.oxBlock o.toNat n).all fun z => z.full) then parked s .register
    else if x.poison || y.poison then trapped s 0x0C x.val
    else withOx s o.toNat n fun ws =>
      let fcsr := s.sr 0x020
      let q : MxCmd :=
        { id := 0, entry := 0, rill := s.cur.r, ctx := s.cur.k, op := op, a := x.val, b := y.val, o0 := ws.getD 0 0
          o1 := ws.getD 1 0, cc := c.toNat, xp := xp, team := s.me.team, seq := s.me.seq
          after := s.wideRelease s.cur
          rm := if op = 6 then (if rmOf fcsr (field y.val 14 12) = 5 then 0 else rmOf fcsr (field y.val 14 12)) else 0
          satf := op == 6 && bit fcsr 3 }
      let code := s.mxIssueCode q
      if code != 0 then trapped s 0x18 (w64 (0x8000000000000000 + code))
      else match (s.braid s.cur.b).mxEntry s.cur.r with
        | none => parked s .engine
        | some e =>
          if s.myRill.cc.get 0 c.toNat = 0xFFFF then parked s .counter
          else .next (((s.enqueueMx s.cur.b q e).modMe fun z => { z with team := none }).advance)

def execMxldb (x : BitVec 1) (a b : BitVec 5) (o c : BitVec 3) (_l : BitVec 4) (s : State) : Res :=
  matrixCmd s 0 a b o 2 c (x == 1)
def execMxmma (a b : BitVec 5) (o c : BitVec 3) (_l : BitVec 4) (s : State) : Res := matrixCmd s 1 a b o 2 c false
def execMxrot (a b : BitVec 5) (o c : BitVec 3) (_l : BitVec 4) (s : State) : Res := matrixCmd s 2 a b o 2 c false
def execMxswap (b : BitVec 5) (c : BitVec 3) (_l : BitVec 4) (s : State) : Res := matrixCmd s 3 0 b 0 0 c false
def execMxclr (b : BitVec 5) (c : BitVec 3) (_l : BitVec 4) (s : State) : Res := matrixCmd s 4 0 b 0 0 c false
def execMxldacc (x : BitVec 1) (a b : BitVec 5) (o c : BitVec 3) (_l : BitVec 4) (s : State) : Res :=
  matrixCmd s 5 a b o 1 c (x == 1)
def execMxstacc (a b : BitVec 5) (o c : BitVec 3) (_l : BitVec 4) (s : State) : Res := matrixCmd s 6 a b o 1 c false
def execMxscale (a b : BitVec 5) (c : BitVec 3) (_l : BitVec 4) (s : State) : Res := matrixCmd s 7 a b 0 0 c false
def execMxrmax (a b : BitVec 5) (c : BitVec 3) (_l : BitVec 4) (s : State) : Res := matrixCmd s 8 a b 0 0 c false

/-! ### Completion (R263, R281, R282) -/

/-- R281: a tile that nothing counts goes to its pending rill. -/
def Tile.settle (t : Tile) : Tile :=
  match t.pending with
  | some r => if t.out = 0 then { t with owner := some r, pending := none } else t
  | none => t

/-- A command leaves its queue: its counter and OUT of its tiles fall. -/
def State.removeMx (s : State) (b : Nat) (q : MxCmd) : State :=
  let s1 := (s.dropGate q.id).modBraid b fun x =>
    let y := { x with mx := x.mx.filter fun z => z.id != q.id }
    q.tiles.foldl (fun z t => z.modTile t fun w => ({ w with out := w.out - 1 }).settle) y
  s1.lowerCc b q.rill q.cc

/-- Partners of an MXROT in its sub-torus. -/
def MxCmd.partners (q : MxCmd) (b : Nat) : List Nat :=
  ((List.range 4).map fun d => torusNeighbour b d q.o1).filter fun c => c != b

def MxCmd.tag (q : MxCmd) : Nat := field q.o1 31 16

/-- An MXROT of a braid under a tag completes or is cancelled. -/
def BadTag.finish (b tag : Nat) (x : BadTag) : BadTag :=
  if x.braid != b || x.tag != tag || x.done then x
  else if x.skip = 0 then { x with done := true }
  else { x with skip := x.skip - 1 }

/-- The marks of a cancelled MXROT stand until every partner of it has completed or is cancelled. -/
def liveTags (xs : List BadTag) : List BadTag := xs.filter fun x => xs.any fun y => y.rot == x.rot && !y.done

/-- A command completes, with the members of its team. -/
def State.finishMx (s : State) (b : Nat) (q : MxCmd) : State :=
  let members := (s.braid b).mx.filter fun z => z.id != q.id && z.lead == q.id
  let s1 := (q :: members).foldl (fun t z => t.removeMx b z) s
  if q.op = 2 then { s1 with badTags := liveTags (s1.badTags.map (BadTag.finish b q.tag)) } else s1

/-- The event of a command (R265, R266). -/
def State.mxEvent (s : State) (b : Nat) (q : MxCmd) (code : Nat) (va : Word) (write : Bool) : State :=
  s.engineEvent b q.rill q.ctx 0x18 q.entry code va write

/-! ### Start (R265, R269 to R274) -/

/-- Bytes of an operand in local store with the poison of their words. -/
def State.localByte (s : State) (b : Nat) (va : Word) : Nat × Bool := s.mem.load (localPlace b va) 1

/-- The code of an element, from the bytes at an address, at a bit offset: value and poison. -/
def State.localElement (s : State) (b : Nat) (base : Word) (bits k : Nat) : Nat × Bool :=
  let first := k * bits / 8
  let last := (k * bits + bits - 1) / 8
  let bs := (List.range (last + 1 - first)).map fun i => s.localByte b (base + w64 (first + i))
  let v := (bs.foldr (fun x n => x.1 + 256 * n) 0) / 2 ^ (k * bits % 8) % 2 ^ bits
  (v, bs.any Prod.snd)

/-- The blocks of row i of A, of K elements (R258, R259). -/
def State.rowOfA (s : State) (b : Nat) (q : MxCmd) (k i : Nat) : List MBlock :=
  let bits := elementBits q.fmt q.pk
  let base := q.a + w64 i * q.pitch
  (List.range (k / 24)).map fun j =>
    align q.width ((List.range 24).map fun t =>
      let e := 24 * j + t
      let (v, bad) := s.localElement b base bits e
      if q.mxs then
        let (sc, bad2) := s.localByte b (q.o1 + w64 i * q.spitch + w64 (e / 32))
        (mxValue (some sc) (elementValue q.fmt v), bad || bad2)
      else (elementValue q.fmt v, bad))

/-- The rows of A lie in local store (R30). -/
def State.extentOk (s : State) (b : Nat) (q : MxCmd) : Bool :=
  let x := s.braid b
  let ok (a : Word) : Bool := bit a 55 && field a 63 56 == 0 && !badLocal a true
  (List.range 32).all fun i =>
    let row := q.a + w64 i * q.pitch
    ok row && ok (row + w64 (q.rowBytes x - 1))
      && (!q.usesAux || (ok (q.o1 + w64 i * q.spitch) && ok (q.o1 + w64 i * q.spitch + w64 ((q.kOf x - 1) / 32))))

/-- R265: the banks that a command reads are loaded, of its width and of one sparsity. The shadow bank of an MXROT is
asked for on a sub-torus of one row as well, where nothing of it is sent: the manual makes no exception there and does not
say, so that this is the model's reading. -/
def banksOk (x : Braid) (q : MxCmd) : Bool :=
  let bs := q.banks.map x.bank
  bs.all (fun k => k.loaded && k.width == q.bw)
    && (q.op == 2 || bs.all fun k => k.sparsity == (bs.headD {}).sparsity)

/-- Two partners of a transfer agree (R279). -/
def State.agrees (s : State) (b : Nat) (q : MxCmd) (c : Nat) (r : MxCmd) : Bool :=
  q.fmt == r.fmt && q.pk == r.pk && q.width == r.width && q.kOf (s.braid b) == r.kOf (s.braid c)
    && q.rowBytes (s.braid b) == r.rowBytes (s.braid c)
    && ((s.braid b).slot q.slot).active.width == ((s.braid c).slot r.slot).active.width
    && ((s.braid b).slot q.slot).active.sparsity == ((s.braid c).slot r.slot).active.sparsity

/-- The running MXROT of a braid under a tag. -/
def Braid.rotOf (x : Braid) (tag : Nat) : Option MxCmd :=
  x.mx.find? fun r => r.op == 2 && r.phase == 1 && r.lead == 0 && r.tag == tag

/-- Partners that run under the same tag, still owe the command a transfer, and disagree. A partner that owes none pairs its
next step, which is checked when it starts. -/
def State.rotConflicts (s : State) (b : Nat) (q : MxCmd) : List (Nat × MxCmd) :=
  ((List.range 4).filterMap fun d =>
    let c := torusNeighbour b d q.o1
    let back := (d + 2) % 4
    match (s.braid c).rotOf q.tag with
    | some r =>
      if c != b && r.links.contains back && torusNeighbour c back r.o1 == b && !s.agrees b q c r then some (c, r) else none
    | none => none).eraseDups

/-- The code of R265 that holds at start. The manual gives no order of the codes where several conditions hold: this model
takes 0x47 first (State.startMx), a torus outside the basin (0x46) before 0x44, and a partner's 0x46 last, which is its own
choice. -/
def State.mxStartCode (s : State) (b : Nat) (q : MxCmd) : Nat :=
  if q.op = 1 || q.op == 2 then
    if q.op == 2 && !((torusBraids b q.o1).contains b
        && (torusBraids b q.o1).all fun c => (s.braid c).inBasin (s.basinOf b)) then 0x46
    else if !banksOk (s.braid b) q || !s.extentOk b q then 0x44
    else if q.op == 2 && !(s.rotConflicts b q).isEmpty then 0x46
    else 0
  else 0

/-- R276: no earlier local-store write of the thread is still to be performed, where the command reads local
store at start. -/
def State.localReady (s : State) (b : Nat) (q : MxCmd) : Bool :=
  let c := s.ctx ⟨b, q.rill, q.ctx⟩
  !(q.op == 1 || q.op == 2 || q.op == 7 || q.op == 8)
    || (!(c.flights.any fun a => decide (a.seq < q.seq) && a.kind.writes && isLocal a.pa)
        && c.blocks.all fun x => decide (q.seq ≤ x.seq))

/-- The oldest unstarted command of a rill's queue. -/
def Braid.mxHead (x : Braid) (r : Nat) : Option MxCmd := (x.mxQueue r).find? fun q => q.phase == 0

/-- R282: every rill of the mask has the team's command at its head. -/
def Braid.teamReady (x : Braid) (q : MxCmd) : Bool :=
  match q.team with
  | none => true
  | some w => (lanes (teamMask w)).all fun r => (x.mxHead r).any fun h => h.team == some w && h.ctx == q.ctx

/-- R448: starts that the budget still allows in the current 1024 rill cycles. That these are the fixed periods that begin at the
multiples of 1024, and no sliding window, is the model's choice (log entry 166). -/
def State.budgetOk (s : State) (b : Nat) (q : MxCmd) : Bool :=
  match s.budget with
  | none => true
  | some n =>
    let x := s.braid b
    !(q.op == 1 || q.op == 2) || decide ((if x.startsFrom = s.cycle / 1024 then x.starts else 0) < n)

/-- R274: the command at the head of a queue can start. That the local-store reads of its start (R276) do not wait for lines that
an earlier copy or stream operation owns (R176) is the model's choice (log entry 161). -/
def State.canStart (s : State) (b : Nat) (q : MxCmd) : Bool :=
  let x := s.braid b
  let busy := x.mx.filter fun r => r.phase != 0 && r.lead == 0
  q.leads
    && !((x.mxQueue q.rill).any fun r => decide (r.id < q.id) && r.shares q)
    && !(busy.any fun r => r.shares q || (r.unitOf != 0 && r.unitOf == q.unitOf))
    && q.named.all (fun t => (x.tile t).owner == some q.rill)
    && x.teamReady q
    && !(q.op == 2 && (x.rotOf q.tag).isSome)
    && s.localReady b q && s.budgetOk b q

/-- Rill cycles from start to completion, beyond memory time (R267, R268, R270, R271). -/
def MxCmd.cycles (q : MxCmd) : Nat :=
  match q.op with
  | 0 => 160
  | 1 => 32 * q.width
  | 2 => 32 * q.width
  | 3 => 1
  | 4 => 8 * (field q.b 37 32 + 1)
  | _ => 32

/-- What a command does at its start. A bank that is to be loaded is empty from then on, so that SLOTSTAT shows its BW and SP as 0
until it is loaded, and after a load that was cancelled: R256 gives no value there, and this is the model's choice (log entry
160). -/
def State.mxEffect (s : State) (b : Nat) (q : MxCmd) : State × MxCmd :=
  let x := s.braid b
  match q.op with
  | 0 => (s.setBraid b (x.setBank (q.banks.headD 0) {}), q)
  | 1 => (s.setBraid b (multiply32 x q ((List.range 32).map (s.rowOfA b q (q.kOf x)))), q)
  | 2 =>
    let bytes := (List.range 32).flatMap fun i =>
      (List.range (q.rowBytes x)).map fun j => s.localByte b (q.a + w64 i * q.pitch + w64 j)
    let links := (List.range 4).filter fun d => torusNeighbour b d q.o1 != b
    (s.setBraid b (multiply32 x q ((List.range 32).map (s.rowOfA b q (q.kOf x)))),
     { q with saved := bytes, bank := x.bank (2 * q.slot + 1), links := links })
  | 3 => (s.setBraid b (x.modSlot q.slot fun y => { y with active := y.shadow, shadow := y.active }), q)
  | 4 => (s.setBraid b (q.named.foldl (fun y t => y.modTile t fun z => { z with els := [] }) x), q)
  | 5 => (s, q)
  | 6 => (s, q)
  | 7 => (s.setBraid b (x.modTile q.tile fun z =>
      (List.range q.rows).foldl (fun z i =>
        let (v, bad) := s.mem.load (localPlace b (q.a + w64 (4 * i))) 4
        (List.range 96).foldl (fun z n =>
          let (e, p) := z.el i n
          z.setEl i n (((fMul (fmtF32.decode e) (fmtF32.decode v)).to fmtF32 0 false 0).1, p || bad)) z) z), q)
  | _ =>
    let old (i : Nat) : Option (Nat × Bool) :=
      if bit q.b 11 then some (s.mem.load (localPlace b (q.a + w64 (4 * i))) 4) else none
    (s, { q with saved := (List.range q.rows).map fun i => rowMax (x.tile q.tile) i q.columns (old i) })

def State.setMx (s : State) (b : Nat) (q : MxCmd) : State :=
  s.modBraid b fun x => { x with mx := x.mx.map fun z => if z.id == q.id then q else z }

/-- The members of a team, the lead first. -/
def Braid.teamOf (x : Braid) (q : MxCmd) : List MxCmd :=
  match q.team with
  | none => [q]
  | some w => q :: ((lanes (teamMask w)).filterMap fun r => x.mxHead r).filter fun z => z.id != q.id

/-- Start a command (R274, R275, R282). A partner that started earlier and disagrees completes with 0x46 and keeps its
multiply and the transfers that it has made, since R265 speaks of what holds at a start (model's choice, log entry 47). -/
def State.startMx (s : State) (b : Nat) (q : MxCmd) : State :=
  let team := (s.braid b).teamOf q
  let differ := team.any fun z => z.op != q.op || z.b != q.b
  let code := s.mxStartCode b q
  if differ then team.foldl (fun t z => (t.mxEvent b z 0x47 0 false).finishMx b z) s
  else if code != 0 then
    let s1 := if code = 0x46 then (s.rotConflicts b q).foldl (fun t z => (t.mxEvent z.1 z.2 0x46 0 false).finishMx z.1 z.2) s
      else s
    team.foldl (fun t z => t.finishMx b z) (s1.mxEvent b q code 0 false)
  else
    let (s1, q1) := s.mxEffect b q
    let s2 := s1.setMx b { q1 with phase := 1, began := s.cycle, due := s.cycle + q.cycles }
    (team.drop 1).foldl (fun t z => t.setMx b { z with phase := 1, lead := q.id, began := s.cycle }) s2

/-! ### The arbiter (R275, R448) -/

def State.mxWeight (s : State) (b r : Nat) : Nat := field (s.rillSr b r 0x121) 12 8

/-- MATRIX_ARBITRATE. -/
def execMatrixArbitrate (b : Nat) (s : State) : Res :=
  let x := s.braid b
  let ready (r : Nat) : Bool := (x.mxHead r).any (s.canStart b)
  let es := (List.range 8).filter ready
  if es.isEmpty then .next s
  else
    let refill := es.all fun r => x.credits.get 0 r == 0
    let cr := if refill then (List.range 8).foldl (fun t r => t.put r (s.mxWeight b r)) x.credits else x.credits
    match ((List.range 8).map fun i => (x.arbNext + i) % 8).find? fun r => es.contains r && cr.get 0 r != 0 with
    | none => .next s
    | some r =>
      match x.mxHead r with
      | none => .next s
      | some q =>
        let counted := q.op == 1 || q.op == 2
        let s1 := s.modBraid b fun y =>
          { y with
            credits := cr.put r (cr.get 0 r - 1), arbNext := (r + 1) % 8
            starts := (if y.startsFrom = s.cycle / 1024 then y.starts else 0) + (if counted then 1 else 0)
            startsFrom := s.cycle / 1024 }
        .next (s1.startMx b q)

/-! ### Memory work (R266, R267, R271, R272) -/

/-- Where the engine's work ends. -/
inductive MxOut where
  | done
  | stop (cause : Nat) (va : Word) (write : Bool)
  | wait
  | contain
  deriving DecidableEq, Repr

/-- The places of n bytes from va for a command. The failing address of R266 is taken to be that of the byte that fails,
where the manual does not say which byte of an element it is: the model's choice. -/
def mxReach (p : Pos) (id : Nat) (write : Bool) : Nat → Word → State → State × Except MxOut (List Nat)
  | 0, _, s => (s, .ok [])
  | n + 1, va, s =>
    match s.engineReach p id va 1 write with
    | (s1, .stop c) => (s1, .error (.stop c va write))
    | (s1, .wait) => (s1, .error .wait)
    | (s1, .contain) => (s1, .error .contain)
    | (s1, .ok pa) =>
      match mxReach p id write n (va + 1) s1 with
      | (s2, .ok pas) => (s2, .ok (pa :: pas))
      | (s2, .error e) => (s2, .error e)

/-- Value and poison of bytes at places, as source reads of a command of p (R177, R276). -/
def State.bytesAt (s : State) (p : Pos) (q : MxCmd) (pas : List Nat) : Nat × Bool :=
  let xs := pas.map fun a => s.engineLoad p q.xp q.after q.seq q.id a 1
  (xs.foldr (fun x n => x.1 + 256 * n) 0, xs.any Prod.snd)

/-- Read the element codes and auxiliary bytes of one B row into a list: code, poison of each column. -/
def readRow (p : Pos) (q : MxCmd) (bits : Nat) (base : Word) : Nat → Nat → State → State × Except MxOut (List (Nat × Bool))
  | 0, _, s => (s, .ok [])
  | n + 1, k, s =>
    let first := k * bits / 8
    let last := (k * bits + bits - 1) / 8
    match mxReach p q.id false (last + 1 - first) (base + w64 first) s with
    | (s1, .error e) => (s1, .error e)
    | (s1, .ok pas) =>
      let (v, bad) := s1.bytesAt p q pas
      match readRow p q bits base n (k + 1) s1 with
      | (s2, .ok t) => (s2, .ok ((v / 2 ^ (k * bits % 8) % 2 ^ bits, bad) :: t))
      | (s2, .error e) => (s2, .error e)

/-- Read rows of n columns from base, pitch apart. -/
def readRows (p : Pos) (q : MxCmd) (bits n : Nat) (pitch : Word) : Nat → Word → State → State × Except MxOut (List (List (Nat × Bool)))
  | 0, _, s => (s, .ok [])
  | r + 1, base, s =>
    match readRow p q bits base n 0 s with
    | (s1, .error e) => (s1, .error e)
    | (s1, .ok x) =>
      match readRows p q bits n pitch r (base + pitch) s1 with
      | (s2, .ok t) => (s2, .ok (x :: t))
      | (s2, .error e) => (s2, .error e)

/-- Entry n of row r of what was read. -/
def rowAt (xs : List (List (Nat × Bool))) (r n : Nat) : Nat × Bool := (xs.getD r []).getD n (0, false)

/-- The 24 values of group g of column n of a sparse B (R258); none: an index breaks it. -/
def sparseGroup (q : MxCmd) (rows aux : List (List (Nat × Bool))) (g n : Nat) : Option (List (FVal × Bool)) :=
  let ns := groupRows q.sp
  let ix := (List.range ns).map fun i => rowAt aux (g * ns + i) n
  let ok := ix.all (fun x => decide (x.1 < 24))
    && (List.range (ns - 1)).all fun i => decide ((ix.getD i (0, false)).1 < (ix.getD (i + 1) (0, false)).1)
  let bad := ix.any Prod.snd || (List.range ns).any fun i => (rowAt rows (g * ns + i) n).2
  if ok then
    some ((List.range 24).map fun t =>
      match (List.range ns).find? fun i => (ix.getD i (0, false)).1 == t with
      | some i => (elementValue q.fmt (rowAt rows (g * ns + i) n).1, bad)
      | none => (.num false 0 0, bad))
  else none

/-- The 24 values of block j of column n of a dense B. -/
def denseBlock (q : MxCmd) (rows aux : List (List (Nat × Bool))) (j n : Nat) : List (FVal × Bool) :=
  (List.range 24).map fun t =>
    let r := 24 * j + t
    let (v, bad) := rowAt rows r n
    if q.mxs then
      let (sc, bad2) := rowAt aux (r / 32) n
      (mxValue (some sc) (elementValue q.fmt v), bad || bad2)
    else (elementValue q.fmt v, bad)

/-- The bank that an MXLDB writes; none: code 0x45. -/
def loadBank (q : MxCmd) (rows aux : List (List (Nat × Bool))) : Option Bank :=
  let blocks := logicalRows q.sp / 24
  let cells := (List.range (bankColumns q.bw)).flatMap fun n => (List.range blocks).map fun j => (n, j)
  let vals := cells.map fun c =>
    (c.1 * 16 + c.2, if q.sp = 0 then some (denseBlock q rows aux c.2 c.1) else sparseGroup q rows aux c.2 c.1)
  if vals.any fun v => v.2.isNone then none
  else some { loaded := true, width := q.bw, sparsity := q.sp
              blocks := vals.foldl (fun t v => t.put v.1 (align (bankWidth q.bw) (v.2.getD []))) [] }

/-- MXLDB reads its rows and its index or scale bytes (R267). -/
def State.loadB (s : State) (p : Pos) (q : MxCmd) : State × Except MxOut (Option Bank) :=
  let n := bankColumns q.bw
  match readRows p q (elementBits q.fmt q.pk) n q.pitch 96 q.a s with
  | (s1, .error e) => (s1, .error e)
  | (s1, .ok rows) =>
    match readRows p q 8 n q.spitch (if q.sp != 0 then 96 else if q.mxs then 3 else 0) q.o1 s1 with
    | (s2, .error e) => (s2, .error e)
    | (s2, .ok aux) => (s2, .ok (loadBank q rows aux))

/-- MXLDACC from its element q.done on, for at most n elements. The other elements of the tile become +0 after them. -/
def loadAcc (p : Pos) : Nat → MxCmd → State → State × MxCmd × MxOut
  | 0, q, s => (s, q, .done)
  | n + 1, q, s =>
    if q.rows * q.columns ≤ q.done then
      (s.modBraid p.b fun x => x.modTile q.tile fun t =>
        { t with els := t.els.filter fun e => decide (e.1 / 96 < q.rows ∧ e.1 % 96 < q.columns) }, q, .done)
    else match mxReach p q.id false q.tileBytes (q.elementAddr q.done) s with
      | (s1, .error e) => (s1, q, e)
      | (s1, .ok pas) =>
        let (v, bad) := s1.bytesAt p q pas
        let s2 := s1.modBraid p.b fun x => x.modTile q.tile fun t =>
          t.setEl (q.done / q.columns) (q.done % q.columns) (loadConvert q.fmt v, bad)
        loadAcc p n { q with done := q.done + 1 } s2

/-- With byte j of element e, a command whose elements of size bytes lie at addr has written all 8 bytes of the word of
address va. -/
def wordWritten (addr : Nat → Word) (size e j : Nat) (va : Word) : Bool :=
  (List.range 8).all fun i => (List.range (e + 1)).any fun f =>
    decide ((setField va 2 0 i - addr f).toNat < if f = e then j + 1 else size)

/-- Elements 0 to e that lie in the word of address va supply a poisoned value. -/
def wordSupplied (addr : Nat → Word) (size e : Nat) (bads : Nat → Bool) (va : Word) : Bool :=
  (List.range (e + 1)).any fun f => bads f
    && (List.range size).any fun i => setField (addr f + w64 i) 2 0 0 == setField va 2 0 0

/-- Store element e of a command whose elements lie at addr: its bytes, at their places, with the poison rule of R272. The
old poison bit of a word stands until every byte of it has been written. -/
def storeBytes (addr : Nat → Word) (size e : Nat) (bads : Nat → Bool) : Nat → List Nat → Nat → State → State
  | _, [], _, s => s
  | j, pa :: t, v, s =>
    let va := addr e + w64 j
    let s1 := s.engineStore pa 1 (v % 256) (bads e)
    let s2 := if isHost pa || !wordWritten addr size e j va then s1
      else { s1 with mem := s1.mem.setPoison pa (wordSupplied addr size e bads va) }
    storeBytes addr size e bads (j + 1) t (v / 256) s2

/-- Store elements from q.done on, for at most n of them. -/
def storeEls (p : Pos) (addr : Nat → Word) (total size : Nat) (val : Nat → Nat × Bool) :
    Nat → MxCmd → State → State × MxCmd × MxOut
  | 0, q, s => (s, q, .done)
  | n + 1, q, s =>
    if total ≤ q.done then (s, q, .done)
    else match mxReach p q.id true size (addr q.done) s with
      | (s1, .error e) => (s1, q, e)
      | (s1, .ok pas) =>
        if (List.range size).any fun j => s1.earlierOn p q.seq (pas.getD j 0) 1 (addr q.done + w64 j) then (s1, q, .wait)
        else match s1.gateInLine p q.id q.seq (pas.map lineOf) with
        | (s2, false) => (s2, q, .wait)
        | (s2, true) =>
          storeEls p addr total size val n { q with done := q.done + 1 }
            (storeBytes addr size q.done (fun e => (val e).2) 0 pas (val q.done).1 s2)

/-- The element of a tile that MXSTACC stores. -/
def Tile.stored (t : Tile) (q : MxCmd) (e : Nat) : Nat × Bool :=
  let (v, bad) := t.el (e / q.columns) (e % q.columns)
  (storeConvert q.fmt q.rm q.satf v, bad)

/-- The memory work of a command, as far as it goes. -/
def State.mxWork (s : State) (b : Nat) (q : MxCmd) : State × MxCmd × MxOut :=
  let p : Pos := ⟨b, q.rill, q.ctx⟩
  match q.op with
  | 0 =>
    match s.loadB p q with
    | (s1, .error e) => (s1, q, e)
    | (s1, .ok none) => (s1, { q with code := 0x45 }, .done)
    | (s1, .ok (some k)) => (s1.modBraid b fun x => x.setBank (q.banks.headD 0) k, q, .done)
  | 5 => loadAcc p (q.rows * q.columns + 1) q s
  | 6 =>
    let t := (s.braid b).tile q.tile
    storeEls p q.elementAddr (q.rows * q.columns) q.tileBytes (t.stored q) (q.rows * q.columns + 1) q s
  | 8 => storeEls p (fun e => q.a + w64 (4 * e)) q.rows 4 (fun e => q.saved.getD e (0, false)) (q.rows + 1) q s
  | _ => (s, q, .done)

/-- R177: what comes before the source reads of an MXLDB or MXLDACC has been performed: every earlier write of its thread in
.xp form, else those before its last release at .bs or wider. -/
def State.xpReady (s : State) (b : Nat) (q : MxCmd) : Bool :=
  (q.op != 0 && q.op != 5) || s.doneBefore ⟨b, q.rill, q.ctx⟩ (if q.xp then q.seq else q.after) AccKind.writes

/-- What an MXSTACC leaves at its end: AMAX of the thread (R272), and the tile cleared under CLR. -/
def State.endStacc (s : State) (b : Nat) (q : MxCmd) (cleared : Bool) : State :=
  let p : Pos := ⟨b, q.rill, q.ctx⟩
  let t := (s.braid b).tile q.tile
  let amax := (List.range q.done).foldl (fun m e =>
    amaxUpdate m (fmtF32.decode (t.el (e / q.columns) (e % q.columns)).1)) (s.srAt p 0x021)
  let s1 := if q.fmt = 1 || amax == s.srAt p 0x021 then s else s.setSr p 0x021 amax
  if cleared && bit q.b 10 then s1.modBraid b fun x => x.modTile q.tile fun z => { z with els := [] } else s1

/-- The end of a command whose work is done. -/
def State.endMx (s : State) (b : Nat) (q : MxCmd) : State :=
  match q.op with
  | 2 =>
    let s1 := if (torusNeighbour b 1 q.o1 == b) then s
      else s.modBraid b fun x => x.modSlot q.slot fun y => { y with active := y.shadow }
    s1.finishMx b q
  | 6 => (s.endStacc b q true).finishMx b q
  | _ => (if q.code = 0 then s else s.mxEvent b q q.code 0 false).finishMx b q

/-- MATRIX_COMMAND_COMPLETE (R263): command n of braid b, once its time has passed and its accesses succeed. -/
def execMatrixCommandComplete (b n : Nat) (s : State) : Res :=
  match (s.braid b).mx.find? fun q => q.id == n && q.phase == 1 && q.lead == 0 && q.links.isEmpty with
  | none => .next s
  | some q =>
    if s.cycle < q.due || !s.xpReady b q then .next s
    else match s.mxWork b q with
      | (s1, q1, .done) => .next ((s1.setMx b q1).endMx b q1)
      | (s1, q1, .wait) => .next (s1.setMx b q1)
      | (_, _, .stop _ _ _) => .next s
      | (_, _, .contain) => .next (s.contain (s.basinOf b))

/-- MATRIX_ACCESS_STOP (R266): command n stops at the element whose access fails. -/
def execMatrixAccessStop (b n : Nat) (s : State) : Res :=
  match (s.braid b).mx.find? fun q => q.id == n && q.phase == 1 && q.lead == 0 with
  | none => .next s
  | some q =>
    if !s.xpReady b q then .next s
    else match s.mxWork b q with
      | (s1, q1, .stop c va w) => .next ((s1.setMx b { q1 with phase := 2 }).mxEvent b q1 c va w)
      | (_, _, .done) => .next s
      | (_, _, .wait) => .next s
      | (_, _, .contain) => .next s

/-! ### The torus (R279, R283) -/

/-- Bytes received by an MXROT are written with its own pitch. -/
def State.receiveA (s : State) (b : Nat) (q : MxCmd) (bytes : List (Nat × Bool)) : State :=
  let w := q.rowBytes (s.braid b)
  let addr (e : Nat) : Word := q.a + w64 (e / w) * q.pitch + w64 (e % w)
  ((List.range bytes.length).foldl (fun t e =>
    storeBytes addr 1 e (fun f => (bytes.getD f (0, false)).2) 0 [localPlace b (addr e)] (bytes.getD e (0, false)).1 t) s)

/-- Free bytes and a free bank, where the pairing of a link is undefined (R283). -/
def freeBytes (n free : Nat) : List (Nat × Bool) :=
  (List.range n).map fun i => let x := Config.freeWord (free + i); (field x 7 0, bit x 8)
def freeBank (k : Bank) (free : Nat) : Bank :=
  let blocks := logicalRows k.sparsity / 24
  let cells := (List.range (bankColumns k.width)).flatMap fun n => (List.range blocks).map fun j => n * 16 + j
  { k with blocks := cells.foldl (fun t c =>
      let x (i : Nat) : Word := Config.freeWord (free + 32 * c + i)
      t.put c { special := bit (x 0) 0, poison := bit (x 0) 1, e := (x 1).toInt
                m := (List.range 24).map fun i => (x (i + 2)).toInt }) [] }

/-- Rill cycles of a transfer. -/
def transferCycles (bytes b c : Nat) : Nat := (bytes + 63) / 64 + 6 + 4 * torusPassed b c

/-- MXROT_TRANSFER (R279): braid b sends its A west (dir 0) or its B north (dir 1); w is the tag. -/
def execMxrotTransfer (b dir w : Nat) (s : State) : Res :=
  match (s.braid b).rotOf w with
  | none => .next s
  | some q =>
    let out := if dir = 0 then 2 else 3
    let c := torusNeighbour b out q.o1
    match (s.braid c).rotOf w with
    | none => .next s
    | some r =>
      let start := max q.began r.began
      let time := if dir = 0 then transferCycles q.saved.length b c else 160
      if 1 < dir || c == b || !q.links.contains out || !r.links.contains (out - 2)
          || torusNeighbour c (out - 2) r.o1 != b || s.cycle < start + time then .next s
      else
        let bad := s.badTags.any fun x => x.tag == w && (x.braid == b || x.braid == c)
        let s1 := (s.setMx b { q with links := q.links.filter fun l => l != out }).setMx c
          { r with links := r.links.filter fun l => l != out - 2 }
        if dir = 0 then
          let bytes := if bad then freeBytes q.saved.length s.free else q.saved
          .next (({ s1 with free := if bad then s.free + q.saved.length else s.free } : State).receiveA c r bytes)
        else
          let bank := if bad then freeBank q.bank s.free else q.bank
          .next (({ s1 with free := if bad then s.free + 131072 else s.free } : State).modBraid c fun x =>
            x.setBank (2 * r.slot + 1) bank)

/-! ### Control instructions (R280 to R283) -/

def withCode (s : State) (code : Nat) (k : Res) : Res :=
  if code = 0 then k else trapped s 0x18 (w64 (0x8000000000000000 + code))

def execMxquotaMv (a b : BitVec 5) (s : State) : Res :=
  outsideTx s 0x39 <| withControls s a b fun x y =>
    let ts := (List.range 64).filter (bit x)
    let ok (t : Nat) : Bool :=
      let z := (s.braid s.cur.b).tile t
      z.cohort.isSome && (s.cur.k == 15 || z.cohort == s.me.cohort)
    withCode s (if field y 63 3 != 0 then 0x40 else if !ts.all ok then 0x41 else 0) <|
      let r := field y 2 0
      .next ((s.modBraid s.cur.b fun br => ts.foldl (fun z t => z.modTile t fun w =>
        if w.owner == some r then { w with pending := none } else ({ w with pending := some r }).settle) br).advance)

def execMxquotaWt (a b : BitVec 5) (s : State) : Res :=
  outsideTx s 0x39 <| supervisorOnly s <| withControls s a b fun x y =>
    withCode s (if field y 63 3 != 0 || field x 63 5 != 0 || field x 4 0 == 0 || decide (16 < field x 4 0) then 0x40 else 0) <|
      let r := field y 2 0
      .next ((s.setRillSr s.cur.b r 0x121 (setField (s.rillSr s.cur.b r 0x121) 12 8 (field x 4 0))).advance)

def execMxteam (a : BitVec 5) (s : State) : Res :=
  outsideTx s 0x39 <|
    if s.cur.k = 15 then trapped s 0x05 s.uw
    else withControl s a fun x =>
      let mask := field x 7 0
      withCode s (if field x 15 8 != 0 || field x 63 32 != 0 then 0x40
          else if !hasBit mask s.cur.r || countOnes 8 mask < 2 then 0x47 else 0) <|
        .next ((s.modMe fun c => { c with team := some x }).advance)

/-- A cancelled MXROT leaves the pairing under its tag undefined with every partner that a transfer was still to be made with,
whether that has started its step or not, until every such partner's MXROT completes or is cancelled. A partner whose running
MXROT has no transfer left with this braid is still at the step before. -/
def State.breakTag (s : State) (b : Nat) (q : MxCmd) : State :=
  let owed := (if q.phase = 0 then List.range 4 else q.links).filter fun d => torusNeighbour b d q.o1 != b
  let cs := (owed.map fun d => torusNeighbour b d q.o1).eraseDups
  let before (c : Nat) : Bool := ((s.braid c).rotOf q.tag).any fun r =>
    !(owed.any fun d => torusNeighbour b d q.o1 == c && r.links.contains ((d + 2) % 4))
  { s with badTags := s.badTags ++ cs.map fun c =>
      { rot := q.id, braid := c, tag := q.tag, skip := if before c then 1 else 0 } }

/-- MXRES with b = 1: the command completes at once. -/
def State.cancelMx (s : State) (b : Nat) (q : MxCmd) : State :=
  match q.op with
  | 0 => (s.modBraid b fun x => x.setBank (q.banks.headD 0) {}).finishMx b q
  | 2 =>
    let got := torusNeighbour b 1 q.o1 != b && !q.links.contains 1 && q.phase != 0
    let s1 := if got then s.modBraid b fun x => x.modSlot q.slot fun y => { y with active := y.shadow } else s
    (s1.finishMx b q).breakTag b q
  | 6 => (s.endStacc b q false).finishMx b q
  | _ => s.finishMx b q

/-- A command that waits for its team or for a torus partner. -/
def MxCmd.waits (q : MxCmd) : Bool := (q.phase == 0 && q.team.isSome) || (q.phase == 1 && !q.links.isEmpty)

def execMxres (a b : BitVec 5) (s : State) : Res :=
  outsideTx s 0x39 <| supervisorOnly s <| withControls s a b fun x y =>
    match (s.braid s.cur.b).mx.find? fun q =>
        q.rill == s.cur.r && q.ctx == field x 3 0 && q.entry == field x 20 16 && (q.phase == 2 || q.waits) with
    | none => .next s.advance
    | some q =>
      if y = 0 then .next (if q.phase = 2 then s.setMx s.cur.b { q with phase := 1 } else s).advance
      else if y = 1 then .next (s.cancelMx s.cur.b q).advance
      else .next s.advance

end Sys2Proof.Machine
end

