-- ==== Sys2Proof/Machine/Tx.lean ====
section
/-! DEFINITION. Transactions: begin, nesting, validation, commit, abort, the weir token and irrevocable locks
(R311 to R342). -/

namespace Sys2Proof.Machine

/-! ### Begin (R313, R314) -/

/-- Checkpoint(). -/
def Ctx.checkpoint (c : Ctx) (k tid : Nat) : Ckpt :=
  let w := 16 * (c.depth - 1)
  { g := c.g, win := c.win.filter fun e => decide (w ≤ e.1 ∧ e.1 < w + 24), depth := c.depth, q := c.q, v := c.v
    ox := c.ox, ix := c.ix
    sr := [0x020, 0x021, 0x022, 0x099].map fun n => (n, c.sr.get (srStart n k tid) n) }

/-- The start of a transaction at the executing unit. -/
def State.beginTx (s : State) (label : Word) (irrev : Bool) (spill : Word) : State :=
  let st := setField (setField (setField (s.sr 0x050) 23 11 0) 8 7 (if irrev then 3 else 1)) 2 0 1
  let s1 := (s.setSr s.cur 0x050 st).setSr s.cur 0x051 (setField (s.sr 0x051) 63 32 0)
  s1.modMe fun c =>
    { c with tx := some { pc := s.upc, label := label, ckpt := s.me.checkpoint s.cur.k 0, spill := spill } }

/-- TBEGIN: as a conditional branch, the lanes that go to the fallback take it. -/
def execTbegin (p : BitVec 12) (s : State) : Res :=
  let tr := s.sr 0x052
  if s.inTx then
    if s.txDepth s.cur = 7 then .next (s.txAbort 6 0x3A)
    else .next ((s.setSr s.cur 0x050 (setField (s.sr 0x050) 2 0 (s.txDepth s.cur + 1))).advance)
  else if field tr 15 0 ≤ field tr 47 32 then
    checkTarget s (s.relTarget p) (.next ((s.setSr s.cur 0x052 (setField tr 47 32 0)).jump (s.relTarget p)))
  else if !s.quiet s.cur then parked s .quiet
  else .next ((s.beginTx (s.relTarget p) false 0).advance)

/-! ### Inside (R322, R323, R326) -/

def execTabort (c : BitVec 8) (s : State) : Res :=
  if s.inTx then .next (s.txAbort 10 c.toNat) else .next s.advance

def execTstat (d : BitVec 5) (s : State) : Res := wrote s d (s.sr 0x050) false

/-- TXLD inside a transaction: bytes of the write log first, then memory, unlogged. -/
def txld (s : State) (t : Tx) (d : BitVec 5) (pa size : Nat) (sx : Bool) : Res :=
  if (!isLocal pa && s.lockOf (lineOf pa) == 2) || s.ownedLine (lineOf pa) none then parked s .lock
  else if s.cur.k != 15 && s.myRill.replayRoom == 0 then parked s .replayFull
  else
    let mask := byteMask pa size
    let base := s.mem.load (8 * wordOf pa) 8
    let (v, bad) := match t.writeOf (wordOf pa) with
      | some e => (mergeBytes base.1 e.val.toNat e.mask,
          (mask &&& e.mask != mask && base.2) || (mask &&& e.mask != 0 && e.poison))
      | none => base
    wrote s d (extend sx size (v / 2 ^ (8 * (pa % 8)) % 2 ^ (8 * size))) bad

def execTxld (d b : BitVec 5) (t : BitVec 3) (s : State) : Res :=
  withReg s b fun x =>
    let size := typeSize t.toNat
    match s.me.tx with
    | none => loadAt s 0x3A d x.val x.poison t.toNat (some 0)
    | some tx =>
      withAddress s x.val size x.poison <|
        if bit x.val 55 then txld s tx d (localPlace s.cur.b x.val) size (typeSigned t.toNat)
        else match s.translate s.cur x.val { r := true } with
          | (s1, .ok pa _) => txld s1 tx d pa size (typeSigned t.toNat)
          | (s1, .fault c _) => trappedAt s1 c x.val false
          | (s1, .ask) => parked s1 .translation
          | (s1, .poisoned) => .next (s1.contain (s1.basinOf s1.cur.b))

/-- TXCHK: it waits while a logged line is APPLY. -/
def execTxchk (s : State) : Res :=
  match s.me.tx with
  | none => .next s.advance
  | some t =>
    if s.irrevocable then .next s.advance
    else if t.reads.any fun e => s.lockOf (e.word / 8) == 2 then parked s .lock
    else
      let s1 := t.reads.foldl (fun z e => z.recallWritable (e.word / 8)) s
      if s1.readsValid t then .next s1.advance else .next (s1.txAbort 1 0)

/-- A write of TXSTAT for context p (R326, R327): only ABORTREQ can change. -/
def State.writeAbortreq (s : State) (p : Pos) (v : Word) : State :=
  s.setSr p 0x050 (setField (s.srAt p 0x050) 31 31 (if bit v 31 && (s.ctx p).tx.isSome then 1 else 0))

/-- TXSTAT_ABORTREQ_WRITE. -/
def execTxstatAbortreqWrite (b r k : Nat) (v : Word) (s : State) : Res := .next (s.writeAbortreq ⟨b, r, k⟩ v)

/-- R326: the abort before the next unit of a thread whose ABORTREQ is set. -/
def State.abortRequested (s : State) (p : Pos) : Bool := (s.ctx p).tx.isSome && bit (s.srAt p 0x050) 31

/-! ### Commit (R331 to R334, R338) -/

/-- The transaction has ended with a commit: registers, locks, token and qd. An abort asked for while the commit
ran finds no transaction, so that ABORTREQ is cleared (R326). -/
def State.endTx (s : State) (p : Pos) (qd : Nat) : State :=
  let s1 := s.dropLocks p
  let st := setField (setField (setField (s1.srAt p 0x050) 31 31 0) 8 7 0) 2 0 0
  let s2 := (s1.setSr p 0x050 st).setSr p 0x052 (setField (s1.srAt p 0x052) 47 32 0)
  s2.modCtx p fun c => { (c.setPred (BitVec.ofNat 3 qd) true false).xpOrdered with tx := none, wait := none }

/-- The words of freed lines are rescanned for parked requests (R332). -/
def State.rescan (s : State) (lines : List Nat) : State :=
  (lines.flatMap fun l => (List.range 8).map fun i => 64 * l + 8 * i).foldl (fun z a => z.scan a) s

/-- A commit enters APPLY: its lines are marked, and every slice is to apply. -/
def State.enterApply (s : State) (p : Pos) (t : Tx) : State :=
  let lines := t.logLines
  let locks := lines.foldl (fun k l => k.put l { kind := 2, pos := p, tid := s.tid p }) s.locks
  let s1 := (t.reads.map LogEntry.word ++ t.acqs).foldl (fun z w => z.acquire p 3 (8 * w) 8) { s with locks := locks }
  s1.modCtx p fun c => { c with tx := some { t with commit := 2, lines := lines, awaiting := s.homesOf p.b lines } }

/-- RELEASE: the commit aborts with a cause; in a group the lane stays, with qd := 0 (R330). -/
def State.releaseCommit (s : State) (p : Pos) (t : Tx) (cause : Nat) : State :=
  let lines := (s.locks.filter fun e => e.2.pos == p).map Prod.fst
  if (s.groupOf p).isSome then
    let s1 := s.txAbortAt p cause 0 (some (s.ctx p).pc)
    (s1.modCtx p fun c => { (c.setPred (BitVec.ofNat 3 t.qd) false false) with took := false }).rescan lines
  else (s.txAbortAt p cause 0 none).rescan lines

/-- TEND. -/
def execTend (q : BitVec 3) (s : State) : Res :=
  match s.me.tx with
  | none => wrotePred s q false false
  | some t =>
    if 2 ≤ s.txDepth s.cur then
      wrotePred (s.setSr s.cur 0x050 (setField (s.sr 0x050) 2 0 (s.txDepth s.cur - 1))) q true false
    else if !s.releases then parked s .order
    else
      let t1 := { t with qd := q.toNat, began := s.cycle }
      if t1.logLines.isEmpty then .next ((s.endTx s.cur q.toNat).advance)
      else if s.irrevocable then
        .next (((s.enterApply s.cur t1).modMe fun c => { c with wait := some .commit }).advance)
      else
        .next ((s.modMe fun c => { c with
          wait := some .commit
          tx := some { t1 with commit := 1, verdict := 0, awaiting := s.homesOf s.cur.b t1.logLines } }).advance)

/-- The slice locks lines of a commit of p in order, each in its turn (R286): the state, and whether all are held (0), a
request waits (1) or meets a conflict (2). -/
def lockLines (p : Pos) : List Nat → State → State × Nat
  | [], s => (s, 0)
  | l :: t, s =>
    match s.locks.find l with
    | none =>
      if s.ownedLine l none || s.fanouts.any (fun f => f.line == l) || !s.lockTurn p l then (s, 1)
      else lockLines p t { s with locks := s.locks.put l { kind := 1, pos := p, tid := s.tid p } }
    | some k =>
      if k.pos == p then lockLines p t s
      else if k.kind = 3 then (s, 2)
      else if s.tid p < k.tid then (s, 1) else (s, 2)

/-- The reply of a slice that holds every line: 0 valid, 1 invalid. -/
def State.validateAt (s : State) (t : Tx) (lines : List Nat) : Nat :=
  if s.readsValid { t with reads := t.reads.filter fun e => lines.contains (e.word / 8) } then 0 else 1

/-- All replies are in: APPLY or RELEASE. A line that has moved to another slice since is locked there first. -/
def State.afterReplies (s : State) (p : Pos) (t : Tx) : State :=
  if !t.awaiting.isEmpty then s.modCtx p fun c => { c with tx := some t }
  else
    let rest := t.logLines.filter fun l => !(s.locks.any fun e => e.1 == l && e.2.pos == p)
    if t.verdict = 0 && rest.isEmpty then s.enterApply p t
    else if t.verdict = 0 then
      s.modCtx p fun c => { c with tx := some { t with awaiting := s.homesOf p.b rest } }
    else s.releaseCommit p t (if t.verdict = 2 then 2 else 1)

/-- TX_COMMIT_LOCK_REPLY: slice sl. -/
def execTxCommitLockReply (b r k sl : Nat) (s : State) : Res :=
  let p : Pos := ⟨b, r, k⟩
  match (s.ctx p).tx with
  | none => .next s
  | some t =>
    if t.commit != 1 || !t.awaiting.contains sl then .next s
    else
      let lines := s.linesAt b t sl
      let (s1, how) := lockLines p lines s
      if how = 1 then .next s1
      else
        let s2 := if how = 0 then lines.foldl (fun z l => z.recallWritable l) s1 else s1
        let v := if how = 2 then 2 else s2.validateAt t lines
        .next (s2.afterReplies p { t with awaiting := t.awaiting.filter fun x => x != sl, verdict := max t.verdict v })

/-- TX_COMMIT_DEADLINE: 1.5 µs after the first lock request. -/
def execTxCommitDeadline (b r k : Nat) (s : State) : Res :=
  let p : Pos := ⟨b, r, k⟩
  match (s.ctx p).tx with
  | none => .next s
  | some t =>
    if t.commit == 1 && decide (t.began + 3 * Config.usCycles / 2 ≤ s.cycle) then .next (s.releaseCommit p t 2)
    else .next s

/-- One log entry is written at its home: R146 by its byte mask, with a release tag at .bs. -/
def State.applyEntry (s : State) (p : Pos) (e : LogEntry) : State :=
  let a := 8 * e.word
  let bad := e.poison || (e.mask != 255 && s.mem.poisoned a)
  let s0 := s.recall (lineOf a)
  let m := (s0.mem.write a 8 (mergeBytes (s0.mem.read a 8) e.val.toNat e.mask)).setPoison a bad
  let m1 := (List.range 8).foldl (fun m i =>
    if hasBit e.mask i then m.setTags (a + i) (some (s.tagOf p 3 a e.va)) 1 else m) m
  (({ s0 with mem := m1 } : State).wrote (lineOf a)).noteRaise s.mem p s.nextId a 8

/-- The number under which the commit of p starts its fan-outs (R331, R338). -/
def commitAgent (p : Pos) : Nat := 2 ^ 61 + p.key

/-- TX_COMMIT_APPLIED: once the fan-outs of its lines are complete, slice sl applies the write log, then the spill
entries; when all slices have, the lines are freed. -/
def execTxCommitApplied (b r k sl : Nat) (s : State) : Res :=
  let p : Pos := ⟨b, r, k⟩
  match (s.ctx p).tx with
  | none => .next s
  | some t =>
    if t.commit != 2 || !t.awaiting.contains sl then .next s
    else
      let mine := (t.writes ++ s.spilledNow p t).filter fun e => s.homeSlice (s.basinOf b) (8 * e.word) == sl
      let (s0, ready) := s.gate p (commitAgent p) (mine.foldl (fun l e => setInsert l (e.word / 8)) []) fun n =>
        mine.any fun e => e.sync && e.word / 8 == n
      if !ready then .next s0
      else
      let s1 := mine.foldl (fun z e => z.applyEntry p e) (s0.afterSpilled p t)
      let rest := t.awaiting.filter fun x => x != sl
      if rest.isEmpty then .next ((s1.endTx p t.qd).rescan t.lines)
      else .next (s1.modCtx p fun c => { c with tx := some { t with awaiting := rest } })

/-! ### Irrevocable transactions (R335 to R340) -/

/-- The operand of TIRREV is no spill area of the thread's rill. -/
def spillBad (r : Nat) (x : Cell) : Bool :=
  x.val != 0 && (x.poison || !bit x.val 55 || field x.val 23 21 != r || field x.val 54 24 != 0
    || field x.val 20 18 != 0 || field x.val 3 0 != 0 || decide (0x20000 < field x.val 17 0))

/-- TIRREV: in a group every lane goes on alone, at the same unit; the thread waits for the weir token and issues
the unit again once it holds it. -/
def execTirrev (b : BitVec 5) (p : BitVec 12) (s : State) : Res :=
  if !s.unfused then
    match s.groupOf s.cur with
    | some g => .next { s.splitGroup s.cur.b g (fun _ => 0x15) (some s.upc) with moved := true }
    | none => .next (s.modMe fun c => { c with pc := s.upc, took := false })
  else outsideTx s 0x3A <| withReg s b fun x =>
    if spillBad s.cur.r x then trapped s 0x0A x.val
    else if !s.quiet s.cur then parked s .quiet
    else
      let n := s.basinOf s.cur.b
      if (s.basin n).token.holder == some s.cur then .next ((s.beginTx (s.relTarget p) true x.val).advance)
      else
        let s1 := if (s.basin n).token.pending.any fun e => e.2 == s.cur then s
          else s.modBasin n fun y =>
            { y with token := { y.token with pending := y.token.pending ++ [(s.tid s.cur, s.cur)] } }
        .next (s1.modMe fun c => { c with wait := some .token, pc := s.upc, took := false })

/-- WEIR_TOKEN_GRANT: the pending request with the lowest identifier. -/
def execWeirTokenGrant (bs : Nat) (s : State) : Res :=
  let t := (s.basin bs).token
  if t.holder.isSome then .next s
  else match t.pending with
    | [] => .next s
    | h :: rest =>
      let e := rest.foldl (fun m x => if x.1 < m.1 then x else m) h
      let s1 := s.modBasin bs fun y => { y with token := { holder := some e.2, pending := t.pending.erase e } }
      .next (s1.modCtx e.2 fun c => if c.wait == some .token then { c with wait := none } else c)

/-- A request for the token, or a token not yet used, is given back. -/
def State.withdrawToken (s : State) (p : Pos) : State :=
  s.modBasin (s.basinOf p.b) fun y =>
    { y with token :=
        { holder := if y.token.holder == some p then none else y.token.holder
          pending := y.token.pending.filter fun e => e.2 != p } }

/-- IRREVOCABLE_LOCK_GRANT: the lock of the line that a thread waits for. -/
def execIrrevocableLockGrant (b r k : Nat) (s : State) : Res :=
  let p : Pos := ⟨b, r, k⟩
  match (s.ctx p).wait, (s.ctx p).tx with
  | some (.irrLock l _), some t =>
    if (s.locks.find l).isSome || s.ownedLine l none || s.fanouts.any (fun f => f.line == l) || !s.lockTurn p l then
      .next s
    else
      let s1 := { s with locks := s.locks.put l { kind := 3, pos := p, tid := s.tid p } }
      .next ((s1.recallWritable l).modCtx p fun c =>
        { c with wait := none, tx := some { t with lines := setInsert t.lines l } })
  | _, _ => .next s

/-- IRREVOCABLE_PREEMPT_TIMEOUT: 50 µs after a deferred CSTOP. -/
def execIrrevocablePreemptTimeout (b r k : Nat) (s : State) : Res :=
  let p : Pos := ⟨b, r, k⟩
  let c := s.ctx p
  if c.stopBy != 0 && decide (c.stopBy ≤ s.cycle) && bit (s.srAt p 0x050) 8 && (c.tx.any fun t => t.commit == 0) then
    let lines := (s.locks.filter fun e => e.2.pos == p).map Prod.fst
    let s1 := (s.txAbortAt p 8 0 none).rescan lines
    .next ((s1.modCtx p fun x => { x with run := .stopping, stopBy := 0, left := some 0x15 }).leaveGroup p)
  else .next s

end Sys2Proof.Machine
end

