-- ==== Sys2Proof/Machine/Work.lean ====
section
/-! DEFINITION. Work-creation instructions of major 0x3B: SPAWN, TAKE, SYNCJ, loop nests and LAUNCH (R353 to
R363). -/

namespace Sys2Proof.Machine

/-! ### LAUNCH (R354) -/

/-- LAUNCH waits for every earlier access; the record is read and submitted when the access is performed. -/
def execLaunch (a sx : BitVec 5) (l : BitVec 4) (s : State) : Res :=
  outsideTx s 0x3B <| withReg s a fun x =>
    withAddress s x.val 128 x.poison <|
      if !s.releases then parked s .order
      else issueAll s [s.me.dest sx] (some l.toNat)
        [{ id := 0, seq := 0, kind := .launch, va := x.val, size := 128, dst := s.me.dest sx
           ext := [s.upc, w64 s.ulen] }] id

/-! ### Tasks (R356, R357, R359) -/

/-- The rill cycle at which a SPAWN that is held for room first asked for it. -/
def State.arrival (s : State) : Nat :=
  if s.me.triedAt != 0 then s.me.triedAt - 1 else s.cycle

/-- SPAWN: room is reserved, the join counter is incremented, then the record is pushed. -/
def execSpawn (k : BitVec 3) (l : BitVec 4) (s : State) : Res :=
  outsideTx s 0x3B <| withOx s k.toNat 4 fun ws =>
    let join := ws.getD 3 0
    let p := s.cur
    let dq := s.dequeAt p.b p.r
    let go : Res :=
      if !s.releases then parked s .order
      else if s.dqRoom dq.1 dq.2 ≤ s.dqEarlier dq.1 dq.2 s.arrival then parked s .room
      else if join = 0 then
        let w : DqPush := { task := ws.map fun x => (x, false), src := some (p, s.me.seq), since := s.cycle }
        .next (((s.modRill dq.1 dq.2 fun x => { x with dqWait := x.dqWait ++ [w] }).modMe fun c =>
          (c.openLa l.toNat true).xpOrdered).advance)
      else issueAll s [] none
        [{ id := 0, seq := 0, kind := .joinInc, va := join, size := 8, data := 1, ext := ws }] fun c => c.openLa l.toNat true
    if join = 0 then go else withAddress (write := true) s join 8 false go

/-- A TAKE asks for a record: s and the ox block are empty until it has one or gives up. -/
def take (s : State) (kind : Nat) (sx : BitVec 5) (k : BitVec 3) : Res :=
  outsideTx s 0x3B <|
    let id := s.nextId
    let t : TakeOp := { k := s.cur.k, id := id, s := s.me.dest sx, ox := k.toNat, kind := kind }
    let s1 := ({ s with nextId := id + 1 } : State).modMe fun c =>
      (List.range 4).foldl (fun c' i => c'.setEmpty (.ox (k.toNat + i)) id) (c.setEmpty t.s id)
    .next ((s1.modMyRill fun x => { x with takes := x.takes ++ [t] }).advance)

def execTake (sx : BitVec 5) (k : BitVec 3) (_l : BitVec 4) (s : State) : Res := take s 0 sx k
def execTakeL (sx : BitVec 5) (k : BitVec 3) (_l : BitVec 4) (s : State) : Res := take s 1 sx k

/-- An earlier SPAWN of the executing thread has not pushed its record. -/
def State.spawnsPending (s : State) : Bool :=
  let isJoin (a : Access) : Bool := a.kind == AccKind.joinInc
  s.me.flights.any isJoin
    || (s.myRill.replay.any fun e => e.2.pos == s.cur && e.2.accs.any isJoin)
    || s.pushing s.cur

/-- SYNCJ: what its acquire read decides comes when the access is performed. -/
def execSyncj (a sx : BitVec 5) (k : BitVec 3) (_l : BitVec 4) (s : State) : Res :=
  outsideTx s 0x3B <| withReg s a fun x =>
    if s.spawnsPending then parked s .order2
    else withAddress s x.val 8 x.poison <|
      issueAll s (s.me.dest sx :: (List.range 4).map fun i => .ox (k.toNat + i)) none
        [{ id := 0, seq := 0, kind := .joinRead k.toNat, va := x.val, size := 8, dst := s.me.dest sx }] id

/-! ### Loop nests (R360 to R363) -/

/-- NEST (R360). The order of its checks is the model's choice (log entry 167). -/
def execNest (k : BitVec 3) (_l : BitVec 4) (s : State) : Res :=
  outsideTx s 0x3B <| withOx s k.toNat 3 fun ws =>
    let line := ws.getD 0 0
    let parts := ws.getD 2 0
    if field line 5 0 != 0 then trapped s 0x06 line
    else if bit line 55 then trapped s 0x0A line
    else if field parts 63 32 != 0 then trapped s 0x02 s.uw
    else .next ((s.modMe fun c => { c with nest := some { seq := c.seq, line := line, extents := ws.getD 1 0, parts := parts } }).advance)

def Nest.extent (x : Nest) (i : Nat) : Nat := field x.extents (16 * i + 15) (16 * i)
def Nest.total (x : Nest) : Nat := x.extent 0 * x.extent 1 * x.extent 2 * x.extent 3

/-- size(j) of R361 for rem iterations that are left. -/
def Nest.chunkSize (x : Nest) (rem : Nat) : Nat :=
  let p := max 1 (field x.parts 31 16)
  min rem (max (max 1 (field x.parts 15 0)) ((rem + 2 * p - 1) / (2 * p)))

/-- Start and size of the chunk that lies j chunks after one that starts at start with rem iterations left. -/
def Nest.chunkAfter (x : Nest) : Nat → Nat → Nat → Nat × Nat
  | 0, start, rem => (start, x.chunkSize rem)
  | j + 1, start, rem =>
    if rem = 0 then (start, 0) else x.chunkAfter j (start + x.chunkSize rem) (rem - x.chunkSize rem)

/-- ITER: the chunk of ticket j becomes current (R362). -/
def Nest.claim (x : Nest) (j : Nat) (bad : Bool) : Nest :=
  let (start, size) := x.chunkAfter j 0 x.total
  { x with current := true, start := start, size := size, unpacked := 0, ticket := j, poison := bad }

def execIter (sx : BitVec 5) (_l : BitVec 4) (s : State) : Res :=
  outsideTx s 0x3B <|
    match s.me.nest with
    | none => wrote (s.modMe fun c => { c with lastIter := c.seq }) sx 0 false
    | some x =>
      withAddress (write := true) s x.line 8 false <|
        issueAll s [s.me.dest sx] none
          [{ id := 0, seq := 0, kind := .ticket, va := x.line, size := 8, data := 1, dst := s.me.dest sx
             ext := [x.line, x.extents, x.parts] }] fun c => { c with lastIter := s.me.seq }

/-- The s of the thread's last ITER is still empty, on whatever nest that was. -/
def State.ticketPending (s : State) : Bool :=
  let last (a : Access) : Bool := a.kind == AccKind.ticket && a.seq == s.me.lastIter
  s.me.flights.any last || (s.loggedOf s.cur).any last

/-- The four indices of flat iteration f. -/
def Nest.indices (x : Nest) (f : Nat) : List Nat :=
  let n0 := x.extent 0
  let n1 := x.extent 1
  let n2 := x.extent 2
  [f % n0, f / n0 % n1, f / (n0 * n1) % n2, f / (n0 * n1 * n2)]

def execItnext (sx : BitVec 5) (_l : BitVec 4) (s : State) : Res :=
  outsideTx s 0x3B <|
    if s.ticketPending then parked s .register
    else match s.me.nest with
      | some x =>
        if x.current && decide (x.unpacked < x.size) then
          let ix := x.indices (x.start + x.unpacked)
          let s1 := s.modMe fun c =>
            { c with nest := some { x with unpacked := x.unpacked + 1 }
                     ix := (List.range 4).foldl (fun t i =>
                       t.put i ({ val := w64 (ix.getD i 0), full := true, poison := x.poison } : Cell)) c.ix }
          wrote s1 sx 1 x.poison
        else wrote s sx 0 false
      | none => wrote s sx 0 false

def execIxmov (n : BitVec 2) (d : BitVec 5) (_l : BitVec 4) (s : State) : Res :=
  outsideTx s 0x3B (wrote s d (s.me.ixReg n.toNat).val (s.me.ixReg n.toNat).poison)

end Sys2Proof.Machine
end

