-- ==== Sys2Proof/Machine/Launch.lean ====
section
/-! DEFINITION. Launches: submission records, eligibility, ageing, placement, the start and end of cohorts, and
completion with its notification (R343 to R352, R437, R442). -/

namespace Sys2Proof.Machine

/-! ### Submission records (R343, R344) -/

/-- Word i of a record (byte offset 8i). -/
def Record.w (x : Record) (i : Nat) : Word := x.words.getD i 0

def Record.cohorts (x : Record) : Nat := field (x.w 2) 15 0
def Record.threads (x : Record) : Nat := field (x.w 2) 22 16
def Record.wsf (x : Record) : Nat := field (x.w 2) 31 24
def Record.acc (x : Record) : Nat := field (x.w 2) 38 32
def Record.slots (x : Record) : Nat := field (x.w 2) 43 40
def Record.bars (x : Record) : Nat := field (x.w 2) 52 48
def Record.ls (x : Record) : Nat := field (x.w 3) 17 0
def Record.align (x : Record) : Nat := 2 ^ (field (x.w 3) 23 20 + 3)
def Record.age (x : Record) : Nat := if field (x.w 3) 47 32 = 0 then 4096 else field (x.w 3) 47 32
def Record.tag (x : Record) : Nat := field (x.w 11) 31 0

/-- LS rounded up to the alignment. -/
def Record.lsRounded (x : Record) : Nat := roundUp x.ls x.align

/-- Local store of a rill that holds k threads of a cohort (R349). -/
def Record.demand (x : Record) (k : Nat) : Nat := x.lsRounded + k * (136 * x.wsf)

/-- An address field that is used is 8-byte aligned with bits 63:56 zero. -/
def addressField (a : Word) : Bool := field a 63 56 == 0 && field a 2 0 == 0

/-- R344. -/
def Record.invalid (x : Record) : Bool :=
  let zero := field (x.w 0) 63 56 == 0 && !bit (x.w 0) 0 && !bit (x.w 2) 23 && !bit (x.w 2) 39
    && field (x.w 2) 47 44 == 0 && field (x.w 2) 63 53 == 0 && field (x.w 3) 19 18 == 0 && field (x.w 3) 31 24 == 0
    && field (x.w 3) 63 51 == 0 && field (x.w 9) 15 1 == 0 && field (x.w 11) 63 32 == 0
    && [12, 13, 14, 15].all fun i => x.w i == 0
  let ranges := decide (1 ≤ x.cohorts) && decide (1 ≤ x.threads ∧ x.threads ≤ 120) && decide (x.acc ≤ 64)
    && decide (x.slots ≤ 8) && decide (x.bars ≤ 16) && x.ls % 8 == 0 && decide (x.ls ≤ 0x30000)
    && decide (field (x.w 3) 23 20 ≤ 13)
  !(zero && ranges && addressField (x.w 4) && addressField (x.w 6) && addressField (x.w 8) && addressField (x.w 10)
    && decide (x.demand ((x.threads + 7) / 8) ≤ 0x30000))

/-! ### Accesses of queues and dispatchers (R346) -/

/-- The rill of a basin whose translations the queues use. -/
def State.queuePos (s : State) (n : Nat) : Option Pos := (s.lowestRill n).map fun e => ⟨e.1, e.2, 0⟩

/-- A translation of a queue while its basin holds no braid: no TLB keeps it. -/
def State.queueWalk (s : State) (n asid root va : Nat) (need : Need) : State × Xlat :=
  let ws := s.walks n va root
  let s1 := s.afterDraw ws
  match (s.drawn ws).getD (.fault 0x08) with
  | .fault c => (s1, .fault c 0)
  | .poisoned => (s1, .poisoned)
  | .leaf leaf lvl =>
    let pa := field leaf 51 12 * 2 ^ 12 + va % pageBytes lvl
    match s.leafFault n true need leaf pa with
    | some c => (s1, .fault c 0)
    | none => if bit leaf 9 then s1.askHost (queuePlace n) n asid va need leaf (pageBytes lvl) else (s1, .ok pa leaf)

/-- The place of a queue's access in its address space, as a user context's access. -/
def State.queueReach (s : State) (n : Nat) (aspace va : Word) (need : Need) : State × Xlat :=
  if field va 63 56 != 0 then (s, .fault 0x09 0)
  else if bit va 55 then (s, .fault 0x0A 0)
  else match s.queuePos n with
    | some p => s.translateAs p n (field aspace 63 48) (field aspace 43 12) va.toNat true need
    | none => s.queueWalk n (field aspace 63 48) (field aspace 43 12) va.toNat need

/-- A write of the dispatcher or of an agent outside the rills, or a read, may be performed on a line. -/
def State.lineFree (s : State) (line : Nat) (write : Bool) (agent : Nat := 0) : Bool :=
  !s.ownedLine line none && !(write && s.halfDone line 0) && !(s.fanouts.any fun f => f.line == line && f.agent != some agent)
    && (if write then s.lockOf line == 0 else s.lockOf line != 2)

/-- How a dependence word or a completion address stands. -/
inductive Reached where
  | at (pa : Nat)
  | failed
  | wait
  deriving DecidableEq, Repr

/-- Reach 8 bytes for a queue, or for the fan-outs of an agent; a poisoned page-table word contains the basin. -/
def State.queueWord (s : State) (n : Nat) (aspace va : Word) (need : Need) (agent : Nat := 0) : State × Reached :=
  match s.queueReach n aspace va need with
  | (s1, .ok pa _) => (s1, if s1.lineFree (lineOf pa) need.w agent then .at pa else .wait)
  | (s1, .fault _ _) => (s1, .failed)
  | (s1, .ask) => (s1, .wait)
  | (s1, .poisoned) => (s1.contain n, .wait)

/-! ### Completion (R352, R437, R442) -/

/-- A notification arrives in the user-interrupt file of a core, which raises the identity that UIF-CONFIG has set. -/
def Core.notify (x : Core) (v payload tag : Nat) : Core :=
  let y := { x with pending := x.pending ||| 2 ^ v, imsic := x.imsic ++ [(x.identity, x.file)] }
  if x.fifo.length < 32 then { y with fifo := y.fifo ++ [(v, payload, tag)] } else { y with ovf := true }

/-- LAUNCH_NOTIFICATION. -/
def State.notifyLaunch (s : State) (n : Nat) (x : Record) : State :=
  let target := field (x.w 9) 31 16
  let payload := field (x.w 9) 63 32
  let v := target % 64
  if !bit (x.w 9) 0 then s
  else if target / 2 ^ 15 = 0 then
    if target / 64 != 0 then s
    else
      let vf := ((s.basin n).queues.get {} x.queue).vf
      let f := s.vfs.get {} vf
      match f.notify with
      | none => s
      | some r =>
        if vf = 0 then s
        else if r.full then
          { s with vfs := s.vfs.put vf { f.send v with notify := some { r with overflow := true } } }
        else
          let (r1, m) := r.append s.mem [w64 (payload + x.tag * 2 ^ 32)]
          ({ s with mem := m, vfs := s.vfs.put vf { f.send v with notify := some r1 } } : State).ringWrote (r.lines 1)
  else if target / 64 % 4 != 0 then s
  else
    let k := target / 256 % 128
    let c := s.cores.get {} k
    if c.gran.ownedBy n then { s with cores := s.cores.put k (c.notify v payload x.tag) } else s

/-- The write of the completion record, and the increment of POST: releases at .sy of the dispatcher. -/
def State.writeCompletion (s : State) (n pa : Nat) (x : Record) : State :=
  s.homeStore pa 8 (1 + x.status * 2 + x.tag * 2 ^ 32) false (some (s.tagOf (queuePlace n) 5 pa (x.w 8)))
def State.incrementPost (s : State) (n pa : Nat) (x : Record) : State :=
  let (v, bad) := s.mem.load pa 8
  s.homeStore pa 8 ((v + 1) % 2 ^ 64) bad (some (s.tagOf (queuePlace n) 5 pa (x.w 10)))

/-- The number under which a launch's writes start their fan-outs. -/
def launchAgent (id : Nat) : Nat := 2 ^ 62 + id

/-- The line of a word that has been reached. -/
def Reached.lines : Reached → List Nat
  | .at pa => [lineOf pa]
  | .failed => []
  | .wait => []

/-- The steps of R352 for a launch whose cohorts have all ended. It waits while a line, a host translation or a fan-out
is not ready. -/
def State.completeLaunch (s : State) (n : Nat) (x : Record) : State :=
  let aspace := ((s.basin n).queues.get {} x.queue).aspace
  let agent := launchAgent x.id
  let (s1, r1) := if x.w 8 = 0 then (s, .failed) else s.queueWord n aspace (x.w 8) { w := true } agent
  let (s2, r2) := if x.w 10 = 0 then (s1, .failed) else s1.queueWord n aspace (x.w 10) { r := true, w := true } agent
  if r1 == .wait || r2 == .wait || (s2.basin n).contained then s2
  else
    let (s3, go) := s2.gateInLine (queuePlace n) agent 0 (r1.lines ++ r2.lines)
    if !go then s3
    else
      let s4 := match r1 with
        | .at pa => s3.writeCompletion n pa x
        | .failed => s3
        | .wait => s3
      let s5 := match r2 with
        | .at pa => s4.incrementPost n pa x
        | .failed => s4
        | .wait => s4
      (s5.notifyLaunch n x).modBasin n fun y => { y with records := y.records.filter fun z => z.id != x.id }

/-- A record places no further cohort: it is cancelled, failed, or has placed them all. -/
def Record.exhausted (x : Record) : Bool := x.status != 0 || x.cancelled || decide (x.cohorts ≤ x.placed)

/-- A reservation ends with the last unplaced cohort of its record (R350). -/
def State.liftReservations (s : State) (n : Nat) : State :=
  let waits (id : Nat) : Bool := (s.basin n).records.any fun x => x.id == id && !x.exhausted
  { s with braids := s.braids.update fun b y =>
      if s.holds n b && !(y.reserved.all waits) then { y with reserved := none } else y }

/-- Every launch of a basin that is complete takes its steps, in the order of acceptance. -/
def State.finishLaunches (s : State) (n : Nat) : State :=
  ((s.basin n).records.filter fun x => x.exhausted && x.running == 0).foldl (fun t x =>
    t.completeLaunch n { x with status := if x.cancelled && x.status == 0 then 1 else x.status }) (s.liftReservations n)

/-! ### Acceptance and eligibility (R345, R346) -/

/-- What the read of a dependence word gives. -/
structure DepRead where
  /-- It could be made, or no word is used. -/
  made : Bool := true
  /-- It does not translate, or a permission fails. -/
  failed : Bool := false
  satisfied : Bool := true
  lines : List Nat := []
  /-- The edges of the write that has raised it to its threshold. -/
  edges : List (Nat × Nat) := []
  deriving DecidableEq, Repr

/-- The latest write that has raised the word at pa to a threshold gives its edges (R180). -/
def State.raisedTo (s : State) (pa thr : Nat) : List (Nat × Nat) :=
  ((s.raises.filter fun x => x.word == wordOf pa && decide (x.old < thr ∧ thr ≤ x.new)).getLast?).elim [] Raise.edges

/-- The read of one dependence word. The manual gives the queue no position, at which R165 and R183 could judge its acquire:
the model takes the lowest rill of the basin (model's choice, log entry 54). -/
def State.dependence (s : State) (n : Nat) (aspace dep thr : Word) : State × DepRead :=
  if dep = 0 then (s, {})
  else match s.queueWord n aspace dep { r := true } with
    | (s1, .at pa) =>
      let s2 := match s1.queuePos n with
        | some p => s1.acquire p 3 pa 8
        | none => s1
      (s2, { satisfied := decide (thr.toNat ≤ s2.mem.read pa 8), lines := [lineOf pa], edges := s2.raisedTo pa thr.toNat })
    | (s1, .failed) => (s1, { failed := true })
    | (s1, .wait) => (s1, { made := false, satisfied := false })

def State.modRecord (s : State) (n id : Nat) (f : Record → Record) : State :=
  s.modBasin n fun y => { y with records := y.records.map fun z => if z.id == id then f z else z }

/-- The queue reads the dependence words of a record that is not yet eligible. -/
def State.readDependences (s : State) (n : Nat) (x : Record) : State :=
  if x.eligible || x.status != 0 then s
  else
    let aspace := ((s.basin n).queues.get {} x.queue).aspace
    let (s1, a) := s.dependence n aspace (x.w 4) (x.w 5)
    let (s2, b) := s1.dependence n aspace (x.w 6) (x.w 7)
    if a.failed || b.failed then (s2.modRecord n x.id fun z => { z with status := 4 }).finishLaunches n
    else if a.satisfied && b.satisfied then
      s2.modRecord n x.id fun z =>
        { z with eligible := true, since := s2.cycle, deps := [], reread := false, edges := a.edges ++ b.edges }
    else s2.modRecord n x.id fun z => { z with deps := a.lines ++ b.lines, reread := !(a.made && b.made) }

/-- Records that a queue holds. -/
def Basin.held (x : Basin) (q : Nat) : Nat := (x.records.filter fun z => z.queue == q).length

/-- A queue answers retry. -/
def Basin.retries (x : Basin) (q : Nat) : Bool := x.contained || !(x.queues.get {} q).enable || decide (256 ≤ x.held q)

/-- A record is accepted into a queue. -/
def State.accept (s : State) (n : Nat) (x : Record) : State :=
  let y := { x with id := s.nextRecord }
  let s1 := ({ s with nextRecord := s.nextRecord + 1 } : State).modBasin n fun z => { z with records := z.records ++ [y] }
  if y.status != 0 then s1.finishLaunches n else s1.readDependences n y

/-- Submit 16 words to a queue by LAUNCH: the answer 0 accept, 1 retry, 2 refused (R354). -/
def State.submit (s : State) (n q : Nat) (ws : List Word) : State × Nat :=
  let x : Record := { id := 0, queue := q, words := ws }
  if (s.basin n).retries q then (s, 1)
  else if x.invalid then (s, 2)
  else (s.accept n x, 0)

/-- BAR0 of a VF shows the submission page of queue q of its basin, to which QUEUE-CONFIG has bound the VF. -/
def State.pageBound (s : State) (vf q : Nat) : Bool :=
  let g := (s.vfs.get {} vf).gran
  g.ownedBy g.basin && decide (vf ≠ 0) && ((s.basin g.basin).queues.get {} q).vf == vf

/-- A write to a submission page that is no 128-byte Deferrable Memory Write is discarded and counted in the error
entries of the VF (R437). -/
def State.discardWrite (s : State) (vf : Nat) : State :=
  let f := s.vfs.get {} vf
  ({ s with vfs := s.vfs.put vf { f with discarded := f.discarded + 1 } } : State).logError
    (if f.gran.ownedBy f.gran.basin then some f.gran.basin else none) 4 5 vf 0

/-- What a read at offset 0x800 of the submission page of queue q returns (R437). -/
def Basin.pageState (x : Basin) (q : Nat) : Word :=
  w64 (x.held q + (if (x.queues.get {} q).enable then 2 ^ 9 else 0) + if x.contained then 2 ^ 10 else 0)

/-- SUBMISSION_WRITE (R345, R437): a record of 16 words on the submission page of queue q in BAR0 of a VF, answered 0 for
Successful Completion and 1 for the retry completion status; any other number of words stands for any other write. An
invalid record completes at once with STATUS 3. -/
def execSubmissionWrite (vf q : Nat) (ws : List Word) (s : State) : Res :=
  let bs := (s.vfs.get {} vf).gran.basin
  let x : Record := { id := 0, queue := q, words := ws }
  if vf = 0 || 1024 < vf || 7 < q then .next s
  else if ws.length != 16 then .next (s.discardWrite vf)
  else if !s.pageBound vf q || (s.basin bs).retries q then .next (s.answerOuter (1, false))
  else .next ((s.answerOuter (0, false)).accept bs { x with status := if x.invalid then 3 else 0 })

/-- DEPENDENCE_REREAD (R346): after a write to the line of a dependence word, or until a first read could be made. -/
def execDependenceReread (bs n : Nat) (s : State) : Res :=
  match (s.basin bs).records.find? fun x => x.id == n with
  | some x => if (s.basin bs).contained || !x.reread then .next s else .next (s.readDependences bs x)
  | none => .next s

/-! ### Fit (R349, R350) -/

/-- A braid on which the dispatcher places cohorts: OWNED, no destination of a plan while Migrate has not ended,
and in no CMIG (R407, R413, R423). -/
def State.placeable (s : State) (n b : Nat) : Bool :=
  let x := s.braid b
  x.gran.basin == n && x.gran.state == .owned && !x.moving && !x.fenced
    && !((s.basin n).resize.any fun z => decide (z.phase ≤ 2) && z.dest.any fun d => d.2 == b)

/-- Threads of a cohort of t threads with base rill rho on rill r. -/
def threadsOn (t rho r : Nat) : Nat := ((List.range t).filter fun i => (rho + i) % 8 == r).length

/-- Context k of rill r is free for a cohort: empty, not held by CTXSTATE.HOLD (R384), and no cohort's. -/
def State.contextFree (s : State) (b r k : Nat) : Bool :=
  (s.ctx ⟨b, r, k⟩).run == .empty && !bit (s.rillSr b r 0x125) (32 + k)
    && !((s.braid b).cohorts.any fun c => c.2.threads.contains (r, k))

/-- The contexts of the rows from row j on, of those not yet taken; none when a row finds none. -/
def State.fitRows (s : State) (b t rho : Nat) (empty : Bool) : Nat → Nat → List Nat → Option (List Nat)
  | 0, _, taken => some taken
  | n + 1, j, taken =>
    let rills := (List.range (min 8 (t - 8 * j))).map fun i => (rho + i) % 8
    match (List.range 15).find? fun k => !taken.contains k && (empty || rills.all fun r => s.contextFree b r k) with
    | some k => s.fitRows b t rho empty n (j + 1) (taken ++ [k])
    | none => none

/-- Offsets at which a rill's dispatch range has room for size bytes with an alignment (R349). -/
def State.roomsOn (s : State) (b r size al : Nat) (empty : Bool) : List Nat :=
  let v := s.rillSr b r 0x124
  let lo := field v 17 3 * 8
  let hi := field v 49 35 * 8
  let held := (s.braid b).cohorts.flatMap fun c => c.2.store.filter fun x => x.1 == r
  ((List.range (0x30000 / al + 1)).map fun i => i * al).filter fun a =>
    decide (lo ≤ a ∧ a + size ≤ hi) && (empty || held.all fun x => decide (a + size ≤ x.2.1 ∨ x.2.2 ≤ a))

/-- The lowest run of n free numbers below top. -/
def freeRun (free : Nat → Bool) (n top : Nat) : Option Nat :=
  (List.range (top + 1 - n)).find? fun a => (List.range n).all fun i => free (a + i)

/-- What Fit finds: rho, the context of each row, and the runs. -/
structure Fit where
  rho : Nat
  rows : List Nat
  tile : Nat
  slot : Nat
  bar : Nat
  deriving DecidableEq, Repr

/-- Fit(r) on braid b, as it stands or as if it were empty. -/
def State.fit (s : State) (b : Nat) (x : Record) (empty : Bool) : Option Fit :=
  let br := s.braid b
  let t := x.threads
  (List.range 8).findSome? fun i =>
    let rho := (br.rp + i) % 8
    match s.fitRows b t rho empty ((t + 7) / 8) 0 [] with
    | none => none
    | some rows =>
      let stores := (List.range 8).all fun r =>
        threadsOn t rho r == 0 || !(s.roomsOn b r (x.demand (threadsOn t rho r)) x.align empty).isEmpty
      let tile := freeRun (fun j => empty || (br.tile j).cohort.isNone) x.acc 64
      let slot := freeRun (fun j => empty || (br.slot j).cohort.isNone) x.slots 8
      let bar := freeRun (fun j => empty || (br.barriers.get {} j).cohort.isNone) x.bars 16
      match tile, slot, bar with
      | some a, some c, some d => if stores then some { rho := rho, rows := rows, tile := a, slot := c, bar := d } else none
      | _, _, _ => none

/-- The braids of a basin in ascending basin braid index. -/
def State.braidsAscending (s : State) (n : Nat) : List Nat :=
  (List.range 512).filterMap fun i => ((s.braidsOf n).find? fun e => e.1 == i).map Prod.snd

def State.fitBraid (s : State) (die n : Nat) (x : Record) : Option (Nat × Fit) :=
  ((s.braidsAscending n).filter fun b => b / 64 == die).findSome? fun b =>
    if s.placeable n b && ((s.braid b).reserved.all fun id => id == x.id) then (s.fit b x false).map fun f => (b, f) else none

/-- R348: no braid of the basin could hold a cohort, were it empty. -/
def State.unplaceable (s : State) (n : Nat) (x : Record) : Bool :=
  !((s.braidsOf n).any fun e => (s.fit e.2 x true).isSome)

/-! ### Placement (R350, R351) -/

/-- A thread as the dispatcher starts it. -/
def startedCtx (s : State) (x : Record) (aspace : Word) (id tid i offset row : Nat) (f : Fit) (local' : Word) : Ctx :=
  let frames := 136 * x.wsf
  let wsbase := offset + x.lsRounded + row * frames
  let run (n v : Nat) : Nat := if n = 0 then 0 else v
  let args : List Word :=
    [x.w 1, w64 x.placed, w64 i, local', w64 x.threads,
     w64 (run x.acc f.tile + run x.slots f.slot * 2 ^ 8 + run x.bars f.bar * 2 ^ 16 + f.rho * 2 ^ 24)]
  { run := .running, pc := setField (setField (x.w 0) 63 56 0) 0 0 0, startAt := s.cycle + 4, lastIssue := s.cycle
    cohort := some id, after := x.edges
    win := (List.range 6).foldl (fun t j => t.put (16 * 2047 + j) ({ val := args.getD j 0 } : Cell)) []
    sr := [(0x022, srStart 0x022 0 tid), (0x030, w64 wsbase), (0x031, w64 wsbase), (0x032, w64 (wsbase + frames)),
           (0x098, w64 offset), (0x0A0, aspace)].foldl (fun t e => t.put e.1 e.2) [] }

/-- Place: the next cohort of a record goes to braid b. Its allocation on each rill lies at the lowest offset that holds it, as
R449 and R452 say of an empty braid (log entry 51). The manual does not say whether a record keeps the configuration
its queue had at acceptance; this model takes ASPACE and the bound VF as QUEUE-CONFIG has them at each use, which is its
own choice. -/
def State.place (s : State) (n b : Nat) (x : Record) (f : Fit) : State :=
  let id := s.nextId
  let t := x.threads
  let br := s.braid b
  let offsets := (List.range 8).map fun r => (s.roomsOn b r (x.demand (threadsOn t f.rho r)) x.align false).headD 0
  let pos (i : Nat) : Pos := ⟨b, (f.rho + i) % 8, f.rows.getD (i / 8) 0⟩
  let store := ((List.range 8).filter fun r => threadsOn t f.rho r != 0).map fun r =>
    (r, offsets.getD r 0, offsets.getD r 0 + x.demand (threadsOn t f.rho r))
  let co : Cohort :=
    { record := x.id, basin := n, threads := (List.range t).map fun i => ((pos i).r, (pos i).k), store := store
      tile0 := f.tile, tiles := x.acc, slot0 := f.slot, slots := x.slots, bar0 := f.bar, bars := x.bars }
  let br1 := (List.range x.acc).foldl (fun y j => y.modTile (f.tile + j) fun z =>
    { z with cohort := some id, owner := some ((f.rho + j % min t 8) % 8), pending := none, out := 0 }) br
  let br2 := (List.range x.slots).foldl (fun y j => y.modSlot (f.slot + j) fun z => { z with cohort := some id }) br1
  let br3 := { br2 with
    barriers := (List.range x.bars).foldl (fun z j => z.put (f.bar + j) { cohort := some id, count := t }) br2.barriers
    cohorts := br2.cohorts.put id co, rp := (f.rho + 1) % 8
    reserved := if br2.reserved == some x.id then none else br2.reserved }
  let aspace := ((s.basin n).queues.get {} x.queue).aspace
  let s1 := ({ s with nextId := id + 1 } : State).setBraid b br3
  let s2 := (List.range t).foldl (fun z i =>
    let p := pos i
    let off := offsets.getD p.r 0
    z.setCtx p (startedCtx s x aspace id (s.tid p) i off (i / 8) f (w64 (2 ^ 55 + p.r * 2 ^ 21 + off)))) s1
  let s3 := s2.modRecord n x.id fun z => { z with placed := z.placed + 1, running := z.running + 1 }
  let s4 := s3.modBasin n fun y =>
    { y with qrr := if x.aged then y.qrr else (x.queue + 1) % 8
             queues := let q := y.queues.get {} x.queue; y.queues.put x.queue { q with placed := q.placed + 1 } }
  if x.cohorts ≤ x.placed + 1 then
    { s4 with braids := s4.braids.update fun _ y => if y.reserved == some x.id then { y with reserved := none } else y }
  else s4

/-- Reserve: the lowest braid of the die whose empty capacity holds a cohort. -/
def State.reserve (s : State) (die n : Nat) (x : Record) : State :=
  let mine := (s.braidsAscending n).filter fun b => b / 64 == die
  if mine.any fun b => (s.braid b).reserved == some x.id then s
  else match mine.find? fun b => s.placeable n b && (s.braid b).reserved.isNone && (s.fit b x true).isSome with
    | some b => s.modBraid b fun y => { y with reserved := some x.id }
    | none => s

/-- L of PlaceRound. -/
def Basin.order (x : Basin) : List Record :=
  let rs := x.records.filter fun r => r.eligible && !r.exhausted
  (rs.filter fun r => r.aged)
    ++ [3, 2, 1, 0].flatMap fun p => (List.range 8).flatMap fun i =>
      let q := (x.qrr + i) % 8
      if (x.queues.get {} q).prio = p then rs.filter fun r => !r.aged && r.queue == q else []

def placeFrom (die n : Nat) : List Record → State → State
  | [], s => s
  | x :: t, s =>
    match s.fitBraid die n x with
    | some (b, f) => s.place n b x f
    | none => placeFrom die n t (if x.aged then s.reserve die n x else s)

/-- Aged records that no braid could hold place no further cohort (R348). -/
def State.judgeAged (s : State) (n : Nat) : State :=
  s.modBasin n fun y => { y with records := y.records.map fun x =>
    if x.aged && !x.exhausted && s.unplaceable n x then { x with status := 5 } else x }

/-- PLACEMENT_ROUND of a base die for a basin. -/
def execPlacementRound (die bs : Nat) (s : State) : Res :=
  if !(s.basin bs).alive || (s.basin bs).contained then .next s
  else
    let s1 := s.judgeAged bs
    .next ((placeFrom die bs (s1.basin bs).order s1).finishLaunches bs)

/-- RECORD_AGED (R347). -/
def execRecordAged (bs n : Nat) (s : State) : Res :=
  match (s.basin bs).records.find? fun x => x.id == n with
  | some x =>
    if x.eligible && !x.aged && !x.exhausted && !(s.basin bs).contained
        && decide (x.since + x.age * Config.usCycles ≤ s.cycle) then
      .next (((s.modRecord bs n fun z => { z with aged := true }).judgeAged bs).finishLaunches bs)
    else .next s
  | none => .next s

/-! ### The end of a cohort (R352) -/

/-- The braid frees what a cohort holds. -/
def Braid.freeCohort (x : Braid) (id : Nat) : Braid :=
  let mine (c : Option Nat) : Bool := c == some id
  { x with
    cohorts := x.cohorts.drop id
    tiles := x.tiles.update fun _ t => if mine t.cohort then { t with cohort := none, owner := none, pending := none } else t
    slots := x.slots.update fun _ t => if mine t.cohort then { t with cohort := none } else t
    barriers := x.barriers.update fun _ t => if mine t.cohort then {} else t }

/-- COHORT_END: cohort n of braid b, once all its threads have halted. -/
def execCohortEnd (b n : Nat) (s : State) : Res :=
  match (s.braid b).cohorts.find n with
  | some c =>
    if c.threads.all fun t => c.halted.contains t then
      let s1 := s.modBraid b fun x => x.freeCohort n
      .next ((s1.modRecord c.basin c.record fun z => { z with running := z.running - 1 }).finishLaunches c.basin)
    else .next s
  | none => .next s

end Sys2Proof.Machine
end

