-- ==== Sys2Proof/Machine/Perform.lean ====
section
/-! DEFINITION. How the accesses of threads are performed: loads and stores (R147 to R156, R191, R192), network
arbitration (R365), home slices (R286), RMWs and full/empty operations at their owners (R285 to R298), fan-outs and
fencing (R309), and what waits for them: HMSG, LAUNCH, SYNCJ, ITER, SPAWN (R308, R354 to R362, R438). -/

namespace Sys2Proof.Machine

/-! ### Reads -/

def State.flight (s : State) (p : Pos) (n : Nat) : Option Access := (s.ctx p).flights.find? fun a => a.id == n

/-- An access that takes its place in the queue of its line at the home slice: an RMW, a request for a writable copy, a
registration (R286). -/
def Access.queued (a : Access) : Bool :=
  a.kind.rmw || (match a.kind with
    | .monarm _ => true
    | .store => !a.sync && !a.nc
    | .strel _ => !a.sync && !a.nc
    | .czero => !a.sync && !a.nc
    | _ => false)

/-- A load or store has what it needs: the L1 serves it, or it has reached its home slice and its turn there. -/
def State.arrived (s : State) (p : Pos) (a : Access) : Bool :=
  !s.needsSlice p a
    || (if a.queued then s.requests.any fun q => q.2.id == a.id && q.2.stage == 2 else decide (2 ≤ a.stage))

/-- An access is on its way to the home slice, or there. -/
def State.sent (s : State) (n : Nat) : Bool :=
  (s.requests.any fun q => q.2.id == n) || s.packets.any fun e => e.2.any fun q => q.acc.id == n

/-- The packet or request of an access goes. -/
def State.unsend (s : State) (n : Nat) : State :=
  { s with requests := s.requests.filter fun q => q.2.id != n
           packets := s.packets.update fun _ ps => ps.filter fun q => q.acc.id != n }

/-- An access of p that may be performed is performed by k; one that the L1 no longer serves is sent. -/
def State.whenArrived (s : State) (p : Pos) (a : Access) (k : State → Res) : Res :=
  if !s.mayPerform p a then .next s
  else if s.arrived p a then k (s.unsend a.id)
  else if s.sent a.id || decide (2 ≤ a.stage) then .next s
  else .next (s.route p a)

/-- The n words from the place of an access, with their poison. -/
def State.wordsAt (s : State) (a : Access) (n : Nat) : List (Word × Bool) :=
  (List.range n).map fun i => let (v, bad) := s.mem.load (a.pa + 8 * i) 8; (w64 v, bad)

/-- R301: the slot is registered. One that CREST registers again keeps TRIG set (R304). -/
def State.register (s : State) (p : Pos) (k : Nat) (a : Access) : State :=
  if a.aux = 2 then s else
  let s1 := s.disarm p k
  let st := setField (s1.srAt p 0x080) (4 + k) (4 + k) 1
  let s2 := s1.setSr p 0x080 (if a.aux = 1 then setField st k k 1 else st)
  (s2.setSr p (0x09A + k) (w64 (field a.va 55 6 * 64))).modCtx p fun c => { c with mons := c.mons.put k (lineOf a.pa) }

/-- R438: a message of eight words; the answer is 0, or 1 when the ring is full or absent. -/
def State.postMessage (s : State) (n : Nat) (ws : List Word) : State × Nat :=
  match (s.basin n).hmsg with
  | none => (s, 1)
  | some x =>
    if x.full then (s, 1)
    else
      let (y, m) := x.append s.mem ws
      let v := s.vfs.get {} x.vf
      (({ (s.modBasin n fun z => { z with hmsg := some y }) with
          mem := m, vfs := s.vfs.put x.vf (v.send x.vector) } : State).ringWrote (x.lines 8), 0)

/-- An event that concerns position p works as its unit would: its pc and length in halfwords are given. -/
def State.asUnit (s : State) (p : Pos) (pc : Word) (len : Nat) : State :=
  { s with cur := p, upc := pc, ipc := pc, ulen := len }

/-- R308: the message is posted, or the trap of a poisoned word is taken at the unit. -/
def State.hmsgReturn (s : State) (p : Pos) (a : Access) : State :=
  let ws := s.wordsAt a 8
  if ws.any Prod.snd then
    let s1 := s.modCtx p fun c =>
      { (c.unclaim (s.loggedOf p) a.dst a.src) with flights := c.flights.filter fun x => x.id != a.id, wait := none }
    let s2 := (s1.asUnit p (a.ext.getD 0 0) (a.ext.getD 1 0).toNat).trapTo 0x0C a.va
    s2.leaveGroup p
  else
    let (s1, d) := s.postMessage (s.basinOf p.b) (ws.map Prod.fst)
    (s1.deliver p a (w64 d) false).retireAccess p a

/-- R354: the record goes to its queue. -/
def State.launchReturn (s : State) (p : Pos) (a : Access) : State :=
  let ws := s.wordsAt a 16
  if ws.any Prod.snd then (s.deliver p a 2 false).retireAccess p a
  else
    let (s1, v) := s.submit (s.basinOf p.b) (field (ws.getD 3 (0, false)).1 50 48) (ws.map Prod.fst)
    (s1.deliver p a (w64 v) false).retireAccess p a

/-- R359: the counter has been read. -/
def State.joinReturn (s : State) (p : Pos) (a : Access) (k : Nat) : State :=
  let (v, bad) := s.mem.load a.pa 8
  let t : TakeOp := { k := p.k, id := a.src, s := a.dst, ox := k, kind := 2 }
  let s1 := (s.acquire p 3 a.pa 8).retireAccess p a
  if bad then s1.fillTake p t 3 []
  else if v = 0 then s1.fillTake p t 0 []
  else s1.modRill p.b p.r fun x => { x with takes := x.takes ++ [t] }

/-- R191: the value and the status of an LDA. -/
def State.ldaReturn (s : State) (p : Pos) (a : Access) (sx : Bool) (scope : Nat) (qs : Option Nat) : State :=
  let (v, bad) := s.mem.load a.pa a.size
  let (st, ms) := s.judge p scope a.pa a.size
  let s1 := (s.notifyMisses ms).modCtx p fun c => match qs with
    | some q => c.fill (.q q) a.src (wordOfBool st) false
    | none => c
  ((s1.deliver p a (extend sx a.size v) bad).cached p a).retireAccess p a

/-- An HMSG of a thread is still to post: its read is in flight, or logged. -/
def State.posting (s : State) (p : Pos) : Bool :=
  (s.ctx p).flights.any (fun a => a.kind == AccKind.hmsg)
    || (s.rill p.b p.r).replay.any fun e => e.2.pos == p && e.2.accs.any fun a => a.kind == AccKind.hmsg

/-- R308: in a fused group, lanes post in ascending order. -/
def State.lowerLanePosts (s : State) (p : Pos) : Bool :=
  match s.groupOf p with
  | none => false
  | some g => (lanes g.active).any fun r => decide (r < p.r) && s.posting { p with r := r }

/-- LOAD_DATA_RETURN (R147): read n of a thread is performed. -/
def execLoadDataReturn (b r k n : Nat) (s : State) : Res :=
  let p : Pos := ⟨b, r, k⟩
  match s.flight p n with
  | none => .next s
  | some a =>
    match a.kind with
    | .load sx => s.whenArrived p a fun z =>
      let (v, bad) := z.mem.load a.pa a.size
      .next (((z.deliver p a (extend sx a.size v) bad).cached p a).retireAccess p a)
    | .lda sx scope qs => s.whenArrived p a fun z => .next (z.ldaReturn p a sx scope qs)
    | .monarm slot =>
      if s.lockOf (lineOf a.pa) != 0 then .next s
      else s.whenArrived p a fun z => .next ((z.register p slot a).retireAccess p a)
    | .hmsg => if s.lowerLanePosts p then .next s else s.whenArrived p a fun z => .next (z.hmsgReturn p a)
    | .launch => s.whenArrived p a fun z => .next (z.launchReturn p a)
    | .joinRead k' => s.whenArrived p a fun z => .next (z.joinReturn p a k')
    | _ => .next s

/-! ### RMWs at the owner (R288 to R296) -/

/-- The scope of the acquire that an RMW makes. -/
def AccKind.scope : AccKind → Nat
  | .cas _ sc => sc
  | _ => 3

/-- A task is to be pushed on the rill that its target word names, or on the lowest rill of the basin (R294). -/
def State.sendTask (s : State) (p : Pos) (a : Access) : State :=
  let n := s.basinOf p.b
  let target := match s.rillOf n (a.ext.getD 4 0).toNat with
    | some e => some e
    | none => s.lowestRill n
  match target with
  | none => s
  | some (b, r) =>
    let dq := s.dequeAt b r
    s.modRill dq.1 dq.2 fun x => { x with dqWait := x.dqWait ++
      [{ task := (a.ext.take 4).map fun w => (w, false), cc := a.cc.map fun m => (p, m), since := s.cycle }] }

/-- R285: an RMW of host memory that is a read followed by a write; the others are AtomicOps of the link. -/
def Access.splits (a : Access) : Bool :=
  isHost a.pa && !(match a.kind with
    | .amo op => op == 0 || op == 8
    | .cas _ _ => true
    | _ => false)

/-- The word of an RMW is read and written: its old value and poison bit. -/
def State.applyRmwAt (s : State) (p : Pos) (a : Access) : State × Nat × Bool :=
  let (old, bad) := a.old.getD (s.mem.load a.pa a.size)
  let s0 := if isLocal a.pa then s else s.recall (lineOf a.pa)
  let s1 := if a.acquires && !a.kind.isRupd then s0.acquire p a.kind.scope a.pa a.size else s0
  let tag := a.tag.map fun sc => some (s.tagOf p sc a.pa a.va)
  match a.kind with
  | .cas _ _ =>
    match casWrite a.size old a.aux.toNat a.data.toNat bad a.auxPoison a.poison with
    | some (v, np) => (s1.ownerWrite a.pa a.size v np tag, old, bad)
    | none => (s1, old, bad)
  | _ =>
    let op := a.kind.update.getD 0
    let v := amoNew op a.size old a.data.toNat
    let s2 := match a.kind with
      | .rupd u => if (u == 11 || u == 12) && v == 0 then s1.acquire p 3 a.pa a.size else s1
      | _ => s1
    (s2.ownerWrite a.pa a.size v (rmwPoison op a.size bad a.poison) tag, old, bad)

/-- The same, with the word noted where it is raised (R180). -/
def State.applyRmw (s : State) (p : Pos) (a : Access) : State × Nat × Bool :=
  let r := s.applyRmwAt p a
  (r.1.noteRaise s.mem p a.id a.pa a.size, r.2)

/-- An access leaves the flights and its end is told by another event. -/
def State.dropFlight (s : State) (p : Pos) (a : Access) : State :=
  s.modCtx p fun c => { c with flights := c.flights.filter fun x => x.id != a.id }

/-- The binding that an ITER claims on: the one that stood when it issued, whatever NEST has followed (R362). One that
a save image has held does not name it, and takes the binding of its thread. -/
def Access.bound (a : Access) (now : Option Nest) : Nest :=
  match a.ext with
  | [line, extents, parts] => { line := line, extents := extents, parts := parts }
  | _ => now.getD { line := 0, extents := 0, parts := 0 }

/-- What an RMW returns to its thread. -/
def State.returnRmw (s : State) (p : Pos) (a : Access) (old : Nat) (bad : Bool) : State :=
  match a.kind with
  | .ticket =>
    let y := (a.bound (s.ctx p).nest).claim old bad
    let s1 := match (s.ctx p).nest with
      | some x => if x.seq < a.seq then s.modCtx p fun c => { c with nest := some { y with seq := x.seq } } else s
      | none => s
    (s1.deliver p a (w64 y.size) bad).retireAccess p a
  | .joinInc =>
    let dq := s.dequeAt p.b p.r
    ((s.orderOlder p a).dropFlight p a).modRill dq.1 dq.2 fun x => { x with dqWait := x.dqWait ++
      [{ task := a.ext.map fun w => (w, false), src := some (p, a.seq), since := s.cycle }] }
  | .rupd op =>
    if (op == 11 || op == 12) && amoNew 0 a.size old a.data.toNat == 0 then
      ((s.sendTask p a).orderOlder p a).modCtx p fun c =>
        ({ c with flights := c.flights.filter fun x => x.id != a.id } : Ctx).closeLa a.seq
    else s.retireAccess p a
  | _ => (s.deliver p a (zext old (8 * a.size)) bad).retireAccess p a

/-- Requests combined into one follow it at once; each returns the poison bit of the word before the first
(R287). -/
def applyMerged (bad : Bool) : List (Pos × Access) → State → State
  | [], s => s
  | (p, a) :: t, s =>
    let (s1, old, _) := s.applyRmw p a
    applyMerged bad t (s1.returnRmw p a old bad)

/-- An RMW is performed, with the requests combined into it. -/
def State.performRmw (s : State) (p : Pos) (a : Access) : State :=
  let riders := a.merged.filterMap fun n => s.requests.find? fun q => q.2.id == n
  let s0 := { s with requests := s.requests.filter fun q => !a.merged.contains q.2.id }
  let (s1, old, bad) := s0.applyRmw p a
  (applyMerged bad riders (s1.returnRmw p a old bad)).scan a.pa

/-- A write, RMW or FE operation is performed. -/
def State.performWrite (s : State) (p : Pos) (a : Access) : State :=
  if a.kind.fe then (s.performFe p a).scan a.pa
  else if a.kind.rmw then s.performRmw p a
  else s.performStore p a

/-! ### Fan-outs (R309) -/

/-- A write is performed at once, or starts its fan-out. -/
def State.startWrite (s : State) (p : Pos) (a : Access) : State :=
  let o := s.sharersFor p a
  if o.isEmpty then s.performWrite p a else s.startFanout p a o

/-- The number under which writes from outside the rills start their fan-outs. -/
def outerAgent : Nat := 2 ^ 60

/-- The scope at which an agent outside the rills releases and acquires: an application core, the host or another package
(R162). -/
def outerScope (p : Pos) : Nat := if p.b < 1024 then 4 else 5

/-- A conditional store of an application core whose reservation is gone (R442). -/
def State.lostReservation (s : State) (p : Pos) (a : Access) : Bool :=
  a.ext == [1] && (s.cores.get {} (8 * (p.b - 512) + p.r)).resv != some (lineOf a.pa)

/-- A write or RMW of an agent outside the rills is performed at the home. One that acquires is judged first. An RMW
answers the old value; a conditional store answers 0 where it has stored and 1 where it has not. -/
def State.performOuter (s : State) (p : Pos) (a : Access) : State :=
  let s1 := if a.ordered then s.acquire p (outerScope p) a.pa a.size else s
  if a.kind.rmw then
    let (s2, old) := s1.applyRmw p { a with ordered := false }
    (s2.scan a.pa).answerOuter old
  else if s1.lostReservation p a then
    ({ s1 with cores := s1.cores.update fun k c => if corePos k == p then { c with resv := none } else c } : State).answerOuter
      (1, false)
  else
    let s2 := s1.homeStore a.pa a.size a.data.toNat a.poison (a.tag.map fun sc => s.tagOf p sc a.pa a.va)
    if a.ext == [1] then s2.answerOuter (0, false) else s2

/-- It is performed at once, or starts its fan-out. -/
def State.startOuter (s : State) (p : Pos) (a : Access) : State :=
  let o := s.agentSharers (lineOf a.pa)
  if o.isEmpty then s.performOuter p a
  else { s with fanouts := s.fanouts ++
    [{ line := lineOf a.pa, sharers := o, agent := some outerAgent, pos := p, acc := { a with stage := 4 }, since := s.cycle }] }

/-- A fan-out whose sharers have all acknowledged commits; an agent that writes at its own event does so then. An FE
operation whose condition no longer holds parks again (R298). -/
def State.commitFanout (s : State) (f : Fanout) : State :=
  match f.agent with
  | none =>
    if f.acc.kind.fe && !feReady f.acc.kind (s.mem.isFull f.acc.pa) then
      { s with requests := s.requests ++ [(f.pos, { f.acc with stage := 3, since := s.cycle })] }
    else s.performWrite f.pos f.acc
  | some n => if n = outerAgent then s.performOuter f.pos f.acc else { s with fanouts := s.fanouts ++ [f] }

/-- Sharer b has acknowledged, or is taken out, in the fan-outs that f selects: those that are complete commit. -/
def State.acknowledge (s : State) (b : Nat) (f : Fanout → Bool) : State :=
  let fs := s.fanouts.map fun x => if f x then { x with sharers := x.sharers.filter fun y => y != b } else x
  (fs.filter fun x => x.sharers.isEmpty).foldl (fun t x => t.commitFanout x)
    { s with fanouts := fs.filter fun x => !x.sharers.isEmpty }

/-- WRITE_UPDATE_ACK. -/
def execWriteUpdateAck (b line : Nat) (s : State) : Res :=
  if (s.fanouts.any fun f => f.line == line && f.sharers.contains b) && !(s.braid b).cut then
    .next (s.acknowledge b fun f => f.line == line)
  else .next s

/-- A line that a fenced braid held writable: the home's last written-back value, every word poisoned. -/
def Memory.loseLine (m : Memory) (line : Nat) (l : L1Line) : Memory :=
  if !l.writable then m
  else
    let m1 := if l.dirty then m.write (64 * line) 64 l.home else m
    (List.range 8).foldl (fun t i => t.setPoison (64 * line + 8 * i) true) m1

/-- The braid is fenced: its copies are lost, its monitors too, and its basin is contained. -/
def State.fenceBraid (s : State) (b : Nat) : State :=
  let mem := (s.braid b).l1.foldl (fun m e => m.loseLine e.1 e.2) s.mem
  let s1 := ({ s with
    mem := mem
    triggers := s.triggers.filter fun t => t.1.b != b
    ctxs := s.ctxs.update fun key c =>
      if key / 128 == b && c.run != .empty then
        { c with mons := [], sr := c.sr.put 0x080 (setField (c.sr.get 0 0x080) 8 8 1) }
      else c } : State).modBraid b fun x => { x with l1 := [], fenced := true, cut := true }
  let n := s.basinOf b
  let s2 := s1.acknowledge b fun _ => true
  ((s2.logError (some n) 3 3 b 0).hostEvent).closeBasin n

/-- FANOUT_TIMEOUT: 20 µs after the start of a fan-out whose sharer cannot be reached. -/
def execFanoutTimeout (b line : Nat) (s : State) : Res :=
  if (s.fanouts.any fun f => f.line == line && f.sharers.contains b && decide (f.since + 20 * Config.usCycles ≤ s.cycle))
      && (s.braid b).cut then .next (s.fenceBraid b)
  else .next s

/-- KEEPALIVE_LOSS. -/
def execKeepaliveLoss (b : Nat) (s : State) : Res := .next (s.modBraid b fun x => { x with cut := true })
/-- KEEPALIVE_RETURN: the L1 data caches are cleared first. The manual does not say whether bytes that a writable copy
of a braid held dirty, and that no fencing has declared lost, are lost then; this model keeps them, as written back,
which is its own choice. -/
def execKeepaliveReturn (b : Nat) (s : State) : Res :=
  .next (s.modBraid b fun x => if x.cut then { x with cut := false, l1 := [] } else x)

/-! ### Stores and cache operations -/

/-- CWB and CFLUSH (R155). -/
def Braid.clean (x : Braid) (line : Nat) : Braid :=
  match x.l1.find line with
  | some l => { x with l1 := x.l1.put line { l with writable := false, dirty := false } }
  | none => x

/-- IINV (R156): the line leaves the instruction caches and fetch stages of the rills in reach. -/
def State.dropFetched (s : State) (p : Pos) (reach line : Nat) : State :=
  let inReach (key : Nat) : Bool :=
    match reach with
    | 0 => key == rillKey p.b p.r
    | 1 => key / 8 == p.b
    | _ => s.holds (s.basinOf p.b) (key / 8)
  { s with rills := s.rills.update fun key x =>
      if inReach key then { x with icache := x.icache.drop line, versions := x.versions.drop line, fetching := x.fetching.filter fun l => l != line } else x }

/-- STORE_PERFORMED (R148): store or cache operation n of a thread is performed. -/
def execStorePerformed (b r k n : Nat) (s : State) : Res :=
  let p : Pos := ⟨b, r, k⟩
  match s.flight p n with
  | none => .next s
  | some a =>
    if s.fanouts.any (fun f => f.agent.isNone && f.acc.id == n) then .next s
    else match a.kind with
      | .store => s.whenArrived p a fun z => .next (z.startWrite p a)
      | .strel _ => s.whenArrived p a fun z => .next (z.startWrite p a)
      | .czero => s.whenArrived p a fun z => .next (z.startWrite p a)
      | .cwb => s.whenArrived p a fun z => .next ((z.modBraid b fun x => x.clean (lineOf a.pa)).retireAccess p a)
      | .cflush => s.whenArrived p a fun z => .next ((z.modBraid b fun x => { x with l1 := x.l1.drop (lineOf a.pa) }).retireAccess p a)
      | .iinv reach => s.whenArrived p a fun z => .next ((z.dropFetched p reach (lineOf a.pa)).retireAccess p a)
      | _ => .next s

/-! ### The network (R287, R365) -/

/-- Requests that the switches may combine. -/
def Access.combines (a : Access) : Bool :=
  match a.kind with
  | .amo op => op == 0 && !a.ordered
  | .vamo op _ => op == 0 || op == 1
  | .rupd op => op == 0 || op == 1
  | .ticket => true
  | _ => false

/-- The head packet of each input port that can advance: the first of the port that its thread's order lets go. -/
def State.heads (s : State) (ps : List Packet) : List Packet :=
  ps.filter fun q => s.inOrder q.pos q.acc
    && !(ps.any fun z => z.input == q.input && decide (z.acc.id < q.acc.id) && s.inOrder z.pos z.acc)

/-- Distance of an input port from RR over 512 ports. -/
def portDistance (rr i : Nat) : Nat := (i + 512 - rr % 512) % 512

/-- The packet with the least measure. -/
def leastBy (f : Packet → Nat) : List Packet → Option Packet
  | [] => none
  | q :: t => match leastBy f t with
    | some z => if f z < f q then some z else some q
    | none => some q

/-- The winner of an arbitration. -/
def winner (rr : Nat) (h : List Packet) : Option Packet :=
  let old := h.filter fun q => q.age == 15
  let c := match old with
    | [] =>
      let p := h.foldl (fun m q => max m q.prio) 0
      let c1 := h.filter fun q => q.prio == p
      let a := c1.foldl (fun m q => max m q.age) 0
      c1.filter fun q => q.age == a
    | q :: _ =>
      let t := old.foldl (fun m z => min m z.headAt) q.headAt
      old.filter fun z => z.headAt == t
  leastBy (fun q => portDistance rr q.input) c

/-- Packets that may travel with the winner (R287). -/
def partners (w : Packet) (h : List Packet) : List Packet :=
  if !w.acc.combines then []
  else h.filter fun q => q.acc.id != w.acc.id && q.acc.combines && q.acc.pa == w.acc.pa && q.acc.size == w.acc.size
    && q.pos != w.pos

/-- Which of the packets meet the winner in a switch, and on which of its inputs each arrives: the manual does not give
the wiring of the network, so that both are drawn freely. The first of the result is the uppermost. -/
def joinFreely (s : State) : List Packet → List Packet → State × List Packet
  | [], go => (s, go)
  | q :: t, go =>
    let x := Config.freeWord s.free
    let i := (Config.freeWord (s.free + 1)).toNat % (go.length + 1)
    joinFreely { s with free := s.free + 2 } t (if bit x 0 then go.take i ++ q :: go.drop i else go)

/-- What has come through the network: a request takes its place at the slice, with those combined into it; a load, and
a store that needs no copy, is there. -/
def State.arrive (s : State) : List Packet → State
  | [] => s
  | q :: others =>
    if q.acc.queued then
      { s with requests := s.requests ++
          (q.pos, { q.acc with stage := 1, since := s.cycle, merged := others.map fun z => z.acc.id })
            :: others.map fun z => (z.pos, { z.acc with stage := 5, since := s.cycle }) }
    else s.modCtx q.pos fun c => { c with flights := c.flights.map fun x => if x.id == q.acc.id then { x with stage := 2 } else x }

/-- NETWORK_ARBITRATE: egress port o. -/
def execNetworkArbitrate (o : Nat) (s : State) : Res :=
  let ps := s.packets.get [] o
  let h := s.heads ps
  match winner (s.portNext.get 0 o) h with
  | none => .next s
  | some w =>
    let (s1, go) := joinFreely s (partners w h) [w]
    let sent := go.map fun q => q.acc.id
    let rest := (ps.filter fun q => !sent.contains q.acc.id).map fun q =>
      if h.any fun z => z.acc.id == q.acc.id then { q with age := min 15 (q.age + 1) }
      else if go.any fun z => z.input == q.input then { q with headAt := s.cycle }
      else q
    .next (({ s1 with packets := s.packets.put o rest, portNext := s.portNext.put o ((w.input + 1) % 512) } : State).arrive go)

/-! ### The home slice (R286) -/

def State.setRequest (s : State) (n : Nat) (f : Access → Access) : State :=
  { s with requests := s.requests.map fun q => if q.2.id == n then (q.1, f q.2) else q }

/-- A write or RMW of an agent outside the rills reaches the home of its line: it is performed at once where nothing is in
its way, and otherwise takes its place in the queue of the line (R286). -/
def State.outerRequest (s : State) (p : Pos) (a : Access) : State :=
  let line := lineOf a.pa
  if s.lineFree line true && !(s.requests.any fun q => lineOf q.2.pa == line && (q.2.stage == 1 || q.2.stage == 2)) then
    s.startOuter p a
  else { s with nextId := s.nextId + 1, requests := s.requests ++ [(p, { a with id := s.nextId, stage := 1, since := s.cycle })] }

/-- SLICE_SERVE: the line's next request in the order of R286, once the one being served is done. A lock, or another write,
whose turn it is takes the line itself. -/
def execSliceServe (line : Nat) (s : State) : Res :=
  if !(s.requestWaiters line 2).isEmpty then .next s
  else match s.served (s.queueOf line) with
    | some w => if w.lock || !(s.requests.any fun q => q.2.id == w.id && q.2.stage == 1) then .next s
      else .next (s.setRequest w.id fun a => { a with stage := 2 })
    | none => .next s

/-- SLICE_REQUEST_STARVED: after 1024 slice cycles at the slice. -/
def execSliceRequestStarved (n : Nat) (s : State) : Res :=
  match s.requests.find? fun q => q.2.id == n && q.2.stage == 1 with
  | some (_, a) =>
    if a.since + Config.sliceCycles 1024 ≤ s.cycle then .next (s.setRequest n fun x => { x with starved := true })
    else .next s
  | none => .next s

/-- OWNER_RMW: request n is performed, or parks. -/
def execOwnerRmw (n : Nat) (s : State) : Res :=
  match s.requests.find? fun q => q.2.id == n && q.2.stage == 2 with
  | none => .next s
  | some (p, a) =>
    let gone : State := { s with requests := s.requests.filter fun q => q.2.id != n }
    if 512 ≤ p.b then .next (if s.lineFree (lineOf a.pa) true then gone.startOuter p a else s)
    else if !a.kind.rmw || !s.mayPerform p a then .next s
    else if a.kind.fe && !feReady a.kind (s.mem.isFull a.pa) then
      .next (s.setRequest n fun x => { x with stage := 3, since := s.cycle, retries := 0 })
    else if a.splits && a.old.isNone then
      .next ((s.recall (lineOf a.pa)).setRequest n fun x => { x with old := some (s.mem.load a.pa a.size) })
    else .next (gone.startWrite p a)

/-! ### Parked requests (R298) -/

/-- Rill cycles of one retry. -/
def Access.retryTime (a : Access) : Nat := if isLocal a.pa then 256 else Config.sliceCycles 256

/-- An access on its way is withdrawn and logged with a cause. -/
def State.logLate (s : State) (p : Pos) (a : Access) (cause : Nat) (behind : Bool) : State :=
  (((s.unsend a.id).dropFlight p a).modCtx p fun c => c.closeLa a.seq).logEntry p cause 0 behind
    [{ a with stage := 0, since := 0, retries := 0, starved := false, merged := [], old := none }]

/-- A parked request is withdrawn and logged. -/
def State.logParked (s : State) (p : Pos) (a : Access) (behind : Bool) : State := s.logLate p a 0x0D behind

/-- FE_PARKED_RETRY: a retry of request n is counted; past the limit it is logged, or traps in context 15. The
request of a stopped thread is withdrawn and logged without a wake record. One whose condition holds since its line was
freed is performed by the scan of R332. -/
def execFeParkedRetry (n : Nat) (s : State) : Res :=
  match s.requests.find? fun q => q.2.id == n && q.2.stage == 3 with
  | none => .next s
  | some (p, a) =>
    let limit := field (s.srAt p 0x040) 31 0
    if feReady a.kind (s.mem.isFull a.pa) && s.lockOf (lineOf a.pa) == 0 then .next (s.scan a.pa)
    else if ((s.ctx p).run == .stopped || (s.ctx p).run == .paused) && p.k != 15 then
      .next (if (s.rill p.b p.r).replayRoom = 0 then s else s.logParked p a true)
    else if s.cycle < a.since + a.retryTime then .next s
    else if limit == 0xFFFFFFFF || a.retries < limit then
      .next (s.setRequest n fun x => { x with retries := x.retries + 1, since := s.cycle })
    else if p.k = 15 then
      let s1 := ({ s with requests := s.requests.filter fun q => q.2.id != n } : State).modCtx p fun c =>
        { (c.unclaim (s.loggedOf p) a.dst a.src).endLa a.seq with flights := c.flights.filter fun x => x.id != n, wait := none }
      .next ((s1.asUnit p (a.ext.getD 0 0) (a.ext.getD 1 0).toNat).trapTo 0x0D a.va)
    else if (s.rill p.b p.r).replayRoom = 0 then .next s
    else .next (s.logParked p a false)

end Sys2Proof.Machine
end

