-- ==== Sys2Proof/WellFormed.lean ====
section
/-! DEFINITION. The operand values that an encoding admits beyond its field widths (R46, R47, and the
entries of the instructions). A word whose fields break one of these conditions is a reserved encoding
and the decoder refuses it with RESERVED-FIELD. Steps that have no encoding carry no condition. -/

namespace Sys2Proof

/-- R236: the rounding field holds a mode; 6 is reserved. -/
def rmOk (r : BitVec 4) : Bool := r.toNat ≤ 5 || r.toNat == 7

/-- R157: the three register fields of BMOV and BMOVD are distinct and none is g0. -/
def blockRegs (n a b : BitVec 5) : Bool :=
  n != 0 && a != 0 && b != 0 && n != a && n != b && a != b

/-- R371: the number of a system register, from its three fields. -/
def srNumber (x : BitVec 3) (y : BitVec 5) (z : BitVec 4) : Nat :=
  x.toNat * 512 + y.toNat * 16 + z.toNat

/-- R372: the assigned system registers. -/
def srAssigned (n : Nat) : Bool :=
  n ≤ 0x002 || (0x010 ≤ n && n ≤ 0x013) || (0x020 ≤ n && n ≤ 0x022) || (0x030 ≤ n && n ≤ 0x032) ||
  n == 0x040 || n == 0x041 || (0x050 ≤ n && n ≤ 0x052) || n == 0x060 || n == 0x070 ||
  n == 0x080 || n == 0x081 || (0x090 ≤ n && n ≤ 0x09E) || n == 0x0A0 ||
  (0x100 ≤ n && n ≤ 0x102) || (0x110 ≤ n && n ≤ 0x117) || (0x120 ≤ n && n ≤ 0x126)

/-- R371: the register is assigned, and a per-rill register takes no context selector. -/
def srSelectorOk (k : BitVec 5) (n : Nat) : Bool :=
  srAssigned n && (k == 0 || n < 0x100)

/-- R253: container bits of a VCVT format code, 0 for a reserved code. -/
def vcvtBits (c : Nat) : Nat :=
  match c with
  | 0 => 64 | 1 => 32 | 2 => 16 | 3 => 16 | 4 => 8 | 5 => 8 | 6 => 8 | 7 => 8
  | 8 => 4 | 9 => 8 | 10 => 8 | 11 => 16 | 12 => 32 | 13 => 64 | _ => 0

/-- R253: the pairs of formats that VCVT converts, and the parts they have. -/
def vcvtOk (s : BitVec 5) (x : BitVec 4) (p : BitVec 3) : Bool :=
  let cs := vcvtBits s.toNat
  let cd := vcvtBits x.toNat
  let k := (max cs cd) / (min cs cd)
  cs != 0 && cd != 0 && k ≤ 8 && decide (p.toNat < k) && s.toNat != x.toNat &&
    !(10 ≤ s.toNat && 10 ≤ x.toNat && cs == cd)

/-- The operand values an instruction admits. -/
def Instr.wf : Instr → Bool
  | .issueCycle _ _ => true
  | .instructionFetchMissFill _ _ _ => true
  | .loadDataReturn _ _ _ _ => true
  | .storePerformed _ _ _ _ => true
  | .windowSpill _ _ _ => true
  | .windowFill _ _ _ => true
  | .multiplyResult _ _ _ _ => true
  | .divideResult _ _ => true
  | .fpLongResult _ _ _ _ => true
  | .sharedRegisterEffect _ _ => true
  | .sharedRegisterFeRetry _ _ _ => true
  | .nwrAttempt _ _ _ => true
  | .nwrLand _ _ _ => true
  | .fuseGroupForm _ _ _ => true
  | .fuseTimeout _ _ _ => true
  | .bmodeSwitchEnd _ => true
  | .bmodeWrite _ _ _ => true
  | .blockElement _ _ => true
  | .vectorCycle _ _ => true
  | .vectorResultWrite _ _ _ => true
  | .streamFetch _ _ => true
  | .streamStore _ _ => true
  | .copyEngineStep _ => true
  | .copyComplete _ _ => true
  | .matrixArbitrate _ => true
  | .matrixAccessStop _ _ => true
  | .matrixCommandComplete _ _ => true
  | .mxrotTransfer _ _ _ => true
  | .networkArbitrate _ => true
  | .sliceServe _ => true
  | .sliceRequestStarved _ => true
  | .ownerRmw _ => true
  | .feParkedRetry _ => true
  | .scopeMissNotification _ => true
  | .hbmWriteback _ => true
  | .writeUpdateAck _ _ => true
  | .fanoutTimeout _ _ => true
  | .keepaliveLoss _ => true
  | .monitorTrigger _ _ _ _ => true
  | .monwaitEnd _ _ _ => true
  | .monwaitTimeout _ _ _ => true
  | .monstatWakeWrite _ _ _ _ => true
  | .barrierRelease _ _ _ => true
  | .rupdSend _ _ _ _ => true
  | .txCommitLockReply _ _ _ _ => true
  | .txCommitDeadline _ _ _ => true
  | .txCommitApplied _ _ _ _ => true
  | .txstatAbortreqWrite _ _ _ _ => true
  | .weirTokenGrant _ => true
  | .irrevocableLockGrant _ _ _ => true
  | .irrevocablePreemptTimeout _ _ _ => true
  | .submissionWrite _ _ _ => true
  | .dependenceReread _ _ => true
  | .recordAged _ _ => true
  | .placementRound _ _ => true
  | .cohortEnd _ _ => true
  | .dequeOperation _ _ => true
  | .stealProbe _ _ => true
  | .contextStop _ _ _ => true
  | .watchdogExpire _ _ _ => true
  | .evwaitTimeout _ _ => true
  | .atsCompletion _ _ _ => true
  | .priResponse _ _ => true
  | .atsInvalidateRequest _ _ _ => true
  | .uncorrectableError _ _ _ => true
  | .correctedError _ _ => true
  | .resizePhaseStart _ => true
  | .resizePhaseEnd _ => true
  | .phaseDeadline _ => true
  | .rehashHandover _ _ => true
  | .rehashFirstTouch _ _ => true
  | .scrubComplete _ _ => true
  | .rillRetire _ _ => true
  | .packageReset => true
  | .hostCxlMemAccess _ _ _ => true
  | .hostCxlCacheSnoop _ => true
  | .hostAtomicop _ _ _ _ _ => true
  | .hmsgRingHeadWrite _ _ => true
  | .notifyOverflowClear _ _ => true
  | .appCoreLaunchStore _ _ => true
  | .uifPop _ => true
  | .linkRouteLoss _ => true
  | .guestKeepaliveLoss _ => true
  | .powerMeasure _ => true
  | .powerBudgetAdjust => true
  | .serviceComplete _ => true
  | .ident _ => true
  | .basinCreate _ => true
  | .basinDestroy _ => true
  | .basinResize _ => true
  | .basinStatus _ => true
  | .queueConfig _ => true
  | .queueStatus _ => true
  | .launchCancel _ => true
  | .hmsgqConfig _ => true
  | .notifyConfig _ => true
  | .uifConfig _ => true
  | .coreStart _ => true
  | .coreStop _ => true
  | .coreStatus _ => true
  | .hostWindow _ => true
  | .errlogRead _ => true
  | .errlogClear _ => true
  | .retireRequest _ => true
  | .spareStatus _ => true
  | .powerLimit _ => true
  | .powerStatus _ => true
  | .telemetry _ => true
  | .imageStage _ => true
  | .imageSwitch _ => true
  | .imageStatus _ => true
  | .measureRead _ => true
  | .zclConfig _ => true
  | .zclStatus _ => true
  | .zclGrant _ => true
  | .timeSync _ => true
  | .eventRing _ => true
  | .echo _ => true
  | .getVersion _ => true
  | .getCapabilities _ => true
  | .negotiateAlgorithms _ => true
  | .getDigests _ => true
  | .getCertificate _ => true
  | .challenge _ => true
  | .getMeasurements _ => true
  | .frint _ _ x r => rmOk r && x.toNat < 4
  | .dqspillWrite _ _ => true
  | .contextHalted _ _ _ => true
  | .notifyRingHeadWrite _ _ => true
  | .keepaliveReturn _ => true
  | .routeReturn _ => true
  | .zclRemoteRequest _ _ _ _ => true
  | .applicationCoreAccess _ _ _ _ _ => true
  | .configurationRequest => true
  | .illegal _ => true
  | .extensionSpace _ => true
  | .illegalH _ => true
  | .poolguard _ => true
  | .add _ _ _ => true
  | .sub _ _ _ => true
  | .and _ _ _ => true
  | .or _ _ _ => true
  | .xor _ _ _ => true
  | .andn _ _ _ => true
  | .orn _ _ _ => true
  | .xnor _ _ _ => true
  | .shl _ _ _ => true
  | .shr _ _ _ => true
  | .sra _ _ _ => true
  | .ror _ _ _ => true
  | .min _ _ _ => true
  | .max _ _ _ => true
  | .minz _ _ _ => true
  | .maxz _ _ _ => true
  | .adds _ _ _ => true
  | .subs _ _ _ => true
  | .addzs _ _ _ => true
  | .subzs _ _ _ => true
  | .shadd _ _ _ _ => true
  | .mul _ _ _ _ => true
  | .mulh _ _ _ _ => true
  | .mulhz _ _ _ _ => true
  | .mulhsz _ _ _ _ => true
  | .div _ _ _ _ => true
  | .divz _ _ _ _ => true
  | .rem _ _ _ _ => true
  | .remz _ _ _ _ => true
  | .ext _ _ _ => true
  | .extz _ _ _ => true
  | .ins _ _ _ => true
  | .clz _ _ => true
  | .ctz _ _ => true
  | .cls _ _ => true
  | .popc _ _ => true
  | .brev _ _ => true
  | .bswap _ _ => true
  | .bperm _ _ _ => true
  | .addi _ _ _ => true
  | .andi _ _ _ => true
  | .ori _ _ _ => true
  | .xori _ _ _ => true
  | .shli _ _ _ => true
  | .shri _ _ _ => true
  | .srai _ _ _ => true
  | .rori _ _ _ => true
  | .exti _ _ _ _ => true
  | .extzi _ _ _ _ => true
  | .insi _ _ _ _ => true
  | .cmpi _ _ _ _ => true
  | .lui _ _ => true
  | .addpc _ _ => true
  | .cmp _ _ _ _ => true
  | .sel _ _ _ _ => true
  | .mvqr _ _ => true
  | .mvrq _ _ => true
  | .pand _ _ _ => true
  | .por _ _ _ => true
  | .pxor _ _ _ => true
  | .pandn _ _ _ => true
  | .porn _ _ _ => true
  | .mrd _ _ => true
  | .mwr _ _ => true
  | .mrdfe _ _ => true
  | .mrdff _ _ => true
  | .mwrfe _ _ => true
  | .mwrff _ _ => true
  | .mfeclr _ => true
  | .rempty _ => true
  | .rfull _ => true
  | .rtest _ _ => true
  | .nwrE _ _ => true
  | .nwrW _ _ => true
  | .lox _ _ => true
  | .mox _ _ => true
  | .loxm n _ k => n.toNat + k.toNat + 1 ≤ 8
  | .ld _ _ t _ _ => t != 7
  | .st _ _ _ _ _ => true
  | .ldIndexed _ _ _ _ t _ => t != 7
  | .stIndexed _ _ _ _ _ _ => true
  | .bmov n a b _ _ => blockRegs n a b
  | .bmovd n a b _ _ => blockRegs n a b
  | .bfill n a _ _ _ => n != 0 && a != 0 && n != a
  | .bscanEq n a _ _ _ => n != 0 && a != 0 && n != a
  | .bscanNe n a _ _ _ => n != 0 && a != 0 && n != a
  | .cpf _ _ _ => true
  | .cwb _ _ _ => true
  | .cflush _ _ _ => true
  | .czero _ _ _ => true
  | .cpfw _ _ _ => true
  | .iinv r _ _ _ => r.toNat ≤ 2
  | .fence s => s.toNat ≤ 5
  | .fenceAcq s => s.toNat ≤ 5
  | .fenceRel s => s.toNat ≤ 5
  | .fenceRelWiden a _ s => s.toNat ≤ 5 && a != 0
  | .fenceXp => true
  | .lda _ _ q t x s => s.toNat ≤ 5 && t != 7 && (x == 1 || q == 0)
  | .strel _ _ _ s => s.toNat ≤ 5
  | .ldfe _ _ _ _ => true
  | .ldff _ _ _ _ => true
  | .stfe _ _ _ _ => true
  | .stff _ _ _ _ => true
  | .feclr _ _ _ => true
  | .amoadd _ _ _ _ _ _ => true
  | .amoand _ _ _ _ _ _ => true
  | .amoor _ _ _ _ _ _ => true
  | .amoxor _ _ _ _ _ _ => true
  | .amomin _ _ _ _ _ _ => true
  | .amomax _ _ _ _ _ _ => true
  | .amominz _ _ _ _ _ _ => true
  | .amomaxz _ _ _ _ _ _ => true
  | .amoxchg _ _ _ _ _ _ => true
  | .amofadd _ _ _ _ _ _ => true
  | .cas _ _ _ _ e s _ => s.toNat ≤ 5 && (e != 0 || s == 0)
  | .rupd p _ _ _ _ => p.toNat ≤ 10
  | .rupdAddzZ64 _ _ o _ _ => o.toNat ≤ 3
  | .rupdAddzZ32 _ _ o _ _ => o.toNat ≤ 3
  | .vamo p _ _ _ _ _ _ => p.toNat ≤ 10
  | .monarm _ _ => true
  | .mondis _ => true
  | .monwait _ _ => true
  | .hmsg _ _ => true
  | .barcfg _ _ => true
  | .bararv _ _ => true
  | .barwait _ _ => true
  | .barsync _ => true
  | .waitlt _ k => k != 0
  | .waitltr _ _ => true
  | .bra _ => true
  | .call _ => true
  | .bl _ => true
  | .bq _ _ => true
  | .bnq _ _ => true
  | .bcmp _ _ _ _ => true
  | .bcmpi _ _ _ _ => true
  | .jr _ => true
  | .jl _ _ => true
  | .callr _ => true
  | .ret => true
  | .loopn _ _ => true
  | .loopns _ _ _ => true
  | .fuse _ _ _ => true
  | .split => true
  | .rgn _ => true
  | .join => true
  | .brk n => 1 ≤ n.toNat && n.toNat ≤ 7
  | .vote _ _ t => t != 3
  | .ballot _ _ => true
  | .shfl _ _ _ _ => true
  | .fadd _ _ _ _ r => rmOk r
  | .fsub _ _ _ _ r => rmOk r
  | .fmul _ _ _ _ r => rmOk r
  | .fma _ _ _ _ r => rmOk r
  | .fnma _ _ _ _ r => rmOk r
  | .fmin _ _ _ _ => true
  | .fmax _ _ _ _ => true
  | .fsgnj _ _ _ _ => true
  | .fsgnjn _ _ _ _ => true
  | .fsgnjx _ _ _ _ => true
  | .fclass _ _ _ => true
  | .fcmp _ _ _ _ _ => true
  | .fldexp _ _ _ _ r => rmOk r
  | .fmxsc _ _ e => 4 ≤ e.toNat && e.toNat ≤ 9
  | .fdiv _ _ _ _ _ => true
  | .fsqrt _ _ _ _ => true
  | .frcp _ _ _ _ => true
  | .frsqrt _ _ _ _ => true
  | .fexp2 _ _ _ _ => true
  | .flog2 _ _ _ _ => true
  | .fsinpi _ _ _ _ => true
  | .fcospi _ _ _ _ => true
  | .fcvt _ _ x y r => rmOk r && !(4 ≤ x.toNat && 4 ≤ y.toNat) && x != y
  | .vadd _ _ _ _ _ => true
  | .vsub _ _ _ _ _ => true
  | .vmul _ _ _ _ _ => true
  | .vfma _ _ _ _ _ => true
  | .vfnma _ _ _ _ _ => true
  | .vmin _ _ _ _ _ => true
  | .vmax _ _ _ _ _ => true
  | .vabs _ _ _ _ => true
  | .vneg _ _ _ _ => true
  | .vldexp _ _ _ _ t => t.toNat ≤ 3
  | .vexp2 _ _ _ t => t.toNat ≤ 3
  | .vrcp _ _ _ t => t.toNat ≤ 3
  | .vrsqrt _ _ _ t => t.toNat ≤ 3
  | .vlog2 _ _ _ t => t.toNat ≤ 3
  | .vcmp _ _ _ _ _ => true
  | .vand _ _ _ _ t => 4 ≤ t.toNat
  | .vor _ _ _ _ t => 4 ≤ t.toNat
  | .vxor _ _ _ _ t => 4 ≤ t.toNat
  | .vshl _ _ _ _ t => 4 ≤ t.toNat
  | .vshr _ _ _ _ t => 4 ≤ t.toNat
  | .vsra _ _ _ _ t => 4 ≤ t.toNat
  | .vminz _ _ _ _ t => 4 ≤ t.toNat
  | .vmaxz _ _ _ _ t => 4 ≤ t.toNat
  | .vadds _ _ _ _ t => 4 ≤ t.toNat
  | .vsubs _ _ _ _ t => 4 ≤ t.toNat
  | .vaddzs _ _ _ _ t => 4 ≤ t.toNat
  | .vsubzs _ _ _ _ t => 4 ≤ t.toNat
  | .vbcast _ _ _ _ => true
  | .vmov _ _ _ _ => true
  | .vrsum _ _ _ _ => true
  | .vrmax _ _ _ _ => true
  | .vrmin _ _ _ _ => true
  | .vramax _ _ _ t => t.toNat ≤ 3
  | .vperm _ _ _ _ _ => true
  | .vext _ _ _ _ => true
  | .vins _ _ _ _ => true
  | .vrot _ _ _ _ _ => true
  | .vld _ _ _ _ _ _ => true
  | .vst _ _ _ _ _ _ => true
  | .vlds _ _ _ _ _ _ => true
  | .vsts _ _ _ _ _ _ => true
  | .vgath _ _ _ _ _ _ => true
  | .vscat _ _ _ _ _ _ => true
  | .vcvt _ _ s x _ p => vcvtOk s x p
  | .vseq _ _ => true
  | .sbindIn _ _ _ o _ _ => o.toNat ≤ 4
  | .sbindOut _ _ o _ _ => o.toNat ≤ 4
  | .sunbind _ => true
  | .sdrain _ => true
  | .sstat _ _ => true
  | .sres _ _ => true
  | .copy _ _ o _ _ => o.toNat ≤ 4
  | .copyg _ _ o _ _ => o.toNat ≤ 4
  | .copyf _ _ o _ _ => o.toNat ≤ 6
  | .cres _ _ => true
  | .mxldb _ _ _ o _ _ => o.toNat ≤ 6
  | .mxmma _ _ o _ _ => o.toNat ≤ 6
  | .mxrot _ _ o _ _ => o.toNat ≤ 6
  | .mxswap _ _ _ => true
  | .mxclr _ _ _ => true
  | .mxldacc _ _ _ _ _ _ => true
  | .mxstacc _ _ _ _ _ => true
  | .mxscale _ _ _ _ => true
  | .mxrmax _ _ _ _ => true
  | .mxquotaMv _ _ => true
  | .mxquotaWt _ _ => true
  | .mxteam _ => true
  | .mxres _ _ => true
  | .tbegin _ => true
  | .tend _ => true
  | .tabort _ => true
  | .tstat _ => true
  | .txld _ _ t => t != 7
  | .tirrev _ _ => true
  | .txchk => true
  | .launch _ _ _ => true
  | .spawn k _ => k.toNat ≤ 4
  | .take _ k _ => k.toNat ≤ 4
  | .takeL _ k _ => k.toNat ≤ 4
  | .syncj _ _ k _ => k.toNat ≤ 4
  | .nest k _ => k.toNat ≤ 5
  | .iter _ _ => true
  | .itnext _ _ => true
  | .ixmov _ _ _ => true
  | .mfs _ k y x z => srSelectorOk k (srNumber x y z)
  | .mts k _ y x z => srSelectorOk k (srNumber x y z)
  | .sys _ => true
  | .trap _ => true
  | .eret _ => true
  | .eretN _ => true
  | .evwait _ _ => true
  | .cstart _ _ _ => true
  | .cstop _ => true
  | .csave _ _ => true
  | .crest _ _ _ => true
  | .replay _ _ => true
  | .replayDrop _ _ => true
  | .tlbinv a b m => m == 0 || (a == 0 && (m == 1 || b == 0))
  | .svcall _ _ _ => true
  | .binfo _ _ => true
  | .bhome _ _ => true
  | .brack _ _ => true
  | .cmig _ _ => true
  | .cmigChk _ _ => true
  | .movH _ _ => true
  | .addH _ _ => true
  | .subH _ _ => true
  | .andH _ _ => true
  | .orH _ _ => true
  | .xorH _ _ => true
  | .shliH _ _ => true
  | .shriH _ _ => true
  | .addiH _ _ => true
  | .moviH _ _ => true
  | .ldlH _ _ => true
  | .stlH _ _ => true
  | .bH _ => true
  | .bqH _ _ => true
  | .bnqH _ _ => true
  | .retH => true
  | .nopH => true
  | .ifq _ _ => true
  | .joinH => true
  | .haltH => true

end Sys2Proof
end

