-- ==== Sys2Proof/Machine/System.lean ====
section
/-! DEFINITION. System registers, SYS, TRAP, ERET, events, context control, REPLAY, TLBINV, SVCALL, host
translation and hardware errors (R368 to R387, R393 to R397, R401 to R405). -/

namespace Sys2Proof.Machine

/-! ### Views of system registers (R371 to R376) -/

/-- R114. -/
def State.laneInfo (s : State) (p : Pos) : Word :=
  match s.groupOf p with
  | none => w64 (p.r * 16 + p.r)
  | some g =>
    w64 (g.stack.length * 2 ^ 24 + g.active * 2 ^ 16 + g.mask * 2 ^ 8 + 2 ^ 7 + (lanes g.mask).headD 0 * 16 + p.r)

/-- R393. -/
def State.rqstat (s : State) (p : Pos) : Word :=
  let q := (s.rill p.b p.r).replay
  w64 (q.length * 2 ^ 8 + (q.filter fun e => e.2.pos == p).length)

/-- Byte j of SLOTSTAT (R256). BUSY names a running command; that a stopped one, which still holds its slot, is not counted
is the model's choice (log entry 135). -/
def Braid.slotByte (x : Braid) (j : Nat) : Nat :=
  let y := x.slot j
  let busy := x.mx.any fun q => q.phase == 1 && q.slots.contains j
  let f (c : Bool) (n : Nat) : Nat := if c then n else 0
  f y.cohort.isSome 128 + f y.active.loaded 64 + y.active.width * 16 + y.active.sparsity * 4 + f y.shadow.loaded 2 + f busy 1

def Braid.slotStat (x : Braid) : Word := w64 (sumOf ((List.range 8).map fun j => x.slotByte j * 2 ^ (8 * j)))

/-- A mask of the tiles that f selects. -/
def Braid.tileMask (x : Braid) (f : Tile → Bool) : Word :=
  w64 (sumOf ((List.range 64).map fun t => if f (x.tile t) then 2 ^ t else 0))

/-- R355. -/
def State.dqStat (s : State) (b r : Nat) : Word :=
  let x := s.rill b r
  w64 (x.spilled * 2 ^ 16 + x.deque.length * 2 ^ 8 + (if s.dqWaiting b r then 1 else 0))

/-- State of a context as CTXSTATE shows it (R384, R386). -/
def Ctx.state (c : Ctx) : Nat :=
  match c.run with
  | .empty => 0
  | .running => if c.stopBy = 0 then 1 else 2
  | .paused => 1
  | .stopping => 2
  | .stopped => 3

def State.ctxState (s : State) (b r : Nat) : Word :=
  let f (k : Nat) : Nat := if k = 15 then (if (s.braid b).gran.state == .free then 0 else 1) else (s.ctx ⟨b, r, k⟩).state
  w64 (field (s.rillSr b r 0x125) 46 32 * 2 ^ 32 + sumOf ((List.range 16).map fun k => f k * 4 ^ k))

/-- The value of register n of context p. -/
def State.readSr (s : State) (p : Pos) (n : Nat) : Word :=
  let x := s.rill p.b p.r
  let y := s.braid p.b
  if n = 0x000 then (if y.gran.state == .free || y.gran.state == .retired then w64 p.k else w64 (s.tid p))
  else if n = 0x001 then s.laneInfo p
  else if n = 0x002 then w64 y.gran.basin
  else if n = 0x070 then s.rqstat p
  else if n = 0x081 then 0
  else if n = 0x100 then y.slotStat
  else if n = 0x101 then w64 ((if y.busy then 2 else 0) + if y.shared then 1 else 0)
  else if n = 0x102 then y.tileMask fun t => t.owner == some p.r && t.pending.isNone
  else if 0x110 ≤ n ∧ n ≤ 0x117 then w64 (x.cc.get 0 (n - 0x110))
  else if n = 0x120 then y.tileMask fun t => t.pending == some p.r
  else if n = 0x121 then w64 (field (s.rillSr p.b p.r 0x121) 12 8 * 2 ^ 8 + (y.mxQueue p.r).length)
  else if n = 0x123 then s.dqStat p.b p.r
  else if n = 0x125 then s.ctxState p.b p.r
  else if 0x100 ≤ n then s.rillSr p.b p.r n
  else s.srAt p n

/-- Bits of a register that an MTS writes; the rest keep their value. -/
def srMask (n : Nat) : Nat :=
  if n = 0x010 || n == 0x09E then 2 ^ 56 - 2
  else if n = 0x011 then 0xFF
  else if n = 0x013 then 0xFF7FFFFF
  else if n = 0x020 then 0x3FFF
  else if n = 0x021 then 0x17FFFFFFF
  else if n = 0x022 || n == 0x040 || n == 0x041 || n == 0x051 || n == 0x126 then 0xFFFFFFFF
  else if (0x030 ≤ n && n ≤ 0x032) || n == 0x098 then 0x3FFF8
  else if n = 0x052 then 0xFFFF0000FFFF
  else if n = 0x0A0 then 0xFFFF0FFFFFFFF000
  else if n = 0x122 then 0xFFF0003FFE0
  else if n = 0x124 then 0x3FFF80003FFF8
  else if n = 0x125 then 0x7FFF00000000
  else 0xFFFFFFFFFFFFFFFF

/-- Values that a field cannot hold: RM 6 and 7 read RNE, MAG above infinity reads infinity. -/
def srLegal (n : Nat) (v : Word) : Word :=
  if n = 0x020 && decide (6 ≤ field v 2 0) then setField v 2 0 0
  else if n = 0x021 && decide (0x7F800000 < field v 30 0) then setField v 30 0 0x7F800000
  else v

/-- The value after an MTS. -/
def srMerge (n : Nat) (old v : Word) : Word :=
  srLegal n (w64 ((v.toNat &&& srMask n) ||| maskMinus old.toNat (srMask n)))

/-- Registers that cannot be written (R372). -/
def srReadOnly (n : Nat) : Bool :=
  decide (n ≤ 0x002) || n == 0x070 || n == 0x081 || decide (0x09A ≤ n ∧ n ≤ 0x09D) || n == 0x100 || n == 0x102
    || decide (0x110 ≤ n ∧ n ≤ 0x117) || n == 0x120 || n == 0x121 || n == 0x123

/-- Registers that only context 15 writes (R372). -/
def srPrivileged (n : Nat) : Bool :=
  decide (0x010 ≤ n ∧ n ≤ 0x013) || decide (0x030 ≤ n ∧ n ≤ 0x032) || n == 0x051 || n == 0x052 || n == 0x09E || n == 0x0A0
    || n == 0x101 || n == 0x122 || decide (0x124 ≤ n)

/-- An MTS writes register n of context p. -/
def State.writeSr (s : State) (p : Pos) (n : Nat) (v : Word) : State :=
  if srReadOnly n then s
  else if n = 0x050 then s.writeAbortreq p v
  else if n = 0x080 then s.setSr p 0x080 (setField (s.srAt p 0x080) 9 9 (if bit v 9 then 1 else 0))
  else if n = 0x101 then s.cacheMode p.b (bit v 0)
  else if n = 0x122 then
    s.modRill p.b p.r fun x => { x with dqSpillNext := some (srMerge n 0 v) }
  else if 0x100 ≤ n then s.setRillSr p.b p.r n (srMerge n (s.rillSr p.b p.r n) v)
  else if n = 0x030 || n == 0x031 then
    (s.modCtx p fun c => { c with frames := [] }).setSr p n (srMerge n (s.srAt p n) v)
  else s.setSr p n (srMerge n (s.srAt p n) v)

/-- The waits of R244, R239 and R272 before an access to register n of context p. By the model's choice the vector instructions
that an access of context 15 to a register of another context waits for are that context's (log entry 159). -/
def State.srWaits (s : State) (p : Pos) (n : Nat) : Bool :=
  let c := s.ctx p
  let vector := (n == 0x020 || n == 0x021 || n == 0x022 || n == 0x099) && !c.vseq.isEmpty
  let long := n == 0x020 && c.longs.any fun l => l.unit == 2
  let tiles := n == 0x021 && (s.braid p.b).mx.any fun q => q.rill == p.r && q.ctx == p.k && q.op == 6
  vector || long || tiles

/-! ### MFS and MTS (R370, R371) -/

/-- A context-control instruction does not accept context k (R370). -/
def targetTrap (s : State) (k : Nat) : Res := trapped s 0x05 (w64 (0x8000000000000000 + k))

def execMfs (d k y : BitVec 5) (x : BitVec 3) (z : BitVec 4) (s : State) : Res :=
  let n := srNumber x y z
  if !srAssigned n || !srSelectorOk k n then trapped s 0x02 s.uw
  else if k = 0 then
    if s.srWaits s.cur n then parked s .sequencer else wrote s d (s.readSr s.cur n) false
  else supervisorOnly s <| withControl s k fun v =>
    let p : Pos := { s.cur with k := field v 3 0 }
    if s.srWaits p n then parked s .sequencer else wrote s d (s.readSr p n) false

/-- MTS on context p. -/
def mtsOn (s : State) (p : Pos) (n : Nat) (v : Word) : Res :=
  if p != s.cur && ((s.ctx p).state == 1 || (s.ctx p).state == 2) then targetTrap s p.k
  else if s.srWaits p n then parked s .sequencer
  else .next ((s.writeSr p n v).advance)

def execMts (k a y : BitVec 5) (x : BitVec 3) (z : BitVec 4) (s : State) : Res :=
  outsideTx s 0x3C <|
    let n := srNumber x y z
    if !srAssigned n || !srSelectorOk k n then trapped s 0x02 s.uw
    else if k = 0 then
      if srPrivileged n && s.cur.k != 15 then trapped s 0x05 s.uw
      else withControl s a fun v => mtsOn s s.cur n v
    else supervisorOnly s <| withControls s a k fun v w => mtsOn s { s.cur with k := field w 3 0 } n v

/-! ### SYS, TRAP and ERET (R108, R378, R379) -/

/-- Every lane of the group executes the unit, and none has a poisoned operand. -/
def State.wholeGroup (s : State) (g : Group) (a : BitVec 5) : Bool :=
  s.actingOutsideTx == lanes g.mask && s.laneSet.all fun r => !((s.ctx (s.lane r)).reg a).poison

/-- A lane stops at a SYS of its whole group, which stays fused. -/
def State.sysStop (s : State) (v : Word) : State :=
  ((s.stopAt s.cur 0x10 v s.ulen 0 s.upc false).modGroup s.cur.b s.cur.k s.cur.r fun x =>
    { x with sysWait := x.sysWait ||| 2 ^ s.cur.r }).modMe fun c => { c with took := false, left := none }

def execSys (a : BitVec 5) (s : State) : Res :=
  outsideTx s 0x3C <| withControl s a fun v =>
    match s.groupOf s.cur with
    | some g => if s.wholeGroup g a then .next (s.sysStop v) else trapped s 0x10 v
    | none => trapped s 0x10 v

def execTrap (a : BitVec 5) (s : State) : Res :=
  outsideTx s 0x3C <| withControl s a fun v => trapped s 0x11 v

/-- The handler returns a lane of a group that holds issue after SYS: to the unit after it, or elsewhere. -/
def State.returnLane (s : State) (p : Pos) : State :=
  match s.groupOf p with
  | none => s
  | some g =>
    if !hasBit g.sysWait p.r then s
    else if (s.ctx p).pc == g.pc then
      s.modGroup p.b p.k p.r fun x => { x with sysWait := maskMinus x.sysWait (2 ^ p.r) }
    else (s.modCtx p fun c => { c with left := some 0x10 }).leaveGroup p

/-- A wait that goes on: a MONWAIT with the time that remained when it was kept (R304). -/
def Ctx.rewait (c : Ctx) (now : Nat) : Ctx :=
  match c.wait with
  | some (.monwait d t) => { c with wait := some (.monwait d (if t = 0 then 0 else now + t)) }
  | _ => c

/-- A user context of a braid that a CMIG names is not to issue before the CMIG has ended (R424, R425). -/
def State.holdForMove (s : State) (p : Pos) : State :=
  if (s.braid p.b).moving && p.k != 15 then s.modCtx p fun c => { c with run := .paused } else s

/-- A stopped context runs again. -/
def State.resumeAt (s : State) (p : Pos) : State :=
  (((s.resume p).modCtx p fun c => if (s.braid p.b).moving then c else c.rewait s.cycle).returnLane p).holdForMove p

/-- An address of bits 55:1. -/
def pcBits (x : Word) : Word := w64 (field x 55 1 * 2)

def eret (s : State) (skip : Bool) (a : BitVec 5) : Res :=
  outsideTx s 0x3C <| supervisorOnly s <|
    if a = 0 then checkTarget s (s.selfTarget skip) (.next (s.selfReturn skip))
    else withControl s a fun v =>
      let p : Pos := { s.cur with k := field v 3 0 }
      if p.k = 15 || (s.ctx p).run != .stopped then targetTrap s p.k
      else
        let s1 := if skip then s.setSr p 0x010 (pcBits (s.srAt p 0x010 + w64 (2 * field (s.srAt p 0x013) 27 24))) else s
        .next ((s1.resumeAt p).advance)

def execEret (a : BitVec 5) (s : State) : Res := eret s false a
def execEretN (a : BitVec 5) (s : State) : Res := eret s true a

/-! ### Events (R382, R383) -/

def execEvwait (d b : BitVec 5) (s : State) : Res :=
  outsideTx s 0x3C <| supervisorOnly s <| withControl s b fun v =>
    match s.takeRecord s.cur.b s.cur.r with
    | some s1 => wrote (s1.modMe fun c => { c with startAt := s.cycle + 4 }) d 0 false
    | none =>
      let t := field v 31 0
      .next ((s.modMe fun c => { c with wait := some (.evwait (c.dest d) (if t = 0 then 0 else s.cycle + t)) }).advance)

/-- EVWAIT_TIMEOUT: no record has become pending. -/
def execEvwaitTimeout (b r : Nat) (s : State) : Res :=
  match (s.ctx ⟨b, r, 15⟩).wait with
  | some (.evwait d dl) => if dl != 0 && decide (dl ≤ s.cycle) then .next (s.endEvwait b r d 1) else .next s
  | _ => .next s

/-- The unit at which a context waits. -/
def State.waitsAt (s : State) (p : Pos) : Word :=
  let c := s.ctx p
  if c.wait.isSome || c.halting then c.lastPc
  else match s.groupOf p with
    | some g => g.pc
    | none => c.pc

/-- WATCHDOG_EXPIRE: one record for each wait of a running user context. -/
def execWatchdogExpire (b r k : Nat) (s : State) : Res :=
  let p : Pos := ⟨b, r, k⟩
  let c := s.ctx p
  let limit := field (s.rillSr b r 0x126) 31 0
  if k != 15 && c.run == .running && !c.dogged && limit != 0 && decide (c.lastIssue + limit * 1024 ≤ s.cycle) then
    .next ((s.modCtx p fun x => { x with dogged := true }).post b r
      { cls := 5, cause := 0x22, val := s.waitsAt p, xstat := xstat 5 0 0 0 0 k false, rank := k })
  else .next s

/-! ### Starting and stopping contexts (R385 to R387, R93) -/

/-- A context at its start values, but for the registers that CSTART keeps. -/
def Ctx.started (c : Ctx) (k tid now : Nat) (e : Word) (arg : Cell) : Ctx :=
  { run := .running, pc := e, startAt := now + 4, lastIssue := now, seq := c.seq
    win := [(16 * 2047, { val := arg.val, poison := arg.poison })]
    sr := [0x030, 0x031, 0x032, 0x098, 0x0A0].foldl (fun t n => t.put n (c.sr.get 0 n)) [(0x022, srStart 0x022 k tid)] }

def execCstart (d a b : BitVec 5) (s : State) : Res :=
  outsideTx s 0x3C <| supervisorOnly s <| withReg s d fun arg => withControls s a b fun v e =>
    let p : Pos := { s.cur with k := field v 3 0 }
    if p.k = 15 || (s.ctx p).run != .empty then targetTrap s p.k
    else checkTarget s e
      (.next ((((s.modCtx p fun c => c.started p.k (s.tid p) s.cycle e arg).orderAfter p 15).holdForMove p).advance))

/-- A CSTOP of a thread in an irrevocable transaction is deferred by up to 50 µs (R340). -/
def State.cstop (s : State) (p : Pos) : State :=
  let c := s.ctx p
  if (c.run != .running && c.run != .paused) || c.stopBy != 0 then s
  else if c.tx.isSome && bit (s.srAt p 0x050) 8 then
    s.modCtx p fun x => { x with stopBy := s.cycle + 50 * Config.usCycles }
  else s.modCtx p fun x => { x with run := .stopping }

def execCstop (a : BitVec 5) (s : State) : Res :=
  outsideTx s 0x3C <| supervisorOnly s <| withControl s a fun v =>
    let p : Pos := { s.cur with k := field v 3 0 }
    if p.k = 15 then targetTrap s 15 else .next ((s.cstop p).advance)

/-- HMSG before its post and LAUNCH before its acceptance. -/
def Access.sends (a : Access) (seq : Nat) : Bool := a.seq == seq && (a.kind == AccKind.hmsg || a.kind == AccKind.launch)

/-- Take one access of a thread out of its flights and its replay entries. -/
def State.recallAccess (s : State) (p : Pos) (a : Access) : State :=
  (s.modCtx p fun c => (c.unclaim (s.loggedOf p) a.dst a.src).endLa a.seq).modRill p.b p.r fun x =>
    { x with replay := x.replay.filter fun e => !(e.2.pos == p && e.2.accs.any fun y => y.id == a.id) }

/-- The last unit of the thread is withdrawn when it is such an instruction (R387). -/
def State.withdrawSend (s : State) (p : Pos) : State :=
  let c := s.ctx p
  let logged := (s.rill p.b p.r).replay.flatMap fun e => if e.2.pos == p then e.2.accs else []
  match (c.flights ++ logged).find? fun a => a.sends c.seq with
  | none => s
  | some a =>
    ((s.unsend a.id).modCtx p fun x => { x with flights := x.flights.filter fun y => y.id != a.id, wait := none
                                                pc := a.ext.getD 0 0 }).recallAccess p a

/-- R387: what a unit in progress leaves. A request for the weir token is given back, but not by a thread that migrates,
which keeps its place under its old identifier (R23). -/
def State.withdraw (s : State) (p : Pos) (migrates : Bool := false) : State :=
  let s1 := if (s.ctx p).block.isSome then s.dropWait p else s.withdrawFuse p
  let s2 := if (s1.ctx p).tx.isNone && !migrates then s1.withdrawToken p else s1
  (s2.modCtx p fun c => match c.wait with
    | some .token => { c with wait := none }
    | some (.monwait d t) => { c with wait := some (.monwait d (if t = 0 then 0 else max 1 (t - s.cycle))) }
    | _ => c).withdrawSend p

/-- A lane that stops splits its group (R105, R108). -/
def State.splitFor (s : State) (p : Pos) : State :=
  match s.groupOf p with
  | some g => s.splitGroup p.b g (fun _ => if g.sysWait = 0 then 0x20 else 0x10) (some g.pc)
  | none => s

/-- The abort with PREEMPT of a revocable transaction (R340). -/
def State.preempt (s : State) (p : Pos) : State := (s.txAbortAt p 8 0 none).modCtx p fun c => { c with took := false }

/-- CONTEXT_STOP: at a unit boundary, once no commit and no window operation of the context is under way. A context
that halts stops at its HALT.H. -/
def execContextStop (b r k : Nat) (s : State) : Res :=
  let p : Pos := ⟨b, r, k⟩
  let c := s.ctx p
  let due := c.run == .stopping || ((c.run == .running || c.run == .paused) && c.stopBy != 0 && c.tx.isNone)
  let busy := (c.tx.any fun t => t.commit != 0) || ((s.rill b r).winOp.any fun o => o.k == k)
  if !due || busy || k == 15 then .next s
  else
    let s1 := ((s.splitFor p).withdraw p).preempt p
    let pc := if c.halting then (s1.ctx p).pc - 2 else (s1.ctx p).pc
    .next ((s1.stopAt p 0x20 0 0 0 pc false).modCtx p fun x => { x with halting := false, stopBy := 0, left := none })

/-- Nothing that the context issued is outstanding (R93, R218, R284). -/
def State.settled (s : State) (p : Pos) : Bool :=
  let c := s.ctx p
  let x := s.rill p.b p.r
  c.flights.isEmpty && c.longs.isEmpty && c.block.isNone && c.vseq.isEmpty && c.vres.isEmpty
    && !(x.replay.any fun e => e.2.pos == p) && !(x.takes.any fun t => t.k == p.k)
    && !s.pushing p
    && !((s.braid p.b).copies.any fun q => q.rill == p.r && q.ctx == p.k)
    && !((s.braid p.b).mx.any fun q => q.rill == p.r && q.ctx == p.k)
    && !(c.streams.any fun e => e.2.undrained)

/-- The stream slots of a context are unbound (R203). -/
def State.unbindAll (s : State) (p : Pos) : State := (s.ctx p).streams.foldl (fun t e => t.unbind p e.1 e.2) s

/-- CONTEXT_HALTED. -/
def execContextHalted (b r k : Nat) (s : State) : Res :=
  let p : Pos := ⟨b, r, k⟩
  let c := s.ctx p
  if c.halting && c.run == .running && s.settled p then
    let s1 := (s.unbindAll p).modCtx p fun x => { x with run := .empty, halting := false, cohort := none }
    .next (match c.cohort with
      | none => s1
      | some n => s1.modBraid b fun x => match x.cohorts.find n with
        | some y => { x with cohorts := x.cohorts.put n { y with halted := y.halted ++ [(r, k)] } }
        | none => x)
  else .next s

/-! ### REPLAY (R395) -/

def REntry.lines (e : REntry) : List Nat := e.accs.map fun a => lineOf a.va.toNat

/-- Entry f of the same thread comes before e, or after it, and touches a line of it. -/
def REntry.meets (e f : REntry) : Bool := f.pos == e.pos && e.lines.any fun l => f.lines.contains l
def REntry.number (e : REntry) : Nat := (e.accs.head?.map fun a => a.id).getD 0

/-- Entries by the order of their instructions. -/
def entriesInOrder (xs : List (Nat × REntry)) : List (Nat × REntry) :=
  xs.foldl (fun t e => (t.takeWhile fun f => decide (f.2.number < e.2.number)) ++ [e]
    ++ (t.dropWhile fun f => decide (f.2.number < e.2.number))) []

/-- The chain of an entry, in order; nothing when it is not the oldest. -/
def Rill.chain (x : Rill) (e : REntry) : Option (List (Nat × REntry)) :=
  let same := x.replay.filter fun f => e.meets f.2
  if same.any fun f => decide (f.2.number < e.number) then none else some (entriesInOrder same)

/-- The translations of an entry: its accesses with their places, or the fault. -/
inductive Retry where
  | ok (accs : List Access)
  | fault (cause sub : Nat)
  | ask
  | poisoned
  deriving DecidableEq, Repr

/-- The place of a logged access as it is sent again; local store needs no translation. -/
def State.retryPlace (s : State) (p : Pos) (a : Access) : State × Xlat :=
  if bit a.va 55 then (s, .ok (localPlace p.b a.va) 0) else s.translate p a.va a.kind.need

def retryFrom (p : Pos) : List Access → State → State × Retry
  | [], s => (s, .ok [])
  | a :: t, s =>
    match s.retryPlace p a with
    | (s1, .fault c sub) => (s1, .fault c sub)
    | (s1, .ask) => (s1, .ask)
    | (s1, .poisoned) => (s1, .poisoned)
    | (s1, .ok pa leaf) =>
      if a.kind.fe && bit leaf 9 then (s1, .fault 0x24 0)
      else
        let (s2, r) := retryFrom p t s1
        (s2, match r with
          | .ok xs => .ok ({ a with pa := pa, sync := bit leaf 6, nc := bit leaf 8, replayed := true } :: xs)
          | .fault c sub => .fault c sub
          | .ask => .ask
          | .poisoned => .poisoned)

def State.dropEntry (s : State) (b r i : Nat) : State := s.modRill b r fun x => { x with replay := x.replay.drop i }

/-- A chain in order: the state and the status; none while the host is asked; true for a poisoned walk. -/
def replayFrom (b r : Nat) : List (Nat × REntry) → State → State × Option (Nat × Bool)
  | [], s => (s, some (0, false))
  | (i, e) :: t, s =>
    match retryFrom e.pos e.accs s with
    | (s1, .ask) => (s1, none)
    | (s1, .poisoned) => (s1, some (0, true))
    | (s1, .fault c sub) =>
      let e1 := { e with cause := c, sub := sub, woken := decide (sub < 8) }
      let s2 := s1.modRill b r fun x => { x with replay := x.replay.put i e1 }
      (if sub < 8 then s2.wake i e1 else s2, some (1, false))
    | (s1, .ok accs) =>
      replayFrom b r t (accs.foldl (fun z a => z.launchAccess e.pos a) (s1.dropEntry b r i))

/-- What a dropped access leaves in its thread. -/
def State.dropAccess (s : State) (p : Pos) (a : Access) : State :=
  match a.kind with
  | .lda _ _ qs =>
    let s1 := s.modCtx p fun c => match qs with
      | some q => c.fill (.q q) a.src 0 false
      | none => c
    (s1.deliver p a 0 true).retireAccess p a
  | .monarm k =>
    if a.aux = 2 then s.retireAccess p a else
    let s1 := s.disarm p k
    (s1.setSr p 0x080 (setField (s1.srAt p 0x080) 8 8 1)).retireAccess p a
  | .hmsg =>
    let s1 := s.modCtx p fun c => { (c.unclaim (s.loggedOf p) a.dst a.src) with wait := none }
    let s2 := ((s1.asUnit p (a.ext.getD 0 0) (a.ext.getD 1 0).toNat).trapTo 0x0C a.va).leaveGroup p
    { s2 with cur := s.cur, upc := s.upc, ipc := s.ipc, ulen := s.ulen }
  | .launch => (s.deliver p a 2 false).retireAccess p a
  | .joinRead k => (s.retireAccess p a).fillTake p { k := p.k, id := a.src, s := a.dst, ox := k, kind := 2 } 3 []
  | _ => (s.deliver p a 0 true).retireAccess p a

/-- Drop(chain). -/
def dropChain (b r : Nat) : List (Nat × REntry) → State → State
  | [], s => s
  | (i, e) :: t, s => dropChain b r t (e.accs.foldl (fun z a => z.dropAccess e.pos a) (s.dropEntry b r i))

/-- Entries behind a chain that is gone are the heads of their own now, and make a wake record. -/
def State.wakeHeads (s : State) (b r : Nat) (gone : List (Nat × REntry)) : State :=
  ((s.rill b r).replay.filter fun f => !f.2.woken && decide (f.2.sub < 8) && (gone.any fun g => g.2.meets f.2)).foldl
    (fun t f => match (t.rill b r).chain f.2 with
      | some _ =>
        (t.modRill b r fun x => { x with replay := x.replay.put f.1 { f.2 with woken := true } }).wake f.1 f.2
      | none => t) s

def replay (s : State) (drop : Bool) (d a : BitVec 5) : Res :=
  outsideTx s 0x3C <| supervisorOnly s <| withControl s a fun v =>
    let b := s.cur.b
    let r := s.cur.r
    if !s.quietBefore then parked s .order
    else match s.myRill.replay.find (field v 4 0) with
      | none => wrote s d 2 false
      | some e => match s.myRill.chain e with
        | none => wrote s d 3 false
        | some c =>
          if drop then wrote ((dropChain b r c s).wakeHeads b r c) d 0 false
          else match replayFrom b r c s with
            | (s1, none) => parked s1 .translation
            | (s1, some (_, true)) => .next (s1.contain (s1.basinOf b))
            | (s1, some (n, false)) => wrote (s1.wakeHeads b r c) d (w64 n) false

def execReplay (d a : BitVec 5) (s : State) : Res := replay s false d a
def execReplayDrop (d a : BitVec 5) (s : State) : Res := replay s true d a

/-! ### Removing translations (R341, R402 to R404) -/

/-- Every cached translation of a basin. -/
def State.tlbOf (s : State) (n : Nat) : List TlbEntry :=
  (s.rills.flatMap fun e => e.2.tlb) ++ (s.braids.flatMap fun e => e.2.tlb) |>.filter fun e => e.basin == n

/-- A thread's address is covered by a removed translation. -/
def State.uses (s : State) (gone : List TlbEntry) (p : Pos) (va : Word) : Bool :=
  !bit va 55 && gone.any fun e => e.covers (s.basinOf p.b) (field (s.srAt p 0x0A0) 63 48) va.toNat

/-- A transaction has used a translation that f selects, for a log entry, a spill entry or a line that it holds; whether a TLB
still holds that translation does not matter. -/
def Tx.shot (t : Tx) (n : Nat) (f : TlbEntry → Bool) : Bool := t.used.any fun e => e.basin == n && f e

/-- A translation of a page of a leaving pseudo-channel. While such a channel's pages are moved, the removal of the
translation is taken to belong to the resize (R341, R417); the manual does not say how the two are told apart. -/
def State.leavingPage (s : State) (e : TlbEntry) : Bool :=
  !bit e.leaf 9 && (s.gchans.get {} (e.pa / 2 ^ 31)).state == .leaving

/-- Threads whose transaction a removal concerns, with the cause of its abort. -/
def State.shotTx (s : State) (n : Nat) (f : TlbEntry → Bool) : List (Pos × Tx × Nat) :=
  s.ctxs.filterMap fun e =>
    let p : Pos := ⟨e.1 / 128, e.1 / 16 % 8, e.1 % 16⟩
    match e.2.tx with
    | some t =>
      if !t.shot n f then none
      else some (p, t, if t.shot n fun e => f e && s.leavingPage e then 9 else 1)
    | none => none

/-- A commit is in the way of the removal, or an irrevocable transaction that no resize ends. -/
def State.shotWaits (s : State) (xs : List (Pos × Tx × Nat)) : Bool :=
  xs.any fun x => x.2.1.commit != 0 || (x.2.2 != 9 && bit (s.srAt x.1 0x050) 8)

/-- The transaction of p ends by an abort that no unit of p makes. Where p is stopped at one of its units, XPC takes the
pc that the abort gives. -/
def State.abortAway (s : State) (p : Pos) (cause : Nat) : State :=
  let s1 := ((s.txAbortAt p cause 0 none).modCtx p fun c => { c with left := some 0x15 }).leaveGroup p
  if (s1.ctx p).run = .stopped then s1.setSr p 0x010 (s1.ctx p).pc else s1

/-- The translation for which the host has been asked. -/
def State.askedFor (s : State) (q : AtsReq) : TlbEntry :=
  { basin := s.atsBasin q, asid := q.asid, va := q.va.toNat - q.va.toNat % q.size, size := q.size, pa := q.pa, leaf := q.leaf }

/-- The translations leave every TLB; walks in progress for them restart, so that their requests to the host are made again
(R404), but for a page request that is out; transactions that used one abort (R341). -/
def State.shootDown (s : State) (n : Nat) (f : TlbEntry → Bool) (xs : List (Pos × Tx × Nat)) : State :=
  let gone (e : TlbEntry) : Bool := e.basin == n && f e
  let keep (t : List TlbEntry) : List TlbEntry := t.filter fun e => !gone e
  let s1 := { s with ats := s.ats.filter fun q => q.phase == 1 || !gone (s.askedFor q)
                     rills := s.rills.update fun _ x => { x with tlb := keep x.tlb }
                     braids := s.braids.update fun _ x => { x with tlb := keep x.tlb } }
  xs.foldl (fun t x => t.abortAway x.1 x.2.2) s1

/-- The translation that an access of p on its way has used, as far as the access shows it: its page of 4 KiB. -/
def State.usedBy (s : State) (p : Pos) (a : Access) : TlbEntry :=
  { basin := s.basinOf p.b, asid := field (s.srAt p 0x0A0) 63 48, va := a.va.toNat - a.va.toNat % 4096, size := 4096
    pa := 0, leaf := if isHost a.pa then 0x200 else 0 }

/-- Accesses on their way that use a translation of basin n that f selects: one of `gone`, which a TLB has held, or one that no
TLB holds any more, which is judged by the access's own page (log entry 170). -/
def State.usersOf (s : State) (n : Nat) (f : TlbEntry → Bool) (gone : List TlbEntry) : List Nat :=
  s.ctxs.flatMap fun e =>
    let p : Pos := ⟨e.1 / 128, e.1 / 16 % 8, e.1 % 16⟩
    (e.2.flights.filter fun a => s.uses gone p a.va || (!bit a.va 55 && s.basinOf p.b == n && f (s.usedBy p a))).map fun a => a.id

/-- Those accesses are performed or logged: none is in flight any more. -/
def State.drained (s : State) (ids : List Nat) : Bool :=
  !(s.ctxs.any fun e => e.2.flights.any fun a => ids.contains a.id)

/-- What a mode of TLBINV removes. -/
def tlbinvHits (m : Nat) (va asid : Word) (e : TlbEntry) : Bool :=
  match m with
  | 0 => e.asid == field asid 15 0 && decide (e.va ≤ va.toNat ∧ va.toNat < e.va + e.size)
  | 1 => e.asid == field asid 15 0
  | 2 => true
  | _ => bit e.leaf 9

def execTlbinv (a b : BitVec 5) (m : BitVec 2) (s : State) : Res :=
  outsideTx s 0x3C <| supervisorOnly s <| withControls s a b fun va asid =>
    let n := s.basinOf s.cur.b
    let f := tlbinvHits m.toNat va asid
    let gone := (s.tlbOf n).filter f
    let xs := s.shotTx n f
    if !s.quietBefore || s.shotWaits xs then parked s .order
    else
      let s1 := s.shootDown n f xs
      .next ((s1.modMe fun c => { c with wait := some (.shootdown (s1.usersOf n f gone)) }).advance)

/-- ATS_INVALIDATE_REQUEST (R403). -/
def execAtsInvalidateRequest (bs asid : Nat) (va : Word) (s : State) : Res :=
  let f (e : TlbEntry) : Bool := bit e.leaf 9 && e.asid == asid && decide (e.va ≤ va.toNat ∧ va.toNat < e.va + e.size)
  let xs := s.shotTx bs f
  if s.shotWaits xs then .next s else .next (s.shootDown bs f xs)

/-- ATS_COMPLETION (R403): the answer to request n. A grant gives the page's translated address in e[51:12] and the
permissions R, W and X in the bits of R400. An answer without translation: e[0] says whether PRI is enabled, and a Page
Request is then sent. -/
def execAtsCompletion (n : Nat) (ok : Bool) (e : Word) (s : State) : Res :=
  match s.ats.find? fun q => q.id == n && q.phase == 0 with
  | none => .next s
  | some q =>
    if ok then
      let leaf := w64 (maskMinus q.leaf.toNat (maskMinus 28 e.toNat))
      let t : TlbEntry :=
        { basin := s.basinOf q.pos.b, asid := q.asid, va := q.va.toNat - q.va.toNat % q.size, size := q.size
          pa := field e 51 12 * 2 ^ 12, leaf := leaf }
      if q.pos.b < 512 then .next (({ s with ats := s.ats.filter fun x => x.id != n } : State).fillTlb q.pos t true)
      else .next { s with ats := s.ats.map fun x => if x.id == n then { x with phase := 3, pa := t.pa, leaf := leaf } else x }
    else
      .next { s with ats := s.ats.map fun x => if x.id == n then { x with phase := if bit e 0 then 1 else 2 } else x }

/-- PRI_RESPONSE (R403): the entries logged for the page make their wake records, with SUB[5] when it failed. -/
def execPriResponse (n : Nat) (ok : Bool) (s : State) : Res :=
  match s.ats.find? fun q => q.id == n && q.phase == 1 with
  | none => .next s
  | some q =>
    let page := q.va.toNat / 4096
    let bs := s.atsBasin q
    let s0 : State := { s with ats := s.ats.filter fun x => x.id != n }
    let waits (e : REntry) : Bool :=
      decide (8 ≤ e.sub) && s.basinOf e.pos.b == bs && field (s.srAt e.pos 0x0A0) 63 48 == q.asid
        && e.accs.any fun a => a.va.toNat / 4096 == page
    let hit := s.rills.flatMap fun x => (x.2.replay.filter fun e => waits e.2).map fun e => (x.1, e.1, e.2)
    .next (hit.foldl (fun t h =>
      let e := { h.2.2 with sub := if ok then 1 else 3, woken := true }
      (t.modRill (h.1 / 8) (h.1 % 8) fun x => { x with replay := x.replay.put h.2.1 e }).wake h.2.1 e) s0)

/-! ### SVCALL (R405) -/

/-- Both ends of the parameter block translate for reads and writes. -/
def State.blockXlat (s : State) (va : Word) : State × Option Xlat :=
  match s.translate s.cur va { r := true, w := true } with
  | (s1, .ok _ _) => match s1.translate s1.cur (va + 255) { r := true, w := true } with
    | (s2, .ok _ _) => (s2, none)
    | (s2, x) => (s2, some x)
  | (s1, x) => (s1, some x)

/-- Services of R458, by number. -/
def serviceCount : Nat := 32

/-- SVCALL (R405). The order of its checks of b, and XVAL at the block's base where its last byte does not translate, are the
model's choice (log entry 163). -/
def execSvcall (d a b : BitVec 5) (s : State) : Res :=
  outsideTx s 0x3C <| supervisorOnly s <| withControls s a b fun n va =>
    if field va 5 0 != 0 then trapped s 0x06 va
    else if field va 63 56 != 0 then trapped s 0x09 va
    else if bit va 55 then trapped s 0x0A va
    else if !s.quietBefore then parked s .order
    else if serviceCount ≤ n.toNat then wrote s d 0xFFFFFFFFFFFFFFFF false
    else match s.blockXlat va with
      | (s1, some (.fault c _)) => .next (s1.trapAs c va s.ulen s.upc true)
      | (s1, some .ask) => parked s1 .translation
      | (s1, some .poisoned) => .next (s1.contain (s1.basinOf s1.cur.b))
      | (s1, some (.ok _ _)) => parked s1 .order
      | (s1, none) =>
        let call : Call :=
          { id := s1.nextId, caller := s1.basinOf s1.cur.b, service := n.toNat, pos := s1.cur, va := va }
        .next ((({ s1 with nextId := s1.nextId + 1, calls := s1.calls ++ [call] } : State).modMe fun c =>
          { c with wait := some (.service (c.dest d) call.id) }).advance)

/-! ### Hardware errors (R396, R397) -/

/-- A register of a context by number: 0 to 31 general, 32 to 47 vector, 48 to 55 ox, 56 to 59 ix, 60 to 67 q; from 128 up,
register i of the window that lies w below the current one, at 128 + 16w + i, while that window is resident. -/
def Ctx.poisonReg (c : Ctx) (n : Nat) : Ctx :=
  if n < 32 then
    let d := c.dest (BitVec.ofNat 5 n)
    c.setCellAt d { c.cellAt d with poison := true }
  else if n < 48 then c.setVreg (n - 32) { c.vreg (n - 32) with poison := true }
  else if n < 56 then { c with ox := c.ox.put (n - 48) { c.oxReg (n - 48) with poison := true } }
  else if n < 60 then { c with ix := c.ix.put (n - 56) { c.ixReg (n - 56) with poison := true } }
  else if 60 < n && n < 68 then { c with q := c.q.put (n - 60) { c.q.get {} (n - 60) with poison := true } }
  else if 128 ≤ n && decide ((n - 128) / 16 < c.resident) then
    let d : Dest := .win (16 * (c.depth - 1 - (n - 128) / 16) + n % 16)
    c.setCellAt d { c.cellAt d with poison := true }
  else c

/-- Shared register m of a rill. -/
def Rill.poisonShared (x : Rill) (m : Nat) : Rill :=
  { x with m := x.m.put m { x.m.get { full := false } m with poison := true } }

/-- A block of a bank: slot * 2 (and 1 more for the shadow bank) by 2^16, column * 16 + block. -/
def Braid.poisonBlock (x : Braid) (y : Nat) : Braid :=
  let k := x.bank (y / 2 ^ 16)
  let e := k.blocks.get {} (y % 2 ^ 16)
  x.setBank (y / 2 ^ 16) { k with blocks := k.blocks.put (y % 2 ^ 16) { e with poison := true } }

/-- An accumulator element: tile by 2^16, row * 96 + column. -/
def Braid.poisonElement (x : Braid) (y : Nat) : Braid :=
  x.modTile (y / 2 ^ 16) fun t =>
    { t with els := t.els.put (y % 2 ^ 16) ((t.els.get (0, false) (y % 2 ^ 16)).1, true) }

/-- A clean copy of a line leaves the braid. -/
def Braid.dropClean (x : Braid) (line : Nat) : Braid :=
  match x.l1.find line with
  | some l => if l.dirty then x else { x with l1 := x.l1.drop line }
  | none => x

/-- R15: the number of the physical rill of a logical rill, as RETIRE-REQUEST names it. -/
def State.physicalRill (s : State) (b r : Nat) : Nat := b * 16 + (s.braid b).l2p.get r r

/-- An uncorrectable and poisoned error in a resource of a braid, or in a memory word (R458, ERRLOG-READ). -/
def State.logSite (s : State) (b kind num : Nat) : State :=
  s.logError (if (s.braid b).gran.state == .free then none else some (s.basinOf b)) 1 kind num 0
def State.logWord (s : State) (a : Nat) : State :=
  if isLocal a then
    let key := (a - lsBase) / 2 ^ 18
    s.logSite (key / 8) 0 (s.physicalRill (key / 8) (key % 8))
  else
    let g := s.gchans.get {} (a / 2 ^ 31)
    s.logError (if g.state == .free then none else some g.basin) 1 2 (a / 2 ^ 31) (w64 a)

/-- UNCORRECTABLE_ERROR: site 0 the memory word at place 8x; 1 register y of position x, where 68 + m is shared register m
of its rill; 2 accumulator element and 3 bank block y of braid x; 4 a clean L1 line y of braid x; 5 an instruction line and
6 a TLB entry y of rill x, from 64 up entry y - 64 of its braid's TLB; any other, state of braid x without a poison bit. -/
def execUncorrectableError (site x y : Nat) (s : State) : Res :=
  match site with
  | 0 => .next (if isHost (8 * x) then s else ({ s with mem := s.mem.setPoison (8 * x) true } : State).logWord (8 * x))
  | 1 =>
    let s1 := if 68 ≤ y && y < 84 then s.modRill (x / 128) (x / 16 % 8) fun z => z.poisonShared (y - 68)
      else s.modCtx ⟨x / 128, x / 16 % 8, x % 16⟩ fun c => c.poisonReg y
    .next (s1.logSite (x / 128) 0 (s.physicalRill (x / 128) (x / 16 % 8)))
  | 2 => .next ((s.modBraid x fun z => z.poisonElement y).logSite x 3 x)
  | 3 => .next ((s.modBraid x fun z => z.poisonBlock y).logSite x 3 x)
  | 4 => .next (s.modBraid x fun z => z.dropClean y)
  | 5 => .next (s.modRill (x / 8) (x % 8) fun z => { z with icache := z.icache.drop y })
  | 6 => .next (if y < 64 then s.modRill (x / 8) (x % 8) fun z => { z with tlb := z.tlb.eraseIdx y }
      else s.modBraid (x / 8) fun z => { z with tlb := z.tlb.eraseIdx (y - 64) })
  | _ => .next (if (s.braid x).gran.state == .free then s else s.contain (s.basinOf x))

end Sys2Proof.Machine
end

