-- ==== Sys2Proof/Machine/Basins.lean ====
section
/-! DEFINITION. Basins: BINFO, BHOME, BRACK, CMIG, resizes and their phases, rehash, scrub and retirement (R406 to
R430). -/

namespace Sys2Proof.Machine

/-! ### Granules (R17, R407) -/

/-- A granule by kind: 0 braid, 1 slice, 2 pseudo-channel, 3 application core, 4 virtual function. -/
def State.gran (s : State) (kind n : Nat) : Granule :=
  match kind with
  | 0 => (s.braid n).gran
  | 1 => s.gslices.get {} n
  | 2 => s.gchans.get {} n
  | 3 => (s.cores.get {} n).gran
  | _ => (s.vfs.get {} n).gran

def State.modGran (s : State) (kind n : Nat) (f : Granule → Granule) : State :=
  match kind with
  | 0 => s.modBraid n fun x => { x with gran := f x.gran }
  | 1 => { s with gslices := s.gslices.put n (f (s.gslices.get {} n)) }
  | 2 => { s with gchans := s.gchans.put n (f (s.gchans.get {} n)) }
  | 3 => { s with cores := s.cores.put n { s.cores.get {} n with gran := f (s.cores.get {} n).gran } }
  | _ => { s with vfs := s.vfs.put n { s.vfs.get {} n with gran := f (s.vfs.get {} n).gran } }

/-- Every granule that is not FREE, by kind and number. -/
def State.granules (s : State) : List (Nat × Nat) :=
  let all (k : Nat) (ns : List Nat) : List (Nat × Nat) := (ns.filter fun n => (s.gran k n).state != .free).map fun n => (k, n)
  all 0 (s.braids.map Prod.fst) ++ all 1 (s.gslices.map Prod.fst) ++ all 2 (s.gchans.map Prod.fst)
    ++ all 3 (s.cores.map Prod.fst) ++ all 4 (s.vfs.map Prod.fst)

/-- The granules of a basin, of a kind. -/
def State.granulesOf (s : State) (n kind : Nat) : List Nat :=
  (s.granules.filter fun g => g.1 == kind && (s.gran g.1 g.2).ownedBy n).map Prod.snd

/-- The physical braid of a basin braid index, in any state. -/
def State.braidAt (s : State) (n idx : Nat) : Option Nat :=
  (s.granulesOf n 0).find? fun b => (s.braid b).index == idx

/-! ### BINFO (R420) -/

/-- A braid as BINFO shows it. -/
def State.braidWord (s : State) (n b : Nat) : Nat :=
  let x := s.braid b
  let st := match x.gran.state with
    | .leaving => 2
    | .scrubbing => 3
    | _ => if x.gran.joining then 1 else 0
  let dest := match (s.basin n).resize.bind fun z => z.dest.find b with
    | some d => (s.braid d).index * 2 ^ 16 + 2 ^ 25
    | none => 0
  1 + st * 2 + (if x.spare.isSome then 8 else 0) + b * 16 + dest

/-- Entry i of a slice list. -/
def State.sliceWord (s : State) (l : List Nat) (i : Nat) : Nat :=
  match l[i]? with
  | some x => 1 + x * 2 + (if (s.gran 1 x).state == .leaving then 2 ^ 11 else 0)
  | none => 0

/-- Class 0, index 0: the basin. -/
def State.identWord (s : State) (n : Nat) : Nat :=
  let x := s.basin n
  let ph := x.resize.elim 0 fun z => if z.began then z.phase else 0
  n + x.gen * 2 ^ 16 + x.rseq * 2 ^ 32 + ph * 2 ^ 48 + (if x.lastForced then 2 ^ 51 else 0)

def State.countsWord (s : State) (n : Nat) : Nat :=
  (s.granulesOf n 0).length + (s.basin n).slices.length * 2 ^ 10 + (s.granulesOf n 2).length * 2 ^ 21
    + (s.granulesOf n 3).length * 2 ^ 31 + (s.granulesOf n 4).length * 2 ^ 39

def State.resizeWord (s : State) (n : Nat) : Nat :=
  match (s.basin n).resize with
  | some z => if z.began then s.deadlineLeft n + (z.notified.filter fun r => !z.acked.contains r).length * 2 ^ 32 else 0
  | none => 0

def State.channelWord (s : State) (n p : Nat) : Nat :=
  let g := s.gran 2 p
  if g.ownedBy n then 1 + (if g.state == .leaving then 2 else 0) + (if g.joining then 4 else 0) else 0

def State.rillsWord (s : State) (b : Nat) : Nat :=
  let x := s.braid b
  sumOf ((List.range 8).map fun r => x.l2p.get r r * 16 ^ r) + x.spare.getD 15 * 2 ^ 32

def State.binfo (s : State) (v : Word) : Word :=
  let n := s.basinOf s.cur.b
  let i := field v 11 0
  if field v 63 16 != 0 then 0
  else w64 (match field v 15 12 with
    | 0 => match i with
      | 0 => s.identWord n
      | 1 => s.countsWord n
      | 2 => s.resizeWord n
      | _ => 0
    | 1 => match s.braidAt n i with
      | some b => s.braidWord n b
      | none => 0
    | 2 => s.sliceWord (s.basin n).slices i
    | 3 => s.sliceWord ((s.basin n).nextSlices.getD []) i
    | 4 => if i < 512 then s.channelWord n i else 0
    | 5 => if i = 0 then s.rillsWord s.cur.b else 0
    | _ => 0)

def execBinfo (a sx : BitVec 5) (s : State) : Res :=
  outsideTx s 0x3D <| withControl s a fun v => wrote s sx (s.binfo v) false

/-! ### BHOME (R421) -/

/-- The home of a line with a home slice: the slice for device memory, KIND 1 and no slice for a cached line of the host; the
generation, and whether a rehash is still to move it. A line whose old and new home are the same slice answers bit 10 = 0 and
the new generation as soon as the rehash runs, which is the model's choice (log entry 138). -/
def State.homeWord (s : State) (n pa : Nat) : Word :=
  let x := s.basin n
  let old := match x.nextSlices with
    | some next => !x.handed.contains (lineOf pa) && homeOf x.slices pa != homeOf next pa
    | none => false
  let gen := if x.nextSlices.isSome && !old then (x.gen + 1) % 65536 else x.gen
  w64 (gen * 2 ^ 16 + (if old then 2 ^ 10 else 0) + if isHost pa then 2 ^ 62 else s.homeSlice n pa)

def execBhome (a sx : BitVec 5) (s : State) : Res :=
  outsideTx s 0x3D <| withReg s a fun x => withAddress s x.val 1 x.poison <|
    let n := s.basinOf s.cur.b
    let other (kind : Nat) : Word := w64 (kind * 2 ^ 62 + (s.basin n).gen * 2 ^ 16)
    if bit x.val 55 then wrote s sx (other 2) false
    else match s.translate s.cur x.val { r := true } with
      | (s1, .ok pa leaf) => wrote s1 sx (if bit leaf 9 && bit leaf 8 then other 1 else s1.homeWord n pa) false
      | (s1, .fault _ _) => wrote s1 sx (other 3) false
      | (s1, .ask) => parked s1 .translation
      | (s1, .poisoned) => .next (s1.contain n)

/-! ### BRACK (R422) -/

/-- RSEQ * 8 + PHASE of the phase that runs. -/
def State.phaseCode (s : State) (n : Nat) : Option Nat :=
  (s.basin n).resize.bind fun z => if z.began then some (z.seq * 8 + z.phase) else none

/-- The rill has acknowledged. -/
def State.recordAck (s : State) (b r code : Nat) : State :=
  s.modBasin (s.basinOf b) fun x => { x with resize := x.resize.map fun z =>
    if z.began && z.seq * 8 + z.phase == code && !z.acked.contains (rillKey b r) then { z with acked := z.acked ++ [rillKey b r] }
    else z }

/-- The user contexts of a rill are empty and its deque holds no entry. -/
def State.rillEmpty (s : State) (b r : Nat) : Bool :=
  ((List.range 15).all fun k => (s.ctx ⟨b, r, k⟩).run == .empty) && (s.rill b r).tasks == 0

/-- A BRACK that holds its context is over. -/
def State.brackOver (s : State) (b r code : Nat) : Bool := s.rillEmpty b r || s.phaseCode (s.basinOf b) != some code

def execBrack (a sx : BitVec 5) (s : State) : Res :=
  outsideTx s 0x3D <| supervisorOnly s <| withControl s a fun v =>
    let b := s.cur.b
    let r := s.cur.r
    let code := field v 15 0 * 8 + field v 18 16
    if s.phaseCode (s.basinOf b) != some code then wrote s sx 1 false
    else if code % 8 = 2 && (s.braid b).gran.state == .leaving && !s.rillEmpty b r then
      .next ((s.modMe fun c => { c with wait := some (.brack (c.dest sx) code) }).advance)
    else wrote (s.recordAck b r code) sx 0 false

/-! ### Moving a braid (R423 to R425) -/

/-- Local-store bytes of a rill that the dispatcher may give, and the spill area of its deque. -/
def State.dispatchRange (s : State) (b r : Nat) : Nat × Nat :=
  let v := s.rillSr b r 0x124
  (field v 17 3 * 8, field v 49 35 * 8)
def State.spillArea (s : State) (b r : Nat) : Nat × Nat :=
  let v := s.rillSr b r 0x122
  (field v 17 5 * 32, field v 17 5 * 32 + 32 * field v 43 32)

/-- The braid holds something of a user: the second status of R423. -/
def State.braidUsed (s : State) (d : Nat) : Bool :=
  let y := s.braid d
  (List.range 8).any (fun r =>
      ((List.range 15).any fun k => (s.ctx ⟨d, r, k⟩).run != .empty)
        || ((List.range 16).any fun k => !(s.ctx ⟨d, r, k⟩).streams.isEmpty)
        || (s.rill d r).tasks != 0 || !(s.rill d r).replay.isEmpty)
    || !y.cohorts.isEmpty || y.reserved.isSome || (y.tiles.any fun t => t.2.cohort.isSome)
    || (y.slots.any fun t => t.2.cohort.isSome) || y.barriers.any fun t => t.2.cohort.isSome

/-- A user context of the braid has stopped engine work. -/
def State.stoppedWork (s : State) (b : Nat) : Bool :=
  ((List.range 8).any fun r => (List.range 15).any fun k => (s.ctx ⟨b, r, k⟩).streams.any fun x => x.2.flt)
    || ((s.braid b).copies.any fun q => q.ctx != 15 && q.phase == 2) || (s.braid b).mx.any fun q => q.ctx != 15 && q.phase == 2

/-- The status of a move of physical braid b to d. -/
def State.moveStatus (s : State) (b d : Nat) : Nat :=
  let st := (s.braid d).gran.state
  if b = d || st == .leaving || st == .scrubbing || (s.braid b).gran.state == .scrubbing then 1
  else if s.braidUsed d || (List.range 8).any fun r =>
      s.rillSr d r 0x124 != s.rillSr b r 0x124 || s.rillSr d r 0x122 != s.rillSr b r 0x122 then 2
  else if s.stoppedWork b then 3
  else 0

/-- The two braids that an operand names, with the status of R423. -/
def State.migStatus (s : State) (v : Word) : Nat × Nat × Nat :=
  let n := s.basinOf s.cur.b
  if field v 15 9 != 0 || field v 63 25 != 0 then (1, 0, 0)
  else match s.braidAt n (field v 8 0), s.braidAt n (field v 24 16) with
    | some b, some d => (s.moveStatus b d, b, d)
    | _, _ => (1, 0, 0)

/-- A running context stops at a unit boundary with the outcomes of R387, no cause and no record; a transaction that
does not commit aborts with RESIZE, that of a stopped context too (R341). A lane lets its block instruction end, so that
its group stays fused. A CSTOP that R340 has deferred is still to come. -/
def State.pause (s : State) (p : Pos) : State :=
  let c := s.ctx p
  let s1 := if (c.run == .running || c.run == .stopped) && c.tx.any fun t => t.commit == 0 then s.abortAway p 9 else s
  if c.run != .running || c.halting then s1
  else
    let s2 := match s1.groupOf p with
      | none =>
        let z := s1.withdraw p true
        let (y, pc, _) := (z.ctx p).cutWork (z.loggedOf p) (z.ctx p).pc 0
        z.setCtx p { y with pc := pc }
      | some _ =>
        let y := s1.ctx p
        let z := s1.modCtx p fun x => { x.dropCapture (s1.loggedOf p) with pc := y.capturePc.getD x.pc }
        match y.capturePc with
        | some w => z.modGroup p.b p.k p.r fun g => { g with pc := w }
        | none => z
    s2.modCtx p fun x => { x with run := .paused, held := none, retry := 0, heldUnit := none, triedAt := 0, took := false }

/-- A paused context goes on (R81); it resumes its wait. -/
def Ctx.goOn (c : Ctx) (now : Nat) : Ctx :=
  if c.run = .paused then
    { (c.rewait now) with run := .running, startAt := now + 4, lastIssue := now, held := none, triedAt := 0 }
  else c

/-- The positions of a braid's user contexts. -/
def userPositions (b : Nat) : List Pos := (List.range 8).flatMap fun r => (List.range 15).map fun k => (⟨b, r, k⟩ : Pos)

/-- A started MXROT that waits for a partner is cancelled. -/
def State.cancelRots (s : State) (b : Nat) : State :=
  ((s.braid b).mx.filter fun q => q.op == 2 && q.phase == 1 && !q.links.isEmpty).foldl (fun t q => t.cancelMx b q) s

/-- A CMIG of b to d starts. -/
def State.startMove (s : State) (b d : Nat) : State :=
  let s1 := (userPositions b).foldl (fun t p => t.pause p) s
  ((s1.modBraid b fun x => { x with moving := true }).modBraid d fun x => { x with moving := true }).cancelRots b

/-- R388: what a save of a context waits for. -/
def State.saveReady (s : State) (p : Pos) : Bool :=
  let c := s.ctx p
  let x := s.rill p.b p.r
  c.flights.isEmpty && c.longs.isEmpty && c.block.isNone && c.vres.isEmpty && (c.tx.isNone || c.run == .empty)
    && !(x.takes.any fun t => t.k == p.k) && !s.pushing p
    && !(x.landings.any fun l => l.k == p.k) && !(x.winOp.any fun o => o.k == p.k)
    && !((s.braid p.b).copies.any fun q => q.rill == p.r && q.ctx == p.k)
    && !((s.braid p.b).mx.any fun q => q.rill == p.r && q.ctx == p.k && (q.phase != 0 || q.op == 6))
    && !(c.streams.any fun e => e.2.undrained)

/-- The conditions under which a braid is copied (R424, step 2). -/
def State.braidDrained (s : State) (b : Nat) : Bool :=
  (userPositions b).all (fun p => (s.ctx p).run != .stopping && (s.ctx p).run != .running || (s.ctx p).halting)
    && (userPositions b).all (fun p => s.saveReady p)
    && (List.range 8).all fun r => (s.rill b r).mEffects.isEmpty

/-- Bytes, FE and poison bits of n bytes are cleared, with their tags, where f selects their words. -/
def Memory.clearRange (m : Memory) (a n : Nat) (f : Nat → Bool := fun _ => true) : Memory :=
  let out (i lo hi : Nat) (w : Nat) : Bool := !(decide (lo ≤ i) && decide (i < hi) && f w)
  { m with
    cells := m.cells.filter fun c => out c.1 a (a + n) (c.1 / 8)
    full := m.full.filter fun w => out w (a / 8) ((a + n) / 8) w
    poison := m.poison.filter fun w => out w (a / 8) ((a + n) / 8) w
    tags := m.tags.filter fun t => out t.1 a (a + n) (t.1 / 8) }

/-- n bytes from a are copied to d, with their FE and poison bits. -/
def Memory.copyRange (m : Memory) (a d n : Nat) : Memory :=
  let inside (i : Nat) : Bool := decide (a ≤ i) && decide (i < a + n)
  let z := m.clearRange d n
  { z with
    cells := (m.cells.filter fun c => inside c.1).foldl (fun t c => cellsWrite t (c.1 - a + d) c.2) z.cells
    full := (m.full.filter fun w => inside (8 * w)).foldl (fun t w => setInsert t (w - a / 8 + d / 8)) z.full
    poison := (m.poison.filter fun w => inside (8 * w)).foldl (fun t w => setInsert t (w - a / 8 + d / 8)) z.poison }

/-- A position after a move of b to d. -/
def Pos.moved (p : Pos) (b d : Nat) : Pos := if p.b = b && p.k != 15 then { p with b := d } else p

/-- A bound stream starts again at its position. -/
def Stream.rebound (x : Stream) : Stream := x.rebindAt x.pos (x.fifo.filter x.ready).length

/-- A user context of b as it arrives at d: it has fenced at .bs and issues nothing before its logged accesses are complete (R182), its monitors are registered again with TRIG set
(R304), and its streams start again at their positions. -/
def Ctx.arrive (c : Ctx) (b d now : Nat) : Ctx :=
  let st := c.sr.get 0 0x080
  if c.run = .empty then c
  else
    let x := c.goOn now
    { x with
      relTag := some 3, fenceAt := x.seq + 1, older := [], held := none, triedAt := 0
      sr := if field st 7 4 = 0 then x.sr else x.sr.put 0x080 (setField st 3 0 (field st 3 0 ||| field st 7 4))
      mons := x.mons.update fun _ l => if isLocal (64 * l) then l - lineOf (lsAddr b 0 0) + lineOf (lsAddr d 0 0) else l
      streams := x.streams.update fun _ y => y.rebound }

/-- How often outstanding work of a context has raised counter m of its rill (R178). -/
def State.raisedBy (s : State) (p : Pos) (m : Nat) : Nat :=
  let c := s.ctx p
  let mine (r k cc : Nat) : Bool := r == p.r && k == p.k && cc == m
  ((s.braid p.b).copies.filter fun q => mine q.rill q.ctx q.cc).length
    + ((s.braid p.b).mx.filter fun q => mine q.rill q.ctx q.cc).length
    + (c.streams.filter fun e => e.2.cc == m).length
    + (c.flights.filter fun a => a.cc == some m).length
    + ((s.rills.flatMap fun e => e.2.dqWait).filter fun w => w.cc == some (p, m)).length

/-- Counter m of rill r at d after the move of b: its users' part is that of b; what context 15 has outstanding stays. -/
def State.movedCc (s : State) (b d r m : Nat) : Nat :=
  (s.rill b r).cc.get 0 m - s.raisedBy ⟨b, r, 15⟩ m + s.raisedBy ⟨d, r, 15⟩ m

def ccTable (f : Nat → Nat) : Table Nat := (List.range 8).foldl (fun t m => if f m = 0 then t else t.put m (f m)) []

/-- The places of the spilled entries of a deque, oldest first. -/
def State.spillPlaces (s : State) (b r : Nat) : List Nat := (List.range (s.rill b r).spilled).map (s.spillPlace b r)

/-- Every entry of a deque, oldest first. -/
def State.allTasks (s : State) (b r : Nat) : List TaskRec :=
  ((List.range (s.rill b r).spilled).map fun i => s.loadTask b r (s.spillPlace b r i) (4 * i)) ++ (s.rill b r).deque

/-- A task is pushed where there is room; else it waits for room as an update of RUPD.ADDZ does. -/
def State.pushOrWait (b r : Nat) (s : State) (t : TaskRec) : State :=
  if (s.rill b r).tasks < 16 + s.dqCap b r then s.push b r t
  else s.modRill b r fun x => { x with dqWait := x.dqWait ++ [{ task := t, since := s.cycle }] }

/-- The state of logical rill r goes from b to d. Tasks pushed on d since the check of R423 stay, at the bottom of what
arrives; their order is the model's choice (log entry 136). A context that CSTART has started on D since then goes on, where
S has none of its index: the model's choice (log entry 153). -/
def State.moveRill (b d : Nat) (s : State) (r : Nat) : State :=
  let x := s.rill b r
  let y := s.rill d r
  let (lo, hi) := s.dispatchRange b r
  let (lo2, hi2) := s.spillArea b r
  let mem := (s.mem.copyRange (lsAddr b r lo) (lsAddr d r lo) (hi - lo)).copyRange (lsAddr b r lo2) (lsAddr d r lo2) (hi2 - lo2)
  let sr := (((y.sr.put 0x126 (s.rillSr b r 0x126)).put 0x125 (s.rillSr b r 0x125)).put 0x121
    (s.rillSr b r 0x121))
  let y1 : Rill := { y with
    m := x.m, cc := ccTable (s.movedCc b d r), deque := x.deque, spilled := x.spilled, spillHead := x.spillHead
    dqFrames := x.dqFrames, sr := sr
    replay := x.replay.update fun _ e => { e with pos := e.pos.moved b d, woken := false }
    dqWait := y.dqWait ++ x.dqWait.map fun w => { w with src := w.src.map fun q => (q.1.moved b d, q.2) } }
  let x1 : Rill := { x with
    m := [], mReserved := [], cc := ccTable (s.raisedBy ⟨b, r, 15⟩), deque := [], spilled := 0, spillHead := 0, dqFrames := [], replay := []
    dqWait := [], events := x.events.filter (fun e => field e.xstat 3 0 == 15)
    later := x.later.filter fun e => field e.xstat 3 0 == 15 }
  let s1 := (({ (s.loadedTasks d r (s.spillPlaces d r)) with mem := mem } : State).setRill b r x1).setRill d r y1
  let s2 := (s.allTasks d r).foldl (State.pushOrWait d r) s1
  (List.range 15).foldl (fun t k =>
    if (t.ctx ⟨b, r, k⟩).run = .empty then t.modCtx ⟨d, r, k⟩ fun c => c.goOn t.cycle
    else (t.setCtx ⟨d, r, k⟩ ((t.ctx ⟨b, r, k⟩).arrive b d t.cycle)).setCtx ⟨b, r, k⟩ {}) s2

/-- Every chain of a rill, of those whose entries f selects, makes a wake record. -/
def State.wakeChains (s : State) (b r : Nat) (f : REntry → Bool := fun _ => true) : State :=
  ((s.rill b r).replay.filter fun e => f e.2).foldl (fun t f => match (t.rill b r).chain f.2 with
    | some _ => (t.modRill b r fun x => { x with replay := x.replay.put f.1 { f.2 with woken := true } }).wake f.1 f.2
    | none => t) s

/-- A context that arrives stopped makes its record. -/
def State.stopRecord (s : State) (p : Pos) : State :=
  if (s.ctx p).run = .stopped then
    s.post p.b p.r { cls := 1, cause := field (s.srAt p 0x011) 7 0, val := s.srAt p 0x012
                     xstat := setField (s.srAt p 0x013) 31 28 1, rank := p.k }
  else s

/-- The commands of users of b join the queues of d, where each takes a free entry. -/
def Braid.takeMx (y : Braid) (qs : List MxCmd) : Braid :=
  qs.foldl (fun z q => { z with mx := z.mx ++ [{ q with entry := (z.mxEntry q.rill).getD q.entry }] }) y

/-- The queues of d have entries for the commands of users of b. -/
def State.mxRoom (s : State) (b d : Nat) : Bool :=
  (List.range 8).all fun r =>
    decide (((s.braid d).mxQueue r).length + (((s.braid b).mxQueue r).filter fun q => q.ctx != 15).length ≤ 16)

/-- The state of braid b goes to d; the commands of their contexts 15 stay. -/
def State.moveBody (s : State) (b d : Nat) : State :=
  let x := s.braid b
  (s.modBraid d fun y => { (y.takeMx (x.mx.filter fun q => q.ctx != 15)) with
    groups := x.groups, barriers := x.barriers, slots := x.slots, tiles := x.tiles
    credits := x.credits, cohorts := x.cohorts, moving := false, movedTo := none }).modBraid b fun y => { y with
      groups := [], barriers := [], slots := [], tiles := [], mx := y.mx.filter fun q => q.ctx == 15, credits := []
      cohorts := [], moving := false, movedTo := some d
      l1 := y.l1.update fun _ l => { l with writable := false, dirty := false } }

/-- What names threads of b from elsewhere names them at d: their release tags (R182), their place in the queue of the weir
token (R23), pushes that raise their counters, forwarded pushes (R413). -/
def State.moveNames (s : State) (b d : Nat) : State :=
  let n := s.basinOf b
  let at' (p : Pos) : Pos := p.moved b d
  let s1 : State := { s with
    mem := { s.mem with tags := s.mem.tags.update fun _ t =>
      if t.now / 8 = b && t.ctx != 15 then { t with now := 8 * d + t.now % 8 } else t }
    triggers := s.triggers.filter fun t => !(t.1.b == b && t.1.k != 15)
    rills := s.rills.update fun _ y => { y with dqWait := y.dqWait.map fun w => { w with cc := w.cc.map fun q => (at' q.1, q.2) } }
    braids := s.braids.update fun i y => if i != b && y.movedTo == some b then { y with movedTo := if i = d then none else some d } else y }
  s1.modBasin n fun y => { y with token :=
    { holder := y.token.holder.map at', pending := y.token.pending.map fun e => (e.1, at' e.2) } }

/-- The move of a drained braid. -/
def State.moveBraid (s : State) (b d : Nat) : State :=
  let s1 := (List.range 8).foldl (State.moveRill b d) s
  let s2 := ((s1.moveBody b d).moveNames b d).cacheMode d (s.braid b).shared
  let s3 := (List.range 8).foldl (fun t r => t.wakeChains d r) s2
  (userPositions d).foldl (fun t p => t.stopRecord p) s3

def execCmigChk (a sx : BitVec 5) (s : State) : Res :=
  outsideTx s 0x3D <| supervisorOnly s <| withControl s a fun v => wrote s sx (w64 (s.migStatus v).1) false

/-- CMIG: one that names a braid of a running CMIG waits for it and is checked afresh. -/
def execCmig (a sx : BitVec 5) (s : State) : Res :=
  outsideTx s 0x3D <| supervisorOnly s <| withControl s a fun v =>
    let (st, b, d) := s.migStatus v
    let named := [s.braidAt (s.basinOf s.cur.b) (field v 8 0), s.braidAt (s.basinOf s.cur.b) (field v 24 16)]
    if named.any fun x => x.any fun y => (s.braid y).moving then parked s .drain
    else if st != 0 then wrote s sx (w64 st) false
    else .next (((s.startMove b d).modMe fun c => { c with wait := some (.cmig (c.dest sx) b d) }).advance)

/-- A wait of context 15 that ends by itself: TLBINV, BRACK on a leaving rill, CMIG. -/
def State.endWait (s : State) (p : Pos) : State :=
  let done (t : State) (d : Dest) : State := t.modCtx p fun c => { (c.setCellAt d {}) with wait := none }
  match (s.ctx p).wait with
  | some (.shootdown ids) => if s.drained ids then s.modCtx p fun c => { c with wait := none } else s
  | some (.brack d code) => if s.brackOver p.b p.r code then done (s.recordAck p.b p.r code) d else s
  | some (.cmig d x y) => if s.braidDrained x && s.mxRoom x y then done (s.moveBraid x y) d else s
  | _ => s

/-! ### Joining and leaving (R409, R411) -/

/-- The lowest basin braid index that no braid of the basin holds (R20). -/
def State.freeIndex (s : State) (n : Nat) : Nat :=
  ((List.range 512).find? fun i => (s.braidAt n i).isNone).getD 0

/-- R81: the first rill cycle in its own slot at which a context that is started in cycle t can issue. -/
def firstSlot (k t : Nat) : Nat := t + 4 + (k + 16 - (t + 4) % 16) % 16

/-- Context 15 of a rill starts with the supervisor configuration. -/
def State.startSupervisor (s : State) (n b r : Nat) : State :=
  let x := s.basin n
  let p : Pos := ⟨b, r, 15⟩
  let sr : Table Word := [(0x022, srStart 0x022 15 (s.tid p)), (0x030, srMerge 0x030 0 x.wsp), (0x031, srMerge 0x031 0 x.wsbase),
    (0x032, srMerge 0x032 0 x.wslimit), (0x098, srMerge 0x098 0 x.lsbase), (0x0A0, srMerge 0x0A0 0 x.aspace)]
  (s.setRillSr b r 0x124 (srMerge 0x124 0 (x.lsdisp.getD r 0))).setCtx p
    { run := .running, pc := pcBits x.entry, startAt := firstSlot 15 s.cycle, lastIssue := s.cycle, seq := (s.ctx p).seq, sr := sr }

/-- A braid becomes OWNED. -/
def State.joinBraid (s : State) (n b : Nat) (joining : Bool) : State :=
  let i := s.freeIndex n
  let s1 := s.modBraid b fun x => { x with
    gran := { x.gran with state := .owned, basin := n, joining := joining }, index := i, movedTo := none }
  (List.range 8).foldl (fun t r => t.startSupervisor n b r) s1

/-- A granule becomes OWNED. -/
def State.joinGranule (s : State) (n : Nat) (joining : Bool) (g : Nat × Nat) : State :=
  if g.1 = 0 then s.joinBraid n g.2 joining
  else s.modGran g.1 g.2 fun x => { x with state := .owned, basin := n, joining := joining }

/-- Granules of a request, braids in ascending number first. -/
def granuleOrder (gs : List (Nat × Nat)) : List (Nat × Nat) :=
  (List.range 5).flatMap fun k => ((gs.filter fun g => g.1 == k).foldl (fun l g => setInsert l g.2) []).map fun n => (k, n)

/-- The plan of a resize as it stands when it is announced: granules to add that are FREE, granules to remove that the basin
owns, destinations that stay (Headwater rechecks each change, R433). Where no slice would be left, none is removed. -/
def State.recheck (s : State) (n : Nat) (z : Resize) : Resize :=
  let held (g : Nat × Nat) : Bool := (s.gran g.1 g.2).state == .owned && (s.gran g.1 g.2).basin == n
  let add := z.add.filter fun g => (s.gran g.1 g.2).state == .free
  let out := z.remove.filter held
  let bare := ((s.basin n).slices.all fun x => out.contains (1, x)) && !(add.any fun g => g.1 == 1)
  let remove := if bare then out.filter fun g => g.1 != 1 else out
  let stays (d : Nat) : Bool := (held (0, d) && !remove.contains (0, d)) || add.contains (0, d)
  { z with add := add, remove := remove, dest := z.dest.filter fun e => remove.contains (0, e.1) && stays e.2 }

/-- A granule starts to leave. A braid without a spare that a resize removes is retired (R427). -/
def State.leave (s : State) (g : Nat × Nat) : State :=
  let spareless := g.1 == 0 && (s.braid g.2).spare.isNone
  s.modGran g.1 g.2 fun x => { x with state := .leaving, retiring := x.retiring || spareless }

/-- Announce: granules join, then leave. -/
def State.announce (s : State) (n : Nat) (z : Resize) : State :=
  let s1 := (granuleOrder z.add).foldl (fun t g => t.joinGranule n true g) s
  let s2 := z.remove.foldl (fun t g => t.leave g) s1
  { s2 with braids := s2.braids.update fun _ x =>
      if x.gran.basin == n && x.gran.state == .leaving then { x with reserved := none } else x }

/-! ### Phases (R411 to R414) -/

/-- The slice list after the resize: removed slices leave, added ones follow in ascending order. -/
def Resize.slices (z : Resize) (old : List Nat) : List Nat :=
  (old.filter fun x => !z.remove.contains (1, x)) ++ (((granuleOrder z.add).filter fun g => g.1 == 1).map Prod.snd)

/-- A phase has work. -/
def Resize.works (z : Resize) (phase : Nat) : Bool :=
  match phase with
  | 2 => (z.remove.any fun g => g.1 == 0) || z.retire.isSome
  | 3 => z.remove.any (fun g => g.1 == 1) || z.add.any fun g => g.1 == 1
  | 4 => z.remove.any fun g => g.1 == 2
  | 5 => !z.remove.isEmpty
  | _ => true

/-- The phase that follows. -/
def Resize.nextPhase (z : Resize) : Nat := ((List.range 7).find? fun p => decide (z.phase < p) && z.works p).getD 7

/-- The rills notified of a phase. -/
def State.notifiedRills (s : State) (n : Nat) (phase : Nat) : List Nat :=
  ((s.granulesOf n 0).filter fun b =>
    (s.braid b).gran.state == .owned || (phase < 5 && (s.braid b).gran.state == .leaving)).flatMap fun b =>
      (List.range 8).map fun r => rillKey b r

/-- The resize word of a rill, without DEADLINE. -/
def State.noticeWord (s : State) (z : Resize) (b r : Nat) : Word :=
  let f (c : Bool) (n : Nat) : Nat := if c then 2 ^ n else 0
  let g := (s.braid b).gran
  w64 (z.seq + z.phase * 2 ^ 16 + f (z.phase == 6 && z.forced) 19 + f (g.state == .leaving) 20 + f g.joining 21
    + f (z.retire == some (b, r)) 22)

def State.notify (s : State) (z : Resize) (key : Nat) : State :=
  s.post (key / 8) (key % 8)
    { cls := 0, cause := 0x21, val := s.noticeWord z (key / 8) (key % 8), xstat := xstat 6 0 0 0 0 15 false, rank := 0 }

def State.setResize (s : State) (n : Nat) (z : Option Resize) : State := s.modBasin n fun x => { x with resize := z }

/-- The hardware work at the start of a phase. -/
def State.phaseWork (s : State) (n : Nat) (z : Resize) : State :=
  match z.phase with
  | 1 => s.announce n z
  | 3 => s.modBasin n fun x => { x with nextSlices := some (z.slices x.slices), handed := [] }
  | 5 => z.remove.foldl (fun t g => t.modGran g.1 g.2 fun x => { x with state := .scrubbing }) s
  | _ => s

/-- A phase starts: its work, then its notices. -/
def State.startPhase (s : State) (n : Nat) (z0 : Resize) : State :=
  let z := if z0.phase = 1 then s.recheck n z0 else z0
  let s1 := s.phaseWork n z
  let ns := s1.notifiedRills n z.phase
  let z1 := { z with began := true, since := s.cycle, notified := ns, acked := [], late := false, worked := false, moves := []
                     forcing := [] }
  ns.foldl (fun t key => t.notify z1 key) (s1.setResize n (some z1))

/-- RESIZE_PHASE_START: the next request starts when no resize runs. -/
def execResizePhaseStart (bs : Nat) (s : State) : Res :=
  let x := s.basin bs
  if x.contained || !x.alive then .next s
  else match x.resize with
    | some z => if z.began then .next s else .next (s.startPhase bs z)
    | none => match x.waiting with
      | [] => .next s
      | z :: t =>
        .next ((s.modBasin bs fun y => { y with waiting := t, rseq := z.seq }).startPhase bs { z with phase := 1 })

/-- A lock or a fan-out holds a line whose home in a basin changes: one of its device memory, or a line of the host that the
basin's caching slice holds for the sharers of the fan-out. -/
def State.linesHeld (s : State) (n : Nat) (next : List Nat) : Bool :=
  let moves (line : Nat) : Bool := homeOf (s.basin n).slices (64 * line) != homeOf next (64 * line)
  (s.locks.any fun e => moves e.1 && s.owns n (64 * e.1))
    || s.fanouts.any fun f => moves f.line
      && if isHost (64 * f.line) then f.sharers.any fun b => s.basinOf b == n else s.owns n (64 * f.line)

/-- The hardware work of a phase has ended. -/
def State.phaseWorked (s : State) (n : Nat) (z : Resize) : Bool :=
  match z.phase with
  | 2 => z.moves.isEmpty && z.forcing.isEmpty && (z.retire.isNone || z.worked)
  | 3 => match (s.basin n).nextSlices with
    | some next => !s.linesHeld n next
    | none => true
  | 5 => !(z.remove.any fun g => (s.gran g.1 g.2).state == .scrubbing)
  | _ => true

/-- Stopped engine work of a braid's user contexts is cancelled. -/
def State.cancelStopped (s : State) (b : Nat) : State :=
  let s1 := (userPositions b).foldl (fun t p =>
    if (t.ctx p).streams.isEmpty then t
    else
      let gone := (t.ctx p).streams.flatMap fun e => if e.2.flt then e.2.fifo.map fun w => w.id else []
      (gone.foldl (fun z i => z.dropGate i) t).modCtx p fun c =>
        { c with streams := c.streams.update fun _ x => if x.flt then x.resolve 1 else x }) s
  let stopped := (s1.braid b).copies.filter fun q => q.phase == 2 && q.ctx != 15
  let s2 := (stopped.foldl (fun z q => z.dropGate q.id) s1).modBraid b fun x => { x with copies := x.copies.map fun q =>
    if q.phase == 2 && q.ctx != 15 then { q with phase := 3, cancelled := true } else q }
  ((s2.braid b).mx.filter fun q => q.phase == 2 && q.ctx != 15).foldl (fun t q => t.cancelMx b q) s2

/-- A leaving braid still holds a user context or a deque entry. -/
def State.stillUsed (s : State) (b : Nat) : Bool := !((List.range 8).all fun r => s.rillEmpty b r)

/-- Where the forced move of a braid goes: its planned destination, or the lowest staying braid that can take it. -/
def State.forcedDest (s : State) (n b : Nat) (z : Resize) : Option Nat :=
  let ok (d : Nat) : Bool := (s.braid d).gran.ownedBy n && (s.braid d).gran.state == .owned && s.moveStatus b d == 0
  match z.dest.find b with
  | some d => if ok d then some d else (s.braidsAscending n).find? ok
  | none => (s.braidsAscending n).find? ok

/-- A CMIG runs that names a braid, or its planned destination: the forced CMIG waits for its end (R423). -/
def State.moveRuns (s : State) (b : Nat) (z : Resize) : Bool :=
  (s.braid b).moving || (z.dest.find b).any fun d => (s.braid d).moving

/-- One leaving braid in a forced Migrate. -/
def State.forceBraid (n : Nat) (sz : State × Resize) (b : Nat) : State × Resize :=
  let (s, z) := sz
  if !s.stillUsed b then (s, z)
  else if s.moveRuns b z then (s, { z with forcing := z.forcing ++ [b] })
  else
    let s1 := s.cancelStopped b
    match s1.forcedDest n b z with
    | some d =>
      if (s1.braid d).moving then (s1, { z with forcing := z.forcing ++ [b] })
      else (s1.startMove b d, { z with moves := z.moves ++ [(b, d)] })
    | none =>
      (s1.modGran 0 b fun x => { x with state := .owned, retiring := false }, { z with remove := z.remove.filter fun g => g != (0, b) })

/-- The moves of Headwater whose braids have drained are made; those that waited for a CMIG start. -/
def State.makeMoves (s0 : State) (n : Nat) (z0 : Resize) : State × Resize :=
  let (s, z) := z0.forcing.foldl (State.forceBraid n) (s0, { z0 with forcing := [] })
  let (go, rest) := z.moves.partition fun m => s.braidDrained m.1 && s.mxRoom m.1 m.2
  let z1 := { z with moves := rest }
  ((go.foldl (fun t m => t.moveBraid m.1 m.2) s).setResize n (some z1), z1)

/-- R416: generation g retires when every sweep has ended, whatever the phase still waits for. -/
def State.retireGen (s : State) (n : Nat) (z : Resize) : State :=
  match z.phase, (s.basin n).nextSlices with
  | 3, some next =>
    if s.linesHeld n next then s
    else s.modBasin n fun x => { x with slices := next, gen := (x.gen + 1) % 65536, nextSlices := none, handed := [] }
  | _, _ => s

/-- The end of a phase, at which the next one starts, or the resize ends. -/
def State.endPhase (s1 : State) (n : Nat) (z : Resize) : State :=
  if z.phase = 6 then
    let s2 := s1.granules.foldl (fun t g =>
      if (t.gran g.1 g.2).ownedBy n then t.modGran g.1 g.2 fun x => { x with joining := false } else t) s1
    let s3 := { s2 with braids := s2.braids.update fun _ x => if x.gran.basin == n then { x with movedTo := none } else x }
    s3.modBasin n fun x => { x with resize := none, lastForced := z.forced }
  else s1.startPhase n { z with phase := z.nextPhase }

/-- RESIZE_PHASE_END: moves that have drained are made; the phase ends once its work and the acknowledgements are
there, or are no longer awaited. -/
def execResizePhaseEnd (bs : Nat) (s : State) : Res :=
  match (s.basin bs).resize with
  | none => .next s
  | some z0 =>
    if !z0.began || (s.basin bs).contained then .next s
    else
      let (s0, z) := s.makeMoves bs z0
      let s1 := s0.retireGen bs z
      if s1.phaseWorked bs z && (z.late || z.notified.all fun r => z.acked.contains r) then .next (s1.endPhase bs z)
      else .next s1

/-! ### Forced phases (R414) -/

/-- PHASE_DEADLINE: missing acknowledgements are no longer awaited. -/
def execPhaseDeadline (bs : Nat) (s : State) : Res :=
  match (s.basin bs).resize with
  | none => .next s
  | some z =>
    if !z.began || z.late || s.cycle < z.since + z.deadline * Config.usCycles then .next s
    else
      let z1 := { z with late := true, forced := true }
      let (s2, z2) := if z.phase = 2 then
          (z.remove.filter fun g => g.1 == 0).foldl (fun sz g => State.forceBraid bs sz g.2) (s, z1)
        else (s, z1)
      .next (s2.setResize bs (some z2))

/-! ### Rehash (R415, R416) -/

/-- A line with two different homes that is not handed over. -/
def State.toHand (s : State) (n line : Nat) : Bool :=
  let x := s.basin n
  match x.nextSlices with
  | some next => homeOf x.slices (64 * line) != homeOf next (64 * line) && !x.handed.contains line
  | none => false

def State.hand (s : State) (n line : Nat) : State := s.modBasin n fun x => { x with handed := setInsert x.handed line }

/-- REHASH_HANDOVER: not while the line is locked or its fan-out is in progress. -/
def execRehashHandover (bs line : Nat) (s : State) : Res :=
  if s.toHand bs line && (s.locks.find line).isNone && !(s.fanouts.any fun f => f.line == line) then .next (s.hand bs line)
  else .next s

/-- REHASH_FIRST_TOUCH: the old home holds no copy and no directory entry. -/
def execRehashFirstTouch (bs line : Nat) (s : State) : Res :=
  let held := (s.locks.find line).isSome || (s.fanouts.any fun f => f.line == line)
    || s.braids.any fun e => (e.2.l1.find line).isSome
  if s.toHand bs line && !held then .next (s.hand bs line) else .next s

/-! ### Scrub (R408, R418, R428) -/

/-- A scrubbed braid: everything at its reset value but the table of its rills and the errors that Headwater counts for them
(R429). -/
def State.scrubBraid (s : State) (b : Nat) : State :=
  let mine (p : Pos) : Bool := p.b == b
  { s with
    mem := s.mem.clearRange (lsAddr b 0 0) (8 * 2 ^ 18)
    ctxs := s.ctxs.filter fun e => e.1 / 128 != b
    rills := Table.update (s.rills.filter fun e => e.1 / 8 != b || !e.2.corrected.isEmpty) fun k x =>
      if k / 8 = b then { corrected := x.corrected } else x
    braids := s.braids.put b { l2p := (s.braid b).l2p, spare := (s.braid b).spare, gran := (s.braid b).gran, cut := (s.braid b).cut, owed := (s.braid b).owed }
    requests := s.requests.filter fun q => !mine q.1
    packets := s.packets.update fun _ ps => ps.filter fun q => !mine q.pos
    fanouts := s.fanouts.filter fun f => !mine f.pos
    locks := s.locks.filter fun e => !mine e.2.pos
    ats := s.ats.filter fun q => !mine q.pos
    misses := s.misses.filter fun m => m.1 / 8 != b
    triggers := s.triggers.filter fun t => !mine t.1 }

/-- Accesses in flight to pseudo-channel n that f selects by their thread. -/
def State.onChannel (s : State) (n : Nat) (f : Pos → Bool) : List (Pos × Access) :=
  s.ctxs.flatMap fun e =>
    let p : Pos := ⟨e.1 / 128, e.1 / 16 % 8, e.1 % 16⟩
    (e.2.flights.filter fun a => f p && a.pa / 2 ^ 31 == n).map fun a => (p, a)

/-- Nothing that cannot be logged is under way on a pseudo-channel: no commit or fan-out, no access of a context 15; and the
replay queues have room for the others. -/
def State.channelQuiet (s : State) (n : Nat) : Bool :=
  let mine (line : Nat) : Bool := line / 2 ^ 25 == n
  !(s.fanouts.any fun f => mine f.line) && !(s.locks.any fun e => mine e.1)
    && !(s.requests.any fun q => decide (512 ≤ q.1.b) && mine (lineOf q.2.pa))
    && (s.onChannel n fun p => p.k == 15).isEmpty
    && (s.onChannel n fun p => p.k != 15).all fun q =>
      decide (((s.onChannel n fun p => p.k != 15).filter fun x => x.1.b == q.1.b && x.1.r == q.1.r).length
        ≤ (s.rill q.1.b q.1.r).replayRoom)

/-- A transaction has logged a word of a pseudo-channel. -/
def Tx.onChannel (t : Tx) (n : Nat) : Bool := (t.reads ++ t.writes ++ t.spilled).any fun e => e.word / 2 ^ 28 == n

/-- Accesses that were translated and not yet performed when a pseudo-channel has been scrubbed fault BASIN-BOUNDARY
(R417): those of a transaction abort it, the others are logged. -/
def State.faultChannel (s : State) (n : Nat) : State :=
  let s1 := (s.onChannel n fun p => p.k != 15).foldl (fun t q => t.logLate q.1 q.2 0x0B (t.pendingLine q.1 q.2.va)) s
  s1.ctxs.foldl (fun t e =>
    let p : Pos := ⟨e.1 / 128, e.1 / 16 % 8, e.1 % 16⟩
    if e.2.tx.any fun x => x.onChannel n then
      let s2 := ((t.txAbortAt p 5 0x0B none).modCtx p fun c => { c with left := some 0x15 }).leaveGroup p
      if (s2.ctx p).run = .stopped then s2.setSr p 0x010 (s2.ctx p).pc else s2
    else t) s1

/-- Every word of a pseudo-channel is cleared, which triggers the monitors of its lines; cached lines of its range, host
copies and copies of other packages are discarded, its window is closed. -/
def State.scrubChannel (s0 : State) (n : Nat) : State :=
  let s := s0.faultChannel n
  let mine (line : Nat) : Bool := line / 2 ^ 25 == n
  { s with mem := s.mem.clearRange (n * 2 ^ 31) (2 ^ 31)
           braids := s.braids.update fun _ x => { x with l1 := x.l1.filter fun e => !mine e.1 }
           rills := s.rills.update fun _ x =>
             { x with icache := x.icache.filter (fun e => !mine e.1), versions := x.versions.filter fun e => !mine e.1 }
           ctxs := s.ctxs.update fun _ c =>
             let hit := (c.mons.filter fun m => mine m.2).map Prod.fst
             if hit.isEmpty then c
             else
               let st := c.sr.get 0 0x080
               { c with mons := c.mons.filter fun m => !mine m.2
                        sr := c.sr.put 0x080 (hit.foldl (fun v k => setField v k k 1) st) }
           triggers := s.triggers.filter fun t => !((s.ctx t.1).mons.find t.2).any mine
           hostCopies := s.hostCopies.filter fun l => !mine l
           remote := s.remote.filter fun r => !mine r.2.1
           windows := setErase s.windows n }

/-- No request of a VF's basin to the host is outstanding. -/
def State.hostQuiet (s : State) (n : Nat) : Bool :=
  !(s.ats.any fun q => q.phase != 3 && s.atsBasin q == n)
    && !(s.ctxs.any fun e => s.basinOf (e.1 / 128) == n && e.2.flights.any fun a => isHost a.pa)

/-- A scrubbed VF: its BAR, its rings and bindings, and the translations that its basin has from the host. -/
def State.scrubVf (s : State) (v : Nat) : State :=
  let g := s.gran 4 v
  let keep (t : List TlbEntry) : List TlbEntry := t.filter fun e => !(e.basin == g.basin && bit e.leaf 9)
  ({ s with vfs := s.vfs.put v { gran := g }
            ats := s.ats.filter fun q => s.atsBasin q != g.basin
            rills := s.rills.update fun _ x => { x with tlb := keep x.tlb }
            braids := s.braids.update fun _ x => { x with tlb := keep x.tlb } } : State).modBasin g.basin fun y =>
    { y with hmsg := if y.hmsg.any fun r => r.vf == v then none else y.hmsg
             queues := y.queues.update fun _ q => if q.vf = v then { q with vf := 0 } else q }

/-- The logical rill is mapped to the spare, which is gone; the physical rill is recorded. -/
def State.remap (s : State) (b r : Nat) : State :=
  let x := s.braid b
  match x.spare with
  | none => s
  | some n =>
    ({ s with spareRills := s.spareRills ++ [(b, x.l2p.get r r)] } : State).setBraid b
      { x with l2p := x.l2p.put r n, spare := none } |>.hostEvent

/-- A resize that Headwater itself runs, to retire a rill, or a granule that leaves for good. The manual states no
deadline for its phases, which is drawn freely from the range of R414. -/
def State.queueRetire (s : State) (n : Nat) (retire : Option (Nat × Nat)) (remove : List (Nat × Nat)) : State × Nat :=
  let x := s.basin n
  let last := match x.waiting.getLast? with
    | some z => z.seq
    | none => x.rseq
  let seq := (last + 1) % 65536
  let z : Resize := { add := [], remove := remove, deadline := 100 + (Config.freeWord s.free).toNat % 999901, seq := seq, retire := retire }
  (({ s with free := s.free + 1 } : State).modBasin n fun y => { y with waiting := y.waiting ++ [z] }, seq)

/-- R429: a rill is to be retired. Where no basin holds its braid it is remapped at once; else the owning basin runs the
resize, and where a basin runs none any more, the braid keeps it until it is free. -/
def State.askRetire (b : Nat) (s : State) (r : Nat) : State :=
  let g := (s.braid b).gran
  match g.state with
  | .retired => s
  | .free => s.remap b r
  | _ => if (s.basin g.basin).contained || !(s.basin g.basin).alive then
      s.modBraid b fun x => { x with owed := setInsert x.owed r }
    else (s.queueRetire g.basin (some (b, r)) []).1

/-- The retirements that a braid has kept are asked for again. -/
def State.settleOwed (s : State) (b : Nat) : State :=
  (s.braid b).owed.foldl (State.askRetire b) (s.modBraid b fun x => { x with owed := [] })

/-- The granule is FREE, or RETIRED and recorded in the spare table; a free braid's rills that are to be retired are (R429). -/
def State.releaseGranule (s : State) (kind n : Nat) : State :=
  let g := s.gran kind n
  let s1 := s.modGran kind n fun _ => { state := if g.retiring then .retired else .free }
  let s2 := if kind = 0 then s1.settleOwed n else s1
  if g.retiring then ({ s2 with spareGranules := s2.spareGranules ++ [(kind, n)] } : State).hostEvent else s2

/-- A basin has no granule left. -/
def State.vacant (s : State) (n : Nat) : Bool := (List.range 5).all fun k => (s.granulesOf n k).isEmpty

/-- A destroyed basin whose last granule is gone frees its number, and the BASIN-DESTROY that waits for it is done (R433). R428
does not say whether the ZCL grants to its number end: that they stay is the model's choice (log entry 164). -/
def State.freeNumber (s : State) (n : Nat) : State :=
  if !(s.basin n).alive && s.vacant n then
    { s.setBasin n {} with calls := s.calls.map fun c =>
        if c.service == 2 && c.phase == 1 && c.target == n then { c with phase := 2, status := 0 } else c }
  else s

/-- What the scrub of a granule waits for. -/
def State.scrubReady (s : State) (kind n : Nat) : Bool :=
  match kind with
  | 2 => s.channelQuiet n
  | 4 => s.hostQuiet (s.gran 4 n).basin
  | _ => true

/-- The bytes that the scrub of a granule clears: the local stores of a braid, a pseudo-channel. -/
def scrubRange (kind n : Nat) : Nat × Nat :=
  match kind with
  | 0 => (lsAddr n 0 0, 8 * 2 ^ 18)
  | 2 => (n * 2 ^ 31, 2 ^ 31)
  | _ => (0, 0)

/-- A scrub in progress has cleared some words, drawn freely, so that accesses meanwhile have either outcome of R408. -/
def State.sweep (s : State) (kind n : Nat) : State :=
  ({ s with mem := s.mem.clearRange (scrubRange kind n).1 (scrubRange kind n).2 (Config.sweptWord s.free)
            free := s.free + 1 } : State).modGran kind n fun x => { x with sweeps := x.sweeps + 1 }

/-- A scrub clears words in up to three passes before its end, as is drawn freely; only memory has words. -/
def State.sweepsOn (s : State) (kind n : Nat) : Bool :=
  (kind == 0 || kind == 2) && decide ((s.gran kind n).sweeps < 3) && bit (Config.freeWord s.free) 0

/-- SCRUB_COMPLETE. A granule in transit stays with a contained basin until that is destroyed (R428). -/
def execScrubComplete (kind n : Nat) (s : State) : Res :=
  let g := s.gran kind n
  if g.state != .scrubbing || 4 < kind || ((s.basin g.basin).contained && (s.basin g.basin).alive) then .next s
  else if s.sweepsOn kind n then .next (({ s with free := s.free + 1 } : State).sweep kind n)
  else if !s.scrubReady kind n then .next s
  else
    let s1 := match kind with
      | 0 => s.scrubBraid n
      | 2 => s.scrubChannel n
      | 3 => { s with cores := s.cores.put n { gran := g } }
      | 4 => s.scrubVf n
      | _ => s
    .next ((s1.releaseGranule kind n).freeNumber g.basin)

/-! ### Retirement of rills (R426, R429) -/

/-- The contexts of a rill. -/
def rillPositions (b r : Nat) : List Pos := (List.range 16).map fun k => (⟨b, r, k⟩ : Pos)

/-- The multiplier, divider, FP long unit, block unit and window engine of a rill are idle, and no commit runs. -/
def State.rillIdle (s : State) (b r : Nat) : Bool :=
  (s.rill b r).winOp.isNone && (rillPositions b r).all fun p =>
    (s.ctx p).longs.isEmpty && ((s.ctx p).block.isNone || (s.ctx p).run != .paused) && !((s.ctx p).tx.any fun t => t.commit != 0)
      && (s.ctx p).run != .stopping

/-- The basin whose resize retires a rill, with that resize. -/
def State.retiring (s : State) (b r : Nat) : Option (Nat × Resize) :=
  s.basins.findSome? fun e => match e.2.resize with
    | some z => if z.retire == some (b, r) then some (e.1, z) else none
    | none => none

/-- The contexts of a retired rill go on, on the spare; those that a running CMIG has stopped stay stopped (R425). -/
def State.goOnRill (s : State) (b r : Nat) : State :=
  (rillPositions b r).foldl (fun t p =>
    if (s.braid b).moving && p.k != 15 then t else t.modCtx p fun c => c.goOn t.cycle) s

/-- The L1 lines of a rill are written back: the words that Memory holds are the home's. -/
def State.writeBack (s : State) (b r : Nat) : State :=
  s.modBraid b fun x => { x with l1 := x.l1.update fun _ l =>
    if l.place == r || l.place == 8 + r then { l with writable := false, dirty := false } else l }

/-- RILL_RETIRE: in Migrate, the contexts stop; once the units of the rill are idle they go on, on the spare. A started MXROT
of the rill that waits for a partner is braid state, moves with nothing and is not cancelled, which is the model's choice
(log entry 137). Without a resize that retires the rill, a retirement that R429 still owes is made. -/
def execRillRetire (b r : Nat) (s : State) : Res :=
  match s.retiring b r with
  | none => .next (if (s.braid b).owed.contains r then s.settleOwed b else s)
  | some (n, z) =>
    if z.worked || !z.began || z.phase != 2 then .next s
    else if !(s.braid b).gran.ownedBy n then .next ((State.askRetire b s r).setResize n (some { z with worked := true }))
    else
      let s1 := (rillPositions b r).foldl (fun t p => t.pause p) s
      if !s1.rillIdle b r then .next s1
      else
        .next ((((s1.goOnRill b r).writeBack b r).remap b r).setResize n (some { z with worked := true }))

/-- CORRECTED_ERROR: more than 64 in a second retire the rill, once. -/
def execCorrectedError (b r : Nat) (s : State) : Res :=
  let x := s.rill b r
  let recent := (x.corrected.filter fun t => decide (s.cycle < t + 1000000 * Config.usCycles)) ++ [s.cycle]
  let g := (s.braid b).gran
  let owner := if g.state == .free || g.state == .retired then none else some g.basin
  let s1 := (s.setRill b r { x with corrected := recent }).logError owner 0 0 (s.physicalRill b r) 0
  let asked := (s.braid b).owed.contains r || match owner with
    | none => false
    | some n => ((s.basin n).resize.any fun z => z.retire == some (b, r)) || (s.basin n).waiting.any fun z => z.retire == some (b, r)
  if recent.length ≤ 64 || (s.braid b).spare.isNone || asked then .next s1 else .next (State.askRetire b s1 r)

end Sys2Proof.Machine
end

