-- ==== Sys2Proof/Decode.lean ====
section
/-! DEFINITION. Decoding and encoding of the instructions (R36, R39 to R47, R56 to R60, and the encoding
tables of the entries). A 32-bit instruction is the number W of R36: its first halfword is W[31:16]. -/

namespace Sys2Proof

/-- Why a word is no instruction of the part. -/
inductive Reject where
  /-- R57, R59: a major with no assignment; the rill traps ILLEGAL-INSTRUCTION. -/
  | unassigned
  /-- R47: a reserved bit or value; the rill traps RESERVED-FIELD. -/
  | reserved
  /-- Fewer bytes than the first halfword asks for. -/
  | short
  deriving DecidableEq, Repr

/-- The field of n bits at bit lo of a word. -/
def fld (w lo n : Nat) : Nat := w / 2 ^ lo % 2 ^ n

/-- The same field as a bit vector. -/
def bitsAt (w lo n : Nat) : BitVec n := BitVec.ofNat n (w / 2 ^ lo)

/-- Major 0x00 (R57). -/
def rawMaj00 (w : Nat) : Option Instr :=
  some (.illegal (bitsAt w 0 25))

/-- Major 0x3E (R57). -/
def rawMaj3E (w : Nat) : Option Instr :=
  some (.extensionSpace (bitsAt w 0 25))

/-- Major 0x01 (R122). -/
def rawMaj01 (w : Nat) : Option Instr :=
  if fld w 0 10 == 0x0 then some (.add (bitsAt w 20 5) (bitsAt w 15 5) (bitsAt w 10 5)) else
  if fld w 0 10 == 0x10 then some (.sub (bitsAt w 20 5) (bitsAt w 15 5) (bitsAt w 10 5)) else
  if fld w 0 10 == 0x20 then some (.and (bitsAt w 20 5) (bitsAt w 15 5) (bitsAt w 10 5)) else
  if fld w 0 10 == 0x30 then some (.or (bitsAt w 20 5) (bitsAt w 15 5) (bitsAt w 10 5)) else
  if fld w 0 10 == 0x40 then some (.xor (bitsAt w 20 5) (bitsAt w 15 5) (bitsAt w 10 5)) else
  if fld w 0 10 == 0x50 then some (.andn (bitsAt w 20 5) (bitsAt w 15 5) (bitsAt w 10 5)) else
  if fld w 0 10 == 0x60 then some (.orn (bitsAt w 20 5) (bitsAt w 15 5) (bitsAt w 10 5)) else
  if fld w 0 10 == 0x70 then some (.xnor (bitsAt w 20 5) (bitsAt w 15 5) (bitsAt w 10 5)) else
  if fld w 0 10 == 0x80 then some (.shl (bitsAt w 20 5) (bitsAt w 15 5) (bitsAt w 10 5)) else
  if fld w 0 10 == 0x90 then some (.shr (bitsAt w 20 5) (bitsAt w 15 5) (bitsAt w 10 5)) else
  if fld w 0 10 == 0xA0 then some (.sra (bitsAt w 20 5) (bitsAt w 15 5) (bitsAt w 10 5)) else
  if fld w 0 10 == 0xB0 then some (.ror (bitsAt w 20 5) (bitsAt w 15 5) (bitsAt w 10 5)) else
  if fld w 0 10 == 0xC0 then some (.min (bitsAt w 20 5) (bitsAt w 15 5) (bitsAt w 10 5)) else
  if fld w 0 10 == 0xD0 then some (.max (bitsAt w 20 5) (bitsAt w 15 5) (bitsAt w 10 5)) else
  if fld w 0 10 == 0xE0 then some (.minz (bitsAt w 20 5) (bitsAt w 15 5) (bitsAt w 10 5)) else
  if fld w 0 10 == 0xF0 then some (.maxz (bitsAt w 20 5) (bitsAt w 15 5) (bitsAt w 10 5)) else
  if fld w 0 10 == 0x100 then some (.adds (bitsAt w 20 5) (bitsAt w 15 5) (bitsAt w 10 5)) else
  if fld w 0 10 == 0x110 then some (.subs (bitsAt w 20 5) (bitsAt w 15 5) (bitsAt w 10 5)) else
  if fld w 0 10 == 0x120 then some (.addzs (bitsAt w 20 5) (bitsAt w 15 5) (bitsAt w 10 5)) else
  if fld w 0 10 == 0x130 then some (.subzs (bitsAt w 20 5) (bitsAt w 15 5) (bitsAt w 10 5)) else
  if fld w 2 8 == 0x50 then some (.shadd (bitsAt w 20 5) (bitsAt w 15 5) (bitsAt w 10 5) (bitsAt w 0 2)) else
  none

/-- Major 0x02 (R129). -/
def rawMaj02 (w : Nat) : Option Instr :=
  if fld w 4 6 == 0x0 then some (.mul (bitsAt w 20 5) (bitsAt w 15 5) (bitsAt w 10 5) (bitsAt w 0 4)) else
  if fld w 4 6 == 0x1 then some (.mulh (bitsAt w 20 5) (bitsAt w 15 5) (bitsAt w 10 5) (bitsAt w 0 4)) else
  if fld w 4 6 == 0x2 then some (.mulhz (bitsAt w 20 5) (bitsAt w 15 5) (bitsAt w 10 5) (bitsAt w 0 4)) else
  if fld w 4 6 == 0x3 then some (.mulhsz (bitsAt w 20 5) (bitsAt w 15 5) (bitsAt w 10 5) (bitsAt w 0 4)) else
  if fld w 4 6 == 0x4 then some (.div (bitsAt w 20 5) (bitsAt w 15 5) (bitsAt w 10 5) (bitsAt w 0 4)) else
  if fld w 4 6 == 0x5 then some (.divz (bitsAt w 20 5) (bitsAt w 15 5) (bitsAt w 10 5) (bitsAt w 0 4)) else
  if fld w 4 6 == 0x6 then some (.rem (bitsAt w 20 5) (bitsAt w 15 5) (bitsAt w 10 5) (bitsAt w 0 4)) else
  if fld w 4 6 == 0x7 then some (.remz (bitsAt w 20 5) (bitsAt w 15 5) (bitsAt w 10 5) (bitsAt w 0 4)) else
  none

/-- Major 0x03 (R127). -/
def rawMaj03 (w : Nat) : Option Instr :=
  if fld w 0 10 == 0x0 then some (.ext (bitsAt w 20 5) (bitsAt w 15 5) (bitsAt w 10 5)) else
  if fld w 0 10 == 0x10 then some (.extz (bitsAt w 20 5) (bitsAt w 15 5) (bitsAt w 10 5)) else
  if fld w 0 10 == 0x20 then some (.ins (bitsAt w 20 5) (bitsAt w 15 5) (bitsAt w 10 5)) else
  if fld w 0 15 == 0x30 then some (.clz (bitsAt w 20 5) (bitsAt w 15 5)) else
  if fld w 0 15 == 0x40 then some (.ctz (bitsAt w 20 5) (bitsAt w 15 5)) else
  if fld w 0 15 == 0x50 then some (.cls (bitsAt w 20 5) (bitsAt w 15 5)) else
  if fld w 0 15 == 0x60 then some (.popc (bitsAt w 20 5) (bitsAt w 15 5)) else
  if fld w 0 15 == 0x70 then some (.brev (bitsAt w 20 5) (bitsAt w 15 5)) else
  if fld w 0 15 == 0x80 then some (.bswap (bitsAt w 20 5) (bitsAt w 15 5)) else
  if fld w 0 10 == 0x90 then some (.bperm (bitsAt w 20 5) (bitsAt w 15 5) (bitsAt w 10 5)) else
  none

/-- Major 0x04 (R123). -/
def rawMaj04 (w : Nat) : Option Instr :=
  some (.addi (bitsAt w 20 5) (bitsAt w 15 5) (bitsAt w 0 15))

/-- Major 0x05 (R123). -/
def rawMaj05 (w : Nat) : Option Instr :=
  some (.andi (bitsAt w 20 5) (bitsAt w 15 5) (bitsAt w 0 15))

/-- Major 0x06 (R123). -/
def rawMaj06 (w : Nat) : Option Instr :=
  some (.ori (bitsAt w 20 5) (bitsAt w 15 5) (bitsAt w 0 15))

/-- Major 0x07 (R123). -/
def rawMaj07 (w : Nat) : Option Instr :=
  some (.xori (bitsAt w 20 5) (bitsAt w 15 5) (bitsAt w 0 15))

/-- Major 0x08 (R125). -/
def rawMaj08 (w : Nat) : Option Instr :=
  if fld w 6 9 == 0x0 then some (.shli (bitsAt w 20 5) (bitsAt w 15 5) (bitsAt w 0 6)) else
  if fld w 6 9 == 0x40 then some (.shri (bitsAt w 20 5) (bitsAt w 15 5) (bitsAt w 0 6)) else
  if fld w 6 9 == 0x80 then some (.srai (bitsAt w 20 5) (bitsAt w 15 5) (bitsAt w 0 6)) else
  if fld w 6 9 == 0xC0 then some (.rori (bitsAt w 20 5) (bitsAt w 15 5) (bitsAt w 0 6)) else
  if fld w 12 3 == 0x4 then some (.exti (bitsAt w 20 5) (bitsAt w 15 5) (bitsAt w 6 6) (bitsAt w 0 6)) else
  if fld w 12 3 == 0x5 then some (.extzi (bitsAt w 20 5) (bitsAt w 15 5) (bitsAt w 6 6) (bitsAt w 0 6)) else
  if fld w 12 3 == 0x6 then some (.insi (bitsAt w 20 5) (bitsAt w 15 5) (bitsAt w 6 6) (bitsAt w 0 6)) else
  none

/-- Major 0x09 (R131). -/
def rawMaj09 (w : Nat) : Option Instr :=
  some (.cmpi (bitsAt w 23 2) (bitsAt w 20 3) (bitsAt w 15 5) (bitsAt w 0 15))

/-- Major 0x0A (R124). -/
def rawMaj0A (w : Nat) : Option Instr :=
  some (.lui (bitsAt w 20 5) (bitsAt w 0 20))

/-- Major 0x0B (R124). -/
def rawMaj0B (w : Nat) : Option Instr :=
  some (.addpc (bitsAt w 20 5) (bitsAt w 0 20))

/-- Major 0x0C (R132). -/
def rawMaj0C (w : Nat) : Option Instr :=
  if fld w 0 4 == 0x0 && fld w 7 3 == 0x0 && fld w 23 2 == 0x0 then some (.cmp (bitsAt w 20 3) (bitsAt w 15 5) (bitsAt w 10 5) (bitsAt w 4 3)) else
  if fld w 3 7 == 0x10 then some (.sel (bitsAt w 20 5) (bitsAt w 15 5) (bitsAt w 10 5) (bitsAt w 0 3)) else
  if fld w 0 15 == 0x90 && fld w 18 2 == 0x0 then some (.mvqr (bitsAt w 20 5) (bitsAt w 15 3)) else
  if fld w 0 15 == 0xA0 && fld w 23 2 == 0x0 then some (.mvrq (bitsAt w 20 3) (bitsAt w 15 5)) else
  if fld w 0 10 == 0xB0 && fld w 13 2 == 0x0 && fld w 18 2 == 0x0 && fld w 23 2 == 0x0 then some (.pand (bitsAt w 20 3) (bitsAt w 15 3) (bitsAt w 10 3)) else
  if fld w 0 10 == 0xC0 && fld w 13 2 == 0x0 && fld w 18 2 == 0x0 && fld w 23 2 == 0x0 then some (.por (bitsAt w 20 3) (bitsAt w 15 3) (bitsAt w 10 3)) else
  if fld w 0 10 == 0xD0 && fld w 13 2 == 0x0 && fld w 18 2 == 0x0 && fld w 23 2 == 0x0 then some (.pxor (bitsAt w 20 3) (bitsAt w 15 3) (bitsAt w 10 3)) else
  if fld w 0 10 == 0xE0 && fld w 13 2 == 0x0 && fld w 18 2 == 0x0 && fld w 23 2 == 0x0 then some (.pandn (bitsAt w 20 3) (bitsAt w 15 3) (bitsAt w 10 3)) else
  if fld w 0 10 == 0xF0 && fld w 13 2 == 0x0 && fld w 18 2 == 0x0 && fld w 23 2 == 0x0 then some (.porn (bitsAt w 20 3) (bitsAt w 15 3) (bitsAt w 10 3)) else
  none

/-- Major 0x0D (R137). -/
def rawMaj0D (w : Nat) : Option Instr :=
  if fld w 0 10 == 0x0 && fld w 14 6 == 0x0 then some (.mrd (bitsAt w 20 5) (bitsAt w 10 4)) else
  if fld w 0 15 == 0x10 && fld w 24 1 == 0x0 then some (.mwr (bitsAt w 20 4) (bitsAt w 15 5)) else
  if fld w 0 10 == 0x20 && fld w 14 6 == 0x0 then some (.mrdfe (bitsAt w 20 5) (bitsAt w 10 4)) else
  if fld w 0 10 == 0x30 && fld w 14 6 == 0x0 then some (.mrdff (bitsAt w 20 5) (bitsAt w 10 4)) else
  if fld w 0 15 == 0x40 && fld w 24 1 == 0x0 then some (.mwrfe (bitsAt w 20 4) (bitsAt w 15 5)) else
  if fld w 0 15 == 0x50 && fld w 24 1 == 0x0 then some (.mwrff (bitsAt w 20 4) (bitsAt w 15 5)) else
  if fld w 0 20 == 0x60 && fld w 24 1 == 0x0 then some (.mfeclr (bitsAt w 20 4)) else
  if fld w 0 20 == 0x100 then some (.rempty (bitsAt w 20 5)) else
  if fld w 0 20 == 0x110 then some (.rfull (bitsAt w 20 5)) else
  if fld w 0 15 == 0x120 && fld w 23 2 == 0x0 then some (.rtest (bitsAt w 20 3) (bitsAt w 15 5)) else
  if fld w 0 15 == 0x200 then some (.nwrE (bitsAt w 20 5) (bitsAt w 15 5)) else
  if fld w 0 15 == 0x210 then some (.nwrW (bitsAt w 20 5) (bitsAt w 15 5)) else
  if fld w 0 15 == 0x380 && fld w 23 2 == 0x0 then some (.lox (bitsAt w 20 3) (bitsAt w 15 5)) else
  if fld w 0 10 == 0x390 && fld w 13 7 == 0x0 then some (.mox (bitsAt w 20 5) (bitsAt w 10 3)) else
  if fld w 0 10 == 0x3A0 && fld w 13 2 == 0x0 && fld w 23 2 == 0x0 then some (.loxm (bitsAt w 20 3) (bitsAt w 15 5) (bitsAt w 10 3)) else
  none

/-- Major 0x10 (R147). -/
def rawMaj10 (w : Nat) : Option Instr :=
  some (.ld (bitsAt w 20 5) (bitsAt w 15 5) (bitsAt w 12 3) (bitsAt w 4 8) (bitsAt w 0 4))

/-- Major 0x11 (R148). -/
def rawMaj11 (w : Nat) : Option Instr :=
  if fld w 14 1 == 0x0 then some (.st (bitsAt w 20 5) (bitsAt w 15 5) (bitsAt w 12 2) (bitsAt w 4 8) (bitsAt w 0 4)) else
  none

/-- Major 0x12 (R149). -/
def rawMaj12 (w : Nat) : Option Instr :=
  if fld w 9 1 == 0x0 then some (.ldIndexed (bitsAt w 20 5) (bitsAt w 15 5) (bitsAt w 10 5) (bitsAt w 7 2) (bitsAt w 4 3) (bitsAt w 0 4)) else
  if fld w 6 1 == 0x0 && fld w 9 1 == 0x1 then some (.stIndexed (bitsAt w 20 5) (bitsAt w 15 5) (bitsAt w 10 5) (bitsAt w 7 2) (bitsAt w 4 2) (bitsAt w 0 4)) else
  none

/-- Major 0x13 (R158). -/
def rawMaj13 (w : Nat) : Option Instr :=
  if fld w 4 1 == 0x0 && fld w 7 3 == 0x0 then some (.bmov (bitsAt w 20 5) (bitsAt w 15 5) (bitsAt w 10 5) (bitsAt w 5 2) (bitsAt w 0 4)) else
  if fld w 4 1 == 0x0 && fld w 7 3 == 0x1 then some (.bmovd (bitsAt w 20 5) (bitsAt w 15 5) (bitsAt w 10 5) (bitsAt w 5 2) (bitsAt w 0 4)) else
  if fld w 4 1 == 0x0 && fld w 7 3 == 0x2 then some (.bfill (bitsAt w 20 5) (bitsAt w 15 5) (bitsAt w 10 5) (bitsAt w 5 2) (bitsAt w 0 4)) else
  if fld w 4 1 == 0x0 && fld w 7 3 == 0x3 then some (.bscanEq (bitsAt w 20 5) (bitsAt w 15 5) (bitsAt w 10 5) (bitsAt w 5 2) (bitsAt w 0 4)) else
  if fld w 4 1 == 0x0 && fld w 7 3 == 0x4 then some (.bscanNe (bitsAt w 20 5) (bitsAt w 15 5) (bitsAt w 10 5) (bitsAt w 5 2) (bitsAt w 0 4)) else
  none

/-- Major 0x14 (R155). -/
def rawMaj14 (w : Nat) : Option Instr :=
  if fld w 12 3 == 0x0 && fld w 20 5 == 0x0 then some (.cpf (bitsAt w 15 5) (bitsAt w 4 8) (bitsAt w 0 4)) else
  if fld w 12 3 == 0x1 && fld w 20 5 == 0x0 then some (.cwb (bitsAt w 15 5) (bitsAt w 4 8) (bitsAt w 0 4)) else
  if fld w 12 3 == 0x2 && fld w 20 5 == 0x0 then some (.cflush (bitsAt w 15 5) (bitsAt w 4 8) (bitsAt w 0 4)) else
  if fld w 12 3 == 0x3 && fld w 20 5 == 0x0 then some (.czero (bitsAt w 15 5) (bitsAt w 4 8) (bitsAt w 0 4)) else
  if fld w 12 3 == 0x4 && fld w 20 5 == 0x0 then some (.cpfw (bitsAt w 15 5) (bitsAt w 4 8) (bitsAt w 0 4)) else
  if fld w 12 3 == 0x5 && fld w 22 3 == 0x0 then some (.iinv (bitsAt w 20 2) (bitsAt w 15 5) (bitsAt w 4 8) (bitsAt w 0 4)) else
  none

/-- Major 0x15 (R189). -/
def rawMaj15 (w : Nat) : Option Instr :=
  if fld w 3 22 == 0x0 then some (.fence (bitsAt w 0 3)) else
  if fld w 3 22 == 0x10 then some (.fenceAcq (bitsAt w 0 3)) else
  if fld w 3 22 == 0x20 then some (.fenceRel (bitsAt w 0 3)) else
  if fld w 3 7 == 0x20 && fld w 20 5 == 0x0 then some (.fenceRelWiden (bitsAt w 15 5) (bitsAt w 10 5) (bitsAt w 0 3)) else
  if fld w 0 25 == 0x180 then some (.fenceXp) else
  if fld w 7 3 == 0x4 && fld w 13 2 == 0x0 then some (.lda (bitsAt w 20 5) (bitsAt w 15 5) (bitsAt w 10 3) (bitsAt w 4 3) (bitsAt w 3 1) (bitsAt w 0 3)) else
  if fld w 3 1 == 0x0 && fld w 6 9 == 0xA then some (.strel (bitsAt w 20 5) (bitsAt w 15 5) (bitsAt w 4 2) (bitsAt w 0 3)) else
  none

/-- Major 0x16 (R297). -/
def rawMaj16 (w : Nat) : Option Instr :=
  if fld w 12 3 == 0x0 then some (.ldfe (bitsAt w 20 5) (bitsAt w 15 5) (bitsAt w 4 8) (bitsAt w 0 4)) else
  if fld w 12 3 == 0x1 then some (.ldff (bitsAt w 20 5) (bitsAt w 15 5) (bitsAt w 4 8) (bitsAt w 0 4)) else
  if fld w 12 3 == 0x2 then some (.stfe (bitsAt w 20 5) (bitsAt w 15 5) (bitsAt w 4 8) (bitsAt w 0 4)) else
  if fld w 12 3 == 0x3 then some (.stff (bitsAt w 20 5) (bitsAt w 15 5) (bitsAt w 4 8) (bitsAt w 0 4)) else
  if fld w 12 3 == 0x4 && fld w 20 5 == 0x0 then some (.feclr (bitsAt w 15 5) (bitsAt w 4 8) (bitsAt w 0 4)) else
  none

/-- Major 0x17 (R289). -/
noncomputable def rawMaj17 (w : Nat) : Option Instr :=
  if fld w 6 4 == 0x0 then some (.amoadd (bitsAt w 20 5) (bitsAt w 15 5) (bitsAt w 10 5) (bitsAt w 5 1) (bitsAt w 4 1) (bitsAt w 0 4)) else
  if fld w 6 4 == 0x1 then some (.amoand (bitsAt w 20 5) (bitsAt w 15 5) (bitsAt w 10 5) (bitsAt w 5 1) (bitsAt w 4 1) (bitsAt w 0 4)) else
  if fld w 6 4 == 0x2 then some (.amoor (bitsAt w 20 5) (bitsAt w 15 5) (bitsAt w 10 5) (bitsAt w 5 1) (bitsAt w 4 1) (bitsAt w 0 4)) else
  if fld w 6 4 == 0x3 then some (.amoxor (bitsAt w 20 5) (bitsAt w 15 5) (bitsAt w 10 5) (bitsAt w 5 1) (bitsAt w 4 1) (bitsAt w 0 4)) else
  if fld w 6 4 == 0x4 then some (.amomin (bitsAt w 20 5) (bitsAt w 15 5) (bitsAt w 10 5) (bitsAt w 5 1) (bitsAt w 4 1) (bitsAt w 0 4)) else
  if fld w 6 4 == 0x5 then some (.amomax (bitsAt w 20 5) (bitsAt w 15 5) (bitsAt w 10 5) (bitsAt w 5 1) (bitsAt w 4 1) (bitsAt w 0 4)) else
  if fld w 6 4 == 0x6 then some (.amominz (bitsAt w 20 5) (bitsAt w 15 5) (bitsAt w 10 5) (bitsAt w 5 1) (bitsAt w 4 1) (bitsAt w 0 4)) else
  if fld w 6 4 == 0x7 then some (.amomaxz (bitsAt w 20 5) (bitsAt w 15 5) (bitsAt w 10 5) (bitsAt w 5 1) (bitsAt w 4 1) (bitsAt w 0 4)) else
  if fld w 6 4 == 0x8 then some (.amoxchg (bitsAt w 20 5) (bitsAt w 15 5) (bitsAt w 10 5) (bitsAt w 5 1) (bitsAt w 4 1) (bitsAt w 0 4)) else
  if fld w 6 4 == 0x9 then some (.amofadd (bitsAt w 20 5) (bitsAt w 15 5) (bitsAt w 10 5) (bitsAt w 5 1) (bitsAt w 4 1) (bitsAt w 0 4)) else
  none

/-- Major 0x18 (R291). -/
noncomputable def rawMaj18 (w : Nat) : Option Instr :=
  some (.cas (bitsAt w 20 5) (bitsAt w 15 5) (bitsAt w 10 5) (bitsAt w 9 1) (bitsAt w 7 2) (bitsAt w 4 3) (bitsAt w 0 4))

/-- Major 0x19 (R293). -/
noncomputable def rawMaj19 (w : Nat) : Option Instr :=
  if fld w 20 5 == 0xB then some (.rupdAddzZ64 (bitsAt w 15 5) (bitsAt w 10 5) (bitsAt w 7 3) (bitsAt w 4 3) (bitsAt w 0 4)) else
  if fld w 20 5 == 0xC then some (.rupdAddzZ32 (bitsAt w 15 5) (bitsAt w 10 5) (bitsAt w 7 3) (bitsAt w 4 3) (bitsAt w 0 4)) else
  if fld w 7 3 == 0x0 && fld w 24 1 == 0x0 then some (.rupd (bitsAt w 20 4) (bitsAt w 15 5) (bitsAt w 10 5) (bitsAt w 4 3) (bitsAt w 0 4)) else
  if fld w 14 1 == 0x0 && fld w 24 1 == 0x1 then some (.vamo (bitsAt w 20 4) (bitsAt w 15 5) (bitsAt w 10 4) (bitsAt w 6 4) (bitsAt w 5 1) (bitsAt w 4 1) (bitsAt w 0 4)) else
  none

/-- Major 0x1A (R301). -/
noncomputable def rawMaj1A (w : Nat) : Option Instr :=
  if fld w 0 15 == 0x0 && fld w 22 3 == 0x0 then some (.monarm (bitsAt w 20 2) (bitsAt w 15 5)) else
  if fld w 0 20 == 0x10 && fld w 22 3 == 0x0 then some (.mondis (bitsAt w 20 2)) else
  if fld w 0 10 == 0x20 && fld w 15 5 == 0x0 then some (.monwait (bitsAt w 20 5) (bitsAt w 10 5)) else
  if fld w 0 15 == 0x30 then some (.hmsg (bitsAt w 20 5) (bitsAt w 15 5)) else
  none

/-- Major 0x1B (R306). -/
noncomputable def rawMaj1B (w : Nat) : Option Instr :=
  if fld w 0 10 == 0x0 && fld w 14 1 == 0x0 && fld w 20 5 == 0x0 then some (.barcfg (bitsAt w 15 5) (bitsAt w 10 4)) else
  if fld w 0 10 == 0x10 && fld w 14 6 == 0x0 then some (.bararv (bitsAt w 20 5) (bitsAt w 10 4)) else
  if fld w 0 10 == 0x20 && fld w 14 1 == 0x0 && fld w 20 5 == 0x0 then some (.barwait (bitsAt w 15 5) (bitsAt w 10 4)) else
  if fld w 0 10 == 0x30 && fld w 14 11 == 0x0 then some (.barsync (bitsAt w 10 4)) else
  if fld w 0 10 == 0x100 && fld w 15 5 == 0x0 && fld w 23 2 == 0x0 && fld w 10 5 != 0x0 then some (.waitlt (bitsAt w 20 3) (bitsAt w 10 5)) else
  if fld w 0 15 == 0x110 && fld w 23 2 == 0x0 then some (.waitltr (bitsAt w 20 3) (bitsAt w 15 5)) else
  none

/-- Major 0x20 (R89). -/
noncomputable def rawMaj20 (w : Nat) : Option Instr :=
  if fld w 20 5 == 0x0 then some (.bra (bitsAt w 0 20)) else
  none

/-- Major 0x21 (R91). -/
noncomputable def rawMaj21 (w : Nat) : Option Instr :=
  if fld w 20 5 == 0x0 then some (.call (bitsAt w 0 20)) else
  if fld w 20 5 == 0x1 then some (.bl (bitsAt w 0 20)) else
  none

/-- Major 0x22 (R89). -/
noncomputable def rawMaj22 (w : Nat) : Option Instr :=
  if fld w 23 2 == 0x0 then some (.bq (bitsAt w 20 3) (bitsAt w 0 20)) else
  none

/-- Major 0x23 (R89). -/
noncomputable def rawMaj23 (w : Nat) : Option Instr :=
  if fld w 23 2 == 0x0 then some (.bnq (bitsAt w 20 3) (bitsAt w 0 20)) else
  none

/-- Major 0x24 (R89). -/
noncomputable def rawMaj24 (w : Nat) : Option Instr :=
  some (.bcmp (bitsAt w 20 5) (bitsAt w 15 5) (bitsAt w 12 3) (bitsAt w 0 12))

/-- Major 0x25 (R89). -/
noncomputable def rawMaj25 (w : Nat) : Option Instr :=
  some (.bcmpi (bitsAt w 20 5) (bitsAt w 15 5) (bitsAt w 12 3) (bitsAt w 0 12))

/-- Major 0x26 (R92). -/
noncomputable def rawMaj26 (w : Nat) : Option Instr :=
  if fld w 0 15 == 0x0 && fld w 20 5 == 0x0 then some (.jr (bitsAt w 15 5)) else
  if fld w 0 15 == 0x10 then some (.jl (bitsAt w 20 5) (bitsAt w 15 5)) else
  if fld w 0 15 == 0x20 && fld w 20 5 == 0x0 then some (.callr (bitsAt w 15 5)) else
  if fld w 0 25 == 0x30 then some (.ret) else
  none

/-- Major 0x27 (R90). -/
noncomputable def rawMaj27 (w : Nat) : Option Instr :=
  if fld w 12 8 == 0x0 then some (.loopn (bitsAt w 20 5) (bitsAt w 0 12)) else
  if fld w 12 3 == 0x1 then some (.loopns (bitsAt w 20 5) (bitsAt w 15 5) (bitsAt w 0 12)) else
  none

/-- Major 0x28 (R94). -/
noncomputable def rawMaj28 (w : Nat) : Option Instr :=
  if fld w 0 10 == 0x0 then some (.fuse (bitsAt w 20 5) (bitsAt w 15 5) (bitsAt w 10 5)) else
  if fld w 0 25 == 0x10 then some (.split) else
  if fld w 0 10 == 0x20 then some (.rgn (bitsAt w 10 15)) else
  if fld w 0 25 == 0x30 then some (.join) else
  if fld w 0 10 == 0x40 && fld w 15 10 == 0x0 then some (.brk (bitsAt w 10 5)) else
  if fld w 2 13 == 0x14 && fld w 18 2 == 0x0 && fld w 23 2 == 0x0 then some (.vote (bitsAt w 20 3) (bitsAt w 15 3) (bitsAt w 0 2)) else
  if fld w 0 15 == 0x60 && fld w 18 2 == 0x0 then some (.ballot (bitsAt w 20 5) (bitsAt w 15 3)) else
  if fld w 2 8 == 0x1C then some (.shfl (bitsAt w 20 5) (bitsAt w 15 5) (bitsAt w 10 5) (bitsAt w 0 2)) else
  none

/-- Major 0x2C (R237). -/
noncomputable def rawMaj2C (w : Nat) : Option Instr :=
  if fld w 6 4 == 0x0 then some (.fadd (bitsAt w 20 5) (bitsAt w 15 5) (bitsAt w 10 5) (bitsAt w 4 2) (bitsAt w 0 4)) else
  if fld w 6 4 == 0x1 then some (.fsub (bitsAt w 20 5) (bitsAt w 15 5) (bitsAt w 10 5) (bitsAt w 4 2) (bitsAt w 0 4)) else
  if fld w 6 4 == 0x2 then some (.fmul (bitsAt w 20 5) (bitsAt w 15 5) (bitsAt w 10 5) (bitsAt w 4 2) (bitsAt w 0 4)) else
  if fld w 6 4 == 0x3 then some (.fma (bitsAt w 20 5) (bitsAt w 15 5) (bitsAt w 10 5) (bitsAt w 4 2) (bitsAt w 0 4)) else
  if fld w 6 4 == 0x4 then some (.fnma (bitsAt w 20 5) (bitsAt w 15 5) (bitsAt w 10 5) (bitsAt w 4 2) (bitsAt w 0 4)) else
  if fld w 0 4 == 0x0 && fld w 6 4 == 0x5 then some (.fmin (bitsAt w 20 5) (bitsAt w 15 5) (bitsAt w 10 5) (bitsAt w 4 2)) else
  if fld w 0 4 == 0x0 && fld w 6 4 == 0x6 then some (.fmax (bitsAt w 20 5) (bitsAt w 15 5) (bitsAt w 10 5) (bitsAt w 4 2)) else
  if fld w 0 4 == 0x0 && fld w 6 4 == 0x7 then some (.fsgnj (bitsAt w 20 5) (bitsAt w 15 5) (bitsAt w 10 5) (bitsAt w 4 2)) else
  if fld w 0 4 == 0x0 && fld w 6 4 == 0x8 then some (.fsgnjn (bitsAt w 20 5) (bitsAt w 15 5) (bitsAt w 10 5) (bitsAt w 4 2)) else
  if fld w 0 4 == 0x0 && fld w 6 4 == 0x9 then some (.fsgnjx (bitsAt w 20 5) (bitsAt w 15 5) (bitsAt w 10 5) (bitsAt w 4 2)) else
  if fld w 0 4 == 0x0 && fld w 6 9 == 0xA then some (.fclass (bitsAt w 20 5) (bitsAt w 15 5) (bitsAt w 4 2)) else
  if fld w 2 2 == 0x0 && fld w 6 4 == 0xB && fld w 23 2 == 0x0 then some (.fcmp (bitsAt w 20 3) (bitsAt w 15 5) (bitsAt w 10 5) (bitsAt w 4 2) (bitsAt w 0 2)) else
  if fld w 6 4 == 0xC then some (.fldexp (bitsAt w 20 5) (bitsAt w 15 5) (bitsAt w 10 5) (bitsAt w 4 2) (bitsAt w 0 4)) else
  if fld w 4 11 == 0x35 then some (.fmxsc (bitsAt w 20 5) (bitsAt w 15 5) (bitsAt w 0 4)) else
  none

/-- Major 0x2D (R239). -/
noncomputable def rawMaj2D (w : Nat) : Option Instr :=
  if fld w 6 4 == 0x0 then some (.fdiv (bitsAt w 20 5) (bitsAt w 15 5) (bitsAt w 10 5) (bitsAt w 4 2) (bitsAt w 0 4)) else
  if fld w 6 9 == 0x1 then some (.fsqrt (bitsAt w 20 5) (bitsAt w 15 5) (bitsAt w 4 2) (bitsAt w 0 4)) else
  if fld w 6 9 == 0x2 then some (.frcp (bitsAt w 20 5) (bitsAt w 15 5) (bitsAt w 4 2) (bitsAt w 0 4)) else
  if fld w 6 9 == 0x3 then some (.frsqrt (bitsAt w 20 5) (bitsAt w 15 5) (bitsAt w 4 2) (bitsAt w 0 4)) else
  if fld w 6 9 == 0x4 then some (.fexp2 (bitsAt w 20 5) (bitsAt w 15 5) (bitsAt w 4 2) (bitsAt w 0 4)) else
  if fld w 6 9 == 0x5 then some (.flog2 (bitsAt w 20 5) (bitsAt w 15 5) (bitsAt w 4 2) (bitsAt w 0 4)) else
  if fld w 6 9 == 0x6 then some (.fsinpi (bitsAt w 20 5) (bitsAt w 15 5) (bitsAt w 4 2) (bitsAt w 0 4)) else
  if fld w 6 9 == 0x7 then some (.fcospi (bitsAt w 20 5) (bitsAt w 15 5) (bitsAt w 4 2) (bitsAt w 0 4)) else
  none

/-- Major 0x2E (R240). -/
noncomputable def rawMaj2E (w : Nat) : Option Instr :=
  if fld w 10 5 == 0x0 && fld w 7 3 == fld w 4 3 then some (.frint (bitsAt w 20 5) (bitsAt w 15 5) (bitsAt w 7 3) (bitsAt w 0 4)) else
  if fld w 10 5 == 0x0 then some (.fcvt (bitsAt w 20 5) (bitsAt w 15 5) (bitsAt w 7 3) (bitsAt w 4 3) (bitsAt w 0 4)) else
  none

/-- Major 0x30 (R247). -/
noncomputable def rawMaj30 (w : Nat) : Option Instr :=
  if fld w 4 6 == 0x0 && fld w 14 1 == 0x0 && fld w 19 1 == 0x0 && fld w 24 1 == 0x0 then some (.vadd (bitsAt w 20 4) (bitsAt w 15 4) (bitsAt w 10 4) (bitsAt w 3 1) (bitsAt w 0 3)) else
  if fld w 4 6 == 0x1 && fld w 14 1 == 0x0 && fld w 19 1 == 0x0 && fld w 24 1 == 0x0 then some (.vsub (bitsAt w 20 4) (bitsAt w 15 4) (bitsAt w 10 4) (bitsAt w 3 1) (bitsAt w 0 3)) else
  if fld w 4 6 == 0x2 && fld w 14 1 == 0x0 && fld w 19 1 == 0x0 && fld w 24 1 == 0x0 then some (.vmul (bitsAt w 20 4) (bitsAt w 15 4) (bitsAt w 10 4) (bitsAt w 3 1) (bitsAt w 0 3)) else
  if fld w 4 6 == 0x3 && fld w 14 1 == 0x0 && fld w 19 1 == 0x0 && fld w 24 1 == 0x0 then some (.vfma (bitsAt w 20 4) (bitsAt w 15 4) (bitsAt w 10 4) (bitsAt w 3 1) (bitsAt w 0 3)) else
  if fld w 4 6 == 0x4 && fld w 14 1 == 0x0 && fld w 19 1 == 0x0 && fld w 24 1 == 0x0 then some (.vfnma (bitsAt w 20 4) (bitsAt w 15 4) (bitsAt w 10 4) (bitsAt w 3 1) (bitsAt w 0 3)) else
  if fld w 4 6 == 0x5 && fld w 14 1 == 0x0 && fld w 19 1 == 0x0 && fld w 24 1 == 0x0 then some (.vmin (bitsAt w 20 4) (bitsAt w 15 4) (bitsAt w 10 4) (bitsAt w 3 1) (bitsAt w 0 3)) else
  if fld w 4 6 == 0x6 && fld w 14 1 == 0x0 && fld w 19 1 == 0x0 && fld w 24 1 == 0x0 then some (.vmax (bitsAt w 20 4) (bitsAt w 15 4) (bitsAt w 10 4) (bitsAt w 3 1) (bitsAt w 0 3)) else
  if fld w 4 11 == 0x7 && fld w 19 1 == 0x0 && fld w 24 1 == 0x0 then some (.vabs (bitsAt w 20 4) (bitsAt w 15 4) (bitsAt w 3 1) (bitsAt w 0 3)) else
  if fld w 4 11 == 0x8 && fld w 19 1 == 0x0 && fld w 24 1 == 0x0 then some (.vneg (bitsAt w 20 4) (bitsAt w 15 4) (bitsAt w 3 1) (bitsAt w 0 3)) else
  if fld w 4 6 == 0x9 && fld w 19 1 == 0x0 && fld w 24 1 == 0x0 then some (.vldexp (bitsAt w 20 4) (bitsAt w 15 4) (bitsAt w 10 5) (bitsAt w 3 1) (bitsAt w 0 3)) else
  if fld w 4 11 == 0xA && fld w 19 1 == 0x0 && fld w 24 1 == 0x0 then some (.vexp2 (bitsAt w 20 4) (bitsAt w 15 4) (bitsAt w 3 1) (bitsAt w 0 3)) else
  if fld w 4 11 == 0xB && fld w 19 1 == 0x0 && fld w 24 1 == 0x0 then some (.vrcp (bitsAt w 20 4) (bitsAt w 15 4) (bitsAt w 3 1) (bitsAt w 0 3)) else
  if fld w 4 11 == 0xC && fld w 19 1 == 0x0 && fld w 24 1 == 0x0 then some (.vrsqrt (bitsAt w 20 4) (bitsAt w 15 4) (bitsAt w 3 1) (bitsAt w 0 3)) else
  if fld w 4 11 == 0xD && fld w 19 1 == 0x0 && fld w 24 1 == 0x0 then some (.vlog2 (bitsAt w 20 4) (bitsAt w 15 4) (bitsAt w 3 1) (bitsAt w 0 3)) else
  if fld w 6 4 == 0x4 && fld w 14 1 == 0x0 && fld w 19 6 == 0x0 then some (.vcmp (bitsAt w 15 4) (bitsAt w 10 4) (bitsAt w 4 2) (bitsAt w 3 1) (bitsAt w 0 3)) else
  if fld w 4 6 == 0x14 && fld w 14 1 == 0x0 && fld w 19 1 == 0x0 && fld w 24 1 == 0x0 then some (.vand (bitsAt w 20 4) (bitsAt w 15 4) (bitsAt w 10 4) (bitsAt w 3 1) (bitsAt w 0 3)) else
  if fld w 4 6 == 0x15 && fld w 14 1 == 0x0 && fld w 19 1 == 0x0 && fld w 24 1 == 0x0 then some (.vor (bitsAt w 20 4) (bitsAt w 15 4) (bitsAt w 10 4) (bitsAt w 3 1) (bitsAt w 0 3)) else
  if fld w 4 6 == 0x16 && fld w 14 1 == 0x0 && fld w 19 1 == 0x0 && fld w 24 1 == 0x0 then some (.vxor (bitsAt w 20 4) (bitsAt w 15 4) (bitsAt w 10 4) (bitsAt w 3 1) (bitsAt w 0 3)) else
  if fld w 4 6 == 0x17 && fld w 14 1 == 0x0 && fld w 19 1 == 0x0 && fld w 24 1 == 0x0 then some (.vshl (bitsAt w 20 4) (bitsAt w 15 4) (bitsAt w 10 4) (bitsAt w 3 1) (bitsAt w 0 3)) else
  if fld w 4 6 == 0x18 && fld w 14 1 == 0x0 && fld w 19 1 == 0x0 && fld w 24 1 == 0x0 then some (.vshr (bitsAt w 20 4) (bitsAt w 15 4) (bitsAt w 10 4) (bitsAt w 3 1) (bitsAt w 0 3)) else
  if fld w 4 6 == 0x19 && fld w 14 1 == 0x0 && fld w 19 1 == 0x0 && fld w 24 1 == 0x0 then some (.vsra (bitsAt w 20 4) (bitsAt w 15 4) (bitsAt w 10 4) (bitsAt w 3 1) (bitsAt w 0 3)) else
  if fld w 4 6 == 0x1A && fld w 14 1 == 0x0 && fld w 19 1 == 0x0 && fld w 24 1 == 0x0 then some (.vminz (bitsAt w 20 4) (bitsAt w 15 4) (bitsAt w 10 4) (bitsAt w 3 1) (bitsAt w 0 3)) else
  if fld w 4 6 == 0x1B && fld w 14 1 == 0x0 && fld w 19 1 == 0x0 && fld w 24 1 == 0x0 then some (.vmaxz (bitsAt w 20 4) (bitsAt w 15 4) (bitsAt w 10 4) (bitsAt w 3 1) (bitsAt w 0 3)) else
  if fld w 4 6 == 0x1C && fld w 14 1 == 0x0 && fld w 19 1 == 0x0 && fld w 24 1 == 0x0 then some (.vadds (bitsAt w 20 4) (bitsAt w 15 4) (bitsAt w 10 4) (bitsAt w 3 1) (bitsAt w 0 3)) else
  if fld w 4 6 == 0x1D && fld w 14 1 == 0x0 && fld w 19 1 == 0x0 && fld w 24 1 == 0x0 then some (.vsubs (bitsAt w 20 4) (bitsAt w 15 4) (bitsAt w 10 4) (bitsAt w 3 1) (bitsAt w 0 3)) else
  if fld w 4 6 == 0x1E && fld w 14 1 == 0x0 && fld w 19 1 == 0x0 && fld w 24 1 == 0x0 then some (.vaddzs (bitsAt w 20 4) (bitsAt w 15 4) (bitsAt w 10 4) (bitsAt w 3 1) (bitsAt w 0 3)) else
  if fld w 4 6 == 0x1F && fld w 14 1 == 0x0 && fld w 19 1 == 0x0 && fld w 24 1 == 0x0 then some (.vsubzs (bitsAt w 20 4) (bitsAt w 15 4) (bitsAt w 10 4) (bitsAt w 3 1) (bitsAt w 0 3)) else
  if fld w 4 11 == 0x20 && fld w 24 1 == 0x0 then some (.vbcast (bitsAt w 20 4) (bitsAt w 15 5) (bitsAt w 3 1) (bitsAt w 0 3)) else
  if fld w 4 11 == 0x21 && fld w 19 1 == 0x0 && fld w 24 1 == 0x0 then some (.vmov (bitsAt w 20 4) (bitsAt w 15 4) (bitsAt w 3 1) (bitsAt w 0 3)) else
  none

/-- Major 0x31 (R250). -/
noncomputable def rawMaj31 (w : Nat) : Option Instr :=
  if fld w 4 11 == 0x0 && fld w 19 1 == 0x0 then some (.vrsum (bitsAt w 20 5) (bitsAt w 15 4) (bitsAt w 3 1) (bitsAt w 0 3)) else
  if fld w 4 11 == 0x1 && fld w 19 1 == 0x0 then some (.vrmax (bitsAt w 20 5) (bitsAt w 15 4) (bitsAt w 3 1) (bitsAt w 0 3)) else
  if fld w 4 11 == 0x2 && fld w 19 1 == 0x0 then some (.vrmin (bitsAt w 20 5) (bitsAt w 15 4) (bitsAt w 3 1) (bitsAt w 0 3)) else
  if fld w 4 11 == 0x3 && fld w 19 1 == 0x0 then some (.vramax (bitsAt w 20 5) (bitsAt w 15 4) (bitsAt w 3 1) (bitsAt w 0 3)) else
  if fld w 4 6 == 0x4 && fld w 14 1 == 0x0 && fld w 19 1 == 0x0 && fld w 24 1 == 0x0 then some (.vperm (bitsAt w 20 4) (bitsAt w 15 4) (bitsAt w 10 4) (bitsAt w 3 1) (bitsAt w 0 3)) else
  if fld w 3 7 == 0xA && fld w 19 1 == 0x0 then some (.vext (bitsAt w 20 5) (bitsAt w 15 4) (bitsAt w 10 5) (bitsAt w 0 3)) else
  if fld w 3 7 == 0xC && fld w 24 1 == 0x0 then some (.vins (bitsAt w 20 4) (bitsAt w 15 5) (bitsAt w 10 5) (bitsAt w 0 3)) else
  if fld w 4 6 == 0x7 && fld w 19 1 == 0x0 && fld w 24 1 == 0x0 then some (.vrot (bitsAt w 20 4) (bitsAt w 15 4) (bitsAt w 10 5) (bitsAt w 3 1) (bitsAt w 0 3)) else
  none

/-- Major 0x32 (R251). -/
noncomputable def rawMaj32 (w : Nat) : Option Instr :=
  if fld w 6 3 == 0x0 && fld w 24 1 == 0x0 then some (.vld (bitsAt w 20 4) (bitsAt w 15 5) (bitsAt w 10 5) (bitsAt w 9 1) (bitsAt w 4 2) (bitsAt w 0 4)) else
  if fld w 6 3 == 0x1 && fld w 24 1 == 0x0 then some (.vst (bitsAt w 20 4) (bitsAt w 15 5) (bitsAt w 10 5) (bitsAt w 9 1) (bitsAt w 4 2) (bitsAt w 0 4)) else
  if fld w 6 3 == 0x2 && fld w 24 1 == 0x0 then some (.vlds (bitsAt w 20 4) (bitsAt w 15 5) (bitsAt w 10 5) (bitsAt w 9 1) (bitsAt w 4 2) (bitsAt w 0 4)) else
  if fld w 6 3 == 0x3 && fld w 24 1 == 0x0 then some (.vsts (bitsAt w 20 4) (bitsAt w 15 5) (bitsAt w 10 5) (bitsAt w 9 1) (bitsAt w 4 2) (bitsAt w 0 4)) else
  if fld w 6 3 == 0x4 && fld w 14 1 == 0x0 && fld w 24 1 == 0x0 then some (.vgath (bitsAt w 20 4) (bitsAt w 15 5) (bitsAt w 10 4) (bitsAt w 9 1) (bitsAt w 4 2) (bitsAt w 0 4)) else
  if fld w 6 3 == 0x5 && fld w 14 1 == 0x0 && fld w 24 1 == 0x0 then some (.vscat (bitsAt w 20 4) (bitsAt w 15 5) (bitsAt w 10 4) (bitsAt w 9 1) (bitsAt w 4 2) (bitsAt w 0 4)) else
  none

/-- Major 0x33 (R253). -/
noncomputable def rawMaj33 (w : Nat) : Option Instr :=
  if fld w 4 2 == 0x0 && fld w 19 1 == 0x0 && fld w 24 1 == 0x0 then some (.vcvt (bitsAt w 20 4) (bitsAt w 15 4) (bitsAt w 10 5) (bitsAt w 6 4) (bitsAt w 3 1) (bitsAt w 0 3)) else
  none

/-- Major 0x34 (R246). -/
noncomputable def rawMaj34 (w : Nat) : Option Instr :=
  if fld w 4 11 == 0x0 && fld w 20 5 == 0x0 then some (.vseq (bitsAt w 15 5) (bitsAt w 0 4)) else
  none

/-- Major 0x36 (R203). -/
noncomputable def rawMaj36 (w : Nat) : Option Instr :=
  if fld w 17 7 == 0x3 then some (.sbindIn (bitsAt w 24 1) (bitsAt w 15 2) (bitsAt w 10 5) (bitsAt w 7 3) (bitsAt w 4 3) (bitsAt w 0 4)) else
  if fld w 17 8 == 0xB then some (.sbindOut (bitsAt w 15 2) (bitsAt w 10 5) (bitsAt w 7 3) (bitsAt w 4 3) (bitsAt w 0 4)) else
  if fld w 0 15 == 0x0 && fld w 17 8 == 0x13 then some (.sunbind (bitsAt w 15 2)) else
  if fld w 0 15 == 0x0 && fld w 17 8 == 0x1B then some (.sdrain (bitsAt w 15 2)) else
  if fld w 0 10 == 0x0 && fld w 17 8 == 0x23 then some (.sstat (bitsAt w 15 2) (bitsAt w 10 5)) else
  if fld w 0 10 == 0x0 && fld w 20 5 == 0x5 then some (.sres (bitsAt w 15 5) (bitsAt w 10 5)) else
  none

/-- Major 0x37 (R208). -/
noncomputable def rawMaj37 (w : Nat) : Option Instr :=
  if fld w 10 5 == 0x0 && fld w 20 4 == 0x0 then some (.copy (bitsAt w 24 1) (bitsAt w 15 5) (bitsAt w 7 3) (bitsAt w 4 3) (bitsAt w 0 4)) else
  if fld w 10 5 == 0x0 && fld w 20 4 == 0x1 then some (.copyg (bitsAt w 24 1) (bitsAt w 15 5) (bitsAt w 7 3) (bitsAt w 4 3) (bitsAt w 0 4)) else
  if fld w 20 5 == 0x2 then some (.copyf (bitsAt w 15 5) (bitsAt w 10 5) (bitsAt w 7 3) (bitsAt w 4 3) (bitsAt w 0 4)) else
  if fld w 0 10 == 0x0 && fld w 20 5 == 0x3 then some (.cres (bitsAt w 15 5) (bitsAt w 10 5)) else
  none

/-- Major 0x38 (R267). -/
noncomputable def rawMaj38 (w : Nat) : Option Instr :=
  if fld w 20 4 == 0x0 then some (.mxldb (bitsAt w 24 1) (bitsAt w 15 5) (bitsAt w 10 5) (bitsAt w 7 3) (bitsAt w 4 3) (bitsAt w 0 4)) else
  if fld w 20 5 == 0x1 then some (.mxmma (bitsAt w 15 5) (bitsAt w 10 5) (bitsAt w 7 3) (bitsAt w 4 3) (bitsAt w 0 4)) else
  if fld w 20 5 == 0x2 then some (.mxrot (bitsAt w 15 5) (bitsAt w 10 5) (bitsAt w 7 3) (bitsAt w 4 3) (bitsAt w 0 4)) else
  if fld w 7 3 == 0x0 && fld w 15 10 == 0x60 then some (.mxswap (bitsAt w 10 5) (bitsAt w 4 3) (bitsAt w 0 4)) else
  if fld w 7 3 == 0x0 && fld w 15 10 == 0x80 then some (.mxclr (bitsAt w 10 5) (bitsAt w 4 3) (bitsAt w 0 4)) else
  if fld w 20 4 == 0x5 then some (.mxldacc (bitsAt w 24 1) (bitsAt w 15 5) (bitsAt w 10 5) (bitsAt w 7 3) (bitsAt w 4 3) (bitsAt w 0 4)) else
  if fld w 20 5 == 0x6 then some (.mxstacc (bitsAt w 15 5) (bitsAt w 10 5) (bitsAt w 7 3) (bitsAt w 4 3) (bitsAt w 0 4)) else
  if fld w 7 3 == 0x0 && fld w 20 5 == 0x7 then some (.mxscale (bitsAt w 15 5) (bitsAt w 10 5) (bitsAt w 4 3) (bitsAt w 0 4)) else
  if fld w 7 3 == 0x0 && fld w 20 5 == 0x8 then some (.mxrmax (bitsAt w 15 5) (bitsAt w 10 5) (bitsAt w 4 3) (bitsAt w 0 4)) else
  none

/-- Major 0x39 (R281). -/
noncomputable def rawMaj39 (w : Nat) : Option Instr :=
  if fld w 0 10 == 0x0 && fld w 20 5 == 0x0 then some (.mxquotaMv (bitsAt w 15 5) (bitsAt w 10 5)) else
  if fld w 0 10 == 0x10 && fld w 20 5 == 0x0 then some (.mxquotaWt (bitsAt w 15 5) (bitsAt w 10 5)) else
  if fld w 0 15 == 0x20 && fld w 20 5 == 0x0 then some (.mxteam (bitsAt w 15 5)) else
  if fld w 0 10 == 0x30 && fld w 20 5 == 0x0 then some (.mxres (bitsAt w 15 5) (bitsAt w 10 5)) else
  none

/-- Major 0x3A (R313). -/
noncomputable def rawMaj3A (w : Nat) : Option Instr :=
  if fld w 12 13 == 0x0 then some (.tbegin (bitsAt w 0 12)) else
  if fld w 0 20 == 0x1000 && fld w 23 2 == 0x0 then some (.tend (bitsAt w 20 3)) else
  if fld w 8 17 == 0x20 then some (.tabort (bitsAt w 0 8)) else
  if fld w 0 20 == 0x3000 then some (.tstat (bitsAt w 20 5)) else
  if fld w 3 12 == 0x800 then some (.txld (bitsAt w 20 5) (bitsAt w 15 5) (bitsAt w 0 3)) else
  if fld w 12 3 == 0x5 && fld w 20 5 == 0x0 then some (.tirrev (bitsAt w 15 5) (bitsAt w 0 12)) else
  if fld w 0 25 == 0x6000 then some (.txchk) else
  none

/-- Major 0x3B (R354). -/
noncomputable def rawMaj3B (w : Nat) : Option Instr :=
  if fld w 4 6 == 0x0 && fld w 20 5 == 0x0 then some (.launch (bitsAt w 15 5) (bitsAt w 10 5) (bitsAt w 0 4)) else
  if fld w 4 3 == 0x0 && fld w 10 15 == 0x400 then some (.spawn (bitsAt w 7 3) (bitsAt w 0 4)) else
  if fld w 4 3 == 0x0 && fld w 15 10 == 0x40 then some (.take (bitsAt w 10 5) (bitsAt w 7 3) (bitsAt w 0 4)) else
  if fld w 4 3 == 0x0 && fld w 15 10 == 0x60 then some (.takeL (bitsAt w 10 5) (bitsAt w 7 3) (bitsAt w 0 4)) else
  if fld w 4 3 == 0x0 && fld w 20 5 == 0x4 then some (.syncj (bitsAt w 15 5) (bitsAt w 10 5) (bitsAt w 7 3) (bitsAt w 0 4)) else
  if fld w 4 3 == 0x0 && fld w 10 15 == 0x1400 then some (.nest (bitsAt w 7 3) (bitsAt w 0 4)) else
  if fld w 4 6 == 0x0 && fld w 15 10 == 0xC0 then some (.iter (bitsAt w 10 5) (bitsAt w 0 4)) else
  if fld w 4 6 == 0x0 && fld w 15 10 == 0xE0 then some (.itnext (bitsAt w 10 5) (bitsAt w 0 4)) else
  if fld w 4 6 == 0x0 && fld w 17 8 == 0x40 then some (.ixmov (bitsAt w 15 2) (bitsAt w 10 5) (bitsAt w 0 4)) else
  none

/-- Major 0x3C (R371). -/
noncomputable def rawMaj3C (w : Nat) : Option Instr :=
  if fld w 7 3 == 0x0 then some (.mfs (bitsAt w 20 5) (bitsAt w 15 5) (bitsAt w 10 5) (bitsAt w 4 3) (bitsAt w 0 4)) else
  if fld w 7 3 == 0x1 then some (.mts (bitsAt w 20 5) (bitsAt w 15 5) (bitsAt w 10 5) (bitsAt w 4 3) (bitsAt w 0 4)) else
  if fld w 0 15 == 0x100 && fld w 20 5 == 0x0 then some (.sys (bitsAt w 15 5)) else
  if fld w 0 15 == 0x110 && fld w 20 5 == 0x0 then some (.trap (bitsAt w 15 5)) else
  if fld w 0 15 == 0x120 && fld w 20 5 == 0x0 then some (.eret (bitsAt w 15 5)) else
  if fld w 0 15 == 0x121 && fld w 20 5 == 0x0 then some (.eretN (bitsAt w 15 5)) else
  if fld w 0 10 == 0x130 && fld w 15 5 == 0x0 then some (.evwait (bitsAt w 20 5) (bitsAt w 10 5)) else
  if fld w 0 10 == 0x140 then some (.cstart (bitsAt w 20 5) (bitsAt w 15 5) (bitsAt w 10 5)) else
  if fld w 0 15 == 0x150 && fld w 20 5 == 0x0 then some (.cstop (bitsAt w 15 5)) else
  if fld w 0 10 == 0x160 && fld w 20 5 == 0x0 then some (.csave (bitsAt w 15 5) (bitsAt w 10 5)) else
  if fld w 0 10 == 0x170 then some (.crest (bitsAt w 20 5) (bitsAt w 15 5) (bitsAt w 10 5)) else
  if fld w 0 15 == 0x180 then some (.replay (bitsAt w 20 5) (bitsAt w 15 5)) else
  if fld w 0 15 == 0x181 then some (.replayDrop (bitsAt w 20 5) (bitsAt w 15 5)) else
  if fld w 2 8 == 0x64 && fld w 20 5 == 0x0 && (fld w 0 2 == 0x0 || (fld w 15 5 == 0x0 && (fld w 0 2 == 0x1 || fld w 10 5 == 0x0))) then some (.tlbinv (bitsAt w 15 5) (bitsAt w 10 5) (bitsAt w 0 2)) else
  if fld w 0 10 == 0x1A0 then some (.svcall (bitsAt w 20 5) (bitsAt w 15 5) (bitsAt w 10 5)) else
  none

/-- Major 0x3D (R420). -/
noncomputable def rawMaj3D (w : Nat) : Option Instr :=
  if fld w 0 10 == 0x0 && fld w 20 5 == 0x0 then some (.binfo (bitsAt w 15 5) (bitsAt w 10 5)) else
  if fld w 0 10 == 0x0 && fld w 20 5 == 0x1 then some (.bhome (bitsAt w 15 5) (bitsAt w 10 5)) else
  if fld w 0 10 == 0x0 && fld w 20 5 == 0x2 then some (.brack (bitsAt w 15 5) (bitsAt w 10 5)) else
  if fld w 0 10 == 0x0 && fld w 20 5 == 0x3 then some (.cmig (bitsAt w 15 5) (bitsAt w 10 5)) else
  if fld w 0 10 == 0x0 && fld w 20 5 == 0x4 then some (.cmigChk (bitsAt w 15 5) (bitsAt w 10 5)) else
  none

/-- The 32-bit majors (R56, R57): the outer answer is none for an unassigned major, the inner one for a
reserved encoding of an assigned major. -/
noncomputable def raw32 (w : Nat) : Option (Option Instr) :=
  match fld w 25 6 with
  | 0x00 => some (rawMaj00 w)
  | 0x3E => some (rawMaj3E w)
  | 0x01 => some (rawMaj01 w)
  | 0x02 => some (rawMaj02 w)
  | 0x03 => some (rawMaj03 w)
  | 0x04 => some (rawMaj04 w)
  | 0x05 => some (rawMaj05 w)
  | 0x06 => some (rawMaj06 w)
  | 0x07 => some (rawMaj07 w)
  | 0x08 => some (rawMaj08 w)
  | 0x09 => some (rawMaj09 w)
  | 0x0A => some (rawMaj0A w)
  | 0x0B => some (rawMaj0B w)
  | 0x0C => some (rawMaj0C w)
  | 0x0D => some (rawMaj0D w)
  | 0x10 => some (rawMaj10 w)
  | 0x11 => some (rawMaj11 w)
  | 0x12 => some (rawMaj12 w)
  | 0x13 => some (rawMaj13 w)
  | 0x14 => some (rawMaj14 w)
  | 0x15 => some (rawMaj15 w)
  | 0x16 => some (rawMaj16 w)
  | 0x17 => some (rawMaj17 w)
  | 0x18 => some (rawMaj18 w)
  | 0x19 => some (rawMaj19 w)
  | 0x1A => some (rawMaj1A w)
  | 0x1B => some (rawMaj1B w)
  | 0x20 => some (rawMaj20 w)
  | 0x21 => some (rawMaj21 w)
  | 0x22 => some (rawMaj22 w)
  | 0x23 => some (rawMaj23 w)
  | 0x24 => some (rawMaj24 w)
  | 0x25 => some (rawMaj25 w)
  | 0x26 => some (rawMaj26 w)
  | 0x27 => some (rawMaj27 w)
  | 0x28 => some (rawMaj28 w)
  | 0x2C => some (rawMaj2C w)
  | 0x2D => some (rawMaj2D w)
  | 0x2E => some (rawMaj2E w)
  | 0x30 => some (rawMaj30 w)
  | 0x31 => some (rawMaj31 w)
  | 0x32 => some (rawMaj32 w)
  | 0x33 => some (rawMaj33 w)
  | 0x34 => some (rawMaj34 w)
  | 0x36 => some (rawMaj36 w)
  | 0x37 => some (rawMaj37 w)
  | 0x38 => some (rawMaj38 w)
  | 0x39 => some (rawMaj39 w)
  | 0x3A => some (rawMaj3A w)
  | 0x3B => some (rawMaj3B w)
  | 0x3C => some (rawMaj3C w)
  | 0x3D => some (rawMaj3D w)
  | _ => none

/-- The 16-bit majors (R59, R62). -/
noncomputable def raw16 (w : Nat) : Option (Option Instr) :=
  match fld w 10 5 with
  | 0x00 => some (some (.illegalH (bitsAt w 0 10)))
  | 0x1F => some (some (.poolguard (bitsAt w 0 10)))
  | 0x01 => some (some (.movH (bitsAt w 5 5) (bitsAt w 0 5)))
  | 0x02 => some (some (.addH (bitsAt w 5 5) (bitsAt w 0 5)))
  | 0x03 => some (some (.subH (bitsAt w 5 5) (bitsAt w 0 5)))
  | 0x04 => some (some (.andH (bitsAt w 5 5) (bitsAt w 0 5)))
  | 0x05 => some (some (.orH (bitsAt w 5 5) (bitsAt w 0 5)))
  | 0x06 => some (some (.xorH (bitsAt w 5 5) (bitsAt w 0 5)))
  | 0x07 => some (some (.shliH (bitsAt w 5 5) (bitsAt w 0 5)))
  | 0x08 => some (some (.shriH (bitsAt w 5 5) (bitsAt w 0 5)))
  | 0x09 => some (some (.addiH (bitsAt w 5 5) (bitsAt w 0 5)))
  | 0x0A => some (some (.moviH (bitsAt w 5 5) (bitsAt w 0 5)))
  | 0x0B => some (some (.ldlH (bitsAt w 5 5) (bitsAt w 0 5)))
  | 0x0C => some (some (.stlH (bitsAt w 5 5) (bitsAt w 0 5)))
  | 0x0D => some (some (.bH (bitsAt w 0 10)))
  | 0x0E => some (if fld w 6 1 == 0x0 then some (.bqH (bitsAt w 7 3) (bitsAt w 0 6)) else if fld w 6 1 == 0x1 then some (.bnqH (bitsAt w 7 3) (bitsAt w 0 6)) else none)
  | 0x0F => some (if fld w 0 10 == 0x0 then some (.retH) else none)
  | 0x10 => some (if fld w 0 10 == 0x0 then some (.nopH) else none)
  | 0x11 => some (if fld w 0 6 == 0x0 then some (.ifq (bitsAt w 7 3) (bitsAt w 6 1)) else none)
  | 0x12 => some (if fld w 0 10 == 0x0 then some (.joinH) else none)
  | 0x13 => some (if fld w 0 10 == 0x0 then some (.haltH) else none)
  | _ => none

/-- The check of R62 after the fields are read: a form the table does not have, or an operand value its
entry reserves, is a reserved encoding. -/
def checkRaw : Option (Option Instr) → Except Reject Instr
  | none => .error .unassigned
  | some none => .error .reserved
  | some (some i) => if i.wf then .ok i else .error .reserved

/-- A 32-bit instruction. -/
noncomputable def decode32 (w : Nat) : Except Reject Instr := checkRaw (raw32 w)

/-- A 16-bit instruction. -/
noncomputable def decode16 (w : Nat) : Except Reject Instr := checkRaw (raw16 w)

/-- R36: decode at the head of a list of bytes, little-endian halfwords, first halfword first. Answers the
instruction and the bytes after it. -/
noncomputable def decodeBytes : List Byte → Except Reject (Instr × List Byte)
  | b0 :: b1 :: rest =>
    let h := b0.toNat + 256 * b1.toNat
    if h < 0x8000 then
      match decode16 h with
      | .ok i => .ok (i, rest)
      | .error e => .error e
    else
      match rest with
      | b2 :: b3 :: rest' =>
        match decode32 (h * 65536 + b2.toNat + 256 * b3.toNat) with
        | .ok i => .ok (i, rest')
        | .error e => .error e
      | _ => .error .short
  | _ => .error .short

/-- The bytes of a halfword (R28). -/
def halfBytes (h : Nat) : List Byte := [BitVec.ofNat 8 h, BitVec.ofNat 8 (h / 256)]

/-- The bytes of the instruction whose table word is w: W[31:16] stands first (R36). -/
def tableBytes (nbits w : Nat) : List Byte :=
  if nbits = 16 then halfBytes (w % 65536)
  else halfBytes (w / 65536 % 65536) ++ halfBytes (w % 65536)

/-- The instruction that the decoder reads from a word of the opcode table. -/
noncomputable def decodeTableWord (nbits w : Nat) : Option Instr :=
  match decodeBytes (tableBytes nbits w) with
  | .ok (i, []) => some i
  | _ => none

/-- An encoded instruction: its length in bits and its word. -/
structure Enc where
  nbits : Nat
  word : Nat
  deriving DecidableEq, Repr

/-- A word: its fixed bits and each field at its place. -/
def enc (nbits base : Nat) (fields : List (Nat × Nat)) : Option Enc :=
  some ⟨nbits, fields.foldr (fun f acc => f.2 * 2 ^ f.1 + acc) base⟩

/-- The word of an instruction; none for a step that no program can write. -/
def encode : Instr → Option Enc
  | .issueCycle _ _ => none
  | .instructionFetchMissFill _ _ _ => none
  | .loadDataReturn _ _ _ _ => none
  | .storePerformed _ _ _ _ => none
  | .windowSpill _ _ _ => none
  | .windowFill _ _ _ => none
  | .multiplyResult _ _ _ _ => none
  | .divideResult _ _ => none
  | .fpLongResult _ _ _ _ => none
  | .sharedRegisterEffect _ _ => none
  | .sharedRegisterFeRetry _ _ _ => none
  | .nwrAttempt _ _ _ => none
  | .nwrLand _ _ _ => none
  | .fuseGroupForm _ _ _ => none
  | .fuseTimeout _ _ _ => none
  | .bmodeSwitchEnd _ => none
  | .bmodeWrite _ _ _ => none
  | .blockElement _ _ => none
  | .vectorCycle _ _ => none
  | .vectorResultWrite _ _ _ => none
  | .streamFetch _ _ => none
  | .streamStore _ _ => none
  | .copyEngineStep _ => none
  | .copyComplete _ _ => none
  | .matrixArbitrate _ => none
  | .matrixAccessStop _ _ => none
  | .matrixCommandComplete _ _ => none
  | .mxrotTransfer _ _ _ => none
  | .networkArbitrate _ => none
  | .sliceServe _ => none
  | .sliceRequestStarved _ => none
  | .ownerRmw _ => none
  | .feParkedRetry _ => none
  | .scopeMissNotification _ => none
  | .hbmWriteback _ => none
  | .writeUpdateAck _ _ => none
  | .fanoutTimeout _ _ => none
  | .keepaliveLoss _ => none
  | .monitorTrigger _ _ _ _ => none
  | .monwaitEnd _ _ _ => none
  | .monwaitTimeout _ _ _ => none
  | .monstatWakeWrite _ _ _ _ => none
  | .barrierRelease _ _ _ => none
  | .rupdSend _ _ _ _ => none
  | .txCommitLockReply _ _ _ _ => none
  | .txCommitDeadline _ _ _ => none
  | .txCommitApplied _ _ _ _ => none
  | .txstatAbortreqWrite _ _ _ _ => none
  | .weirTokenGrant _ => none
  | .irrevocableLockGrant _ _ _ => none
  | .irrevocablePreemptTimeout _ _ _ => none
  | .submissionWrite _ _ _ => none
  | .dependenceReread _ _ => none
  | .recordAged _ _ => none
  | .placementRound _ _ => none
  | .cohortEnd _ _ => none
  | .dequeOperation _ _ => none
  | .stealProbe _ _ => none
  | .contextStop _ _ _ => none
  | .watchdogExpire _ _ _ => none
  | .evwaitTimeout _ _ => none
  | .atsCompletion _ _ _ => none
  | .priResponse _ _ => none
  | .atsInvalidateRequest _ _ _ => none
  | .uncorrectableError _ _ _ => none
  | .correctedError _ _ => none
  | .resizePhaseStart _ => none
  | .resizePhaseEnd _ => none
  | .phaseDeadline _ => none
  | .rehashHandover _ _ => none
  | .rehashFirstTouch _ _ => none
  | .scrubComplete _ _ => none
  | .rillRetire _ _ => none
  | .packageReset => none
  | .hostCxlMemAccess _ _ _ => none
  | .hostCxlCacheSnoop _ => none
  | .hostAtomicop _ _ _ _ _ => none
  | .hmsgRingHeadWrite _ _ => none
  | .notifyOverflowClear _ _ => none
  | .appCoreLaunchStore _ _ => none
  | .uifPop _ => none
  | .linkRouteLoss _ => none
  | .guestKeepaliveLoss _ => none
  | .powerMeasure _ => none
  | .powerBudgetAdjust => none
  | .serviceComplete _ => none
  | .ident _ => none
  | .basinCreate _ => none
  | .basinDestroy _ => none
  | .basinResize _ => none
  | .basinStatus _ => none
  | .queueConfig _ => none
  | .queueStatus _ => none
  | .launchCancel _ => none
  | .hmsgqConfig _ => none
  | .notifyConfig _ => none
  | .uifConfig _ => none
  | .coreStart _ => none
  | .coreStop _ => none
  | .coreStatus _ => none
  | .hostWindow _ => none
  | .errlogRead _ => none
  | .errlogClear _ => none
  | .retireRequest _ => none
  | .spareStatus _ => none
  | .powerLimit _ => none
  | .powerStatus _ => none
  | .telemetry _ => none
  | .imageStage _ => none
  | .imageSwitch _ => none
  | .imageStatus _ => none
  | .measureRead _ => none
  | .zclConfig _ => none
  | .zclStatus _ => none
  | .zclGrant _ => none
  | .timeSync _ => none
  | .eventRing _ => none
  | .echo _ => none
  | .getVersion _ => none
  | .getCapabilities _ => none
  | .negotiateAlgorithms _ => none
  | .getDigests _ => none
  | .getCertificate _ => none
  | .challenge _ => none
  | .getMeasurements _ => none
  | .frint d a x r => enc 32 0xDC000000 [(20, d.toNat), (15, a.toNat), (7, x.toNat), (4, x.toNat), (0, r.toNat)]
  | .dqspillWrite _ _ => none
  | .contextHalted _ _ _ => none
  | .notifyRingHeadWrite _ _ => none
  | .keepaliveReturn _ => none
  | .routeReturn _ => none
  | .zclRemoteRequest _ _ _ _ => none
  | .applicationCoreAccess _ _ _ _ _ => none
  | .configurationRequest => none
  | .illegal x => enc 32 0x80000000 [(0, x.toNat)]
  | .extensionSpace x => enc 32 0xFC000000 [(0, x.toNat)]
  | .illegalH x => enc 16 0x0000 [(0, x.toNat)]
  | .poolguard x => enc 16 0x7C00 [(0, x.toNat)]
  | .add d a b => enc 32 0x82000000 [(20, d.toNat), (15, a.toNat), (10, b.toNat)]
  | .sub d a b => enc 32 0x82000010 [(20, d.toNat), (15, a.toNat), (10, b.toNat)]
  | .and d a b => enc 32 0x82000020 [(20, d.toNat), (15, a.toNat), (10, b.toNat)]
  | .or d a b => enc 32 0x82000030 [(20, d.toNat), (15, a.toNat), (10, b.toNat)]
  | .xor d a b => enc 32 0x82000040 [(20, d.toNat), (15, a.toNat), (10, b.toNat)]
  | .andn d a b => enc 32 0x82000050 [(20, d.toNat), (15, a.toNat), (10, b.toNat)]
  | .orn d a b => enc 32 0x82000060 [(20, d.toNat), (15, a.toNat), (10, b.toNat)]
  | .xnor d a b => enc 32 0x82000070 [(20, d.toNat), (15, a.toNat), (10, b.toNat)]
  | .shl d a b => enc 32 0x82000080 [(20, d.toNat), (15, a.toNat), (10, b.toNat)]
  | .shr d a b => enc 32 0x82000090 [(20, d.toNat), (15, a.toNat), (10, b.toNat)]
  | .sra d a b => enc 32 0x820000A0 [(20, d.toNat), (15, a.toNat), (10, b.toNat)]
  | .ror d a b => enc 32 0x820000B0 [(20, d.toNat), (15, a.toNat), (10, b.toNat)]
  | .min d a b => enc 32 0x820000C0 [(20, d.toNat), (15, a.toNat), (10, b.toNat)]
  | .max d a b => enc 32 0x820000D0 [(20, d.toNat), (15, a.toNat), (10, b.toNat)]
  | .minz d a b => enc 32 0x820000E0 [(20, d.toNat), (15, a.toNat), (10, b.toNat)]
  | .maxz d a b => enc 32 0x820000F0 [(20, d.toNat), (15, a.toNat), (10, b.toNat)]
  | .adds d a b => enc 32 0x82000100 [(20, d.toNat), (15, a.toNat), (10, b.toNat)]
  | .subs d a b => enc 32 0x82000110 [(20, d.toNat), (15, a.toNat), (10, b.toNat)]
  | .addzs d a b => enc 32 0x82000120 [(20, d.toNat), (15, a.toNat), (10, b.toNat)]
  | .subzs d a b => enc 32 0x82000130 [(20, d.toNat), (15, a.toNat), (10, b.toNat)]
  | .shadd d a b s => enc 32 0x82000140 [(20, d.toNat), (15, a.toNat), (10, b.toNat), (0, s.toNat)]
  | .mul d a b l => enc 32 0x84000000 [(20, d.toNat), (15, a.toNat), (10, b.toNat), (0, l.toNat)]
  | .mulh d a b l => enc 32 0x84000010 [(20, d.toNat), (15, a.toNat), (10, b.toNat), (0, l.toNat)]
  | .mulhz d a b l => enc 32 0x84000020 [(20, d.toNat), (15, a.toNat), (10, b.toNat), (0, l.toNat)]
  | .mulhsz d a b l => enc 32 0x84000030 [(20, d.toNat), (15, a.toNat), (10, b.toNat), (0, l.toNat)]
  | .div d a b l => enc 32 0x84000040 [(20, d.toNat), (15, a.toNat), (10, b.toNat), (0, l.toNat)]
  | .divz d a b l => enc 32 0x84000050 [(20, d.toNat), (15, a.toNat), (10, b.toNat), (0, l.toNat)]
  | .rem d a b l => enc 32 0x84000060 [(20, d.toNat), (15, a.toNat), (10, b.toNat), (0, l.toNat)]
  | .remz d a b l => enc 32 0x84000070 [(20, d.toNat), (15, a.toNat), (10, b.toNat), (0, l.toNat)]
  | .ext d a b => enc 32 0x86000000 [(20, d.toNat), (15, a.toNat), (10, b.toNat)]
  | .extz d a b => enc 32 0x86000010 [(20, d.toNat), (15, a.toNat), (10, b.toNat)]
  | .ins d a b => enc 32 0x86000020 [(20, d.toNat), (15, a.toNat), (10, b.toNat)]
  | .clz d a => enc 32 0x86000030 [(20, d.toNat), (15, a.toNat)]
  | .ctz d a => enc 32 0x86000040 [(20, d.toNat), (15, a.toNat)]
  | .cls d a => enc 32 0x86000050 [(20, d.toNat), (15, a.toNat)]
  | .popc d a => enc 32 0x86000060 [(20, d.toNat), (15, a.toNat)]
  | .brev d a => enc 32 0x86000070 [(20, d.toNat), (15, a.toNat)]
  | .bswap d a => enc 32 0x86000080 [(20, d.toNat), (15, a.toNat)]
  | .bperm d a b => enc 32 0x86000090 [(20, d.toNat), (15, a.toNat), (10, b.toNat)]
  | .addi d a i => enc 32 0x88000000 [(20, d.toNat), (15, a.toNat), (0, i.toNat)]
  | .andi d a i => enc 32 0x8A000000 [(20, d.toNat), (15, a.toNat), (0, i.toNat)]
  | .ori d a i => enc 32 0x8C000000 [(20, d.toNat), (15, a.toNat), (0, i.toNat)]
  | .xori d a i => enc 32 0x8E000000 [(20, d.toNat), (15, a.toNat), (0, i.toNat)]
  | .shli d a p => enc 32 0x90000000 [(20, d.toNat), (15, a.toNat), (0, p.toNat)]
  | .shri d a p => enc 32 0x90001000 [(20, d.toNat), (15, a.toNat), (0, p.toNat)]
  | .srai d a p => enc 32 0x90002000 [(20, d.toNat), (15, a.toNat), (0, p.toNat)]
  | .rori d a p => enc 32 0x90003000 [(20, d.toNat), (15, a.toNat), (0, p.toNat)]
  | .exti d a n p => enc 32 0x90004000 [(20, d.toNat), (15, a.toNat), (6, n.toNat), (0, p.toNat)]
  | .extzi d a n p => enc 32 0x90005000 [(20, d.toNat), (15, a.toNat), (6, n.toNat), (0, p.toNat)]
  | .insi d a n p => enc 32 0x90006000 [(20, d.toNat), (15, a.toNat), (6, n.toNat), (0, p.toNat)]
  | .cmpi c q a i => enc 32 0x92000000 [(23, c.toNat), (20, q.toNat), (15, a.toNat), (0, i.toNat)]
  | .lui d i => enc 32 0x94000000 [(20, d.toNat), (0, i.toNat)]
  | .addpc d i => enc 32 0x96000000 [(20, d.toNat), (0, i.toNat)]
  | .cmp q a b c => enc 32 0x98000000 [(20, q.toNat), (15, a.toNat), (10, b.toNat), (4, c.toNat)]
  | .sel d a b n => enc 32 0x98000080 [(20, d.toNat), (15, a.toNat), (10, b.toNat), (0, n.toNat)]
  | .mvqr d q => enc 32 0x98000090 [(20, d.toNat), (15, q.toNat)]
  | .mvrq q a => enc 32 0x980000A0 [(20, q.toNat), (15, a.toNat)]
  | .pand q a b => enc 32 0x980000B0 [(20, q.toNat), (15, a.toNat), (10, b.toNat)]
  | .por q a b => enc 32 0x980000C0 [(20, q.toNat), (15, a.toNat), (10, b.toNat)]
  | .pxor q a b => enc 32 0x980000D0 [(20, q.toNat), (15, a.toNat), (10, b.toNat)]
  | .pandn q a b => enc 32 0x980000E0 [(20, q.toNat), (15, a.toNat), (10, b.toNat)]
  | .porn q a b => enc 32 0x980000F0 [(20, q.toNat), (15, a.toNat), (10, b.toNat)]
  | .mrd d m => enc 32 0x9A000000 [(20, d.toNat), (10, m.toNat)]
  | .mwr m a => enc 32 0x9A000010 [(20, m.toNat), (15, a.toNat)]
  | .mrdfe d m => enc 32 0x9A000020 [(20, d.toNat), (10, m.toNat)]
  | .mrdff d m => enc 32 0x9A000030 [(20, d.toNat), (10, m.toNat)]
  | .mwrfe m a => enc 32 0x9A000040 [(20, m.toNat), (15, a.toNat)]
  | .mwrff m a => enc 32 0x9A000050 [(20, m.toNat), (15, a.toNat)]
  | .mfeclr m => enc 32 0x9A000060 [(20, m.toNat)]
  | .rempty d => enc 32 0x9A000100 [(20, d.toNat)]
  | .rfull d => enc 32 0x9A000110 [(20, d.toNat)]
  | .rtest q a => enc 32 0x9A000120 [(20, q.toNat), (15, a.toNat)]
  | .nwrE d a => enc 32 0x9A000200 [(20, d.toNat), (15, a.toNat)]
  | .nwrW d a => enc 32 0x9A000210 [(20, d.toNat), (15, a.toNat)]
  | .lox n a => enc 32 0x9A000380 [(20, n.toNat), (15, a.toNat)]
  | .mox d n => enc 32 0x9A000390 [(20, d.toNat), (10, n.toNat)]
  | .loxm n a k => enc 32 0x9A0003A0 [(20, n.toNat), (15, a.toNat), (10, k.toNat)]
  | .ld d a t p l => enc 32 0xA0000000 [(20, d.toNat), (15, a.toNat), (12, t.toNat), (4, p.toNat), (0, l.toNat)]
  | .st d a t p l => enc 32 0xA2000000 [(20, d.toNat), (15, a.toNat), (12, t.toNat), (4, p.toNat), (0, l.toNat)]
  | .ldIndexed d a b s t l => enc 32 0xA4000000 [(20, d.toNat), (15, a.toNat), (10, b.toNat), (7, s.toNat), (4, t.toNat), (0, l.toNat)]
  | .stIndexed d a b s t l => enc 32 0xA4000200 [(20, d.toNat), (15, a.toNat), (10, b.toNat), (7, s.toNat), (4, t.toNat), (0, l.toNat)]
  | .bmov n a b e l => enc 32 0xA6000000 [(20, n.toNat), (15, a.toNat), (10, b.toNat), (5, e.toNat), (0, l.toNat)]
  | .bmovd n a b e l => enc 32 0xA6000080 [(20, n.toNat), (15, a.toNat), (10, b.toNat), (5, e.toNat), (0, l.toNat)]
  | .bfill n a b e l => enc 32 0xA6000100 [(20, n.toNat), (15, a.toNat), (10, b.toNat), (5, e.toNat), (0, l.toNat)]
  | .bscanEq n a b e l => enc 32 0xA6000180 [(20, n.toNat), (15, a.toNat), (10, b.toNat), (5, e.toNat), (0, l.toNat)]
  | .bscanNe n a b e l => enc 32 0xA6000200 [(20, n.toNat), (15, a.toNat), (10, b.toNat), (5, e.toNat), (0, l.toNat)]
  | .cpf a p l => enc 32 0xA8000000 [(15, a.toNat), (4, p.toNat), (0, l.toNat)]
  | .cwb a p l => enc 32 0xA8001000 [(15, a.toNat), (4, p.toNat), (0, l.toNat)]
  | .cflush a p l => enc 32 0xA8002000 [(15, a.toNat), (4, p.toNat), (0, l.toNat)]
  | .czero a p l => enc 32 0xA8003000 [(15, a.toNat), (4, p.toNat), (0, l.toNat)]
  | .cpfw a p l => enc 32 0xA8004000 [(15, a.toNat), (4, p.toNat), (0, l.toNat)]
  | .iinv r a p l => enc 32 0xA8005000 [(20, r.toNat), (15, a.toNat), (4, p.toNat), (0, l.toNat)]
  | .fence s => enc 32 0xAA000000 [(0, s.toNat)]
  | .fenceAcq s => enc 32 0xAA000080 [(0, s.toNat)]
  | .fenceRel s => enc 32 0xAA000100 [(0, s.toNat)]
  | .fenceRelWiden a b s => enc 32 0xAA000100 [(15, a.toNat), (10, b.toNat), (0, s.toNat)]
  | .fenceXp => enc 32 0xAA000180 []
  | .lda d a q t x s => enc 32 0xAA000200 [(20, d.toNat), (15, a.toNat), (10, q.toNat), (4, t.toNat), (3, x.toNat), (0, s.toNat)]
  | .strel d a t s => enc 32 0xAA000280 [(20, d.toNat), (15, a.toNat), (4, t.toNat), (0, s.toNat)]
  | .ldfe d a p l => enc 32 0xAC000000 [(20, d.toNat), (15, a.toNat), (4, p.toNat), (0, l.toNat)]
  | .ldff d a p l => enc 32 0xAC001000 [(20, d.toNat), (15, a.toNat), (4, p.toNat), (0, l.toNat)]
  | .stfe d a p l => enc 32 0xAC002000 [(20, d.toNat), (15, a.toNat), (4, p.toNat), (0, l.toNat)]
  | .stff d a p l => enc 32 0xAC003000 [(20, d.toNat), (15, a.toNat), (4, p.toNat), (0, l.toNat)]
  | .feclr a p l => enc 32 0xAC004000 [(15, a.toNat), (4, p.toNat), (0, l.toNat)]
  | .amoadd d a b z o l => enc 32 0xAE000000 [(20, d.toNat), (15, a.toNat), (10, b.toNat), (5, z.toNat), (4, o.toNat), (0, l.toNat)]
  | .amoand d a b z o l => enc 32 0xAE000040 [(20, d.toNat), (15, a.toNat), (10, b.toNat), (5, z.toNat), (4, o.toNat), (0, l.toNat)]
  | .amoor d a b z o l => enc 32 0xAE000080 [(20, d.toNat), (15, a.toNat), (10, b.toNat), (5, z.toNat), (4, o.toNat), (0, l.toNat)]
  | .amoxor d a b z o l => enc 32 0xAE0000C0 [(20, d.toNat), (15, a.toNat), (10, b.toNat), (5, z.toNat), (4, o.toNat), (0, l.toNat)]
  | .amomin d a b z o l => enc 32 0xAE000100 [(20, d.toNat), (15, a.toNat), (10, b.toNat), (5, z.toNat), (4, o.toNat), (0, l.toNat)]
  | .amomax d a b z o l => enc 32 0xAE000140 [(20, d.toNat), (15, a.toNat), (10, b.toNat), (5, z.toNat), (4, o.toNat), (0, l.toNat)]
  | .amominz d a b z o l => enc 32 0xAE000180 [(20, d.toNat), (15, a.toNat), (10, b.toNat), (5, z.toNat), (4, o.toNat), (0, l.toNat)]
  | .amomaxz d a b z o l => enc 32 0xAE0001C0 [(20, d.toNat), (15, a.toNat), (10, b.toNat), (5, z.toNat), (4, o.toNat), (0, l.toNat)]
  | .amoxchg d a b z o l => enc 32 0xAE000200 [(20, d.toNat), (15, a.toNat), (10, b.toNat), (5, z.toNat), (4, o.toNat), (0, l.toNat)]
  | .amofadd d a b z o l => enc 32 0xAE000240 [(20, d.toNat), (15, a.toNat), (10, b.toNat), (5, z.toNat), (4, o.toNat), (0, l.toNat)]
  | .cas d a b z e s l => enc 32 0xB0000000 [(20, d.toNat), (15, a.toNat), (10, b.toNat), (9, z.toNat), (7, e.toNat), (4, s.toNat), (0, l.toNat)]
  | .rupd p a b c l => enc 32 0xB2000000 [(20, p.toNat), (15, a.toNat), (10, b.toNat), (4, c.toNat), (0, l.toNat)]
  | .rupdAddzZ64 a b o c l => enc 32 0xB2B00000 [(15, a.toNat), (10, b.toNat), (7, o.toNat), (4, c.toNat), (0, l.toNat)]
  | .rupdAddzZ32 a b o c l => enc 32 0xB2C00000 [(15, a.toNat), (10, b.toNat), (7, o.toNat), (4, c.toNat), (0, l.toNat)]
  | .vamo p a b v f m l => enc 32 0xB3000000 [(20, p.toNat), (15, a.toNat), (10, b.toNat), (6, v.toNat), (5, f.toNat), (4, m.toNat), (0, l.toNat)]
  | .monarm k a => enc 32 0xB4000000 [(20, k.toNat), (15, a.toNat)]
  | .mondis k => enc 32 0xB4000010 [(20, k.toNat)]
  | .monwait d b => enc 32 0xB4000020 [(20, d.toNat), (10, b.toNat)]
  | .hmsg d a => enc 32 0xB4000030 [(20, d.toNat), (15, a.toNat)]
  | .barcfg a n => enc 32 0xB6000000 [(15, a.toNat), (10, n.toNat)]
  | .bararv d n => enc 32 0xB6000010 [(20, d.toNat), (10, n.toNat)]
  | .barwait a n => enc 32 0xB6000020 [(15, a.toNat), (10, n.toNat)]
  | .barsync n => enc 32 0xB6000030 [(10, n.toNat)]
  | .waitlt c k => enc 32 0xB6000100 [(20, c.toNat), (10, k.toNat)]
  | .waitltr c a => enc 32 0xB6000110 [(20, c.toNat), (15, a.toNat)]
  | .bra p => enc 32 0xC0000000 [(0, p.toNat)]
  | .call p => enc 32 0xC2000000 [(0, p.toNat)]
  | .bl p => enc 32 0xC2100000 [(0, p.toNat)]
  | .bq q p => enc 32 0xC4000000 [(20, q.toNat), (0, p.toNat)]
  | .bnq q p => enc 32 0xC6000000 [(20, q.toNat), (0, p.toNat)]
  | .bcmp a b c p => enc 32 0xC8000000 [(20, a.toNat), (15, b.toNat), (12, c.toNat), (0, p.toNat)]
  | .bcmpi a i c p => enc 32 0xCA000000 [(20, a.toNat), (15, i.toNat), (12, c.toNat), (0, p.toNat)]
  | .jr a => enc 32 0xCC000000 [(15, a.toNat)]
  | .jl d a => enc 32 0xCC000010 [(20, d.toNat), (15, a.toNat)]
  | .callr a => enc 32 0xCC000020 [(15, a.toNat)]
  | .ret => enc 32 0xCC000030 []
  | .loopn a p => enc 32 0xCE000000 [(20, a.toNat), (0, p.toNat)]
  | .loopns a b p => enc 32 0xCE001000 [(20, a.toNat), (15, b.toNat), (0, p.toNat)]
  | .fuse d a b => enc 32 0xD0000000 [(20, d.toNat), (15, a.toNat), (10, b.toNat)]
  | .split => enc 32 0xD0000010 []
  | .rgn p => enc 32 0xD0000020 [(10, p.toNat)]
  | .join => enc 32 0xD0000030 []
  | .brk n => enc 32 0xD0000040 [(10, n.toNat)]
  | .vote q r t => enc 32 0xD0000050 [(20, q.toNat), (15, r.toNat), (0, t.toNat)]
  | .ballot d q => enc 32 0xD0000060 [(20, d.toNat), (15, q.toNat)]
  | .shfl d a b m => enc 32 0xD0000070 [(20, d.toNat), (15, a.toNat), (10, b.toNat), (0, m.toNat)]
  | .fadd d a b f r => enc 32 0xD8000000 [(20, d.toNat), (15, a.toNat), (10, b.toNat), (4, f.toNat), (0, r.toNat)]
  | .fsub d a b f r => enc 32 0xD8000040 [(20, d.toNat), (15, a.toNat), (10, b.toNat), (4, f.toNat), (0, r.toNat)]
  | .fmul d a b f r => enc 32 0xD8000080 [(20, d.toNat), (15, a.toNat), (10, b.toNat), (4, f.toNat), (0, r.toNat)]
  | .fma d a b f r => enc 32 0xD80000C0 [(20, d.toNat), (15, a.toNat), (10, b.toNat), (4, f.toNat), (0, r.toNat)]
  | .fnma d a b f r => enc 32 0xD8000100 [(20, d.toNat), (15, a.toNat), (10, b.toNat), (4, f.toNat), (0, r.toNat)]
  | .fmin d a b f => enc 32 0xD8000140 [(20, d.toNat), (15, a.toNat), (10, b.toNat), (4, f.toNat)]
  | .fmax d a b f => enc 32 0xD8000180 [(20, d.toNat), (15, a.toNat), (10, b.toNat), (4, f.toNat)]
  | .fsgnj d a b f => enc 32 0xD80001C0 [(20, d.toNat), (15, a.toNat), (10, b.toNat), (4, f.toNat)]
  | .fsgnjn d a b f => enc 32 0xD8000200 [(20, d.toNat), (15, a.toNat), (10, b.toNat), (4, f.toNat)]
  | .fsgnjx d a b f => enc 32 0xD8000240 [(20, d.toNat), (15, a.toNat), (10, b.toNat), (4, f.toNat)]
  | .fclass d a f => enc 32 0xD8000280 [(20, d.toNat), (15, a.toNat), (4, f.toNat)]
  | .fcmp q a b f c => enc 32 0xD80002C0 [(20, q.toNat), (15, a.toNat), (10, b.toNat), (4, f.toNat), (0, c.toNat)]
  | .fldexp d a b f r => enc 32 0xD8000300 [(20, d.toNat), (15, a.toNat), (10, b.toNat), (4, f.toNat), (0, r.toNat)]
  | .fmxsc d a e => enc 32 0xD8000350 [(20, d.toNat), (15, a.toNat), (0, e.toNat)]
  | .fdiv d a b f l => enc 32 0xDA000000 [(20, d.toNat), (15, a.toNat), (10, b.toNat), (4, f.toNat), (0, l.toNat)]
  | .fsqrt d a f l => enc 32 0xDA000040 [(20, d.toNat), (15, a.toNat), (4, f.toNat), (0, l.toNat)]
  | .frcp d a f l => enc 32 0xDA000080 [(20, d.toNat), (15, a.toNat), (4, f.toNat), (0, l.toNat)]
  | .frsqrt d a f l => enc 32 0xDA0000C0 [(20, d.toNat), (15, a.toNat), (4, f.toNat), (0, l.toNat)]
  | .fexp2 d a f l => enc 32 0xDA000100 [(20, d.toNat), (15, a.toNat), (4, f.toNat), (0, l.toNat)]
  | .flog2 d a f l => enc 32 0xDA000140 [(20, d.toNat), (15, a.toNat), (4, f.toNat), (0, l.toNat)]
  | .fsinpi d a f l => enc 32 0xDA000180 [(20, d.toNat), (15, a.toNat), (4, f.toNat), (0, l.toNat)]
  | .fcospi d a f l => enc 32 0xDA0001C0 [(20, d.toNat), (15, a.toNat), (4, f.toNat), (0, l.toNat)]
  | .fcvt d a x y r => enc 32 0xDC000000 [(20, d.toNat), (15, a.toNat), (7, x.toNat), (4, y.toNat), (0, r.toNat)]
  | .vadd d a b m t => enc 32 0xE0000000 [(20, d.toNat), (15, a.toNat), (10, b.toNat), (3, m.toNat), (0, t.toNat)]
  | .vsub d a b m t => enc 32 0xE0000010 [(20, d.toNat), (15, a.toNat), (10, b.toNat), (3, m.toNat), (0, t.toNat)]
  | .vmul d a b m t => enc 32 0xE0000020 [(20, d.toNat), (15, a.toNat), (10, b.toNat), (3, m.toNat), (0, t.toNat)]
  | .vfma d a b m t => enc 32 0xE0000030 [(20, d.toNat), (15, a.toNat), (10, b.toNat), (3, m.toNat), (0, t.toNat)]
  | .vfnma d a b m t => enc 32 0xE0000040 [(20, d.toNat), (15, a.toNat), (10, b.toNat), (3, m.toNat), (0, t.toNat)]
  | .vmin d a b m t => enc 32 0xE0000050 [(20, d.toNat), (15, a.toNat), (10, b.toNat), (3, m.toNat), (0, t.toNat)]
  | .vmax d a b m t => enc 32 0xE0000060 [(20, d.toNat), (15, a.toNat), (10, b.toNat), (3, m.toNat), (0, t.toNat)]
  | .vabs d a m t => enc 32 0xE0000070 [(20, d.toNat), (15, a.toNat), (3, m.toNat), (0, t.toNat)]
  | .vneg d a m t => enc 32 0xE0000080 [(20, d.toNat), (15, a.toNat), (3, m.toNat), (0, t.toNat)]
  | .vldexp d a b m t => enc 32 0xE0000090 [(20, d.toNat), (15, a.toNat), (10, b.toNat), (3, m.toNat), (0, t.toNat)]
  | .vexp2 d a m t => enc 32 0xE00000A0 [(20, d.toNat), (15, a.toNat), (3, m.toNat), (0, t.toNat)]
  | .vrcp d a m t => enc 32 0xE00000B0 [(20, d.toNat), (15, a.toNat), (3, m.toNat), (0, t.toNat)]
  | .vrsqrt d a m t => enc 32 0xE00000C0 [(20, d.toNat), (15, a.toNat), (3, m.toNat), (0, t.toNat)]
  | .vlog2 d a m t => enc 32 0xE00000D0 [(20, d.toNat), (15, a.toNat), (3, m.toNat), (0, t.toNat)]
  | .vcmp a b c m t => enc 32 0xE0000100 [(15, a.toNat), (10, b.toNat), (4, c.toNat), (3, m.toNat), (0, t.toNat)]
  | .vand d a b m t => enc 32 0xE0000140 [(20, d.toNat), (15, a.toNat), (10, b.toNat), (3, m.toNat), (0, t.toNat)]
  | .vor d a b m t => enc 32 0xE0000150 [(20, d.toNat), (15, a.toNat), (10, b.toNat), (3, m.toNat), (0, t.toNat)]
  | .vxor d a b m t => enc 32 0xE0000160 [(20, d.toNat), (15, a.toNat), (10, b.toNat), (3, m.toNat), (0, t.toNat)]
  | .vshl d a b m t => enc 32 0xE0000170 [(20, d.toNat), (15, a.toNat), (10, b.toNat), (3, m.toNat), (0, t.toNat)]
  | .vshr d a b m t => enc 32 0xE0000180 [(20, d.toNat), (15, a.toNat), (10, b.toNat), (3, m.toNat), (0, t.toNat)]
  | .vsra d a b m t => enc 32 0xE0000190 [(20, d.toNat), (15, a.toNat), (10, b.toNat), (3, m.toNat), (0, t.toNat)]
  | .vminz d a b m t => enc 32 0xE00001A0 [(20, d.toNat), (15, a.toNat), (10, b.toNat), (3, m.toNat), (0, t.toNat)]
  | .vmaxz d a b m t => enc 32 0xE00001B0 [(20, d.toNat), (15, a.toNat), (10, b.toNat), (3, m.toNat), (0, t.toNat)]
  | .vadds d a b m t => enc 32 0xE00001C0 [(20, d.toNat), (15, a.toNat), (10, b.toNat), (3, m.toNat), (0, t.toNat)]
  | .vsubs d a b m t => enc 32 0xE00001D0 [(20, d.toNat), (15, a.toNat), (10, b.toNat), (3, m.toNat), (0, t.toNat)]
  | .vaddzs d a b m t => enc 32 0xE00001E0 [(20, d.toNat), (15, a.toNat), (10, b.toNat), (3, m.toNat), (0, t.toNat)]
  | .vsubzs d a b m t => enc 32 0xE00001F0 [(20, d.toNat), (15, a.toNat), (10, b.toNat), (3, m.toNat), (0, t.toNat)]
  | .vbcast d a m t => enc 32 0xE0000200 [(20, d.toNat), (15, a.toNat), (3, m.toNat), (0, t.toNat)]
  | .vmov d a m t => enc 32 0xE0000210 [(20, d.toNat), (15, a.toNat), (3, m.toNat), (0, t.toNat)]
  | .vrsum d a m t => enc 32 0xE2000000 [(20, d.toNat), (15, a.toNat), (3, m.toNat), (0, t.toNat)]
  | .vrmax d a m t => enc 32 0xE2000010 [(20, d.toNat), (15, a.toNat), (3, m.toNat), (0, t.toNat)]
  | .vrmin d a m t => enc 32 0xE2000020 [(20, d.toNat), (15, a.toNat), (3, m.toNat), (0, t.toNat)]
  | .vramax d a m t => enc 32 0xE2000030 [(20, d.toNat), (15, a.toNat), (3, m.toNat), (0, t.toNat)]
  | .vperm d a b m t => enc 32 0xE2000040 [(20, d.toNat), (15, a.toNat), (10, b.toNat), (3, m.toNat), (0, t.toNat)]
  | .vext d a b t => enc 32 0xE2000050 [(20, d.toNat), (15, a.toNat), (10, b.toNat), (0, t.toNat)]
  | .vins d a b t => enc 32 0xE2000060 [(20, d.toNat), (15, a.toNat), (10, b.toNat), (0, t.toNat)]
  | .vrot d a b m t => enc 32 0xE2000070 [(20, d.toNat), (15, a.toNat), (10, b.toNat), (3, m.toNat), (0, t.toNat)]
  | .vld d a b m e l => enc 32 0xE4000000 [(20, d.toNat), (15, a.toNat), (10, b.toNat), (9, m.toNat), (4, e.toNat), (0, l.toNat)]
  | .vst d a b m e l => enc 32 0xE4000040 [(20, d.toNat), (15, a.toNat), (10, b.toNat), (9, m.toNat), (4, e.toNat), (0, l.toNat)]
  | .vlds d a b m e l => enc 32 0xE4000080 [(20, d.toNat), (15, a.toNat), (10, b.toNat), (9, m.toNat), (4, e.toNat), (0, l.toNat)]
  | .vsts d a b m e l => enc 32 0xE40000C0 [(20, d.toNat), (15, a.toNat), (10, b.toNat), (9, m.toNat), (4, e.toNat), (0, l.toNat)]
  | .vgath d a b m e l => enc 32 0xE4000100 [(20, d.toNat), (15, a.toNat), (10, b.toNat), (9, m.toNat), (4, e.toNat), (0, l.toNat)]
  | .vscat d a b m e l => enc 32 0xE4000140 [(20, d.toNat), (15, a.toNat), (10, b.toNat), (9, m.toNat), (4, e.toNat), (0, l.toNat)]
  | .vcvt d a s x m p => enc 32 0xE6000000 [(20, d.toNat), (15, a.toNat), (10, s.toNat), (6, x.toNat), (3, m.toNat), (0, p.toNat)]
  | .vseq a k => enc 32 0xE8000000 [(15, a.toNat), (0, k.toNat)]
  | .sbindIn x v b o c l => enc 32 0xEC060000 [(24, x.toNat), (15, v.toNat), (10, b.toNat), (7, o.toNat), (4, c.toNat), (0, l.toNat)]
  | .sbindOut v b o c l => enc 32 0xEC160000 [(15, v.toNat), (10, b.toNat), (7, o.toNat), (4, c.toNat), (0, l.toNat)]
  | .sunbind v => enc 32 0xEC260000 [(15, v.toNat)]
  | .sdrain v => enc 32 0xEC360000 [(15, v.toNat)]
  | .sstat v d => enc 32 0xEC460000 [(15, v.toNat), (10, d.toNat)]
  | .sres a b => enc 32 0xEC500000 [(15, a.toNat), (10, b.toNat)]
  | .copy x t o c l => enc 32 0xEE000000 [(24, x.toNat), (15, t.toNat), (7, o.toNat), (4, c.toNat), (0, l.toNat)]
  | .copyg x t o c l => enc 32 0xEE100000 [(24, x.toNat), (15, t.toNat), (7, o.toNat), (4, c.toNat), (0, l.toNat)]
  | .copyf t v o c l => enc 32 0xEE200000 [(15, t.toNat), (10, v.toNat), (7, o.toNat), (4, c.toNat), (0, l.toNat)]
  | .cres a b => enc 32 0xEE300000 [(15, a.toNat), (10, b.toNat)]
  | .mxldb x a b o c l => enc 32 0xF0000000 [(24, x.toNat), (15, a.toNat), (10, b.toNat), (7, o.toNat), (4, c.toNat), (0, l.toNat)]
  | .mxmma a b o c l => enc 32 0xF0100000 [(15, a.toNat), (10, b.toNat), (7, o.toNat), (4, c.toNat), (0, l.toNat)]
  | .mxrot a b o c l => enc 32 0xF0200000 [(15, a.toNat), (10, b.toNat), (7, o.toNat), (4, c.toNat), (0, l.toNat)]
  | .mxswap b c l => enc 32 0xF0300000 [(10, b.toNat), (4, c.toNat), (0, l.toNat)]
  | .mxclr b c l => enc 32 0xF0400000 [(10, b.toNat), (4, c.toNat), (0, l.toNat)]
  | .mxldacc x a b o c l => enc 32 0xF0500000 [(24, x.toNat), (15, a.toNat), (10, b.toNat), (7, o.toNat), (4, c.toNat), (0, l.toNat)]
  | .mxstacc a b o c l => enc 32 0xF0600000 [(15, a.toNat), (10, b.toNat), (7, o.toNat), (4, c.toNat), (0, l.toNat)]
  | .mxscale a b c l => enc 32 0xF0700000 [(15, a.toNat), (10, b.toNat), (4, c.toNat), (0, l.toNat)]
  | .mxrmax a b c l => enc 32 0xF0800000 [(15, a.toNat), (10, b.toNat), (4, c.toNat), (0, l.toNat)]
  | .mxquotaMv a b => enc 32 0xF2000000 [(15, a.toNat), (10, b.toNat)]
  | .mxquotaWt a b => enc 32 0xF2000010 [(15, a.toNat), (10, b.toNat)]
  | .mxteam a => enc 32 0xF2000020 [(15, a.toNat)]
  | .mxres a b => enc 32 0xF2000030 [(15, a.toNat), (10, b.toNat)]
  | .tbegin p => enc 32 0xF4000000 [(0, p.toNat)]
  | .tend q => enc 32 0xF4001000 [(20, q.toNat)]
  | .tabort c => enc 32 0xF4002000 [(0, c.toNat)]
  | .tstat d => enc 32 0xF4003000 [(20, d.toNat)]
  | .txld d b t => enc 32 0xF4004000 [(20, d.toNat), (15, b.toNat), (0, t.toNat)]
  | .tirrev b p => enc 32 0xF4005000 [(15, b.toNat), (0, p.toNat)]
  | .txchk => enc 32 0xF4006000 []
  | .launch a s l => enc 32 0xF6000000 [(15, a.toNat), (10, s.toNat), (0, l.toNat)]
  | .spawn k l => enc 32 0xF6100000 [(7, k.toNat), (0, l.toNat)]
  | .take s k l => enc 32 0xF6200000 [(10, s.toNat), (7, k.toNat), (0, l.toNat)]
  | .takeL s k l => enc 32 0xF6300000 [(10, s.toNat), (7, k.toNat), (0, l.toNat)]
  | .syncj a s k l => enc 32 0xF6400000 [(15, a.toNat), (10, s.toNat), (7, k.toNat), (0, l.toNat)]
  | .nest k l => enc 32 0xF6500000 [(7, k.toNat), (0, l.toNat)]
  | .iter s l => enc 32 0xF6600000 [(10, s.toNat), (0, l.toNat)]
  | .itnext s l => enc 32 0xF6700000 [(10, s.toNat), (0, l.toNat)]
  | .ixmov n d l => enc 32 0xF6800000 [(15, n.toNat), (10, d.toNat), (0, l.toNat)]
  | .mfs d k y x z => enc 32 0xF8000000 [(20, d.toNat), (15, k.toNat), (10, y.toNat), (4, x.toNat), (0, z.toNat)]
  | .mts k a y x z => enc 32 0xF8000080 [(20, k.toNat), (15, a.toNat), (10, y.toNat), (4, x.toNat), (0, z.toNat)]
  | .sys a => enc 32 0xF8000100 [(15, a.toNat)]
  | .trap a => enc 32 0xF8000110 [(15, a.toNat)]
  | .eret a => enc 32 0xF8000120 [(15, a.toNat)]
  | .eretN a => enc 32 0xF8000121 [(15, a.toNat)]
  | .evwait d b => enc 32 0xF8000130 [(20, d.toNat), (10, b.toNat)]
  | .cstart d a b => enc 32 0xF8000140 [(20, d.toNat), (15, a.toNat), (10, b.toNat)]
  | .cstop a => enc 32 0xF8000150 [(15, a.toNat)]
  | .csave a b => enc 32 0xF8000160 [(15, a.toNat), (10, b.toNat)]
  | .crest d a b => enc 32 0xF8000170 [(20, d.toNat), (15, a.toNat), (10, b.toNat)]
  | .replay d a => enc 32 0xF8000180 [(20, d.toNat), (15, a.toNat)]
  | .replayDrop d a => enc 32 0xF8000181 [(20, d.toNat), (15, a.toNat)]
  | .tlbinv a b m => enc 32 0xF8000190 [(15, a.toNat), (10, b.toNat), (0, m.toNat)]
  | .svcall d a b => enc 32 0xF80001A0 [(20, d.toNat), (15, a.toNat), (10, b.toNat)]
  | .binfo a s => enc 32 0xFA000000 [(15, a.toNat), (10, s.toNat)]
  | .bhome a s => enc 32 0xFA100000 [(15, a.toNat), (10, s.toNat)]
  | .brack a s => enc 32 0xFA200000 [(15, a.toNat), (10, s.toNat)]
  | .cmig a s => enc 32 0xFA300000 [(15, a.toNat), (10, s.toNat)]
  | .cmigChk a s => enc 32 0xFA400000 [(15, a.toNat), (10, s.toNat)]
  | .movH d b => enc 16 0x0400 [(5, d.toNat), (0, b.toNat)]
  | .addH d b => enc 16 0x0800 [(5, d.toNat), (0, b.toNat)]
  | .subH d b => enc 16 0x0C00 [(5, d.toNat), (0, b.toNat)]
  | .andH d b => enc 16 0x1000 [(5, d.toNat), (0, b.toNat)]
  | .orH d b => enc 16 0x1400 [(5, d.toNat), (0, b.toNat)]
  | .xorH d b => enc 16 0x1800 [(5, d.toNat), (0, b.toNat)]
  | .shliH d i => enc 16 0x1C00 [(5, d.toNat), (0, i.toNat)]
  | .shriH d i => enc 16 0x2000 [(5, d.toNat), (0, i.toNat)]
  | .addiH d i => enc 16 0x2400 [(5, d.toNat), (0, i.toNat)]
  | .moviH d i => enc 16 0x2800 [(5, d.toNat), (0, i.toNat)]
  | .ldlH d k => enc 16 0x2C00 [(5, d.toNat), (0, k.toNat)]
  | .stlH d k => enc 16 0x3000 [(5, d.toNat), (0, k.toNat)]
  | .bH p => enc 16 0x3400 [(0, p.toNat)]
  | .bqH q p => enc 16 0x3800 [(7, q.toNat), (0, p.toNat)]
  | .bnqH q p => enc 16 0x3840 [(7, q.toNat), (0, p.toNat)]
  | .retH => enc 16 0x3C00 []
  | .nopH => enc 16 0x4000 []
  | .ifq q n => enc 16 0x4400 [(7, q.toNat), (6, n.toNat)]
  | .joinH => enc 16 0x4800 []
  | .haltH => enc 16 0x4C00 []

/-- The halfwords of an encoded instruction in the order they stand in memory. -/
def Enc.halfwords (e : Enc) : List (BitVec 16) :=
  if e.nbits = 16 then [BitVec.ofNat 16 e.word]
  else [BitVec.ofNat 16 (e.word / 65536), BitVec.ofNat 16 e.word]

end Sys2Proof
end

