-- ==== Sys2Proof/Machine/Image.lean ====
section
/-! DEFINITION. The save image of a context: CSAVE and CREST (R388 to R392, R394). -/

namespace Sys2Proof.Machine

/-- A word of an image with its poison bit. -/
abbrev IWord := Word × Bool

/-! ### Replay entries (R394) -/

/-- FN of an instruction word: type for WM, sub for WX, fn for WA. -/
def fnOf (code : Nat) : Nat :=
  let maj := code / 2 ^ 25 % 64
  if [0x10, 0x11, 0x14, 0x16].contains maj then code / 2 ^ 12 % 8
  else if [0x19, 0x3B].contains maj then code / 2 ^ 20 % 32
  else code / 2 ^ 4 % 64

/-- Entries of element forms name elements by MASK. -/
def elementForm (maj fn : Nat) : Bool := maj == 0x32 || maj == 0x0D || (maj == 0x19 && decide (16 ≤ fn))

/-- DREG, DWIN and DCLASS of a destination. -/
def Ctx.destFields (c : Ctx) : Dest → Nat × Nat × Nat
  | .g n => (n, 0, 0)
  | .win n =>
    if n / 16 = c.depth then (24 + n % 16, c.resident - 1, 0) else (8 + n % 16, n / 16 - (c.depth - c.resident), 0)
  | .v n => (n, 0, 1)
  | .ox n => (n, 0, 2)
  | .none => (0, 0, 0)
  | .q _ => (0, 0, 0)

/-- The destination of an access still waits for it: nothing has filled it since, or is to fill it in its place. -/
def Ctx.awaits (c : Ctx) (a : Access) : Bool :=
  match a.dst with
  | .v n =>
    let x := c.vreg n
    !x.full && (x.src == a.src || c.vectorWriter x.src) && decide (c.vWrote.get 0 n ≤ a.seq)
  | .g n => let x := c.cellAt (.g n); !x.full && x.src == a.src
  | .win n => let x := c.cellAt (.win n); !x.full && x.src == a.src
  | .ox _ => true
  | .q _ => true
  | .none => true

/-- DREG of an entry: its lowest ox register for LOXM, the slot of MONARM, the reach of IINV. A result that nothing waits for
any more goes to g0 (log entry 154). -/
def Ctx.dregOf (c : Ctx) (a : Access) : Nat × Nat × Nat :=
  match a.kind with
  | .monarm k => (k, 0, 0)
  | .iinv r => (r, 0, 0)
  | .load _ => match a.dst with
    | .ox n => (n - a.elem, 0, 2)
    | d => if c.awaits a then c.destFields d else (0, 0, 0)
  | _ => if c.awaits a then c.destFields a.dst else (0, 0, 0)

/-- AUX of an entry: the new value of CAS; the scope of LDA and STREL, the counter of RUPD, the ox block of SYNCJ, the
stride of an element form, 1 for a registration that CREST makes again, and for a store one more than the scope of its release tag. -/
def Access.auxWord (a : Access) : Word :=
  match a.kind with
  | .cas _ _ => a.data
  | .lda _ sc _ => w64 sc
  | .strel sc => w64 sc
  | .rupd _ => w64 (a.cc.getD 0)
  | .joinRead k => w64 k
  | .monarm _ => a.aux
  | .store => if a.ext.length = 2 && fnOf a.code % 32 == 12 + fnOf a.code % 4 then a.ext.getD 1 0 else w64 (a.tag.elim 0 fun t => t + 1)
  | .czero => w64 (a.tag.elim 0 fun t => t + 1)
  | _ => a.ext.getD 1 0

/-- Data of an entry: one word, or a vector register with the elements of the mask. -/
def dataWords (elem : Bool) (accs : List Access) : List Word :=
  if elem then
    let v := accs.foldl (fun m a => m + a.data.toNat % 2 ^ (8 * a.size) * 2 ^ (8 * a.size * a.elem)) 0
    (List.range 4).map fun i => w64 (v / 2 ^ (64 * i))
  else match accs with
    | a :: _ => [match a.kind with
      | .cas _ _ => a.aux
      | _ => a.data, 0, 0, 0]
    | [] => [0, 0, 0, 0]

/-- The EXT words: an index vector; the tag of a strided store; a task record, then the target word. -/
def Access.extWords (a : Access) (elem : Bool) : List Word :=
  if elem then
    (if a.ext.length = 2 then [match a.kind with
      | .store => w64 (a.tag.elim 0 fun t => t + 1)
      | _ => 0, 0, 0, 0] else a.ext.drop 2) ++ [0]
  else match a.kind with
    | .rupd _ => a.ext
    | .joinInc => a.ext
    | _ => []

/-- The sixteen words of an entry. -/
def Ctx.entryWords (c : Ctx) (e : REntry) : List IWord :=
  match e.accs with
  | [] => []
  | a :: _ =>
    let maj := a.code / 2 ^ 25 % 64
    let fn := fnOf a.code
    let elem := elementForm maj fn
    let (dreg, dwin, dclass) := c.dregOf a
    let qs := match a.kind with
      | .lda _ _ (some q) => q
      | _ => 0
    let f (b : Bool) (n : Nat) : Nat := if b then 2 ^ n else 0
    let cas := match a.kind with
      | .cas _ _ => true
      | _ => false
    let ctl := 1 + e.cause * 2 ^ 8 + maj * 2 ^ 21 + fn * 2 ^ 27 + dreg * 2 ^ 33 + dwin * 2 ^ 38 + dclass * 2 ^ 40
      + f (if cas then a.auxPoison else a.poison) 42 + f (cas && a.poison) 43 + qs * 2 ^ 44 + e.seq % 2 ^ 16 * 2 ^ 48
    let mask := if elem then e.accs.foldl (fun m x => m + 2 ^ x.elem) 0 else 0
    let ext := a.extWords elem
    ([w64 ctl, if elem then a.ext.getD 0 0 else a.va, w64 mask, a.auxWord] ++ dataWords elem e.accs
      ++ (List.range 5).map fun i => ext.getD i 0).map fun w => (w, false)

/-! ### The areas of an image (R389 to R391) -/

def bitsOf (xs : List Bool) : Nat := sumOf (xs.mapIdx fun i b => if b then 2 ^ i else 0)

def cellWord (x : Cell) : IWord := (x.val, x.poison)

/-- System registers in the order of R389. -/
def imageSrs : List Nat :=
  [0x010, 0x011, 0x012, 0x013, 0x020, 0x021, 0x022, 0x099, 0x030, 0x031, 0x032, 0x098, 0x040, 0x041, 0x050, 0x051, 0x052,
    0x060, 0x090, 0x091, 0x092, 0x093, 0x094, 0x095, 0x096, 0x097, 0x080, 0x09A, 0x09B, 0x09C, 0x09D, 0x0A0]

/-- Window slot w of the resident windows. -/
def Ctx.slotCells (c : Ctx) (w : Nat) : List Cell :=
  (List.range 16).map fun i => if w < c.resident then c.win.get {} (16 * (c.depth - c.resident + w) + i) else {}

/-- A register field by its place in the current window. -/
def Ctx.regOf (c : Ctx) : Dest → Nat
  | .g n => n
  | .win n => 8 + (n - 16 * (c.depth - 1))
  | _ => 0

/-- The header (R390). -/
def State.headerWords (s : State) (p : Pos) : List Nat :=
  let c := s.ctx p
  let cur := (List.range 8).map fun i => c.reg (BitVec.ofNat 5 (24 + i))
  let gs := (List.range 8).map fun i => c.reg (BitVec.ofNat 5 i)
  let oxs := (List.range 8).map c.oxReg
  let ixs := (List.range 4).map c.ixReg
  let vs := (List.range 16).map c.vreg
  let qs := (List.range 8).map fun i => c.pred (BitVec.ofNat 3 i)
  let reason := match c.wait with
    | some (.barrier n ph) => 1 + n * 2 ^ 4 + ph * 2 ^ 16
    | some (.monwait d t) => 2 + c.regOf d * 2 ^ 8 + t * 2 ^ 32
    | _ => 0
  [0x7E09 + 2 ^ 16 + p.k * 2 ^ 24 + s.rillNumber p.b p.r * 2 ^ 32 + c.resident * 2 ^ 48 + (if c.team.isSome then 2 ^ 51 else 0),
   reason, (c.team.getD 0).toNat,
   bitsOf (qs.map fun x => x.val) + bitsOf (qs.map fun x => x.full) * 2 ^ 8 + bitsOf (qs.map fun x => x.poison) * 2 ^ 16,
   bitsOf (oxs.map fun x => x.full) + bitsOf (oxs.map fun x => x.poison) * 2 ^ 8 + bitsOf (ixs.map fun x => x.full) * 2 ^ 16
     + bitsOf (ixs.map fun x => x.poison) * 2 ^ 20,
   bitsOf (vs.map fun x => x.full) + bitsOf (vs.map fun x => x.poison) * 2 ^ 16,
   bitsOf (gs.map fun x => x.full) + bitsOf (cur.map fun x => x.full) * 2 ^ 8 + bitsOf (gs.map fun x => x.poison) * 2 ^ 16
     + bitsOf (cur.map fun x => x.poison) * 2 ^ 24, 0]

/-- The sequencer header. The layout holds one block, at the front: of other blocks it has no word, so that their entries
are restored as entries of their own (model's choice, log entry 64). -/
def Ctx.seqHeader (c : Ctx) : Word :=
  let first := c.vseq.head?.bind fun e => c.vblocks.find? fun v => v.id == e.blk
  w64 (c.vseq.length + first.elim 0 fun v => 2 ^ 5 + (v.size - 1) * 2 ^ 8 + v.pos * 2 ^ 12 + (v.reps - 1) * 2 ^ 32)

/-- Blocks of no repetitions have ended: nothing of them is left to execute (R246). -/
def Ctx.endIdles (c : Ctx) (logged : List Access) : Ctx :=
  (c.vblocks.filter fun v => v.missing == 0 && v.reps == 0).foldl (fun x v => x.endIdle logged v) c

def VEntry.words (e : VEntry) : List IWord :=
  [(w64 (e.word % 2 ^ 32 + 2 ^ 32), false), (e.x, false), (e.y, false),
   (w64 ((if e.xp then 1 else 0) + if e.yp then 2 else 0), false)]

def Stream.words (x : Stream) : List IWord :=
  [x.base, x.w1, x.w2, x.w3, x.ctl, x.status, w64 (x.cc + if x.xp then 8 else 0), 0].map fun w => (w, false)

def Nest.words (x : Nest) : List IWord :=
  [(x.line, false), (x.extents, false), (x.parts, false), (w64 (1 + if x.current then 2 else 0), false), (w64 x.start, false),
   (w64 x.size, false), (w64 x.unpacked, false), (w64 x.ticket, x.poison)]

def MxCmd.words (q : MxCmd) : List IWord :=
  [w64 (1 + q.op * 2 + (if q.xp then 2 ^ 5 else 0) + q.cc * 2 ^ 6 + (if q.team.isSome then 2 ^ 9 else 0) + q.rm * 2 ^ 10
      + if q.satf then 2 ^ 13 else 0), q.a, q.b, q.o0, q.o1, q.team.getD 0, 0, 0].map fun w => (w, false)

/-- A block of n words, filled up with zeros. -/
def padTo (n : Nat) (xs : List IWord) : List IWord := (List.range n).map fun i => xs.getD i (0, false)

/-- Replay entries of a context, in program order. -/
def State.ownEntries (s : State) (p : Pos) : List (Nat × REntry) :=
  entriesInOrder ((s.rill p.b p.r).replay.filter fun e => e.2.pos == p)

/-- The 1024 words of the image of a context. -/
def State.image (s : State) (p : Pos) : List IWord :=
  let c := s.ctx p
  let plain (ws : List Word) : List IWord := ws.map fun w => (w, false)
  let tag (w : Nat) : Word :=
    let xs := c.slotCells w
    if w < c.resident then w64 (bitsOf (xs.map fun x => x.full) + bitsOf (xs.map fun x => x.poison) * 2 ^ 16) else 0
  plain ((s.headerWords p).map w64)
    ++ ((List.range 8).map fun i => cellWord (c.reg (BitVec.ofNat 5 i)))
    ++ ((List.range 4).flatMap fun w => (c.slotCells w).map cellWord)
    ++ ((List.range 8).map fun i => cellWord (c.reg (BitVec.ofNat 5 (24 + i))))
    ++ padTo 8 (plain ((List.range 4).map tag))
    ++ ((List.range 8).map fun i => cellWord (c.oxReg i))
    ++ padTo 8 ((List.range 4).map fun i => cellWord (c.ixReg i))
    ++ plain (imageSrs.map fun n => s.srAt p n)
    ++ ((List.range 16).flatMap fun i => (vecWords (c.vreg i).val).map fun w => (w, (c.vreg i).poison))
    ++ padTo 8 [(c.seqHeader, false)]
    ++ padTo 64 (c.vseq.flatMap VEntry.words)
    ++ ((List.range 4).flatMap fun v => padTo 8 ((c.streams.find v).elim [] Stream.words))
    ++ padTo 8 (c.nest.elim [] Nest.words)
    ++ padTo 192 ((((s.braid p.b).mx.filter fun q => q.rill == p.r && q.ctx == p.k)).flatMap fun q => padTo 8 q.words)
    ++ padTo 512 ((s.ownEntries p).flatMap fun e => padTo 16 (c.entryWords e.2))

/-! ### CSAVE (R388) -/

/-- The place of word i of an image, for reads or writes of context 15. -/
inductive Reach where
  | at (acc : Access)
  | fault (cause : Nat) (ea : Word)
  | ask
  | poisoned
  deriving DecidableEq, Repr

def State.reachWord (s : State) (img : Word) (i : Nat) (write : Bool) : State × Reach :=
  let ea := img + w64 (8 * i)
  let acc : Access :=
    { id := s.nextId, seq := s.me.seq, kind := if write then .store else .load false, va := ea, size := 8
      tag := if write then s.me.relTag else none }
  match addressFault ea 8 false true with
  | some c => (s, .fault c ea)
  | none =>
    if bit ea 55 then (s, .at { acc with pa := localPlace s.cur.b ea })
    else match s.translate s.cur ea { r := !write, w := write } with
      | (s1, .ok pa leaf) => (s1, .at { acc with pa := pa, sync := bit leaf 6, nc := bit leaf 8 })
      | (s1, .fault c _) => (s1, .fault c ea)
      | (s1, .ask) => (s1, .ask)
      | (s1, .poisoned) => (s1, .poisoned)

/-- Pieces of n bytes from va, none of which crosses a 4 KiB boundary. -/
def pieces : Nat → Nat → Nat → List (Nat × Nat)
  | 0, _, _ => []
  | fuel + 1, va, n =>
    if n = 0 then []
    else
      let k := min n (4096 - va % 4096)
      (va, k) :: pieces fuel (va + k) (n - k)

/-- The words of a piece, from the access to its first word. -/
def wordsOf (a : Access) (n : Nat) : List Access :=
  (List.range (n / 8)).map fun i => { a with va := a.va + w64 (8 * i), pa := a.pa + 8 * i }

/-- The words of an image in ascending order, piece by piece, up to the first that cannot be reached. -/
def reachFrom (img : Word) (write : Bool) (xs : List Access) : List (Nat × Nat) → State → State × List Access × Option Reach
  | [], s => (s, xs, none)
  | (va, n) :: t, s =>
    match s.reachWord img ((va - img.toNat) / 8) write with
    | (s1, .at a) => reachFrom img write (xs ++ wordsOf a n) t s1
    | (s1, r) => (s1, xs, some r)

/-- The 8 KiB of an image at img. -/
def imagePieces (img : Word) : List (Nat × Nat) := pieces 3 img.toNat 8192

/-- The lines of an image. -/
def imageLines (xs : List Access) : List Nat := xs.foldl (fun l x => setInsert l (lineOf x.pa)) []

/-- The words are stored in order. -/
def storeWords (p : Pos) : List (Access × IWord) → State → State
  | [], s => s
  | (a, w) :: t, s => storeWords p t ((s.storeEffect p { a with data := w.1, poison := w.2 }).scan a.pa)

/-- What a save takes away: replay entries, unstarted matrix commands, stream slots, monitors; the context is empty. A
lane of a group that holds issue after SYS leaves it (R108). -/
def State.emptyContext (s : State) (p : Pos) : State :=
  let s0 := if (s.groupOf p).isSome then (s.modCtx p fun c => { c with left := some 0x10 }).leaveGroup p else s
  let mine := (s0.rill p.b p.r).replay.filter fun e => e.2.pos == p
  let s1 := mine.foldl (fun t e => e.2.accs.foldl (fun z a => match a.cc with
    | some m => z.lowerCc p.b p.r m
    | none => z) (t.dropEntry p.b p.r e.1)) s0
  let s2 := ((s1.braid p.b).mx.filter fun q => q.rill == p.r && q.ctx == p.k).foldl (fun t q => t.removeMx p.b q) s1
  let s3 := s2.unbindAll p
  let s4 : State := { s3 with triggers := s3.triggers.filter fun t => t.1 != p }
  s4.modCtx p fun c => { c with run := .empty, mons := [], cohort := c.cohort, wait := none, vseq := [], vblocks := [], nest := none, team := none }

/-- A stopped stream slot, copy command or matrix command of the context. -/
def State.stoppedOf (s : State) (p : Pos) : Bool :=
  ((s.ctx p).streams.any fun x => x.2.flt) || ((s.braid p.b).copies.any fun q => q.rill == p.r && q.ctx == p.k && q.phase == 2)
    || (s.braid p.b).mx.any fun q => q.rill == p.r && q.ctx == p.k && q.phase == 2

def execCsave (a b : BitVec 5) (s : State) : Res :=
  outsideTx s 0x3C <| supervisorOnly s <| withControls s a b fun v img =>
    let p : Pos := { s.cur with k := field v 3 0 }
    let st := (s.ctx p).state
    if p.k = 15 || st == 0 || st == 1 then targetTrap s p.k
    else if field img 5 0 != 0 then trapped s 0x06 img
    else if st = 2 then parked s .drain
    else if s.stoppedOf p then trapped s 0x05 (w64 (0x8000000000000100 + p.k))
    else if !s.saveReady p then parked s .drain
    else
      let words := (s.modCtx p fun c => c.endIdles (s.loggedOf p)).image p
      let (s1, xs, r) := reachFrom img true [] (imagePieces img) s
      if r == some .ask then parked s1 .translation
      else if xs.any fun x => !s1.mayPerform s1.cur x then parked s1 .lock
      else match s1.gateInLine s1.cur (commitAgent s1.cur) s1.me.seq (imageLines xs) fun n => xs.any fun x => x.sync && lineOf x.pa == n with
      | (sg, false) => parked sg .lock
      | (sg, true) =>
        let s2 := storeWords s1.cur (xs.zip words) sg
        match r with
        | some (.fault c ea) => .next (s2.trapAs c ea s2.ulen s2.upc true)
        | some .poisoned => .next (s2.contain (s2.basinOf s2.cur.b))
        | some (.at _) => .next s2.advance
        | some .ask => .next s2.advance
        | none =>
          .next (s2.emptyContext p).advance

/-! ### CREST (R392) -/

/-- The bytes that the layout names in word i, as a mask of the word; a whole word where an entry that is not VALID
leaves it without a meaning. -/
def namedBytes (team : Bool) (i : Nat) : Nat :=
  let b (n : Nat) : Nat := 2 ^ (8 * n) - 1
  let all := b 8
  if i = 0 then b 7
  else if i = 2 then (if team then all else 0)
  else if i = 3 || i == 4 then b 3
  else if i = 5 || i == 6 then b 4
  else if i = 7 then 0
  else if 88 ≤ i ∧ i < 92 then b 4
  else if 92 ≤ i ∧ i < 96 then 0
  else if 108 ≤ i ∧ i < 112 then 0
  else if i = 208 then b 2 + (all - b 4)
  else if 209 ≤ i ∧ i < 216 then 0
  else if 216 ≤ i ∧ i < 280 then (if i % 4 = 0 then b 5 else if i % 4 = 3 then b 1 else all)
  else if 280 ≤ i ∧ i < 312 then (if i % 8 = 6 then b 1 else if i % 8 = 7 then 0 else all)
  else if i = 315 then b 1
  else if 320 ≤ i ∧ i < 448 then (if i % 8 = 0 then b 2 else if i % 8 = 6 || i % 8 == 7 then 0 else all)
  else if 448 ≤ i ∧ i < 512 then 0
  else if 512 ≤ i then (if 13 ≤ i % 16 then 0 else all)
  else all

/-- An image that has been read. -/
abbrev Img := List IWord
def Img.w (x : Img) (i : Nat) : Word := (x.getD i (0, false)).1
def Img.bad (x : Img) (i : Nat) : Bool := (x.getD i (0, false)).2

/-- Vector instruction words that a sequencer entry may hold: those that R47, R247, R249 and R253 do not reserve. -/
def vecWordOk (w : Nat) : Bool :=
  let fn := w / 16 % 64
  let t := w % 8
  let m := w / 8 % 2
  let vd := w / 2 ^ 24 % 2 == 0
  let va := w / 2 ^ 19 % 2 == 0
  let vb := w / 2 ^ 14 % 2 == 0
  let d := w / 2 ^ 20 % 32
  let b := w / 2 ^ 10 % 32
  w / 2 ^ 31 == 1 && match w / 2 ^ 25 % 64 with
    | 0x30 =>
      if fn ≤ 6 then vd && va && vb
      else if fn ≤ 8 then vd && va && b == 0
      else if fn = 9 then vd && va && decide (t ≤ 3)
      else if fn ≤ 0x0D then vd && va && b == 0 && decide (t ≤ 3)
      else if fn ≤ 0x0F then false
      else if fn ≤ 0x13 then d == 0 && va && vb
      else if fn ≤ 0x1F then vd && va && vb && decide (4 ≤ t)
      else if fn = 0x20 then vd && b == 0
      else fn == 0x21 && vd && va && b == 0
    | 0x31 =>
      if fn ≤ 2 then va && b == 0
      else if fn = 3 then va && b == 0 && decide (t ≤ 3)
      else if fn = 4 then vd && va && vb
      else if fn = 5 then va && m == 0
      else if fn = 6 then vd && m == 0
      else fn == 7 && vd && va
    | 0x33 => w / 16 % 4 == 0 && vd && va && vcvtOk (BitVec.ofNat 5 b) (BitVec.ofNat 4 (w / 2 ^ 6 % 16)) (BitVec.ofNat 3 t)
    | _ => false

/-- The entry that an instruction word makes. -/
def entryOf (w : Nat) : VEntry :=
  let maj := w / 2 ^ 25 % 64
  let fn := w / 16 % 64
  let d := w / 2 ^ 20 % 16
  let a := w / 2 ^ 15 % 16
  let b := w / 2 ^ 10 % 16
  let m := w / 8 % 2 == 1
  let e : VEntry := { id := 0, seq := 0, major := maj, fn := fn, d := d, a := a, b := b, m := m, t := w % 8, word := w }
  if maj = 0x33 then { e with fn := w / 2 ^ 6 % 16, b := w / 2 ^ 10 % 32 }
  else if maj = 0x30 then
    if fn = 0x20 then { e with a := 0, b := 0 } else if fn = 9 then { e with b := 0 } else e
  else if fn ≤ 3 then { e with d := 0, b := 0 }
  else if fn = 5 then { e with d := 0, b := 0, m := false }
  else if fn = 6 then { e with a := 0, b := 0, m := false }
  else if fn = 7 then { e with b := 0 }
  else e

/-- The access of a scalar replay entry, by MAJ and FN. -/
def scalarAccess (maj fn dreg qs : Nat) (aux : Word) (ext : List Word) : Option Access :=
  let mk (k : AccKind) (size : Nat) : Option Access := some { id := 0, seq := 0, kind := k, va := 0, size := size }
  let store (size : Nat) : Option Access :=
    some { id := 0, seq := 0, kind := .store, va := 0, size := size, tag := if aux = 0 then none else some (aux.toNat - 1) }
  match maj with
  | 0x10 => mk (.load (typeSigned fn)) (typeSize fn)
  | 0x11 => if fn < 4 then store (typeSize fn) else none
  | 0x12 => if fn < 32 then mk (.load (typeSigned (fn % 8))) (typeSize fn) else if fn % 8 < 4 then store (typeSize fn) else none
  | 0x14 =>
    if fn = 1 then mk .cwb 64 else if fn = 2 then mk .cflush 64
    else if fn = 3 then
      some { id := 0, seq := 0, kind := .czero, va := 0, size := 64, tag := if aux = 0 then none else some (aux.toNat - 1) }
    else if fn = 5 && dreg < 3 then mk (.iinv dreg) 64 else none
  | 0x15 =>
    if 32 ≤ fn && fn < 40 && aux.toNat < 6 then
      mk (.lda (typeSigned (fn % 8)) aux.toNat (if qs = 0 then none else some qs)) (typeSize fn)
    else if 40 ≤ fn && fn < 44 && aux.toNat < 6 then
      some { id := 0, seq := 0, kind := .strel aux.toNat, va := 0, size := typeSize fn, tag := some aux.toNat }
    else none
  | 0x16 => match fn with
    | 0 => mk .ldfe 8
    | 1 => mk .ldff 8
    | 2 => some { id := 0, seq := 0, kind := .stfe, va := 0, size := 8, ordered := true }
    | 3 => some { id := 0, seq := 0, kind := .stff, va := 0, size := 8, ordered := true }
    | 4 => mk .feclr 8
    | _ => none
  | 0x17 =>
    if fn / 4 ≤ 9 then
      some { id := 0, seq := 0, kind := .amo (fn / 4), va := 0, size := 4 * (1 + fn / 2 % 2), ordered := fn % 2 == 1
             tag := if fn % 2 = 1 then some 3 else none }
    else none
  | 0x18 =>
    if fn % 8 < 6 then
      let sem := fn / 8 % 4
      some { id := 0, seq := 0, kind := .cas sem (fn % 8), va := 0, size := 4 * (1 + fn / 32), ordered := decide (2 ≤ sem)
             tag := if 2 ≤ sem then some (fn % 8) else none }
    else none
  | 0x19 =>
    if fn ≤ 12 && aux.toNat < 8 then
      some { id := 0, seq := 0, kind := .rupd fn, va := 0, size := (rupdOp fn).2, ordered := true, tag := some 3, cc := some aux.toNat
             ext := if fn < 11 then [] else ext }
    else none
  | 0x1A => if fn = 0 && dreg < 4 then (mk (.monarm dreg) 1).map fun a => { a with aux := aux } else if fn = 3 then mk .hmsg 64 else none
  | 0x3B => match fn with
    | 0 => mk .launch 128
    | 1 => some { id := 0, seq := 0, kind := .joinInc, va := 0, size := 8, data := 1, ext := ext.take 4 }
    | 4 => if aux.toNat < 8 then mk (.joinRead aux.toNat) 8 else none
    | 6 => some { id := 0, seq := 0, kind := .ticket, va := 0, size := 8, data := 1 }
    | _ => none
  | _ => none

/-- The place of DREG in the windows as they are restored: the oldest resident one is window 2047. -/
def restoredDest (dreg dwin dclass : Nat) : Dest :=
  match dclass with
  | 0 => if dreg = 0 then .none else if dreg < 8 then .g dreg else .win (16 * (2047 + dwin) + (dreg - 8))
  | 1 => .v (dreg % 16)
  | _ => .ox (dreg % 8)

/-- An entry of an image: its cause, SEQ and accesses. -/
def parseEntry (x : Img) (o : Nat) : Option (Nat × Nat × List Access) :=
  let ctl := x.w o
  let maj := field ctl 26 21
  let fn := field ctl 32 27
  let dreg := field ctl 37 33
  let dwin := field ctl 39 38
  let dclass := field ctl 41 40
  let addr := x.w (o + 1)
  let mask := (x.w (o + 2)).toNat
  let aux := x.w (o + 3)
  let ext := (List.range 5).map fun i => x.w (o + 8 + i)
  let vec (i size : Nat) : Nat := (sumOf ((List.range 4).map fun j => (x.w (o + 4 + j)).toNat * 2 ^ (64 * j))) / 2 ^ (8 * size * i) % 2 ^ (8 * size)
  let ix := BitVec.ofNat 256 (sumOf ((List.range 4).map fun j => (ext.getD j 0).toNat * 2 ^ (64 * j)))
  let els (n : Nat) : List Nat := (List.range n).filter (hasBit mask)
  let bad := bit ctl 42
  let head := (field ctl 15 8, field ctl 63 48)
  let code := 2 ^ 31 + maj * 2 ^ 25
    + if [0x10, 0x11, 0x14, 0x16].contains maj then fn * 2 ^ 12 else if [0x19, 0x3B].contains maj then fn * 2 ^ 20 else fn * 16
  if dclass = 3 || field ctl 7 1 != 0 || field ctl 20 16 != 0 || bit ctl 47 then none
  else if maj = 0x32 then
    let form := fn / 4 % 8
    let e := 2 ^ (fn % 4)
    let load := form % 2 == 0
    let base : List Word := if form < 4 then [addr, if form < 2 then 0 else aux] else addr :: 0 :: ext.take 4
    let tagWord := if form = 3 then ext.getD 0 0 else aux
    if 5 < form || mask = 0 || 2 ^ (32 / e) ≤ mask then none
    else some (head.1, head.2, (els (32 / e)).map fun i =>
      { id := 0, seq := 0, kind := if load then .load false else .store
        va := if form < 2 then addr + w64 (i * e) else if form < 4 then addr + w64 i * aux else indexed addr ix e i
        size := e, elem := i, dst := if load && dclass == 1 then .v (dreg % 16) else .none
        data := if load then 0 else w64 (vec i e), poison := !load && bad
        tag := if load || tagWord = 0 then none else some (tagWord.toNat - 1), ext := base, code := code })
  else if maj = 0x0D then
    if fn != 0x3A || mask = 0 || 256 ≤ mask then none
    else some (head.1, head.2, (els 8).map fun i =>
      { id := 0, seq := 0, kind := .load false, va := addr + w64 (8 * i), size := 8, elem := i, dst := .ox (dreg + i)
        ext := [addr, 0], code := code })
  else if maj = 0x19 && 16 ≤ fn then
    let op := fn - 16
    let e := (rupdOp op).2
    if 10 < op || mask = 0 || 2 ^ (32 / e) ≤ mask then none
    else some (head.1, head.2, (els (32 / e)).map fun i =>
      { id := 0, seq := 0, kind := .vamo op (dclass == 1), va := indexed addr ix e i, size := e, elem := i
        dst := if dclass = 1 then .v (dreg % 16) else .none, data := w64 (vec i e), poison := bad
        ext := addr :: 0 :: ext.take 4, code := code })
  else match scalarAccess maj fn dreg (field ctl 46 44) aux ext with
    | none => none
    | some a =>
      let d := match a.kind with
        | .monarm _ => .none
        | .iinv _ => .none
        | _ => restoredDest dreg dwin dclass
      let b := { a with va := addr, dst := d, code := code }
      some (head.1, head.2, [match a.kind with
        | .cas _ _ => { b with data := aux, aux := x.w (o + 4), auxPoison := bad, poison := bit ctl 43 }
        | .joinInc => b
        | .ticket => b
        | _ => { b with data := x.w (o + 4), poison := bad }])

def Img.entries (x : Img) : List Nat := ((List.range 32).map fun i => 512 + 16 * i).filter fun o => bit (x.w o) 0
def Img.mxs (x : Img) : List Nat := ((List.range 16).map fun i => 320 + 8 * i).filter fun o => bit (x.w o) 0
def Img.slots (x : Img) : List Nat := (List.range 4).filter fun v => bit (x.w (280 + 8 * v + 5)) 0
def Img.seqs (x : Img) : Nat := field (x.w 208) 4 0

/-- The destination that the CTL word of an entry names is none: a window slot that is not resident, a vector or ox register
above the last. -/
def destBad (nres : Nat) (ctl mask : Word) : Bool :=
  let dreg := field ctl 37 33
  match field ctl 41 40 with
  | 0 => decide (8 ≤ dreg) && decide (nres ≤ field ctl 39 38)
  | 1 => decide (16 ≤ dreg)
  | _ => decide (8 ≤ dreg) || (List.range 8).any fun i => field ctl 26 21 == 0x0D && hasBit mask.toNat i && decide (8 ≤ dreg + i)

/-- The format of an image is wrong (the first status of R392). -/
def Img.wrong (x : Img) : Bool :=
  let h := x.w 0
  let team := bit h 51
  field h 15 0 != 0x7E09 || field h 23 16 != 1 || field h 50 48 == 0 || decide (4 < field h 50 48)
    || (List.range 8).any (fun i => x.bad i) || (List.range 4).any (fun i => x.bad (88 + i))
    || (x.zip (List.range 1024)).any (fun e => maskMinus e.1.1.toNat (namedBytes team e.2) != 0)
    || decide (2 < field (x.w 1) 3 0) || decide (16 < x.seqs)
    || (List.range x.seqs).any (fun i => !bit (x.w (216 + 4 * i)) 32 || !vecWordOk (field (x.w (216 + 4 * i)) 31 0))
    || (bit (x.w 208) 5 && (decide (x.seqs ≤ field (x.w 208) 11 8) || decide (field (x.w 208) 11 8 < field (x.w 208) 15 12)))
    || (x.mxs.any fun o => decide (8 < field (x.w o) 4 1) || (field (x.w o) 4 1 == 6 && decide (4 < field (x.w o) 12 10)))
    || x.entries.any fun o => (parseEntry x o).isNone || destBad (field h 50 48) (x.w o) (x.w (o + 2))

/-- A restored system register: the bits that it holds. TXBUDGET holds USED beside the bits that MTS writes (R321). -/
def srRestore (n : Nat) (v : Word) : Word := if n = 0x051 then v else srMerge n 0 v

/-- A register of an image with its FE and poison bits. -/
def Img.cell (x : Img) (i : Nat) (fe po : Nat) (k : Nat) : Cell :=
  { val := x.w i, full := hasBit fe k, poison := hasBit po k || x.bad i }

/-- The registers of an image, before its queues are entered again. R392 gives a register the poison of its word and says nothing
of the poison of the other words (system registers, queues, streams): that it is dropped is the model's choice (log entry 162). -/
def Img.registers (x : Img) (c : Ctx) : Ctx :=
  let nres := field (x.w 0) 50 48
  let h3 := (x.w 3).toNat
  let h4 := (x.w 4).toNat
  let h5 := (x.w 5).toNat
  let h6 := (x.w 6).toNat
  let wins := (List.range nres).flatMap fun w => (List.range 16).map fun i =>
    let t := (x.w (88 + w)).toNat
    (16 * (2047 + w) + i, x.cell (16 + 16 * w + i) t (t / 2 ^ 16) i)
  let cs := (List.range 8).map fun i => (16 * (2047 + nres) + i, x.cell (80 + i) (h6 / 2 ^ 8) (h6 / 2 ^ 24) i)
  let vec (n : Nat) : VCell :=
    { val := BitVec.ofNat 256 (sumOf ((List.range 4).map fun j => (x.w (144 + 4 * n + j)).toNat * 2 ^ (64 * j)))
      full := hasBit h5 n
      poison := hasBit h5 (16 + n) || (List.range 4).any fun j => x.bad (144 + 4 * n + j) }
  { c with
    g := (List.range 7).foldl (fun t i => t.put (i + 1) (x.cell (9 + i) h6 (h6 / 2 ^ 16) (i + 1))) []
    win := (wins ++ cs).foldl (fun t e => t.put e.1 e.2) []
    depth := 2047 + nres, resident := nres
    q := (List.range 7).foldl (fun t i =>
      t.put (i + 1) ({ val := hasBit h3 (i + 1), full := hasBit h3 (9 + i), poison := hasBit h3 (17 + i) } : QCell)) []
    ox := (List.range 8).foldl (fun t i => t.put i (x.cell (96 + i) h4 (h4 / 2 ^ 8) i)) []
    ix := (List.range 4).foldl (fun t i => t.put i (x.cell (104 + i) (h4 / 2 ^ 16) (h4 / 2 ^ 20) i)) []
    v := (List.range 16).foldl (fun t i => t.put i (vec i)) []
    sr := imageSrs.mapIdx (fun i n => (n, srRestore n (x.w (112 + i)))) |>.foldl (fun t e => t.put e.1 e.2) []
    team := if bit (x.w 0) 51 then some (x.w 2) else none
    nest := if bit (x.w 315) 0 then some
        { line := x.w 312, extents := x.w 313, parts := x.w 314, current := bit (x.w 315) 1, start := (x.w 316).toNat
          size := (x.w 317).toNat, unpacked := (x.w 318).toNat, ticket := (x.w 319).toNat, poison := x.bad 319 }
      else none }

/-- The wait of an image. -/
def Img.wait (x : Img) (c : Ctx) : Option Wait :=
  let h := x.w 1
  match field h 3 0 with
  | 1 => some (.barrier (field h 7 4) (field h 31 16))
  | 2 => some (.monwait (c.dest (BitVec.ofNat 5 (field h 12 8))) (field h 63 32))
  | _ => none

/-- Bound slots start again at their positions. -/
def Img.streams (x : Img) (seq : Nat) : Table Stream :=
  x.slots.map fun v =>
    let o := 280 + 8 * v
    let st := x.w (o + 5)
    (v, Stream.rebindAt
        { input := !bit st 1, base := x.w o, w1 := x.w (o + 1), w2 := x.w (o + 2), w3 := x.w (o + 3), ctl := x.w (o + 4)
          cc := field (x.w (o + 6)) 2 0, xp := bit (x.w (o + 6)) 3, seq := seq, ended := bit st 3, canc := bit st 4
          start := 0 } (field st 63 16) (field st 11 8))

/-- The general destination of a restored reduction: register n of the newest resident window in which it is empty. -/
def Ctx.emptyReg (c : Ctx) (n : Nat) : Dest :=
  if n = 0 then .none else if n < 8 then .g n
  else
    let places := ((List.range c.resident).map fun w => 16 * (c.depth - 1 - w) + (n - 8))
    match places.find? fun i => !(c.win.get {} i).full with
    | some i => .win i
    | none => .win (c.winAt n)

/-- Sequencer entries enter again, numbered from base. -/
def Img.sequence (x : Img) (c : Ctx) (base seq : Nat) : Ctx :=
  let n := x.seqs
  let blk := bit (x.w 208) 5
  let k := field (x.w 208) 11 8 + 1
  let entry (i : Nat) : VEntry :=
    let o := 216 + 4 * i
    let e := entryOf (field (x.w o) 31 0)
    let dst := if e.writesV then (if (12 ≤ e.d) && ((c.streams.find (e.d - 12)).any fun z => !z.input) then Dest.none else .v e.d)
      else if e.major = 0x31 then c.emptyReg (e.word / 2 ^ 20 % 32) else .none
    { e with id := base + 1 + i, seq := seq, x := x.w (o + 1), y := x.w (o + 2), xp := bit (x.w (o + 3)) 0
             yp := bit (x.w (o + 3)) 1, dst := dst, blk := if blk && decide (i < k) then base else 0 }
  let es := (List.range n).map entry
  let c1 := es.foldl (fun z e => z.setEmpty e.dst e.id) c
  { c1 with
    vseq := es
    vblocks := if blk then [{ id := base, size := k, missing := 0, pos := field (x.w 208) 15 12, reps := field (x.w 208) 63 32 + 1
                              pc := c.sr.get 0 0x010 }] else [] }

/-- One replay entry enters again. Entries with one SEQ belong to one instruction. The registration that an earlier CREST was
to make holds no unit (R304). The image does not say which ITER was the thread's last: the latest that the entries hold stands
for it (R363), which is the model's choice (log entry 169). -/
def State.reenter (p : Pos) (first : Nat) (sp : State × Option (Nat × Nat)) (e : Nat × Nat × List Access) : State × Option (Nat × Nat) :=
  let (s, prev) := sp
  let seq := (e.2.1 + 65536 - first) % 65536
  let base := match prev with
    | some (q, b) => if q = seq then b else s.nextId
    | none => s.nextId
  let accs := e.2.2.mapIdx fun i a => { a with id := s.nextId + i, src := base, seq := seq }
  let s1 := { s with nextId := s.nextId + accs.length }
  let s2 := s1.modCtx p fun c => accs.foldl (fun z a =>
    let z1 := z.setEmpty a.dst base
    match a.kind with
    | .lda _ _ (some q) => z1.setEmpty (.q q) base
    | .joinRead k => (List.range 4).foldl (fun y i => y.setEmpty (.ox (k + i)) base) z1
    | .ticket => { z1 with lastIter := max z1.lastIter seq }
    | _ => z1) c
  let held := accs.any fun a => match a.kind with
    | .lda _ _ _ => true
    | .strel _ => true
    | .monarm _ => a.aux == 0
    | .hmsg => true
    | _ => false
  let s3 := if held then s2.modCtx p fun c => { c with wait := some (.access seq) } else s2
  let s4 := match (s3.rill p.b p.r).freeEntry with
    | some i =>
      let r : REntry := { pos := p, seq := seq, cause := e.1, accs := accs, woken := false }
      s3.modRill p.b p.r fun x => { x with replay := x.replay.put i r }
    | none => s3
  (accs.foldl (fun t a => match a.cc with
    | some m => t.raiseCc p.b p.r m
    | none => t) s4, some (seq, base))

/-- Matrix commands enter again, in their order. -/
def Img.matrix (x : Img) (p : Pos) (s : State) : State :=
  x.mxs.foldl (fun t o =>
    let w := x.w o
    let q : MxCmd := { id := 0, entry := 0, rill := p.r, ctx := p.k, op := field w 4 1, a := x.w (o + 1), b := x.w (o + 2), o0 := x.w (o + 3)
                       o1 := x.w (o + 4), cc := field w 8 6, xp := bit w 5, rm := field w 12 10, satf := bit w 13
                       team := if bit w 9 then some (x.w (o + 5)) else none, seq := 65536 }
    match (t.braid p.b).mxEntry p.r with
    | some e => t.enqueueMx p.b q e
    | none => t) s

/-- A registration whose translation fails is logged as that of a MONARM is (R301): REPLAY completes it, and the slot
keeps its TRIG then (R304). None where the replay queue is full. -/
def State.logMonitor (s : State) (p : Pos) (k : Nat) (ea : Word) (cause : Nat) : Option State :=
  (s.rill p.b p.r).freeEntry.map fun i =>
    let a : Access := { id := s.nextId, src := s.nextId, seq := (s.ctx p).seq, kind := .monarm k, va := ea, size := 1, aux := 1
                        code := 2 ^ 31 + 0x1A * 2 ^ 25 }
    ({ s with nextId := s.nextId + 1 } : State).modRill p.b p.r fun x =>
      { x with replay := x.replay.put i { pos := p, seq := a.seq, cause := cause, accs := [a], woken := false } }

/-- What stops the registration of monitor slots: the host is asked, the walk is poisoned, the replay queue is full. -/
inductive RearmStop where
  | ask | poisoned | full
  deriving DecidableEq, Repr

/-- An entry of the image holds the registration of slot k that an earlier CREST was to make. -/
def State.rearming (s : State) (p : Pos) (k : Nat) : Bool :=
  (s.rill p.b p.r).replay.any fun e => e.2.pos == p && e.2.accs.any fun a => a.kind == AccKind.monarm k && a.aux == 1

/-- Monitor slots are registered again, one by one: the state, and what stops it. -/
def rearmFrom (p : Pos) : List Nat → State → State × Option RearmStop
  | [], s => (s, none)
  | k :: t, s =>
    let ea := s.srAt p (0x09A + k)
    let z := s.setSr p 0x080 (setField (s.srAt p 0x080) k k 1)
    if z.rearming p k then rearmFrom p t z
    else
      let (s1, x) := if bit ea 55 then (z, Xlat.ok (localPlace p.b ea) 0) else z.translate p ea { r := true }
      match x with
      | .ok pa _ => rearmFrom p t (s1.modCtx p fun c => { c with mons := c.mons.put k (lineOf pa) })
      | .fault c _ => match s1.logMonitor p k ea c with
        | some s2 => rearmFrom p t s2
        | none => (s1, some .full)
      | .ask => (s1, some .ask)
      | .poisoned => (s1, some .poisoned)

/-- Armed monitors are registered again on the lines of their addresses, with TRIG set (R304). -/
def State.rearm (s : State) (p : Pos) : State × Option RearmStop := rearmFrom p (lanes (field (s.srAt p 0x080) 7 4)) s

/-- The context is restored, and left stopped; or a registration waits for the host or meets a poisoned walk. An image has no
place for the scope of the thread's FENCE or FENCE.REL (R164): that the thread tags no plain write after CREST, until it fences
again, is the model's choice (log entry 157). -/
def State.restoreImage (s : State) (p : Pos) (x : Img) : State × Option RearmStop :=
  let seq := 65536
  let old := s.ctx p
  let c0 := x.registers { run := .stopped, lastIssue := s.cycle, seq := seq, cohort := old.cohort }
  let c1 := { c0 with pc := pcBits (c0.sr.get 0 0x010), streams := x.streams seq }
  let s1 := s.setCtx p { c1 with wait := x.wait c1 }
  let s2 := x.slots.foldl (fun t v => t.raiseCc p.b p.r (field (x.w (280 + 8 * v + 6)) 2 0)) s1
  let es := x.entries.filterMap (parseEntry x)
  let first := (es.head?.map fun e => e.2.1).getD 0
  let z := (es.foldl (State.reenter p first) (s2, none)).1
  let s3 := ({ z with nextId := z.nextId + 17 } : State).modCtx p fun c => x.sequence c z.nextId seq
  let (s4, stop) := (x.matrix p s3).rearm p
  (s4.wakeChains p.b p.r fun e => e.pos == p, stop)

/-- The counters that an image raises. -/
def Img.counters (x : Img) : List Nat :=
  x.slots.map (fun v => field (x.w (280 + 8 * v + 6)) 2 0) ++ x.mxs.map (fun o => field (x.w o) 8 6)
    ++ (x.entries.filterMap (parseEntry x)).flatMap fun e => e.2.2.filterMap fun a => a.cc

/-- The queues have no room, or a counter is full (the third status). That a registration which must be logged counts as an
entry of the image there is the model's choice (log entry 134). -/
def State.noRoom (s : State) (p : Pos) (x : Img) : Bool :=
  decide ((s.rill p.b p.r).replayRoom < x.entries.length) || decide (16 < ((s.braid p.b).mxQueue p.r).length + x.mxs.length)
    || x.counters.any fun m => decide (0xFFFF < (s.rill p.b p.r).cc.get 0 m + (x.counters.filter fun n => n == m).length)

def State.readImage (s : State) (xs : List Access) : Img :=
  xs.map fun a => let (v, bad) := s.mem.load a.pa 8; (w64 v, bad)

def execCrest (d a b : BitVec 5) (s : State) : Res :=
  outsideTx s 0x3C <| supervisorOnly s <| withControls s a b fun v img =>
    let p : Pos := { s.cur with k := field v 3 0 }
    if p.k = 15 || (s.ctx p).run != .empty then targetTrap s p.k
    else if field img 5 0 != 0 then trapped s 0x06 img
    else
      let (s1, xs, r) := reachFrom img false [] (imagePieces img) s
      match r with
      | some (.fault c ea) => .next (s1.trapAs c ea s1.ulen s1.upc false)
      | some .poisoned => .next (s1.contain (s1.basinOf s1.cur.b))
      | some .ask => parked s1 .translation
      | some (.at _) => parked s1 .translation
      | none =>
        if !s1.quietBefore || xs.any fun x => !s1.lineOpen s1.cur x then parked s1 .lock
        else
          let x := s1.readImage xs
          if x.wrong then wrote s1 d 1 false
          else if field (x.w 0) 27 24 != p.k || field (x.w 0) 43 32 != s1.rillNumber p.b p.r then wrote s1 d 2 false
          else if s1.noRoom p x then wrote s1 d 3 false
          else match s1.restoreImage p x with
          | (s2, none) => wrote s2 d 0 false
          | (_, some .full) => wrote s1 d 3 false
          | (_, some .poisoned) => .next (s1.contain (s1.basinOf s1.cur.b))
          | (s2, some .ask) => parked { s1 with ats := s2.ats, nextId := s2.nextId } .translation

end Sys2Proof.Machine
end

