-- ==== Sys2Proof/Machine/Service.lean ====
section
/-! DEFINITION. Calls of Voxsis (R431, R432) and the services on basins, queues, rings and application cores
(R433, R458). -/

namespace Sys2Proof.Machine

/-! ### The caller's memory (R458) -/

/-- The places of a buffer; it cannot be reached; its translation is awaited. -/
inductive Buf where
  | at (ps : List (Nat × Nat))
  | bad
  | wait
  deriving DecidableEq, Repr

/-- Number of the host as a caller (R432). -/
def hostCaller : Nat := 64

/-- Where an address of a caller lies: PF 0 bus addresses of the host, virtual addresses of context 15. A line that the
service's own fan-out holds is no obstacle. -/
def State.bufPiece (s : State) (c : Call) (va : Nat) (w : Bool) (agent : Nat) : State × Buf :=
  if c.caller = hostCaller then (s, if va < 2 ^ 64 then .at [(hostAddr va, 0)] else .bad)
  else if 2 ^ 55 ≤ va then (s, .bad)
  else match s.translate c.pos (w64 va) { r := true, w := w } with
    | (s1, .ok pa _) => (s1, if s1.lineFree (lineOf pa) w agent then .at [(pa, 0)] else .wait)
    | (s1, .fault _ _) => (s1, .bad)
    | (s1, .ask) => (s1, .wait)
    | (s1, .poisoned) => (s1.contain (s1.basinOf c.pos.b), .bad)

def bufFrom (c : Call) (w : Bool) (agent : Nat) : List (Nat × Nat) → State → State × Buf
  | [], s => (s, .at [])
  | (va, k) :: t, s => match s.bufPiece c va w agent with
    | (s1, .at ((pa, _) :: _)) => match bufFrom c w agent t s1 with
      | (s2, .at ps) => (s2, .at ((pa, k) :: ps))
      | r => r
    | (s1, .wait) => (s1, .wait)
    | (s1, _) => (s1, .bad)

/-- The number under which the writes of a call to one of its buffers start their fan-outs. -/
def callAgent (id : Nat) (va : Word) : Nat := 2 ^ 63 + id * 2 ^ 65 + va.toNat

/-- The lines of the pieces of a buffer. -/
def bufLines (ps : List (Nat × Nat)) : List Nat :=
  (ps.flatMap fun e => (List.range ((e.1 % 64 + e.2 + 63) / 64)).map fun i => lineOf e.1 + i).eraseDups

/-- The n bytes at va of a caller. Writes wait for the sharers that are to acknowledge them (R309). -/
def State.buffer (s : State) (c : Call) (va : Word) (n : Nat) (w : Bool) : State × Buf :=
  let agent := callAgent c.id va
  match bufFrom c w agent (pieces (n / 4096 + 2) va.toNat n) s with
  | (s1, .at ps) =>
    if !w then (s1, .at ps)
    else match s1.gateInLine (if c.caller = hostCaller then outsidePos else c.pos) agent 0 (bufLines ps) with
      | (s2, true) => (s2, .at ps)
      | (s2, false) => (s2, .wait)
  | x => x

/-- The bytes of a buffer, as one number. -/
def State.bufValue (s : State) : List (Nat × Nat) → Nat
  | [] => 0
  | (a, n) :: t => s.mem.read a n + 256 ^ n * s.bufValue t

/-- Write n bytes of v at a, whole words where they are aligned. -/
def storePiece : Nat → Nat → Nat → Nat → State → State
  | 0, _, _, _, s => s
  | fuel + 1, a, n, v, s =>
    if n = 0 then s
    else
      let k := if a % 8 = 0 && 8 ≤ n then 8 else 1
      storePiece fuel (a + k) (n - k) (v / 256 ^ k) (s.engineStore a k (v % 256 ^ k) false)

/-- Write a number to the bytes of a buffer. -/
def storeBuf : List (Nat × Nat) → Nat → State → State
  | [], _, s => s
  | (a, n) :: t, v, s => storeBuf t (v / 256 ^ n) (storePiece n a n (v % 256 ^ n) s)

/-- 64-bit words as one number. -/
def packWords : List Word → Nat
  | [] => 0
  | w :: t => w.toNat + 2 ^ 64 * packWords t

/-! ### Calls -/

/-- How a service ends: with a status and the result words, or it waits for a translation, or its work goes on, after which
it returns status 0. -/
inductive Answer where
  | ends (s : State) (status : Nat) (results : List (Nat × Word))
  | wait (s : State)
  | runs (s : State)

/-- A call as its service sees it: the caller, the target basin and words 1 to 31 of the block. -/
structure Ask where
  call : Call
  target : Nat
  words : List Word

def Ask.w (x : Ask) (i : Nat) : Word := x.words.getD i 0
def Ask.host (x : Ask) : Bool := x.call.caller == hostCaller

/-- The parameter block of a call. -/
def State.blockOf (s : State) (c : Call) : State × Buf :=
  if c.caller = hostCaller then (s, .at []) else s.buffer c c.va 256 true

/-- Word i of the block. -/
def State.blockWord (s : State) (c : Call) (ps : List (Nat × Nat)) (i : Nat) : Word :=
  if c.caller = hostCaller then s.mailbox.get 0 (c.slot * 32 + i) else w64 (s.bufValue ps / 2 ^ (64 * i))

/-- The place of the byte at an offset of a buffer. -/
def placeAt : List (Nat × Nat) → Nat → Option Nat
  | [], _ => none
  | (a, n) :: t, o => if o < n then some (a + o) else placeAt t (o - n)

/-- Write the result words that the service names; the others stay as they were. -/
def State.putResults (s : State) (c : Call) (ps : List (Nat × Nat)) (rs : List (Nat × Word)) : State :=
  rs.foldl (fun t r =>
    if c.caller = hostCaller then { t with mailbox := t.mailbox.put (c.slot * 32 + r.1) r.2 }
    else match placeAt ps (8 * r.1) with
      | some a => t.engineStore a 8 r.2.toNat false
      | none => t) s

/-- STATUS i while a slot is in service (R431). -/
def inService : Word := 0xFFFFFFFFFFFFFFFE

/-- R431: the host writes the 32 words of block into mailbox slot i and rings DOORBELL i for service k; the doorbell
is discarded while the slot is in service. -/
def State.doorbell (s : State) (k i block : Nat) : State :=
  let s1 := (List.range 32).foldl (fun t j =>
    ({ t with mailbox := t.mailbox.put (i * 32 + j) (w64 (block / 2 ^ (64 * j))) } : State)) s
  if s.calls.any fun c => c.caller == hostCaller && c.slot == i then s1
  else
    { s1 with
      nextId := s1.nextId + 1, mailStatus := s1.mailStatus.put i inService
      calls := s1.calls ++ [{ id := s1.nextId, caller := hostCaller, service := k, slot := i }] }

/-- Distance of a caller from the one last served, which comes last itself (R432). -/
def State.turn (s : State) (k caller : Nat) : Nat := (caller + 64 - s.lastServed.get 64 k) % 65

/-- The call that a service takes next: none while one is in service. -/
def State.nextCall (s : State) (k : Nat) : Option Call :=
  let mine := s.calls.filter fun c => c.service == k
  if mine.any fun c => c.phase != 0 then none
  else
    let least := mine.foldl (fun m c => min m (s.turn k c.caller)) 65
    mine.find? fun c => s.turn k c.caller == least

/-- Once no call is in service, service k is served by the image that a switch has chosen (R434). -/
def State.switchImage (s : State) (k : Nat) : State :=
  let g := s.images.get {} k
  match g.next with
  | some v =>
    if s.calls.any fun c => c.service == k && c.phase != 0 then s
    else { s with images := s.images.put k { g with active := v, bad := false, next := none } }
  | none => s

/-- A service takes a call, which is in service from now on. Its measurement is from now on that of the image that serves it (R443). -/
def State.takeCall (s : State) (c : Call) : State :=
  let g := s.images.get {} c.service
  { s with
    lastServed := s.lastServed.put c.service c.caller, images := s.images.put c.service { g with shown := g.active }
    calls := s.calls.map fun x => if x.id == c.id then { x with phase := 1 } else x }

/-- Services that act on no one basin (R458). -/
def basinless (k : Nat) (host : Bool) : Bool :=
  [0, 1, 18, 19, 22, 23, 24, 25, 26, 27, 29, 30, 31].contains k || (host && (k == 15 || k == 16))

/-- Services that context 15 may call (R433). -/
def guestMayCall (k : Nat) : Bool := [0, 4, 5, 6, 7, 10, 11, 12, 13, 15, 20, 21, 27, 31].contains k

/-- Bits that the table of R458 names on call, by service: words 1, 2, … in order. -/
def namedBits (k : Nat) : List Nat :=
  let all := 2 ^ 64 - 1
  match k with
  | 1 => List.replicate 15 all
  | 3 => [all, all, all, 2 ^ 32 - 1]
  | 4 => [all]
  | 5 => [0x137, all, 0x7FF]
  | 6 => [7]
  | 7 => [7, 2 ^ 32 - 1]
  | 8 => [0x7FF, all, 15, all, 63]
  | 9 => [0x7FF, all, 15, all]
  | 10 => [127, 0x7FFFF]
  | 11 => [127, all, all]
  | 12 => [127]
  | 13 => [127, all]
  | 14 => [511, 1]
  | 15 => [all, 0xFFFF]
  | 16 => [0xFFFF]
  | 17 => [3, all]
  | 18 => [all, all]
  | 19 => [0xFFFF]
  | 21 => [all]
  | 22 => [all, 2 ^ 32 - 1, 63]
  | 23 => [31]
  | 24 => [63]
  | 25 => [255, all]
  | 26 => [255, 0xFFF, all]
  | 28 => [255, 3, all]
  | 29 => [all]
  | 30 => [all, 15, all]
  | 31 => [all]
  | _ => []

/-- Every bit that the table does not name on call is zero. -/
def unnamedZero (k : Nat) (ws : List Word) : Bool :=
  (List.range 31).all fun i => maskMinus (ws.getD (i + 1) 0).toNat ((namedBits k).getD i 0) == 0

/-- The call is performed: its results are written and its status waits to be returned. -/
def State.performed (s : State) (c : Call) (ps : List (Nat × Nat)) (status : Nat) (rs : List (Nat × Word)) : State :=
  let s1 := s.putResults c ps rs
  { s1 with calls := s1.calls.map fun x => if x.id == c.id then { x with phase := 2, status := w64 status } else x }

/-- R435: images of IMAGE-STAGE are services 0 to 31, the Voxsis core, Headwater. -/
def coreImage : Nat := 32
def headwaterImage : Nat := 33

/-- An image that a service needs has failed its verification: its own, that of the Voxsis core, which performs every
service, or that of Headwater, through which every change passes. The manual states the status for the service's own image
only (log entry 139). -/
def State.unverified (s : State) (k : Nat) : Bool := [k, coreImage, headwaterImage].any fun i => (s.images.get {} i).bad

/-- Service k takes call c: the checks of R431, R433, R435 and R458, and the service's own work. Which status a call gets to
which several apply is the model's choice: 4, 2 for the caller, 1, 2 for the target (log entry 140). -/
def State.serve (s : State) (k : Nat) (c : Call) (body : Ask → State → Answer) : State :=
  match s.blockOf c with
  | (s1, .wait) => s1
  | (s1, .bad) => (s1.takeCall c).performed c [] 1 []
  | (s1, .at ps) =>
    let ws := (List.range 32).map fun i => s1.blockWord c ps i
    let w0 := ws.getD 0 0
    let target := field w0 5 0
    let s2 := s1.takeCall c
    let host := c.caller == hostCaller
    let fail (n : Nat) : State := s2.performed c ps n []
    if s2.unverified k then fail 4
    else if !host && !guestMayCall k then fail 2
    else if field w0 63 6 != 0 || !unnamedZero k ws then fail 1
    else if !basinless k host && (if host then k != 17 && !(s2.basin target).alive else target != c.caller) then fail 2
    else match body ⟨c, target, ws⟩ s2 with
      | .ends s3 n rs => s3.performed c ps n rs
      | .wait s3 => { s1 with ats := s3.ats, fanouts := s3.fanouts, nextId := s3.nextId }
      | .runs s3 => { s3 with calls := s3.calls.map fun x => if x.id == c.id then { x with target := target } else x }

/-- The event of service k: an odd n is the host's call, with the slot in n[4:1] and the block above it; an even n is
the work on call n / 2 when its turn has come. -/
def service (k n : Nat) (body : Ask → State → Answer) (s : State) : Res :=
  if n % 2 = 1 then .next (s.doorbell k (n / 2 % 16) (n / 32))
  else match s.nextCall k with
    | some c => if c.id = n / 2 then .next (s.serve k c body) else .next s
    | none => .next s

/-- SERVICE_COMPLETE: the call returns to context 15 or to the host. -/
def execServiceComplete (n : Nat) (s : State) : Res :=
  match s.calls.find? fun c => c.id == n && c.phase == 2 with
  | none => .next s
  | some c =>
    let s1 := ({ s with calls := s.calls.filter fun x => x.id != n } : State).switchImage c.service
    if c.caller = hostCaller then
      .next { s1 with mailStatus := s1.mailStatus.put c.slot c.status, msix := s1.msix ++ [1] }
    else match (s1.ctx c.pos).wait with
      | some (.service d m) =>
        if m = n then .next (s1.modCtx c.pos fun x => { (x.setCellAt d { val := c.status }) with wait := none })
        else .next s1
      | _ => .next s1

/-- A service that ends at once. -/
def done (s : State) : Answer := .ends s 0 []
def failed (s : State) (n : Nat) : Answer := .ends s n []

/-- Work on a buffer of the caller. -/
def onBuffer (x : Ask) (va : Word) (n : Nat) (w : Bool) (s : State) (k : State → List (Nat × Nat) → Answer) : Answer :=
  match s.buffer x.call va n w with
  | (s1, .at ps) => k s1 ps
  | (s1, .bad) => failed s1 1
  | (s1, .wait) => .wait s1

/-! ### Granule maps -/

/-- First bit and number of granules of each kind in a granule map. -/
def mapRuns : List (Nat × Nat) := [(0, 512), (512, 1024), (1536, 512), (2048, 128), (2176, 1024)]

/-- Set bits of a run. -/
def onesOf (m lo n : Nat) : List Nat := (List.range n).filter fun i => hasBit m (lo + i)

/-- The granules of a map; bit v - 1 stands for VF v. -/
def mapGranules (m : Nat) : List (Nat × Nat) :=
  (List.range 5).flatMap fun k =>
    let e := mapRuns.getD k (0, 0)
    (onesOf m e.1 e.2).map fun i => (k, if k = 4 then i + 1 else i)

/-- The bytes of a map above 0x18F are zero. -/
def mapLegal (m : Nat) : Bool := m / 2 ^ 3200 == 0

/-- The map of granules. -/
def granuleMap (gs : List (Nat × Nat)) : Nat :=
  gs.foldl (fun m g => m ||| 2 ^ ((mapRuns.getD g.1 (0, 0)).1 + (if g.1 = 4 then g.2 - 1 else g.2))) 0

/-- Read a granule map of the caller. -/
def withMap (x : Ask) (va : Word) (s : State) (k : State → List (Nat × Nat) → Answer) : Answer :=
  if field va 5 0 != 0 then failed s 1
  else onBuffer x va 512 false s fun s1 ps =>
    let m := s1.bufValue ps
    if mapLegal m then k s1 (mapGranules m) else failed s1 1

/-- Write a granule map to the caller's buffer. -/
def writeMap (x : Ask) (va : Word) (gs : List (Nat × Nat)) (s : State) (k : State → Answer) : Answer :=
  if field va 5 0 != 0 then failed s 1
  else onBuffer x va 512 true s fun s1 ps => k (storeBuf ps (granuleMap gs) s1)

/-! ### Basins -/

/-- Security version and build number of an active image. -/
def State.version (s : State) (i : Nat) : Nat := (s.images.get {} i).active.version % 2 ^ 32
def State.build (s : State) (i : Nat) : Nat :=
  let f := (s.images.get {} i).active
  (if f.text.isSome then f.build else Config.imageBuild i) % 2 ^ 32

def execIdent (n : Nat) (s : State) : Res :=
  service 0 n (fun _ s =>
    let two (i : Nat) : Word := w64 (s.version i + s.build i * 2 ^ 32)
    .ends s 0 ([(1, two headwaterImage), (2, two coreImage), (3, w64 0x1C0)]
      ++ (List.range 16).map fun i => (4 + i, w64 (s.version (2 * i) + s.version (2 * i + 1) * 2 ^ 32)))) s

/-- Numbers of basins that are free. -/
def State.freeBasins (s : State) : List Nat :=
  (List.range 64).filter fun n => !(s.basin n).alive && s.vacant n

/-- A granule that no basin holds and no queued resize is to add. -/
def State.available (s : State) (g : Nat × Nat) : Bool :=
  (s.gran g.1 g.2).state == .free && !(s.basins.any fun e => e.2.waiting.any fun z => z.add.contains g)

/-- R433, R409, R410, R441: the basin's number and its key are drawn freely; its slice list names the slices in
ascending order. -/
def createBasin (x : Ask) (gs : List (Nat × Nat)) (s : State) : Answer :=
  let slices := ((granuleOrder gs).filter fun g => g.1 == 1).map Prod.snd
  if slices.isEmpty then failed s 1
  else if gs.any fun g => !s.available g then failed s 3
  else
    let ns := s.freeBasins
    match ns[(Config.freeWord s.free).toNat % ns.length]? with
    | none => failed s 3
    | some n =>
      let y : Basin :=
        { alive := true, slices := slices, entry := x.w 2, aspace := x.w 3, wsbase := x.w 4, wsp := x.w 5
          wslimit := x.w 6, lsbase := x.w 7, lsdisp := (List.range 8).map fun i => x.w (8 + i)
          key := packWords ((List.range 8).map fun i => Config.freeWord (s.free + 1 + i)) }
      let s1 := ({ s with free := s.free + 9 } : State).setBasin n y
      .ends ((granuleOrder gs).foldl (fun t g => t.joinGranule n false g) s1) 0 [(1, w64 n)]

def execBasinCreate (n : Nat) (s : State) : Res :=
  service 1 n (fun x s => withMap x (x.w 1) s fun s1 gs => createBasin x gs s1) s

/-- R428: the work of the basin ends, and every granule is to be scrubbed; the number is free when the last is. -/
def State.destroy (s : State) (n : Nat) : State :=
  let s1 := (s.cutBasin n).modBasin n fun x => { x with alive := false, token := {} }
  let gs := (List.range 5).flatMap fun k => (s1.granulesOf n k).map fun i => (k, i)
  (gs.foldl (fun t g => t.modGran g.1 g.2 fun y => { y with state := .scrubbing, joining := false }) s1).freeNumber n

/-- BASIN-DESTROY returns when the last granule has been scrubbed. -/
def execBasinDestroy (n : Nat) (s : State) : Res :=
  service 2 n (fun x s =>
    let t := s.destroy x.target
    if t.vacant x.target then done t else .runs t) s

/-- A resize joins the queue of its basin, with the next sequence number. -/
def State.queueResize (s : State) (n : Nat) (z : Resize) : State × Nat :=
  let x := s.basin n
  let last := match x.waiting.getLast? with
    | some y => y.seq
    | none => x.rseq
  let seq := (last + 1) % 65536
  (s.modBasin n fun y => { y with waiting := y.waiting ++ [{ z with seq := seq }] }, seq)

/-- The destination table of a resize: each leaving braid with its destination. -/
def destTable (m : Nat) (remove : List (Nat × Nat)) : Table Nat :=
  (remove.filter fun g => g.1 == 0).filterMap fun g =>
    let d := m / 2 ^ (16 * g.2) % 65536
    if d = 0xFFFF then none else some (g.2, d)

/-- R411, R414, R433: the granules to add are free, those to remove belong to the basin, each destination stays in
the basin or joins it, one slice at least is left, and the deadline is in its range. -/
def checkResize (n : Nat) (add remove : List (Nat × Nat)) (dest : Table Nat) (deadline : Nat) (s : State) : Nat :=
  let held (g : Nat × Nat) : Bool := (s.gran g.1 g.2).state == .owned && (s.gran g.1 g.2).basin == n
  let stays (d : Nat) : Bool := (held (0, d) && !remove.contains (0, d)) || add.contains (0, d)
  let left := (s.basin n).slices.filter fun x => !remove.contains (1, x)
  if deadline < 100 || 1000000 < deadline || !(dest.all fun e => stays e.2) then 1
  else if left.isEmpty && !(add.any fun g => g.1 == 1) then 1
  else if (s.basin n).contained || remove.any fun g => !held g then 2
  else if add.any fun g => !s.available g then 3
  else 0

def execBasinResize (n : Nat) (s : State) : Res :=
  service 3 n (fun x s =>
    withMap x (x.w 1) s fun s1 add => withMap x (x.w 2) s1 fun s2 remove =>
      onBuffer x (x.w 3) 1024 false s2 fun s3 ps =>
        let dest := destTable (s3.bufValue ps) remove
        let us := field (x.w 4) 31 0
        match checkResize x.target add remove dest us s3 with
        | 0 =>
          let r := s3.queueResize x.target { add := add, remove := remove, dest := dest, deadline := us, seq := 0 }
          .ends r.1 0 [(1, w64 r.2)]
        | e => failed s3 e) s

def execBasinStatus (n : Nat) (s : State) : Res :=
  service 4 n (fun x s =>
    let b := s.basin x.target
    let gs := (List.range 5).flatMap fun k => (s.granulesOf x.target k).map fun i => (k, i)
    writeMap x (x.w 1) gs s fun s1 => .ends s1 0 [(2, wordOfBool b.contained + 2 * wordOfBool b.resize.isSome)]) s

/-! ### Launch queues (R345, R346) -/

/-- A VF, or a core, of a basin. -/
def State.grants (s : State) (n kind i : Nat) : Bool := (s.gran kind i).ownedBy n

def execQueueConfig (n : Nat) (s : State) : Res :=
  service 5 n (fun x s =>
    let q := field (x.w 1) 2 0
    let vf := field (x.w 3) 10 0
    if 1024 < vf then failed s 1
    else if vf != 0 && !s.grants x.target 4 vf then failed s 2
    else done (s.modBasin x.target fun b =>
      { b with queues := b.queues.put q { b.queues.get {} q with
          prio := field (x.w 1) 5 4, enable := bit (x.w 1) 8, aspace := srMerge 0x0A0 0 (x.w 2), vf := vf } })) s

def execQueueStatus (n : Nat) (s : State) : Res :=
  service 6 n (fun x s =>
    let q := field (x.w 1) 2 0
    let b := s.basin x.target
    .ends s 0 [(2, w64 (b.held q)), (3, w64 (b.queues.get {} q).placed)]) s

/-- R433: the named launches are cancelled; those whose cohorts have all ended complete. -/
def execLaunchCancel (n : Nat) (s : State) : Res :=
  service 7 n (fun x s =>
    let q := field (x.w 1) 2 0
    let tag := field (x.w 2) 31 0
    let hit (r : Record) : Bool := r.queue == q && r.tag == tag
    let k := ((s.basin x.target).records.filter hit).length
    let s1 := s.modBasin x.target fun b =>
      { b with records := b.records.map fun r => if hit r then { r with cancelled := true } else r }
    .ends (s1.finishLaunches x.target) 0 [(3, w64 k)]) s

/-! ### Rings and user-interrupt files (R437, R438, R442) -/

/-- 2^k entries with k from 4 to 12. -/
def ringSize (k : Nat) : Bool := decide (4 ≤ k ∧ k ≤ 12)

/-- HMSGQ-CONFIG. Also the call that removes the ring checks k, as every named field is checked (R458); that it asks for no VF to
be granted is the model's reading (log entry 168). -/
def execHmsgqConfig (n : Nat) (s : State) : Res :=
  service 8 n (fun x s =>
    let vf := field (x.w 1) 10 0
    let k := field (x.w 3) 3 0
    if 1024 < vf || !ringSize k then failed s 1
    else if vf = 0 then done (s.modBasin x.target fun b => { b with hmsg := none })
    else if !s.grants x.target 4 vf then failed s 2
    else done (s.modBasin x.target fun b =>
      { b with hmsg := some { vf := vf, base := x.w 2, k := k, tailAddr := x.w 4, vector := field (x.w 5) 5 0 } })) s

/-- NOTIFY-CONFIG; k is checked where the ring is removed as well (R458). -/
def execNotifyConfig (n : Nat) (s : State) : Res :=
  service 9 n (fun x s =>
    let vf := field (x.w 1) 10 0
    let k := field (x.w 3) 3 0
    if vf = 0 || 1024 < vf || !ringSize k then failed s 1
    else if !s.grants x.target 4 vf then failed s 2
    else
      let r : Option Ring := if x.w 2 = 0 then none else some { vf := vf, base := x.w 2, k := k, tailAddr := x.w 4 }
      done { s with vfs := s.vfs.put vf { s.vfs.get {} vf with notify := r } }) s

/-- Work on core [6:0] of word 1, which must belong to the target. -/
def onCore (x : Ask) (s : State) (k : Nat → Core → Answer) : Answer :=
  let c := field (x.w 1) 6 0
  if s.grants x.target 3 c then k c (s.cores.get {} c) else failed s 2

def State.setCore (s : State) (i : Nat) (c : Core) : State := { s with cores := s.cores.put i c }

def execUifConfig (n : Nat) (s : State) : Res :=
  service 10 n (fun x s => onCore x s fun i c =>
    done (s.setCore i { c with identity := field (x.w 2) 15 0, file := field (x.w 2) 18 16 })) s

/-! ### Application cores (R442) -/

/-- A core that runs cannot be started again. -/
def execCoreStart (n : Nat) (s : State) : Res :=
  service 11 n (fun x s => onCore x s fun i c =>
    if c.run != 0 then failed s 3
    else done (s.setCore i { c with run := 1, mode := 1, pc := x.w 2, x := c.x.put 10 (x.w 3) })) s

/-- What the program of a core has made of its registers is free; a CSR number that it does not implement reads 0. -/
def Core.stop (c : Core) (at_ : Nat) : Core :=
  let f (i : Nat) : Word := Config.freeWord (at_ + i)
  { c with run := 0, pc := f 0
           x := ((List.range 31).map fun i => (i + 1, f (i + 1)) : List (Nat × Word))
           f := ((List.range 32).map fun i => (i, f (32 + i)) : List (Nat × Word))
           csr := ((List.range 4096).map fun i => (i, if Config.coreCsr i then f (64 + i) else 0) : List (Nat × Word)) }

def execCoreStop (n : Nat) (s : State) : Res :=
  service 12 n (fun x s => onCore x s fun i c =>
    if c.run = 0 then done s
    else done (({ s with free := s.free + 4160 } : State).setCore i (c.stop s.free))) s

/-- The 36,864 bytes of a stopped core's state. -/
def Core.area (c : Core) : Nat :=
  packWords ([c.pc] ++ ((List.range 31).map fun i => c.x.get 0 (i + 1)) ++ ((List.range 32).map fun i => c.f.get 0 i)
    ++ List.replicate 448 0 ++ (List.range 4096).map fun i => c.csr.get 0 i)

def execCoreStatus (n : Nat) (s : State) : Res :=
  service 13 n (fun x s => onCore x s fun _ c =>
    if c.run != 0 then .ends s 0 [(3, w64 c.run)]
    else onBuffer x (x.w 2) 36864 true s fun s1 ps => .ends (storeBuf ps c.area s1) 0 [(3, 0)]) s

end Sys2Proof.Machine
end

