-- ==== Sys2Proof/Machine/Sha.lean ====
section
/-! DEFINITION. SHA-384, in which R443 gives a measurement. The manual names the function; the function itself is taken from
the standard that defines it, FIPS 180-4 (log entry 145). -/

namespace Sys2Proof.Machine

/-- The largest number below r + 2^n, r added, whose e-th power is at most x. -/
def rootFrom (e x : Nat) : Nat → Nat → Nat
  | 0, r => r
  | n + 1, r => if (r + 2 ^ n) ^ e ≤ x then rootFrom e x n (r + 2 ^ n) else rootFrom e x n r

/-- The first 64 bits of the fractional part of the e-th root of n. -/
def rootBits (e n : Nat) : Word := BitVec.ofNat 64 (rootFrom e (n * 2 ^ (64 * e)) 70 0)

def isPrime (n : Nat) : Bool := decide (2 ≤ n) && (List.range n).all fun d => decide (d < 2) || n % d != 0

/-- The first 80 primes. -/
def shaPrimes : List Nat := (List.range 410).filter isPrime

/-- The round constants and the initial state. -/
def shaRounds : List Word := shaPrimes.map fun p => rootBits 3 p
def shaStart : List Word := ((shaPrimes.drop 8).take 8).map fun p => rootBits 2 p

/-- Byte i of the padded message of n bytes that fills a number of blocks. -/
def shaByte (v n blocks i : Nat) : Nat :=
  if i < n then v / 256 ^ i % 256
  else if i = n then 0x80
  else if i < 128 * blocks - 16 then 0
  else 8 * n / 256 ^ (128 * blocks - 1 - i) % 256

/-- Word i of the padded message: its bytes, the first most significant. -/
def shaWord (v n blocks i : Nat) : Word :=
  BitVec.ofNat 64 ((List.range 8).foldl (fun a j => a * 256 + shaByte v n blocks (8 * i + j)) 0)

/-- The words of the schedule, newest first, from the 16 of a block. -/
def shaSchedule : Nat → List Word → List Word
  | 0, ws => ws
  | n + 1, ws =>
    let a := ws.getD 1 0
    let b := ws.getD 14 0
    let s0 := b.rotateRight 1 ^^^ b.rotateRight 8 ^^^ (b >>> 7)
    let s1 := a.rotateRight 19 ^^^ a.rotateRight 61 ^^^ (a >>> 6)
    shaSchedule n ((s1 + ws.getD 6 0 + s0 + ws.getD 15 0) :: ws)

/-- One round on the eight working words, with constant and schedule word added. -/
def shaRound (h : List Word) (k : Word) : List Word :=
  let x (i : Nat) : Word := h.getD i 0
  let s1 := (x 4).rotateRight 14 ^^^ (x 4).rotateRight 18 ^^^ (x 4).rotateRight 41
  let t1 := x 7 + s1 + ((x 4 &&& x 5) ^^^ (~~~ (x 4) &&& x 6)) + k
  let s0 := (x 0).rotateRight 28 ^^^ (x 0).rotateRight 34 ^^^ (x 0).rotateRight 39
  let t2 := s0 + ((x 0 &&& x 1) ^^^ (x 0 &&& x 2) ^^^ (x 1 &&& x 2))
  [t1 + t2, x 0, x 1, x 2, x 3 + t1, x 4, x 5, x 6]

/-- One block of 16 words. -/
def shaBlock (h ws : List Word) : List Word :=
  let w := (shaSchedule 64 ws.reverse).reverse
  let z := ((shaRounds.zip w).map fun e => e.1 + e.2).foldl shaRound h
  (h.zip z).map fun e => e.1 + e.2

/-- SHA-384 of the n bytes of v, the lowest first: the 48 bytes as six words, in memory byte order. -/
def sha384 (n v : Nat) : List Word :=
  let blocks := (n + 144) / 128
  let h := (List.range blocks).foldl
    (fun h b => shaBlock h ((List.range 16).map fun i => shaWord v n blocks (16 * b + i))) shaStart
  (h.take 6).map fun x => BitVec.ofNat 64 ((List.range 8).foldl (fun a j => a + x.toNat / 256 ^ j % 256 * 256 ^ (7 - j)) 0)

end Sys2Proof.Machine
end

