-- ==== Sys2Proof/Machine/Package.lean ====
section
/-! DEFINITION. The services on errors, retirement, power, images and package links (R433, R458), attestation
(R443), the host link (R435 to R440), application cores (R442), ZCL (R444 to R446), power (R448) and the package
reset (R447). -/

namespace Sys2Proof.Machine

/-! ### Windows, errors, retirement -/

/-- R439: closing a window takes back every host copy of the range. -/
def execHostWindow (n : Nat) (s : State) : Res :=
  service 14 n (fun x s =>
    let p := field (x.w 1) 8 0
    if !s.grants x.target 2 p then failed s 2
    else if bit (x.w 2) 0 then done { s with windows := setInsert s.windows p }
    else done { s with windows := setErase s.windows p, hostCopies := s.hostCopies.filter fun l => l / 2 ^ 25 != p }) s

/-- The 64 bytes of an entry. -/
def ErrEntry.words (e : ErrEntry) : List Word :=
  [w64 e.time, w64 ((match e.basin with
    | some n => n % 64
    | none => 64) + e.cls * 2 ^ 8), w64 (e.kind + e.num * 2 ^ 16), e.addr, 0, 0, 0, 0]

/-- Context 15 reads the entries of its own basin only. -/
def execErrlogRead (n : Nat) (s : State) : Res :=
  service 15 n (fun x s =>
    let es := (if x.host then s.errlog else s.errlog.filter fun e => e.basin == some x.target).take (field (x.w 2) 15 0)
    onBuffer x (x.w 1) (64 * es.length) true s fun s1 ps =>
      let s2 := storeBuf ps (packWords (es.flatMap fun e => e.words)) s1
      .ends (if x.host then { s2 with errRead := max s2.errRead es.length } else s2) 0 [(3, w64 es.length)]) s

def execErrlogClear (n : Nat) (s : State) : Res :=
  service 16 n (fun x s =>
    let k := min (field (x.w 1) 15 0) s.errRead
    done { s with errlog := s.errlog.drop k, errRead := s.errRead - k }) s

/-- A granule leaves for good: a resize of its basin removes it. One that no basin holds is marked, and becomes RETIRED at the
end of its next scrub (R427, R430; log entry 85). A slice that is its basin's only one stays. -/
def retireGranule (x : Ask) (kind n : Nat) (s : State) : Answer :=
  let g := s.gran kind n
  let zero : List (Nat × Word) := [(1, 0)]
  match g.state with
  | .retired => failed s 1
  | .free => .ends (s.modGran kind n fun y => { y with retiring := true }) 0 zero
  | .owned =>
    if g.basin != x.target || (s.basin g.basin).contained then failed s 2
    else if kind == 1 && (s.basin g.basin).slices == [n] then failed s 3
    else
      let r := (s.modGran kind n fun y => { y with retiring := true }).queueRetire g.basin none [(kind, n)]
      .ends r.1 0 [(1, w64 r.2)]
  | _ => if g.basin != x.target then failed s 2 else .ends (s.modGran kind n fun y => { y with retiring := true }) 0 zero

/-- R429: retirement of a rill. -/
def retireRill (x : Ask) (b ph : Nat) (s : State) : Answer :=
  let y := s.braid b
  match (List.range 8).find? fun r => y.l2p.get r r == ph with
  | none => failed s (if y.spare.isNone then 3 else 1)
  | some r =>
    if y.spare.isNone then failed s 3
    else if y.gran.state == .free then .ends (s.remap b r) 0 [(1, 0)]
    else if y.gran.state == .retired then failed s 1
    else if y.gran.basin != x.target || (s.basin x.target).contained then failed s 2
    else
      let z := s.queueRetire x.target (some (b, r)) []
      .ends z.1 0 [(1, w64 z.2)]

def execRetireRequest (n : Nat) (s : State) : Res :=
  service 17 n (fun x s =>
    let i := (x.w 2).toNat
    match field (x.w 1) 1 0 with
    | 0 => if 512 * 16 ≤ i || 8 < i % 16 then failed s 1 else retireRill x (i / 16) (i % 16) s
    | 1 => if 1024 ≤ i then failed s 1 else retireGranule x 1 i s
    | 2 => if 512 ≤ i then failed s 1 else retireGranule x 2 i s
    | _ => failed s 1) s

/-- R430: the spare table. -/
def execSpareStatus (n : Nat) (s : State) : Res :=
  service 18 n (fun x s =>
    let m := s.spareRills.foldl (fun a e => a ||| 2 ^ (e.1 * 9 + e.2)) 0
    writeMap x (x.w 1) s.spareGranules s fun s1 =>
      onBuffer x (x.w 2) 576 true s1 fun s2 ps => done (storeBuf ps m s2)) s

/-! ### Power and telemetry -/

def execPowerLimit (n : Nat) (s : State) : Res :=
  service 19 n (fun x s =>
    let w := field (x.w 1) 15 0
    if w < 1500 || 3600 < w then failed s 1 else done { s with powerLimit := w }) s

def execPowerStatus (n : Nat) (s : State) : Res :=
  service 20 n (fun _ s =>
    .ends s 0 [(1, w64 (s.power1ms % 2 ^ 32)), (2, w64 (s.power1s % 2 ^ 32)), (3, w64 (s.budget.getD 0 % 2 ^ 16)),
      (4, w64 s.powerLimit)]) s

/-- The order of the counters is not fixed, so that every word is free. -/
def execTelemetry (n : Nat) (s : State) : Res :=
  service 21 n (fun x s =>
    onBuffer x (x.w 1) 8192 true s fun s1 ps =>
      done (storeBuf ps (packWords ((List.range 1024).map fun i => Config.freeWord (s1.free + i)))
        { s1 with free := s1.free + 1024 })) s

/-- R448: the mean of the latest n measurements. -/
def mean (n : Nat) (xs : List Nat) : Nat := sumOf (xs.take n) / (xs.take n).length

/-- Both averages are below their limits, as R448 uses them. -/
def State.powerOver (s : State) : Bool := decide (s.powerLimit < s.power1s) || decide (3800 < s.power1ms)
def State.powerBelow (s : State) : Bool := decide (s.power1s < s.powerLimit) && decide (s.power1ms < 3800)

/-- A budget of at least 1, whose value the manual leaves to the controller. -/
def State.drawBudget (s : State) : State :=
  { s with budget := some (1 + (Config.freeWord s.free).toNat % 65535), free := s.free + 1 }

/-- POWER_MEASURE: w is the package power in W. -/
def execPowerMeasure (w : Nat) (s : State) : Res :=
  let xs := (w :: s.powerSamples).take 100000
  let s1 := { s with powerSamples := xs, power1ms := mean 100 xs, power1s := mean 100000 xs }
  if s1.budget.isNone && s1.powerOver then .next s1.drawBudget.hostEvent else .next s1

def execPowerBudgetAdjust (s : State) : Res :=
  if s.budget.isNone then .next s
  else if s.powerBelow then .next ({ s with budget := none } : State).hostEvent
  else .next s.drawBudget.hostEvent

/-! ### Images (R434, R435, R443) -/

/-- Whether the signature of the image holds, and the security version and build that it carries, are read from bytes whose
layout the manual does not give; they are free. -/
def execImageStage (n : Nat) (s : State) : Res :=
  service 22 n (fun x s =>
    let i := field (x.w 3) 5 0
    if headwaterImage < i then failed s 1
    else onBuffer x (x.w 1) (field (x.w 2) 31 0) false s fun s1 ps =>
      let good := bit (Config.freeWord s1.free) 0
      let v := field (Config.freeWord (s1.free + 1)) 31 0
      let f : Firmware := { version := v, build := (Config.freeWord (s1.free + 2)).toNat
                            text := some (field (x.w 2) 31 0, s1.bufValue ps) }
      let s2 : State := { s1 with free := s1.free + 3 }
      if good && decide (Config.fusedMinimum i ≤ v) then
        done { s2 with images := s2.images.put i { s2.images.get {} i with staged := some f } }
      else failed s2.hostEvent 4) s

/-- IMAGE-SWITCH (R434). The rule bounds its time and does not say whether it waits for the calls in service: that it returns at
once, before the new image serves, is the model's choice (log entry 165). -/
def execImageSwitch (n : Nat) (s : State) : Res :=
  service 23 n (fun x s =>
    let i := field (x.w 1) 4 0
    let g := s.images.get {} i
    match g.staged with
    | none => failed s 4
    | some v => done (({ s with images := s.images.put i { g with next := some v, staged := none } } : State).switchImage i)) s

def execImageStatus (n : Nat) (s : State) : Res :=
  service 24 n (fun x s =>
    let i := field (x.w 1) 5 0
    if headwaterImage < i then failed s 1
    else .ends s 0 [(2, w64 (s.version i)), (3, match (s.images.get {} i).staged with
      | some f => w64 (f.version % 2 ^ 32 + 2 ^ 63)
      | none => 0)]) s

/-- The image that a measurement index names. -/
def measured (i : Nat) : Option Nat :=
  if i = 1 then some headwaterImage else if i = 2 then some coreImage
  else if 0x10 ≤ i && i < 0x30 then some (i - 0x10) else none

/-- The six words of a measurement: the SHA-384 of the image that has taken a call, not of one that has only been switched to
(R443). That of an image whose bytes are not known is open. -/
def State.measurement (s : State) (k : Nat) : List Word :=
  match (s.images.get {} k).shown.text with
  | some (n, v) => sha384 n v
  | none => (List.range 6).map fun j => Config.imageMeasure k j

def execMeasureRead (n : Nat) (s : State) : Res :=
  service 25 n (fun x s =>
    match measured (field (x.w 1) 7 0) with
    | none => .ends s 0 [(3, 0)]
    | some k => onBuffer x (x.w 2) 48 true s fun s1 ps => .ends (storeBuf ps (packWords (s1.measurement k)) s1) 0 [(3, 1)]) s

/-- An SPDM message is answered: a word that depends on the messages before it, and the words that the manual states. -/
def spdm (k : Nat) (x : Word) (ws : List Word) (s : State) : Res :=
  .next { s with spdm := s.spdm + 1, spdmReply := Config.spdmWord k x s.spdm :: ws }

def execGetVersion (x : Word) (s : State) : Res := spdm 0 x [] s
def execGetCapabilities (x : Word) (s : State) : Res := spdm 1 x [] s
def execNegotiateAlgorithms (x : Word) (s : State) : Res := spdm 2 x [] s
def execGetDigests (x : Word) (s : State) : Res := spdm 3 x [] s
def execGetCertificate (x : Word) (s : State) : Res := spdm 4 x [] s
def execChallenge (x : Word) (s : State) : Res := spdm 5 x [] s
def execGetMeasurements (x : Word) (s : State) : Res :=
  spdm 6 x (match measured x.toNat with
    | some k => s.measurement k
    | none => []) s

/-! ### ZCL (R444 to R446) -/

/-- A package has a route: an enabled port of the table. -/
def State.routed (s : State) (pk : Nat) : Bool :=
  let p := s.zclRoutes.get 0xFF pk
  decide (p < 12) && hasBit s.zclPorts p

/-- ZCL-CONFIG: a package that loses its route is lost, one that had a route and was lost stays so. -/
def execZclConfig (n : Nat) (s : State) : Res :=
  service 26 n (fun x s =>
    onBuffer x (x.w 3) 256 false s fun s1 ps =>
      let m := s1.bufValue ps
      let port (p : Nat) : Nat := m / 256 ^ p % 256
      if (List.range 256).any fun p => 12 ≤ port p && port p != 0xFF then failed s1 1
      else
        let routes : Table Nat := ((List.range 256).filter fun p => port p != 0xFF).map fun p => (p, port p)
        let s2 := { s1 with zclNumber := field (x.w 1) 7 0, zclPorts := field (x.w 2) 11 0, zclRoutes := routes }
        let lost := (List.range 256).filter fun p => !s2.routed p || (s1.routed p && s1.mem.lost.contains p)
        done { s2 with mem := { s2.mem with lost := lost } }) s

/-- Which enabled ports are up is outside this model, so that word 1 is free within the enables. -/
def execZclStatus (n : Nat) (s : State) : Res :=
  service 27 n (fun _ s =>
    let reach := (List.range 256).foldl (fun m p => if s.routed p && !s.mem.lost.contains p then m + 2 ^ p else m) 0
    .ends { s with free := s.free + 1 } 0 ((1, w64 ((Config.freeWord s.free).toNat &&& s.zclPorts)) ::
      (List.range 4).map fun i => (2 + i, w64 (reach / 2 ^ (64 * i))))) s

/-- Grants of a range, or their end. -/
def regrant (old : List (Nat × Nat)) (keys : List Nat) (n : Nat) (revoke : Bool) : List (Nat × Nat) :=
  let rest := old.filter fun g => !(keys.contains g.1 && g.2 == n)
  if revoke then rest else rest ++ keys.map fun k => (k, n)

/-- ZCL-GRANT. The statuses 1 for the package's own number and 2 for a range that another basin holds are the model's choice
(log entry 144). -/
def execZclGrant (n : Nat) (s : State) : Res :=
  service 28 n (fun x s =>
    let pk := field (x.w 1) 7 0
    let revoke := bit (x.w 2) 1
    if pk = s.zclNumber then failed s 1
    else onBuffer x (x.w 3) 64 false s fun s1 ps =>
      let cs := onesOf (s1.bufValue ps) 0 512
      let keys := cs.map fun c => pk * 512 + c
      if bit (x.w 2) 0 then
        if s1.zclIn.any fun g => keys.contains g.1 && g.2 != x.target then failed s1 2
        else done { s1 with zclIn := regrant s1.zclIn keys x.target revoke }
      else if cs.any fun c => !s1.grants x.target 2 c then failed s1 2
      else done { s1 with
        zclOut := regrant s1.zclOut keys x.target revoke
        remote := if revoke then s1.remote.filter fun r => !(r.1 == pk && cs.contains (r.2.1 / 2 ^ 25)) else s1.remote }) s

def execTimeSync (n : Nat) (s : State) : Res :=
  service 29 n (fun x s => done { s with timeBase := (x.w 1).toNat, timeAt := s.cycle }) s

def execEventRing (n : Nat) (s : State) : Res :=
  service 30 n (fun x s =>
    let k := field (x.w 2) 3 0
    if !ringSize k then failed s 1 else done { s with eventRing := some { base := x.w 1, k := k, tailAddr := x.w 3 } }) s

def execEcho (n : Nat) (s : State) : Res := service 31 n (fun x s => .ends s 0 [(2, x.w 1)]) s

/-- LINK_ROUTE_LOSS: every line that the package held writable is poisoned, and its range cannot be reached. -/
def execLinkRouteLoss (pk : Nat) (s : State) : Res :=
  if 256 ≤ pk || s.mem.lost.contains pk then .next s
  else
    let bad := s.remote.filter fun r => r.1 == pk && r.2.2
    let m := bad.foldl (fun m r => (List.range 8).foldl (fun t i => t.setPoison (64 * r.2.1 + 8 * i) true) m) s.mem
    let s1 : State := { s with mem := { m with lost := setInsert m.lost pk }, remote := s.remote.filter fun r => r.1 != pk }
    .next (s1.logError none 4 6 (s1.zclRoutes.get 0xFF pk) 0).hostEvent

def execRouteReturn (pk : Nat) (s : State) : Res :=
  .next { s with mem := { s.mem with lost := setErase s.mem.lost pk } }

/-- A line lies in the range of a package. -/
def lineOfPackage (pk line : Nat) : Bool := decide (zclBase ≤ 64 * line) && (64 * line - zclBase) / 2 ^ 40 == pk

/-- GUEST_KEEPALIVE_LOSS: the copies of the package's lines are discarded, and what had not reached it is lost, with or without
a route to the package. -/
def execGuestKeepaliveLoss (pk : Nat) (s : State) : Res :=
  let mine (e : Nat × L1Line) : Bool := lineOfPackage pk e.1
  let reached : Memory := { s.mem with lost := [] }
  let m := s.braids.foldl (fun m b => (b.2.l1.filter mine).foldl (fun t e => t.loseLine e.1 e.2) m) reached
  .next { s with mem := { m with lost := s.mem.lost }, braids := s.braids.update fun _ x => { x with l1 := x.l1.filter fun e => !mine e } }

/-- A read of an agent outside the rills is performed at the home; where it acquires, at the agent's scope, it is judged. -/
def State.outerRead (s : State) (p : Pos) (size pa : Nat) (acquires : Bool) : State :=
  let s1 := if acquires then s.acquire p (outerScope p) pa size else s
  ((s1.recallWritable (lineOf pa)).callBack (lineOf pa) false).answerOuter (s1.mem.load pa size)

/-- A read outside the open windows completes with poison (R439); its data, of which the manual says nothing, is free. -/
def State.closedRead (s : State) : State := { s with free := s.free + 1, reply := (Config.freeWord s.free, true) }

/-- A write of such an agent, which is its release where it says so (R162, R164). -/
def outerStore (p : Pos) (size pa : Nat) (v : Word) (releases acquires : Bool) : Access :=
  { id := 0, seq := 0, kind := .store, va := w64 pa, pa := pa, size := size, data := v, ordered := acquires
    tag := if releases then some (outerScope p) else none }

/-- A read-modify-write of such an agent, by the op of R289. -/
def outerAmo (p : Pos) (op size pa : Nat) (x : Word) (releases acquires : Bool) : Access :=
  { outerStore p size pa x releases acquires with kind := .amo op }

/-- A pseudo-channel of a basin that is not contained, whose granules would answer only Headwater and the scrub (R397). -/
def State.channelOpen (s : State) (c n : Nat) : Bool := (s.gchans.get {} c).ownedBy n && !(s.basin n).contained

/-- ZCL_REMOTE_REQUEST at the home: op mod 16 is 0 read, 1 write, 2 + n the RMW with op n of R289 by x, 11 a CAS of x against y,
where v is x and y; op + 16 acquires, op + 32 releases, op + 64 is of 32 bits and not of 64. The manual does not say which
requests other packages make, nor which of them acquire or release: the event says it (log entries 8 and 118). -/
def execZclRemoteRequest (pk op pa : Nat) (v : Word × Word) (s : State) : Res :=
  let (x, y) := v
  let c := pa / 2 ^ 31
  let line := lineOf pa
  let size := if op / 64 % 2 = 1 then 4 else 8
  let acquires := op / 16 % 2 == 1
  let releases := op / 32 % 2 == 1
  let kind := op % 16
  let served := s.zclOut.any fun g => g.1 == pk * 512 + c && s.channelOpen c g.2
  if hbmTop ≤ pa || pa % size != 0 || !served || s.mem.lost.contains pk || 11 < kind then .next s
  else
    let amo (n : Nat) : Access := outerAmo outsidePos n size pa x releases acquires
    let keep (w : Bool) (t : State) : Res :=
      .next { t with remote := (t.remote.filter fun r => !(r.1 == pk && r.2.1 == line)) ++ [(pk, line, w)] }
    match kind with
    | 0 => if s.lineFree line false then keep false (s.outerRead outsidePos size pa acquires) else .next s
    | 1 => keep true (s.outerRequest outsidePos (outerStore outsidePos size pa x releases false))
    | 11 => keep true (s.outerRequest outsidePos { amo 8 with kind := .cas 0 5, data := y, aux := x })
    | _ => keep true (s.outerRequest outsidePos (amo (kind - 2)))

/-! ### The host link (R435 to R439) -/

/-- CONFIGURATION_REQUEST: until verification ends, which is 1 s after reset at the latest, PF 0 answers retry. -/
def execConfigurationRequest (s : State) : Res :=
  if s.verified then .next s
  else
    let ends := bit (Config.freeWord s.free) 0 || decide (1000000 * Config.usCycles ≤ s.cycle)
    .next { s with verified := ends, free := s.free + 1 }

/-- Every copy of a line in this package and in others is recalled: those of S pages too (R410). -/
def State.recallAll (s : State) (line : Nat) : State :=
  let t := s.callBack line true
  { t with braids := t.braids.update fun _ x => { x with l1 := x.l1.drop line } }

/-- The host writes a word of its own memory, after the package's copies of the line have been recalled. No slot triggers
(R302), and such a write can fall between the halves of an RMW that is no AtomicOp (R285). -/
def State.hostWrite (s : State) (pa : Nat) (v : Word) : State :=
  if s.fanouts.any fun f => f.line == lineOf pa then s
  else
    let s1 := s.recallAll (lineOf pa)
    { s1 with mem := (s1.mem.write pa 8 v.toNat).setTags pa none 8 }

/-- The host reaches a device address: HOST-WINDOW has opened its pseudo-channel, whose basin is not contained (R397, R439). -/
def State.windowOpen (s : State) (pa : Nat) : Bool :=
  let g := s.gchans.get {} (pa / 2 ^ 31)
  decide (pa < hbmTop) && s.windows.contains (pa / 2 ^ 31) && !((s.basin g.basin).contained && g.ownedBy g.basin)

/-- HOST_CXL_MEM_ACCESS: a 64-bit word through an open window, or a word of host memory that the host writes. Each write
is a release of the host at .sy, and a read with bit 0 of v an acquire: which of its accesses are is not stated by the
manual and is said by the event. -/
def execHostCxlMemAccess (w : Bool) (pa : Nat) (v : Word) (s : State) : Res :=
  if w && isHost pa && pa % 8 == 0 then .next (s.hostWrite pa v)
  else if pa % 8 != 0 || !s.windowOpen pa then .next (if w then s else s.closedRead)
  else if w then
    let s1 := s.outerRequest outsidePos (outerStore outsidePos 8 pa v true false)
    .next { s1 with hostCopies := setInsert s1.hostCopies (lineOf pa) }
  else if !s.lineFree (lineOf pa) false then .next s
  else
    let s1 := s.outerRead outsidePos 8 pa (bit v 0)
    .next { s1 with hostCopies := setInsert s1.hostCopies (lineOf pa) }

/-- HOST_CXL_CACHE_SNOOP: line is a line of host memory; its copies in the package are recalled. -/
def execHostCxlCacheSnoop (line : Nat) (s : State) : Res :=
  let l := lineOf hostBase + line
  if s.lineFree l true then .next (s.recallAll l) else .next s

/-- HOST_ATOMICOP: op mod 16 is 0 FetchAdd, 1 Swap, 2 CAS of x against y; op + 16 acquires, op + 32 releases. -/
def execHostAtomicop (op size pa : Nat) (x y : Word) (s : State) : Res :=
  let acquires := op / 16 % 2 == 1
  let releases := op / 32 % 2 == 1
  if !(size == 4 || size == 8) || pa % size != 0 then .next s
  else if !s.windowOpen pa then .next s.closedRead
  else
    let amo (n : Nat) : Access := outerAmo outsidePos n size pa x releases acquires
    match op % 16 with
    | 0 => .next (s.outerRequest outsidePos (amo 0))
    | 1 => .next (s.outerRequest outsidePos (amo 8))
    | 2 => .next (s.outerRequest outsidePos { amo 8 with kind := .cas 0 5, data := y, aux := x })
    | _ => .next s

/-- HEAD of a ring takes the bits that its size has. -/
def Ring.headed (x : Ring) (v : Word) : Ring := { x with head := v.toNat % 2 ^ x.k }

def execHmsgRingHeadWrite (bs : Nat) (v : Word) (s : State) : Res :=
  .next (s.modBasin bs fun b => { b with hmsg := b.hmsg.map fun x => x.headed v })

/-- VFSTATUS of BAR0: bit 0 the basin is contained, bit 1 the VF is in no basin (R436). -/
def Vf.status (f : Vf) : Word :=
  w64 ((if f.down then 1 else 0) + if f.gran.state == .free || f.gran.state == .retired then 2 else 0)

def execNotifyRingHeadWrite (vf : Nat) (v : Word) (s : State) : Res :=
  let f := s.vfs.get {} vf
  .next { s with vfs := s.vfs.put vf { f with notify := f.notify.map fun x => x.headed v } }

/-- The host message ring that lies in memory of a VF. -/
def State.vfHmsg (s : State) (vf : Nat) : Option Ring :=
  let g := s.gran 4 vf
  if g.ownedBy g.basin then (s.basin g.basin).hmsg.filter fun x => x.vf == vf else none

/-- What a read of 64 bits at an offset of BAR0 of a VF returns (R436, R437). The places of the fields within their pages are
the model's choice: each takes 8 bytes, in the order of R436 (log entry 142). -/
def State.bar0 (s : State) (vf off : Nat) : Word :=
  let f := s.vfs.get {} vf
  let ring (x : Option Ring) (g : Ring → Nat) : Word := match x with
    | some r => w64 (g r)
    | none => 0
  if off < 0x8000 then
    if off % 0x1000 = 0x800 && s.pageBound vf (off / 0x1000) then (s.basin f.gran.basin).pageState (off / 0x1000) else 0
  else if 0xC000 ≤ off && off < 0xC400 then (if off % 8 = 0 then f.tableWord ((off - 0xC000) / 8) else 0)
  else match off with
    | 0x8000 => ring (s.vfHmsg vf) fun r => r.head
    | 0x8008 => ring (s.vfHmsg vf) fun r => 2 ^ r.k
    | 0x8010 => ring (s.vfHmsg vf) fun r => r.base.toNat
    | 0x9000 => ring f.notify fun r => r.head
    | 0x9008 => ring f.notify fun r => (if r.overflow then 1 else 0)
    | 0xA000 => f.status
    | 0xD000 => w64 f.pba
    | _ => 0

/-- OVERFLOW is W1C. -/
def Vf.clearOverflow (f : Vf) (v : Word) : Vf :=
  { f with notify := f.notify.map fun x => if bit v 0 then { x with overflow := false } else x }

/-- A write of 64 bits at an offset of BAR0 of a VF, other than to a submission page; one at another offset is discarded. -/
def State.writeBar0 (s : State) (vf off : Nat) (v : Word) : State :=
  let f := s.vfs.get {} vf
  let set (g : Vf) : State := { s with vfs := s.vfs.put vf g }
  if 0xC000 ≤ off && off < 0xC400 && off % 8 = 0 then set (f.writeTable ((off - 0xC000) / 8) v)
  else match off with
    | 0x8000 => if (s.vfHmsg vf).isSome then s.modBasin f.gran.basin fun b => { b with hmsg := b.hmsg.map fun x => x.headed v } else s
    | 0x9000 => set { f with notify := f.notify.map fun x => x.headed v }
    | 0x9008 => set (f.clearOverflow v)
    | _ => s

/-- NOTIFY_OVERFLOW_CLEAR, and with it every other access of 64 bits of the host to BAR0 of VF n mod 2048: n / 2048 is 0 for
OVERFLOW, 1 + 2 * off for a write of v at offset off, 2 + 2 * off for a read of it. -/
def execNotifyOverflowClear (n : Nat) (v : Word) (s : State) : Res :=
  let vf := n % 2048
  let a := n / 2048
  if a = 0 then .next (s.writeBar0 vf 0x9008 v)
  else if a % 2 = 1 then .next (s.writeBar0 vf (a / 2) v)
  else .next (s.answerOuter ((s.bar0 vf (a / 2 - 1)).toNat, false))

/-! ### Application cores (R442) -/

/-- The basin of a core that runs; a contained basin's granules answer it no more (R397). -/
def State.coreBasin (s : State) (k : Nat) : Option Nat :=
  let c := s.cores.get {} k
  if c.run = 1 && !(s.basin c.gran.basin).contained && (c.gran.state == .owned || c.gran.state == .leaving || c.gran.state == .scrubbing) then some c.gran.basin
  else none

/-- The 16 words of a record in a queue's address space: none while a line or a translation is not ready, and
otherwise the words, or none of them where it cannot be read. -/
def recordWords (n : Nat) (aspace : Word) (va : Nat) : Nat → State → State × Option (Option (List Word))
  | 0, s => (s, some (some []))
  | k + 1, s => match s.queueWord n aspace (w64 va) { r := true } with
    | (s1, .wait) => (s1, none)
    | (s1, .failed) => (s1, some none)
    | (s1, .at pa) => match recordWords n aspace (va + 8) k s1 with
      | (s2, some (some ws)) =>
        let (v, bad) := s2.mem.load pa 8
        (s2, if bad then some none else some (some (w64 v :: ws)))
      | r => r

/-- Core k of basin n stores record address v to the page of queue q. While the record cannot be read the decision is
pending. A record that LAUNCH would trap on, or that is poisoned, is refused. -/
def State.launchStore (s : State) (n k q : Nat) (v : Word) : State :=
  let answer (t : State) (a : Nat) : State := t.setCore k { t.cores.get {} k with launch := a }
  if field v 6 0 != 0 then answer s 2
  else match recordWords n ((s.basin n).queues.get {} q).aspace v.toNat 16 s with
    | (s1, none) => answer s1 3
    | (s1, some none) => answer s1 2
    | (s1, some (some ws)) => let (s2, a) := s1.submit n q ws; answer s2 a

/-- APP_CORE_LAUNCH_STORE: core k's store of record address v to the page of queue q, with core = q * 128 + k. The event
stands for the later reading of a record as well. -/
def execAppCoreLaunchStore (core : Nat) (v : Word) (s : State) : Res :=
  match s.coreBasin (core % 128) with
  | none => .next s
  | some n => .next (if 7 < core / 128 then s else s.launchStore n (core % 128) (core / 128) v)

/-- UIF_POP: a load of offset 0 of the file's page. It returns 0 when the FIFO is empty; how the word of
an entry is laid out is not stated, so that word is free. -/
def execUifPop (core : Nat) (s : State) : Res :=
  let c := s.cores.get {} core
  match c.fifo with
  | [] => .next { s with reply := (0, false) }
  | e :: t =>
    let bits := if t.any fun z => z.1 == e.1 then c.pending else maskMinus c.pending (2 ^ e.1)
    .next { (s.setCore core { c with fifo := t, pending := bits }) with reply := (Config.uifEntry e.1 e.2.1 e.2.2, false) }

/-- APPLICATION_CORE_ACCESS: op mod 16 is 0 load, 1 store, 2 + n the AMO with op n of R289, 11 LR, 12 SC; op + 16 is its
.aq form and op + 32 its .rl form. An address outside the granules of the core's basin takes an access fault in the core, which records where. A
64-bit store at offset 0 of a page of its basin's register pages is a launch store, and a load at offset 8 returns the answer to
the core's latest one. -/
def execApplicationCoreAccess (core op size pa : Nat) (v : Word) (s : State) : Res :=
  match s.coreBasin core with
  | none => .next s
  | some n =>
    let c := s.cores.get {} core
    let p := corePos core
    let line := lineOf pa
    let acquires := op / 16 % 2 == 1
    let releases := op / 32 % 2 == 1
    let kind := op % 16
    let sized := [1, 2, 4, 8].contains size && (kind < 2 || size == 4 || size == 8) && pa % size == 0
    let store := outerStore p size pa v releases acquires
    let page := pa - 2 ^ 40 - n * 2 ^ 20
    let register (offset : Nat) : Bool := 2 ^ 40 + n * 2 ^ 20 ≤ pa && page < 0x8000 && page % 0x1000 = offset && size == 8
    if register 8 && kind == 0 then .next (s.answerOuter (c.launch, false))
    else if register 0 && kind == 1 then .next (s.launchStore n core (page / 0x1000) v)
    else if !s.owns n pa then .next (s.setCore core { c with fault := some pa })
    else if !sized then .next s
    else match kind with
      | 0 => .next (if s.lineFree line false then s.outerRead p size pa acquires else s)
      | 1 => .next (s.outerRequest p { store with ordered := false })
      | 11 => if s.lineFree line false then .next ((s.outerRead p size pa acquires).setCore core { c with resv := some line })
        else .next s
      | 12 => if c.resv = some line then .next (s.outerRequest p { store with ext := [1] })
        else .next ((s.setCore core { c with resv := none }).answerOuter (1, false))
      | _ => if kind < 11 then .next (s.outerRequest p (outerAmo p (kind - 2) size pa v releases acquires)) else .next s

/-! ### Package reset (R430, R435, R447) -/

/-- What lies outside the package: host memory and the ranges of other packages. -/
def outsidePackage (a : Nat) : Bool := isHost a || decide (zclBase ≤ a ∧ a < 2 ^ 52)

/-- The active image after a reset: the Voxsis core and Headwater take their staged images. Whether it passes its
verification is free. -/
def Image.rebooted (g : Image) (i : Nat) (bad : Bool) : Image :=
  let v := if coreImage ≤ i then g.staged.getD g.active else g.active
  { active := v, bad := bad, shown := v }

/-- The table of a braid whose rill ph is retired: logical rill n on physical rill n (R15), but that the table omits rill ph
and has no spare (R430). -/
def withoutRill (ph : Nat) : Braid := { l2p := if ph < 8 then [(ph, 8)] else [], spare := none }

/-- PACKAGE_RESET. -/
def execPackageReset (s : State) : Res :=
  let verdict := Config.freeWord s.free
  let s1 : State := { State.reset with
    mem :=
      { cells := s.mem.cells.filter fun e => outsidePackage e.1
        poison := s.mem.poison.filter fun w => outsidePackage (8 * w)
        full := s.mem.full.filter fun w => outsidePackage (8 * w) }
    free := s.free + 1
    spareGranules := s.spareGranules
    spareRills := s.spareRills
    images := ((List.range 34).map fun i => (i, (s.images.get {} i).rebooted i (bit verdict i)) : List (Nat × Image))
    braids := s.spareRills.foldl (fun (t : Table Braid) e => t.put e.1 (withoutRill e.2)) [] }
  .next (s.spareGranules.foldl (fun t g => t.modGran g.1 g.2 fun y => { y with state := .retired }) s1)

end Sys2Proof.Machine
end

