-- ==== Sys2Proof/Machine/Fetch.lean ====
section
/-! DEFINITION. Fetching and decoding an issue unit (R57 to R65, R82, R97, R374), the slots of a rill (R79 to
R81), and the encodings that no instruction has. -/

namespace Sys2Proof.Machine

/-! ### Encodings without an instruction (R57, R59, R62) -/

def execIllegal (_x : BitVec 25) (s : State) : Res := trapped s 0x01 s.uw
def execExtensionSpace (_x : BitVec 25) (s : State) : Res := trapped s 0x03 s.uw
def execIllegalH (_x : BitVec 10) (s : State) : Res := trapped s 0x01 s.uw

/-- The line that holds an address. -/
def lineStart (pc : Word) : Word := w64 (pc.toNat / 64 * 64)

/-- EXECUTED-POOL: no unit is decoded, so that its length is 0 (R376). -/
def execPoolguard (_x : BitVec 10) (s : State) : Res := .next (s.trapAs 0x04 (lineStart s.upc) 0 s.upc false)

/-! ### The L1 instruction cache (R82, R156) -/

/-- What the fetch stage answers: a line with its poison mask above the 64 bytes; a line that is missing; a fault; a
poisoned page-table word; the host is asked. -/
inductive Fetched where
  | line (data : Nat)
  | miss (n : Nat)
  | fault (cause : Nat)
  | poisonedTable
  | ask
  deriving DecidableEq, Repr

/-- R65: each halfword i of a fetched line, taken from the one of the line's versions that pick i names; a word has
the poison bit of a version that one of its halfwords is taken from. -/
def mixLine (vs : List Nat) (pick : Nat → Nat) : Nat :=
  let from' (i : Nat) : Nat := vs.getD (pick i % vs.length) 0
  let halves := (List.range 32).foldl (fun x i => x + from' i / 2 ^ (16 * i) % 65536 * 2 ^ (16 * i)) 0
  let marks := (List.range 8).foldl (fun x w =>
    x + (if (List.range 4).any fun i => hasBit (from' (4 * w + i) / lineSpan) w then 2 ^ w else 0)) 0
  halves + marks * lineSpan

/-- What a fetch sees of line n, of which the cache of rill x holds d: where stores have written the line since, each
halfword is the one in the cache or one that a store wrote, freely (R65). -/
def State.seenLine (s : State) (x : Rill) (n d : Nat) : State × Nat :=
  let now := s.mem.line n
  let vs := (x.versions.get [] n).filter fun v => v != d
  if now = d && vs.isEmpty then (s, d)
  else ({ s with free := s.free + 32 }, mixLine (d :: vs ++ [now]) fun i => (Config.freeWord (s.free + i)).toNat)

/-- Fetch for the thread at p, whose rill holds the fetch stage. -/
def State.fetch (s : State) (p : Pos) (pc : Word) : State × Fetched :=
  if bit pc 55 then (s, .fault 0x0A)
  else if field pc 63 56 != 0 then (s, .fault 0x09)
  else match s.translate p pc { r := true, x := true } with
    | (s1, .ok pa _) => match (s1.rill p.b p.r).icache.find (lineOf pa) with
      | some d =>
        let seen := s1.seenLine (s1.rill p.b p.r) (lineOf pa) d
        (seen.1, .line seen.2)
      | none => (s1, .miss (lineOf pa))
    | (s1, .fault c _) => (s1, .fault c)
    | (s1, .ask) => (s1, .ask)
    | (s1, .poisoned) => (s1, .poisonedTable)

/-- The bytes of a line at its home, which a dirty copy has not reached (R156), and its poison mask. -/
def State.homeLine (s : State) (n : Nat) : Nat :=
  match (s.braids.filterMap fun e => match e.2.l1.find n with
    | some l => if l.dirty then some (l.home + l.homePoison * lineSpan) else none
    | none => none).head? with
  | some d => d
  | none => s.mem.line n

/-- Where a context fetches: the lead of its group and the group's pc (R96). -/
def State.fetchSite (s : State) (p : Pos) : Pos × Word :=
  match s.groupOf p with
  | some g => ({ p with r := (lanes g.mask).headD p.r }, g.pc)
  | none => (p, (s.ctx p).pc)

/-- The lines that an L1 instruction cache of 32 KiB holds (R33). -/
def icacheLines : Nat := 512

/-- A line enters the L1 instruction cache of a rill. The manual gives the capacity and neither its sets nor its
replacement: a line that is to go is drawn freely. -/
def State.fillLine (s : State) (p : Pos) (n d : Nat) : State :=
  let x := s.rill p.b p.r
  let old := x.icache.drop n
  if old.length < icacheLines then
    s.modRill p.b p.r fun y =>
      { y with icache := old.put n d, versions := y.versions.drop n, fetching := setErase y.fetching n }
  else
    let gone := (old.map Prod.fst).getD ((Config.freeWord s.free).toNat % old.length) 0
    ({ s with free := s.free + 1 } : State).modRill p.b p.r fun y =>
      { y with icache := (old.drop gone).put n d, versions := (y.versions.drop n).drop gone, fetching := setErase y.fetching n }

/-- INSTRUCTION_FETCH_MISS_FILL: the line that context k of rill r waits for arrives. -/
def execInstructionFetchMissFill (b r k : Nat) (s : State) : Res :=
  let (p, pc) := s.fetchSite ⟨b, r, k⟩
  match s.fetch p pc with
  | (s1, .miss n) =>
    if (s1.rill p.b p.r).fetching.contains n then
      let d := s1.homeLine n
      .next ((s1.fillLine p n d).modCtx ⟨b, r, k⟩ fun c => if c.held == some .fetchMiss then { c with held := none } else c)
    else .next s
  | _ => .next s

/-! ### DecodeUnit (R62, R63, R97) -/

/-- What a decoded unit does: a pool or an illegal encoding, a reserved one, or an instruction. -/
inductive Act where
  | pool
  | illegal
  | extension
  | reserved
  | instr (i : Instr)
  deriving DecidableEq

/-- A decoded unit: its IFQ halfword, its length in halfwords, its words as XVAL shows them and the word of its
instruction. -/
structure DUnit where
  act : Act
  pfx : Option Nat := none
  len : Nat := 0
  words : Nat := 0
  iword : Nat := 0
  deriving DecidableEq

def isGuard (h : Nat) : Bool := h / 1024 == 0x1F
def isIfq (h : Nat) : Bool := h / 1024 == 0x11

/-- Halfword at a byte offset of a line. -/
def halfAt (data off : Nat) : Nat := data / 2 ^ (8 * off) % 65536

/-- R97, and the entries of TBEGIN, TEND and TIRREV: an IFQ in front is a reserved combination. -/
def takesIfq (i : Instr) : Bool :=
  match i with
  | .fuse _ _ _ => false
  | .split => false
  | .rgn _ => false
  | .join => false
  | .joinH => false
  | .tbegin _ => false
  | .tend _ => false
  | .tirrev _ _ => false
  | _ => true

/-- The encodings that R62 turns into traps before the predicate condition. -/
def actOf (pfx : Option Nat) : Except Reject Instr → Act
  | .error .unassigned => .illegal
  | .error _ => .reserved
  | .ok (.illegal _) => .illegal
  | .ok (.illegalH _) => .illegal
  | .ok (.poolguard _) => .pool
  | .ok (.extensionSpace _) => .extension
  | .ok i => match pfx with
    | none => .instr i
    | some h => if h % 64 != 0 || !takesIfq i then .reserved else .instr i

/-- The instruction at offset at of a line. -/
noncomputable def decodeAt (data at_ : Nat) (pfx : Option Nat) : DUnit :=
  let hw := halfAt data at_
  let base := pfx.getD 0 * 2 ^ 32
  let n := if pfx.isSome then 1 else 0
  if isGuard hw then { act := .pool }
  else if hw < 0x8000 then
    if pfx.isSome && isIfq hw then { act := .illegal, pfx := pfx, len := n + 1, words := base + hw, iword := hw }
    else { act := actOf pfx (decode16 hw), pfx := pfx, len := n + 1, words := base + hw, iword := hw }
  else if at_ = 62 then { act := .illegal, pfx := pfx, len := n + 2, words := base + hw * 2 ^ 16, iword := hw * 2 ^ 16 }
  else
    let w := hw * 2 ^ 16 + halfAt data (at_ + 2)
    { act := actOf pfx (decode32 w), pfx := pfx, len := n + 2, words := base + w, iword := w }

/-- DecodeUnit at pc, from the 64 bytes of its line. -/
noncomputable def decodeUnit (data : Nat) (pc : Word) : DUnit :=
  let off := pc.toNat % 64
  let h := halfAt data off
  if isGuard (halfAt data 0) || isGuard h then { act := .pool }
  else if isIfq h then
    if off = 62 then { act := .illegal, pfx := some h, len := 1, words := h * 2 ^ 32 }
    else decodeAt data (off + 2) (some h)
  else decodeAt data off none

/-- A halfword of the unit comes from a poisoned word (R374). -/
def poisonedUnit (data off len : Nat) : Bool :=
  (List.range (max 1 len)).any fun i => decide (off + 2 * i < 64) && hasBit (data / lineSpan) ((off + 2 * i) / 8)

/-! ### A unit placed from outside -/

/-- Context 15 of logical rill 0 of braid 0, the first that a basin with that braid starts (R409). -/
def bootPos : Pos := ⟨0, 0, 15⟩

/-- Its next unit lies where its pc says, unless an instruction does not fit there. -/
def State.bootPc (s : State) : Word :=
  let pc := (s.ctx bootPos).pc
  if pc.toNat < 2 ^ 55 && pc.toNat % 2 == 0 && decide (pc.toNat % 64 ≤ 56) then pc else 0

/-- The bytes of an instruction, with zeros up to the longest unit. -/
def bootBytes (nbits w : Nat) : Nat :=
  (tableBytes nbits w).foldr (fun v t => v.toNat + 256 * t) 0

/-- Context 15 can issue. -/
def Ctx.boot (c : Ctx) (pc : Word) : Ctx :=
  { c with
    run := .running, halting := false, pc := pc, startAt := 0, wait := none, held := none, stopBy := 0, las := []
    vblocks := [], tx := none, team := none, left := none, sr := c.sr.put 0x050 0 }

/-- Braid 0 and pseudo-channel 0 belong to a basin that is not contained. -/
def Granule.boot (g : Granule) (n : Nat) : Granule := { g with state := .owned, basin := n }

/-- The first page of HBM holds the unit: its translation and its line are in the caches of the rill, and it is granted
the next slot. -/
def State.placeWord (s : State) (nbits w : Nat) : State :=
  let n := (s.braid 0).gran.basin
  let pc := s.bootPc
  let at_ := pc.toNat % 4096
  let m := (List.range 8).foldl (fun t i => t.setPoison (64 * lineOf at_ + 8 * i) false) (s.mem.write at_ 6 (bootBytes nbits w))
  let e : TlbEntry :=
    { basin := n, asid := field (s.srAt bootPos 0x0A0) 63 48, va := pc.toNat - at_, size := 4096, pa := 0
      leaf := w64 (0x3F + n * 2 ^ 52) }
  let s1 : State := { s with
    mem := m, agenda := [], grant := some bootPos
    gchans := s.gchans.put 0 ((s.gchans.get {} 0).boot n) }
  let s2 := (s1.modBasin n fun x => { x with alive := true, contained := false }).modBraid 0 fun x => { x with gran := x.gran.boot n }
  (s2.modRill 0 0 fun x => { x with
    tlb := e :: x.tlb, icache := x.icache.put (lineOf at_) (m.read (64 * lineOf at_) 64)
    versions := x.versions.drop (lineOf at_) }).modCtx
    bootPos fun c => c.boot pc

/-! ### Slots (R79 to R81) -/

/-- The context may be offered a slot: it runs, waits for nothing and has not halted; a hold in its slot is tried
again; after a CMIG it has been fenced (R182). A TLBINV, BRACK or CMIG of context 15 that is over has ended (State.endWait). -/
def State.canIssue (s : State) (p : Pos) : Bool :=
  let c := s.ctx p
  let gs := match s.groupOf p with
    | some g => g.sysWait == 0 && (lanes g.active).all fun r =>
      let z := s.ctx { p with r := r }
      z.run == .running && z.wait.isNone && decide (z.startAt ≤ s.cycle)
    | none => true
  c.run == .running && c.wait.isNone && !c.halting && decide (c.startAt ≤ s.cycle) && !(c.stopBy != 0 && c.tx.isNone) && gs
    && (s.lanesOf p).all fun q => (s.ctx q).fenceAt == 0 || s.doneBefore q (s.ctx q).fenceAt fun _ => true

/-- All lanes of the group of p, the inactive ones too, or p alone. -/
def State.membersOf (s : State) (p : Pos) : List Pos :=
  match s.groupOf p with
  | some g => (lanes g.mask).map fun r => { p with r := r }
  | none => [p]

/-- A position is offered its slot. A group issues one unit in it, so that a lane which the unit makes active, or which a
split sets free, goes on in its next slot (R80, R96, R105). -/
def State.offer (s : State) (p : Pos) : State :=
  { s with grant := some p, offered := s.offered ++ (s.membersOf p).map fun q => q.key }

/-- The marker of a rill whose slack has been used in this cycle. -/
def slackKey (b r : Nat) : Nat := 2 ^ 20 + rillKey b r

/-- The window engine has work that a slot moves on. -/
def State.engineBusy (s : State) (b r : Nat) : Bool :=
  match (s.rill b r).winOp with
  | some o => decide (o.slots < 9)
  | none => (s.windowNext b r).isSome

/-- A slack slot goes to the window engine. -/
def State.engineSlot (s : State) (b r : Nat) : State :=
  match (s.rill b r).winOp with
  | some o => s.modRill b r fun x => { x with winOp := some { o with slots := o.slots + 1 } }
  | none => match s.windowNext b r with
    | some o => s.modRill b r fun x => { x with winOp := some { o with slots := 1 } }
    | none => s

/-- The owner of the slot has issued in it, whatever its unit has done. -/
def State.slotTaken (s : State) (p : Pos) : Bool := s.offered.contains (usedKey p)

/-- Context 15 is held at an operation of which it makes one attempt in each slot of its own (R136, R140). -/
def Ctx.ownSlotOnly (c : Ctx) : Bool := c.held == some .shared || c.held == some .neighbour

/-- The slot of p is still to be offered: no lane that it concerns has been offered it or has used it, and no rill of
theirs has given the cycle away as slack. -/
def State.fresh (s : State) (p : Pos) : Bool :=
  (s.lanesOf p).contains p && (s.lanesOf p).all fun q =>
    !s.offered.contains q.key && !s.slotTaken q && !s.offered.contains (slackKey q.b q.r)

/-- A westward neighbour write in the slot of p waits for the slots of other rills (R140), so that the slot is not slack. -/
def State.undecided (s : State) (p : Pos) : Bool :=
  (s.lanesOf p).any fun q => (s.ctx q).held == some .neighbour && decide ((s.ctx q).triedAt ≤ s.cycle)
    && s.offered.contains q.key && !s.slotTaken q

/-- IssueCycle: the owner first, else the window engine, else context 15, each once in a cycle. -/
def State.issueCycle (s : State) (b r : Nat) : State :=
  let p : Pos := ⟨b, r, s.cycle % 16⟩
  if s.fresh p && (s.endWait p).canIssue p then s.offer p
  else if s.slotTaken p || s.undecided p || s.offered.contains (slackKey b r) then s
  else
    let s1 := { s with offered := s.offered ++ [slackKey b r] }
    if s.engineBusy b r then s1.engineSlot b r
    else
      let q : Pos := ⟨b, r, 15⟩
      if !s.offered.contains q.key && !(s.ctx q).ownSlotOnly && (s.endWait q).canIssue q then s1.offer q else s1

/-- ISSUE_CYCLE. -/
def execIssueCycle (b r : Nat) (s : State) : Res := .next (s.issueCycle b r)

end Sys2Proof.Machine
end

