-- ==== Sys2Proof/Machine/Integer.lean ====
section
/-! DEFINITION. Integer, address and bit-field instructions: majors 0x01, 0x03 to 0x0C and their 16-bit
forms (R118 to R133). -/

namespace Sys2Proof.Machine

/-! ### Functions of R122, R125 to R128 -/

def satSigned (i : Int) : Word := wrap (clamp i (-(2 ^ 63)) (2 ^ 63 - 1))
def satUnsigned (i : Int) : Word := wrap (clamp i 0 (2 ^ 64 - 1))

def shlW (a b : Word) : Word := a <<< (b.toNat % 64)
def shrW (a b : Word) : Word := a >>> (b.toNat % 64)
def sraW (a b : Word) : Word := a.sshiftRight (b.toNat % 64)
def rorW (a b : Word) : Word := a.rotateRight (b.toNat % 64)
def minS (a b : Word) : Word := if a.slt b then a else b
def maxS (a b : Word) : Word := if b.slt a then a else b
def minU (a b : Word) : Word := if a.ult b then a else b
def maxU (a b : Word) : Word := if b.ult a then a else b
def addsW (a b : Word) : Word := satSigned (a.toInt + b.toInt)
def subsW (a b : Word) : Word := satSigned (a.toInt - b.toInt)
def addzsW (a b : Word) : Word := satUnsigned ((a.toNat : Int) + b.toNat)
def subzsW (a b : Word) : Word := satUnsigned ((a.toNat : Int) - b.toNat)

/-- Extract of R126. -/
def extract (x : Word) (pos len : Nat) (signed : Bool) : Word :=
  let f := x.toNat / 2 ^ pos % 2 ^ len
  if signed then sext f len else zext f len

/-- Insert of R126: bits pos to pos + len - 1 that lie below bit 64 take x[len-1:0]. -/
def insert (old x : Word) (pos len : Nat) : Word :=
  let m := (2 ^ len - 1) * 2 ^ pos % 2 ^ 64
  w64 ((old.toNat - (old.toNat &&& m)) + (x.toNat * 2 ^ pos &&& m))

/-- The descriptor of EXT, EXTZ and INS (R127). -/
def descPos (b : Word) : Nat := field b 5 0
def descLen (b : Word) : Nat := field b 13 8 + 1

/-- Leading zero bits among the low n bits of x. -/
def leadingZeros : Nat → Nat → Nat
  | 0, _ => 0
  | n + 1, x => if hasBit x n then 0 else 1 + leadingZeros n x

/-- Trailing zero bits, at most n. -/
def trailingZeros : Nat → Nat → Nat
  | 0, _ => 0
  | n + 1, x => if x % 2 = 1 then 0 else 1 + trailingZeros n (x / 2)

def clzW (a : Word) : Word := w64 (leadingZeros 64 a.toNat)
def ctzW (a : Word) : Word := w64 (trailingZeros 64 a.toNat)
/-- R127: bits below bit 63 equal to it before the first that differs. -/
def clsW (a : Word) : Word :=
  let x := if bit a 63 then 2 ^ 64 - 1 - a.toNat else a.toNat
  w64 (leadingZeros 63 x)
def popcW (a : Word) : Word := w64 (countOnes 64 a.toNat)

/-- Bits in reverse order. -/
def reverseBits : Nat → Nat → Nat → Nat
  | 0, _, acc => acc
  | n + 1, x, acc => reverseBits n (x / 2) (acc * 2 + x % 2)
def brevW (a : Word) : Word := w64 (reverseBits 64 a.toNat 0)

/-- Bytes in reverse order. -/
def reverseBytes : Nat → Nat → Nat → Nat
  | 0, _, acc => acc
  | n + 1, x, acc => reverseBytes n (x / 256) (acc * 256 + x % 256)
def bswapW (a : Word) : Word := w64 (reverseBytes 8 a.toNat 0)

/-- One byte of BPERM (R128). -/
def bpermByte (a : Nat) (c : Nat) : Nat :=
  if hasBit c 7 then 0
  else
    let y := a / 2 ^ (8 * (c % 8)) % 256
    if hasBit c 6 then (if hasBit y 7 then 255 else 0) else y

def bpermFrom (a : Nat) : Nat → Nat → Nat
  | 0, _ => 0
  | n + 1, b => bpermByte a (b % 256) + 256 * bpermFrom a n (b / 256)
def bpermW (a b : Word) : Word := w64 (bpermFrom a.toNat 8 b.toNat)

/-! ### Major 0x01 (R122) -/

def execAdd (d a b : BitVec 5) (s : State) : Res := binary (fun x y => x + y) d a b s
def execSub (d a b : BitVec 5) (s : State) : Res := binary (fun x y => x - y) d a b s
def execAnd (d a b : BitVec 5) (s : State) : Res := binary (fun x y => x &&& y) d a b s
def execOr (d a b : BitVec 5) (s : State) : Res := binary (fun x y => x ||| y) d a b s
def execXor (d a b : BitVec 5) (s : State) : Res := binary (fun x y => x ^^^ y) d a b s
def execAndn (d a b : BitVec 5) (s : State) : Res := binary (fun x y => x &&& ~~~y) d a b s
def execOrn (d a b : BitVec 5) (s : State) : Res := binary (fun x y => x ||| ~~~y) d a b s
def execXnor (d a b : BitVec 5) (s : State) : Res := binary (fun x y => ~~~(x ^^^ y)) d a b s
def execShl (d a b : BitVec 5) (s : State) : Res := binary shlW d a b s
def execShr (d a b : BitVec 5) (s : State) : Res := binary shrW d a b s
def execSra (d a b : BitVec 5) (s : State) : Res := binary sraW d a b s
def execRor (d a b : BitVec 5) (s : State) : Res := binary rorW d a b s
def execMin (d a b : BitVec 5) (s : State) : Res := binary minS d a b s
def execMax (d a b : BitVec 5) (s : State) : Res := binary maxS d a b s
def execMinz (d a b : BitVec 5) (s : State) : Res := binary minU d a b s
def execMaxz (d a b : BitVec 5) (s : State) : Res := binary maxU d a b s
def execAdds (d a b : BitVec 5) (s : State) : Res := binary addsW d a b s
def execSubs (d a b : BitVec 5) (s : State) : Res := binary subsW d a b s
def execAddzs (d a b : BitVec 5) (s : State) : Res := binary addzsW d a b s
def execSubzs (d a b : BitVec 5) (s : State) : Res := binary subzsW d a b s
def execShadd (d a b : BitVec 5) (sh : BitVec 2) (s : State) : Res :=
  binary (fun x y => x + y <<< sh.toNat) d a b s

/-! ### Major 0x03 (R127, R128) -/

def execExt (d a b : BitVec 5) (s : State) : Res :=
  binary (fun x y => extract x (descPos y) (descLen y) true) d a b s
def execExtz (d a b : BitVec 5) (s : State) : Res :=
  binary (fun x y => extract x (descPos y) (descLen y) false) d a b s
def execIns (d a b : BitVec 5) (s : State) : Res :=
  ternary (fun old x y => insert old x (descPos y) (descLen y)) d a b s
def execClz (d a : BitVec 5) (s : State) : Res := unary clzW d a s
def execCtz (d a : BitVec 5) (s : State) : Res := unary ctzW d a s
def execCls (d a : BitVec 5) (s : State) : Res := unary clsW d a s
def execPopc (d a : BitVec 5) (s : State) : Res := unary popcW d a s
def execBrev (d a : BitVec 5) (s : State) : Res := unary brevW d a s
def execBswap (d a : BitVec 5) (s : State) : Res := unary bswapW d a s
def execBperm (d a b : BitVec 5) (s : State) : Res := binary bpermW d a b s

/-! ### Immediates (R123 to R126) -/

def execAddi (d a : BitVec 5) (i : BitVec 15) (s : State) : Res := unary (fun x => x + imm15s i) d a s
def execAndi (d a : BitVec 5) (i : BitVec 15) (s : State) : Res := unary (fun x => x &&& imm15z i) d a s
def execOri (d a : BitVec 5) (i : BitVec 15) (s : State) : Res := unary (fun x => x ||| imm15z i) d a s
def execXori (d a : BitVec 5) (i : BitVec 15) (s : State) : Res := unary (fun x => x ^^^ imm15z i) d a s
def execShli (d a : BitVec 5) (p : BitVec 6) (s : State) : Res := unary (fun x => x <<< p.toNat) d a s
def execShri (d a : BitVec 5) (p : BitVec 6) (s : State) : Res := unary (fun x => x >>> p.toNat) d a s
def execSrai (d a : BitVec 5) (p : BitVec 6) (s : State) : Res := unary (fun x => x.sshiftRight p.toNat) d a s
def execRori (d a : BitVec 5) (p : BitVec 6) (s : State) : Res := unary (fun x => x.rotateRight p.toNat) d a s
def execExti (d a : BitVec 5) (n p : BitVec 6) (s : State) : Res :=
  unary (fun x => extract x p.toNat (n.toNat + 1) true) d a s
def execExtzi (d a : BitVec 5) (n p : BitVec 6) (s : State) : Res :=
  unary (fun x => extract x p.toNat (n.toNat + 1) false) d a s
def execInsi (d a : BitVec 5) (n p : BitVec 6) (s : State) : Res :=
  unaryOld (fun old x => insert old x p.toNat (n.toNat + 1)) d a s

/-- LUI (R124): imm at bits 31:12, sign-extended from bit 31. -/
def execLui (d : BitVec 5) (i : BitVec 20) (s : State) : Res :=
  wrote s d (sext (i.toNat * 4096) 32) false
/-- ADDPC (R124). -/
def execAddpc (d : BitVec 5) (i : BitVec 20) (s : State) : Res := wrote s d (s.relTarget i) false

/-! ### Compare, select and predicate logic (R131, R132) -/

def execCmpi (c : BitVec 2) (q : BitVec 3) (a : BitVec 5) (i : BitVec 15) (s : State) : Res :=
  withReg s a fun x => wrotePred s q (cmpiHolds c x.val (imm15s i)) x.poison
def execCmp (q : BitVec 3) (a b : BitVec 5) (c : BitVec 3) (s : State) : Res :=
  testing (condHolds c) q a b s
/-- SEL reads the predicate and both registers, whichever it selects. -/
def execSel (d a b : BitVec 5) (n : BitVec 3) (s : State) : Res :=
  withPred s n fun p => withReg s a fun x => withReg s b fun y =>
    wrote s d (if p.val then x.val else y.val) (p.poison || x.poison || y.poison)
def execMvqr (d : BitVec 5) (q : BitVec 3) (s : State) : Res :=
  withPred s q fun p => wrote s d (wordOfBool p.val) p.poison
def execMvrq (q : BitVec 3) (a : BitVec 5) (s : State) : Res :=
  withReg s a fun x => wrotePred s q (x.val != 0) x.poison
def execPand (q a b : BitVec 3) (s : State) : Res := predOp (fun x y => x && y) q a b s
def execPor (q a b : BitVec 3) (s : State) : Res := predOp (fun x y => x || y) q a b s
def execPxor (q a b : BitVec 3) (s : State) : Res := predOp (fun x y => x != y) q a b s
def execPandn (q a b : BitVec 3) (s : State) : Res := predOp (fun x y => x && !y) q a b s
def execPorn (q a b : BitVec 3) (s : State) : Res := predOp (fun x y => x || !y) q a b s

/-! ### 16-bit forms (R133) -/

def execMovH (d b : BitVec 5) (s : State) : Res := binary (fun x y => x + y) d 0 b s
def execAddH (d b : BitVec 5) (s : State) : Res := binary (fun x y => x + y) d d b s
def execSubH (d b : BitVec 5) (s : State) : Res := binary (fun x y => x - y) d d b s
def execAndH (d b : BitVec 5) (s : State) : Res := binary (fun x y => x &&& y) d d b s
def execOrH (d b : BitVec 5) (s : State) : Res := binary (fun x y => x ||| y) d d b s
def execXorH (d b : BitVec 5) (s : State) : Res := binary (fun x y => x ^^^ y) d d b s
def execShliH (d : BitVec 5) (i : BitVec 5) (s : State) : Res := unary (fun x => x <<< i.toNat) d d s
def execShriH (d : BitVec 5) (i : BitVec 5) (s : State) : Res := unary (fun x => x >>> i.toNat) d d s
def execAddiH (d : BitVec 5) (i : BitVec 5) (s : State) : Res := unary (fun x => x + imm5s i) d d s
def execMoviH (d : BitVec 5) (i : BitVec 5) (s : State) : Res := unary (fun x => x + imm5s i) d 0 s
/-- NOP.H (R59): no effect. -/
def execNopH (s : State) : Res := .next s.advance

end Sys2Proof.Machine
end

