-- ==== Sys2Proof/Machine/Dispatch.lean ====
section
/-! DEFINITION. One arm for every constructor of Instr: the meaning it calls. -/

namespace Sys2Proof.Machine

/-- The meaning of an instruction or event. -/
def exec (i : Instr) (s : State) : Host.Outcome State Fault Refusal :=
  match i with
  | .issueCycle b r => Sys2Proof.Machine.execIssueCycle b r s
  | .instructionFetchMissFill b r k => Sys2Proof.Machine.execInstructionFetchMissFill b r k s
  | .loadDataReturn b r k n => Sys2Proof.Machine.execLoadDataReturn b r k n s
  | .storePerformed b r k n => Sys2Proof.Machine.execStorePerformed b r k n s
  | .windowSpill b r k => Sys2Proof.Machine.execWindowSpill b r k s
  | .windowFill b r k => Sys2Proof.Machine.execWindowFill b r k s
  | .multiplyResult b r k n => Sys2Proof.Machine.execMultiplyResult b r k n s
  | .divideResult b r => Sys2Proof.Machine.execDivideResult b r s
  | .fpLongResult b r k n => Sys2Proof.Machine.execFpLongResult b r k n s
  | .sharedRegisterEffect b r => Sys2Proof.Machine.execSharedRegisterEffect b r s
  | .sharedRegisterFeRetry b r k => Sys2Proof.Machine.execSharedRegisterFeRetry b r k s
  | .nwrAttempt b r k => Sys2Proof.Machine.execNwrAttempt b r k s
  | .nwrLand b r k => Sys2Proof.Machine.execNwrLand b r k s
  | .fuseGroupForm b k m => Sys2Proof.Machine.execFuseGroupForm b k m s
  | .fuseTimeout b r k => Sys2Proof.Machine.execFuseTimeout b r k s
  | .bmodeSwitchEnd b => Sys2Proof.Machine.execBmodeSwitchEnd b s
  | .bmodeWrite b r v => Sys2Proof.Machine.execBmodeWrite b r v s
  | .blockElement b r => Sys2Proof.Machine.execBlockElement b r s
  | .vectorCycle b r => Sys2Proof.Machine.execVectorCycle b r s
  | .vectorResultWrite b r k => Sys2Proof.Machine.execVectorResultWrite b r k s
  | .streamFetch b r => Sys2Proof.Machine.execStreamFetch b r s
  | .streamStore b r => Sys2Proof.Machine.execStreamStore b r s
  | .copyEngineStep b => Sys2Proof.Machine.execCopyEngineStep b s
  | .copyComplete b q => Sys2Proof.Machine.execCopyComplete b q s
  | .matrixArbitrate b => Sys2Proof.Machine.execMatrixArbitrate b s
  | .matrixAccessStop b n => Sys2Proof.Machine.execMatrixAccessStop b n s
  | .matrixCommandComplete b n => Sys2Proof.Machine.execMatrixCommandComplete b n s
  | .mxrotTransfer b dir w => Sys2Proof.Machine.execMxrotTransfer b dir w s
  | .networkArbitrate o => Sys2Proof.Machine.execNetworkArbitrate o s
  | .sliceServe line => Sys2Proof.Machine.execSliceServe line s
  | .sliceRequestStarved n => Sys2Proof.Machine.execSliceRequestStarved n s
  | .ownerRmw n => Sys2Proof.Machine.execOwnerRmw n s
  | .feParkedRetry n => Sys2Proof.Machine.execFeParkedRetry n s
  | .scopeMissNotification n => Sys2Proof.Machine.execScopeMissNotification n s
  | .hbmWriteback line => Sys2Proof.Machine.execHbmWriteback line s
  | .writeUpdateAck b line => Sys2Proof.Machine.execWriteUpdateAck b line s
  | .fanoutTimeout b line => Sys2Proof.Machine.execFanoutTimeout b line s
  | .keepaliveLoss b => Sys2Proof.Machine.execKeepaliveLoss b s
  | .monitorTrigger b r k line => Sys2Proof.Machine.execMonitorTrigger b r k line s
  | .monwaitEnd b r k => Sys2Proof.Machine.execMonwaitEnd b r k s
  | .monwaitTimeout b r k => Sys2Proof.Machine.execMonwaitTimeout b r k s
  | .monstatWakeWrite b r k v => Sys2Proof.Machine.execMonstatWakeWrite b r k v s
  | .barrierRelease b r k => Sys2Proof.Machine.execBarrierRelease b r k s
  | .rupdSend b r k n => Sys2Proof.Machine.execRupdSend b r k n s
  | .txCommitLockReply b r k sl => Sys2Proof.Machine.execTxCommitLockReply b r k sl s
  | .txCommitDeadline b r k => Sys2Proof.Machine.execTxCommitDeadline b r k s
  | .txCommitApplied b r k sl => Sys2Proof.Machine.execTxCommitApplied b r k sl s
  | .txstatAbortreqWrite b r k v => Sys2Proof.Machine.execTxstatAbortreqWrite b r k v s
  | .weirTokenGrant bs => Sys2Proof.Machine.execWeirTokenGrant bs s
  | .irrevocableLockGrant b r k => Sys2Proof.Machine.execIrrevocableLockGrant b r k s
  | .irrevocablePreemptTimeout b r k => Sys2Proof.Machine.execIrrevocablePreemptTimeout b r k s
  | .submissionWrite vf q ws => Sys2Proof.Machine.execSubmissionWrite vf q ws s
  | .dependenceReread bs n => Sys2Proof.Machine.execDependenceReread bs n s
  | .recordAged bs n => Sys2Proof.Machine.execRecordAged bs n s
  | .placementRound die bs => Sys2Proof.Machine.execPlacementRound die bs s
  | .cohortEnd b n => Sys2Proof.Machine.execCohortEnd b n s
  | .dequeOperation b r => Sys2Proof.Machine.execDequeOperation b r s
  | .stealProbe b r => Sys2Proof.Machine.execStealProbe b r s
  | .contextStop b r k => Sys2Proof.Machine.execContextStop b r k s
  | .watchdogExpire b r k => Sys2Proof.Machine.execWatchdogExpire b r k s
  | .evwaitTimeout b r => Sys2Proof.Machine.execEvwaitTimeout b r s
  | .atsCompletion n ok e => Sys2Proof.Machine.execAtsCompletion n ok e s
  | .priResponse n ok => Sys2Proof.Machine.execPriResponse n ok s
  | .atsInvalidateRequest bs asid va => Sys2Proof.Machine.execAtsInvalidateRequest bs asid va s
  | .uncorrectableError site x y => Sys2Proof.Machine.execUncorrectableError site x y s
  | .correctedError b r => Sys2Proof.Machine.execCorrectedError b r s
  | .resizePhaseStart bs => Sys2Proof.Machine.execResizePhaseStart bs s
  | .resizePhaseEnd bs => Sys2Proof.Machine.execResizePhaseEnd bs s
  | .phaseDeadline bs => Sys2Proof.Machine.execPhaseDeadline bs s
  | .rehashHandover bs line => Sys2Proof.Machine.execRehashHandover bs line s
  | .rehashFirstTouch bs line => Sys2Proof.Machine.execRehashFirstTouch bs line s
  | .scrubComplete kind n => Sys2Proof.Machine.execScrubComplete kind n s
  | .rillRetire b r => Sys2Proof.Machine.execRillRetire b r s
  | .packageReset => Sys2Proof.Machine.execPackageReset s
  | .hostCxlMemAccess w pa v => Sys2Proof.Machine.execHostCxlMemAccess w pa v s
  | .hostCxlCacheSnoop line => Sys2Proof.Machine.execHostCxlCacheSnoop line s
  | .hostAtomicop op size pa x y => Sys2Proof.Machine.execHostAtomicop op size pa x y s
  | .hmsgRingHeadWrite bs v => Sys2Proof.Machine.execHmsgRingHeadWrite bs v s
  | .notifyOverflowClear vf v => Sys2Proof.Machine.execNotifyOverflowClear vf v s
  | .appCoreLaunchStore core v => Sys2Proof.Machine.execAppCoreLaunchStore core v s
  | .uifPop core => Sys2Proof.Machine.execUifPop core s
  | .linkRouteLoss pk => Sys2Proof.Machine.execLinkRouteLoss pk s
  | .guestKeepaliveLoss pk => Sys2Proof.Machine.execGuestKeepaliveLoss pk s
  | .powerMeasure w => Sys2Proof.Machine.execPowerMeasure w s
  | .powerBudgetAdjust => Sys2Proof.Machine.execPowerBudgetAdjust s
  | .serviceComplete n => Sys2Proof.Machine.execServiceComplete n s
  | .ident n => Sys2Proof.Machine.execIdent n s
  | .basinCreate n => Sys2Proof.Machine.execBasinCreate n s
  | .basinDestroy n => Sys2Proof.Machine.execBasinDestroy n s
  | .basinResize n => Sys2Proof.Machine.execBasinResize n s
  | .basinStatus n => Sys2Proof.Machine.execBasinStatus n s
  | .queueConfig n => Sys2Proof.Machine.execQueueConfig n s
  | .queueStatus n => Sys2Proof.Machine.execQueueStatus n s
  | .launchCancel n => Sys2Proof.Machine.execLaunchCancel n s
  | .hmsgqConfig n => Sys2Proof.Machine.execHmsgqConfig n s
  | .notifyConfig n => Sys2Proof.Machine.execNotifyConfig n s
  | .uifConfig n => Sys2Proof.Machine.execUifConfig n s
  | .coreStart n => Sys2Proof.Machine.execCoreStart n s
  | .coreStop n => Sys2Proof.Machine.execCoreStop n s
  | .coreStatus n => Sys2Proof.Machine.execCoreStatus n s
  | .hostWindow n => Sys2Proof.Machine.execHostWindow n s
  | .errlogRead n => Sys2Proof.Machine.execErrlogRead n s
  | .errlogClear n => Sys2Proof.Machine.execErrlogClear n s
  | .retireRequest n => Sys2Proof.Machine.execRetireRequest n s
  | .spareStatus n => Sys2Proof.Machine.execSpareStatus n s
  | .powerLimit n => Sys2Proof.Machine.execPowerLimit n s
  | .powerStatus n => Sys2Proof.Machine.execPowerStatus n s
  | .telemetry n => Sys2Proof.Machine.execTelemetry n s
  | .imageStage n => Sys2Proof.Machine.execImageStage n s
  | .imageSwitch n => Sys2Proof.Machine.execImageSwitch n s
  | .imageStatus n => Sys2Proof.Machine.execImageStatus n s
  | .measureRead n => Sys2Proof.Machine.execMeasureRead n s
  | .zclConfig n => Sys2Proof.Machine.execZclConfig n s
  | .zclStatus n => Sys2Proof.Machine.execZclStatus n s
  | .zclGrant n => Sys2Proof.Machine.execZclGrant n s
  | .timeSync n => Sys2Proof.Machine.execTimeSync n s
  | .eventRing n => Sys2Proof.Machine.execEventRing n s
  | .echo n => Sys2Proof.Machine.execEcho n s
  | .getVersion x => Sys2Proof.Machine.execGetVersion x s
  | .getCapabilities x => Sys2Proof.Machine.execGetCapabilities x s
  | .negotiateAlgorithms x => Sys2Proof.Machine.execNegotiateAlgorithms x s
  | .getDigests x => Sys2Proof.Machine.execGetDigests x s
  | .getCertificate x => Sys2Proof.Machine.execGetCertificate x s
  | .challenge x => Sys2Proof.Machine.execChallenge x s
  | .getMeasurements x => Sys2Proof.Machine.execGetMeasurements x s
  | .frint d a x r => Sys2Proof.Machine.execFrint d a x r s
  | .dqspillWrite b r => Sys2Proof.Machine.execDqspillWrite b r s
  | .contextHalted b r k => Sys2Proof.Machine.execContextHalted b r k s
  | .notifyRingHeadWrite vf v => Sys2Proof.Machine.execNotifyRingHeadWrite vf v s
  | .keepaliveReturn b => Sys2Proof.Machine.execKeepaliveReturn b s
  | .routeReturn pk => Sys2Proof.Machine.execRouteReturn pk s
  | .zclRemoteRequest pk op pa v => Sys2Proof.Machine.execZclRemoteRequest pk op pa v s
  | .applicationCoreAccess core op size pa v => Sys2Proof.Machine.execApplicationCoreAccess core op size pa v s
  | .configurationRequest => Sys2Proof.Machine.execConfigurationRequest s
  | .illegal x => Sys2Proof.Machine.execIllegal x s
  | .extensionSpace x => Sys2Proof.Machine.execExtensionSpace x s
  | .illegalH x => Sys2Proof.Machine.execIllegalH x s
  | .poolguard x => Sys2Proof.Machine.execPoolguard x s
  | .add d a b => Sys2Proof.Machine.execAdd d a b s
  | .sub d a b => Sys2Proof.Machine.execSub d a b s
  | .and d a b => Sys2Proof.Machine.execAnd d a b s
  | .or d a b => Sys2Proof.Machine.execOr d a b s
  | .xor d a b => Sys2Proof.Machine.execXor d a b s
  | .andn d a b => Sys2Proof.Machine.execAndn d a b s
  | .orn d a b => Sys2Proof.Machine.execOrn d a b s
  | .xnor d a b => Sys2Proof.Machine.execXnor d a b s
  | .shl d a b => Sys2Proof.Machine.execShl d a b s
  | .shr d a b => Sys2Proof.Machine.execShr d a b s
  | .sra d a b => Sys2Proof.Machine.execSra d a b s
  | .ror d a b => Sys2Proof.Machine.execRor d a b s
  | .min d a b => Sys2Proof.Machine.execMin d a b s
  | .max d a b => Sys2Proof.Machine.execMax d a b s
  | .minz d a b => Sys2Proof.Machine.execMinz d a b s
  | .maxz d a b => Sys2Proof.Machine.execMaxz d a b s
  | .adds d a b => Sys2Proof.Machine.execAdds d a b s
  | .subs d a b => Sys2Proof.Machine.execSubs d a b s
  | .addzs d a b => Sys2Proof.Machine.execAddzs d a b s
  | .subzs d a b => Sys2Proof.Machine.execSubzs d a b s
  | .shadd d a b sx => Sys2Proof.Machine.execShadd d a b sx s
  | .mul d a b l => Sys2Proof.Machine.execMul d a b l s
  | .mulh d a b l => Sys2Proof.Machine.execMulh d a b l s
  | .mulhz d a b l => Sys2Proof.Machine.execMulhz d a b l s
  | .mulhsz d a b l => Sys2Proof.Machine.execMulhsz d a b l s
  | .div d a b l => Sys2Proof.Machine.execDiv d a b l s
  | .divz d a b l => Sys2Proof.Machine.execDivz d a b l s
  | .rem d a b l => Sys2Proof.Machine.execRem d a b l s
  | .remz d a b l => Sys2Proof.Machine.execRemz d a b l s
  | .ext d a b => Sys2Proof.Machine.execExt d a b s
  | .extz d a b => Sys2Proof.Machine.execExtz d a b s
  | .ins d a b => Sys2Proof.Machine.execIns d a b s
  | .clz d a => Sys2Proof.Machine.execClz d a s
  | .ctz d a => Sys2Proof.Machine.execCtz d a s
  | .cls d a => Sys2Proof.Machine.execCls d a s
  | .popc d a => Sys2Proof.Machine.execPopc d a s
  | .brev d a => Sys2Proof.Machine.execBrev d a s
  | .bswap d a => Sys2Proof.Machine.execBswap d a s
  | .bperm d a b => Sys2Proof.Machine.execBperm d a b s
  | .addi d a imm => Sys2Proof.Machine.execAddi d a imm s
  | .andi d a imm => Sys2Proof.Machine.execAndi d a imm s
  | .ori d a imm => Sys2Proof.Machine.execOri d a imm s
  | .xori d a imm => Sys2Proof.Machine.execXori d a imm s
  | .shli d a p => Sys2Proof.Machine.execShli d a p s
  | .shri d a p => Sys2Proof.Machine.execShri d a p s
  | .srai d a p => Sys2Proof.Machine.execSrai d a p s
  | .rori d a p => Sys2Proof.Machine.execRori d a p s
  | .exti d a n p => Sys2Proof.Machine.execExti d a n p s
  | .extzi d a n p => Sys2Proof.Machine.execExtzi d a n p s
  | .insi d a n p => Sys2Proof.Machine.execInsi d a n p s
  | .cmpi c q a imm => Sys2Proof.Machine.execCmpi c q a imm s
  | .lui d imm => Sys2Proof.Machine.execLui d imm s
  | .addpc d imm => Sys2Proof.Machine.execAddpc d imm s
  | .cmp q a b c => Sys2Proof.Machine.execCmp q a b c s
  | .sel d a b n => Sys2Proof.Machine.execSel d a b n s
  | .mvqr d q => Sys2Proof.Machine.execMvqr d q s
  | .mvrq q a => Sys2Proof.Machine.execMvrq q a s
  | .pand q a b => Sys2Proof.Machine.execPand q a b s
  | .por q a b => Sys2Proof.Machine.execPor q a b s
  | .pxor q a b => Sys2Proof.Machine.execPxor q a b s
  | .pandn q a b => Sys2Proof.Machine.execPandn q a b s
  | .porn q a b => Sys2Proof.Machine.execPorn q a b s
  | .mrd d m => Sys2Proof.Machine.execMrd d m s
  | .mwr m a => Sys2Proof.Machine.execMwr m a s
  | .mrdfe d m => Sys2Proof.Machine.execMrdfe d m s
  | .mrdff d m => Sys2Proof.Machine.execMrdff d m s
  | .mwrfe m a => Sys2Proof.Machine.execMwrfe m a s
  | .mwrff m a => Sys2Proof.Machine.execMwrff m a s
  | .mfeclr m => Sys2Proof.Machine.execMfeclr m s
  | .rempty d => Sys2Proof.Machine.execRempty d s
  | .rfull d => Sys2Proof.Machine.execRfull d s
  | .rtest q a => Sys2Proof.Machine.execRtest q a s
  | .nwrE d a => Sys2Proof.Machine.execNwrE d a s
  | .nwrW d a => Sys2Proof.Machine.execNwrW d a s
  | .lox n a => Sys2Proof.Machine.execLox n a s
  | .mox d n => Sys2Proof.Machine.execMox d n s
  | .loxm n a k => Sys2Proof.Machine.execLoxm n a k s
  | .ld d a t p l => Sys2Proof.Machine.execLd d a t p l s
  | .st d a t p l => Sys2Proof.Machine.execSt d a t p l s
  | .ldIndexed d a b sx t l => Sys2Proof.Machine.execLdIndexed d a b sx t l s
  | .stIndexed d a b sx t l => Sys2Proof.Machine.execStIndexed d a b sx t l s
  | .bmov n a b e l => Sys2Proof.Machine.execBmov n a b e l s
  | .bmovd n a b e l => Sys2Proof.Machine.execBmovd n a b e l s
  | .bfill n a b e l => Sys2Proof.Machine.execBfill n a b e l s
  | .bscanEq n a b e l => Sys2Proof.Machine.execBscanEq n a b e l s
  | .bscanNe n a b e l => Sys2Proof.Machine.execBscanNe n a b e l s
  | .cpf a p l => Sys2Proof.Machine.execCpf a p l s
  | .cwb a p l => Sys2Proof.Machine.execCwb a p l s
  | .cflush a p l => Sys2Proof.Machine.execCflush a p l s
  | .czero a p l => Sys2Proof.Machine.execCzero a p l s
  | .cpfw a p l => Sys2Proof.Machine.execCpfw a p l s
  | .iinv r a p l => Sys2Proof.Machine.execIinv r a p l s
  | .fence sx => Sys2Proof.Machine.execFence sx s
  | .fenceAcq sx => Sys2Proof.Machine.execFenceAcq sx s
  | .fenceRel sx => Sys2Proof.Machine.execFenceRel sx s
  | .fenceRelWiden a b sx => Sys2Proof.Machine.execFenceRelWiden a b sx s
  | .fenceXp => Sys2Proof.Machine.execFenceXp s
  | .lda d a q t x sx => Sys2Proof.Machine.execLda d a q t x sx s
  | .strel d a t sx => Sys2Proof.Machine.execStrel d a t sx s
  | .ldfe d a p l => Sys2Proof.Machine.execLdfe d a p l s
  | .ldff d a p l => Sys2Proof.Machine.execLdff d a p l s
  | .stfe d a p l => Sys2Proof.Machine.execStfe d a p l s
  | .stff d a p l => Sys2Proof.Machine.execStff d a p l s
  | .feclr a p l => Sys2Proof.Machine.execFeclr a p l s
  | .amoadd d a b z o l => Sys2Proof.Machine.execAmoadd d a b z o l s
  | .amoand d a b z o l => Sys2Proof.Machine.execAmoand d a b z o l s
  | .amoor d a b z o l => Sys2Proof.Machine.execAmoor d a b z o l s
  | .amoxor d a b z o l => Sys2Proof.Machine.execAmoxor d a b z o l s
  | .amomin d a b z o l => Sys2Proof.Machine.execAmomin d a b z o l s
  | .amomax d a b z o l => Sys2Proof.Machine.execAmomax d a b z o l s
  | .amominz d a b z o l => Sys2Proof.Machine.execAmominz d a b z o l s
  | .amomaxz d a b z o l => Sys2Proof.Machine.execAmomaxz d a b z o l s
  | .amoxchg d a b z o l => Sys2Proof.Machine.execAmoxchg d a b z o l s
  | .amofadd d a b z o l => Sys2Proof.Machine.execAmofadd d a b z o l s
  | .cas d a b z e sx l => Sys2Proof.Machine.execCas d a b z e sx l s
  | .rupd p a b c l => Sys2Proof.Machine.execRupd p a b c l s
  | .rupdAddzZ64 a b o c l => Sys2Proof.Machine.execRupdAddzZ64 a b o c l s
  | .rupdAddzZ32 a b o c l => Sys2Proof.Machine.execRupdAddzZ32 a b o c l s
  | .vamo p a b v f m l => Sys2Proof.Machine.execVamo p a b v f m l s
  | .monarm k a => Sys2Proof.Machine.execMonarm k a s
  | .mondis k => Sys2Proof.Machine.execMondis k s
  | .monwait d b => Sys2Proof.Machine.execMonwait d b s
  | .hmsg d a => Sys2Proof.Machine.execHmsg d a s
  | .barcfg a n => Sys2Proof.Machine.execBarcfg a n s
  | .bararv d n => Sys2Proof.Machine.execBararv d n s
  | .barwait a n => Sys2Proof.Machine.execBarwait a n s
  | .barsync n => Sys2Proof.Machine.execBarsync n s
  | .waitlt c k => Sys2Proof.Machine.execWaitlt c k s
  | .waitltr c a => Sys2Proof.Machine.execWaitltr c a s
  | .bra p => Sys2Proof.Machine.execBra p s
  | .call p => Sys2Proof.Machine.execCall p s
  | .bl p => Sys2Proof.Machine.execBl p s
  | .bq q p => Sys2Proof.Machine.execBq q p s
  | .bnq q p => Sys2Proof.Machine.execBnq q p s
  | .bcmp a b c p => Sys2Proof.Machine.execBcmp a b c p s
  | .bcmpi a imm c p => Sys2Proof.Machine.execBcmpi a imm c p s
  | .jr a => Sys2Proof.Machine.execJr a s
  | .jl d a => Sys2Proof.Machine.execJl d a s
  | .callr a => Sys2Proof.Machine.execCallr a s
  | .ret => Sys2Proof.Machine.execRet s
  | .loopn a p => Sys2Proof.Machine.execLoopn a p s
  | .loopns a b p => Sys2Proof.Machine.execLoopns a b p s
  | .fuse d a b => Sys2Proof.Machine.execFuse d a b s
  | .split => Sys2Proof.Machine.execSplit s
  | .rgn p => Sys2Proof.Machine.execRgn p s
  | .join => Sys2Proof.Machine.execJoin s
  | .brk n => Sys2Proof.Machine.execBrk n s
  | .vote q r t => Sys2Proof.Machine.execVote q r t s
  | .ballot d q => Sys2Proof.Machine.execBallot d q s
  | .shfl d a b m => Sys2Proof.Machine.execShfl d a b m s
  | .fadd d a b f r => Sys2Proof.Machine.execFadd d a b f r s
  | .fsub d a b f r => Sys2Proof.Machine.execFsub d a b f r s
  | .fmul d a b f r => Sys2Proof.Machine.execFmul d a b f r s
  | .fma d a b f r => Sys2Proof.Machine.execFma d a b f r s
  | .fnma d a b f r => Sys2Proof.Machine.execFnma d a b f r s
  | .fmin d a b f => Sys2Proof.Machine.execFmin d a b f s
  | .fmax d a b f => Sys2Proof.Machine.execFmax d a b f s
  | .fsgnj d a b f => Sys2Proof.Machine.execFsgnj d a b f s
  | .fsgnjn d a b f => Sys2Proof.Machine.execFsgnjn d a b f s
  | .fsgnjx d a b f => Sys2Proof.Machine.execFsgnjx d a b f s
  | .fclass d a f => Sys2Proof.Machine.execFclass d a f s
  | .fcmp q a b f c => Sys2Proof.Machine.execFcmp q a b f c s
  | .fldexp d a b f r => Sys2Proof.Machine.execFldexp d a b f r s
  | .fmxsc d a e => Sys2Proof.Machine.execFmxsc d a e s
  | .fdiv d a b f l => Sys2Proof.Machine.execFdiv d a b f l s
  | .fsqrt d a f l => Sys2Proof.Machine.execFsqrt d a f l s
  | .frcp d a f l => Sys2Proof.Machine.execFrcp d a f l s
  | .frsqrt d a f l => Sys2Proof.Machine.execFrsqrt d a f l s
  | .fexp2 d a f l => Sys2Proof.Machine.execFexp2 d a f l s
  | .flog2 d a f l => Sys2Proof.Machine.execFlog2 d a f l s
  | .fsinpi d a f l => Sys2Proof.Machine.execFsinpi d a f l s
  | .fcospi d a f l => Sys2Proof.Machine.execFcospi d a f l s
  | .fcvt d a x y r => Sys2Proof.Machine.execFcvt d a x y r s
  | .vadd d a b m t => Sys2Proof.Machine.execVadd d a b m t s
  | .vsub d a b m t => Sys2Proof.Machine.execVsub d a b m t s
  | .vmul d a b m t => Sys2Proof.Machine.execVmul d a b m t s
  | .vfma d a b m t => Sys2Proof.Machine.execVfma d a b m t s
  | .vfnma d a b m t => Sys2Proof.Machine.execVfnma d a b m t s
  | .vmin d a b m t => Sys2Proof.Machine.execVmin d a b m t s
  | .vmax d a b m t => Sys2Proof.Machine.execVmax d a b m t s
  | .vabs d a m t => Sys2Proof.Machine.execVabs d a m t s
  | .vneg d a m t => Sys2Proof.Machine.execVneg d a m t s
  | .vldexp d a b m t => Sys2Proof.Machine.execVldexp d a b m t s
  | .vexp2 d a m t => Sys2Proof.Machine.execVexp2 d a m t s
  | .vrcp d a m t => Sys2Proof.Machine.execVrcp d a m t s
  | .vrsqrt d a m t => Sys2Proof.Machine.execVrsqrt d a m t s
  | .vlog2 d a m t => Sys2Proof.Machine.execVlog2 d a m t s
  | .vcmp a b c m t => Sys2Proof.Machine.execVcmp a b c m t s
  | .vand d a b m t => Sys2Proof.Machine.execVand d a b m t s
  | .vor d a b m t => Sys2Proof.Machine.execVor d a b m t s
  | .vxor d a b m t => Sys2Proof.Machine.execVxor d a b m t s
  | .vshl d a b m t => Sys2Proof.Machine.execVshl d a b m t s
  | .vshr d a b m t => Sys2Proof.Machine.execVshr d a b m t s
  | .vsra d a b m t => Sys2Proof.Machine.execVsra d a b m t s
  | .vminz d a b m t => Sys2Proof.Machine.execVminz d a b m t s
  | .vmaxz d a b m t => Sys2Proof.Machine.execVmaxz d a b m t s
  | .vadds d a b m t => Sys2Proof.Machine.execVadds d a b m t s
  | .vsubs d a b m t => Sys2Proof.Machine.execVsubs d a b m t s
  | .vaddzs d a b m t => Sys2Proof.Machine.execVaddzs d a b m t s
  | .vsubzs d a b m t => Sys2Proof.Machine.execVsubzs d a b m t s
  | .vbcast d a m t => Sys2Proof.Machine.execVbcast d a m t s
  | .vmov d a m t => Sys2Proof.Machine.execVmov d a m t s
  | .vrsum d a m t => Sys2Proof.Machine.execVrsum d a m t s
  | .vrmax d a m t => Sys2Proof.Machine.execVrmax d a m t s
  | .vrmin d a m t => Sys2Proof.Machine.execVrmin d a m t s
  | .vramax d a m t => Sys2Proof.Machine.execVramax d a m t s
  | .vperm d a b m t => Sys2Proof.Machine.execVperm d a b m t s
  | .vext d a b t => Sys2Proof.Machine.execVext d a b t s
  | .vins d a b t => Sys2Proof.Machine.execVins d a b t s
  | .vrot d a b m t => Sys2Proof.Machine.execVrot d a b m t s
  | .vld d a b m e l => Sys2Proof.Machine.execVld d a b m e l s
  | .vst d a b m e l => Sys2Proof.Machine.execVst d a b m e l s
  | .vlds d a b m e l => Sys2Proof.Machine.execVlds d a b m e l s
  | .vsts d a b m e l => Sys2Proof.Machine.execVsts d a b m e l s
  | .vgath d a b m e l => Sys2Proof.Machine.execVgath d a b m e l s
  | .vscat d a b m e l => Sys2Proof.Machine.execVscat d a b m e l s
  | .vcvt d a sx x m p => Sys2Proof.Machine.execVcvt d a sx x m p s
  | .vseq a k => Sys2Proof.Machine.execVseq a k s
  | .sbindIn x v b o c l => Sys2Proof.Machine.execSbindIn x v b o c l s
  | .sbindOut v b o c l => Sys2Proof.Machine.execSbindOut v b o c l s
  | .sunbind v => Sys2Proof.Machine.execSunbind v s
  | .sdrain v => Sys2Proof.Machine.execSdrain v s
  | .sstat v d => Sys2Proof.Machine.execSstat v d s
  | .sres a b => Sys2Proof.Machine.execSres a b s
  | .copy x t o c l => Sys2Proof.Machine.execCopy x t o c l s
  | .copyg x t o c l => Sys2Proof.Machine.execCopyg x t o c l s
  | .copyf t v o c l => Sys2Proof.Machine.execCopyf t v o c l s
  | .cres a b => Sys2Proof.Machine.execCres a b s
  | .mxldb x a b o c l => Sys2Proof.Machine.execMxldb x a b o c l s
  | .mxmma a b o c l => Sys2Proof.Machine.execMxmma a b o c l s
  | .mxrot a b o c l => Sys2Proof.Machine.execMxrot a b o c l s
  | .mxswap b c l => Sys2Proof.Machine.execMxswap b c l s
  | .mxclr b c l => Sys2Proof.Machine.execMxclr b c l s
  | .mxldacc x a b o c l => Sys2Proof.Machine.execMxldacc x a b o c l s
  | .mxstacc a b o c l => Sys2Proof.Machine.execMxstacc a b o c l s
  | .mxscale a b c l => Sys2Proof.Machine.execMxscale a b c l s
  | .mxrmax a b c l => Sys2Proof.Machine.execMxrmax a b c l s
  | .mxquotaMv a b => Sys2Proof.Machine.execMxquotaMv a b s
  | .mxquotaWt a b => Sys2Proof.Machine.execMxquotaWt a b s
  | .mxteam a => Sys2Proof.Machine.execMxteam a s
  | .mxres a b => Sys2Proof.Machine.execMxres a b s
  | .tbegin p => Sys2Proof.Machine.execTbegin p s
  | .tend q => Sys2Proof.Machine.execTend q s
  | .tabort c => Sys2Proof.Machine.execTabort c s
  | .tstat d => Sys2Proof.Machine.execTstat d s
  | .txld d b t => Sys2Proof.Machine.execTxld d b t s
  | .tirrev b p => Sys2Proof.Machine.execTirrev b p s
  | .txchk => Sys2Proof.Machine.execTxchk s
  | .launch a sx l => Sys2Proof.Machine.execLaunch a sx l s
  | .spawn k l => Sys2Proof.Machine.execSpawn k l s
  | .take sx k l => Sys2Proof.Machine.execTake sx k l s
  | .takeL sx k l => Sys2Proof.Machine.execTakeL sx k l s
  | .syncj a sx k l => Sys2Proof.Machine.execSyncj a sx k l s
  | .nest k l => Sys2Proof.Machine.execNest k l s
  | .iter sx l => Sys2Proof.Machine.execIter sx l s
  | .itnext sx l => Sys2Proof.Machine.execItnext sx l s
  | .ixmov n d l => Sys2Proof.Machine.execIxmov n d l s
  | .mfs d k y x z => Sys2Proof.Machine.execMfs d k y x z s
  | .mts k a y x z => Sys2Proof.Machine.execMts k a y x z s
  | .sys a => Sys2Proof.Machine.execSys a s
  | .trap a => Sys2Proof.Machine.execTrap a s
  | .eret a => Sys2Proof.Machine.execEret a s
  | .eretN a => Sys2Proof.Machine.execEretN a s
  | .evwait d b => Sys2Proof.Machine.execEvwait d b s
  | .cstart d a b => Sys2Proof.Machine.execCstart d a b s
  | .cstop a => Sys2Proof.Machine.execCstop a s
  | .csave a b => Sys2Proof.Machine.execCsave a b s
  | .crest d a b => Sys2Proof.Machine.execCrest d a b s
  | .replay d a => Sys2Proof.Machine.execReplay d a s
  | .replayDrop d a => Sys2Proof.Machine.execReplayDrop d a s
  | .tlbinv a b m => Sys2Proof.Machine.execTlbinv a b m s
  | .svcall d a b => Sys2Proof.Machine.execSvcall d a b s
  | .binfo a sx => Sys2Proof.Machine.execBinfo a sx s
  | .bhome a sx => Sys2Proof.Machine.execBhome a sx s
  | .brack a sx => Sys2Proof.Machine.execBrack a sx s
  | .cmig a sx => Sys2Proof.Machine.execCmig a sx s
  | .cmigChk a sx => Sys2Proof.Machine.execCmigChk a sx s
  | .movH d b => Sys2Proof.Machine.execMovH d b s
  | .addH d b => Sys2Proof.Machine.execAddH d b s
  | .subH d b => Sys2Proof.Machine.execSubH d b s
  | .andH d b => Sys2Proof.Machine.execAndH d b s
  | .orH d b => Sys2Proof.Machine.execOrH d b s
  | .xorH d b => Sys2Proof.Machine.execXorH d b s
  | .shliH d imm => Sys2Proof.Machine.execShliH d imm s
  | .shriH d imm => Sys2Proof.Machine.execShriH d imm s
  | .addiH d imm => Sys2Proof.Machine.execAddiH d imm s
  | .moviH d imm => Sys2Proof.Machine.execMoviH d imm s
  | .ldlH d k => Sys2Proof.Machine.execLdlH d k s
  | .stlH d k => Sys2Proof.Machine.execStlH d k s
  | .bH p => Sys2Proof.Machine.execBH p s
  | .bqH q p => Sys2Proof.Machine.execBqH q p s
  | .bnqH q p => Sys2Proof.Machine.execBnqH q p s
  | .retH => Sys2Proof.Machine.execRetH s
  | .nopH => Sys2Proof.Machine.execNopH s
  | .ifq q n => Sys2Proof.Machine.execIfq q n s
  | .joinH => Sys2Proof.Machine.execJoinH s
  | .haltH => Sys2Proof.Machine.execHaltH s

end Sys2Proof.Machine
end

