-- ==== Sys2Proof/Machine/Schedule.lean ====
section
/-! DEFINITION. The order in which a step takes what is due by itself: in each rill cycle the events of the
hardware, each once, then the slots of every rill. The manual gives most of these events no order; this one is a
choice, and an agenda given from outside takes the place of any other. -/

namespace Sys2Proof.Machine

/-- Marker of a rill cycle whose events have been put on the agenda. -/
def eventMark : Nat := 2 ^ 30

/-- Marker of a rill cycle whose placements have been put on the agenda. -/
def placeMark : Nat := 2 ^ 31

/-- Service number to its event. -/
def serviceEvent (k n : Nat) : List Instr :=
  (([.ident n, .basinCreate n, .basinDestroy n, .basinResize n, .basinStatus n, .queueConfig n, .queueStatus n,
    .launchCancel n] ++ [.hmsgqConfig n, .notifyConfig n, .uifConfig n, .coreStart n, .coreStop n, .coreStatus n,
    .hostWindow n, .errlogRead n] ++ [.errlogClear n, .retireRequest n, .spareStatus n, .powerLimit n, .powerStatus n,
    .telemetry n, .imageStage n, .imageSwitch n] ++ [.imageStatus n, .measureRead n, .zclConfig n, .zclStatus n,
    .zclGrant n, .timeSync n, .eventRing n, .echo n] : List Instr)[k]?).toList

/-- Events of a context. -/
noncomputable def ctxEvents (p : Pos) (c : Ctx) : List Instr :=
  let b := p.b
  let r := p.r
  let k := p.k
  (c.flights.flatMap fun a => [.loadDataReturn b r k a.id, .storePerformed b r k a.id, .rupdSend b r k a.id])
    ++ (c.longs.flatMap fun l => [.multiplyResult b r k l.id, .fpLongResult b r k l.id])
    ++ (if c.vres.isEmpty then [] else [.vectorResultWrite b r k])
    ++ (match c.tx with
      | some t => (t.awaiting.flatMap fun sl => [.txCommitLockReply b r k sl, .txCommitApplied b r k sl])
          ++ [.txCommitDeadline b r k, .irrevocableLockGrant b r k, .irrevocablePreemptTimeout b r k]
      | none => [])
    ++ (match c.wait with
      | some (.fuse m _ _ _ _ _ _ _) => [.fuseGroupForm b k m, .fuseTimeout b r k]
      | some (.barrier _ _) => [.barrierRelease b r k]
      | some (.monwait _ _) => [.monwaitEnd b r k, .monwaitTimeout b r k]
      | _ => [])
    ++ (if c.run == .stopping || c.stopBy != 0 then [.contextStop b r k] else [])
    ++ (if c.halting then [.contextHalted b r k] else [])
    ++ [.watchdogExpire b r k, .instructionFetchMissFill b r k]

/-- Events of a rill. -/
def rillEvents (b r : Nat) (x : Rill) : List Instr :=
  [.divideResult b r, .sharedRegisterEffect b r, .blockElement b r, .vectorCycle b r, .streamFetch b r, .streamStore b r,
    .dequeOperation b r, .stealProbe b r, .dqspillWrite b r, .evwaitTimeout b r]
  ++ x.landings.map (fun l => .nwrLand b r l.k)
  ++ match x.winOp with
    | some o => if o.spill then [.windowSpill b r o.k] else [.windowFill b r o.k]
    | none => []

/-- Events of a braid. -/
def braidEvents (b : Nat) (x : Braid) : List Instr :=
  (if x.busy then [.bmodeSwitchEnd b] else []) ++ (if x.copies.isEmpty then [] else [.copyEngineStep b])
  ++ x.copies.map (fun q => .copyComplete b q.entry)
  ++ (if x.mx.isEmpty then [] else [.matrixArbitrate b])
  ++ (x.mx.flatMap fun q => [.matrixAccessStop b q.id, .matrixCommandComplete b q.id, .mxrotTransfer b 0 q.tag, .mxrotTransfer b 1 q.tag])
  ++ x.cohorts.map (fun e => .cohortEnd b e.1) ++ x.owed.map fun r => .rillRetire b r

/-- Events of a basin. -/
def basinEvents (n : Nat) (x : Basin) : List Instr :=
  if !x.alive then []
  else [.weirTokenGrant n, .resizePhaseStart n, .phaseDeadline n, .resizePhaseEnd n]
    ++ (x.records.flatMap fun z => [.dependenceReread n z.id, .recordAged n z.id])
    ++ match x.resize with
      | some z => match z.retire with
        | some (b, r) => [.rillRetire b r]
        | none => []
      | none => []

/-- The placements of a rill cycle, which come after the units of its slots (R384). -/
def State.placements (s : State) : List Instr :=
  s.basins.flatMap fun e =>
    if !e.2.alive || e.2.records.isEmpty then [] else (List.range 8).map fun die => .placementRound die e.1

/-- Granules that are being scrubbed. -/
def State.scrubbing (s : State) : List (Nat × Nat) :=
  let f (k : Nat) (l : List (Nat × Granule)) : List (Nat × Nat) :=
    (l.filter fun e => e.2.state == .scrubbing).map fun e => (k, e.1)
  f 0 (s.braids.map fun e => (e.1, e.2.gran)) ++ f 1 s.gslices ++ f 2 s.gchans ++ f 3 (s.cores.map fun e => (e.1, e.2.gran))
    ++ f 4 (s.vfs.map fun e => (e.1, e.2.gran))

/-- Every event that may be due, in the order in which a rill cycle takes them; one that is not due has no effect. -/
noncomputable def State.events (s : State) : List Instr :=
  (s.ctxs.flatMap fun e => ctxEvents ⟨e.1 / 128, e.1 / 16 % 8, e.1 % 16⟩ e.2)
    ++ (s.rills.flatMap fun e => rillEvents (e.1 / 8) (e.1 % 8) e.2)
    ++ (s.braids.flatMap fun e => braidEvents e.1 e.2)
    ++ (s.packets.map fun e => .networkArbitrate e.1)
    ++ (s.requests.flatMap fun q => [.sliceServe (lineOf q.2.pa), .ownerRmw q.2.id, .feParkedRetry q.2.id, .sliceRequestStarved q.2.id])
    ++ (s.fanouts.flatMap fun f => f.sharers.map (fun b => .writeUpdateAck b f.line) ++ f.sharers.map fun b => .fanoutTimeout b f.line)
    ++ ((List.range s.misses.length).map fun n => .scopeMissNotification n)
    ++ (s.triggers.filterMap fun t => ((s.ctx t.1).mons.find t.2).map fun l => .monitorTrigger t.1.b t.1.r t.1.k l)
    ++ (s.basins.flatMap fun e => basinEvents e.1 e.2)
    ++ (s.scrubbing.map fun g => .scrubComplete g.1 g.2)
    ++ (s.calls.flatMap fun c => if c.phase = 2 then [.serviceComplete c.id] else serviceEvent c.service (2 * c.id))

/-- The rills with a context that is not empty. -/
def State.busyRills (s : State) : List Nat :=
  (s.ctxs.filter fun e => e.2.run != .empty).foldl (fun l e => setInsert l (e.1 / 16)) []

/-- A westward neighbour write whose attempt in this cycle has waited for another rill's slot (R140). -/
def State.deferred (s : State) : Option Pos :=
  let waits := (s.ctxs.filter fun e => (e.1 % 16 == s.cycle % 16 || (e.1 % 16 == 15 && e.2.triedAt == 0)) && e.2.run == .running
    && e.2.held == some .neighbour
    && decide (e.2.triedAt ≤ s.cycle) && s.offered.contains e.1).map fun e =>
      ({ b := e.1 / 128, r := e.1 / 16 % 8, k := e.1 % 16 } : Pos)
  (waits.find? fun p => p.k == s.cycle % 16).or waits.head?

/-- What a step does when nothing is on the agenda and no slot is granted: the events of the cycle go on the agenda;
then each rill has its slot; then come the placements, and the cycle ends. -/
noncomputable def State.idle (s : State) : State :=
  if !s.offered.contains eventMark then { s with agenda := s.events, offered := s.offered ++ [eventMark] }
  else
    match s.busyRills.find? fun key => s.issueCycle (key / 8) (key % 8) != s with
    | some key => s.issueCycle (key / 8) (key % 8)
    | none => match s.deferred with
    | some p => { s with agenda := [.nwrAttempt p.b p.r p.k] }
    | none =>
      if !s.offered.contains placeMark then { s with agenda := s.placements, offered := s.offered ++ [placeMark] }
      else { s with cycle := s.cycle + 1, offered := [] }

end Sys2Proof.Machine
end

