-- ==== Sys2Proof/Machine/Issue.lean ====
section
/-! DEFINITION. Issuing a unit (R50, R52, R60 to R64, R79, R96, R242, R246, R282, R318 to R321, R374, R457): the
holds before it, its fetch and decoding, its effect in every active lane, and what is left of a unit that is held. -/

namespace Sys2Proof.Machine

/-! ### Before the unit -/

/-- R50: an instruction that is not LA-complete permits no further unit. -/
def Ctx.lookaheadFull (c : Ctx) : Bool := c.las.any fun w => decide (w.la ≤ 14 ∧ w.la ≤ w.after)

/-- R326: an abort that context 15 has asked for. -/
def State.abortAsked (s : State) (p : Pos) : Bool := s.txDepth p != 0 && bit (s.srAt p 0x050) 31

/-- R321: the unit that has been counted exceeds the limit. -/
def State.overBudget (s : State) (p : Pos) : Bool :=
  let b := s.srAt p 0x051
  s.txDepth p != 0 && field b 31 0 != 0 && decide (field b 31 0 < field b 63 32)

/-- The lanes of a unit hold for one reason, and nothing else changes. -/
def State.holdAll (s : State) (ps : List Pos) (h : Hold) : State :=
  ps.foldl (fun t p => t.modCtx p fun c => { c with held := some h }) s

/-- A hold is tried again: what counts the attempts of its unit stays until the unit issues, traps or is withdrawn. -/
def Ctx.retried (c : Ctx) : Ctx := { c with held := none }

/-! ### One lane -/

/-- The state in which a lane executes a unit. -/
def State.atUnit (s : State) (u : DUnit) (pc : Word) (p : Pos) : State :=
  { s with cur := p, upc := pc, ipc := if u.pfx.isSome then pc + 2 else pc, ulen := u.len, uw := w64 u.words
           iword := u.iword, cond := true }

/-- The predicate condition in a lane: it passes, it fails, its predicate is empty or poisoned (R60, R121). -/
inductive Cond where
  | pass | fail | empty | poisoned (v : Bool)
  deriving DecidableEq, Repr

def Ctx.condition (c : Ctx) (u : DUnit) : Cond :=
  match u.act, u.pfx with
  | .instr _, some h =>
    let x := c.pred (BitVec.ofNat 3 (h / 128))
    if !x.full then .empty
    else if x.poison then .poisoned x.val
    else if x.val != hasBit h 6 then .pass else .fail
  | _, _ => .pass

/-- R246: a capture is open and the unit is not one that it takes. A reserved encoding of majors 0x30, 0x31 and 0x33 is
taken as such a unit (ILLEGAL-INSTRUCTION): the manual leaves open whether RESERVED-FIELD (R47) comes first there, and this
is the model's choice. -/
def Ctx.breaksCapture (c : Ctx) (u : DUnit) : Bool :=
  c.capturePc.isSome && u.act != .pool && (u.pfx.isSome || match u.act with
    | .instr _ => !([0x30, 0x31, 0x33].contains (u.iword / 2 ^ 25 % 64) && decide (2 ^ 31 ≤ u.iword))
    | _ => true)

/-- R282: the command that an armed MXTEAM asks for. -/
def teamCommand (u : DUnit) : Bool :=
  match u.act with
  | .instr (.mxrot _ _ _ _ _) => false
  | .instr _ => decide (2 ^ 31 ≤ u.iword) && u.iword / 2 ^ 25 % 64 == 0x38
  | _ => false

/-- The effect of the decoded unit. -/
def State.runAct (s : State) (a : Act) : Res :=
  match a with
  | .instr i => exec i s
  | .pool => execPoolguard 0 s
  | .illegal => execIllegal 0 s
  | .extension => execExtensionSpace 0 s
  | .reserved => trapped s 0x02 s.uw

/-- A trap of rank 1 to 4 (R63). -/
def Act.early : Act → Bool
  | .instr _ => false
  | _ => true

/-- The answer is the trap PRIVILEGE, which ranks before an instruction's other traps (R63). -/
def State.privileged (s : State) (r : Res) : Bool :=
  match r with
  | .next z => z == s.trapTo 0x05 (z.sr 0x012)
  | _ => false

/-- R282: a unit that is no command for an armed MXTEAM: the arm is cleared, and 0x01 comes after the traps of ranks 1
to 5. -/
def State.breaksTeam (s : State) (u : DUnit) : Res :=
  let t := s.modMe fun x => { x with team := none }
  if u.act.early || t.privileged (t.runAct u.act) then t.runAct u.act else trapped t 0x01 t.uw

/-- R457: in a transaction a unit behind a poisoned predicate whose condition passes by its value aborts as an illegal unit
before the poison is consumed. -/
def State.poisonedLane (t : State) (u : DUnit) (v : Bool) : Res :=
  let r := t.runAct u.act
  let illegal := t.inTx && (u.pfx.any fun h => v != hasBit h 6) && match r with
    | .next z => z.me.tx.isNone && field (z.sr 0x050) 27 24 == 6
    | _ => false
  if illegal then r else trapped t 0x0C (wordOfBool v)

/-- The unit in one lane: the prefix, as it stood before the unit in every lane, the arm of MXTEAM, and the instruction. A lane
that has completed the unit in an earlier slot of the group goes on (R140, R188). -/
def State.runLane (s : State) (u : DUnit) (pc : Word) (p : Pos) : Res :=
  let t := s.atUnit u pc p
  let c := t.me
  if (t.groupOf p).isSome && c.accepted then .next t.advance
  else match if hasBit s.xlanes p.r then .pass else c.condition u with
    | .empty => parked t .register
    | .poisoned v => t.poisonedLane u v
    | .fail => .next (t.modMe fun x => { x with team := none }).advance
    | .pass =>
      if c.team.isSome && !teamCommand u then t.breaksTeam u
      else t.runAct u.act

/-- The order in which the lanes of a unit are taken: those whose arm of MXTEAM it breaks come last, so that the lane that
acts for all reads them as they were. -/
def State.laneOrder (s : State) (u : DUnit) (ps : List Pos) : List Pos :=
  let breaks (q : Pos) : Bool := (s.ctx q).team.isSome && !teamCommand u
  (ps.filter fun q => !breaks q) ++ ps.filter breaks

/-- The lanes one after another. -/
def State.runLanes (u : DUnit) (pc : Word) : List Pos → State → Res
  | [], s => .next s
  | p :: ps, s => match s.runLane u pc p with
    | .next t => State.runLanes u pc ps t
    | r => r

/-! ### After the unit -/

/-- R242: the unit has written a general register that a vector instruction is still to write; not where it has taken that
instruction away (R246, R325). -/
def State.overtakes (s t : State) (p : Pos) : Bool :=
  let c := s.ctx p
  let d := t.ctx p
  (((c.vseq.filter d.vseq.contains).map VEntry.dst ++ (c.vres.filter d.vres.contains).map VResult.dst).filter fun x => match x with
    | .g _ => true
    | .win _ => true
    | _ => false).any fun x => !(c.cellAt x).full && d.cellAt x != c.cellAt x

/-- A unit of major 0x15, by its word. -/
def orderingWord (w : Nat) : Bool := decide (2 ^ 31 ≤ w) && w / 2 ^ 25 % 64 == 0x15

/-- Each lane of the group completes the unit, which has come to t, by itself: a neighbour write (R140); an ordering
instruction, whose lanes wait for their own accesses (R188). -/
def State.ownPace (t : State) (ps : List Pos) : Bool :=
  ps.length != 1 && (ps.all (fun p => (t.ctx p).held.isNone || (t.ctx p).held == some .neighbour)
    || orderingWord t.iword && ps.all fun p => match (t.ctx p).held with
      | none | some .order | some .translation | some .replayFull => true
      | _ => false)

/-- What a hold leaves: the state before the unit, with the holds of its lanes and the requests to the host. A lane
of a group that has completed its own part keeps its effect, and is marked so. A lane whose operation on a shared
register could proceed while another's could not has made its attempt: what it has counted stays, and a later attempt that
fails is a retry (R136). -/
def State.heldUnit (s t : State) (ps : List Pos) : State :=
  let shared := ps.findSome? fun p => if (t.ctx p).held == some .shared then some (t.ctx p) else none
  if t.ownPace ps then
    ps.foldl (fun z p => z.modCtx p fun c =>
      if c.held.isNone then { c with heldUnit := some .nopH, heldLen := t.ulen, retry := 1, triedAt := 0 }
      else (s.ctx p).heldAs c) t
  else
    ps.foldl (fun z p => z.modCtx p fun c =>
      let d := t.ctx p
      match d.held, shared with
      | none, some x => { c with heldUnit := x.heldUnit, heldLen := x.heldLen, triedAt := s.cycle + 1 }
      | _, _ => if d.held == some .room && d.triedAt == 0 then { c.heldAs d with triedAt := s.cycle + 1 } else c.heldAs d)
      { s with ats := t.ats, nextId := if t.ats == s.ats then s.nextId else t.nextId }

/-- A group after its unit: lanes that have left it split it; else control is transferred (R64, R100, R105). -/
def State.endGroup (s : State) (p : Pos) (g : Group) : State :=
  if (lanes g.mask).any fun r => (s.ctx { p with r := r }).left.isSome then
    s.splitGroup p.b g (s.leftCause p.b g) none
  else if s.moved then s
  else { s with cur := p }.groupTransfer g

/-- The lanes have executed the unit, or trapped. -/
def State.settleUnit (s : State) (p : Pos) : State :=
  match s.groupOf p with
  | some g => s.endGroup p g
  | none => s.modCtx p fun c => { c with left := none }

/-- Every lane takes a trap that ranks before the predicate condition (R64). -/
def State.trapAll (s : State) (u : DUnit) (pc : Word) (ps : List Pos) (f : State → State) : State :=
  match ps with
  | [] => s
  | p :: rest => State.trapAll (f (s.atUnit u pc p)) u pc rest f

/-- Lanes that have trapped or aborted leave their group while others of it are still held: those are at the unit still,
and try on alone (R141, R330). -/
def State.freeHeld (s t : State) (pc : Word) (ps : List Pos) : State :=
  ps.foldl (fun z q => if (z.ctx q).held.isSome then z.setCtx q { (s.ctx q).heldAs (z.ctx q) with pc := pc } else z) t

/-- BUDGET aborts the transactions of the lanes that exceed it; the others are at the unit still. All are held while the
validation of R320 waits. -/
def State.budgetAbort (s : State) (pc : Word) (p : Pos) (ps beyond : List Pos) : State :=
  if beyond.any s.readsLocked then s.holdAll ps .lock
  else (beyond.foldl (fun (z : State) q => ((z.begin q).txAbortAt q 7 0 none).modCtx q fun c => { c with left := some 0x15 })
    (ps.foldl (fun z q => z.modCtx q fun c => { c.standAt pc with held := none }) { s with upc := pc, moved := true })).settleUnit p

/-- The end of a unit whose lanes have all trapped, from s to t; it is held where one of them waits for the validation of
R320. -/
def State.endTraps (s t : State) (p : Pos) (ps : List Pos) : State :=
  if ps.any fun q => (t.ctx q).held.isSome then s.heldUnit t ps else t.settleUnit p

/-- The state in which the lanes of a unit begin: counted, with their earlier hold gone, and the lanes for which the
condition holds. -/
def State.enter (s : State) (u : DUnit) (ps : List Pos) : State :=
  let t := ps.foldl (fun t q => (if (t.ctx q).accepted && ps.length != 1 then t else t.begin q).modCtx q Ctx.retried)
    { s with moved := false }
  { t with xlanes := (ps.filter fun q => (t.ctx q).condition u == .pass).foldl (fun m q => m + 2 ^ q.r) 0 }

/-- The account of the lanes that have executed the unit, which s0 was the state before, and the group that is left. -/
def State.leaveUnit (s0 s : State) (pc : Word) (ps : List Pos) : State :=
  let t := ps.foldl (fun z q =>
    if (z.ctx q).run == .running && (z.ctx q).left.isNone && (z.ctx q).held.isNone then
      z.modCtx q fun c => { c.issued pc z.cycle with slotFe := s0.slotFeOf s q }
    else z) s
  match ps.find? fun q => (t.groupOf q).isSome with
  | some q => t.settleUnit q
  | none => ps.foldl (fun z q => z.modCtx q fun c => { c with left := none }) t

/-- The unit u at pc in the lanes ps, the first of which is p. -/
def State.runUnit (s : State) (u : DUnit) (pc : Word) (p : Pos) (ps : List Pos) : Res :=
  let s1 := s.enter u ps
  let beyond := ps.filter s1.overBudget
  if ps.any fun q => (s.ctx q).breaksCapture u then
    if beyond.isEmpty then
      .next (s.endTraps (s1.trapAll u pc ps fun z => (z.modMe fun c => c.dropCapture (z.loggedOf z.cur)).trapTo 0x01 z.uw) p ps)
    else .next (s.budgetAbort pc p ps beyond)
  else match State.runLanes u pc (s1.laneOrder u ps) s1 with
    | .next t =>
      let t1 := ps.foldl (fun z q => if (z.ctx q).held.isNone && s.overtakes z q then z.holdAll [q] .register else z) t
      let limit := ps.any fun q => (t1.ctx q).left == some 0x0D || (t1.ctx q).left == some 0x0E
        || ((t1.ctx q).left.isSome && ps.any fun p => (t1.ctx p).held == some .neighbour || (t1.ctx p).held == some .order)
      if !limit && ps.any fun q => (t1.ctx q).held.isSome then .next (s.heldUnit t1 ps)
      else if beyond.isEmpty then .next (s.leaveUnit (s.freeHeld t1 pc ps) pc ps)
      else .next (s.budgetAbort pc p ps beyond)
    | r => r

/-- A unit that traps in every lane before it is decoded; it counts against the budget of their transactions first
(R457). -/
def State.trapUnit (s : State) (u : DUnit) (pc : Word) (p : Pos) (ps : List Pos) (f : State → State) : State :=
  let s1 := s.enter u ps
  let beyond := ps.filter s1.overBudget
  if beyond.isEmpty then s.endTraps (s1.trapAll u pc ps f) p ps else s.budgetAbort pc p ps beyond

/-- The slot of a rill cycle is used unless its unit is held (R79): a group is held as a whole, and of one that has split
the lanes that are held have not used it. -/
def State.markSlot (s : State) (ps : List Pos) : State :=
  let free := ps.filter fun q => (s.ctx q).held.isNone
  if free.length != ps.length && ps.any fun q => (s.groupOf q).isSome then s
  else { s with offered := s.offered ++ free.map usedKey }

/-- The unit of the group or thread of p0. -/
noncomputable def State.issueUnit (s : State) (p0 : Pos) : Res :=
  if !s.canIssue p0 then .next s
  else
    let ps := s.lanesOf p0
    let p := ps.headD p0
    let (site, pc) := s.fetchSite p
    let none' : DUnit := { act := .pool }
    let asked := ps.filter s.abortAsked
    if !asked.isEmpty then
      let s1 := ps.foldl (fun (z : State) q => z.modCtx q fun c => c.standAt pc) { s with moved := true }
      .next ((asked.foldl (fun (t : State) q => (t.txAbortAt q 0xA 0xFF none).modCtx q fun c => { c with left := some 0x15 })
        s1).settleUnit p)
    else if ps.any fun q => (s.ctx q).lookaheadFull then .next (s.holdAll ps .lookahead)
    else match s.fetch site pc with
      | (s1, .ask) => .next (({ s with ats := s1.ats, nextId := s1.nextId } : State).holdAll ps .translation)
      | (_, .poisonedTable) => .next (s.contain (s.basinOf p.b))
      | (_, .miss n) => .next ((s.modRill site.b site.r fun x => { x with fetching := setInsert x.fetching n }).holdAll ps .fetchMiss)
      | (s1, .fault c) => .next (s1.trapUnit none' pc p ps fun z => z.trapAs c pc 0 pc false)
      | (s1, .line d) =>
        let u := decodeUnit d pc
        if poisonedUnit d (pc.toNat % 64) u.len then
          .next (s1.trapUnit none' pc p ps fun z => z.trapAs 0x0C pc 0 pc false)
        else s1.runUnit u pc p ps

/-- Issue at p: nothing where it may not issue; else the unit of its group or thread, which takes the slot. -/
noncomputable def State.issue (s0 : State) (p0 : Pos) : Res :=
  let s := s0.endWait p0
  if !s.canIssue p0 then .next s
  else match s.issueUnit p0 with
    | .next t => .next (t.markSlot (s.lanesOf p0))
    | r => r

end Sys2Proof.Machine
end

