-- ==== Sys2Proof/Machine/Step.lean ====
section
/-! DEFINITION. One step of the package: the next event of the agenda, or the slot that has been granted, or what is
due by itself; and the state in which a word is the next unit. -/

namespace Sys2Proof.Machine

/-- One step. -/
noncomputable def step (s : State) : Host.Outcome State Fault Refusal :=
  match s.agenda with
  | i :: rest => exec i { s with agenda := rest }
  | [] => match s.grant with
    | some p => State.issue { s with grant := none } p
    | none => .next s.idle

/-- s with an instruction as the unit that the next step fetches: what BASIN-CREATE and the loading of a program from
outside bring about. -/
def State.withFetchWord (s : State) (nbits w : Nat) : State := s.placeWord nbits w

end Sys2Proof.Machine
end

