-- ==== Sys2Proof/Safety.lean ====
section
/-! DEFINITION. Safe runs. The model has no fault and no refusal (State.lean, Fault and Refusal), so that a run is safe
when each of its steps gives a next state and an invariant of the machine holds on the way. -/

namespace Sys2Proof.Machine

/-- The step from s gives a next state. -/
def Goes (s : State) : Prop := ∃ t, step s = .next t

/-- t is reached from s by steps. -/
inductive Reaches (s : State) : State → Prop where
  | refl : Reaches s s
  | step {t u : State} (h : Reaches s t) (hs : Machine.step t = .next u) : Reaches s u

/-- Every state that a run from s reaches satisfies P and goes on. -/
def Safe (P : State → Prop) (s : State) : Prop := ∀ t, Reaches s t → P t ∧ Goes t

/-- Memory is in its canonical form. -/
def MemoryCanonical (s : State) : Prop := s.mem.wf = true

end Sys2Proof.Machine
end

