-- ==== Sys2Proof/Claims.lean ====
section
/-! DEFINITION. The vocabulary of the statements: what the executing thread's registers hold, the ways in which a unit
ends, and the instructions of one shape with what the manual says that each computes. -/

namespace Sys2Proof.Machine

/-! ### Operands of the executing unit -/

/-- The register is full. -/
def State.ready (s : State) (r : BitVec 5) : Prop := (s.me.reg r).full = true
/-- Its value, and its poison bit. -/
def State.val (s : State) (r : BitVec 5) : Word := (s.me.reg r).val
def State.bad (s : State) (r : BitVec 5) : Bool := (s.me.reg r).poison
/-- It is full and not poisoned, as a control operand must be (R456). -/
def State.clean (s : State) (r : BitVec 5) : Prop := s.ready r ∧ s.bad r = false

def State.readyQ (s : State) (q : BitVec 3) : Prop := (s.me.pred q).full = true
def State.valQ (s : State) (q : BitVec 3) : Bool := (s.me.pred q).val
def State.badQ (s : State) (q : BitVec 3) : Bool := (s.me.pred q).poison
def State.cleanQ (s : State) (q : BitVec 3) : Prop := s.readyQ q ∧ s.badQ q = false

/-! ### Ends of a unit -/

/-- Register d takes v with poison p, and the thread goes on at the next unit. -/
def State.put (s : State) (d : BitVec 5) (v : Word) (p : Bool) : State := (s.modMe fun c => c.setReg d v p).advance
/-- Predicate q takes v with poison p, and the thread goes on at the next unit. -/
def State.putQ (s : State) (q : BitVec 3) (v p : Bool) : State := (s.modMe fun c => c.setPred q v p).advance

/-- A target that passes the checks of R38. -/
def goodTarget (t : Word) : Prop := bit t 0 = false ∧ field t 63 56 = 0 ∧ bit t 55 = false

/-- The executing thread is outside a transaction. -/
def State.plain (s : State) : Prop := s.inTx = false

/-- Only the executing thread may differ: t is s with another context at the executing position. -/
def OnlyMe (s t : State) : Prop := t = s.setMe t.me

/-- Every byte of memory reads as before. -/
def SameBytes (s t : State) : Prop := ∀ a, t.mem.byte a = s.mem.byte a

/-- The general registers but those of ds, the predicates but those of qs, and the thread's vector, extension, index and
system registers are as before. -/
def SameRegs (s t : State) (ds : List (BitVec 5)) (qs : List (BitVec 3)) : Prop :=
  (∀ r, r ∉ ds → t.me.reg r = s.me.reg r) ∧ (∀ q, q ∉ qs → t.me.pred q = s.me.pred q)
    ∧ t.me.v = s.me.v ∧ t.me.ox = s.me.ox ∧ t.me.ix = s.me.ix ∧ t.me.sr = s.me.sr

/-! ### Instructions of one shape (R122 to R128, R133) -/

/-- d from a and b. -/
def twoSources (d a b : BitVec 5) (n : BitVec 2) : List (Instr × (Word → Word → Word)) :=
  [(.add d a b, fun x y => x + y), (.sub d a b, fun x y => x - y), (.and d a b, fun x y => x &&& y),
   (.or d a b, fun x y => x ||| y), (.xor d a b, fun x y => x ^^^ y), (.andn d a b, fun x y => x &&& ~~~y),
   (.orn d a b, fun x y => x ||| ~~~y), (.xnor d a b, fun x y => ~~~(x ^^^ y)),
   (.shl d a b, fun x y => x <<< (y.toNat % 64)), (.shr d a b, fun x y => x >>> (y.toNat % 64)),
   (.sra d a b, fun x y => x.sshiftRight (y.toNat % 64)), (.ror d a b, fun x y => x.rotateRight (y.toNat % 64)),
   (.min d a b, fun x y => if x.toInt ≤ y.toInt then x else y), (.max d a b, fun x y => if y.toInt ≤ x.toInt then x else y),
   (.minz d a b, fun x y => if x.toNat ≤ y.toNat then x else y), (.maxz d a b, fun x y => if y.toNat ≤ x.toNat then x else y),
   (.adds d a b, fun x y => wrap (clamp (x.toInt + y.toInt) (-(2 ^ 63)) (2 ^ 63 - 1))),
   (.subs d a b, fun x y => wrap (clamp (x.toInt - y.toInt) (-(2 ^ 63)) (2 ^ 63 - 1))),
   (.addzs d a b, fun x y => wrap (clamp ((x.toNat : Int) + y.toNat) 0 (2 ^ 64 - 1))),
   (.subzs d a b, fun x y => wrap (clamp ((x.toNat : Int) - y.toNat) 0 (2 ^ 64 - 1))),
   (.shadd d a b n, fun x y => x + y * w64 (2 ^ n.toNat)),
   (.ext d a b, fun x y => extract x (field y 5 0) (field y 13 8 + 1) true),
   (.extz d a b, fun x y => extract x (field y 5 0) (field y 13 8 + 1) false), (.bperm d a b, bpermW)]

/-- d from d and b: 16-bit forms (R133). -/
noncomputable def twoSourcesH (d b : BitVec 5) : List (Instr × (Word → Word → Word)) :=
  [(.addH d b, fun x y => x + y), (.subH d b, fun x y => x - y), (.andH d b, fun x y => x &&& y),
   (.orH d b, fun x y => x ||| y), (.xorH d b, fun x y => x ^^^ y)]

/-- d from a, with an immediate i, a position p and a length n. -/
def oneSource (d a : BitVec 5) (i : BitVec 15) (n p : BitVec 6) : List (Instr × (Word → Word)) :=
  [(.addi d a i, fun x => x + i.signExtend 64), (.andi d a i, fun x => x &&& i.zeroExtend 64),
   (.ori d a i, fun x => x ||| i.zeroExtend 64), (.xori d a i, fun x => x ^^^ i.zeroExtend 64),
   (.shli d a p, fun x => x <<< p.toNat), (.shri d a p, fun x => x >>> p.toNat),
   (.srai d a p, fun x => x.sshiftRight p.toNat), (.rori d a p, fun x => x.rotateRight p.toNat),
   (.exti d a n p, fun x => extract x p.toNat (n.toNat + 1) true),
   (.extzi d a n p, fun x => extract x p.toNat (n.toNat + 1) false),
   (.clz d a, clzW), (.ctz d a, ctzW), (.cls d a, clsW), (.popc d a, popcW), (.brev d a, brevW), (.bswap d a, bswapW)]

/-- d from d with an immediate (R133). -/
noncomputable def oneSourceH (d : BitVec 5) (i : BitVec 5) : List (Instr × (Word → Word)) :=
  [(.shliH d i, fun x => x <<< i.toNat), (.shriH d i, fun x => x >>> i.toNat), (.addiH d i, fun x => x + i.signExtend 64)]

/-- q from qa and qb (R132). -/
def predicateForms (q a b : BitVec 3) : List (Instr × (Bool → Bool → Bool)) :=
  [(.pand q a b, fun x y => x && y), (.por q a b, fun x y => x || y), (.pxor q a b, fun x y => x ^^ y),
   (.pandn q a b, fun x y => x && !y), (.porn q a b, fun x y => x || !y)]

/-! ### Branches (R42, R88, R89) -/

/-- Each branch with the condition on which it is taken and its target. -/
noncomputable def branches (s : State) (q c : BitVec 3) (a b j : BitVec 5) (p20 : BitVec 20) (p12 : BitVec 12)
    (p10 : BitVec 10) (p6 : BitVec 6) : List (Instr × Bool × Word) :=
  [(.bra p20, true, s.ipc + 2 * p20.signExtend 64), (.bH p10, true, s.ipc + 2 * p10.signExtend 64),
   (.bq q p20, s.valQ q, s.ipc + 2 * p20.signExtend 64), (.bnq q p20, !s.valQ q, s.ipc + 2 * p20.signExtend 64),
   (.bqH q p6, s.valQ q, s.ipc + 2 * p6.signExtend 64), (.bnqH q p6, !s.valQ q, s.ipc + 2 * p6.signExtend 64),
   (.bcmp a b c p12, condHolds c (s.val a) (s.val b), s.ipc + 2 * p12.signExtend 64),
   (.bcmpi a j c p12, condHolds c (s.val a) (if c.toNat < 4 then j.signExtend 64 else j.zeroExtend 64),
     s.ipc + 2 * p12.signExtend 64)]

/-! ### Long-latency arithmetic (R129, R130) -/

/-- A multiply or divide: what it computes, whether it uses the divider. -/
noncomputable def longForms (d a b : BitVec 5) (l : BitVec 4) : List (Instr × (Word → Word → Word) × Bool) :=
  [(.mul d a b l, fun x y => x * y, false), (.mulh d a b l, fun x y => wrap (x.toInt * y.toInt / 2 ^ 64), false),
   (.mulhz d a b l, fun x y => w64 (x.toNat * y.toNat / 2 ^ 64), false),
   (.mulhsz d a b l, fun x y => wrap (x.toInt * y.toNat / 2 ^ 64), false),
   (.div d a b l, fun x y => if y = 0 then 0xFFFFFFFFFFFFFFFF else wrap (x.toInt.tdiv y.toInt), true),
   (.divz d a b l, fun x y => if y = 0 then 0xFFFFFFFFFFFFFFFF else w64 (x.toNat / y.toNat), true),
   (.rem d a b l, fun x y => if y = 0 then x else wrap (x.toInt.tmod y.toInt), true),
   (.remz d a b l, fun x y => if y = 0 then x else w64 (x.toNat % y.toNat), true)]

/-! ### Accesses (R143, R144, R147 to R151, R155, R289 to R291, R297) -/

/-- An instruction that makes one access: the access, the places that are set empty, the lookahead that it opens, and
what it changes in its thread besides. -/
structure OneAccess where
  instr : Instr
  acc : Access
  dests : List Dest := []
  la : Option Nat := none
  post : Ctx → Ctx := id

/-- The access of the executing unit, with its numbers. -/
def State.numbered (s : State) (a : Access) : Access :=
  { a with id := s.nextId, src := s.nextId, seq := s.me.seq, code := s.iword, within := s.me.las.map Window.seq }

/-- The access passes the checks of R143 and its translation, which gives s1 and the access with its place. -/
def State.passes (s : State) (a : Access) (s1 : State) (a1 : Access) : Prop :=
  ({ s with nextId := s.nextId + 1 } : State).resolve s.cur (s.numbered a) = (s1, .go a1)

/-- The state in which the access is on its way and the thread goes on. -/
def State.afterIssue (s s1 : State) (x : OneAccess) (a1 : Access) : State :=
  ((((s1.modMe fun c => x.dests.foldl (fun y d => y.setEmpty d s.nextId) c).launchAccess s.cur a1).modMe fun c =>
    match x.la with
    | some n => c.openLa n x.acc.kind.keepsLa
    | none => c).modMe x.post).advance

/-- Scalar loads and stores: d, a base a, an index b with shift n, a displacement p and lookahead l (R147 to R149, R191). -/
noncomputable def plainAccesses (s : State) (d a b : BitVec 5) (t : BitVec 3) (u n : BitVec 2) (p : BitVec 8) (l : BitVec 4) :
    List OneAccess :=
  let ld (ea : Word) : Access :=
    { id := 0, seq := 0, kind := .load (decide (4 ≤ t.toNat)), va := ea, size := 2 ^ (t.toNat % 4), dst := s.me.dest d }
  let st (ea : Word) : Access :=
    { id := 0, seq := 0, kind := .store, va := ea, size := 2 ^ u.toNat, data := s.val d, poison := s.bad d, tag := s.me.relTag }
  [{ instr := .ld d a t p l, acc := ld (s.val a + p.signExtend 64 * w64 (2 ^ (t.toNat % 4))), dests := [s.me.dest d]
     la := some l.toNat },
   { instr := .ldIndexed d a b n t l, acc := ld (s.val a + s.val b <<< n.toNat), dests := [s.me.dest d], la := some l.toNat },
   { instr := .st d a u p l, acc := st (s.val a + p.signExtend 64 * w64 (2 ^ u.toNat)), la := some l.toNat },
   { instr := .stIndexed d a b n u l, acc := st (s.val a + s.val b <<< n.toNat), la := some l.toNat }]

/-- AMOs (R289). -/
noncomputable def amoForms (d a b : BitVec 5) (z o : BitVec 1) (l : BitVec 4) : List (Instr × Nat) :=
  [(.amoadd d a b z o l, 0), (.amoand d a b z o l, 1), (.amoor d a b z o l, 2), (.amoxor d a b z o l, 3),
   (.amomin d a b z o l, 4), (.amomax d a b z o l, 5), (.amominz d a b z o l, 6), (.amomaxz d a b z o l, 7),
   (.amoxchg d a b z o l, 8), (.amofadd d a b z o l, 9)]

/-- Full/empty accesses (R297): the kind, whether register d is the destination, and whether it supplies the data. -/
noncomputable def feForms (d a : BitVec 5) (p : BitVec 8) (l : BitVec 4) : List (Instr × AccKind × Bool × Bool) :=
  [(.ldfe d a p l, .ldfe, true, false), (.ldff d a p l, .ldff, true, false), (.stfe d a p l, .stfe, false, true),
   (.stff d a p l, .stff, false, true), (.feclr a p l, .feclr, false, false)]

/-! ### Accesses of one instruction, all together (R252) -/

/-- Every access passes its translation, which gives s1 and the accesses with their places. -/
def State.passesAll (s : State) (accs : List Access) (s1 : State) (bs : List Access) : Prop :=
  ({ s with nextId := s.nextId + accs.length } : State).resolveAll s.cur (numberFrom s.nextId s.me.seq s.iword (s.me.las.map Window.seq) 0 accs)
    = (s1, bs.map Resolved.go)

/-- They are on their way, the places of ds wait for them, and the thread goes on; a kept window outlasts entries of the
replay queue (R296). -/
def State.afterIssueAll (s s1 : State) (ds : List Dest) (la : Nat) (bs : List Access) (post : Ctx → Ctx)
    (kept : Bool := false) : State :=
  (((bs.foldl (fun t a => t.launchAccess s.cur a) (s1.modMe fun c => ds.foldl (fun y d => y.setEmpty d s.nextId) c)).modMe
    fun c => c.openLa la kept).modMe post).advance

/-! ### Floating point (R227 to R240) -/

/-- Flags accrue in FCSR, and SRSEED makes its step when the instruction rounds in SR mode. -/
def State.accrue (s : State) (fl : BitVec 5) (sr : Bool) : State :=
  let t := s.setSr s.cur 0x020 (orFlags (s.sr 0x020) fl)
  if sr then t.setSr s.cur 0x022 (w64 (srStep (field (s.sr 0x022) 31 0))) else t

/-- A flag of fl has its trap enabled (R229). -/
def State.fpTraps (s : State) (fl : BitVec 5) : Prop := fl.toNat &&& field (s.sr 0x020) 13 9 ≠ 0

/-- Rounding instructions of major 0x2C: each with its value before rounding, from a, b and d, in rounding mode m with the
integer operand y, and whether it reads d (R237). -/
noncomputable def fpRounding (m : Nat) (y : Word) (d a b : BitVec 5) (f : BitVec 2) (r : BitVec 4) :
    List (Instr × (FVal → FVal → FVal → FRes) × Bool) :=
  [(.fadd d a b f r, fun x z _ => fAdd m x z, false), (.fsub d a b f r, fun x z _ => fAdd m x z.neg, false),
   (.fmul d a b f r, fun x z _ => fMul x z, false), (.fma d a b f r, fun x z w => fFma m x z w, true),
   (.fnma d a b f r, fun x z w => fFma m x.neg z w, true),
   (.fldexp d a b f r, fun x _ _ => fLdexp x (clamp y.toInt (-8192) 8192), false)]

/-- Instructions of major 0x2D: value, the unit's cycles for f64 and for the other formats, and whether b is read (R239). -/
noncomputable def fpLongForms (d a b : BitVec 5) (f : BitVec 2) (l : BitVec 4) :
    List (Instr × (FVal → FVal → FRes) × Nat × Nat × Bool) :=
  [(.fdiv d a b f l, fDiv, 32, 16, true), (.fsqrt d a f l, fun x _ => fSqrt x, 32, 16, false),
   (.frcp d a f l, fun x _ => fRcp x, 32, 16, false), (.frsqrt d a f l, fun x _ => fRsqrt x, 32, 16, false),
   (.fexp2 d a f l, fun x _ => fExp2 x, 48, 24, false), (.flog2 d a f l, fun x _ => fLog2 x, 48, 24, false),
   (.fsinpi d a f l, fun x _ => fSinpi x, 48, 24, false), (.fcospi d a f l, fun x _ => fCospi x, 48, 24, false)]

/-! ### Vectors (R241 to R253) -/

/-- A sequencer entry of major j and function n on the fields d, a and b. -/
def vEntry (j n d a b : Nat) (m : BitVec 1) (t : Nat) : VEntry :=
  { id := 0, seq := 0, major := j, fn := n, d := d, a := a, b := b, m := m == 1, t := t }

/-- Vector instructions with the entry that each puts into the sequencer and the register that it writes besides. -/
noncomputable def vectorForms (s : State) (d a b : BitVec 4) (g x y : BitVec 5) (m : BitVec 1) (t : BitVec 3)
    (c : BitVec 2) (cs : BitVec 5) (cd : BitVec 4) : List (Instr × VEntry × Dest) :=
  let e3 (n : Nat) := vEntry 0x30 n d.toNat a.toNat b.toNat m t.toNat
  let e2 (n : Nat) := vEntry 0x30 n d.toNat a.toNat 0 m t.toNat
  let r (n : Nat) := vEntry 0x31 n 0 a.toNat 0 m t.toNat
  [(.vadd d a b m t, e3 0x00, .none), (.vsub d a b m t, e3 0x01, .none), (.vmul d a b m t, e3 0x02, .none),
   (.vfma d a b m t, e3 0x03, .none), (.vfnma d a b m t, e3 0x04, .none), (.vmin d a b m t, e3 0x05, .none),
   (.vmax d a b m t, e3 0x06, .none), (.vabs d a m t, e2 0x07, .none), (.vneg d a m t, e2 0x08, .none),
   (.vldexp d a y m t, { e2 0x09 with y := s.val y, yp := s.bad y }, .none), (.vexp2 d a m t, e2 0x0A, .none),
   (.vrcp d a m t, e2 0x0B, .none), (.vrsqrt d a m t, e2 0x0C, .none), (.vlog2 d a m t, e2 0x0D, .none),
   (.vcmp a b c m t, vEntry 0x30 (0x10 + c.toNat) 0 a.toNat b.toNat m t.toNat, .none), (.vand d a b m t, e3 0x14, .none),
   (.vor d a b m t, e3 0x15, .none), (.vxor d a b m t, e3 0x16, .none), (.vshl d a b m t, e3 0x17, .none),
   (.vshr d a b m t, e3 0x18, .none), (.vsra d a b m t, e3 0x19, .none), (.vminz d a b m t, e3 0x1A, .none),
   (.vmaxz d a b m t, e3 0x1B, .none), (.vadds d a b m t, e3 0x1C, .none), (.vsubs d a b m t, e3 0x1D, .none),
   (.vaddzs d a b m t, e3 0x1E, .none), (.vsubzs d a b m t, e3 0x1F, .none),
   (.vbcast d x m t, { vEntry 0x30 0x20 d.toNat 0 0 m t.toNat with x := s.val x, xp := s.bad x }, .none),
   (.vmov d a m t, e2 0x21, .none), (.vrsum g a m t, r 0, s.me.dest g), (.vrmax g a m t, r 1, s.me.dest g),
   (.vrmin g a m t, r 2, s.me.dest g), (.vramax g a m t, r 3, s.me.dest g),
   (.vperm d a b m t, vEntry 0x31 4 d.toNat a.toNat b.toNat m t.toNat, .none),
   (.vext g a y t, { vEntry 0x31 5 0 a.toNat 0 0 t.toNat with y := s.val y, yp := s.bad y }, s.me.dest g),
   (.vins d x y t,
     { vEntry 0x31 6 d.toNat 0 0 0 t.toNat with x := s.val x, xp := s.bad x, y := s.val y, yp := s.bad y }, .none),
   (.vrot d a y m t, { vEntry 0x31 7 d.toNat a.toNat 0 m t.toNat with y := s.val y, yp := s.bad y }, .none),
   (.vcvt d a cs cd m t, vEntry 0x33 cd.toNat d.toNat a.toNat cs.toNat m t.toNat, .none)]

/-- An entry pops or pushes a stream slot. -/
def VEntry.streams (e : VEntry) (c : Ctx) : Bool := e.operands.any c.bindsIn || (e.writesV && c.bindsOut e.d)

/-- The bound register that an entry uses against its direction (R201). -/
def VEntry.wrongWay (e : VEntry) (c : Ctx) : Option Nat :=
  if e.writesV && c.bindsIn e.d then some e.d else e.operands.find? c.bindsOut

/-- The entry stands last in the sequencer, its destination is empty, and the thread goes on; while a VSEQ captures, the
entry belongs to its block. -/
def State.enqueued (s : State) (e0 : VEntry) (gen : Dest) : State :=
  let c := s.me
  let dst := if e0.writesV then (if c.bindsOut e0.d then .none else .v e0.d) else gen
  let blk := (c.vblocks.find? fun v => v.missing != 0).elim 0 fun v => v.id
  let e := { e0 with id := s.nextId, seq := c.seq, dst := dst, blk := blk, word := s.iword }
  (({ s with nextId := s.nextId + 1 } : State).modMe fun x =>
    { x.setEmpty dst e.id with
      vseq := x.vseq ++ [e]
      vblocks := x.vblocks.map fun v => if v.missing != 0 then { v with missing := v.missing - 1 } else v }).advance

/-- Vector loads and stores: whether it loads, the registers named, and the address of element i of e bytes (R251). -/
noncomputable def vectorAccesses (s : State) (d v : BitVec 4) (a b : BitVec 5) (m : BitVec 1) (z : BitVec 2) (l : BitVec 4) :
    List (Instr × Bool × List Nat × List Word × (Nat → Word)) :=
  let e := 2 ^ z.toNat
  let x := s.val a
  let y := s.val b
  let ix := (s.me.vreg v.toNat).val
  [(.vld d a b m z l, true, [d.toNat], [x + y, 0], fun i => x + y + w64 (i * e)),
   (.vst d a b m z l, false, [d.toNat], [x + y, 0], fun i => x + y + w64 (i * e)),
   (.vlds d a b m z l, true, [d.toNat], [x, y], fun i => x + w64 i * y),
   (.vsts d a b m z l, false, [d.toNat], [x, y], fun i => x + w64 i * y),
   (.vgath d a v m z l, true, [d.toNat, v.toNat], x :: 0 :: vecWords ix,
     fun i => x + sext (vElem ix (8 * e) i) (8 * e) * w64 e),
   (.vscat d a v m z l, false, [d.toNat, v.toNat], x :: 0 :: vecWords ix,
     fun i => x + sext (vElem ix (8 * e) i) (8 * e) * w64 e)]

/-- The access of element i at ea, of e bytes. -/
def State.elementAccess (s : State) (load : Bool) (d e i : Nat) (ext : List Word) (ea : Word) : Access :=
  if load then { id := 0, seq := 0, kind := .load false, va := ea, size := e, elem := i, dst := .v d, ext := ext }
  else { id := 0, seq := 0, kind := .store, va := ea, size := e, elem := i, data := w64 (vElem (s.me.vreg d).val (8 * e) i)
         poison := (s.me.vreg d).poison, tag := s.me.relTag, ext := ext }

/-! ### Matrix commands (R262 to R272) -/

/-- The commands of major 0x38: op, the register of A, the size of the ox block, the .xp form. -/
noncomputable def matrixForms (x : BitVec 1) (a b : BitVec 5) (o c : BitVec 3) (l : BitVec 4) :
    List (Instr × Nat × BitVec 5 × Nat × Bool) :=
  [(.mxldb x a b o c l, 0, a, 2, x == 1), (.mxmma a b o c l, 1, a, 2, false), (.mxrot a b o c l, 2, a, 2, false),
   (.mxswap b c l, 3, 0, 0, false), (.mxclr b c l, 4, 0, 0, false), (.mxldacc x a b o c l, 5, a, 1, x == 1),
   (.mxstacc a b o c l, 6, a, 1, false), (.mxscale a b c l, 7, a, 0, false), (.mxrmax a b c l, 8, a, 0, false)]

/-- The command that a unit makes of its operands; MXSTACC takes its rounding and saturation from FCSR at issue, SR
standing for RNE there (R272). -/
def State.mxCommand (s : State) (op : Nat) (x y : Word) (ws : List Word) (c : BitVec 3) (xp : Bool) : MxCmd :=
  let m := rmOf (s.sr 0x020) (field y 14 12)
  { id := 0, entry := 0, rill := s.cur.r, ctx := s.cur.k, op := op, a := x, b := y, o0 := ws.getD 0 0, o1 := ws.getD 1 0
    cc := c.toNat, xp := xp, team := s.me.team, seq := s.me.seq, rm := if op = 6 then (if m = 5 then 0 else m) else 0
    satf := op == 6 && bit (s.sr 0x020) 3 }

/-! ### Calls of Voxsis (R431 to R433, R458) -/

/-- Service k takes call c next: the block of the call lies at ps and holds the words ws, s2 is the state with the call
taken, and every check passes that comes before the service's own. -/
def State.admits (s : State) (k : Nat) (c : Call) (ps : List (Nat × Nat)) (ws : List Word) (s2 : State) : Prop :=
  s.nextCall k = some c ∧ ∃ s1, s.blockOf c = (s1, .at ps) ∧ ws = (List.range 32).map (fun i => s1.blockWord c ps i)
    ∧ s2 = s1.takeCall c ∧ s2.unverified k = false ∧ (c.caller = hostCaller ∨ guestMayCall k = true)
    ∧ field (ws.getD 0 0) 63 6 = 0 ∧ unnamedZero k ws = true
    ∧ (basinless k (c.caller == hostCaller) = true
        ∨ (c.caller = hostCaller ∧ (k = 17 ∨ (s2.basin (field (ws.getD 0 0) 5 0)).alive = true))
        ∨ (c.caller ≠ hostCaller ∧ field (ws.getD 0 0) 5 0 = c.caller))

/-- The event of a service on call c ends the call with a status and result words, in the state t. -/
def State.returns (s : State) (event : Nat → Instr) (c : Call) (ps : List (Nat × Nat)) (t : State) (status : Nat)
    (rs : List (Nat × Word)) : Prop :=
  exec (event (2 * c.id)) s = .next (t.performed c ps status rs)

end Sys2Proof.Machine
end

