-- ==== Sys2Proof/Certificates/Slice0/Obligations.lean ====
section
/-! DEFINITION. The statements for the provers. -/

open Sys2Proof Sys2Proof.Machine

/-- R122, R127, R128, R133: the two-source integer instructions complete in their slot with the value of their row, and
with the OR of their sources' poison (R118). -/
def Obligations.TwoSourceResults : Prop :=
  ∀ (s : State) (d a b : BitVec 5) (n : BitVec 2), s.ready a → s.ready b →
    (∀ p ∈ twoSources d a b n, exec p.1 s = .next (s.put d (p.2 (s.val a) (s.val b)) (s.bad a || s.bad b)))
      ∧ (s.ready d → ∀ p ∈ twoSourcesH d b, exec p.1 s = .next (s.put d (p.2 (s.val d) (s.val b)) (s.bad d || s.bad b)))
      ∧ exec (.movH d b) s = .next (s.put d (s.val b) (s.bad b))

/-- R123 to R127, R133: the one-source integer instructions, the two inserts that read their old destination, and the
constants. -/
def Obligations.OneSourceResults : Prop :=
  ∀ (s : State) (d a b : BitVec 5) (i : BitVec 15) (j : BitVec 5) (n p : BitVec 6) (u : BitVec 20), s.ready a →
    (∀ x ∈ oneSource d a i n p, exec x.1 s = .next (s.put d (x.2 (s.val a)) (s.bad a)))
      ∧ (s.ready d → ∀ x ∈ oneSourceH d j, exec x.1 s = .next (s.put d (x.2 (s.val d)) (s.bad d)))
      ∧ (s.ready d → exec (.insi d a n p) s
          = .next (s.put d (insert (s.val d) (s.val a) p.toNat (n.toNat + 1)) (s.bad a || s.bad d)))
      ∧ (s.ready d → s.ready b → exec (.ins d a b) s
          = .next (s.put d (insert (s.val d) (s.val a) (field (s.val b) 5 0) (field (s.val b) 13 8 + 1))
              (s.bad a || s.bad b || s.bad d)))
      ∧ exec (.moviH d j) s = .next (s.put d (j.signExtend 64) false)
      ∧ exec (.lui d u) s = .next (s.put d ((u ++ (0 : BitVec 12)).signExtend 64) false)
      ∧ exec (.addpc d u) s = .next (s.put d (s.ipc + 2 * u.signExtend 64) false)
      ∧ exec .nopH s = .next s.advance

/-- R42, R131, R132: compares and predicate logic write a predicate; SEL, MVQR and MVRQ move between the files. -/
def Obligations.PredicateResults : Prop :=
  ∀ (s : State) (q qa qb n c : BitVec 3) (d a b : BitVec 5) (k : BitVec 2) (i : BitVec 15),
    s.ready a → s.ready b → s.readyQ qa → s.readyQ qb → s.readyQ n →
    (∀ x ∈ predicateForms q qa qb, exec x.1 s = .next (s.putQ q (x.2 (s.valQ qa) (s.valQ qb)) (s.badQ qa || s.badQ qb)))
      ∧ exec (.cmp q a b c) s = .next (s.putQ q (condHolds c (s.val a) (s.val b)) (s.bad a || s.bad b))
      ∧ exec (.cmpi k q a i) s = .next (s.putQ q (cmpiHolds k (s.val a) (i.signExtend 64)) (s.bad a))
      ∧ exec (.sel d a b n) s
          = .next (s.put d (if s.valQ n then s.val a else s.val b) (s.badQ n || s.bad a || s.bad b))
      ∧ exec (.mvqr d qa) s = .next (s.put d (if s.valQ qa then 1 else 0) (s.badQ qa))
      ∧ exec (.mvrq q a) s = .next (s.putQ q (s.val a != 0) (s.bad a))

/-- R42, R88, R89: a branch that is taken goes on at its target, one that is not at the next unit; and the tests that cond
selects. -/
def Obligations.BranchResults : Prop :=
  (∀ (s : State) (q c : BitVec 3) (a b j : BitVec 5) (p20 : BitVec 20) (p12 : BitVec 12) (p10 : BitVec 10) (p6 : BitVec 6),
    s.clean a → s.clean b → s.cleanQ q → ∀ x ∈ branches s q c a b j p20 p12 p10 p6,
      (x.2.1 = true → goodTarget x.2.2 → exec x.1 s = .next (s.jump x.2.2))
        ∧ (x.2.1 = false → exec x.1 s = .next s.advance))
  ∧ (∀ x y : Word,
      condHolds 0 x y = decide (x = y) ∧ condHolds 1 x y = decide (x ≠ y)
        ∧ condHolds 2 x y = decide (x.toInt < y.toInt) ∧ condHolds 3 x y = decide (y.toInt ≤ x.toInt)
        ∧ condHolds 4 x y = decide (x.toNat < y.toNat) ∧ condHolds 5 x y = decide (y.toNat ≤ x.toNat)
        ∧ condHolds 6 x y = decide (x &&& y ≠ 0) ∧ condHolds 7 x y = decide (x &&& y = 0))

/-- R90: LOOPN and LOOPNS write the counter whether or not they branch. -/
def Obligations.LoopResults : Prop :=
  ∀ (s : State) (a b : BitVec 5) (p : BitVec 12), s.clean a →
    (let v := s.val a - 1
     let s1 := s.modMe fun c => c.setReg a v false
     (v = 0 → exec (.loopn a p) s = .next s1.advance)
       ∧ (v ≠ 0 → goodTarget (s.ipc + 2 * p.signExtend 64) →
            exec (.loopn a p) s = .next (s1.jump (s.ipc + 2 * p.signExtend 64))))
    ∧ (s.clean b →
        let v := s.val a - s.val b
        let s1 := s.modMe fun c => c.setReg a v false
        (v.toInt ≤ 0 → exec (.loopns a b p) s = .next s1.advance)
          ∧ (0 < v.toInt → goodTarget (s.ipc + 2 * p.signExtend 64) →
               exec (.loopns a b p) s = .next (s1.jump (s.ipc + 2 * p.signExtend 64))))

/-- R91, R92: jumps and calls. CALL and CALLR open a window while fewer than four are resident, one that is being filled
among them, and RET and RET.H close one while another is resident that the engine is not spilling (R84), unless the token
of a copy command is awaited in it (R211). R86: a call for which no window is left, and a return to which none is left, trap
WINDOW-OVERFLOW. R38: a register jump to an odd address, beyond bit 55 or into the local-store space traps with the target. -/
def Obligations.JumpResults : Prop :=
  (∀ (s : State) (d a : BitVec 5) (p : BitVec 20),
     (goodTarget (s.ipc + 2 * p.signExtend 64) →
       exec (.bl p) s = .next ((s.modMe fun c => c.setReg 7 s.nextPc false).jump (s.ipc + 2 * p.signExtend 64))
         ∧ (s.me.resident < 3 ∨ (s.me.resident = 3 ∧ s.moving false = false) →
             exec (.call p) s = .next ((s.modMe fun c => c.openWindow s.nextPc).jump (s.ipc + 2 * p.signExtend 64))))
     ∧ (s.clean a → goodTarget (s.val a) →
         exec (.jr a) s = .next (s.jump (s.val a))
           ∧ exec (.jl d a) s = .next ((s.modMe fun c => c.setReg d s.nextPc false).jump (s.val a))
           ∧ (s.me.resident < 3 ∨ (s.me.resident = 3 ∧ s.moving false = false) → exec (.callr a) s = .next ((s.modMe fun c => c.openWindow s.nextPc).jump (s.val a))))
     ∧ (s.clean 23 → goodTarget (s.val 23) → 2 < s.me.resident ∨ (s.me.resident = 2 ∧ s.moving true = false) →
         s.tokenInWindow = false → s.plain ∨ s.closesD0 = false →
         exec .ret s = .next ((s.modMe Ctx.closeWindow).jump (s.val 23))
           ∧ exec .retH s = .next ((s.modMe Ctx.closeWindow).jump (s.val 23)))
     ∧ (4 ≤ s.me.resident → s.moving true = false →
         min (s.sr 0x032).toNat 0x30000 < (s.sr 0x030).toNat + 136 →
         (goodTarget (s.ipc + 2 * p.signExtend 64) → exec (.call p) s = .next (s.trapTo 0x14 (s.sr 0x030)))
           ∧ (s.clean a → goodTarget (s.val a) → exec (.callr a) s = .next (s.trapTo 0x14 (s.sr 0x030))))
     ∧ (s.clean 23 → goodTarget (s.val 23) → s.me.resident ≤ 1 → (s.sr 0x030).toNat < (s.sr 0x031).toNat + 136 →
         s.plain ∨ s.closesD0 = false →
         exec .ret s = .next (s.trapTo 0x14 (s.sr 0x030 + 0x8000000000000000))
           ∧ exec .retH s = .next (s.trapTo 0x14 (s.sr 0x030 + 0x8000000000000000))))
  ∧ (∀ (s : State) (d a : BitVec 5), s.clean a →
       ∀ i ∈ [Instr.jr a, .jl d a, .callr a],
         (bit (s.val a) 0 = true → exec i s = .next (s.trapTo 0x06 (s.val a)))
           ∧ (bit (s.val a) 0 = false → field (s.val a) 63 56 ≠ 0 → exec i s = .next (s.trapTo 0x09 (s.val a)))
           ∧ (bit (s.val a) 0 = false → field (s.val a) 63 56 = 0 → bit (s.val a) 55 = true →
                exec i s = .next (s.trapTo 0x0A (s.val a))))

/-- R129, R130: a multiply or divide sets its destination empty, goes on, and its value is on its way: a multiply
for 8 rill cycles, a divide until 34 after the divider is free. R130, R239: a long result is written when it is due,
in a register that still waits for it. That the event is one step, with these arguments, is the model's choice (log
entries 6 and 8). -/
def Obligations.LongResults : Prop :=
  (∀ (s : State) (d a b : BitVec 5) (l : BitVec 4), s.ready a → s.ready b →
     ∀ x ∈ longForms d a b l,
       exec x.1 s = .next ((s.issueLong (s.me.dest d) l.toNat (if x.2.2 then 1 else 0) (x.2.1 (s.val a) (s.val b))
         (s.bad a || s.bad b) 0 (if x.2.2 then s.unitFree 1 + 34 else s.cycle + 8)).advance))
  ∧ (∀ (s : State) (b r k : Nat) (l : LongOp), l.due ≤ s.cycle →
       (∀ n, (s.ctx ⟨b, r, k⟩).longs.find? (fun m => m.id == n && m.unit == l.unit && decide (m.due ≤ s.cycle)) = some l →
         (l.unit = 0 → ∃ t, exec (.multiplyResult b r k n) s = .next t
           ∧ (t.ctx ⟨b, r, k⟩).cellAt l.dst = (((s.ctx ⟨b, r, k⟩).fill l.dst l.id l.val l.poison).cellAt l.dst))
         ∧ (l.unit = 2 → ∃ t, exec (.fpLongResult b r k n) s = .next t
           ∧ (t.ctx ⟨b, r, k⟩).cellAt l.dst = (((s.ctx ⟨b, r, k⟩).fill l.dst l.id l.val l.poison).cellAt l.dst)))
       ∧ (s.oldestDivide b r = some (⟨b, r, k⟩, l) → ∃ t, exec (.divideResult b r) s = .next t ∧ t = s.landLong ⟨b, r, k⟩ 1 l.id))

/-- R135 to R137: the shared-register instructions. A write takes effect four rill cycles later; an FE operation
whose condition holds reserves the register. R135: a write of a shared register is seen from the fourth rill cycle
after its issue and not before, and the event that applies an effect changes nothing that the rill sees. That the
event is one step, with these arguments, is the model's choice (log entries 6 and 8). -/
def Obligations.SharedRegisterResults : Prop :=
  (∀ (s : State) (d a : BitVec 5) (m : BitVec 4),
     let x := s.myRill.shared s.cycle m.toNat
     exec (.mrd d m) s = .next (s.put d x.val x.poison)
     ∧ (s.plain → s.ready a →
         exec (.mwr m a) s = .next ((s.mEffect m.toNat (some (s.val a, s.bad a)) none).advance))
     ∧ (s.plain → s.myRill.isReserved s.cycle m.toNat = false →
         let t := s.attempted.mReserve m.toNat
         (x.full = true →
           exec (.mrdfe d m) s = .next ((t.mEffect m.toNat none (some false)).put d x.val x.poison)
             ∧ exec (.mrdff d m) s = .next (t.put d x.val x.poison))
         ∧ (s.ready a →
             (x.full = false →
               exec (.mwrfe m a) s = .next ((t.mEffect m.toNat (some (s.val a, s.bad a)) (some true)).advance))
             ∧ exec (.mwrff m a) s = .next ((t.mEffect m.toNat (some (s.val a, s.bad a)) (some true)).advance))
         ∧ exec (.mfeclr m) s = .next ((t.mEffect m.toNat none (some false)).advance)))
  ∧ ((∀ (s : State) (m : Nat) (v : Word) (p : Bool),
         (s.mEffect m (some (v, p)) none).myRill.shared (s.cycle + 3) m = s.myRill.shared (s.cycle + 3) m
           ∧ ((s.mEffect m (some (v, p)) none).myRill.shared (s.cycle + 4) m).val = v
           ∧ ((s.mEffect m (some (v, p)) none).myRill.shared (s.cycle + 4) m).poison = p)
     ∧ ∀ (s : State) (b r m : Nat) (e : SharedEffect) (rest : List SharedEffect),
         (s.rill b r).mEffects = e :: rest → e.due ≤ s.cycle →
         ∃ t, exec (.sharedRegisterEffect b r) s = .next t
           ∧ (t.rill b r).mEffects = rest
           ∧ (t.rill b r).shared s.cycle m = (s.rill b r).shared s.cycle m)

/-- R55, R138: REMPTY, RFULL, RTEST and the operand-extension moves. -/
def Obligations.FeBitResults : Prop :=
  ∀ (s : State) (d a : BitVec 5) (q n : BitVec 3),
    (d ≠ 0 → s.outstanding s.cur (s.me.dest d) = false →
      exec (.rempty d) s
          = .next ((s.modMe fun c => c.setCellAt (c.dest d) { c.reg d with full := false }).advance)
        ∧ exec (.rfull d) s
          = .next ((s.modMe fun c => c.setCellAt (c.dest d) { c.reg d with full := true }).advance))
    ∧ exec (.rempty 0) s = .next s.advance ∧ exec (.rfull 0) s = .next s.advance
    ∧ exec (.rtest q a) s
        = .next (s.putQ q (a == 0 || ((s.me.reg a).full && !s.outstanding s.cur (s.me.dest a))) false)
    ∧ (s.ready a → exec (.lox n a) s = .next ((s.modMe fun c => c.setOx n.toNat (s.val a) (s.bad a)).advance))
    ∧ ((s.me.oxReg n.toNat).full = true →
        exec (.mox d n) s = .next (s.put d (s.me.oxReg n.toNat).val (s.me.oxReg n.toNat).poison))

/-- R139, R140: a neighbour write whose target takes it is accepted and lands four rill cycles later; one to register 0
writes nothing. R136, R140,
R141: a held FE operation or neighbour write of an unfused thread, retried in a slot of its thread, does what its
unit does there. That the event is one step, with these arguments, is the model's choice (log entries 6 and 8); a
deferred attempt is log entry 25. -/
def Obligations.NeighbourWrites : Prop :=
  (∀ (s : State) (a : BitVec 5), s.plain → s.ready a → s.offered.contains s.cur.key = false →
     exec (.nwrE 0 a) s = .next s.attempted.advance ∧ exec (.nwrW 0 a) s = .next s.attempted.advance)
  ∧ (∀ (s : State) (d a : BitVec 5), s.plain → s.ready a → d ≠ 0 → s.offered.contains s.cur.key = false →
     (let q : Pos := { s.cur with r := (s.cur.r + 1) % 8 }
      s.nwrAccepts q d = true →
        exec (.nwrE d a) s = .next ((s.attempted.nwrAccept q d (s.val a) (s.bad a)).advance))
     ∧ (let q : Pos := { s.cur with r := (s.cur.r + 7) % 8 }
        s.nwrAccepts q d = true →
          exec (.nwrW d a) s = .next ((s.attempted.nwrAccept q d (s.val a) (s.bad a)).advance))
     ∧ (∀ (b r k : Nat) (l : Landing), ((s.rill b r).landings.find? fun l => l.k == k && decide (l.due ≤ s.cycle)) = some l →
         (s.ctx ⟨b, r, k⟩).cellAt l.dst = { (s.ctx ⟨b, r, k⟩).cellAt l.dst with full := false, src := l.id } →
         ∃ t, exec (.nwrLand b r k) s = .next t
           ∧ (t.ctx ⟨b, r, k⟩).cellAt l.dst = { val := l.val, full := true, poison := l.poison }
           ∧ ∀ d, d ≠ l.dst → (t.ctx ⟨b, r, k⟩).cellAt d = (s.ctx ⟨b, r, k⟩).cellAt d))
  ∧ (∀ (s : State) (b r k : Nat) (d a : BitVec 5) (m : BitVec 4),
       let p : Pos := ⟨b, r, k⟩
       let c := s.ctx p
       let z : State := { (s.begin p) with cur := p, upc := c.pc, ipc := c.pc + w64 (2 * (c.heldLen - 2)), ulen := c.heldLen
                                           cond := true, xlanes := 2 ^ r }
       let x := (s.rill b r).shared s.cycle m.toNat
       let u := z.attempted.mReserve m.toNat
       c.run = .running → s.cycle % 16 = k → c.triedAt ≤ s.cycle → s.groupOf p = none →
       s.offered.contains (usedKey p) = false →
       (∀ t, c.held = some .shared →
         ∀ i ∈ [Instr.mrdfe d m, .mrdff d m, .mwrfe m a, .mwrff m a, .mfeclr m], c.heldUnit = some i →
           exec i z = .next t → exec (.sharedRegisterFeRetry b r k) s = .next (s.endUnit t p c.pc))
       ∧ (∀ t, c.held = some .neighbour → c.heldUnit = some (.nwrE d a) → exec (.nwrE d a) z = .next t →
           exec (.nwrAttempt b r k) s = .next (s.endUnit t p c.pc))
       ∧ (c.held = some .shared → s.txDepth p = 0 → (s.rill b r).isReserved s.cycle m.toNat = false →
           (x.full = true →
             (c.heldUnit = some (.mrdfe d m) → exec (.sharedRegisterFeRetry b r k) s
               = .next (s.endUnit ((u.mEffect m.toNat none (some false)).put d x.val x.poison) p c.pc))
             ∧ (c.heldUnit = some (.mrdff d m) → exec (.sharedRegisterFeRetry b r k) s
                 = .next (s.endUnit (u.put d x.val x.poison) p c.pc)))
           ∧ ((c.reg a).full = true →
               (x.full = false → c.heldUnit = some (.mwrfe m a) → exec (.sharedRegisterFeRetry b r k) s
                 = .next (s.endUnit (u.mEffect m.toNat (some ((c.reg a).val, (c.reg a).poison)) (some true)).advance p c.pc))
               ∧ (c.heldUnit = some (.mwrff m a) → exec (.sharedRegisterFeRetry b r k) s
                 = .next (s.endUnit (u.mEffect m.toNat (some ((c.reg a).val, (c.reg a).poison)) (some true)).advance p c.pc)))
           ∧ (c.heldUnit = some (.mfeclr m) → exec (.sharedRegisterFeRetry b r k) s
               = .next (s.endUnit (u.mEffect m.toNat none (some false)).advance p c.pc)))
       ∧ (c.held = some .neighbour → s.txDepth p = 0 → (c.reg a).full = true →
           (let q : Pos := ⟨b, (r + 1) % 8, k⟩
            (c.heldUnit = some (.nwrE 0 a) → exec (.nwrAttempt b r k) s = .next (s.endUnit z.attempted.advance p c.pc))
            ∧ (d ≠ 0 → z.nwrAccepts q d = true → c.heldUnit = some (.nwrE d a) → exec (.nwrAttempt b r k) s
                = .next (s.endUnit (z.attempted.nwrAccept q d (c.reg a).val (c.reg a).poison).advance p c.pc)))
           ∧ (let q : Pos := ⟨b, (r + 7) % 8, k⟩
              (c.heldUnit = some (.nwrW 0 a) → exec (.nwrAttempt b r k) s = .next (s.endUnit z.attempted.advance p c.pc))
              ∧ (d ≠ 0 → z.nwrAccepts q d = true → c.heldUnit = some (.nwrW d a) → exec (.nwrAttempt b r k) s
                  = .next (s.endUnit (z.attempted.nwrAccept q d (c.reg a).val (c.reg a).poison).advance p c.pc)))))

/-- R97 to R104, R107, R110: the group instructions in an unfused thread, with the REJOIN entries that JOIN and BRK find
there, and for the lanes of a group as its lowest executing lane carries them out. R101, R102: what JOIN does to a group: a path entry on top sends
the active lanes to wait at the region below it and takes up its lanes; a region entry on top brings its waiting lanes
back. -/
def Obligations.GroupResults : Prop :=
  (∀ (s : State) (p : BitVec 15) (n : BitVec 5), s.plain →
     (s.unfused = true →
       exec .split s = .next s.advance ∧ exec (.rgn p) s = .next s.advance
         ∧ ((∀ i < 8, bit (s.sr (0x090 + i)) 0 = false) →
             exec .join s = .next s.advance ∧ exec .joinH s = .next s.advance ∧ exec (.brk n) s = .next s.advance)
         ∧ (∀ i < 8, bit (s.sr (0x090 + i)) 0 = true → field (s.sr (0x090 + i)) 55 1 = field s.ipc 55 1 →
             (∀ j < i, bit (s.sr (0x090 + j)) 0 = true → field (s.sr (0x090 + j)) 55 1 ≠ field s.ipc 55 1) →
             let mask := field (s.sr (0x090 + i)) 63 56
             let limit := field (s.sr 0x060) 63 32
             ∀ x ∈ [Instr.join, .joinH],
               (hasBit mask s.cur.r = false ∨ countOnes 8 mask < 2 ∨ s.cur.k = 15 →
                 exec x s = .next (s.setEntries s.cur []).advance)
               ∧ (hasBit mask s.cur.r = true → 2 ≤ countOnes 8 mask → s.cur.k ≠ 15 → ∃ t cleared, exec x s = .next t
                   ∧ t.me.wait = some (.fuse mask (field (s.sr 0x060) 15 0) limit (if limit = 0 then 0 else s.cycle + limit) .none
                       true cleared s.nextPc)
                   ∧ t.me.pc = s.upc ∧ (∀ j ≤ i, bit (t.sr (0x090 + j)) 0 = false)
                   ∧ ∀ j, i < j → j < 8 → t.sr (0x090 + j) = s.sr (0x090 + j)))
         ∧ (let valid := (List.range 8).filter fun i => bit (s.sr (0x090 + i)) 0
            ∃ t, exec (.brk n) s = .next t ∧ t.me.pc = s.nextPc
              ∧ (∀ j ∈ valid.take n.toNat, t.sr (0x090 + j) = setField (s.sr (0x090 + j)) 0 0 0)
              ∧ ∀ j < 8, j ∉ valid.take n.toNat → t.sr (0x090 + j) = s.sr (0x090 + j))
         ∧ exec .haltH s = .next (s.haltAt s.cur).advance)
     ∧ (∀ g, s.unfused = false → s.actingOutsideTx.head? = some s.cur.r → s.groupOf s.cur = some g →
         let x := s.actingOutsideTx.foldl (fun m r => m + 2 ^ r) 0
         let halted := s.actingOutsideTx.foldl (fun t r => t.haltAt (t.lane r)) s
         let g1 : Group := { g with mask := maskMinus g.mask x, active := maskMinus g.active x
                                    stack := haltStack x g.stack, pc := s.nextPc }
         (2 ≤ countOnes 8 g1.mask → exec .haltH s
             = .next { (halted.modGroup s.cur.b g.k s.cur.r fun _ => g1.settled).advance with moved := true })
           ∧ (countOnes 8 g1.mask < 2 → exec .haltH s
               = .next { ((halted.modGroup s.cur.b g.k s.cur.r fun _ => g1).oneLeft s.cur.b g1).advance with moved := true })
           ∧ (∀ r ∈ s.actingOutsideTx, (halted.ctx (s.lane r)).halting = true))
     ∧ (∀ g, s.unfused = false → s.leads = true → s.groupOf s.cur = some g →
         exec .split s = .next (s.splitUnit g 0x15).advance
           ∧ (8 ≤ g.stack.length → exec (.rgn p) s = .next (s.splitUnit g 0x15).advance)
           ∧ (g.stack.length < 8 → exec (.rgn p) s = .next ((s.modGroup s.cur.b g.k s.cur.r fun x =>
               { x with stack := .region (s.ipc + 2 * p.signExtend 64) g.active 0 :: x.stack }).advance))
           ∧ exec .join s = .next { (s.modGroup s.cur.b g.k s.cur.r fun x => (x.join s.nextPc).settled).advance
               with moved := true }
           ∧ exec .joinH s = exec .join s
           ∧ ((g.stack.filter isRegion).length ≤ n.toNat → exec (.brk n) s = .next (s.splitUnit g 0x15).advance)
           ∧ (n.toNat < (g.stack.filter isRegion).length →
               let x := s.acting.foldl (fun m r => m + 2 ^ r) 0
               exec (.brk n) s = .next { (s.modGroup s.cur.b g.k s.cur.r fun y =>
                 ({ y with stack := brkStack x (n.toNat + 1) y.stack, active := maskMinus y.active x
                           pc := s.nextPc } : Group).settled).advance with moved := true })))
  ∧ (∀ (g : Group) (next : Word),
       (g.stack = [] → g.join next = { g with pc := next })
       ∧ (∀ rpc d t, g.stack = .path rpc d :: t → g.join next = { g with stack := pendTop g.active t, active := d, pc := rpc })
       ∧ (∀ jpc cover pend t, g.stack = .region jpc cover pend :: t →
           g.join next = { g with stack := t, active := pend ||| g.active, pc := next })
       ∧ (g.active ≠ 0 → g.settled = g)
       ∧ (g.settled.active = 0 → g.settled.stack = [])
       ∧ ∀ (s : State) (b : Nat), (countOnes 8 g.mask = 1 → s.oneLeft b g = s.splitGroup b g (fun _ => 0x15) (some g.pc))
           ∧ (g.mask = 0 → s.oneLeft b g = s.dropGroup b g.k 0))

/-- R111 to R113: VOTE, BALLOT and SHFL in an unfused thread: X is the thread itself. -/
def Obligations.LaneExchange : Prop :=
  ∀ (s : State) (q qa : BitVec 3) (t : BitVec 2) (d a b : BitVec 5), s.unfused = true → s.cur.r < 8 →
    (s.readyQ qa → t ≠ 3 →
      exec (.vote q qa t) s = .next (s.putQ q (if t = 2 then true else s.valQ qa) (s.badQ qa))
        ∧ exec (.ballot d qa) s = .next (s.put d (if s.valQ qa then w64 (2 ^ s.cur.r) else 0) false))
    ∧ (s.ready a → s.ready b → exec (.shfl d a b t) s = .next (s.put d (s.val a) (s.bad a || s.bad b)))

/-- R94, R95: FUSE waits for its group; a lane of a group, and a mask that lacks the thread's rill, has fewer than
two rills or stands in context 15, are answered at once. R94, R95, R26, R107, R115: a group forms from threads that
wait for one mask with one tag, a wait ends at its time-out with 1, and the cache mode switches end in order. That
the event is one step, with these arguments, is the model's choice (log entries 6 and 8). -/
def Obligations.FuseResults : Prop :=
  (∀ (s : State) (d a b : BitVec 5), s.plain → s.clean a → s.clean b →
     let mask := field (s.val a) 7 0
     let limit := field (s.val b) 31 0
     ((s.groupOf s.cur).isSome = true → exec (.fuse d a b) s = .next (s.put d 3 false))
     ∧ (s.groupOf s.cur = none → hasBit mask s.cur.r = false ∨ countOnes 8 mask < 2 ∨ s.cur.k = 15 →
         exec (.fuse d a b) s = .next (s.put d 2 false))
     ∧ (s.groupOf s.cur = none → hasBit mask s.cur.r = true → 2 ≤ countOnes 8 mask → s.cur.k ≠ 15 →
         exec (.fuse d a b) s = .next (s.modMe fun c => { c with
           wait := some (.fuse mask (field (s.val a) 31 16) limit (if limit = 0 then 0 else s.cycle + limit) (c.dest d) false 0
             s.nextPc)
           pc := s.upc, took := false })))
  ∧ (∀ (s : State) (b r k m : Nat) (v : Word),
       (s.fuseReady b k m = true → 2 ≤ countOnes 8 m → ∃ t, exec (.fuseGroupForm b k m) s = .next t
         ∧ ∃ g, (t.braid b).groups = (s.braid b).groups ++ [g] ∧ g.k = k ∧ g.mask = m ∧ g.active = m)
       ∧ (∀ mask tag limit dl d next, (s.ctx ⟨b, r, k⟩).wait = some (.fuse mask tag limit dl d false 0 next) →
           dl ≠ 0 → dl ≤ s.cycle → exec (.fuseTimeout b r k) s
             = .next (s.modCtx ⟨b, r, k⟩ fun c => { (c.setCellAt d { val := 1 }) with wait := none, pc := next }))
       ∧ (r < 8 → exec (.bmodeWrite b r v) s = .next (s.cacheMode b (bit v 0)))
       ∧ ((s.braid b).busy = true → (s.braid b).modeQueue = [] → ∃ t, exec (.bmodeSwitchEnd b) s = .next t
           ∧ (t.braid b).busy = false ∧ (t.braid b).shared = (s.braid b).shared))

/-- R24, R79, R84, R85: a slot goes to its owner when the owner can issue, and the window engine's nine slots end a
spill or a fill of one window, whose frame holds its registers with their FE and poison bits; a fill loads each word as it was
spilled or as it now stands. That a fill which finds no spilled window left, since the thread has been rolled back or started
anew meanwhile, changes nothing is the model's choice (log entry 112). R83: opening and closing a window. That the event is
one step, with these arguments, is the model's choice (log entries 6 and 8). -/
def Obligations.SlotsAndWindows : Prop :=
  (∀ (s : State) (b r : Nat),
     (let p : Pos := ⟨b, r, s.cycle % 16⟩
      s.offered.contains p.key = false → s.offered.contains (usedKey p) = false → s.offered.contains (slackKey b r) = false →
      (s.endWait p).canIssue p = true → s.groupOf p = none →
        ∃ t, exec (.issueCycle b r) s = .next t ∧ t.grant = some p)
     ∧ (∀ op : WinOp, (s.rill b r).winOp = some op → 9 ≤ op.slots →
         let p : Pos := ⟨b, r, op.k⟩
         let wsp := s.srAt p 0x030
         (op.spill = true → ∃ t, exec (.windowSpill b r op.k) s = .next t ∧ (t.rill b r).winOp = none
           ∧ (1 < (s.ctx p).resident →
               let c := s.ctx p
               let w := 16 * (c.depth - c.resident)
               let a := lsAddr b r wsp.toNat
               (t.ctx p).resident = c.resident - 1 ∧ t.srAt p 0x030 = wsp + 136
                 ∧ (∀ i < 16, t.mem.read (a + 8 * i) 8 = (c.cellAt (.win (w + i))).val.toNat)
                 ∧ t.mem.read (a + 128) 8 = c.windowBits w (fun x => x.full) + c.windowBits w (fun x => x.poison) * 2 ^ 16))
         ∧ (op.spill = false → ∃ t, exec (.windowFill b r op.k) s = .next t ∧ (t.rill b r).winOp = none ∧ t.mem = s.mem
           ∧ ((s.srAt p 0x031).toNat + 136 ≤ wsp.toNat →
               let c := s.ctx p
               let w := 16 * (c.depth - c.resident - 1)
               let a := lsAddr b r (wsp.toNat - 136)
               let spilled (i : Nat) := c.frames.find (frameKey (a + 8 * i))
               let tag := s.mem.read (a + 128) 8
               let bad := s.mem.poisoned (a + 128)
               (t.ctx p).resident = c.resident + 1 ∧ t.srAt p 0x030 = wsp - 136
                 ∧ (∀ i < 16, ((t.ctx p).cellAt (.win (w + i))).val = w64 (s.mem.read (a + 8 * i) 8)
                     ∨ ∃ y, spilled i = some y ∧ ((t.ctx p).cellAt (.win (w + i))).val = w64 y.1)
                 ∧ ((∀ i < 17, s.overwritten (a + 8 * i) (spilled i) = false) → ∀ i < 16,
                     (t.ctx p).cellAt (.win (w + i)) =
                       { val := w64 (s.mem.read (a + 8 * i) 8), full := bad || hasBit tag i
                         poison := bad || hasBit tag (16 + i) || s.mem.poisoned (a + 8 * i) }))
           ∧ (wsp.toNat < (s.srAt p 0x031).toNat + 136 → t.ctx p = s.ctx p))))
  ∧ (∀ (c : Ctx) (next : Word), 1 ≤ c.depth →
       (∀ i : Fin 8, (c.openWindow next).reg (BitVec.ofNat 5 (8 + i)) = c.reg (BitVec.ofNat 5 (24 + i)))
         ∧ (∀ i : Fin 7, (c.openWindow next).reg (BitVec.ofNat 5 (16 + i)) = {})
         ∧ (∀ i : Fin 8, (c.openWindow next).reg (BitVec.ofNat 5 (24 + i)) = {})
         ∧ (c.openWindow next).reg 23 = { val := next }
         ∧ (∀ i : Fin 8, (c.openWindow next).reg (BitVec.ofNat 5 i) = c.reg (BitVec.ofNat 5 i))
         ∧ (∀ (o : Ctx), 2 ≤ o.depth →
             (∀ i : Fin 8, o.closeWindow.reg (BitVec.ofNat 5 (24 + i)) = o.reg (BitVec.ofNat 5 (8 + i)))
               ∧ (∀ i : Fin 16, o.closeWindow.reg (BitVec.ofNat 5 (8 + i)) = o.win.get {} (16 * (o.depth - 2) + i))
               ∧ (∀ i : Fin 8, o.closeWindow.reg (BitVec.ofNat 5 i) = o.reg (BitVec.ofNat 5 i))))

/-- R143, R147 to R149: a load or store whose address passes the checks and its translation is sent: the destination of a
load is empty, a store carries its data, poison and tag, and the thread goes on. R55: LOXM of an address that passes
the checks sends one load for each word. -/
def Obligations.LoadStoreIssue : Prop :=
  (∀ (s s1 : State) (d a b : BitVec 5) (t : BitVec 3) (u n : BitVec 2) (p : BitVec 8) (l : BitVec 4),
     s.plain → s.ready d → s.clean a → s.clean b → s.cur.k = 15 ∨ 0 < s.myRill.replayRoom →
     ∀ x ∈ plainAccesses s d a b t u n p l, addressFault x.acc.va x.acc.size false true = none →
       ∀ a1, s.passes x.acc s1 a1 → exec x.instr s = .next (s.afterIssue s1 x a1))
  ∧ (∀ (s : State) (n k : BitVec 3) (a : BitVec 5), s.plain → s.clean a → s.cur.k = 15 ∨ 0 < s.myRill.replayRoom →
       (∀ i ≤ k.toNat, addressFault (s.val a + w64 (8 * i)) 8 false true = none ∧ bit (s.val a + w64 (8 * i)) 55 = true) →
       ∃ t, exec (.loxm n a k) s = .next t ∧ t.me.flights.length = s.me.flights.length + k.toNat + 1
         ∧ (∀ i ≤ k.toNat, (t.me.oxReg (n.toNat + i)).full = false) ∧ t.me.pc = s.nextPc)

/-- R143: the checks of an address, in their order, with its value in XVAL; WRITE of XSTAT says that the access writes
(R376). R144: a load or store whose translation fails
takes one replay entry and the thread goes on; its destination is empty, and nothing is on its way. -/
def Obligations.AddressTraps : Prop :=
  (∀ (s : State) (d a b : BitVec 5) (t : BitVec 3) (u n : BitVec 2) (p : BitVec 8) (l : BitVec 4),
     s.plain → s.ready d → s.ready a → s.ready b → s.bad b = false →
     ∀ x ∈ plainAccesses s d a b t u n p l,
       let ea := x.acc.va
       let trap (cause : Nat) : State := s.trapAs cause ea s.ulen s.upc x.acc.kind.writes
       (s.bad a = true → exec x.instr s = .next (trap 0x0C))
         ∧ (s.bad a = false → field ea 63 56 ≠ 0 → exec x.instr s = .next (trap 0x09))
         ∧ (s.bad a = false → field ea 63 56 = 0 → ea.toNat % x.acc.size ≠ 0 → exec x.instr s = .next (trap 0x06))
         ∧ (s.bad a = false → field ea 63 56 = 0 → ea.toNat % x.acc.size = 0 → bit ea 55 = true →
             field ea 54 24 ≠ 0 ∨ field ea 20 18 ≠ 0 ∨ 0x30000 < field ea 17 0 + x.acc.size →
             exec x.instr s = .next (trap 0x0A)))
  ∧ (∀ (s s1 : State) (d a b : BitVec 5) (t : BitVec 3) (u n : BitVec 2) (p : BitVec 8) (l : BitVec 4) (cause sub : Nat),
       s.plain → s.ready d → s.clean a → s.clean b → s.cur.k < 15 → 0 < s.myRill.replayRoom →
       ∀ x ∈ plainAccesses s d a b t u n p l, addressFault x.acc.va x.acc.size false true = none →
         ∀ a1 page, ({ s with nextId := s.nextId + 1 } : State).resolve s.cur (s.numbered x.acc)
             = (s1, .log a1 cause sub false page) →
           exec x.instr s = .next ((((s1.modMe fun c => x.dests.foldl (fun y e => y.setEmpty e s.nextId) c).logEntry s.cur
             cause sub false [a1]).modMe id).modMe id).advance)

/-- R151, R155: the local-store short forms, and the cache operations on a line. R155: a prefetch of a cacheable
line that no engine owns brings it into the braid, and never traps, logs or parks: where a check or the operand
fails it has no effect. What a prefetch without effect does is the model's reading (log
entry 17). -/
def Obligations.ShortAndCacheIssue : Prop :=
  (∀ (s s1 : State) (d a k : BitVec 5) (p : BitVec 8) (l : BitVec 4) (r : BitVec 2) (a1 : Access),
     s.plain → s.ready d → s.clean a → s.cur.k = 15 ∨ 0 < s.myRill.replayRoom →
     (let ea := w64 (0x0080000000000000 + s.cur.r * 0x200000 + field (s.sr 0x098) 17 3 * 8 + 8 * k.toNat)
      addressFault ea 8 false true = none →
       (let x : OneAccess := { instr := .ldlH d k, dests := [s.me.dest d]
                               acc := { id := 0, seq := 0, kind := .load false, va := ea, size := 8, dst := s.me.dest d } }
        s.passes x.acc s1 a1 → exec x.instr s = .next (s.afterIssue s1 x a1))
       ∧ (let x : OneAccess := { instr := .stlH d k
                                 acc := { id := 0, seq := 0, kind := .store, va := ea, size := 8, data := s.val d
                                          poison := s.bad d, tag := s.me.relTag } }
          s.passes x.acc s1 a1 → exec x.instr s = .next (s.afterIssue s1 x a1)))
     ∧ (let ea := s.val a + p.signExtend 64 * w64 64
        let line := setField ea 5 0 0
        addressFault ea 1 false false = none →
         (∀ x ∈ [((.cwb a p l : Instr), AccKind.cwb), (.cflush a p l, .cflush), (.iinv r a p l, .iinv r.toNat)],
           (bit ea 55 = true → exec x.1 s = .next s.advance)
           ∧ (bit ea 55 = false →
               let y : OneAccess := { instr := x.1, la := some l.toNat
                                      acc := { id := 0, seq := 0, kind := x.2, va := line, size := 64 } }
               s.passes y.acc s1 a1 → exec x.1 s = .next (s.afterIssue s1 y a1)))
         ∧ (let y : OneAccess := { instr := .czero a p l, la := some l.toNat
                                   acc := { id := 0, seq := 0, kind := .czero, va := line, size := 64, tag := s.me.relTag } }
            s.passes y.acc s1 a1 → exec y.instr s = .next (s.afterIssue s1 y a1))))
  ∧ (∀ (s : State) (a : BitVec 5) (p : BitVec 8) (l : BitVec 4),
       let ea := setField (s.val a + p.signExtend 64 * w64 64) 5 0 0
       (s.inTx = true ∨ ¬ s.ready a ∨ bit ea 55 = true ∨ addressFault ea 64 (s.bad a) false ≠ none →
         exec (.cpf a p l) s = .next s.advance ∧ exec (.cpfw a p l) s = .next s.advance)
       ∧ (∀ s1 pa leaf, s.plain → s.clean a → bit ea 55 = false → addressFault ea 64 false false = none →
           s.translate s.cur ea { r := true } = (s1, .ok pa leaf) → bit leaf 8 = false → s1.ownedLine (lineOf pa) none = false →
           (s1.braid s.cur.b).cut = false →
           exec (.cpf a p l) s = .next (s1.l1Read s.cur ea (lineOf pa) (bit leaf 6)).advance
             ∧ ∃ t, exec (.cpfw a p l) s = .next t ∧ SameBytes s t
                 ∧ t.me.pc = s.nextPc))

/-- R147, R146: a load of a thread that may be performed, and has reached what serves it, fills its destination from memory, which keeps every byte.
R148, R146: a store that may be performed, has no sharer to ask and no request parked on its word writes its bytes
at its place, and every other byte reads as before. That an access is performed at one instant for all threads is
the model's reading (log entries 8, 10 and 11). -/
def Obligations.AccessesPerform : Prop :=
  (∀ (s : State) (b r k n : Nat) (a : Access) (sx : Bool),
     let p : Pos := ⟨b, r, k⟩
     s.flight p n = some a → a.kind = .load sx → s.mayPerform p a = true → s.arrived p a = true →
       ∃ t, exec (.loadDataReturn b r k n) s = .next t ∧ SameBytes s t
         ∧ ((s.ctx p).cellAt a.dst = { (s.ctx p).cellAt a.dst with full := false, src := a.src } →
             (t.ctx p).cellAt a.dst
               = { val := extend sx a.size (s.mem.read a.pa a.size), full := true
                   poison := !isHost a.pa && s.mem.poisoned a.pa })
         ∧ (∀ d, d ≠ a.dst → (t.ctx p).cellAt d = (s.ctx p).cellAt d)
         ∧ a.id ∉ (t.ctx p).flights.map Access.id)
  ∧ (∀ (s : State) (b r k n : Nat) (a : Access),
       let p : Pos := ⟨b, r, k⟩
       s.flight p n = some a → a.kind = .store → s.mayPerform p a = true → s.arrived p a = true →
       (s.fanouts.any fun f => f.agent.isNone && f.acc.id == n) = false →
       s.sharersFor p a = [] → (∀ q ∈ s.requests, q.2.id ≠ n → wordOf q.2.pa ≠ wordOf a.pa) → (∀ i < a.size, s.mem.isLost (a.pa + i) = false) →
         ∃ t, exec (.storePerformed b r k n) s = .next t
           ∧ t.mem.read a.pa a.size = a.data.toNat % 2 ^ (8 * a.size)
           ∧ (∀ x, x < a.pa ∨ a.pa + a.size ≤ x → t.mem.byte x = s.mem.byte x)
           ∧ (isHost a.pa = false → 8 ≤ a.size → t.mem.poisoned a.pa = a.poison)
           ∧ (isHost a.pa = false → a.size < 8 → t.mem.poisoned a.pa = (s.mem.poisoned a.pa || a.poison))
           ∧ t.mem.full = s.mem.full)

/-- R289 to R291: an AMO or CAS outside a transaction sends its operands to the word's owner with its destination empty.
R297: a full/empty access of a user context to device memory or to the local store is sent. -/
def Obligations.RmwIssue : Prop :=
  (∀ (s s1 : State) (d a b : BitVec 5) (z o : BitVec 1) (e : BitVec 2) (sx : BitVec 3) (l : BitVec 4) (a1 : Access),
     s.plain → s.ready d → s.clean a → s.ready b → s.cur.k = 15 ∨ 0 < s.myRill.replayRoom →
     let size := 4 * (1 + z.toNat)
     addressFault (s.val a) size false true = none →
     (∀ x ∈ amoForms d a b z o l,
       let y : OneAccess := { instr := x.1, dests := [s.me.dest d], la := some l.toNat
                              acc := { id := 0, seq := 0, kind := .amo x.2, va := s.val a, size := size, dst := s.me.dest d
                                       data := w64 ((s.val b).toNat % 2 ^ (8 * size)), poison := s.bad b, ordered := o == 1
                                       tag := if o = 1 then some 3 else none } }
       s.passes y.acc s1 a1 → exec x.1 s = .next (s.afterIssue s1 y a1))
     ∧ (let y : OneAccess := { instr := .cas d a b z e sx l, dests := [s.me.dest d], la := some l.toNat
                               acc := { id := 0, seq := 0, kind := .cas e.toNat sx.toNat, va := s.val a, size := size
                                        dst := s.me.dest d, data := w64 ((s.val b).toNat % 2 ^ (8 * size)), poison := s.bad b
                                        aux := w64 ((s.val d).toNat % 2 ^ (8 * size)), auxPoison := s.bad d
                                        ordered := bit (w64 e.toNat) 1
                                        tag := if bit (w64 e.toNat) 1 then some sx.toNat else none } }
        s.passes y.acc s1 a1 → exec y.instr s = .next (s.afterIssue s1 y a1)))
  ∧ (∀ (s s1 : State) (d a : BitVec 5) (p : BitVec 8) (l : BitVec 4) (a1 : Access),
       s.plain → s.ready d → s.clean a → s.cur.k < 15 → 0 < s.myRill.replayRoom →
       let ea := s.val a + p.signExtend 64 * w64 8
       addressFault ea 8 false true = none →
       ∀ x ∈ feForms d a p l,
         (bit ea 55 = true ∨ ∃ s2 pa leaf, s.translate s.cur ea x.2.1.need = (s2, .ok pa leaf) ∧ isHost pa = false) →
         let y : OneAccess :=
           { instr := x.1, dests := if x.2.2.1 then [s.me.dest d] else [], la := some l.toNat
             acc := { id := 0, seq := 0, kind := x.2.1, va := ea, size := 8, dst := if x.2.2.1 then s.me.dest d else .none
                      data := if x.2.2.2 then s.val d else 0, poison := x.2.2.2 && s.bad d
                      ordered := x.2.2.2, ext := [s.upc, w64 s.ulen] } }
         s.passes y.acc s1 a1 → exec x.1 s = .next (s.afterIssue s1 y a1))

/-- R188 to R190: a fence completes once the earlier accesses that it orders are done, those among them that an edge of R180
puts before it; FENCE and FENCE.REL leave
their scope for the tags of later writes (R164). R177: after FENCE.XP, and after a release at .bs or wider, an engine
command of the thread reads no value that its stores have replaced before. Inside a transaction a fence has no effect. R191 to R193: LDA and
STREL are sent and the thread waits for them; widening, in context 15 only, changes the tags of a local-store word.
Complete means performed (log entry 10). -/
def Obligations.FenceResults : Prop :=
  (∀ (s : State) (sx : BitVec 3),
     (s.inTx = true → ∀ i ∈ [(.fence sx : Instr), .fenceAcq sx, .fenceRel sx, .fenceXp], exec i s = .next s.advance)
     ∧ (s.plain →
         (s.releases = true → ∀ i ∈ [(.fence sx : Instr), .fenceRel sx],
           exec i s = .next ((s.modMe (Ctx.released sx.toNat)).advance))
         ∧ (∀ c : Ctx, (c.released sx.toNat).relTag = some sx.toNat ∧ (3 ≤ sx.toNat → (c.released sx.toNat).older = [])
             ∧ (sx.toNat < 3 → (c.released sx.toNat).older = c.older) ∧ (c.xpOrdered).older = [])
         ∧ (s.doneBefore s.cur s.me.seq AccKind.reads = true → s.edgesDone s.cur s.nextId AccKind.reads = true →
             exec (.fenceAcq sx) s = .next (s.modMe id).advance)
         ∧ (s.doneBefore s.cur s.me.seq AccKind.writes = true → s.edgesDone s.cur s.nextId AccKind.writes = true →
             exec .fenceXp s = .next (s.modMe Ctx.xpOrdered).advance)))
  ∧ (∀ (s s1 : State) (d a b : BitVec 5) (q t sx : BitVec 3) (x : BitVec 1) (u : BitVec 2) (a1 : Access),
       s.plain → s.ready d → s.clean a → s.clean b → s.cur.k = 15 ∨ 0 < s.myRill.replayRoom →
       (addressFault (s.val a) (2 ^ (t.toNat % 4)) false true = none →
         let qs := if x = 1 then some q.toNat else none
         let y : OneAccess :=
           { instr := .lda d a q t x sx, dests := s.me.dest d :: (qs.toList.map Dest.q)
             acc := { id := 0, seq := 0, kind := .lda (decide (4 ≤ t.toNat)) sx.toNat qs, va := s.val a
                      size := 2 ^ (t.toNat % 4), dst := s.me.dest d }
             post := fun c => { c with wait := some (.access c.seq) } }
         s.passes y.acc s1 a1 → exec y.instr s = .next (s.afterIssue s1 y a1))
       ∧ (addressFault (s.val a) (2 ^ u.toNat) false true = none → s.releases = true →
           let y : OneAccess :=
             { instr := .strel d a u sx
               acc := { id := 0, seq := 0, kind := .strel sx.toNat, va := s.val a, size := 2 ^ u.toNat, data := s.val d
                        poison := s.bad d, tag := some sx.toNat }
               post := fun c => { c with wait := some (.access c.seq) } }
           s.passes y.acc s1 a1 → exec y.instr s = .next (s.afterIssue s1 y a1))
       ∧ (s.cur.k = 15 → addressFault (s.val a) 8 false true = none → bit (s.val a) 55 = true →
           exec (.fenceRelWiden a b sx) s
             = .next ((s.widen { s.cur with k := field (s.val b) 3 0 } (localPlace s.cur.b (s.val a)) sx.toNat).advance))
       ∧ (s.cur.k < 15 → exec (.fenceRelWiden a b sx) s = .next (s.trapTo 0x05 s.uw)))

/-- R285, R288, R289: the owner performs an AMO as one event: the word takes the new value of its op, every byte
outside it reads as before, and the thread receives the old value; on host memory, one that is no AtomicOp of the link
reads first and writes later. R297, R298: LDFE takes a full word and leaves it
empty, STFE fills an empty one, and a request whose condition does not hold parks at the owner. That the event is
one step, with these arguments, is the model's choice (log entries 6 and 8). -/
def Obligations.OwnerPerforms : Prop :=
  (∀ (s : State) (n op : Nat) (p : Pos) (a : Access),
     s.requests.find? (fun q => q.2.id == n && q.2.stage == 2) = some (p, a) → a.kind = .amo op → a.merged = [] →
     p.b < 512 → s.mayPerform p a = true → s.sharersFor p a = [] → a.old = none →
     (∀ q ∈ s.requests, q.2.id ≠ n → wordOf q.2.pa ≠ wordOf a.pa) → (∀ i < a.size, s.mem.isLost (a.pa + i) = false) →
     (a.splits = true → exec (.ownerRmw n) s = .next ((s.recall (lineOf a.pa)).setRequest n fun x =>
       { x with old := some (s.mem.load a.pa a.size) }))
     ∧ (a.splits = false → ∃ t, exec (.ownerRmw n) s = .next t
         ∧ t.mem.read a.pa a.size = amoNew op a.size (s.mem.read a.pa a.size) a.data.toNat % 2 ^ (8 * a.size)
         ∧ (∀ x, x < a.pa ∨ a.pa + a.size ≤ x → t.mem.byte x = s.mem.byte x)
         ∧ ((s.ctx p).cellAt a.dst = { (s.ctx p).cellAt a.dst with full := false, src := a.src } →
             ((t.ctx p).cellAt a.dst).full = true
               ∧ ((t.ctx p).cellAt a.dst).val = zext (s.mem.read a.pa a.size) (8 * a.size))))
  ∧ (∀ (s : State) (n : Nat) (p : Pos) (a : Access),
       s.requests.find? (fun q => q.2.id == n && q.2.stage == 2) = some (p, a) → p.b < 512 → s.mayPerform p a = true → isHost a.pa = false →
       (a.kind.fe = true → feReady a.kind (s.mem.isFull a.pa) = false →
         exec (.ownerRmw n) s = .next (s.setRequest n fun x => { x with stage := 3, since := s.cycle, retries := 0 }))
       ∧ (s.sharersFor p a = [] → (∀ q ∈ s.requests, q.2.id ≠ n → wordOf q.2.pa ≠ wordOf a.pa) →
           (∀ i < 8, s.mem.isLost (a.pa + i) = false) →
           (a.kind = .ldfe → s.mem.isFull a.pa = true →
             ∃ t, exec (.ownerRmw n) s = .next t ∧ t.mem.isFull a.pa = false ∧ SameBytes s t)
           ∧ (a.kind = .stfe → s.mem.isFull a.pa = false →
             ∃ t, exec (.ownerRmw n) s = .next t ∧ t.mem.isFull a.pa = true ∧ t.mem.read a.pa 8 = a.data.toNat
               ∧ ∀ x, x < a.pa ∨ a.pa + 8 ≤ x → t.mem.byte x = s.mem.byte x)))

/-- R286, R293, R298, R365: a request goes through the network to its slice, is served there in its turn, the starved
first, of these the one with the lowest thread identifier, and its waits are counted; no request is served in the turn of
a lock. That the event is one step, with these arguments, is the model's choice (log entries 6 and 8). -/
def Obligations.RequestEvents : Prop :=
  ∀ (s : State) (o line n b r k : Nat) (p : Pos) (a : Access),
    (∀ w, winner (s.portNext.get 0 o) (s.heads (s.packets.get [] o)) = some w → w.input < 512 →
      ∃ t, exec (.networkArbitrate o) s = .next t
        ∧ (w.acc.queued = true → ∃ q ∈ t.requests, q.1 = w.pos ∧ q.2.id = w.acc.id)
        ∧ (w.acc.queued = false → ∀ x ∈ (s.ctx w.pos).flights, x.id = w.acc.id →
            { x with stage := 2 } ∈ (t.ctx w.pos).flights))
    ∧ (∀ q rest, (s.requests.filter fun x => lineOf x.2.pa == line) = q :: rest → q.2.stage = 1 →
        s.inOrder q.1 q.2 = true → s.ownedFor q.1 q.2 line = false → (∀ x ∈ q :: rest, x.2.stage ≠ 2) →
        s.lockWaiters line = [] → s.writeWaiters line = [] →
        ((∀ x ∈ rest, x.2.starved = false ∧ q.2.since ≤ x.2.since) → q.2.starved = false →
          exec (.sliceServe line) s = .next (s.setRequest q.2.id fun x => { x with stage := 2 }))
        ∧ (q.2.starved = true → q.1.b < 512 → (∀ x ∈ rest, x.2.starved = true → 512 ≤ x.1.b ∨ s.tid q.1 ≤ s.tid x.1) →
          exec (.sliceServe line) s = .next (s.setRequest q.2.id fun x => { x with stage := 2 })))
    ∧ (∀ w, s.served (s.queueOf line) = some w → w.lock = true → exec (.sliceServe line) s = .next s)
    ∧ (∀ w v : Waiter, (w.starved = true → v.starved = false → s.servesFirst w v = true)
        ∧ (w.starved = true → v.starved = true → w.pos.b < 512 → v.pos.b < 512 →
            (s.servesFirst w v = true ↔ s.tid w.pos < s.tid v.pos))
        ∧ (w.starved = false → v.starved = false → (s.servesFirst w v = true ↔ w.since < v.since)))
    ∧ (s.requests.find? (fun q => q.2.id == n && q.2.stage == 1) = some (p, a) → a.since + Config.sliceCycles 1024 ≤ s.cycle →
        exec (.sliceRequestStarved n) s = .next (s.setRequest n fun x => { x with starved := true }))
    ∧ (s.requests.find? (fun q => q.2.id == n && q.2.stage == 3) = some (p, a) → (s.ctx p).run = .running →
        (feReady a.kind (s.mem.isFull a.pa) && s.lockOf (lineOf a.pa) == 0) = false → a.since + a.retryTime ≤ s.cycle → a.retries < field (s.srAt p 0x040) 31 0 →
        exec (.feParkedRetry n) s = .next (s.setRequest n fun x => { x with retries := x.retries + 1, since := s.cycle }))
    ∧ (∀ op, (s.ctx ⟨b, r, k⟩).flights.find? (fun x => x.id == n && x.stage == 0) = some a → a.kind = .rupd op →
        s.doneBefore ⟨b, r, k⟩ a.seq (fun _ => true) = true →
        exec (.rupdSend b r k n) s = .next ((s.modCtx ⟨b, r, k⟩ fun c => { c with flights := c.flights.map fun x =>
          if x.id == n then { x with stage := 1 } else x }).route ⟨b, r, k⟩ a))

/-- R292 to R295: a remote update raises its counter and waits at its rill; RUPD.ADDZ takes a task and its target from
five ox registers; VAMO sends one request for each element. -/
def Obligations.RemoteUpdateIssue : Prop :=
  ∀ (s s1 : State) (pp o3 : BitVec 4) (a b : BitVec 5) (o c : BitVec 3) (v w : BitVec 4) (f : BitVec 1) (l : BitVec 4)
      (a1 : Access),
    s.plain → s.clean a → s.cur.k = 15 ∨ 0 < s.myRill.replayRoom → s.myRill.cc.get 0 c.toNat < 0xFFFF → s.ready b →
    (let op := pp.toNat
     let size := (rupdOp op).2
     addressFault (s.val a) size false true = none →
     s.passes { id := 0, seq := 0, kind := .rupd op, va := s.val a, size := size
                data := w64 ((s.val b).toNat % 2 ^ (8 * size)), poison := s.bad b, ordered := true, tag := some 3
                cc := some c.toNat } s1 a1 →
     ∃ t, exec (.rupd pp a b c l) s = .next t ∧ t.me.flights = s1.me.flights ++ [a1] ∧ t.me.pc = s1.nextPc
       ∧ t.myRill.cc.get 0 c.toNat = s1.myRill.cc.get 0 c.toNat + 1)
    ∧ (∀ ws : List Word, (s.me.oxBlock o.toNat 5).all (fun x => x.full && !x.poison) = true →
        ws = (s.me.oxBlock o.toNat 5).map (fun x => x.val) → field (ws.getD 4 0) 63 12 = 0 →
        (s.rillOf (s.basinOf s.cur.b) (ws.getD 4 0).toNat).isSome = true →
        ∀ x ∈ [((.rupdAddzZ64 a b o c l : Instr), 11, 8), (.rupdAddzZ32 a b o c l, 12, 4)],
          addressFault (s.val a) x.2.2 false true = none →
          s.passes { id := 0, seq := 0, kind := .rupd x.2.1, va := s.val a, size := x.2.2
                     data := w64 ((s.val b).toNat % 2 ^ (8 * x.2.2)), poison := s.bad b, ordered := true, tag := some 3
                     cc := some c.toNat, ext := ws } s1 a1 →
          ∃ t, exec x.1 s = .next t ∧ t.me.flights = s1.me.flights ++ [a1] ∧ t.me.pc = s1.nextPc
            ∧ t.myRill.cc.get 0 c.toNat = s1.myRill.cc.get 0 c.toNat + 1)
    ∧ (let e := (rupdOp o3.toNat).2
       s.me.vseq = [] → s.me.vres = [] → s.me.slot v.toNat = none → s.me.slot w.toNat = none →
       (s.me.vreg v.toNat).full = true → (s.me.vreg w.toNat).full = true → (s.me.vreg w.toNat).poison = false →
       (∀ i < 32 / e, addressFault (indexed (s.val a) (s.me.vreg w.toNat).val e i) e false true = none
          ∧ bit (indexed (s.val a) (s.me.vreg w.toNat).val e i) 55 = true) →
       ∃ t, exec (.vamo o3 a w v f 0 l) s = .next t ∧ t.me.flights.length = s.me.flights.length + 32 / e
         ∧ t.me.pc = s.nextPc ∧ (f = 1 → (t.me.vreg v.toNat).full = false))

/-- R300 to R303: monitor slots. MONARM is sent and waited for; MONDIS disarms; MONWAIT answers at once when a slot
has triggered, else waits, and ends on a trigger or at its time-out; a write to MONSTAT sets WAKE only. That the
event is one step, with these arguments, is the model's choice (log entries 6 and 8). -/
def Obligations.MonitorResults : Prop :=
  ∀ (s s1 : State) (d a x : BitVec 5) (k : BitVec 2) (b r c line : Nat) (v : Word) (a1 : Access), s.plain →
    (s.clean a → s.cur.k = 15 ∨ 0 < s.myRill.replayRoom → addressFault (s.val a) 1 false false = none →
      let y : OneAccess := { instr := .monarm k a, post := fun c => { c with wait := some (.access c.seq) }
                             acc := { id := 0, seq := 0, kind := .monarm k.toNat, va := s.val a, size := 1 } }
      s.passes y.acc s1 a1 → exec y.instr s = .next (s.afterIssue s1 y a1))
    ∧ (∃ t, exec (.mondis k) s = .next t ∧ t = (s.disarm s.cur k.toNat).advance
        ∧ bit (t.srAt s.cur 0x080) k.toNat = false ∧ bit (t.srAt s.cur 0x080) (4 + k.toNat) = false)
    ∧ (s.clean x →
        let st := s.sr 0x080
        (monHolds st = true → exec (.monwait d x) s
          = .next ((s.setSr s.cur 0x080 (monReport st false).2).put d (monReport st false).1 false))
        ∧ (monHolds st = false → exec (.monwait d x) s = .next ((s.modMe fun c => { c with
            wait := some (.monwait (c.dest d) (if field (s.val x) 31 0 = 0 then 0 else s.cycle + field (s.val x) 31 0)) }).advance)))
    ∧ (∀ e dl, (s.ctx ⟨b, r, c⟩).wait = some (.monwait e dl) → (s.ctx ⟨b, r, c⟩).run = .running →
        (monHolds (s.srAt ⟨b, r, c⟩ 0x080) = true →
          exec (.monwaitEnd b r c) s = .next (s.endMonwait ⟨b, r, c⟩ e (decide (dl ≠ 0 ∧ dl ≤ s.cycle))))
        ∧ (dl ≠ 0 → dl ≤ s.cycle → exec (.monwaitTimeout b r c) s = .next (s.endMonwait ⟨b, r, c⟩ e true)))
    ∧ (∃ t, exec (.monstatWakeWrite b r c v) s = .next t ∧ bit (t.srAt ⟨b, r, c⟩ 0x080) 9 = bit v 9
        ∧ field (t.srAt ⟨b, r, c⟩ 0x080) 8 0 = field (s.srAt ⟨b, r, c⟩ 0x080) 8 0)
    ∧ (∀ j < 4, (s.braid b).fenced = false → (s.ctx ⟨b, r, c⟩).mons.find j = some line → s.triggers = [(⟨b, r, c⟩, j)] →
        ∃ t, exec (.monitorTrigger b r c line) s = .next t ∧ bit (t.srAt ⟨b, r, c⟩ 0x080) j = true ∧ t.triggers = [])

/-- R306, R277: barriers of the thread's cohort or in context 15, and completion-counter waits. The arrival that
makes ARRIVED equal COUNT completes the phase; a waiter of an earlier phase is released. Of two arrivals in one rill cycle the
one of the lower rill comes first, whichever unit has been executed first. That the event is one step, with these arguments,
is the model's choice (log entries 6 and 8). -/
def Obligations.BarrierResults : Prop :=
  ∀ (s : State) (d a : BitVec 5) (n : BitVec 4) (c : BitVec 3) (m : BitVec 5) (b r k : Nat), s.plain →
    let x := (s.braid s.cur.b).barriers.get {} n.toNat
    (s.cur.k = 15 ∨ (x.cohort.isSome = true ∧ x.cohort = s.me.cohort) →
      (s.releases = true → x.logAt ≠ s.cycle + 1 →
        let after (a : Arrival) : State := s.setBarrier n { x.arrive with
          logAt := s.cycle + 1, logged := [a], was := (x.count, x.arrived, x.phase, x.nextCount) }
        let me : Arrival := { r := s.cur.r, k := s.cur.k, dst := .none, sync := true }
        exec (.bararv d n) s = .next ((after { me with dst := s.me.dest d, sync := false }).put d (w64 x.phase) false)
          ∧ (x.arrive.phase = x.phase → exec (.barsync n) s = .next (((after me).modMe fun z =>
              { z with wait := some (.barrier n.toNat x.phase) }).advance))
          ∧ (x.arrive.phase ≠ x.phase → exec (.barsync n) s = .next ((after me).advance)))
      ∧ (∀ o : Arrival, s.releases = true → x.logAt = s.cycle + 1 → x.logged = [o] → s.cur.r < o.r → s.cur.k < 16 → o.k < 16 →
          o.sync = false → (∃ m, o.dst = .g m ∨ o.dst = .win m) →
          let y : Barrier := { x with count := x.was.1, arrived := x.was.2.1, phase := x.was.2.2.1, nextCount := x.was.2.2.2 }
          ∃ t, exec (.bararv d n) s = .next t ∧ t.me.reg d = (s.me.setReg d (w64 y.phase) false).reg d
            ∧ (t.ctx { s.cur with r := o.r, k := o.k }).cellAt o.dst = { val := w64 y.arrive.phase }
            ∧ ((t.braid s.cur.b).barriers.get {} n.toNat).phase = y.arrive.arrive.phase
            ∧ ((t.braid s.cur.b).barriers.get {} n.toNat).arrived = y.arrive.arrive.arrived)
      ∧ (s.clean a →
          (x.arrived = 0 → exec (.barcfg a n) s
            = .next ((s.setBarrier n { x with count := max 1 (min 120 (s.val a).toNat), nextCount := none, logAt := 0 }).advance))
          ∧ (x.arrived ≠ 0 → exec (.barcfg a n) s
            = .next ((s.setBarrier n { x with nextCount := some (max 1 (min 120 (s.val a).toNat)), logAt := 0 }).advance))
          ∧ (x.phase = field (s.val a) 15 0 → exec (.barwait a n) s
            = .next ((s.modMe fun z => { z with wait := some (.barrier n.toNat x.phase) }).advance))
          ∧ (x.phase ≠ field (s.val a) 15 0 → exec (.barwait a n) s = .next s.advance)))
    ∧ (s.cur.k < 15 → x.cohort = none ∨ x.cohort ≠ s.me.cohort → exec (.bararv d n) s = .next (s.trapTo 0x05 (w64 n.toNat)))
    ∧ (∀ y : Barrier, (y.arrived + 1 = y.count → y.arrive.phase = (y.phase + 1) % 65536 ∧ y.arrive.arrived = 0)
        ∧ (y.arrived + 1 ≠ y.count → y.arrive = { y with arrived := y.arrived + 1 }))
    ∧ (∀ j ph, (s.ctx ⟨b, r, k⟩).wait = some (.barrier j ph) → (s.ctx ⟨b, r, k⟩).run = .running →
        ((s.braid b).barriers.get {} j).phase ≠ ph →
        exec (.barrierRelease b r k) s = .next (s.modCtx ⟨b, r, k⟩ fun z => { z with wait := none, startAt := s.cycle + 4 }))
    ∧ (s.myRill.cc.get 0 c.toNat < m.toNat → exec (.waitlt c m) s = .next s.advance)
    ∧ (s.clean a → s.myRill.cc.get 0 c.toNat < field (s.val a) 15 0 → exec (.waitltr c a) s = .next s.advance)

/-- R157, R158: a block instruction whose registers are full, its count and pointers unpoisoned and its pointers aligned, is
taken by the rill's block unit, with the registers that it writes empty, and waits there for those before it; a count of zero
leaves every register as it was. The value of BFILL may be poisoned, and neither it nor a key need be aligned. R318, R457: where
an element may not stand in a transaction, that aborts; so a BFILL with an element in local store. R158, R160: one element of a
BFILL in local store writes its bytes, from the fill register as it then stands, leaves every other byte, and moves the pointer
and the count on by one element. That the block instructions of a context run one after another is the model's reading (log entry 13), and
that the event is one step its choice (log entries 6 and 8). -/
def Obligations.BlockResults : Prop :=
  (∀ (s : State) (n a b : BitVec 5) (e : BitVec 2) (l : BitVec 4), s.clean n → s.clean a → s.ready b →
     (s.val a).toNat % 2 ^ e.toNat = 0 →
     ∀ x ∈ [((.bmov n a b e l : Instr), 0), (.bmovd n a b e l, 1), (.bfill n a b e l, 2), (.bscanEq n a b e l, 3),
         (.bscanNe n a b e l, 4)],
       (x.2 ≠ 2 → s.bad b = false) → (x.2 ≤ 1 → (s.val b).toNat % 2 ^ e.toNat = 0) →
       let blk : Block :=
         { id := s.nextId, seq := s.me.seq, op := x.2, esize := e.toNat, nd := s.me.dest n, ad := s.me.dest a
           bd := s.me.dest b, n := s.val n, a := s.val a, b := s.val b, bPoison := s.bad b, pc := s.upc, len := s.ulen
           within := s.me.las.map Window.seq }
       (s.blockIllegal blk = true → exec x.1 s = .next (s.txAbort 6 0x13))
         ∧ (x.2 = 2 → s.inTx = true →
             (∃ i < (s.val n).toNat, bit (s.val a + w64 (i * 2 ^ e.toNat)) 55 = true) → exec x.1 s = .next (s.txAbort 6 0x13))
         ∧ (s.val n = 0 → exec x.1 s = .next s.advance)
         ∧ (s.val n ≠ 0 → s.blockIllegal blk = false → s.cur.k = 15 ∨ 0 < s.myRill.replayRoom →
             exec x.1 s = .next ((({ s with nextId := s.nextId + 1 } : State).modMe fun c =>
               ((blk.dests.foldl (fun t d => t.setEmpty d s.nextId) c).openLa l.toNat).addBlock blk).advance)
             ∧ ∀ c : Ctx, (c.block = none → (c.addBlock blk).block = some blk)
               ∧ (∀ y, c.block = some y → (c.addBlock blk).block = some y ∧ (c.addBlock blk).more = c.more ++ [blk])))
  ∧ (∀ (s : State) (b r k : Nat) (x : Block) (ea : Word),
       let p : Pos := ⟨b, r, k⟩
       let place := localPlace b ea
       let z : State := { (s.modRill b r fun y => { y with bNext := (k + 1) % 16 }) with cur := p, upc := x.pc, ipc := x.pc
                                                                                         ulen := x.len }
       (s.rill b r).bNext = k → k < 16 → (s.ctx p).run = .running → (s.ctx p).block = some x → x.op = 2 → x.esize ≤ 3 →
       b < 512 → x.a = ea → 2 ≤ x.n.toNat → bit ea 55 = true → addressFault ea (2 ^ x.esize) false true = none → s.txDepth p = 0 →
       z.mayPerform p { id := x.id, seq := x.seq, kind := .store, va := ea, size := 2 ^ x.esize, tag := (s.ctx p).relTag
                        pa := place, within := x.within } = true →
       z.entryOn p ea = false → (s.fanouts.any fun f => f.line == lineOf place) = false →
       s.requests = [] → s.groupOf p = none →
         ∃ t, exec (.blockElement b r) s = .next t
           ∧ t.mem.read place (2 ^ x.esize)
               = (if x.bd = x.ad then x.a else if x.bd = x.nd then x.n else x.b).toNat % 2 ^ (8 * 2 ^ x.esize)
           ∧ t.mem.poisoned place = (if x.esize = 3 then x.bPoison else s.mem.poisoned place || x.bPoison)
           ∧ (∀ y, y < place ∨ place + 2 ^ x.esize ≤ y → t.mem.byte y = s.mem.byte y)
           ∧ (t.ctx p).block = some { x with a := ea + w64 (2 ^ x.esize), n := x.n - 1, fresh := false })

/-- R223 to R240: the scalar floating-point instructions that end in their slot. While no flag of the result has its
trap enabled, the flags accrue, SRSEED makes its step after a rounding in SR mode, and d or q is written; otherwise
the unit traps FP-EXCEPTION with the flags (R229). A rounding in SR mode waits for the vector instructions (R225).
A narrowing conversion that traps has met its source for AMAX all the same (R234); that SRSEED makes no step then is the
model's reading (log entry 28). -/
def Obligations.FpResults : Prop :=
  ∀ (s : State) (d a b : BitVec 5) (f c : BitVec 2) (r e : BitVec 4) (q x y : BitVec 3), s.ready a → s.ready b → s.ready d →
    let m := rmOf (s.sr 0x020) r.toNat
    let g := fmtOf f.toNat
    let va := (s.val a).toNat
    let vb := (s.val b).toNat
    let step := srStep (field (s.sr 0x022) 31 0)
    let p2 := s.bad a || s.bad b
    let ends (i : Instr) (v : Nat × BitVec 5) (sr : Bool) (t : State → State) : Prop :=
      (¬ s.fpTraps v.2 → exec i s = .next (t (s.accrue v.2 sr)))
        ∧ (s.fpTraps v.2 → exec i s = .next ((s.accrue v.2 false).trapTo 0x13 (w64 v.2.toNat)))
    (m ≠ 5 ∨ s.me.vseq = [] →
      (∀ z ∈ fpRounding m (s.val b) d a b f r,
        let v := (z.2.1 (g.decode va) (g.decode vb) (g.decode (s.val d).toNat)).to g m false step
        ends z.1 v (m == 5) fun t => t.put d (w64 v.1) (p2 || (z.2.2 && s.bad d)))
      ∧ (let v := (fmtOf x.toNat).rint m step ((fmtOf x.toNat).decode va)
         ends (.frint d a x r) v (m == 5) fun t => t.put d (w64 v.1) (s.bad a))
      ∧ (4 ≤ x.toNat →
          let v := toInt m step (intRange x.toNat).1 (intRange x.toNat).2 ((fmtOf y.toNat).decode va)
          ends (.fcvt d a x y r) (0, v.2) (m == 5) fun t => t.put d (wrap v.1) (s.bad a))
      ∧ (x.toNat < 4 → 4 ≤ y.toNat →
          let i := intSource y.toNat (s.val a)
          let v := (fmtOf x.toNat).round m false step (decide (i < 0)) i.natAbs 0 false
          ends (.fcvt d a x y r) v (m == 5) fun t => t.put d (w64 v.1) (s.bad a))
      ∧ (x.toNat < 4 → y.toNat < 4 → (fmtOf x.toNat).widens (fmtOf y.toNat) = false →
          let src := (fmtOf y.toNat).decode va
          let v := (fmtOf x.toNat).convert m false step src
          let am := if (fmtOf x.toNat).w < (fmtOf y.toNat).w then amaxUpdate (s.sr 0x021) src else s.sr 0x021
          let met (t : State) : State := if am = s.sr 0x021 then t else t.setSr s.cur 0x021 am
          (¬ s.fpTraps v.2 → exec (.fcvt d a x y r) s = .next ((met (s.accrue v.2 (m == 5))).put d (w64 v.1) (s.bad a)))
            ∧ (s.fpTraps v.2 →
              exec (.fcvt d a x y r) s = .next ((met (s.accrue v.2 false)).trapTo 0x13 (w64 v.2.toNat)))))
    ∧ (x.toNat < 4 → y.toNat < 4 → (fmtOf x.toNat).widens (fmtOf y.toNat) = true →
        let v := (fmtOf x.toNat).convert 1 false 0 ((fmtOf y.toNat).decode va)
        ends (.fcvt d a x y r) v false fun t => t.put d (w64 v.1) (s.bad a))
    ∧ ends (.fmin d a b f) (g.pick false va vb) false (fun t => t.put d (w64 (g.pick false va vb).1) p2)
    ∧ ends (.fmax d a b f) (g.pick true va vb) false (fun t => t.put d (w64 (g.pick true va vb).1) p2)
    ∧ (let v := fCompare c.toNat (g.decode va) (g.decode vb)
       ends (.fcmp q a b f c) (0, v.2) false fun t => t.putQ q v.1 p2)
    ∧ (∀ z ∈ [((.fsgnj d a b f : Instr), hasBit vb (g.w - 1)), (.fsgnjn d a b f, !hasBit vb (g.w - 1)),
          (.fsgnjx d a b f, hasBit va (g.w - 1) != hasBit vb (g.w - 1))],
        exec z.1 s = .next (s.put d (w64 (va % 2 ^ (g.w - 1) + if z.2 then 2 ^ (g.w - 1) else 0)) p2))
    ∧ exec (.fclass d a f) s = .next (s.put d (w64 (g.classify va)) (s.bad a))
    ∧ exec (.fmxsc d a e) s = .next (s.put d (w64 (mxScale (elementEmax e.toNat) (va % 2 ^ 32))) (s.bad a))

/-- R239, R229: a long floating-point instruction with no trap enabled goes on at once, its destination empty until
its unit has worked; with a trap enabled it ends in its slot. Completing in the slot with a trap enabled is the
model's reading (log entry 29). -/
def Obligations.FpLongResults : Prop :=
  ∀ (s : State) (d a b : BitVec 5) (f : BitVec 2) (l : BitVec 4), s.ready a → s.ready b →
    let m := field (s.sr 0x020) 2 0
    let g := fmtOf f.toNat
    let step := srStep (field (s.sr 0x022) 31 0)
    (m ≠ 5 ∨ s.me.vseq = []) →
    ∀ z ∈ fpLongForms d a b f l,
      let v := (z.2.1 (g.decode (s.val a).toNat) (g.decode (s.val b).toNat)).to g m false step
      let p := s.bad a || (z.2.2.2.2 && s.bad b)
      let time := if f = 0 then z.2.2.1 else z.2.2.2.1
      (field (s.sr 0x020) 13 9 = 0 →
        let t := if m = 5 then s.setSr s.cur 0x022 (w64 step) else s
        exec z.1 s = .next ((t.issueLong (s.me.dest d) l.toNat 2 (w64 v.1) p v.2 (s.unitFree 2 + time)).advance))
      ∧ (field (s.sr 0x020) 13 9 ≠ 0 → s.unitFree 2 ≤ s.cycle →
          (¬ s.fpTraps v.2 → exec z.1 s = .next (((s.accrue v.2 (m == 5)).modMe fun c =>
              { c with startAt := s.cycle + time }).put d (w64 v.1) p))
          ∧ (s.fpTraps v.2 → exec z.1 s = .next ((s.accrue v.2 false).trapTo 0x13 (w64 v.2.toNat))))

/-- R242, R201, R246: a vector instruction enters the sequencer; one that uses a bound register against its
direction traps STREAM with the register. VSEQ opens a block of the units that follow. The order in which a misused
register is found is the model's reading (log entry 33). -/
def Obligations.VectorIssue : Prop :=
  ∀ (s : State) (d a b : BitVec 4) (g x y : BitVec 5) (m : BitVec 1) (t : BitVec 3) (c : BitVec 2) (cs : BitVec 5)
      (cd : BitVec 4),
    (s.ready x → s.ready y → ∀ z ∈ vectorForms s d a b g x y m t c cs cd,
      s.plain ∨ z.2.1.streams s.me = false →
      (∀ n, z.2.1.wrongWay s.me = some n → exec z.1 s = .next (s.trapTo 0x19 (w64 (0x8000000000000200 + n))))
      ∧ (z.2.1.wrongWay s.me = none → (∃ v ∈ s.me.vblocks, v.missing ≠ 0) ∨ s.me.vseq.length < 16 →
          exec z.1 s = .next (s.enqueued z.2.1 z.2.2)))
    ∧ (s.clean x → s.me.vseq.length + d.toNat + 1 ≤ 16 →
        exec (.vseq x d) s = .next ((({ s with nextId := s.nextId + 1 } : State).modMe fun z => { z with
          vblocks := z.vblocks ++ [{ id := s.nextId, size := d.toNat + 1, missing := d.toNat + 1
                                     reps := field (s.val x) 31 0, pc := s.upc }] }).advance))

/-- R243, R247: the vector unit executes the oldest entry of the next context that is ready: an integer instruction
of major 0x30 gives each selected element its function of the operands' elements and keeps the others, and its
result is due four cycles later; VEXT gives a general register the element that its operand names, due six cycles later. A result
that is due fills the vector or general register that waits for it. That the event is one step, with these arguments, is the
model's choice (log entries 6 and 8). -/
def Obligations.VectorExecution : Prop :=
  (∀ (s : State) (b r k : Nat) (e : VEntry), k < 16 →
     let p : Pos := ⟨b, r, k⟩
     let w := vWidth e.t
     let on (i : Nat) : Bool := !e.m || bit (s.srAt p 0x099) i
     (s.rill b r).vNext = k → (s.ctx p).run = .running → (s.ctx p).vIdleBlock = none → (s.ctx p).vHead = some (e, true) →
     s.vReady p e = true → (s.ctx p).streams = [] → e.major = 0x30 → e.fn < 0x20 → ¬ (0x10 ≤ e.fn ∧ e.fn ≤ 0x13) →
     vIsFp e.t = false → e.dst = .v e.d →
     ∃ t v, exec (.vectorCycle b r) s = .next t
       ∧ (t.ctx p).vres = (s.ctx p).vres ++ [v] ∧ v.id = e.id ∧ v.due = s.cycle + 4 ∧ v.dst = .v e.d
       ∧ (∀ i < 256 / w, vElem v.val w i
           = if on i then vIntElem e.fn w (vElem ((s.ctx p).vreg e.a).val w i) (vElem ((s.ctx p).vreg e.b).val w i)
               (vElem ((s.ctx p).vreg e.d).val w i) % 2 ^ w
             else vElem ((s.ctx p).vreg e.d).val w i)
       ∧ (t.rill b r).vNext = (k + 1) % 16)
  ∧ (∀ (s : State) (b r k : Nat) (e : VEntry), k < 16 →
       let p : Pos := ⟨b, r, k⟩
       let w := vWidth e.t
       (s.rill b r).vNext = k → (s.ctx p).run = .running → (s.ctx p).vIdleBlock = none → (s.ctx p).vHead = some (e, true) →
       s.vReady p e = true → (s.ctx p).streams = [] → e.major = 0x31 → e.fn = 5 → (∃ m, e.dst = .g m ∨ e.dst = .win m) →
       ∃ t v, exec (.vectorCycle b r) s = .next t
         ∧ (t.ctx p).vres = (s.ctx p).vres ++ [v] ∧ v.id = e.id ∧ v.due = s.cycle + 6 ∧ v.dst = e.dst
         ∧ v.val.truncate 64 = vGeneral e.t (vElem ((s.ctx p).vreg e.a).val w (e.y.toNat % (256 / w))))
  ∧ (∀ (s : State) (b r k : Nat) (x : VResult),
       let p : Pos := ⟨b, r, k⟩
       (s.ctx p).vres.find? (fun x => decide (x.due ≤ s.cycle)) = some x → x.last = true → (∃ m, x.dst = .g m ∨ x.dst = .win m) →
       (s.ctx p).cellAt x.dst = { (s.ctx p).cellAt x.dst with full := false, src := x.id } →
       ∃ t, exec (.vectorResultWrite b r k) s = .next t
         ∧ (t.ctx p).cellAt x.dst = { val := x.val.truncate 64, poison := x.poison }
         ∧ (∀ d, d ≠ x.dst → (t.ctx p).cellAt d = (s.ctx p).cellAt d)
         ∧ (t.ctx p).vres = (s.ctx p).vres.erase x)
  ∧ (∀ (s : State) (b r k n : Nat) (x : VResult),
       (s.ctx ⟨b, r, k⟩).vres.find? (fun x => decide (x.due ≤ s.cycle)) = some x → x.dst = .v n → x.last = true →
       ((s.ctx ⟨b, r, k⟩).vreg n).full = false → ((s.ctx ⟨b, r, k⟩).vreg n).src = x.id →
       ∃ t, exec (.vectorResultWrite b r k) s = .next t
         ∧ (t.ctx ⟨b, r, k⟩).vreg n = { val := x.val, poison := x.poison }
         ∧ (t.ctx ⟨b, r, k⟩).vres = (s.ctx ⟨b, r, k⟩).vres.erase x)

/-- R251, R252: a vector load or store sends one access for each selected element; where an element's address fails a
check, the lowest such element gives the trap. A load without .m clears the old poison of its register, and one with .m
keeps it (R245). -/
def Obligations.VectorMemoryIssue : Prop :=
  ∀ (s : State) (d v : BitVec 4) (a b : BitVec 5) (m : BitVec 1) (z : BitVec 2) (l : BitVec 4),
    s.plain → s.clean a → s.clean b → (s.me.vreg v.toNat).full = true → (s.me.vreg v.toNat).poison = false →
    s.me.vseq = [] → s.me.vres = [] → (s.me.vreg d.toNat).full = true → s.cur.k = 15 ∨ 0 < s.myRill.replayRoom →
    ∀ x ∈ vectorAccesses s d v a b m z l, (∀ n ∈ x.2.2.1, s.me.slot n = none) →
      let e := 2 ^ z.toNat
      let els := s.selected (m == 1) (32 / e)
      let accs := els.map fun i => s.elementAccess x.2.1 d.toNat e i x.2.2.2.1 (x.2.2.2.2 i)
      (els = [] → exec x.1 s = .next s.advance)
      ∧ (els ≠ [] → (∀ i ∈ els, addressFault (x.2.2.2.2 i) e false true = none) → ∀ s1 bs, s.passesAll accs s1 bs →
          exec x.1 s = .next (s.afterIssueAll s1 (if x.2.1 then [.v d.toNat] else []) l.toNat bs fun c =>
            if x.2.1 && m == 0 then c.setVreg d.toNat { c.vreg d.toNat with poison := false } else c))
      ∧ (∀ c ea, els.findSome? (fun i => (addressFault (x.2.2.2.2 i) e false true).map fun c => (c, x.2.2.2.2 i)) = some (c, ea) →
          exec x.1 s = .next (s.trapAs c ea s.ulen s.upc (!x.2.1)))

/-- R197, R202 to R205, R215, R217: the stream instructions. SBIND_IN and SBIND_OUT check their words in order and
bind a slot, whose counter rises; SUNBIND frees a drained slot and clears its register; SDRAIN ends once a slot has
drained; SSTAT reads a slot; SRES, in context 15 only, restarts or cancels a stopped slot. R194, R199, R200, R214:
one step of the stream engine on the last element of an entry, in local store: an input slot receives the element's
bytes at its place in the entry (R177: those that a store of the thread has replaced may still be read where no release
orders it before the slot), an output slot's element is stored, and a failed check stops the slot and tells
context 15. That the event is one step, with these arguments, is the model's choice (log entries 6 and 8). -/
def Obligations.StreamResults : Prop :=
  (∀ (s : State) (v : BitVec 2) (a b d : BitVec 5) (o c : BitVec 3) (l : BitVec 4) (xb : BitVec 1), s.plain → s.me.vseq = [] →
     (∀ ws, s.ready b → (s.me.oxBlock o.toNat 4).all (fun x => x.full && !x.poison) = true →
       ws = (s.me.oxBlock o.toNat 4).map (fun x => x.val) →
       ∀ z ∈ [((.sbindIn xb v b o c l : Instr), true, xb == 1), (.sbindOut v b o c l, false, false)],
         (s.bad b = true → exec z.1 s = .next (s.trapTo 0x0C 0x8000000000000300))
         ∧ (s.bad b = false →
             let fault := bindFault (s.me.streams.find v.toNat).isSome (12 + v.toNat) o.toNat (s.val b) ws
             (∀ cause val, fault = some (cause, val) → exec z.1 s = .next (s.trapTo cause (w64 val)))
             ∧ (fault = none → s.myRill.cc.get 0 c.toNat < 0xFFFF →
                 let x : Stream :=
                   { input := z.2.1, base := ws.getD 0 0, w1 := ws.getD 1 0, w2 := ws.getD 2 0, w3 := ws.getD 3 0
                     ctl := s.val b, cc := c.toNat, xp := z.2.2, seq := s.me.seq, after := s.wideRelease s.cur
                     start := field (s.val b) 63 32 }
                 exec z.1 s = .next (((s.modMe fun t => { t with streams := t.streams.put v.toNat x }).raiseCc
                   s.cur.b s.cur.r c.toNat).advance))))
     ∧ (s.me.streams.find v.toNat = none → exec (.sunbind v) s = .next s.advance ∧ exec (.sdrain v) s = .next s.advance
         ∧ exec (.sstat v d) s = .next (s.put d 0 false))
     ∧ (∀ x, s.me.streams.find v.toNat = some x → x.input = true ∨ x.fifo = [] →
         exec (.sdrain v) s = .next s.advance
         ∧ ∃ t, exec (.sunbind v) s = .next t ∧ t.me.streams = s.me.streams.drop v.toNat ∧ t.me.vreg (12 + v.toNat) = {}
             ∧ t.myRill.cc.get 0 x.cc = s.myRill.cc.get 0 x.cc - 1 ∧ t.me.pc = s.nextPc)
     ∧ (∀ x, s.me.streams.find v.toNat = some x → x.fifo.length ≤ 8 →
         ∃ w, exec (.sstat v d) s = .next (s.put d w false) ∧ bit w 0 = true ∧ bit w 1 = !x.input ∧ bit w 2 = x.flt
           ∧ bit w 3 = x.ended ∧ bit w 4 = x.canc ∧ field w 63 16 = x.pos % 2 ^ 48
           ∧ field w 15 8 = (if x.input then (x.fifo.filter x.ready).length else x.fifo.length))
     ∧ (s.cur.k < 15 → exec (.sres a b) s = .next (s.trapTo 0x05 s.uw))
     ∧ (s.cur.k = 15 → s.clean a → s.clean b → ∀ x n, field (s.val a) 20 16 = 12 + n → n < 4 →
         let p : Pos := { s.cur with k := field (s.val a) 3 0 }
         (s.ctx p).streams.find n = some x →
         (x.flt = false → exec (.sres a b) s = .next s.advance)
         ∧ (x.flt = true → s.val b = 0 → exec (.sres a b) s
             = .next ((s.modCtx p fun y => { y with streams := y.streams.put n { x with flt := false } }).advance))
         ∧ (x.flt = true → s.val b = 1 → ∃ t, exec (.sres a b) s = .next t
             ∧ ∃ y, (t.ctx p).streams.find n = some y ∧ y.canc = true ∧ y.flt = false ∧ (x.input = false → y.fifo = []))))
  ∧ (∀ (s : State) (b r n : Nat) (p : Pos) (x : Stream) (e : SEntry) (rest : List SEntry) (j : Nat),
       let ea := x.addr (e.first + j)
       let place := localPlace p.b ea
       let w := 8 * x.esize
       (s.ctx p).streams.find n = some x → p.b = b → p.r = r → b < 512 → bit ea 55 = true →
       (s.nextSlot b r s.slotWorks = some (p, n, x) → x.input = true → x.fifo = rest ++ [e] → (∀ y ∈ rest, x.ready y = true) → e.done = j →
         j + 1 = x.lanes → e.first + j < x.total →
         (addressFault ea x.esize false false = none → s.readWaits s.nextId (lineOf place) = false →
           s.lockOf (lineOf place) ≠ 2 →
           let v := s.engineLoad p x.xp x.after x.seq x.seq place x.esize
           (∃ t, exec (.streamFetch b r) s = .next t ∧ SameBytes s t
             ∧ ∃ y z, (t.ctx p).streams.find n = some y ∧ y.fifo = rest ++ [z] ∧ z.done = x.lanes
                 ∧ z.val = e.val ||| BitVec.ofNat 256 (v.1 * 2 ^ (w * j)) ∧ z.poison = (e.poison || v.2))
           ∧ (x.xp = true ∨ (∀ o ∈ (s.ctx p).older, o.word ≠ wordOf place ∨ o.seq < x.after) →
               v = (s.mem.read place x.esize, s.mem.poisoned place)))
         ∧ (∀ c, addressFault ea x.esize false false = some c →
             ∃ t, exec (.streamFetch b r) s = .next t ∧ ∃ y, (t.ctx p).streams.find n = some y ∧ y.flt = true))
       ∧ (s.nextSlot b r s.slotWorks = some (p, n, x) → x.input = false → x.fifo = e :: rest → x.toStore e = [j] →
           addressFault ea x.esize false false = none → s.ownedLine (lineOf place) (some e.id) = false →
           s.lockOf (lineOf place) = 0 → s.requests = [] → s.earlierOn p e.seq place x.esize ea = false →
           (s.fanouts.any fun f => f.line == lineOf place) = false →
           (∀ i < x.esize, s.mem.isLost (place + i) = false) →
           ∃ t, exec (.streamStore b r) s = .next t
             ∧ t.mem.read place x.esize = e.val.toNat / 2 ^ (w * j) % 2 ^ w
             ∧ (∀ y, y < place ∨ place + x.esize ≤ y → t.mem.byte y = s.mem.byte y)
             ∧ ∃ y, (t.ctx p).streams.find n = some y ∧ y.fifo = rest))

/-- R209, R211, R215, R217: COPY, COPYG and COPYF check their words, and are accepted into the lowest free entry
with their token empty and their counter raised; a finished command fills its token and lowers the counter; CRES, in
context 15 only, restarts or cancels a stopped command. R195, R208, R210, R213: one step of the copy engine for a
COPYF of one byte left, in local store: the byte of the fill word that its address selects is stored, and no other
byte changes. That the event is one step, with these arguments, is the model's choice (log entries 6 and 8). -/
def Obligations.CopyResults : Prop :=
  ((∀ (s : State) (x : BitVec 1) (t v : BitVec 5) (o c : BitVec 3) (l : BitVec 4) (entry : Nat) (ws : List Word),
      s.plain → s.ready v → (s.braid s.cur.b).freeCopy = some entry → s.myRill.cc.get 0 c.toNat < 0xFFFF →
      ∀ z ∈ [((.copy x t o c l : Instr), 0, 4, x == 1), (.copyg x t o c l, 1, 4, x == 1), (.copyf t v o c l, 2, 2, false)],
        (s.me.oxBlock o.toNat z.2.2.1).all (fun y => y.full && !y.poison) = true →
        ws = (s.me.oxBlock o.toNat z.2.2.1).map (fun y => y.val) →
        (∀ i, copyFault z.2.1 ws = some i → exec z.1 s = .next (s.trapTo 0x1A (w64 (0x8000000000000000 + o.toNat + i))))
        ∧ (copyFault z.2.1 ws = none →
            ∃ u q, exec z.1 s = .next u ∧ (u.braid s.cur.b).copies = (s.braid s.cur.b).copies ++ [q]
              ∧ q.entry = entry ∧ q.op = z.2.1 ∧ q.phase = 0 ∧ q.rill = s.cur.r ∧ q.ctx = s.cur.k ∧ q.xp = z.2.2.2
              ∧ q.o0 = ws.getD 0 0 ∧ q.o1 = ws.getD 1 0 ∧ q.o2 = ws.getD 2 0 ∧ q.o3 = ws.getD 3 0 ∧ q.cc = c.toNat
              ∧ (z.2.1 = 2 → q.fill = s.val v ∧ q.fillPoison = s.bad v)
              ∧ q.token = s.me.dest t ∧ (t ≠ 0 → (u.me.reg t).full = false)
              ∧ u.myRill.cc.get 0 c.toNat = s.myRill.cc.get 0 c.toNat + 1 ∧ u.me.pc = s.nextPc))
   ∧ (∀ (s : State) (b n : Nat) (q : CopyCmd),
        (s.braid b).copies.find? (fun x => x.entry == n && (x.phase == 3 || (x.phase == 1 && decide (x.total ≤ x.done)))) = some q →
        ∃ t, exec (.copyComplete b n) s = .next t ∧ q.id ∉ (t.braid b).copies.map CopyCmd.id
          ∧ (t.rill b q.rill).cc.get 0 q.cc = (s.rill b q.rill).cc.get 0 q.cc - 1
          ∧ (t.ctx ⟨b, q.rill, q.ctx⟩).cellAt q.token
              = ((s.ctx ⟨b, q.rill, q.ctx⟩).fill q.token q.id (w64 (q.done + if q.cancelled then 2 ^ 63 else 0)) false).cellAt
                  q.token)
   ∧ (∀ (s : State) (a b : BitVec 5), s.plain →
        (s.cur.k < 15 → exec (.cres a b) s = .next (s.trapTo 0x05 s.uw))
        ∧ (s.cur.k = 15 → s.clean a → s.clean b → ∀ q,
            (s.braid s.cur.b).copies.find? (fun q => q.phase == 2 && q.entry == field (s.val a) 20 16 && q.rill == s.cur.r
              && q.ctx == field (s.val a) 3 0) = some q →
            (s.val b = 0 → exec (.cres a b) s = .next (s.setCopy s.cur.b { q with phase := 1 }).advance)
            ∧ (s.val b = 1 → exec (.cres a b) s
              = .next ((s.dropGate q.id).setCopy s.cur.b { q with phase := 3, cancelled := true }).advance))))
  ∧ (∀ (s : State) (b : Nat) (q : CopyCmd),
       let p : Pos := ⟨b, q.rill, q.ctx⟩
       let ea := q.dst q.done
       let place := localPlace b ea
       b < 512 → (s.braid b).copies = [q] → q.entry < 32 → q.op = 2 → q.phase = 1 → q.total = q.done + 1 →
       s.doneBefore p (if q.xp then q.seq else q.after) AccKind.writes = true → bit ea 55 = true → addressFault ea 1 false false = none → s.ownedLine (lineOf place) (some q.id) = false →
       s.lockOf (lineOf place) = 0 → s.earlierOn p q.seq place 1 ea = false → s.requests = [] → s.mem.isLost place = false →
       (s.fanouts.any fun f => f.line == lineOf place) = false →
       ∃ t, exec (.copyEngineStep b) s = .next t
         ∧ t.mem.byte place = BitVec.ofNat 8 (q.fill.toNat / 2 ^ (8 * (ea.toNat % 8)) % 256)
         ∧ (∀ y, y ≠ place → t.mem.byte y = s.mem.byte y)
         ∧ (∃ ws, (t.braid b).copies = [{ q with done := q.done + 1, phase := 3, parts := ws }])
         ∧ (t.braid b).copyNext = (q.entry + 1) % 32)

/-- R262 to R264: a matrix command that passes the issue checks enters the queue of its rill, raises its counter and
the OUT of its rill's tiles that it names, and takes the armed team; one that does not traps MATRIX with the code.
Which fields are judged for alignment, and the space of scale codes, are the model's reading (log entries 42 to 45). -/
def Obligations.MatrixIssue : Prop :=
  ∀ (s : State) (x : BitVec 1) (a b : BitVec 5) (o c : BitVec 3) (l : BitVec 4) (ws : List Word) (e : Nat),
    s.plain → s.clean a → s.clean b → (s.braid s.cur.b).mxEntry s.cur.r = some e → s.myRill.cc.get 0 c.toNat < 0xFFFF →
    ∀ z ∈ matrixForms x a b o c l,
      (s.me.oxBlock o.toNat z.2.2.2.1).all (fun y => y.full && !y.poison) = true →
      ws = (s.me.oxBlock o.toNat z.2.2.2.1).map (fun y => y.val) →
      let q := { s.mxCommand z.2.1 (s.val z.2.2.1) (s.val b) ws c z.2.2.2.2 with after := s.wideRelease s.cur }
      (s.mxIssueCode q ≠ 0 → exec z.1 s = .next (s.trapTo 0x18 (w64 (0x8000000000000000 + s.mxIssueCode q))))
      ∧ (s.mxIssueCode q = 0 →
          let mine := q.named.filter fun t => ((s.braid s.cur.b).tile t).owner == some s.cur.r
          ∃ u, exec z.1 s = .next u
            ∧ (u.braid s.cur.b).mx = (s.braid s.cur.b).mx ++ [{ q with id := s.nextId, entry := e, tiles := mine }]
            ∧ (∀ t, ((u.braid s.cur.b).tile t).out = ((s.braid s.cur.b).tile t).out + if mine.contains t then 1 else 0)
            ∧ u.myRill.cc.get 0 c.toNat = s.myRill.cc.get 0 c.toNat + 1 ∧ u.me.team = none ∧ u.me.pc = s.nextPc)

/-- R281 to R283: MXQUOTA_MV moves tiles to a rill, MXQUOTA_WT sets a weight, MXTEAM arms a team, and MXRES restarts
or cancels a stopped command; the second and the last are for context 15, MXTEAM is not. PRIVILEGE for MXTEAM in
context 15 is the model's choice (log entry 40). -/
def Obligations.MatrixControl : Prop :=
  ∀ (s : State) (a b : BitVec 5), s.plain → s.clean a → s.clean b →
    let x := s.val a
    let y := s.val b
    let br := s.braid s.cur.b
    let may (t : Nat) : Prop := (br.tile t).cohort.isSome = true ∧ (s.cur.k = 15 ∨ (br.tile t).cohort = s.me.cohort)
    (field y 63 3 = 0 → (∀ t < 64, bit x t = true → may t) →
      ∃ u, exec (.mxquotaMv a b) s = .next u ∧ u.me.pc = s.nextPc ∧ ∀ t < 64, (u.braid s.cur.b).tile t =
        if bit x t then
          if (br.tile t).owner = some (field y 2 0) then { br.tile t with pending := none }
          else if (br.tile t).out = 0 then { br.tile t with owner := some (field y 2 0), pending := none }
          else { br.tile t with pending := some (field y 2 0) }
        else br.tile t)
    ∧ (field y 63 3 ≠ 0 → exec (.mxquotaMv a b) s = .next (s.trapTo 0x18 0x8000000000000040))
    ∧ (field y 63 3 = 0 → ¬ (∀ t < 64, bit x t = true → may t) →
        exec (.mxquotaMv a b) s = .next (s.trapTo 0x18 0x8000000000000041))
    ∧ (s.cur.k < 15 → exec (.mxquotaWt a b) s = .next (s.trapTo 0x05 s.uw) ∧ exec (.mxres a b) s = .next (s.trapTo 0x05 s.uw))
    ∧ (s.cur.k = 15 → field y 63 3 = 0 → 1 ≤ x.toNat → x.toNat ≤ 16 →
        exec (.mxquotaWt a b) s = .next ((s.setRillSr s.cur.b (field y 2 0) 0x121
          (setField (s.rillSr s.cur.b (field y 2 0) 0x121) 12 8 x.toNat)).advance))
    ∧ (s.cur.k = 15 → exec (.mxteam a) s = .next (s.trapTo 0x05 s.uw))
    ∧ (s.cur.k < 15 →
        (field x 15 8 ≠ 0 ∨ field x 63 32 ≠ 0 → exec (.mxteam a) s = .next (s.trapTo 0x18 0x8000000000000040))
        ∧ (field x 15 8 = 0 → field x 63 32 = 0 →
            (hasBit (field x 7 0) s.cur.r = true → 2 ≤ countOnes 8 (field x 7 0) →
              exec (.mxteam a) s = .next ((s.modMe fun z => { z with team := some x }).advance))
            ∧ (hasBit (field x 7 0) s.cur.r = false ∨ countOnes 8 (field x 7 0) < 2 →
              exec (.mxteam a) s = .next (s.trapTo 0x18 0x8000000000000047))))
    ∧ (s.cur.k = 15 → ∀ q, br.mx.find? (fun q => q.rill == s.cur.r && q.ctx == field x 3 0 && q.entry == field x 20 16
          && (q.phase == 2 || q.waits)) = some q →
        (y = 0 → q.phase = 2 → exec (.mxres a b) s = .next (s.setMx s.cur.b { q with phase := 1 }).advance)
        ∧ (y = 1 → ∃ u, exec (.mxres a b) s = .next u ∧ q.id ∉ (u.braid s.cur.b).mx.map MxCmd.id ∧ u.me.pc = s.nextPc))

/-- R263, R266, R268, R271, R274, R275, R279: the arbiter starts the one command that can start and takes a credit:
MXSWAP exchanges the banks of its slot and MXCLR clears its tiles at once. A command whose time has passed leaves
its queue and lowers its counter; one whose access fails stops there and tells context 15; a transfer of MXROT
carries a bank north. That a command works on memory when it completes is the model's reading (log entry 41), and
that the event is one step its choice (log entries 6 and 8). -/
def Obligations.MatrixEvents : Prop :=
  (∀ (s : State) (b r : Nat) (q : MxCmd), r < 8 →
     (s.braid b).mxHead r = some q → ((List.range 8).filter fun i => ((s.braid b).mxHead i).any (s.canStart b)) = [r] →
     (s.braid b).credits.get 0 r ≠ 0 → q.team = none →
     (q.op = 3 → ∃ t, exec (.matrixArbitrate b) s = .next t
       ∧ ((t.braid b).slot q.slot).active = ((s.braid b).slot q.slot).shadow
       ∧ ((t.braid b).slot q.slot).shadow = ((s.braid b).slot q.slot).active
       ∧ (t.braid b).credits.get 0 r = (s.braid b).credits.get 0 r - 1 ∧ (t.braid b).arbNext = (r + 1) % 8)
     ∧ (q.op = 4 → ∃ t, exec (.matrixArbitrate b) s = .next t
       ∧ (∀ n ∈ q.named, ((t.braid b).tile n).els = []) ∧ (∀ n, n ∉ q.named → (t.braid b).tile n = (s.braid b).tile n)
       ∧ (t.braid b).credits.get 0 r = (s.braid b).credits.get 0 r - 1))
  ∧ (∀ (s : State) (b n : Nat) (q : MxCmd),
       (s.braid b).mx.find? (fun q => q.id == n && q.phase == 1 && q.lead == 0 && q.links.isEmpty) = some q → q.due ≤ s.cycle →
       q.xp = false → q.op = 3 ∨ q.op = 4 ∨ q.op = 7 → q.code = 0 → (∀ z ∈ (s.braid b).mx, z.lead = n → z.id = n) →
       ∃ t, exec (.matrixCommandComplete b n) s = .next t ∧ n ∉ (t.braid b).mx.map MxCmd.id
         ∧ (t.rill b q.rill).cc.get 0 q.cc = (s.rill b q.rill).cc.get 0 q.cc - 1)
  ∧ (∀ (s : State) (b n c : Nat) (q : MxCmd),
       (s.braid b).mx.find? (fun q => q.id == n && q.phase == 1 && q.lead == 0) = some q → q.op = 5 → q.xp = false →
       s.doneBefore ⟨b, q.rill, q.ctx⟩ q.after AccKind.writes = true →
       q.done < q.rows * q.columns → q.tileBytes ≠ 0 → addressFault (q.elementAddr q.done) 1 false false = some c →
       exec (.matrixAccessStop b n) s
         = .next ((s.setMx b { q with phase := 2 }).mxEvent b q c (q.elementAddr q.done) false))
  ∧ (∀ (s : State) (b c w : Nat) (q r : MxCmd), (s.braid b).rotOf w = some q → (s.braid c).rotOf w = some r → b ≠ c →
       torusNeighbour b 3 q.o1 = c → torusNeighbour c 1 r.o1 = b → 3 ∈ q.links → 1 ∈ r.links →
       max q.began r.began + 160 ≤ s.cycle → (∀ x ∈ s.badTags, x.tag = w → x.braid ≠ b ∧ x.braid ≠ c) →
       ∃ t, exec (.mxrotTransfer b 1 w) s = .next t ∧ ((t.braid c).slot r.slot).shadow = q.bank
         ∧ (t.braid b).mx = (s.braid b).mx.map (fun z => if z.id == q.id then { q with links := q.links.filter (· != 3) } else z)
         ∧ (t.braid c).mx = (s.braid c).mx.map (fun z => if z.id == r.id then { r with links := r.links.filter (· != 1) } else z))

/-- R313, R314, R321, R323, R326, R331: TBEGIN starts a transaction with its two logs empty, nests in one, or takes
its fallback once the retry limit is reached; TABORT aborts; TSTAT reads TXSTAT; TXCHK aborts when a logged value
has changed; TXLD reads memory without logging; TEND closes a nested level, ends a transaction without logged lines
at once, and otherwise waits for its commit. That accesses act at once is the model's reading (log entry 15). -/
def Obligations.TxResults : Prop :=
  ∀ (s : State) (p : BitVec 12) (q : BitVec 3) (d b : BitVec 5) (ty : BitVec 3) (c : BitVec 8),
    let tr := s.sr 0x052
    let label := s.ipc + 2 * p.signExtend 64
    (s.plain → field tr 15 0 ≤ field tr 47 32 →
      (goodTarget label → exec (.tbegin p) s = .next ((s.setSr s.cur 0x052 (setField tr 47 32 0)).jump label))
      ∧ (bit label 0 = true → exec (.tbegin p) s = .next (s.trapTo 0x06 label))
      ∧ (bit label 0 = false → field label 63 56 ≠ 0 → exec (.tbegin p) s = .next (s.trapTo 0x09 label))
      ∧ (bit label 0 = false → field label 63 56 = 0 → bit label 55 = true → exec (.tbegin p) s = .next (s.trapTo 0x0A label)))
    ∧ (s.plain → field tr 47 32 < field tr 15 0 → s.quiet s.cur = true →
        ∃ t x, exec (.tbegin p) s = .next t ∧ t.txDepth s.cur = 1 ∧ bit (t.srAt s.cur 0x050) 8 = false ∧ t.me.tx = some x
          ∧ x.pc = s.upc ∧ x.label = s.ipc + 2 * p.signExtend 64 ∧ x.reads = [] ∧ x.writes = [] ∧ x.commit = 0
          ∧ t.me.pc = s.nextPc ∧ SameBytes s t)
    ∧ (s.inTx = true → s.txDepth s.cur < 7 → exec (.tbegin p) s
        = .next ((s.setSr s.cur 0x050 (setField (s.sr 0x050) 2 0 (s.txDepth s.cur + 1))).advance))
    ∧ (s.txDepth s.cur = 7 → exec (.tbegin p) s = .next (s.txAbort 6 0x3A))
    ∧ (s.plain → exec (.tabort c) s = .next s.advance)
    ∧ (s.inTx = true → exec (.tabort c) s = .next (s.txAbort 10 c.toNat))
    ∧ exec (.tstat d) s = .next (s.put d (s.sr 0x050) false)
    ∧ (s.me.tx = none → exec .txchk s = .next s.advance ∧ exec (.tend q) s = .next (s.putQ q false false))
    ∧ (∀ x, s.me.tx = some x → s.irrevocable = false → (∀ e ∈ x.reads, s.lockOf (e.word / 8) ≠ 2) →
        (s.readsValid x = true → ∃ t, exec .txchk s = .next t ∧ SameBytes s t ∧ t.me.pc = s.nextPc ∧ t.me.tx = some x)
        ∧ (s.readsValid x = false →
            exec .txchk s = .next ((x.reads.foldl (fun z e => z.recallWritable (e.word / 8)) s).txAbort 1 0)))
    ∧ (∀ x ea, s.me.tx = some x → s.clean b → ea = s.val b → bit ea 55 = true → s.cur.b < 512 →
        addressFault ea (2 ^ (ty.toNat % 4)) false true = none →
        let place := localPlace s.cur.b ea
        s.ownedLine (lineOf place) none = false → x.writeOf (wordOf place) = none → s.cur.k = 15 ∨ 0 < s.myRill.replayRoom →
        exec (.txld d b ty) s = .next (s.put d (extend (decide (4 ≤ ty.toNat)) (2 ^ (ty.toNat % 4))
          (s.mem.read place (2 ^ (ty.toNat % 4)))) (s.mem.poisoned place)))
    ∧ (∀ x, s.me.tx = some x → 2 ≤ s.txDepth s.cur →
        exec (.tend q) s = .next ((s.setSr s.cur 0x050 (setField (s.sr 0x050) 2 0 (s.txDepth s.cur - 1))).putQ q true false))
    ∧ (∀ x, s.me.tx = some x → s.txDepth s.cur = 1 → s.releases = true →
        (x.logLines = [] → exec (.tend q) s = .next ((s.endTx s.cur q.toNat).advance)
          ∧ (s.endTx s.cur q.toNat).me.tx = none ∧ (s.endTx s.cur q.toNat).txDepth s.cur = 0
          ∧ ((s.endTx s.cur q.toNat).me.pred q).val = true)
        ∧ (x.logLines ≠ [] → s.irrevocable = false → ∃ t y, exec (.tend q) s = .next t ∧ t.me.tx = some y ∧ y.commit = 1
            ∧ y.writes = x.writes ∧ t.me.wait = some .commit ∧ SameBytes s t))

/-- R331 to R340, R326: events of transactions. A slice's reply is counted, its part of the write log is stored
whole (R336: of a spilled entry the value spilled or the one that its place in the spill area now holds), a commit that waits too long aborts with CONFLICT-LOCK; the token goes to one request, a lock to the
transaction that waits; a deferred stop aborts after its time. TIRREV waits for the token and begins once it holds
it. That the event is one step, with these arguments, is the model's choice (log entries 6 and 8). -/
def Obligations.TxEvents : Prop :=
  ∀ (s : State) (b r k sl : Nat) (t : Tx),
    let p : Pos := ⟨b, r, k⟩
    ((s.ctx p).tx = some t → t.commit = 1 → sl ∈ t.awaiting → (t.awaiting.filter fun x => x != sl) ≠ [] →
      (∀ s1, lockLines p (s.linesAt b t sl) s = (s1, 0) →
        let mine := { t with reads := t.reads.filter fun e => (s.linesAt b t sl).contains (e.word / 8) }
        ∃ u, exec (.txCommitLockReply b r k sl) s = .next u ∧ SameBytes s u
          ∧ (u.ctx p).tx = some { t with awaiting := t.awaiting.filter fun x => x != sl
                                         verdict := max t.verdict (if s.readsValid mine then 0 else 1) })
      ∧ (∀ s1, lockLines p (s.linesAt b t sl) s = (s1, 2) →
          ∃ u, exec (.txCommitLockReply b r k sl) s = .next u
            ∧ (u.ctx p).tx = some { t with awaiting := t.awaiting.filter fun x => x != sl, verdict := max t.verdict 2 }))
    ∧ ((s.ctx p).tx = some t → t.commit = 2 → sl ∈ t.awaiting → (t.awaiting.filter fun x => x != sl) ≠ [] →
        ∀ e, ((t.writes ++ t.spilled).filter fun e => s.homeSlice (s.basinOf b) (8 * e.word) == sl) = [e] → e.mask = 255 →
        t.spilled = [] ∨ (t.writes = [] ∧ t.spilled = [e]) →
        s.sharersOf (e.word / 8) = [] → (s.fanouts.any fun f => f.line == e.word / 8) = false →
        (∀ i < 8, s.mem.isLost (8 * e.word + i) = false) →
        ∃ u, exec (.txCommitApplied b r k sl) s = .next u
          ∧ (t.spilled = [] → u.mem.read (8 * e.word) 8 = e.val.toNat ∧ u.mem.poisoned (8 * e.word) = e.poison)
          ∧ (t.spilled = [e] → u.mem.read (8 * e.word) 8 = e.val.toNat
              ∨ u.mem.read (8 * e.word) 8 = s.mem.read (localPlace b t.spill + 8) 8)
          ∧ (∀ x, x < 8 * e.word ∨ 8 * e.word + 8 ≤ x → u.mem.byte x = s.mem.byte x)
          ∧ (u.ctx p).tx = some { t with awaiting := t.awaiting.filter fun x => x != sl })
    ∧ ((s.ctx p).tx = some t → t.commit = 1 → t.began + 4950 ≤ s.cycle → s.groupOf p = none → s.requests = [] →
        ∃ u, exec (.txCommitDeadline b r k) s = .next u ∧ (u.ctx p).tx = none ∧ field (u.srAt p 0x050) 27 24 = 2
          ∧ u.txDepth p = 0 ∧ SameBytes s u)
    ∧ (∀ v, ∃ u, exec (.txstatAbortreqWrite b r k v) s = .next u
        ∧ bit (u.srAt p 0x050) 31 = (bit v 31 && (s.ctx p).tx.isSome) ∧ field (u.srAt p 0x050) 30 0 = field (s.srAt p 0x050) 30 0)
    ∧ (∀ bs h, (s.basin bs).token = { holder := none, pending := [h] } →
        ∃ u, exec (.weirTokenGrant bs) s = .next u ∧ (u.basin bs).token = { holder := some h.2, pending := [] }
          ∧ ((s.ctx h.2).wait = some .token → (u.ctx h.2).wait = none))
    ∧ (∀ l since, (s.ctx p).wait = some (.irrLock l since) → (s.ctx p).tx = some t → s.locks.find l = none →
        s.ownedLine l none = false → (∀ f ∈ s.fanouts, f.line ≠ l) → s.lockTurn p l = true →
        ∃ u, exec (.irrevocableLockGrant b r k) s = .next u ∧ u.lockOf l = 3 ∧ (u.ctx p).wait = none)
    ∧ ((s.ctx p).tx = some t → t.commit = 0 → bit (s.srAt p 0x050) 8 = true → (s.ctx p).stopBy ≠ 0 →
        (s.ctx p).stopBy ≤ s.cycle → s.groupOf p = none → s.requests = [] →
        ∃ u, exec (.irrevocablePreemptTimeout b r k) s = .next u ∧ (u.ctx p).tx = none ∧ (u.ctx p).run = .stopping
          ∧ field (u.srAt p 0x050) 27 24 = 8)
    ∧ (∀ (o : BitVec 5) (off : BitVec 12), s.unfused = true → s.plain → s.ready o → s.quiet s.cur = true →
        let x := s.me.reg o
        let n := s.basinOf s.cur.b
        (spillBad s.cur.r x = true → exec (.tirrev o off) s = .next (s.trapTo 0x0A x.val))
        ∧ (spillBad s.cur.r x = false → (s.basin n).token.holder = some s.cur →
            ∃ u y, exec (.tirrev o off) s = .next u ∧ bit (u.srAt s.cur 0x050) 8 = true ∧ u.txDepth s.cur = 1
              ∧ u.me.tx = some y ∧ y.spill = x.val ∧ y.label = s.ipc + 2 * off.signExtend 64 ∧ u.me.pc = s.nextPc)
        ∧ (spillBad s.cur.r x = false → (s.basin n).token.holder ≠ some s.cur →
            (∀ e ∈ (s.basin n).token.pending, e.2 ≠ s.cur) → ∃ u, exec (.tirrev o off) s = .next u ∧ u.me.wait = some .token ∧ u.me.pc = s.upc
              ∧ (u.basin n).token.pending = (s.basin n).token.pending ++ [(s.tid s.cur, s.cur)]))

/-- R353 to R363, R308: work-creation instructions. SPAWN pushes its task, after an increment of its join counter
where it has one; TAKE and SYNCJ set s and their ox block empty; NEST binds a loop nest, ITER takes a ticket for it,
ITNEXT unpacks the next iteration of the current chunk, IXMOV reads an index; LAUNCH and HMSG send what they read.
R355, R357, R358: a deque pops for its own contexts from the bottom, else enters a push at the bottom; a thief takes
from the top; a write of DQSPILL takes effect once nothing is spilled. R413: a push of a braid whose state has moved goes to
the destination's deque, one of a SCRUBBING braid where R294 sends it. The order of NEST's checks is the model's choice (log
entry 167). That the event is one step, with these
arguments, is the model's choice (log entries 6 and 8). -/
def Obligations.WorkResults : Prop :=
  (∀ (s s1 : State) (k : BitVec 3) (n : BitVec 2) (l : BitVec 4) (sx a d : BitVec 5) (a1 : Access), s.plain →
     s.cur.k = 15 ∨ 0 < s.myRill.replayRoom →
     exec (.ixmov n d l) s = .next (s.put d (s.me.ixReg n.toNat).val (s.me.ixReg n.toNat).poison)
     ∧ (∀ ws, (s.me.oxBlock k.toNat 3).all (fun x => x.full && !x.poison) = true →
         ws = (s.me.oxBlock k.toNat 3).map (fun x => x.val) →
         (field (ws.getD 0 0) 5 0 ≠ 0 → exec (.nest k l) s = .next (s.trapTo 0x06 (ws.getD 0 0)))
         ∧ (field (ws.getD 0 0) 5 0 = 0 → bit (ws.getD 0 0) 55 = true → exec (.nest k l) s = .next (s.trapTo 0x0A (ws.getD 0 0)))
         ∧ (field (ws.getD 0 0) 5 0 = 0 → bit (ws.getD 0 0) 55 = false →
             (field (ws.getD 2 0) 63 32 ≠ 0 → exec (.nest k l) s = .next (s.trapTo 0x02 s.uw))
             ∧ (field (ws.getD 2 0) 63 32 = 0 → exec (.nest k l) s = .next ((s.modMe fun c => { c with
                 nest := some { seq := s.me.seq, line := ws.getD 0 0, extents := ws.getD 1 0, parts := ws.getD 2 0 } }).advance))))
     ∧ (s.me.nest = none → exec (.iter sx l) s = .next ((s.modMe fun c => { c with lastIter := c.seq }).put sx 0 false)
         ∧ (s.ticketPending = false → exec (.itnext sx l) s = .next (s.put sx 0 false)))
     ∧ (∀ x, s.me.nest = some x →
         (addressFault x.line 8 false true = none →
           let y : OneAccess := { instr := .iter sx l, dests := [s.me.dest sx]
                                  acc := { id := 0, seq := 0, kind := .ticket, va := x.line, size := 8, data := 1, dst := s.me.dest sx
                                           ext := [x.line, x.extents, x.parts] }
                                  post := fun c => { c with lastIter := s.me.seq } }
           s.passes y.acc s1 a1 → exec y.instr s = .next (s.afterIssue s1 y a1))
         ∧ (s.ticketPending = false → x.current = false ∨ x.size ≤ x.unpacked → exec (.itnext sx l) s = .next (s.put sx 0 false))
         ∧ (s.ticketPending = false → x.current = true → x.unpacked < x.size →
             ∃ t, exec (.itnext sx l) s = .next t ∧ t.me.pc = s.nextPc ∧ t.me.nest = some { x with unpacked := x.unpacked + 1 }
               ∧ (∀ i < 4, t.me.ixReg i = { val := w64 ((x.indices (x.start + x.unpacked)).getD i 0), poison := x.poison })
               ∧ (sx ≠ 0 → t.me.reg sx = { val := 1, poison := x.poison })))
     ∧ (∀ i ∈ [(.take sx k l : Instr), .takeL sx k l], ∃ t, exec i s = .next t ∧ t.me.pc = s.nextPc
         ∧ (∀ j < 4, (t.me.oxReg (k.toNat + j)).full = false) ∧ (sx ≠ 0 → (t.me.reg sx).full = false)
         ∧ t.myRill.takes.map TakeOp.k = s.myRill.takes.map TakeOp.k ++ [s.cur.k])
     ∧ (s.clean a → s.spawnsPending = false → addressFault (s.val a) 8 false true = none →
         let y : OneAccess := { instr := .syncj a sx k l
                                dests := s.me.dest sx :: (List.range 4).map fun i => .ox (k.toNat + i)
                                acc := { id := 0, seq := 0, kind := .joinRead k.toNat, va := s.val a, size := 8, dst := s.me.dest sx } }
         s.passes y.acc s1 a1 → exec y.instr s = .next (s.afterIssue s1 y a1))
     ∧ (∀ ws, (s.me.oxBlock k.toNat 4).all (fun x => x.full && !x.poison) = true →
         ws = (s.me.oxBlock k.toNat 4).map (fun x => x.val) → s.releases = true →
         let dq := s.dequeAt s.cur.b s.cur.r
         s.dqEarlier dq.1 dq.2 s.arrival < s.dqRoom dq.1 dq.2 →
         (ws.getD 3 0 = 0 → ∃ t w, exec (.spawn k l) s = .next t
           ∧ (t.rill dq.1 dq.2).dqWait = (s.rill dq.1 dq.2).dqWait ++ [w] ∧ w.task = ws.map (fun x => (x, false)) ∧ t.me.pc = s.nextPc)
         ∧ (ws.getD 3 0 ≠ 0 → addressFault (ws.getD 3 0) 8 false true = none →
             let y : OneAccess := { instr := .spawn k l, post := fun c => c.openLa l.toNat true
                                    acc := { id := 0, seq := 0, kind := .joinInc, va := ws.getD 3 0, size := 8, data := 1, ext := ws } }
             s.passes y.acc s1 a1 → exec y.instr s = .next (s.afterIssue s1 y a1)))
     ∧ (s.clean a → s.releases = true →
         (addressFault (s.val a) 128 false true = none →
           let y : OneAccess := { instr := .launch a sx l, dests := [s.me.dest sx], la := some l.toNat
                                  acc := { id := 0, seq := 0, kind := .launch, va := s.val a, size := 128, dst := s.me.dest sx
                                           ext := [s.upc, w64 s.ulen] } }
           s.passes y.acc s1 a1 → exec y.instr s = .next (s.afterIssue s1 y a1))
         ∧ (addressFault (s.val a) 64 false true = none →
           let y : OneAccess := { instr := .hmsg d a, dests := [s.me.dest d]
                                  post := fun c => { c with wait := some (.access c.seq) }
                                  acc := { id := 0, seq := 0, kind := .hmsg, va := s.val a, size := 64, dst := s.me.dest d
                                           ext := [s.upc, w64 s.ulen] } }
           s.passes y.acc s1 a1 → exec y.instr s = .next (s.afterIssue s1 y a1))))
  ∧ (∀ (s : State) (b r : Nat),
       let x := s.rill b r
       (∀ t rest task, x.takes = [t] → t.probe = 0 → t.k < 16 → x.deque = rest ++ [task] → x.spilled = 0 →
         ∃ u, exec (.dequeOperation b r) s = .next u ∧ (u.rill b r).deque = rest ∧ (u.rill b r).takes = []
           ∧ (let c := s.ctx ⟨b, r, t.k⟩
              let d := u.ctx ⟨b, r, t.k⟩
              (∀ i < 4, t.s ≠ .ox (t.ox + i)) →
              (c.cellAt t.s = { c.cellAt t.s with full := false, src := t.id } → d.cellAt t.s = { val := if t.kind = 2 then 1 else 0 })
              ∧ ∀ i < 4, c.cellAt (.ox (t.ox + i)) = { c.cellAt (.ox (t.ox + i)) with full := false, src := t.id } →
                  d.cellAt (.ox (t.ox + i)) = { val := (task.getD i (0, false)).1, poison := (task.getD i (0, false)).2 }))
       ∧ (∀ w, x.takes = [] → x.dqWait = [w] → w.src.isSome = true → x.deque.length < 16 → s.probed b r = false →
           (s.braid b).gran.state ≠ .scrubbing →
           ∃ u, exec (.dequeOperation b r) s = .next u ∧ (u.rill b r).deque = x.deque ++ [w.task] ∧ (u.rill b r).dqWait = [])
       ∧ (∀ t task rest, x.takes = [t] → 1 ≤ t.probe → t.probe ≤ 7 → t.k < 16 → r < 8 →
           let v := (r + t.probe) % 8
           s.dequeOf b = b → (s.rill b v).takes = [] → (s.rill b v).spilled = 0 → (s.rill b v).deque = task :: rest →
           s.thieves = [(⟨b, r, t.k⟩, t)] → (s.braid b).gran.state ≠ .scrubbing →
           ∃ u, exec (.stealProbe b r) s = .next u ∧ (u.rill b v).deque = rest ∧ (u.rill b r).takes = []
             ∧ ((∀ i < 4, t.s ≠ .ox (t.ox + i)) →
                 (s.ctx ⟨b, r, t.k⟩).cellAt t.s = { (s.ctx ⟨b, r, t.k⟩).cellAt t.s with full := false, src := t.id } →
                 (u.ctx ⟨b, r, t.k⟩).cellAt t.s = { val := 1 }))
       ∧ ((s.braid b).gran.state ≠ .scrubbing → s.dequeAt b r = (s.dequeOf b, r))
       ∧ (∀ e, (s.braid b).gran.state = .scrubbing → s.lowestRill (s.basinOf b) = some e → s.dequeAt b r = (s.dequeOf e.1, e.2))
       ∧ (∀ v, x.dqSpillNext = some v → x.spilled = 0 →
           ∃ u, exec (.dqspillWrite b r) s = .next u ∧ u.rillSr b r 0x122 = v ∧ (u.rill b r).dqSpillNext = none))

/-- R345 to R352: a record that a queue takes becomes eligible once its dependences hold, which the queue reads again after
a write to their lines, ages, is placed as a cohort whose threads start at its entry, and is complete when its last cohort
has ended. R437: a record for a page to which the VF is not bound gets retry, any other write to a
page is discarded and counted, and what a read of the page's state returns. That the event is one step, with these
arguments, is the model's choice (log entries 6 and 8), as are the class of the counted error and the way to say a write
that is no record (log entry 130). -/
def Obligations.LaunchEvents : Prop :=
  ∀ (s : State) (n : Nat),
    let bs := s.basin n
    (∀ vf q ws, 1 ≤ vf → vf ≤ 1024 → q ≤ 7 → (s.vfs.get {} vf).gran.basin = n →
      (ws.length = 16 → s.pageBound vf q = false ∨ (bs.queues.get {} q).enable = false ∨ bs.contained = true ∨ 256 ≤ bs.held q →
        exec (.submissionWrite vf q ws) s = .next (s.answerOuter (1, false)))
      ∧ (ws.length ≠ 16 → exec (.submissionWrite vf q ws) s = .next (s.discardWrite vf) ∧ (s.discardWrite vf).basins = s.basins
          ∧ ((s.discardWrite vf).vfs.get {} vf).discarded = (s.vfs.get {} vf).discarded + 1
          ∧ (s.discardWrite vf).errlog.length = s.errlog.length + 1))
    ∧ (∀ vf q, s.pageBound vf q = true ↔ vf ≠ 0 ∧ (s.vfs.get {} vf).gran.ownedBy (s.vfs.get {} vf).gran.basin = true
        ∧ ((s.basin (s.vfs.get {} vf).gran.basin).queues.get {} q).vf = vf)
    ∧ (∀ q, bs.held q ≤ 256 → field (bs.pageState q) 8 0 = bs.held q ∧ bit (bs.pageState q) 9 = (bs.queues.get {} q).enable
        ∧ bit (bs.pageState q) 10 = bs.contained)
    ∧ (∀ vf q ws, vf ≤ 1024 → q ≤ 7 → s.pageBound vf q = true → (s.vfs.get {} vf).gran.basin = n → ws.length = 16 →
        bs.contained = false → (bs.queues.get {} q).enable = true → bs.held q < 256 →
        ({ id := 0, queue := q, words := ws } : Record).invalid = false → ws.getD 4 0 = 0 → ws.getD 6 0 = 0 →
        ∃ t, exec (.submissionWrite vf q ws) s = .next t ∧ t.reply = (0, false)
          ∧ ∃ x ∈ (t.basin n).records, x.words = ws ∧ x.queue = q ∧ x.eligible = true ∧ x.since = s.cycle)
    ∧ (∀ x, bs.records = [x] → bs.contained = false → x.eligible = false → x.status = 0 →
        (x.reread = false → exec (.dependenceReread n x.id) s = .next s)
        ∧ (x.reread = true → x.w 4 = 0 → x.w 6 = 0 → ∃ t, exec (.dependenceReread n x.id) s = .next t
            ∧ (t.basin n).records = [{ x with eligible := true, since := s.cycle, deps := [], reread := false, edges := [] }]))
    ∧ (∀ x line, bs.records = [x] → line ∈ x.deps → ((s.wrote line).basin n).records = [{ x with reread := true }])
    ∧ (∀ x, bs.records = [x] → bs.contained = false → x.eligible = true → x.aged = false → x.exhausted = false →
        x.since + x.age * 3300 ≤ s.cycle → s.unplaceable n x = false →
        ∃ t, exec (.recordAged n x.id) s = .next t ∧ (t.basin n).records = [{ x with aged := true }])
    ∧ (∀ die x b f, bs.alive = true → bs.contained = false → bs.records = [x] → x.aged = false → bs.order = [x] →
        1 ≤ x.threads → s.fitBraid die n x = some (b, f) →
        ∃ t, exec (.placementRound die n) s = .next t
          ∧ (t.basin n).records = [{ x with placed := x.placed + 1, running := x.running + 1 }]
          ∧ (let c := t.ctx ⟨b, f.rho % 8, f.rows.getD 0 0⟩
             c.run = .running ∧ c.pc = setField (setField (x.w 0) 63 56 0) 0 0 0 ∧ c.cohort = some s.nextId
              ∧ c.reg 8 = { val := x.w 1 }))
    ∧ (∀ b m c, (s.braid b).cohorts.find m = some c → (∀ t ∈ c.threads, t ∈ c.halted) → c.basin = n →
        (∀ x, bs.records = [x] → x.id = c.record → 2 ≤ x.running → ∃ t, exec (.cohortEnd b m) s = .next t
          ∧ (t.braid b).cohorts.find m = none ∧ (t.basin n).records = [{ x with running := x.running - 1 }])
        ∧ (∀ x, bs.records = [x] → x.id = c.record → x.running = 1 → x.exhausted = true → bs.contained = false →
            x.w 8 = 0 → x.w 10 = 0 → bit (x.w 9) 0 = false →
            ∃ t, exec (.cohortEnd b m) s = .next t ∧ (t.braid b).cohorts.find m = none ∧ (t.basin n).records = []))

/-- R60, R82, R184, R185, R309: IFQ sets the condition of its unit; a line that the fetch stage waits for arrives;
releases of a line that is written back lose their tags; a notification of a missed scope reaches its rill; a write
waits for the acknowledgements of all sharers; a sharer that is lost is fenced. That the event is one step, with
these arguments, is the model's choice (log entries 6 and 8). -/
def Obligations.UnitAndHomeEvents : Prop :=
  ∀ (s : State) (b r k line : Nat),
    (∀ (q : BitVec 3) (m : BitVec 1), s.cleanQ q → exec (.ifq q m) s = .next { s with cond := s.valQ q != (m == 1) })
    ∧ (∀ s1 n, s.groupOf ⟨b, r, k⟩ = none → s.fetch ⟨b, r, k⟩ (s.ctx ⟨b, r, k⟩).pc = (s1, .miss n) →
        n ∈ (s1.rill b r).fetching →
        ∃ t, exec (.instructionFetchMissFill b r k) s = .next t ∧ (t.rill b r).icache.find n = some (s1.homeLine n)
          ∧ n ∉ (t.rill b r).fetching ∧ SameBytes s t)
    ∧ (64 * line < 2 ^ 40 → ∃ t, exec (.hbmWriteback line) s = .next t ∧ SameBytes s t
        ∧ ∀ i < 64, t.mem.tags.find (64 * line + i) = none)
    ∧ (∀ n rl va c sc, s.misses[n]? = some (rl, va, c, sc) → (s.ctx ⟨rl / 8, rl % 8, 15⟩).wait = none →
        (∀ e ∈ (s.rill (rl / 8) (rl % 8)).events, e.cause ≠ 0x23) →
        ∃ t, exec (.scopeMissNotification n) s = .next t ∧ t.misses = s.misses.eraseIdx n
          ∧ ∃ e ∈ (t.rill (rl / 8) (rl % 8)).events, e.cause = 0x23 ∧ e.val = va ∧ e.cls = 4)
    ∧ (∀ f : Fanout, s.fanouts = [f] → f.line = line → b ∈ f.sharers →
        ((s.braid b).cut = false → (∃ c ∈ f.sharers, c ≠ b) →
          exec (.writeUpdateAck b line) s = .next { s with fanouts := [{ f with sharers := f.sharers.filter fun y => y != b }] })
        ∧ ((s.braid b).cut = false → f.sharers = [b] → f.agent = none → f.acc.kind = .store → s.requests = [] →
            (∀ i < f.acc.size, s.mem.isLost (f.acc.pa + i) = false) →
            ∃ t, exec (.writeUpdateAck b line) s = .next t ∧ t.fanouts = []
              ∧ t.mem.read f.acc.pa f.acc.size = f.acc.data.toNat % 2 ^ (8 * f.acc.size)
              ∧ ∀ x, x < f.acc.pa ∨ f.acc.pa + f.acc.size ≤ x → t.mem.byte x = s.mem.byte x)
        ∧ ((s.braid b).cut = true → f.since + 66000 ≤ s.cycle → (∃ c ∈ f.sharers, c ≠ b) →
            ∃ t, exec (.fanoutTimeout b line) s = .next t ∧ (t.braid b).fenced = true ∧ (t.braid b).l1 = []
              ∧ (t.basin (s.basinOf b)).contained = true))
    ∧ exec (.keepaliveLoss b) s = .next (s.modBraid b fun x => { x with cut := true })
    ∧ (∃ t, exec (.keepaliveReturn b) s = .next t ∧ (t.braid b).cut = false ∧ ((s.braid b).cut = true → (t.braid b).l1 = []))

/-- R370 to R373: MFS reads the register that it names; MTS writes the bits that can be written, leaves read-only
registers as they are, and traps PRIVILEGE where a user context names a register of context 15's; with a context
selector both are for context 15, and MTS takes a context that does not run. R300, R326: of TXSTAT a write changes ABORTREQ, of
MONSTAT WAKE; R115, R355, R381: a write of BMODE asks for a switch, one of DQSPILL waits until nothing is spilled, and one of
CTXSTATE sets its enable bits. -/
def Obligations.SystemRegisters : Prop :=
  ∀ (s : State) (d k a y : BitVec 5) (x : BitVec 3) (z : BitVec 4),
    let n := srNumber x y z
    srAssigned n = true →
    (s.srWaits s.cur n = false → exec (.mfs d 0 y x z) s = .next (s.put d (s.readSr s.cur n) false))
    ∧ (srSelectorOk k n = true → k ≠ 0 → s.cur.k < 15 → exec (.mfs d k y x z) s = .next (s.trapTo 0x05 s.uw)
        ∧ (s.plain → exec (.mts k a y x z) s = .next (s.trapTo 0x05 s.uw)))
    ∧ (srSelectorOk k n = true → k ≠ 0 → s.cur.k = 15 → s.clean k →
        let p : Pos := { s.cur with k := field (s.val k) 3 0 }
        s.srWaits p n = false → exec (.mfs d k y x z) s = .next (s.put d (s.readSr p n) false)
          ∧ (s.plain → s.clean a → (p = s.cur ∨ (s.ctx p).run = .stopped ∨ (s.ctx p).run = .empty) →
              exec (.mts k a y x z) s = .next (s.writeSr p n (s.val a)).advance)
          ∧ (s.plain → s.clean a → p ≠ s.cur → (s.ctx p).run = .running →
              exec (.mts k a y x z) s = .next (s.trapTo 0x05 (w64 (0x8000000000000000 + p.k)))))
    ∧ (s.plain → s.clean a → s.srWaits s.cur n = false →
        (srPrivileged n = true → s.cur.k < 15 → exec (.mts 0 a y x z) s = .next (s.trapTo 0x05 s.uw))
        ∧ (srReadOnly n = true → s.cur.k = 15 → exec (.mts 0 a y x z) s = .next s.advance)
        ∧ (srPrivileged n = false ∨ s.cur.k = 15 → srReadOnly n = false → n ∉ [0x050, 0x080, 0x101, 0x122, 0x125] →
            ∃ t, exec (.mts 0 a y x z) s = .next t ∧ t.me.pc = s.nextPc ∧ SameBytes s t
              ∧ t.readSr s.cur n = srMerge n (s.readSr s.cur n) (s.val a)
              ∧ ∀ m, m ≠ n → t.readSr s.cur m = s.readSr s.cur m)
        ∧ (srPrivileged n = false ∨ s.cur.k = 15 → n ∈ [0x050, 0x080, 0x101, 0x122, 0x125] →
            ∃ t, exec (.mts 0 a y x z) s = .next t ∧ t.me.pc = s.nextPc ∧ SameBytes s t
              ∧ (n = 0x050 → bit (t.sr n) 31 = (bit (s.val a) 31 && s.me.tx.isSome) ∧ field (t.sr n) 30 0 = field (s.sr n) 30 0
                  ∧ field (t.sr n) 63 32 = field (s.sr n) 63 32)
              ∧ (n = 0x080 → bit (t.sr n) 9 = bit (s.val a) 9 ∧ field (t.sr n) 8 0 = field (s.sr n) 8 0
                  ∧ field (t.sr n) 63 10 = field (s.sr n) 63 10)
              ∧ (n = 0x101 → (t.braid s.cur.b).shared = bit (s.val a) 0
                  ∧ ((s.braid s.cur.b).shared ≠ bit (s.val a) 0 → (t.braid s.cur.b).busy = true))
              ∧ (n = 0x122 → t.readSr s.cur n = s.readSr s.cur n
                  ∧ t.myRill.dqSpillNext = some (w64 ((s.val a).toNat &&& 0xFFF0003FFE0)))
              ∧ (n = 0x125 → field (t.readSr s.cur n) 46 32 = field (s.val a) 46 32
                  ∧ field (t.readSr s.cur n) 31 0 = field (s.readSr s.cur n) 31 0)))

/-- R374 to R376, R380: a trap of a user context outside a transaction stops it, with the unit's address in XPC, CAUSE and
XVAL as given and the unit's length in XSTAT, and tells context 15 of its rill; a trap of context 15 goes to XVEC with
bit 22 of XSTAT set. Nothing else of the thread changes. -/
def Obligations.TrapEntry : Prop :=
  ∀ (s : State) (cause : Nat) (v : Word), s.plain → s.me.block = none → s.me.vblocks = [] → s.cur.k ≤ 15 → s.ulen < 16 →
    cause < 256 →
    let t := s.trapTo cause v
    (s.cur.k < 15 → (s.ctx ⟨s.cur.b, s.cur.r, 15⟩).wait = none →
      t.me.run = .stopped ∧ t.me.pc = s.upc ∧ t.srAt s.cur 0x010 = s.upc ∧ t.srAt s.cur 0x011 = w64 cause
        ∧ t.srAt s.cur 0x012 = v ∧ field (t.srAt s.cur 0x013) 27 24 = s.ulen ∧ field (t.srAt s.cur 0x013) 3 0 = s.cur.k
        ∧ (∀ n, n ∉ [0x010, 0x011, 0x012, 0x013] → t.srAt s.cur n = s.sr n)
        ∧ (∀ r, t.me.reg r = s.me.reg r) ∧ (∀ q, t.me.pred q = s.me.pred q) ∧ t.me.v = s.me.v ∧ t.me.ox = s.me.ox
        ∧ SameBytes s t
        ∧ ∃ e ∈ (t.rill s.cur.b s.cur.r).events ++ (t.rill s.cur.b s.cur.r).later,
            e.cls = 1 ∧ e.cause = cause ∧ e.val = v ∧ field e.xstat 3 0 = s.cur.k)
    ∧ (s.cur.k = 15 → bit (s.sr 0x013) 22 = false → s.sr 0x09E ≠ 0 →
        OnlyMe s t ∧ t.me.run = s.me.run ∧ t.me.pc = s.sr 0x09E ∧ t.srAt s.cur 0x010 = s.upc
          ∧ t.srAt s.cur 0x011 = w64 cause ∧ t.srAt s.cur 0x012 = v ∧ bit (t.srAt s.cur 0x013) 22 = true
          ∧ (∀ n, n ∉ [0x010, 0x011, 0x012, 0x013] → t.srAt s.cur n = s.sr n) ∧ (∀ r, t.me.reg r = s.me.reg r))
    ∧ (s.cur.k = 15 → bit (s.sr 0x013) 22 = true ∨ s.sr 0x09E = 0 → (t.basin (s.basinOf s.cur.b)).contained = true)

/-- R57, R59, R62, R368: the encodings that no instruction has trap, an executed pool gives the start of its line, and a
privileged instruction of a user context traps PRIVILEGE with the unit's words. -/
def Obligations.RefusedUnits : Prop :=
  ∀ (s : State) (x : BitVec 25) (h : BitVec 10) (d a b : BitVec 5) (m : BitVec 2),
    exec (.illegal x) s = .next (s.trapTo 0x01 s.uw) ∧ exec (.extensionSpace x) s = .next (s.trapTo 0x03 s.uw)
    ∧ exec (.illegalH h) s = .next (s.trapTo 0x01 s.uw)
    ∧ exec (.poolguard h) s = .next (s.trapAs 0x04 (w64 (s.upc.toNat / 64 * 64)) 0 s.upc false)
    ∧ (s.plain → s.cur.k < 15 → ∀ i ∈ [(.eret a : Instr), .eretN a, .evwait d b, .cstart d a b, .cstop a, .csave a b, .crest d a b,
        .replay d a, .replayDrop d a, .tlbinv a b m, .svcall d a b, .brack a b, .cmig a b, .cmigChk a b],
        exec i s = .next (s.trapTo 0x05 s.uw))

/-- R378, R379, R108, R382, R383: SYS and TRAP trap with their operand; a SYS of a whole group stops its lanes in
place; ERET and ERET_N return from a self-trap or run a stopped context again at its XPC, after the CMIG that its braid waits
for (R424, R425); EVWAIT takes the first
record, or waits for one until its time-out; the watchdog makes one record for a wait. That the event is one step,
with these arguments, is the model's choice (log entries 6 and 8). -/
def Obligations.SystemCalls : Prop :=
  ∀ (s : State) (d a b : BitVec 5), s.plain → s.clean a → s.clean b →
    let v := s.val a
    exec (.trap a) s = .next (s.trapTo 0x11 v)
    ∧ (s.groupOf s.cur = none → exec (.sys a) s = .next (s.trapTo 0x10 v))
    ∧ (∀ g, s.groupOf s.cur = some g → s.wholeGroup g a = true → exec (.sys a) s = .next (s.sysStop v))
    ∧ (s.cur.k = 15 → ∀ z ∈ [((.eret 0 : Instr), s.sr 0x010), (.eretN 0, s.sr 0x010 + w64 (2 * field (s.sr 0x013) 27 24))],
        (goodTarget z.2 → exec z.1 s = .next ((s.setSr s.cur 0x013 (setField (s.sr 0x013) 22 22 0)).jump z.2))
        ∧ (bit z.2 0 = true → exec z.1 s = .next (s.trapTo 0x06 z.2))
        ∧ (bit z.2 0 = false → field z.2 63 56 ≠ 0 → exec z.1 s = .next (s.trapTo 0x09 z.2))
        ∧ (bit z.2 0 = false → field z.2 63 56 = 0 → bit z.2 55 = true → exec z.1 s = .next (s.trapTo 0x0A z.2)))
    ∧ (s.cur.k = 15 → a ≠ 0 →
        let p : Pos := { s.cur with k := field v 3 0 }
        (p.k = 15 ∨ (s.ctx p).run ≠ .stopped → ∀ i ∈ [(.eret a : Instr), .eretN a],
          exec i s = .next (s.trapTo 0x05 (w64 (0x8000000000000000 + p.k))))
        ∧ (p.k ≠ 15 → (s.ctx p).run = .stopped → s.groupOf p = none → (s.braid s.cur.b).moving = true →
            ∀ i ∈ [(.eret a : Instr), .eretN a], ∃ t, exec i s = .next t ∧ (t.ctx p).run = .paused ∧ t.me.pc = s.nextPc)
        ∧ (p.k ≠ 15 → (s.ctx p).run = .stopped → s.groupOf p = none → (s.braid s.cur.b).moving = false →
            (∃ t, exec (.eret a) s = .next t ∧ (t.ctx p).run = .running ∧ (t.ctx p).pc = s.srAt p 0x010 ∧ t.me.pc = s.nextPc
              ∧ (∀ r, (t.ctx p).reg r = (s.ctx p).reg r) ∧ SameBytes s t)
            ∧ (∃ t, exec (.eretN a) s = .next t ∧ (t.ctx p).run = .running ∧ t.me.pc = s.nextPc
              ∧ (t.ctx p).pc = pcBits (s.srAt p 0x010 + w64 (2 * field (s.srAt p 0x013) 27 24)))))
    ∧ (s.cur.k = 15 →
        (∀ s1, s.takeRecord s.cur.b s.cur.r = some s1 → exec (.evwait d b) s
            = .next ((s1.modMe fun c => { c with startAt := s.cycle + 4 }).put d 0 false))
        ∧ (s.takeRecord s.cur.b s.cur.r = none → exec (.evwait d b) s = .next ((s.modMe fun c => { c with
            wait := some (.evwait (c.dest d) (if field (s.val b) 31 0 = 0 then 0 else s.cycle + field (s.val b) 31 0)) }).advance)))
    ∧ (∀ br r e dl, (s.ctx ⟨br, r, 15⟩).wait = some (.evwait e dl) → dl ≠ 0 → dl ≤ s.cycle →
        exec (.evwaitTimeout br r) s = .next (s.modCtx ⟨br, r, 15⟩ fun c =>
          { (c.setCellAt e { val := 1 }) with wait := none, startAt := s.cycle + 4 }))
    ∧ (∀ br r k, k < 15 → (s.ctx ⟨br, r, k⟩).run = .running → (s.ctx ⟨br, r, k⟩).dogged = false →
        field (s.rillSr br r 0x126) 31 0 ≠ 0 → (s.ctx ⟨br, r, k⟩).lastIssue + field (s.rillSr br r 0x126) 31 0 * 1024 ≤ s.cycle →
        (s.ctx ⟨br, r, 15⟩).wait = none →
        ∃ t, exec (.watchdogExpire br r k) s = .next t ∧ (t.ctx ⟨br, r, k⟩).dogged = true
          ∧ ∃ e ∈ (t.rill br r).events, e.cls = 5 ∧ e.cause = 0x22 ∧ field e.xstat 3 0 = k)

/-- R384 to R392, R93: CSTART starts an empty context, CSTOP asks a running one to stop, which it does at a unit
boundary; CSAVE empties a stopped context and CREST gives its status for an image; both take only a context of 0 to 14 in the
state that they need and an aligned image; a halting context becomes empty once nothing that it issued is outstanding. CREST's
third status where a registration that must be logged finds the replay queue full is the model's choice (log entry 134), and so
is that the event is one step, with these arguments (log entries 6 and 8). -/
def Obligations.ContextResults : Prop :=
  (∀ (s : State) (d a b : BitVec 5), s.plain → s.cur.k = 15 → s.clean a → s.clean b → s.ready d →
     let p : Pos := { s.cur with k := field (s.val a) 3 0 }
     (p.k = 15 ∨ (s.ctx p).run ≠ .empty → ∀ i ∈ [(.cstart d a b : Instr), .crest d a b],
       exec i s = .next (s.trapTo 0x05 (w64 (0x8000000000000000 + p.k))))
     ∧ (p.k = 15 ∨ (s.ctx p).run = .empty ∨ (s.ctx p).run = .running →
         exec (.csave a b) s = .next (s.trapTo 0x05 (w64 (0x8000000000000000 + p.k))))
     ∧ (p.k ≠ 15 → field (s.val b) 5 0 ≠ 0 →
         ((s.ctx p).run = .stopped → exec (.csave a b) s = .next (s.trapTo 0x06 (s.val b)))
         ∧ ((s.ctx p).run = .empty → exec (.crest d a b) s = .next (s.trapTo 0x06 (s.val b))))
     ∧ (p.k ≠ 15 → (s.ctx p).run = .empty → goodTarget (s.val b) → (s.braid s.cur.b).moving = true →
         ∃ t, exec (.cstart d a b) s = .next t ∧ t.me.pc = s.nextPc ∧ (t.ctx p).run = .paused ∧ (t.ctx p).pc = s.val b)
     ∧ (p.k ≠ 15 → (s.ctx p).run = .empty → goodTarget (s.val b) → (s.braid s.cur.b).moving = false →
         ∃ t, exec (.cstart d a b) s = .next t ∧ t.me.pc = s.nextPc ∧ (t.ctx p).run = .running ∧ (t.ctx p).pc = s.val b
           ∧ (t.ctx p).reg 8 = { val := s.val d, poison := s.bad d } ∧ (t.ctx p).reg 9 = {}
           ∧ (t.ctx p).resident = 1 ∧ t.srAt p 0x030 = s.srAt p 0x030 ∧ t.srAt p 0x0A0 = s.srAt p 0x0A0
           ∧ t.srAt p 0x020 = 0 ∧ t.srAt p 0x099 = 0xFFFFFFFFFFFFFFFF ∧ SameBytes s t)
     ∧ (p.k = 15 → exec (.cstop a) s = .next (s.trapTo 0x05 0x800000000000000F))
     ∧ (p.k ≠ 15 → (s.ctx p).run = .running → (s.ctx p).stopBy = 0 → (s.ctx p).tx = none →
         exec (.cstop a) s = .next ((s.modCtx p fun c => { c with run := .stopping }).advance))
     ∧ (p.k ≠ 15 → (s.ctx p).run = .empty ∨ (s.ctx p).run = .stopped → exec (.cstop a) s = .next s.advance)
     ∧ (p.k ≠ 15 → field (s.val b) 5 0 = 0 → ∀ s1 xs,
         ((s.ctx p).run = .stopped → s.stoppedOf p = false → s.saveReady p = true →
           reachFrom (s.val b) true [] (imagePieces (s.val b)) s = (s1, xs, none) → (∀ x ∈ xs, s1.mayPerform s1.cur x = true) →
           (∀ x ∈ xs, s1.sharersOf (lineOf x.pa) = [] ∧ (s1.fanouts.any fun f => f.line == lineOf x.pa) = false) →
           (s1.takePlace s1.cur (commitAgent s1.cur) s1.me.seq (imageLines xs)).2 = true →
           ∃ t, exec (.csave a b) s = .next t ∧ (t.ctx p).run = .empty)
         ∧ ((s.ctx p).run = .stopped → s.stoppedOf p = true →
             exec (.csave a b) s = .next (s.trapTo 0x05 (w64 (0x8000000000000100 + p.k))))
         ∧ ((s.ctx p).run = .empty → reachFrom (s.val b) false [] (imagePieces (s.val b)) s = (s1, xs, none) →
             s1.quietBefore = true → (∀ x ∈ xs, s1.lineOpen s1.cur x = true) →
             let x := s1.readImage xs
             (x.wrong = true → exec (.crest d a b) s = .next (s1.put d 1 false))
             ∧ (x.wrong = false → field (x.w 0) 27 24 ≠ p.k ∨ field (x.w 0) 43 32 ≠ s1.rillNumber p.b p.r →
                 exec (.crest d a b) s = .next (s1.put d 2 false))
             ∧ (x.wrong = false → field (x.w 0) 27 24 = p.k → field (x.w 0) 43 32 = s1.rillNumber p.b p.r →
                 (s1.noRoom p x = true → exec (.crest d a b) s = .next (s1.put d 3 false))
                 ∧ (∀ s2, s1.noRoom p x = false →
                     (s1.restoreImage p x = (s2, none) → exec (.crest d a b) s = .next (s2.put d 0 false))
                     ∧ (s1.restoreImage p x = (s2, some .full) → exec (.crest d a b) s = .next (s1.put d 3 false)))))))
  ∧ (∀ (s : State) (b r k : Nat),
       let p : Pos := ⟨b, r, k⟩
       let c := s.ctx p
       (k < 15 → c.run = .stopping → c.tx = none → c.wait = none → c.block = none → c.vblocks = [] → c.flights = [] →
         c.halting = false → s.groupOf p = none → (s.rill b r).replay = [] → (s.rill b r).winOp = none →
         (s.ctx ⟨b, r, 15⟩).wait = none →
         ∃ t, exec (.contextStop b r k) s = .next t ∧ (t.ctx p).run = .stopped ∧ t.srAt p 0x010 = c.pc
           ∧ t.srAt p 0x011 = 0x20 ∧ (∀ q, (t.ctx p).reg q = c.reg q)
           ∧ ∃ e ∈ (t.rill b r).events ++ (t.rill b r).later, e.cls = 1 ∧ e.cause = 0x20 ∧ field e.xstat 3 0 = k)
       ∧ (c.halting = true → c.run = .running → s.settled p = true → c.streams = [] →
           (c.cohort = none → exec (.contextHalted b r k) s = .next (s.modCtx p fun x =>
             { x with run := .empty, halting := false, cohort := none }))
           ∧ (∀ n y, c.cohort = some n → (s.braid b).cohorts.find n = some y → ∃ t, exec (.contextHalted b r k) s = .next t
               ∧ (t.ctx p).run = .empty ∧ (t.braid b).cohorts.find n = some { y with halted := y.halted ++ [(r, k)] })))

/-- R395, R402 to R405: REPLAY and REPLAY_DROP of an empty entry answer 2, of one that is not the oldest of its
chain 3; an entry whose translation succeeds is sent and one that is dropped fills its destination with a poisoned
0. TLBINV removes translations and waits for their users; the host's answers fill TLBs or fail; SVCALL hands a call
to its service. The order of removal and waiting, and the time of translation of a block, are the model's reading
(log entries 68 and 69). The clauses on the host's answers rest on the model's choices: queue requests and their phases (log
entry 126), bit 0 of an answer without translation says whether PRI is enabled (log entries 20 and 142), the event arguments (log
entries 6 and 8). The order of SVCALL's checks 0x06, 0x09 and 0x0A is the model's choice (log entry 163). -/
def Obligations.TranslationResults : Prop :=
  (∀ (s : State) (d a b : BitVec 5) (m : BitVec 2), s.plain → s.cur.k = 15 → s.clean a → s.clean b → s.quietBefore = true →
     let i := field (s.val a) 4 0
     (s.myRill.replay.find i = none → exec (.replay d a) s = .next (s.put d 2 false) ∧ exec (.replayDrop d a) s = .next (s.put d 2 false))
     ∧ (∀ e, s.myRill.replay.find i = some e → s.myRill.chain e = none →
         exec (.replay d a) s = .next (s.put d 3 false) ∧ exec (.replayDrop d a) s = .next (s.put d 3 false))
     ∧ (∀ e x sx, s.myRill.replay.find i = some e → s.myRill.chain e = some [(i, e)] → e.accs = [x] → x.kind = .load sx →
         e.pos.b = s.cur.b → e.pos.r = s.cur.r → e.pos.k < 15 → bit x.va 55 = false →
         (∀ s1 pa leaf, s.translate e.pos x.va x.kind.need = (s1, .ok pa leaf) →
           ∃ t, exec (.replay d a) s = .next t ∧ (d ≠ 0 → t.me.reg d = {}) ∧ t.myRill.replay.find i = none
             ∧ ∃ y ∈ (t.ctx e.pos).flights, y.id = x.id ∧ y.pa = pa)
         ∧ (∃ t, exec (.replayDrop d a) s = .next t ∧ t.myRill.replay.find i = none
             ∧ ((s.ctx e.pos).cellAt x.dst = { (s.ctx e.pos).cellAt x.dst with full := false, src := x.src } →
                 (t.ctx e.pos).cellAt x.dst = { val := 0, poison := true })))
     ∧ (let f := tlbinvHits m.toNat (s.val a) (s.val b)
        let n := s.basinOf s.cur.b
        s.shotTx n f = [] →
          ∃ t ids, exec (.tlbinv a b m) s = .next t ∧ t.me.wait = some (.shootdown ids) ∧ t.me.pc = s.nextPc
            ∧ (∀ e ∈ t.tlbOf n, f e = false) ∧ (∀ e ∈ s.tlbOf n, f e = false → e ∈ t.tlbOf n))
     ∧ (let va := s.val b
        (field va 5 0 ≠ 0 → exec (.svcall d a b) s = .next (s.trapTo 0x06 va))
        ∧ (field va 5 0 = 0 → field va 63 56 ≠ 0 → exec (.svcall d a b) s = .next (s.trapTo 0x09 va))
        ∧ (field va 5 0 = 0 → field va 63 56 = 0 → bit va 55 = true → exec (.svcall d a b) s = .next (s.trapTo 0x0A va))
        ∧ (field va 5 0 = 0 → field va 63 56 = 0 → bit va 55 = false →
            (32 ≤ (s.val a).toNat → exec (.svcall d a b) s = .next (s.put d 0xFFFFFFFFFFFFFFFF false))
            ∧ ((s.val a).toNat < 32 → ∀ s1, s.blockXlat va = (s1, none) →
                ∃ t c, exec (.svcall d a b) s = .next t ∧ t.calls = s1.calls ++ [c] ∧ c.service = (s.val a).toNat ∧ c.va = va
                  ∧ c.caller = s1.basinOf s1.cur.b ∧ c.phase = 0)))
     ∧ (s.shotTx (s.basinOf s.cur.b) (fun e => bit e.leaf 9 && e.asid == (s.val a).toNat
           && decide (e.va ≤ (s.val b).toNat ∧ (s.val b).toNat < e.va + e.size)) = [] →
         ∃ t, exec (.atsInvalidateRequest (s.basinOf s.cur.b) (s.val a).toNat (s.val b)) s = .next t
           ∧ ∀ e ∈ t.tlbOf (s.basinOf s.cur.b),
               ¬ (bit e.leaf 9 = true ∧ e.asid = (s.val a).toNat ∧ e.va ≤ (s.val b).toNat ∧ (s.val b).toNat < e.va + e.size)))
  ∧ (∀ (s : State) (n : Nat) (q : AtsReq) (v : Word) (ok : Bool),
       (s.ats.find? (fun q => q.id == n && q.phase == 0) = some q →
         (q.pos.b < 512 → ∃ t, exec (.atsCompletion n true v) s = .next t ∧ (∀ x ∈ t.ats, x.id ≠ n)
           ∧ ∃ e ∈ (t.rill q.pos.b q.pos.r).tlb, e.asid = q.asid ∧ e.pa = field v 51 12 * 2 ^ 12 ∧ e.size = q.size
               ∧ e.va = q.va.toNat - q.va.toNat % q.size)
         ∧ (512 ≤ q.pos.b → ∃ t, exec (.atsCompletion n true v) s = .next t
             ∧ ∃ x ∈ t.ats, x.id = n ∧ x.phase = 3 ∧ x.pa = field v 51 12 * 2 ^ 12)
         ∧ exec (.atsCompletion n false v) s = .next { s with ats := s.ats.map fun x =>
             if x.id == n then { x with phase := if bit v 0 then 1 else 2 } else x })
       ∧ (s.ats.find? (fun q => q.id == n && q.phase == 1) = some q →
           ∃ t, exec (.priResponse n ok) s = .next t ∧ ∀ x ∈ t.ats, x.id ≠ n))

/-- R420 to R424: BINFO and BHOME report the basin of the thread; BRACK acknowledges a running phase, and holds context 15
of a leaving rill while a user context or a deque entry is left; CMIG_CHK gives the status that CMIG would, and a CMIG that
can start waits until its braid has drained. The move then takes the registers of every user context along, and a context in
a braid that the source has none of keeps what it held (log entry 153). The GEN that BHOME gives together with KIND 1, 2 and 3
is the model's reading (log entry 74). -/
def Obligations.BasinResults : Prop :=
  ∀ (s : State) (a sx : BitVec 5), s.plain →
    let n := s.basinOf s.cur.b
    let x := s.basin n
    let v := s.val a
    (s.clean a → exec (.binfo a sx) s = .next (s.put sx (s.binfo v) false))
    ∧ (field v 63 16 ≠ 0 ∨ 5 < field v 15 12 → s.binfo v = 0)
    ∧ (n < 65536 → x.gen < 65536 → x.rseq < 65536 → x.resize = none →
        field (s.binfo 0) 15 0 = n ∧ field (s.binfo 0) 31 16 = x.gen ∧ field (s.binfo 0) 47 32 = x.rseq
          ∧ field (s.binfo 0) 50 48 = 0 ∧ bit (s.binfo 0) 51 = x.lastForced)
    ∧ (s.clean a → addressFault v 1 false true = none →
        (bit v 55 = true → exec (.bhome a sx) s = .next (s.put sx (w64 (2 * 2 ^ 62 + x.gen * 2 ^ 16)) false))
        ∧ (bit v 55 = false →
            (∀ s1 pa leaf, s.translate s.cur v { r := true } = (s1, .ok pa leaf) → exec (.bhome a sx) s = .next (s1.put sx
              (if bit leaf 9 && bit leaf 8 then w64 (1 * 2 ^ 62 + x.gen * 2 ^ 16) else s1.homeWord n pa) false))
            ∧ (∀ s1 c e, s.translate s.cur v { r := true } = (s1, .fault c e) →
                exec (.bhome a sx) s = .next (s1.put sx (w64 (3 * 2 ^ 62 + x.gen * 2 ^ 16)) false))))
    ∧ (s.cur.k = 15 → s.clean a →
        (let b := s.cur.b
         let r := s.cur.r
         let code := field v 15 0 * 8 + field v 18 16
         (s.phaseCode n ≠ some code → exec (.brack a sx) s = .next (s.put sx 1 false))
         ∧ (s.phaseCode n = some code → code % 8 ≠ 2 ∨ (s.braid b).gran.state ≠ .leaving ∨ s.rillEmpty b r = true →
             exec (.brack a sx) s = .next ((s.recordAck b r code).put sx 0 false))
         ∧ (s.phaseCode n = some code → code % 8 = 2 → (s.braid b).gran.state = .leaving → s.rillEmpty b r = false →
             exec (.brack a sx) s
               = .next ((s.modMe fun c => { c with wait := some (.brack (c.dest sx) code) }).advance)))
        ∧ exec (.cmigChk a sx) s = .next (s.put sx (w64 (s.migStatus v).1) false)
        ∧ (∀ b d, field v 15 9 = 0 → field v 63 25 = 0 → s.braidAt n (field v 8 0) = some b →
            s.braidAt n (field v 24 16) = some d → (s.braid b).moving = false → (s.braid d).moving = false →
            (s.moveStatus b d ≠ 0 → exec (.cmig a sx) s = .next (s.put sx (w64 (s.moveStatus b d)) false))
            ∧ (s.moveStatus b d = 0 → exec (.cmig a sx) s = .next (((s.startMove b d).modMe fun c =>
                { c with wait := some (.cmig (c.dest sx) b d) }).advance))))
    ∧ (∀ b d, b ≠ d → ∀ r < 8, ∀ k < 15, ∀ q,
        ((s.ctx ⟨b, r, k⟩).run ≠ .empty → ((s.moveBraid b d).ctx ⟨d, r, k⟩).reg q = (s.ctx ⟨b, r, k⟩).reg q
          ∧ (s.moveBraid b d).ctx ⟨b, r, k⟩ = {})
        ∧ ((s.ctx ⟨b, r, k⟩).run = .empty → ((s.moveBraid b d).ctx ⟨d, r, k⟩).reg q = (s.ctx ⟨d, r, k⟩).reg q))

/-- R411 to R418, R426, R429, R396: the phases of a resize start with a record for each notified rill and end once
their work and their acknowledgements are there; the generation before a rehash retires once every sweep has ended, whatever
is still awaited; a deadline ends the waiting; a line is handed over; a scrub leaves a granule FREE with its bytes zero; a
retired rill is replaced by the spare, its contexts go on, but for those that a CMIG has stopped, and its dirty lines are
written back; an error poisons what it has struck. The model's readings and choices: that the event is one step, with these
arguments (log entries 6 and 8); that a scrub of memory clears some words first, in up to three passes (log entry 111); that a
retirement that its basin can make no more is kept for the braid and made once it is FREE (log entry 125); which errors are
entered in the error log (log entry 80). -/
def Obligations.BasinEvents : Prop :=
  ∀ (s : State) (n b r line m x y : Nat) (z : Resize) (rest : List Resize),
    let bs := s.basin n
    (bs.contained = false → bs.alive = true → bs.resize = none → bs.waiting = z :: rest →
      ∃ u w, exec (.resizePhaseStart n) s = .next u ∧ (u.basin n).resize = some w ∧ w.began = true ∧ w.phase = 1
        ∧ w.seq = z.seq ∧ w.acked = [] ∧ w.since = s.cycle ∧ (u.basin n).waiting = rest ∧ (u.basin n).rseq = z.seq
        ∧ ∀ key ∈ w.notified, (s.ctx ⟨key / 8, key % 8, 15⟩).wait = none →
            ∃ e ∈ (u.rill (key / 8) (key % 8)).events, e.cls = 0 ∧ e.cause = 0x21 ∧ field e.val 15 0 = z.seq % 65536)
    ∧ (bs.resize = some z → z.began = true → bs.contained = false → z.moves = [] → z.forcing = [] →
        z.late = true ∨ (∀ q ∈ z.notified, q ∈ z.acked) →
        (z.phase ∈ [1, 2, 4, 5] → (z.phase = 2 → z.retire = none) →
          (z.phase = 5 → ∀ g ∈ z.remove, (s.gran g.1 g.2).state ≠ .scrubbing) →
          ∃ u w, exec (.resizePhaseEnd n) s = .next u ∧ (u.basin n).resize = some w ∧ w.phase = z.nextPhase ∧ w.began = true
            ∧ w.since = s.cycle ∧ w.acked = [] ∧ w.late = false ∧ w.seq = z.seq ∧ w.remove = z.remove)
        ∧ (z.phase = 6 → ∃ u, exec (.resizePhaseEnd n) s = .next u ∧ (u.basin n).resize = none
            ∧ (u.basin n).lastForced = z.forced))
    ∧ (bs.resize = some z → z.began = true → bs.contained = false → z.moves = [] → z.forcing = [] → z.phase = 3 →
        s.locks = [] → s.fanouts = [] → ∀ next, bs.nextSlices = some next →
        ∃ u, exec (.resizePhaseEnd n) s = .next u ∧ (u.basin n).slices = next ∧ (u.basin n).nextSlices = none
          ∧ (u.basin n).gen = (bs.gen + 1) % 65536)
    ∧ (bs.resize = some z → z.began = true → z.late = false → z.since + z.deadline * 3300 ≤ s.cycle →
        z.phase ≠ 2 ∨ (∀ g ∈ z.remove, g.1 ≠ 0) →
        exec (.phaseDeadline n) s = .next (s.setResize n (some { z with late := true, forced := true })))
    ∧ (s.toHand n line = false →
        exec (.rehashHandover n line) s = .next s ∧ exec (.rehashFirstTouch n line) s = .next s)
    ∧ (s.toHand n line = true → s.locks.find line = none → (∀ f ∈ s.fanouts, f.line ≠ line) →
        exec (.rehashHandover n line) s = .next (s.hand n line)
          ∧ ((∀ e ∈ s.braids, e.2.l1.find line = none) → exec (.rehashFirstTouch n line) s = .next (s.hand n line))
          ∧ line ∈ ((s.hand n line).basin n).handed)
    ∧ (∀ kind < 5, (s.gran kind m).state = .scrubbing → (s.gran kind m).retiring = false →
        ((s.basin (s.gran kind m).basin).contained && (s.basin (s.gran kind m).basin).alive) = false →
        s.scrubReady kind m = true →
        (∃ u, exec (.scrubComplete kind m) s = .next u ∧ (u.gran kind m = {}
          ∨ ((u.gran kind m).state = .scrubbing ∧ (u.gran kind m).sweeps = (s.gran kind m).sweeps + 1 ∧ kind ∈ [0, 2])))
        ∧ ((kind ∈ [0, 2] → 3 ≤ (s.gran kind m).sweeps) →
        ∃ u, exec (.scrubComplete kind m) s = .next u ∧ u.gran kind m = {}
          ∧ (kind = 2 → (∀ i, m * 2 ^ 31 ≤ i → i < (m + 1) * 2 ^ 31 → u.mem.byte i = 0)
              ∧ ∀ i, i < m * 2 ^ 31 ∨ (m + 1) * 2 ^ 31 ≤ i → u.mem.byte i = s.mem.byte i)
          ∧ (kind = 0 → m < 512 → (∀ i < 8, ∀ k < 16, u.ctx ⟨m, i, k⟩ = {})
              ∧ ∀ i < 8 * 2 ^ 18, u.mem.byte (lsAddr m 0 i) = 0)))
    ∧ (∀ p, s.retiring b r = some (n, z) → (s.braid b).gran.ownedBy n = true → z.worked = false → z.began = true →
        z.phase = 2 → r < 8 → (∀ k < 16, (s.ctx ⟨b, r, k⟩).run ≠ .running ∧ (s.ctx ⟨b, r, k⟩).tx = none) →
        s.rillIdle b r = true →
        (s.braid b).spare = some p →
        ∃ u, exec (.rillRetire b r) s = .next u ∧ (u.braid b).l2p.get r r = p ∧ (u.braid b).spare = none
          ∧ (b, (s.braid b).l2p.get r r) ∈ u.spareRills
          ∧ (∀ k < 16, (s.ctx ⟨b, r, k⟩).run = .paused → (s.braid b).moving = false ∨ k = 15 → (u.ctx ⟨b, r, k⟩).run = .running)
          ∧ (∀ k < 15, (s.braid b).moving = true → (u.ctx ⟨b, r, k⟩).run = (s.ctx ⟨b, r, k⟩).run)
          ∧ ∀ n l, (u.braid b).l1.find n = some l → l.place = r ∨ l.place = 8 + r → l.dirty = false)
    ∧ (s.retiring b r = none → (s.braid b).owed = [r] → (s.braid b).gran = {} → ∀ p, (s.braid b).spare = some p →
        ∃ u, exec (.rillRetire b r) s = .next u ∧ (u.braid b).l2p.get r r = p ∧ (u.braid b).spare = none
          ∧ (u.braid b).owed = [] ∧ (b, (s.braid b).l2p.get r r) ∈ u.spareRills)
    ∧ (let recent := ((s.rill b r).corrected.filter fun t => decide (s.cycle < t + 3300000000)) ++ [s.cycle]
       (recent.length ≤ 64 → ∃ u, exec (.correctedError b r) s = .next u ∧ (u.rill b r).corrected = recent
         ∧ u.errlog.length = s.errlog.length + 1 ∧ u.basins = s.basins)
       ∧ (64 < recent.length → (s.braid b).spare.isSome = true → (s.braid b).gran = { state := .owned, basin := n } →
           bs.resize = none → bs.waiting = [] → (s.braid b).owed = [] → bs.contained = true ∨ bs.alive = false →
           ∃ u, exec (.correctedError b r) s = .next u ∧ (u.braid b).owed = [r])
       ∧ (64 < recent.length → (s.braid b).spare.isSome = true → (s.braid b).gran = { state := .owned, basin := n } →
           bs.resize = none → bs.waiting = [] → (s.braid b).owed = [] → bs.contained = false → bs.alive = true →
           ∃ u w, exec (.correctedError b r) s = .next u ∧ (u.basin n).waiting = [w] ∧ w.retire = some (b, r)
             ∧ w.seq = (bs.rseq + 1) % 65536))
    ∧ (8 * x < 2 ^ 60 → s.mem.isLost (8 * x) = false → ∃ u, exec (.uncorrectableError 0 x y) s = .next u
        ∧ u.mem.poisoned (8 * x) = true ∧ SameBytes s u ∧ u.errlog.length = s.errlog.length + 1)
    ∧ (∀ (q : BitVec 5), q ≠ 0 → r < 8 → m < 16 →
        ∃ u, exec (.uncorrectableError 1 ((b * 8 + r) * 16 + m) q.toNat) s = .next u
          ∧ (u.ctx ⟨b, r, m⟩).reg q = { (s.ctx ⟨b, r, m⟩).reg q with poison := true } ∧ SameBytes s u)
    ∧ (∀ l, (s.braid b).l1.find line = some l → ∃ u, exec (.uncorrectableError 4 b line) s = .next u ∧ SameBytes s u
        ∧ (u.braid b).l1 = if l.dirty then (s.braid b).l1 else (s.braid b).l1.drop line)
    ∧ ((s.braid b).gran.state ≠ .free → exec (.uncorrectableError 7 b y) s = .next (s.contain (s.basinOf b)))

/-- R431 to R433, R345, R409, R411, R428, R437, R438, R442, R458: the services on basins, queues, rings and
application cores: what each does to a call that passes the checks, with its status and its result words. A doorbell
puts a call into its slot; a performed call returns to its caller. The model's readings and choices: the status for a bad
target, buffer or granule (log entries 81 to 84); the arguments of the events (log entry 8); BASIN-DESTROY that stays in
service (log entry 87); a number outside its range before one that is not granted (log entry 140); what HMSGQ-CONFIG without a
VF checks (log entry 168); CORE-START's status 3 (log entry 96). -/
def Obligations.BasinServices : Prop :=
  ∀ (s s2 s3 : State) (c : Call) (ps qs : List (Nat × Nat)) (ws : List Word),
    let w (i : Nat) : Word := ws.getD i 0
    let n := field (w 0) 5 0
    let bs := s2.basin n
    (s.admits 1 c ps ws s2 → field (w 1) 5 0 = 0 → s2.buffer c (w 1) 512 false = (s3, .at qs) →
      mapLegal (s3.bufValue qs) = true →
      let gs := mapGranules (s3.bufValue qs)
      let slices := ((granuleOrder gs).filter fun g => g.1 == 1).map Prod.snd
      (slices = [] → s.returns .basinCreate c ps s3 1 [])
      ∧ (slices ≠ [] → (∃ g ∈ gs, s3.available g = false) → s.returns .basinCreate c ps s3 3 [])
      ∧ (slices ≠ [] → (∀ g ∈ gs, s3.available g = true) → s3.freeBasins ≠ [] →
          ∃ t m, s.returns .basinCreate c ps t 0 [(1, w64 m)] ∧ m ∈ s3.freeBasins ∧ (t.basin m).alive = true
            ∧ (t.basin m).slices = slices ∧ (t.basin m).entry = w 2 ∧ (t.basin m).aspace = w 3
            ∧ ∀ g ∈ gs, (t.gran g.1 g.2).ownedBy m = true))
    ∧ (s.admits 2 c ps ws s2 →
        ((s2.destroy n).vacant n = true → s.returns .basinDestroy c ps (s2.destroy n) 0 [])
        ∧ ((s2.destroy n).vacant n = false → ∃ t, exec (.basinDestroy (2 * c.id)) s = .next t
            ∧ (∀ x ∈ t.calls, x.id = c.id → x.phase = 1 ∧ x.target = n) ∧ t.basins = (s2.destroy n).basins)
        ∧ ∀ b, (s2.braid b).gran.state = .owned → (s2.braid b).gran.basin = n →
            ((s2.destroy n).braid b).gran.state = .scrubbing)
    ∧ (s.admits 3 c ps ws s2 → field (w 1) 5 0 = 0 → field (w 2) 5 0 = 0 → ∀ s4 s5 ps4 ps5,
        s2.buffer c (w 1) 512 false = (s3, .at qs) → s3.buffer c (w 2) 512 false = (s4, .at ps4) →
        s4.buffer c (w 3) 1024 false = (s5, .at ps5) → mapLegal (s3.bufValue qs) = true → mapLegal (s4.bufValue ps4) = true →
        let add := mapGranules (s3.bufValue qs)
        let remove := mapGranules (s4.bufValue ps4)
        let dest := destTable (s5.bufValue ps5) remove
        let us := field (w 4) 31 0
        let z : Resize := { add := add, remove := remove, dest := dest, deadline := us, seq := 0 }
        (checkResize n add remove dest us s5 = 0 →
          s.returns .basinResize c ps (s5.queueResize n z).1 0 [(1, w64 (s5.queueResize n z).2)])
        ∧ (checkResize n add remove dest us s5 ≠ 0 →
            s.returns .basinResize c ps s5 (checkResize n add remove dest us s5) [])
        ∧ (us < 100 ∨ 1000000 < us → checkResize n add remove dest us s5 = 1))
    ∧ (s.admits 4 c ps ws s2 → field (w 1) 5 0 = 0 → s2.buffer c (w 1) 512 true = (s3, .at qs) →
        s.returns .basinStatus c ps
          (storeBuf qs (granuleMap ((List.range 5).flatMap fun k => (s2.granulesOf n k).map fun i => (k, i))) s3) 0
          [(2, wordOfBool bs.contained + 2 * wordOfBool bs.resize.isSome)])
    ∧ (s.admits 5 c ps ws s2 →
        let q := field (w 1) 2 0
        let vf := field (w 3) 10 0
        (1024 < vf → s.returns .queueConfig c ps s2 1 [])
        ∧ (vf ≠ 0 → vf ≤ 1024 → s2.grants n 4 vf = false → s.returns .queueConfig c ps s2 2 [])
        ∧ (vf = 0 ∨ (vf ≤ 1024 ∧ s2.grants n 4 vf = true) → s.returns .queueConfig c ps (s2.modBasin n fun b =>
            { b with queues := b.queues.put q { b.queues.get {} q with
                prio := field (w 1) 5 4, enable := bit (w 1) 8, aspace := srMerge 0x0A0 0 (w 2), vf := vf } }) 0 []))
    ∧ (s.admits 6 c ps ws s2 → s.returns .queueStatus c ps s2 0
        [(2, w64 (bs.held (field (w 1) 2 0))), (3, w64 (bs.queues.get {} (field (w 1) 2 0)).placed)])
    ∧ (s.admits 7 c ps ws s2 →
        let hit (r : Record) : Bool := r.queue == field (w 1) 2 0 && r.tag == field (w 2) 31 0
        s.returns .launchCancel c ps ((s2.modBasin n fun b =>
          { b with records := b.records.map fun r => if hit r then { r with cancelled := true } else r }).finishLaunches n) 0
          [(3, w64 (bs.records.filter hit).length)])
    ∧ (s.admits 8 c ps ws s2 →
        let vf := field (w 1) 10 0
        let k := field (w 3) 3 0
        let ring : Ring := { vf := vf, base := w 2, k := k, tailAddr := w 4, vector := field (w 5) 5 0 }
        (1024 < vf ∨ k < 4 ∨ 12 < k → s.returns .hmsgqConfig c ps s2 1 [])
        ∧ (vf = 0 → 4 ≤ k → k ≤ 12 → s.returns .hmsgqConfig c ps (s2.modBasin n fun b => { b with hmsg := none }) 0 [])
        ∧ (vf ≠ 0 → vf ≤ 1024 → 4 ≤ k → k ≤ 12 → s2.grants n 4 vf = false → s.returns .hmsgqConfig c ps s2 2 [])
        ∧ (vf ≠ 0 → vf ≤ 1024 → 4 ≤ k → k ≤ 12 → s2.grants n 4 vf = true →
            s.returns .hmsgqConfig c ps (s2.modBasin n fun b => { b with hmsg := some ring }) 0 []))
    ∧ (s.admits 9 c ps ws s2 →
        let vf := field (w 1) 10 0
        let k := field (w 3) 3 0
        (vf = 0 ∨ 1024 < vf ∨ k < 4 ∨ 12 < k → s.returns .notifyConfig c ps s2 1 [])
        ∧ (vf ≠ 0 → vf ≤ 1024 → s2.grants n 4 vf = true → 4 ≤ k → k ≤ 12 →
            s.returns .notifyConfig c ps { s2 with vfs := s2.vfs.put vf { s2.vfs.get {} vf with
              notify := if w 2 = 0 then none else some { vf := vf, base := w 2, k := k, tailAddr := w 4 } } } 0 []))
    ∧ (let i := field (w 1) 6 0
       let q := s2.cores.get {} i
       (s2.grants n 3 i = false →
         (s.admits 10 c ps ws s2 → s.returns .uifConfig c ps s2 2 []) ∧ (s.admits 11 c ps ws s2 → s.returns .coreStart c ps s2 2 [])
         ∧ (s.admits 12 c ps ws s2 → s.returns .coreStop c ps s2 2 []) ∧ (s.admits 13 c ps ws s2 → s.returns .coreStatus c ps s2 2 []))
       ∧ (s2.grants n 3 i = true →
         (s.admits 10 c ps ws s2 → s.returns .uifConfig c ps
           (s2.setCore i { q with identity := field (w 2) 15 0, file := field (w 2) 18 16 }) 0 [])
         ∧ (s.admits 11 c ps ws s2 →
             (q.run = 0 → s.returns .coreStart c ps
               (s2.setCore i { q with run := 1, mode := 1, pc := w 2, x := q.x.put 10 (w 3) }) 0 [])
             ∧ (q.run ≠ 0 → s.returns .coreStart c ps s2 3 []))
         ∧ (s.admits 12 c ps ws s2 →
             (q.run = 0 → s.returns .coreStop c ps s2 0 [])
             ∧ (q.run ≠ 0 → ∃ t, s.returns .coreStop c ps t 0 [] ∧ (t.cores.get {} i).run = 0))
         ∧ (s.admits 13 c ps ws s2 →
             (q.run ≠ 0 → s.returns .coreStatus c ps s2 0 [(3, w64 q.run)])
             ∧ (q.run = 0 → s2.buffer c (w 2) 36864 true = (s3, .at qs) →
                 s.returns .coreStatus c ps (storeBuf qs q.area s3) 0 [(3, 0)]))))
    ∧ (s.admits 0 c ps ws s2 → s.returns .ident c ps s2 0
        ([(1, w64 (s2.version 33 + s2.build 33 * 2 ^ 32)), (2, w64 (s2.version 32 + s2.build 32 * 2 ^ 32)), (3, w64 0x1C0)]
          ++ (List.range 16).map fun i => (4 + i, w64 (s2.version (2 * i) + s2.version (2 * i + 1) * 2 ^ 32))))
    ∧ (∀ i block, i < 16 → (∀ q ∈ s.calls, ¬ (q.caller = 64 ∧ q.slot = i)) →
        ∃ t, exec (.echo (2 * (i + 16 * block) + 1)) s = .next t ∧ t.mailStatus.get 0 i = 0xFFFFFFFFFFFFFFFE
          ∧ (∀ j < 32, t.mailbox.get 0 (i * 32 + j) = w64 (block / 2 ^ (64 * j)))
          ∧ t.calls = s.calls ++ [{ id := s.nextId, caller := 64, service := 31, slot := i }])
    ∧ (∀ q, s.calls.find? (fun q => q.id == c.id && q.phase == 2) = some q →
        (q.caller = 64 → ∃ t, exec (.serviceComplete c.id) s = .next t ∧ t.mailStatus.get 0 q.slot = q.status
          ∧ (∀ y ∈ t.calls, y.id ≠ c.id) ∧ t.msix = s.msix ++ [1])
        ∧ (q.caller ≠ 64 → ∀ d, (s.ctx q.pos).wait = some (.service d c.id) →
            ∃ t, exec (.serviceComplete c.id) s = .next t ∧ (t.ctx q.pos).wait = none ∧ (∀ y ∈ t.calls, y.id ≠ c.id)
              ∧ ∀ m, d = .g m → (t.ctx q.pos).cellAt (.g m) = { val := q.status }))

/-- R429, R430, R433 to R435, R439, R440, R443 to R445, R448, R458: the services on windows, errors, retirement,
power, images and package links: what each does to a call that passes the checks. The model's readings and choices: the status
for a bad target or buffer (log entries 81 to 84); the arguments of the events (log entry 8); a free granule that is to leave
for good is marked until its next scrub (log entry 85); the time at which a switched image serves and at which IMAGE-SWITCH
returns (log entries 88 and 165); what ERRLOG-CLEAR may clear (log entry 101); ZCL-GRANT's status 1 for the package's own
number (log entry 144); the digest of the staged bytes (log entry 145). -/
def Obligations.PackageServices : Prop :=
  ∀ (s s2 s3 : State) (c : Call) (ps qs : List (Nat × Nat)) (ws : List Word),
    let w (i : Nat) : Word := ws.getD i 0
    let n := field (w 0) 5 0
    let host := c.caller = hostCaller
    (s.admits 14 c ps ws s2 →
      let p := field (w 1) 8 0
      (s2.grants n 2 p = false → s.returns .hostWindow c ps s2 2 [])
      ∧ (s2.grants n 2 p = true →
          (bit (w 2) 0 = true → s.returns .hostWindow c ps { s2 with windows := setInsert s2.windows p } 0 [])
          ∧ (bit (w 2) 0 = false → s.returns .hostWindow c ps { s2 with
              windows := setErase s2.windows p, hostCopies := s2.hostCopies.filter fun l => l / 2 ^ 25 != p } 0 [])))
    ∧ (s.admits 15 c ps ws s2 → ∀ es : List ErrEntry,
        (host → es = s2.errlog.take (field (w 2) 15 0)) →
        (¬ host → es = (s2.errlog.filter fun e => e.basin == some n).take (field (w 2) 15 0)) →
        s2.buffer c (w 1) (64 * es.length) true = (s3, .at qs) →
        ∃ t, s.returns .errlogRead c ps t 0 [(3, w64 es.length)]
          ∧ t.mem = (storeBuf qs (packWords (es.flatMap fun e => e.words)) s3).mem
          ∧ t.errlog = (storeBuf qs (packWords (es.flatMap fun e => e.words)) s3).errlog)
    ∧ (s.admits 16 c ps ws s2 → ∃ t k, s.returns .errlogClear c ps t 0 [] ∧ k = min (field (w 1) 15 0) s2.errRead
        ∧ t.errlog = s2.errlog.drop k)
    ∧ (s.admits 17 c ps ws s2 →
        let kind := field (w 1) 1 0
        let i := (w 2).toNat
        (kind = 3 ∨ (kind = 2 ∧ 512 ≤ i) ∨ (kind = 1 ∧ 1024 ≤ i) ∨ (kind = 0 ∧ (8192 ≤ i ∨ 8 < i % 16)) →
          s.returns .retireRequest c ps s2 1 [])
        ∧ (kind = 2 → i < 512 →
            (s2.gran 2 i = {} → ∃ t, s.returns .retireRequest c ps t 0 [(1, 0)] ∧ t.gran 2 i = { retiring := true }
              ∧ t.spareGranules = s2.spareGranules)
            ∧ (s2.gran 2 i = { state := .owned, basin := n } → (s2.basin n).contained = false → (s2.basin n).waiting = [] →
                ∃ t z, s.returns .retireRequest c ps t 0 [(1, w64 (((s2.basin n).rseq + 1) % 65536))]
                  ∧ (t.basin n).waiting = [z] ∧ z.remove = [(2, i)] ∧ (t.gran 2 i).retiring = true))
        ∧ (kind = 0 → i < 8192 → i % 16 ≤ 8 → ∀ r < 8, (s2.braid (i / 16)).l2p = [] → i % 16 = r →
            (s2.braid (i / 16)).spare.isSome = true → (s2.braid (i / 16)).gran = { state := .owned, basin := n } →
            (s2.basin n).contained = false → (s2.basin n).waiting = [] →
            ∃ t z, s.returns .retireRequest c ps t 0 [(1, w64 (((s2.basin n).rseq + 1) % 65536))]
              ∧ (t.basin n).waiting = [z] ∧ z.retire = some (i / 16, r)))
    ∧ (s.admits 18 c ps ws s2 → field (w 1) 5 0 = 0 → s2.buffer c (w 1) 512 true = (s3, .at qs) → ∀ s4 ps4,
        (storeBuf qs (granuleMap s2.spareGranules) s3).buffer c (w 2) 576 true = (s4, .at ps4) →
        s.returns .spareStatus c ps
          (storeBuf ps4 (s2.spareRills.foldl (fun a e => a ||| 2 ^ (e.1 * 9 + e.2)) 0) s4) 0 [])
    ∧ (s.admits 19 c ps ws s2 → let limit := field (w 1) 15 0
        (1500 ≤ limit → limit ≤ 3600 → s.returns .powerLimit c ps { s2 with powerLimit := limit } 0 [])
        ∧ (limit < 1500 ∨ 3600 < limit → s.returns .powerLimit c ps s2 1 []))
    ∧ (s.admits 20 c ps ws s2 → s.returns .powerStatus c ps s2 0 [(1, w64 (s2.power1ms % 2 ^ 32)),
        (2, w64 (s2.power1s % 2 ^ 32)), (3, w64 (s2.budget.getD 0 % 2 ^ 16)), (4, w64 s2.powerLimit)])
    ∧ (s.admits 21 c ps ws s2 → s2.buffer c (w 1) 8192 true = (s3, .at qs) → ∃ t, s.returns .telemetry c ps t 0 [])
    ∧ (s.admits 22 c ps ws s2 →
        (33 < field (w 3) 5 0 → s.returns .imageStage c ps s2 1 [])
        ∧ (field (w 3) 5 0 ≤ 33 → s2.buffer c (w 1) (field (w 2) 31 0) false = (s3, .at qs) →
            ∃ t st, s.returns .imageStage c ps t st [] ∧ (st = 0 ∨ (st = 4 ∧ t.images = s3.images))
              ∧ (st = 0 → ∃ v : Firmware, Config.fusedMinimum (field (w 3) 5 0) ≤ v.version
                  ∧ v.text = some (field (w 2) 31 0, s3.bufValue qs) ∧ (t.images.get {} (field (w 3) 5 0)).staged = some v
                  ∧ (t.images.get {} (field (w 3) 5 0)).active = (s3.images.get {} (field (w 3) 5 0)).active)))
    ∧ (s.admits 23 c ps ws s2 → let i := field (w 1) 4 0
        ((s2.images.get {} i).staged = none → s.returns .imageSwitch c ps s2 4 [])
        ∧ (∀ v, (s2.images.get {} i).staged = some v →
            let t := ({ s2 with images := s2.images.put i { s2.images.get {} i with next := some v, staged := none } } : State)
            s.returns .imageSwitch c ps (t.switchImage i) 0 []
            ∧ ((∀ y ∈ t.calls, y.service = i → y.phase = 0) → ((t.switchImage i).images.get {} i).active = v)
            ∧ ((∃ y ∈ t.calls, y.service = i ∧ y.phase = 1) →
                ((t.switchImage i).images.get {} i).active = (s2.images.get {} i).active)))
    ∧ (s.admits 24 c ps ws s2 → let i := field (w 1) 5 0
        (33 < i → s.returns .imageStatus c ps s2 1 [])
        ∧ (i ≤ 33 → (s2.images.get {} i).staged = none → s.returns .imageStatus c ps s2 0 [(2, w64 (s2.version i)), (3, 0)])
        ∧ (∀ v, i ≤ 33 → (s2.images.get {} i).staged = some v →
            s.returns .imageStatus c ps s2 0 [(2, w64 (s2.version i)), (3, w64 (v.version % 2 ^ 32 + 2 ^ 63))]))
    ∧ (s.admits 25 c ps ws s2 →
        (measured (field (w 1) 7 0) = none → s.returns .measureRead c ps s2 0 [(3, 0)])
        ∧ (∀ k, measured (field (w 1) 7 0) = some k → s2.buffer c (w 2) 48 true = (s3, .at qs) →
            s.returns .measureRead c ps (storeBuf qs (packWords (s3.measurement k)) s3) 0 [(3, 1)])
        ∧ (∀ k len text, (s2.images.get {} k).shown.text = some (len, text) → s2.measurement k = sha384 len text))
    ∧ (s.admits 26 c ps ws s2 → s2.buffer c (w 3) 256 false = (s3, .at qs) →
        let port (p : Nat) : Nat := s3.bufValue qs / 256 ^ p % 256
        ((∃ p < 256, 12 ≤ port p ∧ port p ≠ 255) → s.returns .zclConfig c ps s3 1 [])
        ∧ ((∀ p < 256, port p < 12 ∨ port p = 255) → ∃ t, s.returns .zclConfig c ps t 0 [] ∧ t.zclNumber = field (w 1) 7 0
            ∧ t.zclPorts = field (w 2) 11 0
            ∧ ∀ p < 256, t.routed p = (decide (port p < 12) && hasBit (field (w 2) 11 0) (port p))))
    ∧ (s.admits 27 c ps ws s2 → ∃ v rs, s.returns .zclStatus c ps { s2 with free := s2.free + 1 } 0 ((1, v) :: rs)
        ∧ v.toNat &&& s2.zclPorts = v.toNat ∧ rs.length = 4)
    ∧ (s.admits 28 c ps ws s2 → let pk := field (w 1) 7 0
        (pk = s2.zclNumber → s.returns .zclGrant c ps s2 1 [])
        ∧ (pk ≠ s2.zclNumber → s2.buffer c (w 3) 64 false = (s3, .at qs) → bit (w 2) 0 = true → bit (w 2) 1 = false →
            s3.zclIn = [] → ∃ t, s.returns .zclGrant c ps t 0 []
              ∧ ∀ i < 512, t.owns n (2 ^ 44 + pk * 2 ^ 40 + i * 2 ^ 31) = hasBit (s3.bufValue qs) i))
    ∧ (s.admits 29 c ps ws s2 → s.returns .timeSync c ps { s2 with timeBase := (w 1).toNat, timeAt := s2.cycle } 0 [])
    ∧ (s.admits 30 c ps ws s2 → let k := field (w 2) 3 0
        (k < 4 ∨ 12 < k → s.returns .eventRing c ps s2 1 [])
        ∧ (4 ≤ k → k ≤ 12 →
            s.returns .eventRing c ps { s2 with eventRing := some { base := w 1, k := k, tailAddr := w 3 } } 0 []))
    ∧ (s.admits 31 c ps ws s2 → s.returns .echo c ps s2 0 [(2, w 1)])

/-- R410, R430, R435 to R439, R442 to R448: events of the host link, of application cores and of package links, the
power controller, attestation, and the package reset, which leaves every register at its reset value and every word
of the device 0, empty and unpoisoned, and keeps the spare table. What survives a package reset besides the spare
table, and the arguments of the events, are the model's choice (log entries 8, 90, 91, 94, 118), as are the field
in which answers to agents outside the rills stand (log entry 129), the places of fields in BAR0 and the layout of the
MSI-X table (log entry 142), the bits that a write of HEAD takes and OVERFLOW's bit 0 (log entry 98), the answers to launch
stores (log entry 97), the window that AtomicOps need (log entry 99), and that a contained basin's channel answers the host as
one whose window is closed (log entry 141). -/
def Obligations.PackageEvents : Prop :=
  ∀ (s : State) (n m pk pa size line : Nat) (v y : Word),
    (∃ t, exec .packageReset s = .next t ∧ t.cycle = 0 ∧ t.ctxs = [] ∧ t.rills = [] ∧ t.basins = [] ∧ t.calls = []
      ∧ t.spareRills = s.spareRills ∧ t.spareGranules = s.spareGranules ∧ t.powerLimit = 3600
      ∧ (∀ a, a < 2 ^ 44 ∨ (2 ^ 56 ≤ a ∧ a < 2 ^ 60) →
          t.mem.byte a = 0 ∧ t.mem.isFull a = false ∧ t.mem.poisoned a = false))
    ∧ (pa < 2 ^ 40 → pa % 8 = 0 → s.windowOpen pa = true → s.lineFree (lineOf pa) true = true → s.requests = [] →
        s.agentSharers (lineOf pa) = [] →
        (∃ t, exec (.hostCxlMemAccess true pa v) s = .next t ∧ t.mem.read pa 8 = v.toNat ∧ lineOf pa ∈ t.hostCopies
          ∧ ∀ a, a < pa ∨ pa + 8 ≤ a → t.mem.byte a = s.mem.byte a)
        ∧ (∃ t, exec (.hostCxlMemAccess false pa v) s = .next t ∧ SameBytes s t ∧ lineOf pa ∈ t.hostCopies)
        ∧ (∃ t, exec (.hostAtomicop 0 8 pa v y) s = .next t ∧ t.mem.read pa 8 = (s.mem.read pa 8 + v.toNat) % 2 ^ 64
            ∧ ∀ a, a < pa ∨ pa + 8 ≤ a → t.mem.byte a = s.mem.byte a)
        ∧ (∃ t, exec (.hostAtomicop 1 8 pa v y) s = .next t ∧ t.mem.read pa 8 = v.toNat)
        ∧ (s.mem.read pa 8 = v.toNat → ∃ t, exec (.hostAtomicop 2 8 pa v y) s = .next t ∧ t.mem.read pa 8 = y.toNat)
        ∧ (s.mem.read pa 8 ≠ v.toNat → exec (.hostAtomicop 2 8 pa v y) s
            = .next ((s.recall (lineOf pa)).answerOuter (s.mem.load pa 8)))
        ∧ (∀ k ≤ 2, ∃ t, exec (.hostAtomicop k 8 pa v y) s = .next t ∧ t.reply = (w64 (s.mem.load pa 8).1, (s.mem.load pa 8).2))
        ∧ (bit v 0 = false → ∃ t, exec (.hostCxlMemAccess false pa v) s = .next t
            ∧ t.reply = (w64 (s.mem.load pa 8).1, (s.mem.load pa 8).2)))
    ∧ (isHost pa = true → pa % 8 = 0 → (s.fanouts.any fun f => f.line == lineOf pa) = false →
        ∃ t, exec (.hostCxlMemAccess true pa v) s = .next t ∧ t.mem.read pa 8 = v.toNat
          ∧ ∀ a, a < pa ∨ pa + 8 ≤ a → t.mem.byte a = s.mem.byte a)
    ∧ (pa < 2 ^ 40 → (s.windowOpen pa = true ↔ pa / 2 ^ 31 ∈ s.windows
        ∧ ¬ ((s.basin (s.gchans.get {} (pa / 2 ^ 31)).basin).contained = true
          ∧ (s.gchans.get {} (pa / 2 ^ 31)).ownedBy (s.gchans.get {} (pa / 2 ^ 31)).basin = true)))
    ∧ (isHost pa = false → s.windowOpen pa = false → exec (.hostCxlMemAccess true pa v) s = .next s
        ∧ (∃ t, exec (.hostCxlMemAccess false pa v) s = .next t ∧ t.reply.2 = true ∧ SameBytes s t)
        ∧ (pa % 8 = 0 → ∃ t, exec (.hostAtomicop 0 8 pa v y) s = .next t ∧ t.reply.2 = true ∧ SameBytes s t))
    ∧ (s.lineFree (2 ^ 54 + line) true = true → ∃ t, exec (.hostCxlCacheSnoop line) s = .next t ∧ SameBytes s t
        ∧ ∀ b, (t.braid b).l1.find (2 ^ 54 + line) = none)
    ∧ (∀ x, (s.basin n).hmsg = some x → ∃ t, exec (.hmsgRingHeadWrite n v) s = .next t
        ∧ (t.basin n).hmsg = some { x with head := v.toNat % 2 ^ x.k })
    ∧ (∀ x, (s.vfs.get {} n).notify = some x →
        (∃ t, exec (.notifyRingHeadWrite n v) s = .next t
          ∧ (t.vfs.get {} n).notify = some { x with head := v.toNat % 2 ^ x.k })
        ∧ (n < 2048 →
            (∃ t, exec (.notifyOverflowClear n 1) s = .next t ∧ (t.vfs.get {} n).notify = some { x with overflow := false })
            ∧ (∃ t, exec (.notifyOverflowClear n 0) s = .next t ∧ (t.vfs.get {} n).notify = some x)
            ∧ exec (.notifyOverflowClear (n + 2048 * (2 + 2 * 0x9008)) v) s
                = .next (s.answerOuter (if x.overflow then 1 else 0, false))))
    ∧ (n < 2048 → m < 32 →
        (∀ f : Vf, (f.masked m = true → (f.send m).msix = f.msix ∧ hasBit (f.send m).pba m = true)
          ∧ (f.masked m = false → (f.send m).msix = f.msix ++ [m] ∧ (f.send m).pba = f.pba))
        ∧ exec (.notifyOverflowClear (n + 2048 * (1 + 2 * (0xC000 + 16 * m + 8))) v) s
            = .next { s with vfs := s.vfs.put n ((s.vfs.get {} n).writeTable (2 * m + 1) v) }
        ∧ exec (.notifyOverflowClear (n + 2048 * (2 + 2 * (0xC000 + 16 * m + 8))) v) s
            = .next (s.answerOuter (((s.vfs.get {} n).tableWord (2 * m + 1)).toNat, false)))
    ∧ (∀ bs q ws s1, q ≤ 7 → n < 128 → s.coreBasin n = some bs → field v 6 0 = 0 →
        recordWords bs ((s.basin bs).queues.get {} q).aspace v.toNat 16 s = (s1, some (some ws)) →
        ∃ t, exec (.appCoreLaunchStore (q * 128 + n) v) s = .next t
          ∧ (t.cores.get {} n).launch = if (s1.basin bs).retries q then 1
              else if ({ id := 0, queue := q, words := ws } : Record).invalid then 2 else 0)
    ∧ (∀ bs q, q ≤ 7 → n < 128 → s.coreBasin n = some bs → field v 6 0 ≠ 0 →
        ∃ t, exec (.appCoreLaunchStore (q * 128 + n) v) s = .next t ∧ (t.cores.get {} n).launch = 2)
    ∧ ((s.cores.get {} n).fifo = [] → exec (.uifPop n) s = .next { s with reply := (0, false) })
    ∧ (∀ e rest, (s.cores.get {} n).fifo = e :: rest → ∃ t, exec (.uifPop n) s = .next t
        ∧ (t.cores.get {} n).fifo = rest ∧ t.reply = (Config.uifEntry e.1 e.2.1 e.2.2, false)
        ∧ ((∀ z ∈ rest, z.1 ≠ e.1) → hasBit (t.cores.get {} n).pending e.1 = false)
        ∧ ∀ i, i ≠ e.1 → hasBit (t.cores.get {} n).pending i = hasBit (s.cores.get {} n).pending i)
    ∧ (pk < 256 → pk ∉ s.mem.lost →
        ∃ t, exec (.linkRouteLoss pk) s = .next t ∧ pk ∈ t.mem.lost
          ∧ ∀ a, 2 ^ 44 + pk * 2 ^ 40 ≤ a → a < 2 ^ 44 + (pk + 1) * 2 ^ 40 → t.mem.byte a = 0 ∧ t.mem.poisoned a = true)
    ∧ exec (.routeReturn pk) s = .next { s with mem := { s.mem with lost := setErase s.mem.lost pk } }
    ∧ (∃ t, exec (.guestKeepaliveLoss pk) s = .next t
        ∧ ∀ b l, lineOfPackage pk l = true → (t.braid b).l1.find l = none)
    ∧ (pa < 2 ^ 40 → pa % 8 = 0 → (∃ g ∈ s.zclOut, g.1 = pk * 512 + pa / 2 ^ 31 ∧ s.channelOpen (pa / 2 ^ 31) g.2 = true) →
        pk ∉ s.mem.lost → s.requests = [] →
        (s.lineFree (lineOf pa) true = true → s.agentSharers (lineOf pa) = [] →
          (∃ t, exec (.zclRemoteRequest pk 1 pa (v, y)) s = .next t ∧ t.mem.read pa 8 = v.toNat ∧ (pk, lineOf pa, true) ∈ t.remote
            ∧ ∀ a, a < pa ∨ pa + 8 ≤ a → t.mem.byte a = s.mem.byte a)
          ∧ (∀ op < 9, ∃ t, exec (.zclRemoteRequest pk (2 + op) pa (v, y)) s = .next t
              ∧ t.mem.read pa 8 = amoNew op 8 (s.mem.read pa 8) v.toNat % 2 ^ 64 ∧ t.reply.1 = w64 (s.mem.read pa 8)
              ∧ ∀ a, a < pa ∨ pa + 8 ≤ a → t.mem.byte a = s.mem.byte a))
        ∧ (s.lineFree (lineOf pa) false = true → ∃ t, exec (.zclRemoteRequest pk 0 pa (v, y)) s = .next t
          ∧ SameBytes s t ∧ (pk, lineOf pa, false) ∈ t.remote ∧ t.reply = (w64 (s.mem.load pa 8).1, (s.mem.load pa 8).2)))
    ∧ (∀ bs, s.coreBasin n = some bs → pa < 2 ^ 40 → s.owns bs pa = false → ∃ t, exec (.applicationCoreAccess n size m pa v) s = .next t
        ∧ SameBytes s t ∧ (t.cores.get {} n).fault = some pa)
    ∧ (∀ bs, s.coreBasin n = some bs → pa < 2 ^ 40 → size ∈ [4, 8] → pa % size = 0 → s.owns bs pa = true → s.requests = [] →
        s.lineFree (lineOf pa) true = true → s.agentSharers (lineOf pa) = [] →
        (∃ t, exec (.applicationCoreAccess n 0 size pa v) s = .next t ∧ SameBytes s t)
        ∧ (∃ t, exec (.applicationCoreAccess n 1 size pa v) s = .next t
            ∧ t.mem.read pa size = v.toNat % 2 ^ (8 * size)
            ∧ ∀ a, a < pa ∨ pa + size ≤ a → t.mem.byte a = s.mem.byte a)
        ∧ (∀ op < 9, ∃ t, exec (.applicationCoreAccess n (2 + op) size pa v) s = .next t
            ∧ t.mem.read pa size = amoNew op size (s.mem.read pa size) v.toNat % 2 ^ (8 * size))
        ∧ (∃ t, exec (.applicationCoreAccess n 11 size pa v) s = .next t ∧ SameBytes s t
            ∧ (t.cores.get {} n).resv = some (lineOf pa))
        ∧ ((s.cores.get {} n).resv = some (lineOf pa) → ∃ t, exec (.applicationCoreAccess n 12 size pa v) s = .next t
            ∧ t.mem.read pa size = v.toNat % 2 ^ (8 * size) ∧ (t.cores.get {} n).resv = none)
        ∧ ((s.cores.get {} n).resv ≠ some (lineOf pa) → ∃ t, exec (.applicationCoreAccess n 12 size pa v) s = .next t
            ∧ SameBytes s t ∧ (t.cores.get {} n).resv = none))
    ∧ (s.verified = true → exec .configurationRequest s = .next s)
    ∧ (s.verified = false → 3300000000 ≤ s.cycle →
        ∃ t, exec .configurationRequest s = .next t ∧ t.verified = true)
    ∧ (let xs := (m :: s.powerSamples).take 100000
       ∃ t, exec (.powerMeasure m) s = .next t ∧ t.powerSamples = xs
        ∧ t.power1ms = sumOf (xs.take 100) / (xs.take 100).length ∧ t.power1s = sumOf xs / xs.length
        ∧ (s.budget = none → (t.budget.isSome = true ↔ s.powerLimit < t.power1s ∨ 3800 < t.power1ms))
        ∧ (∀ b, t.budget = some b → s.budget = none → 1 ≤ b))
    ∧ (s.budget = none → exec .powerBudgetAdjust s = .next s)
    ∧ (s.budget.isSome = true → ∃ t, exec .powerBudgetAdjust s = .next t
        ∧ (t.budget = none ↔ s.power1s < s.powerLimit ∧ s.power1ms < 3800) ∧ ∀ b, t.budget = some b → 1 ≤ b)
    ∧ (∀ i ∈ [(.getVersion v : Instr), .getCapabilities v, .negotiateAlgorithms v, .getDigests v, .getCertificate v,
          .challenge v, .getMeasurements v],
        ∃ t z ws, exec i s = .next t ∧ t = { s with spdm := s.spdm + 1, spdmReply := z :: ws }
          ∧ ∀ k, i = .getMeasurements v → measured v.toNat = some k → ws = s.measurement k)

/-- R36 to R60 and the encoding tables of the entries: the bytes of an encoded well-formed instruction decode to it,
whatever stands after them; and a word that decodes to an instruction is the one that the encoder gives for it, which is
well-formed. -/
def Obligations.EncodingsAgree : Prop :=
  (∀ (i : Instr) (e : Enc) (rest : List Byte), i.wf = true → encode i = some e →
     decodeBytes (tableBytes e.nbits e.word ++ rest) = .ok (i, rest) ∧ decodeTableWord e.nbits e.word = some i)
  ∧ (∀ (w : Nat) (i : Instr), 2 ^ 31 ≤ w → w < 2 ^ 32 → decode32 w = .ok i → i.wf = true ∧ encode i = some ⟨32, w⟩)
  ∧ (∀ (w : Nat) (i : Instr), w < 2 ^ 15 → decode16 w = .ok i → i.wf = true ∧ encode i = some ⟨16, w⟩)

/-- Words of the worked encodings of chapters 02 to 14, one of nearly each family, with their instructions. -/
def Obligations.WordsOfSpec : Prop :=
  ∀ x ∈ ([(32, 0x83242400, .add 18 8 9), (32, 0x8534245F, .divz 19 8 9 15), (32, 0x87452C90, .bperm 20 10 11),
      (32, 0x89807FFF, .addi 24 0 0x7FFF), (32, 0x911452C8, .extzi 17 8 11 8), (32, 0x92997FFB, .cmpi 1 1 18 0x7FFB),
      (32, 0x99542483, .sel 21 8 9 3), (32, 0x9A380040, .mwrfe 3 16)]
    ++ [(32, 0xA1342044, .ld 19 8 2 4 4), (32, 0xA5444720, .stIndexed 20 8 17 2 2 0), (32, 0xA728446F, .bmov 18 16 17 3 15),
      (32, 0xAB14863B, .lda 17 9 1 3 1 3), (32, 0xAD14001F, .ldfe 17 8 1 15), (32, 0xB12427B0, .cas 18 8 9 1 3 3 0),
      (32, 0xB2C8442F, .rupdAddzZ32 16 17 0 2 15), (32, 0xB31404AF, .vamo 1 8 1 2 1 0 15)]
    ++ [(32, 0xB5258030, .hmsg 18 11), (32, 0xB6080820, .barwait 16 2), (32, 0xC0000000 + 0xFFFC0, .bra 0xFFFC0),
      (32, 0xC8992FFC, .bcmp 9 18 2 0xFFC), (32, 0xCF100FF8, .loopn 17 0xFF8), (32, 0xD0208051, .vote 2 1 1),
      (32, 0xD908C8C7, .fma 16 17 18 0 7), (32, 0xDD140301, .fcvt 17 8 6 0 1)]
    ++ [(32, 0xE0063431, .vfma 0 12 13 0 1), (32, 0xE424442F, .vld 2 8 17 0 2 15), (32, 0xE6308502, .vcvt 3 1 1 4 0 2),
      (32, 0xED06462F, .sbindIn 1 0 17 4 2 15), (32, 0xEE204770, .copyf 0 17 6 7 0), (32, 0xF104CD2F, .mxldb 1 9 19 2 2 15),
      (32, 0xF40ADFF8, .tirrev 21 0xFF8), (32, 0xF604440F, .launch 8 17 15)]
    ++ [(32, 0xF9000401, .mfs 16 0 1 0 1), (32, 0xF808C885, .mts 0 17 18 0 5), (32, 0xF9284540, .cstart 18 16 17),
      (32, 0xFA144000 + 0x8400, .bhome 9 17), (16, 0x060A, .movH 16 10), (16, 0x37FD, .bH 0x3FD), (16, 0x4540, .ifq 2 1),
      (16, 0x4C00, .haltH)] : List (Nat × Nat × Instr)),
    decodeTableWord x.1 x.2.1 = some x.2.2

/-- R64, R79, R82: a step takes the next event of the agenda; with no event and no grant it sees what is due by
itself; and a granted unfused thread that may issue fetches its line and runs the instruction that its unit decodes
to, at the address and with the length of that unit. A unit that is held leaves its context as it was but for the
hold. The agenda and the order of what is due are the model's choice (log entries 6 and 7). -/
def Obligations.StepRuns : Prop :=
  (∀ (s : State) (i : Instr) (rest : List Instr), s.agenda = i :: rest → step s = exec i { s with agenda := rest })
  ∧ (∀ s : State, s.agenda = [] → s.grant = none → step s = .next s.idle)
  ∧ (∀ (s s1 t : State) (p : Pos) (d : Nat) (i : Instr) (u : DUnit),
      s.agenda = [] → s.grant = some p → (s.ctx p).wait = none → s.groupOf p = none →
      let z : State := { s with grant := none }
      let pc := (s.ctx p).pc
      z.canIssue p = true → z.abortAsked p = false → (s.ctx p).lookaheadFull = false → z.fetch p pc = (s1, .line d) →
      s1.groupOf p = none → u = decodeUnit d pc → u.act = .instr i → u.pfx = none →
      poisonedUnit d (pc.toNat % 64) u.len = false → (s1.ctx p).breaksCapture u = false → (s1.ctx p).team = none →
      let e := s1.enter u [p]
      let x := e.atUnit u pc p
      e.overBudget p = false → exec i x = .next t →
      x.cur = p ∧ x.upc = pc ∧ x.ipc = pc ∧ x.nextPc = pc + w64 (2 * u.len)
        ∧ (s1.overtakes t p = false → (t.ctx p).held = none → step s = .next ((s1.leaveUnit t pc [p]).markSlot [p]))
        ∧ ((t.ctx p).held.isSome = true → (t.ctx p).left = none →
            step s = .next ((s1.heldUnit t [p]).markSlot [p])))
  ∧ (∀ (d : Nat) (pc : Word) (i : Instr),
      let at_ := pc.toNat % 64
      let h := halfAt d at_
      isGuard (halfAt d 0) = false → isGuard h = false → (∀ y, i ≠ .illegal y ∧ i ≠ .extensionSpace y) →
      (∀ y, i ≠ .illegalH y ∧ i ≠ .poolguard y) →
      (h < 0x8000 → isIfq h = false → decode16 h = .ok i →
        decodeUnit d pc = { act := .instr i, len := 1, words := h, iword := h })
      ∧ (0x8000 ≤ h → at_ ≠ 62 → decode32 (h * 65536 + halfAt d (at_ + 2)) = .ok i →
          decodeUnit d pc = { act := .instr i, len := 2, words := h * 65536 + halfAt d (at_ + 2)
                              iword := h * 65536 + halfAt d (at_ + 2) }))

/-- Every instruction and every event ends in a next state, and so does every step: the model holds no fault and no
refusal. -/
def Obligations.NeverStops : Prop :=
  (∀ (i : Instr) (s : State), ∃ t, exec i s = .next t) ∧ ∀ s : State, ∃ t, step s = .next t

/-- R15, R17, R58, R120, R134, R227, R235, R328, R329, R447, R448: what reset leaves. Every context is empty with
its registers 0, no granule belongs to a basin, rill n is physical rill n and physical rill 8 the spare, shared
registers are empty, the system registers hold their reset values, and memory lists nothing. Zero in host memory,
COUNT 1 of a barrier, the versions of images and the registers of cores are the model's choice (log entries 1, 2,
109, 110). -/
def Obligations.ResetState : Prop :=
  let s := State.reset
  MemoryCanonical s ∧ (∀ a, s.mem.byte a = 0 ∧ s.mem.isFull a = false ∧ s.mem.poisoned a = false)
  ∧ (∀ p, (s.ctx p).run = .empty ∧ (∀ r, (s.ctx p).reg r = { val := 0 }) ∧ (∀ q, q ≠ 0 → (s.ctx p).pred q = { val := false })
      ∧ (s.ctx p).pred 0 = { val := true } ∧ (∀ n, (s.ctx p).vreg n = { val := 0 }) ∧ (∀ n, (s.ctx p).oxReg n = { val := 0 }))
  ∧ (∀ b n, (s.braid b).l2p.get n n = n ∧ (s.braid b).spare = some 8)
  ∧ (∀ kind n, s.gran kind n = {}) ∧ (∀ n, (s.basin n).alive = false)
  ∧ (∀ b r m, (s.rill b r).shared 0 m = { val := 0, full := false })
  ∧ (∀ p : Pos, s.srAt p 0x020 = 0 ∧ s.srAt p 0x021 = 0 ∧ s.srAt p 0x022 = 0x6A09E667 ∧ s.srAt p 0x051 = 0x10000
      ∧ s.srAt p 0x052 = 8 ∧ s.srAt p 0x040 = 0xFFFF ∧ s.srAt p 0x041 = 0xFFFF ∧ s.srAt p 0x099 = 0xFFFFFFFFFFFFFFFF
      ∧ s.srAt p 0x050 = 0 ∧ s.srAt p 0x080 = 0 ∧ s.readSr p 0x081 = 0)
  ∧ (∀ t : State, ∀ p : Pos, t.readSr p 0x081 = 0) ∧ (∀ p : Pos, s.readSr p 0x000 = w64 p.k)
  ∧ s.powerLimit = 3600 ∧ s.spareGranules = [] ∧ s.spareRills = []

/-- R28, R447: every step keeps memory in its canonical form. -/
def Obligations.StepKeepsCanonical : Prop := ∀ s t : State, MemoryCanonical s → step s = .next t → MemoryCanonical t

/-- R45, R118, R120: frames. The integer instructions change, of the whole machine, only their thread, and of its
registers only the destination; predicate writers only their predicate; branches none. g0 and q0 discard a write. A load
or store that is sent changes no byte of memory and no register but a load's destination, which is empty. -/
def Obligations.RegisterFrames : Prop :=
  ∀ (s t : State) (d a b j : BitVec 5) (n : BitVec 2) (i : BitVec 15) (p l : BitVec 6) (u20 : BitVec 20) (q qa qb qn c : BitVec 3)
      (k : BitVec 2) (p12 : BitVec 12) (p10 : BitVec 10) (p6 : BitVec 6),
    (∀ x ∈ (twoSources d a b n).map Prod.fst ++ (twoSourcesH d b).map Prod.fst ++ (oneSource d a i l p).map Prod.fst
        ++ (oneSourceH d j).map Prod.fst ++ [.movH d b, .moviH d j, .lui d u20, .addpc d u20, .insi d a l p, .ins d a b,
          .sel d a b qn, .mvqr d qa],
      exec x s = .next t → OnlyMe s t ∧ SameBytes s t ∧ SameRegs s t [d] [])
    ∧ (∀ x ∈ (predicateForms q qa qb).map Prod.fst ++ [.cmp q a b c, .cmpi k q a i, .mvrq q a],
        exec x s = .next t → OnlyMe s t ∧ SameBytes s t ∧ SameRegs s t [] [q])
    ∧ (∀ x ∈ branches s q c a b j u20 p12 p10 p6, s.clean a → s.clean b → s.cleanQ q → (x.2.1 = true → goodTarget x.2.2) →
        exec x.1 s = .next t → OnlyMe s t ∧ SameBytes s t ∧ SameRegs s t [] [])
    ∧ (∀ v w, (d ≠ 0 → (s.put d v w).me.reg d = { val := v, poison := w }) ∧ (∀ r, (s.put 0 v w).me.reg r = s.me.reg r)
        ∧ (s.put d v w).me.pc = s.nextPc)
    ∧ (∀ v w, (q ≠ 0 → (s.putQ q v w).me.pred q = { val := v, poison := w }) ∧ (∀ r, (s.putQ 0 v w).me.pred r = s.me.pred r)
        ∧ (s.putQ q v w).me.pc = s.nextPc)
    ∧ (∀ (s1 : State) (ty : BitVec 3) (p8 : BitVec 8) (la : BitVec 4) (a1 : Access), ∀ x ∈ plainAccesses s d a b ty k n p8 la,
        s.plain → s.ready d → s.clean a → s.clean b → s.cur.k = 15 ∨ 0 < s.myRill.replayRoom →
        addressFault x.acc.va x.acc.size false true = none → s.passes x.acc s1 a1 → exec x.instr s = .next t →
        SameBytes s t ∧ (∀ r, r ≠ d ∨ x.dests = [] → t.me.reg r = s.me.reg r)
          ∧ (x.dests ≠ [] → d ≠ 0 → (t.me.reg d).full = false) ∧ (∀ r, t.me.pred r = s.me.pred r) ∧ t.me.v = s.me.v
          ∧ t.me.ox = s.me.ox ∧ t.me.ix = s.me.ix ∧ t.me.sr = s.me.sr)

/-- R126 to R128: extraction and insertion bit by bit, byte permutation byte by byte, and the counting and reversing
functions; INSI and INS keep the poison of d. -/
def Obligations.BitFieldFunctions : Prop :=
  ∀ (x y old : Word) (pos len : Nat), 1 ≤ len → len ≤ 64 →
    (∀ i < 64, bit (extract x pos len false) i = (decide (i < len) && bit x (pos + i)))
    ∧ (∀ i < 64, bit (extract x pos len true) i = bit x (pos + min i (len - 1)))
    ∧ (∀ i < 64, bit (insert old x pos len) i = if pos ≤ i ∧ i < pos + len then bit x (i - pos) else bit old i)
    ∧ (∀ i < 8, field (bpermW x y) (8 * i + 7) (8 * i) =
        let c := field y (8 * i + 7) (8 * i)
        let z := field x (8 * (c % 8) + 7) (8 * (c % 8))
        if 128 ≤ c then 0 else if 64 ≤ c then (if 128 ≤ z then 255 else 0) else z)
    ∧ (∀ i < 64, bit (brevW x) i = bit x (63 - i))
    ∧ (∀ i < 8, field (bswapW x) (8 * i + 7) (8 * i) = field x (8 * (7 - i) + 7) (8 * (7 - i)))
    ∧ popcW x = w64 ((List.range 64).filter (bit x)).length
    ∧ (∃ n ≤ 64, clzW x = w64 n ∧ (∀ i, 64 - n ≤ i → i < 64 → bit x i = false) ∧ (n < 64 → bit x (63 - n) = true))
    ∧ (∃ n ≤ 64, ctzW x = w64 n ∧ (∀ i < n, bit x i = false) ∧ (n < 64 → bit x n = true))
    ∧ (∃ n ≤ 63, clsW x = w64 n ∧ (∀ i, 63 - n ≤ i → i < 63 → bit x i = bit x 63) ∧ (n < 63 → bit x (62 - n) ≠ bit x 63))
    ∧ (∀ (s : State) (d a b : BitVec 5) (l p : BitVec 6), s.ready d → s.ready a → s.ready b → s.bad d = true →
        (∃ v, exec (.insi d a l p) s = .next (s.put d v true)) ∧ ∃ v, exec (.ins d a b) s = .next (s.put d v true))
end

