-- ==== Sys2Proof/Laws/Table.lean ====
section
/-! SUPPORT. Laws of sparse tables and of sets as rising lists. They hold of any list, sorted or not, but
where they speak of the order. -/

namespace Sys2Proof.Machine

variable {α : Type}

@[simp] theorem Table.get_nil (d : α) (k : Nat) : Table.get d [] k = d := rfl

/-- Reading what was just written. -/
@[simp] theorem Table.get_put_same (d : α) (t : Table α) (k : Nat) (v : α) : (t.put k v).get d k = v := by
  induction t with
  | nil => simp [Table.put, Table.get]
  | cons e t ih =>
    obtain ⟨j, w⟩ := e
    simp only [Table.put]
    split
    · simp [Table.get]
    · split
      · simp [Table.get]
      · next h => simp [Table.get, Ne.symm h, ih]

/-- A write leaves every other entry alone. -/
theorem Table.get_put_other (d : α) (t : Table α) {k j : Nat} (v : α) (h : j ≠ k) : (t.put k v).get d j = t.get d j := by
  induction t with
  | nil => simp [Table.put, Table.get, Ne.symm h]
  | cons e t ih =>
    obtain ⟨i, w⟩ := e
    simp only [Table.put]
    split
    · simp [Table.get, Ne.symm h]
    · split
      · next hk => subst hk; simp [Table.get, Ne.symm h]
      · simp [Table.get, ih]

theorem Table.get_put (d : α) (t : Table α) (k j : Nat) (v : α) : (t.put k v).get d j = if j = k then v else t.get d j := by
  split
  · next h => subst h; simp
  · next h => exact Table.get_put_other d t v h

/-- The second of two writes to one entry remains. -/
@[simp] theorem Table.put_put (t : Table α) (k : Nat) (v w : α) : (t.put k v).put k w = t.put k w := by
  induction t with
  | nil => simp [Table.put]
  | cons e t ih =>
    obtain ⟨j, x⟩ := e
    simp only [Table.put]
    split
    · simp [Table.put]
    · split
      · simp [Table.put]
      · next h1 h2 => simp [Table.put, h1, h2, ih]

/-- Changing every listed entry, where the default stays the default. -/
theorem Table.get_update (d : α) (t : Table α) (f : Nat → α → α) (k : Nat) (h : f k d = d) :
    (t.update f).get d k = f k (t.get d k) := by
  induction t with
  | nil => simp [Table.update, h]
  | cons e t ih =>
    obtain ⟨j, w⟩ := e
    simp only [Table.update, List.map_cons, Table.get] at ih ⊢
    split
    · next hj => rw [hj]
    · exact ih

theorem Table.get_drop_same (d : α) (t : Table α) (k : Nat) : (t.drop k).get d k = d := by
  induction t with
  | nil => rfl
  | cons e t ih =>
    obtain ⟨j, w⟩ := e
    simp only [Table.drop, List.filter_cons] at ih ⊢
    by_cases h : j = k
    · simpa [h] using ih
    · simp only [bne_iff_ne, ne_eq, h, not_false_eq_true, ↓reduceIte, Table.get]
      exact ih

theorem Table.get_drop_other (d : α) (t : Table α) {k j : Nat} (h : j ≠ k) : (t.drop k).get d j = t.get d j := by
  induction t with
  | nil => rfl
  | cons e t ih =>
    obtain ⟨i, w⟩ := e
    simp only [Table.drop, List.filter_cons] at ih ⊢
    by_cases hk : i = k
    · subst hk; simp [Table.get, Ne.symm h, ih]
    · simp [Table.get, hk, ih]

/-! ### Sets -/

@[simp] theorem mem_setInsert (t : List Nat) (k j : Nat) : j ∈ setInsert t k ↔ j = k ∨ j ∈ t := by
  induction t with
  | nil => simp [setInsert]
  | cons i t ih =>
    simp only [setInsert]
    split
    · simp
    · split
      · next h => subst h; simp
      · simp only [List.mem_cons, ih]; tauto

@[simp] theorem mem_setErase (t : List Nat) (k j : Nat) : j ∈ setErase t k ↔ j ∈ t ∧ j ≠ k := by
  simp [setErase]

theorem mem_setTo (t : List Nat) (k j : Nat) (b : Bool) : j ∈ setTo t k b ↔ (j = k ∧ b = true) ∨ (j ≠ k ∧ j ∈ t) := by
  cases b <;> simp only [setTo, if_true, if_false, Bool.false_eq_true, mem_setInsert, mem_setErase] <;> tauto

theorem contains_setTo (t : List Nat) (k j : Nat) (b : Bool) :
    (setTo t k b).contains j = if j = k then b else t.contains j := by
  rw [Bool.eq_iff_iff, List.contains_iff_mem, mem_setTo]
  split
  · next h => simp [h]
  · next h => simp [h]

end Sys2Proof.Machine
end

