-- ==== Sys2Proof/Laws/State.lean ====
section
/-! SUPPORT. What each update of the state leaves alone, one lemma a field, and what its own accessor reads after it. -/

namespace Sys2Proof.Machine

/-! ### setCtx -/

@[simp] theorem State.setCtx_mem (s : State) (p : Pos) (c : Ctx) : (s.setCtx p c).mem = s.mem := rfl
@[simp] theorem State.setCtx_rills (s : State) (p : Pos) (c : Ctx) : (s.setCtx p c).rills = s.rills := rfl
@[simp] theorem State.setCtx_braids (s : State) (p : Pos) (c : Ctx) : (s.setCtx p c).braids = s.braids := rfl
@[simp] theorem State.setCtx_basins (s : State) (p : Pos) (c : Ctx) : (s.setCtx p c).basins = s.basins := rfl
@[simp] theorem State.setCtx_gslices (s : State) (p : Pos) (c : Ctx) : (s.setCtx p c).gslices = s.gslices := rfl
@[simp] theorem State.setCtx_gchans (s : State) (p : Pos) (c : Ctx) : (s.setCtx p c).gchans = s.gchans := rfl
@[simp] theorem State.setCtx_cores (s : State) (p : Pos) (c : Ctx) : (s.setCtx p c).cores = s.cores := rfl
@[simp] theorem State.setCtx_vfs (s : State) (p : Pos) (c : Ctx) : (s.setCtx p c).vfs = s.vfs := rfl
@[simp] theorem State.setCtx_cycle (s : State) (p : Pos) (c : Ctx) : (s.setCtx p c).cycle = s.cycle := rfl
@[simp] theorem State.setCtx_requests (s : State) (p : Pos) (c : Ctx) : (s.setCtx p c).requests = s.requests := rfl
@[simp] theorem State.setCtx_packets (s : State) (p : Pos) (c : Ctx) : (s.setCtx p c).packets = s.packets := rfl
@[simp] theorem State.setCtx_portNext (s : State) (p : Pos) (c : Ctx) : (s.setCtx p c).portNext = s.portNext := rfl
@[simp] theorem State.setCtx_fanouts (s : State) (p : Pos) (c : Ctx) : (s.setCtx p c).fanouts = s.fanouts := rfl
@[simp] theorem State.setCtx_locks (s : State) (p : Pos) (c : Ctx) : (s.setCtx p c).locks = s.locks := rfl
@[simp] theorem State.setCtx_ats (s : State) (p : Pos) (c : Ctx) : (s.setCtx p c).ats = s.ats := rfl
@[simp] theorem State.setCtx_misses (s : State) (p : Pos) (c : Ctx) : (s.setCtx p c).misses = s.misses := rfl
@[simp] theorem State.setCtx_triggers (s : State) (p : Pos) (c : Ctx) : (s.setCtx p c).triggers = s.triggers := rfl
@[simp] theorem State.setCtx_calls (s : State) (p : Pos) (c : Ctx) : (s.setCtx p c).calls = s.calls := rfl
@[simp] theorem State.setCtx_lastServed (s : State) (p : Pos) (c : Ctx) : (s.setCtx p c).lastServed = s.lastServed := rfl
@[simp] theorem State.setCtx_mailbox (s : State) (p : Pos) (c : Ctx) : (s.setCtx p c).mailbox = s.mailbox := rfl
@[simp] theorem State.setCtx_mailStatus (s : State) (p : Pos) (c : Ctx) : (s.setCtx p c).mailStatus = s.mailStatus := rfl
@[simp] theorem State.setCtx_msix (s : State) (p : Pos) (c : Ctx) : (s.setCtx p c).msix = s.msix := rfl
@[simp] theorem State.setCtx_eventRing (s : State) (p : Pos) (c : Ctx) : (s.setCtx p c).eventRing = s.eventRing := rfl
@[simp] theorem State.setCtx_errlog (s : State) (p : Pos) (c : Ctx) : (s.setCtx p c).errlog = s.errlog := rfl
@[simp] theorem State.setCtx_errRead (s : State) (p : Pos) (c : Ctx) : (s.setCtx p c).errRead = s.errRead := rfl
@[simp] theorem State.setCtx_timeBase (s : State) (p : Pos) (c : Ctx) : (s.setCtx p c).timeBase = s.timeBase := rfl
@[simp] theorem State.setCtx_timeAt (s : State) (p : Pos) (c : Ctx) : (s.setCtx p c).timeAt = s.timeAt := rfl
@[simp] theorem State.setCtx_images (s : State) (p : Pos) (c : Ctx) : (s.setCtx p c).images = s.images := rfl
@[simp] theorem State.setCtx_verified (s : State) (p : Pos) (c : Ctx) : (s.setCtx p c).verified = s.verified := rfl
@[simp] theorem State.setCtx_spareGranules (s : State) (p : Pos) (c : Ctx) : (s.setCtx p c).spareGranules = s.spareGranules := rfl
@[simp] theorem State.setCtx_spareRills (s : State) (p : Pos) (c : Ctx) : (s.setCtx p c).spareRills = s.spareRills := rfl
@[simp] theorem State.setCtx_windows (s : State) (p : Pos) (c : Ctx) : (s.setCtx p c).windows = s.windows := rfl
@[simp] theorem State.setCtx_hostCopies (s : State) (p : Pos) (c : Ctx) : (s.setCtx p c).hostCopies = s.hostCopies := rfl
@[simp] theorem State.setCtx_zclNumber (s : State) (p : Pos) (c : Ctx) : (s.setCtx p c).zclNumber = s.zclNumber := rfl
@[simp] theorem State.setCtx_zclPorts (s : State) (p : Pos) (c : Ctx) : (s.setCtx p c).zclPorts = s.zclPorts := rfl
@[simp] theorem State.setCtx_zclRoutes (s : State) (p : Pos) (c : Ctx) : (s.setCtx p c).zclRoutes = s.zclRoutes := rfl
@[simp] theorem State.setCtx_zclIn (s : State) (p : Pos) (c : Ctx) : (s.setCtx p c).zclIn = s.zclIn := rfl
@[simp] theorem State.setCtx_zclOut (s : State) (p : Pos) (c : Ctx) : (s.setCtx p c).zclOut = s.zclOut := rfl
@[simp] theorem State.setCtx_remote (s : State) (p : Pos) (c : Ctx) : (s.setCtx p c).remote = s.remote := rfl
@[simp] theorem State.setCtx_powerSamples (s : State) (p : Pos) (c : Ctx) : (s.setCtx p c).powerSamples = s.powerSamples := rfl
@[simp] theorem State.setCtx_powerLimit (s : State) (p : Pos) (c : Ctx) : (s.setCtx p c).powerLimit = s.powerLimit := rfl
@[simp] theorem State.setCtx_power1ms (s : State) (p : Pos) (c : Ctx) : (s.setCtx p c).power1ms = s.power1ms := rfl
@[simp] theorem State.setCtx_power1s (s : State) (p : Pos) (c : Ctx) : (s.setCtx p c).power1s = s.power1s := rfl
@[simp] theorem State.setCtx_budget (s : State) (p : Pos) (c : Ctx) : (s.setCtx p c).budget = s.budget := rfl
@[simp] theorem State.setCtx_spdm (s : State) (p : Pos) (c : Ctx) : (s.setCtx p c).spdm = s.spdm := rfl
@[simp] theorem State.setCtx_spdmReply (s : State) (p : Pos) (c : Ctx) : (s.setCtx p c).spdmReply = s.spdmReply := rfl
@[simp] theorem State.setCtx_reply (s : State) (p : Pos) (c : Ctx) : (s.setCtx p c).reply = s.reply := rfl
@[simp] theorem State.setCtx_nextRecord (s : State) (p : Pos) (c : Ctx) : (s.setCtx p c).nextRecord = s.nextRecord := rfl
@[simp] theorem State.setCtx_raises (s : State) (p : Pos) (c : Ctx) : (s.setCtx p c).raises = s.raises := rfl
@[simp] theorem State.setCtx_lineWaits (s : State) (p : Pos) (c : Ctx) : (s.setCtx p c).lineWaits = s.lineWaits := rfl
@[simp] theorem State.setCtx_badTags (s : State) (p : Pos) (c : Ctx) : (s.setCtx p c).badTags = s.badTags := rfl
@[simp] theorem State.setCtx_nextId (s : State) (p : Pos) (c : Ctx) : (s.setCtx p c).nextId = s.nextId := rfl
@[simp] theorem State.setCtx_free (s : State) (p : Pos) (c : Ctx) : (s.setCtx p c).free = s.free := rfl
@[simp] theorem State.setCtx_cur (s : State) (p : Pos) (c : Ctx) : (s.setCtx p c).cur = s.cur := rfl
@[simp] theorem State.setCtx_upc (s : State) (p : Pos) (c : Ctx) : (s.setCtx p c).upc = s.upc := rfl
@[simp] theorem State.setCtx_ipc (s : State) (p : Pos) (c : Ctx) : (s.setCtx p c).ipc = s.ipc := rfl
@[simp] theorem State.setCtx_ulen (s : State) (p : Pos) (c : Ctx) : (s.setCtx p c).ulen = s.ulen := rfl
@[simp] theorem State.setCtx_uw (s : State) (p : Pos) (c : Ctx) : (s.setCtx p c).uw = s.uw := rfl
@[simp] theorem State.setCtx_iword (s : State) (p : Pos) (c : Ctx) : (s.setCtx p c).iword = s.iword := rfl
@[simp] theorem State.setCtx_cond (s : State) (p : Pos) (c : Ctx) : (s.setCtx p c).cond = s.cond := rfl
@[simp] theorem State.setCtx_xlanes (s : State) (p : Pos) (c : Ctx) : (s.setCtx p c).xlanes = s.xlanes := rfl
@[simp] theorem State.setCtx_moved (s : State) (p : Pos) (c : Ctx) : (s.setCtx p c).moved = s.moved := rfl
@[simp] theorem State.setCtx_agenda (s : State) (p : Pos) (c : Ctx) : (s.setCtx p c).agenda = s.agenda := rfl
@[simp] theorem State.setCtx_grant (s : State) (p : Pos) (c : Ctx) : (s.setCtx p c).grant = s.grant := rfl
@[simp] theorem State.setCtx_offered (s : State) (p : Pos) (c : Ctx) : (s.setCtx p c).offered = s.offered := rfl

/-! ### modCtx -/

@[simp] theorem State.modCtx_mem (s : State) (p : Pos) (f : Ctx → Ctx) : (s.modCtx p f).mem = s.mem := rfl
@[simp] theorem State.modCtx_rills (s : State) (p : Pos) (f : Ctx → Ctx) : (s.modCtx p f).rills = s.rills := rfl
@[simp] theorem State.modCtx_braids (s : State) (p : Pos) (f : Ctx → Ctx) : (s.modCtx p f).braids = s.braids := rfl
@[simp] theorem State.modCtx_basins (s : State) (p : Pos) (f : Ctx → Ctx) : (s.modCtx p f).basins = s.basins := rfl
@[simp] theorem State.modCtx_gslices (s : State) (p : Pos) (f : Ctx → Ctx) : (s.modCtx p f).gslices = s.gslices := rfl
@[simp] theorem State.modCtx_gchans (s : State) (p : Pos) (f : Ctx → Ctx) : (s.modCtx p f).gchans = s.gchans := rfl
@[simp] theorem State.modCtx_cores (s : State) (p : Pos) (f : Ctx → Ctx) : (s.modCtx p f).cores = s.cores := rfl
@[simp] theorem State.modCtx_vfs (s : State) (p : Pos) (f : Ctx → Ctx) : (s.modCtx p f).vfs = s.vfs := rfl
@[simp] theorem State.modCtx_cycle (s : State) (p : Pos) (f : Ctx → Ctx) : (s.modCtx p f).cycle = s.cycle := rfl
@[simp] theorem State.modCtx_requests (s : State) (p : Pos) (f : Ctx → Ctx) : (s.modCtx p f).requests = s.requests := rfl
@[simp] theorem State.modCtx_packets (s : State) (p : Pos) (f : Ctx → Ctx) : (s.modCtx p f).packets = s.packets := rfl
@[simp] theorem State.modCtx_portNext (s : State) (p : Pos) (f : Ctx → Ctx) : (s.modCtx p f).portNext = s.portNext := rfl
@[simp] theorem State.modCtx_fanouts (s : State) (p : Pos) (f : Ctx → Ctx) : (s.modCtx p f).fanouts = s.fanouts := rfl
@[simp] theorem State.modCtx_locks (s : State) (p : Pos) (f : Ctx → Ctx) : (s.modCtx p f).locks = s.locks := rfl
@[simp] theorem State.modCtx_ats (s : State) (p : Pos) (f : Ctx → Ctx) : (s.modCtx p f).ats = s.ats := rfl
@[simp] theorem State.modCtx_misses (s : State) (p : Pos) (f : Ctx → Ctx) : (s.modCtx p f).misses = s.misses := rfl
@[simp] theorem State.modCtx_triggers (s : State) (p : Pos) (f : Ctx → Ctx) : (s.modCtx p f).triggers = s.triggers := rfl
@[simp] theorem State.modCtx_calls (s : State) (p : Pos) (f : Ctx → Ctx) : (s.modCtx p f).calls = s.calls := rfl
@[simp] theorem State.modCtx_lastServed (s : State) (p : Pos) (f : Ctx → Ctx) : (s.modCtx p f).lastServed = s.lastServed := rfl
@[simp] theorem State.modCtx_mailbox (s : State) (p : Pos) (f : Ctx → Ctx) : (s.modCtx p f).mailbox = s.mailbox := rfl
@[simp] theorem State.modCtx_mailStatus (s : State) (p : Pos) (f : Ctx → Ctx) : (s.modCtx p f).mailStatus = s.mailStatus := rfl
@[simp] theorem State.modCtx_msix (s : State) (p : Pos) (f : Ctx → Ctx) : (s.modCtx p f).msix = s.msix := rfl
@[simp] theorem State.modCtx_eventRing (s : State) (p : Pos) (f : Ctx → Ctx) : (s.modCtx p f).eventRing = s.eventRing := rfl
@[simp] theorem State.modCtx_errlog (s : State) (p : Pos) (f : Ctx → Ctx) : (s.modCtx p f).errlog = s.errlog := rfl
@[simp] theorem State.modCtx_errRead (s : State) (p : Pos) (f : Ctx → Ctx) : (s.modCtx p f).errRead = s.errRead := rfl
@[simp] theorem State.modCtx_timeBase (s : State) (p : Pos) (f : Ctx → Ctx) : (s.modCtx p f).timeBase = s.timeBase := rfl
@[simp] theorem State.modCtx_timeAt (s : State) (p : Pos) (f : Ctx → Ctx) : (s.modCtx p f).timeAt = s.timeAt := rfl
@[simp] theorem State.modCtx_images (s : State) (p : Pos) (f : Ctx → Ctx) : (s.modCtx p f).images = s.images := rfl
@[simp] theorem State.modCtx_verified (s : State) (p : Pos) (f : Ctx → Ctx) : (s.modCtx p f).verified = s.verified := rfl
@[simp] theorem State.modCtx_spareGranules (s : State) (p : Pos) (f : Ctx → Ctx) : (s.modCtx p f).spareGranules = s.spareGranules := rfl
@[simp] theorem State.modCtx_spareRills (s : State) (p : Pos) (f : Ctx → Ctx) : (s.modCtx p f).spareRills = s.spareRills := rfl
@[simp] theorem State.modCtx_windows (s : State) (p : Pos) (f : Ctx → Ctx) : (s.modCtx p f).windows = s.windows := rfl
@[simp] theorem State.modCtx_hostCopies (s : State) (p : Pos) (f : Ctx → Ctx) : (s.modCtx p f).hostCopies = s.hostCopies := rfl
@[simp] theorem State.modCtx_zclNumber (s : State) (p : Pos) (f : Ctx → Ctx) : (s.modCtx p f).zclNumber = s.zclNumber := rfl
@[simp] theorem State.modCtx_zclPorts (s : State) (p : Pos) (f : Ctx → Ctx) : (s.modCtx p f).zclPorts = s.zclPorts := rfl
@[simp] theorem State.modCtx_zclRoutes (s : State) (p : Pos) (f : Ctx → Ctx) : (s.modCtx p f).zclRoutes = s.zclRoutes := rfl
@[simp] theorem State.modCtx_zclIn (s : State) (p : Pos) (f : Ctx → Ctx) : (s.modCtx p f).zclIn = s.zclIn := rfl
@[simp] theorem State.modCtx_zclOut (s : State) (p : Pos) (f : Ctx → Ctx) : (s.modCtx p f).zclOut = s.zclOut := rfl
@[simp] theorem State.modCtx_remote (s : State) (p : Pos) (f : Ctx → Ctx) : (s.modCtx p f).remote = s.remote := rfl
@[simp] theorem State.modCtx_powerSamples (s : State) (p : Pos) (f : Ctx → Ctx) : (s.modCtx p f).powerSamples = s.powerSamples := rfl
@[simp] theorem State.modCtx_powerLimit (s : State) (p : Pos) (f : Ctx → Ctx) : (s.modCtx p f).powerLimit = s.powerLimit := rfl
@[simp] theorem State.modCtx_power1ms (s : State) (p : Pos) (f : Ctx → Ctx) : (s.modCtx p f).power1ms = s.power1ms := rfl
@[simp] theorem State.modCtx_power1s (s : State) (p : Pos) (f : Ctx → Ctx) : (s.modCtx p f).power1s = s.power1s := rfl
@[simp] theorem State.modCtx_budget (s : State) (p : Pos) (f : Ctx → Ctx) : (s.modCtx p f).budget = s.budget := rfl
@[simp] theorem State.modCtx_spdm (s : State) (p : Pos) (f : Ctx → Ctx) : (s.modCtx p f).spdm = s.spdm := rfl
@[simp] theorem State.modCtx_spdmReply (s : State) (p : Pos) (f : Ctx → Ctx) : (s.modCtx p f).spdmReply = s.spdmReply := rfl
@[simp] theorem State.modCtx_reply (s : State) (p : Pos) (f : Ctx → Ctx) : (s.modCtx p f).reply = s.reply := rfl
@[simp] theorem State.modCtx_nextRecord (s : State) (p : Pos) (f : Ctx → Ctx) : (s.modCtx p f).nextRecord = s.nextRecord := rfl
@[simp] theorem State.modCtx_raises (s : State) (p : Pos) (f : Ctx → Ctx) : (s.modCtx p f).raises = s.raises := rfl
@[simp] theorem State.modCtx_lineWaits (s : State) (p : Pos) (f : Ctx → Ctx) : (s.modCtx p f).lineWaits = s.lineWaits := rfl
@[simp] theorem State.modCtx_badTags (s : State) (p : Pos) (f : Ctx → Ctx) : (s.modCtx p f).badTags = s.badTags := rfl
@[simp] theorem State.modCtx_nextId (s : State) (p : Pos) (f : Ctx → Ctx) : (s.modCtx p f).nextId = s.nextId := rfl
@[simp] theorem State.modCtx_free (s : State) (p : Pos) (f : Ctx → Ctx) : (s.modCtx p f).free = s.free := rfl
@[simp] theorem State.modCtx_cur (s : State) (p : Pos) (f : Ctx → Ctx) : (s.modCtx p f).cur = s.cur := rfl
@[simp] theorem State.modCtx_upc (s : State) (p : Pos) (f : Ctx → Ctx) : (s.modCtx p f).upc = s.upc := rfl
@[simp] theorem State.modCtx_ipc (s : State) (p : Pos) (f : Ctx → Ctx) : (s.modCtx p f).ipc = s.ipc := rfl
@[simp] theorem State.modCtx_ulen (s : State) (p : Pos) (f : Ctx → Ctx) : (s.modCtx p f).ulen = s.ulen := rfl
@[simp] theorem State.modCtx_uw (s : State) (p : Pos) (f : Ctx → Ctx) : (s.modCtx p f).uw = s.uw := rfl
@[simp] theorem State.modCtx_iword (s : State) (p : Pos) (f : Ctx → Ctx) : (s.modCtx p f).iword = s.iword := rfl
@[simp] theorem State.modCtx_cond (s : State) (p : Pos) (f : Ctx → Ctx) : (s.modCtx p f).cond = s.cond := rfl
@[simp] theorem State.modCtx_xlanes (s : State) (p : Pos) (f : Ctx → Ctx) : (s.modCtx p f).xlanes = s.xlanes := rfl
@[simp] theorem State.modCtx_moved (s : State) (p : Pos) (f : Ctx → Ctx) : (s.modCtx p f).moved = s.moved := rfl
@[simp] theorem State.modCtx_agenda (s : State) (p : Pos) (f : Ctx → Ctx) : (s.modCtx p f).agenda = s.agenda := rfl
@[simp] theorem State.modCtx_grant (s : State) (p : Pos) (f : Ctx → Ctx) : (s.modCtx p f).grant = s.grant := rfl
@[simp] theorem State.modCtx_offered (s : State) (p : Pos) (f : Ctx → Ctx) : (s.modCtx p f).offered = s.offered := rfl

/-! ### setRill -/

@[simp] theorem State.setRill_mem (s : State) (b r : Nat) (x : Rill) : (s.setRill b r x).mem = s.mem := rfl
@[simp] theorem State.setRill_ctxs (s : State) (b r : Nat) (x : Rill) : (s.setRill b r x).ctxs = s.ctxs := rfl
@[simp] theorem State.setRill_braids (s : State) (b r : Nat) (x : Rill) : (s.setRill b r x).braids = s.braids := rfl
@[simp] theorem State.setRill_basins (s : State) (b r : Nat) (x : Rill) : (s.setRill b r x).basins = s.basins := rfl
@[simp] theorem State.setRill_gslices (s : State) (b r : Nat) (x : Rill) : (s.setRill b r x).gslices = s.gslices := rfl
@[simp] theorem State.setRill_gchans (s : State) (b r : Nat) (x : Rill) : (s.setRill b r x).gchans = s.gchans := rfl
@[simp] theorem State.setRill_cores (s : State) (b r : Nat) (x : Rill) : (s.setRill b r x).cores = s.cores := rfl
@[simp] theorem State.setRill_vfs (s : State) (b r : Nat) (x : Rill) : (s.setRill b r x).vfs = s.vfs := rfl
@[simp] theorem State.setRill_cycle (s : State) (b r : Nat) (x : Rill) : (s.setRill b r x).cycle = s.cycle := rfl
@[simp] theorem State.setRill_requests (s : State) (b r : Nat) (x : Rill) : (s.setRill b r x).requests = s.requests := rfl
@[simp] theorem State.setRill_packets (s : State) (b r : Nat) (x : Rill) : (s.setRill b r x).packets = s.packets := rfl
@[simp] theorem State.setRill_portNext (s : State) (b r : Nat) (x : Rill) : (s.setRill b r x).portNext = s.portNext := rfl
@[simp] theorem State.setRill_fanouts (s : State) (b r : Nat) (x : Rill) : (s.setRill b r x).fanouts = s.fanouts := rfl
@[simp] theorem State.setRill_locks (s : State) (b r : Nat) (x : Rill) : (s.setRill b r x).locks = s.locks := rfl
@[simp] theorem State.setRill_ats (s : State) (b r : Nat) (x : Rill) : (s.setRill b r x).ats = s.ats := rfl
@[simp] theorem State.setRill_misses (s : State) (b r : Nat) (x : Rill) : (s.setRill b r x).misses = s.misses := rfl
@[simp] theorem State.setRill_triggers (s : State) (b r : Nat) (x : Rill) : (s.setRill b r x).triggers = s.triggers := rfl
@[simp] theorem State.setRill_calls (s : State) (b r : Nat) (x : Rill) : (s.setRill b r x).calls = s.calls := rfl
@[simp] theorem State.setRill_lastServed (s : State) (b r : Nat) (x : Rill) : (s.setRill b r x).lastServed = s.lastServed := rfl
@[simp] theorem State.setRill_mailbox (s : State) (b r : Nat) (x : Rill) : (s.setRill b r x).mailbox = s.mailbox := rfl
@[simp] theorem State.setRill_mailStatus (s : State) (b r : Nat) (x : Rill) : (s.setRill b r x).mailStatus = s.mailStatus := rfl
@[simp] theorem State.setRill_msix (s : State) (b r : Nat) (x : Rill) : (s.setRill b r x).msix = s.msix := rfl
@[simp] theorem State.setRill_eventRing (s : State) (b r : Nat) (x : Rill) : (s.setRill b r x).eventRing = s.eventRing := rfl
@[simp] theorem State.setRill_errlog (s : State) (b r : Nat) (x : Rill) : (s.setRill b r x).errlog = s.errlog := rfl
@[simp] theorem State.setRill_errRead (s : State) (b r : Nat) (x : Rill) : (s.setRill b r x).errRead = s.errRead := rfl
@[simp] theorem State.setRill_timeBase (s : State) (b r : Nat) (x : Rill) : (s.setRill b r x).timeBase = s.timeBase := rfl
@[simp] theorem State.setRill_timeAt (s : State) (b r : Nat) (x : Rill) : (s.setRill b r x).timeAt = s.timeAt := rfl
@[simp] theorem State.setRill_images (s : State) (b r : Nat) (x : Rill) : (s.setRill b r x).images = s.images := rfl
@[simp] theorem State.setRill_verified (s : State) (b r : Nat) (x : Rill) : (s.setRill b r x).verified = s.verified := rfl
@[simp] theorem State.setRill_spareGranules (s : State) (b r : Nat) (x : Rill) : (s.setRill b r x).spareGranules = s.spareGranules := rfl
@[simp] theorem State.setRill_spareRills (s : State) (b r : Nat) (x : Rill) : (s.setRill b r x).spareRills = s.spareRills := rfl
@[simp] theorem State.setRill_windows (s : State) (b r : Nat) (x : Rill) : (s.setRill b r x).windows = s.windows := rfl
@[simp] theorem State.setRill_hostCopies (s : State) (b r : Nat) (x : Rill) : (s.setRill b r x).hostCopies = s.hostCopies := rfl
@[simp] theorem State.setRill_zclNumber (s : State) (b r : Nat) (x : Rill) : (s.setRill b r x).zclNumber = s.zclNumber := rfl
@[simp] theorem State.setRill_zclPorts (s : State) (b r : Nat) (x : Rill) : (s.setRill b r x).zclPorts = s.zclPorts := rfl
@[simp] theorem State.setRill_zclRoutes (s : State) (b r : Nat) (x : Rill) : (s.setRill b r x).zclRoutes = s.zclRoutes := rfl
@[simp] theorem State.setRill_zclIn (s : State) (b r : Nat) (x : Rill) : (s.setRill b r x).zclIn = s.zclIn := rfl
@[simp] theorem State.setRill_zclOut (s : State) (b r : Nat) (x : Rill) : (s.setRill b r x).zclOut = s.zclOut := rfl
@[simp] theorem State.setRill_remote (s : State) (b r : Nat) (x : Rill) : (s.setRill b r x).remote = s.remote := rfl
@[simp] theorem State.setRill_powerSamples (s : State) (b r : Nat) (x : Rill) : (s.setRill b r x).powerSamples = s.powerSamples := rfl
@[simp] theorem State.setRill_powerLimit (s : State) (b r : Nat) (x : Rill) : (s.setRill b r x).powerLimit = s.powerLimit := rfl
@[simp] theorem State.setRill_power1ms (s : State) (b r : Nat) (x : Rill) : (s.setRill b r x).power1ms = s.power1ms := rfl
@[simp] theorem State.setRill_power1s (s : State) (b r : Nat) (x : Rill) : (s.setRill b r x).power1s = s.power1s := rfl
@[simp] theorem State.setRill_budget (s : State) (b r : Nat) (x : Rill) : (s.setRill b r x).budget = s.budget := rfl
@[simp] theorem State.setRill_spdm (s : State) (b r : Nat) (x : Rill) : (s.setRill b r x).spdm = s.spdm := rfl
@[simp] theorem State.setRill_spdmReply (s : State) (b r : Nat) (x : Rill) : (s.setRill b r x).spdmReply = s.spdmReply := rfl
@[simp] theorem State.setRill_reply (s : State) (b r : Nat) (x : Rill) : (s.setRill b r x).reply = s.reply := rfl
@[simp] theorem State.setRill_nextRecord (s : State) (b r : Nat) (x : Rill) : (s.setRill b r x).nextRecord = s.nextRecord := rfl
@[simp] theorem State.setRill_raises (s : State) (b r : Nat) (x : Rill) : (s.setRill b r x).raises = s.raises := rfl
@[simp] theorem State.setRill_lineWaits (s : State) (b r : Nat) (x : Rill) : (s.setRill b r x).lineWaits = s.lineWaits := rfl
@[simp] theorem State.setRill_badTags (s : State) (b r : Nat) (x : Rill) : (s.setRill b r x).badTags = s.badTags := rfl
@[simp] theorem State.setRill_nextId (s : State) (b r : Nat) (x : Rill) : (s.setRill b r x).nextId = s.nextId := rfl
@[simp] theorem State.setRill_free (s : State) (b r : Nat) (x : Rill) : (s.setRill b r x).free = s.free := rfl
@[simp] theorem State.setRill_cur (s : State) (b r : Nat) (x : Rill) : (s.setRill b r x).cur = s.cur := rfl
@[simp] theorem State.setRill_upc (s : State) (b r : Nat) (x : Rill) : (s.setRill b r x).upc = s.upc := rfl
@[simp] theorem State.setRill_ipc (s : State) (b r : Nat) (x : Rill) : (s.setRill b r x).ipc = s.ipc := rfl
@[simp] theorem State.setRill_ulen (s : State) (b r : Nat) (x : Rill) : (s.setRill b r x).ulen = s.ulen := rfl
@[simp] theorem State.setRill_uw (s : State) (b r : Nat) (x : Rill) : (s.setRill b r x).uw = s.uw := rfl
@[simp] theorem State.setRill_iword (s : State) (b r : Nat) (x : Rill) : (s.setRill b r x).iword = s.iword := rfl
@[simp] theorem State.setRill_cond (s : State) (b r : Nat) (x : Rill) : (s.setRill b r x).cond = s.cond := rfl
@[simp] theorem State.setRill_xlanes (s : State) (b r : Nat) (x : Rill) : (s.setRill b r x).xlanes = s.xlanes := rfl
@[simp] theorem State.setRill_moved (s : State) (b r : Nat) (x : Rill) : (s.setRill b r x).moved = s.moved := rfl
@[simp] theorem State.setRill_agenda (s : State) (b r : Nat) (x : Rill) : (s.setRill b r x).agenda = s.agenda := rfl
@[simp] theorem State.setRill_grant (s : State) (b r : Nat) (x : Rill) : (s.setRill b r x).grant = s.grant := rfl
@[simp] theorem State.setRill_offered (s : State) (b r : Nat) (x : Rill) : (s.setRill b r x).offered = s.offered := rfl

/-! ### modRill -/

@[simp] theorem State.modRill_mem (s : State) (b r : Nat) (f : Rill → Rill) : (s.modRill b r f).mem = s.mem := rfl
@[simp] theorem State.modRill_ctxs (s : State) (b r : Nat) (f : Rill → Rill) : (s.modRill b r f).ctxs = s.ctxs := rfl
@[simp] theorem State.modRill_braids (s : State) (b r : Nat) (f : Rill → Rill) : (s.modRill b r f).braids = s.braids := rfl
@[simp] theorem State.modRill_basins (s : State) (b r : Nat) (f : Rill → Rill) : (s.modRill b r f).basins = s.basins := rfl
@[simp] theorem State.modRill_gslices (s : State) (b r : Nat) (f : Rill → Rill) : (s.modRill b r f).gslices = s.gslices := rfl
@[simp] theorem State.modRill_gchans (s : State) (b r : Nat) (f : Rill → Rill) : (s.modRill b r f).gchans = s.gchans := rfl
@[simp] theorem State.modRill_cores (s : State) (b r : Nat) (f : Rill → Rill) : (s.modRill b r f).cores = s.cores := rfl
@[simp] theorem State.modRill_vfs (s : State) (b r : Nat) (f : Rill → Rill) : (s.modRill b r f).vfs = s.vfs := rfl
@[simp] theorem State.modRill_cycle (s : State) (b r : Nat) (f : Rill → Rill) : (s.modRill b r f).cycle = s.cycle := rfl
@[simp] theorem State.modRill_requests (s : State) (b r : Nat) (f : Rill → Rill) : (s.modRill b r f).requests = s.requests := rfl
@[simp] theorem State.modRill_packets (s : State) (b r : Nat) (f : Rill → Rill) : (s.modRill b r f).packets = s.packets := rfl
@[simp] theorem State.modRill_portNext (s : State) (b r : Nat) (f : Rill → Rill) : (s.modRill b r f).portNext = s.portNext := rfl
@[simp] theorem State.modRill_fanouts (s : State) (b r : Nat) (f : Rill → Rill) : (s.modRill b r f).fanouts = s.fanouts := rfl
@[simp] theorem State.modRill_locks (s : State) (b r : Nat) (f : Rill → Rill) : (s.modRill b r f).locks = s.locks := rfl
@[simp] theorem State.modRill_ats (s : State) (b r : Nat) (f : Rill → Rill) : (s.modRill b r f).ats = s.ats := rfl
@[simp] theorem State.modRill_misses (s : State) (b r : Nat) (f : Rill → Rill) : (s.modRill b r f).misses = s.misses := rfl
@[simp] theorem State.modRill_triggers (s : State) (b r : Nat) (f : Rill → Rill) : (s.modRill b r f).triggers = s.triggers := rfl
@[simp] theorem State.modRill_calls (s : State) (b r : Nat) (f : Rill → Rill) : (s.modRill b r f).calls = s.calls := rfl
@[simp] theorem State.modRill_lastServed (s : State) (b r : Nat) (f : Rill → Rill) : (s.modRill b r f).lastServed = s.lastServed := rfl
@[simp] theorem State.modRill_mailbox (s : State) (b r : Nat) (f : Rill → Rill) : (s.modRill b r f).mailbox = s.mailbox := rfl
@[simp] theorem State.modRill_mailStatus (s : State) (b r : Nat) (f : Rill → Rill) : (s.modRill b r f).mailStatus = s.mailStatus := rfl
@[simp] theorem State.modRill_msix (s : State) (b r : Nat) (f : Rill → Rill) : (s.modRill b r f).msix = s.msix := rfl
@[simp] theorem State.modRill_eventRing (s : State) (b r : Nat) (f : Rill → Rill) : (s.modRill b r f).eventRing = s.eventRing := rfl
@[simp] theorem State.modRill_errlog (s : State) (b r : Nat) (f : Rill → Rill) : (s.modRill b r f).errlog = s.errlog := rfl
@[simp] theorem State.modRill_errRead (s : State) (b r : Nat) (f : Rill → Rill) : (s.modRill b r f).errRead = s.errRead := rfl
@[simp] theorem State.modRill_timeBase (s : State) (b r : Nat) (f : Rill → Rill) : (s.modRill b r f).timeBase = s.timeBase := rfl
@[simp] theorem State.modRill_timeAt (s : State) (b r : Nat) (f : Rill → Rill) : (s.modRill b r f).timeAt = s.timeAt := rfl
@[simp] theorem State.modRill_images (s : State) (b r : Nat) (f : Rill → Rill) : (s.modRill b r f).images = s.images := rfl
@[simp] theorem State.modRill_verified (s : State) (b r : Nat) (f : Rill → Rill) : (s.modRill b r f).verified = s.verified := rfl
@[simp] theorem State.modRill_spareGranules (s : State) (b r : Nat) (f : Rill → Rill) : (s.modRill b r f).spareGranules = s.spareGranules := rfl
@[simp] theorem State.modRill_spareRills (s : State) (b r : Nat) (f : Rill → Rill) : (s.modRill b r f).spareRills = s.spareRills := rfl
@[simp] theorem State.modRill_windows (s : State) (b r : Nat) (f : Rill → Rill) : (s.modRill b r f).windows = s.windows := rfl
@[simp] theorem State.modRill_hostCopies (s : State) (b r : Nat) (f : Rill → Rill) : (s.modRill b r f).hostCopies = s.hostCopies := rfl
@[simp] theorem State.modRill_zclNumber (s : State) (b r : Nat) (f : Rill → Rill) : (s.modRill b r f).zclNumber = s.zclNumber := rfl
@[simp] theorem State.modRill_zclPorts (s : State) (b r : Nat) (f : Rill → Rill) : (s.modRill b r f).zclPorts = s.zclPorts := rfl
@[simp] theorem State.modRill_zclRoutes (s : State) (b r : Nat) (f : Rill → Rill) : (s.modRill b r f).zclRoutes = s.zclRoutes := rfl
@[simp] theorem State.modRill_zclIn (s : State) (b r : Nat) (f : Rill → Rill) : (s.modRill b r f).zclIn = s.zclIn := rfl
@[simp] theorem State.modRill_zclOut (s : State) (b r : Nat) (f : Rill → Rill) : (s.modRill b r f).zclOut = s.zclOut := rfl
@[simp] theorem State.modRill_remote (s : State) (b r : Nat) (f : Rill → Rill) : (s.modRill b r f).remote = s.remote := rfl
@[simp] theorem State.modRill_powerSamples (s : State) (b r : Nat) (f : Rill → Rill) : (s.modRill b r f).powerSamples = s.powerSamples := rfl
@[simp] theorem State.modRill_powerLimit (s : State) (b r : Nat) (f : Rill → Rill) : (s.modRill b r f).powerLimit = s.powerLimit := rfl
@[simp] theorem State.modRill_power1ms (s : State) (b r : Nat) (f : Rill → Rill) : (s.modRill b r f).power1ms = s.power1ms := rfl
@[simp] theorem State.modRill_power1s (s : State) (b r : Nat) (f : Rill → Rill) : (s.modRill b r f).power1s = s.power1s := rfl
@[simp] theorem State.modRill_budget (s : State) (b r : Nat) (f : Rill → Rill) : (s.modRill b r f).budget = s.budget := rfl
@[simp] theorem State.modRill_spdm (s : State) (b r : Nat) (f : Rill → Rill) : (s.modRill b r f).spdm = s.spdm := rfl
@[simp] theorem State.modRill_spdmReply (s : State) (b r : Nat) (f : Rill → Rill) : (s.modRill b r f).spdmReply = s.spdmReply := rfl
@[simp] theorem State.modRill_reply (s : State) (b r : Nat) (f : Rill → Rill) : (s.modRill b r f).reply = s.reply := rfl
@[simp] theorem State.modRill_nextRecord (s : State) (b r : Nat) (f : Rill → Rill) : (s.modRill b r f).nextRecord = s.nextRecord := rfl
@[simp] theorem State.modRill_raises (s : State) (b r : Nat) (f : Rill → Rill) : (s.modRill b r f).raises = s.raises := rfl
@[simp] theorem State.modRill_lineWaits (s : State) (b r : Nat) (f : Rill → Rill) : (s.modRill b r f).lineWaits = s.lineWaits := rfl
@[simp] theorem State.modRill_badTags (s : State) (b r : Nat) (f : Rill → Rill) : (s.modRill b r f).badTags = s.badTags := rfl
@[simp] theorem State.modRill_nextId (s : State) (b r : Nat) (f : Rill → Rill) : (s.modRill b r f).nextId = s.nextId := rfl
@[simp] theorem State.modRill_free (s : State) (b r : Nat) (f : Rill → Rill) : (s.modRill b r f).free = s.free := rfl
@[simp] theorem State.modRill_cur (s : State) (b r : Nat) (f : Rill → Rill) : (s.modRill b r f).cur = s.cur := rfl
@[simp] theorem State.modRill_upc (s : State) (b r : Nat) (f : Rill → Rill) : (s.modRill b r f).upc = s.upc := rfl
@[simp] theorem State.modRill_ipc (s : State) (b r : Nat) (f : Rill → Rill) : (s.modRill b r f).ipc = s.ipc := rfl
@[simp] theorem State.modRill_ulen (s : State) (b r : Nat) (f : Rill → Rill) : (s.modRill b r f).ulen = s.ulen := rfl
@[simp] theorem State.modRill_uw (s : State) (b r : Nat) (f : Rill → Rill) : (s.modRill b r f).uw = s.uw := rfl
@[simp] theorem State.modRill_iword (s : State) (b r : Nat) (f : Rill → Rill) : (s.modRill b r f).iword = s.iword := rfl
@[simp] theorem State.modRill_cond (s : State) (b r : Nat) (f : Rill → Rill) : (s.modRill b r f).cond = s.cond := rfl
@[simp] theorem State.modRill_xlanes (s : State) (b r : Nat) (f : Rill → Rill) : (s.modRill b r f).xlanes = s.xlanes := rfl
@[simp] theorem State.modRill_moved (s : State) (b r : Nat) (f : Rill → Rill) : (s.modRill b r f).moved = s.moved := rfl
@[simp] theorem State.modRill_agenda (s : State) (b r : Nat) (f : Rill → Rill) : (s.modRill b r f).agenda = s.agenda := rfl
@[simp] theorem State.modRill_grant (s : State) (b r : Nat) (f : Rill → Rill) : (s.modRill b r f).grant = s.grant := rfl
@[simp] theorem State.modRill_offered (s : State) (b r : Nat) (f : Rill → Rill) : (s.modRill b r f).offered = s.offered := rfl

/-! ### setBraid -/

@[simp] theorem State.setBraid_mem (s : State) (b : Nat) (x : Braid) : (s.setBraid b x).mem = s.mem := rfl
@[simp] theorem State.setBraid_ctxs (s : State) (b : Nat) (x : Braid) : (s.setBraid b x).ctxs = s.ctxs := rfl
@[simp] theorem State.setBraid_rills (s : State) (b : Nat) (x : Braid) : (s.setBraid b x).rills = s.rills := rfl
@[simp] theorem State.setBraid_basins (s : State) (b : Nat) (x : Braid) : (s.setBraid b x).basins = s.basins := rfl
@[simp] theorem State.setBraid_gslices (s : State) (b : Nat) (x : Braid) : (s.setBraid b x).gslices = s.gslices := rfl
@[simp] theorem State.setBraid_gchans (s : State) (b : Nat) (x : Braid) : (s.setBraid b x).gchans = s.gchans := rfl
@[simp] theorem State.setBraid_cores (s : State) (b : Nat) (x : Braid) : (s.setBraid b x).cores = s.cores := rfl
@[simp] theorem State.setBraid_vfs (s : State) (b : Nat) (x : Braid) : (s.setBraid b x).vfs = s.vfs := rfl
@[simp] theorem State.setBraid_cycle (s : State) (b : Nat) (x : Braid) : (s.setBraid b x).cycle = s.cycle := rfl
@[simp] theorem State.setBraid_requests (s : State) (b : Nat) (x : Braid) : (s.setBraid b x).requests = s.requests := rfl
@[simp] theorem State.setBraid_packets (s : State) (b : Nat) (x : Braid) : (s.setBraid b x).packets = s.packets := rfl
@[simp] theorem State.setBraid_portNext (s : State) (b : Nat) (x : Braid) : (s.setBraid b x).portNext = s.portNext := rfl
@[simp] theorem State.setBraid_fanouts (s : State) (b : Nat) (x : Braid) : (s.setBraid b x).fanouts = s.fanouts := rfl
@[simp] theorem State.setBraid_locks (s : State) (b : Nat) (x : Braid) : (s.setBraid b x).locks = s.locks := rfl
@[simp] theorem State.setBraid_ats (s : State) (b : Nat) (x : Braid) : (s.setBraid b x).ats = s.ats := rfl
@[simp] theorem State.setBraid_misses (s : State) (b : Nat) (x : Braid) : (s.setBraid b x).misses = s.misses := rfl
@[simp] theorem State.setBraid_triggers (s : State) (b : Nat) (x : Braid) : (s.setBraid b x).triggers = s.triggers := rfl
@[simp] theorem State.setBraid_calls (s : State) (b : Nat) (x : Braid) : (s.setBraid b x).calls = s.calls := rfl
@[simp] theorem State.setBraid_lastServed (s : State) (b : Nat) (x : Braid) : (s.setBraid b x).lastServed = s.lastServed := rfl
@[simp] theorem State.setBraid_mailbox (s : State) (b : Nat) (x : Braid) : (s.setBraid b x).mailbox = s.mailbox := rfl
@[simp] theorem State.setBraid_mailStatus (s : State) (b : Nat) (x : Braid) : (s.setBraid b x).mailStatus = s.mailStatus := rfl
@[simp] theorem State.setBraid_msix (s : State) (b : Nat) (x : Braid) : (s.setBraid b x).msix = s.msix := rfl
@[simp] theorem State.setBraid_eventRing (s : State) (b : Nat) (x : Braid) : (s.setBraid b x).eventRing = s.eventRing := rfl
@[simp] theorem State.setBraid_errlog (s : State) (b : Nat) (x : Braid) : (s.setBraid b x).errlog = s.errlog := rfl
@[simp] theorem State.setBraid_errRead (s : State) (b : Nat) (x : Braid) : (s.setBraid b x).errRead = s.errRead := rfl
@[simp] theorem State.setBraid_timeBase (s : State) (b : Nat) (x : Braid) : (s.setBraid b x).timeBase = s.timeBase := rfl
@[simp] theorem State.setBraid_timeAt (s : State) (b : Nat) (x : Braid) : (s.setBraid b x).timeAt = s.timeAt := rfl
@[simp] theorem State.setBraid_images (s : State) (b : Nat) (x : Braid) : (s.setBraid b x).images = s.images := rfl
@[simp] theorem State.setBraid_verified (s : State) (b : Nat) (x : Braid) : (s.setBraid b x).verified = s.verified := rfl
@[simp] theorem State.setBraid_spareGranules (s : State) (b : Nat) (x : Braid) : (s.setBraid b x).spareGranules = s.spareGranules := rfl
@[simp] theorem State.setBraid_spareRills (s : State) (b : Nat) (x : Braid) : (s.setBraid b x).spareRills = s.spareRills := rfl
@[simp] theorem State.setBraid_windows (s : State) (b : Nat) (x : Braid) : (s.setBraid b x).windows = s.windows := rfl
@[simp] theorem State.setBraid_hostCopies (s : State) (b : Nat) (x : Braid) : (s.setBraid b x).hostCopies = s.hostCopies := rfl
@[simp] theorem State.setBraid_zclNumber (s : State) (b : Nat) (x : Braid) : (s.setBraid b x).zclNumber = s.zclNumber := rfl
@[simp] theorem State.setBraid_zclPorts (s : State) (b : Nat) (x : Braid) : (s.setBraid b x).zclPorts = s.zclPorts := rfl
@[simp] theorem State.setBraid_zclRoutes (s : State) (b : Nat) (x : Braid) : (s.setBraid b x).zclRoutes = s.zclRoutes := rfl
@[simp] theorem State.setBraid_zclIn (s : State) (b : Nat) (x : Braid) : (s.setBraid b x).zclIn = s.zclIn := rfl
@[simp] theorem State.setBraid_zclOut (s : State) (b : Nat) (x : Braid) : (s.setBraid b x).zclOut = s.zclOut := rfl
@[simp] theorem State.setBraid_remote (s : State) (b : Nat) (x : Braid) : (s.setBraid b x).remote = s.remote := rfl
@[simp] theorem State.setBraid_powerSamples (s : State) (b : Nat) (x : Braid) : (s.setBraid b x).powerSamples = s.powerSamples := rfl
@[simp] theorem State.setBraid_powerLimit (s : State) (b : Nat) (x : Braid) : (s.setBraid b x).powerLimit = s.powerLimit := rfl
@[simp] theorem State.setBraid_power1ms (s : State) (b : Nat) (x : Braid) : (s.setBraid b x).power1ms = s.power1ms := rfl
@[simp] theorem State.setBraid_power1s (s : State) (b : Nat) (x : Braid) : (s.setBraid b x).power1s = s.power1s := rfl
@[simp] theorem State.setBraid_budget (s : State) (b : Nat) (x : Braid) : (s.setBraid b x).budget = s.budget := rfl
@[simp] theorem State.setBraid_spdm (s : State) (b : Nat) (x : Braid) : (s.setBraid b x).spdm = s.spdm := rfl
@[simp] theorem State.setBraid_spdmReply (s : State) (b : Nat) (x : Braid) : (s.setBraid b x).spdmReply = s.spdmReply := rfl
@[simp] theorem State.setBraid_reply (s : State) (b : Nat) (x : Braid) : (s.setBraid b x).reply = s.reply := rfl
@[simp] theorem State.setBraid_nextRecord (s : State) (b : Nat) (x : Braid) : (s.setBraid b x).nextRecord = s.nextRecord := rfl
@[simp] theorem State.setBraid_raises (s : State) (b : Nat) (x : Braid) : (s.setBraid b x).raises = s.raises := rfl
@[simp] theorem State.setBraid_lineWaits (s : State) (b : Nat) (x : Braid) : (s.setBraid b x).lineWaits = s.lineWaits := rfl
@[simp] theorem State.setBraid_badTags (s : State) (b : Nat) (x : Braid) : (s.setBraid b x).badTags = s.badTags := rfl
@[simp] theorem State.setBraid_nextId (s : State) (b : Nat) (x : Braid) : (s.setBraid b x).nextId = s.nextId := rfl
@[simp] theorem State.setBraid_free (s : State) (b : Nat) (x : Braid) : (s.setBraid b x).free = s.free := rfl
@[simp] theorem State.setBraid_cur (s : State) (b : Nat) (x : Braid) : (s.setBraid b x).cur = s.cur := rfl
@[simp] theorem State.setBraid_upc (s : State) (b : Nat) (x : Braid) : (s.setBraid b x).upc = s.upc := rfl
@[simp] theorem State.setBraid_ipc (s : State) (b : Nat) (x : Braid) : (s.setBraid b x).ipc = s.ipc := rfl
@[simp] theorem State.setBraid_ulen (s : State) (b : Nat) (x : Braid) : (s.setBraid b x).ulen = s.ulen := rfl
@[simp] theorem State.setBraid_uw (s : State) (b : Nat) (x : Braid) : (s.setBraid b x).uw = s.uw := rfl
@[simp] theorem State.setBraid_iword (s : State) (b : Nat) (x : Braid) : (s.setBraid b x).iword = s.iword := rfl
@[simp] theorem State.setBraid_cond (s : State) (b : Nat) (x : Braid) : (s.setBraid b x).cond = s.cond := rfl
@[simp] theorem State.setBraid_xlanes (s : State) (b : Nat) (x : Braid) : (s.setBraid b x).xlanes = s.xlanes := rfl
@[simp] theorem State.setBraid_moved (s : State) (b : Nat) (x : Braid) : (s.setBraid b x).moved = s.moved := rfl
@[simp] theorem State.setBraid_agenda (s : State) (b : Nat) (x : Braid) : (s.setBraid b x).agenda = s.agenda := rfl
@[simp] theorem State.setBraid_grant (s : State) (b : Nat) (x : Braid) : (s.setBraid b x).grant = s.grant := rfl
@[simp] theorem State.setBraid_offered (s : State) (b : Nat) (x : Braid) : (s.setBraid b x).offered = s.offered := rfl

/-! ### modBraid -/

@[simp] theorem State.modBraid_mem (s : State) (b : Nat) (f : Braid → Braid) : (s.modBraid b f).mem = s.mem := rfl
@[simp] theorem State.modBraid_ctxs (s : State) (b : Nat) (f : Braid → Braid) : (s.modBraid b f).ctxs = s.ctxs := rfl
@[simp] theorem State.modBraid_rills (s : State) (b : Nat) (f : Braid → Braid) : (s.modBraid b f).rills = s.rills := rfl
@[simp] theorem State.modBraid_basins (s : State) (b : Nat) (f : Braid → Braid) : (s.modBraid b f).basins = s.basins := rfl
@[simp] theorem State.modBraid_gslices (s : State) (b : Nat) (f : Braid → Braid) : (s.modBraid b f).gslices = s.gslices := rfl
@[simp] theorem State.modBraid_gchans (s : State) (b : Nat) (f : Braid → Braid) : (s.modBraid b f).gchans = s.gchans := rfl
@[simp] theorem State.modBraid_cores (s : State) (b : Nat) (f : Braid → Braid) : (s.modBraid b f).cores = s.cores := rfl
@[simp] theorem State.modBraid_vfs (s : State) (b : Nat) (f : Braid → Braid) : (s.modBraid b f).vfs = s.vfs := rfl
@[simp] theorem State.modBraid_cycle (s : State) (b : Nat) (f : Braid → Braid) : (s.modBraid b f).cycle = s.cycle := rfl
@[simp] theorem State.modBraid_requests (s : State) (b : Nat) (f : Braid → Braid) : (s.modBraid b f).requests = s.requests := rfl
@[simp] theorem State.modBraid_packets (s : State) (b : Nat) (f : Braid → Braid) : (s.modBraid b f).packets = s.packets := rfl
@[simp] theorem State.modBraid_portNext (s : State) (b : Nat) (f : Braid → Braid) : (s.modBraid b f).portNext = s.portNext := rfl
@[simp] theorem State.modBraid_fanouts (s : State) (b : Nat) (f : Braid → Braid) : (s.modBraid b f).fanouts = s.fanouts := rfl
@[simp] theorem State.modBraid_locks (s : State) (b : Nat) (f : Braid → Braid) : (s.modBraid b f).locks = s.locks := rfl
@[simp] theorem State.modBraid_ats (s : State) (b : Nat) (f : Braid → Braid) : (s.modBraid b f).ats = s.ats := rfl
@[simp] theorem State.modBraid_misses (s : State) (b : Nat) (f : Braid → Braid) : (s.modBraid b f).misses = s.misses := rfl
@[simp] theorem State.modBraid_triggers (s : State) (b : Nat) (f : Braid → Braid) : (s.modBraid b f).triggers = s.triggers := rfl
@[simp] theorem State.modBraid_calls (s : State) (b : Nat) (f : Braid → Braid) : (s.modBraid b f).calls = s.calls := rfl
@[simp] theorem State.modBraid_lastServed (s : State) (b : Nat) (f : Braid → Braid) : (s.modBraid b f).lastServed = s.lastServed := rfl
@[simp] theorem State.modBraid_mailbox (s : State) (b : Nat) (f : Braid → Braid) : (s.modBraid b f).mailbox = s.mailbox := rfl
@[simp] theorem State.modBraid_mailStatus (s : State) (b : Nat) (f : Braid → Braid) : (s.modBraid b f).mailStatus = s.mailStatus := rfl
@[simp] theorem State.modBraid_msix (s : State) (b : Nat) (f : Braid → Braid) : (s.modBraid b f).msix = s.msix := rfl
@[simp] theorem State.modBraid_eventRing (s : State) (b : Nat) (f : Braid → Braid) : (s.modBraid b f).eventRing = s.eventRing := rfl
@[simp] theorem State.modBraid_errlog (s : State) (b : Nat) (f : Braid → Braid) : (s.modBraid b f).errlog = s.errlog := rfl
@[simp] theorem State.modBraid_errRead (s : State) (b : Nat) (f : Braid → Braid) : (s.modBraid b f).errRead = s.errRead := rfl
@[simp] theorem State.modBraid_timeBase (s : State) (b : Nat) (f : Braid → Braid) : (s.modBraid b f).timeBase = s.timeBase := rfl
@[simp] theorem State.modBraid_timeAt (s : State) (b : Nat) (f : Braid → Braid) : (s.modBraid b f).timeAt = s.timeAt := rfl
@[simp] theorem State.modBraid_images (s : State) (b : Nat) (f : Braid → Braid) : (s.modBraid b f).images = s.images := rfl
@[simp] theorem State.modBraid_verified (s : State) (b : Nat) (f : Braid → Braid) : (s.modBraid b f).verified = s.verified := rfl
@[simp] theorem State.modBraid_spareGranules (s : State) (b : Nat) (f : Braid → Braid) : (s.modBraid b f).spareGranules = s.spareGranules := rfl
@[simp] theorem State.modBraid_spareRills (s : State) (b : Nat) (f : Braid → Braid) : (s.modBraid b f).spareRills = s.spareRills := rfl
@[simp] theorem State.modBraid_windows (s : State) (b : Nat) (f : Braid → Braid) : (s.modBraid b f).windows = s.windows := rfl
@[simp] theorem State.modBraid_hostCopies (s : State) (b : Nat) (f : Braid → Braid) : (s.modBraid b f).hostCopies = s.hostCopies := rfl
@[simp] theorem State.modBraid_zclNumber (s : State) (b : Nat) (f : Braid → Braid) : (s.modBraid b f).zclNumber = s.zclNumber := rfl
@[simp] theorem State.modBraid_zclPorts (s : State) (b : Nat) (f : Braid → Braid) : (s.modBraid b f).zclPorts = s.zclPorts := rfl
@[simp] theorem State.modBraid_zclRoutes (s : State) (b : Nat) (f : Braid → Braid) : (s.modBraid b f).zclRoutes = s.zclRoutes := rfl
@[simp] theorem State.modBraid_zclIn (s : State) (b : Nat) (f : Braid → Braid) : (s.modBraid b f).zclIn = s.zclIn := rfl
@[simp] theorem State.modBraid_zclOut (s : State) (b : Nat) (f : Braid → Braid) : (s.modBraid b f).zclOut = s.zclOut := rfl
@[simp] theorem State.modBraid_remote (s : State) (b : Nat) (f : Braid → Braid) : (s.modBraid b f).remote = s.remote := rfl
@[simp] theorem State.modBraid_powerSamples (s : State) (b : Nat) (f : Braid → Braid) : (s.modBraid b f).powerSamples = s.powerSamples := rfl
@[simp] theorem State.modBraid_powerLimit (s : State) (b : Nat) (f : Braid → Braid) : (s.modBraid b f).powerLimit = s.powerLimit := rfl
@[simp] theorem State.modBraid_power1ms (s : State) (b : Nat) (f : Braid → Braid) : (s.modBraid b f).power1ms = s.power1ms := rfl
@[simp] theorem State.modBraid_power1s (s : State) (b : Nat) (f : Braid → Braid) : (s.modBraid b f).power1s = s.power1s := rfl
@[simp] theorem State.modBraid_budget (s : State) (b : Nat) (f : Braid → Braid) : (s.modBraid b f).budget = s.budget := rfl
@[simp] theorem State.modBraid_spdm (s : State) (b : Nat) (f : Braid → Braid) : (s.modBraid b f).spdm = s.spdm := rfl
@[simp] theorem State.modBraid_spdmReply (s : State) (b : Nat) (f : Braid → Braid) : (s.modBraid b f).spdmReply = s.spdmReply := rfl
@[simp] theorem State.modBraid_reply (s : State) (b : Nat) (f : Braid → Braid) : (s.modBraid b f).reply = s.reply := rfl
@[simp] theorem State.modBraid_nextRecord (s : State) (b : Nat) (f : Braid → Braid) : (s.modBraid b f).nextRecord = s.nextRecord := rfl
@[simp] theorem State.modBraid_raises (s : State) (b : Nat) (f : Braid → Braid) : (s.modBraid b f).raises = s.raises := rfl
@[simp] theorem State.modBraid_lineWaits (s : State) (b : Nat) (f : Braid → Braid) : (s.modBraid b f).lineWaits = s.lineWaits := rfl
@[simp] theorem State.modBraid_badTags (s : State) (b : Nat) (f : Braid → Braid) : (s.modBraid b f).badTags = s.badTags := rfl
@[simp] theorem State.modBraid_nextId (s : State) (b : Nat) (f : Braid → Braid) : (s.modBraid b f).nextId = s.nextId := rfl
@[simp] theorem State.modBraid_free (s : State) (b : Nat) (f : Braid → Braid) : (s.modBraid b f).free = s.free := rfl
@[simp] theorem State.modBraid_cur (s : State) (b : Nat) (f : Braid → Braid) : (s.modBraid b f).cur = s.cur := rfl
@[simp] theorem State.modBraid_upc (s : State) (b : Nat) (f : Braid → Braid) : (s.modBraid b f).upc = s.upc := rfl
@[simp] theorem State.modBraid_ipc (s : State) (b : Nat) (f : Braid → Braid) : (s.modBraid b f).ipc = s.ipc := rfl
@[simp] theorem State.modBraid_ulen (s : State) (b : Nat) (f : Braid → Braid) : (s.modBraid b f).ulen = s.ulen := rfl
@[simp] theorem State.modBraid_uw (s : State) (b : Nat) (f : Braid → Braid) : (s.modBraid b f).uw = s.uw := rfl
@[simp] theorem State.modBraid_iword (s : State) (b : Nat) (f : Braid → Braid) : (s.modBraid b f).iword = s.iword := rfl
@[simp] theorem State.modBraid_cond (s : State) (b : Nat) (f : Braid → Braid) : (s.modBraid b f).cond = s.cond := rfl
@[simp] theorem State.modBraid_xlanes (s : State) (b : Nat) (f : Braid → Braid) : (s.modBraid b f).xlanes = s.xlanes := rfl
@[simp] theorem State.modBraid_moved (s : State) (b : Nat) (f : Braid → Braid) : (s.modBraid b f).moved = s.moved := rfl
@[simp] theorem State.modBraid_agenda (s : State) (b : Nat) (f : Braid → Braid) : (s.modBraid b f).agenda = s.agenda := rfl
@[simp] theorem State.modBraid_grant (s : State) (b : Nat) (f : Braid → Braid) : (s.modBraid b f).grant = s.grant := rfl
@[simp] theorem State.modBraid_offered (s : State) (b : Nat) (f : Braid → Braid) : (s.modBraid b f).offered = s.offered := rfl

/-! ### setBasin -/

@[simp] theorem State.setBasin_mem (s : State) (n : Nat) (x : Basin) : (s.setBasin n x).mem = s.mem := rfl
@[simp] theorem State.setBasin_ctxs (s : State) (n : Nat) (x : Basin) : (s.setBasin n x).ctxs = s.ctxs := rfl
@[simp] theorem State.setBasin_rills (s : State) (n : Nat) (x : Basin) : (s.setBasin n x).rills = s.rills := rfl
@[simp] theorem State.setBasin_braids (s : State) (n : Nat) (x : Basin) : (s.setBasin n x).braids = s.braids := rfl
@[simp] theorem State.setBasin_gslices (s : State) (n : Nat) (x : Basin) : (s.setBasin n x).gslices = s.gslices := rfl
@[simp] theorem State.setBasin_gchans (s : State) (n : Nat) (x : Basin) : (s.setBasin n x).gchans = s.gchans := rfl
@[simp] theorem State.setBasin_cores (s : State) (n : Nat) (x : Basin) : (s.setBasin n x).cores = s.cores := rfl
@[simp] theorem State.setBasin_vfs (s : State) (n : Nat) (x : Basin) : (s.setBasin n x).vfs = s.vfs := rfl
@[simp] theorem State.setBasin_cycle (s : State) (n : Nat) (x : Basin) : (s.setBasin n x).cycle = s.cycle := rfl
@[simp] theorem State.setBasin_requests (s : State) (n : Nat) (x : Basin) : (s.setBasin n x).requests = s.requests := rfl
@[simp] theorem State.setBasin_packets (s : State) (n : Nat) (x : Basin) : (s.setBasin n x).packets = s.packets := rfl
@[simp] theorem State.setBasin_portNext (s : State) (n : Nat) (x : Basin) : (s.setBasin n x).portNext = s.portNext := rfl
@[simp] theorem State.setBasin_fanouts (s : State) (n : Nat) (x : Basin) : (s.setBasin n x).fanouts = s.fanouts := rfl
@[simp] theorem State.setBasin_locks (s : State) (n : Nat) (x : Basin) : (s.setBasin n x).locks = s.locks := rfl
@[simp] theorem State.setBasin_ats (s : State) (n : Nat) (x : Basin) : (s.setBasin n x).ats = s.ats := rfl
@[simp] theorem State.setBasin_misses (s : State) (n : Nat) (x : Basin) : (s.setBasin n x).misses = s.misses := rfl
@[simp] theorem State.setBasin_triggers (s : State) (n : Nat) (x : Basin) : (s.setBasin n x).triggers = s.triggers := rfl
@[simp] theorem State.setBasin_calls (s : State) (n : Nat) (x : Basin) : (s.setBasin n x).calls = s.calls := rfl
@[simp] theorem State.setBasin_lastServed (s : State) (n : Nat) (x : Basin) : (s.setBasin n x).lastServed = s.lastServed := rfl
@[simp] theorem State.setBasin_mailbox (s : State) (n : Nat) (x : Basin) : (s.setBasin n x).mailbox = s.mailbox := rfl
@[simp] theorem State.setBasin_mailStatus (s : State) (n : Nat) (x : Basin) : (s.setBasin n x).mailStatus = s.mailStatus := rfl
@[simp] theorem State.setBasin_msix (s : State) (n : Nat) (x : Basin) : (s.setBasin n x).msix = s.msix := rfl
@[simp] theorem State.setBasin_eventRing (s : State) (n : Nat) (x : Basin) : (s.setBasin n x).eventRing = s.eventRing := rfl
@[simp] theorem State.setBasin_errlog (s : State) (n : Nat) (x : Basin) : (s.setBasin n x).errlog = s.errlog := rfl
@[simp] theorem State.setBasin_errRead (s : State) (n : Nat) (x : Basin) : (s.setBasin n x).errRead = s.errRead := rfl
@[simp] theorem State.setBasin_timeBase (s : State) (n : Nat) (x : Basin) : (s.setBasin n x).timeBase = s.timeBase := rfl
@[simp] theorem State.setBasin_timeAt (s : State) (n : Nat) (x : Basin) : (s.setBasin n x).timeAt = s.timeAt := rfl
@[simp] theorem State.setBasin_images (s : State) (n : Nat) (x : Basin) : (s.setBasin n x).images = s.images := rfl
@[simp] theorem State.setBasin_verified (s : State) (n : Nat) (x : Basin) : (s.setBasin n x).verified = s.verified := rfl
@[simp] theorem State.setBasin_spareGranules (s : State) (n : Nat) (x : Basin) : (s.setBasin n x).spareGranules = s.spareGranules := rfl
@[simp] theorem State.setBasin_spareRills (s : State) (n : Nat) (x : Basin) : (s.setBasin n x).spareRills = s.spareRills := rfl
@[simp] theorem State.setBasin_windows (s : State) (n : Nat) (x : Basin) : (s.setBasin n x).windows = s.windows := rfl
@[simp] theorem State.setBasin_hostCopies (s : State) (n : Nat) (x : Basin) : (s.setBasin n x).hostCopies = s.hostCopies := rfl
@[simp] theorem State.setBasin_zclNumber (s : State) (n : Nat) (x : Basin) : (s.setBasin n x).zclNumber = s.zclNumber := rfl
@[simp] theorem State.setBasin_zclPorts (s : State) (n : Nat) (x : Basin) : (s.setBasin n x).zclPorts = s.zclPorts := rfl
@[simp] theorem State.setBasin_zclRoutes (s : State) (n : Nat) (x : Basin) : (s.setBasin n x).zclRoutes = s.zclRoutes := rfl
@[simp] theorem State.setBasin_zclIn (s : State) (n : Nat) (x : Basin) : (s.setBasin n x).zclIn = s.zclIn := rfl
@[simp] theorem State.setBasin_zclOut (s : State) (n : Nat) (x : Basin) : (s.setBasin n x).zclOut = s.zclOut := rfl
@[simp] theorem State.setBasin_remote (s : State) (n : Nat) (x : Basin) : (s.setBasin n x).remote = s.remote := rfl
@[simp] theorem State.setBasin_powerSamples (s : State) (n : Nat) (x : Basin) : (s.setBasin n x).powerSamples = s.powerSamples := rfl
@[simp] theorem State.setBasin_powerLimit (s : State) (n : Nat) (x : Basin) : (s.setBasin n x).powerLimit = s.powerLimit := rfl
@[simp] theorem State.setBasin_power1ms (s : State) (n : Nat) (x : Basin) : (s.setBasin n x).power1ms = s.power1ms := rfl
@[simp] theorem State.setBasin_power1s (s : State) (n : Nat) (x : Basin) : (s.setBasin n x).power1s = s.power1s := rfl
@[simp] theorem State.setBasin_budget (s : State) (n : Nat) (x : Basin) : (s.setBasin n x).budget = s.budget := rfl
@[simp] theorem State.setBasin_spdm (s : State) (n : Nat) (x : Basin) : (s.setBasin n x).spdm = s.spdm := rfl
@[simp] theorem State.setBasin_spdmReply (s : State) (n : Nat) (x : Basin) : (s.setBasin n x).spdmReply = s.spdmReply := rfl
@[simp] theorem State.setBasin_reply (s : State) (n : Nat) (x : Basin) : (s.setBasin n x).reply = s.reply := rfl
@[simp] theorem State.setBasin_nextRecord (s : State) (n : Nat) (x : Basin) : (s.setBasin n x).nextRecord = s.nextRecord := rfl
@[simp] theorem State.setBasin_raises (s : State) (n : Nat) (x : Basin) : (s.setBasin n x).raises = s.raises := rfl
@[simp] theorem State.setBasin_lineWaits (s : State) (n : Nat) (x : Basin) : (s.setBasin n x).lineWaits = s.lineWaits := rfl
@[simp] theorem State.setBasin_badTags (s : State) (n : Nat) (x : Basin) : (s.setBasin n x).badTags = s.badTags := rfl
@[simp] theorem State.setBasin_nextId (s : State) (n : Nat) (x : Basin) : (s.setBasin n x).nextId = s.nextId := rfl
@[simp] theorem State.setBasin_free (s : State) (n : Nat) (x : Basin) : (s.setBasin n x).free = s.free := rfl
@[simp] theorem State.setBasin_cur (s : State) (n : Nat) (x : Basin) : (s.setBasin n x).cur = s.cur := rfl
@[simp] theorem State.setBasin_upc (s : State) (n : Nat) (x : Basin) : (s.setBasin n x).upc = s.upc := rfl
@[simp] theorem State.setBasin_ipc (s : State) (n : Nat) (x : Basin) : (s.setBasin n x).ipc = s.ipc := rfl
@[simp] theorem State.setBasin_ulen (s : State) (n : Nat) (x : Basin) : (s.setBasin n x).ulen = s.ulen := rfl
@[simp] theorem State.setBasin_uw (s : State) (n : Nat) (x : Basin) : (s.setBasin n x).uw = s.uw := rfl
@[simp] theorem State.setBasin_iword (s : State) (n : Nat) (x : Basin) : (s.setBasin n x).iword = s.iword := rfl
@[simp] theorem State.setBasin_cond (s : State) (n : Nat) (x : Basin) : (s.setBasin n x).cond = s.cond := rfl
@[simp] theorem State.setBasin_xlanes (s : State) (n : Nat) (x : Basin) : (s.setBasin n x).xlanes = s.xlanes := rfl
@[simp] theorem State.setBasin_moved (s : State) (n : Nat) (x : Basin) : (s.setBasin n x).moved = s.moved := rfl
@[simp] theorem State.setBasin_agenda (s : State) (n : Nat) (x : Basin) : (s.setBasin n x).agenda = s.agenda := rfl
@[simp] theorem State.setBasin_grant (s : State) (n : Nat) (x : Basin) : (s.setBasin n x).grant = s.grant := rfl
@[simp] theorem State.setBasin_offered (s : State) (n : Nat) (x : Basin) : (s.setBasin n x).offered = s.offered := rfl

/-! ### modBasin -/

@[simp] theorem State.modBasin_mem (s : State) (n : Nat) (f : Basin → Basin) : (s.modBasin n f).mem = s.mem := rfl
@[simp] theorem State.modBasin_ctxs (s : State) (n : Nat) (f : Basin → Basin) : (s.modBasin n f).ctxs = s.ctxs := rfl
@[simp] theorem State.modBasin_rills (s : State) (n : Nat) (f : Basin → Basin) : (s.modBasin n f).rills = s.rills := rfl
@[simp] theorem State.modBasin_braids (s : State) (n : Nat) (f : Basin → Basin) : (s.modBasin n f).braids = s.braids := rfl
@[simp] theorem State.modBasin_gslices (s : State) (n : Nat) (f : Basin → Basin) : (s.modBasin n f).gslices = s.gslices := rfl
@[simp] theorem State.modBasin_gchans (s : State) (n : Nat) (f : Basin → Basin) : (s.modBasin n f).gchans = s.gchans := rfl
@[simp] theorem State.modBasin_cores (s : State) (n : Nat) (f : Basin → Basin) : (s.modBasin n f).cores = s.cores := rfl
@[simp] theorem State.modBasin_vfs (s : State) (n : Nat) (f : Basin → Basin) : (s.modBasin n f).vfs = s.vfs := rfl
@[simp] theorem State.modBasin_cycle (s : State) (n : Nat) (f : Basin → Basin) : (s.modBasin n f).cycle = s.cycle := rfl
@[simp] theorem State.modBasin_requests (s : State) (n : Nat) (f : Basin → Basin) : (s.modBasin n f).requests = s.requests := rfl
@[simp] theorem State.modBasin_packets (s : State) (n : Nat) (f : Basin → Basin) : (s.modBasin n f).packets = s.packets := rfl
@[simp] theorem State.modBasin_portNext (s : State) (n : Nat) (f : Basin → Basin) : (s.modBasin n f).portNext = s.portNext := rfl
@[simp] theorem State.modBasin_fanouts (s : State) (n : Nat) (f : Basin → Basin) : (s.modBasin n f).fanouts = s.fanouts := rfl
@[simp] theorem State.modBasin_locks (s : State) (n : Nat) (f : Basin → Basin) : (s.modBasin n f).locks = s.locks := rfl
@[simp] theorem State.modBasin_ats (s : State) (n : Nat) (f : Basin → Basin) : (s.modBasin n f).ats = s.ats := rfl
@[simp] theorem State.modBasin_misses (s : State) (n : Nat) (f : Basin → Basin) : (s.modBasin n f).misses = s.misses := rfl
@[simp] theorem State.modBasin_triggers (s : State) (n : Nat) (f : Basin → Basin) : (s.modBasin n f).triggers = s.triggers := rfl
@[simp] theorem State.modBasin_calls (s : State) (n : Nat) (f : Basin → Basin) : (s.modBasin n f).calls = s.calls := rfl
@[simp] theorem State.modBasin_lastServed (s : State) (n : Nat) (f : Basin → Basin) : (s.modBasin n f).lastServed = s.lastServed := rfl
@[simp] theorem State.modBasin_mailbox (s : State) (n : Nat) (f : Basin → Basin) : (s.modBasin n f).mailbox = s.mailbox := rfl
@[simp] theorem State.modBasin_mailStatus (s : State) (n : Nat) (f : Basin → Basin) : (s.modBasin n f).mailStatus = s.mailStatus := rfl
@[simp] theorem State.modBasin_msix (s : State) (n : Nat) (f : Basin → Basin) : (s.modBasin n f).msix = s.msix := rfl
@[simp] theorem State.modBasin_eventRing (s : State) (n : Nat) (f : Basin → Basin) : (s.modBasin n f).eventRing = s.eventRing := rfl
@[simp] theorem State.modBasin_errlog (s : State) (n : Nat) (f : Basin → Basin) : (s.modBasin n f).errlog = s.errlog := rfl
@[simp] theorem State.modBasin_errRead (s : State) (n : Nat) (f : Basin → Basin) : (s.modBasin n f).errRead = s.errRead := rfl
@[simp] theorem State.modBasin_timeBase (s : State) (n : Nat) (f : Basin → Basin) : (s.modBasin n f).timeBase = s.timeBase := rfl
@[simp] theorem State.modBasin_timeAt (s : State) (n : Nat) (f : Basin → Basin) : (s.modBasin n f).timeAt = s.timeAt := rfl
@[simp] theorem State.modBasin_images (s : State) (n : Nat) (f : Basin → Basin) : (s.modBasin n f).images = s.images := rfl
@[simp] theorem State.modBasin_verified (s : State) (n : Nat) (f : Basin → Basin) : (s.modBasin n f).verified = s.verified := rfl
@[simp] theorem State.modBasin_spareGranules (s : State) (n : Nat) (f : Basin → Basin) : (s.modBasin n f).spareGranules = s.spareGranules := rfl
@[simp] theorem State.modBasin_spareRills (s : State) (n : Nat) (f : Basin → Basin) : (s.modBasin n f).spareRills = s.spareRills := rfl
@[simp] theorem State.modBasin_windows (s : State) (n : Nat) (f : Basin → Basin) : (s.modBasin n f).windows = s.windows := rfl
@[simp] theorem State.modBasin_hostCopies (s : State) (n : Nat) (f : Basin → Basin) : (s.modBasin n f).hostCopies = s.hostCopies := rfl
@[simp] theorem State.modBasin_zclNumber (s : State) (n : Nat) (f : Basin → Basin) : (s.modBasin n f).zclNumber = s.zclNumber := rfl
@[simp] theorem State.modBasin_zclPorts (s : State) (n : Nat) (f : Basin → Basin) : (s.modBasin n f).zclPorts = s.zclPorts := rfl
@[simp] theorem State.modBasin_zclRoutes (s : State) (n : Nat) (f : Basin → Basin) : (s.modBasin n f).zclRoutes = s.zclRoutes := rfl
@[simp] theorem State.modBasin_zclIn (s : State) (n : Nat) (f : Basin → Basin) : (s.modBasin n f).zclIn = s.zclIn := rfl
@[simp] theorem State.modBasin_zclOut (s : State) (n : Nat) (f : Basin → Basin) : (s.modBasin n f).zclOut = s.zclOut := rfl
@[simp] theorem State.modBasin_remote (s : State) (n : Nat) (f : Basin → Basin) : (s.modBasin n f).remote = s.remote := rfl
@[simp] theorem State.modBasin_powerSamples (s : State) (n : Nat) (f : Basin → Basin) : (s.modBasin n f).powerSamples = s.powerSamples := rfl
@[simp] theorem State.modBasin_powerLimit (s : State) (n : Nat) (f : Basin → Basin) : (s.modBasin n f).powerLimit = s.powerLimit := rfl
@[simp] theorem State.modBasin_power1ms (s : State) (n : Nat) (f : Basin → Basin) : (s.modBasin n f).power1ms = s.power1ms := rfl
@[simp] theorem State.modBasin_power1s (s : State) (n : Nat) (f : Basin → Basin) : (s.modBasin n f).power1s = s.power1s := rfl
@[simp] theorem State.modBasin_budget (s : State) (n : Nat) (f : Basin → Basin) : (s.modBasin n f).budget = s.budget := rfl
@[simp] theorem State.modBasin_spdm (s : State) (n : Nat) (f : Basin → Basin) : (s.modBasin n f).spdm = s.spdm := rfl
@[simp] theorem State.modBasin_spdmReply (s : State) (n : Nat) (f : Basin → Basin) : (s.modBasin n f).spdmReply = s.spdmReply := rfl
@[simp] theorem State.modBasin_reply (s : State) (n : Nat) (f : Basin → Basin) : (s.modBasin n f).reply = s.reply := rfl
@[simp] theorem State.modBasin_nextRecord (s : State) (n : Nat) (f : Basin → Basin) : (s.modBasin n f).nextRecord = s.nextRecord := rfl
@[simp] theorem State.modBasin_raises (s : State) (n : Nat) (f : Basin → Basin) : (s.modBasin n f).raises = s.raises := rfl
@[simp] theorem State.modBasin_lineWaits (s : State) (n : Nat) (f : Basin → Basin) : (s.modBasin n f).lineWaits = s.lineWaits := rfl
@[simp] theorem State.modBasin_badTags (s : State) (n : Nat) (f : Basin → Basin) : (s.modBasin n f).badTags = s.badTags := rfl
@[simp] theorem State.modBasin_nextId (s : State) (n : Nat) (f : Basin → Basin) : (s.modBasin n f).nextId = s.nextId := rfl
@[simp] theorem State.modBasin_free (s : State) (n : Nat) (f : Basin → Basin) : (s.modBasin n f).free = s.free := rfl
@[simp] theorem State.modBasin_cur (s : State) (n : Nat) (f : Basin → Basin) : (s.modBasin n f).cur = s.cur := rfl
@[simp] theorem State.modBasin_upc (s : State) (n : Nat) (f : Basin → Basin) : (s.modBasin n f).upc = s.upc := rfl
@[simp] theorem State.modBasin_ipc (s : State) (n : Nat) (f : Basin → Basin) : (s.modBasin n f).ipc = s.ipc := rfl
@[simp] theorem State.modBasin_ulen (s : State) (n : Nat) (f : Basin → Basin) : (s.modBasin n f).ulen = s.ulen := rfl
@[simp] theorem State.modBasin_uw (s : State) (n : Nat) (f : Basin → Basin) : (s.modBasin n f).uw = s.uw := rfl
@[simp] theorem State.modBasin_iword (s : State) (n : Nat) (f : Basin → Basin) : (s.modBasin n f).iword = s.iword := rfl
@[simp] theorem State.modBasin_cond (s : State) (n : Nat) (f : Basin → Basin) : (s.modBasin n f).cond = s.cond := rfl
@[simp] theorem State.modBasin_xlanes (s : State) (n : Nat) (f : Basin → Basin) : (s.modBasin n f).xlanes = s.xlanes := rfl
@[simp] theorem State.modBasin_moved (s : State) (n : Nat) (f : Basin → Basin) : (s.modBasin n f).moved = s.moved := rfl
@[simp] theorem State.modBasin_agenda (s : State) (n : Nat) (f : Basin → Basin) : (s.modBasin n f).agenda = s.agenda := rfl
@[simp] theorem State.modBasin_grant (s : State) (n : Nat) (f : Basin → Basin) : (s.modBasin n f).grant = s.grant := rfl
@[simp] theorem State.modBasin_offered (s : State) (n : Nat) (f : Basin → Basin) : (s.modBasin n f).offered = s.offered := rfl

/-! ### setMe -/

@[simp] theorem State.setMe_mem (s : State) (c : Ctx) : (s.setMe c).mem = s.mem := rfl
@[simp] theorem State.setMe_rills (s : State) (c : Ctx) : (s.setMe c).rills = s.rills := rfl
@[simp] theorem State.setMe_braids (s : State) (c : Ctx) : (s.setMe c).braids = s.braids := rfl
@[simp] theorem State.setMe_basins (s : State) (c : Ctx) : (s.setMe c).basins = s.basins := rfl
@[simp] theorem State.setMe_cycle (s : State) (c : Ctx) : (s.setMe c).cycle = s.cycle := rfl
@[simp] theorem State.setMe_cur (s : State) (c : Ctx) : (s.setMe c).cur = s.cur := rfl
@[simp] theorem State.setMe_upc (s : State) (c : Ctx) : (s.setMe c).upc = s.upc := rfl
@[simp] theorem State.setMe_ipc (s : State) (c : Ctx) : (s.setMe c).ipc = s.ipc := rfl
@[simp] theorem State.setMe_ulen (s : State) (c : Ctx) : (s.setMe c).ulen = s.ulen := rfl
@[simp] theorem State.setMe_cond (s : State) (c : Ctx) : (s.setMe c).cond = s.cond := rfl
@[simp] theorem State.setMe_xlanes (s : State) (c : Ctx) : (s.setMe c).xlanes = s.xlanes := rfl
@[simp] theorem State.setMe_nextId (s : State) (c : Ctx) : (s.setMe c).nextId = s.nextId := rfl
@[simp] theorem State.setMe_free (s : State) (c : Ctx) : (s.setMe c).free = s.free := rfl
@[simp] theorem State.setMe_agenda (s : State) (c : Ctx) : (s.setMe c).agenda = s.agenda := rfl
@[simp] theorem State.setMe_grant (s : State) (c : Ctx) : (s.setMe c).grant = s.grant := rfl
@[simp] theorem State.setMe_offered (s : State) (c : Ctx) : (s.setMe c).offered = s.offered := rfl
@[simp] theorem State.setMe_requests (s : State) (c : Ctx) : (s.setMe c).requests = s.requests := rfl
@[simp] theorem State.setMe_fanouts (s : State) (c : Ctx) : (s.setMe c).fanouts = s.fanouts := rfl
@[simp] theorem State.setMe_locks (s : State) (c : Ctx) : (s.setMe c).locks = s.locks := rfl
@[simp] theorem State.setMe_moved (s : State) (c : Ctx) : (s.setMe c).moved = s.moved := rfl
@[simp] theorem State.setMe_iword (s : State) (c : Ctx) : (s.setMe c).iword = s.iword := rfl
@[simp] theorem State.setMe_uw (s : State) (c : Ctx) : (s.setMe c).uw = s.uw := rfl

/-! ### modMe -/

@[simp] theorem State.modMe_mem (s : State) (f : Ctx → Ctx) : (s.modMe f).mem = s.mem := rfl
@[simp] theorem State.modMe_rills (s : State) (f : Ctx → Ctx) : (s.modMe f).rills = s.rills := rfl
@[simp] theorem State.modMe_braids (s : State) (f : Ctx → Ctx) : (s.modMe f).braids = s.braids := rfl
@[simp] theorem State.modMe_basins (s : State) (f : Ctx → Ctx) : (s.modMe f).basins = s.basins := rfl
@[simp] theorem State.modMe_cycle (s : State) (f : Ctx → Ctx) : (s.modMe f).cycle = s.cycle := rfl
@[simp] theorem State.modMe_cur (s : State) (f : Ctx → Ctx) : (s.modMe f).cur = s.cur := rfl
@[simp] theorem State.modMe_upc (s : State) (f : Ctx → Ctx) : (s.modMe f).upc = s.upc := rfl
@[simp] theorem State.modMe_ipc (s : State) (f : Ctx → Ctx) : (s.modMe f).ipc = s.ipc := rfl
@[simp] theorem State.modMe_ulen (s : State) (f : Ctx → Ctx) : (s.modMe f).ulen = s.ulen := rfl
@[simp] theorem State.modMe_cond (s : State) (f : Ctx → Ctx) : (s.modMe f).cond = s.cond := rfl
@[simp] theorem State.modMe_xlanes (s : State) (f : Ctx → Ctx) : (s.modMe f).xlanes = s.xlanes := rfl
@[simp] theorem State.modMe_nextId (s : State) (f : Ctx → Ctx) : (s.modMe f).nextId = s.nextId := rfl
@[simp] theorem State.modMe_free (s : State) (f : Ctx → Ctx) : (s.modMe f).free = s.free := rfl
@[simp] theorem State.modMe_agenda (s : State) (f : Ctx → Ctx) : (s.modMe f).agenda = s.agenda := rfl
@[simp] theorem State.modMe_grant (s : State) (f : Ctx → Ctx) : (s.modMe f).grant = s.grant := rfl
@[simp] theorem State.modMe_offered (s : State) (f : Ctx → Ctx) : (s.modMe f).offered = s.offered := rfl
@[simp] theorem State.modMe_requests (s : State) (f : Ctx → Ctx) : (s.modMe f).requests = s.requests := rfl
@[simp] theorem State.modMe_fanouts (s : State) (f : Ctx → Ctx) : (s.modMe f).fanouts = s.fanouts := rfl
@[simp] theorem State.modMe_locks (s : State) (f : Ctx → Ctx) : (s.modMe f).locks = s.locks := rfl
@[simp] theorem State.modMe_moved (s : State) (f : Ctx → Ctx) : (s.modMe f).moved = s.moved := rfl
@[simp] theorem State.modMe_iword (s : State) (f : Ctx → Ctx) : (s.modMe f).iword = s.iword := rfl
@[simp] theorem State.modMe_uw (s : State) (f : Ctx → Ctx) : (s.modMe f).uw = s.uw := rfl

/-! ### advance -/

@[simp] theorem State.advance_mem (s : State) : s.advance.mem = s.mem := rfl
@[simp] theorem State.advance_rills (s : State) : s.advance.rills = s.rills := rfl
@[simp] theorem State.advance_braids (s : State) : s.advance.braids = s.braids := rfl
@[simp] theorem State.advance_basins (s : State) : s.advance.basins = s.basins := rfl
@[simp] theorem State.advance_cycle (s : State) : s.advance.cycle = s.cycle := rfl
@[simp] theorem State.advance_cur (s : State) : s.advance.cur = s.cur := rfl
@[simp] theorem State.advance_upc (s : State) : s.advance.upc = s.upc := rfl
@[simp] theorem State.advance_ipc (s : State) : s.advance.ipc = s.ipc := rfl
@[simp] theorem State.advance_ulen (s : State) : s.advance.ulen = s.ulen := rfl
@[simp] theorem State.advance_cond (s : State) : s.advance.cond = s.cond := rfl
@[simp] theorem State.advance_xlanes (s : State) : s.advance.xlanes = s.xlanes := rfl
@[simp] theorem State.advance_nextId (s : State) : s.advance.nextId = s.nextId := rfl
@[simp] theorem State.advance_free (s : State) : s.advance.free = s.free := rfl
@[simp] theorem State.advance_agenda (s : State) : s.advance.agenda = s.agenda := rfl
@[simp] theorem State.advance_grant (s : State) : s.advance.grant = s.grant := rfl
@[simp] theorem State.advance_offered (s : State) : s.advance.offered = s.offered := rfl
@[simp] theorem State.advance_requests (s : State) : s.advance.requests = s.requests := rfl
@[simp] theorem State.advance_fanouts (s : State) : s.advance.fanouts = s.fanouts := rfl
@[simp] theorem State.advance_locks (s : State) : s.advance.locks = s.locks := rfl
@[simp] theorem State.advance_moved (s : State) : s.advance.moved = s.moved := rfl
@[simp] theorem State.advance_iword (s : State) : s.advance.iword = s.iword := rfl
@[simp] theorem State.advance_uw (s : State) : s.advance.uw = s.uw := rfl

/-! ### jump -/

@[simp] theorem State.jump_mem (s : State) (t : Word) : (s.jump t).mem = s.mem := rfl
@[simp] theorem State.jump_rills (s : State) (t : Word) : (s.jump t).rills = s.rills := rfl
@[simp] theorem State.jump_braids (s : State) (t : Word) : (s.jump t).braids = s.braids := rfl
@[simp] theorem State.jump_basins (s : State) (t : Word) : (s.jump t).basins = s.basins := rfl
@[simp] theorem State.jump_cycle (s : State) (t : Word) : (s.jump t).cycle = s.cycle := rfl
@[simp] theorem State.jump_cur (s : State) (t : Word) : (s.jump t).cur = s.cur := rfl
@[simp] theorem State.jump_upc (s : State) (t : Word) : (s.jump t).upc = s.upc := rfl
@[simp] theorem State.jump_ipc (s : State) (t : Word) : (s.jump t).ipc = s.ipc := rfl
@[simp] theorem State.jump_ulen (s : State) (t : Word) : (s.jump t).ulen = s.ulen := rfl
@[simp] theorem State.jump_cond (s : State) (t : Word) : (s.jump t).cond = s.cond := rfl
@[simp] theorem State.jump_xlanes (s : State) (t : Word) : (s.jump t).xlanes = s.xlanes := rfl
@[simp] theorem State.jump_nextId (s : State) (t : Word) : (s.jump t).nextId = s.nextId := rfl
@[simp] theorem State.jump_free (s : State) (t : Word) : (s.jump t).free = s.free := rfl
@[simp] theorem State.jump_agenda (s : State) (t : Word) : (s.jump t).agenda = s.agenda := rfl
@[simp] theorem State.jump_grant (s : State) (t : Word) : (s.jump t).grant = s.grant := rfl
@[simp] theorem State.jump_offered (s : State) (t : Word) : (s.jump t).offered = s.offered := rfl
@[simp] theorem State.jump_requests (s : State) (t : Word) : (s.jump t).requests = s.requests := rfl
@[simp] theorem State.jump_fanouts (s : State) (t : Word) : (s.jump t).fanouts = s.fanouts := rfl
@[simp] theorem State.jump_locks (s : State) (t : Word) : (s.jump t).locks = s.locks := rfl
@[simp] theorem State.jump_moved (s : State) (t : Word) : (s.jump t).moved = s.moved := rfl
@[simp] theorem State.jump_iword (s : State) (t : Word) : (s.jump t).iword = s.iword := rfl
@[simp] theorem State.jump_uw (s : State) (t : Word) : (s.jump t).uw = s.uw := rfl

/-! ### park -/

@[simp] theorem State.park_mem (s : State) (h : Hold) : (s.park h).mem = s.mem := rfl
@[simp] theorem State.park_rills (s : State) (h : Hold) : (s.park h).rills = s.rills := rfl
@[simp] theorem State.park_braids (s : State) (h : Hold) : (s.park h).braids = s.braids := rfl
@[simp] theorem State.park_basins (s : State) (h : Hold) : (s.park h).basins = s.basins := rfl
@[simp] theorem State.park_cycle (s : State) (h : Hold) : (s.park h).cycle = s.cycle := rfl
@[simp] theorem State.park_cur (s : State) (h : Hold) : (s.park h).cur = s.cur := rfl
@[simp] theorem State.park_upc (s : State) (h : Hold) : (s.park h).upc = s.upc := rfl
@[simp] theorem State.park_ipc (s : State) (h : Hold) : (s.park h).ipc = s.ipc := rfl
@[simp] theorem State.park_ulen (s : State) (h : Hold) : (s.park h).ulen = s.ulen := rfl
@[simp] theorem State.park_cond (s : State) (h : Hold) : (s.park h).cond = s.cond := rfl
@[simp] theorem State.park_xlanes (s : State) (h : Hold) : (s.park h).xlanes = s.xlanes := rfl
@[simp] theorem State.park_nextId (s : State) (h : Hold) : (s.park h).nextId = s.nextId := rfl
@[simp] theorem State.park_free (s : State) (h : Hold) : (s.park h).free = s.free := rfl
@[simp] theorem State.park_agenda (s : State) (h : Hold) : (s.park h).agenda = s.agenda := rfl
@[simp] theorem State.park_grant (s : State) (h : Hold) : (s.park h).grant = s.grant := rfl
@[simp] theorem State.park_offered (s : State) (h : Hold) : (s.park h).offered = s.offered := rfl
@[simp] theorem State.park_requests (s : State) (h : Hold) : (s.park h).requests = s.requests := rfl
@[simp] theorem State.park_fanouts (s : State) (h : Hold) : (s.park h).fanouts = s.fanouts := rfl
@[simp] theorem State.park_locks (s : State) (h : Hold) : (s.park h).locks = s.locks := rfl
@[simp] theorem State.park_moved (s : State) (h : Hold) : (s.park h).moved = s.moved := rfl
@[simp] theorem State.park_iword (s : State) (h : Hold) : (s.park h).iword = s.iword := rfl
@[simp] theorem State.park_uw (s : State) (h : Hold) : (s.park h).uw = s.uw := rfl

/-! ### setSr -/

@[simp] theorem State.setSr_mem (s : State) (p : Pos) (n : Nat) (v : Word) : (s.setSr p n v).mem = s.mem := rfl
@[simp] theorem State.setSr_rills (s : State) (p : Pos) (n : Nat) (v : Word) : (s.setSr p n v).rills = s.rills := rfl
@[simp] theorem State.setSr_braids (s : State) (p : Pos) (n : Nat) (v : Word) : (s.setSr p n v).braids = s.braids := rfl
@[simp] theorem State.setSr_basins (s : State) (p : Pos) (n : Nat) (v : Word) : (s.setSr p n v).basins = s.basins := rfl
@[simp] theorem State.setSr_cycle (s : State) (p : Pos) (n : Nat) (v : Word) : (s.setSr p n v).cycle = s.cycle := rfl
@[simp] theorem State.setSr_cur (s : State) (p : Pos) (n : Nat) (v : Word) : (s.setSr p n v).cur = s.cur := rfl
@[simp] theorem State.setSr_upc (s : State) (p : Pos) (n : Nat) (v : Word) : (s.setSr p n v).upc = s.upc := rfl
@[simp] theorem State.setSr_ipc (s : State) (p : Pos) (n : Nat) (v : Word) : (s.setSr p n v).ipc = s.ipc := rfl
@[simp] theorem State.setSr_ulen (s : State) (p : Pos) (n : Nat) (v : Word) : (s.setSr p n v).ulen = s.ulen := rfl
@[simp] theorem State.setSr_cond (s : State) (p : Pos) (n : Nat) (v : Word) : (s.setSr p n v).cond = s.cond := rfl
@[simp] theorem State.setSr_xlanes (s : State) (p : Pos) (n : Nat) (v : Word) : (s.setSr p n v).xlanes = s.xlanes := rfl
@[simp] theorem State.setSr_nextId (s : State) (p : Pos) (n : Nat) (v : Word) : (s.setSr p n v).nextId = s.nextId := rfl
@[simp] theorem State.setSr_free (s : State) (p : Pos) (n : Nat) (v : Word) : (s.setSr p n v).free = s.free := rfl
@[simp] theorem State.setSr_agenda (s : State) (p : Pos) (n : Nat) (v : Word) : (s.setSr p n v).agenda = s.agenda := rfl
@[simp] theorem State.setSr_grant (s : State) (p : Pos) (n : Nat) (v : Word) : (s.setSr p n v).grant = s.grant := rfl
@[simp] theorem State.setSr_offered (s : State) (p : Pos) (n : Nat) (v : Word) : (s.setSr p n v).offered = s.offered := rfl
@[simp] theorem State.setSr_requests (s : State) (p : Pos) (n : Nat) (v : Word) : (s.setSr p n v).requests = s.requests := rfl
@[simp] theorem State.setSr_fanouts (s : State) (p : Pos) (n : Nat) (v : Word) : (s.setSr p n v).fanouts = s.fanouts := rfl
@[simp] theorem State.setSr_locks (s : State) (p : Pos) (n : Nat) (v : Word) : (s.setSr p n v).locks = s.locks := rfl
@[simp] theorem State.setSr_moved (s : State) (p : Pos) (n : Nat) (v : Word) : (s.setSr p n v).moved = s.moved := rfl
@[simp] theorem State.setSr_iword (s : State) (p : Pos) (n : Nat) (v : Word) : (s.setSr p n v).iword = s.iword := rfl
@[simp] theorem State.setSr_uw (s : State) (p : Pos) (n : Nat) (v : Word) : (s.setSr p n v).uw = s.uw := rfl

/-! ### What an accessor reads after its own update -/

@[simp] theorem State.ctx_setCtx (s : State) (p : Pos) (c : Ctx) : (s.setCtx p c).ctx p = c := Table.get_put_same _ _ _ _
theorem State.ctx_setCtx_other (s : State) {p q : Pos} (c : Ctx) (h : q.key ≠ p.key) : (s.setCtx p c).ctx q = s.ctx q :=
  Table.get_put_other _ _ _ h
@[simp] theorem State.ctx_modCtx (s : State) (p : Pos) (f : Ctx → Ctx) : (s.modCtx p f).ctx p = f (s.ctx p) :=
  Table.get_put_same _ _ _ _
theorem State.ctx_modCtx_other (s : State) {p q : Pos} (f : Ctx → Ctx) (h : q.key ≠ p.key) : (s.modCtx p f).ctx q = s.ctx q :=
  Table.get_put_other _ _ _ h
@[simp] theorem State.rill_setRill (s : State) (b r : Nat) (x : Rill) : (s.setRill b r x).rill b r = x :=
  Table.get_put_same _ _ _ _
@[simp] theorem State.rill_modRill (s : State) (b r : Nat) (f : Rill → Rill) : (s.modRill b r f).rill b r = f (s.rill b r) :=
  Table.get_put_same _ _ _ _
@[simp] theorem State.braid_setBraid (s : State) (b : Nat) (x : Braid) : (s.setBraid b x).braid b = x :=
  Table.get_put_same _ _ _ _
@[simp] theorem State.braid_modBraid (s : State) (b : Nat) (f : Braid → Braid) : (s.modBraid b f).braid b = f (s.braid b) :=
  Table.get_put_same _ _ _ _
theorem State.braid_modBraid_other (s : State) {b c : Nat} (f : Braid → Braid) (h : c ≠ b) :
    (s.modBraid b f).braid c = s.braid c := Table.get_put_other _ _ _ h
@[simp] theorem State.basin_setBasin (s : State) (n : Nat) (x : Basin) : (s.setBasin n x).basin n = x :=
  Table.get_put_same _ _ _ _
@[simp] theorem State.basin_modBasin (s : State) (n : Nat) (f : Basin → Basin) : (s.modBasin n f).basin n = f (s.basin n) :=
  Table.get_put_same _ _ _ _
@[simp] theorem State.rill_setCtx (s : State) (p : Pos) (c : Ctx) (b r : Nat) : (s.setCtx p c).rill b r = s.rill b r := rfl
@[simp] theorem State.braid_setCtx (s : State) (p : Pos) (c : Ctx) (b : Nat) : (s.setCtx p c).braid b = s.braid b := rfl
@[simp] theorem State.basin_setCtx (s : State) (p : Pos) (c : Ctx) (n : Nat) : (s.setCtx p c).basin n = s.basin n := rfl
@[simp] theorem State.rill_modCtx (s : State) (p : Pos) (f : Ctx → Ctx) (b r : Nat) : (s.modCtx p f).rill b r = s.rill b r := rfl
@[simp] theorem State.braid_modCtx (s : State) (p : Pos) (f : Ctx → Ctx) (b : Nat) : (s.modCtx p f).braid b = s.braid b := rfl
@[simp] theorem State.basin_modCtx (s : State) (p : Pos) (f : Ctx → Ctx) (n : Nat) : (s.modCtx p f).basin n = s.basin n := rfl
@[simp] theorem State.ctx_setRill (s : State) (p : Pos) (x : Rill) (b r : Nat) : (s.setRill b r x).ctx p = s.ctx p := rfl
@[simp] theorem State.ctx_modRill (s : State) (p : Pos) (f : Rill → Rill) (b r : Nat) : (s.modRill b r f).ctx p = s.ctx p := rfl
@[simp] theorem State.ctx_modBraid (s : State) (p : Pos) (f : Braid → Braid) (b : Nat) : (s.modBraid b f).ctx p = s.ctx p := rfl
@[simp] theorem State.ctx_modBasin (s : State) (p : Pos) (f : Basin → Basin) (n : Nat) : (s.modBasin n f).ctx p = s.ctx p := rfl
@[simp] theorem State.braid_modRill (s : State) (f : Rill → Rill) (b r c : Nat) : (s.modRill b r f).braid c = s.braid c := rfl
@[simp] theorem State.rill_modBraid (s : State) (f : Braid → Braid) (b r c : Nat) : (s.modBraid b f).rill c r = s.rill c r := rfl

/-! ### Updates of one place after another -/

@[simp] theorem State.setCtx_setCtx (s : State) (p : Pos) (c d : Ctx) : (s.setCtx p c).setCtx p d = s.setCtx p d := by
  simp [State.setCtx]
@[simp] theorem State.modCtx_modCtx (s : State) (p : Pos) (f g : Ctx → Ctx) :
    (s.modCtx p f).modCtx p g = s.modCtx p fun c => g (f c) := by
  simp [State.modCtx]
theorem State.modCtx_eq (s : State) (p : Pos) (f : Ctx → Ctx) : s.modCtx p f = s.setCtx p (f (s.ctx p)) := rfl

/-! ### The executing thread -/

@[simp] theorem State.me_setMe (s : State) (c : Ctx) : (s.setMe c).me = c := State.ctx_setCtx _ _ _
@[simp] theorem State.me_modMe (s : State) (f : Ctx → Ctx) : (s.modMe f).me = f s.me := State.ctx_setCtx _ _ _
@[simp] theorem State.setMe_setMe (s : State) (c d : Ctx) : (s.setMe c).setMe d = s.setMe d := State.setCtx_setCtx _ _ _ _
@[simp] theorem State.modMe_modMe (s : State) (f g : Ctx → Ctx) : (s.modMe f).modMe g = s.modMe fun c => g (f c) := by
  simp [State.modMe, State.me]
@[simp] theorem State.me_advance (s : State) : s.advance.me = { s.me with pc := s.nextPc, took := false } := State.me_modMe _ _
@[simp] theorem State.me_jump (s : State) (t : Word) : (s.jump t).me = { s.me with pc := t, took := true } := State.me_modMe _ _
@[simp] theorem State.me_park (s : State) (h : Hold) : (s.park h).me = { s.me with held := some h } := State.me_modMe _ _
@[simp] theorem State.nextPc_modMe (s : State) (f : Ctx → Ctx) : (s.modMe f).nextPc = s.nextPc := rfl
@[simp] theorem State.nextPc_setMe (s : State) (c : Ctx) : (s.setMe c).nextPc = s.nextPc := rfl
@[simp] theorem State.myRill_modMe (s : State) (f : Ctx → Ctx) : (s.modMe f).myRill = s.myRill := rfl
@[simp] theorem State.me_modMyRill (s : State) (f : Rill → Rill) : (s.modMyRill f).me = s.me := rfl

/-! ### System registers -/

@[simp] theorem State.srAt_setSr (s : State) (p : Pos) (n : Nat) (v : Word) : (s.setSr p n v).srAt p n = v := by
  simp [State.srAt, State.setSr]
theorem State.srAt_setSr_other (s : State) (p : Pos) {n m : Nat} (v : Word) (h : m ≠ n) :
    (s.setSr p n v).srAt p m = s.srAt p m := by
  simp [State.srAt, State.setSr, Table.get_put_other _ _ _ h]
@[simp] theorem State.rillSr_setRillSr (s : State) (b r n : Nat) (v : Word) : (s.setRillSr b r n v).rillSr b r n = v := by
  simp [State.rillSr, State.setRillSr]

end Sys2Proof.Machine
end

