-- ==== Sys2Proof/Laws/Registers.lean ====
section
/-! SUPPORT. Laws of a thread's registers, and what each operand form answers (Operands.lean): one lemma a function, which
later proofs cite. -/

namespace Sys2Proof.Machine

/-! ### Places -/

/-- Two register fields name one place only when they are equal. -/
theorem Ctx.dest_inj (c : Ctx) {r q : BitVec 5} (h : c.dest r = c.dest q) : r = q := by
  apply BitVec.eq_of_toNat_eq
  have hr := r.isLt
  have hq := q.isLt
  unfold Ctx.dest Ctx.winAt at h
  split_ifs at h <;> simp only [Dest.g.injEq, Dest.win.injEq] at h <;> omega

@[simp] theorem Ctx.dest_zero (c : Ctx) : c.dest 0 = .none := rfl

theorem Ctx.dest_ne_none (c : Ctx) {r : BitVec 5} (h : r ≠ 0) : c.dest r ≠ .none := fun e => h (c.dest_inj (e.trans c.dest_zero.symm))

/-- A register field names no vector register, predicate or ox register. -/
theorem Ctx.dest_cases (c : Ctx) (r : BitVec 5) : c.dest r = .none ∨ (∃ n, c.dest r = .g n) ∨ ∃ n, c.dest r = .win n := by
  unfold Ctx.dest
  split
  · exact .inl rfl
  · split
    · exact .inr (.inl ⟨_, rfl⟩)
    · exact .inr (.inr ⟨_, rfl⟩)

/-- The place of a register depends on the current window only. -/
theorem Ctx.dest_congr {c d : Ctx} (h : d.depth = c.depth) (r : BitVec 5) : d.dest r = c.dest r := by
  unfold Ctx.dest Ctx.winAt; rw [h]

section setCellAt
variable (c : Ctx) (d : Dest) (x : Cell)

@[simp] theorem Ctx.setCellAt_depth : (c.setCellAt d x).depth = c.depth := by cases d <;> rfl
@[simp] theorem Ctx.setCellAt_resident : (c.setCellAt d x).resident = c.resident := by cases d <;> rfl
@[simp] theorem Ctx.setCellAt_q : (c.setCellAt d x).q = c.q := by cases d <;> rfl
@[simp] theorem Ctx.setCellAt_v : (c.setCellAt d x).v = c.v := by cases d <;> rfl
@[simp] theorem Ctx.setCellAt_ix : (c.setCellAt d x).ix = c.ix := by cases d <;> rfl
@[simp] theorem Ctx.setCellAt_sr : (c.setCellAt d x).sr = c.sr := by cases d <;> rfl
@[simp] theorem Ctx.setCellAt_pc : (c.setCellAt d x).pc = c.pc := by cases d <;> rfl
@[simp] theorem Ctx.setCellAt_run : (c.setCellAt d x).run = c.run := by cases d <;> rfl
@[simp] theorem Ctx.setCellAt_wait : (c.setCellAt d x).wait = c.wait := by cases d <;> rfl
@[simp] theorem Ctx.setCellAt_held : (c.setCellAt d x).held = c.held := by cases d <;> rfl
@[simp] theorem Ctx.setCellAt_left : (c.setCellAt d x).left = c.left := by cases d <;> rfl
@[simp] theorem Ctx.setCellAt_tx : (c.setCellAt d x).tx = c.tx := by cases d <;> rfl
@[simp] theorem Ctx.setCellAt_flights : (c.setCellAt d x).flights = c.flights := by cases d <;> rfl
@[simp] theorem Ctx.setCellAt_pred (q : BitVec 3) : (c.setCellAt d x).pred q = c.pred q := by cases d <;> rfl
@[simp] theorem Ctx.setCellAt_dest (r : BitVec 5) : (c.setCellAt d x).dest r = c.dest r := Ctx.dest_congr (by simp) r

end setCellAt

/-- A written place reads as written, every other as before; nothing is kept of a write to no place. -/
theorem Ctx.cellAt_setCellAt (c : Ctx) (d e : Dest) (x : Cell) (hd : d = .none ∨ (∃ n, d = .g n) ∨ (∃ n, d = .win n) ∨ ∃ n, d = .ox n) :
    (c.setCellAt d x).cellAt e = if e = d ∧ d ≠ .none then x else c.cellAt e := by
  rcases hd with rfl | ⟨n, rfl⟩ | ⟨n, rfl⟩ | ⟨n, rfl⟩ <;> cases e <;>
    simp [Ctx.setCellAt, Ctx.cellAt, Table.get_put]

/-! ### General registers and predicates -/

@[simp] theorem Ctx.reg_zero (c : Ctx) : c.reg 0 = {} := rfl
@[simp] theorem Ctx.setReg_zero (c : Ctx) (v : Word) (p : Bool) : c.setReg 0 v p = c := rfl

theorem Ctx.reg_setReg (c : Ctx) (r q : BitVec 5) (v : Word) (p : Bool) :
    (c.setReg r v p).reg q = if q = r ∧ r ≠ 0 then { val := v, poison := p } else c.reg q := by
  unfold Ctx.setReg Ctx.reg
  rw [Ctx.setCellAt_dest, Ctx.cellAt_setCellAt _ _ _ _ (by rcases c.dest_cases r with h | h | h <;> simp [h])]
  by_cases h : q = r ∧ r ≠ 0
  · rw [if_pos h, if_pos ⟨by rw [h.1], c.dest_ne_none h.2⟩]
  · rw [if_neg h, if_neg]
    rintro ⟨h1, h2⟩
    exact h ⟨c.dest_inj h1, fun e => h2 (by rw [e, c.dest_zero])⟩

@[simp] theorem Ctx.setReg_depth (c : Ctx) (r : BitVec 5) (v : Word) (p : Bool) : (c.setReg r v p).depth = c.depth := by simp [Ctx.setReg]
@[simp] theorem Ctx.setReg_q (c : Ctx) (r : BitVec 5) (v : Word) (p : Bool) : (c.setReg r v p).q = c.q := by simp [Ctx.setReg]
@[simp] theorem Ctx.setReg_v (c : Ctx) (r : BitVec 5) (v : Word) (p : Bool) : (c.setReg r v p).v = c.v := by simp [Ctx.setReg]
@[simp] theorem Ctx.setReg_ox (c : Ctx) (r : BitVec 5) (v : Word) (p : Bool) : (c.setReg r v p).ox = c.ox := by
  unfold Ctx.setReg; rcases c.dest_cases r with h | ⟨n, h⟩ | ⟨n, h⟩ <;> rw [h] <;> rfl
@[simp] theorem Ctx.setReg_ix (c : Ctx) (r : BitVec 5) (v : Word) (p : Bool) : (c.setReg r v p).ix = c.ix := by simp [Ctx.setReg]
@[simp] theorem Ctx.setReg_sr (c : Ctx) (r : BitVec 5) (v : Word) (p : Bool) : (c.setReg r v p).sr = c.sr := by simp [Ctx.setReg]
@[simp] theorem Ctx.setReg_pc (c : Ctx) (r : BitVec 5) (v : Word) (p : Bool) : (c.setReg r v p).pc = c.pc := by simp [Ctx.setReg]
@[simp] theorem Ctx.setReg_held (c : Ctx) (r : BitVec 5) (v : Word) (p : Bool) : (c.setReg r v p).held = c.held := by simp [Ctx.setReg]
@[simp] theorem Ctx.setReg_pred (c : Ctx) (r : BitVec 5) (v : Word) (p : Bool) (q : BitVec 3) :
    (c.setReg r v p).pred q = c.pred q := by simp [Ctx.setReg]

@[simp] theorem Ctx.pred_zero (c : Ctx) : c.pred 0 = { val := true } := rfl

theorem Ctx.pred_setPred (c : Ctx) (q r : BitVec 3) (v p : Bool) :
    (c.setPred q v p).pred r = if r = q ∧ q ≠ 0 then { val := v, poison := p } else c.pred r := by
  unfold Ctx.setPred
  by_cases h : q = 0
  · simp [h]
  · rw [if_neg h]
    unfold Ctx.pred
    simp only [Table.get_put, ← BitVec.toNat_eq]
    by_cases h2 : r = q
    · subst h2; rw [if_neg h, if_pos rfl, if_pos ⟨rfl, h⟩]
    · simp [h2]

@[simp] theorem Ctx.reg_setPred (c : Ctx) (q : BitVec 3) (r : BitVec 5) (v p : Bool) : (c.setPred q v p).reg r = c.reg r := by
  unfold Ctx.setPred; split <;> rfl

/-- The registers read the same when the thread's units or its state change besides. -/
theorem Ctx.reg_congr {c d : Ctx} (h1 : d.depth = c.depth) (h2 : d.g = c.g) (h3 : d.win = c.win) (r : BitVec 5) :
    d.reg r = c.reg r := by
  unfold Ctx.reg
  rw [Ctx.dest_congr h1]
  rcases c.dest_cases r with h | ⟨n, h⟩ | ⟨n, h⟩ <;> rw [h] <;> simp [Ctx.cellAt, h2, h3]

/-! ### The executing thread's registers when it goes on -/

@[simp] theorem State.reg_advance (s : State) (r : BitVec 5) : s.advance.me.reg r = s.me.reg r := by
  rw [State.me_advance]; exact Ctx.reg_congr rfl rfl rfl r
@[simp] theorem State.reg_jump (s : State) (t : Word) (r : BitVec 5) : (s.jump t).me.reg r = s.me.reg r := by
  rw [State.me_jump]; exact Ctx.reg_congr rfl rfl rfl r
@[simp] theorem State.reg_park (s : State) (h : Hold) (r : BitVec 5) : (s.park h).me.reg r = s.me.reg r := by
  rw [State.me_park]; exact Ctx.reg_congr rfl rfl rfl r
@[simp] theorem State.pred_advance (s : State) (q : BitVec 3) : s.advance.me.pred q = s.me.pred q := by
  rw [State.me_advance]; rfl
@[simp] theorem State.pred_jump (s : State) (t : Word) (q : BitVec 3) : (s.jump t).me.pred q = s.me.pred q := by
  rw [State.me_jump]; rfl
@[simp] theorem State.pred_park (s : State) (h : Hold) (q : BitVec 3) : (s.park h).me.pred q = s.me.pred q := by
  rw [State.me_park]; rfl

/-! ### What the operand forms answer -/

/-- A full operand goes on with its cell. -/
theorem withReg_full {s : State} {r : BitVec 5} (k : Cell → Res) (h : (s.me.reg r).full = true) : withReg s r k = k (s.me.reg r) := by
  simp [withReg, h]

/-- An empty operand parks the thread (R8, R79). -/
theorem withReg_empty {s : State} {r : BitVec 5} (k : Cell → Res) (h : (s.me.reg r).full = false) :
    withReg s r k = .next (s.park .register) := by
  simp [withReg, h, parked]

theorem withPred_full {s : State} {q : BitVec 3} (k : QCell → Res) (h : (s.me.pred q).full = true) :
    withPred s q k = k (s.me.pred q) := by
  simp [withPred, h]

theorem withPred_empty {s : State} {q : BitVec 3} (k : QCell → Res) (h : (s.me.pred q).full = false) :
    withPred s q k = .next (s.park .register) := by
  simp [withPred, h, parked]

/-- A control operand that is full and unpoisoned goes on with its value. -/
theorem withControl_clean {s : State} {r : BitVec 5} (k : Word → Res) (h : (s.me.reg r).full = true)
    (hp : (s.me.reg r).poison = false) : withControl s r k = k (s.me.reg r).val := by
  simp [withControl, withReg_full _ h, hp]

/-- A poisoned control operand traps POISON-CONSUMED with its value (R456). -/
theorem withControl_poisoned {s : State} {r : BitVec 5} (k : Word → Res) (h : (s.me.reg r).full = true)
    (hp : (s.me.reg r).poison = true) : withControl s r k = .next (s.trapTo 0x0C (s.me.reg r).val) := by
  simp [withControl, withReg_full _ h, hp, trapped]

theorem withPredControl_clean {s : State} {q : BitVec 3} (k : Bool → Res) (h : (s.me.pred q).full = true)
    (hp : (s.me.pred q).poison = false) : withPredControl s q k = k (s.me.pred q).val := by
  simp [withPredControl, withPred_full _ h, hp]

theorem withControls_clean {s : State} {r1 r2 : BitVec 5} (k : Word → Word → Res) (h1 : (s.me.reg r1).full = true)
    (h2 : (s.me.reg r2).full = true) (p1 : (s.me.reg r1).poison = false) (p2 : (s.me.reg r2).poison = false) :
    withControls s r1 r2 k = k (s.me.reg r1).val (s.me.reg r2).val := by
  simp [withControls, withReg_full _ h1, withReg_full _ h2, p1, p2]

/-- Whatever the operand holds, a form that goes on with a next state answers one. -/
theorem withReg_next {s : State} {r : BitVec 5} {k : Cell → Res} (h : ∀ x, ∃ t, k x = .next t) : ∃ t, withReg s r k = .next t := by
  unfold withReg parked; split
  · exact h _
  · exact ⟨_, rfl⟩

theorem withPred_next {s : State} {q : BitVec 3} {k : QCell → Res} (h : ∀ x, ∃ t, k x = .next t) :
    ∃ t, withPred s q k = .next t := by
  unfold withPred parked; split
  · exact h _
  · exact ⟨_, rfl⟩

theorem withVreg_next {s : State} {n : Nat} {k : VCell → Res} (h : ∀ x, ∃ t, k x = .next t) : ∃ t, withVreg s n k = .next t := by
  unfold withVreg parked; split
  · exact h _
  · exact ⟨_, rfl⟩

theorem withControl_next {s : State} {r : BitVec 5} {k : Word → Res} (h : ∀ x, ∃ t, k x = .next t) :
    ∃ t, withControl s r k = .next t := by
  refine withReg_next fun x => ?_
  split
  · exact ⟨_, rfl⟩
  · exact h _

theorem withPredControl_next {s : State} {q : BitVec 3} {k : Bool → Res} (h : ∀ x, ∃ t, k x = .next t) :
    ∃ t, withPredControl s q k = .next t := by
  refine withPred_next fun x => ?_
  split
  · exact ⟨_, rfl⟩
  · exact h _

theorem withControls_next {s : State} {r1 r2 : BitVec 5} {k : Word → Word → Res} (h : ∀ x y, ∃ t, k x y = .next t) :
    ∃ t, withControls s r1 r2 k = .next t := by
  refine withReg_next fun x => withReg_next fun y => ?_
  split
  · exact ⟨_, rfl⟩
  · split
    · exact ⟨_, rfl⟩
    · exact h _ _

theorem withOx_next {s : State} {o n : Nat} {k : List Word → Res} (h : ∀ x, ∃ t, k x = .next t) :
    ∃ t, withOx s o n k = .next t := by
  unfold withOx parked trapped; split
  · split
    · exact ⟨_, rfl⟩
    · exact h _
  · exact ⟨_, rfl⟩

/-- A simple instruction of one source: its result, or it parks. -/
theorem unary_cases (f : Word → Word) (d a : BitVec 5) (s : State) :
    unary f d a s = (if (s.me.reg a).full then wrote s d (f (s.me.reg a).val) (s.me.reg a).poison else .next (s.park .register)) := rfl

/-- A simple instruction of two sources: its result, or it parks. -/
theorem binary_cases (f : Word → Word → Word) (d a b : BitVec 5) (s : State) :
    binary f d a b s = (if (s.me.reg a).full && (s.me.reg b).full
      then wrote s d (f (s.me.reg a).val (s.me.reg b).val) ((s.me.reg a).poison || (s.me.reg b).poison)
      else .next (s.park .register)) := by
  unfold binary withReg parked
  cases (s.me.reg a).full <;> cases (s.me.reg b).full <;> rfl

/-- The destination of a simple instruction holds its result; every other register is as before. -/
theorem wrote_reg (s : State) (d : BitVec 5) (v : Word) (p : Bool) :
    ∃ t, wrote s d v p = .next t ∧ (∀ r, t.me.reg r = if r = d ∧ d ≠ 0 then { val := v, poison := p } else s.me.reg r)
      ∧ t.me.pc = s.nextPc ∧ t.mem = s.mem := by
  refine ⟨_, rfl, fun r => ?_, by simp, by simp⟩
  rw [State.reg_advance, State.me_modMe, Ctx.reg_setReg]

end Sys2Proof.Machine
end

