-- ==== Sys2Proof/Laws/Access.lean ====
section
/-! SUPPORT. What issuing the accesses of one instruction does (R143 to R145), and what it leaves alone. -/

namespace Sys2Proof.Machine

/-! ### Addresses -/

/-- An address passes the four checks of R143. -/
theorem addressFault_none {ea : Word} {size : Nat} {bad aligned : Bool} (h : addressFault ea size bad aligned = none) :
    bad = false ∧ field ea 63 56 = 0 ∧ (aligned = true → ea.toNat % size = 0) := by
  unfold addressFault at h
  split_ifs at h with h1 h2 h3
  refine ⟨by simpa using h1, by simpa using h2, fun ha => ?_⟩
  simpa [ha] using h3

theorem withAddress_ok {s : State} {ea : Word} {size : Nat} {bad : Bool} (k : Res) (w : Bool)
    (h : addressFault ea size bad true = none) : withAddress s ea size bad k w = k := by
  simp [withAddress, h]

theorem withAddress_fault {s : State} {ea : Word} {size : Nat} {bad : Bool} {c : Nat} (k : Res) (w : Bool)
    (h : addressFault ea size bad true = some c) : withAddress s ea size bad k w = .next (s.trapAs c ea s.ulen s.upc w) := by
  simp [withAddress, h, trappedAt]

theorem withAddress_next {s : State} {ea : Word} {size : Nat} {bad : Bool} {k : Res} (w : Bool) (h : ∃ t, k = .next t) :
    ∃ t, withAddress s ea size bad k w = .next t := by
  unfold withAddress trappedAt; split
  · exact ⟨_, rfl⟩
  · exact h

/-! ### Issue -/

/-- Whatever becomes of the accesses, the unit ends in a next state. -/
theorem issueThen_next (s : State) (ds : List Dest) (la : Option Nat) (accs : List Access) (post : State → State) :
    ∃ t, issueThen s ds la accs post = .next t := by
  unfold issueThen parked
  dsimp only
  split
  · exact ⟨_, rfl⟩
  · split
    · exact ⟨_, rfl⟩
    · split
      · exact ⟨_, rfl⟩
      · split
        · split
          · exact ⟨_, rfl⟩
          · split <;> exact ⟨_, rfl⟩
        · exact ⟨_, rfl⟩

theorem goList_map_go (bs : List Access) : goList (bs.map Resolved.go) = bs := by
  induction bs with
  | nil => rfl
  | cons b t ih => simp [goList, ih]

theorem groupLogs_map_go (bs : List Access) : groupLogs (bs.map Resolved.go) = [] := by
  induction bs with
  | nil => rfl
  | cons b t ih => exact ih

/-- All accesses pass: they are sent, the destinations wait, and the thread goes on. -/
theorem issueThen_go {s s1 : State} {bs : List Access} (ds : List Dest) (la : Option Nat) (accs : List Access)
    (post : State → State) (hroom : s.cur.k = 15 ∨ 0 < s.myRill.replayRoom)
    (h : ({ s with nextId := s.nextId + accs.length } : State).resolveAll s.cur (numberFrom s.nextId s.me.seq s.iword (s.me.las.map Window.seq) 0 accs)
      = (s1, bs.map Resolved.go)) :
    issueThen s ds la accs post = .next (post
      ((bs.foldl (fun t a => t.launchAccess s.cur a) (s1.modMe fun c => ds.foldl (fun x d => x.setEmpty d s.nextId) c)).modMe
        fun c => match la with
          | some n => c.openLa n (accs.any fun x => x.kind.keepsLa)
          | none => c)).advance := by
  have hr : (s.cur.k != 15 && s.myRill.replayRoom == 0) = false := by
    rcases hroom with h | h
    · simp [h]
    · have : s.myRill.replayRoom ≠ 0 := by omega
      simp [this]
  have h1 : ((bs.map Resolved.go).any fun r => r == .poisoned) = false := by simp
  have h2 : ((bs.map Resolved.go).any fun r => r == .ask) = false := by simp
  unfold issueThen
  dsimp only
  rw [if_neg (by simp [hr]), h]
  simp only [h1, h2, Bool.false_eq_true, if_false, groupLogs_map_go, goList_map_go] <;> rfl

/-- The same for one access. -/
theorem issueOne_go {s s1 : State} {a1 : Access} (x : OneAccess) (hroom : s.cur.k = 15 ∨ 0 < s.myRill.replayRoom)
    (h : s.passes x.acc s1 a1) : issueAll s x.dests x.la [x.acc] x.post = .next (s.afterIssue s1 x a1) := by
  unfold State.passes at h
  have h' : ({ s with nextId := s.nextId + [x.acc].length } : State).resolveAll s.cur
      (numberFrom s.nextId s.me.seq s.iword (s.me.las.map Window.seq) 0 [x.acc]) = (s1, [a1].map Resolved.go) := by
    simp only [numberFrom, State.resolveAll, List.length_singleton, Nat.add_zero, List.map_cons, List.map_nil]
    rw [show ({ x.acc with id := s.nextId, src := s.nextId, seq := s.me.seq, code := s.iword, within := s.me.las.map Window.seq } : Access) = s.numbered x.acc from rfl, h]
  unfold issueAll
  rw [issueThen_go x.dests x.la [x.acc] _ hroom h']
  simp only [List.any_cons, List.any_nil, Bool.or_false]
  rfl

/-! ### What issue leaves alone -/

@[simp] theorem State.fillTlb_mem (s : State) (p : Pos) (e : TlbEntry) (b : Bool) : (s.fillTlb p e b).mem = s.mem := by
  unfold State.fillTlb; split <;> rfl
@[simp] theorem State.fillTlb_ctxs (s : State) (p : Pos) (e : TlbEntry) (b : Bool) : (s.fillTlb p e b).ctxs = s.ctxs := by
  unfold State.fillTlb; split <;> rfl
@[simp] theorem State.fillTlb_cur (s : State) (p : Pos) (e : TlbEntry) (b : Bool) : (s.fillTlb p e b).cur = s.cur := by
  unfold State.fillTlb; split <;> rfl

@[simp] theorem State.translateHit_keeps (s : State) (p : Pos) (n va : Nat) (user : Bool) (need : Need) (e : TlbEntry)
    (near : Bool) : (s.translateHit p n va user need e near).1.mem = s.mem
      ∧ (s.translateHit p n va user need e near).1.ctxs = s.ctxs ∧ (s.translateHit p n va user need e near).1.cur = s.cur := by
  cases near <;> simp [State.translateHit]

@[simp] theorem State.askHost_keeps (s : State) (p : Pos) (n asid va : Nat) (need : Need) (leaf : Word) (size : Nat) :
    (s.askHost p n asid va need leaf size).1.mem = s.mem ∧ (s.askHost p n asid va need leaf size).1.ctxs = s.ctxs
      ∧ (s.askHost p n asid va need leaf size).1.cur = s.cur := by
  unfold State.askHost
  dsimp only
  repeat' split
  all_goals exact ⟨rfl, rfl, rfl⟩

@[simp] theorem State.translateLeaf_keeps (s : State) (p : Pos) (n asid va : Nat) (user : Bool) (need : Need) (leaf : Word)
    (lvl : Nat) : (s.translateLeaf p n asid va user need leaf lvl).1.mem = s.mem
      ∧ (s.translateLeaf p n asid va user need leaf lvl).1.ctxs = s.ctxs
      ∧ (s.translateLeaf p n asid va user need leaf lvl).1.cur = s.cur := by
  unfold State.translateLeaf
  dsimp only
  split
  · exact ⟨rfl, rfl, rfl⟩
  · split <;> simp

@[simp] theorem State.translateWalk_keeps (s : State) (p : Pos) (n asid va : Nat) (user : Bool) (need : Need) (w : Walk) :
    (s.translateWalk p n asid va user need w).1.mem = s.mem ∧ (s.translateWalk p n asid va user need w).1.ctxs = s.ctxs
      ∧ (s.translateWalk p n asid va user need w).1.cur = s.cur := by
  cases w with
  | leaf l k => exact s.translateLeaf_keeps _ _ _ _ _ _ _ _
  | fault c => exact ⟨rfl, rfl, rfl⟩
  | poisoned => exact ⟨rfl, rfl, rfl⟩

/-- A translation changes translations and requests to the host only. -/
theorem State.translateAs_keeps (s : State) (p : Pos) (n asid root va : Nat) (user : Bool) (need : Need) :
    (s.translateAs p n asid root va user need).1.mem = s.mem ∧ (s.translateAs p n asid root va user need).1.ctxs = s.ctxs
      ∧ (s.translateAs p n asid root va user need).1.cur = s.cur := by
  have h : ∀ vs : List Via, (s.afterDraw vs).mem = s.mem ∧ (s.afterDraw vs).ctxs = s.ctxs ∧ (s.afterDraw vs).cur = s.cur :=
    fun vs => by unfold State.afterDraw; split <;> exact ⟨rfl, rfl, rfl⟩
  obtain ⟨h1, h2, h3⟩ := h (s.vias p n asid root va)
  unfold State.translateAs
  dsimp only
  split
  · simp [h1, h2, h3]
  · simp [h1, h2, h3]

theorem State.translate_keeps (s : State) (p : Pos) (va : Word) (need : Need) :
    (s.translate p va need).1.mem = s.mem ∧ (s.translate p va need).1.ctxs = s.ctxs ∧ (s.translate p va need).1.cur = s.cur :=
  s.translateAs_keeps _ _ _ _ _ _ _

theorem State.resolve_keeps (s : State) (p : Pos) (a : Access) :
    (s.resolve p a).1.mem = s.mem ∧ (s.resolve p a).1.ctxs = s.ctxs ∧ (s.resolve p a).1.cur = s.cur := by
  unfold State.resolve
  split
  · exact ⟨rfl, rfl, rfl⟩
  · split
    · exact ⟨rfl, rfl, rfl⟩
    · have h := s.translate_keeps p a.va a.kind.need
      split <;> next e => rw [e] at h; exact h

@[simp] theorem State.route_mem (s : State) (p : Pos) (a : Access) : (s.route p a).mem = s.mem := by
  unfold State.route; split <;> rfl
@[simp] theorem State.route_ctxs (s : State) (p : Pos) (a : Access) : (s.route p a).ctxs = s.ctxs := by
  unfold State.route; split <;> rfl

@[simp] theorem State.launchAccess_mem (s : State) (p : Pos) (a : Access) : (s.launchAccess p a).mem = s.mem := by
  unfold State.launchAccess; dsimp only; split
  · rfl
  · split <;> simp

/-- An access that is sent joins the accesses in flight of its thread. -/
theorem State.launchAccess_ctxs (s : State) (p : Pos) (a : Access) :
    (s.launchAccess p a).ctxs = (s.modCtx p fun c => { c with flights := c.flights ++ [a] }).ctxs := by
  unfold State.launchAccess; dsimp only; split
  · rfl
  · split <;> simp

end Sys2Proof.Machine
end

