-- ==== Sys2Proof/Laws/Memory.lean ====
section
/-! SUPPORT. Laws of memory: reading after writing, and the canonical form, which every operation keeps. -/

namespace Sys2Proof.Machine

/-! ### The canonical form -/

theorem rising_iff (l : List Nat) : rising l = true ↔ l.Pairwise (· < ·) := by
  induction l with
  | nil => simp [rising]
  | cons a t ih =>
    cases t with
    | nil => simp [rising]
    | cons b t =>
      simp only [rising, Bool.and_eq_true, decide_eq_true_eq, ih, List.pairwise_cons, List.mem_cons, forall_eq_or_imp]
      constructor
      · rintro ⟨h, h1, h2⟩
        exact ⟨⟨h, fun x hx => h.trans (h1 x hx)⟩, h1, h2⟩
      · rintro ⟨⟨h, -⟩, h2⟩
        exact ⟨h, h2⟩

theorem rising_filter (l : List Nat) (f : Nat → Bool) (h : rising l = true) : rising (l.filter f) = true := by
  rw [rising_iff] at *
  exact h.filter f

theorem rising_setInsert (l : List Nat) (k : Nat) (h : rising l = true) : rising (setInsert l k) = true := by
  rw [rising_iff] at *
  induction l with
  | nil => simp [setInsert]
  | cons j t ih =>
    rw [List.pairwise_cons] at h
    simp only [setInsert]
    split
    · next hk =>
      exact List.pairwise_cons.2 ⟨fun x hx => (List.mem_cons.1 hx).elim (fun e => e ▸ hk) fun hx => hk.trans (h.1 x hx),
        List.pairwise_cons.2 h⟩
    · split
      · exact List.pairwise_cons.2 h
      · refine List.pairwise_cons.2 ⟨fun x hx => ?_, ih h.2⟩
        rcases (mem_setInsert t k x).1 hx with e | hx
        · omega
        · exact h.1 x hx

theorem rising_setTo (l : List Nat) (k : Nat) (b : Bool) (h : rising l = true) : rising (setTo l k b) = true := by
  cases b
  · exact rising_filter l _ h
  · exact rising_setInsert l k h

/-- Cells rise and list no zero byte. -/
def CellsOk (m : List Host.Cell) : Prop := rising (m.map Prod.fst) = true ∧ ∀ p ∈ m, p.2 ≠ 0

theorem Memory.wf_iff (m : Memory) :
    m.wf = true ↔ CellsOk m.cells ∧ rising m.full = true ∧ rising m.poison = true := by
  simp [Memory.wf, CellsOk, and_assoc]

theorem Memory.wf_default : ({} : Memory).wf = true := by decide

theorem cellsOk_filter {m : List Host.Cell} (f : Host.Cell → Bool) (h : CellsOk m) : CellsOk (m.filter f) := by
  refine ⟨?_, fun p hp => h.2 p (List.mem_filter.1 hp).1⟩
  have h1 := (rising_iff _).1 h.1
  rw [rising_iff]
  rw [List.pairwise_map] at h1 ⊢
  exact h1.filter f

theorem mem_cellsPut {m : List Host.Cell} {a : Nat} {v : Byte} {p : Host.Cell} (h : p ∈ cellsPut m a v) : p = (a, v) ∨ p ∈ m := by
  induction m with
  | nil => simpa [cellsPut] using h
  | cons e t ih =>
    obtain ⟨j, w⟩ := e
    simp only [cellsPut] at h
    split at h
    · exact List.mem_cons.1 h
    · split at h
      · exact (List.mem_cons.1 h).imp_right (List.mem_cons_of_mem _)
      · rcases List.mem_cons.1 h with h | h
        · exact .inr (h ▸ List.mem_cons_self)
        · exact (ih h).imp_right (List.mem_cons_of_mem _)

theorem cellsOk_put {m : List Host.Cell} (a : Nat) {v : Byte} (hv : v ≠ 0) (h : CellsOk m) : CellsOk (cellsPut m a v) := by
  refine ⟨?_, fun p hp => (mem_cellsPut hp).elim (fun e => e ▸ hv) (h.2 p)⟩
  have h1 := (rising_iff _).1 h.1
  rw [rising_iff]
  rw [List.pairwise_map] at h1 ⊢
  clear h
  induction m with
  | nil => simp [cellsPut]
  | cons e t ih =>
    obtain ⟨j, w⟩ := e
    rw [List.pairwise_cons] at h1
    simp only [cellsPut]
    split
    · next hk =>
      exact List.pairwise_cons.2 ⟨fun x hx => (List.mem_cons.1 hx).elim (fun e => e ▸ hk) fun hx => hk.trans (h1.1 x hx),
        List.pairwise_cons.2 h1⟩
    · split
      · next hk => exact List.pairwise_cons.2 ⟨fun x hx => hk ▸ h1.1 x hx, h1.2⟩
      · refine List.pairwise_cons.2 ⟨fun x hx => ?_, ih h1.2⟩
        rcases mem_cellsPut hx with e | hx
        · subst e; dsimp only; omega
        · exact h1.1 x hx

theorem cellsOk_write {m : List Host.Cell} (a : Nat) (v : Byte) (h : CellsOk m) : CellsOk (cellsWrite m a v) := by
  unfold cellsWrite
  split
  · exact cellsOk_filter _ h
  · next hv => exact cellsOk_put a hv h

/-! ### Reading cells -/

theorem cellsRead_filter (m : List Host.Cell) (a b : Nat) :
    cellsRead (m.filter fun p => p.1 != a) b = if b = a then 0 else cellsRead m b := by
  induction m with
  | nil => simp [cellsRead]
  | cons e t ih =>
    obtain ⟨j, w⟩ := e
    by_cases h : j = a
    · subst h
      simp only [List.filter_cons, bne_self_eq_false, Bool.false_eq_true, ↓reduceIte, ih, cellsRead]
      split
      · rfl
      · next hb => rw [if_neg (Ne.symm hb)]
    · simp only [List.filter_cons, bne_iff_ne, ne_eq, h, not_false_eq_true, ↓reduceIte, cellsRead, ih]
      split
      · next hj => subst hj; simp [h]
      · rfl

theorem cellsRead_put (m : List Host.Cell) (a b : Nat) (v : Byte) :
    cellsRead (cellsPut m a v) b = if b = a then v else cellsRead m b := by
  induction m with
  | nil => simp only [cellsPut, cellsRead, eq_comm]
  | cons e t ih =>
    obtain ⟨j, w⟩ := e
    simp only [cellsPut]
    split
    · simp only [cellsRead, eq_comm (a := a)]
    · split
      · next h =>
        subst h
        simp only [cellsRead, eq_comm (a := a)]
        split <;> rfl
      · next h =>
        simp only [cellsRead, ih]
        split
        · next hb => subst hb; rw [if_neg (Ne.symm h)]
        · rfl

theorem cellsRead_write (m : List Host.Cell) (a b : Nat) (v : Byte) :
    cellsRead (cellsWrite m a v) b = if b = a then v else cellsRead m b := by
  unfold cellsWrite
  split
  · next h => rw [cellsRead_filter, h]
  · exact cellsRead_put m a b v

/-! ### Bytes -/

/-- Writing a byte changes the bytes, the lost packages stay. -/
theorem Memory.isLost_setByte (m : Memory) (a x : Nat) (v : Byte) : (m.setByte a v).isLost x = m.isLost x := by
  unfold Memory.setByte; split <;> rfl

@[simp] theorem Memory.isLost_write (m : Memory) (a n v x : Nat) : (m.write a n v).isLost x = m.isLost x := by
  induction n generalizing m a v with
  | zero => rfl
  | succ n ih => rw [Memory.write, ih, Memory.isLost_setByte]

/-- A byte reads as written, every other byte as before; a write to a package without a route is discarded (R446). -/
theorem Memory.byte_setByte (m : Memory) (a x : Nat) (v : Byte) :
    (m.setByte a v).byte x = if x = a ∧ m.isLost a = false then v else m.byte x := by
  have e := m.isLost_setByte a x v
  simp only [Memory.byte, e]
  unfold Memory.setByte
  by_cases hl : m.isLost a
  · simp [hl]
  · simp only [hl, Bool.false_eq_true, if_false, cellsRead_write, and_true]
    by_cases hx : x = a
    · subst hx; simp [hl]
    · simp [hx]

/-- Bytes outside a written range read as before. -/
theorem Memory.byte_write_other (m : Memory) (a n v x : Nat) (h : x < a ∨ a + n ≤ x) : (m.write a n v).byte x = m.byte x := by
  induction n generalizing m a v with
  | zero => rfl
  | succ n ih => rw [Memory.write, ih _ _ _ (by omega), Memory.byte_setByte, if_neg (by omega)]

theorem Memory.read_congr (m m' : Memory) (a n : Nat) (h : ∀ x, a ≤ x → x < a + n → m'.byte x = m.byte x) :
    m'.read a n = m.read a n := by
  induction n generalizing a with
  | zero => rfl
  | succ n ih => rw [Memory.read, Memory.read, h a (by omega) (by omega), ih (a + 1) fun x h1 h2 => h x (by omega) (by omega)]

/-- Read after write of the same bytes. -/
theorem Memory.read_write_same (m : Memory) (a n v : Nat) (h : ∀ i < n, m.isLost (a + i) = false) :
    (m.write a n v).read a n = v % 2 ^ (8 * n) := by
  induction n generalizing m a v with
  | zero => simp [Memory.read, Nat.mod_one]
  | succ n ih =>
    have h0 : m.isLost a = false := by simpa using h 0 (by omega)
    have e : ((m.setByte a (BitVec.ofNat 8 v)).write (a + 1) n (v / 256)).byte a = BitVec.ofNat 8 v := by
      rw [Memory.byte_write_other _ _ _ _ _ (by omega), Memory.byte_setByte, if_pos ⟨rfl, h0⟩]
    rw [Memory.write, Memory.read, e, ih _ _ _ fun i hi => by
      rw [Memory.isLost_setByte, show a + 1 + i = a + (i + 1) by omega]; exact h (i + 1) (by omega)]
    have h2 : (2 : Nat) ^ (8 * (n + 1)) = 256 * 2 ^ (8 * n) := by rw [show 8 * (n + 1) = 8 + 8 * n by ring, pow_add]; norm_num
    rw [h2, BitVec.toNat_ofNat, Nat.mod_mul, show (2 : Nat) ^ 8 = 256 by norm_num]

/-- Read outside a written range. -/
theorem Memory.read_write_other (m : Memory) (a n v b k : Nat) (h : b + k ≤ a ∨ a + n ≤ b) :
    (m.write a n v).read b k = m.read b k :=
  Memory.read_congr m _ b k fun x h1 h2 => Memory.byte_write_other m a n v x (by omega)

/-! ### What else an operation leaves alone -/

@[simp] theorem Memory.setByte_full (m : Memory) (a : Nat) (v : Byte) : (m.setByte a v).full = m.full := by
  unfold Memory.setByte; split <;> rfl
@[simp] theorem Memory.setByte_poison (m : Memory) (a : Nat) (v : Byte) : (m.setByte a v).poison = m.poison := by
  unfold Memory.setByte; split <;> rfl
@[simp] theorem Memory.setByte_tags (m : Memory) (a : Nat) (v : Byte) : (m.setByte a v).tags = m.tags := by
  unfold Memory.setByte; split <;> rfl
@[simp] theorem Memory.write_full (m : Memory) (a n v : Nat) : (m.write a n v).full = m.full := by
  induction n generalizing m a v with
  | zero => rfl
  | succ n ih => rw [Memory.write, ih, Memory.setByte_full]
@[simp] theorem Memory.write_poison (m : Memory) (a n v : Nat) : (m.write a n v).poison = m.poison := by
  induction n generalizing m a v with
  | zero => rfl
  | succ n ih => rw [Memory.write, ih, Memory.setByte_poison]
@[simp] theorem Memory.write_tags (m : Memory) (a n v : Nat) : (m.write a n v).tags = m.tags := by
  induction n generalizing m a v with
  | zero => rfl
  | succ n ih => rw [Memory.write, ih, Memory.setByte_tags]
@[simp] theorem Memory.write_poisoned (m : Memory) (a n v x : Nat) : (m.write a n v).poisoned x = m.poisoned x := by
  simp [Memory.poisoned]
@[simp] theorem Memory.write_isFull (m : Memory) (a n v x : Nat) : (m.write a n v).isFull x = m.isFull x := by
  simp [Memory.isFull]

@[simp] theorem Memory.isLost_setPoison (m : Memory) (a x : Nat) (b : Bool) : (m.setPoison a b).isLost x = m.isLost x := by
  unfold Memory.setPoison; split <;> rfl
@[simp] theorem Memory.isLost_setFull (m : Memory) (a x : Nat) (b : Bool) : (m.setFull a b).isLost x = m.isLost x := by
  unfold Memory.setFull; split <;> rfl
@[simp] theorem Memory.byte_setPoison (m : Memory) (a x : Nat) (b : Bool) : (m.setPoison a b).byte x = m.byte x := by
  unfold Memory.setPoison; split <;> rfl
@[simp] theorem Memory.byte_setFull (m : Memory) (a x : Nat) (b : Bool) : (m.setFull a b).byte x = m.byte x := by
  unfold Memory.setFull; split <;> rfl
@[simp] theorem Memory.setPoison_full (m : Memory) (a : Nat) (b : Bool) : (m.setPoison a b).full = m.full := by
  unfold Memory.setPoison; split <;> rfl
@[simp] theorem Memory.setFull_poison (m : Memory) (a : Nat) (b : Bool) : (m.setFull a b).poison = m.poison := by
  unfold Memory.setFull; split <;> rfl

/-- The poison bit of a word after it was set, of another word as before. -/
theorem Memory.poisoned_setPoison (m : Memory) (a x : Nat) (b : Bool) (h : m.isLost a = false) :
    (m.setPoison a b).poisoned x = if wordOf x = wordOf a then (m.isLost x || b) else m.poisoned x := by
  simp only [Memory.poisoned, Memory.isLost_setPoison]
  unfold Memory.setPoison
  simp only [h, Bool.false_eq_true, if_false, contains_setTo]
  split <;> rfl

/-- The FE bit of a word after it was set, of another word as before. -/
theorem Memory.isFull_setFull (m : Memory) (a x : Nat) (b : Bool) (h : m.isLost a = false) :
    (m.setFull a b).isFull x = if wordOf x = wordOf a then (!m.isLost x && b) else m.isFull x := by
  simp only [Memory.isFull, Memory.isLost_setFull]
  unfold Memory.setFull
  simp only [h, Bool.false_eq_true, if_false, contains_setTo]
  split <;> rfl

/-! ### Every operation keeps the canonical form -/

theorem Memory.wf_of_eq {m m' : Memory} (h : m.wf = true) (h1 : m'.cells = m.cells) (h2 : m'.full = m.full)
    (h3 : m'.poison = m.poison) : m'.wf = true := by
  rw [Memory.wf_iff] at *
  rwa [h1, h2, h3]

theorem Memory.wf_setByte {m : Memory} (a : Nat) (v : Byte) (h : m.wf = true) : (m.setByte a v).wf = true := by
  unfold Memory.setByte
  split
  · exact h
  · rw [Memory.wf_iff] at *
    exact ⟨cellsOk_write a v h.1, h.2⟩

theorem Memory.wf_write {m : Memory} (a n v : Nat) (h : m.wf = true) : (m.write a n v).wf = true := by
  induction n generalizing m a v with
  | zero => exact h
  | succ n ih => exact ih _ _ (wf_setByte a _ h)

theorem Memory.wf_setPoison {m : Memory} (a : Nat) (b : Bool) (h : m.wf = true) : (m.setPoison a b).wf = true := by
  unfold Memory.setPoison
  split
  · exact h
  · rw [Memory.wf_iff] at *
    exact ⟨h.1, h.2.1, rising_setTo _ _ b h.2.2⟩

theorem Memory.wf_setFull {m : Memory} (a : Nat) (b : Bool) (h : m.wf = true) : (m.setFull a b).wf = true := by
  unfold Memory.setFull
  split
  · exact h
  · rw [Memory.wf_iff] at *
    exact ⟨h.1, rising_setTo _ _ b h.2.1, h.2.2⟩

theorem Memory.wf_setTags {m : Memory} (a : Nat) (t : Option Tag) (n : Nat) (h : m.wf = true) : (m.setTags a t n).wf = true := by
  induction n generalizing m a with
  | zero => exact h
  | succ n ih => exact ih _ (wf_of_eq h rfl rfl rfl)

theorem Memory.wf_mapTags {m : Memory} (a n : Nat) (f : Tag → Tag) (h : m.wf = true) : (m.mapTags a n f).wf = true :=
  wf_of_eq h rfl rfl rfl

/-- A fold of steps that each keep the form keeps it. -/
theorem Memory.wf_foldl {β : Type} (l : List β) (f : Memory → β → Memory) (hf : ∀ m x, m.wf = true → (f m x).wf = true)
    {m : Memory} (h : m.wf = true) : (l.foldl f m).wf = true := by
  induction l generalizing m with
  | nil => exact h
  | cons x l ih => exact ih (hf m x h)

theorem Memory.wf_store {m : Memory} (a n v : Nat) (p : Bool) (h : m.wf = true) : (m.store a n v p).wf = true := by
  unfold Memory.store
  dsimp only
  split
  · exact wf_write a n v h
  · split <;> exact wf_setPoison _ _ (wf_write a n v h)

theorem Memory.wf_zeroLine {m : Memory} (a : Nat) (h : m.wf = true) : (m.zeroLine a).wf = true :=
  wf_foldl _ _ (fun _ _ h => wf_store _ _ _ _ h) h

theorem Memory.wf_loseLine {m : Memory} (line : Nat) (l : L1Line) (h : m.wf = true) : (m.loseLine line l).wf = true := by
  unfold Memory.loseLine
  split
  · exact h
  · refine wf_foldl _ _ (fun _ _ h => wf_setPoison _ _ h) ?_
    split
    · exact wf_write _ _ _ h
    · exact h

theorem Memory.wf_hostWords {m : Memory} (a : Nat) (ws : List Word) (h : m.wf = true) : (m.hostWords a ws).wf = true := by
  induction ws generalizing m a with
  | nil => exact h
  | cons w t ih => exact ih _ (wf_write _ _ _ h)

theorem Memory.wf_append {m : Memory} (x : Ring) (ws : List Word) (h : m.wf = true) : (x.append m ws).2.wf = true :=
  wf_hostWords _ _ (wf_hostWords _ _ h)

theorem Memory.wf_storeFrame {m : Memory} (c : Ctx) (w a : Nat) (h : m.wf = true) : (m.storeFrame c w a).wf = true := by
  unfold Memory.storeFrame
  exact wf_setTags _ _ _ (wf_setFull _ _ (wf_setPoison _ _ (wf_write _ _ _
    (wf_foldl _ _ (fun _ _ h => wf_setFull _ _ (wf_setPoison _ _ (wf_write _ _ _ h))) h))))

theorem Memory.wf_clearRange {m : Memory} (a n : Nat) (h : m.wf = true) : (m.clearRange a n).wf = true := by
  rw [Memory.wf_iff] at *
  exact ⟨cellsOk_filter _ h.1, rising_filter _ _ h.2.1, rising_filter _ _ h.2.2⟩

theorem Memory.wf_copyRange {m : Memory} (a d n : Nat) (h : m.wf = true) : (m.copyRange a d n).wf = true := by
  have hz := wf_clearRange d n h
  rw [Memory.wf_iff] at hz ⊢
  have cells : ∀ (l z : List Host.Cell), CellsOk z → CellsOk (l.foldl (fun t c => cellsWrite t (c.1 - a + d) c.2) z) := by
    intro l
    induction l with
    | nil => exact fun z hz => hz
    | cons x l ih => exact fun z hz => ih _ (cellsOk_write _ _ hz)
  have sets : ∀ (l z : List Nat), rising z = true →
      rising (l.foldl (fun t w => setInsert t (w - a / 8 + d / 8)) z) = true := by
    intro l
    induction l with
    | nil => exact fun z hz => hz
    | cons x l ih => exact fun z hz => ih _ (rising_setInsert _ _ hz)
  exact ⟨cells _ _ hz.1, sets _ _ hz.2.1, sets _ _ hz.2.2⟩

/-- Dropping cells and words keeps the form. -/
theorem Memory.wf_filter {m : Memory} (f : Host.Cell → Bool) (g k : Nat → Bool) (t : Table Tag) (l : List Nat) (h : m.wf = true) :
    (⟨m.cells.filter f, m.full.filter g, m.poison.filter k, t, l⟩ : Memory).wf = true := by
  rw [Memory.wf_iff] at *
  exact ⟨cellsOk_filter _ h.1, rising_filter _ _ h.2.1, rising_filter _ _ h.2.2⟩

/-- Reset memory has the form. -/
theorem reset_memory_canonical : State.reset.mem.wf = true := by decide

end Sys2Proof.Machine
end

