-- ==== Sys2Proof/Tests/Slice0.lean ====
section
/-! SUPPORT. Tests of the model: words of the manual, ill-formed terms, single steps with results of the manual, and states
that meet the hypotheses of the statements. -/

namespace Sys2Proof.Tests
open Sys2Proof.Machine

-- one theorem after another: the kernel evaluates most of them
set_option Elab.async false

/-! ### Words -/

/-- Each word decodes to its instruction. -/
noncomputable def decodes (l : List (Nat × Nat × Instr)) : Bool :=
  l.all fun x => decide (decodeTableWord x.1 x.2.1 = some x.2.2)

/-- The worked encodings of spec/02_encoding.md. -/
theorem test_words_02 : decodes [(32, 0x83242400, .add 18 8 9), (32, 0x89140064, .addi 17 8 100), (32, 0x89807FFF, .addi 24 0 0x7FFF),
      (32, 0x95012345, .lui 16 0x12345), (32, 0x97700200, .addpc 23 0x200), (32, 0xA1342044, .ld 19 8 2 4 4),
      (32, 0xC00FFFC0, .bra 0xFFFC0), (32, 0xC4300012, .bq 3 0x12), (32, 0xC8992FFC, .bcmp 9 18 2 0xFFC),
      (32, 0x9A2A8380, .lox 2 21), (32, 0x9A058FA0, .loxm 0 11 3), (16, 0x060A, .movH 16 10),
      (16, 0x261D, .addiH 16 0x1D), (16, 0x4540, .ifq 2 1), (16, 0x4C00, .haltH)] = true := by decide

/-- The worked encodings of spec/03_control.md. -/
theorem test_words_03 : decodes [(32, 0xC2000080, .call 0x80), (32, 0xC2100080, .bl 0x80), (32, 0xCF100FF8, .loopn 17 0xFF8),
      (32, 0xCC0B8000, .jr 23), (32, 0xCC000030, .ret), (32, 0xD1042400, .fuse 16 8 9), (32, 0xD0001820, .rgn 6),
      (32, 0xC9152FFF, .bcmp 17 10 2 0xFFF), (32, 0xD0000010, .split), (32, 0xD0000030, .join),
      (32, 0xD0000840, .brk 2), (32, 0xD0208051, .vote 2 1 1), (16, 0x2A20, .moviH 17 0), (16, 0x2621, .addiH 17 1),
      (16, 0x37FD, .bH 0x3FD), (16, 0x3888, .bqH 1 8), (16, 0x4800, .joinH)] = true := by decide

/-- The worked encodings of spec/04_integer.md. -/
theorem test_words_04 : decodes [(32, 0x83142410, .sub 17 8 9), (32, 0x83042543, .shadd 16 8 9 3), (32, 0x8534245F, .divz 19 8 9 15),
      (32, 0x87452C90, .bperm 20 10 11), (32, 0x8D080678, .ori 16 16 0x678), (32, 0x911452C8, .extzi 17 8 11 8),
      (32, 0x92997FFB, .cmpi 1 1 18 0x7FFB), (32, 0x98242440, .cmp 2 8 9 4), (32, 0x99542483, .sel 21 8 9 3),
      (32, 0x9A380040, .mwrfe 3 16), (32, 0x9B288200, .nwrE 18 17), (16, 0x0E28, .subH 17 8),
      (16, 0x1E04, .shliH 16 4)] = true := by decide

/-- The worked encodings of spec/05_memory.md. -/
theorem test_words_05 : decodes [(32, 0xA3153030, .st 17 10 3 3 0), (32, 0xA10ADFE0, .ld 16 21 5 0xFE 0),
      (32, 0xA52425B2, .ldIndexed 18 8 9 3 3 2), (32, 0xA5444720, .stIndexed 20 8 17 2 2 0),
      (32, 0xA8042020, .cflush 8 2 0), (32, 0xA8185000, .iinv 1 16 0 0), (32, 0xA728446F, .bmov 18 16 17 3 15),
      (32, 0xA6A42580, .bscanEq 10 8 9 0 0)] = true := by decide

/-- The worked encodings of spec/06_ordering.md. -/
theorem test_words_06 : decodes [(32, 0xAA000003, .fence 3), (32, 0xAA000081, .fenceAcq 1), (32, 0xAA000102, .fenceRel 2),
      (32, 0xAA084503, .fenceRelWiden 16 17 3), (32, 0xAA000180, .fenceXp), (32, 0xAB14863B, .lda 17 9 1 3 1 3),
      (32, 0xAB280262, .lda 18 16 0 6 0 2), (32, 0xAB0482B1, .strel 16 9 3 1)] = true := by decide

/-- The worked encodings of spec/07_streams.md. -/
theorem test_words_07 : decodes [(32, 0xED06462F, .sbindIn 1 0 17 4 2 15), (32, 0xEC16C830, .sbindOut 1 18 0 3 0), (32, 0xEC268000, .sunbind 1),
      (32, 0xEC464C00, .sstat 0 19), (32, 0xEF0A000F, .copy 1 20 0 0 15), (32, 0xEE1A001F, .copyg 0 20 0 1 15),
      (32, 0xEE204770, .copyf 0 17 6 7 0), (32, 0xEE388000, .cres 17 0)] = true := by decide

/-- The worked encodings of spec/08_float.md. -/
theorem test_words_08 : decodes [(32, 0xD9242410, .fadd 18 8 9 1 0), (32, 0xD908C8C7, .fma 16 17 18 0 7), (32, 0xD81426D1, .fcmp 1 8 9 1 1),
      (32, 0xDB34240F, .fdiv 19 8 9 0 15), (32, 0xDB450110, .fexp2 20 10 1 0), (32, 0xDD140301, .fcvt 17 8 6 0 1),
      (32, 0xE0063431, .vfma 0 12 13 0 1), (32, 0xE3500001, .vrsum 21 0 0 1), (32, 0xE424442F, .vld 2 8 17 0 2 15),
      (32, 0xE6308502, .vcvt 3 1 1 4 0 2), (32, 0xE8048002, .vseq 9 2)] = true := by decide

/-- The worked encodings of spec/09_matrix.md. -/
theorem test_words_09 : decodes [(32, 0xF0044400, .mxldb 0 8 17 0 0 0), (32, 0xF104CD2F, .mxldb 1 9 19 2 2 15),
      (32, 0xF015C800, .mxmma 11 18 0 0 0), (32, 0xF0284630, .mxrot 16 17 4 3 0), (32, 0xF0300000, .mxswap 0 0 0),
      (32, 0xF0655410, .mxstacc 10 21 0 1 0), (32, 0xB6000500, .waitlt 0 1), (32, 0xB6280110, .waitltr 2 16),
      (32, 0xF2084400, .mxquotaMv 16 17), (32, 0xF2080020, .mxteam 16), (32, 0xF2088030, .mxres 17 0)] = true := by decide

/-- The worked encodings of spec/10_atomics.md. -/
theorem test_words_10 : decodes [(32, 0xAD14001F, .ldfe 17 8 1 15), (32, 0xAD24A000, .stfe 18 9 0 0), (32, 0xAC084020, .feclr 16 2 0),
      (32, 0xAF34242F, .amoadd 19 8 9 1 0 15), (32, 0xAE084650, .amofadd 0 16 17 0 1 0),
      (32, 0xB12427B0, .cas 18 8 9 1 3 3 0), (32, 0xB2042410, .rupd 0 8 9 1 0),
      (32, 0xB2C8442F, .rupdAddzZ32 16 17 0 2 15), (32, 0xB31404AF, .vamo 1 8 1 2 1 0 15),
      (32, 0xB4140000, .monarm 1 8), (32, 0xB5004420, .monwait 16 17), (32, 0xB5258030, .hmsg 18 11),
      (32, 0xB7000810, .bararv 16 2), (32, 0xB6080820, .barwait 16 2), (32, 0xB6000C30, .barsync 3)] = true := by decide

/-- The worked encodings of spec/11_transactions.md. -/
theorem test_words_11 : decodes [(32, 0xF4000020, .tbegin 0x20), (32, 0xF4101000, .tend 1), (32, 0xF400202A, .tabort 0x2A),
      (32, 0xF5003000, .tstat 16), (32, 0xF5144003, .txld 17 8 3), (32, 0xF40ADFF8, .tirrev 21 0xFF8),
      (32, 0xF4006000, .txchk)] = true := by decide

/-- The worked encodings of spec/12_work.md. -/
theorem test_words_12 : decodes [(32, 0xF604440F, .launch 8 17 15), (32, 0xF610000F, .spawn 0 15), (32, 0xF6204200, .take 16 4 0),
      (32, 0xF6304200, .takeL 16 4 0), (32, 0xF644C800, .syncj 9 18 0 0), (32, 0xF6500000, .nest 0 0),
      (32, 0xF6604000, .iter 16 0), (32, 0xF6704400, .itnext 17 0), (32, 0xF680C800, .ixmov 1 18 0)] = true := by decide

/-- The worked encodings of spec/13_system.md. -/
theorem test_words_13 : decodes [(32, 0xF9000401, .mfs 16 0 1 0 1), (32, 0xF9168402, .mfs 17 13 1 0 2), (32, 0xF808C885, .mts 0 17 18 0 5),
      (32, 0xF8040100, .sys 8), (32, 0xF8090110, .trap 18), (32, 0xF8000120, .eret 0), (32, 0xF8080121, .eretN 16),
      (32, 0xF9002530, .evwait 16 9), (32, 0xF9284540, .cstart 18 16 17), (32, 0xF8080150, .cstop 16),
      (32, 0xF8084D60, .csave 16 19), (32, 0xF9484D70, .crest 20 16 19), (32, 0xF90B8180, .replay 16 23),
      (32, 0xF9180181, .replayDrop 17 16), (32, 0xF8042590, .tlbinv 8 9 0), (32, 0xF90425A0, .svcall 16 8 9)] = true := by decide

/-- The worked encodings of spec/14_basins.md. -/
theorem test_words_14 : decodes [(32, 0xFA084400, .binfo 16 17), (32, 0xFA14C400, .bhome 9 17), (32, 0xFA294400, .brack 18 17),
      (32, 0xFA384400, .cmig 16 17), (32, 0xFA484400, .cmigChk 16 17)] = true := by decide

/-- The worked encodings of spec/17_programs_irregular.md. -/
theorem test_words_17 : decodes [(32, 0xF5CD4003, .txld 28 26 3), (32, 0xF4101000, .tend 1), (32, 0xF6204000, .take 16 0 0),
      (32, 0xB2B9D000, .rupdAddzZ64 19 20 0 0 0), (32, 0xB5558030, .hmsg 21 11)] = true := by decide

/-- The bytes 24 83 00 24 of `add l2, a0, a1` (spec/02_encoding.md), and what follows them. -/
theorem test_bytes_add : decodeBytes [0x24, 0x83, 0x00, 0x24, 0x77] = .ok (.add 18 8 9, [0x77]) := by rfl

/-- Reserved fields are refused by name: BRK 0 and a nonzero d (R103), VOTE of type 3 (R111), RUPD.ADDZ from ox5 (R292). -/
theorem test_refused_fields :
    decode32 0xD0000040 = .error .reserved ∧ decode32 0xD1000840 = .error .reserved
      ∧ decode32 0xD0208053 = .error .reserved := ⟨by rfl, by rfl, by rfl⟩

/-! ### Ill-formed terms, one for each check -/

theorem test_wf_rounding : (Instr.fadd 1 2 3 0 6).wf = false ∧ (Instr.fadd 1 2 3 0 5).wf = true := by decide
theorem test_wf_frint : (Instr.frint 1 2 4 0).wf = false := by decide
theorem test_wf_block : (Instr.bmov 0 1 2 0 0).wf = false ∧ (Instr.bmov 1 1 2 0 0).wf = false ∧ (Instr.bfill 3 3 1 0 0).wf = false
    ∧ (Instr.bscanEq 3 0 1 0 0).wf = false := by decide
theorem test_wf_loxm : (Instr.loxm 4 1 4).wf = false ∧ (Instr.loxm 4 1 3).wf = true := by decide
theorem test_wf_load_type : (Instr.ld 1 2 7 0 0).wf = false ∧ (Instr.ldIndexed 1 2 3 0 7 0).wf = false
    ∧ (Instr.txld 1 2 7).wf = false ∧ (Instr.lda 1 2 0 7 0 0).wf = false := by decide
theorem test_wf_iinv : (Instr.iinv 3 1 0 0).wf = false := by decide
theorem test_wf_scope : (Instr.fence 6).wf = false ∧ (Instr.fenceRelWiden 0 1 3).wf = false ∧ (Instr.strel 1 2 3 7).wf = false
    ∧ (Instr.lda 1 2 1 3 0 3).wf = false := by decide
theorem test_wf_cas : (Instr.cas 1 2 3 1 0 1 0).wf = false ∧ (Instr.cas 1 2 3 1 1 6 0).wf = false := by decide
theorem test_wf_rupd : (Instr.rupd 11 1 2 0 0).wf = false ∧ (Instr.rupdAddzZ64 1 2 4 0 0).wf = false
    ∧ (Instr.vamo 11 1 2 3 0 0 0).wf = false := by decide
theorem test_wf_waitlt : (Instr.waitlt 3 0).wf = false ∧ (Instr.waitlt 3 1).wf = true := by decide
theorem test_wf_tlbinv : (Instr.tlbinv 8 0 1).wf = false ∧ (Instr.tlbinv 8 9 0).wf = true ∧ (Instr.tlbinv 8 0 2).wf = false
    ∧ (Instr.tlbinv 0 8 3).wf = false := by decide
theorem test_wf_brk : (Instr.brk 0).wf = false ∧ (Instr.brk 8).wf = false ∧ (Instr.brk 7).wf = true := by decide
theorem test_wf_vote : (Instr.vote 1 2 3).wf = false := by decide
theorem test_wf_fmxsc : (Instr.fmxsc 1 2 3).wf = false ∧ (Instr.fmxsc 1 2 10).wf = false := by decide
theorem test_wf_fcvt : (Instr.fcvt 1 2 4 5 0).wf = false ∧ (Instr.fcvt 1 2 1 1 0).wf = false := by decide
theorem test_wf_vector_type : (Instr.vand 1 2 3 0 3).wf = false ∧ (Instr.vexp2 1 2 0 4).wf = false
    ∧ (Instr.vramax 1 2 0 4).wf = false := by decide
theorem test_wf_vcvt : (Instr.vcvt 1 2 14 0 0 0).wf = false ∧ (Instr.vcvt 1 2 0 8 0 0).wf = false
    ∧ (Instr.vcvt 1 2 1 4 0 4).wf = false ∧ (Instr.vcvt 1 2 1 4 0 3).wf = true := by decide
theorem test_wf_ox : (Instr.sbindIn 0 0 1 5 0 0).wf = false ∧ (Instr.copy 0 1 5 0 0).wf = false ∧ (Instr.copyf 1 2 7 0 0).wf = false
    ∧ (Instr.mxldb 0 1 2 7 0 0).wf = false ∧ (Instr.spawn 5 0).wf = false ∧ (Instr.nest 6 0).wf = false := by decide
theorem test_wf_system_register : (Instr.mfs 1 0 31 7 15).wf = false ∧ (Instr.mfs 1 2 0 0 2).wf = true
    ∧ (Instr.mfs 1 2 0x10 0 0).wf = false := by decide

/-! ### States for tests -/

/-- A running thread of rill 0 at address 0x40. -/
def thread (c : Ctx) : State :=
  { ctxs := [(0, { c with run := .running })], upc := 0x40, ipc := 0x40, cycle := 100, xlanes := 1 }

/-- Context 15 of rill 0. -/
def supervisor (c : Ctx) : State :=
  { ctxs := [(15, { c with run := .running })], cur := ⟨0, 0, 15⟩, upc := 0x40, ipc := 0x40, cycle := 112, xlanes := 1 }

/-- Registers 8 to 31 of the first window, in rising order. -/
def regs (l : List (Nat × Word)) : Ctx := { win := l.map fun e => (32744 + e.1, { val := e.2 }) }

/-- A local-store address of the own rill. -/
def ls : Word := 0x0080000000000000

/-- The value and the poison bit of a register after a step that gives a next state. -/
def after {α : Type} (f : State → α) : Host.Outcome State Fault Refusal → Option α
  | .next t => some (f t)
  | _ => none

def value (r : BitVec 5) (x : Host.Outcome State Fault Refusal) : Option Word := after (fun t => (t.me.reg r).val) x

/-! ### States that meet the hypotheses of the statements -/

theorem test_meets_TwoSourceResults : (thread {}).ready 8 ∧ (thread {}).ready 0 ∧ (thread {}).ready 31 := ⟨rfl, rfl, rfl⟩
theorem test_meets_OneSourceResults : (thread {}).ready 8 ∧ (thread {}).ready 31 ∧ (thread {}).ready 0 := ⟨rfl, rfl, rfl⟩
theorem test_meets_PredicateResults : (thread {}).ready 8 ∧ (thread {}).ready 9 ∧ (thread {}).readyQ 0 ∧ (thread {}).readyQ 7
    ∧ (thread {}).readyQ 1 := ⟨rfl, rfl, rfl, rfl, rfl⟩

theorem test_meets_BranchResults : (thread {}).clean 8 ∧ (thread {}).clean 9 ∧ (thread {}).cleanQ 0
    ∧ (∃ x ∈ branches (thread {}) 0 0 8 9 0 4 4 4 4, x.2.1 = true ∧ goodTarget x.2.2)
    ∧ (∃ x ∈ branches (thread {}) 1 0 8 9 0 4 4 4 4, x.2.1 = false) :=
  ⟨⟨rfl, rfl⟩, ⟨rfl, rfl⟩, ⟨rfl, rfl⟩, ⟨_, List.mem_cons_self, rfl, rfl, rfl, rfl⟩,
    ⟨_, List.mem_cons_of_mem _ (List.mem_cons_of_mem _ List.mem_cons_self), rfl⟩⟩

theorem test_meets_LoopResults : let one := thread (regs [(8, 1), (9, 1)]); let two := thread (regs [(8, 2), (9, 1)])
    one.clean 8 ∧ one.clean 9 ∧ one.val 8 - 1 = 0 ∧ two.clean 8 ∧ two.val 8 - 1 ≠ 0 ∧ goodTarget (two.ipc + 2 * (4 : BitVec 12).signExtend 64)
      ∧ (one.val 8 - one.val 9).toInt ≤ 0 ∧ 0 < (two.val 8 - two.val 9).toInt :=
  ⟨⟨rfl, rfl⟩, ⟨rfl, rfl⟩, rfl, ⟨rfl, rfl⟩, by decide, ⟨rfl, rfl, rfl⟩, by decide, by decide⟩

theorem test_meets_JumpResults : let s := thread (regs [(8, 0x80), (23, 0x80)])
    let t := thread { (regs [(9, 0x81), (10, 0x0100000000000000), (11, ls)]) with depth := 2049, resident := 2 }
    goodTarget (s.ipc + 2 * (4 : BitVec 20).signExtend 64) ∧ s.me.resident < 4 ∧ s.clean 8 ∧ goodTarget (s.val 8) ∧ s.clean 23
      ∧ goodTarget (s.val 23) ∧ 1 < t.me.resident ∧ t.plain
      ∧ (let u := thread (regs [(9, 0x81), (10, 0x0100000000000000), (11, ls)])
         u.clean 9 ∧ bit (u.val 9) 0 = true ∧ u.clean 10 ∧ bit (u.val 10) 0 = false ∧ field (u.val 10) 63 56 ≠ 0 ∧ u.clean 11
           ∧ field (u.val 11) 63 56 = 0 ∧ bit (u.val 11) 55 = true) :=
  ⟨⟨rfl, rfl, rfl⟩, by decide, ⟨rfl, rfl⟩, ⟨rfl, rfl, rfl⟩, ⟨rfl, rfl⟩, ⟨rfl, rfl, rfl⟩, by decide, rfl, ⟨rfl, rfl⟩, rfl, ⟨rfl, rfl⟩, rfl,
    by decide, ⟨rfl, rfl⟩, rfl, rfl⟩

/-- A multiply, a divide and a long floating-point instruction whose results are due. -/
def mulOp : LongOp := { id := 5, seq := 0, unit := 0, dst := .g 1, val := 42, poison := false, due := 99 }
def divOp : LongOp := { id := 6, seq := 1, unit := 1, dst := .g 2, val := 43, poison := false, due := 100 }
def fpOp : LongOp := { id := 7, seq := 2, unit := 2, dst := .none, val := 44, poison := false, due := 100 }
def dueThread : State := thread { g := [(1, { full := false, src := 5 }), (2, { full := false, src := 6 })], longs := [mulOp, divOp, fpOp] }

theorem test_meets_LongResults : (thread {}).ready 8 ∧ (thread {}).ready 9
    ∧ (∀ l ∈ [mulOp, fpOp], l.due ≤ dueThread.cycle
        ∧ (dueThread.ctx ⟨0, 0, 0⟩).longs.find? (fun m => m.id == l.id && m.unit == l.unit && decide (m.due ≤ dueThread.cycle)) = some l)
    ∧ divOp.due ≤ dueThread.cycle ∧ dueThread.oldestDivide 0 0 = some (⟨0, 0, 0⟩, divOp) :=
  ⟨rfl, rfl, by decide, by decide, rfl⟩

theorem test_meets_SharedRegisterResults :
    let s : State := { (thread {}) with rills := [(0, { m := [(1, { full := true })], mEffects := [{ due := 100, m := 2, val := some (7, false), full := none }] })] }
    s.plain ∧ s.ready 8 ∧ s.myRill.isReserved s.cycle 1 = false ∧ (s.myRill.shared s.cycle 1).full = true
      ∧ (s.myRill.shared s.cycle 2).full = false ∧ ∃ e rest, (s.rill 0 0).mEffects = e :: rest ∧ e.due ≤ s.cycle :=
  ⟨rfl, rfl, rfl, rfl, rfl, _, _, rfl, by decide⟩

theorem test_meets_FeBitResults : (5 : BitVec 5) ≠ 0 ∧ (thread {}).outstanding (thread {}).cur ((thread {}).me.dest 5) = false ∧ (thread {}).ready 8
    ∧ ((thread {}).me.oxReg 3).full = true := ⟨by decide, rfl, rfl, rfl⟩

/-- Two rills of a braid, of which the western has offered a value to the eastern. -/
def neighbours : State :=
  { (thread { held := some .neighbour, heldUnit := some (.nwrE 1 8), heldLen := 2, pc := 0x40 }) with
    cycle := 112, ctxs := [(0, { run := .running, held := some .neighbour, heldUnit := some (.nwrE 1 8), heldLen := 2, pc := 0x40 }),
      (16, { run := .running, g := [(1, { full := false, src := 9 })] })]
    rills := [(1, { landings := [{ id := 9, due := 100, k := 0, dst := .g 1, val := 6, poison := false }] })] }

theorem test_meets_NeighbourWrites :
    (∃ s : State, s.plain ∧ s.ready 8 ∧ (1 : BitVec 5) ≠ 0 ∧ s.offered.contains s.cur.key = false
      ∧ s.nwrAccepts { s.cur with r := (s.cur.r + 1) % 8 } 1 = true ∧ s.nwrAccepts { s.cur with r := (s.cur.r + 7) % 8 } 1 = true)
    ∧ (∃ l, ((neighbours.rill 0 1).landings.find? fun l => l.k == 0 && decide (l.due ≤ neighbours.cycle)) = some l ∧ l.dst = .g 1
      ∧ (neighbours.ctx ⟨0, 1, 0⟩).cellAt (.g 1) = { (neighbours.ctx ⟨0, 1, 0⟩).cellAt (.g 1) with full := false, src := l.id })
    ∧ (let c := neighbours.ctx ⟨0, 0, 0⟩
       c.run = .running ∧ neighbours.cycle % 16 = 0 ∧ c.triedAt ≤ neighbours.cycle ∧ neighbours.groupOf ⟨0, 0, 0⟩ = none
         ∧ c.held = some .neighbour ∧ c.heldUnit = some (.nwrE 1 8)) := by
  refine ⟨⟨{ (thread {}) with ctxs := [(0, { run := .running }), (16, { run := .running, g := [(1, { full := false })] }),
    (112, { run := .running, g := [(1, { full := false })] })] }, rfl, rfl, by decide, rfl, rfl, rfl⟩, ⟨_, rfl, rfl, rfl⟩,
    rfl, rfl, by decide, rfl, rfl, rfl⟩

/-- Two lanes of a group, of which lane 0 runs a unit for both. -/
def grouped (st : List StackEntry) : State :=
  { (thread {}) with
    ctxs := [(0, { run := .running }), (16, { run := .running })], xlanes := 3
    braids := [(0, { groups := [{ k := 0, mask := 3, active := 3, pc := 0x40, stack := st }] })] }

theorem test_meets_GroupResults : (thread {}).plain ∧ (thread {}).unfused = true
    ∧ (∀ i < 8, bit ((thread {}).sr (0x090 + i)) 0 = false)
    ∧ (let s := grouped [.region 0x80 3 0]
       s.plain ∧ s.unfused = false ∧ s.leads = true ∧ ∃ g, s.groupOf s.cur = some g ∧ g.stack.length < 8
         ∧ (g.stack.filter isRegion).length ≤ (1 : BitVec 5).toNat)
    ∧ (let s := grouped [.region 0x80 3 0, .region 0x90 3 0]
       ∃ g, s.groupOf s.cur = some g ∧ (1 : BitVec 5).toNat < (g.stack.filter isRegion).length) :=
  ⟨rfl, rfl, by decide, ⟨rfl, rfl, rfl, _, rfl, by decide, by decide⟩, _, rfl, by decide⟩

theorem test_meets_LaneExchange : (thread {}).unfused = true ∧ (thread {}).cur.r < 8 ∧ (thread {}).readyQ 1 ∧ (2 : BitVec 2) ≠ 3
    ∧ (thread {}).ready 8 ∧ (thread {}).ready 9 := ⟨rfl, by decide, rfl, by decide, rfl, rfl⟩

/-- Two threads that wait for one another in a group, the first of them past its time. -/
def fusing : State :=
  { (thread {}) with
    ctxs := [(0, { run := .running, wait := some (.fuse 3 7 50 100 (.g 1) false 0 0x44) }),
      (16, { run := .running, wait := some (.fuse 3 7 0 0 (.g 1) false 0 0x44) })]
    braids := [(0, { busy := true })] }

theorem test_meets_FuseResults :
    (let s := thread (regs [(8, 0x50003), (9, 0)])
     s.plain ∧ s.clean 8 ∧ s.clean 9 ∧ s.groupOf s.cur = none ∧ hasBit (field (s.val 8) 7 0) s.cur.r = true
       ∧ 2 ≤ countOnes 8 (field (s.val 8) 7 0) ∧ s.cur.k ≠ 15)
    ∧ (let s := thread (regs [(8, 0x50006)]); s.groupOf s.cur = none ∧ hasBit (field (s.val 8) 7 0) s.cur.r = false)
    ∧ ((grouped []).groupOf (grouped []).cur).isSome = true
    ∧ fusing.fuseReady 0 0 3 = true ∧ 2 ≤ countOnes 8 3
    ∧ (fusing.ctx ⟨0, 0, 0⟩).wait = some (.fuse 3 7 50 100 (.g 1) false 0 0x44) ∧ (100 : Nat) ≤ fusing.cycle
    ∧ (fusing.braid 0).busy = true ∧ (fusing.braid 0).modeQueue = [] :=
  ⟨⟨rfl, ⟨rfl, rfl⟩, ⟨rfl, rfl⟩, rfl, rfl, by decide, by decide⟩, ⟨rfl, rfl⟩, rfl, rfl, by decide, rfl, by decide, rfl, rfl⟩

theorem test_meets_SlotsAndWindows :
    (let s : State := { (thread { depth := 2050, resident := 2 }) with cycle := 112, rills := [(0, { winOp := some { k := 0, spill := true, slots := 9 } }), (1, { winOp := some { k := 0, spill := false, slots := 9 } })] }
     s.offered.contains (⟨0, 0, 0⟩ : Pos).key = false ∧ (∃ op, (s.rill 0 0).winOp = some op ∧ 9 ≤ op.slots ∧ op.spill = true)
       ∧ (∃ op, (s.rill 0 1).winOp = some op ∧ 9 ≤ op.slots ∧ op.spill = false))
    ∧ (let s : State := { (thread {}) with cycle := 112 }
       (s.endWait ⟨0, 0, s.cycle % 16⟩).canIssue ⟨0, 0, s.cycle % 16⟩ = true ∧ s.groupOf ⟨0, 0, s.cycle % 16⟩ = none)
    ∧ 1 ≤ (thread {}).me.depth ∧ 2 ≤ (thread {}).me.depth :=
  ⟨⟨rfl, ⟨_, rfl, by decide, rfl⟩, _, rfl, by decide, rfl⟩, ⟨rfl, rfl⟩, by decide, by decide⟩

/-- A thread with local-store addresses in a0 and a2 and small numbers in the others. -/
def mem0 : State := thread (regs [(8, ls), (9, 0), (10, ls + 64), (11, 3)])

theorem test_meets_LoadStoreIssue :
    mem0.plain ∧ mem0.ready 18 ∧ mem0.clean 8 ∧ mem0.clean 9 ∧ 0 < mem0.myRill.replayRoom
    ∧ (∃ x ∈ plainAccesses mem0 18 8 9 3 3 3 1 15, addressFault x.acc.va x.acc.size false true = none ∧ ∃ s1 a1, mem0.passes x.acc s1 a1)
    ∧ (∃ x ∈ (plainAccesses mem0 18 8 9 6 3 3 1 15).drop 3, addressFault x.acc.va x.acc.size false true = none
        ∧ ∃ s1 a1, mem0.passes x.acc s1 a1)
    ∧ (∀ i ≤ (7 : BitVec 3).toNat, addressFault (mem0.val 8 + w64 (8 * i)) 8 false true = none ∧ bit (mem0.val 8 + w64 (8 * i)) 55 = true) :=
  ⟨rfl, rfl, ⟨rfl, rfl⟩, ⟨rfl, rfl⟩, by decide, ⟨_, List.mem_cons_self, rfl, _, _, rfl⟩, ⟨_, List.mem_cons_self, rfl, _, _, rfl⟩, by decide⟩

/-- The thread of `mem0` with a base that fails a check, or is poisoned. -/
def badBase (v : Word) (p : Bool) : State := thread { win := [(32752, { val := v, poison := p })] }

theorem test_meets_AddressTraps :
    mem0.plain ∧ mem0.ready 18 ∧ mem0.ready 8 ∧ mem0.ready 9 ∧ mem0.bad 9 = false
    ∧ (∃ x ∈ plainAccesses (badBase 0 true) 18 8 9 3 3 0 0 0, (badBase 0 true).bad 8 = true ∧ x.acc.va = 0)
    ∧ (∃ x ∈ plainAccesses (badBase (0x0100000000000000) false) 18 8 9 3 3 0 0 0, (badBase (0x0100000000000000) false).bad 8 = false ∧ field x.acc.va 63 56 ≠ 0)
    ∧ (∃ x ∈ plainAccesses (badBase 1 false) 18 8 9 3 3 0 0 0, field x.acc.va 63 56 = 0 ∧ x.acc.va.toNat % x.acc.size ≠ 0)
    ∧ (∃ x ∈ plainAccesses (badBase (ls + 0x30000) false) 18 8 9 3 3 0 0 0, field x.acc.va 63 56 = 0
        ∧ x.acc.va.toNat % x.acc.size = 0 ∧ bit x.acc.va 55 = true ∧ 0x30000 < field x.acc.va 17 0 + x.acc.size)
    ∧ (let s := badBase 0x1000 false
       s.cur.k < 15 ∧ 0 < s.myRill.replayRoom ∧ ∃ x ∈ plainAccesses s 18 8 9 3 3 0 0 0, addressFault x.acc.va x.acc.size false true = none
         ∧ ∃ s1 a1 page, ({ s with nextId := s.nextId + 1 } : State).resolve s.cur (s.numbered x.acc) = (s1, .log a1 0x0B 0 false page)) :=
  ⟨rfl, rfl, rfl, rfl, rfl, ⟨_, List.mem_cons_self, rfl, rfl⟩, ⟨_, List.mem_cons_self, rfl, by decide⟩,
    ⟨_, List.mem_cons_self, rfl, by decide⟩, ⟨_, List.mem_cons_self, rfl, rfl, rfl, by decide⟩,
    by decide, by decide, _, List.mem_cons_self, rfl, _, _, _, rfl⟩

/-- A translation of page 1 that lets a user read, write and fetch, held by the rill. -/
def page1 : TlbEntry := { basin := 0, asid := 0, va := 0x1000, size := 4096, pa := 0x1000, leaf := 0x103F }
/-- Channel granule 0 of basin 0, and the translation. -/
def paged (c : Ctx) : State :=
  { (thread c) with rills := [(0, { tlb := [page1] })], gchans := [(0, { state := .owned, basin := 0 })] }
def mem1 : State := paged (regs [(8, 0x1000), (9, 2), (10, 0x1040)])

theorem test_meets_ShortAndCacheIssue :
    mem0.plain ∧ mem0.ready 18 ∧ mem0.clean 8 ∧ 0 < mem0.myRill.replayRoom
    ∧ (let ea := w64 (0x0080000000000000 + mem0.cur.r * 0x200000 + field (mem0.sr 0x098) 17 3 * 8 + 8 * (31 : BitVec 5).toNat)
       addressFault ea 8 false true = none
         ∧ (∃ s1 a1, mem0.passes { id := 0, seq := 0, kind := .load false, va := ea, size := 8, dst := mem0.me.dest 18 } s1 a1)
         ∧ ∃ s1 a1, mem0.passes { id := 0, seq := 0, kind := .store, va := ea, size := 8, data := mem0.val 18, poison := mem0.bad 18
                                  tag := mem0.me.relTag } s1 a1)
    ∧ (addressFault (mem0.val 8) 1 false false = none ∧ bit (mem0.val 8) 55 = true)
    ∧ (mem1.clean 8 ∧ addressFault (mem1.val 8) 1 false false = none ∧ bit (mem1.val 8) 55 = false
        ∧ (∃ s1 a1, mem1.passes { id := 0, seq := 0, kind := .cflush, va := setField (mem1.val 8) 5 0 0, size := 64 } s1 a1)
        ∧ ∃ s1 pa leaf, mem1.translate mem1.cur (setField (mem1.val 8) 5 0 0) { r := true } = (s1, .ok pa leaf) ∧ bit leaf 8 = false
            ∧ s1.ownedLine (lineOf pa) none = false)
    ∧ bit (setField (mem0.val 8 + (0 : BitVec 8).signExtend 64 * w64 64) 5 0 0) 55 = true :=
  ⟨rfl, rfl, ⟨rfl, rfl⟩, by decide, ⟨rfl, ⟨_, _, rfl⟩, _, _, rfl⟩, ⟨rfl, rfl⟩, ⟨⟨rfl, rfl⟩, rfl, rfl, ⟨_, _, rfl⟩, _, _, _, rfl, rfl, rfl⟩, rfl⟩

/-- A load and a store of a thread on their way, in local store. -/
def loadAcc : Access := { id := 3, src := 3, seq := 0, kind := .load false, va := ls, pa := lsAddr 0 0 0, size := 8, dst := .g 1 }
def storeAcc : Access := { id := 4, src := 4, seq := 1, kind := .store, va := ls + 8, pa := lsAddr 0 0 8, size := 8, data := 77 }
def underWay : State := thread { g := [(1, { full := false, src := 3 })], flights := [loadAcc, storeAcc] }

theorem test_meets_AccessesPerform :
    underWay.flight ⟨0, 0, 0⟩ 3 = some loadAcc ∧ loadAcc.kind = .load false ∧ underWay.mayPerform ⟨0, 0, 0⟩ loadAcc = true
    ∧ (underWay.ctx ⟨0, 0, 0⟩).cellAt (.g 1) = { (underWay.ctx ⟨0, 0, 0⟩).cellAt (.g 1) with full := false, src := loadAcc.src }
    ∧ underWay.flight ⟨0, 0, 0⟩ 4 = some storeAcc ∧ storeAcc.kind = .store ∧ underWay.mayPerform ⟨0, 0, 0⟩ storeAcc = true
    ∧ (underWay.fanouts.any fun f => f.acc.id == 4) = false ∧ underWay.sharersFor ⟨0, 0, 0⟩ storeAcc = []
    ∧ (∀ q ∈ underWay.requests, wordOf q.2.pa ≠ wordOf storeAcc.pa) ∧ (∀ i < storeAcc.size, underWay.mem.isLost (storeAcc.pa + i) = false)
    ∧ isHost storeAcc.pa = false ∧ 8 ≤ storeAcc.size :=
  ⟨rfl, rfl, rfl, rfl, rfl, rfl, rfl, rfl, rfl, by decide, by decide, rfl, by decide⟩

theorem test_meets_RmwIssue :
    mem0.plain ∧ mem0.ready 18 ∧ mem0.clean 8 ∧ mem0.ready 9 ∧ 0 < mem0.myRill.replayRoom ∧ mem0.cur.k < 15
    ∧ addressFault (mem0.val 8) (4 * (1 + (1 : BitVec 1).toNat)) false true = none
    ∧ (∃ s1 a1, mem0.passes { id := 0, seq := 0, kind := .amo 0, va := mem0.val 8, size := 8, dst := mem0.me.dest 18
                              data := w64 ((mem0.val 9).toNat % 2 ^ (8 * 8)), poison := mem0.bad 9, ordered := true, tag := some 3 } s1 a1)
    ∧ (∃ s1 a1, mem0.passes { id := 0, seq := 0, kind := .cas 3 5, va := mem0.val 8, size := 8, dst := mem0.me.dest 18
                              data := w64 ((mem0.val 9).toNat % 2 ^ (8 * 8)), poison := mem0.bad 9
                              aux := w64 ((mem0.val 18).toNat % 2 ^ (8 * 8)), auxPoison := mem0.bad 18, ordered := true, tag := some 5 } s1 a1)
    ∧ (let ea := mem0.val 8 + (1 : BitVec 8).signExtend 64 * w64 8
       addressFault ea 8 false true = none ∧ bit ea 55 = true
         ∧ ∃ s1 a1, mem0.passes { id := 0, seq := 0, kind := .ldfe, va := ea, size := 8, dst := mem0.me.dest 18
                                  ext := [mem0.upc, w64 mem0.ulen] } s1 a1)
    ∧ (∃ s2 pa leaf, mem1.translate mem1.cur 0x1008 AccKind.ldfe.need = (s2, .ok pa leaf) ∧ isHost pa = false) :=
  ⟨rfl, rfl, ⟨rfl, rfl⟩, rfl, by decide, by decide, rfl, ⟨_, _, rfl⟩, ⟨_, _, rfl⟩, ⟨rfl, rfl, _, _, rfl⟩, _, _, _, rfl, rfl⟩

/-- A thread in a transaction of depth 1 with empty logs. -/
def emptyTx : Tx :=
  { pc := 0x10, label := 0x80, ckpt := { g := [], win := [], depth := 2048, q := [], v := [], ox := [], ix := [], sr := [] } }
def inTx0 : State := thread { (regs [(8, ls)]) with tx := some emptyTx, sr := [(0x050, 1)] }

theorem test_meets_FenceResults :
    inTx0.inTx = true ∧ mem0.plain ∧ mem0.quietBefore = true ∧ mem0.doneBefore mem0.cur mem0.me.seq AccKind.reads = true
    ∧ mem0.doneBefore mem0.cur mem0.me.seq AccKind.writes = true ∧ mem0.ready 18 ∧ mem0.clean 8 ∧ mem0.clean 9
    ∧ addressFault (mem0.val 8) (2 ^ ((7 : BitVec 3).toNat % 4)) false true = none
    ∧ (∃ s1 a1, mem0.passes { id := 0, seq := 0, kind := .lda true 5 (some 1), va := mem0.val 8, size := 8, dst := mem0.me.dest 18 } s1 a1)
    ∧ (∃ s1 a1, mem0.passes { id := 0, seq := 0, kind := .strel 0, va := mem0.val 8, size := 1, data := mem0.val 18
                              poison := mem0.bad 18, tag := some 0 } s1 a1)
    ∧ (let s := supervisor (regs [(8, ls), (9, 3)])
       s.plain ∧ s.clean 8 ∧ s.clean 9 ∧ s.cur.k = 15 ∧ addressFault (s.val 8) 8 false true = none ∧ bit (s.val 8) 55 = true)
    ∧ mem0.cur.k < 15 :=
  ⟨rfl, rfl, rfl, rfl, rfl, rfl, ⟨rfl, rfl⟩, ⟨rfl, rfl⟩, rfl, ⟨_, _, rfl⟩, ⟨_, _, rfl⟩, ⟨rfl, ⟨rfl, rfl⟩, ⟨rfl, rfl⟩, rfl, rfl, rfl⟩, by decide⟩

/-- RMWs that are next at their owner: an AMO, an LDFE of an empty and of a full word, an STFE. -/
def amoAcc : Access := { id := 3, src := 3, seq := 0, kind := .amo 0, va := ls, pa := lsAddr 0 0 0, size := 8, dst := .g 1, data := 1, stage := 2 }
def feAcc (k : AccKind) : Access := { id := 3, src := 3, seq := 0, kind := k, va := ls, pa := lsAddr 0 0 0, size := 8, dst := .g 1, data := 1, stage := 2 }
def atOwner (a : Access) (full : List Nat) : State :=
  { (thread { g := [(1, { full := false, src := 3 })], flights := [a] }) with requests := [(⟨0, 0, 0⟩, a)], mem := { full := full } }

theorem test_meets_OwnerPerforms :
    (let s := atOwner amoAcc []
     s.requests.find? (fun q => q.2.id == 3 && q.2.stage == 2) = some (⟨0, 0, 0⟩, amoAcc) ∧ amoAcc.kind = .amo 0 ∧ amoAcc.merged = []
       ∧ s.mayPerform ⟨0, 0, 0⟩ amoAcc = true ∧ s.sharersFor ⟨0, 0, 0⟩ amoAcc = []
       ∧ (∀ q ∈ s.requests, q.2.id ≠ 3 → wordOf q.2.pa ≠ wordOf amoAcc.pa) ∧ (∀ i < amoAcc.size, s.mem.isLost (amoAcc.pa + i) = false)
       ∧ (s.ctx ⟨0, 0, 0⟩).cellAt (.g 1) = { (s.ctx ⟨0, 0, 0⟩).cellAt (.g 1) with full := false, src := amoAcc.src })
    ∧ (∀ k ∈ [AccKind.ldfe, .stfe], (atOwner (feAcc k) []).requests.find? (fun q => q.2.id == 3 && q.2.stage == 2)
          = some (⟨0, 0, 0⟩, feAcc k) ∧ (atOwner (feAcc k) []).mayPerform ⟨0, 0, 0⟩ (feAcc k) = true
        ∧ (feAcc k).kind.fe = true ∧ (atOwner (feAcc k) []).sharersFor ⟨0, 0, 0⟩ (feAcc k) = [])
    ∧ feReady .ldfe ((atOwner (feAcc .ldfe) []).mem.isFull (lsAddr 0 0 0)) = false
    ∧ (atOwner (feAcc .ldfe) [wordOf (lsAddr 0 0 0)]).mem.isFull (lsAddr 0 0 0) = true
    ∧ (atOwner (feAcc .stfe) []).mem.isFull (lsAddr 0 0 0) = false :=
  ⟨⟨rfl, rfl, rfl, rfl, rfl, by decide, by decide, rfl⟩, by decide, rfl, rfl, rfl⟩

/-- Requests at each stage of their way, and a remote update at its rill. -/
def request (st : Nat) : Access := { amoAcc with pa := 0x1000, va := 0x1000, stage := st }
def rupdAcc : Access := { id := 8, src := 8, seq := 0, kind := .rupd 0, va := ls, pa := lsAddr 0 0 0, size := 8, data := 1, ordered := true, cc := some 0 }
def onTheWay (st : Nat) : State := { (thread { flights := [rupdAcc] }) with cycle := 1000000, requests := [(⟨0, 0, 0⟩, request st)] }

theorem test_meets_RequestEvents :
    (let s : State := { (thread {}) with packets := [(0, [{ pos := ⟨0, 0, 0⟩, acc := request 0, prio := 0 }])] }
     ∃ w, winner (s.portNext.get 0 0) (s.heads (s.packets.get [] 0)) = some w ∧ w.input < 512)
    ∧ (∃ q rest, ((onTheWay 1).requests.filter fun x => lineOf x.2.pa == 64) = q :: rest ∧ q.2.stage = 1
        ∧ (onTheWay 1).ownedFor q.1 q.2 64 = false ∧ ∀ x ∈ q :: rest, x.2.stage ≠ 2 ∧ x.2.starved = false)
    ∧ (onTheWay 1).requests.find? (fun q => q.2.id == 3 && q.2.stage == 1) = some (⟨0, 0, 0⟩, request 1)
    ∧ (request 1).since + Config.sliceCycles 1024 ≤ (onTheWay 1).cycle
    ∧ (onTheWay 3).requests.find? (fun q => q.2.id == 3 && q.2.stage == 3) = some (⟨0, 0, 0⟩, request 3)
    ∧ ((onTheWay 3).ctx ⟨0, 0, 0⟩).run = .running ∧ (request 3).since + (request 3).retryTime ≤ (onTheWay 3).cycle
    ∧ (request 3).retries < field ((onTheWay 3).srAt ⟨0, 0, 0⟩ 0x040) 31 0
    ∧ ((onTheWay 1).ctx ⟨0, 0, 0⟩).flights.find? (fun x => x.id == 8 && x.stage == 0) = some rupdAcc
    ∧ (onTheWay 1).doneBefore ⟨0, 0, 0⟩ rupdAcc.seq (fun _ => true) = true :=
  ⟨⟨_, rfl, by decide⟩, ⟨_, _, rfl, rfl, rfl, by decide⟩, rfl, by decide, rfl, rfl, by decide, by decide, rfl, rfl⟩

theorem test_meets_RemoteUpdateIssue :
    let s : State := { mem0 with braids := [(0, { gran := { state := .owned, basin := 0 } })] }
    s.plain ∧ s.clean 8 ∧ 0 < s.myRill.replayRoom ∧ s.myRill.cc.get 0 (7 : BitVec 3).toNat < 0xFFFF ∧ s.ready 9
    ∧ (∀ op ∈ [0, 10], addressFault (s.val 8) (rupdOp op).2 false true = none)
    ∧ (∃ s1 a1, s.passes { id := 0, seq := 0, kind := .rupd 0, va := s.val 8, size := (rupdOp 0).2, ordered := true, tag := some 3, cc := some 7 } s1 a1)
    ∧ (s.me.oxBlock 0 5).all (fun x => x.full && !x.poison) = true ∧ field (((s.me.oxBlock 0 5).map (fun (x : Cell) => x.val)).getD 4 0) 63 12 = 0
    ∧ (s.rillOf (s.basinOf s.cur.b) (((s.me.oxBlock 0 5).map (fun (x : Cell) => x.val)).getD 4 0).toNat).isSome = true
    ∧ s.me.vseq = [] ∧ s.me.vres = [] ∧ s.me.slot 2 = none ∧ (s.me.vreg 2).full = true ∧ (s.me.vreg 3).poison = false
    ∧ (let e := (rupdOp 1).2
       ∀ i < 32 / e, addressFault (indexed (s.val 8) (s.me.vreg 3).val e i) e false true = none
         ∧ bit (indexed (s.val 8) (s.me.vreg 3).val e i) 55 = true) :=
  ⟨rfl, ⟨rfl, rfl⟩, by decide, by decide, rfl, by decide, ⟨_, _, rfl⟩, rfl, rfl, rfl, rfl, rfl, rfl, rfl, rfl, by decide⟩

/-- A thread that waits for its monitor slots. -/
def monitoring (st : Word) (dl : Nat) : State :=
  { (thread { wait := some (.monwait (.g 1) dl), sr := [(0x080, st)], mons := [(2, 77)] }) with triggers := [(⟨0, 0, 0⟩, 2)] }

theorem test_meets_MonitorResults :
    mem0.plain ∧ mem0.clean 8 ∧ mem0.clean 9 ∧ addressFault (mem0.val 8) 1 false false = none
    ∧ (∃ s1 a1, mem0.passes { id := 0, seq := 0, kind := .monarm 3, va := mem0.val 8, size := 1 } s1 a1)
    ∧ monHolds (mem0.sr 0x080) = false ∧ monHolds ((thread { sr := [(0x080, 0x11)] }).sr 0x080) = true
    ∧ (let s := monitoring 0x44 90
       (s.ctx ⟨0, 0, 0⟩).wait = some (.monwait (.g 1) 90) ∧ (s.ctx ⟨0, 0, 0⟩).run = .running ∧ monHolds (s.srAt ⟨0, 0, 0⟩ 0x080) = true
         ∧ (90 : Nat) ≤ s.cycle ∧ (s.braid 0).fenced = false ∧ (s.ctx ⟨0, 0, 0⟩).mons.find 2 = some 77 ∧ s.triggers = [(⟨0, 0, 0⟩, 2)]) :=
  ⟨rfl, ⟨rfl, rfl⟩, ⟨rfl, rfl⟩, rfl, ⟨_, _, rfl⟩, rfl, rfl, rfl, rfl, rfl, by decide, rfl, rfl, rfl⟩

/-- A barrier of the thread's cohort with one arrival, and a waiter of the phase before. -/
def barrier (n : Nat) : State :=
  { (thread { (regs [(8, 5), (9, 6)]) with cohort := some 1, wait := some (.barrier 2 4) }) with
    braids := [(0, { barriers := [(2, { cohort := some 1, count := 2, arrived := n, phase := 5 })] })] }

theorem test_meets_BarrierResults :
    (barrier 1).plain ∧ ((barrier 1).braid 0).barriers.get {} 2 = { cohort := some 1, count := 2, arrived := 1, phase := 5 }
    ∧ (barrier 1).me.cohort = some 1 ∧ (barrier 1).quietBefore = true ∧ (barrier 1).clean 8 ∧ (barrier 1).clean 9
    ∧ (((barrier 1).braid 0).barriers.get {} 2).arrive.phase ≠ 5 ∧ (((barrier 0).braid 0).barriers.get {} 2).arrive.phase = 5
    ∧ (((barrier 0).braid 0).barriers.get {} 2).arrived = 0 ∧ field ((barrier 1).val 8) 15 0 = 5 ∧ field ((barrier 1).val 9) 15 0 ≠ 5
    ∧ mem0.cur.k < 15 ∧ ((mem0.braid 0).barriers.get {} 2).cohort = none
    ∧ ((barrier 1).ctx ⟨0, 0, 0⟩).wait = some (.barrier 2 4) ∧ ((barrier 1).ctx ⟨0, 0, 0⟩).run = .running
    ∧ mem0.myRill.cc.get 0 0 < (1 : BitVec 5).toNat ∧ mem0.myRill.cc.get 0 0 < field (mem0.val 11) 15 0 :=
  ⟨rfl, rfl, rfl, rfl, ⟨rfl, rfl⟩, ⟨rfl, rfl⟩, by decide, rfl, rfl, rfl, by decide, by decide, rfl, rfl, rfl, by decide, by decide⟩

/-- A fill of two doublewords in local store under way. -/
def filling : Block :=
  { id := 3, seq := 0, op := 2, esize := 3, nd := .g 1, ad := .g 2, bd := .g 3, n := 2, a := ls, b := 9, bPoison := false, pc := 0x40, len := 2 }

/-- The fill's thread, before and at its element. -/
def fillThread : State := thread { block := some filling, g := [(1, { full := false, src := 3 }), (2, { full := false, src := 3 })] }
def fillTurn : State := { (fillThread.modRill 0 0 fun y => { y with bNext := 1 }) with cur := ⟨0, 0, 0⟩, upc := 0x40, ipc := 0x40, ulen := 2 }

theorem test_meets_BlockResults_runs :
    (fillThread.rill 0 0).bNext = 0 ∧ (fillThread.ctx ⟨0, 0, 0⟩).run = .running ∧ (fillThread.ctx ⟨0, 0, 0⟩).block = some filling
    ∧ filling.op = 2 ∧ filling.esize ≤ 3 ∧ 2 ≤ filling.n.toNat ∧ bit filling.a 55 = true
    ∧ addressFault filling.a (2 ^ filling.esize) false true = none ∧ fillThread.txDepth ⟨0, 0, 0⟩ = 0 ∧ fillThread.requests = []
    ∧ fillThread.groupOf ⟨0, 0, 0⟩ = none
    ∧ fillTurn.mayPerform ⟨0, 0, 0⟩ { id := 3, seq := 0, kind := .store, va := filling.a, size := 8, tag := none, pa := localPlace 0 filling.a } = true := by
  refine ⟨rfl, rfl, rfl, rfl, by decide, by decide, rfl, rfl, rfl, rfl, rfl, by decide⟩

theorem test_meets_BlockResults :
    (let s := thread (regs [(8, 0), (9, ls), (10, 4)])
     s.clean 8 ∧ s.clean 9 ∧ s.clean 10 ∧ s.val 8 = 0 ∧ s.clean 11 ∧ s.me.block = none)
    ∧ (let s := thread (regs [(8, 1), (9, ls), (10, ls + 64)])
       s.val 8 ≠ 0 ∧ (s.val 9).toNat % 2 ^ (3 : BitVec 2).toNat = 0 ∧ (s.val 10).toNat % 2 ^ (3 : BitVec 2).toNat = 0) :=
  ⟨⟨⟨rfl, rfl⟩, ⟨rfl, rfl⟩, ⟨rfl, rfl⟩, rfl, ⟨rfl, rfl⟩, rfl⟩, by decide, rfl, rfl⟩
/-- The thread with rounding mode SR, and with the trap of NX enabled. -/
def rounding (f : Word) : State := thread { (regs [(8, 0x3FF0000000000000), (9, 0x3CA0000000000001), (11, 4)]) with sr := [(0x020, f)] }

theorem test_meets_FpResults :
    (thread {}).ready 8 ∧ (thread {}).ready 9 ∧ (thread {}).ready 18 ∧ rmOf ((thread {}).sr 0x020) 0 ≠ 5 ∧ (rounding 5).me.vseq = []
    ∧ rmOf ((rounding 5).sr 0x020) 7 = 5 ∧ ¬ (thread {}).fpTraps 1 ∧ (rounding 0x3E00).fpTraps 1
    ∧ 4 ≤ (4 : BitVec 3).toNat ∧ (1 : BitVec 3).toNat < 4 ∧ (fmtOf 1).widens (fmtOf 0) = false ∧ (fmtOf 0).widens (fmtOf 1) = true :=
  ⟨rfl, rfl, rfl, by decide, rfl, rfl, by unfold State.fpTraps; decide, by unfold State.fpTraps; decide, by decide, by decide, rfl, rfl⟩

theorem test_meets_FpLongResults :
    (rounding 0).ready 8 ∧ (rounding 0).ready 9 ∧ field ((rounding 0).sr 0x020) 2 0 ≠ 5 ∧ (rounding 5).me.vseq = []
    ∧ field ((rounding 0).sr 0x020) 13 9 = 0 ∧ field ((rounding 0x3E00).sr 0x020) 13 9 ≠ 0
    ∧ (rounding 0x3E00).unitFree 2 ≤ (rounding 0x3E00).cycle ∧ ¬ (rounding 0x3E00).fpTraps 0 ∧ (rounding 0x3E00).fpTraps 16 :=
  ⟨rfl, rfl, by decide, rfl, rfl, by decide, by decide, by unfold State.fpTraps; decide, by unfold State.fpTraps; decide⟩

/-- An input stream bound to v12 of the thread, with the entries given: doublewords from the local store, in one row. -/
def inStream (n : Nat) (l : List SEntry) : Stream :=
  { input := true, base := ls, w1 := 0x800000000 + w64 n, w2 := 1, w3 := 1, ctl := 3, cc := 0, xp := false, seq := 0, fifo := l, start := 0 }
def outStream (n : Nat) (l : List SEntry) : Stream := { (inStream n l) with input := false }

theorem test_meets_VectorIssue :
    (thread {}).ready 8 ∧ (thread {}).ready 9 ∧ (thread {}).plain
    ∧ (∃ z ∈ vectorForms (thread {}) 1 2 3 4 8 9 0 0 0 0 0, z.2.1.streams (thread {}).me = false ∧ z.2.1.wrongWay (thread {}).me = none)
    ∧ (∃ z ∈ vectorForms (thread { streams := [(0, inStream 4 [])] }) 12 2 3 4 8 9 0 0 0 0 0,
        z.2.1.wrongWay (thread { streams := [(0, inStream 4 [])] }).me = some 12)
    ∧ (thread {}).me.vseq.length < 16 ∧ (thread {}).clean 8 ∧ (thread {}).me.vseq.length + (15 : BitVec 4).toNat + 1 ≤ 16 :=
  ⟨rfl, rfl, rfl, ⟨_, List.mem_cons_self, rfl, rfl⟩, ⟨_, List.mem_cons_self, rfl⟩, by decide, ⟨rfl, rfl⟩, by decide⟩

/-- A VADD of 32-bit elements of v2 and v3 into v1, and its result. -/
def vaddEntry : VEntry := { (vEntry 0x30 0 1 2 3 0 6) with id := 5, dst := .v 1 }
def vaddResult : VResult := { id := 5, seq := 0, due := 100, dst := .v 1, val := 7, poison := false, last := true }
def vThread (q : List VEntry) (l : List VResult) : State := thread { v := [(1, { full := false, src := 5 })], vseq := q, vres := l }

theorem test_meets_VectorExecution :
    (let s := vThread [vaddEntry] []
     (s.rill 0 0).vNext = 0 ∧ (s.ctx ⟨0, 0, 0⟩).run = .running ∧ (s.ctx ⟨0, 0, 0⟩).vIdleBlock = none
       ∧ (s.ctx ⟨0, 0, 0⟩).vHead = some (vaddEntry, true) ∧ s.vReady ⟨0, 0, 0⟩ vaddEntry = true ∧ (s.ctx ⟨0, 0, 0⟩).streams = []
       ∧ vaddEntry.major = 0x30 ∧ vaddEntry.fn < 0x20 ∧ vIsFp vaddEntry.t = false ∧ vaddEntry.dst = .v vaddEntry.d)
    ∧ (let s := vThread [] [vaddResult]
       (s.ctx ⟨0, 0, 0⟩).vres.find? (fun x => decide (x.due ≤ s.cycle)) = some vaddResult ∧ vaddResult.last = true
         ∧ ((s.ctx ⟨0, 0, 0⟩).vreg 1).full = false ∧ ((s.ctx ⟨0, 0, 0⟩).vreg 1).src = vaddResult.id) :=
  ⟨⟨rfl, rfl, rfl, rfl, rfl, rfl, rfl, by decide, rfl, rfl⟩, rfl, rfl, rfl, rfl⟩

def gone (l : List Resolved) : List Access := l.filterMap fun
  | .go a => some a
  | _ => none

theorem passes_all (s : State) (accs : List Access)
    (h : (({ s with nextId := s.nextId + accs.length } : State).resolveAll s.cur (numberFrom s.nextId s.me.seq s.iword (s.me.las.map Window.seq) 0 accs)).2
      = (gone (({ s with nextId := s.nextId + accs.length } : State).resolveAll s.cur (numberFrom s.nextId s.me.seq s.iword (s.me.las.map Window.seq) 0 accs)).2).map
          Resolved.go) : ∃ s1 bs, s.passesAll accs s1 bs := ⟨_, _, Prod.ext rfl h⟩

/-- The mask register with two elements, and with none. -/
def masked (m : Word) : State := thread { (regs [(8, ls), (9, 0)]) with sr := [(0x099, m)] }

theorem test_meets_VectorMemoryIssue :
    (masked 3).plain ∧ (masked 3).clean 8 ∧ (masked 3).clean 9 ∧ ((masked 3).me.vreg 2).full = true ∧ ((masked 3).me.vreg 2).poison = false
    ∧ (masked 3).me.vseq = [] ∧ (masked 3).me.vres = [] ∧ ((masked 3).me.vreg 1).full = true ∧ 0 < (masked 3).myRill.replayRoom
    ∧ (∃ x ∈ vectorAccesses (masked 3) 1 2 8 9 1 3 15,
        (∀ n ∈ x.2.2.1, (masked 3).me.slot n = none)
        ∧ (let els := (masked 3).selected true 4
           els ≠ [] ∧ (∀ i ∈ els, addressFault (x.2.2.2.2 i) 8 false true = none)
             ∧ ∃ s1 bs, (masked 3).passesAll (els.map fun i => (masked 3).elementAccess x.2.1 1 8 i x.2.2.2.1 (x.2.2.2.2 i)) s1 bs))
    ∧ (masked 0).selected true 4 = []
    ∧ (let s := thread (regs [(8, ls + 1), (9, 0)])
       ∃ x ∈ vectorAccesses s 1 2 8 9 0 3 15, ∃ c ea, (s.selected false 4).findSome? (fun i =>
         (addressFault (x.2.2.2.2 i) 8 false true).map fun c => (c, x.2.2.2.2 i)) = some (c, ea)) :=
  ⟨rfl, ⟨rfl, rfl⟩, ⟨rfl, rfl⟩, rfl, rfl, rfl, rfl, rfl, by decide,
    ⟨_, List.mem_cons_self, by decide, by decide, by decide, passes_all _ _ rfl⟩, rfl, ⟨_, List.mem_cons_self, _, _, rfl⟩⟩

/-- The thread with a stream bound to v12, and context 15 beside a thread whose stream has stopped. -/
def streaming (x : Stream) : State := thread { (regs [(8, 0x000C0000), (9, 3)]) with streams := [(0, x)] }
def stoppedStream : State :=
  { (supervisor (regs [(8, 0x000C0000), (9, 1), (10, 0)])) with
    ctxs := [(0, { streams := [(0, { (inStream 4 []) with flt := true })] }), (15, { (regs [(8, 0x000C0000), (9, 1), (10, 0)]) with run := .running })] }
def inEntry : SEntry := { id := 6, first := 0, mask := 15 }
def outEntry : SEntry := { id := 6, first := 0, mask := 1, val := 77 }

theorem test_meets_StreamResults :
    (let s := thread { (regs [(9, 3)]) with ox := [(3, { val := 8 })] }
     s.plain ∧ s.me.vseq = [] ∧ s.ready 9 ∧ (s.me.oxBlock 2 4).all (fun x => x.full && !x.poison) = true ∧ s.bad 9 = false
       ∧ bindFault (s.me.streams.find 0).isSome 12 2 (s.val 9) ((s.me.oxBlock 2 4).map (fun (x : Cell) => x.val)) = none
       ∧ s.myRill.cc.get 0 0 < 0xFFFF ∧ s.me.streams.find 0 = none)
    ∧ (let s := thread { (regs [(9, 7)]) with ox := [(3, { val := 8 })] }
       bindFault (s.me.streams.find 0).isSome 12 2 (s.val 9) ((s.me.oxBlock 2 4).map (fun (x : Cell) => x.val)) = some (0x19, 0x8000000000000300))
    ∧ ((streaming (inStream 4 [])).me.streams.find 0 = some (inStream 4 []) ∧ (inStream 4 []).input = true ∧ (inStream 4 []).fifo.length ≤ 8)
    ∧ stoppedStream.plain ∧ stoppedStream.me.vseq = [] ∧ stoppedStream.cur.k = 15 ∧ stoppedStream.clean 8 ∧ stoppedStream.clean 9
    ∧ field (stoppedStream.val 8) 20 16 = 12 + 0
    ∧ (stoppedStream.ctx { stoppedStream.cur with k := 0 }).streams.find 0 = some { (inStream 4 []) with flt := true }
    ∧ stoppedStream.val 9 = 1 ∧ stoppedStream.val 10 = 0 :=
  ⟨⟨rfl, rfl, rfl, rfl, rfl, rfl, by decide, rfl⟩, rfl, ⟨rfl, rfl, by decide⟩, rfl, rfl, rfl, ⟨rfl, rfl⟩, ⟨rfl, rfl⟩, rfl, rfl, rfl, rfl⟩
set_option maxRecDepth 4000 in
theorem test_meets_StreamResults_steps :
    (let x := inStream 4 [inEntry]
     let s := streaming x
     s.nextSlot 0 0 s.slotWorks = some (⟨0, 0, 0⟩, 0, x) ∧ x.input = true ∧ (s.ctx ⟨0, 0, 0⟩).streams.find 0 = some x ∧ bit (x.addr 3) 55 = true ∧ inEntry.done = 0)
    ∧ (let e : SEntry := { id := 6, first := 0, mask := 15, done := 3 }
       let x := inStream 4 [e]
       let s := streaming x
       s.nextSlot 0 0 s.slotWorks = some (⟨0, 0, 0⟩, 0, x) ∧ x.input = true ∧ (s.ctx ⟨0, 0, 0⟩).streams.find 0 = some x ∧ e.done = 3 ∧ 3 + 1 = x.lanes
         ∧ e.first + 3 < x.total ∧ addressFault (x.addr (e.first + 3)) x.esize false false = none
         ∧ s.ownedLine (lineOf (localPlace 0 (x.addr (e.first + 3)))) (some s.nextId) = false
         ∧ s.lockOf (lineOf (localPlace 0 (x.addr (e.first + 3)))) ≠ 2)
    ∧ (let e : SEntry := { id := 6, first := 0, mask := 15, done := 3 }
       let x : Stream := { (inStream 4 [e]) with base := ls + 0x30000 }
       addressFault (x.addr (e.first + 3)) x.esize false false = some 0x0A)
    ∧ (let x := outStream 4 [outEntry]
       let s := streaming x
       s.nextSlot 0 0 s.slotWorks = some (⟨0, 0, 0⟩, 0, x) ∧ x.input = false ∧ x.fifo = outEntry :: [] ∧ x.toStore outEntry = [0]
         ∧ addressFault (x.addr 0) x.esize false false = none ∧ s.ownedLine (lineOf (localPlace 0 (x.addr 0))) (some outEntry.id) = false
         ∧ s.lockOf (lineOf (localPlace 0 (x.addr 0))) = 0 ∧ s.requests = []
         ∧ s.earlierOn ⟨0, 0, 0⟩ outEntry.seq (localPlace 0 (x.addr 0)) x.esize (x.addr 0) = false
         ∧ (s.fanouts.any fun f => f.line == lineOf (localPlace 0 (x.addr 0))) = false
         ∧ (∀ i < x.esize, s.mem.isLost (localPlace 0 (x.addr 0) + i) = false)) :=
  ⟨⟨rfl, rfl, rfl, rfl, rfl⟩, ⟨rfl, rfl, rfl, rfl, rfl, by decide, rfl, rfl, by decide⟩, rfl, rfl, rfl, rfl, rfl, rfl, rfl, rfl, rfl, rfl, rfl, by decide⟩

/-- A COPYF of one byte to local store, about to store it, and one that has stopped. -/
def fillCmd : CopyCmd :=
  { id := 3, entry := 0, rill := 0, ctx := 0, op := 2, o0 := ls, o1 := 1, o2 := 0, o3 := 0, fill := 0x5A, token := .g 1, seq := 0, cc := 0
    xp := false, phase := 1 }
def stoppedCopy : State :=
  { (supervisor (regs [(8, 0), (9, 1), (10, 0)])) with braids := [(0, { copies := [{ fillCmd with phase := 2 }] })] }

theorem test_meets_CopyResults :
    (let s := thread (regs [(8, ls)])
     s.plain ∧ s.ready 8 ∧ (s.braid s.cur.b).freeCopy = some 0 ∧ s.myRill.cc.get 0 1 < 0xFFFF
       ∧ (s.me.oxBlock 0 4).all (fun y => y.full && !y.poison) = true ∧ copyFault 0 ((s.me.oxBlock 0 4).map (fun (x : Cell) => x.val)) = none)
    ∧ (let s := thread { ox := [(1, { val := 0x10000000000 })] }
       copyFault 2 ((s.me.oxBlock 0 2).map (fun (x : Cell) => x.val)) = some 1)
    ∧ (let s : State := { (thread {}) with braids := [(0, { copies := [{ fillCmd with done := 1 }] })] }
       (s.braid 0).copies.find? (fun x => x.entry == 0 && (x.phase == 3 || (x.phase == 1 && decide (x.total ≤ x.done))))
         = some { fillCmd with done := 1 })
    ∧ (let s := stoppedCopy
       s.plain ∧ s.cur.k = 15 ∧ s.clean 8 ∧ s.clean 9 ∧ s.val 9 = 1 ∧ s.val 10 = 0
         ∧ (s.braid s.cur.b).copies.find? (fun q => q.phase == 2 && q.entry == field (s.val 8) 20 16 && q.rill == s.cur.r
             && q.ctx == field (s.val 8) 3 0) = some { fillCmd with phase := 2 }) :=
  ⟨⟨rfl, rfl, rfl, by decide, rfl, rfl⟩, rfl, rfl, rfl, rfl, ⟨rfl, rfl⟩, ⟨rfl, rfl⟩, rfl, rfl, rfl⟩

def fillState : State := { (thread {}) with braids := [(0, { copies := [fillCmd] })] }

theorem test_meets_CopyResults_step :
    (fillState.braid 0).copies = [fillCmd] ∧ fillCmd.total = fillCmd.done + 1 ∧ bit (fillCmd.dst 0) 55 = true
    ∧ addressFault (fillCmd.dst 0) 1 false false = none
    ∧ fillState.ownedLine (lineOf (localPlace 0 (fillCmd.dst 0))) (some fillCmd.id) = false
    ∧ fillState.lockOf (lineOf (localPlace 0 (fillCmd.dst 0))) = 0
    ∧ fillState.earlierOn ⟨0, 0, 0⟩ fillCmd.seq (localPlace 0 (fillCmd.dst 0)) 1 (fillCmd.dst 0) = false
    ∧ (fillState.fanouts.any fun f => f.line == lineOf (localPlace 0 (fillCmd.dst 0))) = false ∧ fillState.requests = []
    ∧ fillState.mem.isLost (localPlace 0 (fillCmd.dst 0)) = false := by decide

/-- A braid whose tile 0, owned by rill 0, and weight slot 0 belong to cohort 1, and a thread of the cohort. -/
def matrixBraid (l : List MxCmd) : Braid :=
  { tiles := [(0, { cohort := some 1, owner := some 0 }), (1, { cohort := some 1, owner := some 1, out := 1 })]
    slots := [(0, { cohort := some 1, shadow := { loaded := true } })], mx := l, credits := [(0, 4)] }
def matrixThread (l : List MxCmd) (r : List (Nat × Word)) : State :=
  { (thread { (regs r) with cohort := some 1 }) with braids := [(0, matrixBraid l)] }

theorem test_meets_MatrixIssue :
    (let s := matrixThread [] [(8, 0), (9, 0)]
     s.plain ∧ s.clean 8 ∧ s.clean 9 ∧ (s.braid s.cur.b).mxEntry s.cur.r = some 0 ∧ s.myRill.cc.get 0 1 < 0xFFFF
       ∧ (s.me.oxBlock 0 0).all (fun y => y.full && !y.poison) = true
       ∧ s.mxIssueCode (s.mxCommand 3 (s.val 0) (s.val 9) [] 1 false) = 0)
    ∧ (let s := matrixThread [] [(8, 0), (9, 0x8000000000000000)]
       s.mxIssueCode (s.mxCommand 3 (s.val 0) (s.val 9) [] 1 false) = 0x40) :=
  ⟨⟨rfl, ⟨rfl, rfl⟩, ⟨rfl, rfl⟩, rfl, by decide, rfl, rfl⟩, rfl⟩

/-- A swap of slot 0 and a clear of tile 0, queued; context 15 beside a command that has stopped. -/
def swapCmd : MxCmd := { id := 3, entry := 0, rill := 0, ctx := 0, op := 3, a := 0, b := 0, cc := 0, seq := 0 }
def clearCmd : MxCmd := { swapCmd with op := 4 }
def matrixKeeper (r : List (Nat × Word)) : State :=
  { (supervisor (regs r)) with braids := [(0, matrixBraid [{ swapCmd with op := 5, phase := 2 }])] }

theorem test_meets_MatrixControl :
    (let s := matrixThread [] [(8, 1), (9, 1), (10, 0x8000000000000000), (11, 4), (18, 0x10003), (19, 0x30002)]
     s.plain ∧ s.clean 8 ∧ s.clean 9 ∧ s.clean 10 ∧ s.clean 11 ∧ s.clean 18 ∧ field (s.val 9) 63 3 = 0
       ∧ (∀ t < 64, bit (s.val 8) t = true → ((s.braid s.cur.b).tile t).cohort.isSome = true
           ∧ (s.cur.k = 15 ∨ ((s.braid s.cur.b).tile t).cohort = s.me.cohort))
       ∧ field (s.val 10) 63 3 ≠ 0
       ∧ ¬ (∀ t < 64, bit (s.val 11) t = true → ((s.braid s.cur.b).tile t).cohort.isSome = true) ∧ s.cur.k < 15
       ∧ field (s.val 18) 15 8 = 0 ∧ field (s.val 18) 63 32 = 0 ∧ hasBit (field (s.val 18) 7 0) s.cur.r = true
       ∧ 2 ≤ countOnes 8 (field (s.val 18) 7 0) ∧ hasBit (field (s.val 19) 7 0) s.cur.r = false ∧ field (s.val 10) 63 32 ≠ 0)
    ∧ (let s := matrixKeeper [(8, 0), (9, 1), (10, 16)]
       s.plain ∧ s.clean 8 ∧ s.clean 9 ∧ s.cur.k = 15 ∧ field (s.val 9) 63 3 = 0 ∧ 1 ≤ (s.val 10).toNat ∧ (s.val 10).toNat ≤ 16
         ∧ s.val 9 = 1 ∧ s.val 8 = 0
         ∧ (s.braid s.cur.b).mx.find? (fun q => q.rill == s.cur.r && q.ctx == field (s.val 8) 3 0 && q.entry == field (s.val 8) 20 16
             && (q.phase == 2 || q.waits)) = some { swapCmd with op := 5, phase := 2 }) :=
  ⟨⟨rfl, ⟨rfl, rfl⟩, ⟨rfl, rfl⟩, ⟨rfl, rfl⟩, ⟨rfl, rfl⟩, ⟨rfl, rfl⟩, rfl, by decide, by decide, by decide, by decide, rfl, rfl, rfl, by decide,
    rfl, by decide⟩, rfl, ⟨rfl, rfl⟩, ⟨rfl, rfl⟩, rfl, rfl, by decide, by decide, rfl, rfl, rfl⟩

/-- Partners of a rotation: the braids 0 and 8 of one column of two rows. -/
def northCmd : MxCmd := { swapCmd with op := 2, phase := 1, o1 := 0, links := [1, 3], bank := { loaded := true } }
def loadCmd : MxCmd := { swapCmd with op := 5, phase := 1, a := 0x0100000000000000 }

theorem test_meets_MatrixEvents :
    (∀ q ∈ [swapCmd, clearCmd], let s := matrixThread [q] []
      (s.braid 0).mxHead 0 = some q ∧ ((List.range 8).filter fun i => ((s.braid 0).mxHead i).any (s.canStart 0)) = [0]
        ∧ (s.braid 0).credits.get 0 0 ≠ 0 ∧ q.team = none ∧ (q.op = 3 ∨ q.op = 4))
    ∧ (let s := matrixThread [{ swapCmd with phase := 1, due := 99 }] []
       (s.braid 0).mx.find? (fun q => q.id == 3 && q.phase == 1 && q.lead == 0 && q.links.isEmpty) = some { swapCmd with phase := 1, due := 99 }
         ∧ (99 : Nat) ≤ s.cycle ∧ (∀ z ∈ (s.braid 0).mx, z.lead = 3 → z.id = 3))
    ∧ (let s := matrixThread [loadCmd] []
       (s.braid 0).mx.find? (fun q => q.id == 3 && q.phase == 1 && q.lead == 0) = some loadCmd ∧ loadCmd.done < loadCmd.rows * loadCmd.columns
         ∧ loadCmd.tileBytes ≠ 0 ∧ addressFault (loadCmd.elementAddr loadCmd.done) 1 false false = some 0x09) :=
  ⟨by decide, ⟨rfl, by decide, by decide⟩, rfl, by decide, by decide, rfl⟩
/-- Partners of a rotation on the column of the braids 0 and 8, two rows high, with tag 9. -/
def rotCmd (l : List Nat) : MxCmd := { swapCmd with op := 2, phase := 1, o1 := 0x90001, links := l }
def rotating : State :=
  { (thread {}) with cycle := 1008, braids := [(0, { mx := [rotCmd [1, 3]] }), (8, { mx := [rotCmd [1, 3]] })] }

theorem test_meets_MatrixEvents_rotation :
    (rotating.braid 0).rotOf 9 = some (rotCmd [1, 3]) ∧ (rotating.braid 8).rotOf 9 = some (rotCmd [1, 3])
    ∧ torusNeighbour 0 3 (rotCmd []).o1 = 8 ∧ torusNeighbour 8 1 (rotCmd []).o1 = 0
    ∧ max (rotCmd []).began (rotCmd []).began + 160 ≤ rotating.cycle
    ∧ (∀ x ∈ rotating.badTags, x.tag = 9 → x.braid ≠ 0 ∧ x.braid ≠ 8) := ⟨rfl, rfl, rfl, rfl, by decide, by decide⟩

/-- A transaction with a read of word n, one that has logged a write of it, and their threads. -/
def readEntry : LogEntry := { word := 512, val := 0, poison := false }
def inTx (depth : Word) (x : Tx) : State := thread { (regs [(8, ls), (9, ls + 8)]) with tx := some x, sr := [(0x050, depth), (0x052, 8)] }

theorem test_meets_TxResults :
    (let s := thread { sr := [(0x052, 0x0000000800000008)] }
     s.plain ∧ field (s.sr 0x052) 15 0 ≤ field (s.sr 0x052) 47 32)
    ∧ (let s := thread { sr := [(0x052, 8)] }
       field (s.sr 0x052) 47 32 < field (s.sr 0x052) 15 0 ∧ s.quiet s.cur = true ∧ s.me.tx = none ∧ s.plain)
    ∧ (inTx 1 emptyTx).inTx = true ∧ (inTx 1 emptyTx).txDepth (inTx 1 emptyTx).cur < 7 ∧ (inTx 7 emptyTx).txDepth (inTx 7 emptyTx).cur = 7
    ∧ (inTx 2 emptyTx).me.tx = some emptyTx ∧ 2 ≤ (inTx 2 emptyTx).txDepth (inTx 2 emptyTx).cur
    ∧ (let x := { emptyTx with reads := [readEntry] }
       let s := inTx 1 x
       s.me.tx = some x ∧ s.irrevocable = false ∧ (∀ e ∈ x.reads, s.lockOf (e.word / 8) ≠ 2) ∧ s.readsValid x = true
         ∧ s.readsValid { emptyTx with reads := [{ readEntry with val := 1 }] } = false ∧ s.txDepth s.cur = 1 ∧ s.quietBefore = true
         ∧ x.logLines ≠ [] ∧ emptyTx.logLines = [])
    ∧ (let s := inTx 1 emptyTx
       s.clean 9 ∧ bit (s.val 9) 55 = true ∧ s.cur.b < 512 ∧ addressFault (s.val 9) 8 false true = none
         ∧ s.ownedLine (lineOf (localPlace s.cur.b (s.val 9))) none = false ∧ emptyTx.writeOf (wordOf (localPlace s.cur.b (s.val 9))) = none) :=
  ⟨⟨rfl, by decide⟩, ⟨by decide, rfl, rfl, rfl⟩, rfl, by decide, rfl, rfl, by decide,
    ⟨rfl, rfl, by decide, rfl, rfl, rfl, rfl, by decide, rfl⟩, ⟨rfl, rfl⟩, rfl, by decide, rfl, rfl, rfl⟩

/-- A transaction that waits for the replies of two slices, one of which is the home of its only line. -/
def committing (c : Nat) : Tx := { emptyTx with reads := [readEntry], writes := [readEntry], commit := c, awaiting := [0, 7] }
def committer (c : Nat) (l : Table Lock) : State :=
  { (thread { tx := some (committing c), sr := [(0x050, 1)] }) with cycle := 6000, basins := [(0, { alive := true, slices := [0] })], locks := l }

theorem test_meets_TxEvents_commit :
    (((committer 1 []).ctx ⟨0, 0, 0⟩).tx = some (committing 1) ∧ 0 ∈ (committing 1).awaiting
      ∧ ((committing 1).awaiting.filter fun x => x != 0) ≠ []
      ∧ (∃ s1, lockLines ⟨0, 0, 0⟩ ((committer 1 []).linesAt 0 (committing 1) 0) (committer 1 []) = (s1, 0)))
    ∧ (∃ s1, lockLines ⟨0, 0, 0⟩ ((committer 1 [(64, { kind := 3, pos := ⟨1, 0, 0⟩, tid := 9 })]).linesAt 0 (committing 1) 0)
        (committer 1 [(64, { kind := 3, pos := ⟨1, 0, 0⟩, tid := 9 })]) = (s1, 2))
    ∧ (let s := committer 2 []
       (s.ctx ⟨0, 0, 0⟩).tx = some (committing 2) ∧ (((committing 2).writes ++ (committing 2).spilled).filter fun e =>
           s.homeSlice (s.basinOf 0) (8 * e.word) == 0) = [readEntry] ∧ readEntry.mask = 255
         ∧ s.sharersOf (readEntry.word / 8) = [] ∧ (s.fanouts.any fun f => f.line == readEntry.word / 8) = false
         ∧ (∀ i < 8, s.mem.isLost (8 * readEntry.word + i) = false))
    ∧ (committing 1).began + 4950 ≤ (committer 1 []).cycle ∧ (committer 1 []).groupOf ⟨0, 0, 0⟩ = none ∧ (committer 1 []).requests = [] :=
  ⟨⟨rfl, by decide, by decide, _, rfl⟩, ⟨_, rfl⟩, ⟨rfl, rfl, rfl, rfl, rfl, by decide⟩, by decide, rfl, rfl⟩

theorem test_meets_TxEvents :
    (let s : State := { (thread {}) with basins := [(0, { token := { pending := [(7, ⟨0, 0, 0⟩)] } })] }
     (s.basin 0).token = { holder := none, pending := [(7, ⟨0, 0, 0⟩)] })
    ∧ (let s := thread { tx := some emptyTx, wait := some (.irrLock 64 0) }
       (s.ctx ⟨0, 0, 0⟩).wait = some (.irrLock 64 0) ∧ (s.ctx ⟨0, 0, 0⟩).tx = some emptyTx ∧ s.locks.find 64 = none
         ∧ s.ownedLine 64 none = false ∧ (∀ f ∈ s.fanouts, f.line ≠ 64) ∧ s.lockTurn ⟨0, 0, 0⟩ 64 = true)
    ∧ (let s := thread { tx := some emptyTx, sr := [(0x050, 0x101)], stopBy := 90 }
       (s.ctx ⟨0, 0, 0⟩).tx = some emptyTx ∧ emptyTx.commit = 0 ∧ bit (s.srAt ⟨0, 0, 0⟩ 0x050) 8 = true ∧ (s.ctx ⟨0, 0, 0⟩).stopBy ≠ 0
         ∧ (s.ctx ⟨0, 0, 0⟩).stopBy ≤ s.cycle ∧ s.groupOf ⟨0, 0, 0⟩ = none ∧ s.requests = [])
    ∧ (let s := thread (regs [(8, ls), (9, 1)])
       s.unfused = true ∧ s.plain ∧ s.ready 8 ∧ s.quiet s.cur = true ∧ spillBad s.cur.r (s.me.reg 8) = false
         ∧ spillBad s.cur.r (s.me.reg 9) = true ∧ (s.basin (s.basinOf s.cur.b)).token.holder ≠ some s.cur
         ∧ ∀ e ∈ (s.basin (s.basinOf s.cur.b)).token.pending, e.2 ≠ s.cur)
    ∧ (let s : State := { (thread (regs [(8, ls)])) with basins := [(0, { token := { holder := some ⟨0, 0, 0⟩ } })] }
       (s.basin (s.basinOf s.cur.b)).token.holder = some s.cur) :=
  ⟨rfl, ⟨rfl, rfl, rfl, rfl, by decide, rfl⟩, ⟨rfl, rfl, rfl, by decide, by decide, rfl, rfl⟩,
    ⟨rfl, rfl, rfl, rfl, rfl, rfl, by decide, by decide⟩, rfl⟩

/-- A loop nest of a line in local store: before its first chunk, and within one. -/
def nest0 : Nest := { line := ls, extents := 0x0000000400000004, parts := 1 }
def nested (x : Nest) : State := thread { (regs [(8, ls), (9, 0)]) with nest := some x }

theorem test_meets_WorkResults :
    (let s := thread { (regs [(8, ls)]) with ox := [(0, { val := 0x1000 }), (5, { val := 1 }), (8, { val := ls }), (13, { val := 0x100000000 })] }
     s.plain ∧ 0 < s.myRill.replayRoom ∧ (s.me.oxBlock 0 3).all (fun x => x.full && !x.poison) = true
       ∧ (let ws := (s.me.oxBlock 0 3).map (fun (x : Cell) => x.val)
          field (ws.getD 0 0) 5 0 = 0 ∧ bit (ws.getD 0 0) 55 = false ∧ field (ws.getD 2 0) 63 32 = 0)
       ∧ field (((s.me.oxBlock 5 3).map (fun (x : Cell) => x.val)).getD 0 0) 5 0 ≠ 0
       ∧ field (((s.me.oxBlock 8 3).map (fun (x : Cell) => x.val)).getD 0 0) 5 0 = 0
       ∧ bit (((s.me.oxBlock 8 3).map (fun (x : Cell) => x.val)).getD 0 0) 55 = true
       ∧ field (((s.me.oxBlock 11 3).map (fun (x : Cell) => x.val)).getD 2 0) 63 32 ≠ 0
       ∧ s.me.nest = none ∧ s.ticketPending = false ∧ s.clean 8 ∧ s.spawnsPending = false ∧ addressFault (s.val 8) 8 false true = none
       ∧ s.quietBefore = true ∧ s.dqEarlier s.cur.b s.cur.r s.arrival < s.dqRoom s.cur.b s.cur.r
       ∧ ((s.me.oxBlock 0 4).map (fun (x : Cell) => x.val)).getD 3 0 = 0
       ∧ ((s.me.oxBlock 5 4).map (fun (x : Cell) => x.val)).getD 3 0 = ls
       ∧ addressFault (s.val 8) 128 false true = none ∧ addressFault (s.val 8) 64 false true = none
       ∧ (∃ s1 a1, s.passes { id := 0, seq := 0, kind := .joinRead 3, va := s.val 8, size := 8, dst := s.me.dest 9 } s1 a1)
       ∧ (∃ s1 a1, s.passes { id := 0, seq := 0, kind := .joinInc, va := ls, size := 8, data := 1 } s1 a1)
       ∧ (∃ s1 a1, s.passes { id := 0, seq := 0, kind := .launch, va := s.val 8, size := 128, dst := s.me.dest 9, ext := [s.upc, w64 s.ulen] } s1 a1)
       ∧ (∃ s1 a1, s.passes { id := 0, seq := 0, kind := .hmsg, va := s.val 8, size := 64, dst := s.me.dest 9, ext := [s.upc, w64 s.ulen] } s1 a1))
    ∧ (let s := nested nest0
       s.me.nest = some nest0 ∧ addressFault nest0.line 8 false true = none ∧ s.ticketPending = false ∧ nest0.current = false
         ∧ ∃ s1 a1, s.passes { id := 0, seq := 0, kind := .ticket, va := nest0.line, size := 8, data := 1, dst := s.me.dest 9 } s1 a1)
    ∧ (let x := { nest0 with current := true, size := 2, unpacked := 1 }
       (nested x).me.nest = some x ∧ x.current = true ∧ x.unpacked < x.size ∧ (nested x).ticketPending = false) := by
  refine ⟨⟨rfl, by decide, rfl, ⟨rfl, rfl, rfl⟩, by decide, rfl, rfl, by decide, rfl, rfl, ⟨rfl, rfl⟩, rfl, rfl, rfl, by decide, rfl, rfl, rfl, rfl,
    ⟨_, _, rfl⟩, ⟨_, _, rfl⟩, ⟨_, _, rfl⟩, _, _, rfl⟩, ⟨rfl, rfl, rfl, rfl, _, _, rfl⟩, rfl, rfl, by decide, rfl⟩
/-- An owner's pop of context 0, a push that waits, and a thief of rill 0 that probes rill 1. -/
def popOp : TakeOp := { k := 0, id := 3, s := .g 1, ox := 0, kind := 2 }
def dequeState (l0 l1 : List (List (Word × Bool))) (t : List TakeOp) (w : List DqPush) : State :=
  { (thread { g := [(1, { full := false, src := 3 })] }) with
    rills := [(0, { deque := l0, takes := t, dqWait := w, dqSpillNext := some 1 }), (1, { deque := l1 })] }

theorem test_meets_WorkResults_deque :
    (let s := dequeState [[(1, false)], [(2, false)]] [] [popOp] []
     (s.rill 0 0).takes = [popOp] ∧ popOp.probe = 0 ∧ (s.rill 0 0).deque = [[(1, false)]] ++ [[(2, false)]] ∧ (s.rill 0 0).spilled = 0
       ∧ (s.ctx ⟨0, 0, popOp.k⟩).cellAt (.g 1) = { (s.ctx ⟨0, 0, popOp.k⟩).cellAt (.g 1) with full := false, src := popOp.id })
    ∧ (let w : DqPush := { task := [(1, false)], src := some (⟨0, 0, 0⟩, 4) }
       let s := dequeState [] [] [] [w]
       (s.rill 0 0).takes = [] ∧ (s.rill 0 0).dqWait = [w] ∧ w.src.isSome = true ∧ (s.rill 0 0).deque.length < 16)
    ∧ (let t := { popOp with probe := 1 }
       let s := dequeState [] [[(2, false)]] [t] []
       (s.rill 0 0).takes = [t] ∧ (s.rill 0 ((0 + t.probe) % 8)).takes = [] ∧ (s.rill 0 1).spilled = 0
         ∧ (s.rill 0 1).deque = [(2, false)] :: [] ∧ s.thieves = [(⟨0, 0, t.k⟩, t)] ∧ (s.rill 0 0).dqSpillNext = some 1) :=
  ⟨⟨rfl, rfl, rfl, rfl, rfl⟩, ⟨rfl, rfl, rfl, by decide⟩, rfl, rfl, rfl, rfl, rfl, rfl⟩

/-- A basin of braid 0 with an enabled queue, a record of one thread and its cohort. -/
def oneThread : List Word := [0x1000, 7, 0x10001, 0xD00000, 0, 0, 0, 0, 0, 0, 0, 0, 0, 0, 0, 0]
def rec0 (el : Bool) : Record := { id := 5, queue := 0, words := oneThread, eligible := el }
def launching (l : List Record) (c : Table Cohort) (en : Bool) : State :=
  { (thread {}) with
    cycle := 20000000
    braids := [(0, { gran := { state := .owned, basin := 0 }, cohorts := c })]
    basins := [(0, { alive := true, queues := [(0, { enable := en, vf := 1 })], records := l })] }
def cohort0 : Cohort := { record := 5, basin := 0, threads := [(0, 1)], halted := [(0, 1)], store := [] }

theorem test_meets_LaunchEvents_queue :
    ((launching [] [] false).basin 0 |>.queues.get {} 0).enable = false
    ∧ (let bs := (launching [] [] true).basin 0
       bs.alive = true ∧ bs.contained = false ∧ (bs.queues.get {} 0).enable = true ∧ bs.held 0 < 256 ∧ (bs.queues.get {} 0).vf ≠ 0)
    ∧ ({ id := 0, queue := 0, words := oneThread } : Record).invalid = false ∧ oneThread.getD 4 0 = 0 ∧ oneThread.getD 6 0 = 0
    ∧ ((launching [rec0 false] [] true).basin 0).records = [rec0 false] ∧ (rec0 false).eligible = false ∧ (rec0 false).status = 0
    ∧ (rec0 false).w 4 = 0 ∧ (rec0 false).w 6 = 0 :=
  ⟨rfl, ⟨rfl, rfl, rfl, by decide, by decide⟩, by decide, rfl, rfl, rfl, rfl, rfl, rfl, rfl⟩

theorem test_meets_LaunchEvents_page : oneThread.length = 16 ∧ ([] : List Word).length ≠ 16
    ∧ ((launching [] [] true).basin 0).held 0 ≤ 256 ∧ (((launching [] [] true).basin 0).queues.get {} 0).vf ≠ 0 := by decide

theorem test_meets_LaunchEvents_round :
    ((launching [rec0 true] [] true).basin 0).records = [rec0 true] ∧ (rec0 true).eligible = true ∧ (rec0 true).aged = false
    ∧ (rec0 true).exhausted = false ∧ (rec0 true).since + (rec0 true).age * 3300 ≤ (launching [rec0 true] [] true).cycle
    ∧ (launching [rec0 true] [] true).unplaceable 0 (rec0 true) = false ∧ ((launching [rec0 true] [] true).basin 0).order = [rec0 true]
    ∧ 1 ≤ (rec0 true).threads ∧ ((launching [rec0 true] [] true).fitBraid 0 0 (rec0 true)).any (fun f => f.1 == 0) = true :=
  ⟨rfl, rfl, rfl, rfl, by decide, by decide +kernel, by decide +kernel, by decide, by decide +kernel⟩

theorem test_meets_LaunchEvents_end :
    ∀ x ∈ [{ (rec0 true) with placed := 1, running := 2 }, { (rec0 true) with placed := 1, running := 1 }],
      let s := launching [x] [(9, cohort0)] true
      (s.braid 0).cohorts.find 9 = some cohort0 ∧ (∀ t ∈ cohort0.threads, t ∈ cohort0.halted) ∧ cohort0.basin = 0
        ∧ (s.basin 0).records = [x] ∧ x.id = cohort0.record ∧ (2 ≤ x.running ∨ x.running = 1) ∧ x.exhausted = true
        ∧ x.w 8 = 0 ∧ x.w 10 = 0 ∧ bit (x.w 9) 0 = false := by decide

/-- A store that waits for its sharers, and a thread whose line is not there. -/
def fan (l : List Nat) : Fanout := { line := 64, sharers := l, pos := ⟨0, 0, 0⟩, acc := { storeAcc with pa := 4096 }, since := 0 }

theorem test_meets_UnitAndHomeEvents :
    (thread {}).cleanQ 0 ∧ 64 * 64 < 2 ^ 40
    ∧ (let s := paged { pc := 0x1000 }
       let s0 : State := s.modRill 0 0 fun x => { x with fetching := [64] }
       s0.groupOf ⟨0, 0, 0⟩ = none ∧ ∃ s1, s0.fetch ⟨0, 0, 0⟩ (s0.ctx ⟨0, 0, 0⟩).pc = (s1, .miss 64) ∧ 64 ∈ (s1.rill 0 0).fetching)
    ∧ (let s : State := { (thread {}) with misses := [(0, 0x1000, 2, 1)] }
       s.misses[0]? = some (0, 0x1000, 2, 1) ∧ (s.ctx ⟨0 / 8, 0 % 8, 15⟩).wait = none ∧ ∀ e ∈ (s.rill (0 / 8) (0 % 8)).events, e.cause ≠ 0x23)
    ∧ (let s : State := { (thread {}) with fanouts := [fan [3, 5]] }
       s.fanouts = [fan [3, 5]] ∧ (s.braid 3).cut = false ∧ ∃ c ∈ (fan [3, 5]).sharers, c ≠ 3)
    ∧ (let s : State := { (thread {}) with fanouts := [fan [3]] }
       (fan [3]).sharers = [3] ∧ (fan [3]).acc.kind = .store ∧ s.requests = []
         ∧ (∀ i < (fan [3]).acc.size, s.mem.isLost ((fan [3]).acc.pa + i) = false))
    ∧ (let s : State := { (thread {}) with cycle := 66000, fanouts := [fan [3, 5]], braids := [(3, { cut := true })] }
       (s.braid 3).cut = true ∧ (fan [3, 5]).since + 66000 ≤ s.cycle) :=
  ⟨⟨rfl, rfl⟩, by decide, ⟨rfl, _, rfl, by decide⟩, ⟨rfl, rfl, by decide⟩, ⟨rfl, rfl, 5, by decide, by decide⟩, ⟨rfl, rfl, rfl, by decide⟩,
    rfl, by decide⟩

/-- Context 15 that names a stopped, and a running, context 3 in a0. -/
def keeper (c : Ctx) (r : List (Nat × Word)) : State :=
  { (supervisor (regs r)) with ctxs := [(3, c), (15, { (regs r) with run := .running })] }

theorem test_meets_SystemRegisters :
    srAssigned (srNumber 0 4 0) = true ∧ (thread {}).srWaits (thread {}).cur (srNumber 0 4 0) = false
    ∧ srSelectorOk 8 (srNumber 0 4 0) = true ∧ (8 : BitVec 5) ≠ 0 ∧ (thread {}).cur.k < 15 ∧ (thread {}).plain ∧ (thread {}).clean 9
    ∧ (let s := keeper { run := .stopped } [(8, 3), (9, 1)]
       s.cur.k = 15 ∧ s.clean 8 ∧ s.clean 9 ∧ s.plain ∧ (s.ctx { s.cur with k := field (s.val 8) 3 0 }).run = .stopped
         ∧ s.srWaits { s.cur with k := field (s.val 8) 3 0 } (srNumber 0 4 0) = false)
    ∧ ((keeper { run := .running } [(8, 3), (9, 1)]).ctx { (keeper { run := .running } [(8, 3), (9, 1)]).cur with k := 3 }).run = .running
    ∧ srPrivileged (srNumber 0 9 14) = true ∧ srReadOnly (srNumber 0 4 0) = false ∧ srReadOnly (srNumber 0 0 0) = true
    ∧ srNumber 0 4 0 ∉ [0x050, 0x080, 0x101, 0x122, 0x125] := by
  refine ⟨by decide, by decide, by decide, by decide, by decide, rfl, ⟨rfl, rfl⟩, ⟨rfl, ⟨rfl, rfl⟩, ⟨rfl, rfl⟩, rfl, rfl, by decide⟩, rfl, ?_, ?_, ?_, ?_⟩ <;> decide
theorem test_meets_TrapEntry :
    (thread {}).plain ∧ (thread {}).me.block = none ∧ (thread {}).me.vblocks = [] ∧ (thread {}).cur.k < 15 ∧ (thread {}).ulen < 16
    ∧ ((thread {}).ctx ⟨(thread {}).cur.b, (thread {}).cur.r, 15⟩).wait = none
    ∧ (let s := supervisor { sr := [(0x09E, 0x2000)] }
       s.plain ∧ s.cur.k = 15 ∧ bit (s.sr 0x013) 22 = false ∧ s.sr 0x09E ≠ 0)
    ∧ (supervisor {}).sr 0x09E = 0 ∧ bit ((supervisor { sr := [(0x013, 0x400000)] }).sr 0x013) 22 = true :=
  ⟨rfl, rfl, rfl, by decide, by decide, rfl, ⟨rfl, rfl, rfl, by decide⟩, rfl, rfl⟩

theorem test_meets_RefusedUnits : (thread {}).plain ∧ (thread {}).cur.k < 15 := ⟨rfl, by decide⟩

/-- A waiting context 15, and one that has an event record. -/
def eventState : State :=
  { (supervisor {}) with rills := [(0, { events := [{ cls := 1, cause := 0x10, val := 0, xstat := 3, rank := 0 }], sr := [(0x126, 1)] })] }

theorem test_meets_SystemCalls :
    (keeper { run := .stopped } [(8, 3), (9, 0)]).plain ∧ (keeper { run := .stopped } [(8, 3), (9, 0)]).clean 8
    ∧ (keeper { run := .stopped } [(8, 3), (9, 0)]).clean 9
    ∧ (thread {}).groupOf (thread {}).cur = none
    ∧ (∃ g, (grouped []).groupOf (grouped []).cur = some g ∧ (grouped []).wholeGroup g 8 = true)
    ∧ (let s := keeper { run := .stopped } [(8, 3), (9, 0)]
       s.cur.k = 15 ∧ (8 : BitVec 5) ≠ 0 ∧ field (s.val 8) 3 0 ≠ 15 ∧ (s.ctx { s.cur with k := field (s.val 8) 3 0 }).run = .stopped
         ∧ s.groupOf { s.cur with k := field (s.val 8) 3 0 } = none ∧ s.takeRecord s.cur.b s.cur.r = none)
    ∧ (let s := keeper { run := .running } [(8, 3), (9, 0)]
       (s.ctx { s.cur with k := field (s.val 8) 3 0 }).run ≠ .stopped)
    ∧ (∃ s1, eventState.takeRecord eventState.cur.b eventState.cur.r = some s1)
    ∧ (let s := supervisor { wait := some (.evwait (.g 1) 90) }
       (s.ctx ⟨0, 0, 15⟩).wait = some (.evwait (.g 1) 90) ∧ (90 : Nat) ≠ 0 ∧ (90 : Nat) ≤ s.cycle)
    ∧ (let s : State := { (thread {}) with cycle := 5000, rills := eventState.rills }
       (s.ctx ⟨0, 0, 0⟩).run = .running ∧ (s.ctx ⟨0, 0, 0⟩).dogged = false ∧ field (s.rillSr 0 0 0x126) 31 0 ≠ 0
         ∧ (s.ctx ⟨0, 0, 0⟩).lastIssue + field (s.rillSr 0 0 0x126) 31 0 * 1024 ≤ s.cycle ∧ (s.ctx ⟨0, 0, 15⟩).wait = none) :=
  ⟨rfl, ⟨rfl, rfl⟩, ⟨rfl, rfl⟩, rfl, ⟨_, rfl, rfl⟩, ⟨rfl, by decide, by decide, rfl, rfl, rfl⟩, by decide, ⟨_, rfl⟩, ⟨rfl, by decide, by decide⟩,
    rfl, rfl, by decide, by decide, rfl⟩

/-- A translation of 2 MiB from 0, and context 15 that names an image in it and context 3. -/
def page0 : TlbEntry := { basin := 0, asid := 0, va := 0, size := 0x200000, pa := 0, leaf := 0x103F }
def imageState (c : Ctx) : State :=
  { (keeper c [(8, 3), (9, 0x4000), (10, 15)]) with rills := [(0, { tlb := [page0] })], gchans := [(0, { state := .owned, basin := 0 })] }

theorem test_meets_ContextResults :
    (let s := keeper {} [(8, 3), (9, 0x4000), (10, 15)]
     s.plain ∧ s.cur.k = 15 ∧ s.clean 8 ∧ s.clean 9 ∧ s.ready 18 ∧ s.clean 10 ∧ field (s.val 8) 3 0 ≠ 15 ∧ field (s.val 10) 3 0 = 15
       ∧ (s.ctx { s.cur with k := 3 }).run = .empty ∧ goodTarget (s.val 9) ∧ field (s.val 9) 5 0 = 0)
    ∧ (let s := keeper { run := .running } [(8, 3)]
       (s.ctx { s.cur with k := 3 }).run = .running ∧ (s.ctx { s.cur with k := 3 }).stopBy = 0 ∧ (s.ctx { s.cur with k := 3 }).tx = none)
    ∧ (let s := thread { pc := 0x80 }
       let t : State := s.modCtx ⟨0, 0, 0⟩ fun c => { c with run := .stopping }
       (t.ctx ⟨0, 0, 0⟩).run = .stopping ∧ (t.ctx ⟨0, 0, 0⟩).tx = none ∧ (t.ctx ⟨0, 0, 0⟩).flights = [] ∧ t.groupOf ⟨0, 0, 0⟩ = none
         ∧ (t.rill 0 0).replay = [] ∧ (t.rill 0 0).winOp = none ∧ (t.ctx ⟨0, 0, 15⟩).wait = none)
    ∧ (let s := thread { halting := true }
       (s.ctx ⟨0, 0, 0⟩).halting = true ∧ (s.ctx ⟨0, 0, 0⟩).run = .running ∧ s.settled ⟨0, 0, 0⟩ = true ∧ (s.ctx ⟨0, 0, 0⟩).streams = []
         ∧ (s.ctx ⟨0, 0, 0⟩).cohort = none)
    ∧ (let s : State := { (thread { halting := true, cohort := some 9 }) with braids := [(0, { cohorts := [(9, cohort0)] })] }
       (s.ctx ⟨0, 0, 0⟩).cohort = some 9 ∧ (s.braid 0).cohorts.find 9 = some cohort0 ∧ s.settled ⟨0, 0, 0⟩ = true) :=
  ⟨⟨rfl, rfl, ⟨rfl, rfl⟩, ⟨rfl, rfl⟩, rfl, ⟨rfl, rfl⟩, by decide, rfl, rfl, ⟨rfl, rfl, rfl⟩, rfl⟩, ⟨rfl, rfl, rfl⟩, ⟨rfl, rfl, rfl, rfl, rfl, rfl, rfl⟩,
    ⟨rfl, rfl, rfl, rfl, rfl⟩, rfl, rfl, rfl⟩

theorem test_meets_ContextResults_image :
    (let s := imageState { run := .stopped }
     s.stoppedOf ⟨0, 0, 3⟩ = false ∧ s.saveReady ⟨0, 0, 3⟩ = true ∧ (reachFrom (s.val 9) true [] (imagePieces (s.val 9)) s).2.2 = none)
    ∧ (imageState { run := .stopped, streams := [(0, { (inStream 4 []) with flt := true })] }).stoppedOf ⟨0, 0, 3⟩ = true
    ∧ (let s := imageState {}
       let x := reachFrom (s.val 9) false [] (imagePieces (s.val 9)) s
       x.2.2 = none ∧ x.1.quietBefore = true ∧ (x.1.readImage x.2.1).wrong = true) := by
  decide +kernel
/-- The header of an image of an empty context 3 of rill 0, in the bytes of its first word; all other words are 0. -/
def header (ctx rill : Nat) : List Host.Cell :=
  [(0x4000, 0x09), (0x4001, 0x7E), (0x4002, 0x01), (0x4003, BitVec.ofNat 8 ctx)]
    ++ (if rill = 0 then [] else [(0x4004, BitVec.ofNat 8 rill)]) ++ [(0x4006, 0x01)]
def restoring (ctx rill : Nat) : State := { (imageState {}) with mem := { cells := header ctx rill } }
def readBack (s : State) : State × Img :=
  let x := reachFrom (s.val 9) false [] (imagePieces (s.val 9)) s
  (x.1, x.1.readImage x.2.1)

def image0 : Img := (0x0001000003017E09, false) :: List.replicate 1023 (0, false)

theorem image0_read : (readBack (restoring 3 0)).2 = image0 := by decide +kernel
theorem test_meets_ContextResults_restore : image0.wrong = false := by decide +kernel

theorem test_meets_ContextResults_other :
    field (image0.w 0) 27 24 = 3 ∧ field (image0.w 0) 43 32 = (readBack (restoring 3 0)).1.rillNumber 0 0
    ∧ (readBack (restoring 3 0)).1.noRoom ⟨0, 0, 3⟩ image0 = false := by decide +kernel
/-- A load that has failed to translate, alone in entry 0 of the replay queue of rill 0, and the keeper of that rill. -/
def failedLoad : Access := { id := 3, src := 3, seq := 0, kind := .load false, va := 0x1000, size := 8, dst := .g 1 }
def failedEntry : REntry := { pos := ⟨0, 0, 3⟩, seq := 0, cause := 0x0B, accs := [failedLoad] }
def replaying (l : Table REntry) : State :=
  { (imageState { run := .running, g := [(1, { full := false, src := 3 })] }) with
    ctxs := [(3, { run := .running, g := [(1, { full := false, src := 3 })] }), (15, { (regs [(8, 0), (9, 31), (10, 0x1000), (11, 0x0080000000000000)]) with run := .running })]
    rills := [(0, { tlb := [page0], replay := l })] }

theorem test_meets_TranslationResults :
    (replaying []).plain ∧ (replaying []).cur.k = 15 ∧ (replaying []).clean 8 ∧ (replaying []).clean 9 ∧ (replaying []).quietBefore = true
    ∧ (replaying []).myRill.replay.find 0 = none
    ∧ (let s := replaying [(0, failedEntry)]
       field (s.val 8) 4 0 = 0 ∧ s.myRill.replay.find 0 = some failedEntry ∧ s.myRill.chain failedEntry = some [(0, failedEntry)]
         ∧ (∃ s1 pa leaf, s.translate failedEntry.pos failedLoad.va failedLoad.kind.need = (s1, .ok pa leaf))
         ∧ (s.ctx failedEntry.pos).cellAt (.g 1) = { (s.ctx failedEntry.pos).cellAt (.g 1) with full := false, src := failedLoad.src })
    ∧ (let s := replaying [(0, failedEntry), (1, { failedEntry with accs := [{ failedLoad with id := 2 }] })]
       s.myRill.chain failedEntry = none)
    ∧ (replaying []).shotTx ((replaying []).basinOf (replaying []).cur.b)
        (tlbinvHits 2 ((replaying []).val 8) ((replaying []).val 9)) = []
    ∧ (let s := replaying []
       field (s.val 9) 5 0 ≠ 0 ∧ field (s.val 10) 5 0 = 0 ∧ field (s.val 10) 63 56 = 0 ∧ bit (s.val 10) 55 = false ∧ bit (s.val 11) 55 = true
         ∧ (s.val 9).toNat < 32 ∧ 32 ≤ (s.val 10).toNat ∧ ∃ s1, s.blockXlat (s.val 10) = (s1, none))
    ∧ (let q : AtsReq := { id := 3, pos := ⟨0, 0, 0⟩, asid := 0, va := 0x1000, write := false }
       let s : State := { (thread {}) with ats := [q] }
       s.ats.find? (fun q => q.id == 3 && q.phase == 0) = some q)
    ∧ (let q : AtsReq := { id := 3, pos := ⟨0, 0, 0⟩, asid := 0, va := 0x1000, write := false, phase := 1 }
       let s : State := { (thread {}) with ats := [q] }
       s.ats.find? (fun q => q.id == 3 && q.phase == 1) = some q) := by
  refine ⟨rfl, rfl, ⟨rfl, rfl⟩, ⟨rfl, rfl⟩, rfl, rfl, ⟨rfl, rfl, rfl, ⟨_, _, _, rfl⟩, rfl⟩, ?_, rfl, ⟨?_, rfl, rfl, rfl, rfl, ?_, ?_, _, rfl⟩, rfl, rfl⟩ <;> decide

/-- Context 15 of a braid that leaves in a resize at phase 2, and of one that has another beside it. -/
def resizing (z : Resize) : Basin := { alive := true, slices := [0], resize := some z }
def resize0 (ph : Nat) : Resize := { add := [], remove := [(0, 0)], deadline := 100, seq := 1, phase := ph, began := true }
def leaving (k : Ctx) : State :=
  { (keeper k [(8, 1 + 0x20000), (9, 0x1000), (10, ls), (11, 1)]) with
    braids := [(0, { gran := { state := .leaving, basin := 0 } })], basins := [(0, resizing (resize0 2))] }
def twoBraids : State :=
  { (keeper {} [(8, 0x10000), (9, 0)]) with
    braids := [(0, { gran := { state := .owned, basin := 0 } }), (1, { gran := { state := .owned, basin := 0 }, index := 1 })]
    basins := [(0, { alive := true, slices := [0] })] }

theorem test_meets_BasinResults :
    (leaving {}).plain ∧ (leaving {}).clean 8 ∧ (leaving {}).cur.k = 15 ∧ field ((leaving {}).val 8) 15 0 * 8 + field ((leaving {}).val 8) 18 16 = 10
    ∧ (leaving {}).phaseCode ((leaving {}).basinOf 0) = some 10 ∧ (leaving {}).phaseCode ((leaving {}).basinOf 0) ≠ some 8
    ∧ ((leaving {}).braid 0).gran.state = .leaving ∧ (leaving { run := .running }).rillEmpty 0 0 = false ∧ (leaving {}).rillEmpty 0 0 = true
    ∧ (twoBraids.basin 0).resize = none ∧ twoBraids.basinOf twoBraids.cur.b < 65536
    ∧ field (0x6000 : Word) 63 16 = 0 ∧ 5 < field (0x6000 : Word) 15 12
    ∧ addressFault ((leaving {}).val 9) 1 false true = none ∧ addressFault ((leaving {}).val 10) 1 false true = none
    ∧ bit ((leaving {}).val 9) 55 = false ∧ bit ((leaving {}).val 10) 55 = true
    ∧ (∃ s1 pa leaf, (imageState {}).translate (imageState {}).cur ((imageState {}).val 9) { r := true } = (s1, .ok pa leaf))
    ∧ (match ((leaving {}).translate (leaving {}).cur ((leaving {}).val 9) { r := true }).2 with | .fault _ _ => true | _ => false) = true
    ∧ field (twoBraids.val 8) 15 9 = 0 ∧ field (twoBraids.val 8) 63 25 = 0 ∧ twoBraids.braidAt 0 (field (twoBraids.val 8) 8 0) = some 0
    ∧ twoBraids.braidAt 0 (field (twoBraids.val 8) 24 16) = some 1 ∧ twoBraids.moveStatus 0 1 = 0 ∧ twoBraids.moveStatus 0 0 ≠ 0
    ∧ (twoBraids.braid 0).moving = false ∧ (twoBraids.braid 1).moving = false := by
  refine ⟨rfl, ⟨rfl, rfl⟩, rfl, ?_, ?_, ?_, ?_, ?_, ?_, ?_, ?_, ?_, ?_, ?_, ?_, ?_, ?_, ⟨_, _, _, rfl⟩, ?_, ?_, ?_, ?_, ?_, ?_,
    ?_, rfl, rfl⟩ <;> decide +kernel

/-- A state with a basin. -/
def withBasin (x : Basin) : State := { (thread {}) with cycle := 500000, basins := [(0, x)] }
/-- A rehash of the slices 0 to 1, and a line whose home moves. -/
def rehashing : Basin := { alive := true, slices := [0], nextSlices := some [1], resize := some (resize0 3) }

theorem test_meets_BasinEvents :
    (let s := withBasin { alive := true, waiting := [resize0 0] }
     (s.basin 0).contained = false ∧ (s.basin 0).alive = true ∧ (s.basin 0).resize = none ∧ (s.basin 0).waiting = resize0 0 :: [])
    ∧ (∀ ph ∈ [1, 2, 4, 5, 6], let s := withBasin (resizing (resize0 ph))
        (s.basin 0).resize = some (resize0 ph) ∧ (resize0 ph).began = true ∧ (s.basin 0).contained = false ∧ (resize0 ph).moves = []
          ∧ (∀ q ∈ (resize0 ph).notified, q ∈ (resize0 ph).acked) ∧ (resize0 ph).retire = none
          ∧ (∀ g ∈ (resize0 ph).remove, (s.gran g.1 g.2).state ≠ .scrubbing) ∧ (resize0 ph).since + (resize0 ph).deadline * 3300 ≤ s.cycle)
    ∧ (let s := withBasin rehashing
       (s.basin 0).nextSlices = some [1] ∧ s.locks = [] ∧ s.fanouts = [] ∧ s.toHand 0 64 = true ∧ s.locks.find 64 = none
         ∧ (withBasin {}).toHand 0 64 = false)
    ∧ (∀ kind < 5, let s : State := { (thread {}) with
          braids := [(0, { gran := { state := .scrubbing, sweeps := 3 } })], gslices := [(0, { state := .scrubbing })]
          gchans := [(0, { state := .scrubbing, sweeps := 3 })]
          cores := [(0, { gran := { state := .scrubbing } })], vfs := [(0, { gran := { state := .scrubbing } })] }
        (s.gran kind 0).state = .scrubbing ∧ (s.gran kind 0).retiring = false ∧ (kind ∈ [0, 2] → 3 ≤ (s.gran kind 0).sweeps))
    ∧ (let z := { resize0 2 with retire := some (0, 0) }
       let s : State := { (withBasin (resizing z)) with ctxs := [], braids := [(0, { gran := { state := .owned, basin := 0 } })] }
       (s.basin (s.basinOf 0)).resize = some z ∧ z.worked = false ∧ (∀ k < 16, (s.ctx ⟨0, 0, k⟩).run ≠ .running) ∧ s.rillIdle 0 0 = true
         ∧ (s.braid 0).spare = some 8)
    ∧ (let s : State := { (withBasin { alive := true }) with
          braids := [(0, { gran := { state := .owned, basin := 0 } })], rills := [(0, { corrected := List.replicate 64 5 })] }
       64 < (((s.rill 0 0).corrected.filter fun t => decide (s.cycle < t + 3300000000)) ++ [s.cycle]).length
         ∧ (s.braid 0).spare.isSome = true ∧ (s.braid 0).gran = { state := .owned, basin := 0 } ∧ (s.basin 0).resize = none
         ∧ (s.basin 0).waiting = [])
    ∧ (thread {}).mem.isLost (8 * 64) = false ∧ ((leaving {}).braid 0).gran.state ≠ .free
    ∧ (let s : State := { (thread {}) with braids := [(0, { l1 := [(64, { place := 8 })] })] }
       (s.braid 0).l1.find 64 = some { place := 8 }) := by
  refine ⟨⟨rfl, rfl, rfl, rfl⟩, ?_, ⟨rfl, rfl, rfl, ?_, rfl, rfl⟩, ?_, ⟨rfl, rfl, ?_, rfl, rfl⟩, ⟨?_, rfl, rfl, rfl, rfl⟩, rfl, ?_, rfl⟩ <;> decide +kernel
/-- A call of the host that stands first, with the words given in its block; braid 0, core 0, VF 1 and channel 5 are
of basin 0. -/
def hostCall (k : Nat) : Call := { id := 3, caller := 64, service := k }
def called (k : Nat) (ws : Table Word) : State :=
  { (thread {}) with
    calls := [hostCall k], mailbox := ws, basins := [(0, { alive := true, slices := [0] })]
    braids := [(0, { gran := { state := .owned, basin := 0 } })], cores := [(0, { gran := { state := .owned, basin := 0 } })]
    vfs := [(1, { gran := { state := .owned, basin := 0 } })], gchans := [(5, { state := .owned, basin := 0 })]
    gslices := [(0, { state := .owned, basin := 0 })] }

theorem test_meets_services : ∀ k < 32,
    (called k []).nextCall k = some (hostCall k) ∧ ((called k []).takeCall (hostCall k)).unverified k = false
    ∧ unnamedZero k ((List.range 32).map fun i => (called k []).blockWord (hostCall k) [] i) = true
    ∧ field ((called k []).blockWord (hostCall k) [] 0) 63 6 = 0
    ∧ (((called k []).takeCall (hostCall k)).basin (field ((called k []).blockWord (hostCall k) [] 0) 5 0)).alive = true := by
  decide +kernel

/-- Every service admits the host's call. -/
theorem test_meets_admits (k : Nat) (h : k < 32) :
    (called k []).admits k (hostCall k) [] ((List.range 32).map fun i => (called k []).blockWord (hostCall k) [] i)
      ((called k []).takeCall (hostCall k)) :=
  let m := test_meets_services k h
  ⟨m.1, _, rfl, rfl, rfl, m.2.1, .inl rfl, m.2.2.2.1, m.2.2.1, .inr (.inl ⟨rfl, .inr m.2.2.2.2⟩)⟩

/-- The host's buffer at bus address 0x1000, and what it holds where nothing is written. -/
theorem test_meets_BasinServices :
    (∀ n ∈ [512, 576, 1024], ∀ w : Bool, ∃ s3 qs, (called 1 []).buffer (hostCall 1) 0x1000 n w = (s3, .at qs) ∧ mapLegal (s3.bufValue qs) = true)
    ∧ (let s : State := { (called 1 []) with mem := { cells := [(hostAddr 0x1040, 2)] } }
       ∃ s3 qs, s.buffer (hostCall 1) 0x1000 512 false = (s3, .at qs)
         ∧ ((granuleOrder (mapGranules (s3.bufValue qs))).filter fun g => g.1 == 1).map Prod.snd = [1]
         ∧ (∀ g ∈ mapGranules (s3.bufValue qs), s3.available g = true) ∧ s3.freeBasins ≠ [])
    ∧ checkResize 0 [] [] [] 100 (called 3 []) = 0 ∧ checkResize 0 [(1, 0)] [] [] 100 (called 3 []) = 3 ∧ (99 : Nat) < 100
    ∧ (∀ e ∈ [(3, 0), (4, 1)], (called 5 []).grants 0 e.1 e.2 = true) ∧ (called 5 []).grants 0 4 2 = false ∧ (called 5 []).grants 0 3 1 = false
    ∧ ((called 11 []).cores.get {} 0).run = 0
    ∧ (let s : State := { (called 11 []) with cores := [(0, { gran := { state := .owned, basin := 0 }, run := 1 })] }
       (s.cores.get {} 0).run ≠ 0)
    ∧ (∀ q ∈ (called 31 []).calls, ¬ (q.caller = 64 ∧ q.slot = 1))
    ∧ (let s : State := { (called 31 []) with calls := [{ hostCall 31 with phase := 2 }] }
       s.calls.find? (fun q => q.id == 3 && q.phase == 2) = some { hostCall 31 with phase := 2 })
    ∧ (let q : Call := { id := 3, caller := 0, service := 31, phase := 2 }
       let s : State := { (thread { wait := some (.service (.g 1) 3) }) with calls := [q] }
       s.calls.find? (fun q => q.id == 3 && q.phase == 2) = some q ∧ (s.ctx q.pos).wait = some (.service (.g 1) 3)) := by
  refine ⟨?_, ⟨_, _, rfl, ?_, ?_, ?_⟩, ?_, ?_, ?_, ?_, rfl, rfl, rfl, ?_, ?_, rfl, rfl, rfl⟩
  · intro n h w
    simp only [List.mem_cons, List.not_mem_nil, or_false] at h
    rcases h with rfl | rfl | rfl <;> cases w <;> exact ⟨_, _, rfl, by decide +kernel⟩
  all_goals decide +kernel
def bufPieces : Buf → List (Nat × Nat)
  | .at ps => ps
  | _ => []
theorem buffer_at (s : State) (c : Call) (va : Word) (n : Nat) (w : Bool)
    (h : (s.buffer c va n w).2 = .at (bufPieces (s.buffer c va n w).2)) :
    s.buffer c va n w = ((s.buffer c va n w).1, .at (bufPieces (s.buffer c va n w).2)) := Prod.ext rfl h
theorem test_meets_PackageServices :
    (called 14 []).grants 0 2 5 = true ∧ (called 14 []).grants 0 2 6 = false
    ∧ (∃ s3 qs, (called 15 []).buffer (hostCall 15) 0x1000 (64 * ((called 15 []).errlog.take 0).length) true = (s3, .at qs))
    ∧ (called 17 []).gran 2 7 = {} ∧ (called 17 []).gran 2 5 = { state := .owned, basin := 0 } ∧ ((called 17 []).basin 0).contained = false
    ∧ ((called 17 []).basin 0).waiting = [] ∧ ((called 17 []).braid 0).l2p = [] ∧ ((called 17 []).braid 0).spare.isSome = true
    ∧ ((called 17 []).braid 0).gran = { state := .owned, basin := 0 }
    ∧ (∃ s3 qs, (called 18 []).buffer (hostCall 18) 0x1000 512 true = (s3, .at qs)
        ∧ ∃ s4 ps, (storeBuf qs (granuleMap (called 18 []).spareGranules) s3).buffer (hostCall 18) 0x2000 576 true = (s4, .at ps))
    ∧ (∃ s3 qs, (called 25 []).buffer (hostCall 25) 0x1000 48 true = (s3, .at qs))
    ∧ ((called 23 []).images.get {} 1).staged = none
    ∧ (let s : State := { (called 24 []) with images := [(1, { staged := some { version := 5 } })] }
       (s.images.get {} 1).staged = some { version := 5 })
    ∧ measured 0x50 = none ∧ (∃ k, measured 1 = some k)
    ∧ (∃ s3 qs, (called 26 []).buffer (hostCall 26) 0x1000 256 false = (s3, .at qs) ∧ ∀ p < 256, s3.bufValue qs / 256 ^ p % 256 < 12)
    ∧ (let s : State := { (called 26 []) with mem := { cells := [(hostAddr 0x1003, 12)] } }
       ∃ s3 qs, s.buffer (hostCall 26) 0x1000 256 false = (s3, .at qs) ∧ 12 ≤ s3.bufValue qs / 256 ^ 3 % 256 ∧ s3.bufValue qs / 256 ^ 3 % 256 ≠ 255)
    ∧ (1 : Nat) ≠ (called 28 []).zclNumber ∧ (∃ s3 qs, (called 28 []).buffer (hostCall 28) 0x1000 64 false = (s3, .at qs) ∧ s3.zclIn = []) := by
  refine ⟨?_, ?_, ⟨_, _, rfl⟩, rfl, rfl, rfl, rfl, rfl, rfl, rfl,
    ⟨_, _, buffer_at _ _ _ _ _ (by decide +kernel), _, _, buffer_at _ _ _ _ _ (by decide +kernel)⟩, ⟨_, _, rfl⟩, rfl, rfl, ?_, ⟨_, rfl⟩, ⟨_, _, rfl, ?_⟩,
    ⟨_, _, rfl, ?_, ?_⟩, ?_, _, _, rfl, rfl⟩ <;> decide +kernel

/-- A package with an open window and a granted channel, rings, a running core with a message, and a budget. -/
def package : State :=
  { (called 0 []) with
    windows := [5], zclOut := [(1 * 512 + 5, 0)], cycle := 3300000000, budget := some 4
    basins := [(0, { alive := true, slices := [0], hmsg := some { vf := 1, k := 4 }, queues := [(0, { enable := true, vf := 1 })] })]
    vfs := [(1, { gran := { state := .owned, basin := 0 }, notify := some { vf := 1, k := 4, overflow := true } })]
    cores := [(0, { gran := { state := .owned, basin := 0 }, run := 1, fifo := [(3, 1, 2)], pending := 8, resv := some (5 * 2 ^ 25) })] }

theorem test_meets_PackageEvents :
    (5 * 0x80000000 < 1099511627776) ∧ 5 * 0x80000000 / 2 ^ 31 ∈ package.windows ∧ package.lineFree (lineOf (5 * 0x80000000)) true = true
    ∧ package.requests = [] ∧ package.mem.read (5 * 0x80000000) 8 = (0 : Word).toNat ∧ package.mem.read (5 * 0x80000000) 8 ≠ (1 : Word).toNat
    ∧ 6 * 0x80000000 / 2 ^ 31 ∉ package.windows ∧ package.lineFree (2 ^ 54 + 9) true = true
    ∧ (package.basin 0).hmsg = some { vf := 1, k := 4 } ∧ (package.vfs.get {} 1).notify = some { vf := 1, k := 4, overflow := true }
    ∧ package.coreBasin 0 = some 0 ∧ field (0x1000 : Word) 6 0 = 0 ∧ field (0x1001 : Word) 6 0 ≠ 0
    ∧ (package.cores.get {} 1).fifo = [] ∧ (package.cores.get {} 0).fifo = (3, 1, 2) :: [] ∧ 3 ∉ package.mem.lost
    ∧ 1 * 512 + 5 * 0x80000000 / 2 ^ 31 ∈ (package.zclOut.filter fun g => (package.gchans.get {} (5 * 0x80000000 / 2 ^ 31)).ownedBy g.2).map Prod.fst
    ∧ package.lineFree (lineOf (5 * 0x80000000)) false = true ∧ package.owns 0 (5 * 0x80000000) = true
    ∧ (package.cores.get {} 0).resv = some (lineOf (5 * 0x80000000)) ∧ (package.cores.get {} 0).resv ≠ some (lineOf 0)
    ∧ package.verified = false ∧ 3300000000 ≤ package.cycle ∧ (called 0 []).budget = none ∧ package.budget.isSome = true := by
  decide +kernel

/-- A record that an application core has placed in pages that the lowest rill of its basin translates. -/
theorem test_meets_PackageEvents_record :
    let s : State := { package with
      rills := [(0, { tlb := [{ basin := 0, asid := 0, va := 0x1000, size := 4096, pa := 5 * 0x80000000, leaf := 0x103F }] })] }
    (match recordWords 0 ((s.basin 0).queues.get {} 0).aspace 0x1000 16 s with
      | (_, some (some _)) => true
      | _ => false) = true := by decide +kernel

theorem test_meets_EncodingsAgree :
    (Instr.add 18 8 9).wf = true ∧ encode (.add 18 8 9) = some ⟨32, 0x83242400⟩ ∧ 2147483648 ≤ 0x83242400 ∧ 0x83242400 < 4294967296
    ∧ decode32 0x83242400 = .ok (.add 18 8 9) ∧ decode16 0x060A = .ok (.movH 16 10) := by
  refine ⟨?_, ?_, ?_, ?_, rfl, rfl⟩ <;> decide +kernel

/-- Context 15 of rill 0 after reset with ADD s0, a0, a1 placed for it, and the thread about to issue it. -/
def booted : State := State.reset.withFetchWord 32 0x83242400
def aboutToIssue : State := { booted with grant := none }

theorem test_meets_StepRuns :
    booted.agenda = [] ∧ booted.grant = some bootPos ∧ (booted.ctx bootPos).wait = none ∧ booted.groupOf bootPos = none
    ∧ aboutToIssue.canIssue bootPos = true ∧ aboutToIssue.abortAsked bootPos = false ∧ (booted.ctx bootPos).lookaheadFull = false
    ∧ (∃ s1 d, aboutToIssue.fetch bootPos (booted.ctx bootPos).pc = (s1, .line d) ∧ s1.groupOf bootPos = none
        ∧ decodeUnit d (booted.ctx bootPos).pc
            = { act := .instr (.add 18 8 9), pfx := none, len := 2, words := 0x83242400, iword := 0x83242400 }
        ∧ poisonedUnit d ((booted.ctx bootPos).pc.toNat % 64) 2 = false ∧ (s1.ctx bootPos).team = none
        ∧ (s1.ctx bootPos).breaksCapture { act := .instr (.add 18 8 9), len := 2, words := 0x83242400, iword := 0x83242400 } = false
        ∧ (s1.enter { act := .instr (.add 18 8 9), len := 2, words := 0x83242400, iword := 0x83242400 } [bootPos]).overBudget bootPos = false
        ∧ isGuard (halfAt d 0) = false ∧ isGuard (halfAt d ((booted.ctx bootPos).pc.toNat % 64)) = false)
    ∧ (∃ i rest, ({ booted with agenda := [.keepaliveLoss 3] } : State).agenda = i :: rest) ∧ State.reset.agenda = [] ∧ State.reset.grant = none := by
  refine ⟨rfl, rfl, rfl, rfl, ?_, rfl, rfl, ⟨_, _, rfl, ?_, ?_, ?_, ?_, ?_, ?_, ?_, ?_⟩, ⟨_, _, rfl⟩, rfl, rfl⟩ <;> decide +kernel

/-- The instruction placed for the first step after reset has run: its thread is past it. -/
theorem test_first_step : after (fun t => (t.ctx bootPos).pc) (step booted) = some ((booted.ctx bootPos).pc + 4) := by decide +kernel

theorem test_meets_StepKeepsCanonical : MemoryCanonical State.reset ∧ (∃ t, step State.reset = .next t) := ⟨reset_memory_canonical, _, rfl⟩

theorem test_meets_RegisterFrames :
    (∃ x ∈ plainAccesses mem0 18 8 9 3 3 3 1 15, mem0.plain ∧ mem0.ready 18 ∧ mem0.clean 8 ∧ mem0.clean 9 ∧ 0 < mem0.myRill.replayRoom
      ∧ addressFault x.acc.va x.acc.size false true = none ∧ ∃ s1 a1, mem0.passes x.acc s1 a1)
    ∧ (∃ t, exec (.add 18 8 9) mem0 = .next t) ∧ (∃ t, exec (.pand 1 2 3) mem0 = .next t)
    ∧ (∃ x ∈ branches mem0 0 0 8 9 0 4 4 4 4, x.2.1 = true ∧ goodTarget x.2.2 ∧ mem0.cleanQ 0) :=
  ⟨⟨_, List.mem_cons_self, rfl, rfl, ⟨rfl, rfl⟩, ⟨rfl, rfl⟩, by decide, rfl, _, _, rfl⟩, ⟨_, rfl⟩, ⟨_, rfl⟩,
    ⟨_, List.mem_cons_self, rfl, ⟨rfl, rfl, rfl⟩, rfl, rfl⟩⟩

theorem test_meets_BitFieldFunctions :
    (1 : Nat) ≤ 64 ∧ (let s := thread { win := [(32754 + 8, { val := 1, poison := true })] }
      s.ready 18 ∧ s.ready 8 ∧ s.ready 9 ∧ s.bad 18 = true) := ⟨by decide, rfl, rfl, rfl, rfl⟩

/-! ### The further hypotheses of the statements -/

/-- The thread of a call at depth 2050, with n windows resident and a return address in ra. -/
def called2 (n : Nat) : State := thread { win := [(32799, { val := 0x80 })], depth := 2050, resident := n }

theorem test_meets_JumpResults_windows :
    (∀ n ∈ [1, 2], (called2 n).me.resident < 3) ∧ ((called2 3).me.resident = 3 ∧ (called2 3).moving false = false)
    ∧ (called2 2).clean 23 ∧ goodTarget ((called2 2).val 23) ∧ ((called2 2).me.resident = 2 ∧ (called2 2).moving true = false)
    ∧ 2 < (called2 3).me.resident ∧ (called2 2).tokenInWindow = false ∧ (called2 2).closesD0 = false :=
  ⟨by decide, ⟨rfl, rfl⟩, ⟨rfl, rfl⟩, ⟨rfl, rfl, rfl⟩, ⟨rfl, rfl⟩, by decide, rfl, rfl⟩

/-- A thread whose unit u is held, between neighbours that await their register 1, beside shared register 1. -/
def holding (h : Hold) (u : Instr) (full : Bool) : State :=
  { (thread {}) with
    cycle := 112
    ctxs := [(0, { run := .running, held := some h, heldUnit := some u, heldLen := 2, pc := 0x40 }),
      (16, { run := .running, g := [(1, { full := false })] }), (112, { run := .running, g := [(1, { full := false })] })]
    rills := [(0, { m := [(1, { full := full })] })] }

/-- The state in which a held unit of the thread at p is tried again. -/
noncomputable def retrying (s : State) (p : Pos) : State :=
  let c := s.ctx p
  { (s.begin p) with cur := p, upc := c.pc, ipc := c.pc + w64 (2 * (c.heldLen - 2)), ulen := c.heldLen
                     cond := true, xlanes := 2 ^ p.r }

def sharedUnits : List Instr := [.mrdfe 9 1, .mrdff 9 1, .mwrfe 1 8, .mwrff 1 8, .mfeclr 1]

theorem test_meets_NeighbourWrites_shared :
    ∀ u ∈ sharedUnits, ∀ full : Bool, let s := holding .shared u full
      let c := s.ctx ⟨0, 0, 0⟩
      c.run = .running ∧ s.cycle % 16 = 0 ∧ c.triedAt ≤ s.cycle ∧ s.groupOf ⟨0, 0, 0⟩ = none
        ∧ s.offered.contains (usedKey ⟨0, 0, 0⟩) = false ∧ c.held = some .shared ∧ s.txDepth ⟨0, 0, 0⟩ = 0
        ∧ (s.rill 0 0).isReserved s.cycle 1 = false ∧ c.heldUnit = some u ∧ (c.reg 8).full = true
        ∧ ((s.rill 0 0).shared s.cycle 1).full = full := by decide

theorem test_meets_NeighbourWrites_runs :
    ∀ u ∈ sharedUnits, ∃ t, exec u (retrying (holding .shared u false) ⟨0, 0, 0⟩) = .next t := by
  intro u h
  simp only [sharedUnits, List.mem_cons, List.not_mem_nil, or_false] at h
  rcases h with rfl | rfl | rfl | rfl | rfl <;> exact ⟨_, rfl⟩

theorem test_meets_NeighbourWrites_neighbours :
    ∀ u ∈ [Instr.nwrE 0 8, .nwrE 1 8, .nwrW 0 8, .nwrW 1 8], let s := holding .neighbour u false
      let c := s.ctx ⟨0, 0, 0⟩
      c.run = .running ∧ s.cycle % 16 = 0 ∧ c.triedAt ≤ s.cycle ∧ s.groupOf ⟨0, 0, 0⟩ = none
        ∧ s.offered.contains (usedKey ⟨0, 0, 0⟩) = false ∧ c.held = some .neighbour ∧ s.txDepth ⟨0, 0, 0⟩ = 0
        ∧ c.heldUnit = some u ∧ (c.reg 8).full = true
        ∧ (retrying s ⟨0, 0, 0⟩).nwrAccepts ⟨0, 1, 0⟩ 1 = true ∧ (retrying s ⟨0, 0, 0⟩).nwrAccepts ⟨0, 7, 0⟩ 1 = true := by decide

theorem test_meets_NeighbourWrites_nwrE :
    ∃ t, exec (.nwrE 1 8) (retrying (holding .neighbour (.nwrE 1 8) false) ⟨0, 0, 0⟩) = .next t := ⟨_, rfl⟩

theorem test_meets_SlotsAndWindows_marks :
    (let s : State := { (thread {}) with cycle := 112 }
     s.offered.contains (⟨0, 0, 0⟩ : Pos).key = false ∧ s.offered.contains (usedKey ⟨0, 0, 0⟩) = false
       ∧ s.offered.contains (slackKey 0 0) = false)
    ∧ 1 < (called2 2).me.resident
    ∧ (let s : State := { (thread { depth := 2050, resident := 1 }) with rills := [(0, { winOp := some { k := 0, spill := false, slots := 9 } })] }
       (∃ op, (s.rill 0 0).winOp = some op ∧ 9 ≤ op.slots ∧ op.spill = false)
         ∧ (s.srAt ⟨0, 0, 0⟩ 0x030).toNat < (s.srAt ⟨0, 0, 0⟩ 0x031).toNat + 136)
    ∧ (let s : State := { (thread { depth := 2050, resident := 1, sr := [(0x030, 136)] }) with
          rills := [(0, { winOp := some { k := 0, spill := false, slots := 9 } })] }
       (s.srAt ⟨0, 0, 0⟩ 0x031).toNat + 136 ≤ (s.srAt ⟨0, 0, 0⟩ 0x030).toNat
         ∧ ∀ i < 17, s.overwritten (lsAddr 0 0 (136 - 136) + 8 * i) ((s.ctx ⟨0, 0, 0⟩).frames.find (frameKey (lsAddr 0 0 0 + 8 * i))) = false) :=
  ⟨⟨rfl, rfl, rfl⟩, by decide, ⟨⟨_, rfl, by decide, rfl⟩, by decide⟩, by decide, by decide⟩

/-- A fifth window for which the stack has no room, and a return from the only window with none spilled. -/
theorem test_meets_JumpResults_overflow :
    (let s := thread { (regs [(8, 0x80)]) with depth := 2052, resident := 4, sr := [(0x032, 136), (0x030, 8)] }
     4 ≤ s.me.resident ∧ s.moving true = false ∧ min (s.sr 0x032).toNat 0x30000 < (s.sr 0x030).toNat + 136 ∧ s.clean 8
       ∧ goodTarget (s.val 8) ∧ goodTarget (s.ipc + 2 * (4 : BitVec 20).signExtend 64))
    ∧ (let s := called2 1
       s.clean 23 ∧ goodTarget (s.val 23) ∧ s.me.resident ≤ 1 ∧ (s.sr 0x030).toNat < (s.sr 0x031).toNat + 136 ∧ s.plain
         ∧ s.closesD0 = false) :=
  ⟨⟨by decide, rfl, by decide, ⟨rfl, rfl⟩, ⟨rfl, rfl, rfl⟩, rfl, rfl, rfl⟩, ⟨rfl, rfl⟩, ⟨rfl, rfl, rfl⟩, by decide, by decide, rfl, rfl⟩

/-- A thread with REJOIN entries 0 and 1, of which the second is for the instruction at 0x40, with a mask. -/
def rejoining (mask : Nat) : State :=
  thread { sr := [(0x090, 0x03000000000000A1), (0x091, w64 (mask * 2 ^ 56 + 0x41)), (0x060, 0x0000006400000007)] }

theorem test_meets_GroupResults_rejoin :
    (∀ m ∈ [3, 2, 1], let s := rejoining m
      s.unfused = true ∧ bit (s.sr (0x090 + 1)) 0 = true ∧ field (s.sr (0x090 + 1)) 55 1 = field s.ipc 55 1
        ∧ (∀ j < 1, bit (s.sr (0x090 + j)) 0 = true → field (s.sr (0x090 + j)) 55 1 ≠ field s.ipc 55 1))
    ∧ (hasBit (field ((rejoining 3).sr 0x091) 63 56) 0 = true ∧ 2 ≤ countOnes 8 (field ((rejoining 3).sr 0x091) 63 56)
        ∧ (rejoining 3).cur.k ≠ 15)
    ∧ hasBit (field ((rejoining 2).sr 0x091) 63 56) 0 = false ∧ countOnes 8 (field ((rejoining 1).sr 0x091) 63 56) < 2
    ∧ ((List.range 8).filter fun i => bit ((rejoining 3).sr (0x090 + i)) 0) = [0, 1] := by decide

/-- HALT.H of one lane of a group of three, and of one of two; and of a whole group. -/
def haltGroup (mask active : Nat) (x : Nat) : State :=
  { (thread {}) with
    ctxs := (List.range 3).map (fun r => (16 * r, { run := .running })), xlanes := x
    braids := [(0, { groups := [{ k := 0, mask := mask, active := active, pc := 0x40 }] })] }

theorem test_meets_GroupResults_halt :
    ∀ z ∈ [(7, 7, 1, [0], 6), (3, 3, 1, [0], 2), (3, 3, 3, [0, 1], 0)], let s := haltGroup z.1 z.2.1 z.2.2.1
      s.plain ∧ s.unfused = false ∧ s.actingOutsideTx.head? = some s.cur.r ∧ s.actingOutsideTx = z.2.2.2.1
        ∧ ∃ g, s.groupOf s.cur = some g ∧ maskMinus g.mask (s.actingOutsideTx.foldl (fun m r => m + 2 ^ r) 0) = z.2.2.2.2 := by
  intro z h
  simp only [List.mem_cons, List.not_mem_nil, or_false] at h
  rcases h with rfl | rfl | rfl <;> exact ⟨rfl, rfl, rfl, rfl, _, rfl, rfl⟩

/-- Accesses whose results go to a register of the window and to the ox file, each as it waits for them. -/
def waitingIn (d : Dest) (a : Access) (st : Nat) : State :=
  let c : Ctx := { win := [(3, { full := false, src := 3 })], ox := [(2, { full := false, src := 3 })]
                   flights := [{ a with dst := d, stage := st }] }
  { (thread c) with requests := if st = 0 then [] else [(⟨0, 0, 0⟩, { a with dst := d, stage := st })] }

theorem test_meets_places : ∀ d ∈ [Dest.win 3, .ox 2],
    (let s := waitingIn d loadAcc 0
     let a := { loadAcc with dst := d }
     s.flight ⟨0, 0, 0⟩ 3 = some a ∧ s.mayPerform ⟨0, 0, 0⟩ a = true ∧ s.arrived ⟨0, 0, 0⟩ a = true
       ∧ (s.ctx ⟨0, 0, 0⟩).cellAt d = { (s.ctx ⟨0, 0, 0⟩).cellAt d with full := false, src := 3 })
    ∧ (let s := waitingIn d amoAcc 2
       let a := { amoAcc with dst := d }
       s.requests.find? (fun q => q.2.id == 3 && q.2.stage == 2) = some (⟨0, 0, 0⟩, a) ∧ s.mayPerform ⟨0, 0, 0⟩ a = true
         ∧ (s.ctx ⟨0, 0, 0⟩).cellAt d = { (s.ctx ⟨0, 0, 0⟩).cellAt d with full := false, src := 3 })
    ∧ (let l : Landing := { id := 3, due := 100, k := 0, dst := d, val := 6, poison := false }
       let s : State := { (waitingIn d loadAcc 0) with rills := [(0, { landings := [l] })] }
       ((s.rill 0 0).landings.find? fun l => l.k == 0 && decide (l.due ≤ s.cycle)) = some l
         ∧ (s.ctx ⟨0, 0, 0⟩).cellAt d = { (s.ctx ⟨0, 0, 0⟩).cellAt d with full := false, src := 3 }) := by decide

/-- A VEXT of element 1 of v2, and its result in a register of the window. -/
def vextEntry (d : Dest) : VEntry := { (vEntry 0x31 5 0 2 0 0 6) with id := 3, y := 1, dst := d }

theorem test_meets_VectorExecution_general : ∀ d ∈ [Dest.g 1, .win 3],
    (let s := thread { g := [(1, { full := false, src := 3 })], win := [(3, { full := false, src := 3 })], vseq := [vextEntry d] }
     (s.rill 0 0).vNext = 0 ∧ (s.ctx ⟨0, 0, 0⟩).run = .running ∧ (s.ctx ⟨0, 0, 0⟩).vIdleBlock = none
       ∧ (s.ctx ⟨0, 0, 0⟩).vHead = some (vextEntry d, true) ∧ s.vReady ⟨0, 0, 0⟩ (vextEntry d) = true
       ∧ (s.ctx ⟨0, 0, 0⟩).streams = [] ∧ (vextEntry d).major = 0x31 ∧ (vextEntry d).fn = 5)
    ∧ (let x : VResult := { vaddResult with id := 3, dst := d }
       let s := thread { g := [(1, { full := false, src := 3 })], win := [(3, { full := false, src := 3 })], vres := [x] }
       (s.ctx ⟨0, 0, 0⟩).vres.find? (fun x => decide (x.due ≤ s.cycle)) = some x ∧ x.last = true
         ∧ (s.ctx ⟨0, 0, 0⟩).cellAt d = { (s.ctx ⟨0, 0, 0⟩).cellAt d with full := false, src := x.id }) := by decide

/-- Registers whose writes have an effect of their own. -/
theorem test_meets_SystemRegisters_effects :
    ∀ e ∈ [((5 : BitVec 5), (0 : BitVec 4), (0x050 : Nat)), (8, 0, 0x080), (16, 1, 0x101), (18, 2, 0x122), (18, 5, 0x125)],
      let s := supervisor (regs [(9, 1)])
      srNumber 0 e.1 e.2.1 = e.2.2 ∧ srAssigned e.2.2 = true ∧ s.cur.k = 15 ∧ s.srWaits s.cur e.2.2 = false := by decide

/-- An entry of the spill area that a commit applies. -/
def spilling : Tx := { emptyTx with reads := [readEntry], spilled := [readEntry], spill := ls, commit := 2, awaiting := [0, 7] }

theorem test_meets_TxEvents_spilled :
    (let s : State := { (thread { tx := some spilling, sr := [(0x050, 1)] }) with basins := [(0, { alive := true, slices := [0] })] }
     (s.ctx ⟨0, 0, 0⟩).tx = some spilling ∧ ((spilling.writes ++ spilling.spilled).filter fun e =>
         s.homeSlice (s.basinOf 0) (8 * e.word) == 0) = [readEntry] ∧ spilling.writes = [] ∧ spilling.spilled = [readEntry]
       ∧ (spilling.awaiting.filter fun x => x != 0) ≠ [])
    ∧ (committing 2).spilled = [] := ⟨⟨rfl, rfl, rfl, rfl, by decide⟩, rfl⟩

/-- A context that a supervisor starts, or resumes, in a braid that a CMIG moves; images that are not aligned. -/
theorem test_meets_ContextResults_traps :
    (∀ c ∈ [({ run := .stopped } : Ctx), {}], let s : State := { (keeper c [(8, 3), (9, 0x80)]) with braids := [(0, { moving := true })] }
      s.plain ∧ (s.braid s.cur.b).moving = true ∧ goodTarget (s.val 9) ∧ s.groupOf { s.cur with k := field (s.val 8) 3 0 } = none
        ∧ (s.ctx { s.cur with k := field (s.val 8) 3 0 }).run = c.run)
    ∧ (∀ c ∈ [({ run := .stopped } : Ctx), {}], let s := keeper c [(8, 3), (9, 0x4010)]
        field (s.val 9) 5 0 ≠ 0 ∧ (s.ctx { s.cur with k := field (s.val 8) 3 0 }).run = c.run)
    ∧ ((keeper {} [(8, 15)]).ctx { (keeper {} [(8, 15)]).cur with k := 15 }).run = .running
    ∧ ((keeper {} [(8, 3), (9, 0)]).braid 0).moving = false := by
  refine ⟨?_, ?_, rfl, rfl⟩ <;> intro c h <;> simp only [List.mem_cons, List.not_mem_nil, or_false] at h <;> rcases h with rfl | rfl
  · exact ⟨rfl, rfl, ⟨rfl, rfl, rfl⟩, rfl, rfl⟩
  · exact ⟨rfl, rfl, ⟨rfl, rfl, rfl⟩, rfl, rfl⟩
  · exact ⟨by decide, rfl⟩
  · exact ⟨by decide, rfl⟩

/-- Rings that HMSGQ-CONFIG refuses for their size, and removes. -/
theorem test_meets_BasinServices_rings :
    (field (3 : Word) 3 0 < 4 ∧ 12 < field (13 : Word) 3 0 ∧ 4 ≤ field (4 : Word) 3 0 ∧ field (4 : Word) 3 0 ≤ 12)
    ∧ field (0 : Word) 10 0 = 0 ∧ 1024 < field (1025 : Word) 10 0 ∧ field (1 : Word) 10 0 ≤ 1024
    ∧ (called 8 []).grants 0 4 1 = true := by decide +kernel

/-- A move of context 3 of braid 0, of braid 1 that has none; a destroyed granule that is marked. -/
theorem test_meets_BasinResults_move :
    (let s := keeper { run := .stopped } []
     (s.ctx ⟨0, 0, 3⟩).run ≠ .empty ∧ (s.ctx ⟨0, 1, 3⟩).run = .empty) := ⟨by decide, rfl⟩

theorem test_meets_ShortAndCacheIssue_joined : (mem1.braid mem1.cur.b).cut = false
    ∧ (∃ s1 pa leaf, mem1.translate mem1.cur (setField (mem1.val 8) 5 0 0) { r := true } = (s1, .ok pa leaf) ∧ (s1.braid mem1.cur.b).cut = false) :=
  ⟨rfl, _, _, _, rfl, rfl⟩

theorem test_meets_AccessesPerform_arrived :
    underWay.arrived ⟨0, 0, 0⟩ loadAcc = true ∧ underWay.arrived ⟨0, 0, 0⟩ storeAcc = true
    ∧ (underWay.fanouts.any fun f => f.agent.isNone && f.acc.id == 4) = false
    ∧ ∀ q ∈ underWay.requests, q.2.id ≠ 4 → wordOf q.2.pa ≠ wordOf storeAcc.pa := ⟨rfl, rfl, rfl, by decide⟩

theorem test_meets_FenceResults_edges :
    mem0.releases = true ∧ mem0.edgesDone mem0.cur mem0.nextId AccKind.reads = true
    ∧ mem0.edgesDone mem0.cur mem0.nextId AccKind.writes = true := ⟨rfl, rfl, rfl⟩

/-- An AMOXOR to host memory, and one to device memory. -/
def hostAmo : Access := { amoAcc with pa := hostAddr 0x1000, va := 0x1000, kind := .amo 4 }

theorem test_meets_OwnerPerforms_split :
    amoAcc.splits = false ∧ amoAcc.old = none ∧ isHost amoAcc.pa = false
    ∧ (let s := atOwner hostAmo []
       s.requests.find? (fun q => q.2.id == 3 && q.2.stage == 2) = some (⟨0, 0, 0⟩, hostAmo) ∧ hostAmo.merged = [] ∧ (0 : Nat) < 512
         ∧ s.mayPerform ⟨0, 0, 0⟩ hostAmo = true ∧ s.sharersFor ⟨0, 0, 0⟩ hostAmo = [] ∧ hostAmo.old = none
         ∧ (∀ q ∈ s.requests, q.2.id ≠ 3 → wordOf q.2.pa ≠ wordOf hostAmo.pa)
         ∧ (∀ i < hostAmo.size, s.mem.isLost (hostAmo.pa + i) = false) ∧ hostAmo.splits = true)
    ∧ ∀ k ∈ [AccKind.ldfe, .stfe], isHost (feAcc k).pa = false ∧ (∀ i < 8, (atOwner (feAcc k) []).mem.isLost ((feAcc k).pa + i) = false) := by
  decide

theorem test_meets_RequestEvents_winner :
    (let s : State := { (thread {}) with packets := [(0, [{ pos := ⟨0, 0, 0⟩, acc := request 0, prio := 0 }])] }
     ∃ w, winner (s.portNext.get 0 0) (s.heads (s.packets.get [] 0)) = some w ∧ w.input < 512 ∧ w.acc.queued = true)
    ∧ (let s : State := { (thread { flights := [{ loadAcc with pa := 0x1000, va := 0x1000, stage := 1 }] }) with
        packets := [(0, [{ pos := ⟨0, 0, 0⟩, acc := { loadAcc with pa := 0x1000, va := 0x1000, stage := 1 }, prio := 0 }])] }
       ∃ w, winner (s.portNext.get 0 0) (s.heads (s.packets.get [] 0)) = some w ∧ w.input < 512 ∧ w.acc.queued = false
         ∧ ∃ x ∈ (s.ctx w.pos).flights, x.id = w.acc.id)
    ∧ (onTheWay 1).lockWaiters 64 = [] ∧ (onTheWay 1).writeWaiters 64 = [] ∧ (onTheWay 1).inOrder ⟨0, 0, 0⟩ (request 1) = true
    ∧ (request 1).starved = false
    ∧ (feReady .ldfe ((onTheWay 3).mem.isFull (request 3).pa) && (onTheWay 3).lockOf (lineOf (request 3).pa) == 0) = false :=
  ⟨⟨_, rfl, by decide, rfl⟩, ⟨_, rfl, by decide, rfl, _, List.mem_cons_self, rfl⟩, rfl, rfl, rfl, rfl, rfl⟩

/-- The barrier after an arrival of rill 1 in the same rill cycle. -/
def early : Arrival := { r := 1, k := 0, dst := .g 1, sync := false }
def barrierAfter : State :=
  { (thread { cohort := some 1 }) with
    braids := [(0, { barriers := [(2, { cohort := some 1, count := 3, arrived := 2, phase := 5, logAt := 101, logged := [early]
                                        was := (3, 1, 5, none) })] })] }

theorem test_meets_BarrierResults_releases : (barrier 1).releases = true
    ∧ (((barrier 1).braid 0).barriers.get {} 2).logAt ≠ (barrier 1).cycle + 1
    ∧ (let x := (barrierAfter.braid 0).barriers.get {} 2
       barrierAfter.plain ∧ x.cohort.isSome = true ∧ x.cohort = barrierAfter.me.cohort ∧ barrierAfter.releases = true
         ∧ x.logAt = barrierAfter.cycle + 1 ∧ x.logged = [early] ∧ barrierAfter.cur.r < early.r ∧ barrierAfter.cur.k < 16
         ∧ early.k < 16 ∧ early.sync = false ∧ early.dst = .g 1) :=
  ⟨rfl, by decide, rfl, rfl, rfl, rfl, rfl, rfl, by decide, by decide, by decide, rfl, rfl⟩

theorem test_meets_BlockResults_room :
    0 < (thread {}).myRill.replayRoom ∧ fillTurn.entryOn ⟨0, 0, 0⟩ filling.a = false
    ∧ (fillTurn.fanouts.any fun f => f.line == lineOf (localPlace 0 filling.a)) = false := ⟨by decide, rfl, rfl⟩

theorem test_meets_TxResults_targets :
    (let s := thread { sr := [(0x052, 0x0000000800000008)] }
     s.plain ∧ goodTarget (s.ipc + 2 * (4 : BitVec 12).signExtend 64))
    ∧ (let s : State := { (thread { sr := [(0x052, 0x0000000800000008)] }) with ipc := 0x41 }
       bit (s.ipc + 2 * (4 : BitVec 12).signExtend 64) 0 = true)
    ∧ (let s : State := { (thread { sr := [(0x052, 0x0000000800000008)] }) with ipc := 0x00FFFFFFFFFFFFFE }
       bit (s.ipc + 2 * (4 : BitVec 12).signExtend 64) 0 = false ∧ field (s.ipc + 2 * (4 : BitVec 12).signExtend 64) 63 56 ≠ 0)
    ∧ (let s : State := { (thread { sr := [(0x052, 0x0000000800000008)] }) with ipc := 0x007FFFFFFFFFFFFE }
       bit (s.ipc + 2 * (4 : BitVec 12).signExtend 64) 0 = false ∧ field (s.ipc + 2 * (4 : BitVec 12).signExtend 64) 63 56 = 0
         ∧ bit (s.ipc + 2 * (4 : BitVec 12).signExtend 64) 55 = true)
    ∧ (inTx 1 { emptyTx with reads := [readEntry] }).releases = true ∧ 0 < (inTx 1 emptyTx).myRill.replayRoom :=
  ⟨⟨rfl, rfl, rfl, rfl⟩, rfl, ⟨rfl, by decide⟩, ⟨rfl, rfl, rfl⟩, rfl, by decide⟩

theorem test_meets_WorkResults_room :
    (let s := thread { (regs [(8, ls)]) with ox := [(0, { val := 0x1000 }), (5, { val := 1 }), (8, { val := ls }), (13, { val := 0x100000000 })] }
     s.releases = true)
    ∧ (∃ s1 a1, (nested nest0).passes { id := 0, seq := 0, kind := .ticket, va := nest0.line, size := 8, data := 1
                                        dst := (nested nest0).me.dest 9, ext := [nest0.line, nest0.extents, nest0.parts] } s1 a1)
    ∧ (dequeState [] [] [] [{ task := [(1, false)], src := some (⟨0, 0, 0⟩, 4) }]).probed 0 0 = false := ⟨rfl, ⟨_, _, rfl⟩, rfl⟩

theorem test_meets_LaunchEvents_alive :
    ((launching [] [] false).basin 0).alive = true ∧ ((launching [rec0 true] [] true).basin 0).alive = true
    ∧ ((launching [rec0 false] [] true).basin 0).contained = false := ⟨rfl, rfl, rfl⟩

theorem test_meets_UnitAndHomeEvents_agent : (fan [3]).agent = none := rfl

/-- Context 15 that returns from a trap of its own, whose saved address is v. -/
def returning15 (v : Word) : State := supervisor { sr := [(0x010, v)] }

theorem test_meets_SystemCalls_targets :
    (returning15 0x80).cur.k = 15 ∧ goodTarget ((returning15 0x80).sr 0x010)
    ∧ bit ((returning15 0x81).sr 0x010) 0 = true
    ∧ (bit ((returning15 0x0100000000000000).sr 0x010) 0 = false ∧ field ((returning15 0x0100000000000000).sr 0x010) 63 56 ≠ 0)
    ∧ (bit ((returning15 ls).sr 0x010) 0 = false ∧ field ((returning15 ls).sr 0x010) 63 56 = 0 ∧ bit ((returning15 ls).sr 0x010) 55 = true)
    ∧ field ((returning15 ls).sr 0x013) 27 24 = 0 :=
  ⟨rfl, ⟨rfl, rfl, rfl⟩, rfl, ⟨rfl, by decide⟩, ⟨rfl, rfl, rfl⟩, rfl⟩

theorem test_meets_ContextResults_lines :
    (let s := imageState { run := .stopped }
     let x := reachFrom (s.val 9) true [] (imagePieces (s.val 9)) s
     x.2.2 = none ∧ (∀ y ∈ x.2.1, x.1.mayPerform x.1.cur y = true)
       ∧ ∀ y ∈ x.2.1, x.1.sharersOf (lineOf y.pa) = [] ∧ (x.1.fanouts.any fun f => f.line == lineOf y.pa) = false)
    ∧ (let s := imageState {}
       let x := reachFrom (s.val 9) false [] (imagePieces (s.val 9)) s
       ∀ y ∈ x.2.1, x.1.lineOpen x.1.cur y = true) := by decide +kernel

theorem test_meets_ContextResults_restored :
    ((readBack (restoring 3 0)).1.restoreImage ⟨0, 0, 3⟩ image0).2 = none := by decide +kernel

theorem test_meets_TranslationResults_host :
    bit failedLoad.va 55 = false
    ∧ (let q : AtsReq := { id := 3, pos := queuePlace 0, asid := 0, va := 0x1000, write := false }
       let s : State := { (thread {}) with ats := [q] }
       s.ats.find? (fun q => q.id == 3 && q.phase == 0) = some q ∧ 512 ≤ q.pos.b) := ⟨rfl, rfl, by decide⟩

theorem test_meets_PackageEvents_sharers :
    package.agentSharers (lineOf (5 * 0x80000000)) = [] ∧ isHost (5 * 0x80000000) = false ∧ isHost (hostAddr 0x1000) = true
    ∧ hostAddr 0x1000 % 8 = 0 ∧ (package.fanouts.any fun f => f.line == lineOf (hostAddr 0x1000)) = false
    ∧ isHost (6 * 0x80000000) = false ∧ 6 * 0x80000000 % 8 = 0 ∧ bit (0 : Word) 0 = false := by decide +kernel

/-- The first unit overtakes nothing and is not held. -/
noncomputable def firstUnitPlain : Bool :=
  let u : DUnit := { act := .instr (.add 18 8 9), len := 2, words := 0x83242400, iword := 0x83242400 }
  let s1 := (aboutToIssue.fetch bootPos (booted.ctx bootPos).pc).1
  match exec (.add 18 8 9) ((s1.enter u [bootPos]).atUnit u (booted.ctx bootPos).pc bootPos) with
  | .next t => !s1.overtakes t bootPos && (t.ctx bootPos).held.isNone
  | _ => false
theorem test_meets_StepRuns_order : firstUnitPlain = true := by decide +kernel

theorem test_meets_BasinEvents_more :
    (∀ ph ∈ [1, 2, 4, 5, 6], (resize0 ph).forcing = [])
    ∧ (∀ kind < 5, let s : State := { (thread {}) with
          braids := [(0, { gran := { state := .scrubbing, sweeps := 3 } })], gslices := [(0, { state := .scrubbing })]
          gchans := [(0, { state := .scrubbing, sweeps := 3 })]
          cores := [(0, { gran := { state := .scrubbing } })], vfs := [(0, { gran := { state := .scrubbing } })] }
        ((s.basin (s.gran kind 0).basin).contained && (s.basin (s.gran kind 0).basin).alive) = false ∧ s.scrubReady kind 0 = true)
    ∧ (let z := { resize0 2 with retire := some (0, 0) }
       let s : State := { (withBasin (resizing z)) with ctxs := [], braids := [(0, { gran := { state := .owned, basin := 0 } })] }
       s.retiring 0 0 = some (0, z) ∧ (s.braid 0).gran.ownedBy 0 = true ∧ z.began = true ∧ z.phase = 2 ∧ ∀ k < 16, (s.ctx ⟨0, 0, k⟩).tx = none)
    ∧ (rehashing.resize = some (resize0 3) ∧ (resize0 3).moves = [] ∧ (resize0 3).forcing = [] ∧ ∀ q ∈ (resize0 3).notified, q ∈ (resize0 3).acked) := by
  decide +kernel

theorem test_meets_PackageServices_switch :
    let s : State := { (called 23 []) with images := [(1, { staged := some { version := 5 } })] }
    (s.images.get {} 1).staged = some { version := 5 }
      ∧ ∀ y ∈ (s.takeCall (hostCall 23)).calls, y.service = 1 → y.phase = 0 := by decide +kernel
theorem test_meets_RequestEvents_turns :
    (let s : State := { (onTheWay 1) with requests := [(⟨0, 0, 0⟩, { request 1 with starved := true })] }
     s.lockWaiters 64 = [] ∧ s.writeWaiters 64 = [] ∧ s.inOrder ⟨0, 0, 0⟩ { request 1 with starved := true } = true
       ∧ ((s.requests.filter fun x => lineOf x.2.pa == 64).map fun q => q.2.starved) = [true])
    ∧ (let s := thread { tx := some emptyTx, wait := some (.irrLock 64 0) }
       ∃ w, s.served (s.queueOf 64) = some w ∧ w.lock = true) := by
  refine ⟨?_, ⟨_, rfl, rfl⟩⟩; decide +kernel

theorem test_meets_BlockResults_tx :
    (let s := thread { (regs [(8, 4), (9, ls), (10, ls)]) with tx := some emptyTx, sr := [(0x050, 1)] }
     s.blockIllegal (s.newBlock 2 8 9 10 3) = true ∧ s.inTx = true ∧ s.clean 8 ∧ s.clean 9 ∧ s.clean 10
       ∧ ∃ i < (s.val 8).toNat, bit (s.val 9 + w64 (i * 2 ^ (3 : BitVec 2).toNat)) 55 = true)
    ∧ (let s := thread (regs [(8, 4), (9, ls), (10, ls)])
       s.blockIllegal (s.newBlock 2 8 9 10 3) = false)
    ∧ (∃ c : Ctx, c.block = none) ∧ (∃ c : Ctx, c.block = some filling) :=
  ⟨⟨rfl, rfl, ⟨rfl, rfl⟩, ⟨rfl, rfl⟩, ⟨rfl, rfl⟩, 0, by decide, rfl⟩, rfl, ⟨{}, rfl⟩, { block := some filling }, rfl⟩

/-- The value of a BFILL may be poisoned and unaligned, the key of a BSCAN unaligned; and a fill from its own pointer. -/
theorem test_meets_BlockResults_values :
    (let s := thread { win := [(32752, { val := 1 }), (32753, { val := ls }), (32754, { val := 7, poison := true })] }
     s.clean 8 ∧ s.clean 9 ∧ s.ready 10 ∧ s.bad 10 = true ∧ (s.val 10).toNat % 2 ^ (3 : BitVec 2).toNat ≠ 0
       ∧ (s.val 9).toNat % 2 ^ (3 : BitVec 2).toNat = 0 ∧ s.val 8 ≠ 0 ∧ s.blockIllegal (s.newBlock 2 8 9 10 3) = false)
    ∧ (let s := thread (regs [(8, 1), (9, ls), (10, 7)])
       s.bad 10 = false ∧ (s.val 10).toNat % 2 ^ (3 : BitVec 2).toNat ≠ 0)
    ∧ ({ filling with bd := filling.ad } : Block).bd = filling.ad :=
  ⟨⟨⟨rfl, rfl⟩, ⟨rfl, rfl⟩, rfl, rfl, by decide, rfl, by decide, rfl⟩, ⟨rfl, by decide⟩, rfl⟩

theorem test_meets_StreamResults_reads :
    (let e : SEntry := { id := 6, first := 0, mask := 15, done := 3 }
     let x := inStream 4 [e]
     let s := streaming x
     s.readWaits s.nextId (lineOf (localPlace 0 (x.addr (e.first + 3)))) = false ∧ (s.ctx ⟨0, 0, 0⟩).older = []) := by decide +kernel

theorem test_meets_CopyResults_ordered :
    fillState.doneBefore ⟨0, 0, 0⟩ (if fillCmd.xp then fillCmd.seq else fillCmd.after) AccKind.writes = true ∧ fillCmd.op = 2 ∧ fillCmd.phase = 1 := by
  decide +kernel

theorem test_meets_WorkResults_moved :
    (let s := thread { (regs [(8, ls)]) with ox := [(0, { val := 0x1000 })] }
     let dq := s.dequeAt s.cur.b s.cur.r
     s.dqEarlier dq.1 dq.2 s.arrival < s.dqRoom dq.1 dq.2)
    ∧ (let s := dequeState [] [[(2, false)]] [{ popOp with probe := 1 }] []
       s.dequeOf 0 = 0 ∧ (s.braid 0).gran.state ≠ .scrubbing ∧ ∀ i < 4, popOp.s ≠ .ox (popOp.ox + i))
    ∧ (let s : State := { (thread { ox := (List.range 4).map fun i => (i, { full := false, src := 3 }) }) with
          braids := [(0, { gran := { state := .scrubbing } }), (1, { gran := { state := .owned }, index := 1 })] }
       (s.braid 0).gran.state = .scrubbing ∧ s.lowestRill (s.basinOf 0) = some (1, 0)
         ∧ ∀ i < 4, (s.ctx ⟨0, 0, 0⟩).cellAt (.ox (popOp.ox + i))
             = { (s.ctx ⟨0, 0, 0⟩).cellAt (.ox (popOp.ox + i)) with full := false, src := popOp.id }) := by
  decide +kernel

/-- VF 1, of basin 0, to which queue 0 is bound; and a record whose dependence word lies in line 64. -/
def vfPage (l : List Record) (en : Bool) : State :=
  { (launching l [] en) with vfs := [(1, { gran := { state := .owned, basin := 0 } })] }
def watching : Record := { (rec0 false) with deps := [64] }

theorem test_meets_LaunchEvents_pages :
    (vfPage [] true).pageBound 1 0 = true ∧ (vfPage [] true).pageBound 1 1 = false ∧ ((vfPage [] true).vfs.get {} 1).gran.basin = 0
    ∧ (((vfPage [] false).basin 0).queues.get {} 0).enable = false
    ∧ ({ (rec0 false) with reread := true } : Record).reread = true ∧ (rec0 false).reread = false ∧ (rec0 false).status = 0
    ∧ ((vfPage [watching] true).basin 0).records = [watching] ∧ 64 ∈ watching.deps := by decide +kernel

theorem test_meets_ContextResults_place :
    let s := imageState { run := .stopped }
    let x := reachFrom (s.val 9) true [] (imagePieces (s.val 9)) s
    (x.1.takePlace x.1.cur (commitAgent x.1.cur) x.1.me.seq (imageLines x.2.1)).2 = true := by decide +kernel

/-- An image of context 3 whose monitor slot 0 is armed at an address without a translation; rill 0 has a full replay queue. -/
def armedImage : Img := (imageState { run := .stopped, sr := [(0x080, 0x10), (0x09A, 0x7FFF00000000)] }).image ⟨0, 0, 3⟩
def crowded : State :=
  { (imageState {}) with
    rills := [(0, { tlb := [page0], replay := (List.range 32).map fun i => (i, { failedEntry with pos := ⟨0, 0, 4⟩ }) })] }

theorem test_meets_ContextResults_full :
    crowded.noRoom ⟨0, 0, 3⟩ armedImage = false ∧ (crowded.restoreImage ⟨0, 0, 3⟩ armedImage).2 = some .full := by decide +kernel

theorem test_meets_BasinEvents_owed :
    (let s : State := { (thread {}) with braids := [(1, { owed := [2] })] }
     s.retiring 1 2 = none ∧ (s.braid 1).owed = [2] ∧ (s.braid 1).gran = {} ∧ (s.braid 1).spare = some 8)
    ∧ (let s : State := { (withBasin { alive := true, contained := true }) with
          braids := [(0, { gran := { state := .owned, basin := 0 } })], rills := [(0, { corrected := List.replicate 64 5 })] }
       64 < (((s.rill 0 0).corrected.filter fun t => decide (s.cycle < t + 3300000000)) ++ [s.cycle]).length
         ∧ (s.braid 0).owed = [] ∧ (s.basin 0).contained = true ∧ (s.basin 0).resize = none ∧ (s.basin 0).waiting = [])
    ∧ (let z := { resize0 2 with retire := some (0, 0) }
       let s : State := { (withBasin (resizing z)) with ctxs := [(3, { run := .paused })]
                                                        braids := [(0, { gran := { state := .owned, basin := 0 }, moving := true })] }
       s.retiring 0 0 = some (0, z) ∧ (s.braid 0).moving = true ∧ s.rillIdle 0 0 = true ∧ (s.ctx ⟨0, 0, 3⟩).run = .paused) := by
  decide +kernel

theorem test_meets_BasinServices_destroy :
    ((called 2 []).destroy 0).vacant 0 = false
    ∧ (let s : State := { (thread {}) with basins := [(0, { alive := true, slices := [] })] }
       (s.destroy 0).vacant 0 = true) := by decide +kernel

theorem test_meets_PackageServices_running :
    (∃ y ∈ ((called 23 []).takeCall (hostCall 23)).calls, y.service = 23 ∧ y.phase = 1)
    ∧ (∃ f : Firmware, f.text = some (3, 0x636261)) := ⟨⟨_, List.mem_cons_self, rfl, rfl⟩, { text := some (3, 0x636261) }, rfl⟩

theorem test_meets_PackageEvents_open :
    package.windowOpen (5 * 0x80000000) = true ∧ package.windowOpen (6 * 0x80000000) = false
    ∧ (∃ g ∈ package.zclOut, g.1 = 1 * 512 + 5 * 0x80000000 / 2 ^ 31 ∧ package.channelOpen (5 * 0x80000000 / 2 ^ 31) g.2 = true)
    ∧ package.owns 0 (6 * 0x80000000) = false ∧ (3 : Nat) < 2048
    ∧ (∃ f : Vf, f.masked 3 = true) ∧ (∃ f : Vf, f.masked 3 = false) := by
  refine ⟨by decide +kernel, by decide +kernel, ⟨_, List.mem_cons_self, by decide +kernel, by decide +kernel⟩, by decide +kernel, by decide,
    ⟨{}, by decide +kernel⟩, { table := [(7, 0)] }, by decide +kernel⟩

/-- FIPS 180-4: SHA-384 of "abc", the first byte lowest. -/
theorem test_sha384_abc : sha384 3 0x636261
    = [0x8B5EA3453F7500CB, 0x0750C69A693DA0B5, 0x63D1DE0EAB322C27, 0xED5BFF435A608B1A, 0x23CCE7A12B078680, 0xA725C834A1ECBA58] := by
  decide +kernel

/-! ### Single steps, with results of the manual or computed from its rules by hand -/

def two (a b : Word) : State := thread (regs [(8, a), (9, b)])
/-- The value that a long-latency instruction will write. -/
def longValue (x : Host.Outcome State Fault Refusal) : Option Word := after (fun t => (t.me.longs.head?.map LongOp.val).getD 0x5A5A) x
def nextPc (x : Host.Outcome State Fault Refusal) : Option Word := after (fun t => t.me.pc) x
/-- The cause of a trap, 0 if the thread has not stopped. -/
def cause (x : Host.Outcome State Fault Refusal) : Option Word :=
  after (fun t => if t.me.run = .stopped then t.srAt t.cur 0x011 else 0) x

/-- R123: sums wrap; SHADD forms an element address. -/
theorem test_add_wraps : value 18 (exec (.add 18 8 9) (two 0xFFFFFFFFFFFFFFFF 2)) = some 1 := by decide
theorem test_shadd : value 18 (exec (.shadd 18 8 9 3) (two 0x1000 5)) = some 0x1028 := by decide
/-- R118: a poisoned source poisons the result. -/
theorem test_poison : after (fun t => (t.me.reg 18).poison) (exec (.xor 18 8 9) (badBase 5 true)) = some true := by decide
/-- g0 discards a write. -/
theorem test_g0 : value 0 (exec (.addi 0 8 5) (two 1 1)) = some 0 := by decide
theorem test_addi_negative : value 18 (exec (.addi 18 8 0x7FFF) (two 0 0)) = some 0xFFFFFFFFFFFFFFFF := by decide
/-- R128's table, and the extraction below it. -/
theorem test_bperm : value 18 (exec (.bperm 18 8 9) (two 0x84210000 0x4343434343430302)) = some 0xFFFFFFFFFFFF8421 := by decide
theorem test_extzi : value 18 (exec (.extzi 18 8 11 8) (two 0x84210000 0)) = some 0x100 := by decide
theorem test_exti : value 18 (exec (.exti 18 8 11 8) (two 0x84210000 0)) = some 0x100 := by decide
/-- R126: a field past bit 63 reads zeros above it. -/
theorem test_exti_past_top : value 18 (exec (.exti 18 8 7 60) (two 0xF000000000000000 0)) = some 0xF := by decide
theorem test_insi_past_top : value 18 (exec (.insi 18 8 7 60) (two 0xFF 0)) = some 0xF000000000000000 := by decide
theorem test_clz_zero : value 18 (exec (.clz 18 8) (two 0 0)) = some 64 := by decide
theorem test_cls : value 18 (exec (.cls 18 8) (two 0xFFFFFFFFFFFFFFFF 0)) = some 63 := by decide
theorem test_bswap : value 18 (exec (.bswap 18 8) (two 0x0102030405060708 0)) = some 0x0807060504030201 := by decide
theorem test_srai : value 18 (exec (.srai 18 8 4) (two 0x8000000000000000 0)) = some 0xF800000000000000 := by decide
/-- R129: −7 and 2, division by zero, and the quotient that overflows. -/
theorem test_div : longValue (exec (.div 18 8 9 15) (two 0xFFFFFFFFFFFFFFF9 2)) = some 0xFFFFFFFFFFFFFFFD := by decide +kernel
theorem test_rem : longValue (exec (.rem 18 8 9 15) (two 0xFFFFFFFFFFFFFFF9 2)) = some 0xFFFFFFFFFFFFFFFF := by decide +kernel
theorem test_div_zero : longValue (exec (.div 18 8 9 15) (two 0xFFFFFFFFFFFFFFF9 0)) = some 0xFFFFFFFFFFFFFFFF := by decide +kernel
theorem test_rem_zero : longValue (exec (.rem 18 8 9 15) (two 0xFFFFFFFFFFFFFFF9 0)) = some 0xFFFFFFFFFFFFFFF9 := by decide +kernel
theorem test_div_overflow : longValue (exec (.div 18 8 9 15) (two 0x8000000000000000 0xFFFFFFFFFFFFFFFF)) = some 0x8000000000000000 := by
  decide +kernel
theorem test_rem_overflow : longValue (exec (.rem 18 8 9 15) (two 0x8000000000000000 0xFFFFFFFFFFFFFFFF)) = some 0 := by decide +kernel
theorem test_mulh : longValue (exec (.mulh 18 8 9 15) (two 0xFFFFFFFFFFFFFFFF 2)) = some 0xFFFFFFFFFFFFFFFF := by decide +kernel
theorem test_mulhsz : longValue (exec (.mulhsz 18 8 9 15) (two 0xFFFFFFFFFFFFFFFF 0xFFFFFFFFFFFFFFFF)) = some 0xFFFFFFFFFFFFFFFF := by
  decide +kernel

/-- R42: a taken branch goes to the address of its instruction plus twice its offset; an untaken one goes on. -/
theorem test_bcmpi_taken : nextPc (exec (.bcmpi 8 0 0 0xFFE) (two 0 0)) = some 0x3C := by decide
theorem test_bcmpi_untaken : nextPc (exec (.bcmpi 8 0 0 0xFFE) (two 1 0)) = some 0x44 := by decide
/-- R378, R374: SYS stops its context with cause 0x10; a privileged instruction stops it with PRIVILEGE. -/
theorem test_sys : cause (exec (.sys 8) (two 7 0)) = some 0x10 := by decide
theorem test_privilege : cause (exec (.eret 8) (two 7 0)) = some 0x05 := by decide
/-- R374, R150: the address checks in their order. -/
theorem test_misaligned : cause (exec (.ld 18 8 3 0 15) (two 0x1001 0)) = some 0x06 := by decide
theorem test_local_bounds : cause (exec (.ld 18 8 3 0 15) (two (ls + 0x30000) 0)) = some 0x0A := by decide

/-- The example of R232: conversions of binary64 numbers to E4M3 under RNE. -/
def toE4m3 (x : Nat) (satf : Bool) : Nat × BitVec 5 := fmtE4m3.convert 0 satf 0 (fmtF64.decode x)
theorem test_e4m3 : [0x407C000000000000, 0x407D000000000000, 0x407D600000000000, 0xC08F400000000000, 0x3F847AE147AE147B].map
      (fun x => (toE4m3 x false, toE4m3 x true))
    = [((0x7E, 0), (0x7E, 0)), ((0x7E, flNX), (0x7E, flNX)), ((0x7F, flOF ||| flNX), (0x7E, flOF ||| flNX)),
      ((0xFF, flOF ||| flNX), (0xFE, flOF ||| flNX)), ((5, flUF ||| flNX), (5, flUF ||| flNX))] := by decide +kernel

/-- The example of R197: the addresses of elements 0, 3, 4 and 8. -/
theorem test_stream_addr :
    let x : Stream := { input := true, base := 0x0000004000001000, w1 := 0x0000000400000004, w2 := 0x0000004000000003, w3 := 1, ctl := 2
                        cc := 0, xp := false, seq := 0, start := 0 }
    x.total = 12 ∧ [0, 3, 4, 8].map x.addr = [0x0000004000001000, 0x000000400000100C, 0x0000004000001040, 0x0000004000001080] := by decide

/-- The example of R361: the chunks of tickets 0 to 16 of 100 iterations, at least 4 each, in 4 parts. -/
theorem test_chunks :
    let x : Nest := { line := 0, extents := 0x00010001000A000A, parts := 0x0000000000040004 }
    x.total = 100 ∧ (List.range 17).map (fun j => let y := x.claim j false; (y.start, y.size))
      = [(0, 13), (13, 11), (24, 10), (34, 9), (43, 8), (51, 7), (58, 6), (64, 5), (69, 4), (73, 4), (77, 4), (81, 4), (85, 4), (89, 4),
         (93, 4), (97, 3), (100, 0)] := by decide +kernel
/-- Binary64: 1 + 2⁻⁵³ rounds to even, and the same under RUP. -/
theorem test_fadd_rne : value 18 (exec (.fadd 18 8 9 0 0) (two 0x3FF0000000000000 0x3CA0000000000000)) = some 0x3FF0000000000000 := by
  decide +kernel
theorem test_fadd_rup : value 18 (exec (.fadd 18 8 9 0 2) (two 0x3FF0000000000000 0x3CA0000000000000)) = some 0x3FF0000000000001 := by
  decide +kernel

/-- A load and a store that are under way are performed: 77 is stored, and the load of 0 arrives. -/
theorem test_store_performs : after (fun t => t.mem.read (lsAddr 0 0 8) 8) (exec (.storePerformed 0 0 0 4) underWay) = some 77 := by
  decide +kernel
theorem test_load_performs : after (fun t => ((t.ctx ⟨0, 0, 0⟩).cellAt (.g 1)).full) (exec (.loadDataReturn 0 0 0 3) underWay) = some true := by
  decide +kernel
/-- R287: an AMOADD adds in memory and returns the old value. -/
theorem test_amoadd : after (fun t => (t.mem.read (lsAddr 0 0 0) 8, (t.ctx ⟨0, 0, 0⟩).cellAt (.g 1)))
    (exec (.ownerRmw 3) (atOwner amoAcc [])) = some (1, { val := 0 }) := by decide +kernel

end Sys2Proof.Tests
end

section
/-! PROOFS. The state after package reset. -/

namespace Sys2Proof.Machine

theorem Memory.byte_default (a : Nat) : ({} : Memory).byte a = 0 := by
  unfold Memory.byte; split <;> rfl

theorem Memory.isFull_default (a : Nat) : ({} : Memory).isFull a = false := by simp [Memory.isFull]

theorem Memory.poisoned_default (a : Nat) : ({} : Memory).poisoned a = false := by simp [Memory.poisoned, Memory.isLost]

/-- A register of a context that has never run. -/
theorem Ctx.reg_default (r : BitVec 5) : ({} : Ctx).reg r = {} := by
  unfold Ctx.reg
  rcases ({} : Ctx).dest_cases r with h | ⟨n, h⟩ | ⟨n, h⟩ <;> rw [h] <;> rfl

theorem Ctx.pred_default {q : BitVec 3} (h : q ≠ 0) : ({} : Ctx).pred q = {} := if_neg h

theorem State.gran_reset (kind n : Nat) : State.reset.gran kind n = {} := by
  unfold State.gran; split <;> rfl

/-- Settles O57. Each part reads an empty table, of which a read gives the default. -/
theorem resetState : Obligations.ResetState := by
  refine ⟨reset_memory_canonical, fun a => ⟨Memory.byte_default a, Memory.isFull_default a, Memory.poisoned_default a⟩,
    fun p => ⟨rfl, Ctx.reg_default, fun q hq => Ctx.pred_default hq, rfl, fun _ => rfl, fun _ => rfl⟩,
    fun _ _ => ⟨rfl, rfl⟩, State.gran_reset, fun _ => rfl, fun _ _ _ => rfl, fun p => ?_, fun _ _ => rfl, fun _ => rfl, rfl, rfl, rfl⟩
  exact ⟨rfl, rfl, rfl, rfl, rfl, rfl, rfl, rfl, rfl, rfl, rfl⟩

end Sys2Proof.Machine
end

section
/-! PROOFS. Slots, the window engine and register windows (R24, R79, R83 to R85). -/

namespace Sys2Proof.Machine

/-! ### Tables that a fold writes or a filter cuts -/

/-- A run of entries written one after another. -/
theorem Table.get_putRun {α : Type} (d : α) (t : Table α) (a n : Nat) (f : Nat → α) (k : Nat) :
    ((List.range n).foldl (fun t i => t.put (a + i) (f i)) t).get d k
      = if a ≤ k ∧ k < a + n then f (k - a) else t.get d k := by
  induction n with
  | zero => rw [if_neg (by omega)]; rfl
  | succ n ih =>
    rw [List.range_succ, List.foldl_append, List.foldl_cons, List.foldl_nil, Table.get_put, ih]
    by_cases h : k = a + n
    · subst h; rw [if_pos rfl, if_pos (by omega), Nat.add_sub_cancel_left]
    · rw [if_neg h]
      exact if_congr (by omega) rfl rfl

/-- Entries whose number a filter drops read as the default. -/
theorem Table.get_filterKeys {α : Type} (d : α) (t : Table α) (keep : Nat → Bool) (k : Nat) :
    Table.get d (t.filter fun e => keep e.1) k = if keep k then t.get d k else d := by
  induction t with
  | nil => simp
  | cons e t ih =>
    obtain ⟨j, v⟩ := e
    by_cases hj : j = k
    · subst hj; cases hk : keep j <;> simp_all [Table.get]
    · cases hk : keep j <;> simp [hk, Table.get, hj, ih]

/-! ### Reads of memory after the bits and tags of its words change -/

@[simp] theorem Memory.read_setPoison (m : Memory) (a b n : Nat) (p : Bool) : (m.setPoison a p).read b n = m.read b n :=
  Memory.read_congr m _ b n fun x _ _ => m.byte_setPoison a x p
@[simp] theorem Memory.read_setFull (m : Memory) (a b n : Nat) (p : Bool) : (m.setFull a p).read b n = m.read b n :=
  Memory.read_congr m _ b n fun x _ _ => m.byte_setFull a x p

@[simp] theorem Memory.byte_setTags (m : Memory) (a x n : Nat) (t : Option Tag) : (m.setTags a t n).byte x = m.byte x := by
  induction n generalizing m a with
  | zero => rfl
  | succ n ih => exact ih _ _
@[simp] theorem Memory.read_setTags (m : Memory) (a b n k : Nat) (t : Option Tag) : (m.setTags a t n).read b k = m.read b k :=
  Memory.read_congr m _ b k fun x _ _ => m.byte_setTags a x n t

/-- Only addresses below 2^52 lie in other packages. -/
theorem Memory.isLost_above (m : Memory) {a : Nat} (h : 2 ^ 52 ≤ a) : m.isLost a = false := by
  unfold Memory.isLost
  rw [decide_eq_false (by omega), Bool.false_and]

theorem lsAddr_above (b r off : Nat) : 2 ^ 52 ≤ lsAddr b r off := by
  unfold lsAddr lsBase
  omega

/-- Below 2^64 a number that is written as eight bytes in this package is read again. -/
theorem Memory.read_write_word (m : Memory) {a v : Nat} (h : 2 ^ 52 ≤ a) (hv : v < 2 ^ 64) : (m.write a 8 v).read a 8 = v := by
  rw [Memory.read_write_same _ _ _ _ fun i _ => m.isLost_above (h.trans (Nat.le_add_right a i))]
  exact Nat.mod_eq_of_lt hv

/-- Store words one after another from an address, full and unpoisoned. -/
def Memory.writeRun (m : Memory) (a n : Nat) (f : Nat → Word) : Memory :=
  (List.range n).foldl (fun t i =>
    ((t.write (a + 8 * i) 8 (f i).toNat).setPoison (a + 8 * i) false).setFull (a + 8 * i) true) m

theorem Memory.writeRun_succ (m : Memory) (a n : Nat) (f : Nat → Word) :
    m.writeRun a (n + 1) f
      = (((m.writeRun a n f).write (a + 8 * n) 8 (f n).toNat).setPoison (a + 8 * n) false).setFull (a + 8 * n) true := by
  unfold Memory.writeRun
  rw [List.range_succ, List.foldl_append]; rfl

theorem Memory.read_writeRun (m : Memory) {a : Nat} (ha : 2 ^ 52 ≤ a) (n : Nat) (f : Nat → Word) {i : Nat} (h : i < n) :
    (m.writeRun a n f).read (a + 8 * i) 8 = (f i).toNat := by
  induction n with
  | zero => omega
  | succ n ih =>
    rw [Memory.writeRun_succ, Memory.read_setFull, Memory.read_setPoison]
    rcases Nat.lt_succ_iff_lt_or_eq.mp h with hi | rfl
    · rw [Memory.read_write_other _ _ _ _ _ _ (by omega)]
      exact ih hi
    · exact Memory.read_write_word _ (ha.trans (Nat.le_add_right _ _)) (f i).isLt

/-! ### Frames of windows (R84) -/

/-- Sixteen bits. -/
theorem Ctx.windowBits_lt (c : Ctx) (w : Nat) (f : Cell → Bool) : c.windowBits w f < 2 ^ 16 := by
  have h : ∀ n m, ((List.range n).foldl (fun m i => if f (c.win.get {} (w + i)) then m + 2 ^ i else m) m) < m + 2 ^ n := by
    intro n m
    induction n with
    | zero => simp
    | succ n ih =>
      rw [List.range_succ, List.foldl_append, List.foldl_cons, List.foldl_nil, pow_succ]
      split <;> omega
  exact (h 16 0).trans_eq (Nat.zero_add _)

/-- A frame is the registers of its window and a tag word of their FE bits below their poison bits. -/
theorem Memory.storeFrame_eq (m : Memory) (c : Ctx) (w a : Nat) :
    m.storeFrame c w a = ((((m.writeRun a 16 fun i => (c.cellAt (.win (w + i))).val).write (a + 128) 8
      (c.windowBits w (fun x => x.full) + c.windowBits w (fun x => x.poison) * 2 ^ 16)).setPoison (a + 128) false).setFull
        (a + 128) true).setTags a none 136 := rfl

theorem Memory.read_storeFrame_reg (m : Memory) (c : Ctx) (w : Nat) {a : Nat} (ha : 2 ^ 52 ≤ a) {i : Nat} (h : i < 16) :
    (m.storeFrame c w a).read (a + 8 * i) 8 = (c.cellAt (.win (w + i))).val.toNat := by
  rw [Memory.storeFrame_eq, Memory.read_setTags, Memory.read_setFull, Memory.read_setPoison,
    Memory.read_write_other _ _ _ _ _ _ (by omega)]
  exact m.read_writeRun ha 16 _ h

theorem Memory.read_storeFrame_tag (m : Memory) (c : Ctx) (w : Nat) {a : Nat} (ha : 2 ^ 52 ≤ a) :
    (m.storeFrame c w a).read (a + 128) 8
      = c.windowBits w (fun x => x.full) + c.windowBits w (fun x => x.poison) * 2 ^ 16 := by
  have hf := c.windowBits_lt w fun x => x.full
  have hp := c.windowBits_lt w fun x => x.poison
  rw [Memory.storeFrame_eq, Memory.read_setTags, Memory.read_setFull, Memory.read_setPoison]
  exact Memory.read_write_word _ (ha.trans (Nat.le_add_right _ _)) (by omega)

/-- The cell that entry i of a frame of words f is loaded as. -/
def frameCell (f : Nat → Nat × Bool) (i : Nat) : Cell :=
  { val := w64 (f i).1, full := (f 16).2 || hasBit (f 16).1 i, poison := (f 16).2 || hasBit (f 16).1 (16 + i) || (f i).2 }

theorem Ctx.loadFrame_win (c : Ctx) (f : Nat → Nat × Bool) (w : Nat) :
    (c.loadFrame f w).win = (List.range 16).foldl (fun t i => t.put (w + i) (frameCell f i)) c.win := by
  unfold Ctx.loadFrame frameCell
  obtain ⟨tag, bad⟩ := f 16
  dsimp only

theorem Ctx.cellAt_loadFrame (c : Ctx) (f : Nat → Nat × Bool) (w : Nat) {i : Nat} (h : i < 16) :
    (c.loadFrame f w).cellAt (.win (w + i)) = frameCell f i := by
  rw [Ctx.cellAt, Ctx.loadFrame_win, Table.get_putRun, if_pos (by omega), Nat.add_sub_cancel_left]

/-- Only a word of which something else has written over what the unit stored has two values. -/
theorem State.keptWord_cases (s : State) (a i : Nat) (kept : Option (Nat × Bool)) :
    s.keptWord a i kept = (s.mem.read a 8, s.mem.poisoned a)
      ∨ s.overwritten a kept = true ∧ ∃ y, kept = some y ∧ s.keptWord a i kept = y := by
  unfold State.keptWord
  split
  · next h =>
    obtain ⟨ho, -⟩ := (Bool.and_eq_true _ _).mp h
    cases kept with
    | none => simp [State.overwritten] at ho
    | some y => exact .inr ⟨ho, y, rfl, rfl⟩
  · exact .inl rfl

theorem State.afterKept_mem (s : State) (n : Nat) (b : Bool) : (s.afterKept n b).mem = s.mem := by cases b <;> rfl
theorem State.afterKept_ctxs (s : State) (n : Nat) (b : Bool) : (s.afterKept n b).ctxs = s.ctxs := by cases b <;> rfl

/-- A write to a line leaves memory and every context alone. -/
theorem State.wroteAll_keeps (s : State) (ls : List Nat) : (s.wroteAll ls).mem = s.mem ∧ (s.wroteAll ls).ctxs = s.ctxs := by
  induction ls generalizing s with
  | nil => exact ⟨rfl, rfl⟩
  | cons l ls ih => exact ih (s.wrote l)

/-! ### The registers of an opened and of a closed window (R83) -/

section windows
variable (c : Ctx)

theorem Ctx.reg_global (n : Fin 8) : c.reg (BitVec.ofNat 5 n) = if n = 0 then {} else c.g.get {} n := by
  fin_cases n <;> rfl

/-- Registers 8 to 31 are the cells of the current window and of the a registers of the one after it. -/
theorem Ctx.reg_window {n : Nat} (h : n < 24) : c.reg (BitVec.ofNat 5 (8 + n)) = c.win.get {} (16 * (c.depth - 1) + n) := by
  have e : (BitVec.ofNat 5 (8 + n)).toNat = 8 + n := by simp; omega
  unfold Ctx.reg Ctx.dest Ctx.winAt
  rw [e, if_neg (by omega), if_neg (by omega), Nat.add_sub_cancel_left]
  rfl

/-- A window that is opened: its l and c registers are new and l7 holds the return address; other cells stay. -/
theorem Ctx.openWindow_win (next : Word) (k : Nat) :
    (c.openWindow next).win.get {} k = if k = 16 * c.depth + 15 then { val := next }
      else if 16 * c.depth + 8 ≤ k ∧ k < 16 * c.depth + 24 then {} else c.win.get {} k := by
  unfold Ctx.openWindow
  dsimp only
  rw [Table.get_put, Table.get_putRun]

/-- A window that is closed: its l and c registers are dropped; other cells stay. -/
theorem Ctx.closeWindow_win {k : Nat} (h : k < 16 * (c.depth - 1) + 8) : c.closeWindow.win.get {} k = c.win.get {} k := by
  have e := Table.get_filterKeys {} c.win
    (fun j => !(decide (16 * (c.depth - 1) + 8 ≤ j) && decide (j < 16 * (c.depth - 1) + 24))) k
  rwa [if_pos (by simp; omega)] at e

end windows

/-! ### Slots -/

/-- A position outside every group is a slot's only lane. -/
theorem State.lanesOf_of_no_group {s : State} {p : Pos} (h : s.groupOf p = none) : s.lanesOf p = [p] := by
  simp [State.lanesOf, h]

theorem execIssueCycle_offers {s : State} {b r : Nat} (h1 : s.offered.contains (⟨b, r, s.cycle % 16⟩ : Pos).key = false)
    (h2 : s.offered.contains (usedKey ⟨b, r, s.cycle % 16⟩) = false) (h3 : s.offered.contains (slackKey b r) = false)
    (hc : (s.endWait ⟨b, r, s.cycle % 16⟩).canIssue ⟨b, r, s.cycle % 16⟩ = true) (hg : s.groupOf ⟨b, r, s.cycle % 16⟩ = none) :
    exec (.issueCycle b r) s = .next (s.offer ⟨b, r, s.cycle % 16⟩) := by
  have hf : s.fresh ⟨b, r, s.cycle % 16⟩ = true := by
    unfold State.fresh State.slotTaken
    rw [State.lanesOf_of_no_group hg]
    simp only [List.contains_cons, BEq.rfl, Bool.true_or, List.all_cons, List.all_nil, h1, h2, h3]; rfl
  show Host.Outcome.next (s.issueCycle b r) = _
  unfold State.issueCycle
  dsimp only
  rw [hf, hc]; rfl

/-! ### The window engine (R84, R85) -/

/-- The state when the spill of the oldest window of p has stored its frame at a. -/
def State.frameStored (s : State) (p : Pos) (a : Nat) : State :=
  let c := s.ctx p
  ({ s with mem := s.mem.storeFrame c (16 * (c.depth - c.resident)) a } : State).wroteAll [lineOf a, lineOf (a + 64), lineOf (a + 128)]

theorem State.frameStored_mem (s : State) (p : Pos) (a : Nat) :
    (s.frameStored p a).mem = s.mem.storeFrame (s.ctx p) (16 * ((s.ctx p).depth - (s.ctx p).resident)) a :=
  (State.wroteAll_keeps _ _).1

theorem State.frameStored_ctx (s : State) (p q : Pos) (a : Nat) : (s.frameStored p a).ctx q = s.ctx q := by
  show Table.get _ (State.wroteAll _ _).ctxs _ = _
  rw [(State.wroteAll_keeps _ _).2]; rfl

/-- The context when its oldest window, from place w on, is in a frame at a, with the window stack at wsp. -/
def Ctx.spillWindow (c : Ctx) (m : Memory) (w a : Nat) (wsp : Word) : Ctx :=
  { c with resident := c.resident - 1, win := c.win.filter fun e => !(decide (w ≤ e.1) && decide (e.1 < w + 16))
           frames := c.frameWords m a, sr := c.sr.put 0x030 (wsp + 136) }

/-- A spill that is complete (R84, R85). -/
theorem execWindowSpill_eq {s : State} {b r : Nat} {op : WinOp} (ho : (s.rill b r).winOp = some op) (hn : 9 ≤ op.slots)
    (hs : op.spill = true) :
    exec (.windowSpill b r op.k) s = .next (
      let p : Pos := ⟨b, r, op.k⟩
      let c := s.ctx p
      let wsp := s.srAt p 0x030
      let a := lsAddr b r wsp.toNat
      let s1 := s.frameStored p a
      (if c.resident ≤ 1 then s else s1.modCtx p fun x => x.spillWindow s1.mem (16 * (c.depth - c.resident)) a wsp).modRill b r
        fun x => { x with winOp := none }) := by
  show execWindowSpill b r op.k s = _
  unfold execWindowSpill
  rw [ho]
  by_cases hr : (s.ctx ⟨b, r, op.k⟩).resident ≤ 1
  · simp only [BEq.rfl, hs, decide_eq_true hn, decide_eq_true hr, Bool.and_true, if_true, if_pos hr]
  · simp only [BEq.rfl, hs, decide_eq_true hn, decide_eq_false hr, Bool.and_true, Bool.and_false, if_true, if_neg hr,
      Bool.false_eq_true, if_false]
    rfl

theorem Ctx.loadFrame_resident (c : Ctx) (f : Nat → Nat × Bool) (w : Nat) : (c.loadFrame f w).resident = c.resident := by
  unfold Ctx.loadFrame
  obtain ⟨tag, bad⟩ := f 16
  dsimp only

/-- What a fill loads as word i of a frame at a. -/
def State.frameWord (s : State) (p : Pos) (a i : Nat) : Nat × Bool :=
  s.keptWord (a + 8 * i) i ((s.ctx p).frames.find (frameKey (a + 8 * i)))

/-- The context when a window has been loaded from words f of a frame at a, with the window stack at wsp before. -/
def Ctx.fillWindow (c : Ctx) (f : Nat → Nat × Bool) (a : Nat) (wsp : Word) : Ctx :=
  let x := c.loadFrame f (16 * (c.depth - c.resident - 1))
  { x with resident := x.resident + 1, frames := (List.range 17).foldl (fun t i => t.drop (frameKey (a + 8 * i))) x.frames
           sr := x.sr.put 0x030 (wsp - 136) }

/-- Whether a word of the frame at a has been written over since its spill. -/
def State.frameTouched (s : State) (p : Pos) (a : Nat) : Bool :=
  (List.range 17).any fun i => s.overwritten (a + 8 * i) ((s.ctx p).frames.find (frameKey (a + 8 * i)))

theorem Ctx.fillWindow_resident (c : Ctx) (f : Nat → Nat × Bool) (a : Nat) (wsp : Word) :
    (c.fillWindow f a wsp).resident = c.resident + 1 := by
  simp only [Ctx.fillWindow, Ctx.loadFrame_resident]

/-- A fill that is complete (R84, R85). -/
theorem execWindowFill_eq {s : State} {b r : Nat} {op : WinOp} (ho : (s.rill b r).winOp = some op) (hn : 9 ≤ op.slots)
    (hs : op.spill = false) :
    exec (.windowFill b r op.k) s = .next (
      let p : Pos := ⟨b, r, op.k⟩
      let wsp := s.srAt p 0x030
      let a := lsAddr b r (wsp.toNat - 136)
      (if s.spilledWindow p then (s.afterKept 17 (s.frameTouched p a)).modCtx p fun c => c.fillWindow (s.frameWord p a) a wsp
        else s).modRill b r fun x => { x with winOp := none }) := by
  show execWindowFill b r op.k s = _
  unfold execWindowFill
  rw [ho]
  cases hw : s.spilledWindow ⟨b, r, op.k⟩
  · simp only [BEq.rfl, hs, decide_eq_true hn, hw, Bool.not_false, Bool.and_true, if_true, Bool.false_eq_true, if_false]
  · simp only [BEq.rfl, hs, decide_eq_true hn, hw, Bool.not_false, Bool.not_true, Bool.and_true, Bool.and_false, if_true,
      Bool.false_eq_true, if_false]
    rfl

/-- The window stack after a spill. -/
theorem State.srAt_of_spillWindow {t : State} {p : Pos} {c : Ctx} {m : Memory} {w a : Nat} {wsp : Word}
    (h : t.ctx p = c.spillWindow m w a wsp) : t.srAt p 0x030 = wsp + 136 := by
  simp [State.srAt, h, Ctx.spillWindow]

theorem State.srAt_of_fillWindow {t : State} {p : Pos} {c : Ctx} {f : Nat → Nat × Bool} {a : Nat} {wsp : Word}
    (h : t.ctx p = c.fillWindow f a wsp) : t.srAt p 0x030 = wsp - 136 := by
  simp [State.srAt, h, Ctx.fillWindow]

/-- A spill that is complete puts the oldest window in its frame (R84). -/
theorem execWindowSpill_stores {s : State} {b r : Nat} {op : WinOp} (ho : (s.rill b r).winOp = some op) (hn : 9 ≤ op.slots)
    (hs : op.spill = true) : ∃ t, exec (.windowSpill b r op.k) s = .next t ∧ (t.rill b r).winOp = none
      ∧ (1 < (s.ctx ⟨b, r, op.k⟩).resident →
          let c := s.ctx ⟨b, r, op.k⟩
          let w := 16 * (c.depth - c.resident)
          let wsp := s.srAt ⟨b, r, op.k⟩ 0x030
          let a := lsAddr b r wsp.toNat
          (∃ m, t.ctx ⟨b, r, op.k⟩ = c.spillWindow m w a wsp) ∧ t.mem = s.mem.storeFrame c w a) := by
  refine ⟨_, execWindowSpill_eq ho hn hs, by rw [State.rill_modRill], fun hr => ?_⟩
  dsimp only
  rw [if_neg (by omega), State.ctx_modRill, State.ctx_modCtx, State.frameStored_ctx, State.modRill_mem, State.modCtx_mem]
  exact ⟨⟨_, rfl⟩, State.frameStored_mem _ _ _⟩

/-- A fill that is complete loads the newest frame, where there is one (R84). -/
theorem execWindowFill_loads {s : State} {b r : Nat} {op : WinOp} (ho : (s.rill b r).winOp = some op) (hn : 9 ≤ op.slots)
    (hs : op.spill = false) : ∃ t, exec (.windowFill b r op.k) s = .next t ∧ (t.rill b r).winOp = none ∧ t.mem = s.mem
      ∧ t.ctx ⟨b, r, op.k⟩ =
        let c := s.ctx ⟨b, r, op.k⟩
        let wsp := s.srAt ⟨b, r, op.k⟩ 0x030
        let a := lsAddr b r (wsp.toNat - 136)
        if s.spilledWindow ⟨b, r, op.k⟩ then c.fillWindow (s.frameWord ⟨b, r, op.k⟩ a) a wsp else c := by
  refine ⟨_, execWindowFill_eq ho hn hs, by rw [State.rill_modRill], ?_⟩
  dsimp only
  rw [State.modRill_mem, State.ctx_modRill]
  split
  · rw [State.modCtx_mem, State.ctx_modCtx]
    refine ⟨State.afterKept_mem _ _ _, ?_⟩
    unfold State.ctx
    rw [State.afterKept_ctxs]
  · exact ⟨rfl, rfl⟩

/-- A cell of a window that a fill has loaded holds the word of its frame, or the word that was spilled. -/
theorem Ctx.cellAt_fillWindow (c : Ctx) (f : Nat → Nat × Bool) (a : Nat) (wsp : Word) {i : Nat} (h : i < 16) :
    (c.fillWindow f a wsp).cellAt (.win (16 * (c.depth - c.resident - 1) + i)) = frameCell f i := by
  rw [← c.cellAt_loadFrame f (16 * (c.depth - c.resident - 1)) h]
  simp only [Ctx.cellAt, Ctx.fillWindow]

theorem frameWord_val (s : State) (p : Pos) (a i : Nat) :
    w64 (s.frameWord p a i).1 = w64 (s.mem.read (a + 8 * i) 8)
      ∨ ∃ y, (s.ctx p).frames.find (frameKey (a + 8 * i)) = some y ∧ w64 (s.frameWord p a i).1 = w64 y.1 := by
  rcases s.keptWord_cases (a + 8 * i) i ((s.ctx p).frames.find (frameKey (a + 8 * i))) with h | ⟨-, y, hy, h⟩
  · exact .inl (by rw [State.frameWord, h])
  · exact .inr ⟨y, hy, by rw [State.frameWord, h]⟩

/-- A word that nothing has written over since its spill is loaded as memory holds it. -/
theorem frameWord_untouched {s : State} {p : Pos} {a i : Nat}
    (h : s.overwritten (a + 8 * i) ((s.ctx p).frames.find (frameKey (a + 8 * i))) = false) :
    s.frameWord p a i = (s.mem.read (a + 8 * i) 8, s.mem.poisoned (a + 8 * i)) := by
  rcases s.keptWord_cases (a + 8 * i) i ((s.ctx p).frames.find (frameKey (a + 8 * i))) with h' | ⟨h', -⟩
  · exact h'
  · rw [h] at h'; cases h'

/-! ### Registers across the opening and the closing of a window -/

theorem Ctx.reg_openWindow (c : Ctx) (next : Word) {n : Nat} (h : n < 24) :
    (c.openWindow next).reg (BitVec.ofNat 5 (8 + n)) = if n = 15 then { val := next }
      else if 8 ≤ n then {} else c.win.get {} (16 * c.depth + n) := by
  rw [Ctx.reg_window _ h, show (c.openWindow next).depth - 1 = c.depth from rfl, Ctx.openWindow_win]
  simp only [Nat.add_left_cancel_iff, Nat.add_le_add_iff_left, Nat.add_lt_add_iff_left, h, and_true]

theorem Ctx.reg_closeWindow (c : Ctx) {n : Nat} (h : n < 24) (hd : 2 ≤ c.depth) :
    c.closeWindow.reg (BitVec.ofNat 5 (8 + n)) = c.win.get {} (16 * (c.depth - 2) + n) := by
  rw [Ctx.reg_window _ h]
  exact c.closeWindow_win (by show 16 * (c.depth - 1 - 1) + n < _; omega)

/-- Settles O14: each event as the equation that gives the state it ends in, and the registers of a window as the cells of
its place. -/
theorem slotsAndWindows : Obligations.SlotsAndWindows := by
  refine ⟨fun s b r => ⟨fun h1 h2 h3 hc hg => ⟨_, execIssueCycle_offers h1 h2 h3 hc hg, rfl⟩, fun op ho hn => ⟨fun hs => ?_, fun hs => ?_⟩⟩,
    fun c next hd => ⟨fun i => ?_, fun i => ?_, fun i => ?_, ?_, fun i => ?_, fun o ho => ⟨fun i => ?_, fun i => ?_, fun i => ?_⟩⟩⟩
  · obtain ⟨t, ht, hw, h⟩ := execWindowSpill_stores ho hn hs
    refine ⟨t, ht, hw, fun hr => ?_⟩
    obtain ⟨⟨m, hc⟩, hm⟩ := h hr
    refine ⟨by rw [hc]; rfl, State.srAt_of_spillWindow hc, fun i hi => ?_, ?_⟩
    · rw [hm]; exact Memory.read_storeFrame_reg _ _ _ (lsAddr_above _ _ _) hi
    · rw [hm]; exact Memory.read_storeFrame_tag _ _ _ (lsAddr_above _ _ _)
  · obtain ⟨t, ht, hw, hm, hc⟩ := execWindowFill_loads ho hn hs
    refine ⟨t, ht, hw, hm, fun hr => ?_, fun hr => ?_⟩
    · have hsp : s.spilledWindow ⟨b, r, op.k⟩ = true := decide_eq_true hr
      dsimp only at hc
      rw [if_pos hsp] at hc
      refine ⟨by rw [hc, Ctx.fillWindow_resident], State.srAt_of_fillWindow hc, fun i hi => ?_, fun hu i hi => ?_⟩
      · rw [hc, Ctx.cellAt_fillWindow _ _ _ _ hi]
        exact frameWord_val s _ _ i
      · rw [hc, Ctx.cellAt_fillWindow _ _ _ _ hi, frameCell, frameWord_untouched (hu i (by omega)), frameWord_untouched (hu 16 (by omega))]
    · have hsp : ¬ s.spilledWindow ⟨b, r, op.k⟩ = true := by rw [State.spilledWindow, decide_eq_true_eq]; omega
      dsimp only at hc
      rwa [if_neg hsp] at hc
  · rw [show 24 + (i : Nat) = 8 + (16 + i) by omega, c.reg_openWindow next (by omega), c.reg_window (by omega),
      if_neg (by omega), if_neg (by omega)]
    congr 1; omega
  · rw [show 16 + (i : Nat) = 8 + (8 + i) by omega, c.reg_openWindow next (by omega), if_neg (by omega), if_pos (by omega)]
  · rw [show 24 + (i : Nat) = 8 + (16 + i) by omega, c.reg_openWindow next (by omega), if_neg (by omega), if_pos (by omega)]
  · exact c.reg_openWindow next (n := 15) (by omega)
  · rw [Ctx.reg_global, Ctx.reg_global]; rfl
  · rw [show 24 + (i : Nat) = 8 + (16 + i) by omega, o.reg_closeWindow (by omega) ho, o.reg_window (by omega)]
    congr 1; omega
  · exact o.reg_closeWindow (by omega) ho
  · rw [Ctx.reg_global, Ctx.reg_global]; rfl

end Sys2Proof.Machine
end

section
/-! PROOFS. What each operation of the state leaves of memory: those here write none of it. One lemma per operation, in the model's order (R28). -/

namespace Sys2Proof.Machine

@[simp] theorem State.mem_ite (c : Prop) [Decidable c] (a b : State) :
    (if c then a else b).mem = if c then a.mem else b.mem := by
  split <;> rfl

theorem State.foldl_mem {β : Type} {l : List β} {f : State → β → State} {s : State} {m : Memory}
    (hf : ∀ s x, (f s x).mem = s.mem) (h : s.mem = m) :
    (l.foldl f s).mem = m := by
  induction l generalizing s with
  | nil => exact h
  | cons x l ih => exact ih ((hf s x).trans h)

@[simp] theorem State.translate_mem (s : State) (p : Pos) (va : Word) (need : Need) :
    (s.translate p va need).1.mem = s.mem :=
  (s.translate_keeps p va need).1

@[simp] theorem State.translateAs_mem (s : State) (p : Pos) (n asid root va : Nat) (user : Bool) (need : Need) :
    (s.translateAs p n asid root va user need).1.mem = s.mem :=
  (s.translateAs_keeps p n asid root va user need).1

/-! ### Rings -/

@[simp] theorem State.wrote_mem (s : State) (line : Nat) : (s.wrote line).mem = s.mem := rfl

@[simp] theorem State.wroteAll_mem (s : State) (lines : List Nat) :
    (s.wroteAll lines).mem = s.mem := (s.wroteAll_keeps lines).1

@[simp] theorem State.callBack_mem (s : State) (line : Nat) (write : Bool) :
    (s.callBack line write).mem = s.mem := by simp [State.callBack]

@[simp] theorem State.recall_mem (s : State) (line : Nat) : (s.recall line).mem = s.mem := rfl

@[simp] theorem State.ringWrote_mem (s : State) (lines : List Nat) :
    (s.ringWrote lines).mem = s.mem := (State.wroteAll_mem _ _).trans (State.foldl_mem (by simp) rfl)

@[simp] theorem State.answerOuter_mem (s : State) (v : Nat × Bool) : (s.answerOuter v).mem = s.mem := rfl

@[simp] theorem State.logError_mem (s : State) (basin : Option Nat) (cls kind num : Nat) (addr : Word) :
    (s.logError basin cls kind num addr).mem = s.mem := rfl

/-! ### Operations of the state -/

@[simp] theorem State.modMyRill_mem (s : State) (f : Rill → Rill) : (s.modMyRill f).mem = s.mem := rfl

@[simp] theorem State.setRillSr_mem (s : State) (b r n : Nat) (v : Word) : (s.setRillSr b r n v).mem = s.mem := rfl

theorem State.takeRecord_mem {s t : State} {b r : Nat} (h : s.takeRecord b r = some t) : t.mem = s.mem := by
  unfold State.takeRecord at h
  split at h
  · cases h
  · cases h; rfl

@[simp] theorem State.endEvwait_mem (s : State) (b r : Nat) (d : Dest) (v : Word) : (s.endEvwait b r d v).mem = s.mem := rfl

@[simp] theorem State.post_mem (s : State) (b r : Nat) (e : EventRec) : (s.post b r e).mem = s.mem := by
  unfold State.post
  extract_lets s1
  split
  · split
    · next s2 e =>
      have h : s2.mem = s1.mem := State.takeRecord_mem e
      exact h
    · rfl
  · rfl

@[simp] theorem State.cutBasin_mem (s0 : State) (n : Nat) : (State.cutBasin s0 n).mem = s0.mem := by
  unfold State.cutBasin
  exact State.foldl_mem (by simp) rfl

@[simp] theorem State.recallWritable_mem (s : State) (line : Nat) : (s.recallWritable line).mem = s.mem := rfl

@[simp] theorem State.dropLocks_mem (s : State) (p : Pos) : (s.dropLocks p).mem = s.mem := by simp [State.dropLocks]

@[simp] theorem State.txAbortAt_mem (s : State) (p : Pos) (cause0 info0 : Nat) (keepPc : Option Word) :
    (s.txAbortAt p cause0 info0 keepPc).mem = s.mem := by
  unfold State.txAbortAt
  dsimp only
  split
  · rfl
  · rw [State.dropLocks_mem, State.setCtx_mem]
    split
    · exact State.foldl_mem (by simp) rfl
    · rfl

@[simp] theorem State.txAbort_mem (s : State) (cause info : Nat) :
    (s.txAbort cause info).mem = s.mem := by simp [State.txAbort]

@[simp] theorem State.dropGate_mem (s : State) (agent : Nat) : (s.dropGate agent).mem = s.mem := rfl

@[simp] theorem State.dropBlockGate_mem (s : State) (p : Pos) : (s.dropBlockGate p).mem = s.mem := by
  unfold State.dropBlockGate
  split <;> simp

@[simp] theorem State.noteRaise_mem (s : State) (old : Memory) (p : Pos) (id pa size : Nat) :
    (s.noteRaise old p id pa size).mem = s.mem := rfl

@[simp] theorem State.orderAfter_mem (s : State) (p : Pos) (k : Nat) : (s.orderAfter p k).mem = s.mem := rfl

@[simp] theorem State.stopAt_mem (s0 : State) (p : Pos) (cause : Nat) (val : Word) (len orig : Nat) (pc : Word)
    (write : Bool) :
    (State.stopAt s0 p cause val len orig pc write).mem = s0.mem := by simp [State.stopAt]

@[simp] theorem State.resume_mem (s : State) (p : Pos) : (s.resume p).mem = s.mem := rfl

@[simp] theorem State.selfReturn_mem (s : State) (skip : Bool) : (s.selfReturn skip).mem = s.mem := rfl

@[simp] theorem State.begin_mem (s : State) (p : Pos) : (s.begin p).mem = s.mem := rfl

/-! ### Groups -/

@[simp] theorem State.modGroup_mem (s : State) (b k r : Nat) (f : Group → Group) : (s.modGroup b k r f).mem = s.mem := rfl

@[simp] theorem State.dropGroup_mem (s : State) (b k mask : Nat) : (s.dropGroup b k mask).mem = s.mem := rfl

@[simp] theorem State.setEntries_mem (s : State) (p : Pos) (ws : List Word) : (s.setEntries p ws).mem = s.mem := rfl

@[simp] theorem State.splitGroup_mem (s : State) (b : Nat) (g : Group) (cause : Nat → Nat) (activePc : Option Word) :
    (s.splitGroup b g cause activePc).mem = s.mem := by
  unfold State.splitGroup
  refine State.foldl_mem (fun t r => ?_) rfl
  dsimp only
  split <;> simp

@[simp] theorem State.leaveGroup_mem (s : State) (p : Pos) : (s.leaveGroup p).mem = s.mem := by
  unfold State.leaveGroup
  split <;> simp

@[simp] theorem State.splitUnit_mem (s : State) (g : Group) (cause : Nat) :
    (s.splitUnit g cause).mem = s.mem := by simp [State.splitUnit]

@[simp] theorem State.groupTransfer_mem (s : State) (g : Group) : (s.groupTransfer g).mem = s.mem := by
  unfold State.groupTransfer
  dsimp only
  split <;> simp

@[simp] theorem State.oneLeft_mem (s : State) (b : Nat) (g : Group) : (s.oneLeft b g).mem = s.mem := by simp [State.oneLeft]

@[simp] theorem State.haltAt_mem (s : State) (p : Pos) : (s.haltAt p).mem = s.mem := rfl

@[simp] theorem State.cacheMode_mem (s : State) (b : Nat) (shared : Bool) : (s.cacheMode b shared).mem = s.mem := rfl

@[simp] theorem State.withdrawFuse_mem (s : State) (p : Pos) : (s.withdrawFuse p).mem = s.mem := by
  unfold State.withdrawFuse
  split
  · exact State.foldl_mem (by simp) rfl
  · rfl

/-! ### Shared registers and long operations -/

@[simp] theorem State.issueLong_mem (s : State) (d : Dest) (la unit : Nat) (v : Word) (p : Bool) (fl : BitVec 5) (due : Nat) :
    (s.issueLong d la unit v p fl due).mem = s.mem := rfl

@[simp] theorem State.landLong_mem (s : State) (p : Pos) (unit n : Nat) : (s.landLong p unit n).mem = s.mem := by
  unfold State.landLong
  split <;> simp

@[simp] theorem State.mEffect_mem (s : State) (m : Nat) (val : Option (Word × Bool)) (full : Option Bool) :
    (s.mEffect m val full).mem = s.mem := rfl

@[simp] theorem State.mReserve_mem (s : State) (m : Nat) : (s.mReserve m).mem = s.mem := rfl

@[simp] theorem State.attempted_mem (s : State) : (s.attempted).mem = s.mem := rfl

theorem State.endUnit_mem (s t : State) (p : Pos) (pc : Word) :
    (s.endUnit t p pc).mem = if (t.ctx p).held.isSome then s.mem else t.mem := by
  unfold State.endUnit
  dsimp only
  split
  · rfl
  · split <;> rfl

@[simp] theorem State.nwrAccept_mem (s : State) (q : Pos) (d : BitVec 5) (v : Word) (p : Bool) :
    (s.nwrAccept q d v p).mem = s.mem := rfl

/-! ### Accesses -/

@[simp] theorem State.afterDraw_mem {α : Type} (s : State) (vs : List α) : (s.afterDraw vs).mem = s.mem := by
  unfold State.afterDraw
  split <;> rfl

@[simp] theorem State.wake_mem (s : State) (i : Nat) (e : REntry) : (s.wake i e).mem = s.mem := by
  unfold State.wake
  split <;> simp

@[simp] theorem State.resolve_mem (s : State) (p : Pos) (a : Access) :
    (s.resolve p a).1.mem = s.mem := (s.resolve_keeps p a).1

@[simp] theorem State.resolveAll_mem (s : State) (p : Pos) (l : List Access) : (s.resolveAll p l).1.mem = s.mem := by
  induction l generalizing s with
  | nil => rfl
  | cons a t ih => exact (ih _).trans (s.resolve_mem p a)

/-! ### Lines and their owners -/

@[simp] theorem State.notifyMisses_mem (s : State) (ms : List (Nat × Word × Nat × Nat)) :
    (s.notifyMisses ms).mem = s.mem := rfl

@[simp] theorem State.acquire_mem (s : State) (p : Pos) (scope pa size : Nat) : (s.acquire p scope pa size).mem = s.mem := rfl

@[simp] theorem State.l1Fill_mem (s : State) (p : Pos) (halves : List Nat) (n : Nat) (l : L1Line) :
    (s.l1Fill p halves n l).mem = s.mem := by
  unfold State.l1Fill
  dsimp only
  split
  · simp
  · split <;> simp

@[simp] theorem State.l1Take_mem (s : State) (p : Pos) (va n : Nat) (l : L1Line) : (s.l1Take p va n l).mem = s.mem := by
  unfold State.l1Take
  dsimp only
  split <;> simp

@[simp] theorem State.l1Read_mem (s0 : State) (p : Pos) (va : Word) (line : Nat) (sync : Bool) :
    (State.l1Read s0 p va line sync).mem = s0.mem := by simp [State.l1Read]

@[simp] theorem State.cached_mem (s : State) (p : Pos) (a : Access) : (s.cached p a).mem = s.mem := by simp [State.cached]

@[simp] theorem State.l1Own_mem (s0 : State) (p : Pos) (va : Word) (line : Nat) (l : L1Line) :
    (State.l1Own s0 p va line l).mem = s0.mem := by simp [State.l1Own]

@[simp] theorem State.deliver_mem (s : State) (p : Pos) (a : Access) (v : Word) (bad : Bool) :
    (s.deliver p a v bad).mem = s.mem := by
  unfold State.deliver
  split <;> simp

@[simp] theorem State.lowerCc_mem (s : State) (b r m : Nat) : (s.lowerCc b r m).mem = s.mem := rfl

@[simp] theorem State.raiseCc_mem (s : State) (b r m : Nat) : (s.raiseCc b r m).mem = s.mem := rfl

@[simp] theorem State.orderOlder_mem (s : State) (p : Pos) (a : Access) :
    (s.orderOlder p a).mem = s.mem := by simp [State.orderOlder]

@[simp] theorem State.retireAccess_mem (s : State) (p : Pos) (a : Access) : (s.retireAccess p a).mem = s.mem := by
  unfold State.retireAccess
  split <;> simp

@[simp] theorem State.startFanout_mem (s : State) (p : Pos) (a : Access) (sharers : List Nat) :
    (s.startFanout p a sharers).mem = s.mem := rfl

@[simp] theorem State.gate_mem (s : State) (p : Pos) (agent : Nat) (lines : List Nat) (sync : Nat → Bool) :
    (s.gate p agent lines sync).1.mem = s.mem := by
  unfold State.gate
  dsimp only
  split <;> exact State.foldl_mem (by simp only [State.mem_ite, ite_self, implies_true]) rfl

@[simp] theorem State.noteOlder_mem (s : State) (m : Memory) (p : Pos) (a : Access) :
    (s.noteOlder m p a).mem = s.mem := by simp [State.noteOlder]

/-! ### Queues -/

@[simp] theorem State.takePlace_mem (s : State) (p : Pos) (agent seq : Nat) (lines : List Nat) :
    (s.takePlace p agent seq lines).1.mem = s.mem := by
  unfold State.takePlace
  split <;> simp

@[simp] theorem State.gateInLine_mem (s : State) (p : Pos) (agent seq : Nat) (lines : List Nat) (sync : Nat → Bool) :
    (s.gateInLine p agent seq lines sync).1.mem = s.mem := by
  have ht := s.takePlace_mem p agent seq lines
  unfold State.gateInLine
  split <;> rename_i e <;> rw [e] at ht
  · exact ht
  · simpa using ht

/-! ### Transaction logs -/

@[simp] theorem State.setTx_mem (s : State) (t : Tx) : (s.setTx t).mem = s.mem := rfl

@[simp] theorem State.afterSpilled_mem (s : State) (p : Pos) (t : Tx) :
    (s.afterSpilled p t).mem = s.mem := s.afterKept_mem _ _

@[simp] theorem State.noteUsed_mem (s : State) (va : Word) : (s.noteUsed va).mem = s.mem := by
  unfold State.noteUsed
  split <;> simp

/-! ### Block instructions -/

@[simp] theorem State.dropWait_mem (s : State) (p : Pos) : (s.dropWait p).mem = s.mem := by simp [State.dropWait]

@[simp] theorem State.blockNext_mem (s : State) (x : Block) (next : Option Block) : (s.blockNext x next).mem = s.mem := rfl

@[simp] theorem State.readElement_mem (s : State) (a : Access) :
    (s.readElement a).1.mem = s.mem := by simp [State.readElement]

/-! ### Deques -/

@[simp] theorem State.loadedTasks_mem (s : State) (b r : Nat) (as : List Nat) :
    (s.loadedTasks b r as).mem = s.mem := s.afterKept_mem _ _

theorem State.popBottom_mem {s t : State} {b r : Nat} {e : TaskRec} (h : s.popBottom b r = some (e, t)) : t.mem = s.mem := by
  unfold State.popBottom at h
  dsimp only at h
  split at h <;> cases h
  simp

theorem State.popTop_mem {s t : State} {b r : Nat} {e : TaskRec} (h : s.popTop b r = some (e, t)) : t.mem = s.mem := by
  unfold State.popTop at h
  dsimp only at h
  split at h
  · cases h; simp
  · split at h <;> cases h
    rfl

@[simp] theorem State.fillTake_mem (s : State) (p : Pos) (t : TakeOp) (code : Nat) (rec : TaskRec) :
    (s.fillTake p t code rec).mem = s.mem := rfl

@[simp] theorem State.dropTake_mem (s : State) (p : Pos) (t : TakeOp) : (s.dropTake p t).mem = s.mem := rfl

@[simp] theorem State.popFor_mem (s : State) (p : Pos) (t : TakeOp) : (s.popFor p t).mem = s.mem := by
  unfold State.popFor
  split
  · next e => simp [State.popBottom_mem e]
  · split <;> simp

@[simp] theorem State.forwardPushes_mem (s : State) (b r : Nat) :
    (s.forwardPushes b r).mem = s.mem := by simp [State.forwardPushes]

/-! ### Atomic operations -/

@[simp] theorem State.endMonwait_mem (s : State) (p : Pos) (d : Dest) (expired : Bool) :
    (s.endMonwait p d expired).mem = s.mem := rfl

@[simp] theorem State.setBarrier_mem (s : State) (n : BitVec 4) (x : Barrier) : (s.setBarrier n x).mem = s.mem := rfl

@[simp] theorem State.correctArrival_mem (s : State) (n : Nat) (o : Arrival × Nat × Bool) :
    (s.correctArrival n o).mem = s.mem := rfl

@[simp] theorem State.arriveBar_mem (s : State) (n : BitVec 4) (a : Arrival) : (s.arriveBar n a).1.mem = s.mem :=
  State.foldl_mem (by simp) (State.setBarrier_mem _ _ _)

/-! ### Streams -/

@[simp] theorem State.engineEvent_mem (s : State) (b r k cause idx orig : Nat) (va : Word) (write : Bool) :
    (s.engineEvent b r k cause idx orig va write).mem = s.mem := by simp [State.engineEvent]

@[simp] theorem State.unbind_mem (s : State) (p : Pos) (v : Nat) (x : Stream) : (s.unbind p v x).mem = s.mem := rfl

@[simp] theorem State.setSlot_mem (s : State) (p : Pos) (v : Nat) (x : Stream) : (s.setSlot p v x).mem = s.mem := rfl

/-! ### Copy commands -/

@[simp] theorem State.setCopy_mem (s : State) (b : Nat) (q : CopyCmd) : (s.setCopy b q).mem = s.mem := rfl

/-! ### Matrix commands -/

@[simp] theorem State.enqueueMx_mem (s : State) (b : Nat) (q : MxCmd) (entry : Nat) :
    (s.enqueueMx b q entry).mem = s.mem := rfl

@[simp] theorem State.removeMx_mem (s : State) (b : Nat) (q : MxCmd) : (s.removeMx b q).mem = s.mem := rfl

@[simp] theorem State.finishMx_mem (s : State) (b : Nat) (q : MxCmd) : (s.finishMx b q).mem = s.mem := by
  unfold State.finishMx
  dsimp only
  have h := State.foldl_mem (l := q :: (s.braid b).mx.filter fun z => z.id != q.id && z.lead == q.id)
    (f := fun t z => t.removeMx b z) (by simp) (rfl : s.mem = _)
  split <;> exact h

@[simp] theorem State.mxEvent_mem (s : State) (b : Nat) (q : MxCmd) (code : Nat) (va : Word) (write : Bool) :
    (s.mxEvent b q code va write).mem = s.mem := by simp [State.mxEvent]

@[simp] theorem State.mxEffect_mem (s : State) (b : Nat) (q : MxCmd) : (s.mxEffect b q).1.mem = s.mem := by
  unfold State.mxEffect
  split <;> simp

@[simp] theorem State.setMx_mem (s : State) (b : Nat) (q : MxCmd) : (s.setMx b q).mem = s.mem := rfl

@[simp] theorem State.startMx_mem (s : State) (b : Nat) (q : MxCmd) : (s.startMx b q).mem = s.mem := by
  unfold State.startMx
  dsimp only
  split
  · exact State.foldl_mem (by simp) rfl
  · split
    · refine State.foldl_mem (by simp) ((State.mxEvent_mem _ _ _ _ _ _).trans ?_)
      split
      · exact State.foldl_mem (by simp) rfl
      · rfl
    · exact State.foldl_mem (by simp) ((State.setMx_mem _ _ _).trans (s.mxEffect_mem b q))

@[simp] theorem State.endStacc_mem (s : State) (b : Nat) (q : MxCmd) (cleared : Bool) :
    (s.endStacc b q cleared).mem = s.mem := by simp [State.endStacc]

@[simp] theorem State.endMx_mem (s : State) (b : Nat) (q : MxCmd) : (s.endMx b q).mem = s.mem := by
  unfold State.endMx
  split <;> simp

@[simp] theorem State.breakTag_mem (s : State) (b : Nat) (q : MxCmd) : (s.breakTag b q).mem = s.mem := rfl

@[simp] theorem State.cancelMx_mem (s : State) (b : Nat) (q : MxCmd) : (s.cancelMx b q).mem = s.mem := by
  unfold State.cancelMx
  split <;> simp

/-! ### Transactions -/

@[simp] theorem State.beginTx_mem (s : State) (label : Word) (irrev : Bool) (spill : Word) :
    (s.beginTx label irrev spill).mem = s.mem := rfl

@[simp] theorem State.writeAbortreq_mem (s : State) (p : Pos) (v : Word) : (s.writeAbortreq p v).mem = s.mem := rfl

@[simp] theorem State.endTx_mem (s : State) (p : Pos) (qd : Nat) : (s.endTx p qd).mem = s.mem := by simp [State.endTx]

@[simp] theorem State.enterApply_mem (s : State) (p : Pos) (t : Tx) : (s.enterApply p t).mem = s.mem :=
  State.foldl_mem (by simp) rfl

@[simp] theorem lockLines_mem (p : Pos) (l : List Nat) (s : State) : (lockLines p l s).1.mem = s.mem := by
  induction l generalizing s with
  | nil => rfl
  | cons a t ih =>
    unfold lockLines
    repeat' split
    all_goals simp [ih]

@[simp] theorem State.withdrawToken_mem (s : State) (p : Pos) : (s.withdrawToken p).mem = s.mem := rfl

/-! ### Launches -/

/-- A walk of a basin's queue changes translation requests and draws only. The definition is unfolded as a function: the kernel,
which compares an applied function with its body, would otherwise evaluate the walk. -/
theorem State.queueWalk_mem {s t : State} {n asid root va : Nat} {need : Need} {x : Xlat}
    (h : s.queueWalk n asid root va need = (t, x)) :
    t.mem = s.mem := by
  obtain ⟨f, hf⟩ : ∃ f, f = @State.queueWalk := ⟨_, rfl⟩
  rw [← hf] at h
  delta State.queueWalk at hf
  subst hf
  beta_reduce at h
  extract_lets ws s1 at h
  have hs : s1.mem = s.mem := s.afterDraw_mem _
  clear_value s1
  split at h
  · cases h; exact hs
  · cases h; exact hs
  · next leaf lvl _ =>
    dsimp only at h
    split at h
    · cases h; exact hs
    · split at h
      · have ha := State.askHost_keeps s1 (queuePlace n) n asid va need leaf (pageBytes lvl)
        rw [h] at ha
        exact ha.1.trans hs
      · cases h; exact hs

theorem State.queueReach_mem {s t : State} {n : Nat} {aspace va : Word} {need : Need} {x : Xlat}
    (h : s.queueReach n aspace va need = (t, x)) :
    t.mem = s.mem := by
  unfold State.queueReach at h
  split at h
  · cases h; rfl
  · split at h
    · cases h; rfl
    · split at h
      · next p _ =>
        have ht := s.translateAs_mem p n (field aspace 63 48) (field aspace 43 12) va.toNat true need
        rwa [h] at ht
      · exact State.queueWalk_mem h

@[simp] theorem State.liftReservations_mem (s : State) (n : Nat) : (s.liftReservations n).mem = s.mem := rfl

@[simp] theorem State.modRecord_mem (s : State) (n id : Nat) (f : Record → Record) : (s.modRecord n id f).mem = s.mem := rfl

@[simp] theorem State.discardWrite_mem (s : State) (vf : Nat) : (s.discardWrite vf).mem = s.mem := rfl

@[simp] theorem State.place_mem (s : State) (n b : Nat) (x : Record) (f : Fit) : (s.place n b x f).mem = s.mem := by
  unfold State.place
  dsimp only
  rw [State.mem_ite]
  exact (ite_self _).trans (State.foldl_mem (by simp) rfl)

@[simp] theorem State.reserve_mem (s : State) (die n : Nat) (x : Record) : (s.reserve die n x).mem = s.mem := by
  unfold State.reserve
  dsimp only
  split
  · rfl
  · split <;> simp

set_option maxRecDepth 4000 in
/-- Unfolding the step of the recursion evaluates the 512 places of braids. -/
@[simp] theorem placeFrom_mem (die n : Nat) (l : List Record) (s : State) : (placeFrom die n l s).mem = s.mem := by
  induction l generalizing s with
  | nil => rfl
  | cons x t ih =>
    show State.mem (match s.fitBraid die n x with
      | some (b, f) => s.place n b x f
      | none => placeFrom die n t (if x.aged then s.reserve die n x else s)) = _
    cases s.fitBraid die n x with
    | some e => exact s.place_mem n e.1 x e.2
    | none =>
      refine (ih _).trans ?_
      split
      · exact s.reserve_mem _ _ _
      · rfl

@[simp] theorem State.judgeAged_mem (s : State) (n : Nat) : (s.judgeAged n).mem = s.mem := rfl

/-! ### Performing an access -/

@[simp] theorem State.unsend_mem (s : State) (n : Nat) : (s.unsend n).mem = s.mem := rfl

@[simp] theorem State.asUnit_mem (s : State) (p : Pos) (pc : Word) (len : Nat) : (s.asUnit p pc len).mem = s.mem := rfl

@[simp] theorem State.joinReturn_mem (s : State) (p : Pos) (a : Access) (k : Nat) :
    (s.joinReturn p a k).mem = s.mem := by simp [State.joinReturn]

@[simp] theorem State.ldaReturn_mem (s : State) (p : Pos) (a : Access) (sx : Bool) (scope : Nat) (qs : Option Nat) :
    (s.ldaReturn p a sx scope qs).mem = s.mem := by simp [State.ldaReturn]

@[simp] theorem State.sendTask_mem (s : State) (p : Pos) (a : Access) : (s.sendTask p a).mem = s.mem := by
  unfold State.sendTask
  dsimp only
  split <;> simp

@[simp] theorem State.dropFlight_mem (s : State) (p : Pos) (a : Access) : (s.dropFlight p a).mem = s.mem := rfl

@[simp] theorem State.returnRmw_mem (s : State) (p : Pos) (a : Access) (old : Nat) (bad : Bool) :
    (s.returnRmw p a old bad).mem = s.mem := by
  unfold State.returnRmw
  repeat' split
  all_goals simp

@[simp] theorem State.dropFetched_mem (s : State) (p : Pos) (reach line : Nat) :
    (s.dropFetched p reach line).mem = s.mem := rfl

@[simp] theorem joinFreely_mem (s : State) (l : List Packet) (n : List Packet) : (joinFreely s l n).1.mem = s.mem := by
  induction l generalizing s n with
  | nil => rfl
  | cons q t ih => exact ih _ _

@[simp] theorem State.arrive_mem (s : State) (l : List Packet) : (s.arrive l).mem = s.mem := by
  unfold State.arrive
  split <;> simp

@[simp] theorem State.setRequest_mem (s : State) (n : Nat) (f : Access → Access) : (s.setRequest n f).mem = s.mem := rfl

/-! ### System instructions -/

@[simp] theorem State.writeSr_mem (s : State) (p : Pos) (n : Nat) (v : Word) :
    (s.writeSr p n v).mem = s.mem := by simp [State.writeSr]

@[simp] theorem State.sysStop_mem (s : State) (v : Word) : (s.sysStop v).mem = s.mem := by simp [State.sysStop]

@[simp] theorem State.returnLane_mem (s : State) (p : Pos) : (s.returnLane p).mem = s.mem := by
  unfold State.returnLane
  split <;> simp

@[simp] theorem State.holdForMove_mem (s : State) (p : Pos) : (s.holdForMove p).mem = s.mem := by simp [State.holdForMove]

@[simp] theorem State.resumeAt_mem (s : State) (p : Pos) : (s.resumeAt p).mem = s.mem := by simp [State.resumeAt]

@[simp] theorem State.cstop_mem (s : State) (p : Pos) : (s.cstop p).mem = s.mem := by simp [State.cstop]

@[simp] theorem State.splitFor_mem (s : State) (p : Pos) : (s.splitFor p).mem = s.mem := by
  unfold State.splitFor
  split <;> simp

@[simp] theorem State.preempt_mem (s : State) (p : Pos) : (s.preempt p).mem = s.mem := by simp [State.preempt]

@[simp] theorem State.unbindAll_mem (s : State) (p : Pos) : (s.unbindAll p).mem = s.mem := State.foldl_mem (by simp) rfl

@[simp] theorem State.retryPlace_mem (s : State) (p : Pos) (a : Access) : (s.retryPlace p a).1.mem = s.mem := by
  unfold State.retryPlace
  split <;> simp

@[simp] theorem retryFrom_mem (p : Pos) (l : List Access) (s : State) : (retryFrom p l s).1.mem = s.mem := by
  induction l generalizing s with
  | nil => rfl
  | cons a t ih =>
    have hp := s.retryPlace_mem p a
    unfold retryFrom
    split <;> rename_i e <;> rw [e] at hp
    · exact hp
    · exact hp
    · exact hp
    · split
      · exact hp
      · exact (ih _).trans hp

@[simp] theorem State.abortAway_mem (s : State) (p : Pos) (cause : Nat) :
    (s.abortAway p cause).mem = s.mem := by simp [State.abortAway]

@[simp] theorem State.shootDown_mem (s : State) (n : Nat) (f : TlbEntry → Bool) (xs : List (Pos × Tx × Nat)) :
    (s.shootDown n f xs).mem = s.mem :=
  State.foldl_mem (by simp) rfl

@[simp] theorem State.blockXlat_mem (s : State) (va : Word) : (s.blockXlat va).1.mem = s.mem := by
  have h1 := s.translate_mem s.cur va { r := true, w := true }
  unfold State.blockXlat
  split
  · next s1 _ _ e =>
    have h2 := s1.translate_mem s1.cur (va + 255) { r := true, w := true }
    rw [e] at h1
    split <;> rename_i e <;> rw [e] at h2 <;> exact h2.trans h1
  · next e => rw [e] at h1; exact h1

@[simp] theorem State.logSite_mem (s : State) (b kind num : Nat) : (s.logSite b kind num).mem = s.mem := rfl

@[simp] theorem State.logWord_mem (s : State) (a : Nat) : (s.logWord a).mem = s.mem := by simp [State.logWord]

/-! ### Basins -/

@[simp] theorem State.modGran_mem (s : State) (kind n : Nat) (f : Granule → Granule) : (s.modGran kind n f).mem = s.mem := by
  unfold State.modGran
  split <;> simp

@[simp] theorem State.recordAck_mem (s : State) (b r code : Nat) : (s.recordAck b r code).mem = s.mem := rfl

@[simp] theorem State.cancelRots_mem (s : State) (b : Nat) : (s.cancelRots b).mem = s.mem := State.foldl_mem (by simp) rfl

@[simp] theorem State.stopRecord_mem (s : State) (p : Pos) : (s.stopRecord p).mem = s.mem := by simp [State.stopRecord]

@[simp] theorem State.moveBody_mem (s : State) (b d : Nat) : (s.moveBody b d).mem = s.mem := rfl

@[simp] theorem State.startSupervisor_mem (s : State) (n b r : Nat) : (s.startSupervisor n b r).mem = s.mem := rfl

@[simp] theorem State.joinBraid_mem (s : State) (n b : Nat) (joining : Bool) : (s.joinBraid n b joining).mem = s.mem :=
  State.foldl_mem (by simp) rfl

@[simp] theorem State.joinGranule_mem (s : State) (n : Nat) (joining : Bool) (g : Nat × Nat) :
    (s.joinGranule n joining g).mem = s.mem := by simp [State.joinGranule]

@[simp] theorem State.leave_mem (s : State) (g : Nat × Nat) : (s.leave g).mem = s.mem := by simp [State.leave]

@[simp] theorem State.announce_mem (s : State) (n : Nat) (z : Resize) : (s.announce n z).mem = s.mem :=
  State.foldl_mem (by simp) (State.foldl_mem (by simp) rfl)

@[simp] theorem State.notify_mem (s : State) (z : Resize) (key : Nat) : (s.notify z key).mem = s.mem := by simp [State.notify]

@[simp] theorem State.setResize_mem (s : State) (n : Nat) (z : Option Resize) : (s.setResize n z).mem = s.mem := rfl

@[simp] theorem State.phaseWork_mem (s : State) (n : Nat) (z : Resize) : (s.phaseWork n z).mem = s.mem := by
  unfold State.phaseWork
  split
  · simp
  · rfl
  · exact State.foldl_mem (by simp) rfl
  · rfl

@[simp] theorem State.startPhase_mem (s : State) (n : Nat) (z0 : Resize) : (s.startPhase n z0).mem = s.mem :=
  State.foldl_mem (by simp) (s.phaseWork_mem n _)

@[simp] theorem State.cancelStopped_mem (s : State) (b : Nat) : (s.cancelStopped b).mem = s.mem := by
  unfold State.cancelStopped
  dsimp only
  refine State.foldl_mem (by simp) ((State.modBraid_mem _ _ _).trans
    (State.foldl_mem (by simp) (State.foldl_mem (fun t p => ?_) rfl)))
  split
  · rfl
  · exact State.foldl_mem (by simp) rfl

@[simp] theorem State.retireGen_mem (s : State) (n : Nat) (z : Resize) : (s.retireGen n z).mem = s.mem := by
  unfold State.retireGen
  split <;> simp

@[simp] theorem State.endPhase_mem (s1 : State) (n : Nat) (z : Resize) : (State.endPhase s1 n z).mem = s1.mem := by
  unfold State.endPhase
  split
  · refine State.foldl_mem (fun t g => ?_) rfl
    split <;> simp
  · exact s1.startPhase_mem n _

@[simp] theorem State.hand_mem (s : State) (n line : Nat) : (s.hand n line).mem = s.mem := rfl

@[simp] theorem State.scrubVf_mem (s : State) (v : Nat) : (s.scrubVf v).mem = s.mem := rfl

@[simp] theorem State.queueRetire_mem (s : State) (n : Nat) (retire : Option (Nat × Nat)) (remove : List (Nat × Nat)) :
    (s.queueRetire n retire remove).1.mem = s.mem := rfl

@[simp] theorem State.freeNumber_mem (s : State) (n : Nat) : (s.freeNumber n).mem = s.mem := by simp [State.freeNumber]

@[simp] theorem State.goOnRill_mem (s : State) (b r : Nat) : (s.goOnRill b r).mem = s.mem := by
  refine State.foldl_mem (fun t p => ?_) rfl
  split <;> rfl

@[simp] theorem State.writeBack_mem (s : State) (b r : Nat) : (s.writeBack b r).mem = s.mem := rfl

/-! ### Saved contexts -/

@[simp] theorem State.reachWord_mem (s : State) (img : Word) (i : Nat) (write : Bool) :
    (s.reachWord img i write).1.mem = s.mem := by
  have ht := s.translate_mem s.cur (img + w64 (8 * i)) { r := !write, w := write }
  unfold State.reachWord
  dsimp only
  split
  · rfl
  · split
    · rfl
    · split <;> rename_i e <;> rw [e] at ht <;> exact ht

@[simp] theorem reachFrom_mem (img : Word) (write : Bool) (xs : List Access) (l : List (Nat × Nat)) (s : State) :
    (reachFrom img write xs l s).1.mem = s.mem := by
  induction l generalizing s xs with
  | nil => rfl
  | cons e t ih =>
    have hw := s.reachWord_mem img ((e.1 - img.toNat) / 8) write
    unfold reachFrom
    split <;> rename_i e <;> rw [e] at hw
    · exact (ih _ _).trans hw
    · exact hw

@[simp] theorem Img.matrix_mem (x : Img) (p : Pos) (s : State) : (Img.matrix x p s).mem = s.mem := by
  refine State.foldl_mem (fun t o => ?_) rfl
  dsimp only
  split <;> simp

/-! ### Services -/

@[simp] theorem State.switchImage_mem (s : State) (k : Nat) : (s.switchImage k).mem = s.mem := by
  unfold State.switchImage
  dsimp only
  split <;> simp

@[simp] theorem State.takeCall_mem (s : State) (c : Call) : (s.takeCall c).mem = s.mem := rfl

@[simp] theorem State.destroy_mem (s : State) (n : Nat) : (s.destroy n).mem = s.mem := by
  unfold State.destroy
  exact (State.freeNumber_mem _ _).trans (State.foldl_mem (by simp) (s.cutBasin_mem n))

@[simp] theorem State.queueResize_mem (s : State) (n : Nat) (z : Resize) : (s.queueResize n z).1.mem = s.mem := rfl

@[simp] theorem State.setCore_mem (s : State) (i : Nat) (c : Core) : (s.setCore i c).mem = s.mem := rfl

/-! ### The package -/

@[simp] theorem State.drawBudget_mem (s : State) : (s.drawBudget).mem = s.mem := rfl

@[simp] theorem State.outerRead_mem (s : State) (p : Pos) (size pa : Nat) (acquires : Bool) :
    (s.outerRead p size pa acquires).mem = s.mem := by simp [State.outerRead]

@[simp] theorem State.closedRead_mem (s : State) : (s.closedRead).mem = s.mem := rfl

@[simp] theorem State.recallAll_mem (s : State) (line : Nat) : (s.recallAll line).mem = s.mem := rfl

@[simp] theorem State.writeBar0_mem (s : State) (vf off : Nat) (v : Word) : (s.writeBar0 vf off v).mem = s.mem := by
  unfold State.writeBar0
  repeat' split
  all_goals simp

/-! ### Fetch -/

@[simp] theorem State.seenLine_mem (s : State) (x : Rill) (n d : Nat) : (s.seenLine x n d).1.mem = s.mem := by
  unfold State.seenLine
  extract_lets now vs
  split <;> rfl

theorem State.fetch_mem {s t : State} {p : Pos} {pc : Word} {x : Fetched} (h : s.fetch p pc = (t, x)) : t.mem = s.mem := by
  have ht := s.translate_mem p pc { r := true, x := true }
  unfold State.fetch at h
  split at h
  · cases h; rfl
  · split at h
    · cases h; rfl
    · split at h <;> rename_i e <;> rw [e] at ht
      · split at h
        · cases h; exact (State.seenLine_mem _ _ _ _).trans ht
        · cases h; exact ht
      all_goals cases h; exact ht

@[simp] theorem State.fillLine_mem (s : State) (p : Pos) (n d : Nat) :
    (s.fillLine p n d).mem = s.mem := by simp [State.fillLine]

@[simp] theorem State.offer_mem (s : State) (p : Pos) : (s.offer p).mem = s.mem := rfl

@[simp] theorem State.engineSlot_mem (s : State) (b r : Nat) : (s.engineSlot b r).mem = s.mem := by
  unfold State.engineSlot
  split
  · rfl
  · split <;> rfl

/-! ### Issue -/

@[simp] theorem State.holdAll_mem (s : State) (ps : List Pos) (h : Hold) :
    (s.holdAll ps h).mem = s.mem := State.foldl_mem (by simp) rfl

@[simp] theorem State.atUnit_mem (s : State) (u : DUnit) (pc : Word) (p : Pos) : (s.atUnit u pc p).mem = s.mem := rfl

theorem State.heldUnit_mem (s t : State) (ps : List Pos) : (s.heldUnit t ps).mem = if t.ownPace ps then t.mem else s.mem := by
  unfold State.heldUnit
  dsimp only
  split
  · exact State.foldl_mem (by simp) rfl
  · exact State.foldl_mem (by simp) rfl

@[simp] theorem State.endGroup_mem (s : State) (p : Pos) (g : Group) :
    (s.endGroup p g).mem = s.mem := by simp [State.endGroup]

@[simp] theorem State.settleUnit_mem (s : State) (p : Pos) : (s.settleUnit p).mem = s.mem := by
  unfold State.settleUnit
  split <;> simp

@[simp] theorem State.freeHeld_mem (s t : State) (pc : Word) (ps : List Pos) : (s.freeHeld t pc ps).mem = t.mem :=
  State.foldl_mem (by simp) rfl

@[simp] theorem State.budgetAbort_mem (s : State) (pc : Word) (p : Pos) (ps beyond : List Pos) :
    (s.budgetAbort pc p ps beyond).mem = s.mem := by
  unfold State.budgetAbort
  split
  · simp
  · exact (State.settleUnit_mem _ _).trans (State.foldl_mem (by simp) (State.foldl_mem (by simp) rfl))

@[simp] theorem State.enter_mem (s : State) (u : DUnit) (ps : List Pos) : (s.enter u ps).mem = s.mem := by
  refine State.foldl_mem (fun t q => ?_) rfl
  rw [State.modCtx_mem]
  split <;> rfl

@[simp] theorem State.leaveUnit_mem (s0 s : State) (pc : Word) (ps : List Pos) : (s0.leaveUnit s pc ps).mem = s.mem := by
  have h : ∀ t : State, t.mem = s.mem → (ps.foldl (fun z q => z.modCtx q fun c => { c with left := none }) t).mem = s.mem :=
    fun t ht => State.foldl_mem (by simp) ht
  unfold State.leaveUnit
  dsimp only
  split
  · exact (State.settleUnit_mem _ _).trans (State.foldl_mem (by simp) rfl)
  · exact h _ (State.foldl_mem (by simp) rfl)

@[simp] theorem State.markSlot_mem (s : State) (ps : List Pos) : (s.markSlot ps).mem = s.mem := by simp [State.markSlot]

end Sys2Proof.Machine
end

section
/-! PROOFS. The operations of the state that write memory keep its canonical form (R28, R447). -/

namespace Sys2Proof.Machine

@[simp] theorem Memory.wf_ite (c : Prop) [Decidable c] (a b : Memory) :
    (if c then a else b).wf = true ↔ (c → a.wf = true) ∧ (¬ c → b.wf = true) := by
  split <;> simp [*]

/-- A fold of steps that each keep memory canonical keeps it so. -/
theorem State.foldl_wf {β : Type} {l : List β} {f : State → β → State} {s : State}
    (hf : ∀ s x, s.mem.wf = true → (f s x).mem.wf = true) (h : s.mem.wf = true) :
    (l.foldl f s).mem.wf = true := by
  induction l generalizing s with
  | nil => exact h
  | cons x l ih => exact ih (hf s x h)

theorem State.mem_of_gateInLine {s t : State} {p : Pos} {agent seq : Nat} {lines : List Nat} {sync : Nat → Bool} {ok : Bool}
    (e : s.gateInLine p agent seq lines sync = (t, ok)) :
    t.mem = s.mem := by
  have h := s.gateInLine_mem p agent seq lines sync
  rwa [e] at h

theorem mem_of_retryFrom {p : Pos} {l : List Access} {s t : State} {r : Retry} (e : retryFrom p l s = (t, r)) :
    t.mem = s.mem := by
  have h := retryFrom_mem p l s
  rwa [e] at h

/-! ### Rings -/

@[simp] theorem State.hostEvent_wf {s : State} (h : s.mem.wf = true) : (s.hostEvent).mem.wf = true := by
  unfold State.hostEvent
  split
  · exact h
  · next x _ =>
    dsimp only
    split
    · exact h
    · rw [State.ringWrote_mem]
      exact Memory.wf_append x _ h

/-! ### Operations of the state -/

@[simp] theorem State.closeBasin_wf {s : State} (n : Nat) (h : s.mem.wf = true) : (s.closeBasin n).mem.wf = true := by
  simp [State.closeBasin, h]

@[simp] theorem State.contain_wf {s : State} (n : Nat) (h : s.mem.wf = true) : (s.contain n).mem.wf = true := by
  simp [State.contain, h]

@[simp] theorem State.trapAs_wf {s : State} (cause : Nat) (val : Word) (len : Nat) (pc : Word) (write : Bool)
    (h : s.mem.wf = true) :
    (s.trapAs cause val len pc write).mem.wf = true := by
  simp [State.trapAs, h]

@[simp] theorem State.trapTo_wf {s : State} (cause : Nat) (val : Word) (h : s.mem.wf = true) :
    (s.trapTo cause val).mem.wf = true := by
  simp [State.trapTo, h]

/-! ### Accesses -/

@[simp] theorem State.logEntry_wf {s : State} (p : Pos) (cause sub : Nat) (behind : Bool) (accs : List Access)
    (h : s.mem.wf = true) :
    (s.logEntry p cause sub behind accs).mem.wf = true := by
  unfold State.logEntry
  split <;> simp [h]

/-! ### Lines and their owners -/

@[simp] theorem State.ownerWrite_wf {s : State} (pa size v : Nat) (p : Bool) (tag : Option (Option Tag))
    (h : s.mem.wf = true) :
    (s.ownerWrite pa size v p tag).mem.wf = true := by
  have h1 : (if isHost pa then s.mem.write pa size v else (s.mem.write pa size v).setPoison pa p).wf = true := by
    split
    · exact Memory.wf_write _ _ _ h
    · exact Memory.wf_setPoison _ _ (Memory.wf_write _ _ _ h)
  unfold State.ownerWrite
  rw [State.wrote_mem]
  dsimp only
  split
  · exact h1
  · exact Memory.wf_setTags _ _ _ h1

@[simp] theorem State.performFe_wf {s : State} (p : Pos) (a : Access) (h : s.mem.wf = true) :
    (s.performFe p a).mem.wf = true := by
  have h0 : (if isLocal a.pa then s else s.recall (lineOf a.pa)).mem.wf = true := by
    split <;> simp [h]
  unfold State.performFe
  dsimp only
  generalize (if isLocal a.pa then s else s.recall (lineOf a.pa)) = s0 at h0 ⊢
  split
  · simp [Memory.wf_setFull, h0]
  · simp [h0]
  · simp [Memory.wf_setFull, h0]
  · simp [Memory.wf_setFull, h0]

@[simp] theorem scanParked_wf (word : Nat) (l : List (Pos × Access)) {s : State} (h : s.mem.wf = true) :
    (scanParked word l s).mem.wf = true := by
  induction l generalizing s with
  | nil => exact h
  | cons e l ih =>
    unfold scanParked
    dsimp only
    split
    · split
      · exact ih (State.performFe_wf _ _ h)
      · simp [h]
    · exact ih h

@[simp] theorem State.scan_wf {s : State} (pa : Nat) (h : s.mem.wf = true) : (s.scan pa).mem.wf = true := by
  simp [State.scan, h]

@[simp] theorem State.storeEffect_wf {s : State} (p : Pos) (a : Access) (h : s.mem.wf = true) :
    (s.storeEffect p a).mem.wf = true := by
  have h0 : (if a.kind == AccKind.czero then s.mem.zeroLine a.pa
      else s.mem.store a.pa a.size a.data.toNat a.poison).wf = true := by
    split
    · exact Memory.wf_zeroLine _ h
    · exact Memory.wf_store _ _ _ _ h
  unfold State.storeEffect
  rw [State.noteOlder_mem, State.noteRaise_mem, State.wrote_mem]
  dsimp only
  generalize (if a.kind == AccKind.czero then s.mem.zeroLine a.pa
    else s.mem.store a.pa a.size a.data.toNat a.poison) = m at h0 ⊢
  split
  · exact Memory.wf_foldl _ _ (fun _ _ => Memory.wf_setTags _ _ _) h0
  · exact Memory.wf_setTags _ _ _ h0

@[simp] theorem State.performStore_wf {s : State} (p : Pos) (a : Access) (h : s.mem.wf = true) :
    (s.performStore p a).mem.wf = true := by
  simp [State.performStore, h]

/-! ### Transaction logs -/

@[simp] theorem State.spillEntry_wf {s : State} (t : Tx) (j : Nat) (e : LogEntry) (h : s.mem.wf = true) :
    (s.spillEntry t j e).mem.wf = true := by
  unfold State.spillEntry
  rw [State.wrote_mem, State.wrote_mem]
  exact Memory.wf_setTags _ _ _ (Memory.wf_setPoison _ _ (Memory.wf_setPoison _ _
    (Memory.wf_write _ _ _ (Memory.wf_write _ _ _ h))))

/-! ### Order -/

@[simp] theorem State.widen_wf {s : State} (p : Pos) (pa scope : Nat) (h : s.mem.wf = true) :
    (s.widen p pa scope).mem.wf = true := h

/-! ### Block instructions -/

@[simp] theorem State.blockFault_wf {s : State} (x : Block) (cause : Nat) (ea : Word) (write : Bool) (h : s.mem.wf = true) :
    (s.blockFault x cause ea write).mem.wf = true := by
  simp [State.blockFault, h]

theorem withElement_wf {s : State} (x : Block) (ea : Word) (write : Bool) {k : State → Access → State}
    (hk : ∀ t a, t.mem.wf = true → (k t a).mem.wf = true) (h : s.mem.wf = true) :
    (withElement s x ea write k).mem.wf = true := by
  have ht := s.translate_mem s.cur ea { r := !write, w := write }
  unfold withElement
  extract_lets size p acc a
  split
  · exact State.blockFault_wf _ _ _ _ h
  · split
    · exact h
    · split
      · split
        · exact hk _ _ h
        · exact h
      · split <;> rename_i e <;> rw [e] at ht <;> rw [← ht] at h
        · exact State.blockFault_wf _ _ _ _ h
        · exact h
        · exact State.contain_wf _ h
        · extract_lets a'
          split
          · exact hk _ _ h
          · exact h

@[simp] theorem State.putElement_wf {s : State} (x : Block) (v : Nat) (bad : Bool) (h : s.mem.wf = true) :
    (s.putElement x v bad).mem.wf = true := by
  unfold State.putElement
  split
  · simp [h]
  · refine withElement_wf _ _ _ (fun t a ht => ?_) h
    split <;> rename_i e <;> rw [← State.mem_of_gateInLine e] at ht
    · simp [ht]
    · exact ht

@[simp] theorem State.plainElement_wf {s : State} (x : Block) (h : s.mem.wf = true) : (s.plainElement x).mem.wf = true := by
  unfold State.plainElement
  split
  · simp [h]
  · refine withElement_wf _ _ _ (fun t a ht => ?_) h
    dsimp only
    split <;> simp [ht]

/-! ### Deques -/

@[simp] theorem State.storeTask_wf {s : State} (b r a : Nat) (t : TaskRec) (h : s.mem.wf = true) :
    (s.storeTask b r a t).mem.wf = true := by
  unfold State.storeTask
  rw [State.modRill_mem, State.wrote_mem]
  exact Memory.wf_setTags _ _ _ (Memory.wf_foldl _ _ (fun _ _ => Memory.wf_store _ _ _ _) h)

@[simp] theorem State.push_wf {s : State} (b r : Nat) (t : TaskRec) (h : s.mem.wf = true) : (s.push b r t).mem.wf = true := by
  unfold State.push
  dsimp only
  split <;> simp [h]

@[simp] theorem State.enterPush_wf {s : State} (b r : Nat) (w : DqPush) (h : s.mem.wf = true) :
    (s.enterPush b r w).mem.wf = true := by
  unfold State.enterPush
  repeat' split
  all_goals simp [h]

/-! ### Atomic operations -/

@[simp] theorem State.disarm_wf {s0 : State} (p : Pos) (k : Nat) (h : s0.mem.wf = true) :
    (State.disarm s0 p k).mem.wf = true := h

/-! ### Vectors -/

@[simp] theorem State.vExecute_wf {s : State} (p : Pos) (e : VEntry) (last : Bool) (h : s.mem.wf = true) :
    (s.vExecute p e last).mem.wf = true := by
  simp [State.vExecute, h]

/-! ### Streams -/

theorem State.engineReach_mem {s t : State} {p : Pos} {id : Nat} {va : Word} {size : Nat} {write : Bool} {o : EngOut}
    (e : s.engineReach p id va size write = (t, o)) :
    t.mem = s.mem := by
  have ht := s.translate_mem p va { r := !write, w := write }
  unfold State.engineReach at e
  dsimp only at e
  split at e
  · cases e; rfl
  · split at e
    · cases e; rfl
    · split at e <;> rename_i he <;> rw [he] at ht <;> cases e <;> exact ht

@[simp] theorem State.homeStore_wf {s : State} (pa size v : Nat) (bad : Bool) (tag : Option Tag) (h : s.mem.wf = true) :
    (s.homeStore pa size v bad tag).mem.wf = true := by
  unfold State.homeStore
  refine State.scan_wf _ (Memory.wf_setTags _ _ _ (Memory.wf_store _ _ _ _ ?_))
  split <;> simp [h]

@[simp] theorem State.engineStore_wf {s : State} (pa size v : Nat) (bad : Bool) (h : s.mem.wf = true) :
    (s.engineStore pa size v bad).mem.wf = true := by
  simp [State.engineStore, h]

@[simp] theorem fetchEntry_wf (p : Pos) (v : Nat) (x : Stream) (n : Nat) (line : Option Nat) (e : SEntry) {s : State}
    (h : s.mem.wf = true) :
    (fetchEntry p v x n line e s).1.mem.wf = true := by
  induction n generalizing line e s with
  | zero => exact h
  | succ n ih =>
    unfold fetchEntry
    dsimp only
    split
    · exact h
    · split
      · exact h
      · split <;> rename_i he <;> rw [← State.engineReach_mem he] at h
        · split <;> simp [h]
        · exact h
        · simp [h]
        · split
          · exact ih _ _ h
          · exact h

@[simp] theorem storeEntry_wf (p : Pos) (v : Nat) (x : Stream) (n : Nat) (line : Option Nat) (e : SEntry) {s : State}
    (h : s.mem.wf = true) :
    (storeEntry p v x n line e s).1.mem.wf = true := by
  induction n generalizing line e s with
  | zero => exact h
  | succ n ih =>
    unfold storeEntry
    dsimp only
    split
    · exact h
    · split <;> rename_i he <;> rw [← State.engineReach_mem he] at h
      · split <;> simp [h]
      · exact h
      · simp [h]
      · split
        · split <;> rename_i hg <;> rw [← State.mem_of_gateInLine hg] at h
          · exact ih _ _ (State.engineStore_wf _ _ _ _ h)
          · exact h
        · exact h

/-! ### Copy commands -/

theorem State.copySource_mem {s t : State} {p : Pos} {q : CopyCmd} {i n : Nat} {r : (EngOut × Word) × Nat × Bool}
    (e : s.copySource p q i n = (t, r)) :
    t.mem = s.mem := by
  unfold State.copySource at e
  extract_lets get isz ia at e
  have hg : ∀ {s t va n r}, get s va n = (t, r) → t.mem = s.mem := fun {s t va n r} e => by
    dsimp only [get] at e
    split at e <;> rename_i he <;> cases e <;> exact State.engineReach_mem he
  clear_value get
  split at e
  · exact hg e
  · split at e <;> rename_i he
    · split at e
      · cases e; exact hg he
      · exact (hg e).trans (hg he)
    · exact hg e
  · cases e; rfl

@[simp] theorem copySteps_wf (p : Pos) (n : Nat) (q : CopyCmd) {s : State} (h : s.mem.wf = true) :
    (copySteps p n q s).mem.wf = true := by
  induction n generalizing q s with
  | zero => exact h
  | succ n ih =>
    unfold copySteps
    extract_lets halt
    have hh : ∀ t q o va w, t.mem.wf = true → (halt t q o va w).mem.wf = true := fun t q o va w ht => by
      cases o <;> simp [halt, ht]
    split
    · exact h
    · split <;> rename_i hs <;> rw [← State.copySource_mem hs] at h
      · dsimp only
        split <;> rename_i he <;> rw [← State.engineReach_mem he] at h
        · split
          · exact h
          · split <;> rename_i hg <;> rw [← State.mem_of_gateInLine hg] at h
            · exact h
            · refine ih _ ?_
              split
              · exact State.engineStore_wf _ _ _ _ h
              · exact Memory.wf_setPoison _ _ (State.engineStore_wf _ _ _ _ h)
        · exact hh _ _ _ _ _ h
      · exact hh _ _ _ _ _ h

/-! ### Matrix commands -/

theorem mxReach_mem {p : Pos} {id : Nat} {write : Bool} {n : Nat} {va : Word} {s t : State} {r : Except MxOut (List Nat)}
    (e : mxReach p id write n va s = (t, r)) :
    t.mem = s.mem := by
  induction n generalizing va s t r with
  | zero => cases e; rfl
  | succ n ih =>
    unfold mxReach at e
    split at e <;> rename_i he
    · cases e; exact State.engineReach_mem he
    · cases e; exact State.engineReach_mem he
    · cases e; exact State.engineReach_mem he
    · split at e <;> rename_i hn <;> cases e <;> exact (ih hn).trans (State.engineReach_mem he)

theorem readRow_mem {p : Pos} {q : MxCmd} {bits : Nat} {base : Word} {n k : Nat} {s t : State}
    {r : Except MxOut (List (Nat × Bool))} (e : readRow p q bits base n k s = (t, r)) :
    t.mem = s.mem := by
  induction n generalizing k s t r with
  | zero => cases e; rfl
  | succ n ih =>
    unfold readRow at e
    dsimp only at e
    split at e <;> rename_i he
    · cases e; exact mxReach_mem he
    · split at e <;> rename_i hn <;> cases e <;> exact (ih hn).trans (mxReach_mem he)

theorem readRows_mem {p : Pos} {q : MxCmd} {bits n : Nat} {pitch : Word} {m : Nat} {base : Word} {s t : State}
    {r : Except MxOut (List (List (Nat × Bool)))} (e : readRows p q bits n pitch m base s = (t, r)) :
    t.mem = s.mem := by
  induction m generalizing base s t r with
  | zero => cases e; rfl
  | succ m ih =>
    unfold readRows at e
    split at e <;> rename_i he
    · cases e; exact readRow_mem he
    · split at e <;> rename_i hn <;> cases e <;> exact (ih hn).trans (readRow_mem he)

theorem State.loadB_mem {s t : State} {p : Pos} {q : MxCmd} {r : Except MxOut (Option Bank)} (e : s.loadB p q = (t, r)) :
    t.mem = s.mem := by
  unfold State.loadB at e
  dsimp only at e
  split at e <;> rename_i h1
  · cases e; exact readRows_mem h1
  · split at e <;> rename_i h2 <;> cases e <;> exact (readRows_mem h2).trans (readRows_mem h1)

theorem loadAcc_mem {p : Pos} {n : Nat} {q : MxCmd} {s t : State} {r : MxCmd × MxOut} (e : loadAcc p n q s = (t, r)) :
    t.mem = s.mem := by
  induction n generalizing q s with
  | zero => cases e; rfl
  | succ n ih =>
    unfold loadAcc at e
    split at e
    · cases e; rfl
    · split at e
      · next he => cases e; exact mxReach_mem he
      · next he => exact (ih (q := { q with done := q.done + 1 }) e).trans ((State.modBraid_mem _ _ _).trans (mxReach_mem he))

@[simp] theorem storeBytes_wf (addr : Nat → Word) (size e : Nat) (bads : Nat → Bool) (j : Nat) (l : List Nat) (v : Nat)
    {s : State} (h : s.mem.wf = true) :
    (storeBytes addr size e bads j l v s).mem.wf = true := by
  induction l generalizing j v s with
  | nil => exact h
  | cons pa l ih =>
    unfold storeBytes
    refine ih _ _ ?_
    split
    · exact State.engineStore_wf _ _ _ _ h
    · exact Memory.wf_setPoison _ _ (State.engineStore_wf _ _ _ _ h)

theorem storeEls_wf {p : Pos} {addr : Nat → Word} {total size : Nat} {val : Nat → Nat × Bool} {n : Nat} {q : MxCmd}
    {s t : State} {r : MxCmd × MxOut} (e : storeEls p addr total size val n q s = (t, r)) (h : s.mem.wf = true) :
    t.mem.wf = true := by
  induction n generalizing q s with
  | zero => cases e; exact h
  | succ n ih =>
    unfold storeEls at e
    split at e
    · cases e; exact h
    · split at e <;> rename_i he <;> rw [← mxReach_mem he] at h
      · cases e; exact h
      · split at e
        · cases e; exact h
        · split at e <;> rename_i hg <;> rw [← State.mem_of_gateInLine hg] at h
          · cases e; exact h
          · exact ih e (storeBytes_wf _ _ _ _ _ _ _ h)

theorem State.mxWork_wf {s t : State} {b : Nat} {q : MxCmd} {r : MxCmd × MxOut} (e : s.mxWork b q = (t, r))
    (h : s.mem.wf = true) :
    t.mem.wf = true := by
  unfold State.mxWork at e
  dsimp only at e
  split at e
  · split at e <;> rename_i he <;> rw [← State.loadB_mem he] at h <;> cases e <;> exact h
  · rw [loadAcc_mem e]; exact h
  · exact storeEls_wf e h
  · exact storeEls_wf e h
  · cases e; exact h

@[simp] theorem State.receiveA_wf {s : State} (b : Nat) (q : MxCmd) (bytes : List (Nat × Bool)) (h : s.mem.wf = true) :
    (s.receiveA b q bytes).mem.wf = true := State.foldl_wf (fun _ _ h => storeBytes_wf _ _ _ _ _ _ _ h) h

/-! ### Transactions -/

@[simp] theorem State.rescan_wf {s : State} (lines : List Nat) (h : s.mem.wf = true) :
    (s.rescan lines).mem.wf = true := State.foldl_wf (fun _ _ h => State.scan_wf _ h) h

@[simp] theorem State.releaseCommit_wf {s : State} (p : Pos) (t : Tx) (cause : Nat) (h : s.mem.wf = true) :
    (s.releaseCommit p t cause).mem.wf = true := by
  simp [State.releaseCommit, h]

@[simp] theorem State.afterReplies_wf {s : State} (p : Pos) (t : Tx) (h : s.mem.wf = true) :
    (s.afterReplies p t).mem.wf = true := by
  simp [State.afterReplies, h]

@[simp] theorem State.applyEntry_wf {s : State} (p : Pos) (e : LogEntry) (h : s.mem.wf = true) :
    (s.applyEntry p e).mem.wf = true := by
  unfold State.applyEntry
  rw [State.noteRaise_mem, State.wrote_mem]
  refine Memory.wf_foldl _ _ (fun m i hm => ?_) (Memory.wf_setPoison _ _ (Memory.wf_write _ _ _ (by simp [h])))
  split
  · exact Memory.wf_setTags _ _ _ hm
  · exact hm

/-! ### Launches -/

theorem State.queueWord_wf {s t : State} {n : Nat} {aspace va : Word} {need : Need} {agent : Nat} {r : Reached}
    (e : s.queueWord n aspace va need agent = (t, r)) (h : s.mem.wf = true) :
    t.mem.wf = true := by
  unfold State.queueWord at e
  split at e <;> rename_i he <;> rw [← State.queueReach_mem he] at h <;> cases e
  · exact h
  · exact h
  · exact h
  · exact State.contain_wf _ h

@[simp] theorem State.notifyLaunch_wf {s : State} (n : Nat) (x : Record) (h : s.mem.wf = true) :
    (s.notifyLaunch n x).mem.wf = true := by
  unfold State.notifyLaunch
  extract_lets
  split
  · exact h
  · split
    · split
      · exact h
      · split
        · exact h
        · next r _ =>
          split
          · exact h
          · split
            · exact h
            · rw [State.ringWrote_mem]
              exact Memory.wf_append r _ h
    · split
      · exact h
      · split <;> exact h

@[simp] theorem State.writeCompletion_wf {s : State} (n pa : Nat) (x : Record) (h : s.mem.wf = true) :
    (s.writeCompletion n pa x).mem.wf = true := by
  simp [State.writeCompletion, h]

@[simp] theorem State.incrementPost_wf {s : State} (n pa : Nat) (x : Record) (h : s.mem.wf = true) :
    (s.incrementPost n pa x).mem.wf = true := by
  simp [State.incrementPost, h]

@[simp] theorem State.completeLaunch_wf {s : State} (n : Nat) (x : Record) (h : s.mem.wf = true) :
    (s.completeLaunch n x).mem.wf = true := by
  unfold State.completeLaunch
  extract_lets aspace agent
  split
  next s1 r1 e1 =>
  have h1 : s1.mem.wf = true := by
    split at e1
    · cases e1; exact h
    · exact State.queueWord_wf e1 h
  split
  next s2 r2 e2 =>
  have h2 : s2.mem.wf = true := by
    split at e2
    · cases e2; exact h1
    · exact State.queueWord_wf e2 h1
  split
  · exact h2
  · split
    next s3 go e3 =>
    rw [← State.mem_of_gateInLine e3] at h2
    split
    · exact h2
    · rw [State.modBasin_mem]
      refine State.notifyLaunch_wf _ _ ?_
      have h4 : ∀ r1, (match r1 with
          | Reached.at pa => s3.writeCompletion n pa x
          | .failed => s3
          | .wait => s3).mem.wf = true := fun r1 => by cases r1 <;> simp [h2]
      split
      · exact State.incrementPost_wf _ _ _ (h4 r1)
      · exact h4 r1
      · exact h4 r1

@[simp] theorem State.finishLaunches_wf {s : State} (n : Nat) (h : s.mem.wf = true) :
    (s.finishLaunches n).mem.wf = true :=
  State.foldl_wf (fun _ _ h => State.completeLaunch_wf _ _ h) ((s.liftReservations_mem n).symm ▸ h)

theorem State.dependence_wf {s t : State} {n : Nat} {aspace dep thr : Word} {r : DepRead}
    (e : s.dependence n aspace dep thr = (t, r)) (h : s.mem.wf = true) :
    t.mem.wf = true := by
  unfold State.dependence at e
  split at e
  · cases e; exact h
  · split at e <;> rename_i he <;> replace h := State.queueWord_wf he h <;> cases e
    · split <;> simp [h]
    · exact h
    · exact h

@[simp] theorem State.readDependences_wf {s : State} (n : Nat) (x : Record) (h : s.mem.wf = true) :
    (s.readDependences n x).mem.wf = true := by
  unfold State.readDependences
  split
  · exact h
  · dsimp only
    generalize e1 : s.dependence _ _ _ _ = d1
    replace h := State.dependence_wf e1 h
    generalize e2 : d1.1.dependence _ _ _ _ = d2
    replace h := State.dependence_wf e2 h
    split
    · simp [h]
    · split <;> simp [h]

@[simp] theorem State.accept_wf {s : State} (n : Nat) (x : Record) (h : s.mem.wf = true) : (s.accept n x).mem.wf = true := by
  simp [State.accept, h]

@[simp] theorem State.submit_wf {s : State} (n q : Nat) (ws : List Word) (h : s.mem.wf = true) :
    (s.submit n q ws).1.mem.wf = true := by
  unfold State.submit
  split
  · exact h
  · dsimp only
    split <;> simp [h]

/-! ### Performing an access -/

@[simp] theorem State.register_wf {s : State} (p : Pos) (k : Nat) (a : Access) (h : s.mem.wf = true) :
    (s.register p k a).mem.wf = true := by
  simp [State.register, h]

theorem State.postMessage_wf {s t : State} {n : Nat} {ws : List Word} {r : Nat} (e : s.postMessage n ws = (t, r))
    (h : s.mem.wf = true) :
    t.mem.wf = true := by
  unfold State.postMessage at e
  split at e
  · cases e; exact h
  · next x _ =>
    split at e
    · cases e; exact h
    · cases e
      rw [State.ringWrote_mem]
      exact Memory.wf_append x ws h

@[simp] theorem State.hmsgReturn_wf {s : State} (p : Pos) (a : Access) (h : s.mem.wf = true) :
    (s.hmsgReturn p a).mem.wf = true := by
  unfold State.hmsgReturn
  dsimp only
  split
  · simp [h]
  · have h1 : (s.postMessage (s.basinOf p.b) ((s.wordsAt a 8).map Prod.fst)).1.mem.wf = true := State.postMessage_wf rfl h
    simp [h1]

@[simp] theorem State.launchReturn_wf {s : State} (p : Pos) (a : Access) (h : s.mem.wf = true) :
    (s.launchReturn p a).mem.wf = true := by
  simp [State.launchReturn, h]

@[simp] theorem State.applyRmwAt_wf {s : State} (p : Pos) (a : Access) (h : s.mem.wf = true) :
    (s.applyRmwAt p a).1.mem.wf = true := by
  unfold State.applyRmwAt
  dsimp only
  repeat' split
  all_goals simp [h]

@[simp] theorem State.applyRmw_wf {s : State} (p : Pos) (a : Access) (h : s.mem.wf = true) :
    (s.applyRmw p a).1.mem.wf = true := by
  simp [State.applyRmw, h]

@[simp] theorem applyMerged_wf (bad : Bool) (l : List (Pos × Access)) {s : State} (h : s.mem.wf = true) :
    (applyMerged bad l s).mem.wf = true := by
  induction l generalizing s with
  | nil => exact h
  | cons x l ih =>
    unfold applyMerged
    exact ih (by rw [State.returnRmw_mem]; exact State.applyRmw_wf _ _ h)

@[simp] theorem State.performRmw_wf {s : State} (p : Pos) (a : Access) (h : s.mem.wf = true) :
    (s.performRmw p a).mem.wf = true := by
  have h1 := fun t : State => fun ht : t.mem.wf = true => State.applyRmw_wf p a ht
  unfold State.performRmw
  exact State.scan_wf _ (applyMerged_wf _ _ (by rw [State.returnRmw_mem]; exact h1 _ h))

@[simp] theorem State.performWrite_wf {s : State} (p : Pos) (a : Access) (h : s.mem.wf = true) :
    (s.performWrite p a).mem.wf = true := by
  simp [State.performWrite, h]

@[simp] theorem State.startWrite_wf {s : State} (p : Pos) (a : Access) (h : s.mem.wf = true) :
    (s.startWrite p a).mem.wf = true := by
  simp [State.startWrite, h]

@[simp] theorem State.performOuter_wf {s : State} (p : Pos) (a : Access) (h : s.mem.wf = true) :
    (s.performOuter p a).mem.wf = true := by
  simp [State.performOuter, h]

@[simp] theorem State.startOuter_wf {s : State} (p : Pos) (a : Access) (h : s.mem.wf = true) :
    (s.startOuter p a).mem.wf = true := by
  simp [State.startOuter, h]

@[simp] theorem State.commitFanout_wf {s : State} (f : Fanout) (h : s.mem.wf = true) : (s.commitFanout f).mem.wf = true := by
  unfold State.commitFanout
  split <;> simp [h]

@[simp] theorem State.acknowledge_wf {s : State} (b : Nat) (f : Fanout → Bool) (h : s.mem.wf = true) :
    (s.acknowledge b f).mem.wf = true := State.foldl_wf (fun _ _ h => State.commitFanout_wf _ h) h

@[simp] theorem State.fenceBraid_wf {s : State} (b : Nat) (h : s.mem.wf = true) : (s.fenceBraid b).mem.wf = true := by
  unfold State.fenceBraid
  refine State.closeBasin_wf _ (State.hostEvent_wf (State.acknowledge_wf _ _ ?_))
  exact Memory.wf_foldl _ _ (fun _ _ h => Memory.wf_loseLine _ _ h) h

@[simp] theorem State.outerRequest_wf {s : State} (p : Pos) (a : Access) (h : s.mem.wf = true) :
    (s.outerRequest p a).mem.wf = true := by
  simp [State.outerRequest, h]

@[simp] theorem State.logLate_wf {s : State} (p : Pos) (a : Access) (cause : Nat) (behind : Bool) (h : s.mem.wf = true) :
    (s.logLate p a cause behind).mem.wf = true := by
  simp [State.logLate, h]

@[simp] theorem State.logParked_wf {s : State} (p : Pos) (a : Access) (behind : Bool) (h : s.mem.wf = true) :
    (s.logParked p a behind).mem.wf = true := by
  simp [State.logParked, h]

/-! ### System instructions -/

@[simp] theorem State.recallAccess_wf {s : State} (p : Pos) (a : Access) (h : s.mem.wf = true) :
    (s.recallAccess p a).mem.wf = true := h

@[simp] theorem State.withdrawSend_wf {s : State} (p : Pos) (h : s.mem.wf = true) : (s.withdrawSend p).mem.wf = true := by
  unfold State.withdrawSend
  dsimp only
  split <;> simp [h]

@[simp] theorem State.withdraw_wf {s : State} (p : Pos) (migrates : Bool) (h : s.mem.wf = true) :
    (s.withdraw p migrates).mem.wf = true := by
  simp [State.withdraw, h]

@[simp] theorem State.dropEntry_wf {s : State} (b r i : Nat) (h : s.mem.wf = true) : (s.dropEntry b r i).mem.wf = true := h

theorem replayFrom_wf {b r : Nat} {l : List (Nat × REntry)} {s t : State} {x : Option (Nat × Bool)}
    (e : replayFrom b r l s = (t, x)) (h : s.mem.wf = true) :
    t.mem.wf = true := by
  induction l generalizing s with
  | nil => cases e; exact h
  | cons y l ih =>
    unfold replayFrom at e
    split at e <;> rename_i he <;> replace h := (congrArg Memory.wf (mem_of_retryFrom he)).trans h
    · cases e; exact h
    · cases e; exact h
    · cases e; split <;> simp [h]
    · exact ih e (State.foldl_wf (by simp) (State.dropEntry_wf _ _ _ h))

@[simp] theorem State.dropAccess_wf {s : State} (p : Pos) (a : Access) (h : s.mem.wf = true) :
    (s.dropAccess p a).mem.wf = true := by
  unfold State.dropAccess
  split <;> simp [h]

@[simp] theorem dropChain_wf (b r : Nat) (l : List (Nat × REntry)) {s : State} (h : s.mem.wf = true) :
    (dropChain b r l s).mem.wf = true := by
  induction l generalizing s with
  | nil => exact h
  | cons x l ih => exact ih (State.foldl_wf (fun _ _ h => State.dropAccess_wf _ _ h) (State.dropEntry_wf _ _ _ h))

@[simp] theorem State.wakeHeads_wf {s : State} (b r : Nat) (gone : List (Nat × REntry)) (h : s.mem.wf = true) :
    (s.wakeHeads b r gone).mem.wf = true := by
  refine State.foldl_wf (fun t f ht => ?_) h
  split <;> simp [ht]

/-! ### Basins -/

@[simp] theorem State.pause_wf {s : State} (p : Pos) (h : s.mem.wf = true) : (s.pause p).mem.wf = true := by
  have h1 : (if ((s.ctx p).run == .running || (s.ctx p).run == .stopped) && (s.ctx p).tx.any fun t => t.commit == 0
      then s.abortAway p 9 else s).mem.wf = true := by
    split <;> simp [h]
  unfold State.pause
  extract_lets c s1 z y z' s2
  replace h1 : s1.mem.wf = true := h1
  clear_value s1
  have h2 : s2.mem.wf = true := by
    unfold s2
    split
    · simpa using State.withdraw_wf p true h1
    · split <;> simp [z', h1]
  split
  · exact h1
  · simpa using h2

@[simp] theorem State.startMove_wf {s : State} (b d : Nat) (h : s.mem.wf = true) : (s.startMove b d).mem.wf = true := by
  have h1 := State.foldl_wf (l := userPositions b) (fun t p ht => State.pause_wf p ht) h
  unfold State.startMove
  simp [h1]

@[simp] theorem State.pushOrWait_wf (b r : Nat) {s : State} (t : TaskRec) (h : s.mem.wf = true) :
    (State.pushOrWait b r s t).mem.wf = true := by
  simp [State.pushOrWait, h]

@[simp] theorem State.moveRill_wf (b d : Nat) {s : State} (r : Nat) (h : s.mem.wf = true) :
    (State.moveRill b d s r).mem.wf = true := by
  unfold State.moveRill
  dsimp only
  refine State.foldl_wf (fun t k ht => ?_) (State.foldl_wf (fun t k ht => State.pushOrWait_wf _ _ _ ht) ?_)
  · split
    · simp [ht]
    · simp [ht]
  · rw [State.setRill_mem, State.setRill_mem]
    exact Memory.wf_copyRange _ _ _ (Memory.wf_copyRange _ _ _ h)

@[simp] theorem State.wakeChains_wf {s : State} (b r : Nat) (f : REntry → Bool) (h : s.mem.wf = true) :
    (s.wakeChains b r f).mem.wf = true := by
  refine State.foldl_wf (fun t f ht => ?_) h
  split <;> simp [ht]

@[simp] theorem State.moveNames_wf {s : State} (b d : Nat) (h : s.mem.wf = true) : (s.moveNames b d).mem.wf = true := h

@[simp] theorem State.moveBraid_wf {s : State} (b d : Nat) (h : s.mem.wf = true) : (s.moveBraid b d).mem.wf = true := by
  have h1 := State.foldl_wf (l := List.range 8) (fun _ r h => State.moveRill_wf b d r h) h
  unfold State.moveBraid
  extract_lets s1 s2 s3
  have h2 : s2.mem.wf = true := by simp [s2, s1, h1]
  have h3 : s3.mem.wf = true := State.foldl_wf (fun _ r h => State.wakeChains_wf d r _ h) h2
  exact State.foldl_wf (fun t p ht => by simp [ht]) h3

@[simp] theorem State.endWait_wf {s : State} (p : Pos) (h : s.mem.wf = true) : (s.endWait p).mem.wf = true := by
  unfold State.endWait
  split <;> simp [h]

@[simp] theorem State.forceBraid_wf (n : Nat) (x : State × Resize) (b : Nat) (h : x.1.mem.wf = true) :
    (State.forceBraid n x b).1.mem.wf = true := by
  obtain ⟨s, z⟩ := x
  unfold State.forceBraid
  dsimp only
  split
  · exact h
  · split
    · exact h
    · split
      · split <;> simp [h]
      · simp [h]

theorem forceBraids_wf (n : Nat) (bs : List Nat) (x : State × Resize) (h : x.1.mem.wf = true) :
    (bs.foldl (State.forceBraid n) x).1.mem.wf = true := by
  induction bs generalizing x with
  | nil => exact h
  | cons b bs ih => exact ih _ (State.forceBraid_wf n x b h)

@[simp] theorem State.makeMoves_wf {s0 : State} (n : Nat) (z0 : Resize) (h : s0.mem.wf = true) :
    (State.makeMoves s0 n z0).1.mem.wf = true := by
  have h1 := forceBraids_wf n z0.forcing (s0, { z0 with forcing := [] }) h
  unfold State.makeMoves
  dsimp only
  rw [State.setResize_mem]
  exact State.foldl_wf (fun _ _ h => State.moveBraid_wf _ _ h) h1

@[simp] theorem State.scrubBraid_wf {s : State} (b : Nat) (h : s.mem.wf = true) :
    (s.scrubBraid b).mem.wf = true := Memory.wf_clearRange _ _ h

@[simp] theorem State.faultChannel_wf {s : State} (n : Nat) (h : s.mem.wf = true) : (s.faultChannel n).mem.wf = true := by
  unfold State.faultChannel
  refine State.foldl_wf (fun t e ht => ?_) (State.foldl_wf (fun _ _ h => State.logLate_wf _ _ _ _ h) h)
  dsimp only
  split
  · split <;> simp [ht]
  · exact ht

@[simp] theorem State.scrubChannel_wf {s0 : State} (n : Nat) (h : s0.mem.wf = true) :
    (State.scrubChannel s0 n).mem.wf = true := Memory.wf_clearRange _ _ (State.faultChannel_wf n h)

@[simp] theorem State.remap_wf {s : State} (b r : Nat) (h : s.mem.wf = true) : (s.remap b r).mem.wf = true := by
  unfold State.remap
  dsimp only
  split <;> simp [h]

@[simp] theorem State.askRetire_wf (b : Nat) {s : State} (r : Nat) (h : s.mem.wf = true) :
    (State.askRetire b s r).mem.wf = true := by
  unfold State.askRetire
  dsimp only
  split <;> simp [h]

@[simp] theorem State.settleOwed_wf {s : State} (b : Nat) (h : s.mem.wf = true) :
    (s.settleOwed b).mem.wf = true := State.foldl_wf (fun _ _ h => State.askRetire_wf _ _ h) h

@[simp] theorem State.releaseGranule_wf {s : State} (kind n : Nat) (h : s.mem.wf = true) :
    (s.releaseGranule kind n).mem.wf = true := by
  simp [State.releaseGranule, h]

@[simp] theorem State.sweep_wf {s : State} (kind n : Nat) (h : s.mem.wf = true) : (s.sweep kind n).mem.wf = true := by
  have hm : (s.mem.clearRange (scrubRange kind n).1 (scrubRange kind n).2 (Config.sweptWord s.free)).wf = true :=
    Memory.wf_filter _ _ _ _ _ h
  unfold State.sweep
  simp [hm]

/-! ### Saved contexts -/

@[simp] theorem storeWords_wf (p : Pos) (l : List (Access × IWord)) {s : State} (h : s.mem.wf = true) :
    (storeWords p l s).mem.wf = true := by
  induction l generalizing s with
  | nil => exact h
  | cons x l ih => exact ih (State.scan_wf _ (State.storeEffect_wf _ _ h))

@[simp] theorem State.emptyContext_wf {s : State} (p : Pos) (h : s.mem.wf = true) : (s.emptyContext p).mem.wf = true := by
  unfold State.emptyContext
  extract_lets s0 mine s1 s2 s3 s4
  have h0 : s0.mem.wf = true := by
    unfold s0
    split <;> simp [h]
  have h1 : s1.mem.wf = true := State.foldl_wf (fun t e ht => State.foldl_wf (fun t a ht => by split <;> simp [ht])
    (State.dropEntry_wf _ _ _ ht)) h0
  have h2 : s2.mem.wf = true := State.foldl_wf (fun t q ht => by simp [ht]) h1
  rw [State.modCtx_mem]
  simpa [s4, s3] using h2

@[simp] theorem State.reenter_mem (p : Pos) (first : Nat) (sp : State × Option (Nat × Nat)) (e : Nat × Nat × List Access) :
    (State.reenter p first sp e).1.mem = sp.1.mem := by
  obtain ⟨s, prev⟩ := sp
  unfold State.reenter
  dsimp only
  refine State.foldl_mem (fun t a => by split <;> simp) ?_
  split <;> split <;> simp

theorem reenters_mem (p : Pos) (first : Nat) (es : List (Nat × Nat × List Access)) (sp : State × Option (Nat × Nat)) :
    (es.foldl (State.reenter p first) sp).1.mem = sp.1.mem := by
  induction es generalizing sp with
  | nil => rfl
  | cons e es ih => exact (ih _).trans (State.reenter_mem p first sp e)

theorem State.logMonitor_mem {s t : State} {p : Pos} {k : Nat} {ea : Word} {cause : Nat}
    (e : s.logMonitor p k ea cause = some t) :
    t.mem = s.mem := by
  obtain ⟨i, -, rfl⟩ := Option.map_eq_some_iff.mp e
  rfl

@[simp] theorem rearmFrom_mem (p : Pos) (l : List Nat) (s : State) : (rearmFrom p l s).1.mem = s.mem := by
  induction l generalizing s with
  | nil => rfl
  | cons k l ih =>
    unfold rearmFrom
    extract_lets ea z
    have hz : z.mem = s.mem := by simp [z]
    clear_value z
    split
    · rw [ih, hz]
    · have hx := z.translate_mem p ea { r := true }
      split
      next s1 x e =>
      have h1 : s1.mem = s.mem := by
        split at e
        · cases e; exact hz
        · rw [e] at hx; exact hx.trans hz
      split
      · rw [ih, State.modCtx_mem, h1]
      · split
        · next e => rw [ih, State.logMonitor_mem e, h1]
        · exact h1
      · exact h1
      · exact h1

@[simp] theorem State.rearm_mem (s : State) (p : Pos) : (s.rearm p).1.mem = s.mem := rearmFrom_mem _ _ _

@[simp] theorem State.restoreImage_wf {s : State} (p : Pos) (x : Img) (h : s.mem.wf = true) :
    (s.restoreImage p x).1.mem.wf = true := by
  unfold State.restoreImage
  extract_lets seq old c0 c1 s1 s2 es first z s3
  have h2 : s2.mem = s.mem := State.foldl_mem (by simp) (s.setCtx_mem _ _)
  have hz : z.mem = s.mem := (reenters_mem p first es (s2, none)).trans h2
  have h3 : s3.mem = s.mem := by rw [State.modCtx_mem]; exact hz
  split
  next s4 stop e =>
  have h4 : s4.mem = s.mem := by
    have hr := (x.matrix p s3).rearm_mem p
    rw [e] at hr
    exact hr.trans ((x.matrix_mem p s3).trans h3)
  exact State.wakeChains_wf _ _ _ (by rw [h4]; exact h)

/-! ### Services -/

theorem State.bufPiece_wf {s t : State} {c : Call} {va : Nat} {w : Bool} {agent : Nat} {r : Buf}
    (e : s.bufPiece c va w agent = (t, r)) (h : s.mem.wf = true) :
    t.mem.wf = true := by
  have ht := s.translate_mem c.pos (w64 va) { r := true, w := w }
  unfold State.bufPiece at e
  split at e
  · cases e; exact h
  · split at e
    · cases e; exact h
    · split at e <;> rename_i he <;> rw [he] at ht <;> rw [← ht] at h <;> cases e
      · exact h
      · exact h
      · exact h
      · exact State.contain_wf _ h

theorem bufFrom_wf {c : Call} {w : Bool} {agent : Nat} {l : List (Nat × Nat)} {s t : State} {r : Buf}
    (e : bufFrom c w agent l s = (t, r)) (h : s.mem.wf = true) :
    t.mem.wf = true := by
  induction l generalizing s t r with
  | nil => cases e; exact h
  | cons x l ih =>
    unfold bufFrom at e
    split at e <;> rename_i he <;> replace h := State.bufPiece_wf he h
    · split at e <;> rename_i hn
      · cases e; exact ih hn h
      · exact ih e h
    · cases e; exact h
    · cases e; exact h

theorem State.buffer_wf {s t : State} {c : Call} {va : Word} {n : Nat} {w : Bool} {r : Buf} (e : s.buffer c va n w = (t, r))
    (h : s.mem.wf = true) :
    t.mem.wf = true := by
  unfold State.buffer at e
  dsimp only at e
  split at e
  · next he =>
    replace h := bufFrom_wf he h
    split at e
    · cases e; exact h
    · split at e <;> rename_i hg <;> rw [← State.mem_of_gateInLine hg] at h <;> cases e <;> exact h
  · exact bufFrom_wf e h

@[simp] theorem storePiece_wf (fuel a n v : Nat) {s : State} (h : s.mem.wf = true) :
    (storePiece fuel a n v s).mem.wf = true := by
  induction fuel generalizing a n v s with
  | zero => exact h
  | succ n ih =>
    unfold storePiece
    split
    · exact h
    · exact ih _ _ _ (State.engineStore_wf _ _ _ _ h)

@[simp] theorem storeBuf_wf (l : List (Nat × Nat)) (n : Nat) {s : State} (h : s.mem.wf = true) :
    (storeBuf l n s).mem.wf = true := by
  induction l generalizing n s with
  | nil => exact h
  | cons x l ih => exact ih _ (storePiece_wf _ _ _ _ h)

theorem State.blockOf_wf {s t : State} {c : Call} {r : Buf} (e : s.blockOf c = (t, r)) (h : s.mem.wf = true) :
    t.mem.wf = true := by
  unfold State.blockOf at e
  split at e
  · cases e; exact h
  · exact State.buffer_wf e h

@[simp] theorem State.putResults_wf {s : State} (c : Call) (ps : List (Nat × Nat)) (rs : List (Nat × Word))
    (h : s.mem.wf = true) :
    (s.putResults c ps rs).mem.wf = true := by
  refine State.foldl_wf (fun t r ht => ?_) h
  split
  · exact ht
  · split <;> simp [ht]

@[simp] theorem State.doorbell_wf {s : State} (k i block : Nat) (h : s.mem.wf = true) :
    (s.doorbell k i block).mem.wf = true := by
  unfold State.doorbell
  dsimp only
  split <;> exact State.foldl_wf (fun _ _ h => h) h

@[simp] theorem State.performed_wf {s : State} (c : Call) (ps : List (Nat × Nat)) (status : Nat) (rs : List (Nat × Word))
    (h : s.mem.wf = true) :
    (s.performed c ps status rs).mem.wf = true := by
  simp [State.performed, h]

/-- The state an answer leaves has memory in its canonical form. -/
def Answer.Canonical : Answer → Prop
  | .ends s _ _ => s.mem.wf = true
  | .wait s => s.mem.wf = true
  | .runs s => s.mem.wf = true

@[simp] theorem Answer.canonical_ends (s : State) (n : Nat) (rs : List (Nat × Word)) :
    (Answer.ends s n rs).Canonical ↔ s.mem.wf = true := Iff.rfl

@[simp] theorem Answer.canonical_wait (s : State) : (Answer.wait s).Canonical ↔ s.mem.wf = true := Iff.rfl

@[simp] theorem Answer.canonical_runs (s : State) : (Answer.runs s).Canonical ↔ s.mem.wf = true := Iff.rfl

theorem State.serve_wf {s : State} (k : Nat) (c : Call) {body : Ask → State → Answer}
    (hb : ∀ x t, t.mem.wf = true → (body x t).Canonical) (h : s.mem.wf = true) :
    (s.serve k c body).mem.wf = true := by
  unfold State.serve
  split <;> rename_i e <;> replace h := State.blockOf_wf e h
  · exact h
  · simp [h]
  · next s1 ps =>
    extract_lets ws w0 target s2 host fail
    have h2 : s2.mem.wf = true := by simpa [s2] using h
    have hf (n : Nat) : (fail n).mem.wf = true := State.performed_wf _ _ _ _ h2
    clear_value s2 fail
    have ha := hb ⟨c, target, ws⟩ s2 h2
    generalize body ⟨c, target, ws⟩ s2 = a at ha ⊢
    simp only [State.mem_ite, Memory.wf_ite, hf, implies_true, true_and]
    intros
    cases a with
    | ends => exact State.performed_wf _ _ _ _ ha
    | wait => exact h
    | runs => exact ha

/-! ### The package -/

@[simp] theorem State.hostWrite_wf {s : State} (pa : Nat) (v : Word) (h : s.mem.wf = true) :
    (s.hostWrite pa v).mem.wf = true := by
  unfold State.hostWrite
  split
  · exact h
  · exact Memory.wf_setTags _ _ _ (Memory.wf_write _ _ _ ((State.recallAll_mem _ _).symm ▸ h))

theorem recordWords_wf {n : Nat} {aspace : Word} {va k : Nat} {s t : State} {r : Option (Option (List Word))}
    (e : recordWords n aspace va k s = (t, r)) (h : s.mem.wf = true) :
    t.mem.wf = true := by
  induction k generalizing va s t r with
  | zero => cases e; exact h
  | succ k ih =>
    unfold recordWords at e
    split at e <;> rename_i he <;> replace h := State.queueWord_wf he h
    · cases e; exact h
    · cases e; exact h
    · split at e <;> rename_i hn
      · cases e; exact ih hn h
      · exact ih e h

@[simp] theorem State.launchStore_wf {s : State} (n k q : Nat) (v : Word) (h : s.mem.wf = true) :
    (s.launchStore n k q v).mem.wf = true := by
  unfold State.launchStore
  extract_lets answer
  split
  · exact h
  · split <;> rename_i e <;> replace h := recordWords_wf e h
    · exact h
    · exact h
    · exact State.submit_wf _ _ _ h

/-! ### Fetch -/

@[simp] theorem State.issueCycle_wf {s : State} (b r : Nat) (h : s.mem.wf = true) : (s.issueCycle b r).mem.wf = true := by
  simp [State.issueCycle, h]

/-! ### Scheduling -/

@[simp] theorem State.idle_wf {s : State} (h : s.mem.wf = true) : (s.idle).mem.wf = true := by
  unfold State.idle
  split
  · exact h
  · split
    · simp [h]
    · split
      · exact h
      · split <;> exact h

end Sys2Proof.Machine
end

section
/-! PROOFS. The outcomes of instructions and events: whatever state one ends in has memory in its canonical form. -/

namespace Sys2Proof.Machine

/-- An outcome's state, where it has one, has memory in its canonical form. -/
def EndsCanonical (r : Res) : Prop := ∀ t, r = .next t → t.mem.wf = true

@[simp] theorem endsCanonical_next (s : State) : EndsCanonical (.next s) ↔ s.mem.wf = true :=
  ⟨fun h => h s rfl, fun h _ e => by cases e; exact h⟩

@[simp] theorem endsCanonical_fault (r : Fault) : EndsCanonical (.fault r) := fun _ e => by cases e

@[simp] theorem endsCanonical_refused (r : Refusal) : EndsCanonical (.refused r) := fun _ e => by cases e

@[simp] theorem endsCanonical_ite (c : Prop) [Decidable c] (a b : Res) :
    EndsCanonical (if c then a else b) ↔ (c → EndsCanonical a) ∧ (¬ c → EndsCanonical b) := by
  split <;> simp [*]

/-- The state of a pair whose state keeps memory has memory in its canonical form. -/
theorem State.wf_of_fst {α : Type} {x : State × α} {s t : State} {a : α} (e : x = (t, a)) (hx : x.1.mem = s.mem)
    (h : s.mem.wf = true) :
    t.mem.wf = true := by
  subst e
  exact hx ▸ h

theorem State.wf_of_pair {α : Type} {x : State × α} {t : State} {a : α} (e : x = (t, a)) (h : x.1.mem.wf = true) :
    t.mem.wf = true := by
  subst e
  exact h

/-! ### Operations of the state -/

@[simp] theorem parked_canonical {s : State} (h : Hold) (hm : s.mem.wf = true) :
    EndsCanonical (parked s h) := by simp [parked, hm]

@[simp] theorem trapped_canonical {s : State} (cause : Nat) (val : Word) (hm : s.mem.wf = true) :
    EndsCanonical (trapped s cause val) := by simp [trapped, hm]

@[simp] theorem supervisorOnly_canonical {s : State} (k : Res) (hm : s.mem.wf = true) :
    EndsCanonical (supervisorOnly s k) ↔ (s.cur.k = 15 → EndsCanonical k) := by
  simp [supervisorOnly, hm]

@[simp] theorem outsideTx_canonical {s : State} (major : Nat) (k : Res) (hm : s.mem.wf = true) :
    EndsCanonical (outsideTx s major k) ↔ (s.inTx = false → EndsCanonical k) := by
  simp [outsideTx, hm]

/-! ### Operands -/

@[simp] theorem withReg_canonical {s : State} (r : BitVec 5) (k : Cell → Res) (hm : s.mem.wf = true) :
    EndsCanonical (withReg s r k) ↔ ((s.me.reg r).full = true → EndsCanonical (k (s.me.reg r))) := by
  simp [withReg, hm]

@[simp] theorem withPred_canonical {s : State} (q : BitVec 3) (k : QCell → Res) (hm : s.mem.wf = true) :
    EndsCanonical (withPred s q k) ↔ ((s.me.pred q).full = true → EndsCanonical (k (s.me.pred q))) := by
  simp [withPred, hm]

@[simp] theorem withVreg_canonical {s : State} (n : Nat) (k : VCell → Res) (hm : s.mem.wf = true) :
    EndsCanonical (withVreg s n k) ↔ ((s.me.vreg n).full = true → EndsCanonical (k (s.me.vreg n))) := by
  simp [withVreg, hm]

@[simp] theorem withControl_canonical {s : State} (r : BitVec 5) (k : Word → Res) (hm : s.mem.wf = true) :
    EndsCanonical (withControl s r k) ↔ ((s.me.reg r).full = true → (s.me.reg r).poison = false →
      EndsCanonical (k (s.me.reg r).val)) := by
  simp [withControl, hm]

@[simp] theorem withPredControl_canonical {s : State} (q : BitVec 3) (k : Bool → Res) (hm : s.mem.wf = true) :
    EndsCanonical (withPredControl s q k) ↔ ((s.me.pred q).full = true → (s.me.pred q).poison = false →
      EndsCanonical (k (s.me.pred q).val)) := by
  simp [withPredControl, hm]

@[simp] theorem withControls_canonical {s : State} (r1 r2 : BitVec 5) (k : Word → Word → Res) (hm : s.mem.wf = true) :
    EndsCanonical (withControls s r1 r2 k) ↔ ((s.me.reg r1).full = true → (s.me.reg r2).full = true →
      (s.me.reg r1).poison = false → (s.me.reg r2).poison = false → EndsCanonical (k (s.me.reg r1).val (s.me.reg r2).val)) := by
  simp [withControls, hm]

@[simp] theorem withOx_canonical {s : State} (o n : Nat) (k : List Word → Res) (hm : s.mem.wf = true) :
    EndsCanonical (withOx s o n k) ↔ ((s.me.oxBlock o n).all (fun x => x.full) = true →
      (s.me.oxBlock o n).find? (fun x => x.poison) = none → EndsCanonical (k ((s.me.oxBlock o n).map fun x => x.val))) := by
  unfold withOx
  cases (s.me.oxBlock o n).find? (fun x => x.poison) <;> simp [hm]

@[simp] theorem wrote_canonical {s : State} (d : BitVec 5) (v : Word) (p : Bool) (hm : s.mem.wf = true) :
    EndsCanonical (wrote s d v p) := by simp [wrote, hm]

@[simp] theorem wrotePred_canonical {s : State} (q : BitVec 3) (v p : Bool) (hm : s.mem.wf = true) :
    EndsCanonical (wrotePred s q v p) := by simp [wrotePred, hm]

@[simp] theorem unary_canonical (f : Word → Word) (d a : BitVec 5) {s : State} (hm : s.mem.wf = true) :
    EndsCanonical (unary f d a s) := by simp [unary, hm]

@[simp] theorem binary_canonical (f : Word → Word → Word) (d a b : BitVec 5) {s : State} (hm : s.mem.wf = true) :
    EndsCanonical (binary f d a b s) := by simp [binary, hm]

@[simp] theorem ternary_canonical (f : Word → Word → Word → Word) (d a b : BitVec 5) {s : State} (hm : s.mem.wf = true) :
    EndsCanonical (ternary f d a b s) := by simp [ternary, hm]

@[simp] theorem unaryOld_canonical (f : Word → Word → Word) (d a : BitVec 5) {s : State} (hm : s.mem.wf = true) :
    EndsCanonical (unaryOld f d a s) := by simp [unaryOld, hm]

@[simp] theorem testing_canonical (f : Word → Word → Bool) (q : BitVec 3) (a b : BitVec 5) {s : State}
    (hm : s.mem.wf = true) :
    EndsCanonical (testing f q a b s) := by simp [testing, hm]

@[simp] theorem predOp_canonical (f : Bool → Bool → Bool) (q a b : BitVec 3) {s : State} (hm : s.mem.wf = true) :
    EndsCanonical (predOp f q a b s) := by simp [predOp, hm]

/-! ### Groups -/

@[simp] theorem groupWise_canonical {s : State} (alone : Res) (whole : Group → Res) (first : List Nat)
    (hm : s.mem.wf = true) :
    EndsCanonical (groupWise s alone whole first) ↔ (s.unfused = true → EndsCanonical alone) ∧ (s.unfused = false →
      (first.head? == some s.cur.r) = true → ∀ g, s.groupOf s.cur = some g → EndsCanonical (whole g)) := by
  unfold groupWise
  cases s.unfused <;> cases first.head? == some s.cur.r <;> cases s.groupOf s.cur <;> simp [hm]

@[simp] theorem joinAlone_canonical {s : State} (hm : s.mem.wf = true) : EndsCanonical (joinAlone s) := by
  unfold joinAlone
  split
  · simp [hm]
  · split
    · simp [hm]
    · next i _ =>
      have hs := State.foldl_wf (l := (List.range (i + 1)).filter fun j => bit (s.sr (0x090 + j)) 0)
        (f := fun t j => t.setSr t.cur (0x090 + j) (setField (t.sr (0x090 + j)) 0 0 0)) (fun t j ht => by simp [ht]) hm
      dsimp only
      split <;> simp [hm, hs]

@[simp] theorem joinUnit_canonical {s : State} (hm : s.mem.wf = true) : EndsCanonical (joinUnit s) := by simp [joinUnit, hm]

@[simp] theorem execBrk_canonical (n : BitVec 5) {s : State} (hm : s.mem.wf = true) : EndsCanonical (execBrk n s) := by
  unfold execBrk
  rw [groupWise_canonical _ _ _ hm]
  refine ⟨fun _ => ?_, fun _ _ g _ => ?_⟩
  · simpa using State.foldl_wf (fun t i ht => by simp [ht]) hm
  · dsimp only
    split <;> simp [hm]

@[simp] theorem execHaltH_canonical {s : State} (hm : s.mem.wf = true) : EndsCanonical (execHaltH s) := by
  have h1 : (s.actingOutsideTx.foldl (fun t r => t.haltAt (t.lane r)) s).mem.wf = true :=
    State.foldl_wf (fun t r ht => by simp [ht]) hm
  unfold execHaltH
  rw [outsideTx_canonical _ _ hm, groupWise_canonical _ _ _ hm]
  refine fun _ => ⟨fun _ => ?_, fun _ _ g _ => ?_⟩
  · simp [hm]
  · dsimp only
    split <;> simp [h1]

@[simp] theorem execVote_canonical (q r : BitVec 3) (t : BitVec 2) {s : State} (hm : s.mem.wf = true) :
    EndsCanonical (execVote q r t s) := by
  unfold execVote
  split
  · simp [hm]
  · extract_lets ps v p
    have hs : (s.acting.foldl (fun z r => z.modCtx (s.lane r) fun c => c.setPred q v p) s).mem.wf = true :=
      State.foldl_wf (fun t r ht => by simp [ht]) hm
    split <;> simp [hm, hs]

@[simp] theorem execBallot_canonical (d : BitVec 5) (q : BitVec 3) {s : State} (hm : s.mem.wf = true) :
    EndsCanonical (execBallot d q s) := by
  unfold execBallot
  split
  · simp [hm]
  · extract_lets ps v
    have hs : (s.acting.foldl (fun z r => z.modCtx (s.lane r) fun c => c.setReg d (w64 v) false) s).mem.wf = true :=
      State.foldl_wf (fun t r ht => by simp [ht]) hm
    split <;> simp [hm, hs]

@[simp] theorem execShfl_canonical (d a b : BitVec 5) (m : BitVec 2) {s : State} (hm : s.mem.wf = true) :
    EndsCanonical (execShfl d a b m s) := by
  unfold execShfl
  split
  · simp [hm]
  · extract_lets active bs rs
    have hs : (rs.foldl (fun z x => z.modCtx (s.lane x.1) fun c =>
        c.setReg d x.2.1.val (x.2.1.poison || x.2.2)) s).mem.wf = true :=
      State.foldl_wf (fun t x ht => by simp [ht]) hm
    clear_value bs rs
    split
    · split <;> simp [hm, hs]
    · simp [hm]

@[simp] theorem execFuseGroupForm_canonical (b k m : Nat) {s : State} (hm : s.mem.wf = true) :
    EndsCanonical (execFuseGroupForm b k m s) := by
  unfold execFuseGroupForm
  split
  · simp [hm]
  · dsimp only
    split
    · simp [hm]
    · simpa using State.foldl_wf (fun t x ht => by split <;> simp [ht]) hm

@[simp] theorem execFuseTimeout_canonical (b r k : Nat) {s : State} (hm : s.mem.wf = true) :
    EndsCanonical (execFuseTimeout b r k s) := by
  unfold execFuseTimeout
  dsimp only
  split <;> simp [hm]

/-! ### Control transfer and windows -/

@[simp] theorem checkTarget_canonical {s : State} (t : Word) (k : Res) (hm : s.mem.wf = true) :
    EndsCanonical (checkTarget s t k) ↔ (bit t 0 = false → field t 63 56 = 0 → bit t 55 = false → EndsCanonical k) := by
  simp [checkTarget, hm]

@[simp] theorem goTo_canonical {s : State} (t : Word) (hm : s.mem.wf = true) : EndsCanonical (goTo s t) := by simp [goTo, hm]

@[simp] theorem branchIf_canonical {s : State} (taken : Bool) (t : Word) (hm : s.mem.wf = true) :
    EndsCanonical (branchIf s taken t) := by simp [branchIf, hm]

@[simp] theorem countDown_canonical {s : State} (a : BitVec 5) (v : Word) (taken : Bool) (t : Word) (hm : s.mem.wf = true) :
    EndsCanonical (countDown s a v taken t) := by simp [countDown, hm]

@[simp] theorem opening_canonical {s : State} (t : Word) (hm : s.mem.wf = true) :
    EndsCanonical (opening s t) := by simp [opening, hm]

@[simp] theorem closing_canonical {s : State} (t : Word) (hm : s.mem.wf = true) :
    EndsCanonical (closing s t) := by simp [closing, hm]

@[simp] theorem returning_canonical {s : State} (major : Nat) (hm : s.mem.wf = true) :
    EndsCanonical (returning s major) := by simp [returning, hm]

@[simp] theorem execWindowSpill_canonical (b r k : Nat) {s : State} (hm : s.mem.wf = true) :
    EndsCanonical (execWindowSpill b r k s) := by
  unfold execWindowSpill
  split
  · split
    · simp [hm]
    · split
      · next op _ _ _ =>
        have h1 := State.frameStored_mem s ⟨b, r, k⟩ (lsAddr b r (s.srAt ⟨b, r, k⟩ 0x030).toNat)
        rw [endsCanonical_next, State.modRill_mem, State.modCtx_mem]
        exact (congrArg Memory.wf h1).trans (Memory.wf_storeFrame _ _ _ hm)
      · simp [hm]
  · simp [hm]

@[simp] theorem execWindowFill_canonical (b r k : Nat) {s : State} (hm : s.mem.wf = true) :
    EndsCanonical (execWindowFill b r k s) := by
  unfold execWindowFill
  split
  · split
    · simp [hm]
    · split <;> simp [State.afterKept_mem, hm]
  · simp [hm]

/-! ### Shared registers and long operations -/

@[simp] theorem multiply_canonical (f : Word → Word → Word) (d a b : BitVec 5) (la : BitVec 4) {s : State}
    (hm : s.mem.wf = true) :
    EndsCanonical (multiply f d a b la s) := by simp [multiply, hm]

@[simp] theorem divide_canonical (f : Word → Word → Word) (d a b : BitVec 5) (la : BitVec 4) {s : State}
    (hm : s.mem.wf = true) :
    EndsCanonical (divide f d a b la s) := by simp [divide, hm]

@[simp] theorem execDivideResult_canonical (b r : Nat) {s : State} (hm : s.mem.wf = true) :
    EndsCanonical (execDivideResult b r s) := by
  unfold execDivideResult
  split <;> simp [hm]

@[simp] theorem failedAttempt_canonical {s : State} (i : Instr) (h : Hold) (sr cause : Nat) (val : Word)
    (hm : s.mem.wf = true) :
    EndsCanonical (failedAttempt s i h sr cause val) := by simp [failedAttempt, hm]

@[simp] theorem sharedFe_canonical {s : State} (i : Instr) (m : BitVec 4) (ok : Cell → Bool) (k : State → Cell → Res)
    (hm : s.mem.wf = true) :
    EndsCanonical (sharedFe s i m ok k) ↔ (s.myRill.isReserved s.cycle m.toNat = false →
      ok (s.myRill.shared s.cycle m.toNat) = true →
      EndsCanonical (k (s.attempted.mReserve m.toNat) (s.myRill.shared s.cycle m.toNat))) := by
  simp [sharedFe, hm]

@[simp] theorem execMrdfe_canonical (d : BitVec 5) (m : BitVec 4) {s : State} (hm : s.mem.wf = true) :
    EndsCanonical (execMrdfe d m s) := by simp [execMrdfe, hm]

@[simp] theorem execMrdff_canonical (d : BitVec 5) (m : BitVec 4) {s : State} (hm : s.mem.wf = true) :
    EndsCanonical (execMrdff d m s) := by simp [execMrdff, hm]

@[simp] theorem execMwrfe_canonical (m : BitVec 4) (a : BitVec 5) {s : State} (hm : s.mem.wf = true) :
    EndsCanonical (execMwrfe m a s) := by simp [execMwrfe, hm]

@[simp] theorem execMwrff_canonical (m : BitVec 4) (a : BitVec 5) {s : State} (hm : s.mem.wf = true) :
    EndsCanonical (execMwrff m a s) := by simp [execMwrff, hm]

@[simp] theorem execMfeclr_canonical (m : BitVec 4) {s : State} (hm : s.mem.wf = true) :
    EndsCanonical (execMfeclr m s) := by simp [execMfeclr, hm]

@[simp] theorem execSharedRegisterEffect_canonical (b r : Nat) {s : State} (hm : s.mem.wf = true) :
    EndsCanonical (execSharedRegisterEffect b r s) := by
  unfold execSharedRegisterEffect
  split <;> simp [hm]

theorem State.retrying_canonical {s : State} (p : Pos) (x : Hold) {k : State → Instr → Res}
    (hk : ∀ t i, t.mem.wf = true → EndsCanonical (k t i)) (hm : s.mem.wf = true) :
    EndsCanonical (s.retrying p x k) := by
  unfold State.retrying
  dsimp only
  split
  · next i _ =>
    split
    · simp [hm]
    · split
      · simp [hm]
      · split
        · next t e =>
          have ht := hk _ i (by simp [hm]) t e
          rw [endsCanonical_next, State.endUnit_mem, Memory.wf_ite]
          exact ⟨fun _ => hm, fun _ => ht⟩
        · exact hk _ i (by simp [hm])
  · simp [hm]

@[simp] theorem execSharedRegisterFeRetry_canonical (b r k : Nat) {s : State} (hm : s.mem.wf = true) :
    EndsCanonical (execSharedRegisterFeRetry b r k s) := by
  refine State.retrying_canonical _ _ (fun t i ht => ?_) hm
  split <;> simp [ht, hm]

@[simp] theorem neighbour_canonical {s : State} (i : Instr) (dir : Nat) (d a : BitVec 5) (hm : s.mem.wf = true) :
    EndsCanonical (neighbour s i dir d a) := by simp [neighbour, hm]

@[simp] theorem execNwrAttempt_canonical (b r k : Nat) {s : State} (hm : s.mem.wf = true) :
    EndsCanonical (execNwrAttempt b r k s) := by
  refine State.retrying_canonical _ _ (fun t i ht => ?_) hm
  split <;> simp [ht, hm]

@[simp] theorem execNwrLand_canonical (b r k : Nat) {s : State} (hm : s.mem.wf = true) :
    EndsCanonical (execNwrLand b r k s) := by
  unfold execNwrLand
  split <;> simp [hm]

/-! ### Accesses -/

@[simp] theorem trappedAt_canonical {s : State} (cause : Nat) (ea : Word) (write : Bool) (hm : s.mem.wf = true) :
    EndsCanonical (trappedAt s cause ea write) := by simp [trappedAt, hm]

@[simp] theorem withAddress_canonical {s : State} (ea : Word) (size : Nat) (bad : Bool) (k : Res) (write : Bool)
    (hm : s.mem.wf = true) :
    EndsCanonical (withAddress s ea size bad k write) ↔ (addressFault ea size bad true = none → EndsCanonical k) := by
  unfold withAddress
  cases addressFault ea size bad true <;> simp [hm]

theorem issueThen_canonical {s : State} (dests : List Dest) (la : Option Nat) (accs : List Access) {post : State → State}
    (hpost : ∀ t, t.mem.wf = true → (post t).mem.wf = true) (hm : s.mem.wf = true) :
    EndsCanonical (issueThen s dests la accs post) := by
  have hlaunch (p : Pos) (gs : List Access) (t : State) (ht : t.mem.wf = true) :
      (gs.foldl (fun t x => t.launchAccess p x) t).mem.wf = true :=
    State.foldl_wf (fun t x ht => by simp [ht]) ht
  unfold issueThen
  extract_lets p base seq s0
  split
  · simp [hm]
  · split
    next s1 rs e =>
    have h1 : s1.mem.wf = true := State.wf_of_fst e (State.resolveAll_mem _ _ _) hm
    split
    · simp [hm]
    · split
      · simp [h1]
      · extract_lets logs s2 s3 gs s4 s5 s3' s4'
        have hlogged : s3.mem.wf = true := State.foldl_wf (fun t g ht => by simp [ht]) (by simp [s2, h1])
        have h5 : s5.mem.wf = true := by
          rw [State.modMe_mem]
          exact hlaunch _ _ _ hlogged
        have h4 : s4'.mem.wf = true := by
          rw [State.modMe_mem]
          exact hlaunch _ _ _ (by simp [s2, h1])
        clear_value logs s5 s4'
        split
        · split
          · simp [h1]
          · split
            · simp [hm]
            · simp [hpost, h5]
        · simp [hpost, h4]

@[simp] theorem issueAll_canonical {s : State} (dests : List Dest) (la : Option Nat) (accs : List Access) (post : Ctx → Ctx)
    (hm : s.mem.wf = true) :
    EndsCanonical (issueAll s dests la accs post) := issueThen_canonical _ _ _ (by simp) hm

/-- The state or outcome of an access of a transaction has memory in its canonical form. -/
def TxOut.Canonical : TxOut → Prop
  | .ok s _ _ => s.mem.wf = true
  | .stop r => EndsCanonical r
  | .full _ => True
  | .lock _ => True

/-! ### Transaction logs -/

theorem txReadAt_canonical {s : State} (t : Tx) (pa size : Nat) (sync : Bool) (va : Word) (hm : s.mem.wf = true) :
    (txReadAt s t pa size sync va).Canonical := by
  unfold txReadAt
  dsimp only
  split
  · exact hm
  · split
    · simpa [TxOut.Canonical] using hm
    · split
      · trivial
      · simpa [TxOut.Canonical] using hm

theorem txWriteAt_canonical {s : State} (t : Tx) (pa size v : Nat) (bad sync : Bool) (va : Word) (hm : s.mem.wf = true) :
    (txWriteAt s t pa size v bad sync va).Canonical := by
  unfold txWriteAt
  dsimp only
  split
  · simpa [TxOut.Canonical] using hm
  · split
    · simpa [TxOut.Canonical] using hm
    · split
      · trivial
      · split
        · exact State.spillEntry_wf _ _ _ (by simpa using hm)
        · split
          · trivial
          · exact State.spillEntry_wf _ _ _ (by simpa using hm)

theorem txAccess_canonical {s : State} (major : Nat) (x : TxAcc) (hm : s.mem.wf = true) : (txAccess s major x).Canonical := by
  unfold txAccess
  dsimp only
  split
  · simp [TxOut.Canonical, hm]
  · split
    · simp [TxOut.Canonical, hm]
    · split <;> rename_i e <;> have ht := State.wf_of_fst e (State.translate_mem _ _ _ _) hm
      · simp [TxOut.Canonical, ht]
      · simp [TxOut.Canonical, ht]
      · simp [TxOut.Canonical, ht]
      · split
        · simp [TxOut.Canonical, hm]
        · split
          · simp [TxOut.Canonical, hm]
          · split
            · exact ht
            · next s1 pa leaf _ _ _ t _ =>
              split
              · trivial
              · have hr : (if x.rd then txReadAt (s1.noteUsed x.va) t pa x.size (bit leaf 6) x.va
                    else .ok (s1.noteUsed x.va) 0 false).Canonical := by
                  have hn : (s1.noteUsed x.va).mem.wf = true := by simp [ht]
                  split
                  · exact txReadAt_canonical _ _ _ _ _ hn
                  · exact hn
                split <;> rename_i er <;> rw [er] at hr
                · exact hr
                · trivial
                · trivial
                · split
                  · next nv np t2 _ _ =>
                    have hw := txWriteAt_canonical t2 pa x.size nv np (bit leaf 6) x.va hr
                    split <;> rename_i ew <;> rw [ew] at hw
                    · exact hw
                    · exact hw
                    · trivial
                    · trivial
                  · exact hr

theorem txFrom_canonical {onFull onLock : Nat → Res} {major : Nat} {l : List TxAcc} {s : State}
    {k : State → List (Nat × Bool) → Res} (hf : ∀ c, EndsCanonical (onFull c)) (hl : ∀ n, EndsCanonical (onLock n))
    (hk : ∀ t vs, t.mem.wf = true → EndsCanonical (k t vs)) (hm : s.mem.wf = true) :
    EndsCanonical (txFrom onFull onLock major l s k) := by
  induction l generalizing s k with
  | nil => exact hk _ _ hm
  | cons x l ih =>
    have ha := txAccess_canonical major x hm
    unfold txFrom
    split <;> rename_i e <;> rw [e] at ha
    · exact ha
    · exact hf _
    · exact hl _
    · exact ih (fun t vs ht => hk _ _ ht) ha

theorem txRefused_canonical {s : State} {major : Nat} {xs : List TxAcc} {r : Res} (e : txRefused s major xs = some r)
    (hm : s.mem.wf = true) :
    EndsCanonical r := by
  unfold txRefused at e
  split at e
  · cases e; simp [hm]
  · split at e
    · cases e; simp [hm]
    · obtain ⟨x, -, hx⟩ := List.exists_of_findSome?_eq_some e
      split at hx <;> cases hx
      simp [hm]

theorem txAll_canonical {s : State} (major : Nat) (xs : List TxAcc) {k : State → List (Nat × Bool) → Res}
    (hk : ∀ t vs, t.mem.wf = true → EndsCanonical (k t vs)) (hm : s.mem.wf = true) :
    EndsCanonical (txAll s major xs k) := by
  unfold txAll
  split
  · simp [hm]
  · split
    · simp [hm]
    · split
      · next e => exact txRefused_canonical e hm
      · exact txFrom_canonical (by simp [hm]) (by simp [hm]) hk hm

/-! ### Loads and stores -/

@[simp] theorem loadAt_canonical {s : State} (major : Nat) (d : BitVec 5) (ea : Word) (bad : Bool) (t : Nat) (la : Option Nat)
    (hm : s.mem.wf = true) :
    EndsCanonical (loadAt s major d ea bad t la) := by
  unfold loadAt
  dsimp only
  split
  · refine txAll_canonical _ _ (fun t vs ht => ?_) hm
    split <;> simp [ht]
  · simp [hm]

@[simp] theorem storeAt_canonical {s : State} (major : Nat) (x : Cell) (ea : Word) (bad : Bool) (size : Nat) (la : Option Nat)
    (hm : s.mem.wf = true) :
    EndsCanonical (storeAt s major x ea bad size la) := by
  unfold storeAt
  split
  · exact txAll_canonical _ _ (fun t vs ht => by simp [ht]) hm
  · simp [hm]

@[simp] theorem execLoxm_canonical (n : BitVec 3) (a : BitVec 5) (k : BitVec 3) {s : State} (hm : s.mem.wf = true) :
    EndsCanonical (execLoxm n a k s) := by
  unfold execLoxm
  rw [withReg_canonical _ _ hm]
  intro _
  extract_lets eas elsewhere
  split
  · simp [hm]
  · split
    · exact txAll_canonical _ _ (fun t vs ht => by simp [ht]) hm
    · split <;> simp [hm]

@[simp] theorem prefetch_canonical {s : State} (a : BitVec 5) (p : BitVec 8) (own : Bool) (hm : s.mem.wf = true) :
    EndsCanonical (prefetch s a p own) := by
  unfold prefetch
  dsimp only
  split
  · simp [hm]
  · split <;> rename_i e <;> have ht := State.wf_of_fst e (State.translate_mem _ _ _ _) hm
    · simp [hm]
    · simp [hm]
    · simp [hm]
    · split
      · simp [ht]
      · split <;> simp [ht]

@[simp] theorem cacheOp_canonical {s : State} (k : AccKind) (a : BitVec 5) (p : BitVec 8) (la : Nat) (hm : s.mem.wf = true) :
    EndsCanonical (cacheOp s k a p la) := by
  unfold cacheOp
  rw [outsideTx_canonical _ _ hm, withReg_canonical _ _ hm]
  intro _ _
  dsimp only
  split <;> simp [hm]

@[simp] theorem execCzero_canonical (a : BitVec 5) (p : BitVec 8) (l : BitVec 4) {s : State} (hm : s.mem.wf = true) :
    EndsCanonical (execCzero a p l s) := by
  unfold execCzero
  rw [withReg_canonical _ _ hm]
  intro _
  dsimp only
  split
  · split
    · simp [hm]
    · exact txAll_canonical _ _ (fun t vs ht => by simp [ht]) hm
  · split <;> simp [hm]

/-! ### Order -/

@[simp] theorem fence_canonical {s : State} (f : AccKind → Bool) (f1 : Ctx → Ctx) (hm : s.mem.wf = true) :
    EndsCanonical (fence s f f1) := by simp [fence, hm]

@[simp] theorem execLda_canonical (d a : BitVec 5) (q t : BitVec 3) (x : BitVec 1) (sx : BitVec 3) {s : State}
    (hm : s.mem.wf = true) :
    EndsCanonical (execLda d a q t x sx s) := by
  unfold execLda
  rw [withReg_canonical _ _ hm]
  intro _
  dsimp only
  split
  · refine txAll_canonical _ _ (fun t vs ht => ?_) hm
    split
    · split <;> simp [ht]
    · simp [ht]
  · simp [hm]

@[simp] theorem execFenceRelWiden_canonical (a b : BitVec 5) (sx : BitVec 3) {s : State} (hm : s.mem.wf = true) :
    EndsCanonical (execFenceRelWiden a b sx s) := by
  unfold execFenceRelWiden
  rw [outsideTx_canonical _ _ hm, supervisorOnly_canonical _ hm, withReg_canonical _ _ hm]
  intro _ _ _
  rw [withReg_canonical _ _ hm]
  intro _
  split
  · simp [hm]
  · rw [withAddress_canonical _ _ _ _ _ hm]
    intro _
    dsimp only
    split
    · simp [hm]
    · split <;> rename_i e <;> have ht := State.wf_of_fst e (State.translate_mem _ _ _ _) hm <;> simp [ht]

@[simp] theorem execHbmWriteback_canonical (line : Nat) {s : State} (hm : s.mem.wf = true) :
    EndsCanonical (execHbmWriteback line s) := by
  unfold execHbmWriteback
  split
  · simpa using Memory.wf_setTags _ _ _ hm
  · simp [hm]

@[simp] theorem execScopeMissNotification_canonical (n : Nat) {s : State} (hm : s.mem.wf = true) :
    EndsCanonical (execScopeMissNotification n s) := by
  unfold execScopeMissNotification
  split <;> simp [hm]

/-! ### Block instructions -/

theorem blockRefused_canonical {s : State} {x : Block} {r : Res} (e : blockRefused s x = some r) (hm : s.mem.wf = true) :
    EndsCanonical r := by
  unfold blockRefused at e
  extract_lets ys trap full at e
  have hfull {zs r} (e : full zs = some r) : EndsCanonical r := by
    obtain ⟨c, -, rfl⟩ := Option.map_eq_some_iff.mp e
    simp [hm]
  have htrap {y r} (e : trap y = some r) : EndsCanonical r := by
    simp only [trap] at e
    split at e
    · next er =>
        cases e
        exact txRefused_canonical er hm
    · split at e
      · cases e; simp [hm]
      · cases e
    · cases e
  clear_value full trap
  split at e
  · cases e; simp [hm]
  · split at e
    · exact hfull e
    · split at e
      · next er =>
        cases e
        obtain ⟨y, -, hy⟩ := List.exists_of_findSome?_eq_some er
        exact htrap hy
      · exact hfull e

@[simp] theorem startBlock_canonical {s : State} (op : Nat) (n a b : BitVec 5) (e : BitVec 2) (la : BitVec 4)
    (hm : s.mem.wf = true) :
    EndsCanonical (startBlock s op n a b e la) := by simp [startBlock, hm]

@[simp] theorem txElement_canonical {s : State} (x : Block) (hm : s.mem.wf = true) : EndsCanonical (txElement s x) := by
  unfold txElement
  extract_lets c0 size wait full back put s0
  have h0 : s0.mem.wf = true := by simp [s0, hm]
  have hwait (l : Nat) : EndsCanonical (wait l) := by simp [wait, hm]
  have hfull (c : Nat) : EndsCanonical (full c) := by simp [full, hm]
  have hback (z : State) (next : Option Block) (hz : z.mem.wf = true) : EndsCanonical (back z next) := by simp [back, hz]
  have hput (z : State) (v : Nat) (bad : Bool) (hz : z.mem.wf = true) : EndsCanonical (put z v bad) := by
    unfold put
    split
    · split
      · simp [hz]
      · exact hback _ _ hz
    · exact txFrom_canonical hfull hwait (fun t _ ht => hback _ _ ht) hz
  clear_value s0 wait full back put
  split
  · simp [hm]
  · split
    · next e =>
      split at e
      · exact blockRefused_canonical e h0
      · exact txRefused_canonical e h0
    · split
      · exact hput _ _ _ h0
      · refine txFrom_canonical hfull hwait (fun t vs ht => ?_) h0
        split
        · exact hput _ _ _ ht
        · simp [hm]

@[simp] theorem elementOf_canonical {s : State} (p : Pos) (x : Block) (hm : s.mem.wf = true) :
    EndsCanonical (elementOf s p x) := by
  have hr : EndsCanonical (if ({ s with cur := p, upc := x.pc, ipc := x.pc, ulen := x.len } : State).inTx then
      (if ({ s with cur := p, upc := x.pc, ipc := x.pc, ulen := x.len } : State).me.wait.isSome then .next s
        else txElement { s with cur := p, upc := x.pc, ipc := x.pc, ulen := x.len } x)
      else .next (({ s with cur := p, upc := x.pc, ipc := x.pc, ulen := x.len } : State).plainElement x)) := by
    split
    · split
      · simp [hm]
      · exact txElement_canonical _ hm
    · exact (endsCanonical_next _).2 (State.plainElement_wf _ hm)
  unfold elementOf
  dsimp only
  split <;> rename_i e
  · rw [endsCanonical_next, State.leaveGroup_mem]
    exact hr _ e
  · simp
  · simp

@[simp] theorem execBlockElement_canonical (b r : Nat) {s : State} (hm : s.mem.wf = true) :
    EndsCanonical (execBlockElement b r s) := by
  unfold execBlockElement
  dsimp only
  (repeat' split) <;> simp [hm]

/-! ### Deques -/

@[simp] theorem execDequeOperation_canonical (b r : Nat) {s0 : State} (hm : s0.mem.wf = true) :
    EndsCanonical (execDequeOperation b r s0) := by
  unfold execDequeOperation
  dsimp only
  (repeat' split) <;> simp [hm]

@[simp] theorem execStealProbe_canonical (b r : Nat) {s : State} (hm : s.mem.wf = true) :
    EndsCanonical (execStealProbe b r s) := by
  unfold execStealProbe
  dsimp only
  split
  · simp [hm]
  · split
    · simp [hm]
    · split
      · simp [hm]
      · split
        · next e =>
          split at e
          · cases e
          · simp [State.popTop_mem e, hm]
        · simp [hm]

@[simp] theorem execDqspillWrite_canonical (b r : Nat) {s : State} (hm : s.mem.wf = true) :
    EndsCanonical (execDqspillWrite b r s) := by
  unfold execDqspillWrite
  split <;> simp [hm]

/-! ### Atomic operations -/

@[simp] theorem feAccess_canonical {s : State} (k : AccKind) (dsts : List Dest) (v : Cell) (a : BitVec 5) (p : BitVec 8)
    (la : BitVec 4) (hm : s.mem.wf = true) :
    EndsCanonical (feAccess s k dsts v a p la) := by
  unfold feAccess
  rw [withReg_canonical _ _ hm]
  intro _
  dsimp only
  rw [withAddress_canonical _ _ _ _ _ hm]
  intro _
  split
  · simp [hm]
  · split
    · split <;> simp [hm]
    · simp [hm]
    · simp [hm]
    · simp [hm]

@[simp] theorem amo_canonical {s : State} (op : Nat) (d a b : BitVec 5) (z o : BitVec 1) (la : BitVec 4)
    (hm : s.mem.wf = true) :
    EndsCanonical (amo s op d a b z o la) := by
  unfold amo
  rw [withReg_canonical _ _ hm]
  intro _
  rw [withReg_canonical _ _ hm]
  intro _
  dsimp only
  split
  · refine txAll_canonical _ _ (fun t vs ht => ?_) hm
    split <;> simp [ht]
  · simp [hm]

@[simp] theorem execCas_canonical (d a b : BitVec 5) (z : BitVec 1) (e : BitVec 2) (sx : BitVec 3) (l : BitVec 4) {s : State}
    (hm : s.mem.wf = true) :
    EndsCanonical (execCas d a b z e sx l s) := by
  unfold execCas
  rw [withReg_canonical _ _ hm]
  intro _
  rw [withReg_canonical _ _ hm]
  intro _
  rw [withReg_canonical _ _ hm]
  intro _
  dsimp only
  split
  · refine txAll_canonical _ _ (fun t vs ht => ?_) hm
    split <;> simp [ht]
  · simp [hm]

@[simp] theorem rupd_canonical {s : State} (op : Nat) (a b : BitVec 5) (c : BitVec 3) (ext : List Word)
    (hm : s.mem.wf = true) :
    EndsCanonical (rupd s op a b c ext) := by
  unfold rupd
  rw [withReg_canonical _ _ hm]
  intro _
  rw [withReg_canonical _ _ hm]
  intro _
  dsimp only
  rw [withAddress_canonical _ _ _ _ _ hm]
  intro _
  split
  · simp [hm]
  · exact issueThen_canonical _ _ _ (fun t ht => by simp [ht]) hm

@[simp] theorem rupdAddz_canonical {s : State} (op : Nat) (a b : BitVec 5) (o c : BitVec 3) (hm : s.mem.wf = true) :
    EndsCanonical (rupdAddz s op a b o c) := by simp [rupdAddz, hm]

@[simp] theorem execRupdSend_canonical (b r k n : Nat) {s : State} (hm : s.mem.wf = true) :
    EndsCanonical (execRupdSend b r k n s) := by
  unfold execRupdSend
  dsimp only
  (repeat' split) <;> simp [hm]

@[simp] theorem execVamo_canonical (p : BitVec 4) (a : BitVec 5) (b v : BitVec 4) (f m : BitVec 1) (l : BitVec 4) {s : State}
    (hm : s.mem.wf = true) :
    EndsCanonical (execVamo p a b v f m l s) := by
  unfold execVamo
  rw [outsideTx_canonical _ _ hm]
  intro _
  split
  · simp [hm]
  · split
    · simp [hm]
    · simp only [withReg_canonical _ _ hm, withVreg_canonical _ _ hm]
      intro _ _ _
      split
      · simp [hm]
      · split <;> simp [hm]

@[simp] theorem execMonarm_canonical (k : BitVec 2) (a : BitVec 5) {s : State} (hm : s.mem.wf = true) :
    EndsCanonical (execMonarm k a s) := by
  unfold execMonarm
  rw [outsideTx_canonical _ _ hm, withReg_canonical _ _ hm]
  intros
  split <;> simp [hm]

@[simp] theorem execMonwaitEnd_canonical (b r k : Nat) {s : State} (hm : s.mem.wf = true) :
    EndsCanonical (execMonwaitEnd b r k s) := by
  unfold execMonwaitEnd
  dsimp only
  split <;> simp [hm]

@[simp] theorem execMonwaitTimeout_canonical (b r k : Nat) {s : State} (hm : s.mem.wf = true) :
    EndsCanonical (execMonwaitTimeout b r k s) := by
  unfold execMonwaitTimeout
  dsimp only
  split <;> simp [hm]

@[simp] theorem execMonitorTrigger_canonical (b r k line : Nat) {s : State} (hm : s.mem.wf = true) :
    EndsCanonical (execMonitorTrigger b r k line s) := by
  unfold execMonitorTrigger
  extract_lets p hit s1
  split
  · simp [hm]
  · exact (endsCanonical_next _).2 (State.foldl_wf (fun t x ht => by simp [ht]) hm)

@[simp] theorem withBarrier_canonical {s : State} (n : BitVec 4) {k : Barrier → Res} (hk : ∀ x, EndsCanonical (k x))
    (hm : s.mem.wf = true) :
    EndsCanonical (withBarrier s n k) := by
  simp [withBarrier, hk, hm]

@[simp] theorem execBarrierRelease_canonical (b r k : Nat) {s : State} (hm : s.mem.wf = true) :
    EndsCanonical (execBarrierRelease b r k s) := by
  unfold execBarrierRelease
  dsimp only
  split <;> simp [hm]

@[simp] theorem waitBelow_canonical {s : State} (c k : Nat) (hm : s.mem.wf = true) :
    EndsCanonical (waitBelow s c k) := by simp [waitBelow, hm]

/-! ### Floating point -/

theorem fpEnd_canonical {s : State} (fl : BitVec 5) (sr : Bool) (amax : Word) {k : State → Res}
    (hk : ∀ t, t.mem.wf = true → EndsCanonical (k t)) (hm : s.mem.wf = true) :
    EndsCanonical (fpEnd s fl sr amax k) := by
  unfold fpEnd
  extract_lets fcsr met s1
  have hmet (t : State) : (met t).mem = t.mem := by
    unfold met
    split <;> simp
  split
  · simp [hmet, s1, hm]
  · refine hk _ ?_
    rw [hmet]
    split <;> simp [s1, hm]

@[simp] theorem withRounding_canonical {s : State} (r : Nat) (rounds : Bool) (k : Nat → Nat → Bool → Res)
    (hm : s.mem.wf = true) :
    EndsCanonical (withRounding s r rounds k) ↔ ((rounds && rmOf (s.sr 0x020) r == 5 && !s.me.vseq.isEmpty) = false →
      EndsCanonical (k (rmOf (s.sr 0x020) r) (seedStep (s.sr 0x022)) (rounds && rmOf (s.sr 0x020) r == 5))) := by
  simp [withRounding, hm]

@[simp] theorem fpWrite_canonical {s : State} (d : BitVec 5) (v : Nat) (p : Bool) (fl : BitVec 5) (sr : Bool)
    (hm : s.mem.wf = true) :
    EndsCanonical (fpWrite s d v p fl sr) := fpEnd_canonical _ _ _ (fun t ht => by simp [ht]) hm

@[simp] theorem fpBinary_canonical (g : Nat → FVal → FVal → FRes) (d a b : BitVec 5) (f : BitVec 2) (r : BitVec 4) {s : State}
    (hm : s.mem.wf = true) :
    EndsCanonical (fpBinary g d a b f r s) := by simp [fpBinary, hm]

@[simp] theorem fpTernary_canonical (g : Nat → FVal → FVal → FVal → FRes) (d a b : BitVec 5) (f : BitVec 2) (r : BitVec 4)
    {s : State} (hm : s.mem.wf = true) :
    EndsCanonical (fpTernary g d a b f r s) := by simp [fpTernary, hm]

@[simp] theorem fpPick_canonical (isMax : Bool) (d a b : BitVec 5) (f : BitVec 2) {s : State} (hm : s.mem.wf = true) :
    EndsCanonical (fpPick isMax d a b f s) := by simp [fpPick, hm]

@[simp] theorem execFcmp_canonical (q : BitVec 3) (a b : BitVec 5) (f c : BitVec 2) {s : State} (hm : s.mem.wf = true) :
    EndsCanonical (execFcmp q a b f c s) := by
  unfold execFcmp
  rw [withReg_canonical _ _ hm]
  intro _
  rw [withReg_canonical _ _ hm]
  exact fun _ => fpEnd_canonical _ _ _ (fun t ht => by simp [ht]) hm

@[simp] theorem fpLong_canonical {s : State} (d : BitVec 5) (la : Nat) (t : Nat) (p : Bool) (f : Fmt) (r : FRes)
    (hm : s.mem.wf = true) :
    EndsCanonical (fpLong s d la t p f r) := by
  unfold fpLong
  rw [withRounding_canonical _ _ _ hm]
  intro _
  dsimp only
  split
  · split
    · simp [hm]
    · exact fpEnd_canonical _ _ _ (fun t ht => by simp [ht]) hm
  · simp [hm]

@[simp] theorem fpLong1_canonical (g : FVal → FRes) (t64 t : Nat) (d a : BitVec 5) (f : BitVec 2) (la : BitVec 4) {s : State}
    (hm : s.mem.wf = true) :
    EndsCanonical (fpLong1 g t64 t d a f la s) := by simp [fpLong1, hm]

@[simp] theorem execFcvt_canonical (d a : BitVec 5) (x y : BitVec 3) (r : BitVec 4) {s : State} (hm : s.mem.wf = true) :
    EndsCanonical (execFcvt d a x y r s) := by
  unfold execFcvt
  rw [withReg_canonical _ _ hm]
  intro _
  split
  · dsimp only
    split
    · simp [hm]
    · rw [withRounding_canonical _ _ _ hm]
      exact fun _ => fpEnd_canonical _ _ _ (fun t ht => by simp [ht]) hm
  · split
    · simp [hm]
    · rw [withRounding_canonical _ _ _ hm]
      exact fun _ => fpEnd_canonical _ _ _ (fun t ht => by simp [ht]) hm

/-! ### Vectors -/

@[simp] theorem enqueue_canonical {s : State} (e0 : VEntry) (gen : Dest) (hm : s.mem.wf = true) :
    EndsCanonical (enqueue s e0 gen) := by
  unfold enqueue
  dsimp only
  (repeat' split) <;> simp [hm]

@[simp] theorem vec_canonical {s : State} (major fn d a b : Nat) (m : BitVec 1) (t : Nat) (hm : s.mem.wf = true) :
    EndsCanonical (vec s major fn d a b m t) := by simp [vec, hm]

@[simp] theorem vecY_canonical {s : State} (major fn d a : Nat) (b : BitVec 5) (m : BitVec 1) (t : Nat) (gen : Dest)
    (hm : s.mem.wf = true) :
    EndsCanonical (vecY s major fn d a b m t gen) := by simp [vecY, hm]

@[simp] theorem reduce_canonical {s : State} (fn : Nat) (d : BitVec 5) (a : BitVec 4) (m : BitVec 1) (t : BitVec 3)
    (hm : s.mem.wf = true) :
    EndsCanonical (reduce s fn d a m t) := by simp [reduce, hm]

@[simp] theorem execVectorCycle_canonical (b r : Nat) {s : State} (hm : s.mem.wf = true) :
    EndsCanonical (execVectorCycle b r s) := by
  unfold execVectorCycle
  dsimp only
  (repeat' split) <;> simp [hm]

@[simp] theorem execVectorResultWrite_canonical (b r k : Nat) {s : State} (hm : s.mem.wf = true) :
    EndsCanonical (execVectorResultWrite b r k s) := by
  unfold execVectorResultWrite
  split <;> simp [hm]

@[simp] theorem vecMem_canonical {s : State} (load : Bool) (d : Nat) (m : BitVec 1) (e la : Nat) (bad : Bool)
    (names : List Nat) (ext : List Word) (addr : Nat → Word) (hm : s.mem.wf = true) :
    EndsCanonical (vecMem s load d m e la bad names ext addr) := by
  unfold vecMem
  extract_lets els eas whole x
  split
  · simp [hm]
  · split
    · simp [hm]
    · split
      · simp [hm]
      · split
        · simp [hm]
        · split
          · simp [hm]
          · split
            · refine txAll_canonical _ _ (fun t vs ht => ?_) hm
              split <;> simp [ht]
            · split
              · simp [hm]
              · split <;> simp [hm]

@[simp] theorem vecLinear_canonical {s : State} (load strided : Bool) (d : BitVec 4) (a b : BitVec 5) (m : BitVec 1)
    (e : BitVec 2) (la : BitVec 4) (hm : s.mem.wf = true) :
    EndsCanonical (vecLinear s load strided d a b m e la) := by simp [vecLinear, hm]

@[simp] theorem vecIndexed_canonical {s : State} (load : Bool) (d : BitVec 4) (a : BitVec 5) (b : BitVec 4) (m : BitVec 1)
    (e : BitVec 2) (la : BitVec 4) (hm : s.mem.wf = true) :
    EndsCanonical (vecIndexed s load d a b m e la) := by
  unfold vecIndexed
  split <;> simp [hm]

/-! ### Streams -/

@[simp] theorem streamUnit_canonical {s : State} (k : Res) (hm : s.mem.wf = true) :
    EndsCanonical (streamUnit s k) ↔ (s.inTx = false → s.me.vseq.isEmpty = true → EndsCanonical k) := by
  simp [streamUnit, hm]

@[simp] theorem bind_canonical {s : State} (input : Bool) (v : BitVec 2) (b : BitVec 5) (o c : BitVec 3) (xp : Bool)
    (hm : s.mem.wf = true) :
    EndsCanonical (bind s input v b o c xp) := by
  unfold bind
  rw [streamUnit_canonical _ hm, withReg_canonical _ _ hm]
  intro _ _ _
  dsimp only
  split
  · simp [hm]
  · rw [withOx_canonical _ _ _ hm]
    intro _ _
    split <;> simp [hm]

@[simp] theorem execSunbind_canonical (v : BitVec 2) {s : State} (hm : s.mem.wf = true) :
    EndsCanonical (execSunbind v s) := by
  unfold execSunbind
  split <;> simp [hm]

@[simp] theorem execSres_canonical (a b : BitVec 5) {s : State} (hm : s.mem.wf = true) : EndsCanonical (execSres a b s) := by
  unfold execSres
  rw [outsideTx_canonical _ _ hm, supervisorOnly_canonical _ hm, streamUnit_canonical _ hm, withControls_canonical _ _ _ hm]
  intros
  extract_lets n p
  split
  · simp [hm]
  · next st _ =>
    have hs : (st.fifo.foldl (fun t e => t.dropGate e.id) s).mem.wf = true := State.foldl_wf (fun t e ht => by simp [ht]) hm
    split
    · simp [hm, hs]
    · simp [hm]

@[simp] theorem execStreamFetch_canonical (b r : Nat) {s : State} (hm : s.mem.wf = true) :
    EndsCanonical (execStreamFetch b r s) := by
  unfold execStreamFetch
  dsimp only
  (repeat' split) <;> simp [hm]

@[simp] theorem execStreamStore_canonical (b r : Nat) {s : State} (hm : s.mem.wf = true) :
    EndsCanonical (execStreamStore b r s) := by
  unfold execStreamStore
  dsimp only
  (repeat' split) <;> simp [hm]

/-! ### Copy commands -/

@[simp] theorem acceptCopy_canonical {s : State} (op : Nat) (t : BitVec 5) (ws : List Word) (fill : Cell) (c : BitVec 3)
    (xp : Bool) (hm : s.mem.wf = true) :
    EndsCanonical (acceptCopy s op t ws fill c xp) := by
  unfold acceptCopy
  split <;> simp [hm]

@[simp] theorem copyUnit_canonical {s : State} (op n : Nat) (t : BitVec 5) (fill : Cell) (o c : BitVec 3) (xp : Bool)
    (hm : s.mem.wf = true) :
    EndsCanonical (copyUnit s op n t fill o c xp) := by
  unfold copyUnit
  rw [withOx_canonical _ _ _ hm]
  intro _ _
  split <;> simp [hm]

@[simp] theorem execCopyEngineStep_canonical (b : Nat) {s : State} (hm : s.mem.wf = true) :
    EndsCanonical (execCopyEngineStep b s) := by
  unfold execCopyEngineStep
  dsimp only
  split <;> simp [hm]

@[simp] theorem execCopyComplete_canonical (b q : Nat) {s : State} (hm : s.mem.wf = true) :
    EndsCanonical (execCopyComplete b q s) := by
  unfold execCopyComplete
  split <;> simp [hm]

@[simp] theorem execCres_canonical (a b : BitVec 5) {s : State} (hm : s.mem.wf = true) : EndsCanonical (execCres a b s) := by
  unfold execCres
  rw [outsideTx_canonical _ _ hm, supervisorOnly_canonical _ hm, withControls_canonical _ _ _ hm]
  intros
  split <;> simp [hm]

/-! ### Matrix commands -/

@[simp] theorem matrixCmd_canonical {s : State} (op : Nat) (a b : BitVec 5) (o : BitVec 3) (n : Nat) (c : BitVec 3)
    (xp : Bool) (hm : s.mem.wf = true) :
    EndsCanonical (matrixCmd s op a b o n c xp) := by
  unfold matrixCmd
  (repeat' split) <;> simp [hm]

@[simp] theorem execMatrixArbitrate_canonical (b : Nat) {s : State} (hm : s.mem.wf = true) :
    EndsCanonical (execMatrixArbitrate b s) := by
  unfold execMatrixArbitrate
  dsimp only
  (repeat' split) <;> simp [hm]

@[simp] theorem execMatrixCommandComplete_canonical (b n : Nat) {s : State} (hm : s.mem.wf = true) :
    EndsCanonical (execMatrixCommandComplete b n s) := by
  unfold execMatrixCommandComplete
  split
  · simp [hm]
  · split
    · simp [hm]
    · split <;> rename_i e <;> have h1 := State.mxWork_wf e hm <;> simp [hm, h1]

@[simp] theorem execMatrixAccessStop_canonical (b n : Nat) {s : State} (hm : s.mem.wf = true) :
    EndsCanonical (execMatrixAccessStop b n s) := by
  unfold execMatrixAccessStop
  split
  · simp [hm]
  · split
    · simp [hm]
    · split <;> rename_i e <;> have h1 := State.mxWork_wf e hm <;> simp [hm, h1]

@[simp] theorem execMxrotTransfer_canonical (b dir w : Nat) {s : State} (hm : s.mem.wf = true) :
    EndsCanonical (execMxrotTransfer b dir w s) := by
  unfold execMxrotTransfer
  dsimp only
  (repeat' split) <;> simp [hm]

@[simp] theorem withCode_canonical {s : State} (code : Nat) (k : Res) (hm : s.mem.wf = true) :
    EndsCanonical (withCode s code k) ↔ (code = 0 → EndsCanonical k) := by
  simp [withCode, hm]

@[simp] theorem execMxres_canonical (a b : BitVec 5) {s : State} (hm : s.mem.wf = true) :
    EndsCanonical (execMxres a b s) := by
  unfold execMxres
  rw [outsideTx_canonical _ _ hm, supervisorOnly_canonical _ hm, withControls_canonical _ _ _ hm]
  intros
  split <;> simp [hm]

/-! ### Transactions -/

@[simp] theorem txld_canonical {s : State} (t : Tx) (d : BitVec 5) (pa size : Nat) (sx : Bool) (hm : s.mem.wf = true) :
    EndsCanonical (txld s t d pa size sx) := by simp [txld, hm]

@[simp] theorem execTxld_canonical (d b : BitVec 5) (t : BitVec 3) {s : State} (hm : s.mem.wf = true) :
    EndsCanonical (execTxld d b t s) := by
  unfold execTxld
  rw [withReg_canonical _ _ hm]
  intro _
  dsimp only
  split
  · simp [hm]
  · rw [withAddress_canonical _ _ _ _ _ hm]
    intro _
    split
    · simp [hm]
    · split <;> rename_i e <;> have ht := State.wf_of_fst e (State.translate_mem _ _ _ _) hm <;> simp [ht]

@[simp] theorem execTxchk_canonical {s : State} (hm : s.mem.wf = true) : EndsCanonical (execTxchk s) := by
  unfold execTxchk
  split
  · simp [hm]
  · next t _ =>
    have hs : (t.reads.foldl (fun z e => z.recallWritable (e.word / 8)) s).mem.wf = true :=
      State.foldl_wf (fun t e ht => by simp [ht]) hm
    split
    · simp [hm]
    · split
      · simp [hm]
      · dsimp only
        split <;> simp [hs]

@[simp] theorem execTend_canonical (q : BitVec 3) {s : State} (hm : s.mem.wf = true) : EndsCanonical (execTend q s) := by
  unfold execTend
  split
  · simp [hm]
  · split
    · simp [hm]
    · split
      · simp [hm]
      · extract_lets t1
        split
        · rw [endsCanonical_next, State.advance_mem, State.endTx_mem]
          exact hm
        · split
          · simp [hm]
          · rw [endsCanonical_next, State.advance_mem, State.modMe_mem]
            exact hm

@[simp] theorem execTxCommitLockReply_canonical (b r k sl : Nat) {s : State} (hm : s.mem.wf = true) :
    EndsCanonical (execTxCommitLockReply b r k sl s) := by
  unfold execTxCommitLockReply
  extract_lets p
  split
  · simp [hm]
  · split
    · simp [hm]
    · extract_lets lines
      split
      next s1 how e =>
      have h1 : s1.mem.wf = true := State.wf_of_fst e (lockLines_mem _ _ _) hm
      have h2 : (if how = 0 then lines.foldl (fun z l => z.recallWritable l) s1 else s1).mem.wf = true := by
        split
        · exact State.foldl_wf (fun t l ht => by simp [ht]) h1
        · exact h1
      split
      · simp [h1]
      · exact (endsCanonical_next _).2 (State.afterReplies_wf _ _ h2)

@[simp] theorem execTxCommitDeadline_canonical (b r k : Nat) {s : State} (hm : s.mem.wf = true) :
    EndsCanonical (execTxCommitDeadline b r k s) := by
  unfold execTxCommitDeadline
  dsimp only
  split <;> simp [hm]

@[simp] theorem execTxCommitApplied_canonical (b r k sl : Nat) {s : State} (hm : s.mem.wf = true) :
    EndsCanonical (execTxCommitApplied b r k sl s) := by
  unfold execTxCommitApplied
  extract_lets p
  split
  · simp [hm]
  · split
    · simp [hm]
    · extract_lets mine
      split
      next s0 ready e =>
      have h0 : s0.mem.wf = true := State.wf_of_fst e (State.gate_mem _ _ _ _ _) hm
      split
      · simp [h0]
      · extract_lets s1
        have h1 : s1.mem.wf = true := State.foldl_wf (fun t e ht => State.applyEntry_wf _ _ ht) (by simp [h0])
        split <;> simp [h1]

@[simp] theorem execTirrev_canonical (b : BitVec 5) (p : BitVec 12) {s : State} (hm : s.mem.wf = true) :
    EndsCanonical (execTirrev b p s) := by
  unfold execTirrev
  (repeat' split) <;> simp [hm]

@[simp] theorem execWeirTokenGrant_canonical (bs : Nat) {s : State} (hm : s.mem.wf = true) :
    EndsCanonical (execWeirTokenGrant bs s) := by
  unfold execWeirTokenGrant
  dsimp only
  (repeat' split) <;> simp [hm]

@[simp] theorem execIrrevocableLockGrant_canonical (b r k : Nat) {s : State} (hm : s.mem.wf = true) :
    EndsCanonical (execIrrevocableLockGrant b r k s) := by
  unfold execIrrevocableLockGrant
  dsimp only
  split <;> simp [hm]

/-! ### Work creation -/

@[simp] theorem take_canonical {s : State} (kind : Nat) (sx : BitVec 5) (k : BitVec 3) (hm : s.mem.wf = true) :
    EndsCanonical (take s kind sx k) := by simp [take, hm]

@[simp] theorem execIter_canonical (sx : BitVec 5) (_l : BitVec 4) {s : State} (hm : s.mem.wf = true) :
    EndsCanonical (execIter sx _l s) := by
  unfold execIter
  split <;> simp [hm]

@[simp] theorem execItnext_canonical (sx : BitVec 5) (_l : BitVec 4) {s : State} (hm : s.mem.wf = true) :
    EndsCanonical (execItnext sx _l s) := by
  unfold execItnext
  (repeat' split) <;> simp [hm]

/-! ### Launches -/

@[simp] theorem execDependenceReread_canonical (bs n : Nat) {s : State} (hm : s.mem.wf = true) :
    EndsCanonical (execDependenceReread bs n s) := by
  unfold execDependenceReread
  split <;> simp [hm]

@[simp] theorem execRecordAged_canonical (bs n : Nat) {s : State} (hm : s.mem.wf = true) :
    EndsCanonical (execRecordAged bs n s) := by
  unfold execRecordAged
  split <;> simp [hm]

@[simp] theorem execCohortEnd_canonical (b n : Nat) {s : State} (hm : s.mem.wf = true) :
    EndsCanonical (execCohortEnd b n s) := by
  unfold execCohortEnd
  split <;> simp [hm]

/-! ### Performing an access -/

theorem State.whenArrived_canonical {s : State} (p : Pos) (a : Access) {k : State → Res}
    (hk : ∀ t, t.mem.wf = true → EndsCanonical (k t)) (hm : s.mem.wf = true) :
    EndsCanonical (s.whenArrived p a k) := by
  unfold State.whenArrived
  split
  · simp [hm]
  · split
    · exact hk _ (by simp [hm])
    · split <;> simp [hm]

@[simp] theorem execLoadDataReturn_canonical (b r k n : Nat) {s : State} (hm : s.mem.wf = true) :
    EndsCanonical (execLoadDataReturn b r k n s) := by
  unfold execLoadDataReturn
  extract_lets p
  split
  · simp [hm]
  · split
    · exact State.whenArrived_canonical _ _ (fun t ht => by simp [ht]) hm
    · exact State.whenArrived_canonical _ _ (fun t ht => by simp [ht]) hm
    · split
      · simp [hm]
      · exact State.whenArrived_canonical _ _ (fun t ht => by simp [ht]) hm
    · split
      · simp [hm]
      · exact State.whenArrived_canonical _ _ (fun t ht => by simp [ht]) hm
    · exact State.whenArrived_canonical _ _ (fun t ht => by simp [ht]) hm
    · exact State.whenArrived_canonical _ _ (fun t ht => by simp [ht]) hm
    · simp [hm]

@[simp] theorem execStorePerformed_canonical (b r k n : Nat) {s : State} (hm : s.mem.wf = true) :
    EndsCanonical (execStorePerformed b r k n s) := by
  unfold execStorePerformed
  extract_lets p
  split
  · simp [hm]
  · split
    · simp [hm]
    · split
      · exact State.whenArrived_canonical _ _ (fun t ht => by simp [ht]) hm
      · exact State.whenArrived_canonical _ _ (fun t ht => by simp [ht]) hm
      · exact State.whenArrived_canonical _ _ (fun t ht => by simp [ht]) hm
      · exact State.whenArrived_canonical _ _ (fun t ht => by simp [ht]) hm
      · exact State.whenArrived_canonical _ _ (fun t ht => by simp [ht]) hm
      · exact State.whenArrived_canonical _ _ (fun t ht => by simp [ht]) hm
      · simp [hm]

@[simp] theorem execNetworkArbitrate_canonical (o : Nat) {s : State} (hm : s.mem.wf = true) :
    EndsCanonical (execNetworkArbitrate o s) := by
  unfold execNetworkArbitrate
  dsimp only
  split <;> simp [hm]

@[simp] theorem execSliceServe_canonical (line : Nat) {s : State} (hm : s.mem.wf = true) :
    EndsCanonical (execSliceServe line s) := by
  unfold execSliceServe
  (repeat' split) <;> simp [hm]

@[simp] theorem execSliceRequestStarved_canonical (n : Nat) {s : State} (hm : s.mem.wf = true) :
    EndsCanonical (execSliceRequestStarved n s) := by
  unfold execSliceRequestStarved
  split <;> simp [hm]

@[simp] theorem execOwnerRmw_canonical (n : Nat) {s : State} (hm : s.mem.wf = true) : EndsCanonical (execOwnerRmw n s) := by
  unfold execOwnerRmw
  split <;> simp [hm]

@[simp] theorem execFeParkedRetry_canonical (n : Nat) {s : State} (hm : s.mem.wf = true) :
    EndsCanonical (execFeParkedRetry n s) := by
  unfold execFeParkedRetry
  split <;> simp [hm]

/-! ### System instructions -/

@[simp] theorem targetTrap_canonical {s : State} (k : Nat) (hm : s.mem.wf = true) :
    EndsCanonical (targetTrap s k) := by simp [targetTrap, hm]

@[simp] theorem mtsOn_canonical {s : State} (p : Pos) (n : Nat) (v : Word) (hm : s.mem.wf = true) :
    EndsCanonical (mtsOn s p n v) := by simp [mtsOn, hm]

@[simp] theorem execSys_canonical (a : BitVec 5) {s : State} (hm : s.mem.wf = true) : EndsCanonical (execSys a s) := by
  unfold execSys
  split <;> simp [hm]

@[simp] theorem eret_canonical {s : State} (skip : Bool) (a : BitVec 5) (hm : s.mem.wf = true) :
    EndsCanonical (eret s skip a) := by simp [eret, hm]

@[simp] theorem execEvwait_canonical (d b : BitVec 5) {s : State} (hm : s.mem.wf = true) :
    EndsCanonical (execEvwait d b s) := by
  unfold execEvwait
  rw [outsideTx_canonical _ _ hm, supervisorOnly_canonical _ hm, withControl_canonical _ _ hm]
  intros
  split
  · next e => simp [State.takeRecord_mem e, hm]
  · simp [hm]

@[simp] theorem execEvwaitTimeout_canonical (b r : Nat) {s : State} (hm : s.mem.wf = true) :
    EndsCanonical (execEvwaitTimeout b r s) := by
  unfold execEvwaitTimeout
  split <;> simp [hm]

@[simp] theorem execContextHalted_canonical (b r k : Nat) {s : State} (hm : s.mem.wf = true) :
    EndsCanonical (execContextHalted b r k s) := by
  unfold execContextHalted
  dsimp only
  (repeat' split) <;> simp [hm]

@[simp] theorem replay_canonical {s : State} (drop : Bool) (d a : BitVec 5) (hm : s.mem.wf = true) :
    EndsCanonical (replay s drop d a) := by
  unfold replay
  rw [outsideTx_canonical _ _ hm, supervisorOnly_canonical _ hm, withControl_canonical _ _ hm]
  intros
  extract_lets b r
  split
  · simp [hm]
  · split
    · simp [hm]
    · split
      · simp [hm]
      · split
        · have h1 := fun c => dropChain_wf b r c hm
          simp [h1]
        · split <;> rename_i e <;> have h1 := replayFrom_wf e hm <;> simp [h1]

@[simp] theorem execAtsCompletion_canonical (n : Nat) (ok : Bool) (e : Word) {s : State} (hm : s.mem.wf = true) :
    EndsCanonical (execAtsCompletion n ok e s) := by
  unfold execAtsCompletion
  split <;> simp [hm]

@[simp] theorem execPriResponse_canonical (n : Nat) (ok : Bool) {s : State} (hm : s.mem.wf = true) :
    EndsCanonical (execPriResponse n ok s) := by
  unfold execPriResponse
  split
  · simp [hm]
  · exact (endsCanonical_next _).2 (State.foldl_wf (fun t x ht => by simp [ht]) hm)

@[simp] theorem execSvcall_canonical (d a b : BitVec 5) {s : State} (hm : s.mem.wf = true) :
    EndsCanonical (execSvcall d a b s) := by
  unfold execSvcall
  rw [outsideTx_canonical _ _ hm, supervisorOnly_canonical _ hm, withControls_canonical _ _ _ hm]
  intros
  split
  · simp [hm]
  · split
    · simp [hm]
    · split
      · simp [hm]
      · split
        · simp [hm]
        · split
          · simp [hm]
          · split <;> rename_i e <;> have h1 := State.wf_of_fst e (State.blockXlat_mem _ _) hm <;> simp [h1]

@[simp] theorem execUncorrectableError_canonical (site x y : Nat) {s : State} (hm : s.mem.wf = true) :
    EndsCanonical (execUncorrectableError site x y s) := by
  unfold execUncorrectableError
  split
  · split
    · simp [hm]
    · simp [Memory.wf_setPoison, hm]
  · dsimp only
    split <;> simp [hm]
  · simp [hm]
  · simp [hm]
  · simp [hm]
  · simp [hm]
  · split <;> simp [hm]
  · split <;> simp [hm]

/-! ### Basins -/

@[simp] theorem execBhome_canonical (a sx : BitVec 5) {s : State} (hm : s.mem.wf = true) :
    EndsCanonical (execBhome a sx s) := by
  unfold execBhome
  rw [outsideTx_canonical _ _ hm, withReg_canonical _ _ hm]
  intro _ _
  rw [withAddress_canonical _ _ _ _ _ hm]
  intro _
  extract_lets n other
  split
  · simp [hm]
  · split <;> rename_i e <;> have ht := State.wf_of_fst e (State.translate_mem _ _ _ _) hm <;> simp [ht]

@[simp] theorem execResizePhaseStart_canonical (bs : Nat) {s : State} (hm : s.mem.wf = true) :
    EndsCanonical (execResizePhaseStart bs s) := by
  unfold execResizePhaseStart
  dsimp only
  (repeat' split) <;> simp [hm]

@[simp] theorem execResizePhaseEnd_canonical (bs : Nat) {s : State} (hm : s.mem.wf = true) :
    EndsCanonical (execResizePhaseEnd bs s) := by
  unfold execResizePhaseEnd
  split <;> simp [hm]

@[simp] theorem execPhaseDeadline_canonical (bs : Nat) {s : State} (hm : s.mem.wf = true) :
    EndsCanonical (execPhaseDeadline bs s) := by
  unfold execPhaseDeadline
  split
  · simp [hm]
  · next z _ =>
    split
    · simp [hm]
    · extract_lets z1
      have hf := forceBraids_wf bs ((z.remove.filter fun g => g.1 == 0).map Prod.snd) (s, z1) hm
      rw [List.foldl_map] at hf
      split
      next s2 z2 e =>
      have h2 : s2.mem.wf = true := by
        split at e
        · exact State.wf_of_pair e hf
        · cases e; exact hm
      simp [h2]

@[simp] theorem execScrubComplete_canonical (kind n : Nat) {s : State} (hm : s.mem.wf = true) :
    EndsCanonical (execScrubComplete kind n s) := by
  unfold execScrubComplete
  dsimp only
  split
  · simp [hm]
  · split
    · simp [hm]
    · split
      · simp [hm]
      · rw [endsCanonical_next, State.freeNumber_mem]
        refine State.releaseGranule_wf _ _ ?_
        split
        · exact State.scrubBraid_wf _ hm
        · exact State.scrubChannel_wf _ hm
        · exact hm
        · simp [hm]
        · exact hm

@[simp] theorem execRillRetire_canonical (b r : Nat) {s : State} (hm : s.mem.wf = true) :
    EndsCanonical (execRillRetire b r s) := by
  unfold execRillRetire
  split
  · split <;> simp [hm]
  · split
    · simp [hm]
    · split
      · simp [hm]
      · extract_lets s1
        have h1 : s1.mem.wf = true := State.foldl_wf (fun t p ht => by simp [ht]) hm
        split <;> simp [h1]

/-! ### Saved contexts -/

@[simp] theorem execCsave_canonical (a b : BitVec 5) {s : State} (hm : s.mem.wf = true) :
    EndsCanonical (execCsave a b s) := by
  unfold execCsave
  rw [outsideTx_canonical _ _ hm, supervisorOnly_canonical _ hm, withControls_canonical _ _ _ hm]
  intros
  extract_lets p0 p st words
  split
  · simp [hm]
  · split
    · simp [hm]
    · split
      · simp [hm]
      · split
        · simp [hm]
        · split
          · simp [hm]
          · split
            next s1 xs r e =>
            have h1 : s1.mem.wf = true := State.wf_of_fst e (reachFrom_mem _ _ _ _ _) hm
            split
            · simp [h1]
            · split
              · simp [h1]
              · split <;> rename_i eg <;> rw [← State.mem_of_gateInLine eg] at h1
                · simp [h1]
                · have h2 := storeWords_wf s1.cur (xs.zip words) h1
                  split <;> simp [h2]

@[simp] theorem execCrest_canonical (d a b : BitVec 5) {s : State} (hm : s.mem.wf = true) :
    EndsCanonical (execCrest d a b s) := by
  unfold execCrest
  rw [outsideTx_canonical _ _ hm, supervisorOnly_canonical _ hm, withControls_canonical _ _ _ hm]
  intros
  extract_lets p
  split
  · simp [hm]
  · split
    · simp [hm]
    · split
      next s1 xs r e =>
      have h1 : s1.mem.wf = true := State.wf_of_fst e (reachFrom_mem _ _ _ _ _) hm
      split
      · simp [h1]
      · simp [h1]
      · simp [h1]
      · simp [h1]
      · split
        · simp [h1]
        · extract_lets x
          split
          · simp [h1]
          · split
            · simp [h1]
            · split
              · simp [h1]
              · split <;> rename_i er <;> have h2 := State.wf_of_pair er (State.restoreImage_wf _ _ h1) <;> simp [h1, h2]

/-! ### Services -/

theorem service_canonical {s : State} (k n : Nat) {body : Ask → State → Answer}
    (hb : ∀ x t, t.mem.wf = true → (body x t).Canonical) (hm : s.mem.wf = true) :
    EndsCanonical (service k n body s) := by
  unfold service
  split
  · simp [hm]
  · split
    · split
      · exact (endsCanonical_next _).2 (State.serve_wf _ _ hb hm)
      · simp [hm]
    · simp [hm]

@[simp] theorem Answer.canonical_ite (c : Prop) [Decidable c] (a b : Answer) :
    (if c then a else b).Canonical ↔ (c → a.Canonical) ∧ (¬ c → b.Canonical) := by
  split <;> simp [*]

@[simp] theorem done_canonical (s : State) : (done s).Canonical ↔ s.mem.wf = true := Iff.rfl

@[simp] theorem failed_canonical (s : State) (n : Nat) : (failed s n).Canonical ↔ s.mem.wf = true := Iff.rfl

theorem onBuffer_canonical {x : Ask} {va : Word} {n : Nat} {w : Bool} {s : State} {k : State → List (Nat × Nat) → Answer}
    (hk : ∀ t ps, t.mem.wf = true → (k t ps).Canonical) (hm : s.mem.wf = true) :
    (onBuffer x va n w s k).Canonical := by
  unfold onBuffer
  split <;> rename_i e <;> have ht := State.buffer_wf e hm
  · exact hk _ _ ht
  · exact ht
  · exact ht

theorem withMap_canonical {x : Ask} {va : Word} {s : State} {k : State → List (Nat × Nat) → Answer}
    (hk : ∀ t ps, t.mem.wf = true → (k t ps).Canonical) (hm : s.mem.wf = true) :
    (withMap x va s k).Canonical := by
  unfold withMap
  split
  · exact hm
  · refine onBuffer_canonical (fun t ps ht => ?_) hm
    dsimp only
    split
    · exact hk _ _ ht
    · exact ht

theorem writeMap_canonical {x : Ask} {va : Word} {gs : List (Nat × Nat)} {s : State} {k : State → Answer}
    (hk : ∀ t, t.mem.wf = true → (k t).Canonical) (hm : s.mem.wf = true) :
    (writeMap x va gs s k).Canonical := by
  unfold writeMap
  split
  · exact hm
  · exact onBuffer_canonical (fun t ps ht => hk _ (storeBuf_wf _ _ ht)) hm

theorem createBasin_canonical (x : Ask) (gs : List (Nat × Nat)) {s : State} (hm : s.mem.wf = true) :
    (createBasin x gs s).Canonical := by
  unfold createBasin
  extract_lets slices ns
  split
  · exact hm
  · split
    · exact hm
    · split
      · exact hm
      · dsimp only
        exact State.foldl_wf (fun t g ht => by simp [ht]) (by simp [hm])

theorem onCore_canonical {x : Ask} {s : State} {k : Nat → Core → Answer} (hk : ∀ i c, (k i c).Canonical)
    (hm : s.mem.wf = true) :
    (onCore x s k).Canonical := by
  unfold onCore
  dsimp only
  split
  · exact hk _ _
  · exact hm

/-! ### The package -/

theorem retireGranule_canonical (x : Ask) (kind n : Nat) {s : State} (hm : s.mem.wf = true) :
    (retireGranule x kind n s).Canonical := by
  unfold retireGranule
  dsimp only
  split <;> simp [hm]

theorem retireRill_canonical (x : Ask) (b ph : Nat) {s : State} (hm : s.mem.wf = true) : (retireRill x b ph s).Canonical := by
  unfold retireRill
  dsimp only
  split <;> simp [hm]

/-! ### Services -/

@[simp] theorem execServiceComplete_canonical (n : Nat) {s : State} (hm : s.mem.wf = true) :
    EndsCanonical (execServiceComplete n s) := by
  unfold execServiceComplete
  dsimp only
  (repeat' split) <;> simp [hm]

@[simp] theorem execIdent_canonical (n : Nat) {s : State} (hm : s.mem.wf = true) :
    EndsCanonical (execIdent n s) := service_canonical _ _ (fun _ _ ht => by simp [ht]) hm

@[simp] theorem execBasinCreate_canonical (n : Nat) {s : State} (hm : s.mem.wf = true) :
    EndsCanonical (execBasinCreate n s) :=
  service_canonical _ _ (fun _ _ ht => withMap_canonical (fun _ _ ht => createBasin_canonical _ _ ht) ht) hm

@[simp] theorem execBasinDestroy_canonical (n : Nat) {s : State} (hm : s.mem.wf = true) :
    EndsCanonical (execBasinDestroy n s) := service_canonical _ _ (fun _ _ ht => by simp [ht]) hm

@[simp] theorem execBasinResize_canonical (n : Nat) {s : State} (hm : s.mem.wf = true) :
    EndsCanonical (execBasinResize n s) :=
  service_canonical _ _ (fun _ _ ht => withMap_canonical (fun _ _ ht => withMap_canonical (fun _ _ ht =>
    onBuffer_canonical (fun t ps ht => by dsimp only; split <;> simp [ht]) ht) ht) ht) hm

@[simp] theorem execBasinStatus_canonical (n : Nat) {s : State} (hm : s.mem.wf = true) :
    EndsCanonical (execBasinStatus n s) := service_canonical _ _ (fun _ _ ht => writeMap_canonical (fun _ ht => ht) ht) hm

@[simp] theorem execQueueConfig_canonical (n : Nat) {s : State} (hm : s.mem.wf = true) :
    EndsCanonical (execQueueConfig n s) := service_canonical _ _ (fun _ _ ht => by simp [ht]) hm

@[simp] theorem execQueueStatus_canonical (n : Nat) {s : State} (hm : s.mem.wf = true) :
    EndsCanonical (execQueueStatus n s) := service_canonical _ _ (fun _ _ ht => by simp [ht]) hm

@[simp] theorem execLaunchCancel_canonical (n : Nat) {s : State} (hm : s.mem.wf = true) :
    EndsCanonical (execLaunchCancel n s) := service_canonical _ _ (fun _ _ ht => by simp [ht]) hm

@[simp] theorem execHmsgqConfig_canonical (n : Nat) {s : State} (hm : s.mem.wf = true) :
    EndsCanonical (execHmsgqConfig n s) := service_canonical _ _ (fun _ _ ht => by simp [ht]) hm

@[simp] theorem execNotifyConfig_canonical (n : Nat) {s : State} (hm : s.mem.wf = true) :
    EndsCanonical (execNotifyConfig n s) := service_canonical _ _ (fun _ _ ht => by simp [ht]) hm

@[simp] theorem execUifConfig_canonical (n : Nat) {s : State} (hm : s.mem.wf = true) :
    EndsCanonical (execUifConfig n s) :=
  service_canonical _ _ (fun _ _ ht => onCore_canonical (fun _ _ => by simp [ht]) ht) hm

@[simp] theorem execCoreStart_canonical (n : Nat) {s : State} (hm : s.mem.wf = true) :
    EndsCanonical (execCoreStart n s) :=
  service_canonical _ _ (fun _ _ ht => onCore_canonical (fun _ _ => by simp [ht]) ht) hm

@[simp] theorem execCoreStop_canonical (n : Nat) {s : State} (hm : s.mem.wf = true) :
    EndsCanonical (execCoreStop n s) := service_canonical _ _ (fun _ _ ht => onCore_canonical (fun _ _ => by simp [ht]) ht) hm

@[simp] theorem execCoreStatus_canonical (n : Nat) {s : State} (hm : s.mem.wf = true) :
    EndsCanonical (execCoreStatus n s) := service_canonical _ _ (fun _ _ ht => onCore_canonical (fun _ _ => by
    split
    · exact ht
    · exact onBuffer_canonical (fun _ _ ht => storeBuf_wf _ _ ht) ht) ht) hm

/-! ### The package -/

@[simp] theorem execHostWindow_canonical (n : Nat) {s : State} (hm : s.mem.wf = true) :
    EndsCanonical (execHostWindow n s) := service_canonical _ _ (fun _ _ ht => by simp [ht]) hm

@[simp] theorem execErrlogRead_canonical (n : Nat) {s : State} (hm : s.mem.wf = true) :
    EndsCanonical (execErrlogRead n s) :=
  service_canonical _ _ (fun _ _ ht => onBuffer_canonical (fun _ _ ht => by simp [ht]) ht) hm

@[simp] theorem execErrlogClear_canonical (n : Nat) {s : State} (hm : s.mem.wf = true) :
    EndsCanonical (execErrlogClear n s) := service_canonical _ _ (fun _ _ ht => by simp [ht]) hm

@[simp] theorem execRetireRequest_canonical (n : Nat) {s : State} (hm : s.mem.wf = true) :
    EndsCanonical (execRetireRequest n s) := service_canonical _ _ (fun _ _ ht => by
    dsimp only
    split <;> simp [retireRill_canonical, retireGranule_canonical, ht]) hm

@[simp] theorem execSpareStatus_canonical (n : Nat) {s : State} (hm : s.mem.wf = true) :
    EndsCanonical (execSpareStatus n s) := service_canonical _ _ (fun _ _ ht => writeMap_canonical (fun _ ht =>
    onBuffer_canonical (fun _ _ ht => storeBuf_wf _ _ ht) ht) ht) hm

@[simp] theorem execPowerLimit_canonical (n : Nat) {s : State} (hm : s.mem.wf = true) :
    EndsCanonical (execPowerLimit n s) := service_canonical _ _ (fun _ _ ht => by simp [ht]) hm

@[simp] theorem execPowerStatus_canonical (n : Nat) {s : State} (hm : s.mem.wf = true) :
    EndsCanonical (execPowerStatus n s) := service_canonical _ _ (fun _ _ ht => by simp [ht]) hm

@[simp] theorem execTelemetry_canonical (n : Nat) {s : State} (hm : s.mem.wf = true) :
    EndsCanonical (execTelemetry n s) :=
  service_canonical _ _ (fun _ _ ht => onBuffer_canonical (fun _ _ ht => storeBuf_wf _ _ ht) ht) hm

@[simp] theorem execImageStage_canonical (n : Nat) {s : State} (hm : s.mem.wf = true) :
    EndsCanonical (execImageStage n s) := service_canonical _ _ (fun _ _ ht => by
    dsimp only
    split
    · exact ht
    · exact onBuffer_canonical (fun _ _ ht => by simp [ht]) ht) hm

@[simp] theorem execImageSwitch_canonical (n : Nat) {s : State} (hm : s.mem.wf = true) :
    EndsCanonical (execImageSwitch n s) := service_canonical _ _ (fun _ _ ht => by
    dsimp only
    split <;> simp [ht]) hm

@[simp] theorem execImageStatus_canonical (n : Nat) {s : State} (hm : s.mem.wf = true) :
    EndsCanonical (execImageStatus n s) := service_canonical _ _ (fun _ _ ht => by simp [ht]) hm

@[simp] theorem execMeasureRead_canonical (n : Nat) {s : State} (hm : s.mem.wf = true) :
    EndsCanonical (execMeasureRead n s) := service_canonical _ _ (fun _ _ ht => by
    split
    · exact ht
    · exact onBuffer_canonical (fun _ _ ht => storeBuf_wf _ _ ht) ht) hm

@[simp] theorem spdm_canonical (k : Nat) (x : Word) (ws : List Word) {s : State} (hm : s.mem.wf = true) :
    EndsCanonical (spdm k x ws s) := by simp [spdm, hm]

@[simp] theorem execZclConfig_canonical (n : Nat) {s : State} (hm : s.mem.wf = true) :
    EndsCanonical (execZclConfig n s) :=
  service_canonical _ _ (fun _ _ ht => onBuffer_canonical (fun t ps ht => by dsimp only; split <;> exact ht) ht) hm

@[simp] theorem execZclStatus_canonical (n : Nat) {s : State} (hm : s.mem.wf = true) :
    EndsCanonical (execZclStatus n s) := service_canonical _ _ (fun _ _ ht => by simp [ht]) hm

@[simp] theorem execZclGrant_canonical (n : Nat) {s : State} (hm : s.mem.wf = true) :
    EndsCanonical (execZclGrant n s) := service_canonical _ _ (fun _ _ ht => by
    dsimp only
    split
    · exact ht
    · exact onBuffer_canonical (fun t ps ht => by simp [ht]) ht) hm

@[simp] theorem execTimeSync_canonical (n : Nat) {s : State} (hm : s.mem.wf = true) :
    EndsCanonical (execTimeSync n s) := service_canonical _ _ (fun _ _ ht => by simp [ht]) hm

@[simp] theorem execEventRing_canonical (n : Nat) {s : State} (hm : s.mem.wf = true) :
    EndsCanonical (execEventRing n s) := service_canonical _ _ (fun _ _ ht => by simp [ht]) hm

@[simp] theorem execEcho_canonical (n : Nat) {s : State} (hm : s.mem.wf = true) :
    EndsCanonical (execEcho n s) := service_canonical _ _ (fun _ _ ht => by simp [ht]) hm

@[simp] theorem execLinkRouteLoss_canonical (pk : Nat) {s : State} (hm : s.mem.wf = true) :
    EndsCanonical (execLinkRouteLoss pk s) := by
  unfold execLinkRouteLoss
  split
  · simp [hm]
  · extract_lets bad m s1
    have hw : m.wf = true := Memory.wf_foldl _ _ (fun _ _ h => Memory.wf_foldl _ _ (fun _ _ h => Memory.wf_setPoison _ _ h) h) hm
    have h1 : s1.mem.wf = true := hw
    simp [h1]

@[simp] theorem execRouteReturn_canonical (pk : Nat) {s : State} (hm : s.mem.wf = true) :
    EndsCanonical (execRouteReturn pk s) :=
  (endsCanonical_next _).2 hm

@[simp] theorem execGuestKeepaliveLoss_canonical (pk : Nat) {s : State} (hm : s.mem.wf = true) :
    EndsCanonical (execGuestKeepaliveLoss pk s) := by
  have hw (mine : Nat × L1Line → Bool) :
      (s.braids.foldl (fun (m : Memory) b => (b.2.l1.filter mine).foldl (fun (t : Memory) e => t.loseLine e.1 e.2) m)
        { s.mem with lost := [] }).wf = true :=
    Memory.wf_foldl _ _ (fun _ _ h => Memory.wf_foldl _ _ (fun _ _ h => Memory.wf_loseLine _ _ h) h) hm
  exact (endsCanonical_next _).2 (hw _)

@[simp] theorem execZclRemoteRequest_canonical (pk op pa : Nat) (v : Word × Word) {s : State} (hm : s.mem.wf = true) :
    EndsCanonical (execZclRemoteRequest pk op pa v s) := by
  unfold execZclRemoteRequest
  dsimp only
  (repeat' split) <;> simp [hm]

@[simp] theorem execHostAtomicop_canonical (op size pa : Nat) (x y : Word) {s : State} (hm : s.mem.wf = true) :
    EndsCanonical (execHostAtomicop op size pa x y s) := by
  unfold execHostAtomicop
  (repeat' split) <;> simp [hm]

@[simp] theorem execAppCoreLaunchStore_canonical (core : Nat) (v : Word) {s : State} (hm : s.mem.wf = true) :
    EndsCanonical (execAppCoreLaunchStore core v s) := by
  unfold execAppCoreLaunchStore
  split <;> simp [hm]

@[simp] theorem execUifPop_canonical (core : Nat) {s : State} (hm : s.mem.wf = true) : EndsCanonical (execUifPop core s) := by
  unfold execUifPop
  dsimp only
  split <;> simp [hm]

@[simp] theorem execApplicationCoreAccess_canonical (core op size pa : Nat) (v : Word) {s : State} (hm : s.mem.wf = true) :
    EndsCanonical (execApplicationCoreAccess core op size pa v s) := by
  unfold execApplicationCoreAccess
  dsimp only
  (repeat' split) <;> simp [hm]

@[simp] theorem execPackageReset_canonical {s : State} (hm : s.mem.wf = true) : EndsCanonical (execPackageReset s) := by
  refine (endsCanonical_next _).2 (State.foldl_wf (fun t g ht => by simp [ht]) ?_)
  exact Memory.wf_filter _ _ _ _ _ hm

/-! ### Fetch -/

@[simp] theorem execIllegal_canonical (_x : BitVec 25) {s : State} (hm : s.mem.wf = true) :
    EndsCanonical (execIllegal _x s) := by simp [execIllegal, hm]

@[simp] theorem execExtensionSpace_canonical (_x : BitVec 25) {s : State} (hm : s.mem.wf = true) :
    EndsCanonical (execExtensionSpace _x s) := by simp [execExtensionSpace, hm]

@[simp] theorem execPoolguard_canonical (_x : BitVec 10) {s : State} (hm : s.mem.wf = true) :
    EndsCanonical (execPoolguard _x s) := by simp [execPoolguard, hm]

@[simp] theorem execInstructionFetchMissFill_canonical (b r k : Nat) {s : State} (hm : s.mem.wf = true) :
    EndsCanonical (execInstructionFetchMissFill b r k s) := by
  unfold execInstructionFetchMissFill
  split
  split
  · next e =>
    dsimp only
    split
    · simp [State.fetch_mem e, hm]
    · simp [hm]
  · simp [hm]

end Sys2Proof.Machine
end

section
/-! PROOFS. Every step keeps memory canonical (R28, R447). -/

namespace Sys2Proof.Machine

/-- Every instruction and event leaves memory in its canonical form: those whose definition only puts the operations above
together are unfolded, the others have a lemma of their own. -/
theorem exec_canonical (i : Instr) {s : State} (hm : s.mem.wf = true) : EndsCanonical (exec i s) := by
  cases i
  all_goals dsimp only [exec]
  all_goals simp [hm,
    execSplit, execRgn, execJoin, execJoinH, execFuse, execBmodeWrite, execBmodeSwitchEnd, execBra, execBH, execBq, execBnq,
    execBqH, execBnqH, execBcmp, execBcmpi, execLoopn, execLoopns, execCall, execBl, execJr, execJl, execCallr, execRet,
    execRetH, execIfq, execMul, execMulh, execMulhz, execMulhsz, execDiv, execDivz, execRem, execRemz, execMultiplyResult,
    execFpLongResult, execMrd, execMwr, execRempty, execRfull, execRtest, execNwrE, execNwrW, execLox, execMox, execLd,
    execSt, execLdIndexed, execStIndexed, execLdlH, execStlH, execCpf, execCpfw, execCwb, execCflush, execIinv, execFence,
    execFenceAcq, execFenceRel, execFenceXp, execStrel, execBmov, execBmovd, execBfill, execBscanEq, execBscanNe, execLdfe,
    execLdff, execStfe, execStff, execFeclr, execAmoadd, execAmoand, execAmoor, execAmoxor, execAmomin, execAmomax,
    execAmominz, execAmomaxz, execAmoxchg, execAmofadd, execRupd, execRupdAddzZ64, execRupdAddzZ32, execMondis, execMonwait,
    execMonstatWakeWrite, execHmsg, execBarcfg, execBararv, execBarwait, execBarsync, execWaitlt, execWaitltr, execFadd,
    execFsub, execFmul, execFma, execFnma, execFmin, execFmax, execFsgnj, execFsgnjn, execFsgnjx, execFclass, execFldexp,
    execFmxsc, execFdiv, execFsqrt, execFrcp, execFrsqrt, execFexp2, execFlog2, execFsinpi, execFcospi, execFrint,
    execVldexp, execVcmp, execVbcast, execVrsum, execVrmax, execVrmin, execVramax, execVext, execVins, execVrot, execVcvt,
    execVseq, execVld, execVst, execVlds, execVsts, execVgath, execVscat, execSbindIn, execSbindOut, execSdrain, execSstat,
    execCopy, execCopyg, execCopyf, execMxldb, execMxmma, execMxrot, execMxswap, execMxclr, execMxldacc, execMxstacc,
    execMxscale, execMxrmax, execMxquotaMv, execMxquotaWt, execMxteam, execTbegin, execTabort, execTstat,
    execTxstatAbortreqWrite, execIrrevocablePreemptTimeout, execLaunch, execSpawn, execTake, execTakeL, execSyncj, execNest,
    execIxmov, execSubmissionWrite, execPlacementRound, execWriteUpdateAck, execFanoutTimeout, execKeepaliveLoss,
    execKeepaliveReturn, execMfs, execMts, execTrap, execEret, execEretN, execWatchdogExpire, execCstart, execCstop,
    execContextStop, execReplay, execReplayDrop, execTlbinv, execAtsInvalidateRequest, execBinfo, execBrack, execCmigChk,
    execCmig, execRehashHandover, execRehashFirstTouch, execCorrectedError, execPowerMeasure, execPowerBudgetAdjust,
    execGetVersion, execGetCapabilities, execNegotiateAlgorithms, execGetDigests, execGetCertificate, execChallenge,
    execGetMeasurements, execConfigurationRequest, execHostCxlMemAccess, execHostCxlCacheSnoop, execHmsgRingHeadWrite,
    execNotifyRingHeadWrite, execNotifyOverflowClear, execIllegalH, execIssueCycle, execAdd, execSub, execAnd, execOr,
    execXor, execAndn, execOrn, execXnor, execShl, execShr, execSra, execRor, execMin, execMax, execMinz, execMaxz,
    execAdds, execSubs, execAddzs, execSubzs, execShadd, execExt, execExtz, execIns, execClz, execCtz, execCls, execPopc,
    execBrev, execBswap, execBperm, execAddi, execAndi, execOri, execXori, execShli, execShri, execSrai, execRori, execExti,
    execExtzi, execInsi, execLui, execAddpc, execCmpi, execCmp, execSel, execMvqr, execMvrq, execPand, execPor, execPxor,
    execPandn, execPorn, execMovH, execAddH, execSubH, execAndH, execOrH, execXorH, execShliH, execShriH, execAddiH,
    execMoviH, execNopH, execVadd, execVsub, execVmul, execVfma, execVfnma, execVmin, execVmax, execVabs, execVneg,
    execVexp2, execVrcp, execVrsqrt, execVlog2, execVand, execVor, execVxor, execVshl, execVshr, execVsra, execVminz,
    execVmaxz, execVadds, execVsubs, execVaddzs, execVsubzs, execVmov, execVperm]

@[simp] theorem State.runAct_canonical (a : Act) {s : State} (hm : s.mem.wf = true) : EndsCanonical (s.runAct a) := by
  cases a with
  | instr i => exact exec_canonical i hm
  | pool => exact exec_canonical (.poolguard 0) hm
  | illegal => exact exec_canonical (.illegal 0) hm
  | extension => exact exec_canonical (.extensionSpace 0) hm
  | reserved => exact trapped_canonical _ _ hm

theorem State.breaksTeam_canonical (u : DUnit) {s : State} (hm : s.mem.wf = true) : EndsCanonical (s.breaksTeam u) := by
  simp [State.breaksTeam, hm]

theorem State.poisonedLane_canonical (u : DUnit) (v : Bool) {t : State} (hm : t.mem.wf = true) :
    EndsCanonical (t.poisonedLane u v) := by
  unfold State.poisonedLane
  extract_lets r illegal
  clear_value illegal
  split
  · exact State.runAct_canonical _ hm
  · exact trapped_canonical _ _ hm

theorem State.runLane_canonical (u : DUnit) (pc : Word) (p : Pos) {s : State} (hm : s.mem.wf = true) :
    EndsCanonical (s.runLane u pc p) := by
  have ht : (s.atUnit u pc p).mem.wf = true := (congrArg Memory.wf (s.atUnit_mem u pc p)).trans hm
  unfold State.runLane
  extract_lets t c
  replace ht : t.mem.wf = true := ht
  clear_value t
  split
  · simp [ht]
  · split
    · simp [ht]
    · exact State.poisonedLane_canonical _ _ ht
    · simp [ht]
    · split
      · exact State.breaksTeam_canonical _ ht
      · exact State.runAct_canonical _ ht

theorem State.runLanes_canonical (u : DUnit) (pc : Word) (ps : List Pos) {s : State} (hm : s.mem.wf = true) :
    EndsCanonical (State.runLanes u pc ps s) := by
  induction ps generalizing s with
  | nil => exact (endsCanonical_next _).2 hm
  | cons p ps ih =>
    have hl := State.runLane_canonical u pc p hm
    unfold State.runLanes
    split
    · next e => exact ih (hl _ e)
    · exact hl

theorem State.heldUnit_wf {s t : State} (ps : List Pos) (hs : s.mem.wf = true) (ht : t.mem.wf = true) :
    (s.heldUnit t ps).mem.wf = true := by
  simp [State.heldUnit_mem, hs, ht]

theorem State.endTraps_wf {s t : State} (p : Pos) (ps : List Pos) (hs : s.mem.wf = true) (ht : t.mem.wf = true) :
    (s.endTraps t p ps).mem.wf = true := by
  unfold State.endTraps
  split
  · exact State.heldUnit_wf ps hs ht
  · simp [ht]

theorem State.trapAll_wf (u : DUnit) (pc : Word) (ps : List Pos) {f : State → State}
    (hf : ∀ t, t.mem.wf = true → (f t).mem.wf = true) {s : State} (h : s.mem.wf = true) :
    (s.trapAll u pc ps f).mem.wf = true := by
  induction ps generalizing s with
  | nil => exact h
  | cons p ps ih =>
    unfold State.trapAll
    exact ih (hf _ ((congrArg Memory.wf (s.atUnit_mem u pc p)).trans h))

theorem State.trapUnit_wf (u : DUnit) (pc : Word) (p : Pos) (ps : List Pos) {f : State → State}
    (hf : ∀ t, t.mem.wf = true → (f t).mem.wf = true) {s : State} (h : s.mem.wf = true) :
    (s.trapUnit u pc p ps f).mem.wf = true := by
  have h1 : (s.enter u ps).mem.wf = true := (congrArg Memory.wf (s.enter_mem u ps)).trans h
  unfold State.trapUnit
  dsimp only
  split
  · exact State.endTraps_wf p ps h (State.trapAll_wf u pc ps hf h1)
  · simp [h]

theorem State.runUnit_canonical (u : DUnit) (pc : Word) (p : Pos) (ps : List Pos) {s : State} (hm : s.mem.wf = true) :
    EndsCanonical (s.runUnit u pc p ps) := by
  have h1 : (s.enter u ps).mem.wf = true := (congrArg Memory.wf (s.enter_mem u ps)).trans hm
  unfold State.runUnit
  extract_lets s1 beyond
  replace h1 : s1.mem.wf = true := h1
  clear_value s1
  split
  · split
    · exact (endsCanonical_next _).2 (State.endTraps_wf p ps hm (State.trapAll_wf u pc ps (fun t ht => by simp [ht]) h1))
    · simp [hm]
  · have hl := State.runLanes_canonical u pc (s1.laneOrder u ps) h1
    split
    · next t e =>
      have ht : (ps.foldl (fun z q => if (z.ctx q).held.isNone && s.overtakes z q then z.holdAll [q] .register else z) t).mem.wf
          = true := State.foldl_wf (fun z q hz => by split <;> simp [hz]) (hl _ e)
      dsimp only
      split
      · exact (endsCanonical_next _).2 (State.heldUnit_wf ps hm ht)
      · split
        · rw [endsCanonical_next, State.leaveUnit_mem, State.freeHeld_mem]
          exact ht
        · simp [hm]
    · exact hl

theorem State.issueUnit_canonical (p0 : Pos) {s : State} (hm : s.mem.wf = true) : EndsCanonical (s.issueUnit p0) := by
  unfold State.issueUnit
  split
  · simp [hm]
  · extract_lets ps p
    split
    next site pc _ =>
    extract_lets none'
    split
    · have h1 : (ps.foldl (fun (z : State) q => z.modCtx q fun c => c.standAt pc) { s with moved := true }).mem.wf = true :=
        State.foldl_wf (fun z q hz => by simp [hz]) hm
      rw [endsCanonical_next, State.settleUnit_mem]
      exact State.foldl_wf (fun t q ht => by simp [ht]) h1
    · split
      · simp [hm]
      · split <;> rename_i e <;> have h1 := (congrArg Memory.wf (State.fetch_mem e)).trans hm
        · simp [hm]
        · simp [hm]
        · simp [hm]
        · exact (endsCanonical_next _).2 (State.trapUnit_wf _ _ _ _ (fun t ht => by simp [ht]) h1)
        · extract_lets u
          split
          · exact (endsCanonical_next _).2 (State.trapUnit_wf _ _ _ _ (fun t ht => by simp [ht]) h1)
          · exact State.runUnit_canonical _ _ _ _ h1

theorem State.issue_canonical (p0 : Pos) {s : State} (hm : s.mem.wf = true) : EndsCanonical (s.issue p0) := by
  have h1 := State.endWait_wf p0 hm
  have hu := State.issueUnit_canonical p0 h1
  unfold State.issue
  extract_lets s'
  split
  · exact (endsCanonical_next _).2 h1
  · split
    · next e =>
      rw [endsCanonical_next, State.markSlot_mem]
      exact hu _ e
    · exact hu

theorem step_canonical {s : State} (hm : s.mem.wf = true) : EndsCanonical (step s) := by
  unfold step
  split
  · exact exec_canonical _ hm
  · split
    · exact State.issue_canonical _ hm
    · exact (endsCanonical_next _).2 (State.idle_wf hm)

/-- Settles O58: each operation that writes memory keeps its canonical form, and every other part of a step leaves memory
alone. -/
theorem stepKeepsCanonical : Obligations.StepKeepsCanonical := by
  unfold Obligations.StepKeepsCanonical
  exact fun s t hm e => step_canonical hm t e

end Sys2Proof.Machine
end

section
/-! PROOFS. Fields of a word, and words laid out in fields as the encoder makes them (R36, R40). -/

namespace Sys2Proof

/-! ### Fields of a word -/

/-- The bits lo to lo + n - 1. -/
def bitMask (lo n : Nat) : Nat := (2 ^ n - 1) <<< lo

theorem testBit_fld (w lo n i : Nat) : (fld w lo n).testBit i = (decide (i < n) && w.testBit (lo + i)) := by
  simp [fld, Nat.testBit_mod_two_pow, Nat.testBit_div_two_pow, Nat.add_comm]

theorem testBit_bitMask (lo n i : Nat) : (bitMask lo n).testBit i = (decide (lo ≤ i) && decide (i < lo + n)) := by
  rw [bitMask, Nat.testBit_shiftLeft, Nat.testBit_two_pow_sub_one]
  by_cases h : lo ≤ i
  · simp [h, Nat.sub_lt_iff_lt_add h, Nat.add_comm]
  · simp [h]

theorem fld_shiftLeft (w lo n : Nat) : fld w lo n <<< lo = w &&& bitMask lo n := by
  apply Nat.eq_of_testBit_eq
  intro i
  rw [Nat.testBit_shiftLeft, testBit_fld, Nat.testBit_and, testBit_bitMask]
  by_cases h : lo ≤ i
  · simp [h, Bool.and_comm, Nat.sub_lt_iff_lt_add h, Nat.add_comm]
  · simp [h]

theorem fld_eq_iff {w lo n c : Nat} : fld w lo n = c ↔ w &&& bitMask lo n = c <<< lo := by
  rw [← fld_shiftLeft, Nat.shiftLeft_eq, Nat.shiftLeft_eq, Nat.mul_left_inj (by positivity)]

theorem fld_and (w m lo n : Nat) : fld (w &&& m) lo n = fld w lo n &&& fld m lo n := by
  apply Nat.eq_of_testBit_eq
  intro i
  simp only [testBit_fld, Nat.testBit_and]
  cases decide (i < n) <;> simp

theorem fld_and_full (w lo n : Nat) : fld w lo n &&& (2 ^ n - 1) = fld w lo n := by
  rw [Nat.and_two_pow_sub_one_eq_mod, fld, Nat.mod_mod]

theorem bitsAt_toNat (w lo n : Nat) : (bitsAt w lo n).toNat = fld w lo n := by
  simp [bitsAt, fld]

theorem bitsAt_eq_iff {w lo n : Nat} {v : BitVec n} : bitsAt w lo n = v ↔ fld w lo n = v.toNat := by
  rw [← bitsAt_toNat, BitVec.toNat_inj]

/-! ### What the fixed bits of a word decide -/

section fixed
variable {w M B lo n c : Nat}

theorem fld_of_and (h : w &&& M = B) (hm : fld M lo n = 2 ^ n - 1) : fld w lo n = fld B lo n := by
  rw [← h, fld_and, hm, fld_and_full]

/-- The bits B under the mask M tell that the field is not c. -/
def excludes (M B lo n c : Nat) : Bool := fld M lo n &&& c != fld B lo n

/-- The bits B under the mask M tell that the field is c. -/
def settles (M B lo n c : Nat) : Bool := fld M lo n == 2 ^ n - 1 && fld B lo n == c

theorem fld_beq_false (h : w &&& M = B) (hx : excludes M B lo n c = true) : (fld w lo n == c) = false := by
  simp only [excludes, bne_iff_ne] at hx
  rw [beq_eq_false_iff_ne]
  rintro rfl
  exact hx (by rw [← h, fld_and, Nat.and_comm])

theorem fld_beq_true (h : w &&& M = B) (hs : settles M B lo n c = true) : (fld w lo n == c) = true := by
  simp only [settles, Bool.and_eq_true, beq_iff_eq] at hs
  obtain ⟨hm, rfl⟩ := hs
  exact beq_iff_eq.2 (fld_of_and h hm)

end fixed

/-! ### Words laid out in fields, as `enc` makes them -/

/-- The bits of the fields, each given by its lowest bit and its width. -/
def taken : List (Nat × Nat) → Nat
  | [] => 0
  | f :: L => bitMask f.1 f.2 ||| taken L

/-- The bits of a word of nb bits that stand in no field. -/
def fixedMask (nb : Nat) (L : List (Nat × Nat)) : Nat := (2 ^ nb - 1) &&& (taken L ^^^ (2 ^ nb - 1))

/-- The fields stand apart from each other and from the bits of B, all within nb bits. -/
def laidOut (nb : Nat) : List (Nat × Nat) → Nat → Bool
  | [], B => decide (B < 2 ^ nb)
  | f :: L, B => laidOut nb L B && (bitMask f.1 f.2 &&& (B ||| taken L) == 0 && decide (f.1 + f.2 ≤ nb))

/-- fs lists values of bit vectors at the lowest bits of the fields of L, each as wide as its field. -/
inductive Places : List (Nat × Nat) → List (Nat × Nat) → Prop
  | nil : Places [] []
  | cons {fs L : List (Nat × Nat)} {lo k : Nat} (v : BitVec k) : Places fs L → Places ((lo, v.toNat) :: fs) ((lo, k) :: L)

/-- fs lists the fields of w that L names. -/
inductive FieldsOf (w : Nat) : List (Nat × Nat) → List (Nat × Nat) → Prop
  | nil : FieldsOf w [] []
  | cons {fs L : List (Nat × Nat)} {lo k : Nat} : FieldsOf w fs L →
      FieldsOf w ((lo, (bitsAt w lo k).toNat) :: fs) ((lo, k) :: L)

/-- The word of `enc`. -/
def wordOf (fs : List (Nat × Nat)) (B : Nat) : Nat := fs.foldr (fun f acc => f.2 * 2 ^ f.1 + acc) B

theorem enc_eq (nb B : Nat) (fs : List (Nat × Nat)) : enc nb B fs = some ⟨nb, wordOf fs B⟩ := rfl

/-- Adding a field where a word is clear sets its bits. -/
theorem mul_add_eq_or {k y lo : Nat} (v : BitVec k) (h : y &&& bitMask lo k = 0) :
    v.toNat * 2 ^ lo + y = v.toNat <<< lo ||| y := by
  have hf : fld y lo k = 0 := fld_eq_iff.2 (by simpa using h)
  have hd : 2 ^ k * (y / 2 ^ lo / 2 ^ k) = y / 2 ^ lo := Nat.mul_div_cancel' (Nat.dvd_of_mod_eq_zero hf)
  have hy : y = (y / 2 ^ lo / 2 ^ k) <<< k <<< lo ||| y % 2 ^ lo := by
    rw [← Nat.shiftLeft_add_eq_or_of_lt (Nat.mod_lt _ (by positivity)), Nat.shiftLeft_eq, Nat.shiftLeft_eq,
      Nat.mul_comm _ (2 ^ k), hd, Nat.div_add_mod']
  have hs : v.toNat * 2 ^ lo + y = ((y / 2 ^ lo / 2 ^ k) <<< k + v.toNat) <<< lo + y % 2 ^ lo := by
    rw [Nat.shiftLeft_eq, Nat.shiftLeft_eq, Nat.mul_comm _ (2 ^ k), hd, Nat.add_mul, Nat.add_assoc, Nat.add_left_comm,
      Nat.div_add_mod']
  rw [hs, Nat.shiftLeft_add_eq_or_of_lt (Nat.mod_lt _ (by positivity)), Nat.shiftLeft_add_eq_or_of_lt v.isLt,
    Nat.shiftLeft_or_distrib]
  conv_rhs => rw [hy]
  rw [← Nat.or_assoc, Nat.or_comm (v.toNat <<< lo)]

theorem and_eq_zero_of_and_eq {a b c : Nat} (h : a &&& b = a) (hc : b &&& c = 0) : a &&& c = 0 := by
  rw [← h, Nat.and_assoc, hc, Nat.and_zero]

theorem shiftLeft_and_bitMask {k : Nat} (v : BitVec k) (lo : Nat) : v.toNat <<< lo &&& bitMask lo k = v.toNat <<< lo := by
  rw [← fld_eq_iff, fld, Nat.shiftLeft_eq, Nat.mul_div_cancel _ (by positivity), Nat.mod_eq_of_lt v.isLt]

theorem laidOut_cons {nb B : Nat} {f : Nat × Nat} {L : List (Nat × Nat)} (h : laidOut nb (f :: L) B = true) :
    laidOut nb L B = true ∧ bitMask f.1 f.2 &&& B = 0 ∧ bitMask f.1 f.2 &&& taken L = 0 ∧ f.1 + f.2 ≤ nb := by
  simpa [laidOut, Nat.and_or_distrib_left, Nat.or_eq_zero_iff, and_assoc] using h

theorem and_or_self_left (a b : Nat) : a &&& (a ||| b) = a :=
  Nat.eq_of_testBit_eq fun i => by simp; tauto

theorem bitMask_and_taken {f : Nat × Nat} {L : List (Nat × Nat)} (h : f ∈ L) :
    bitMask f.1 f.2 &&& taken L = bitMask f.1 f.2 := by
  induction L with
  | nil => cases h
  | cons g L ih =>
    rw [taken]
    obtain rfl | h := List.mem_cons.1 h
    · exact and_or_self_left _ _
    · rw [Nat.or_comm, ← ih h, Nat.and_assoc, and_or_self_left]

theorem fld_congr {w w' lo n : Nat} (h : w &&& bitMask lo n = w' &&& bitMask lo n) : fld w lo n = fld w' lo n := by
  rw [fld_eq_iff, h, fld_shiftLeft]

variable {nb B : Nat} {fs L : List (Nat × Nat)}

/-- Bits outside the fields are those of the base. -/
theorem wordOf_and (hp : Places fs L) (hl : laidOut nb L B = true) {m : Nat} (hm : m &&& taken L = 0) :
    wordOf fs B &&& m = B &&& m := by
  induction hp generalizing m with
  | nil => rfl
  | @cons fs L lo k v hp ih =>
    obtain ⟨hl, hB, hL, -⟩ := laidOut_cons hl
    rw [taken, Nat.and_or_distrib_left, Nat.or_eq_zero_iff] at hm
    obtain ⟨hm1, hm2⟩ := hm
    have hy : wordOf fs B &&& bitMask lo k = 0 := by rw [ih hl hL, Nat.and_comm, hB]
    change v.toNat * 2 ^ lo + wordOf fs B &&& m = _
    rw [mul_add_eq_or v hy, Nat.and_or_distrib_right, ih hl hm2,
      and_eq_zero_of_and_eq (shiftLeft_and_bitMask v lo) (by rwa [Nat.and_comm]), Nat.zero_or]

theorem wordOf_lt (hp : Places fs L) (hl : laidOut nb L B = true) : wordOf fs B < 2 ^ nb := by
  induction hp with
  | nil => exact of_decide_eq_true hl
  | @cons fs L lo k v hp ih =>
    obtain ⟨hl, hB, hL, hk⟩ := laidOut_cons hl
    have hy : wordOf fs B &&& bitMask lo k = 0 := by rw [wordOf_and hp hl hL, Nat.and_comm, hB]
    change v.toNat * 2 ^ lo + wordOf fs B < _
    rw [mul_add_eq_or v hy]
    refine Nat.or_lt_two_pow ?_ (ih hl)
    rw [Nat.shiftLeft_eq]
    calc v.toNat * 2 ^ lo < 2 ^ k * 2 ^ lo := Nat.mul_lt_mul_of_pos_right v.isLt (by positivity)
      _ = 2 ^ (lo + k) := by rw [Nat.add_comm, Nat.pow_add]
      _ ≤ 2 ^ nb := Nat.pow_le_pow_right (by decide) hk

/-- The fields hold the values that they were given. -/
theorem fields_wordOf (hp : Places fs L) (hl : laidOut nb L B = true) :
    L.map (fun f => (f.1, fld (wordOf fs B) f.1 f.2)) = fs := by
  induction hp with
  | nil => rfl
  | @cons fs L lo k v hp ih =>
    obtain ⟨hl, hB, hL, -⟩ := laidOut_cons hl
    have hy : wordOf fs B &&& bitMask lo k = 0 := by rw [wordOf_and hp hl hL, Nat.and_comm, hB]
    have hw : wordOf ((lo, v.toNat) :: fs) B = v.toNat <<< lo ||| wordOf fs B := mul_add_eq_or v hy
    rw [List.map_cons, hw]
    congr 1
    · rw [Prod.mk.injEq, fld_eq_iff, Nat.and_or_distrib_right, shiftLeft_and_bitMask, hy, Nat.or_zero]
      exact ⟨rfl, rfl⟩
    · conv_rhs => rw [← ih hl]
      refine List.map_congr_left fun f hf => ?_
      have h0 : bitMask lo k &&& bitMask f.1 f.2 = 0 := by rw [← bitMask_and_taken hf, Nat.and_left_comm, hL, Nat.and_zero]
      rw [fld_congr (w := v.toNat <<< lo ||| wordOf fs B)]
      rw [Nat.and_or_distrib_right, and_eq_zero_of_and_eq (shiftLeft_and_bitMask v lo) h0, Nat.zero_or]

theorem fixedMask_and_taken (nb : Nat) (L : List (Nat × Nat)) : fixedMask nb L &&& taken L = 0 :=
  Nat.eq_of_testBit_eq fun i => by
    simp only [fixedMask, Nat.testBit_and, Nat.testBit_xor, Nat.testBit_two_pow_sub_one, Nat.zero_testBit]
    cases decide (i < nb) <;> simp

theorem laidOut_base (hl : laidOut nb L B = true) : B < 2 ^ nb ∧ B &&& taken L = 0 := by
  induction L with
  | nil => exact ⟨of_decide_eq_true hl, Nat.and_zero B⟩
  | cons f L ih =>
    obtain ⟨hl, hB, -, -⟩ := laidOut_cons hl
    obtain ⟨hlt, h0⟩ := ih hl
    exact ⟨hlt, by rw [taken, Nat.and_or_distrib_left, h0, Nat.and_comm, hB, Nat.or_zero]⟩

theorem base_and_fixedMask (hl : laidOut nb L B = true) : B &&& fixedMask nb L = B := by
  obtain ⟨hlt, h0⟩ := laidOut_base hl
  rw [fixedMask, ← Nat.and_assoc, Nat.and_two_pow_sub_one_of_lt_two_pow hlt, Nat.and_xor_distrib_left, h0, Nat.zero_xor,
    Nat.and_two_pow_sub_one_of_lt_two_pow hlt]

/-- What the word of `enc` tells: its fixed bits and its fields. -/
theorem reads_wordOf {P : Nat → Prop} (hp : Places fs L) (hl : laidOut nb L B = true)
    (H : ∀ w, w < 2 ^ nb → w &&& fixedMask nb L = B → L.map (fun f => (f.1, fld w f.1 f.2)) = fs → P w) :
    P (wordOf fs B) :=
  H _ (wordOf_lt hp hl) ((wordOf_and hp hl (fixedMask_and_taken nb L)).trans (base_and_fixedMask hl)) (fields_wordOf hp hl)

theorem FieldsOf.places {w : Nat} (h : FieldsOf w fs L) : Places fs L := by
  induction h with
  | nil => exact .nil
  | cons _ ih => exact .cons _ ih

theorem FieldsOf.map_fld {w : Nat} (h : FieldsOf w fs L) : L.map (fun f => (f.1, fld w f.1 f.2)) = fs := by
  induction h with
  | nil => rfl
  | cons _ ih => rw [List.map_cons, ih, bitsAt_toNat]

theorem and_taken_congr {w w' : Nat} (h : L.map (fun f => (f.1, fld w f.1 f.2)) = L.map (fun f => (f.1, fld w' f.1 f.2))) :
    w &&& taken L = w' &&& taken L := by
  induction L with
  | nil => rw [taken, Nat.and_zero, Nat.and_zero]
  | cons f L ih =>
    obtain ⟨hf, h⟩ := List.cons.inj h
    rw [taken, Nat.and_or_distrib_left, Nat.and_or_distrib_left, ih h, ← fld_shiftLeft, ← fld_shiftLeft, (Prod.mk.inj hf).2]

/-- A word of nb bits is known from its fixed bits and its fields. -/
theorem eq_of_fields {w w' : Nat} (hw : w < 2 ^ nb) (hw' : w' < 2 ^ nb) (hB : w &&& fixedMask nb L = w' &&& fixedMask nb L)
    (hf : L.map (fun f => (f.1, fld w f.1 f.2)) = L.map (fun f => (f.1, fld w' f.1 f.2))) : w = w' := by
  have split (x : Nat) (hx : x < 2 ^ nb) : x = (x &&& fixedMask nb L) ||| (x &&& taken L) := by
    refine Nat.eq_of_testBit_eq fun i => ?_
    by_cases hi : i < nb
    · simp only [fixedMask, Nat.testBit_or, Nat.testBit_and, Nat.testBit_xor, Nat.testBit_two_pow_sub_one, hi]
      cases x.testBit i <;> cases (taken L).testBit i <;> rfl
    · simp [Nat.testBit_lt_two_pow (hx.trans_le (Nat.pow_le_pow_right (by decide) (Nat.le_of_not_lt hi)))]
  rw [split w hw, split w' hw', hB, and_taken_congr hf]

/-- The fixed bits and the fields of a word make up the word. -/
theorem enc_of_fields {w : Nat} (hf : FieldsOf w fs L) (hl : laidOut nb L B = true) (hw : w < 2 ^ nb)
    (hB : w &&& fixedMask nb L = B) : enc nb B fs = some ⟨nb, w⟩ := by
  have hp := hf.places
  rw [enc_eq, eq_of_fields (wordOf_lt hp hl) hw]
  · rw [wordOf_and hp hl (fixedMask_and_taken nb L), base_and_fixedMask hl, hB]
  · rw [fields_wordOf hp hl, hf.map_fld]

end Sys2Proof
end

section
/-! PROOFS. Decode and encode agree for every instruction (R36 to R60). -/

namespace Sys2Proof

/-! ### A word that decodes is the one that the encoder gives -/

/-- What a condition of the decoder tells of the fixed bits of w, when it holds: those under M are B. A condition on other
bits tells nothing. -/
inductive Tests (w : Nat) : Bool → Nat → Nat → Prop
  | field (lo n c : Nat) : Tests w (fld w lo n == c) (bitMask lo n) (c <<< lo)
  | both {p q : Bool} {M M' B B' : Nat} : Tests w p M B → Tests w q M' B' → Tests w (p && q) (M ||| M') (B ||| B')
  | other (p : Bool) : Tests w p 0 0

theorem Tests.fixed {w : Nat} {p : Bool} {M B : Nat} (h : Tests w p M B) (hp : p = true) : w &&& M = B := by
  induction h with
  | field => exact fld_eq_iff.1 (beq_iff_eq.1 hp)
  | both _ _ ih ih' =>
    obtain ⟨hp, hq⟩ := Bool.and_eq_true_iff.1 hp
    rw [Nat.and_or_distrib_left, ih hp, ih' hq]
  | other => exact Nat.and_zero w

/-- If a table of the decoder answers an instruction for w, then w of nb bits is its word. -/
def Sound (nb w : Nat) (o : Option Instr) : Prop := ∀ i, o = some i → encode i = some ⟨nb, w⟩

section sound
variable {nb w : Nat}

theorem Sound.none : Sound nb w none := nofun

variable {M B m b : Nat} {i : Instr} {fs L : List (Nat × Nat)}

/-- A row whose fields are all of w: the bits m of w, b, and those that the row's condition tests are all the fixed ones. -/
theorem Sound.some {c : Nat} (hw : w < 2 ^ nb) (hb : w &&& m = b) (hi : encode i = enc nb c fs) (hf : FieldsOf w fs L)
    (hl : laidOut nb L c = true) (hm : (fixedMask nb L == m && c == b) = true) : Sound nb w (.some i) := by
  rintro _ ⟨⟩
  simp only [Bool.and_eq_true, beq_iff_eq] at hm
  obtain ⟨rfl, rfl⟩ := hm
  rw [hi, enc_of_fields hf hl hw hb]

theorem Sound.row {p : Bool} {c : Nat} {o : Option Instr} (hw : w < 2 ^ nb) (hb : w &&& m = b) (hi : encode i = enc nb c fs)
    (ht : Tests w p M B) (hf : p = true → FieldsOf w fs L) (hl : laidOut nb L c = true)
    (hm : (fixedMask nb L == M ||| m && c == B ||| b) = true) (ho : Sound nb w o) :
    Sound nb w (if p = true then .some i else o) := by
  split
  next hp => exact Sound.some hw (by rw [Nat.and_or_distrib_left, ht.fixed hp, hb]) hi (hf hp) hl hm
  next => exact ho

end sound

/-- The major with the bit above it, which tells a 32-bit instruction. -/
theorem and_of_major {w m : Nat} (hlo : 2 ^ 31 ≤ w) (hw : w < 2 ^ 32) (hm : fld w 25 6 = m) :
    w &&& bitMask 25 7 = (64 + m) <<< 25 := by
  rw [← fld_eq_iff]
  simp only [fld] at hm ⊢
  omega

theorem and_of_major16 {w m : Nat} (hw : w < 2 ^ 15) (hm : fld w 10 5 = m) : w &&& bitMask 10 6 = m <<< 10 := by
  rw [← fld_eq_iff]
  simp only [fld] at hm ⊢
  omega

theorem rawMaj2E_sound {w : Nat} (hw : w < 2 ^ 32) (hm : w &&& bitMask 25 7 = (64 + 0x2E) <<< 25) : Sound 32 w (rawMaj2E w) := by
  refine Sound.row (L := [(20, 5), (15, 5), (7, 3), (4, 3), (0, 4)]) hw hm rfl (.both (.field ..) (.other _)) (fun hp => ?_)
    (by decide) (by decide) (Sound.row hw hm rfl (.field ..) (fun _ => by repeat' constructor) (by decide) (by decide) Sound.none)
  have hx : bitsAt w 7 3 = bitsAt w 4 3 := by
    rw [bitsAt_eq_iff, bitsAt_toNat, beq_iff_eq.1 (Bool.and_eq_true_iff.1 hp).2]
  have h4 : FieldsOf w [(4, (bitsAt w 4 3).toNat), (0, (bitsAt w 0 4).toNat)] [(4, 3), (0, 4)] := .cons (.cons .nil)
  rw [← hx] at h4
  exact .cons (.cons (.cons h4))

/-- Each row of a table names in its condition and in its fields all bits of the word but the major, which selects the
table. -/
theorem raw32_sound {w : Nat} {o : Option Instr} (hlo : 2 ^ 31 ≤ w) (hw : w < 2 ^ 32) (h : raw32 w = some o) :
    Sound 32 w o := by
  unfold raw32 at h
  split at h
  all_goals cases h
  all_goals
    rename_i hm
    replace hm := and_of_major hlo hw hm
    repeat refine Sound.row hw hm rfl (by repeat' constructor) (fun _ => by repeat' constructor) (by decide) (by decide) ?_
    first
    | exact Sound.none
    | exact Sound.some hw hm rfl (by repeat' constructor) (by decide) (by decide)
    | exact rawMaj2E_sound hw hm

theorem raw16_sound {w : Nat} {o : Option Instr} (hw : w < 2 ^ 15) (h : raw16 w = some o) : Sound 16 w o := by
  have hw' : w < 2 ^ 16 := hw.trans (by decide)
  unfold raw16 at h
  split at h
  all_goals cases h
  all_goals
    rename_i hm
    replace hm := and_of_major16 hw hm
    repeat refine Sound.row hw' hm rfl (by repeat' constructor) (fun _ => by repeat' constructor) (by decide) (by decide) ?_
    first
    | exact Sound.none
    | exact Sound.some hw' hm rfl (by repeat' constructor) (by decide) (by decide)

/-! ### The word of an instruction decodes to it -/

theorem fld_fld {w lo n lo' n' : Nat} (h : lo' + n' ≤ n) : fld (fld w lo n) lo' n' = fld w (lo + lo') n' := by
  refine Nat.eq_of_testBit_eq fun i => ?_
  simp only [testBit_fld, Nat.add_assoc]
  by_cases hi : i < n'
  · simp [hi, show lo' + i < n by omega]
  · simp [hi]

/-- A field is not c when a part of it is not that part of c. -/
theorem fld_beq_false_of_part {w lo n c : Nat} (lo' n' : Nat) (h : lo' + n' ≤ n) (hc : fld w (lo + lo') n' ≠ fld c lo' n') :
    (fld w lo n == c) = false := by
  rw [beq_eq_false_iff_ne]
  rintro rfl
  exact hc (fld_fld h).symm

theorem bitsAt_beq (w lo n : Nat) (v : BitVec n) : (bitsAt w lo n == v) = (fld w lo n == v.toNat) := by
  rw [Bool.eq_iff_iff, beq_iff_eq, beq_iff_eq, bitsAt_eq_iff]

theorem bitsAt_ne_iff {w lo n : Nat} {v : BitVec n} : bitsAt w lo n ≠ v ↔ fld w lo n ≠ v.toNat := bitsAt_eq_iff.not

/-- An encoded instruction has 16 or 32 bits, and its top bit tells which (R36). -/
theorem encode_length {i : Instr} {n w : Nat} :
    encode i = some ⟨n, w⟩ → (n = 16 ∨ n = 32) ∧ w < 2 ^ n ∧ fld w (n - 1) 1 = n / 32 := by
  cases i
  all_goals rintro ⟨⟩
  all_goals
    refine reads_wordOf (P := fun w => _ ∧ w < 2 ^ _ ∧ fld w _ 1 = _) (by repeat' constructor) (by decide)
      fun w hw hB _ => ⟨by decide, hw, ?_⟩
    rw [fld_of_and hB (by decide)]
    rfl

theorem raw32_of_encode {i : Instr} {w : Nat} (hi : i.wf = true) : encode i = some ⟨32, w⟩ → raw32 w = some (some i) := by
  cases i
  all_goals rintro ⟨⟩
  all_goals
    refine reads_wordOf (P := fun w => raw32 w = some (some _)) (by repeat' constructor) (by decide : laidOut 32 _ _ = true)
      fun w hw hB hf => ?_
    rw [raw32, fld_of_and (lo := 25) hB (by decide)]
    refine congrArg some (?_ : _ = some _)
    simp only [List.map, List.cons.injEq, Prod.mk.injEq, true_and, and_true, ← bitsAt_eq_iff] at hf
    simp (disch := decide) only [↓reduceIte, fld_beq_false hB, fld_beq_true hB, Bool.false_and, Bool.and_false, Bool.and_self,
      Bool.true_and, Bool.false_eq_true, hf,
      rawMaj00, rawMaj01, rawMaj02, rawMaj03, rawMaj04, rawMaj05, rawMaj06, rawMaj07, rawMaj08, rawMaj09, rawMaj0A, rawMaj0B,
      rawMaj0C, rawMaj0D, rawMaj10, rawMaj11, rawMaj12, rawMaj13, rawMaj14, rawMaj15, rawMaj16, rawMaj17, rawMaj18,
      rawMaj19, rawMaj1A, rawMaj1B, rawMaj20, rawMaj21, rawMaj22, rawMaj23, rawMaj24, rawMaj25, rawMaj26, rawMaj27,
      rawMaj28, rawMaj2C, rawMaj2D, rawMaj2E, rawMaj30, rawMaj31, rawMaj32, rawMaj33, rawMaj34, rawMaj36, rawMaj37,
      rawMaj38, rawMaj39, rawMaj3A, rawMaj3B, rawMaj3C, rawMaj3D, rawMaj3E]
  case fenceRelWiden a b s =>
    obtain ⟨rfl, -, -⟩ := hf
    have ha : bitsAt w 15 5 ≠ 0 := bne_iff_ne.1 (Bool.and_eq_true_iff.1 hi).2
    rw [fld_beq_false_of_part 12 5 (by decide) (bitsAt_ne_iff.1 ha)]
    rfl
  case rupd p a b c l =>
    have hp : p.toNat ≤ 10 := of_decide_eq_true hi
    have hx {k : Nat} (hk : 10 < fld k 0 4) : (fld w 20 5 == k) = false :=
      fld_beq_false_of_part 0 4 (by decide) fun e => by rw [bitsAt_eq_iff.1 hf.1] at e; omega
    rw [hx (by decide), hx (by decide)]
    rfl
  case waitlt c k =>
    have hk : k ≠ 0 := bne_iff_ne.1 hi
    obtain ⟨-, rfl⟩ := hf
    exact if_pos (bne_iff_ne.2 (bitsAt_ne_iff.1 hk))
  case frint d a x r =>
    obtain ⟨-, -, h7, h4, -⟩ := hf
    rw [beq_iff_eq.2 ((bitsAt_eq_iff.1 h7).trans (bitsAt_eq_iff.1 h4).symm)]
    rfl
  case fcvt d a x y r =>
    have hxy : x ≠ y := bne_iff_ne.1 (Bool.and_eq_true_iff.1 hi).2
    obtain ⟨-, -, h7, h4, -⟩ := hf
    rw [beq_eq_false_iff_ne.2 (by rwa [bitsAt_eq_iff.1 h7, bitsAt_eq_iff.1 h4, ne_eq, BitVec.toNat_inj])]
    rfl
  case tlbinv a b m =>
    have hm : (m == 0 || (a == 0 && (m == 1 || b == 0))) = true := hi
    obtain ⟨rfl, rfl, rfl⟩ := hf
    simp only [bitsAt_beq] at hm
    exact if_pos hm

theorem raw16_of_encode {i : Instr} {w : Nat} : encode i = some ⟨16, w⟩ → raw16 w = some (some i) := by
  cases i
  all_goals rintro ⟨⟩
  all_goals
    refine reads_wordOf (P := fun w => raw16 w = some (some _)) (by repeat' constructor) (by decide : laidOut 16 _ _ = true)
      fun w hw hB hf => ?_
    rw [raw16, fld_of_and (lo := 10) hB (by decide)]
    refine congrArg some (?_ : _ = some _)
    simp only [List.map, List.cons.injEq, Prod.mk.injEq, true_and, and_true, ← bitsAt_eq_iff] at hf
    simp (disch := decide) only [↓reduceIte, fld_beq_false hB, fld_beq_true hB, Bool.false_eq_true, hf]

/-! ### Bytes (R28, R36) -/

theorem halfBytes_eq {h : Nat} (hh : h < 65536) :
    (BitVec.ofNat 8 h).toNat + 256 * (BitVec.ofNat 8 (h / 256)).toNat = h := by
  simp only [BitVec.toNat_ofNat]
  omega

theorem decodeBytes_half {w : Nat} {i : Instr} (rest : List Byte) (hw : w < 2 ^ 15) (h : decode16 w = .ok i) :
    decodeBytes (halfBytes w ++ rest) = .ok (i, rest) := by
  have hb := halfBytes_eq (h := w) (by omega)
  simp only [halfBytes, List.cons_append, List.nil_append, decodeBytes, hb, h, if_pos (show w < 0x8000 from hw)]

theorem decodeBytes_halves {w : Nat} {i : Instr} (rest : List Byte) (hlo : 2 ^ 31 ≤ w) (hw : w < 2 ^ 32)
    (h : decode32 w = .ok i) :
    decodeBytes (halfBytes (w / 65536) ++ halfBytes (w % 65536) ++ rest) = .ok (i, rest) := by
  have h1 := halfBytes_eq (h := w / 65536) (by omega)
  have h2 := halfBytes_eq (h := w % 65536) (by omega)
  have hh : ¬ w / 65536 < 0x8000 := by omega
  simp only [halfBytes, List.cons_append, List.nil_append, decodeBytes, h1, if_neg hh, Nat.add_assoc, h2, Nat.div_add_mod', h]

theorem decodeBytes_tableBytes {i : Instr} {n w : Nat} (rest : List Byte) (hi : i.wf = true) (h : encode i = some ⟨n, w⟩) :
    decodeBytes (tableBytes n w ++ rest) = .ok (i, rest) := by
  obtain ⟨rfl | rfl, hw, htop⟩ := encode_length h
  · have hlt : w < 2 ^ 15 := by simp only [fld] at htop; omega
    have hd : decode16 w = .ok i := by rw [decode16, raw16_of_encode h, checkRaw, if_pos hi]
    rw [tableBytes, if_pos rfl, Nat.mod_eq_of_lt (by omega)]
    exact decodeBytes_half rest hlt hd
  · have hlo : 2 ^ 31 ≤ w := by simp only [fld] at htop; omega
    have hd : decode32 w = .ok i := by rw [decode32, raw32_of_encode hi h, checkRaw, if_pos hi]
    rw [tableBytes, if_neg (by decide), Nat.mod_eq_of_lt (a := w / 65536) (by omega)]
    exact decodeBytes_halves rest hlo hw hd

theorem checkRaw_eq_ok {o : Option (Option Instr)} {i : Instr} (h : checkRaw o = .ok i) : o = some (some i) ∧ i.wf = true := by
  obtain _ | _ | j := o
  · cases h
  · cases h
  · rw [checkRaw] at h
    split at h
    next hj => cases h; exact ⟨rfl, hj⟩
    next => cases h

/-- Settles O53: an encoded word has the fixed bits and the fields from which the decoder's tables tell its instruction, and
a table's row pins down the whole word. -/
theorem encodingsAgree : Obligations.EncodingsAgree := by
  unfold Obligations.EncodingsAgree
  refine ⟨fun i e rest hi h => ⟨decodeBytes_tableBytes rest hi h, ?_⟩, fun w i hlo hw h => ?_, fun w i hw h => ?_⟩
  · have hb := decodeBytes_tableBytes [] hi h
    rw [List.append_nil] at hb
    rw [decodeTableWord, hb]
  · obtain ⟨hr, hi⟩ := checkRaw_eq_ok h
    exact ⟨hi, raw32_sound hlo hw hr i rfl⟩
  · obtain ⟨hr, hi⟩ := checkRaw_eq_ok h
    exact ⟨hi, raw16_sound hw hr i rfl⟩

end Sys2Proof
end

section
/-! PROOFS. Results of compares, predicate logic, branches and FE bits (R42, R55, R88, R89, R131, R132, R138). -/

namespace Sys2Proof.Machine

/-! ### The operand forms of these instructions -/

theorem predOp_full {s : State} {qa qb : BitVec 3} (f : Bool → Bool → Bool) (q : BitVec 3) (ha : s.readyQ qa) (hb : s.readyQ qb) :
    predOp f q qa qb s = .next (s.putQ q (f (s.valQ qa) (s.valQ qb)) (s.badQ qa || s.badQ qb)) := by
  unfold predOp
  rw [withPred_full _ ha, withPred_full _ hb]
  rfl

theorem testing_full {s : State} {a b : BitVec 5} (f : Word → Word → Bool) (q : BitVec 3) (ha : s.ready a) (hb : s.ready b) :
    testing f q a b s = .next (s.putQ q (f (s.val a) (s.val b)) (s.bad a || s.bad b)) := by
  unfold testing
  rw [withReg_full _ ha, withReg_full _ hb]
  rfl

/-- A form of one predicate source completes. -/
theorem exec_predicateForms {s : State} {q qa qb : BitVec 3} (ha : s.readyQ qa) (hb : s.readyQ qb) :
    ∀ x ∈ predicateForms q qa qb,
      exec x.1 s = .next (s.putQ q (x.2 (s.valQ qa) (s.valQ qb)) (s.badQ qa || s.badQ qb)) := by
  simp only [predicateForms, List.forall_mem_cons, List.not_mem_nil, false_implies, implies_true, and_true]
  exact ⟨predOp_full (· && ·) q ha hb, predOp_full (· || ·) q ha hb, predOp_full (· != ·) q ha hb,
    predOp_full (fun x y => x && !y) q ha hb, predOp_full (fun x y => x || !y) q ha hb⟩

theorem exec_sel {s : State} {d a b : BitVec 5} {n : BitVec 3} (ha : s.ready a) (hb : s.ready b) (hn : s.readyQ n) :
    exec (.sel d a b n) s = .next (s.put d (if s.valQ n then s.val a else s.val b) (s.badQ n || s.bad a || s.bad b)) := by
  change execSel d a b n s = _
  unfold execSel
  rw [withPred_full _ hn, withReg_full _ ha, withReg_full _ hb]
  rfl

/-- Settles O3: every source is full, so each form goes on with the cells of its sources. -/
theorem predicateResults : Obligations.PredicateResults := by
  intro s q qa qb n c d a b k i ha hb hqa hqb hn
  exact ⟨exec_predicateForms hqa hqb, testing_full _ q ha hb,
    withReg_full (fun x => wrotePred s q (cmpiHolds k x.val (imm15s i)) x.poison) ha, exec_sel ha hb hn,
    withPred_full (fun p => wrote s d (wordOfBool p.val) p.poison) hqa,
    withReg_full (fun x => wrotePred s q (x.val != 0) x.poison) ha⟩

/-! ### Branches -/

theorem checkTarget_good {s : State} {t : Word} (k : Res) (h : goodTarget t) : checkTarget s t k = k := by
  obtain ⟨h0, h1, h2⟩ := h
  simp [checkTarget, h0, h1, h2]

theorem branchIf_taken {s : State} {t : Word} (h : goodTarget t) : branchIf s true t = .next (s.jump t) :=
  checkTarget_good _ h

theorem branchIf_not_taken (s : State) (t : Word) : branchIf s false t = .next s.advance := rfl

/-- What a branch does is decided by its condition and its target alone (R88). -/
theorem exec_branches {s : State} {q c : BitVec 3} {a b j : BitVec 5} {p20 : BitVec 20} {p12 : BitVec 12} {p10 : BitVec 10}
    {p6 : BitVec 6} (ha : s.clean a) (hb : s.clean b) (hq : s.cleanQ q) :
    ∀ x ∈ branches s q c a b j p20 p12 p10 p6, exec x.1 s = branchIf s x.2.1 x.2.2 := by
  simp only [branches, List.forall_mem_cons, List.not_mem_nil, false_implies, implies_true, and_true]
  obtain ⟨ha, pa⟩ := ha
  obtain ⟨hb, pb⟩ := hb
  obtain ⟨hq, pq⟩ := hq
  exact ⟨rfl, rfl, withPredControl_clean (branchIf s · (s.relTarget p20)) hq pq,
    withPredControl_clean (fun v => branchIf s (!v) (s.relTarget p20)) hq pq,
    withPredControl_clean (branchIf s · (s.relTarget p6)) hq pq,
    withPredControl_clean (fun v => branchIf s (!v) (s.relTarget p6)) hq pq,
    withControls_clean (fun x y => branchIf s (condHolds c x y) (s.relTarget p12)) ha hb pa pb,
    withControl_clean (fun x => branchIf s (condHolds c x (bcmpiImm c j)) (s.relTarget p12)) ha pa⟩

theorem condHolds_table (x y : Word) :
    condHolds 0 x y = decide (x = y) ∧ condHolds 1 x y = decide (x ≠ y)
      ∧ condHolds 2 x y = decide (x.toInt < y.toInt) ∧ condHolds 3 x y = decide (y.toInt ≤ x.toInt)
      ∧ condHolds 4 x y = decide (x.toNat < y.toNat) ∧ condHolds 5 x y = decide (y.toNat ≤ x.toNat)
      ∧ condHolds 6 x y = decide (x &&& y ≠ 0) ∧ condHolds 7 x y = decide (x &&& y = 0) := by
  refine ⟨rfl, ?_, rfl, ?_, rfl, ?_, ?_, rfl⟩
  · change (x != y) = _
    rw [bne, decide_not, beq_eq_decide]
  · change (!(decide (x.toInt < y.toInt))) = _; simp [← decide_not]
  · change (!(decide (x.toNat < y.toNat))) = _; simp [← decide_not]
  · change ((x &&& y) != 0) = _
    rw [bne, decide_not, beq_eq_decide]

/-- Settles O4: a branch is branchIf of its condition and target; the tests of cond are read off their table. -/
theorem branchResults : Obligations.BranchResults := by
  refine ⟨fun s q c a b j p20 p12 p10 p6 ha hb hq x hx => ?_, condHolds_table⟩
  rw [exec_branches ha hb hq x hx]
  exact ⟨fun hc ht => by rw [hc, branchIf_taken ht], fun hc => by rw [hc, branchIf_not_taken]⟩

/-! ### FE bits and operand-extension registers -/

/-- REMPTY and RFULL write the FE bit of a register for which no long-latency writer is outstanding (R138). -/
theorem exec_rempty {s : State} {d : BitVec 5} (hd : d ≠ 0) (ho : s.outstanding s.cur (s.me.dest d) = false) :
    exec (.rempty d) s = .next ((s.modMe fun c => c.setCellAt (c.dest d) { c.reg d with full := false }).advance) := by
  change execRempty d s = _
  rw [execRempty, if_neg hd, if_neg (by simp [ho])]

theorem exec_rfull {s : State} {d : BitVec 5} (hd : d ≠ 0) (ho : s.outstanding s.cur (s.me.dest d) = false) :
    exec (.rfull d) s = .next ((s.modMe fun c => c.setCellAt (c.dest d) { c.reg d with full := true }).advance) := by
  change execRfull d s = _
  rw [execRfull, if_neg hd, if_neg (by simp [ho])]

theorem exec_lox_full {s : State} {n : BitVec 3} {a : BitVec 5} (ha : s.ready a) :
    exec (.lox n a) s = .next ((s.modMe fun c => c.setOx n.toNat (s.val a) (s.bad a)).advance) :=
  withReg_full (fun x => .next ((s.modMe fun c => c.setOx n.toNat x.val x.poison).advance)) ha

theorem exec_mox_full {s : State} {d : BitVec 5} {n : BitVec 3} (h : (s.me.oxReg n.toNat).full = true) :
    exec (.mox d n) s = .next (s.put d (s.me.oxReg n.toNat).val (s.me.oxReg n.toNat).poison) :=
  if_pos h

/-- Settles O9. -/
theorem feBitResults : Obligations.FeBitResults := fun _ _ _ _ _ =>
  ⟨fun hd ho => ⟨exec_rempty hd ho, exec_rfull hd ho⟩, rfl, rfl, rfl, exec_lox_full, exec_mox_full⟩

end Sys2Proof.Machine
end

section
/-! PROOFS. Worked encodings (R36 to R59). -/

namespace Sys2Proof

/-- Settles O54: the decoder computes each instruction from its word. -/
theorem wordsOfSpec : Obligations.WordsOfSpec := by
  unfold Obligations.WordsOfSpec
  decide

end Sys2Proof
end

section
/-! PROOFS. Encodings without an instruction and privileged instructions (R57, R59, R62, R318, R368). -/

namespace Sys2Proof.Machine

/-- Outside a transaction a unit that a transaction would abort goes on. -/
theorem outsideTx_plain {s : State} (h : s.plain) (major : Nat) (k : Res) : outsideTx s major k = k := by
  unfold State.plain at h
  simp [outsideTx, h]

/-- A user context may not go on with a privileged unit. -/
theorem supervisorOnly_user {s : State} (hk : s.cur.k < 15) (k : Res) : supervisorOnly s k = .next (s.trapTo 0x05 s.uw) :=
  if_neg (Nat.ne_of_lt hk)

/-- A privileged form asks for context 15 before anything else that it asks for. -/
theorem privileged_user {s : State} (h : s.plain) (hk : s.cur.k < 15) (major : Nat) (k : Res) :
    outsideTx s major (supervisorOnly s k) = .next (s.trapTo 0x05 s.uw) := by
  rw [outsideTx_plain h, supervisorOnly_user hk]

/-- Settles O44: each privileged form is its major's outsideTx of a supervisorOnly. -/
theorem refusedUnits : Obligations.RefusedUnits := by
  intro s x h d a b m
  refine ⟨rfl, rfl, rfl, rfl, fun hp hk => ?_⟩
  simp only [List.forall_mem_cons, List.not_mem_nil, false_implies, implies_true, and_true]
  have major3C (k : Res) : outsideTx s 0x3C (supervisorOnly s k) = .next (s.trapTo 0x05 s.uw) := privileged_user hp hk 0x3C k
  have major3D (k : Res) : outsideTx s 0x3D (supervisorOnly s k) = .next (s.trapTo 0x05 s.uw) := privileged_user hp hk 0x3D k
  exact ⟨major3C _, major3C _, major3C _, major3C _, major3C _, major3C _, major3C _, major3C _, major3C _, major3C _,
    major3C _, major3D _, major3D _, major3D _⟩

end Sys2Proof.Machine
end

section
/-! PROOFS. A step runs the decoded instruction (R64, R79, R82). -/

namespace Sys2Proof.Machine

/-! ### The decoder of a unit (R62, R63) -/

theorem actOf_instr {i : Instr} (h32 : ∀ y, i ≠ .illegal y ∧ i ≠ .extensionSpace y) (h16 : ∀ y, i ≠ .illegalH y ∧ i ≠ .poolguard y) :
    actOf none (.ok i) = .instr i := by
  unfold actOf
  split
  next h => cases h
  next h => cases h
  next y h => cases h; exact absurd rfl (h32 y).1
  next y h => cases h; exact absurd rfl (h16 y).1
  next y h => cases h; exact absurd rfl (h16 y).2
  next y h => cases h; exact absurd rfl (h32 y).2
  next h => cases h; rfl

/-- With no pool marker and no IFQ, the unit is the instruction at the offset. -/
theorem decodeUnit_of_no_prefix {d : Nat} {pc : Word} (hg0 : isGuard (halfAt d 0) = false)
    (hg : isGuard (halfAt d (pc.toNat % 64)) = false) (hq : isIfq (halfAt d (pc.toNat % 64)) = false) :
    decodeUnit d pc = decodeAt d (pc.toNat % 64) none := by
  simp [decodeUnit, hg0, hg, hq]

theorem not_isIfq_of_long {h : Nat} (hh : 0x8000 ≤ h) : isIfq h = false := by
  simp only [isIfq, beq_eq_false_iff_ne]
  omega

theorem decodeAt_half {d at_ : Nat} (hg : isGuard (halfAt d at_) = false) (hh : halfAt d at_ < 0x8000) :
    decodeAt d at_ none
      = { act := actOf none (decode16 (halfAt d at_)), len := 1, words := halfAt d at_, iword := halfAt d at_ } := by
  simp [decodeAt, hg, hh]

theorem decodeAt_word {d at_ : Nat} (hg : isGuard (halfAt d at_) = false) (hh : 0x8000 ≤ halfAt d at_) (h62 : at_ ≠ 62) :
    decodeAt d at_ none
      = { act := actOf none (decode32 (halfAt d at_ * 65536 + halfAt d (at_ + 2))), len := 2
          words := halfAt d at_ * 65536 + halfAt d (at_ + 2), iword := halfAt d at_ * 65536 + halfAt d (at_ + 2) } := by
  simp [decodeAt, hg, Nat.not_lt.mpr hh, h62]

theorem decodeUnit_instr (d : Nat) (pc : Word) (i : Instr) :
    let at_ := pc.toNat % 64
    let h := halfAt d at_
    isGuard (halfAt d 0) = false → isGuard h = false → (∀ y, i ≠ .illegal y ∧ i ≠ .extensionSpace y) →
    (∀ y, i ≠ .illegalH y ∧ i ≠ .poolguard y) →
    (h < 0x8000 → isIfq h = false → decode16 h = .ok i →
      decodeUnit d pc = { act := .instr i, len := 1, words := h, iword := h })
    ∧ (0x8000 ≤ h → at_ ≠ 62 → decode32 (h * 65536 + halfAt d (at_ + 2)) = .ok i →
        decodeUnit d pc = { act := .instr i, len := 2, words := h * 65536 + halfAt d (at_ + 2)
                            iword := h * 65536 + halfAt d (at_ + 2) }) := by
  intro at_ h hg0 hg h32 h16
  refine ⟨fun hh hq hd => ?_, fun hh h62 hd => ?_⟩
  · rw [decodeUnit_of_no_prefix hg0 hg hq, decodeAt_half hg hh, hd, actOf_instr h32 h16]
  · rw [decodeUnit_of_no_prefix hg0 hg (not_isIfq_of_long hh), decodeAt_word hg hh h62, hd, actOf_instr h32 h16]

/-! ### An unfused thread -/

theorem lanesOf_alone {s : State} {p : Pos} (h : s.groupOf p = none) : s.lanesOf p = [p] := by
  simp [State.lanesOf, h]

theorem fetchSite_alone {s : State} {p : Pos} (h : s.groupOf p = none) : s.fetchSite p = (p, (s.ctx p).pc) := by
  simp [State.fetchSite, h]

theorem endWait_of_no_wait {s : State} {p : Pos} (h : (s.ctx p).wait = none) : s.endWait p = s := by
  simp [State.endWait, h]

/-- A thread that may issue, with its line fetched and no hold before the unit, runs the unit that the line gives at its pc
(R79, R82). -/
theorem issueUnit_line {s s1 : State} {p : Pos} {d : Nat} {pc : Word} {u : DUnit} (hpc : (s.ctx p).pc = pc)
    (hg : s.groupOf p = none) (hi : s.canIssue p = true) (ha : s.abortAsked p = false)
    (hl : (s.ctx p).lookaheadFull = false) (hf : s.fetch p pc = (s1, .line d)) (hu : u = decodeUnit d pc)
    (hp : poisonedUnit d (pc.toNat % 64) u.len = false) : s.issueUnit p = s1.runUnit u pc p [p] := by
  subst hu
  simp [State.issueUnit, hi, lanesOf_alone hg, fetchSite_alone hg, ha, hl, hpc, hf, hp]

theorem issue_alone {s t : State} {p : Pos} (hw : (s.ctx p).wait = none) (hg : s.groupOf p = none)
    (hi : s.canIssue p = true) (hu : s.issueUnit p = .next t) : s.issue p = .next (t.markSlot [p]) := by
  simp [State.issue, endWait_of_no_wait hw, hi, hu, lanesOf_alone hg]

theorem step_granted {s : State} {p : Pos} (ha : s.agenda = []) (hg : s.grant = some p) :
    step s = State.issue { s with grant := none } p := by
  simp [step, ha, hg]

/-! ### One lane -/

/-- What entering a unit leaves of a thread alone: it is counted, and its earlier hold is gone. -/
theorem enter_alone (s : State) (u : DUnit) (p : Pos) :
    ∃ xs, s.enter u [p] = { (({ s with moved := false } : State).begin p).modCtx p Ctx.retried with xlanes := xs } :=
  ⟨_, by simp only [State.enter, List.foldl_cons, List.foldl_nil, List.length_singleton, bne_self_eq_false, Bool.and_false,
    Bool.false_eq_true, if_false]; rfl⟩

theorem team_enter (s : State) (u : DUnit) (p : Pos) : ((s.enter u [p]).ctx p).team = (s.ctx p).team := by
  obtain ⟨xs, h⟩ := enter_alone s u p
  rw [h]
  change (((State.begin _ p).modCtx p Ctx.retried).ctx p).team = _
  rw [State.begin, State.modCtx_modCtx, State.ctx_modCtx]
  rfl

theorem groupOf_enter (s : State) (u : DUnit) (p q : Pos) : (s.enter u [p]).groupOf q = s.groupOf q := by
  obtain ⟨xs, h⟩ := enter_alone s u p
  rw [h]
  rfl

/-- A unit without IFQ has no condition to wait for (R60). -/
theorem condition_of_no_prefix (c : Ctx) {u : DUnit} (h : u.pfx = none) : c.condition u = .pass := by
  unfold Ctx.condition
  rw [h]
  cases u.act <;> rfl

/-- An unfused thread without IFQ and without an armed MXTEAM executes the instruction. -/
theorem runLane_alone {s : State} {u : DUnit} {pc : Word} {p : Pos} {i : Instr} (hg : s.groupOf p = none)
    (ht : (s.ctx p).team = none) (hu : u.act = .instr i) (hx : u.pfx = none) :
    s.runLane u pc p = exec i (s.atUnit u pc p) := by
  have hg' : (s.atUnit u pc p).groupOf p = none := hg
  have ht' : (s.atUnit u pc p).me.team = none := ht
  simp only [State.runLane, hg', condition_of_no_prefix _ hx, ite_self, ht', Option.isSome_none, Bool.false_and,
    Bool.false_eq_true, if_false, State.runAct, hu]

theorem laneOrder_alone {s : State} {u : DUnit} {p : Pos} (h : (s.ctx p).team = none) : s.laneOrder u [p] = [p] := by
  simp [State.laneOrder, h]

/-- The addresses that a lane sees (R82). -/
theorem atUnit_places (s : State) {u : DUnit} (pc : Word) (p : Pos) (h : u.pfx = none) :
    (s.atUnit u pc p).cur = p ∧ (s.atUnit u pc p).upc = pc ∧ (s.atUnit u pc p).ipc = pc
      ∧ (s.atUnit u pc p).nextPc = pc + w64 (2 * u.len) :=
  ⟨rfl, rfl, by simp [State.atUnit, h], rfl⟩

/-! ### A unit of one lane -/

/-- The instruction i of the unit u at pc, in the unfused thread at p, which holds for nothing before it, ends in t. -/
structure AloneUnit (s : State) (u : DUnit) (pc : Word) (p : Pos) (i : Instr) (t : State) : Prop where
  group : s.groupOf p = none
  act : u.act = .instr i
  pfx : u.pfx = none
  capture : (s.ctx p).breaksCapture u = false
  team : (s.ctx p).team = none
  budget : (s.enter u [p]).overBudget p = false
  ends : exec i ((s.enter u [p]).atUnit u pc p) = .next t

theorem AloneUnit.runLanes {s t : State} {u : DUnit} {pc : Word} {p : Pos} {i : Instr} (h : AloneUnit s u pc p i t) :
    State.runLanes u pc ((s.enter u [p]).laneOrder u [p]) (s.enter u [p]) = .next t := by
  have hteam : ((s.enter u [p]).ctx p).team = none := by rw [team_enter, h.team]
  rw [laneOrder_alone hteam, State.runLanes,
    runLane_alone (by rw [groupOf_enter, h.group]) hteam h.act h.pfx, h.ends]
  rfl

/-- A unit that is not held leaves the account of its thread (R50). -/
theorem AloneUnit.completes {s t : State} {u : DUnit} {pc : Word} {p : Pos} {i : Instr} (h : AloneUnit s u pc p i t)
    (ho : s.overtakes t p = false) (hh : (t.ctx p).held = none) :
    s.runUnit u pc p [p] = .next (s.leaveUnit t pc [p]) := by
  simp [State.runUnit, h.capture, h.budget, h.runLanes, ho, hh, State.freeHeld]

/-- A unit that is held has no effect but what heldUnit leaves (R79). -/
theorem AloneUnit.holds {s t : State} {u : DUnit} {pc : Word} {p : Pos} {i : Instr} (h : AloneUnit s u pc p i t)
    (hh : (t.ctx p).held.isSome = true) (hl : (t.ctx p).left = none) :
    s.runUnit u pc p [p] = .next (s.heldUnit t [p]) := by
  obtain ⟨x, hx⟩ := Option.isSome_iff_exists.mp hh
  simp [State.runUnit, h.capture, h.runLanes, hx, hl]

/-- Settles O55: the agenda, what is due, the granted unit of an unfused thread from its line to its end, and its decoding. -/
theorem stepRuns : Obligations.StepRuns := by
  refine ⟨fun s i rest h => ?_, fun s ha hg => ?_, ?_, decodeUnit_instr⟩
  · simp [step, h]
  · simp [step, ha, hg]
  · intro s s1 t p d i u ha hgr hw hg z pc hi hab hl hf hg1 hu hact hpfx hp hcap hteam e x hbud hex
    have hz : step s = z.issue p := step_granted ha hgr
    have hunit : z.issueUnit p = s1.runUnit u pc p [p] := issueUnit_line rfl hg hi hab hl hf hu hp
    have h : AloneUnit s1 u pc p i t := ⟨hg1, hact, hpfx, hcap, hteam, hbud, hex⟩
    obtain ⟨hcur, hupc, hipc, hnext⟩ := atUnit_places e pc p hpfx
    refine ⟨hcur, hupc, hipc, hnext, fun ho hh => ?_, fun hh hl' => ?_⟩
    · exact hz.trans (issue_alone (s := z) hw hg hi (hunit.trans (h.completes ho hh)))
    · exact hz.trans (issue_alone (s := z) hw hg hi (hunit.trans (h.holds hh hl')))

end Sys2Proof.Machine
end

section
/-! PROOFS. Frames of integer, predicate, branch and memory forms (R45, R118, R120). -/

namespace Sys2Proof.Machine

/-! ### Ends that change the executing thread only -/

/-- Every next state that r gives differs from s in the executing thread only, and there, of its registers, in those of ds
and qs only. -/
def FramedBy (s : State) (ds : List (BitVec 5)) (qs : List (BitVec 3)) (r : Res) : Prop :=
  ∀ t, r = .next t → OnlyMe s t ∧ SameBytes s t ∧ SameRegs s t ds qs

section framed
variable {s : State} {ds : List (BitVec 5)} {qs : List (BitVec 3)}

/-- What is left to show of an end that replaces the executing thread: which of its registers are as before. -/
theorem framedBy_setMe {c : Ctx} (hr : ∀ r, r ∉ ds → c.reg r = s.me.reg r) (hq : ∀ q, q ∉ qs → c.pred q = s.me.pred q)
    (hv : c.v = s.me.v) (hox : c.ox = s.me.ox) (hix : c.ix = s.me.ix) (hsr : c.sr = s.me.sr) :
    FramedBy s ds qs (.next (s.setMe c)) := by
  intro t h
  cases h
  have hme : (s.setMe c).me = c := s.me_setMe c
  refine ⟨by rw [OnlyMe, hme], fun a => rfl, ?_⟩
  rw [SameRegs, hme]
  exact ⟨hr, hq, hv, hox, hix, hsr⟩

theorem framedBy_park (h : Hold) : FramedBy s ds qs (parked s h) := framedBy_setMe
  (c := { s.me with held := some h }) (fun r _ => Ctx.reg_congr rfl rfl rfl r) (fun _ _ => rfl) rfl rfl rfl rfl

theorem framedBy_advance : FramedBy s ds qs (.next s.advance) := framedBy_setMe
  (c := { s.me with pc := s.nextPc, took := false }) (fun r _ => Ctx.reg_congr rfl rfl rfl r) (fun _ _ => rfl) rfl rfl rfl rfl

theorem framedBy_jump (t : Word) : FramedBy s ds qs (.next (s.jump t)) := framedBy_setMe
  (c := { s.me with pc := t, took := true }) (fun r _ => Ctx.reg_congr rfl rfl rfl r) (fun _ _ => rfl) rfl rfl rfl rfl

/-- A change of the executing thread and the advance. -/
theorem framedBy_modMe_advance {f : Ctx → Ctx} (hr : ∀ r, r ∉ ds → (f s.me).reg r = s.me.reg r)
    (hq : ∀ q, q ∉ qs → (f s.me).pred q = s.me.pred q) (hv : (f s.me).v = s.me.v) (hox : (f s.me).ox = s.me.ox)
    (hix : (f s.me).ix = s.me.ix) (hsr : (f s.me).sr = s.me.sr) : FramedBy s ds qs (.next (s.modMe f).advance) := by
  have h : (s.modMe f).advance = s.setMe { f s.me with pc := s.nextPc, took := false } := State.modMe_modMe s f _
  rw [h]
  exact framedBy_setMe (fun r hd => (Ctx.reg_congr rfl rfl rfl r).trans (hr r hd)) hq hv hox hix hsr

theorem framedBy_wrote (d : BitVec 5) (v : Word) (p : Bool) : FramedBy s [d] qs (wrote s d v p) := by
  refine framedBy_modMe_advance (fun r hr => ?_) (fun q _ => Ctx.setReg_pred s.me d v p q) (by simp) (by simp) (by simp) (by simp)
  rw [Ctx.reg_setReg, if_neg fun h => hr (List.mem_singleton.mpr h.1)]

theorem framedBy_wrotePred (q : BitVec 3) (v p : Bool) : FramedBy s ds [q] (wrotePred s q v p) := by
  have hkeep : (s.me.setPred q v p).v = s.me.v ∧ (s.me.setPred q v p).ox = s.me.ox ∧ (s.me.setPred q v p).ix = s.me.ix
      ∧ (s.me.setPred q v p).sr = s.me.sr := by unfold Ctx.setPred; split <;> exact ⟨rfl, rfl, rfl, rfl⟩
  obtain ⟨hv, hox, hix, hsr⟩ := hkeep
  refine framedBy_modMe_advance (fun r _ => Ctx.reg_setPred s.me q r v p) (fun r hr => ?_) hv hox hix hsr
  rw [Ctx.pred_setPred, if_neg fun h => hr (List.mem_singleton.mpr h.1)]

/-! ### The operand forms -/

theorem framedBy_withReg {r : BitVec 5} {k : Cell → Res} (h : ∀ x, FramedBy s ds qs (k x)) : FramedBy s ds qs (withReg s r k) := by
  unfold withReg
  split
  · exact h _
  · exact framedBy_park _

theorem framedBy_withPred {q : BitVec 3} {k : QCell → Res} (h : ∀ x, FramedBy s ds qs (k x)) :
    FramedBy s ds qs (withPred s q k) := by
  unfold withPred
  split
  · exact h _
  · exact framedBy_park _

theorem framedBy_unary (f : Word → Word) (d a : BitVec 5) : FramedBy s [d] qs (unary f d a s) :=
  framedBy_withReg fun _ => framedBy_wrote _ _ _

theorem framedBy_unaryOld (f : Word → Word → Word) (d a : BitVec 5) : FramedBy s [d] qs (unaryOld f d a s) :=
  framedBy_withReg fun _ => framedBy_withReg fun _ => framedBy_wrote _ _ _

theorem framedBy_binary (f : Word → Word → Word) (d a b : BitVec 5) : FramedBy s [d] qs (binary f d a b s) :=
  framedBy_withReg fun _ => framedBy_withReg fun _ => framedBy_wrote _ _ _

theorem framedBy_ternary (f : Word → Word → Word → Word) (d a b : BitVec 5) : FramedBy s [d] qs (ternary f d a b s) :=
  framedBy_withReg fun _ => framedBy_withReg fun _ => framedBy_withReg fun _ => framedBy_wrote _ _ _

theorem framedBy_testing (f : Word → Word → Bool) (q : BitVec 3) (a b : BitVec 5) : FramedBy s ds [q] (testing f q a b s) :=
  framedBy_withReg fun _ => framedBy_withReg fun _ => framedBy_wrotePred _ _ _

theorem framedBy_predOp (f : Bool → Bool → Bool) (q a b : BitVec 3) : FramedBy s ds [q] (predOp f q a b s) :=
  framedBy_withPred fun _ => framedBy_withPred fun _ => framedBy_wrotePred _ _ _

end framed

/-! ### Integer and predicate forms -/

/-- Each form of two sources is binary of its function. -/
theorem exec_twoSources (s : State) (d a b : BitVec 5) (n : BitVec 2) :
    ∀ x ∈ (twoSources d a b n).map Prod.fst, ∃ f, exec x s = binary f d a b s := by
  simp only [twoSources, List.map_cons, List.map_nil, List.forall_mem_cons, List.not_mem_nil, false_implies, implies_true, and_true]
  dsimp only [exec]
  and_intros <;> exact ⟨_, rfl⟩

theorem exec_twoSourcesH (s : State) (d b : BitVec 5) :
    ∀ x ∈ (twoSourcesH d b).map Prod.fst, ∃ f, exec x s = binary f d d b s := by
  simp only [twoSourcesH, List.map_cons, List.map_nil, List.forall_mem_cons, List.not_mem_nil, false_implies, implies_true, and_true]
  and_intros <;> exact ⟨_, rfl⟩

theorem exec_oneSource (s : State) (d a : BitVec 5) (i : BitVec 15) (l p : BitVec 6) :
    ∀ x ∈ (oneSource d a i l p).map Prod.fst, ∃ f, exec x s = unary f d a s := by
  simp only [oneSource, List.map_cons, List.map_nil, List.forall_mem_cons, List.not_mem_nil, false_implies, implies_true, and_true]
  dsimp only [exec]
  and_intros <;> exact ⟨_, rfl⟩

theorem exec_oneSourceH (s : State) (d j : BitVec 5) :
    ∀ x ∈ (oneSourceH d j).map Prod.fst, ∃ f, exec x s = unary f d d s := by
  simp only [oneSourceH, List.map_cons, List.map_nil, List.forall_mem_cons, List.not_mem_nil, false_implies, implies_true, and_true]
  dsimp only [exec]
  and_intros <;> exact ⟨_, rfl⟩

/-- The integer forms outside the four tables. -/
theorem framedBy_otherInteger (s : State) (d a b j : BitVec 5) (l p : BitVec 6) (u20 : BitVec 20) (qa qn : BitVec 3) :
    ∀ x ∈ [.movH d b, .moviH d j, .lui d u20, .addpc d u20, .insi d a l p, .ins d a b, .sel d a b qn, (.mvqr d qa : Instr)],
      FramedBy s [d] [] (exec x s) := by
  simp only [List.forall_mem_cons, List.not_mem_nil, false_implies, implies_true, and_true]
  dsimp only [exec]
  exact ⟨framedBy_binary _ d 0 b, framedBy_unary _ d 0, framedBy_wrote d _ _, framedBy_wrote d _ _, framedBy_unaryOld _ d a,
    framedBy_ternary _ d a b,
    framedBy_withPred fun _ => framedBy_withReg fun _ => framedBy_withReg fun _ => framedBy_wrote d _ _,
    framedBy_withPred fun _ => framedBy_wrote d _ _⟩

theorem framedBy_integer (s : State) (d a b j : BitVec 5) (n : BitVec 2) (i : BitVec 15) (l p : BitVec 6) (u20 : BitVec 20)
    (qa qn : BitVec 3) :
    ∀ x ∈ (twoSources d a b n).map Prod.fst ++ (twoSourcesH d b).map Prod.fst ++ (oneSource d a i l p).map Prod.fst
        ++ (oneSourceH d j).map Prod.fst ++ [.movH d b, .moviH d j, .lui d u20, .addpc d u20, .insi d a l p, .ins d a b,
          .sel d a b qn, (.mvqr d qa : Instr)], FramedBy s [d] [] (exec x s) := by
  intro x hx
  simp only [List.mem_append, or_assoc] at hx
  rcases hx with hx | hx | hx | hx | hx
  · obtain ⟨f, h⟩ := exec_twoSources s d a b n x hx
    exact h ▸ framedBy_binary f d a b
  · obtain ⟨f, h⟩ := exec_twoSourcesH s d b x hx
    exact h ▸ framedBy_binary f d d b
  · obtain ⟨f, h⟩ := exec_oneSource s d a i l p x hx
    exact h ▸ framedBy_unary f d a
  · obtain ⟨f, h⟩ := exec_oneSourceH s d j x hx
    exact h ▸ framedBy_unary f d d
  · exact framedBy_otherInteger s d a b j l p u20 qa qn x hx

theorem framedBy_predicate (s : State) (q qa qb c : BitVec 3) (a b : BitVec 5) (k : BitVec 2) (i : BitVec 15) :
    ∀ x ∈ (predicateForms q qa qb).map Prod.fst ++ [.cmp q a b c, .cmpi k q a i, (.mvrq q a : Instr)],
      FramedBy s [] [q] (exec x s) := by
  simp only [predicateForms, List.map_cons, List.map_nil, List.cons_append, List.nil_append, List.forall_mem_cons,
    List.not_mem_nil, false_implies, implies_true, and_true]
  dsimp only [exec]
  exact ⟨framedBy_predOp _ q qa qb, framedBy_predOp _ q qa qb, framedBy_predOp _ q qa qb, framedBy_predOp _ q qa qb,
    framedBy_predOp _ q qa qb, framedBy_testing _ q a b, framedBy_withReg fun _ => framedBy_wrotePred q _ _,
    framedBy_withReg fun _ => framedBy_wrotePred q _ _⟩

/-- A branch whose target passes its checks changes the pc only. -/
theorem framedBy_branchIf {s : State} {ds : List (BitVec 5)} {qs : List (BitVec 3)} {taken : Bool} {t : Word}
    (h : taken = true → goodTarget t) : FramedBy s ds qs (branchIf s taken t) := by
  cases taken with
  | true => rw [branchIf_taken (h rfl)]; exact framedBy_jump t
  | false => exact framedBy_advance

/-! ### Reading back what a form has written -/

theorem put_frame (s : State) (d : BitVec 5) (v : Word) (w : Bool) :
    (d ≠ 0 → (s.put d v w).me.reg d = { val := v, poison := w }) ∧ (∀ r, (s.put 0 v w).me.reg r = s.me.reg r)
      ∧ (s.put d v w).me.pc = s.nextPc := by
  refine ⟨fun hd => ?_, fun r => ?_, ?_⟩ <;> unfold State.put
  · rw [State.reg_advance, State.me_modMe, Ctx.reg_setReg, if_pos ⟨rfl, hd⟩]
  · rw [State.reg_advance, State.me_modMe, Ctx.setReg_zero]
  · rw [State.me_advance, State.nextPc_modMe]

theorem putQ_frame (s : State) (q : BitVec 3) (v w : Bool) :
    (q ≠ 0 → (s.putQ q v w).me.pred q = { val := v, poison := w }) ∧ (∀ r, (s.putQ 0 v w).me.pred r = s.me.pred r)
      ∧ (s.putQ q v w).me.pc = s.nextPc := by
  refine ⟨fun hq => ?_, fun r => ?_, ?_⟩ <;> unfold State.putQ
  · rw [State.pred_advance, State.me_modMe, Ctx.pred_setPred, if_pos ⟨rfl, hq⟩]
  · rw [State.pred_advance, State.me_modMe, Ctx.pred_setPred, if_neg fun h => h.2 rfl]
  · rw [State.me_advance, State.nextPc_modMe]

/-! ### Loads and stores that are sent -/

@[simp] theorem State.route_cur (s : State) (p : Pos) (a : Access) : (s.route p a).cur = s.cur := by
  unfold State.route; split <;> rfl

@[simp] theorem State.launchAccess_cur (s : State) (p : Pos) (a : Access) : (s.launchAccess p a).cur = s.cur := by
  unfold State.launchAccess; dsimp only; split
  · rfl
  · split <;> simp

/-- The thread that sends an access has it in flight. -/
theorem State.me_launchAccess (s : State) (a : Access) :
    (s.launchAccess s.cur a).me = { s.me with flights := s.me.flights ++ [a] } := by
  have h := s.launchAccess_ctxs s.cur a
  rw [State.me, State.launchAccess_cur, State.ctx, h]
  exact State.ctx_modCtx s s.cur _

/-- A register set empty: its FE bit, and who is to write it. -/
theorem Ctx.setEmpty_dest (c : Ctx) (d : BitVec 5) (id : Nat) :
    c.setEmpty (c.dest d) id = c.setCellAt (c.dest d) { c.reg d with full := false, src := id } := by
  unfold Ctx.reg
  rcases c.dest_cases d with h | ⟨n, h⟩ | ⟨n, h⟩ <;> rw [h] <;> rfl

theorem Ctx.reg_setCellAt_dest (c : Ctx) (d r : BitVec 5) (x : Cell) :
    (c.setCellAt (c.dest d) x).reg r = if r = d ∧ d ≠ 0 then x else c.reg r := by
  unfold Ctx.reg
  rw [Ctx.setCellAt_dest, Ctx.cellAt_setCellAt _ _ _ _ (by rcases c.dest_cases d with h | h | h <;> simp [h])]
  by_cases h : r = d ∧ d ≠ 0
  · rw [if_pos h, if_pos ⟨by rw [h.1], c.dest_ne_none h.2⟩]
  · rw [if_neg h, if_neg]
    rintro ⟨h1, h2⟩
    exact h ⟨c.dest_inj h1, fun e => h2 (by rw [e, c.dest_zero])⟩

/-- The checks and the translation of an access leave memory and every thread alone. -/
theorem passes_keeps {s s1 : State} {a a1 : Access} (h : s.passes a s1 a1) :
    s1.mem = s.mem ∧ s1.me = s.me ∧ s1.cur = s.cur := by
  obtain ⟨hmem, hctxs, hcur⟩ := ({ s with nextId := s.nextId + 1 } : State).resolve_keeps s.cur (s.numbered a)
  unfold State.passes at h
  rw [h] at hmem hctxs hcur
  exact ⟨hmem, by rw [State.me, State.ctx, hctxs, hcur]; rfl, hcur⟩

/-- The executing thread once a load or store is sent: its destinations are empty, and of its registers nothing else has
changed. -/
theorem me_afterIssue {s s1 : State} {x : OneAccess} {a1 : Access} {n : Nat} (h : s.passes x.acc s1 a1)
    (hla : x.la = some n) (hpost : x.post = id) :
    ∃ fs ls pc, (s.afterIssue s1 x a1).me = { x.dests.foldl (fun c d => c.setEmpty d s.nextId) s.me with
      flights := fs, las := ls, pc := pc, took := false } := by
  obtain ⟨-, hme, hcur⟩ := passes_keeps h
  unfold State.afterIssue
  rw [hla, hpost, State.me_advance, State.me_modMe, State.me_modMe, ← hcur]
  have hl := State.me_launchAccess (s1.modMe fun c => x.dests.foldl (fun y d => y.setEmpty d s.nextId) c) a1
  rw [State.me_modMe, hme] at hl
  exact ⟨(x.dests.foldl (fun y d => y.setEmpty d s.nextId) s.me).flights ++ [a1], _, _, congrArg (fun c : Ctx => ({ (c.openLa n x.acc.kind.keepsLa) with pc := _, took := false } : Ctx)) hl⟩

theorem mem_afterIssue {s s1 : State} {x : OneAccess} {a1 : Access} (h : s.passes x.acc s1 a1) :
    (s.afterIssue s1 x a1).mem = s.mem := by
  obtain ⟨hmem, -, -⟩ := passes_keeps h
  unfold State.afterIssue
  simp [hmem]

theorem typeSize_of_size (k : BitVec 2) : typeSize k.toNat = 2 ^ k.toNat := by
  unfold typeSize
  rw [Nat.mod_eq_of_lt k.isLt]

theorem loadAt_plain {s : State} {d : BitVec 5} {ea : Word} {t : Nat} (hs : s.plain)
    (hf : addressFault ea (typeSize t) false true = none) (major : Nat) (la : Option Nat) :
    loadAt s major d ea false t la = issueAll s [s.me.dest d] la
      [{ id := 0, seq := 0, kind := .load (typeSigned t), va := ea, size := typeSize t, dst := s.me.dest d }] id := by
  unfold State.plain at hs
  simp [loadAt, hs, withAddress_ok _ _ hf]

theorem storeAt_plain {s : State} {x : Cell} {ea : Word} {size : Nat} (hs : s.plain)
    (hf : addressFault ea size false true = none) (major : Nat) (la : Option Nat) :
    storeAt s major x ea false size la = issueAll s [] la
      [{ id := 0, seq := 0, kind := .store, va := ea, size := size, data := x.val, poison := x.poison, tag := s.me.relTag }] id := by
  unfold State.plain at hs
  simp [storeAt, hs, withAddress_ok _ _ hf]

/-- A plain load or store that passes its checks is issued as its one access. -/
theorem exec_plainAccesses {s : State} {d a b : BitVec 5} {ty : BitVec 3} {k n : BitVec 2} {p8 : BitVec 8} {la : BitVec 4}
    (hs : s.plain) (hd : s.ready d) (ha : s.clean a) (hb : s.clean b) :
    ∀ x ∈ plainAccesses s d a b ty k n p8 la, addressFault x.acc.va x.acc.size false true = none →
      exec x.instr s = issueAll s x.dests x.la [x.acc] x.post := by
  obtain ⟨ra, pa⟩ := ha
  obtain ⟨rb, pb⟩ := hb
  unfold State.bad at pa pb
  simp only [plainAccesses, List.forall_mem_cons, List.not_mem_nil, false_implies, implies_true, and_true]
  dsimp only [exec, execLd, execLdIndexed, execSt, execStIndexed]
  refine ⟨fun hf => ?_, fun hf => ?_, fun hf => ?_, fun hf => ?_⟩
  · rw [withReg_full _ ra, pa]
    exact loadAt_plain hs hf _ _
  · rw [withReg_full _ ra, withReg_full _ rb, pa, pb]
    exact loadAt_plain hs hf _ _
  · rw [withReg_full _ hd, withReg_full _ ra, pa, typeSize_of_size]
    exact storeAt_plain hs hf _ _
  · rw [withReg_full _ hd, withReg_full _ ra, withReg_full _ rb, pa, pb, typeSize_of_size]
    exact storeAt_plain hs hf _ _

/-- What the table of plain accesses says of each row: a load waits for d, a store for nothing. -/
theorem plainAccesses_shape {s : State} {d a b : BitVec 5} {ty : BitVec 3} {k n : BitVec 2} {p8 : BitVec 8} {la : BitVec 4} :
    ∀ x ∈ plainAccesses s d a b ty k n p8 la, x.la = some la.toNat ∧ x.post = id ∧ (x.dests = [s.me.dest d] ∨ x.dests = []) := by
  simp [plainAccesses]

/-- The destinations of a plain access set empty: d of a load alone. -/
theorem foldl_setEmpty_frame {c : Ctx} {d : BitVec 5} {ds : List Dest} (id : Nat) (h : ds = [c.dest d] ∨ ds = []) :
    let c1 := ds.foldl (fun y e => y.setEmpty e id) c
    (∀ r, r ≠ d ∨ ds = [] → c1.reg r = c.reg r) ∧ (ds ≠ [] → d ≠ 0 → (c1.reg d).full = false) ∧ (∀ r, c1.pred r = c.pred r)
      ∧ c1.v = c.v ∧ c1.ox = c.ox ∧ c1.ix = c.ix ∧ c1.sr = c.sr := by
  rcases h with rfl | rfl
  · rw [List.foldl_cons, List.foldl_nil, Ctx.setEmpty_dest]
    refine ⟨fun r hr => ?_, fun _ hd => ?_, by simp, by simp, ?_, by simp, by simp⟩
    · rw [Ctx.reg_setCellAt_dest, if_neg fun h => hr.elim (fun hne => hne h.1) (by simp)]
    · rw [Ctx.reg_setCellAt_dest, if_pos ⟨rfl, hd⟩]
    · rcases c.dest_cases d with h | ⟨n, h⟩ | ⟨n, h⟩ <;> rw [h] <;> rfl
  · exact ⟨fun _ _ => rfl, fun h => absurd rfl h, fun _ => rfl, rfl, rfl, rfl, rfl⟩

/-- A plain access that is sent changes no byte of memory and no register but a load's destination, which is empty. -/
theorem afterIssue_frame {s s1 : State} {x : OneAccess} {a1 : Access} {d : BitVec 5} {n : Nat} (hp : s.passes x.acc s1 a1)
    (hla : x.la = some n) (hpost : x.post = id) (hds : x.dests = [s.me.dest d] ∨ x.dests = []) :
    let t := s.afterIssue s1 x a1
    SameBytes s t ∧ (∀ r, r ≠ d ∨ x.dests = [] → t.me.reg r = s.me.reg r)
      ∧ (x.dests ≠ [] → d ≠ 0 → (t.me.reg d).full = false) ∧ (∀ r, t.me.pred r = s.me.pred r) ∧ t.me.v = s.me.v
      ∧ t.me.ox = s.me.ox ∧ t.me.ix = s.me.ix ∧ t.me.sr = s.me.sr := by
  obtain ⟨fs, ls, pc, hme⟩ := me_afterIssue hp hla hpost
  obtain ⟨hreg, hfull, hrest⟩ := foldl_setEmpty_frame s.nextId hds
  have hread (r : BitVec 5) := congrArg (fun c : Ctx => c.reg r) hme
  refine ⟨fun a => by rw [mem_afterIssue hp], fun r hr => ?_, fun hne hd => ?_, ?_⟩
  · exact (hread r).trans ((Ctx.reg_congr rfl rfl rfl r).trans (hreg r hr))
  · exact (congrArg Cell.full ((hread d).trans (Ctx.reg_congr rfl rfl rfl d))).trans (hfull hne hd)
  · rw [hme]
    exact hrest

/-- Settles O59: simple forms end in a change of their thread by its operand forms; a load or store that is sent changes its
thread by setEmpty alone. -/
theorem registerFrames : Obligations.RegisterFrames := by
  intro s t d a b j n i p l u20 q qa qb qn c k p12 p10 p6
  refine ⟨fun x hx h => ?_, fun x hx h => ?_, fun x hx ha hb hq hgood h => ?_, put_frame s d, putQ_frame s q,
    fun s1 ty p8 la a1 x hx hs hd ha hb hroom hf hp h => ?_⟩
  · exact framedBy_integer s d a b j n i l p u20 qa qn x hx t h
  · exact framedBy_predicate s q qa qb c a b k i x hx t h
  · rw [exec_branches ha hb hq x hx] at h
    exact framedBy_branchIf hgood t h
  · obtain ⟨hla, hpost, hds⟩ := plainAccesses_shape x hx
    rw [exec_plainAccesses hs hd ha hb x hx hf, issueOne_go x hroom hp] at h
    cases h
    exact afterIssue_frame hp hla hpost hds

end Sys2Proof.Machine
end

section
/-! PROOFS. IFQ, instruction lines and events at home slices (R60, R82, R184, R185, R309). -/

namespace Sys2Proof.Machine

/-! ### Tables and memory -/

theorem Table.find_put_same {α : Type} (t : Table α) (k : Nat) (v : α) : (t.put k v).find k = some v := by
  have h : ((t.put k v).map fun p => (p.1, some p.2)) = Table.put (t.map fun p => (p.1, some p.2)) k (some v) := by
    induction t with
    | nil => rfl
    | cons e t ih =>
      simp only [Table.put, List.map_cons]
      split
      · rfl
      · split
        · rfl
        · rw [List.map_cons, ih]
  rw [Table.find, h, Table.get_put_same]

theorem Table.map_drop {α β : Type} (t : Table α) (k : Nat) (f : α → β) :
    ((t.drop k).map fun p => (p.1, f p.2)) = Table.drop (t.map fun p => (p.1, f p.2)) k := by
  unfold Table.drop
  rw [List.filter_map]
  rfl

theorem Table.find_drop_same {α : Type} (t : Table α) (k : Nat) : (t.drop k).find k = none := by
  rw [Table.find, Table.map_drop, Table.get_drop_same]

theorem Table.find_drop_of_none {α : Type} (t : Table α) {k : Nat} (j : Nat) (h : t.find k = none) : (t.drop j).find k = none := by
  by_cases hk : k = j
  · subst hk; exact t.find_drop_same k
  · rw [Table.find, Table.map_drop, Table.get_drop_other _ _ hk]; exact h

/-- Taking the tags off bytes leaves no tag on them, and puts none elsewhere. -/
theorem Memory.tag_setTags_none (m : Memory) (a n x : Nat) (h : m.tags.find x = none ∨ (a ≤ x ∧ x < a + n)) :
    (m.setTags a none n).tags.find x = none := by
  induction n generalizing m a with
  | zero => exact h.elim id fun h => by omega
  | succ n ih =>
    rw [Memory.setTags]
    refine ih _ (a + 1) ?_
    rcases h with h | ⟨h1, h2⟩
    · exact .inl (Table.find_drop_of_none _ a h)
    · by_cases hx : x = a
      · exact .inl (hx ▸ m.tags.find_drop_same a)
      · exact .inr ⟨by omega, by omega⟩

/-- The bytes of a store: those written read as the value, the others as before. -/
theorem Memory.byte_store (m : Memory) (a n v : Nat) (p : Bool) (x : Nat) : (m.store a n v p).byte x = (m.write a n v).byte x := by
  unfold Memory.store
  dsimp only
  split
  · rfl
  · split <;> rw [Memory.byte_setPoison]

/-! ### An instruction line that arrives (R82) -/

/-- A fetch changes no byte. -/
theorem fetch_miss_mem {s s1 : State} {p : Pos} {pc : Word} {n : Nat} (h : s.fetch p pc = (s1, .miss n)) : s1.mem = s.mem := by
  unfold State.fetch at h
  split at h
  · cases h
  split at h
  · cases h
  have hk := (s.translate_keeps p pc { r := true, x := true }).1
  split at h
  next e =>
    split at h
    · cases h
    · cases h; rw [e] at hk; exact hk
  all_goals cases h

/-- A line that enters an instruction cache is there and no longer awaited; bytes stay. -/
theorem fillLine_rill (s : State) (p : Pos) (n d : Nat) :
    ((s.fillLine p n d).rill p.b p.r).icache.find n = some d ∧ n ∉ ((s.fillLine p n d).rill p.b p.r).fetching
      ∧ (s.fillLine p n d).mem = s.mem := by
  unfold State.fillLine
  dsimp only
  split <;> refine ⟨?_, ?_, rfl⟩ <;> rw [State.rill_modRill] <;> dsimp only
  · exact Table.find_put_same _ _ _
  · simp
  · exact Table.find_put_same _ _ _
  · simp

theorem exec_instructionFetchMissFill {s s1 : State} {b r k n : Nat} (hg : s.groupOf ⟨b, r, k⟩ = none)
    (hf : s.fetch ⟨b, r, k⟩ (s.ctx ⟨b, r, k⟩).pc = (s1, .miss n)) (hn : n ∈ (s1.rill b r).fetching) :
    exec (.instructionFetchMissFill b r k) s = .next ((s1.fillLine ⟨b, r, k⟩ n (s1.homeLine n)).modCtx ⟨b, r, k⟩ fun c =>
      if c.held == some .fetchMiss then { c with held := none } else c) := by
  change execInstructionFetchMissFill b r k s = _
  simp [execInstructionFetchMissFill, State.fetchSite, hg, hf, hn]

theorem fetchMissFill_result {s s1 : State} {b r k n : Nat} (hg : s.groupOf ⟨b, r, k⟩ = none)
    (hf : s.fetch ⟨b, r, k⟩ (s.ctx ⟨b, r, k⟩).pc = (s1, .miss n)) (hn : n ∈ (s1.rill b r).fetching) :
    ∃ t, exec (.instructionFetchMissFill b r k) s = .next t ∧ (t.rill b r).icache.find n = some (s1.homeLine n)
      ∧ n ∉ (t.rill b r).fetching ∧ SameBytes s t := by
  obtain ⟨hline, hgone, hmem⟩ := fillLine_rill s1 ⟨b, r, k⟩ n (s1.homeLine n)
  refine ⟨_, exec_instructionFetchMissFill hg hf hn, hline, hgone, fun a => ?_⟩
  rw [State.modCtx_mem, hmem, fetch_miss_mem hf]

/-! ### Tags of a line that is written back (R185) -/

theorem hbmWriteback_result {s : State} {line : Nat} (h : 64 * line < 2 ^ 40) :
    ∃ t, exec (.hbmWriteback line) s = .next t ∧ SameBytes s t ∧ ∀ i < 64, t.mem.tags.find (64 * line + i) = none := by
  refine ⟨{ s with mem := s.mem.setTags (64 * line) none 64 }, if_pos h, fun a => ?_, fun i hi => ?_⟩
  · exact Memory.byte_setTags _ _ _ _ _
  · exact Memory.tag_setTags_none _ _ _ _ (.inr ⟨by omega, by omega⟩)

/-! ### A missed scope (R184) -/

/-- A notification of a missed scope is pending at once: no other record is of its source. -/
theorem postRecord_notification (x : Rill) {e : EventRec} (h : e.cls = 4) : x.postRecord e = { x with events := x.events ++ [e] } := by
  have hs : x.events.any e.sameSource = false := by simp [EventRec.sameSource, h]
  simp [Rill.postRecord, h, hs]

theorem post_not_waiting {s : State} {b r : Nat} (e : EventRec) (h : (s.ctx ⟨b, r, 15⟩).wait = none) :
    s.post b r e = s.modRill b r fun x => x.postRecord e := by
  simp [State.post, h]

theorem scopeMissNotification_result {s : State} {n rl c sc : Nat} {va : Word} (hm : s.misses[n]? = some (rl, va, c, sc))
    (hw : (s.ctx ⟨rl / 8, rl % 8, 15⟩).wait = none) (he : ∀ e ∈ (s.rill (rl / 8) (rl % 8)).events, e.cause ≠ 0x23) :
    ∃ t, exec (.scopeMissNotification n) s = .next t ∧ t.misses = s.misses.eraseIdx n
      ∧ ∃ e ∈ (t.rill (rl / 8) (rl % 8)).events, e.cause = 0x23 ∧ e.val = va ∧ e.cls = 4 := by
  have hnone : ((s.rill (rl / 8) (rl % 8)).events.filter fun e => e.cause == 0x23) = [] := by simpa using he
  let rest : State := { s with misses := s.misses.eraseIdx n }
  let e : EventRec := { cls := 4, cause := 0x23, val := va, xstat := xstat 4 0 0 0 sc c false, rank := 0 }
  have hx : exec (.scopeMissNotification n) s = .next (rest.post (rl / 8) (rl % 8) e) := by
    change execScopeMissNotification n s = _
    simp [execScopeMissNotification, hm, hnone, rest, e]
  rw [post_not_waiting (s := rest) e hw] at hx
  refine ⟨_, hx, rfl, e, ?_, rfl, rfl, rfl⟩
  rw [State.rill_modRill, postRecord_notification _ rfl]
  simp

/-! ### Fan-outs (R309) -/

/-- Of a single fan-out that waits for others besides, sharer b is taken out. -/
theorem acknowledge_waiting {s : State} {f : Fanout} {b : Nat} {sel : Fanout → Bool} (hs : s.fanouts = [f]) (hf : sel f = true)
    (ho : ∃ c ∈ f.sharers, c ≠ b) :
    s.acknowledge b sel = { s with fanouts := [{ f with sharers := f.sharers.filter fun y => y != b }] } := by
  obtain ⟨c, hc, hne⟩ := ho
  have hleft : (f.sharers.filter fun y => y != b).isEmpty = false := by
    rw [List.isEmpty_eq_false_iff]
    exact List.ne_nil_of_mem (List.mem_filter.mpr ⟨hc, by simp [hne]⟩)
  simp [State.acknowledge, hs, hf, hleft]

/-- A single fan-out of which b is the last sharer commits. -/
theorem acknowledge_last {s : State} {f : Fanout} {b : Nat} {sel : Fanout → Bool} (hs : s.fanouts = [f]) (hf : sel f = true)
    (hb : f.sharers = [b]) :
    s.acknowledge b sel = ({ s with fanouts := [] } : State).commitFanout { f with sharers := [] } := by
  simp [State.acknowledge, hs, hf, hb]

theorem exec_writeUpdateAck {s : State} {f : Fanout} {b line : Nat} (hs : s.fanouts = [f]) (hl : f.line = line)
    (hb : b ∈ f.sharers) (hc : (s.braid b).cut = false) :
    exec (.writeUpdateAck b line) s = .next (s.acknowledge b fun f => f.line == line) := by
  change execWriteUpdateAck b line s = _
  simp [execWriteUpdateAck, hs, hl, hb, hc]

/-! ### A store that commits -/

/-- The parts of a state that a plain store leaves as they are when nothing is parked. -/
def Quiet (s : State) : Prop := s.requests = [] ∧ s.fanouts = []

theorem quiet_l1Take {s : State} (p : Pos) (va n : Nat) (l : L1Line) (h : Quiet s) : Quiet (s.l1Take p va n l) := by
  have hfill (halves : List Nat) (l : L1Line) : Quiet (s.l1Fill p halves n l) := by
    unfold State.l1Fill
    dsimp only
    split
    · exact h
    · split <;> exact h
  unfold State.l1Take
  dsimp only
  split
  · split
    · exact h
    · exact hfill _ _
  · exact hfill _ _

theorem quiet_l1Write {s : State} (p : Pos) (va : Word) (line : Nat) (h : Quiet s) : Quiet (s.l1Write p va line) :=
  quiet_l1Take _ _ _ _ h

theorem quiet_noteOlder {s : State} (m : Memory) (p : Pos) (a : Access) (h : Quiet s) : Quiet (s.noteOlder m p a) := by
  unfold State.noteOlder
  split <;> exact h

theorem quiet_storeEffect {s : State} (p : Pos) (a : Access) (h : Quiet s) : Quiet (s.storeEffect p a) := by
  unfold State.storeEffect
  refine quiet_noteOlder _ _ _ ?_
  change Quiet (if isLocal a.pa then s
    else if a.sync || a.nc then s.callBack (lineOf a.pa) true else s.l1Write p a.va (lineOf a.pa))
  split
  · exact h
  · split
    · exact h
    · exact quiet_l1Write _ _ _ h

theorem quiet_retireAccess {s : State} (p : Pos) (a : Access) (h : Quiet s) : Quiet (s.retireAccess p a) := by
  have h1 : Quiet (s.orderOlder p a) := by unfold State.orderOlder; split <;> exact h
  unfold State.retireAccess
  dsimp only
  cases a.cc <;> dsimp only <;> split <;> exact h1

/-- With no request parked there is nothing to scan (R298). -/
theorem scan_quiet {s : State} (pa : Nat) (h : Quiet s) : s.scan pa = s := by
  rw [State.scan, h.1]
  rfl

/-- The bytes after a plain store. -/
theorem byte_storeEffect {s : State} (p : Pos) {a : Access} (hk : a.kind = .store) (x : Nat) :
    (s.storeEffect p a).mem.byte x = (s.mem.write a.pa a.size a.data.toNat).byte x := by
  have hz : (a.kind == AccKind.czero) = false := by rw [hk]; rfl
  unfold State.storeEffect
  rw [State.noteOlder_mem, State.noteRaise_mem, State.wrote_mem]
  simp only [hz, Bool.false_eq_true, if_false]
  rw [Memory.byte_setTags, Memory.byte_store]

theorem performStore_quiet {s : State} (p : Pos) {a : Access} (h : Quiet s) (hk : a.kind = .store) :
    Quiet (s.performStore p a)
      ∧ ∀ x, (s.performStore p a).mem.byte x = (s.mem.write a.pa a.size a.data.toNat).byte x := by
  have hq : Quiet ((s.storeEffect p a).retireAccess p a) := quiet_retireAccess p a (quiet_storeEffect p a h)
  unfold State.performStore
  rw [scan_quiet _ hq]
  exact ⟨hq, fun x => by rw [State.retireAccess_mem, byte_storeEffect p hk]⟩

/-- A plain store whose last sharer has acknowledged is performed: its bytes are written, and no other. -/
theorem writeUpdateAck_commits {s : State} {f : Fanout} {b line : Nat} (hs : s.fanouts = [f]) (hl : f.line = line)
    (hb : f.sharers = [b]) (hc : (s.braid b).cut = false) (ha : f.agent = none) (hk : f.acc.kind = .store)
    (hr : s.requests = []) (hlost : ∀ i < f.acc.size, s.mem.isLost (f.acc.pa + i) = false) :
    ∃ t, exec (.writeUpdateAck b line) s = .next t ∧ t.fanouts = []
      ∧ t.mem.read f.acc.pa f.acc.size = f.acc.data.toNat % 2 ^ (8 * f.acc.size)
      ∧ ∀ x, x < f.acc.pa ∨ f.acc.pa + f.acc.size ≤ x → t.mem.byte x = s.mem.byte x := by
  have hq : Quiet ({ s with fanouts := [] } : State) := ⟨hr, rfl⟩
  obtain ⟨⟨-, hfan⟩, hbyte⟩ := performStore_quiet f.pos hq hk
  have hcommit : ({ s with fanouts := [] } : State).commitFanout { f with sharers := [] }
      = ({ s with fanouts := [] } : State).performStore f.pos f.acc := by
    simp [State.commitFanout, ha, hk, AccKind.fe, State.performWrite, AccKind.rmw]
  have hx := exec_writeUpdateAck hs hl (by simp [hb]) hc
  rw [acknowledge_last hs (by simp [hl]) hb, hcommit] at hx
  refine ⟨_, hx, hfan, ?_, fun x h => ?_⟩
  · rw [Memory.read_congr _ _ _ _ fun x _ _ => hbyte x, Memory.read_write_same _ _ _ _ hlost]
  · rw [hbyte, Memory.byte_write_other _ _ _ _ _ h]

/-! ### A sharer that is lost -/

/-- The braid is fenced and holds no line. -/
def FencedOff (b : Nat) (s : State) : Prop := (s.braid b).fenced = true ∧ (s.braid b).l1 = []

/-- A change of every braid that fences none off its state. -/
theorem fencedOff_update {s t : State} {b : Nat} (f : Nat → Braid → Braid) (ht : t.braids = s.braids.update f)
    (h0 : f b {} = {}) (hf : ∀ x : Braid, x.fenced = true → x.l1 = [] → (f b x).fenced = true ∧ (f b x).l1 = [])
    (h : FencedOff b s) : FencedOff b t := by
  have hb : t.braid b = f b (s.braid b) := by rw [State.braid, ht, Table.get_update _ _ _ _ h0]; rfl
  unfold FencedOff
  rw [hb]
  exact hf _ h.1 h.2

theorem fencedOff_recall {s : State} {b : Nat} (line : Nat) (h : FencedOff b s) : FencedOff b (s.recall line) := by
  refine fencedOff_update (s := s) (fun _ x => match x.l1.find line with
    | some l => if l.sync then x else { x with l1 := x.l1.drop line }
    | none => x) rfl ?_ ?_ h
  · rfl
  · intro x hx hl
    rw [hl]
    exact ⟨hx, hl⟩

theorem fencedOff_ringWrote {s : State} {b : Nat} (lines : List Nat) (h : FencedOff b s) : FencedOff b (s.ringWrote lines) :=
  List.foldlRecOn (motive := FencedOff b) lines _
    (List.foldlRecOn (motive := FencedOff b) lines _ h fun _ ht line _ => fencedOff_recall line ht) fun _ ht _ _ => ht

theorem fencedOff_hostEvent {s : State} {b : Nat} (h : FencedOff b s) : FencedOff b s.hostEvent := by
  unfold State.hostEvent
  split
  · exact h
  · dsimp only
    split
    · exact h
    · exact fencedOff_ringWrote _ h

theorem fencedOff_cutBasin {s : State} {b : Nat} (n : Nat) (h : FencedOff b s) : FencedOff b (s.cutBasin n) := by
  have howed (t : State) (e : Nat × Nat) (ht : FencedOff b t) :
      FencedOff b (t.modBraid e.1 fun x => { x with owed := setInsert x.owed e.2 }) := by
    unfold FencedOff
    by_cases hb : b = e.1
    · subst hb; rw [State.braid_modBraid]; exact ht
    · rw [State.braid_modBraid_other _ _ hb]; exact ht
  have h1 : FencedOff b ((s.basin n).owed.foldl (fun t e => t.modBraid e.1 fun x => { x with owed := setInsert x.owed e.2 }) s) :=
    List.foldlRecOn (motive := FencedOff b) _ _ h fun t ht e _ => howed t e ht
  refine fencedOff_update (fun c x => if State.holds _ n c then { x with copies := [], mx := [], groups := [] } else x)
    rfl ?_ ?_ h1
  · exact ite_self _
  · intro x hx hl
    split <;> exact ⟨hx, hl⟩

/-- The basin is contained. -/
def Contained (n : Nat) (s : State) : Prop := (s.basin n).contained = true

theorem contained_wrote {s : State} {n : Nat} (line : Nat) (h : Contained n s) : Contained n (s.wrote line) := by
  have hb : (s.wrote line).basin n = { s.basin n with
      records := (s.basin n).records.map fun r => if r.deps.contains line then { r with reread := true } else r } :=
    Table.get_update ({} : Basin) s.basins (fun _ x => { x with
      records := x.records.map fun r => if r.deps.contains line then { r with reread := true } else r }) n rfl
  rw [Contained, hb]
  exact h

theorem contained_hostEvent {s : State} {n : Nat} (h : Contained n s) : Contained n s.hostEvent := by
  unfold State.hostEvent
  split
  · exact h
  · dsimp only
    split
    · exact h
    · exact List.foldlRecOn (motive := Contained n) _ _
        (List.foldlRecOn (motive := Contained n) _ _ h fun _ ht _ _ => ht) fun _ ht line _ => contained_wrote line ht

theorem contained_cutBasin (s : State) (n : Nat) : Contained n (s.cutBasin n) := by
  unfold Contained State.cutBasin
  extract_lets u u1
  have h : u1.basin n = { u.basin n with contained := true, resize := none, waiting := [] } := State.basin_modBasin u n _
  exact congrArg Basin.contained h

/-- A basin that closes is contained, whether or not it was before. -/
theorem contained_closeBasin (s : State) (n : Nat) : Contained n (s.closeBasin n) := by
  unfold State.closeBasin
  split
  next h => exact h
  · exact contained_hostEvent (contained_cutBasin s n)

theorem fencedOff_closeBasin {s : State} {b : Nat} (n : Nat) (h : FencedOff b s) : FencedOff b (s.closeBasin n) := by
  unfold State.closeBasin
  split
  · exact h
  · exact fencedOff_hostEvent (fencedOff_cutBasin n h)

theorem fenceBraid_result {s : State} {f : Fanout} {b : Nat} (hs : s.fanouts = [f]) (ho : ∃ c ∈ f.sharers, c ≠ b) :
    FencedOff b (s.fenceBraid b) ∧ Contained (s.basinOf b) (s.fenceBraid b) := by
  unfold State.fenceBraid
  extract_lets mem s1 n s2
  have hs1 : FencedOff b s1 := by
    unfold FencedOff
    rw [State.braid_modBraid]
    exact ⟨rfl, rfl⟩
  have hs2 : s2 = { s1 with fanouts := [{ f with sharers := f.sharers.filter fun y => y != b }] } :=
    acknowledge_waiting (s := s1) hs rfl ho
  have hs2' : FencedOff b (s2.logError (some n) 3 3 b 0) := by rw [hs2]; exact hs1
  exact ⟨fencedOff_closeBasin n (fencedOff_hostEvent hs2'), contained_closeBasin _ n⟩

theorem fanoutTimeout_result {s : State} {f : Fanout} {b line : Nat} (hs : s.fanouts = [f]) (hl : f.line = line)
    (hb : b ∈ f.sharers) (hc : (s.braid b).cut = true) (ht : f.since + 66000 ≤ s.cycle) (ho : ∃ c ∈ f.sharers, c ≠ b) :
    ∃ t, exec (.fanoutTimeout b line) s = .next t ∧ (t.braid b).fenced = true ∧ (t.braid b).l1 = []
      ∧ (t.basin (s.basinOf b)).contained = true := by
  have hx : exec (.fanoutTimeout b line) s = .next (s.fenceBraid b) := by
    change execFanoutTimeout b line s = _
    simp [execFanoutTimeout, hs, hl, hb, hc, Config.usCycles, ht]
  obtain ⟨⟨hf, hl1⟩, hcont⟩ := fenceBraid_result hs ho
  exact ⟨_, hx, hf, hl1, hcont⟩

/-- A braid that answers again has lost its L1 (R309). -/
theorem keepaliveReturn_result (s : State) (b : Nat) :
    ∃ t, exec (.keepaliveReturn b) s = .next t ∧ (t.braid b).cut = false ∧ ((s.braid b).cut = true → (t.braid b).l1 = []) := by
  refine ⟨_, rfl, ?_, fun h => ?_⟩ <;> rw [State.braid_modBraid]
  · split
    · rfl
    · next h => simpa using h
  · rw [if_pos h]

/-- Settles O41: each event by what its operations do to the part of the state that it is about. -/
theorem unitAndHomeEvents : Obligations.UnitAndHomeEvents := by
  intro s b r k line
  refine ⟨fun q m hq => ?_, fun s1 n hg hf hn => fetchMissFill_result hg hf hn, hbmWriteback_result,
    fun n rl va c sc hm hw he => scopeMissNotification_result hm hw he, fun f hs hl hb => ⟨fun hc ho => ?_,
      fun hc hb ha hk hr hlost => writeUpdateAck_commits hs hl hb hc ha hk hr hlost,
      fun hc ht ho => fanoutTimeout_result hs hl hb hc ht ho⟩, rfl, keepaliveReturn_result s b⟩
  · exact withPredControl_clean (fun v => .next { s with cond := v != (m == 1) }) hq.1 hq.2
  · rw [exec_writeUpdateAck hs hl hb hc, acknowledge_waiting hs (by simp [hl]) ho]

end Sys2Proof.Machine
end

section
/-! PROOFS. The outcomes of instructions and events: each ends in a next state (R62, R64, R374, R380). The lemmas follow the
operations of the model; where one only puts others together, simp does. -/

namespace Sys2Proof.Machine

/-- The outcome is a next state. -/
def Ends (r : Res) : Prop := ∃ t, r = .next t

@[simp] theorem ends_next (s : State) : Ends (.next s) := ⟨s, rfl⟩

@[simp] theorem ends_ite (c : Prop) [Decidable c] (a b : Res) : Ends (if c then a else b) ↔ (c → Ends a) ∧ (¬ c → Ends b) := by
  split <;> simp [*]

/-! ### Operations of the state -/

@[simp] theorem parked_ends {s : State} (h : Hold) : Ends (parked s h) :=
  ends_next _

@[simp] theorem trapped_ends {s : State} (cause : Nat) (val : Word) : Ends (trapped s cause val) :=
  ends_next _

@[simp] theorem supervisorOnly_ends {s : State} (k : Res) :
    Ends (supervisorOnly s k) ↔ (s.cur.k = 15 → Ends k) := by simp [supervisorOnly]

@[simp] theorem outsideTx_ends {s : State} (major : Nat) (k : Res) :
    Ends (outsideTx s major k) ↔ (s.inTx = false → Ends k) := by simp [outsideTx]

/-! ### Operands -/

@[simp] theorem withReg_ends {s : State} (r : BitVec 5) (k : Cell → Res) :
    Ends (withReg s r k) ↔ ((s.me.reg r).full = true → Ends (k (s.me.reg r))) := by simp [withReg]

@[simp] theorem withPred_ends {s : State} (q : BitVec 3) (k : QCell → Res) :
    Ends (withPred s q k) ↔ ((s.me.pred q).full = true → Ends (k (s.me.pred q))) := by simp [withPred]

@[simp] theorem withVreg_ends {s : State} (n : Nat) (k : VCell → Res) :
    Ends (withVreg s n k) ↔ ((s.me.vreg n).full = true → Ends (k (s.me.vreg n))) := by simp [withVreg]

@[simp] theorem withControl_ends {s : State} (r : BitVec 5) (k : Word → Res) :
    Ends (withControl s r k) ↔ ((s.me.reg r).full = true → (s.me.reg r).poison = false →
      Ends (k (s.me.reg r).val)) := by simp [withControl]

@[simp] theorem withPredControl_ends {s : State} (q : BitVec 3) (k : Bool → Res) :
    Ends (withPredControl s q k) ↔ ((s.me.pred q).full = true → (s.me.pred q).poison = false →
      Ends (k (s.me.pred q).val)) := by simp [withPredControl]

@[simp] theorem withControls_ends {s : State} (r1 r2 : BitVec 5) (k : Word → Word → Res) :
    Ends (withControls s r1 r2 k) ↔ ((s.me.reg r1).full = true → (s.me.reg r2).full = true →
      (s.me.reg r1).poison = false → (s.me.reg r2).poison = false →
      Ends (k (s.me.reg r1).val (s.me.reg r2).val)) := by simp [withControls]

@[simp] theorem withOx_ends {s : State} (o n : Nat) (k : List Word → Res) :
    Ends (withOx s o n k) ↔ ((s.me.oxBlock o n).all (fun x => x.full) = true →
      (s.me.oxBlock o n).find? (fun x => x.poison) = none → Ends (k ((s.me.oxBlock o n).map fun x => x.val))) := by
  unfold withOx
  cases (s.me.oxBlock o n).find? (fun x => x.poison) <;> simp

@[simp] theorem wrote_ends {s : State} (d : BitVec 5) (v : Word) (p : Bool) : Ends (wrote s d v p) := by simp [wrote]

@[simp] theorem wrotePred_ends {s : State} (q : BitVec 3) (v p : Bool) : Ends (wrotePred s q v p) := by simp [wrotePred]

@[simp] theorem unary_ends (f : Word → Word) (d a : BitVec 5) {s : State} : Ends (unary f d a s) := by simp [unary]

@[simp] theorem binary_ends (f : Word → Word → Word) (d a b : BitVec 5) {s : State} :
    Ends (binary f d a b s) := by simp [binary]

@[simp] theorem ternary_ends (f : Word → Word → Word → Word) (d a b : BitVec 5) {s : State} :
    Ends (ternary f d a b s) := by simp [ternary]

@[simp] theorem unaryOld_ends (f : Word → Word → Word) (d a : BitVec 5) {s : State} :
    Ends (unaryOld f d a s) := by simp [unaryOld]

@[simp] theorem testing_ends (f : Word → Word → Bool) (q : BitVec 3) (a b : BitVec 5) {s : State} :
    Ends (testing f q a b s) := by simp [testing]

@[simp] theorem predOp_ends (f : Bool → Bool → Bool) (q a b : BitVec 3) {s : State} :
    Ends (predOp f q a b s) := by simp [predOp]

/-! ### Groups -/

@[simp] theorem groupWise_ends {s : State} (alone : Res) (whole : Group → Res) (first : List Nat) :
    Ends (groupWise s alone whole first) ↔ (s.unfused = true → Ends alone) ∧ (s.unfused = false →
      (first.head? == some s.cur.r) = true → ∀ g, s.groupOf s.cur = some g → Ends (whole g)) := by
  unfold groupWise
  cases s.unfused <;> cases first.head? == some s.cur.r <;> cases s.groupOf s.cur <;> simp

@[simp] theorem joinAlone_ends {s : State} : Ends (joinAlone s) := by
  unfold joinAlone
  (repeat' split) <;> simp

@[simp] theorem joinUnit_ends {s : State} : Ends (joinUnit s) := by simp [joinUnit]

@[simp] theorem execFuseGroupForm_ends (b k m : Nat) {s : State} : Ends (execFuseGroupForm b k m s) := by
  unfold execFuseGroupForm
  dsimp only
  (repeat' split) <;> simp

@[simp] theorem execFuseTimeout_ends (b r k : Nat) {s : State} : Ends (execFuseTimeout b r k s) := by
  unfold execFuseTimeout
  dsimp only
  (repeat' split) <;> simp

/-! ### Control transfer and windows -/

@[simp] theorem checkTarget_ends {s : State} (t : Word) (k : Res) :
    Ends (checkTarget s t k) ↔ (bit t 0 = false → field t 63 56 = 0 → bit t 55 = false → Ends k) := by simp [checkTarget]

@[simp] theorem goTo_ends {s : State} (t : Word) : Ends (goTo s t) := by simp [goTo]

@[simp] theorem branchIf_ends {s : State} (taken : Bool) (t : Word) : Ends (branchIf s taken t) := by simp [branchIf]

@[simp] theorem countDown_ends {s : State} (a : BitVec 5) (v : Word) (taken : Bool) (t : Word) :
    Ends (countDown s a v taken t) := by simp [countDown]

@[simp] theorem opening_ends {s : State} (t : Word) : Ends (opening s t) := by simp [opening]

@[simp] theorem closing_ends {s : State} (t : Word) : Ends (closing s t) := by simp [closing]

@[simp] theorem returning_ends {s : State} (major : Nat) : Ends (returning s major) := by simp [returning]

@[simp] theorem execWindowSpill_ends (b r k : Nat) {s : State} : Ends (execWindowSpill b r k s) := by
  unfold execWindowSpill
  (repeat' split) <;> simp

@[simp] theorem execWindowFill_ends (b r k : Nat) {s : State} : Ends (execWindowFill b r k s) := by
  unfold execWindowFill
  (repeat' split) <;> simp

/-! ### Shared registers and long operations -/

@[simp] theorem multiply_ends (f : Word → Word → Word) (d a b : BitVec 5) (la : BitVec 4) {s : State} :
    Ends (multiply f d a b la s) := by simp [multiply]

@[simp] theorem divide_ends (f : Word → Word → Word) (d a b : BitVec 5) (la : BitVec 4) {s : State} :
    Ends (divide f d a b la s) := by simp [divide]

@[simp] theorem execDivideResult_ends (b r : Nat) {s : State} : Ends (execDivideResult b r s) := by
  unfold execDivideResult
  (repeat' split) <;> simp

@[simp] theorem failedAttempt_ends {s : State} (i : Instr) (h : Hold) (sr cause : Nat) (val : Word) :
    Ends (failedAttempt s i h sr cause val) := by simp [failedAttempt]

@[simp] theorem sharedFe_ends {s : State} (i : Instr) (m : BitVec 4) (ok : Cell → Bool) (k : State → Cell → Res) :
    Ends (sharedFe s i m ok k) ↔ (s.myRill.isReserved s.cycle m.toNat = false →
      ok (s.myRill.shared s.cycle m.toNat) = true →
      Ends (k (s.attempted.mReserve m.toNat) (s.myRill.shared s.cycle m.toNat))) := by simp [sharedFe]

@[simp] theorem execMrdfe_ends (d : BitVec 5) (m : BitVec 4) {s : State} : Ends (execMrdfe d m s) := by simp [execMrdfe]

@[simp] theorem execMrdff_ends (d : BitVec 5) (m : BitVec 4) {s : State} : Ends (execMrdff d m s) := by simp [execMrdff]

@[simp] theorem execMwrfe_ends (m : BitVec 4) (a : BitVec 5) {s : State} : Ends (execMwrfe m a s) := by simp [execMwrfe]

@[simp] theorem execMwrff_ends (m : BitVec 4) (a : BitVec 5) {s : State} : Ends (execMwrff m a s) := by simp [execMwrff]

@[simp] theorem execMfeclr_ends (m : BitVec 4) {s : State} : Ends (execMfeclr m s) := by simp [execMfeclr]

@[simp] theorem execSharedRegisterEffect_ends (b r : Nat) {s : State} : Ends (execSharedRegisterEffect b r s) := by
  unfold execSharedRegisterEffect
  (repeat' split) <;> simp

theorem State.retrying_ends {s : State} (p : Pos) (x : Hold) {k : State → Instr → Res} (hk : ∀ t i, Ends (k t i)) :
    Ends (s.retrying p x k) := by
  unfold State.retrying
  dsimp only
  split
  · next i _ =>
    split
    · simp
    · split
      · simp
      · obtain ⟨t, ht⟩ := hk { (s.begin p) with
          cur := p, upc := (s.ctx p).pc, ipc := (s.ctx p).pc + w64 (2 * ((s.ctx p).heldLen - 2)), ulen := (s.ctx p).heldLen
          cond := true, xlanes := 2 ^ p.r } i
        rw [ht]
        exact ends_next _
  · simp

@[simp] theorem execSharedRegisterFeRetry_ends (b r k : Nat) {s : State} : Ends (execSharedRegisterFeRetry b r k s) := by
  refine State.retrying_ends _ _ fun t i => ?_
  split <;> simp

@[simp] theorem neighbour_ends {s : State} (i : Instr) (dir : Nat) (d a : BitVec 5) :
    Ends (neighbour s i dir d a) := by simp [neighbour]

@[simp] theorem execNwrAttempt_ends (b r k : Nat) {s : State} : Ends (execNwrAttempt b r k s) := by
  refine State.retrying_ends _ _ fun t i => ?_
  split <;> simp

@[simp] theorem execNwrLand_ends (b r k : Nat) {s : State} : Ends (execNwrLand b r k s) := by
  unfold execNwrLand
  (repeat' split) <;> simp

/-! ### Accesses -/

@[simp] theorem trappedAt_ends {s : State} (cause : Nat) (ea : Word) (write : Bool) :
    Ends (trappedAt s cause ea write) := by simp [trappedAt]

@[simp] theorem withAddress_ends {s : State} (ea : Word) (size : Nat) (bad : Bool) (k : Res) (write : Bool) :
    Ends (withAddress s ea size bad k write) ↔ (addressFault ea size bad true = none → Ends k) := by
  unfold withAddress
  cases addressFault ea size bad true <;> simp

@[simp] theorem issueThen_ends (s : State) (dests : List Dest) (la : Option Nat) (accs : List Access) (post : State → State) :
    Ends (issueThen s dests la accs post) := issueThen_next s dests la accs post

@[simp] theorem issueAll_ends {s : State} (dests : List Dest) (la : Option Nat) (accs : List Access) (post : Ctx → Ctx) :
    Ends (issueAll s dests la accs post) :=
  issueThen_ends _ _ _ _ _

/-! ### Transaction logs -/

/-- Where an access of a transaction stops the unit, the unit ends in a next state. -/
def TxOut.Ends : TxOut → Prop
  | .stop r => Machine.Ends r
  | _ => True

theorem txReadAt_ends (s : State) (t : Tx) (pa size : Nat) (sync : Bool) (va : Word) : (txReadAt s t pa size sync va).Ends := by
  unfold txReadAt
  dsimp only
  (repeat' split) <;> trivial

theorem txWriteAt_ends (s : State) (t : Tx) (pa size v : Nat) (bad sync : Bool) (va : Word) :
    (txWriteAt s t pa size v bad sync va).Ends := by
  unfold txWriteAt
  dsimp only
  (repeat' split) <;> trivial

theorem txAccess_ends (s : State) (major : Nat) (x : TxAcc) : (txAccess s major x).Ends := by
  unfold txAccess
  dsimp only
  split
  · exact ends_next _
  split
  · exact ends_next _
  split
  · exact ends_next _
  · exact ends_next _
  · exact ends_next _
  split
  · exact ends_next _
  split
  · exact ends_next _
  split
  · trivial
  next s1 pa leaf _ _ _ _ t _ =>
  split
  · trivial
  have hr : (if x.rd then txReadAt (s1.noteUsed x.va) t pa x.size (bit leaf 6) x.va
      else .ok (s1.noteUsed x.va) 0 false).Ends := by
    split
    · exact txReadAt_ends _ _ _ _ _ _
    · trivial
  split <;> rename_i er
  · rw [er] at hr
    exact hr
  · trivial
  · trivial
  split
  · split
    · trivial
    · next z ew =>
      have hw : (TxOut.stop z).Ends := ew ▸ txWriteAt_ends _ _ _ _ _ _ _ _
      exact hw
    · trivial
    · trivial
  · trivial

theorem txFrom_ends {onFull onLock : Nat → Res} (hf : ∀ c, Ends (onFull c)) (hl : ∀ n, Ends (onLock n)) (major : Nat)
    (l : List TxAcc) (s : State) {k : State → List (Nat × Bool) → Res} (hk : ∀ t vs, Ends (k t vs)) :
    Ends (txFrom onFull onLock major l s k) := by
  induction l generalizing s k with
  | nil => exact hk _ _
  | cons x l ih =>
    have ha := txAccess_ends s major x
    unfold txFrom
    split <;> rename_i e
    · rw [e] at ha
      exact ha
    · exact hf _
    · exact hl _
    · exact ih _ fun t vs => hk _ _

theorem txRefused_ends {s : State} {major : Nat} {xs : List TxAcc} {r : Res} (e : txRefused s major xs = some r) : Ends r := by
  unfold txRefused at e
  split at e
  · cases e; exact ends_next _
  · split at e
    · cases e; exact ends_next _
    · obtain ⟨x, -, hx⟩ := List.exists_of_findSome?_eq_some e
      split at hx <;> cases hx
      exact ends_next _

@[simp] theorem txAll_ends {s : State} (major : Nat) (xs : List TxAcc) {k : State → List (Nat × Bool) → Res}
    (hk : ∀ t vs, Ends (k t vs)) : Ends (txAll s major xs k) := by
  unfold txAll
  split
  · simp
  · split
    · simp
    · split
      · next e => exact txRefused_ends e
      · exact txFrom_ends (fun _ => ends_next _) (fun _ => ends_next _) _ _ _ hk

/-! ### Loads and stores -/

@[simp] theorem loadAt_ends {s : State} (major : Nat) (d : BitVec 5) (ea : Word) (bad : Bool) (t : Nat)
    (la : Option Nat) :
    Ends (loadAt s major d ea bad t la) := by
  unfold loadAt
  dsimp only
  split
  · exact txAll_ends _ _ fun t vs => by split <;> simp
  · simp

@[simp] theorem storeAt_ends {s : State} (major : Nat) (x : Cell) (ea : Word) (bad : Bool) (size : Nat)
    (la : Option Nat) :
    Ends (storeAt s major x ea bad size la) := by simp [storeAt]

@[simp] theorem execLoxm_ends (n : BitVec 3) (a : BitVec 5) (k : BitVec 3) {s : State} : Ends (execLoxm n a k s) := by
  unfold execLoxm
  simp only [withReg_ends]
  intros
  (repeat' split) <;> simp

@[simp] theorem prefetch_ends {s : State} (a : BitVec 5) (p : BitVec 8) (own : Bool) : Ends (prefetch s a p own) := by
  unfold prefetch
  dsimp only
  (repeat' split) <;> simp

@[simp] theorem cacheOp_ends {s : State} (k : AccKind) (a : BitVec 5) (p : BitVec 8) (la : Nat) :
    Ends (cacheOp s k a p la) := by
  unfold cacheOp
  simp only [outsideTx_ends, withReg_ends]
  intros
  (repeat' split) <;> simp

@[simp] theorem execCzero_ends (a : BitVec 5) (p : BitVec 8) (l : BitVec 4) {s : State} : Ends (execCzero a p l s) := by
  unfold execCzero
  simp only [withReg_ends]
  intros
  (repeat' split) <;> simp

/-! ### Order -/

@[simp] theorem fence_ends {s : State} (f : AccKind → Bool) (f1 : Ctx → Ctx) : Ends (fence s f f1) := by simp [fence]

@[simp] theorem execLda_ends (d a : BitVec 5) (q t : BitVec 3) (x : BitVec 1) (sx : BitVec 3) {s : State} :
    Ends (execLda d a q t x sx s) := by
  unfold execLda
  simp only [withReg_ends]
  intros
  split
  · exact txAll_ends _ _ fun t vs => by split <;> simp
  · simp

@[simp] theorem execFenceRelWiden_ends (a b : BitVec 5) (sx : BitVec 3) {s : State} :
    Ends (execFenceRelWiden a b sx s) := by
  unfold execFenceRelWiden
  simp only [outsideTx_ends, supervisorOnly_ends, withReg_ends]
  intros
  split
  · simp
  · rw [withAddress_ends]
    intro _
    (repeat' split) <;> simp

@[simp] theorem execScopeMissNotification_ends (n : Nat) {s : State} : Ends (execScopeMissNotification n s) := by
  unfold execScopeMissNotification
  (repeat' split) <;> simp

/-! ### Block instructions -/

theorem blockRefused_ends {s : State} {x : Block} {r : Res} (e : blockRefused s x = some r) : Ends r := by
  unfold blockRefused at e
  extract_lets ys trap full at e
  have hfull {zs r} (e : full zs = some r) : Ends r := by
    obtain ⟨c, -, rfl⟩ := Option.map_eq_some_iff.mp e
    exact ends_next _
  have htrap {y r} (e : trap y = some r) : Ends r := by
    simp only [trap] at e
    split at e
    · next er => cases e; exact txRefused_ends er
    · split at e
      · cases e; exact ends_next _
      · cases e
    · cases e
  split at e
  · cases e; exact ends_next _
  · split at e
    · exact hfull e
    · split at e
      · next er =>
        cases e
        obtain ⟨y, -, hy⟩ := List.exists_of_findSome?_eq_some er
        exact htrap hy
      · exact hfull e

@[simp] theorem startBlock_ends {s : State} (op : Nat) (n a b : BitVec 5) (e : BitVec 2) (la : BitVec 4) :
    Ends (startBlock s op n a b e la) := by simp [startBlock]

@[simp] theorem txElement_ends (s : State) (x : Block) : Ends (txElement s x) := by
  unfold txElement
  extract_lets c0 size wait full back put s0
  have hput (z : State) (v : Nat) (bad : Bool) : Ends (put z v bad) := by
    unfold put
    split
    · split
      · simp
      · exact ends_next _
    · exact txFrom_ends (fun _ => ends_next _) (fun _ => ends_next _) _ _ _ fun _ _ => ends_next _
  split
  · simp
  · split
    · next e =>
      split at e
      · exact blockRefused_ends e
      · exact txRefused_ends e
    · split
      · exact hput _ _ _
      · refine txFrom_ends (fun _ => ends_next _) (fun _ => ends_next _) _ _ _ fun t vs => ?_
        split
        · exact hput _ _ _
        · simp

@[simp] theorem elementOf_ends (s : State) (p : Pos) (x : Block) : Ends (elementOf s p x) := by
  have hr : Ends (if ({ s with cur := p, upc := x.pc, ipc := x.pc, ulen := x.len } : State).inTx then
      (if ({ s with cur := p, upc := x.pc, ipc := x.pc, ulen := x.len } : State).me.wait.isSome then .next s
        else txElement { s with cur := p, upc := x.pc, ipc := x.pc, ulen := x.len } x)
      else .next (({ s with cur := p, upc := x.pc, ipc := x.pc, ulen := x.len } : State).plainElement x)) := by
    simp
  obtain ⟨t, ht⟩ := hr
  unfold elementOf
  dsimp only
  rw [ht]
  exact ends_next _

@[simp] theorem execBlockElement_ends (b r : Nat) {s : State} : Ends (execBlockElement b r s) := by
  unfold execBlockElement
  dsimp only
  (repeat' split) <;> simp

/-! ### Deques -/

@[simp] theorem execDequeOperation_ends (b r : Nat) {s0 : State} : Ends (execDequeOperation b r s0) := by
  unfold execDequeOperation
  dsimp only
  (repeat' split) <;> simp

@[simp] theorem execStealProbe_ends (b r : Nat) {s : State} : Ends (execStealProbe b r s) := by
  unfold execStealProbe
  dsimp only
  (repeat' split) <;> simp

@[simp] theorem execDqspillWrite_ends (b r : Nat) {s : State} : Ends (execDqspillWrite b r s) := by
  unfold execDqspillWrite
  (repeat' split) <;> simp

/-! ### Atomic operations -/

@[simp] theorem feAccess_ends {s : State} (k : AccKind) (dsts : List Dest) (v : Cell) (a : BitVec 5) (p : BitVec 8)
    (la : BitVec 4) :
    Ends (feAccess s k dsts v a p la) := by
  unfold feAccess
  simp only [withReg_ends, withAddress_ends]
  intros
  (repeat' split) <;> simp

@[simp] theorem amo_ends {s : State} (op : Nat) (d a b : BitVec 5) (z o : BitVec 1) (la : BitVec 4) :
    Ends (amo s op d a b z o la) := by
  unfold amo
  simp only [withReg_ends]
  intros
  split
  · exact txAll_ends _ _ fun t vs => by split <;> simp
  · simp

@[simp] theorem execCas_ends (d a b : BitVec 5) (z : BitVec 1) (e : BitVec 2) (sx : BitVec 3) (l : BitVec 4) {s : State} :
    Ends (execCas d a b z e sx l s) := by
  unfold execCas
  simp only [withReg_ends]
  intros
  split
  · exact txAll_ends _ _ fun t vs => by split <;> simp
  · simp

@[simp] theorem rupd_ends {s : State} (op : Nat) (a b : BitVec 5) (c : BitVec 3) (ext : List Word) :
    Ends (rupd s op a b c ext) := by simp [rupd]

@[simp] theorem rupdAddz_ends {s : State} (op : Nat) (a b : BitVec 5) (o c : BitVec 3) :
    Ends (rupdAddz s op a b o c) := by simp [rupdAddz]

@[simp] theorem execRupdSend_ends (b r k n : Nat) {s : State} : Ends (execRupdSend b r k n s) := by
  unfold execRupdSend
  dsimp only
  (repeat' split) <;> simp

@[simp] theorem execVamo_ends (p : BitVec 4) (a : BitVec 5) (b v : BitVec 4) (f m : BitVec 1) (l : BitVec 4) {s : State} :
    Ends (execVamo p a b v f m l s) := by
  unfold execVamo
  rw [outsideTx_ends]
  intro _
  split
  · simp
  · split
    · simp
    · simp only [withReg_ends, withVreg_ends]
      intros
      split
      · simp
      · split <;> simp

@[simp] theorem execMonarm_ends (k : BitVec 2) (a : BitVec 5) {s : State} : Ends (execMonarm k a s) := by
  unfold execMonarm
  simp only [outsideTx_ends, withReg_ends]
  intros
  (repeat' split) <;> simp

@[simp] theorem execMonwaitEnd_ends (b r k : Nat) {s : State} : Ends (execMonwaitEnd b r k s) := by
  unfold execMonwaitEnd
  dsimp only
  (repeat' split) <;> simp

@[simp] theorem execMonwaitTimeout_ends (b r k : Nat) {s : State} : Ends (execMonwaitTimeout b r k s) := by
  unfold execMonwaitTimeout
  dsimp only
  (repeat' split) <;> simp

@[simp] theorem withBarrier_ends {s : State} (n : BitVec 4) {k : Barrier → Res} (hk : ∀ x, Ends (k x)) :
    Ends (withBarrier s n k) := by
  simp [withBarrier, hk]

@[simp] theorem execBarrierRelease_ends (b r k : Nat) {s : State} : Ends (execBarrierRelease b r k s) := by
  unfold execBarrierRelease
  dsimp only
  (repeat' split) <;> simp

@[simp] theorem waitBelow_ends {s : State} (c k : Nat) : Ends (waitBelow s c k) := by simp [waitBelow]

/-! ### Floating point -/

@[simp] theorem fpEnd_ends {s : State} (fl : BitVec 5) (sr : Bool) (amax : Word) {k : State → Res} (hk : ∀ t, Ends (k t)) :
    Ends (fpEnd s fl sr amax k) := by
  unfold fpEnd
  extract_lets fcsr met s1
  split
  · simp
  · exact hk _

@[simp] theorem withRounding_ends {s : State} (r : Nat) (rounds : Bool) (k : Nat → Nat → Bool → Res) :
    Ends (withRounding s r rounds k) ↔ ((rounds && rmOf (s.sr 0x020) r == 5 && !s.me.vseq.isEmpty) = false →
      Ends (k (rmOf (s.sr 0x020) r) (seedStep (s.sr 0x022)) (rounds && rmOf (s.sr 0x020) r == 5))) := by simp [withRounding]

@[simp] theorem fpWrite_ends {s : State} (d : BitVec 5) (v : Nat) (p : Bool) (fl : BitVec 5) (sr : Bool) :
    Ends (fpWrite s d v p fl sr) := by simp [fpWrite]

@[simp] theorem fpBinary_ends (g : Nat → FVal → FVal → FRes) (d a b : BitVec 5) (f : BitVec 2) (r : BitVec 4)
    {s : State} :
    Ends (fpBinary g d a b f r s) := by simp [fpBinary]

@[simp] theorem fpTernary_ends (g : Nat → FVal → FVal → FVal → FRes) (d a b : BitVec 5) (f : BitVec 2) (r : BitVec 4)
    {s : State} :
    Ends (fpTernary g d a b f r s) := by simp [fpTernary]

@[simp] theorem fpPick_ends (isMax : Bool) (d a b : BitVec 5) (f : BitVec 2) {s : State} :
    Ends (fpPick isMax d a b f s) := by simp [fpPick]

@[simp] theorem fpLong_ends {s : State} (d : BitVec 5) (la : Nat) (t : Nat) (p : Bool) (f : Fmt) (r : FRes) :
    Ends (fpLong s d la t p f r) := by simp [fpLong]

@[simp] theorem fpLong1_ends (g : FVal → FRes) (t64 t : Nat) (d a : BitVec 5) (f : BitVec 2) (la : BitVec 4) {s : State} :
    Ends (fpLong1 g t64 t d a f la s) := by simp [fpLong1]

/-! ### Vectors -/

@[simp] theorem enqueue_ends {s : State} (e0 : VEntry) (gen : Dest) : Ends (enqueue s e0 gen) := by
  unfold enqueue
  dsimp only
  (repeat' split) <;> simp

@[simp] theorem vec_ends {s : State} (major fn d a b : Nat) (m : BitVec 1) (t : Nat) :
    Ends (vec s major fn d a b m t) := by simp [vec]

@[simp] theorem vecY_ends {s : State} (major fn d a : Nat) (b : BitVec 5) (m : BitVec 1) (t : Nat) (gen : Dest) :
    Ends (vecY s major fn d a b m t gen) := by simp [vecY]

@[simp] theorem reduce_ends {s : State} (fn : Nat) (d : BitVec 5) (a : BitVec 4) (m : BitVec 1) (t : BitVec 3) :
    Ends (reduce s fn d a m t) := by simp [reduce]

@[simp] theorem execVectorCycle_ends (b r : Nat) {s : State} : Ends (execVectorCycle b r s) := by
  unfold execVectorCycle
  dsimp only
  (repeat' split) <;> simp

@[simp] theorem execVectorResultWrite_ends (b r k : Nat) {s : State} : Ends (execVectorResultWrite b r k s) := by
  unfold execVectorResultWrite
  (repeat' split) <;> simp

@[simp] theorem vecMem_ends {s : State} (load : Bool) (d : Nat) (m : BitVec 1) (e la : Nat) (bad : Bool)
    (names : List Nat) (ext : List Word) (addr : Nat → Word) :
    Ends (vecMem s load d m e la bad names ext addr) := by
  unfold vecMem
  dsimp only
  (repeat' split) <;> simp

@[simp] theorem vecLinear_ends {s : State} (load strided : Bool) (d : BitVec 4) (a b : BitVec 5) (m : BitVec 1)
    (e : BitVec 2) (la : BitVec 4) :
    Ends (vecLinear s load strided d a b m e la) := by simp [vecLinear]

@[simp] theorem vecIndexed_ends {s : State} (load : Bool) (d : BitVec 4) (a : BitVec 5) (b : BitVec 4) (m : BitVec 1)
    (e : BitVec 2) (la : BitVec 4) :
    Ends (vecIndexed s load d a b m e la) := by
  unfold vecIndexed
  (repeat' split) <;> simp

/-! ### Streams -/

@[simp] theorem streamUnit_ends {s : State} (k : Res) :
    Ends (streamUnit s k) ↔ (s.inTx = false → s.me.vseq.isEmpty = true → Ends k) := by simp [streamUnit]

@[simp] theorem bind_ends {s : State} (input : Bool) (v : BitVec 2) (b : BitVec 5) (o c : BitVec 3) (xp : Bool) :
    Ends (bind s input v b o c xp) := by
  unfold bind
  simp only [streamUnit_ends, withReg_ends]
  intros
  split
  · simp
  · rw [withOx_ends]
    intros
    (repeat' split) <;> simp

@[simp] theorem execSunbind_ends (v : BitVec 2) {s : State} : Ends (execSunbind v s) := by
  unfold execSunbind
  (repeat' split) <;> simp

@[simp] theorem execSres_ends (a b : BitVec 5) {s : State} : Ends (execSres a b s) := by
  unfold execSres
  simp only [outsideTx_ends, supervisorOnly_ends, streamUnit_ends, withControls_ends]
  intros
  (repeat' split) <;> simp

@[simp] theorem execStreamFetch_ends (b r : Nat) {s : State} : Ends (execStreamFetch b r s) := by
  unfold execStreamFetch
  dsimp only
  (repeat' split) <;> simp

@[simp] theorem execStreamStore_ends (b r : Nat) {s : State} : Ends (execStreamStore b r s) := by
  unfold execStreamStore
  dsimp only
  (repeat' split) <;> simp

/-! ### Copy commands -/

@[simp] theorem acceptCopy_ends {s : State} (op : Nat) (t : BitVec 5) (ws : List Word) (fill : Cell) (c : BitVec 3)
    (xp : Bool) :
    Ends (acceptCopy s op t ws fill c xp) := by
  unfold acceptCopy
  (repeat' split) <;> simp

@[simp] theorem copyUnit_ends {s : State} (op n : Nat) (t : BitVec 5) (fill : Cell) (o c : BitVec 3) (xp : Bool) :
    Ends (copyUnit s op n t fill o c xp) := by
  unfold copyUnit
  simp only [withOx_ends]
  intros
  (repeat' split) <;> simp

@[simp] theorem execCopyEngineStep_ends (b : Nat) {s : State} : Ends (execCopyEngineStep b s) := by
  unfold execCopyEngineStep
  dsimp only
  (repeat' split) <;> simp

@[simp] theorem execCopyComplete_ends (b q : Nat) {s : State} : Ends (execCopyComplete b q s) := by
  unfold execCopyComplete
  (repeat' split) <;> simp

@[simp] theorem execCres_ends (a b : BitVec 5) {s : State} : Ends (execCres a b s) := by
  unfold execCres
  simp only [outsideTx_ends, supervisorOnly_ends, withControls_ends]
  intros
  (repeat' split) <;> simp

/-! ### Matrix commands -/

@[simp] theorem matrixCmd_ends {s : State} (op : Nat) (a b : BitVec 5) (o : BitVec 3) (n : Nat) (c : BitVec 3)
    (xp : Bool) :
    Ends (matrixCmd s op a b o n c xp) := by
  unfold matrixCmd
  (repeat' split) <;> simp

@[simp] theorem execMatrixArbitrate_ends (b : Nat) {s : State} : Ends (execMatrixArbitrate b s) := by
  unfold execMatrixArbitrate
  dsimp only
  (repeat' split) <;> simp

@[simp] theorem execMatrixCommandComplete_ends (b n : Nat) {s : State} : Ends (execMatrixCommandComplete b n s) := by
  unfold execMatrixCommandComplete
  (repeat' split) <;> simp

@[simp] theorem execMatrixAccessStop_ends (b n : Nat) {s : State} : Ends (execMatrixAccessStop b n s) := by
  unfold execMatrixAccessStop
  (repeat' split) <;> simp

@[simp] theorem execMxrotTransfer_ends (b dir w : Nat) {s : State} : Ends (execMxrotTransfer b dir w s) := by
  unfold execMxrotTransfer
  dsimp only
  (repeat' split) <;> simp

@[simp] theorem withCode_ends {s : State} (code : Nat) (k : Res) :
    Ends (withCode s code k) ↔ (code = 0 → Ends k) := by simp [withCode]

@[simp] theorem execMxres_ends (a b : BitVec 5) {s : State} : Ends (execMxres a b s) := by
  unfold execMxres
  simp only [outsideTx_ends, supervisorOnly_ends, withControls_ends]
  intros
  (repeat' split) <;> simp

/-! ### Transactions -/

@[simp] theorem txld_ends {s : State} (t : Tx) (d : BitVec 5) (pa size : Nat) (sx : Bool) :
    Ends (txld s t d pa size sx) := by simp [txld]

@[simp] theorem execTxld_ends (d b : BitVec 5) (t : BitVec 3) {s : State} : Ends (execTxld d b t s) := by
  unfold execTxld
  rw [withReg_ends]
  intro _
  dsimp only
  split
  · simp
  · rw [withAddress_ends]
    intro _
    (repeat' split) <;> simp

@[simp] theorem execTxchk_ends {s : State} : Ends (execTxchk s) := by
  unfold execTxchk
  (repeat' split) <;> simp

@[simp] theorem execTend_ends (q : BitVec 3) {s : State} : Ends (execTend q s) := by
  unfold execTend
  (repeat' split) <;> simp

@[simp] theorem execTxCommitLockReply_ends (b r k sl : Nat) {s : State} : Ends (execTxCommitLockReply b r k sl s) := by
  unfold execTxCommitLockReply
  dsimp only
  (repeat' split) <;> simp

@[simp] theorem execTxCommitDeadline_ends (b r k : Nat) {s : State} : Ends (execTxCommitDeadline b r k s) := by
  unfold execTxCommitDeadline
  dsimp only
  (repeat' split) <;> simp

@[simp] theorem execTxCommitApplied_ends (b r k sl : Nat) {s : State} : Ends (execTxCommitApplied b r k sl s) := by
  unfold execTxCommitApplied
  dsimp only
  (repeat' split) <;> simp

@[simp] theorem execTirrev_ends (b : BitVec 5) (p : BitVec 12) {s : State} : Ends (execTirrev b p s) := by
  unfold execTirrev
  (repeat' split) <;> simp

@[simp] theorem execWeirTokenGrant_ends (bs : Nat) {s : State} : Ends (execWeirTokenGrant bs s) := by
  unfold execWeirTokenGrant
  dsimp only
  (repeat' split) <;> simp

@[simp] theorem execIrrevocableLockGrant_ends (b r k : Nat) {s : State} : Ends (execIrrevocableLockGrant b r k s) := by
  unfold execIrrevocableLockGrant
  dsimp only
  (repeat' split) <;> simp

/-! ### Work creation -/

@[simp] theorem take_ends {s : State} (kind : Nat) (sx : BitVec 5) (k : BitVec 3) :
    Ends (take s kind sx k) := by simp [take]

@[simp] theorem execIter_ends (sx : BitVec 5) (_l : BitVec 4) {s : State} : Ends (execIter sx _l s) := by
  unfold execIter
  (repeat' split) <;> simp

@[simp] theorem execItnext_ends (sx : BitVec 5) (_l : BitVec 4) {s : State} : Ends (execItnext sx _l s) := by
  unfold execItnext
  (repeat' split) <;> simp

/-! ### Launches -/

@[simp] theorem execDependenceReread_ends (bs n : Nat) {s : State} : Ends (execDependenceReread bs n s) := by
  unfold execDependenceReread
  (repeat' split) <;> simp

@[simp] theorem execRecordAged_ends (bs n : Nat) {s : State} : Ends (execRecordAged bs n s) := by
  unfold execRecordAged
  (repeat' split) <;> simp

@[simp] theorem execCohortEnd_ends (b n : Nat) {s : State} : Ends (execCohortEnd b n s) := by
  unfold execCohortEnd
  (repeat' split) <;> simp

/-! ### Performing an access -/

@[simp] theorem State.whenArrived_ends {s : State} (p : Pos) (a : Access) {k : State → Res} (hk : ∀ t, Ends (k t)) :
    Ends (s.whenArrived p a k) := by
  unfold State.whenArrived
  split
  · simp
  · split
    · exact hk _
    · split <;> simp

@[simp] theorem execLoadDataReturn_ends (b r k n : Nat) {s : State} : Ends (execLoadDataReturn b r k n s) := by
  unfold execLoadDataReturn
  dsimp only
  (repeat' split) <;> simp

@[simp] theorem execStorePerformed_ends (b r k n : Nat) {s : State} : Ends (execStorePerformed b r k n s) := by
  unfold execStorePerformed
  dsimp only
  (repeat' split) <;> simp

@[simp] theorem execNetworkArbitrate_ends (o : Nat) {s : State} : Ends (execNetworkArbitrate o s) := by
  unfold execNetworkArbitrate
  dsimp only
  (repeat' split) <;> simp

@[simp] theorem execSliceServe_ends (line : Nat) {s : State} : Ends (execSliceServe line s) := by
  unfold execSliceServe
  (repeat' split) <;> simp

@[simp] theorem execSliceRequestStarved_ends (n : Nat) {s : State} : Ends (execSliceRequestStarved n s) := by
  unfold execSliceRequestStarved
  (repeat' split) <;> simp

@[simp] theorem execOwnerRmw_ends (n : Nat) {s : State} : Ends (execOwnerRmw n s) := by
  unfold execOwnerRmw
  (repeat' split) <;> simp

@[simp] theorem execFeParkedRetry_ends (n : Nat) {s : State} : Ends (execFeParkedRetry n s) := by
  unfold execFeParkedRetry
  (repeat' split) <;> simp

/-! ### System instructions -/

@[simp] theorem targetTrap_ends {s : State} (k : Nat) : Ends (targetTrap s k) := by simp [targetTrap]

@[simp] theorem mtsOn_ends {s : State} (p : Pos) (n : Nat) (v : Word) : Ends (mtsOn s p n v) := by simp [mtsOn]

@[simp] theorem execSys_ends (a : BitVec 5) {s : State} : Ends (execSys a s) := by
  unfold execSys
  (repeat' split) <;> simp

@[simp] theorem eret_ends {s : State} (skip : Bool) (a : BitVec 5) : Ends (eret s skip a) := by simp [eret]

@[simp] theorem execEvwait_ends (d b : BitVec 5) {s : State} : Ends (execEvwait d b s) := by
  unfold execEvwait
  (repeat' split) <;> simp

@[simp] theorem execEvwaitTimeout_ends (b r : Nat) {s : State} : Ends (execEvwaitTimeout b r s) := by
  unfold execEvwaitTimeout
  (repeat' split) <;> simp

@[simp] theorem replay_ends {s : State} (drop : Bool) (d a : BitVec 5) : Ends (replay s drop d a) := by
  unfold replay
  simp only [outsideTx_ends, supervisorOnly_ends, withControl_ends]
  intros
  (repeat' split) <;> simp

@[simp] theorem execAtsCompletion_ends (n : Nat) (ok : Bool) (e : Word) {s : State} :
    Ends (execAtsCompletion n ok e s) := by
  unfold execAtsCompletion
  (repeat' split) <;> simp

@[simp] theorem execPriResponse_ends (n : Nat) (ok : Bool) {s : State} : Ends (execPriResponse n ok s) := by
  unfold execPriResponse
  (repeat' split) <;> simp

@[simp] theorem execSvcall_ends (d a b : BitVec 5) {s : State} : Ends (execSvcall d a b s) := by
  unfold execSvcall
  simp only [outsideTx_ends, supervisorOnly_ends, withControls_ends]
  intros
  (repeat' split) <;> simp

@[simp] theorem execUncorrectableError_ends (site x y : Nat) {s : State} : Ends (execUncorrectableError site x y s) := by
  unfold execUncorrectableError
  (repeat' split) <;> simp

/-! ### Basins -/

@[simp] theorem execBhome_ends (a sx : BitVec 5) {s : State} : Ends (execBhome a sx s) := by
  unfold execBhome
  simp only [outsideTx_ends, withReg_ends, withAddress_ends]
  intros
  (repeat' split) <;> simp

@[simp] theorem execResizePhaseStart_ends (bs : Nat) {s : State} : Ends (execResizePhaseStart bs s) := by
  unfold execResizePhaseStart
  dsimp only
  (repeat' split) <;> simp

@[simp] theorem execResizePhaseEnd_ends (bs : Nat) {s : State} : Ends (execResizePhaseEnd bs s) := by
  unfold execResizePhaseEnd
  (repeat' split) <;> simp

@[simp] theorem execPhaseDeadline_ends (bs : Nat) {s : State} : Ends (execPhaseDeadline bs s) := by
  unfold execPhaseDeadline
  (repeat' split) <;> simp

@[simp] theorem execScrubComplete_ends (kind n : Nat) {s : State} : Ends (execScrubComplete kind n s) := by
  unfold execScrubComplete
  (repeat' split) <;> simp

@[simp] theorem execRillRetire_ends (b r : Nat) {s : State} : Ends (execRillRetire b r s) := by
  unfold execRillRetire
  (repeat' split) <;> simp

/-! ### Saved contexts -/

@[simp] theorem execCsave_ends (a b : BitVec 5) {s : State} : Ends (execCsave a b s) := by
  unfold execCsave
  simp only [outsideTx_ends, supervisorOnly_ends, withControls_ends]
  intros
  (repeat' split) <;> simp

@[simp] theorem execCrest_ends (d a b : BitVec 5) {s : State} : Ends (execCrest d a b s) := by
  unfold execCrest
  simp only [outsideTx_ends, supervisorOnly_ends, withControls_ends]
  intros
  (repeat' split) <;> simp

/-! ### Services -/

/-- Whatever a service answers, its event ends in a next state. -/
@[simp] theorem service_ends (k n : Nat) (body : Ask → State → Answer) (s : State) : Ends (service k n body s) := by
  unfold service
  (repeat' split) <;> simp

@[simp] theorem execServiceComplete_ends (n : Nat) {s : State} : Ends (execServiceComplete n s) := by
  unfold execServiceComplete
  dsimp only
  (repeat' split) <;> simp

/-! ### The package -/

@[simp] theorem spdm_ends (k : Nat) (x : Word) (ws : List Word) {s : State} : Ends (spdm k x ws s) := by simp [spdm]

@[simp] theorem execZclRemoteRequest_ends (pk op pa : Nat) (v : Word × Word) {s : State} :
    Ends (execZclRemoteRequest pk op pa v s) := by
  unfold execZclRemoteRequest
  dsimp only
  (repeat' split) <;> simp

@[simp] theorem execHostAtomicop_ends (op size pa : Nat) (x y : Word) {s : State} :
    Ends (execHostAtomicop op size pa x y s) := by
  unfold execHostAtomicop
  (repeat' split) <;> simp

@[simp] theorem execAppCoreLaunchStore_ends (core : Nat) (v : Word) {s : State} :
    Ends (execAppCoreLaunchStore core v s) := by
  unfold execAppCoreLaunchStore
  (repeat' split) <;> simp

@[simp] theorem execUifPop_ends (core : Nat) {s : State} : Ends (execUifPop core s) := by
  unfold execUifPop
  dsimp only
  (repeat' split) <;> simp

@[simp] theorem execApplicationCoreAccess_ends (core op size pa : Nat) (v : Word) {s : State} :
    Ends (execApplicationCoreAccess core op size pa v s) := by
  unfold execApplicationCoreAccess
  dsimp only
  (repeat' split) <;> simp

/-! ### Fetch -/

@[simp] theorem execInstructionFetchMissFill_ends (b r k : Nat) {s : State} :
    Ends (execInstructionFetchMissFill b r k s) := by
  unfold execInstructionFetchMissFill
  (repeat' split) <;> simp

end Sys2Proof.Machine
end

section
/-! PROOFS. No step ends in a fault or a refusal (R62, R64, R374, R380). -/

namespace Sys2Proof.Machine

/-- Every instruction and event ends in a next state: those whose definition only puts the operations above together are
unfolded, the others have a lemma of their own. -/
theorem exec_ends (i : Instr) (s : State) : Ends (exec i s) := by
  cases i
  all_goals dsimp only [exec]
  all_goals simp [
    execSplit, execRgn, execJoin, execJoinH, execFuse, execBmodeWrite, execBmodeSwitchEnd, execBra, execBH, execBq,
    execBnq, execBqH, execBnqH, execBcmp, execBcmpi, execLoopn, execLoopns, execCall, execBl, execJr, execJl, execCallr,
    execRet, execRetH, execIfq, execMul, execMulh, execMulhz, execMulhsz, execDiv, execDivz, execRem, execRemz,
    execMultiplyResult, execFpLongResult, execMrd, execMwr, execRempty, execRfull, execRtest, execNwrE, execNwrW, execLox,
    execMox, execLd, execSt, execLdIndexed, execStIndexed, execLdlH, execStlH, execCpf, execCpfw, execCwb, execCflush,
    execIinv, execFence, execFenceAcq, execFenceRel, execFenceXp, execStrel, execBmov, execBmovd, execBfill, execBscanEq,
    execBscanNe, execLdfe, execLdff, execStfe, execStff, execFeclr, execAmoadd, execAmoand, execAmoor, execAmoxor,
    execAmomin, execAmomax, execAmominz, execAmomaxz, execAmoxchg, execAmofadd, execRupd, execRupdAddzZ64,
    execRupdAddzZ32, execMondis, execMonwait, execMonstatWakeWrite, execHmsg, execBarcfg, execBararv, execBarwait,
    execBarsync, execWaitlt, execWaitltr, execFadd, execFsub, execFmul, execFma, execFnma, execFmin, execFmax, execFsgnj,
    execFsgnjn, execFsgnjx, execFclass, execFldexp, execFmxsc, execFdiv, execFsqrt, execFrcp, execFrsqrt, execFexp2,
    execFlog2, execFsinpi, execFcospi, execFrint, execVldexp, execVcmp, execVbcast, execVrsum, execVrmax, execVrmin,
    execVramax, execVext, execVins, execVrot, execVcvt, execVseq, execVld, execVst, execVlds, execVsts, execVgath,
    execVscat, execSbindIn, execSbindOut, execSdrain, execSstat, execCopy, execCopyg, execCopyf, execMxldb, execMxmma,
    execMxrot, execMxswap, execMxclr, execMxldacc, execMxstacc, execMxscale, execMxrmax, execMxquotaMv, execMxquotaWt,
    execMxteam, execTbegin, execTabort, execTstat, execTxstatAbortreqWrite, execIrrevocablePreemptTimeout, execLaunch,
    execSpawn, execTake, execTakeL, execSyncj, execNest, execIxmov, execSubmissionWrite, execPlacementRound,
    execWriteUpdateAck, execFanoutTimeout, execKeepaliveLoss, execKeepaliveReturn, execMfs, execMts, execTrap, execEret,
    execEretN, execWatchdogExpire, execCstart, execCstop, execContextStop, execReplay, execReplayDrop, execTlbinv,
    execAtsInvalidateRequest, execBinfo, execBrack, execCmigChk, execCmig, execRehashHandover, execRehashFirstTouch,
    execCorrectedError, execPowerMeasure, execPowerBudgetAdjust, execGetVersion, execGetCapabilities,
    execNegotiateAlgorithms, execGetDigests, execGetCertificate, execChallenge, execGetMeasurements,
    execConfigurationRequest, execHostCxlMemAccess, execHostCxlCacheSnoop, execHmsgRingHeadWrite, execNotifyRingHeadWrite,
    execNotifyOverflowClear, execIllegalH, execIssueCycle, execAdd, execSub, execAnd, execOr, execXor, execAndn, execOrn,
    execXnor, execShl, execShr, execSra, execRor, execMin, execMax, execMinz, execMaxz, execAdds, execSubs, execAddzs,
    execSubzs, execShadd, execExt, execExtz, execIns, execClz, execCtz, execCls, execPopc, execBrev, execBswap, execBperm,
    execAddi, execAndi, execOri, execXori, execShli, execShri, execSrai, execRori, execExti, execExtzi, execInsi, execLui,
    execAddpc, execCmpi, execCmp, execSel, execMvqr, execMvrq, execPand, execPor, execPxor, execPandn, execPorn, execMovH,
    execAddH, execSubH, execAndH, execOrH, execXorH, execShliH, execShriH, execAddiH, execMoviH, execNopH, execVadd,
    execVsub, execVmul, execVfma, execVfnma, execVmin, execVmax, execVabs, execVneg, execVexp2, execVrcp, execVrsqrt,
    execVlog2, execVand, execVor, execVxor, execVshl, execVshr, execVsra, execVminz, execVmaxz, execVadds, execVsubs,
    execVaddzs, execVsubzs, execVmov, execVperm, execIdent, execBasinCreate, execBasinDestroy, execBasinResize,
    execBasinStatus, execQueueConfig, execQueueStatus, execLaunchCancel, execHmsgqConfig, execNotifyConfig, execUifConfig,
    execCoreStart, execCoreStop, execCoreStatus, execHostWindow, execErrlogRead, execErrlogClear, execRetireRequest,
    execSpareStatus, execPowerLimit, execPowerStatus, execTelemetry, execImageStage, execImageSwitch, execImageStatus,
    execMeasureRead, execZclConfig, execZclStatus, execZclGrant, execTimeSync, execEventRing, execEcho, execBrk,
    execHaltH, execVote, execBallot, execShfl, execHbmWriteback, execMonitorTrigger, execFcmp, execFcvt,
    execContextHalted, execLinkRouteLoss, execRouteReturn, execGuestKeepaliveLoss, execPackageReset, execIllegal,
    execExtensionSpace, execPoolguard]

@[simp] theorem State.runAct_ends (a : Act) (s : State) : Ends (s.runAct a) := by
  cases a with
  | instr i => exact exec_ends i s
  | pool => exact exec_ends (.poolguard 0) s
  | illegal => exact exec_ends (.illegal 0) s
  | extension => exact exec_ends (.extensionSpace 0) s
  | reserved => exact trapped_ends _ _

theorem State.breaksTeam_ends (s : State) (u : DUnit) : Ends (s.breaksTeam u) := by
  simp [State.breaksTeam]

theorem State.poisonedLane_ends (t : State) (u : DUnit) (v : Bool) : Ends (t.poisonedLane u v) := by
  unfold State.poisonedLane
  extract_lets r illegal
  split
  · exact State.runAct_ends _ _
  · exact trapped_ends _ _

theorem State.runLane_ends (s : State) (u : DUnit) (pc : Word) (p : Pos) : Ends (s.runLane u pc p) := by
  unfold State.runLane
  extract_lets t c
  split
  · simp
  · split
    · simp
    · exact State.poisonedLane_ends _ _ _
    · simp
    · split
      · exact State.breaksTeam_ends _ _
      · exact State.runAct_ends _ _

theorem State.runLanes_ends (u : DUnit) (pc : Word) (ps : List Pos) (s : State) : Ends (State.runLanes u pc ps s) := by
  induction ps generalizing s with
  | nil => exact ends_next _
  | cons p ps ih =>
    obtain ⟨t, ht⟩ := s.runLane_ends u pc p
    rw [State.runLanes, ht]
    exact ih t

theorem State.runUnit_ends (s : State) (u : DUnit) (pc : Word) (p : Pos) (ps : List Pos) : Ends (s.runUnit u pc p ps) := by
  obtain ⟨t, ht⟩ := State.runLanes_ends u pc ((s.enter u ps).laneOrder u ps) (s.enter u ps)
  unfold State.runUnit
  dsimp only
  rw [ht]
  (repeat' split) <;> exact ends_next _

theorem State.issueUnit_ends (s : State) (p0 : Pos) : Ends (s.issueUnit p0) := by
  unfold State.issueUnit
  split
  · simp
  · extract_lets ps p
    split
    dsimp only
    split
    · simp
    · split
      · simp
      · split
        · simp
        · simp
        · simp
        · simp
        · split
          · simp
          · exact State.runUnit_ends _ _ _ _ _

theorem State.issue_ends (s : State) (p0 : Pos) : Ends (s.issue p0) := by
  obtain ⟨t, ht⟩ := (s.endWait p0).issueUnit_ends p0
  unfold State.issue
  dsimp only
  rw [ht]
  split <;> exact ends_next _

theorem step_ends (s : State) : Ends (step s) := by
  unfold step
  split
  · exact exec_ends _ _
  · split
    · exact State.issue_ends _ _
    · exact ends_next _

/-- Settles O56: the operations of which instructions and events are made end in a next state, and so do the lanes of a unit,
one after another. -/
theorem neverStops : Obligations.NeverStops := ⟨exec_ends, step_ends⟩

end Sys2Proof.Machine
end

section
/-! PROOFS. Loops, jumps, calls and returns (R38, R84, R86, R90 to R92, R211). -/

namespace Sys2Proof.Machine

/-! ### Operands and targets -/

theorem withControl_of_clean {s : State} {r : BitVec 5} (k : Word → Res) (h : s.clean r) : withControl s r k = k (s.val r) :=
  let ⟨hf, hp⟩ := h
  withControl_clean k hf hp

theorem withControls_of_clean {s : State} {a b : BitVec 5} (k : Word → Word → Res) (ha : s.clean a) (hb : s.clean b) :
    withControls s a b k = k (s.val a) (s.val b) :=
  let ⟨fa, pa⟩ := ha
  let ⟨fb, pb⟩ := hb
  withControls_clean k fa fb pa pb

theorem checkTarget_odd {s : State} {t : Word} (k : Res) (h : bit t 0 = true) :
    checkTarget s t k = .next (s.trapTo 0x06 t) := if_pos h

theorem checkTarget_beyond {s : State} {t : Word} (k : Res) (h0 : bit t 0 = false) (h : field t 63 56 ≠ 0) :
    checkTarget s t k = .next (s.trapTo 0x09 t) := by
  simp [checkTarget, trapped, h0, h]

theorem checkTarget_local {s : State} {t : Word} (k : Res) (h0 : bit t 0 = false) (h1 : field t 63 56 = 0)
    (h : bit t 55 = true) : checkTarget s t k = .next (s.trapTo 0x0A t) := by
  simp [checkTarget, trapped, h0, h1, h]

/-! ### Loops (R90) -/

theorem countDown_not_taken (s : State) (a : BitVec 5) (v t : Word) :
    countDown s a v false t = .next (s.modMe fun c => c.setReg a v false).advance := rfl

theorem countDown_taken {s : State} {t : Word} (a : BitVec 5) (v : Word) (h : goodTarget t) :
    countDown s a v true t = .next ((s.modMe fun c => c.setReg a v false).jump t) := checkTarget_good _ h

theorem exec_loopn {s : State} {a : BitVec 5} (p : BitVec 12) (ha : s.clean a) :
    exec (.loopn a p) s = countDown s a (s.val a - 1) (s.val a - 1 != 0) (s.relTarget p) :=
  withControl_of_clean (fun x => countDown s a (x - 1) (x - 1 != 0) (s.relTarget p)) ha

theorem exec_loopns {s : State} {a b : BitVec 5} (p : BitVec 12) (ha : s.clean a) (hb : s.clean b) :
    exec (.loopns a b p) s
      = countDown s a (s.val a - s.val b) (decide (0 < (s.val a - s.val b).toInt)) (s.relTarget p) :=
  withControls_of_clean (fun x y => countDown s a (x - y) ((0 : Word).slt (x - y)) (s.relTarget p)) ha hb

/-- Settles O5: each form is countDown with its test, which writes the counter on both of its outcomes. -/
theorem loopResults : Obligations.LoopResults := by
  intro s a b p ha
  refine ⟨⟨fun hv => ?_, fun hv ht => ?_⟩, fun hb => ⟨fun hv => ?_, fun hv ht => ?_⟩⟩
  · rw [exec_loopn p ha, bne_eq_false_iff_eq.2 hv, countDown_not_taken]
  · rw [exec_loopn p ha, bne_iff_ne.2 hv]
    exact countDown_taken a _ ht
  · rw [exec_loopns p ha hb, decide_eq_false (not_lt.2 hv), countDown_not_taken]
  · rw [exec_loopns p ha hb, decide_eq_true hv]
    exact countDown_taken a _ ht

/-! ### Windows of calls and returns (R84, R86, R211) -/

theorem opening_fits {s : State} (t : Word) (h : s.me.resident < 3 ∨ (s.me.resident = 3 ∧ s.moving false = false)) :
    opening s t = .next ((s.modMe fun c => c.openWindow s.nextPc).jump t) := by
  unfold opening
  rw [if_neg (by omega), if_neg]
  rcases h with h | ⟨-, hm⟩
  · simp [Nat.ne_of_lt h]
  · simp [hm]

theorem opening_overflow {s : State} (t : Word) (h4 : 4 ≤ s.me.resident) (hm : s.moving true = false)
    (hl : min (s.sr 0x032).toNat 0x30000 < (s.sr 0x030).toNat + 136) : opening s t = .next (s.trapTo 0x14 (s.sr 0x030)) := by
  unfold opening windowLimit
  rw [if_pos h4, if_pos (by simp [hm, hl])]
  rfl

theorem closing_fits {s : State} (t : Word) (h : 2 < s.me.resident ∨ (s.me.resident = 2 ∧ s.moving true = false))
    (ht : s.tokenInWindow = false) : closing s t = .next ((s.modMe Ctx.closeWindow).jump t) := by
  unfold closing
  rw [if_neg (by omega), if_neg, if_neg (by simp [ht])]
  rcases h with h | ⟨-, hm⟩
  · simp [Nat.ne_of_gt h]
  · simp [hm]

theorem closing_overflow {s : State} (t : Word) (h1 : s.me.resident ≤ 1) (hl : (s.sr 0x030).toNat < (s.sr 0x031).toNat + 136) :
    closing s t = .next (s.trapTo 0x14 (s.sr 0x030 + 0x8000000000000000)) := by
  unfold closing
  rw [if_pos h1, if_pos hl]
  rfl

/-! ### Jumps, calls and returns (R91, R92) -/

theorem exec_bl {s : State} {p : BitVec 20} (h : goodTarget (s.relTarget p)) :
    exec (.bl p) s = .next ((s.modMe fun c => c.setReg 7 s.nextPc false).jump (s.relTarget p)) := checkTarget_good _ h

theorem exec_call {s : State} {p : BitVec 20} (h : goodTarget (s.relTarget p)) :
    exec (.call p) s = opening s (s.relTarget p) := checkTarget_good _ h

theorem exec_jr {s : State} {a : BitVec 5} (ha : s.clean a) :
    exec (.jr a) s = checkTarget s (s.val a) (.next (s.jump (s.val a))) := withControl_of_clean (goTo s) ha

theorem exec_jl {s : State} (d : BitVec 5) {a : BitVec 5} (ha : s.clean a) :
    exec (.jl d a) s = checkTarget s (s.val a) (.next ((s.modMe fun c => c.setReg d s.nextPc false).jump (s.val a))) :=
  withControl_of_clean (fun t => checkTarget s t (.next ((s.modMe fun c => c.setReg d s.nextPc false).jump t))) ha

theorem exec_callr {s : State} {a : BitVec 5} (ha : s.clean a) :
    exec (.callr a) s = checkTarget s (s.val a) (opening s (s.val a)) :=
  withControl_of_clean (fun t => checkTarget s t (opening s t)) ha

/-- A return checks its target like a jump; in a transaction it goes on when it leaves the checkpoint's window open (R318). -/
theorem returning_clean {s : State} (major : Nat) (hc : s.clean 23) (ht : goodTarget (s.val 23))
    (hp : s.plain ∨ s.closesD0 = false) : returning s major = closing s (s.val 23) := by
  have body : withControl s 23 (fun t => checkTarget s t (closing s t)) = closing s (s.val 23) := by
    rw [withControl_of_clean _ hc, checkTarget_good _ ht]
  unfold returning
  rw [body]
  rcases hp with hp | hp
  · rw [outsideTx_plain hp, ite_self]
  · simp [hp]

theorem exec_returns {s : State} (hc : s.clean 23) (ht : goodTarget (s.val 23)) (hp : s.plain ∨ s.closesD0 = false) :
    exec .ret s = closing s (s.val 23) ∧ exec .retH s = closing s (s.val 23) :=
  ⟨returning_clean 0x26 hc ht hp, returning_clean 0x4F hc ht hp⟩

/-- Whatever a register jump does at its target, it checks the target first. -/
theorem exec_registerJumps {s : State} (d : BitVec 5) {a : BitVec 5} (ha : s.clean a) :
    ∀ i ∈ [Instr.jr a, .jl d a, .callr a], ∃ k, exec i s = checkTarget s (s.val a) k := by
  simp only [List.forall_mem_cons, List.not_mem_nil, false_implies, implies_true, and_true]
  exact ⟨⟨_, exec_jr ha⟩, ⟨_, exec_jl d ha⟩, ⟨_, exec_callr ha⟩⟩

/-- Settles O6: a form checks its target and then goes on by `opening` or `closing`, of which each condition on the resident
windows selects one branch. -/
theorem jumpResults : Obligations.JumpResults := by
  refine ⟨fun s d a p => ⟨fun ht => ⟨exec_bl ht, fun h => (exec_call ht).trans (opening_fits _ h)⟩, fun ha ht => ?_,
    fun hc ht h hk hp => ?_, fun h4 hm hl => ⟨fun ht => (exec_call ht).trans (opening_overflow _ h4 hm hl), fun ha ht => ?_⟩,
    fun hc ht h1 hl hp => ?_⟩, fun s d a ha i hi => ?_⟩
  · rw [exec_jr ha, exec_jl d ha, exec_callr ha, checkTarget_good _ ht, checkTarget_good _ ht, checkTarget_good _ ht]
    exact ⟨rfl, rfl, opening_fits _⟩
  · obtain ⟨hr, hrh⟩ := exec_returns hc ht hp
    exact ⟨hr.trans (closing_fits _ h hk), hrh.trans (closing_fits _ h hk)⟩
  · rw [exec_callr ha, checkTarget_good _ ht, opening_overflow _ h4 hm hl]
  · obtain ⟨hr, hrh⟩ := exec_returns hc ht hp
    exact ⟨hr.trans (closing_overflow _ h1 hl), hrh.trans (closing_overflow _ h1 hl)⟩
  · obtain ⟨k, hk⟩ := exec_registerJumps d ha i hi
    rw [hk]
    exact ⟨checkTarget_odd k, checkTarget_beyond k, checkTarget_local k⟩

end Sys2Proof.Machine
end

section
/-! PROOFS. Group instructions, JOIN and the REJOIN entries (R97 to R104, R107, R110). -/

namespace Sys2Proof.Machine

/-! ### Who carries a group instruction out -/

theorem groupWise_unfused {s : State} (alone : Res) (whole : Group → Res) (first : List Nat) (h : s.unfused = true) :
    groupWise s alone whole first = alone := if_pos h

/-- The lowest lane that carries the unit out acts for its group. -/
theorem groupWise_first {s : State} {g : Group} {first : List Nat} (alone : Res) (whole : Group → Res)
    (hu : s.unfused = false) (hf : first.head? = some s.cur.r) (hg : s.groupOf s.cur = some g) :
    groupWise s alone whole first = whole g := by
  simp [groupWise, hu, hf, hg]

theorem State.head_of_leads {s : State} (h : s.leads = true) : s.acting.head? = some s.cur.r := beq_iff_eq.1 h

/-! ### System registers that an end of the unit leaves -/

theorem State.sr_modMe {s : State} {f : Ctx → Ctx} (h : (f s.me).sr = s.me.sr) (n : Nat) : (s.modMe f).sr n = s.sr n := by
  change (Ctx.sr (State.me (s.modMe f))).get _ n = s.me.sr.get _ n
  rw [State.me_modMe, h]
  rfl

theorem State.sr_advance (s : State) (n : Nat) : s.advance.sr n = s.sr n := State.sr_modMe rfl n

/-! ### V of the REJOIN entries (R103, R106, R107) -/

/-- V of the entries js of the executing thread is cleared, as JOIN and BRK do it. -/
def State.clearEntries (s : State) (js : List Nat) : State :=
  js.foldl (fun t j => t.setSr t.cur (0x090 + j) (setField (t.sr (0x090 + j)) 0 0 0)) s

theorem State.clearEntries_nextPc (s : State) (js : List Nat) : (s.clearEntries js).nextPc = s.nextPc :=
  List.foldlRecOn js _ (motive := fun t : State => t.nextPc = s.nextPc) rfl fun _ h _ _ => h

/-- Each of the entries has lost its V, every other is as before. -/
theorem State.clearEntries_sr (s : State) {js : List Nat} (hn : js.Nodup) (j : Nat) :
    (s.clearEntries js).sr (0x090 + j) = if j ∈ js then setField (s.sr (0x090 + j)) 0 0 0 else s.sr (0x090 + j) := by
  induction js generalizing s with
  | nil => rfl
  | cons i js ih =>
    obtain ⟨hi, hn⟩ := List.nodup_cons.1 hn
    refine (ih (s.setSr s.cur (0x090 + i) (setField (s.sr (0x090 + i)) 0 0 0)) hn).trans ?_
    by_cases hj : j = i
    · subst hj
      rw [if_neg hi, if_pos List.mem_cons_self]
      exact s.srAt_setSr _ _ _
    · rw [State.sr, State.setSr_cur, State.srAt_setSr_other _ _ _ (by omega)]
      simp [hj, State.sr]

theorem bit_setField_zero (x : Word) : bit (setField x 0 0 0) 0 = false := by
  simp [bit, setField, field]
  omega

/-- The valid entries among the lowest n. -/
def State.validEntries (s : State) (n : Nat) : List Nat := (List.range n).filter fun i => bit (s.sr (0x090 + i)) 0

theorem State.validEntries_nodup (s : State) (n : Nat) : (s.validEntries n).Nodup := List.nodup_range.filter _

theorem State.mem_validEntries {s : State} {n j : Nat} : j ∈ s.validEntries n ↔ j < n ∧ bit (s.sr (0x090 + j)) 0 = true := by
  simp [State.validEntries]

theorem State.validEntries_none {s : State} {n : Nat} (h : ∀ i < n, bit (s.sr (0x090 + i)) 0 = false) : s.validEntries n = [] :=
  List.filter_eq_nil_iff.2 fun i hi => by simp [h i (List.mem_range.1 hi)]

theorem State.clearEntries_valid_below (s : State) {n j : Nat} (h : j < n) :
    bit ((s.clearEntries (s.validEntries n)).sr (0x090 + j)) 0 = false := by
  rw [s.clearEntries_sr (s.validEntries_nodup n)]
  split
  · exact bit_setField_zero _
  · next hm => simpa [State.mem_validEntries, h] using hm

theorem State.clearEntries_valid_above (s : State) {n j : Nat} (h : n ≤ j) :
    (s.clearEntries (s.validEntries n)).sr (0x090 + j) = s.sr (0x090 + j) := by
  rw [s.clearEntries_sr (s.validEntries_nodup n), if_neg]
  simp [State.mem_validEntries, Nat.not_lt.2 h]

/-! ### JOIN of an unfused thread (R107) -/

theorem State.entryFor_none {s : State} (x : Word) (h : ∀ i < 8, bit (s.sr (0x090 + i)) 0 = false) : s.entryFor x = none := by
  refine List.find?_eq_none.2 fun i hi => ?_
  simp [h i (List.mem_range.1 hi)]

/-- Entry i is the lowest valid one that names x. -/
theorem State.entryFor_eq_some {s : State} {x : Word} {i : Nat} (hi : i < 8) (hv : bit (s.sr (0x090 + i)) 0 = true)
    (hx : field (s.sr (0x090 + i)) 55 1 = field x 55 1)
    (hlow : ∀ j < i, bit (s.sr (0x090 + j)) 0 = true → field (s.sr (0x090 + j)) 55 1 ≠ field x 55 1) :
    s.entryFor x = some i := by
  refine List.find?_range_eq_some.2 ⟨by simp [hv, hx], List.mem_range.2 hi, fun j hj => ?_⟩
  simpa [imp_iff_not_or] using hlow j hj

theorem State.fuseInvalid_eq_true {s : State} {mask : Nat}
    (h : hasBit mask s.cur.r = false ∨ countOnes 8 mask < 2 ∨ s.cur.k = 15) : s.fuseInvalid mask = true := by
  simpa [State.fuseInvalid, or_assoc] using h

theorem State.fuseInvalid_eq_false {s : State} {mask : Nat} (hb : hasBit mask s.cur.r = true) (h2 : 2 ≤ countOnes 8 mask)
    (hk : s.cur.k ≠ 15) : s.fuseInvalid mask = false := by
  simp [State.fuseInvalid, hb, Nat.lt_of_succ_le h2, hk]

theorem joinAlone_no_entry {s : State} (hp : s.plain) (h : s.entryFor s.ipc = none) : joinAlone s = .next s.advance := by
  unfold State.plain at hp
  simp [joinAlone, hp, h]

theorem joinAlone_invalid {s : State} {i : Nat} (hp : s.plain) (h : s.entryFor s.ipc = some i)
    (hf : s.fuseInvalid (field (s.sr (0x090 + i)) 63 56) = true) :
    joinAlone s = .next (s.setEntries s.cur []).advance := by
  unfold State.plain at hp
  simp [joinAlone, hp, h, hf]

/-- The implicit FUSE of entry i: the valid entries up to it are cleared, and the thread waits for the lanes that it names. -/
theorem joinAlone_waits {s : State} {i : Nat} (hp : s.plain) (h : s.entryFor s.ipc = some i)
    (hf : s.fuseInvalid (field (s.sr (0x090 + i)) 63 56) = false) :
    ∃ cleared, joinAlone s = .next ((s.clearEntries (s.validEntries (i + 1))).modMe fun c => { c with
      wait := some (.fuse (field (s.sr (0x090 + i)) 63 56) (field (s.sr 0x060) 15 0) (field (s.sr 0x060) 63 32)
        (if field (s.sr 0x060) 63 32 = 0 then 0 else s.cycle + field (s.sr 0x060) 63 32) .none true cleared s.nextPc)
      pc := s.upc, took := false }) := by
  unfold State.plain at hp
  refine ⟨(s.validEntries (i + 1)).foldl (fun m j => m + 2 ^ j) 0, ?_⟩
  simp only [joinAlone, hp, h, hf, Bool.false_eq_true, if_false]
  rfl

theorem exec_join_unfused {s : State} (hu : s.unfused = true) : exec .join s = joinAlone s :=
  groupWise_unfused (joinAlone s) _ s.acting hu

theorem exec_joinH_eq_join (s : State) : exec .joinH s = exec .join s := rfl

/-- What JOIN does in an unfused thread that finds entry i (R107). -/
theorem exec_join_entry {s : State} {i : Nat} (hp : s.plain) (hu : s.unfused = true) (he : s.entryFor s.ipc = some i) :
    let mask := field (s.sr (0x090 + i)) 63 56
    let limit := field (s.sr 0x060) 63 32
    (hasBit mask s.cur.r = false ∨ countOnes 8 mask < 2 ∨ s.cur.k = 15 →
      exec .join s = .next (s.setEntries s.cur []).advance)
    ∧ (hasBit mask s.cur.r = true → 2 ≤ countOnes 8 mask → s.cur.k ≠ 15 → ∃ t cleared, exec .join s = .next t
        ∧ t.me.wait = some (.fuse mask (field (s.sr 0x060) 15 0) limit (if limit = 0 then 0 else s.cycle + limit) .none
            true cleared s.nextPc)
        ∧ t.me.pc = s.upc ∧ (∀ j ≤ i, bit (t.sr (0x090 + j)) 0 = false)
        ∧ ∀ j, i < j → j < 8 → t.sr (0x090 + j) = s.sr (0x090 + j)) := by
  rw [exec_join_unfused hu]
  refine ⟨fun h => joinAlone_invalid hp he (State.fuseInvalid_eq_true h), fun hb h2 hk => ?_⟩
  obtain ⟨cleared, hj⟩ := joinAlone_waits hp he (State.fuseInvalid_eq_false hb h2 hk)
  refine ⟨_, cleared, hj, by rw [State.me_modMe], by rw [State.me_modMe], fun j hle => ?_, fun j hlt _ => ?_⟩
  · rw [State.sr_modMe rfl]
    exact s.clearEntries_valid_below (Nat.lt_succ_of_le hle)
  · rw [State.sr_modMe rfl]
    exact s.clearEntries_valid_above hlt

/-! ### BRK of an unfused thread (R103) -/

theorem exec_brk_unfused {s : State} (n : BitVec 5) (hu : s.unfused = true) :
    exec (.brk n) s = .next (s.clearEntries ((s.validEntries 8).take n.toNat)).advance := groupWise_unfused _ _ s.acting hu

/-- BRK clears the n lowest valid entries and goes on. -/
theorem exec_brk_entries {s : State} (n : BitVec 5) (hu : s.unfused = true) :
    ∃ t, exec (.brk n) s = .next t ∧ t.me.pc = s.nextPc
      ∧ (∀ j ∈ (s.validEntries 8).take n.toNat, t.sr (0x090 + j) = setField (s.sr (0x090 + j)) 0 0 0)
      ∧ ∀ j < 8, j ∉ (s.validEntries 8).take n.toNat → t.sr (0x090 + j) = s.sr (0x090 + j) := by
  have hn : ((s.validEntries 8).take n.toNat).Nodup := (s.validEntries_nodup 8).sublist (List.take_sublist _ _)
  refine ⟨_, exec_brk_unfused n hu, by rw [State.me_advance, s.clearEntries_nextPc], fun j hj => ?_, fun j _ hj => ?_⟩
  · rw [State.sr_advance, s.clearEntries_sr hn, if_pos hj]
  · rw [State.sr_advance, s.clearEntries_sr hn, if_neg hj]

/-! ### HALT.H (R93, R104) -/

theorem exec_haltH_unfused {s : State} (hp : s.plain) (hu : s.unfused = true) :
    exec .haltH s = .next (s.haltAt s.cur).advance :=
  (outsideTx_plain hp 0x53 _).trans (groupWise_unfused _ _ s.actingOutsideTx hu)

/-- The lanes rs of the executing position halt. -/
def State.haltLanes (s : State) (rs : List Nat) : State := rs.foldl (fun t r => t.haltAt (t.lane r)) s

theorem State.haltAt_halting (s : State) (p : Pos) : ((s.haltAt p).ctx p).halting = true := by
  rw [State.haltAt, State.ctx_modCtx]

theorem State.haltAt_keeps_halting (s : State) (p q : Pos) (h : (s.ctx q).halting = true) :
    ((s.haltAt p).ctx q).halting = true := by
  by_cases hk : q.key = p.key
  · have e : (s.haltAt p).ctx q = (s.haltAt p).ctx p := by simp [State.ctx, hk]
    rw [e, State.haltAt_halting]
  · rwa [State.haltAt, State.ctx_modCtx_other _ _ hk]

theorem State.haltLanes_keeps_halting (s : State) (rs : List Nat) (q : Pos) (h : (s.ctx q).halting = true) :
    ((s.haltLanes rs).ctx q).halting = true :=
  List.foldlRecOn rs _ (motive := fun t : State => (t.ctx q).halting = true) h fun t ht r _ =>
    t.haltAt_keeps_halting (t.lane r) q ht

theorem State.haltLanes_halting (s : State) {rs : List Nat} {r : Nat} (h : r ∈ rs) :
    ((s.haltLanes rs).ctx (s.lane r)).halting = true := by
  induction rs generalizing s with
  | nil => cases h
  | cons n rs ih =>
    rcases List.mem_cons.1 h with rfl | h
    · exact State.haltLanes_keeps_halting _ rs _ (s.haltAt_halting (s.lane r))
    · exact ih (s.haltAt (s.lane n)) h

/-- What HALT.H leaves of its group. -/
def State.haltedGroup (s : State) (g : Group) : Group :=
  let x := s.actingOutsideTx.foldl (fun m r => m + 2 ^ r) 0
  { g with mask := maskMinus g.mask x, active := maskMinus g.active x, stack := haltStack x g.stack, pc := s.nextPc }

/-- HALT.H of a group: its lanes halt, and the group goes on while two lanes are left (R104). -/
theorem exec_haltH_group {s : State} {g : Group} (hp : s.plain) (hu : s.unfused = false)
    (hf : s.actingOutsideTx.head? = some s.cur.r) (hg : s.groupOf s.cur = some g) :
    exec .haltH s =
      if countOnes 8 (s.haltedGroup g).mask ≤ 1 then
        .next { (((s.haltLanes s.actingOutsideTx).modGroup s.cur.b g.k s.cur.r fun _ => s.haltedGroup g).oneLeft s.cur.b
          (s.haltedGroup g)).advance with moved := true }
      else .next { ((s.haltLanes s.actingOutsideTx).modGroup s.cur.b g.k s.cur.r fun _ => (s.haltedGroup g).settled).advance
        with moved := true } :=
  (outsideTx_plain hp 0x53 _).trans (groupWise_first _ _ hu hf hg)

/-! ### SPLIT, RGN, JOIN and BRK of a group (R98 to R103, R110) -/

section leading
variable {s : State} {g : Group} (hu : s.unfused = false) (hl : s.leads = true) (hg : s.groupOf s.cur = some g)
include hu hl hg

theorem exec_split_group : exec .split s = .next (s.splitUnit g 0x15).advance :=
  groupWise_first _ _ hu (State.head_of_leads hl) hg

theorem exec_rgn_group (p : BitVec 15) :
    exec (.rgn p) s = if g.stack.length ≥ 8 then .next (s.splitUnit g 0x15).advance
      else .next ((s.modGroup s.cur.b g.k s.cur.r fun x =>
        { x with stack := .region (s.relTarget p) g.active 0 :: x.stack }).advance) :=
  groupWise_first _ _ hu (State.head_of_leads hl) hg

theorem exec_join_group :
    exec .join s = .next { (s.modGroup s.cur.b g.k s.cur.r fun x => (x.join s.nextPc).settled).advance with moved := true } :=
  groupWise_first (joinAlone s) _ hu (State.head_of_leads hl) hg

theorem exec_brk_group (n : BitVec 5) :
    exec (.brk n) s = if n.toNat ≥ (g.stack.filter isRegion).length then .next (s.splitUnit g 0x15).advance
      else .next { (s.modGroup s.cur.b g.k s.cur.r fun y =>
        ({ y with stack := brkStack (s.acting.foldl (fun m r => m + 2 ^ r) 0) (n.toNat + 1) y.stack
                  active := maskMinus y.active (s.acting.foldl (fun m r => m + 2 ^ r) 0)
                  pc := s.nextPc } : Group).settled).advance with moved := true } :=
  groupWise_first _ _ hu (State.head_of_leads hl) hg

end leading

/-! ### The reconvergence stack (R101, R102) -/

theorem settle_of_active {a : Nat} (h : a ≠ 0) (pc : Word) (st : List StackEntry) : settle a pc st = (a, pc, st) := by
  cases st with
  | nil => rfl
  | cons e st => cases e <;> simp [settle, h]

/-- Lanes are left inactive only when nothing is left to run them from (R102). -/
theorem settle_stack_of_inactive (a : Nat) (pc : Word) (st : List StackEntry) (h : (settle a pc st).1 = 0) :
    (settle a pc st).2.2 = [] := by
  induction st generalizing a pc with
  | nil => rfl
  | cons e st ih =>
    by_cases ha : a = 0
    · subst ha
      cases e with
      | path rpc d => exact ih d rpc h
      | region jpc cover pend =>
        by_cases hp : pend = 0
        · subst hp
          exact ih 0 pc h
        · simp [settle, hp] at h
    · rw [settle_of_active ha] at h
      exact absurd h ha

theorem Group.settled_of_active {g : Group} (h : g.active ≠ 0) : g.settled = g := by
  rw [Group.settled, settle_of_active h]

theorem Group.settled_stack {g : Group} (h : g.settled.active = 0) : g.settled.stack = [] :=
  settle_stack_of_inactive g.active g.pc g.stack h

theorem Group.join_of_empty {g : Group} (next : Word) (h : g.stack = []) : g.join next = { g with pc := next } := by
  rw [Group.join, h]

theorem Group.join_of_path {g : Group} (next : Word) {rpc : Word} {d : Nat} {t : List StackEntry}
    (h : g.stack = .path rpc d :: t) :
    g.join next = { g with stack := pendTop g.active t, active := d, pc := rpc } := by
  rw [Group.join, h]

theorem Group.join_of_region {g : Group} (next : Word) {jpc : Word} {cover pend : Nat} {t : List StackEntry}
    (h : g.stack = .region jpc cover pend :: t) :
    g.join next = { g with stack := t, active := pend ||| g.active, pc := next } := by
  rw [Group.join, h]

theorem State.oneLeft_of_one (s : State) (b : Nat) {g : Group} (h : countOnes 8 g.mask = 1) :
    s.oneLeft b g = s.splitGroup b g (fun _ => 0x15) (some g.pc) := if_pos h

theorem State.oneLeft_of_none (s : State) (b : Nat) {g : Group} (h : g.mask = 0) : s.oneLeft b g = s.dropGroup b g.k 0 := by
  rw [State.oneLeft, h, if_neg (by decide), if_pos rfl]

/-- Settles O11: an unfused thread takes the alone part of each form, the lowest lane of a group the whole part. -/
theorem groupResults : Obligations.GroupResults := by
  refine ⟨fun s p n hp => ⟨fun hu => ?_, fun g hu hf hg => ?_, fun g hu hl hg => ?_⟩, fun g next => ?_⟩
  · refine ⟨groupWise_unfused _ _ s.acting hu, groupWise_unfused _ _ s.acting hu, fun h => ?_, fun i hi hv hx hlow => ?_,
      exec_brk_entries n hu, exec_haltH_unfused hp hu⟩
    · have hj : exec .join s = .next s.advance := (exec_join_unfused hu).trans (joinAlone_no_entry hp (State.entryFor_none _ h))
      refine ⟨hj, hj, ?_⟩
      rw [exec_brk_unfused n hu, State.validEntries_none h, List.take_nil]
      rfl
    · have join_entry := exec_join_entry hp hu (State.entryFor_eq_some hi hv hx hlow)
      simp only [List.forall_mem_cons, List.not_mem_nil, false_implies, implies_true, and_true, exec_joinH_eq_join, and_self]
      exact join_entry
  · refine ⟨fun h => ?_, fun h => ?_, fun r hr => s.haltLanes_halting hr⟩
    · exact (exec_haltH_group hp hu hf hg).trans (if_neg (Nat.not_le.2 h))
    · exact (exec_haltH_group hp hu hf hg).trans (if_pos (Nat.le_of_lt_succ h))
  · exact ⟨exec_split_group hu hl hg, fun h => (exec_rgn_group hu hl hg p).trans (if_pos h),
      fun h => (exec_rgn_group hu hl hg p).trans (if_neg (Nat.not_le.2 h)), exec_join_group hu hl hg, exec_joinH_eq_join s,
      fun h => (exec_brk_group hu hl hg n).trans (if_pos h), fun h => (exec_brk_group hu hl hg n).trans (if_neg (Nat.not_le.2 h))⟩
  · exact ⟨g.join_of_empty next, fun _ _ _ => g.join_of_path next, fun _ _ _ _ => g.join_of_region next, Group.settled_of_active,
      Group.settled_stack, fun s b => ⟨s.oneLeft_of_one b, s.oneLeft_of_none b⟩⟩

end Sys2Proof.Machine
end

section
/-! PROOFS. VOTE, BALLOT and SHFL of one thread (R111 to R113). -/

namespace Sys2Proof.Machine

/-! ### X of an unfused thread -/

theorem hasBit_eq_testBit (x i : Nat) : hasBit x i = x.testBit i := by
  rw [hasBit, Nat.testBit_eq_decide_div_mod_eq, beq_eq_decide]

section unfused
variable {s : State} (hu : s.unfused = true)
include hu

theorem State.groupOf_of_unfused : s.groupOf s.cur = none := by
  obtain ⟨hg, -⟩ := (Bool.and_eq_true _ _).mp hu
  exact Option.isNone_iff_eq_none.1 hg

/-- The executing lane is in X, which has one member. -/
theorem State.laneSet_of_unfused (hr : s.cur.r < 8) : s.laneSet = [s.cur.r] := by
  obtain ⟨-, hlen⟩ := (Bool.and_eq_true _ _).mp hu
  obtain ⟨r, hone⟩ := List.length_eq_one_iff.1 (beq_iff_eq.1 hlen)
  have hmem : s.cur.r ∈ s.laneSet := by simp [State.laneSet, lanes, hasBit_eq_testBit, hr]
  rw [hone] at hmem ⊢
  rw [List.mem_singleton.1 hmem]

theorem State.acting_of_unfused (hr : s.cur.r < 8) : s.acting = [s.cur.r] := by
  simp [State.acting, State.laneSet_of_unfused hu hr]

theorem State.leads_of_unfused (hr : s.cur.r < 8) : s.leads = true := by
  simp [State.leads, State.acting_of_unfused hu hr]

theorem State.lanePreds_of_unfused (hr : s.cur.r < 8) (q : BitVec 3) : s.lanePreds q = [(s.cur.r, s.me.pred q)] := by
  rw [State.lanePreds, State.laneSet_of_unfused hu hr]
  rfl

end unfused

/-! ### Exchange within one lane -/

/-- A thread alone reads itself, whatever the mode and the index. -/
theorem shflSource_alone (mode n : Nat) (b : Word) : shflSource mode (2 ^ n) n b = n := by
  have ok (j : Nat) : (if decide (j ≤ 7) && hasBit (2 ^ n) j then j else n) = n := by
    simp only [hasBit_eq_testBit, Nat.testBit_two_pow]
    split
    · next h => simp_all
    · rfl
  unfold shflSource
  dsimp only
  split
  · exact ok _
  · exact ok _
  · split
    · exact ok _
    · rfl
  · exact ok _

/-- VOTE over one lane: any and all give its predicate, and the test for agreement holds. The poison is the model's choice (log
entry 155). -/
theorem exec_vote_unfused {s : State} {qa : BitVec 3} {t : BitVec 2} (q : BitVec 3) (hu : s.unfused = true) (hr : s.cur.r < 8)
    (hq : s.readyQ qa) (ht : t ≠ 3) :
    exec (.vote q qa t) s = .next (s.putQ q (if t = 2 then true else s.valQ qa) (s.badQ qa)) := by
  change execVote q qa t s = _
  have modes : ∀ n : BitVec 2, n ≠ 3 → n = 0 ∨ n = 1 ∨ n = 2 := by decide
  rw [execVote, State.leads_of_unfused hu hr, State.lanePreds_of_unfused hu hr, State.acting_of_unfused hu hr]
  dsimp only
  rw [if_neg (by decide)]
  refine (if_pos ((Bool.and_true _).trans hq)).trans ?_
  rcases modes t ht with rfl | rfl | rfl
  · change Host.Outcome.next (s.putQ q (s.valQ qa || false) (s.badQ qa || false)) = _
    simp
  · change Host.Outcome.next (s.putQ q (s.valQ qa && true) (s.badQ qa || false)) = _
    simp
  · change Host.Outcome.next (s.putQ q (s.valQ qa && true || !s.valQ qa && true) (s.badQ qa || false)) = _
    simp

theorem exec_ballot_unfused {s : State} {qa : BitVec 3} (d : BitVec 5) (hu : s.unfused = true) (hr : s.cur.r < 8)
    (hq : s.readyQ qa) :
    exec (.ballot d qa) s = .next (s.put d (if s.valQ qa then w64 (2 ^ s.cur.r) else 0) false) := by
  change execBallot d qa s = _
  rw [execBallot, State.leads_of_unfused hu hr, State.lanePreds_of_unfused hu hr, State.acting_of_unfused hu hr]
  dsimp only
  rw [if_neg (by decide)]
  refine (if_pos ((Bool.and_true _).trans hq)).trans ?_
  change Host.Outcome.next (s.put d (w64 (if s.valQ qa then 0 + 2 ^ s.cur.r else 0)) false) = _
  rw [Nat.zero_add, apply_ite w64]
  rfl

theorem exec_shfl_unfused {s : State} {a b : BitVec 5} (d : BitVec 5) (m : BitVec 2) (hu : s.unfused = true) (hr : s.cur.r < 8)
    (ha : s.ready a) (hb : s.ready b) : exec (.shfl d a b m) s = .next (s.put d (s.val a) (s.bad a || s.bad b)) := by
  change execShfl d a b m s = _
  rw [execShfl, State.leads_of_unfused hu hr, State.acting_of_unfused hu hr, State.groupOf_of_unfused hu]
  simp only [List.map_cons, List.map_nil, shflSource_alone]
  rw [if_neg (by decide)]
  exact (if_pos ((Bool.and_true _).trans hb)).trans (if_pos ((Bool.and_true _).trans ha))

/-- Settles O12: X has the thread itself as its one lane, which leads, carries the unit out and is its own source. -/
theorem laneExchange : Obligations.LaneExchange := fun _ q _ _ d _ _ hu hr =>
  ⟨fun hq ht => ⟨exec_vote_unfused q hu hr hq ht, exec_ballot_unfused d hu hr hq⟩, exec_shfl_unfused d _ hu hr⟩

end Sys2Proof.Machine
end

section
/-! PROOFS. FUSE, the forming of groups and the cache mode (R26, R94, R95, R107, R115). -/

namespace Sys2Proof.Machine

/-! ### FUSE (R94, R95) -/

/-- FUSE of a thread outside a transaction: a lane of a group has 3, a FUSE that cannot wait 2, and another waits. -/
theorem exec_fuse_clean {s : State} (d : BitVec 5) {a b : BitVec 5} (hp : s.plain) (ha : s.clean a) (hb : s.clean b) :
    exec (.fuse d a b) s =
      if (s.groupOf s.cur).isSome then .next (s.put d 3 false)
      else if s.fuseInvalid (field (s.val a) 7 0) then .next (s.put d 2 false)
      else .next (s.modMe fun c => { c with
        wait := some (.fuse (field (s.val a) 7 0) (field (s.val a) 31 16) (field (s.val b) 31 0)
          (if field (s.val b) 31 0 = 0 then 0 else s.cycle + field (s.val b) 31 0) (c.dest d) false 0 s.nextPc)
        pc := s.upc, took := false }) :=
  (outsideTx_plain hp 0x28 _).trans (withControls_of_clean _ ha hb)

/-! ### Cache mode (R26, R115) -/

theorem State.braid_cacheMode_groups (s : State) (b : Nat) (shared : Bool) :
    ((s.cacheMode b shared).braid b).groups = (s.braid b).groups := by
  rw [State.cacheMode, State.braid_modBraid]
  split
  · rfl
  · split <;> rfl

theorem exec_bmodeWrite {s : State} (b : Nat) {r : Nat} (v : Word) (hr : r < 8) :
    exec (.bmodeWrite b r v) s = .next (s.cacheMode b (bit v 0)) := if_pos hr

/-- The last switch that waits ends: the mode stays. -/
theorem exec_bmodeSwitchEnd_last {s : State} {b : Nat} (hb : (s.braid b).busy = true) (hq : (s.braid b).modeQueue = []) :
    ∃ t, exec (.bmodeSwitchEnd b) s = .next t ∧ (t.braid b).busy = false ∧ (t.braid b).shared = (s.braid b).shared := by
  refine ⟨_, rfl, ?_⟩
  rw [State.braid_modBraid, hb, hq]
  exact ⟨rfl, rfl⟩

/-! ### Forming and time-out (R94, R95) -/

/-- The lowest of threads that can form a group waits in FUSE. -/
theorem State.fuseReady_lead {s : State} {b k m : Nat} (h : s.fuseReady b k m = true) :
    ∃ w, (s.ctx ⟨b, (lanes m).headD 0, k⟩).fuseWait = some w := by
  unfold State.fuseReady at h
  cases hl : lanes m with
  | nil => simp [hl] at h
  | cons r rs =>
    cases hw : (s.ctx ⟨b, r, k⟩).fuseWait with
    | none => simp [hl, hw] at h
    | some w => exact ⟨w, hw⟩

/-- A group that is appended stays when the mode switches. -/
theorem State.groups_append_cacheMode {s z : State} (h : z.braids = s.braids) (b : Nat) (g : Group) (shared : Bool) :
    (((z.modBraid b fun x => { x with groups := x.groups ++ [g] }).cacheMode b shared).braid b).groups
      = (s.braid b).groups ++ [g] := by
  rw [State.braid_cacheMode_groups, State.braid_modBraid, State.braid, h]
  rfl

/-- Threads that wait for one mask with one tag form its group, with all of them active. -/
theorem exec_fuseGroupForm_ready {s : State} {b k m : Nat} (h : s.fuseReady b k m = true) (h2 : 2 ≤ countOnes 8 m) :
    ∃ t, exec (.fuseGroupForm b k m) s = .next t
      ∧ ∃ g, (t.braid b).groups = (s.braid b).groups ++ [g] ∧ g.k = k ∧ g.mask = m ∧ g.active = m := by
  obtain ⟨⟨_, _, _, _, _, impl, _, pc⟩, hw⟩ := State.fuseReady_lead h
  change ∃ t, execFuseGroupForm b k m s = .next t ∧ _
  rw [execFuseGroupForm, h, decide_eq_true h2, if_neg (by decide)]
  dsimp only
  rw [hw]
  refine ⟨_, rfl, _, State.groups_append_cacheMode (List.foldlRecOn (lanes m) _ (motive := fun z : State => z.braids = s.braids) rfl
    fun z hz r _ => ?_) b _ true, rfl, rfl, rfl⟩
  split
  · exact hz
  · exact hz

theorem Ctx.fuseWait_of_wait {c : Ctx} {m t l dl e : Nat} {d : Dest} {i : Bool} {n : Word}
    (h : c.wait = some (.fuse m t l dl d i e n)) : c.fuseWait = some (m, t, l, dl, d, i, e, n) := by
  rw [Ctx.fuseWait, h]

/-- The wait of a FUSE that is due ends with 1. -/
theorem exec_fuseTimeout_due {s : State} {b r k mask tag limit dl : Nat} {d : Dest} {next : Word}
    (h : (s.ctx ⟨b, r, k⟩).wait = some (.fuse mask tag limit dl d false 0 next)) (h0 : dl ≠ 0) (hd : dl ≤ s.cycle) :
    exec (.fuseTimeout b r k) s
      = .next (s.modCtx ⟨b, r, k⟩ fun c => { (c.setCellAt d { val := 1 }) with wait := none, pc := next }) := by
  change execFuseTimeout b r k s = _
  simp [execFuseTimeout, Ctx.fuseWait_of_wait h, h0, Nat.not_lt.2 hd]

/-- Settles O13: the conditions on FUSE select the branches of `exec_fuse_clean`; forming a group, the time-out and the mode
switches are one lemma each. -/
theorem fuseResults : Obligations.FuseResults := by
  refine ⟨fun s d a b hp ha hb => ⟨fun hg => ?_, fun hg h => ?_, fun hg hm h2 hk => ?_⟩, fun s b r k m v =>
    ⟨exec_fuseGroupForm_ready, fun _ _ _ _ _ _ => exec_fuseTimeout_due, exec_bmodeWrite b v, exec_bmodeSwitchEnd_last⟩⟩
  · rw [exec_fuse_clean d hp ha hb, if_pos hg]
  · rw [exec_fuse_clean d hp ha hb, hg, if_neg (by decide), if_pos (State.fuseInvalid_eq_true h)]
  · rw [exec_fuse_clean d hp ha hb, hg, if_neg (by decide), State.fuseInvalid_eq_false hm h2 hk, if_neg (by decide)]

end Sys2Proof.Machine
end

section
/-! PROOFS. Operations on copies of lines and on translations, which leave threads and requests alone. -/

namespace Sys2Proof.Machine

/-- The contexts, the requests and the executing unit of s and t are the same. -/
structure SameThreads (s t : State) : Prop where
  ctxs : t.ctxs = s.ctxs
  requests : t.requests = s.requests
  cur : t.cur = s.cur
  nextPc : t.nextPc = s.nextPc

theorem SameThreads.refl (s : State) : SameThreads s s := ⟨rfl, rfl, rfl, rfl⟩

theorem SameThreads.trans {s t u : State} (h : SameThreads s t) (k : SameThreads t u) : SameThreads s u :=
  ⟨k.ctxs.trans h.ctxs, k.requests.trans h.requests, k.cur.trans h.cur, k.nextPc.trans h.nextPc⟩

theorem SameThreads.ctx {s t : State} (h : SameThreads s t) (p : Pos) : t.ctx p = s.ctx p := by
  rw [State.ctx, State.ctx, h.ctxs]

theorem SameThreads.ite {s t u : State} {c : Prop} [Decidable c] (ht : SameThreads s t) (hu : SameThreads s u) :
    SameThreads s (if c then t else u) := by
  split
  · exact ht
  · exact hu

/-! ### Copies of lines (R152 to R154) -/

theorem sameThreads_callBack (s : State) (line : Nat) (write : Bool) : SameThreads s (s.callBack line write) := by
  cases write <;> exact ⟨rfl, rfl, rfl, rfl⟩

theorem sameThreads_l1Fill (s : State) (p : Pos) (halves : List Nat) (n : Nat) (l : L1Line) :
    SameThreads s (s.l1Fill p halves n l) := by
  unfold State.l1Fill
  dsimp only
  split
  · exact ⟨rfl, rfl, rfl, rfl⟩
  · split <;> exact ⟨rfl, rfl, rfl, rfl⟩

theorem sameThreads_l1Take (s : State) (p : Pos) (va n : Nat) (l : L1Line) : SameThreads s (s.l1Take p va n l) := by
  unfold State.l1Take
  dsimp only
  split
  · exact .ite ⟨rfl, rfl, rfl, rfl⟩ (sameThreads_l1Fill _ _ _ _ _)
  · exact sameThreads_l1Fill _ _ _ _ _

/-- A change of every braid leaves threads alone. -/
theorem SameThreads.braids {s t : State} (h : SameThreads s t) (bs : Table Braid) : SameThreads s { t with braids := bs } :=
  ⟨h.ctxs, h.requests, h.cur, h.nextPc⟩

theorem sameThreads_l1Read (s : State) (p : Pos) (va : Word) (line : Nat) (sync : Bool) : SameThreads s (s.l1Read p va line sync) :=
  ((sameThreads_callBack s line false).braids _).trans (sameThreads_l1Take _ _ _ _ _)

theorem sameThreads_l1Own (s : State) (p : Pos) (va : Word) (line : Nat) (l : L1Line) : SameThreads s (s.l1Own p va line l) :=
  ((sameThreads_callBack s line true).braids _).trans (sameThreads_l1Take _ _ _ _ _)

theorem sameThreads_cached (s : State) (p : Pos) (a : Access) : SameThreads s (s.cached p a) :=
  .ite (.refl s) (.ite (sameThreads_callBack _ _ _) (sameThreads_l1Read _ _ _ _ _))

/-! ### Translation (R399 to R403) -/

theorem State.translateHit_nextPc (s : State) (p : Pos) (n va : Nat) (user : Bool) (need : Need) (e : TlbEntry) (near : Bool) :
    (s.translateHit p n va user need e near).1.nextPc = s.nextPc := by
  cases near <;> rfl

theorem State.askHost_nextPc (s : State) (p : Pos) (n asid va : Nat) (need : Need) (leaf : Word) (size : Nat) :
    (s.askHost p n asid va need leaf size).1.nextPc = s.nextPc := by
  unfold State.askHost
  dsimp only
  repeat' split
  all_goals rfl

theorem State.translateWalk_nextPc (s : State) (p : Pos) (n asid va : Nat) (user : Bool) (need : Need) (w : Walk) :
    (s.translateWalk p n asid va user need w).1.nextPc = s.nextPc := by
  cases w with
  | fault c => rfl
  | poisoned => rfl
  | leaf l lvl =>
    change (s.translateLeaf p n asid va user need l lvl).1.nextPc = s.nextPc
    unfold State.translateLeaf
    dsimp only
    split
    · rfl
    · split
      · exact s.askHost_nextPc _ _ _ _ _ _ _
      · rfl

theorem State.translate_nextPc (s : State) (p : Pos) (va : Word) (need : Need) : (s.translate p va need).1.nextPc = s.nextPc := by
  have hdraw (vs : List Via) : (s.afterDraw vs).nextPc = s.nextPc := by
    unfold State.afterDraw
    split <;> rfl
  unfold State.translate State.translateAs
  dsimp only
  split
  · rw [State.translateHit_nextPc, hdraw]
  · rw [State.translateWalk_nextPc, hdraw]

end Sys2Proof.Machine
end

section
/-! PROOFS. Issue of loads, stores, short forms, cache operations and prefetches (R143 to R149, R151, R155). -/

namespace Sys2Proof.Machine

/-! ### The checks of an address (R143) -/

theorem addressFault_of_poison (ea : Word) (size : Nat) (aligned : Bool) : addressFault ea size true aligned = some 0x0C := rfl

theorem addressFault_of_high {ea : Word} (h : field ea 63 56 ≠ 0) (size : Nat) (aligned : Bool) :
    addressFault ea size false aligned = some 0x09 := by simp [addressFault, h]

theorem addressFault_of_misaligned {ea : Word} {size : Nat} (h9 : field ea 63 56 = 0) (h : ea.toNat % size ≠ 0) :
    addressFault ea size false true = some 0x06 := by simp [addressFault, h9, h]

theorem addressFault_of_outside {ea : Word} {size : Nat} (h9 : field ea 63 56 = 0) (h6 : ea.toNat % size = 0)
    (hl : bit ea 55 = true) (h : field ea 54 24 ≠ 0 ∨ field ea 20 18 ≠ 0 ∨ 0x30000 < field ea 17 0 + size) :
    addressFault ea size false true = some 0x0A := by
  simp [addressFault, h9, h6, hl]
  tauto

/-! ### Plain loads and stores (R147 to R149) -/

/-- Outside a transaction a load or store of full registers is judged by its address, and then issued as its one access. -/
theorem exec_plainAccesses_checked {s : State} {d a b : BitVec 5} {ty : BitVec 3} {k n : BitVec 2} {p8 : BitVec 8} {la : BitVec 4}
    (hs : s.plain) (hd : s.ready d) (ha : s.ready a) (hb : s.ready b) (pb : s.bad b = false) :
    ∀ x ∈ plainAccesses s d a b ty k n p8 la, exec x.instr s
      = withAddress s x.acc.va x.acc.size (s.bad a) (issueAll s x.dests x.la [x.acc] x.post) x.acc.kind.writes := by
  have hi : ((s.me.reg a).poison || (s.me.reg b).poison) = s.bad a := by
    rw [show (s.me.reg b).poison = false from pb, Bool.or_false]; rfl
  unfold State.plain at hs
  simp only [plainAccesses, List.forall_mem_cons, List.not_mem_nil, false_implies, implies_true, and_true]
  dsimp only [exec, execLd, execLdIndexed, execSt, execStIndexed, loadAt, storeAt]
  simp only [withReg_full _ ha, withReg_full _ hb, withReg_full _ hd, hs, Bool.false_eq_true, if_false, hi, typeSize_of_size]
  exact ⟨rfl, rfl, rfl, rfl⟩

theorem numberFrom_one (s : State) (a : Access) :
    numberFrom s.nextId s.me.seq s.iword (s.me.las.map Window.seq) 0 [a] = [s.numbered a] := rfl

/-- One access whose translation fails, in a user context: it takes a replay entry, its destinations wait, and its thread goes
on with no window open for it (R144). -/
theorem issueOne_log {s s1 : State} {a1 : Access} {cause sub : Nat} {page : Nat × Nat} (x : OneAccess) (hk : s.cur.k < 15)
    (hroom : 0 < s.myRill.replayRoom) (hkeep : x.acc.kind.keepsLa = false)
    (h : ({ s with nextId := s.nextId + 1 } : State).resolve s.cur (s.numbered x.acc) = (s1, .log a1 cause sub false page)) :
    issueAll s x.dests x.la [x.acc] x.post
      = .next ((((s1.modMe fun c => x.dests.foldl (fun y e => y.setEmpty e s.nextId) c).logEntry s.cur cause sub false
          [a1]).modMe id).modMe x.post).advance := by
  have hr : s.myRill.replayRoom ≠ 0 := Nat.ne_of_gt hroom
  have h1 : ¬ s.myRill.replayRoom < 1 := by omega
  have hres : ({ s with nextId := s.nextId + [x.acc].length } : State).resolveAll s.cur
      (numberFrom s.nextId s.me.seq s.iword (s.me.las.map Window.seq) 0 [x.acc]) = (s1, [.log a1 cause sub false page]) := by
    rw [numberFrom_one, List.length_singleton, State.resolveAll, h]
    rfl
  unfold issueAll issueThen
  dsimp only
  rw [hres, if_neg (by simp [hr])]
  generalize x.la = la
  cases la <;> simp [groupLogs, groupFrom, addLog, goList, Nat.ne_of_lt hk, hkeep, h1]

/-- Settles O16: the first check that an address fails gives the cause; a translation that fails gives one entry. -/
theorem addressTraps : Obligations.AddressTraps := by
  refine ⟨fun s d a b t u n p l hs hd ha hb pb x hx => ?_,
    fun s s1 d a b t u n p l cause sub hs hd ha hb hk hroom x hx hf a1 page h => ?_⟩
  · rw [exec_plainAccesses_checked hs hd ha hb pb x hx]
    refine ⟨fun pa => ?_, fun pa h9 => ?_, fun pa h9 h6 => ?_, fun pa h9 h6 hl ho => ?_⟩ <;> rw [pa]
    · exact withAddress_fault _ _ (addressFault_of_poison _ _ _)
    · exact withAddress_fault _ _ (addressFault_of_high h9 _ _)
    · exact withAddress_fault _ _ (addressFault_of_misaligned h9 h6)
    · exact withAddress_fault _ _ (addressFault_of_outside h9 h6 hl ho)
  · obtain ⟨-, hpost, -⟩ := plainAccesses_shape x hx
    have hkeep : x.acc.kind.keepsLa = false := by
      simp only [plainAccesses, List.mem_cons, List.not_mem_nil, or_false] at hx
      rcases hx with rfl | rfl | rfl | rfl <;> rfl
    rw [exec_plainAccesses hs hd ha hb x hx hf, issueOne_log x hk hroom hkeep h, hpost]

/-! ### Short forms, cache operations and prefetches (R151, R155) -/

/-- A load of a short form is issued as its one access. -/
theorem exec_ldlH_plain {s : State} {d k : BitVec 5} (hs : s.plain)
    (hf : addressFault (s.shortAddress k.toNat) 8 false true = none) :
    exec (.ldlH d k) s = issueAll s [s.me.dest d] none
      [{ id := 0, seq := 0, kind := .load false, va := s.shortAddress k.toNat, size := 8, dst := s.me.dest d }] id :=
  (outsideTx_plain hs _ _).trans (loadAt_plain (t := 3) hs hf _ _)

theorem exec_stlH_plain {s : State} {d k : BitVec 5} (hs : s.plain) (hd : s.ready d)
    (hf : addressFault (s.shortAddress k.toNat) 8 false true = none) :
    exec (.stlH d k) s = issueAll s [] none
      [{ id := 0, seq := 0, kind := .store, va := s.shortAddress k.toNat, size := 8, data := s.val d, poison := s.bad d
         tag := s.me.relTag }] id := by
  change execStlH d k s = _
  rw [execStlH, withReg_full _ hd, outsideTx_plain hs, storeAt_plain hs hf]
  rfl

/-- CWB, CFLUSH and IINV: nothing in local store, an access to the line elsewhere. -/
theorem cacheOp_plain {s : State} {a : BitVec 5} {p : BitVec 8} (k : AccKind) (la : Nat) (hs : s.plain) (ha : s.clean a)
    (hf : addressFault (lineAddress (s.val a) p) 1 false false = none) :
    cacheOp s k a p la = if bit (lineAddress (s.val a) p) 55 then .next s.advance
      else issueAll s [] (some la)
        [{ id := 0, seq := 0, kind := k, va := setField (lineAddress (s.val a) p) 5 0 0, size := 64 }] id := by
  obtain ⟨ra, pa⟩ := ha
  unfold State.bad at pa
  unfold State.val at hf ⊢
  unfold cacheOp
  rw [outsideTx_plain hs, withReg_full _ ra]
  simp only [pa, hf]

theorem exec_czero_plain {s : State} {a : BitVec 5} {p : BitVec 8} {l : BitVec 4} (hs : s.plain) (ha : s.clean a)
    (hf : addressFault (lineAddress (s.val a) p) 1 false false = none) :
    exec (.czero a p l) s = issueAll s [] (some l.toNat)
      [{ id := 0, seq := 0, kind := .czero, va := setField (lineAddress (s.val a) p) 5 0 0, size := 64
         tag := s.me.relTag }] id := by
  obtain ⟨ra, pa⟩ := ha
  unfold State.bad at pa
  unfold State.val at hf ⊢
  unfold State.plain at hs
  change execCzero a p l s = _
  unfold execCzero
  rw [withReg_full _ ra]
  simp only [hs, pa, hf, Bool.false_eq_true, if_false]

/-- A prefetch that fails a check of its own goes on without effect. -/
theorem prefetch_idle {s : State} {a : BitVec 5} {p : BitVec 8} (own : Bool)
    (h : s.inTx = true ∨ ¬ s.ready a ∨ bit (setField (lineAddress (s.val a) p) 5 0 0) 55 = true
      ∨ addressFault (setField (lineAddress (s.val a) p) 5 0 0) 64 (s.bad a) false ≠ none) :
    prefetch s a p own = .next s.advance := by
  unfold State.ready State.val State.bad at h
  unfold prefetch
  refine if_pos ?_
  simp only [Bool.or_eq_true, Bool.not_eq_true', Option.isSome_iff_ne_none]
  rw [Bool.not_eq_true] at h
  tauto

/-- What a prefetch of a cacheable line that no engine owns does in the state that its translation leaves: it brings the line in,
and a CPFW may make it writable besides. -/
theorem prefetch_line {s s1 : State} {a : BitVec 5} {p : BitVec 8} {pa : Nat} {leaf : Word} (own : Bool) (hs : s.plain)
    (ha : s.clean a) (h55 : bit (setField (lineAddress (s.val a) p) 5 0 0) 55 = false)
    (hf : addressFault (setField (lineAddress (s.val a) p) 5 0 0) 64 false false = none)
    (ht : s.translate s.cur (setField (lineAddress (s.val a) p) 5 0 0) { r := true } = (s1, .ok pa leaf))
    (hc : bit leaf 8 = false) (ho : s1.ownedLine (lineOf pa) none = false) (hcut : (s1.braid s.cur.b).cut = false) :
    let ea := setField (lineAddress (s.val a) p) 5 0 0
    let s2 := s1.l1Read s.cur ea (lineOf pa) (bit leaf 6)
    prefetch s a p own = .next s2.advance
      ∨ own = true ∧ prefetch s a p own = .next (s2.l1Own s.cur ea (lineOf pa) (s2.l1Held s.cur.b (lineOf pa))).advance := by
  obtain ⟨ra, pa'⟩ := ha
  unfold State.plain at hs
  unfold State.ready at ra
  unfold State.bad at pa'
  unfold State.val at h55 hf ht
  unfold State.val prefetch
  simp only [hs, ra, pa', h55, hf, ht, hc, ho, hcut, Bool.not_true, Bool.or_false, Option.isSome_none, Bool.false_eq_true, if_false]
  split
  · next h =>
    simp only [Bool.and_eq_true] at h
    exact .inr ⟨by tauto, rfl⟩
  · exact .inl rfl

theorem pc_prefetched {s s1 t : State} {va : Word} {pa : Nat} {leaf : Word}
    (ht : s.translate s.cur va { r := true } = (s1, .ok pa leaf)) (h : SameThreads s1 t) : t.advance.me.pc = s.nextPc := by
  have hn := s.translate_nextPc s.cur va { r := true }
  rw [ht] at hn
  rw [State.me_advance]
  exact h.nextPc.trans hn

/-- Settles O17: each form is issued as its one access; a prefetch ends where a check of its own
fails, or by bringing its line in. -/
theorem shortAndCacheIssue : Obligations.ShortAndCacheIssue := by
  refine ⟨fun s s1 d a k p l r a1 hs hd ha hroom =>
      ⟨fun hf => ⟨fun hp => ?_, fun hp => ?_⟩, fun hf => ⟨fun x hx => ?_, fun hp => ?_⟩⟩,
    fun s a p l => ⟨fun h => ⟨prefetch_idle false h, prefetch_idle true h⟩, fun s1 pa leaf hs ha h55 hf ht hc ho hcut => ?_⟩⟩
  · rw [← issueOne_go _ hroom hp]
    exact exec_ldlH_plain hs hf
  · rw [← issueOne_go _ hroom hp]
    exact exec_stlH_plain hs hd hf
  · have hx' : exec x.1 s = cacheOp s x.2 a p l.toNat := by
      simp only [List.mem_cons, List.not_mem_nil, or_false] at hx
      rcases hx with rfl | rfl | rfl <;> rfl
    rw [hx', cacheOp_plain _ _ hs ha hf]
    refine ⟨fun h => if_pos h, fun h hp => ?_⟩
    rw [← issueOne_go _ hroom hp]
    exact if_neg (by rw [Bool.not_eq_true]; exact h)
  · rw [← issueOne_go _ hroom hp]
    exact exec_czero_plain hs ha hf
  · have hm : s1.mem = s.mem := by
      have h := s.translate_mem s.cur (setField (s.val a + p.signExtend 64 * w64 64) 5 0 0) { r := true }
      rwa [ht] at h
    constructor
    · rcases prefetch_line false hs ha h55 hf ht hc ho hcut with h | ⟨h, -⟩
      · exact h
      · cases h
    · rcases prefetch_line true hs ha h55 hf ht hc ho hcut with h | ⟨-, h⟩
      · exact ⟨_, h, fun _ => by simp [hm], pc_prefetched ht (sameThreads_l1Read _ _ _ _ _)⟩
      · exact ⟨_, h, fun _ => by simp [hm],
          pc_prefetched ht ((sameThreads_l1Read _ _ _ _ _).trans (sameThreads_l1Own _ _ _ _ _))⟩

end Sys2Proof.Machine
end

section
/-! PROOFS. Loads, stores and the loads of LOXM are sent (R55, R147 to R149), but not past an entry of the replay queue for their
line (R145). -/

namespace Sys2Proof.Machine

theorem exec_plainAccesses_sent {s s1 : State} {d a b : BitVec 5} {ty : BitVec 3} {k n : BitVec 2} {p8 : BitVec 8} {la : BitVec 4}
    {a1 : Access} (hs : s.plain) (hd : s.ready d) (ha : s.clean a) (hb : s.clean b)
    (hroom : s.cur.k = 15 ∨ 0 < s.myRill.replayRoom) {x : OneAccess} (hx : x ∈ plainAccesses s d a b ty k n p8 la)
    (hf : addressFault x.acc.va x.acc.size false true = none) (hp : s.passes x.acc s1 a1) : exec x.instr s = .next (s.afterIssue s1 x a1) := by
  rw [exec_plainAccesses hs hd ha hb x hx hf, issueOne_go x hroom hp]

/-! ### LOXM (R55) -/

/-- Accesses to local store whose lines have no entry pass without a translation. -/
theorem resolveAll_local {s : State} {p : Pos} {l : List Access}
    (h : ∀ a ∈ l, s.pendingLine p a.va = false ∧ bit a.va 55 = true) :
    s.resolveAll p l = (s, (l.map fun a => { a with pa := localPlace p.b a.va }).map Resolved.go) := by
  induction l with
  | nil => rfl
  | cons a l ih =>
    obtain ⟨⟨hpend, hl⟩, hrest⟩ := List.forall_mem_cons.mp h
    have hres : s.resolve p a = (s, .go { a with pa := localPlace p.b a.va }) := by simp [State.resolve, hpend, hl]
    simp only [State.resolveAll, hres, ih hrest, List.map_cons]

theorem mem_numberFrom_va {base seq code : Nat} {within : List Nat} {l : List Access} {i : Nat} {x : Access}
    (h : x ∈ numberFrom base seq code within i l) : ∃ a ∈ l, x.va = a.va := by
  induction l generalizing i with
  | nil => cases h
  | cons a l ih =>
    rcases List.mem_cons.mp h with rfl | h
    · exact ⟨a, List.mem_cons_self, rfl⟩
    · obtain ⟨b, hb, e⟩ := ih h
      exact ⟨b, List.mem_cons_of_mem _ hb, e⟩

theorem length_numberFrom (base seq code : Nat) (within : List Nat) (i : Nat) (l : List Access) :
    (numberFrom base seq code within i l).length = l.length := by
  induction l generalizing i with
  | nil => rfl
  | cons a l ih => simp [numberFrom, ih]

theorem State.launchAccess_nextPc (s : State) (p : Pos) (a : Access) : (s.launchAccess p a).nextPc = s.nextPc := by
  have hroute (t : State) : (t.route p a).nextPc = t.nextPc := by unfold State.route; split <;> rfl
  unfold State.launchAccess
  dsimp only
  split
  · rfl
  · split
    · exact hroute _
    · rfl

/-- The thread that sends accesses has them in flight, its ox registers stay, and it goes on at the same unit. -/
theorem launchAll_me {s t : State} {p : Pos} {bs : List Access} (hp : s.cur = p)
    (ht : bs.foldl (fun t a => t.launchAccess p a) s = t) :
    t.me.flights = s.me.flights ++ bs ∧ t.me.ox = s.me.ox ∧ t.nextPc = s.nextPc := by
  induction bs generalizing s with
  | nil => subst ht; simp
  | cons a bs ih =>
    subst hp
    obtain ⟨hfl, hox, hnext⟩ := ih (State.launchAccess_cur _ _ _) ht
    rw [State.me_launchAccess] at hfl hox
    exact ⟨by rw [hfl, List.append_assoc]; rfl, hox, hnext.trans (State.launchAccess_nextPc _ _ _)⟩

/-- The ox registers from n, set empty one after another. -/
def Ctx.emptyOx (c : Ctx) (n m id : Nat) : Ctx := ((List.range m).map fun i => Dest.ox (n + i)).foldl (fun x d => x.setEmpty d id) c

theorem Ctx.emptyOx_succ (c : Ctx) (n m id : Nat) : c.emptyOx n (m + 1) id = (c.emptyOx n m id).setEmpty (.ox (n + m)) id := by
  simp [Ctx.emptyOx, List.range_succ]

theorem Ctx.emptyOx_flights (c : Ctx) (n m id : Nat) : (c.emptyOx n m id).flights = c.flights := by
  induction m with
  | zero => rfl
  | succ m ih => rw [Ctx.emptyOx_succ]; exact ih

theorem Ctx.emptyOx_full (c : Ctx) (n id : Nat) {m i : Nat} (h : i < m) : ((c.emptyOx n m id).oxReg (n + i)).full = false := by
  induction m with
  | zero => omega
  | succ m ih =>
    rw [Ctx.emptyOx_succ]
    change ((Ctx.setCellAt _ _ _).cellAt (.ox (n + i))).full = false
    rw [Ctx.cellAt_setCellAt _ _ _ _ (by simp)]
    by_cases hi : i = m
    · simp [hi]
    · rw [if_neg (by simp [hi])]
      exact ih (by omega)

theorem field_low_of_aligned {ea : Word} (h : ea.toNat % 8 = 0) : field ea 2 0 = 0 := by simpa [field] using h

/-- The loads of LOXM (R55). -/
def loxmAccesses (n k : Nat) (x : Word) : List Access :=
  (List.range (k + 1)).map fun i =>
    { id := 0, seq := 0, kind := .load false, va := x + w64 (8 * i), size := 8, elem := i, dst := .ox (n + i), ext := [x, 0] }

theorem exec_loxm_checked {s : State} {n k : BitVec 3} {a : BitVec 5} (hs : s.plain) (ha : s.clean a)
    (hf : ∀ i ≤ k.toNat, addressFault (s.val a + w64 (8 * i)) 8 false true = none) :
    exec (.loxm n a k) s = issueAll s ((List.range (k.toNat + 1)).map fun i => .ox (n.toNat + i)) (some 0)
      (loxmAccesses n.toNat k.toNat (s.val a)) id := by
  obtain ⟨ra, pa⟩ := ha
  unfold State.plain at hs
  unfold State.bad at pa
  have hal : field (s.me.reg a).val 2 0 = 0 := by
    obtain ⟨-, -, h⟩ := addressFault_none (hf 0 (Nat.zero_le _))
    have h8 := h rfl
    simp only [Nat.mul_zero, w64, BitVec.add_zero] at h8
    exact field_low_of_aligned h8
  have hnone : ((List.range (k.toNat + 1)).map fun i => (s.me.reg a).val + w64 (8 * i)).findSome?
      (fun ea => (addressFault ea 8 false true).map fun c => (c, ea)) = none := by
    rw [List.findSome?_eq_none_iff]
    simp only [List.mem_map, List.mem_range, forall_exists_index, and_imp, forall_apply_eq_imp_iff₂]
    intro i hi
    rw [show addressFault ((s.me.reg a).val + w64 (8 * i)) 8 false true = none from hf i (by omega)]
    rfl
  change execLoxm n a k s = _
  unfold execLoxm
  rw [withReg_full _ ra]
  simp only [hs, pa, hal, hnone, bne_self_eq_false, Bool.false_and, Bool.false_eq_true, if_false]
  rfl

/-- LOXM of a block in local store sends its loads where its thread has no entry for a line of the block. -/
theorem loxm_sent {s : State} {n k : BitVec 3} {a : BitVec 5} (hs : s.plain) (ha : s.clean a)
    (hroom : s.cur.k = 15 ∨ 0 < s.myRill.replayRoom)
    (hea : ∀ i ≤ k.toNat, addressFault (s.val a + w64 (8 * i)) 8 false true = none ∧ bit (s.val a + w64 (8 * i)) 55 = true)
    (hpend : ∀ i ≤ k.toNat, s.pendingLine s.cur (s.val a + w64 (8 * i)) = false) :
    ∃ t, exec (.loxm n a k) s = .next t ∧ t.me.flights.length = s.me.flights.length + k.toNat + 1
      ∧ (∀ i ≤ k.toNat, (t.me.oxReg (n.toNat + i)).full = false) ∧ t.me.pc = s.nextPc := by
  let accs := loxmAccesses n.toNat k.toNat (s.val a)
  let s0 : State := { s with nextId := s.nextId + accs.length }
  let l := numberFrom s.nextId s.me.seq s.iword (s.me.las.map Window.seq) 0 accs
  have hl : ∀ x ∈ l, s0.pendingLine s.cur x.va = false ∧ bit x.va 55 = true := fun x hx => by
    obtain ⟨y, hy, e⟩ := mem_numberFrom_va hx
    obtain ⟨i, hi, rfl⟩ := List.mem_map.mp hy
    have hi' : i ≤ k.toNat := Nat.lt_succ_iff.mp (List.mem_range.mp hi)
    rw [e]
    exact ⟨hpend i hi', (hea i hi').2⟩
  have hx := exec_loxm_checked (n := n) hs ha fun i hi => (hea i hi).1
  rw [issueAll, issueThen_go _ _ _ _ hroom (resolveAll_local hl)] at hx
  refine ⟨_, hx, ?_⟩
  obtain ⟨hfl, hox, hnext⟩ := launchAll_me (s := s0.modMe fun c => c.emptyOx n.toNat (k.toNat + 1) s.nextId) (p := s.cur)
    (bs := l.map fun x => { x with pa := localPlace s.cur.b x.va }) rfl rfl
  rw [State.me_modMe] at hfl hox
  rw [State.me_advance, State.me_modMe, State.me_modMe]
  refine ⟨?_, fun i hi => ?_, hnext⟩
  · refine (congrArg List.length hfl).trans ?_
    rw [Ctx.emptyOx_flights]
    simp [l, length_numberFrom, accs, loxmAccesses]
    rfl
  · refine (congrArg (fun o : Table Cell => (o.get {} (n.toNat + i)).full) hox).trans ?_
    exact Ctx.emptyOx_full _ _ _ (Nat.lt_succ_of_le hi)

/-! ### A line with a pending entry (R145) -/

/-- Context 0 of rill 0, with an LDFE of the local-store word at a0 that has waited past FE-RETRY-LIMIT, and stands in the replay
queue (R141, R298). -/
def loggedLdfe : State :=
  let ls : Word := 0x0080000000000000
  let c : Ctx := { run := .running, seq := 1, win := [(32752, { val := ls })] }
  let e : REntry := { pos := ⟨0, 0, 0⟩, seq := 0, cause := 0x0D
                      accs := [{ id := 0, seq := 0, kind := .ldfe, va := ls, pa := lsAddr 0 0 0, size := 8 }] }
  { ctxs := [(0, c)], rills := [(0, { replay := [(0, e)] })] }

theorem loxm_behind_entry : ∃ t, exec (.loxm 0 8 0) loggedLdfe = .next t ∧ t.me.flights = [] := ⟨_, rfl, rfl⟩

/-- Refutes O15: its part on LOXM does not ask that the thread have no entry for the line, and an access to a line with one is
itself logged and not sent (R145). -/
theorem not_loadStoreIssue : ¬ Obligations.LoadStoreIssue := by
  rintro ⟨-, h⟩
  obtain ⟨t, ht, hlen, -⟩ := h loggedLdfe 0 0 8 rfl ⟨rfl, rfl⟩ (by decide) (by decide)
  obtain ⟨u, hu, hnone⟩ := loxm_behind_entry
  obtain rfl : t = u := by simpa using ht.symm.trans hu
  rw [hnone] at hlen
  exact absurd hlen (by decide)

end Sys2Proof.Machine
end

section
/-! PROOFS. Loads and stores are performed (R146 to R148). -/

namespace Sys2Proof.Machine

/-! ### A result reaches its destination (R8) -/

theorem Ctx.cellAt_congr {c d : Ctx} (hg : d.g = c.g) (hw : d.win = c.win) (ho : d.ox = c.ox) (e : Dest) :
    d.cellAt e = c.cellAt e := by
  cases e <;> simp [Ctx.cellAt, hg, hw, ho]

/-- A result at a place of a register cell: it is kept where the place waits for it. -/
theorem Ctx.cellAt_fill_cell (c : Ctx) {d : Dest} (e : Dest) (id : Nat) (v : Word) (p : Bool)
    (hd : (∃ n, d = .g n) ∨ (∃ n, d = .win n) ∨ ∃ n, d = .ox n) :
    (c.fill d id v p).cellAt e
      = if e = d ∧ (c.cellAt d).full = false ∧ (c.cellAt d).src = id then { val := v, full := true, poison := p }
        else c.cellAt e := by
  have hfill : c.fill d id v p = if !(c.cellAt d).full && (c.cellAt d).src == id then
      c.setCellAt d { val := v, full := true, poison := p } else c := by
    rcases hd with ⟨n, rfl⟩ | ⟨n, rfl⟩ | ⟨n, rfl⟩ <;> rfl
  have hne : d ≠ .none := by rcases hd with ⟨n, rfl⟩ | ⟨n, rfl⟩ | ⟨n, rfl⟩ <;> simp
  rw [hfill]
  by_cases hw : (c.cellAt d).full = false ∧ (c.cellAt d).src = id
  · rw [if_pos (by simp [hw]), Ctx.cellAt_setCellAt _ _ _ _ (.inr hd)]
    exact if_congr (by simp [hw, hne]) rfl rfl
  · rw [if_neg (by simpa using hw), if_neg fun h => hw h.2]

theorem Ctx.cellAt_fill_other (c : Ctx) {d e : Dest} (id : Nat) (v : Word) (p : Bool) (h : e ≠ d) :
    (c.fill d id v p).cellAt e = c.cellAt e := by
  have hcell (hd : (∃ n, d = .g n) ∨ (∃ n, d = .win n) ∨ ∃ n, d = .ox n) : (c.fill d id v p).cellAt e = c.cellAt e := by
    rw [Ctx.cellAt_fill_cell _ _ _ _ _ hd, if_neg fun k => h k.1]
  cases d with
  | none => rfl
  | q n => unfold Ctx.fill; dsimp only; split <;> exact Ctx.cellAt_congr rfl rfl rfl e
  | v n => unfold Ctx.fill; dsimp only; split <;> exact Ctx.cellAt_congr rfl rfl rfl e
  | g n => exact hcell (.inl ⟨n, rfl⟩)
  | win n => exact hcell (.inr (.inl ⟨n, rfl⟩))
  | ox n => exact hcell (.inr (.inr ⟨n, rfl⟩))

/-- A place that waits for instruction id is filled by it. -/
theorem Ctx.cellAt_fill_waiting {c : Ctx} {d : Dest} {id : Nat} (v : Word) (p : Bool)
    (h : c.cellAt d = { c.cellAt d with full := false, src := id }) :
    (c.fill d id v p).cellAt d = { val := v, full := true, poison := p } := by
  have hfull : (c.cellAt d).full = false := congrArg Cell.full h
  have hsrc : (c.cellAt d).src = id := congrArg Cell.src h
  have hd : (∃ n, d = .g n) ∨ (∃ n, d = .win n) ∨ ∃ n, d = .ox n := by
    cases d with
    | none => cases hfull
    | q n => cases hfull
    | v n => cases hfull
    | g n => exact .inl ⟨n, rfl⟩
    | win n => exact .inr (.inl ⟨n, rfl⟩)
    | ox n => exact .inr (.inr ⟨n, rfl⟩)
  rw [Ctx.cellAt_fill_cell _ _ _ _ _ hd, if_pos ⟨rfl, hfull, hsrc⟩]

theorem State.ctx_deliver (s : State) {p : Pos} {a : Access} (v : Word) (bad : Bool) (h : ∀ n, a.dst ≠ .v n) :
    (s.deliver p a v bad).ctx p = (s.ctx p).fill a.dst a.src v bad := by
  unfold State.deliver
  cases hd : a.dst with
  | v n => exact absurd hd (h n)
  | none => rfl
  | q n => exact State.ctx_modCtx _ _ _
  | g n => exact State.ctx_modCtx _ _ _
  | win n => exact State.ctx_modCtx _ _ _
  | ox n => exact State.ctx_modCtx _ _ _

theorem State.cellAt_deliver_other (s : State) (p : Pos) {a : Access} (v : Word) (bad : Bool) {d : Dest} (h : d ≠ a.dst) :
    ((s.deliver p a v bad).ctx p).cellAt d = (s.ctx p).cellAt d := by
  by_cases hv : ∃ n, a.dst = .v n
  · obtain ⟨n, hn⟩ := hv
    unfold State.deliver
    simp only [hn, State.ctx_modCtx]
    repeat' split
    all_goals exact Ctx.cellAt_congr rfl rfl rfl d
  · rw [s.ctx_deliver v bad fun n hn => hv ⟨n, hn⟩, Ctx.cellAt_fill_other _ _ _ _ h]

theorem State.cellAt_deliver_waiting (s : State) {p : Pos} {a : Access} (v : Word) (bad : Bool)
    (h : (s.ctx p).cellAt a.dst = { (s.ctx p).cellAt a.dst with full := false, src := a.src }) :
    ((s.deliver p a v bad).ctx p).cellAt a.dst = { val := v, full := true, poison := bad } := by
  have hv (n : Nat) : a.dst ≠ .v n := fun hn => by
    have hfull := congrArg Cell.full h
    rw [hn] at hfull
    cases hfull
  rw [s.ctx_deliver v bad hv, Ctx.cellAt_fill_waiting v bad h]

/-! ### An access leaves its thread -/

/-- What retiring an access changes in its thread: its flights, its windows, older values and a wait. -/
theorem State.ctx_retireAccess (s : State) (p : Pos) (a : Access) :
    ∃ ls os w, (s.retireAccess p a).ctx p
      = { s.ctx p with flights := (s.ctx p).flights.filter fun x => x.id != a.id, las := ls, older := os, wait := w } := by
  have hc (c : Ctx) : ∃ ls, c.closeLa a.seq = { c with las := ls } := by
    unfold Ctx.closeLa
    split
    · exact ⟨_, rfl⟩
    · exact ⟨_, rfl⟩
  have ho : ∃ os, (s.orderOlder p a).ctx p = { s.ctx p with older := os } := by
    unfold State.orderOlder
    split
    · exact ⟨_, State.ctx_modCtx _ _ _⟩
    · exact ⟨_, rfl⟩
  obtain ⟨os, ho⟩ := ho
  unfold State.retireAccess
  extract_lets s1 s2
  obtain ⟨ls, hls⟩ := hc { s.ctx p with older := os, flights := (s.ctx p).flights.filter fun x => x.id != a.id }
  have h1 : s1.ctx p = { s.ctx p with older := os, flights := (s.ctx p).flights.filter fun x => x.id != a.id, las := ls } := by
    rw [State.ctx_modCtx, ho]
    exact hls
  have h2 : s2.ctx p = s1.ctx p := by
    unfold s2
    cases a.cc <;> rfl
  split
  · rw [State.ctx_modCtx, h2, h1]
    exact ⟨_, _, _, rfl⟩
  · rw [h2, h1]
    exact ⟨_, _, _, rfl⟩

theorem State.cellAt_retireAccess (s : State) (p : Pos) (a : Access) (d : Dest) :
    ((s.retireAccess p a).ctx p).cellAt d = (s.ctx p).cellAt d := by
  obtain ⟨ls, os, w, h⟩ := s.ctx_retireAccess p a
  rw [h]
  exact Ctx.cellAt_congr rfl rfl rfl d

theorem State.not_mem_flights_retireAccess (s : State) (p : Pos) (a : Access) :
    a.id ∉ ((s.retireAccess p a).ctx p).flights.map Access.id := by
  obtain ⟨ls, os, w, h⟩ := s.ctx_retireAccess p a
  rw [h]
  simp

theorem State.retireAccess_requests (s : State) (p : Pos) (a : Access) : (s.retireAccess p a).requests = s.requests := by
  have h1 : (s.orderOlder p a).requests = s.requests := by
    unfold State.orderOlder
    split <;> rfl
  unfold State.retireAccess
  dsimp only
  cases a.cc <;> dsimp only <;> split <;> exact h1

/-! ### Loads (R147) -/

theorem exec_loadDataReturn_load {s : State} {b r k n : Nat} {a : Access} {sx : Bool} (hf : s.flight ⟨b, r, k⟩ n = some a)
    (hk : a.kind = .load sx) (hm : s.mayPerform ⟨b, r, k⟩ a = true) (ha : s.arrived ⟨b, r, k⟩ a = true) :
    exec (.loadDataReturn b r k n) s
      = .next (((((s.unsend a.id).deliver ⟨b, r, k⟩ a (extend sx a.size (s.mem.read a.pa a.size))
          (!isHost a.pa && s.mem.poisoned a.pa)).cached ⟨b, r, k⟩ a)).retireAccess ⟨b, r, k⟩ a) := by
  change execLoadDataReturn b r k n s = _
  simp only [execLoadDataReturn, hf, hk, State.whenArrived, hm, ha, Bool.not_true, Bool.false_eq_true, if_false, if_true]
  rfl

/-! ### Stores (R146, R148) -/

theorem Memory.setTags_full (m : Memory) (a n : Nat) (t : Option Tag) : (m.setTags a t n).full = m.full := by
  induction n generalizing m a with
  | zero => rfl
  | succ n ih => exact ih _ _

theorem Memory.poisoned_setTags (m : Memory) (a n x : Nat) (t : Option Tag) : (m.setTags a t n).poisoned x = m.poisoned x := by
  induction n generalizing m a with
  | zero => rfl
  | succ n ih => exact ih _ _

theorem Memory.store_full (m : Memory) (a n v : Nat) (p : Bool) : (m.store a n v p).full = m.full := by
  unfold Memory.store
  dsimp only
  split
  · exact Memory.write_full _ _ _ _
  · split <;> rw [Memory.setPoison_full, Memory.write_full]

theorem Memory.read_store (m : Memory) (a n v : Nat) (p : Bool) (h : ∀ i < n, m.isLost (a + i) = false) :
    (m.store a n v p).read a n = v % 2 ^ (8 * n) := by
  rw [Memory.read_congr _ _ _ _ fun x _ _ => m.byte_store a n v p x, Memory.read_write_same _ _ _ _ h]

/-- The poison bit of a word of this package after a store: the data's, and of a part of a word also the old one (R146). -/
theorem Memory.poisoned_store (m : Memory) {a : Nat} (n v : Nat) (p : Bool) (hh : isHost a = false) (hl : m.isLost a = false) :
    (m.store a n v p).poisoned a = if 8 ≤ n then p else m.poisoned a || p := by
  unfold Memory.store
  rw [if_neg (by simp [hh])]
  split <;> rw [Memory.poisoned_setPoison _ _ _ _ (by rw [Memory.isLost_write, hl]), if_pos rfl, Memory.isLost_write, hl,
    Bool.false_or]

/-- The words of another package that is lost stay poisoned. -/
theorem Memory.poisoned_of_lost {m : Memory} {a : Nat} (h : m.isLost a = true) : m.poisoned a = true := by
  rw [Memory.poisoned, h, Bool.true_or]

theorem Memory.isLost_store (m : Memory) (a n v x : Nat) (p : Bool) : (m.store a n v p).isLost x = m.isLost x := by
  unfold Memory.store
  dsimp only
  split
  · exact Memory.isLost_write _ _ _ _ _
  · split <;> rw [Memory.isLost_setPoison, Memory.isLost_write]

/-- Memory after a plain store. -/
theorem State.storeEffect_mem (s : State) (p : Pos) {a : Access} (hk : a.kind = .store) :
    (s.storeEffect p a).mem
      = (s.mem.store a.pa a.size a.data.toNat a.poison).setTags a.pa (a.tag.map fun sc => s.tagOf p sc a.pa a.va) a.size := by
  have hz : (a.kind == AccKind.czero) = false := by rw [hk]; rfl
  unfold State.storeEffect
  rw [State.noteOlder_mem, State.noteRaise_mem, State.wrote_mem]
  simp only [hz, Bool.false_eq_true, if_false]

theorem State.storeEffect_requests (s : State) (p : Pos) (a : Access) : (s.storeEffect p a).requests = s.requests := by
  have h : SameThreads s (if isLocal a.pa then s
      else if a.sync || a.nc then s.callBack (lineOf a.pa) true else s.l1Write p a.va (lineOf a.pa)) :=
    .ite (.refl s) (.ite (sameThreads_callBack _ _ _) (sameThreads_l1Own _ _ _ _ _))
  unfold State.storeEffect State.noteOlder
  dsimp only
  split <;> exact h.requests

/-- Requests for other words are not performed when a word is scanned (R298). -/
theorem scanParked_other {word : Nat} {l : List (Pos × Access)} (s : State) (h : ∀ q ∈ l, wordOf q.2.pa ≠ word) :
    scanParked word l s = s := by
  induction l with
  | nil => rfl
  | cons q l ih =>
    obtain ⟨hq, hl⟩ := List.forall_mem_cons.mp h
    rw [scanParked, if_neg (by simp [hq])]
    exact ih hl

theorem State.scan_other {s : State} {pa : Nat} (h : ∀ q ∈ s.requests, wordOf q.2.pa ≠ wordOf pa) : s.scan pa = s :=
  scanParked_other s h

/-- A plain store with no request parked on its word. -/
theorem performStore_other {s : State} (p : Pos) {a : Access} (h : ∀ q ∈ s.requests, wordOf q.2.pa ≠ wordOf a.pa) :
    s.performStore p a = (s.storeEffect p a).retireAccess p a := by
  refine State.scan_other ?_
  rw [State.retireAccess_requests, State.storeEffect_requests]
  exact h

theorem exec_storePerformed_store {s : State} {b r k n : Nat} {a : Access} (hf : s.flight ⟨b, r, k⟩ n = some a)
    (hk : a.kind = .store) (hm : s.mayPerform ⟨b, r, k⟩ a = true) (ha : s.arrived ⟨b, r, k⟩ a = true)
    (hfan : (s.fanouts.any fun f => f.agent.isNone && f.acc.id == n) = false) (ho : s.sharersFor ⟨b, r, k⟩ a = []) :
    exec (.storePerformed b r k n) s = .next ((s.unsend a.id).performStore ⟨b, r, k⟩ a) := by
  have ho' : (s.unsend a.id).sharersFor ⟨b, r, k⟩ a = [] := ho
  change execStorePerformed b r k n s = _
  simp [execStorePerformed, hf, hk, hfan, State.whenArrived, hm, ha, State.startWrite, ho', State.performWrite, AccKind.fe,
    AccKind.rmw]

/-- A plain store writes its bytes with its poison, and no other byte and no FE bit. -/
theorem storeEffect_frame (s : State) (p : Pos) {a : Access} (hk : a.kind = .store)
    (hlost : ∀ i < a.size, s.mem.isLost (a.pa + i) = false) :
    let m := (s.storeEffect p a).mem
    m.read a.pa a.size = a.data.toNat % 2 ^ (8 * a.size)
      ∧ (∀ x, x < a.pa ∨ a.pa + a.size ≤ x → m.byte x = s.mem.byte x)
      ∧ (isHost a.pa = false → 8 ≤ a.size → m.poisoned a.pa = a.poison)
      ∧ (isHost a.pa = false → a.size < 8 → m.poisoned a.pa = (s.mem.poisoned a.pa || a.poison))
      ∧ m.full = s.mem.full := by
  dsimp only
  rw [s.storeEffect_mem p hk]
  refine ⟨?_, fun x hx => ?_, fun hh h8 => ?_, fun hh h8 => ?_, ?_⟩
  · rw [Memory.read_setTags, Memory.read_store _ _ _ _ _ hlost]
  · rw [Memory.byte_setTags, Memory.byte_store, Memory.byte_write_other _ _ _ _ _ hx]
  · rw [Memory.poisoned_setTags, Memory.poisoned_store _ _ _ _ hh (hlost 0 (by omega)), if_pos h8]
  · rw [Memory.poisoned_setTags]
    cases hl : s.mem.isLost a.pa with
    | false => rw [Memory.poisoned_store _ _ _ _ hh hl, if_neg (by omega)]
    | true => rw [Memory.poisoned_of_lost (by rw [Memory.isLost_store, hl]), Memory.poisoned_of_lost hl, Bool.true_or]
  · rw [Memory.setTags_full, Memory.store_full]

/-- Settles O18: a load is deliver, cached and retireAccess, of which deliver alone changes a cell; a store is storeEffect, for
nothing is parked on its word. -/
theorem accessesPerform : Obligations.AccessesPerform := by
  constructor
  · intro s b r k n a sx p hf hk hm ha
    let z := s.unsend a.id
    let v := extend sx a.size (s.mem.read a.pa a.size)
    let bad := !isHost a.pa && s.mem.poisoned a.pa
    have hc (d : Dest) : (((((z.deliver p a v bad).cached p a)).retireAccess p a).ctx p).cellAt d
        = ((z.deliver p a v bad).ctx p).cellAt d := by
      rw [State.cellAt_retireAccess, (sameThreads_cached _ _ _).ctx]
    refine ⟨_, exec_loadDataReturn_load hf hk hm ha, fun x => by simp, fun hd => ?_, fun d hd => ?_,
      State.not_mem_flights_retireAccess _ _ _⟩
    · exact (hc a.dst).trans (State.cellAt_deliver_waiting z v bad hd)
    · exact (hc d).trans (State.cellAt_deliver_other z p v bad hd)
  · intro s b r k n a p hf hk hm ha hfan ho hreq hlost
    have hid : a.id = n := by simpa using List.find?_some hf
    have hreq' : ∀ q ∈ (s.unsend a.id).requests, wordOf q.2.pa ≠ wordOf a.pa := fun q hq => by
      obtain ⟨hmem, hne⟩ := List.mem_filter.mp hq
      exact hreq q hmem (by simpa [hid] using hne)
    have hx := exec_storePerformed_store hf hk hm ha hfan ho
    rw [performStore_other p hreq'] at hx
    refine ⟨_, hx, ?_⟩
    rw [State.retireAccess_mem]
    exact storeEffect_frame (s.unsend a.id) p hk hlost

end Sys2Proof.Machine
end

section
/-! PROOFS. Block instructions and one element of a fill (R157 to R160, R318, R457). -/

namespace Sys2Proof.Machine

/-! ### Issue -/

theorem exec_blockForms (s : State) (n a b : BitVec 5) (e : BitVec 2) (l : BitVec 4) :
    ∀ x ∈ [((.bmov n a b e l : Instr), 0), (.bmovd n a b e l, 1), (.bfill n a b e l, 2), (.bscanEq n a b e l, 3),
      (.bscanNe n a b e l, 4)], exec x.1 s = startBlock s x.2 n a b e l := by
  simp only [List.forall_mem_cons, List.not_mem_nil, false_implies, implies_true, and_true]
  exact ⟨rfl, rfl, rfl, rfl, rfl⟩

/-- A block instruction whose operands pass the checks of R158. -/
theorem startBlock_checked {s : State} {op : Nat} {n a b : BitVec 5} {e : BitVec 2} (l : BitVec 4) (hn : s.clean n) (ha : s.clean a)
    (hb : s.ready b) (hal : (s.val a).toNat % 2 ^ e.toNat = 0) (pb : op ≠ 2 → s.bad b = false)
    (hbl : op ≤ 1 → (s.val b).toNat % 2 ^ e.toNat = 0) :
    startBlock s op n a b e l =
      if s.blockIllegal (s.newBlock op n a b e) then .next (s.txAbort 6 0x13)
      else if s.val n = 0 then .next s.advance
      else if s.cur.k != 15 && s.myRill.replayRoom == 0 then parked s .replayFull
      else .next ((({ s with nextId := s.nextId + 1 } : State).modMe fun c =>
        (((s.newBlock op n a b e).dests.foldl (fun t d => t.setEmpty d s.nextId) c).openLa l.toNat).addBlock
          (s.newBlock op n a b e)).advance) := by
  obtain ⟨rn, pn⟩ := hn
  obtain ⟨ra, pa⟩ := ha
  have hp : ((s.me.reg n).poison || (s.me.reg a).poison || (op != 2 && (s.me.reg b).poison)) = false := by
    unfold State.bad at pn pa pb
    simp only [pn, pa, Bool.false_or, Bool.and_eq_false_iff, bne_eq_false_iff_eq]
    tauto
  unfold State.val at hal hbl
  have hm : ((s.me.reg a).val.toNat % 2 ^ e.toNat != 0) = false := by simpa using hal
  have hk : (decide (op ≤ 1) && (s.me.reg b).val.toNat % 2 ^ e.toNat != 0) = false := by
    simpa using hbl
  unfold startBlock
  rw [withReg_full _ ra, withReg_full _ hb, withReg_full _ rn]
  simp only [hp, hm, hk, Bool.false_eq_true, if_false]
  rfl

/-- A count of zero comes to no element. -/
theorem blockIllegal_of_no_element (s : State) {x : Block} (h : x.n = 0) : s.blockIllegal x = false := by
  simp [State.blockIllegal, h, State.elements]

/-- The elements of a fill lie one behind the other. -/
theorem elements_fill (s : State) {k i : Nat} (h : i < k) {x : Block} (hop : x.op = 2) :
    ∃ y ∈ s.elements k x, y.op = 2 ∧ y.a = x.a + w64 (i * 2 ^ x.esize) := by
  induction k generalizing i x with
  | zero => omega
  | succ k ih =>
    let y : Block := { x with a := x.a + w64 (2 ^ x.esize), n := x.n - 1 }
    have hel : s.elements (k + 1) x = x :: s.elements k y := by
      have hnext : x.after 0 = some y := by simp [Block.after, hop, y]
      simp [State.elements, hop, hnext]
    rw [hel]
    cases i with
    | zero => exact ⟨x, List.mem_cons_self, hop, by simp [w64]⟩
    | succ i =>
      obtain ⟨z, hz, hzop, hza⟩ := ih (i := i) (x := y) (by omega) hop
      refine ⟨z, List.mem_cons_of_mem _ hz, hzop, ?_⟩
      have hsplit : w64 ((i + 1) * 2 ^ x.esize) = w64 (2 ^ x.esize) + w64 (i * 2 ^ x.esize) := by
        rw [Nat.succ_mul, Nat.add_comm]
        exact BitVec.ofNat_add _ _
      rw [hza, hsplit, ← BitVec.add_assoc]

/-- A fill with an element in local store may not stand in a transaction (R318). -/
theorem blockIllegal_fill_local {s : State} {x : Block} {i : Nat} (hop : x.op = 2) (ht : s.inTx = true) (hi : i < x.n.toNat)
    (hl : bit (x.a + w64 (i * 2 ^ x.esize)) 55 = true) : s.blockIllegal x = true := by
  obtain ⟨y, hy, hyop, hya⟩ := elements_fill s hi hop
  rw [State.blockIllegal, ht, Bool.true_and, List.any_eq_true]
  refine ⟨y, hy, ?_⟩
  simp [Block.accesses, Block.source, Block.target, hyop, txIllegal, hya, hl]

theorem addBlock_first {c : Ctx} (x : Block) (h : c.block = none) : (c.addBlock x).block = some x := by
  simp [Ctx.addBlock, h]

theorem addBlock_behind {c : Ctx} (x : Block) {y : Block} (h : c.block = some y) :
    (c.addBlock x).block = some y ∧ (c.addBlock x).more = c.more ++ [x] := by
  simp [Ctx.addBlock, h]

/-! ### One element of a fill in local store (R158, R160) -/

theorem localPlace_bounds {b : Nat} (h : b < 512) (ea : Word) : 2 ^ 56 ≤ localPlace b ea ∧ localPlace b ea < 2 ^ 57 := by
  have h1 : field ea 23 21 < 2 ^ 3 := Nat.mod_lt _ (by norm_num)
  have h2 : field ea 17 0 < 2 ^ 18 := Nat.mod_lt _ (by norm_num)
  unfold localPlace lsAddr lsBase
  omega

theorem isLocal_iff (a : Nat) : isLocal a = true ↔ 2 ^ 56 ≤ a ∧ a < 2 ^ 60 := decide_eq_true_iff

theorem isLocal_localPlace {b : Nat} (h : b < 512) (ea : Word) : isLocal (localPlace b ea) = true := by
  have := localPlace_bounds h ea
  rw [isLocal_iff]
  omega

theorem isLocal_line {pa : Nat} (h : isLocal pa = true) : isLocal (64 * lineOf pa) = true := by
  rw [isLocal_iff] at h ⊢
  unfold lineOf
  omega

theorem isHost_of_local {pa : Nat} (h : isLocal pa = true) : isHost pa = false := by
  rw [isLocal_iff] at h
  exact decide_eq_false (by unfold hostBase; omega)

theorem isLost_of_local (m : Memory) {pa : Nat} (h : isLocal pa = true) (i : Nat) : m.isLost (pa + i) = false := by
  rw [isLocal_iff] at h
  exact m.isLost_above (by omega)

/-- A write in local store starts no fan-out. -/
theorem gate_local {s : State} (p : Pos) (agent : Nat) {line : Nat} (hl : isLocal (64 * line) = true)
    (hf : (s.fanouts.any fun f => f.line == line) = false) :
    s.gate p agent [line] = ({ s with fanouts := s.fanouts.filter fun f => f.agent != some agent }, true) := by
  have hnone : ∀ f ∈ s.fanouts, ¬ f.line = line := by simpa using hf
  simp only [State.gate, State.agentSharers, hl, Bool.false_and, Bool.false_eq_true, if_false, if_true, List.isEmpty_nil,
    Bool.true_or, List.foldl_cons, List.foldl_nil]
  refine if_pos ?_
  simp only [List.all_cons, List.all_nil, Bool.and_true, Bool.not_eq_true', List.any_eq_false]
  intro f hm
  simp [hnone f hm]

/-- It needs no place in a queue either. -/
theorem gateInLine_local {s : State} (p : Pos) (agent seq : Nat) {line : Nat} (hl : isLocal (64 * line) = true)
    (hf : (s.fanouts.any fun f => f.line == line) = false) :
    ∃ u, s.gateInLine p agent seq [line] = (u, true) ∧ SameThreads s u ∧ u.mem = s.mem ∧ u.braids = s.braids := by
  let others : State := { s with lineWaits := s.lineWaits.filter fun w => w.id != agent && decide (s.cycle ≤ w.last + 32) }
  have hplace : s.takePlace p agent seq [line] = (others, true) := by
    simp [State.takePlace, State.needsNoPlace, hl, others]
  unfold State.gateInLine
  rw [hplace]
  exact ⟨_, gate_local (s := others) p agent hl hf, ⟨rfl, rfl, rfl, rfl⟩, rfl, rfl⟩

/-- A plain store in local store leaves threads, requests and braids alone. -/
theorem storeEffect_local (s : State) (p : Pos) {a : Access} (hl : isLocal a.pa = true) :
    SameThreads s (s.storeEffect p a) ∧ (s.storeEffect p a).braids = s.braids := by
  unfold State.storeEffect State.noteOlder
  simp only [hl, Bool.or_true, Bool.true_or, if_true]
  exact ⟨⟨rfl, rfl, rfl, rfl⟩, rfl⟩

/-- The access of an element that x writes at ea in local store. -/
def State.elementStore (s : State) (x : Block) (ea : Word) : Access :=
  { id := x.id, seq := x.seq, kind := .store, va := ea, size := 2 ^ x.esize, tag := s.me.relTag, pa := localPlace s.cur.b ea
    within := x.within }

theorem withElement_local {s : State} {x : Block} {ea : Word} (k : State → Access → State)
    (hf : addressFault ea (2 ^ x.esize) false true = none) (he : s.entryOn s.cur ea = false) (hl : bit ea 55 = true)
    (hm : s.mayPerform s.cur (s.elementStore x ea) = true) :
    withElement s x ea true k = k s (s.elementStore x ea) := by
  unfold State.elementStore at hm ⊢
  simp only [withElement, hf, he, hl, hm, Bool.false_eq_true, if_true, if_false]

/-- The store that an element of a fill makes. -/
def State.fillStore (s : State) (x : Block) : Access := { s.elementStore x x.a with data := w64 x.key.toNat, poison := x.bPoison }

/-- The block instruction after an element of a fill. -/
def Block.filled (x : Block) : Block := { x with a := x.a + w64 (2 ^ x.esize), n := x.n - 1, fresh := false }

theorem blockNext_fill {s : State} {x : Block} (v : Nat) (hop : x.op = 2) (hn : 2 ≤ x.n.toNat) :
    s.blockNext x (x.after v) = s.modMe fun c => { c with block := some x.filled } := by
  have haft : x.after v = some { x with a := x.a + w64 (2 ^ x.esize), n := x.n - 1 } := by simp [Block.after, hop]
  have hleft : ¬ x.n - 1 = 0 := fun h => by bv_omega
  simp only [haft, State.blockNext, hleft, if_false]
  rfl

/-- An element of a fill in local store outside a transaction: its store, and the registers moved on. -/
theorem plainElement_fill {s : State} {x : Block} (hop : x.op = 2) (hn : 2 ≤ x.n.toNat)
    (hf : addressFault x.a (2 ^ x.esize) false true = none) (hl : bit x.a 55 = true) (hb : s.cur.b < 512)
    (he : s.entryOn s.cur x.a = false) (hfan : (s.fanouts.any fun f => f.line == lineOf (localPlace s.cur.b x.a)) = false)
    (hreq : s.requests = []) (hm : s.mayPerform s.cur (s.elementStore x x.a) = true) :
    ∃ u, SameThreads s u ∧ u.mem = s.mem ∧ u.braids = s.braids
      ∧ s.plainElement x = (u.storeEffect s.cur (s.fillStore x)).modMe fun c => { c with block := some x.filled } := by
  have hloc := isLocal_localPlace hb x.a
  obtain ⟨u, hgate, hsame, hmem, hbraids⟩ := gateInLine_local s.cur x.id x.seq (isLocal_line hloc) hfan
  have hsrc : x.source = none := by simp [Block.source, hop]
  have htgt : x.target = some x.a := by simp [Block.target, hop]
  have hgate' : s.gateInLine s.cur x.id x.seq [lineOf (s.elementStore x x.a).pa] = (u, true) := hgate
  refine ⟨u, hsame, hmem, hbraids, ?_⟩
  simp only [State.plainElement, hsrc, State.putElement, htgt]
  rw [withElement_local _ hf he hl hm]
  simp only [hgate', blockNext_fill _ hop hn, hsame.cur]
  refine State.scan_other fun q hq => ?_
  rw [State.modMe_requests, State.storeEffect_requests, hsame.requests, hreq] at hq
  cases hq

/-! ### The event of the block unit -/

/-- The executing position and unit are those of the block instruction x of context k, and the next turn is that of the context
behind it. -/
def State.blockTurn (s : State) (b r k : Nat) (x : Block) : State :=
  { (s.modRill b r fun y => { y with bNext := (k + 1) % 16 }) with cur := ⟨b, r, k⟩, upc := x.pc, ipc := x.pc, ulen := x.len }

/-- The block unit takes the context whose turn it is when that runs, has a block instruction and is in no transaction. -/
theorem exec_blockElement_plain {s : State} {b r k : Nat} {x : Block} (hnext : (s.rill b r).bNext = k) (hk : k < 16)
    (hrun : (s.ctx ⟨b, r, k⟩).run = .running) (hx : (s.ctx ⟨b, r, k⟩).block = some x) (ht : s.txDepth ⟨b, r, k⟩ = 0) :
    exec (.blockElement b r) s = .next (((s.blockTurn b r k x).plainElement x).leaveGroup ⟨b, r, k⟩) := by
  have hmod : (k + 0) % 16 = k := by omega
  have hrange : List.range 16 = 0 :: List.range' 1 15 := by decide
  have hin : (s.blockTurn b r k x).inTx = false := by
    change (s.txDepth ⟨b, r, k⟩ != 0) = false
    simp [ht]
  unfold State.blockTurn at hin ⊢
  change execBlockElement b r s = _
  unfold execBlockElement
  simp only [hnext, hrange]
  rw [List.find?_cons_of_pos (by simp [hrun, hx, Nat.mod_eq_of_lt hk])]
  simp only [hmod, State.ctx_modRill, hx, elementOf, hin, Bool.false_eq_true, if_false]

theorem leaveGroup_alone {s : State} {p : Pos} (h : s.groupOf p = none) :
    s.leaveGroup p = s.modCtx p fun c => { c with left := none } := by
  simp [State.leaveGroup, h]

theorem State.groupOf_congr {s t : State} (h : t.braids = s.braids) (p : Pos) : t.groupOf p = s.groupOf p := by
  rw [State.groupOf, State.groupOf, State.braid, State.braid, h]

theorem State.ctx_modMe_of_cur {s : State} {p : Pos} (f : Ctx → Ctx) (h : s.cur = p) : (s.modMe f).ctx p = f (s.ctx p) := by
  subst h
  exact s.me_modMe f

/-- The element of a fill in local store whose turn it is: memory after its store, and the block instruction after it. -/
theorem exec_blockElement_fill {s : State} {b r k : Nat} {x : Block} (hnext : (s.rill b r).bNext = k) (hk : k < 16)
    (hrun : (s.ctx ⟨b, r, k⟩).run = .running) (hx : (s.ctx ⟨b, r, k⟩).block = some x) (hop : x.op = 2) (hb : b < 512)
    (hn : 2 ≤ x.n.toNat) (hl : bit x.a 55 = true) (hf : addressFault x.a (2 ^ x.esize) false true = none)
    (ht : s.txDepth ⟨b, r, k⟩ = 0) (hg : s.groupOf ⟨b, r, k⟩ = none) (hreq : s.requests = [])
    (hm : (s.blockTurn b r k x).mayPerform ⟨b, r, k⟩ ((s.blockTurn b r k x).elementStore x x.a) = true)
    (he : (s.blockTurn b r k x).entryOn ⟨b, r, k⟩ x.a = false)
    (hfan : (s.fanouts.any fun f => f.line == lineOf (localPlace b x.a)) = false) :
    ∃ t u, exec (.blockElement b r) s = .next t ∧ State.mem u = s.mem ∧ (t.ctx ⟨b, r, k⟩).block = some x.filled
      ∧ t.mem = (u.storeEffect ⟨b, r, k⟩ ((s.blockTurn b r k x).fillStore x)).mem := by
  have hex := exec_blockElement_plain hnext hk hrun hx ht
  generalize hz : s.blockTurn b r k x = z at hm he hex
  have hcur : z.cur = ⟨b, r, k⟩ := by rw [← hz]; rfl
  obtain ⟨u, hu, hmem, hbraids, hel⟩ := plainElement_fill (s := z) hop hn hf hl (by rw [hcur]; exact hb)
    (by rw [hcur]; exact he) (by rw [hcur, ← hz]; exact hfan) (by rw [← hz]; exact hreq) (by rw [hcur]; exact hm)
  rw [hcur] at hel
  have hloc : isLocal (z.fillStore x).pa = true := isLocal_localPlace (by rw [hcur]; exact hb) x.a
  obtain ⟨hsame, hb2⟩ := storeEffect_local u ⟨b, r, k⟩ hloc
  have hgroup : (z.plainElement x).groupOf ⟨b, r, k⟩ = none := by
    rw [hel, ← hg]
    exact State.groupOf_congr (hb2.trans (hbraids.trans (by rw [← hz]; rfl))) _
  rw [leaveGroup_alone hgroup, hel] at hex
  refine ⟨_, u, hex, hmem.trans (by rw [← hz]; rfl), ?_, rfl⟩
  rw [State.ctx_modCtx, State.ctx_modMe_of_cur _ (hsame.cur.trans (hu.cur.trans hcur))]

/-- Settles O26: a block instruction that passes its checks is judged by its elements, its count and the room of the queue; an
element of a fill is one storeEffect in local store. -/
theorem blockResults : Obligations.BlockResults := by
  constructor
  · intro s n a b e l hn ha hb hal x hx pb hbl blk
    have hex := (exec_blockForms s n a b e l x hx).trans (startBlock_checked l hn ha hb hal pb hbl)
    have hblk : s.newBlock x.2 n a b e = blk := rfl
    have hop : blk.op = x.2 := rfl
    have hcount : blk.n = s.val n := rfl
    have hptr : blk.a = s.val a := rfl
    have hsize : blk.esize = e.toNat := rfl
    rw [hblk] at hex
    clear_value blk
    rw [hex]
    refine ⟨fun hill => if_pos hill, fun h2 hin ⟨i, hi, h55⟩ => if_pos ?_, fun h0 => ?_,
      fun h0 hill hroom => ⟨?_, fun c => ⟨addBlock_first _, fun y => addBlock_behind _⟩⟩⟩
    · exact blockIllegal_fill_local (i := i) (hop.trans h2) hin (by rwa [hcount]) (by rwa [hptr, hsize])
    · rw [if_neg (by rw [blockIllegal_of_no_element s (hcount.trans h0)]; simp), if_pos h0]
    · have hroom' : (s.cur.k != 15 && s.myRill.replayRoom == 0) = false := by
        rcases hroom with h | h
        · simp [h]
        · simp [Nat.ne_of_gt h]
      rw [if_neg (by simp [hill]), if_neg h0, if_neg (by simp [hroom'])]
  · intro s b r k x ea p place z hnext hk hrun hx hop hes hb hxa hn hl hf ht hm he hfan hreq hg
    subst hxa
    obtain ⟨t, u, hex, hu, hblock, hmem⟩ := exec_blockElement_fill hnext hk hrun hx hop hb hn hl hf ht hg hreq hm he hfan
    have hloc := isLocal_localPlace hb x.a
    obtain ⟨hread, hother, hp8, hp, -⟩ := storeEffect_frame u p (a := (s.blockTurn b r k x).fillStore x) rfl
      fun i _ => isLost_of_local _ hloc i
    rw [← hmem] at hread hother hp8 hp
    rw [hu] at hother hp
    have hh := isHost_of_local hloc
    refine ⟨t, hex, ?_, ?_, hother, hblock⟩
    · refine hread.trans (congrArg (· % 2 ^ (8 * 2 ^ x.esize)) ?_)
      exact BitVec.toNat_ofNat _ _ |>.trans (Nat.mod_eq_of_lt x.key.isLt)
    · split
      · next h3 => exact hp8 hh (by change 8 ≤ 2 ^ x.esize; simp [h3])
      · next h3 => exact hp hh (Nat.pow_lt_pow_right (a := 2) (n := 3) (by norm_num) (by omega))

end Sys2Proof.Machine
end

section
/-! PROOFS. Fences, LDA, STREL and widening (R164, R177, R188 to R193). -/

namespace Sys2Proof.Machine

/-! ### Fences (R188 to R190) -/

/-- Inside a transaction a fence goes on without effect. -/
theorem fence_in_tx {s : State} (f : AccKind → Bool) (f1 : Ctx → Ctx) (h : s.inTx = true) : fence s f f1 = .next s.advance :=
  if_pos h

/-- A fence whose accesses are done completes and leaves f1 in its thread. -/
theorem fence_done {s : State} {f : AccKind → Bool} (f1 : Ctx → Ctx) (hs : s.plain)
    (hd : s.doneBefore s.cur s.me.seq f = true) (he : s.edgesDone s.cur s.nextId f = true) :
    fence s f f1 = .next (s.modMe f1).advance := by
  unfold State.plain at hs
  simp [fence, hs, hd, he]

/-- What a release waits for is what a fence of every access waits for. -/
theorem fence_releases {s : State} (f1 : Ctx → Ctx) (hs : s.plain) (h : s.releases = true) :
    fence s (fun _ => true) f1 = .next (s.modMe f1).advance := by
  obtain ⟨hd, he⟩ := Bool.and_eq_true_iff.mp h
  exact fence_done f1 hs hd he

/-- R164, R177: what FENCE, FENCE.REL and FENCE.XP leave in their thread. -/
theorem Ctx.released_orders (c : Ctx) (sx : Nat) :
    (c.released sx).relTag = some sx ∧ (3 ≤ sx → (c.released sx).older = []) ∧ (sx < 3 → (c.released sx).older = c.older)
      ∧ (c.xpOrdered).older = [] :=
  ⟨rfl, fun h => if_pos h, fun h => if_neg (Nat.not_le.mpr h), rfl⟩

/-! ### LDA and STREL (R191, R192) -/

/-- An acquire load that passes its checks is issued as its one access, and its thread waits for it. -/
theorem exec_lda_plain {s : State} {d a : BitVec 5} {q t sx : BitVec 3} {x : BitVec 1} (hs : s.plain) (ha : s.clean a)
    (hf : addressFault (s.val a) (typeSize t.toNat) false true = none) :
    let qs := if x = 1 then some q.toNat else none
    exec (.lda d a q t x sx) s = issueAll s (s.me.dest d :: (qs.toList.map Dest.q)) none
      [{ id := 0, seq := 0, kind := .lda (typeSigned t.toNat) sx.toNat qs, va := s.val a, size := typeSize t.toNat, dst := s.me.dest d }]
      fun c => { c with wait := some (.access c.seq) } := by
  obtain ⟨ra, pa⟩ := ha
  unfold State.bad at pa
  unfold State.plain at hs
  change execLda d a q t x sx s = _
  unfold execLda
  rw [withReg_full _ ra, pa]
  simp only [hs, Bool.false_eq_true, if_false]
  exact withAddress_ok _ _ hf

/-- The same for a release store, once the accesses before it are done. -/
theorem exec_strel_plain {s : State} {d a : BitVec 5} {u : BitVec 2} {sx : BitVec 3} (hs : s.plain) (hd : s.ready d)
    (ha : s.clean a) (hf : addressFault (s.val a) (2 ^ u.toNat) false true = none) (hr : s.releases = true) :
    exec (.strel d a u sx) s = issueAll s [] none
      [{ id := 0, seq := 0, kind := .strel sx.toNat, va := s.val a, size := 2 ^ u.toNat, data := s.val d, poison := s.bad d
         tag := some sx.toNat }]
      fun c => { c with wait := some (.access c.seq) } := by
  obtain ⟨ra, pa⟩ := ha
  unfold State.bad at pa
  unfold State.plain at hs
  change execStrel d a u sx s = _
  unfold execStrel
  rw [withReg_full _ hd, withReg_full _ ra, pa, typeSize_of_size]
  simp only [hs, hr, Bool.not_true, Bool.false_eq_true, if_false]
  exact withAddress_ok _ _ hf

/-! ### Widening (R193) -/

theorem supervisorOnly_context15 {s : State} (hk : s.cur.k = 15) (k : Res) : supervisorOnly s k = k := if_pos hk

/-- Context 15 widens the tags of a word of its local store at once. -/
theorem exec_fenceRelWiden_local {s : State} {a b : BitVec 5} (sx : BitVec 3) (hs : s.plain) (hk : s.cur.k = 15) (ha : s.clean a)
    (hb : s.clean b) (hf : addressFault (s.val a) 8 false true = none) (hl : bit (s.val a) 55 = true) :
    exec (.fenceRelWiden a b sx) s
      = .next ((s.widen { s.cur with k := field (s.val b) 3 0 } (localPlace s.cur.b (s.val a)) sx.toNat).advance) := by
  obtain ⟨ra, pa⟩ := ha
  obtain ⟨rb, pb⟩ := hb
  unfold State.bad at pa pb
  change execFenceRelWiden a b sx s = _
  unfold execFenceRelWiden
  rw [outsideTx_plain hs, supervisorOnly_context15 hk, withReg_full _ ra, withReg_full _ rb, pa, pb]
  exact (withAddress_ok _ _ hf).trans (if_pos hl)

/-- Settles O20: each fence is `fence` of the accesses that it orders, LDA and STREL are issued as their one access, and widening
is a privileged form. -/
theorem fenceResults : Obligations.FenceResults := by
  refine ⟨fun s sx => ⟨fun h => ?_, fun hs => ⟨fun h => ?_, fun c => c.released_orders sx.toNat,
      fun hd he => fence_done id hs hd he, fun hd he => fence_done Ctx.xpOrdered hs hd he⟩⟩,
    fun s s1 d a b q t sx x u a1 hs hd ha hb hroom => ⟨fun hf => ?_, fun hf hr => ?_,
      fun hk hf hl => exec_fenceRelWiden_local sx hs hk ha hb hf hl, fun hk => privileged_user hs hk 0x15 _⟩⟩
  · simp only [List.forall_mem_cons, List.not_mem_nil, false_implies, implies_true, and_true]
    exact ⟨fence_in_tx _ _ h, fence_in_tx _ _ h, fence_in_tx _ _ h, fence_in_tx _ _ h⟩
  · simp only [List.forall_mem_cons, List.not_mem_nil, false_implies, implies_true, and_true]
    exact ⟨fence_releases _ hs h, fence_releases _ hs h⟩
  · intro qs y hp
    exact (exec_lda_plain hs ha hf).trans (issueOne_go y hroom hp)
  · intro y hp
    exact (exec_strel_plain hs hd ha hf hr).trans (issueOne_go y hroom hp)

end Sys2Proof.Machine
end

section
/-! PROOFS. Translations, and the lines that the engines own, when rills or braids change in other respects (R176, R402). -/

namespace Sys2Proof.Machine

/-! ### Translation -/

/-- t is s with other rills and braids, which have the cached translations and the owners of those of s. -/
structure TranslatesAlike (s t : State) : Prop where
  tables : t = { s with rills := t.rills, braids := t.braids }
  rillTlb : ∀ b r, (t.rill b r).tlb = (s.rill b r).tlb
  braidTlb : ∀ b, (t.braid b).tlb = (s.braid b).tlb
  gran : ∀ b, (t.braid b).gran = (s.braid b).gran

namespace TranslatesAlike

variable {s t : State} (h : TranslatesAlike s t)
include h

theorem ctxs : t.ctxs = s.ctxs := (congrArg State.ctxs h.tables :)

theorem basinOf (b : Nat) : t.basinOf b = s.basinOf b := by
  rw [State.basinOf, State.basinOf, h.gran]

theorem walks (n va root : Nat) : t.walks n va root = s.walks n va root :=
  (congrArg (fun x : State => x.walks n va root) h.tables :)

theorem vias (p : Pos) (n asid root va : Nat) : t.vias p n asid root va = s.vias p n asid root va := by
  have hc : t.cachedLeaf p n asid va = s.cachedLeaf p n asid va := by
    simp only [State.cachedLeaf, h.rillTlb, h.braidTlb]
  simp only [State.vias, hc, h.walks]

theorem via (p : Pos) (n asid root va : Nat) : t.via p n asid root va = s.via p n asid root va := by
  rw [State.via, State.via, h.vias]
  simp only [State.drawn, congrArg State.free h.tables]

theorem leafFault (n : Nat) (user : Bool) (need : Need) (leaf : Word) (pa : Nat) :
    t.leafFault n user need leaf pa = s.leafFault n user need leaf pa :=
  (congrArg (fun x : State => x.leafFault n user need leaf pa) h.tables :)

theorem afterDraw (vs : List Via) : TranslatesAlike (s.afterDraw vs) (t.afterDraw vs) := by
  unfold State.afterDraw
  split
  · exact { h with tables := congrArg (fun x : State => { x with free := x.free + 1 }) h.tables }
  · exact h

theorem askHost (p : Pos) (n asid va : Nat) (need : Need) (leaf : Word) (size : Nat) :
    (t.askHost p n asid va need leaf size).2 = (s.askHost p n asid va need leaf size).2 := by
  have ha : t.atsFor n asid va = s.atsFor n asid va := by
    simp only [State.atsFor, State.atsBasin, h.basinOf, congrArg State.ats h.tables]
  unfold State.askHost
  rw [ha]
  cases s.atsFor n asid va with
  | none => rfl
  | some q => simp only [h.leafFault]; split_ifs <;> rfl

theorem translateLeaf (p : Pos) (n asid va : Nat) (user : Bool) (need : Need) (leaf : Word) (lvl : Nat) :
    (t.translateLeaf p n asid va user need leaf lvl).2 = (s.translateLeaf p n asid va user need leaf lvl).2 := by
  unfold State.translateLeaf
  dsimp only
  rw [h.leafFault]
  split
  · rfl
  · split
    · exact h.askHost _ _ _ _ _ _ _
    · rfl

theorem translate (p : Pos) (va : Word) (need : Need) : (t.translate p va need).2 = (s.translate p va need).2 := by
  have hsr : t.srAt p 0x0A0 = s.srAt p 0x0A0 := by simp only [State.srAt, State.ctx, h.ctxs]
  unfold State.translate State.translateAs
  dsimp only
  rw [hsr, h.basinOf, h.via, h.vias]
  generalize s.vias p _ _ _ _ = vs
  have hd := h.afterDraw vs
  split
  · unfold State.translateHit
    simp only [hd.leafFault]
  · next w _ =>
    cases w with
    | leaf l k => exact hd.translateLeaf _ _ _ _ _ _ _ _
    | fault c => rfl
    | poisoned => rfl

/-! ### Ownership -/

theorem linesFor (p : Pos) (need : Need) (vas : List Word) : t.linesFor p need vas = s.linesFor p need vas := by
  simp only [State.linesFor, State.placeOf, h.translate]

/-- Where t has no braid that s has not, it has no operation of an engine that s has not. -/
theorem engOps_subset (hb : ∀ e ∈ t.braids, e ∈ s.braids) : ∀ o ∈ t.engOps, o ∈ s.engOps := by
  simp only [State.engOps, h.linesFor, h.ctxs, List.mem_append, List.mem_flatMap, List.mem_map, List.mem_filter]
  rintro o ((⟨e, he, hc⟩ | hs) | ⟨e, he, hm⟩)
  · exact .inl (.inl ⟨e, hb e he, hc⟩)
  · exact .inl (.inr hs)
  · exact .inr ⟨e, hb e he, hm⟩

theorem engOps (hb : t.braids = s.braids) : t.engOps = s.engOps := by
  simp only [State.engOps, h.linesFor, h.ctxs, hb]

theorem ownedLine_eq_false (hb : ∀ e ∈ t.braids, e ∈ s.braids) {line : Nat} {limit : Option Nat}
    (ho : s.ownedLine line limit = false) : t.ownedLine line limit = false := by
  rw [State.ownedLine, State.ownedBy, List.any_eq_false] at ho ⊢
  exact fun o hm => ho o (h.engOps_subset hb o hm)

theorem readWaits (hb : t.braids = s.braids) (id line : Nat) : t.readWaits id line = s.readWaits id line := by
  simp only [State.readWaits, h.engOps hb]

end TranslatesAlike

/-- A change of a rill that keeps its cached translations. -/
theorem translatesAlike_modRill (s : State) (b r : Nat) {f : Rill → Rill} (hf : ∀ x, (f x).tlb = x.tlb) :
    TranslatesAlike s (s.modRill b r f) := by
  refine ⟨rfl, fun c q => ?_, fun _ => rfl, fun _ => rfl⟩
  have hget : (s.modRill b r f).rill c q = if rillKey c q = rillKey b r then f (s.rill b r) else s.rill c q :=
    Table.get_put _ _ _ _ _
  rw [hget]
  split
  · next e => rw [hf, State.rill, State.rill, e]
  · rfl

/-- A braid written again as it is. -/
theorem translatesAlike_setBraid_self (s : State) (b : Nat) : TranslatesAlike s (s.setBraid b (s.braid b)) := by
  have hget (c : Nat) : (s.setBraid b (s.braid b)).braid c = s.braid c := by
    rw [State.braid, State.setBraid, Table.get_put]
    split
    · next e => rw [e]
    · rfl
  exact ⟨rfl, fun _ _ => rfl, fun c => by rw [hget], fun c => by rw [hget]⟩

theorem Table.mem_put {α : Type} {t : Table α} {k : Nat} {v : α} {e : Nat × α} (h : e ∈ t.put k v) : e = (k, v) ∨ e ∈ t := by
  induction t with
  | nil => exact .inl (List.mem_singleton.mp h)
  | cons x t ih =>
    obtain ⟨j, w⟩ := x
    simp only [Table.put] at h
    split_ifs at h with h1 h2
    · exact List.mem_cons.mp h
    · exact (List.mem_cons.mp h).imp_right (List.mem_cons_of_mem _)
    · rcases List.mem_cons.mp h with h | h
      · exact .inr (h ▸ List.mem_cons_self)
      · exact (ih h).imp_right (List.mem_cons_of_mem _)

/-- An entry that does not read as the default is listed. -/
theorem Table.mem_of_get_ne {α : Type} {d : α} {t : Table α} {k : Nat} (h : t.get d k ≠ d) : (k, t.get d k) ∈ t := by
  induction t with
  | nil => exact absurd rfl h
  | cons x t ih =>
    obtain ⟨j, w⟩ := x
    simp only [Table.get] at h ⊢
    split_ifs at h ⊢ with hj
    · exact hj ▸ List.mem_cons_self
    · exact List.mem_cons_of_mem _ (ih h)

/-- A braid that has copy commands, written again as it is, owns no further line. -/
theorem ownedLine_setBraid_self {s : State} {b line : Nat} {limit : Option Nat} (hc : (s.braid b).copies ≠ [])
    (ho : s.ownedLine line limit = false) : (s.setBraid b (s.braid b)).ownedLine line limit = false := by
  refine (translatesAlike_setBraid_self s b).ownedLine_eq_false (fun e he => ?_) ho
  rcases Table.mem_put he with rfl | he
  · exact Table.mem_of_get_ne fun e => hc (congrArg Braid.copies e)
  · exact he

end Sys2Proof.Machine
end

section
/-! PROOFS. Accesses of the engines to local store (R176, R177, R196). -/

namespace Sys2Proof.Machine

theorem State.engineReach_fault {s : State} {p : Pos} {va : Word} {size c : Nat} (id : Nat) (write : Bool)
    (h : addressFault va size false false = some c) : s.engineReach p id va size write = (s, .stop c) := by
  simp only [State.engineReach, h]

theorem State.engineReach_read_local {s : State} {p : Pos} {id : Nat} {va : Word} {size : Nat}
    (hf : addressFault va size false false = none) (hl : bit va 55 = true) (hw : s.readWaits id (lineOf (localPlace p.b va)) = false)
    (hk : s.lockOf (lineOf (localPlace p.b va)) ≠ 2) (hb : p.b < 512) :
    s.engineReach p id va size false = (s, .ok (localPlace p.b va)) := by
  simp [State.engineReach, hf, hl, hw, hk, isLocal_localPlace hb]

theorem State.engineReach_write_local {s : State} {p : Pos} {id : Nat} {va : Word} {size : Nat}
    (hf : addressFault va size false false = none) (hl : bit va 55 = true)
    (ho : s.ownedLine (lineOf (localPlace p.b va)) (some id) = false) (hk : s.lockOf (lineOf (localPlace p.b va)) = 0)
    (hr : s.requests = []) (hb : p.b < 512) :
    s.engineReach p id va size true = (s, .ok (localPlace p.b va)) := by
  simp [State.engineReach, hf, hl, ho, hk, State.halfDone, hr, isLocal_localPlace hb]

/-- A source read in local store where no older value may still be returned. -/
theorem State.engineLoad_current {s : State} {p : Pos} {xp : Bool} {after seq pa : Nat} (id n : Nat) (hl : isLocal pa = true)
    (h : xp = true ∨ ∀ o ∈ (s.ctx p).older, o.word ≠ wordOf pa ∨ o.seq < after) :
    s.engineLoad p xp after seq id pa n = (s.mem.read pa n, s.mem.poisoned pa) := by
  have hnone : (if xp then [] else (s.ctx p).older.filter fun o =>
      o.word == wordOf pa && decide (after ≤ o.seq) && decide (o.seq < seq)) = [] := by
    rcases h with h | h
    · rw [if_pos h]
    · refine ite_eq_left_iff.mpr fun _ => List.filter_eq_nil_iff.mpr fun o ho => ?_
      rcases h o ho with hw | ha
      · simp [hw]
      · simp [Nat.not_le.mpr ha]
  simp [State.engineLoad, hnone, Memory.load, isHost_of_local hl]

/-- The state after an engine's write in local store, where no request is parked. -/
def State.locallyStored (s : State) (pa n v : Nat) (bad : Bool) : State :=
  ({ s with mem := (s.mem.store pa n v bad).setTags pa none n } : State).wrote (lineOf pa)

theorem State.engineStore_local {s : State} {pa : Nat} (n v : Nat) (bad : Bool) (hl : isLocal pa = true) (hr : s.requests = []) :
    s.engineStore pa n v bad = s.locallyStored pa n v bad := by
  unfold State.engineStore State.homeStore
  rw [if_pos hl]
  refine State.scan_other fun q hq => ?_
  have hq' : q ∈ s.requests := hq
  rw [hr] at hq'
  cases hq'

theorem State.read_locallyStored (s : State) {pa n : Nat} (v : Nat) (bad : Bool) (h : ∀ i < n, s.mem.isLost (pa + i) = false) :
    (s.locallyStored pa n v bad).mem.read pa n = v % 2 ^ (8 * n) := by
  rw [State.locallyStored, State.wrote_mem, Memory.read_setTags, Memory.read_store _ _ _ _ _ h]

theorem State.byte_locallyStored (s : State) {pa n x : Nat} (v : Nat) (bad : Bool) (h : x < pa ∨ pa + n ≤ x) :
    (s.locallyStored pa n v bad).mem.byte x = s.mem.byte x := by
  rw [State.locallyStored, State.wrote_mem, Memory.byte_setTags, Memory.byte_store, Memory.byte_write_other _ _ _ _ _ h]

end Sys2Proof.Machine
end

section
/-! PROOFS. Stream instructions (R197, R202 to R205, R215, R217). -/

namespace Sys2Proof.Machine

/-- A field of threads that a change of one thread keeps. -/
theorem State.modCtx_keeps {α : Type} {f : Ctx → Ctx} {g : Ctx → α} (h : ∀ c, g (f c) = g c) (s : State) (p q : Pos) :
    g ((s.modCtx q f).ctx p) = g (s.ctx p) := by
  by_cases hk : p.key = q.key
  · have hpq (t : State) : t.ctx p = t.ctx q := by rw [State.ctx, State.ctx, hk]
    rw [hpq, hpq, State.ctx_modCtx, h]
  · rw [State.ctx_modCtx_other _ _ hk]

theorem State.streams_advance (s : State) (p : Pos) : (s.advance.ctx p).streams = (s.ctx p).streams :=
  State.modCtx_keeps (f := fun c => { c with pc := s.nextPc, took := false }) (g := Ctx.streams) (fun _ => rfl) s p s.cur

@[simp] theorem State.cc_raiseCc (s : State) (b r m : Nat) : ((s.raiseCc b r m).rill b r).cc.get 0 m = (s.rill b r).cc.get 0 m + 1 := by
  rw [State.raiseCc, State.rill_modRill, Table.get_put_same]

@[simp] theorem State.cc_lowerCc (s : State) (b r m : Nat) : ((s.lowerCc b r m).rill b r).cc.get 0 m = (s.rill b r).cc.get 0 m - 1 := by
  rw [State.lowerCc, State.rill_modRill, Table.get_put_same]

theorem withOx_clean {s : State} {o n : Nat} (k : List Word → Res)
    (h : (s.me.oxBlock o n).all (fun x => x.full && !x.poison) = true) :
    withOx s o n k = k ((s.me.oxBlock o n).map fun x => x.val) := by
  have hx : ∀ x ∈ s.me.oxBlock o n, x.full = true ∧ x.poison = false := by simpa using h
  have hfull : (s.me.oxBlock o n).all (fun x => x.full) = true := List.all_eq_true.mpr fun x hm => (hx x hm).1
  have hclean : (s.me.oxBlock o n).find? (fun x => x.poison) = none := List.find?_eq_none.mpr fun x hm => by simp [(hx x hm).2]
  rw [withOx, if_pos hfull, hclean]

theorem streamUnit_empty {s : State} (hs : s.plain) (hv : s.me.vseq = []) (k : Res) : streamUnit s k = k := by
  rw [streamUnit, outsideTx_plain hs, hv]
  rfl

/-! ### SBIND_IN and SBIND_OUT (R202) -/

theorem exec_sbind (s : State) (v : BitVec 2) (b : BitVec 5) (o c : BitVec 3) (l : BitVec 4) (xb : BitVec 1) :
    ∀ z ∈ [((.sbindIn xb v b o c l : Instr), true, xb == 1), (.sbindOut v b o c l, false, false)],
      exec z.1 s = bind s z.2.1 v b o c z.2.2 := by
  simp only [List.forall_mem_cons, List.not_mem_nil, false_implies, implies_true, and_true]
  exact ⟨rfl, rfl⟩

/-- The slot that an SBIND with words ws binds. -/
def State.boundSlot (s : State) (input : Bool) (b : BitVec 5) (c : BitVec 3) (xp : Bool) (ws : List Word) : Stream :=
  { input := input, base := ws.getD 0 0, w1 := ws.getD 1 0, w2 := ws.getD 2 0, w3 := ws.getD 3 0, ctl := s.val b
    cc := c.toNat, xp := xp, seq := s.me.seq, after := s.wideRelease s.cur, start := field (s.val b) 63 32 }

section bind
variable {s : State} (input : Bool) (v : BitVec 2) {b : BitVec 5} {o : BitVec 3} (c : BitVec 3) (xp : Bool) {ws : List Word}
  (hs : s.plain) (hv : s.me.vseq = []) (hb : s.ready b)
include hs hv hb

theorem bind_poisoned (hp : s.bad b = true) : bind s input v b o c xp = .next (s.trapTo 0x0C 0x8000000000000300) := by
  rw [bind, streamUnit_empty hs hv, withReg_full _ hb]
  exact if_pos hp

variable (hp : s.bad b = false) (ho : (s.me.oxBlock o.toNat 4).all (fun x => x.full && !x.poison) = true)
  (hw : ws = (s.me.oxBlock o.toNat 4).map fun x => x.val)
include hp ho hw

theorem bind_fault {cause val : Nat}
    (hf : bindFault (s.me.streams.find v.toNat).isSome (12 + v.toNat) o.toNat (s.val b) ws = some (cause, val)) :
    bind s input v b o c xp = .next (s.trapTo cause (w64 val)) := by
  unfold State.bad at hp
  unfold State.val at hf
  subst hw
  simp only [bind, streamUnit_empty hs hv, withReg_full _ hb, hp, withOx_clean _ ho, hf]
  rfl

theorem bind_free (hf : bindFault (s.me.streams.find v.toNat).isSome (12 + v.toNat) o.toNat (s.val b) ws = none)
    (hcc : s.myRill.cc.get 0 c.toNat < 0xFFFF) :
    bind s input v b o c xp = .next (((s.modMe fun t =>
      { t with streams := t.streams.put v.toNat (s.boundSlot input b c xp ws) }).raiseCc s.cur.b s.cur.r c.toNat).advance) := by
  unfold State.bad at hp
  unfold State.val at hf
  subst hw
  simp only [bind, streamUnit_empty hs hv, withReg_full _ hb, hp, withOx_clean _ ho, hf, Nat.ne_of_lt hcc, if_false]
  rfl

end bind

/-! ### SUNBIND, SDRAIN and SSTAT (R203 to R205) -/

section slot
variable {s : State} {v : BitVec 2} {x : Stream} (hs : s.plain) (hv : s.me.vseq = [])
include hs hv

theorem exec_streamForms_unbound (d : BitVec 5) (hn : s.me.streams.find v.toNat = none) :
    exec (.sunbind v) s = .next s.advance ∧ exec (.sdrain v) s = .next s.advance
      ∧ exec (.sstat v d) s = .next (s.put d 0 false) := by
  refine ⟨?_, ?_, ?_⟩
  · change execSunbind v s = _
    rw [execSunbind, streamUnit_empty hs hv, hn]
  · change execSdrain v s = _
    rw [execSdrain, streamUnit_empty hs hv, hn]
    rfl
  · change execSstat v d s = _
    rw [execSstat, streamUnit_empty hs hv, hn]
    rfl

variable (hx : s.me.streams.find v.toNat = some x)
include hx

theorem exec_sdrain_drained (hd : x.undrained = false) : exec (.sdrain v) s = .next s.advance := by
  change execSdrain v s = _
  rw [execSdrain, streamUnit_empty hs hv, hx]
  simp [hd]

theorem exec_sunbind_drained (hd : x.undrained = false) :
    exec (.sunbind v) s = .next (s.unbind s.cur v.toNat x).advance := by
  change execSunbind v s = _
  rw [execSunbind, streamUnit_empty hs hv, hx]
  simp [hd]

theorem exec_sstat_bound (d : BitVec 5) : exec (.sstat v d) s = .next (s.put d x.status false) := by
  change execSstat v d s = _
  rw [execSstat, streamUnit_empty hs hv, hx]
  rfl

end slot

/-- A slot that is freed: its register reads zero, and its counter is lower. -/
theorem State.unbind_advance (s : State) (v : Nat) (x : Stream) :
    let t := (s.unbind s.cur v x).advance
    t.me.streams = s.me.streams.drop v ∧ t.me.vreg (12 + v) = {} ∧ t.myRill.cc.get 0 x.cc = s.myRill.cc.get 0 x.cc - 1
      ∧ t.me.pc = s.nextPc := by
  have hme : (s.unbind s.cur v x).me = { (s.me.setVreg (12 + v) {}) with streams := s.me.streams.drop v } :=
    s.me_modMe fun c => { (c.setVreg (12 + v) {}) with streams := c.streams.drop v }
  refine ⟨?_, ?_, State.cc_lowerCc _ _ _ _, ?_⟩
  · rw [State.me_advance, hme]
  · rw [State.me_advance, hme]
    exact Table.get_put_same _ _ _ _
  · rw [State.me_advance]
    rfl

theorem Stream.undrained_eq_false {x : Stream} (h : x.input = true ∨ x.fifo = []) : x.undrained = false := by
  rcases h with h | h <;> simp [Stream.undrained, h]

theorem bit_eq_of_toNat {w : Word} {k : Nat} {b : Bool} (h : w.toNat / 2 ^ k % 2 = b.toNat) : bit w k = b := by
  rw [bit, h]
  cases b <;> rfl

/-- The entries that SSTAT counts: ready ones of an input slot, pushed ones of an output slot. -/
def Stream.counted (x : Stream) : Nat := if x.input then (x.fifo.filter x.ready).length else x.fifo.length

theorem Stream.counted_le (x : Stream) : x.counted ≤ x.fifo.length := by
  unfold Stream.counted
  split
  · exact List.length_filter_le _ _
  · exact Nat.le_refl _

/-- SSTAT's word in fields: position, entries, and five bits. -/
theorem Stream.status_toNat {x : Stream} (h : x.fifo.length ≤ 8) :
    x.status.toNat = x.pos % 2 ^ 48 * 2 ^ 16 + x.counted * 2 ^ 8 + x.canc.toNat * 16 + x.ended.toNat * 8 + x.flt.toNat * 4
      + (!x.input).toNat * 2 + 1 := by
  have hcanc : (if x.canc then 16 else 0) = x.canc.toNat * 16 := by cases x.canc <;> rfl
  have hended : (if x.ended then 8 else 0) = x.ended.toNat * 8 := by cases x.ended <;> rfl
  have hflt : (if x.flt then 4 else 0) = x.flt.toNat * 4 := by cases x.flt <;> rfl
  have hdir : (if x.input then 0 else 2) = (!x.input).toNat * 2 := by cases x.input <;> rfl
  have hcount := x.counted_le
  have h1 := x.canc.toNat_le
  have h2 := x.ended.toNat_le
  have h3 := x.flt.toNat_le
  have h4 := (!x.input).toNat_le
  rw [Stream.status, ← Stream.counted, hcanc, hended, hflt, hdir]
  refine (BitVec.toNat_ofNat _ _).trans (Nat.mod_eq_of_lt ?_)
  omega

theorem Stream.status_fields {x : Stream} (h : x.fifo.length ≤ 8) :
    bit x.status 0 = true ∧ bit x.status 1 = !x.input ∧ bit x.status 2 = x.flt ∧ bit x.status 3 = x.ended ∧ bit x.status 4 = x.canc
      ∧ field x.status 63 16 = x.pos % 2 ^ 48 ∧ field x.status 15 8 = x.counted := by
  have hw := x.status_toNat h
  have hcount := x.counted_le
  have h1 := x.canc.toNat_le
  have h2 := x.ended.toNat_le
  have h3 := x.flt.toNat_le
  have h4 := (!x.input).toNat_le
  refine ⟨bit_eq_of_toNat ?_, bit_eq_of_toNat ?_, bit_eq_of_toNat ?_, bit_eq_of_toNat ?_, bit_eq_of_toNat ?_, ?_, ?_⟩
  · rw [hw, Bool.toNat_true]
    omega
  · omega
  · omega
  · omega
  · omega
  · unfold field
    omega
  · unfold field
    omega

/-! ### SRES (R215, R217) -/

theorem exec_sres_bound {s : State} {a b : BitVec 5} {x : Stream} {n : Nat} (hs : s.plain) (hv : s.me.vseq = []) (hk : s.cur.k = 15)
    (ha : s.clean a) (hb : s.clean b) (hn : field (s.val a) 20 16 = 12 + n) (h4 : n < 4)
    (hx : (s.ctx { s.cur with k := field (s.val a) 3 0 }).streams.find n = some x) :
    exec (.sres a b) s = if x.flt then
        .next ((((if s.val b = 1 then x.fifo.foldl (fun t e => t.dropGate e.id) s else s).modCtx
          { s.cur with k := field (s.val a) 3 0 } fun c => { c with streams := c.streams.put n (x.resolve (s.val b)) }).advance))
      else .next s.advance := by
  obtain ⟨ra, pa⟩ := ha
  obtain ⟨rb, pb⟩ := hb
  have h12 : (12 ≤ 12 + n && decide (12 + n ≤ 15)) = true := by simp; omega
  have hsub : 12 + n - 12 = n := Nat.add_sub_cancel_left _ _
  unfold State.val at hn hx ⊢
  change execSres a b s = _
  unfold execSres
  rw [outsideTx_plain hs, supervisorOnly_context15 hk, streamUnit_empty hs hv, withControls_clean _ ra rb pa pb]
  simp only [hn, h12, if_true, hsub, hx]

/-- What SRES leaves in its slot. -/
theorem State.slot_resolved (s : State) (p : Pos) (n : Nat) (x : Stream) :
    ((s.modCtx p fun c => { c with streams := c.streams.put n x }).advance.ctx p).streams.find n = some x := by
  rw [State.streams_advance, State.ctx_modCtx]
  exact Table.find_put_same _ _ _

end Sys2Proof.Machine
end

section
/-! PROOFS. One step of the stream engine (R194, R199, R200, R214). -/

namespace Sys2Proof.Machine

/-! ### Records for context 15 leave slots alone -/

theorem State.streams_setSr (s : State) (p q : Pos) (n : Nat) (v : Word) : ((s.setSr q n v).ctx p).streams = (s.ctx p).streams :=
  State.modCtx_keeps (f := fun c => { c with sr := c.sr.put n v }) (g := Ctx.streams) (fun _ => rfl) s p q

theorem State.streams_takeRecord {s t : State} {b r : Nat} (p : Pos) (h : s.takeRecord b r = some t) :
    (t.ctx p).streams = (s.ctx p).streams := by
  unfold State.takeRecord at h
  split at h
  · cases h
  · cases h
    rw [State.streams_setSr, State.streams_setSr, State.streams_setSr, State.ctx_modRill]

theorem Ctx.streams_setCellAt (c : Ctx) (d : Dest) (x : Cell) : (c.setCellAt d x).streams = c.streams := by
  cases d <;> rfl

theorem State.streams_endEvwait (s : State) (b r : Nat) (d : Dest) (v : Word) (p : Pos) :
    ((s.endEvwait b r d v).ctx p).streams = (s.ctx p).streams :=
  State.modCtx_keeps (f := fun c => { c.setCellAt d { val := v } with wait := none, startAt := s.cycle + 4 }) (g := Ctx.streams)
    (fun c => c.streams_setCellAt _ _) s p _

theorem State.streams_post (s : State) (b r : Nat) (e : EventRec) (p : Pos) : ((s.post b r e).ctx p).streams = (s.ctx p).streams := by
  unfold State.post
  dsimp only
  split
  · split
    · next h => rw [State.streams_endEvwait, State.streams_takeRecord p h, State.ctx_modRill]
    · rfl
  · rfl

theorem State.find_setSlot (s : State) (p : Pos) (v : Nat) (x : Stream) : ((s.setSlot p v x).ctx p).streams.find v = some x := by
  rw [State.setSlot, State.ctx_modCtx]
  exact Table.find_put_same _ _ _

/-! ### Whose turn it is -/

/-- The next turn is that of the slot behind slot v of p. -/
def State.slotTurn (s : State) (p : Pos) (v : Nat) : State :=
  s.modRill p.b p.r fun y => { y with sNext := (p.k * 4 + v + 1) % 64 }

theorem translatesAlike_slotTurn (s : State) (p : Pos) (v : Nat) : TranslatesAlike s (s.slotTurn p v) :=
  translatesAlike_modRill s p.b p.r fun _ => rfl

theorem replay_slotTurn (s : State) (p : Pos) (v : Nat) : ((s.slotTurn p v).rill p.b p.r).replay = (s.rill p.b p.r).replay := by
  rw [State.slotTurn, State.rill_modRill]

theorem earlierOn_slotTurn (s : State) (p : Pos) (v seq pa size : Nat) (va : Word) :
    (s.slotTurn p v).earlierOn p seq pa size va = s.earlierOn p seq pa size va := by
  simp only [State.earlierOn, replay_slotTurn]
  rfl

/-- The engine reads for an input slot whose turn it is: the first entry e that is not ready becomes e1. -/
theorem exec_streamFetch_slot {s s1 : State} {p : Pos} {v : Nat} {x y : Stream} {e e1 : SEntry} {ready : List SEntry}
    (hn : s.nextSlot p.b p.r s.slotWorks = some (p, v, x)) (hi : x.input = true) (hq : x.fifo = ready ++ [e])
    (hr : ∀ z ∈ ready, x.ready z = true) (he : x.ready e = false)
    (hf : fetchEntry p v x x.lanes none e (s.slotTurn p v) = (s1, e1)) (hy : (s1.ctx p).streams.find v = some y)
    (hyq : y.fifo = x.fifo) (hyl : y.ctl = x.ctl) :
    exec (.streamFetch p.b p.r) s = .next (s1.setSlot p v { y with fifo := ready ++ [e1] }) := by
  have hready (z : SEntry) : y.ready z = x.ready z := by
    rw [Stream.ready, Stream.ready, Stream.lanes, Stream.lanes, Stream.esize, Stream.esize, hyl]
  have hfind : x.fifo.find? (fun z => !x.ready z) = some e := by
    rw [hq, List.find?_append, List.find?_eq_none.mpr fun z hz => by simp [hr z hz], Option.none_or]
    simp [he]
  have hall : ∀ z ∈ ready, y.ready z = true := fun z hz => (hready z).trans (hr z hz)
  have htake : y.fifo.takeWhile y.ready = ready := by
    rw [hyq, hq, List.takeWhile_append_of_pos hall]
    simp [hready, he]
  have hdrop : y.fifo.dropWhile y.ready = [e] := by
    rw [hyq, hq, List.dropWhile_append_of_pos hall]
    simp [hready, he]
  change execStreamFetch p.b p.r s = _
  unfold State.slotTurn at hf
  unfold execStreamFetch
  simp only [hn, hi, Bool.not_true, Bool.false_eq_true, if_false, hfind, Option.getD_some, hf, hy, htake, hdrop,
    List.drop_one, List.tail_cons]

/-- The engine stores for an output slot whose turn it is. -/
theorem exec_streamStore_slot {s s1 : State} {p : Pos} {v : Nat} {x y : Stream} {e e1 : SEntry} {rest : List SEntry}
    (hn : s.nextSlot p.b p.r s.slotWorks = some (p, v, x)) (hi : x.input = false) (hq : x.fifo = e :: rest)
    (hf : storeEntry p v x (x.lanes + 1) none e (s.slotTurn p v) = (s1, e1)) (hy : (s1.ctx p).streams.find v = some y)
    (hdone : y.toStore e1 = []) :
    exec (.streamStore p.b p.r) s = .next (s1.setSlot p v { y with fifo := rest }) := by
  change execStreamStore p.b p.r s = _
  unfold State.slotTurn at hf
  unfold execStreamStore
  simp only [hn, hi, Bool.false_eq_true, if_false, hq, hf, hy, hdone, List.isEmpty_nil, if_true]

/-! ### The last element of an entry -/

theorem fetchEntry_ready (p : Pos) (v : Nat) {x : Stream} (n : Nat) (line : Option Nat) {e : SEntry} (s : State)
    (h : x.lanes ≤ e.done) : fetchEntry p v x n line e s = (s, e) := by
  cases n with
  | zero => rfl
  | succ n => rw [fetchEntry, if_pos h]

/-- An entry after its next element has been read. -/
def SEntry.fetched (e : SEntry) (esize : Nat) (w : Nat × Bool) : SEntry :=
  { e with val := e.val ||| BitVec.ofNat 256 (w.1 * 2 ^ (8 * esize * e.done)), poison := e.poison || w.2, done := e.done + 1 }

theorem fetchEntry_last {s : State} {p : Pos} {x : Stream} {e : SEntry} {pa : Nat} (v : Nat) (hd : e.done + 1 = x.lanes)
    (ht : e.first + e.done < x.total)
    (hreach : s.engineReach p s.nextId (x.addr (e.first + e.done)) x.esize false = (s, .ok pa)) :
    fetchEntry p v x x.lanes none e s
      = (s, e.fetched x.esize (s.engineLoad p x.xp x.after x.seq x.seq pa x.esize)) := by
  have hfuel (n : Nat) : fetchEntry p v x (n + 1) none e s
      = (s, e.fetched x.esize (s.engineLoad p x.xp x.after x.seq x.seq pa x.esize)) := by
    rw [fetchEntry, if_neg (by omega), if_neg (by omega), hreach]
    exact fetchEntry_ready p v n _ s (Nat.le_of_eq hd.symm)
  rw [← hd]
  exact hfuel e.done

/-- A failed check of the first element of a turn stops the slot (R214). -/
theorem fetchEntry_fault {s : State} {p : Pos} {x : Stream} {e : SEntry} {c : Nat} (v : Nat) (hd : e.done < x.lanes)
    (ht : e.first + e.done < x.total) (hf : addressFault (x.addr (e.first + e.done)) x.esize false false = some c) :
    fetchEntry p v x x.lanes none e s
      = ((s.setSlot p v { x with flt := true }).engineEvent p.b p.r p.k 0x19 (12 + v) c (x.addr (e.first + e.done)) false, e) := by
  obtain ⟨n, hn⟩ : ∃ n, x.lanes = n + 1 := ⟨x.lanes - 1, by omega⟩
  rw [hn, fetchEntry, if_neg (by omega), if_neg (by omega), State.engineReach_fault _ _ hf]
  rfl

theorem Stream.toStore_after {x : Stream} {e : SEntry} {j : Nat} (h : x.toStore e = [j]) :
    x.toStore { e with done := j + 1 } = [] := by
  refine List.filter_eq_nil_iff.mpr fun t ht => ?_
  simp only [Bool.and_eq_true, decide_eq_true_eq, not_and]
  intro hjt hm
  have hj : e.done ≤ j := by
    have hmem : j ∈ x.toStore e := h ▸ List.mem_singleton_self j
    have := (List.mem_filter.mp hmem).2
    simp only [Bool.and_eq_true, decide_eq_true_eq] at this
    exact this.1
  have htj : t ∈ x.toStore e := List.mem_filter.mpr ⟨ht, by simp [hm]; omega⟩
  rw [h, List.mem_singleton] at htj
  omega

theorem storeEntry_stored (p : Pos) (v : Nat) {x : Stream} (n : Nat) (line : Option Nat) {e : SEntry} (s : State)
    (h : x.toStore e = []) : ∃ e1, storeEntry p v x n line e s = (s, e1) ∧ x.toStore e1 = [] := by
  cases n with
  | zero => exact ⟨e, rfl, h⟩
  | succ n =>
    refine ⟨{ e with done := x.lanes }, by rw [storeEntry, h], ?_⟩
    refine List.filter_eq_nil_iff.mpr fun t ht => ?_
    simp [Nat.not_le.mpr (List.mem_range.mp ht)]

/-- The one element that is left is stored. -/
theorem storeEntry_last {s u : State} {p : Pos} {x : Stream} {e : SEntry} {j pa : Nat} (v : Nat) (hj : x.toStore e = [j])
    (hreach : s.engineReach p e.id (x.addr (e.first + j)) x.esize true = (s, .ok pa))
    (he : s.earlierOn p e.seq pa x.esize (x.addr (e.first + j)) = false)
    (hg : s.gateInLine p e.id e.seq [lineOf pa] = (u, true)) :
    ∃ e1, x.toStore e1 = [] ∧ storeEntry p v x (x.lanes + 1) none e s
      = (u.engineStore pa x.esize (e.val.toNat / 2 ^ (8 * x.esize * j) % 2 ^ (8 * x.esize)) e.poison, e1) := by
  obtain ⟨e1, hs, h1⟩ := storeEntry_stored p v x.lanes (some (lineOf pa))
    (u.engineStore pa x.esize (e.val.toNat / 2 ^ (8 * x.esize * j) % 2 ^ (8 * x.esize)) e.poison) (Stream.toStore_after hj)
  refine ⟨e1, h1, ?_⟩
  rw [storeEntry, hj]
  simp only [hreach, he, Option.all_none, Bool.not_false, Bool.and_self, if_true, hg]
  exact hs

/-! ### One step of the engine in local store -/

section localStep
variable {s : State} {p : Pos} {v : Nat} {x : Stream} {e : SEntry} {l : List SEntry} {ea : Word}
  (hn : s.nextSlot p.b p.r s.slotWorks = some (p, v, x))
include hn

/-- The last element of an entry of an input slot fails its check. -/
theorem streamFetch_fault {c : Nat} (hi : x.input = true) (hq : x.fifo = l ++ [e]) (hr : ∀ z ∈ l, x.ready z = true)
    (hd : e.done < x.lanes) (ht : e.first + e.done < x.total) (hea : x.addr (e.first + e.done) = ea)
    (hf : addressFault ea x.esize false false = some c) :
    ∃ t, exec (.streamFetch p.b p.r) s = .next t ∧ ∃ y, (t.ctx p).streams.find v = some y ∧ y.flt = true := by
  subst hea
  have he : x.ready e = false := decide_eq_false (Nat.not_le.mpr hd)
  refine ⟨_, exec_streamFetch_slot (y := { x with flt := true }) hn hi hq hr he (fetchEntry_fault v hd ht hf) ?_ rfl rfl, _,
    State.find_setSlot _ _ _ _, rfl⟩
  rw [State.engineEvent, State.streams_post, State.find_setSlot]

variable (hb : p.b < 512) (hx : (s.ctx p).streams.find v = some x) (hl : bit ea 55 = true)
  (hf : addressFault ea x.esize false false = none)
include hb hx hl hf

/-- The last element of an entry of an input slot is read. -/
theorem streamFetch_last (hi : x.input = true) (hq : x.fifo = l ++ [e]) (hr : ∀ z ∈ l, x.ready z = true)
    (hd : e.done + 1 = x.lanes) (ht : e.first + e.done < x.total) (hea : x.addr (e.first + e.done) = ea)
    (hw : s.readWaits s.nextId (lineOf (localPlace p.b ea)) = false) (hk : s.lockOf (lineOf (localPlace p.b ea)) ≠ 2) :
    exec (.streamFetch p.b p.r) s = .next ((s.slotTurn p v).setSlot p v { x with fifo := l ++ [e.fetched x.esize
      (s.engineLoad p x.xp x.after x.seq x.seq (localPlace p.b ea) x.esize)] }) := by
  subst hea
  have hw' := ((translatesAlike_slotTurn s p v).readWaits rfl _ _).trans hw
  have he : x.ready e = false := decide_eq_false (by omega)
  exact exec_streamFetch_slot hn hi hq hr he (fetchEntry_last v hd ht (State.engineReach_read_local hf hl hw' hk hb)) hx rfl rfl

/-- The last element of an entry of an output slot is stored. -/
theorem streamStore_last {j : Nat} (hi : x.input = false) (hq : x.fifo = e :: l) (hj : x.toStore e = [j])
    (hea : x.addr (e.first + j) = ea) (ho : s.ownedLine (lineOf (localPlace p.b ea)) (some e.id) = false)
    (hk : s.lockOf (lineOf (localPlace p.b ea)) = 0) (hreq : s.requests = [])
    (he : s.earlierOn p e.seq (localPlace p.b ea) x.esize ea = false)
    (hfan : (s.fanouts.any fun f => f.line == lineOf (localPlace p.b ea)) = false) :
    ∃ u : State, u.mem = s.mem ∧ exec (.streamStore p.b p.r) s = .next ((u.locallyStored (localPlace p.b ea) x.esize
      (e.val.toNat / 2 ^ (8 * x.esize * j) % 2 ^ (8 * x.esize)) e.poison).setSlot p v { x with fifo := l }) := by
  subst hea
  have hloc := isLocal_localPlace hb (x.addr (e.first + j))
  have ho' := (translatesAlike_slotTurn s p v).ownedLine_eq_false (fun _ h => h) ho
  have he' := (earlierOn_slotTurn s p v _ _ _ _).trans he
  obtain ⟨u, hg, hu, hmem, -⟩ := gateInLine_local (s := s.slotTurn p v) p e.id e.seq (isLocal_line hloc) hfan
  obtain ⟨e1, h1, hs⟩ := storeEntry_last v hj (State.engineReach_write_local hf hl ho' hk hreq hb) he' hg
  rw [State.engineStore_local _ _ _ hloc (hu.requests.trans hreq)] at hs
  refine ⟨u, hmem, exec_streamStore_slot hn hi hq hs ?_ h1⟩
  exact (congrArg (fun c : Ctx => c.streams.find v) (hu.ctx p)).trans hx

end localStep

/-- Settles O32: the instructions are decided by the state of their slot; a step of the engine is one access, and the slot after
it. -/
theorem streamResults : Obligations.StreamResults := by
  constructor
  · intro s v a b d o c l xb hs hv
    refine ⟨fun ws hb ho hw z hz => ?_, exec_streamForms_unbound hs hv d, fun x hx hd => ?_,
      fun x hx h8 => ⟨_, exec_sstat_bound hs hv hx d, x.status_fields h8⟩, fun hk => privileged_user hs hk 0x36 _, ?_⟩
    · rw [exec_sbind s v b o c l xb z hz]
      exact ⟨bind_poisoned _ _ _ _ hs hv hb, fun hp => ⟨fun _ _ => bind_fault _ _ _ _ hs hv hb hp ho hw,
        bind_free _ _ _ _ hs hv hb hp ho hw⟩⟩
    · have hund := Stream.undrained_eq_false hd
      exact ⟨exec_sdrain_drained hs hv hx hund, _, exec_sunbind_drained hs hv hx hund, s.unbind_advance _ _⟩
    · intro hk ha hb x n hn h4 p hx
      have hex := exec_sres_bound hs hv hk ha hb hn h4 hx
      refine ⟨fun hflt => ?_, fun hflt h0 => ?_, fun hflt h1 => ?_⟩
      · rw [hex, hflt]
        rfl
      · rw [hex, hflt, h0]
        rfl
      · rw [hflt, h1] at hex
        exact ⟨_, hex, _, State.slot_resolved _ _ _ _, rfl, rfl, fun hi => by simp [Stream.resolve, hi]⟩
  · intro s b r n p x e rest j ea place w hx hpb hpr hb hl
    subst hpb hpr
    constructor
    · intro hn hi hq hr hj hd ht
      subst hj
      refine ⟨?_, fun _ => streamFetch_fault hn hi hq hr (by omega) ht rfl⟩
      intro hf hw hk v
      exact ⟨⟨_, streamFetch_last hn hb hx hl hf hi hq hr hd ht rfl hw hk, fun _ => rfl, _, _, State.find_setSlot _ _ _ _, rfl, hd, rfl,
        rfl⟩, State.engineLoad_current _ _ (isLocal_localPlace hb _)⟩
    · intro hn hi hq hj hf ho hk hreq he hfan hlost
      obtain ⟨u, hmem, hex⟩ := streamStore_last hn hb hx hl hf hi hq hj rfl ho hk hreq he hfan
      refine ⟨_, hex, ?_, fun y hy => ?_, _, State.find_setSlot _ _ _ _, rfl⟩
      · exact (u.read_locallyStored _ _ (hmem ▸ hlost)).trans (Nat.mod_mod _ _)
      · exact (u.byte_locallyStored _ _ hy).trans (by rw [hmem])

end Sys2Proof.Machine
end

section
/-! PROOFS. Copy instructions (R209, R211, R215, R217). -/

namespace Sys2Proof.Machine

/-! ### COPY, COPYG and COPYF (R209) -/

theorem exec_copyForms {s : State} (x : BitVec 1) (t : BitVec 5) {v : BitVec 5} (o c : BitVec 3) (l : BitVec 4) (hs : s.plain)
    (hv : s.ready v) :
    ∀ z ∈ [((.copy x t o c l : Instr), 0, 4, x == 1), (.copyg x t o c l, 1, 4, x == 1), (.copyf t v o c l, 2, 2, false)],
      exec z.1 s = copyUnit s z.2.1 z.2.2.1 t (if z.2.1 = 2 then s.me.reg v else {}) o c z.2.2.2 := by
  simp only [List.forall_mem_cons, List.not_mem_nil, false_implies, implies_true, and_true]
  exact ⟨outsideTx_plain hs _ _, outsideTx_plain hs _ _, (outsideTx_plain hs _ _).trans (withReg_full _ hv)⟩

theorem copyUnit_fault {s : State} {op n i : Nat} (t : BitVec 5) (fill : Cell) {o : BitVec 3} (c : BitVec 3) (xp : Bool)
    (ho : (s.me.oxBlock o.toNat n).all (fun y => y.full && !y.poison) = true)
    (hf : copyFault op ((s.me.oxBlock o.toNat n).map fun y => y.val) = some i) :
    copyUnit s op n t fill o c xp = .next (s.trapTo 0x1A (w64 (0x8000000000000000 + o.toNat + i))) := by
  rw [copyUnit, withOx_clean _ ho, hf]
  rfl

theorem copyUnit_passes {s : State} {op n : Nat} (t : BitVec 5) (fill : Cell) {o : BitVec 3} (c : BitVec 3) (xp : Bool)
    (ho : (s.me.oxBlock o.toNat n).all (fun y => y.full && !y.poison) = true)
    (hf : copyFault op ((s.me.oxBlock o.toNat n).map fun y => y.val) = none) :
    copyUnit s op n t fill o c xp = acceptCopy s op t ((s.me.oxBlock o.toNat n).map fun y => y.val) fill c xp := by
  rw [copyUnit, withOx_clean _ ho, hf]

/-- The command that the executing unit gives. -/
def State.copyCommand (s : State) (entry op : Nat) (t : BitVec 5) (ws : List Word) (fill : Cell) (c : BitVec 3) (xp : Bool) : CopyCmd :=
  { id := s.nextId, entry := entry, rill := s.cur.r, ctx := s.cur.k, op := op, o0 := ws.getD 0 0, o1 := ws.getD 1 0
    o2 := ws.getD 2 0, o3 := ws.getD 3 0, fill := fill.val, fillPoison := fill.poison, token := s.me.dest t
    seq := s.me.seq, cc := c.toNat, xp := xp, after := s.wideRelease s.cur }

/-- The state once the executing unit's command q is accepted. -/
def State.copyAccepted (s : State) (q : CopyCmd) : State :=
  (((({ s with nextId := s.nextId + 1 } : State).modMe fun x => x.setEmpty q.token s.nextId).modBraid s.cur.b fun x =>
    { x with copies := x.copies ++ [q] }).raiseCc s.cur.b s.cur.r q.cc).advance

theorem acceptCopy_free {s : State} {entry : Nat} (op : Nat) (t : BitVec 5) (ws : List Word) (fill : Cell) {c : BitVec 3} (xp : Bool)
    (he : (s.braid s.cur.b).freeCopy = some entry) (hcc : s.myRill.cc.get 0 c.toNat < 0xFFFF) :
    acceptCopy s op t ws fill c xp = .next (s.copyAccepted (s.copyCommand entry op t ws fill c xp)) := by
  rw [acceptCopy, he]
  exact if_neg (Nat.ne_of_lt hcc)

theorem State.copies_copyAccepted (s : State) (q : CopyCmd) :
    ((s.copyAccepted q).braid s.cur.b).copies = (s.braid s.cur.b).copies ++ [q] := by
  change ((State.modBraid _ s.cur.b fun x => { x with copies := x.copies ++ [q] }).braid s.cur.b).copies = _
  rw [State.braid_modBraid]
  rfl

theorem State.cc_copyAccepted (s : State) (q : CopyCmd) :
    (s.copyAccepted q).myRill.cc.get 0 q.cc = s.myRill.cc.get 0 q.cc + 1 := State.cc_raiseCc _ _ _ _

theorem State.me_copyAccepted (s : State) (q : CopyCmd) :
    (s.copyAccepted q).me = { s.me.setEmpty q.token s.nextId with pc := s.nextPc, took := false } := by
  rw [State.copyAccepted, State.me_advance]
  exact congrArg (fun c : Ctx => { c with pc := s.nextPc, took := false })
    (({ s with nextId := s.nextId + 1 } : State).me_modMe fun x => x.setEmpty q.token s.nextId)

/-- The token of an accepted command is empty. -/
theorem State.token_copyAccepted {s : State} {q : CopyCmd} {t : BitVec 5} (hq : q.token = s.me.dest t) (ht : t ≠ 0) :
    ((s.copyAccepted q).me.reg t).full = false := by
  have hreg : (s.copyAccepted q).me.reg t = (s.me.setEmpty q.token s.nextId).reg t := by
    rw [State.me_copyAccepted]
    exact Ctx.reg_congr rfl rfl rfl t
  rw [hreg, hq, Ctx.setEmpty_dest, Ctx.reg_setCellAt_dest, if_pos ⟨rfl, ht⟩]

/-! ### The end of a command (R211) -/

theorem State.ctx_lowerCc (s : State) (b r m : Nat) (p : Pos) : (s.lowerCc b r m).ctx p = s.ctx p := rfl

/-- The state once command q of braid b has ended. -/
def State.copyEnded (s : State) (b : Nat) (q : CopyCmd) : State :=
  ((s.modBraid b fun y => { y with copies := y.copies.filter fun z => z.id != q.id }).modCtx ⟨b, q.rill, q.ctx⟩ fun c =>
    c.fill q.token q.id (w64 (q.done + if q.cancelled then 2 ^ 63 else 0)) false).lowerCc b q.rill q.cc

theorem exec_copyComplete_finished {s : State} {b n : Nat} {q : CopyCmd} (h : (s.braid b).copies.find? (fun x =>
      x.entry == n && (x.phase == 3 || (x.phase == 1 && decide (x.total ≤ x.done)))) = some q) :
    exec (.copyComplete b n) s = .next (s.copyEnded b q) := by
  change execCopyComplete b n s = _
  rw [execCopyComplete, h]
  rfl

theorem State.copies_copyEnded (s : State) (b : Nat) (q : CopyCmd) : q.id ∉ ((s.copyEnded b q).braid b).copies.map CopyCmd.id := by
  change q.id ∉ ((s.modBraid b fun y => { y with copies := y.copies.filter fun z => z.id != q.id }).braid b).copies.map CopyCmd.id
  rw [State.braid_modBraid]
  simp

/-! ### CRES (R215, R217) -/

theorem exec_cres_stopped {s : State} {a b : BitVec 5} {q : CopyCmd} (hs : s.plain) (hk : s.cur.k = 15) (ha : s.clean a)
    (hb : s.clean b) (hq : (s.braid s.cur.b).copies.find? (fun q => q.phase == 2 && q.entry == field (s.val a) 20 16
      && q.rill == s.cur.r && q.ctx == field (s.val a) 3 0) = some q) :
    (s.val b = 0 → exec (.cres a b) s = .next (s.setCopy s.cur.b { q with phase := 1 }).advance)
    ∧ (s.val b = 1 → exec (.cres a b) s
        = .next ((s.dropGate q.id).setCopy s.cur.b { q with phase := 3, cancelled := true }).advance) := by
  obtain ⟨ra, pa⟩ := ha
  obtain ⟨rb, pb⟩ := hb
  unfold State.val at hq ⊢
  change (_ → execCres a b s = _) ∧ (_ → execCres a b s = _)
  unfold execCres
  rw [outsideTx_plain hs, supervisorOnly_context15 hk, withControls_clean _ ra rb pa pb]
  simp only [hq]
  exact ⟨fun h0 => if_pos h0, fun h1 => by rw [h1]; rfl⟩

end Sys2Proof.Machine
end

section
/-! PROOFS. One step of the copy engine (R195, R208, R210, R213). -/

namespace Sys2Proof.Machine

/-! ### Which command goes on (R195) -/

/-- No command starts where none is waiting. -/
theorem Braid.startCopies_of_started {x : Braid} (h : ∀ q ∈ x.copies, q.phase ≠ 0) : x.startCopies = x := by
  have hnone : x.copies.filter (fun q => q.phase == 0) = [] := List.filter_eq_nil_iff.mpr fun q hq => by simp [h q hq]
  simp [Braid.startCopies, hnone]

theorem findSome?_eq_some_of_only {α β : Type} {l : List α} {f : α → Option β} {y : β}
    (h : ∀ i ∈ l, f i = none ∨ f i = some y) (hs : ∃ i ∈ l, f i = some y) : l.findSome? f = some y := by
  cases hf : l.findSome? f with
  | none =>
    obtain ⟨i, hi, hy⟩ := hs
    rw [List.findSome?_eq_none_iff.mp hf i hi] at hy
    cases hy
  | some z =>
    obtain ⟨i, hi, hz⟩ := List.exists_of_findSome?_eq_some hf
    rcases h i hi with hn | hy
    · rw [hn] at hz; cases hz
    · exact hz.symm.trans hy

/-- The only command of a braid, in progress, whose earlier writes are done, is the one that goes on. -/
theorem exec_copyEngineStep_only {s : State} {b : Nat} {q : CopyCmd} (hc : (s.braid b).copies = [q]) (he : q.entry < 32)
    (hp : q.phase = 1) (hd : s.doneBefore ⟨b, q.rill, q.ctx⟩ (if q.xp then q.seq else q.after) AccKind.writes = true) :
    exec (.copyEngineStep b) s = .next ((copySteps ⟨b, q.rill, q.ctx⟩ (64 / q.unit) q (s.setBraid b (s.braid b))).modBraid b
      fun y => { y with copyNext := (q.entry + 1) % 32 }) := by
  have hstart : s.modBraid b Braid.startCopies = s.setBraid b (s.braid b) := by
    rw [State.modBraid, Braid.startCopies_of_started (by simp [hc, hp])]
  have hd' : (s.setBraid b (s.braid b)).doneBefore ⟨b, q.rill, q.ctx⟩ (if q.xp then q.seq else q.after) AccKind.writes = true := hd
  change execCopyEngineStep b s = _
  unfold execCopyEngineStep
  simp only [hstart, State.braid_setBraid, hc]
  rw [findSome?_eq_some_of_only (y := q)]
  · intro i _
    rw [List.find?_singleton]
    exact (ite_eq_or_eq _ _ _).symm
  · refine ⟨(q.entry + 32 - (s.braid b).copyNext % 32) % 32, List.mem_range.mpr (Nat.mod_lt _ (by norm_num)), ?_⟩
    have hi : ((s.braid b).copyNext + (q.entry + 32 - (s.braid b).copyNext % 32) % 32) % 32 = q.entry := by omega
    simp [hi, hp, hd']

/-! ### The last byte of a fill (R210, R213) -/

/-- The byte of the fill word of q that the address of its next byte selects. -/
def CopyCmd.fillByte (q : CopyCmd) : Nat := q.fill.toNat / 2 ^ (8 * ((q.dst q.done).toNat % 8)) % 256

theorem State.copySource_fill {s : State} (p : Pos) {q : CopyCmd} (hop : q.op = 2) (n : Nat) :
    s.copySource p q q.done n = (s, (.ok 0, 0), q.fillByte, q.fillPoison) := by
  rw [State.copySource, hop]
  rfl

theorem copySteps_finished {s : State} (p : Pos) (n : Nat) {q : CopyCmd} (h : q.total ≤ q.done) :
    copySteps p (n + 1) q s = s.setCopy p.b { q with phase := 3 } := by
  rw [copySteps]
  exact if_pos h

/-- One byte is left in local store: it is stored with the poison of its word, and the command has finished. -/
theorem copySteps_fill_last {s u : State} {p : Pos} {q : CopyCmd} {pa : Nat} (n : Nat) (hop : q.op = 2) (ht : q.total = q.done + 1)
    (hreach : s.engineReach p q.id (q.dst q.done) 1 true = (s, .ok pa)) (hl : isLocal pa = true)
    (he : s.earlierOn p q.seq pa 1 (q.dst q.done) = false) (hg : s.gateInLine p q.id q.seq [lineOf pa] = (u, true))
    (hreq : u.requests = []) :
    ∃ (t : State) (ws : Table Bool),
      copySteps p (n + 2) q s = t.setCopy p.b { q with done := q.done + 1, phase := 3, parts := ws } ∧ t.braids = u.braids
        ∧ ∀ y, t.mem.byte y = (u.locallyStored pa 1 q.fillByte q.fillPoison).mem.byte y := by
  have hunit : q.unit = 1 := by simp [CopyCmd.unit, hop]
  have hleft : ¬ q.total ≤ q.done := by omega
  have hdone : q.total ≤ q.done + 1 := by omega
  rw [copySteps, if_neg hleft]
  simp only [State.copySource_fill p hop, hunit, hreach, he, Bool.false_eq_true, if_false, hg, isHost_of_local hl,
    State.engineStore_local _ _ _ hl hreq]
  rw [copySteps_finished p n hdone]
  exact ⟨_, _, rfl, rfl, fun y => Memory.byte_setPoison _ _ _ _⟩

/-- The braid of a command once the command is written back. -/
theorem State.copies_setCopy_only {s : State} {b : Nat} {q q1 : CopyCmd} (hc : (s.braid b).copies = [q]) (hid : q.id = q1.id) :
    ((s.setCopy b q1).braid b).copies = [q1] := by
  rw [State.setCopy, State.braid_modBraid, hc]
  simp [hid]

theorem Memory.byte_eq_of_read_one {m : Memory} {a v : Nat} (h : m.read a 1 = v) : m.byte a = BitVec.ofNat 8 v := by
  rw [← h]
  simp [Memory.read]

/-- A COPYF with one byte left in local store: the engine stores the byte, and the command has finished. -/
theorem copyEngineStep_fill_last {s : State} {b : Nat} {q : CopyCmd} {ea : Word} (hb : b < 512) (hc : (s.braid b).copies = [q])
    (hentry : q.entry < 32) (hop : q.op = 2) (hp : q.phase = 1) (ht : q.total = q.done + 1)
    (hd : s.doneBefore ⟨b, q.rill, q.ctx⟩ (if q.xp then q.seq else q.after) AccKind.writes = true) (hea : q.dst q.done = ea)
    (hl : bit ea 55 = true) (hf : addressFault ea 1 false false = none)
    (ho : s.ownedLine (lineOf (localPlace b ea)) (some q.id) = false) (hk : s.lockOf (lineOf (localPlace b ea)) = 0)
    (he : s.earlierOn ⟨b, q.rill, q.ctx⟩ q.seq (localPlace b ea) 1 ea = false) (hreq : s.requests = [])
    (hfan : (s.fanouts.any fun f => f.line == lineOf (localPlace b ea)) = false) :
    ∃ t, exec (.copyEngineStep b) s = .next t ∧ t.mem.byte (localPlace b ea) = BitVec.ofNat 8 q.fillByte
      ∧ (∀ y, y ≠ localPlace b ea → t.mem.byte y = s.mem.byte y)
      ∧ (∃ ws, (t.braid b).copies = [{ q with done := q.done + 1, phase := 3, parts := ws }])
      ∧ (t.braid b).copyNext = (q.entry + 1) % 32 := by
  subst hea
  have hloc := isLocal_localPlace hb (q.dst q.done)
  have ho' := ownedLine_setBraid_self (b := b) (by simp [hc]) ho
  obtain ⟨u, hg, hu, hmem, hbraids⟩ :=
    gateInLine_local (s := s.setBraid b (s.braid b)) ⟨b, q.rill, q.ctx⟩ q.id q.seq (isLocal_line hloc) hfan
  obtain ⟨z, ws, hsteps, hz, hbytes⟩ := copySteps_fill_last 62 hop ht
    (State.engineReach_write_local (p := ⟨b, q.rill, q.ctx⟩) hf hl ho' hk hreq hb) hloc he hg (hu.requests.trans hreq)
  have hunit : 64 / q.unit = 62 + 2 := by simp [CopyCmd.unit, hop]
  have hex := exec_copyEngineStep_only hc hentry hp hd
  rw [hunit, hsteps] at hex
  have hcopies : (z.braid b).copies = [q] := by
    rw [State.braid, hz, hbraids]
    exact (congrArg Braid.copies (s.braid_setBraid b _)).trans hc
  refine ⟨_, hex, ?_, fun y hy => ?_, ⟨ws, ?_⟩, ?_⟩
  · refine (hbytes _).trans (Memory.byte_eq_of_read_one ((u.read_locallyStored _ _ fun i _ => ?_).trans (Nat.mod_mod _ _)))
    exact isLost_of_local _ hloc i
  · refine (hbytes y).trans ((u.byte_locallyStored _ _ (Nat.lt_or_gt_of_ne hy)).trans ?_)
    rw [hmem]
    rfl
  · rw [State.braid_modBraid]
    exact State.copies_setCopy_only hcopies rfl
  · rw [State.braid_modBraid]

/-- Settles O33: the instructions are decided by their words and by the command that they name; the last byte of a fill is one
write of the engine. -/
theorem copyResults : Obligations.CopyResults := by
  refine ⟨⟨fun s x t v o c l entry ws hs hv hentry hcc z hz ho hw => ?_, fun s b n q hq => ?_, fun s a b hs => ?_⟩, ?_⟩
  · subst hw
    rw [exec_copyForms x t o c l hs hv z hz]
    refine ⟨fun i hf => copyUnit_fault t _ c _ ho hf, fun hf => ?_⟩
    rw [copyUnit_passes t _ c _ ho hf, acceptCopy_free _ t _ _ _ hentry hcc]
    exact ⟨_, _, rfl, s.copies_copyAccepted _, rfl, rfl, rfl, rfl, rfl, rfl, rfl, rfl, rfl, rfl, rfl,
      fun h2 => by simp [State.copyCommand, h2, State.val, State.bad], rfl, State.token_copyAccepted rfl, s.cc_copyAccepted _,
      by rw [State.me_copyAccepted]⟩
  · exact ⟨_, exec_copyComplete_finished hq, s.copies_copyEnded b q, State.cc_lowerCc _ _ _ _, by
      rw [State.copyEnded, State.ctx_lowerCc, State.ctx_modCtx, State.ctx_modBraid]⟩
  · exact ⟨fun hk => privileged_user hs hk 0x37 _, fun hk ha hb q hq => exec_cres_stopped hs hk ha hb hq⟩
  · intro s b q p ea place hb hc hentry hop hp ht hd hl hf ho hk he hreq _ hfan
    exact copyEngineStep_fill_last hb hc hentry hop hp ht hd rfl hl hf ho hk he hreq hfan

end Sys2Proof.Machine
end

section
/-! PROOFS. Scalar floating point (R225, R229 to R240). -/

namespace Sys2Proof.Machine

/-! ### The end of a scalar floating-point instruction (R229, R234) -/

/-- AMAX of the executing context takes the value that a conversion has met (R234); t is what else becomes of s. -/
def State.meet (s : State) (amax : Word) (t : State) : State := if amax = s.sr 0x021 then t else t.setSr s.cur 0x021 amax

theorem fpEnd_of_quiet {s : State} {fl : BitVec 5} (sr : Bool) (amax : Word) (k : State → Res) (h : ¬ s.fpTraps fl) :
    fpEnd s fl sr amax k = k (s.meet amax (s.accrue fl sr)) := by
  unfold State.fpTraps at h
  simp only [fpEnd, State.meet, State.accrue, enables, seedStep, not_not.mp h, bne_self_eq_false, Bool.false_eq_true, if_false,
    beq_iff_eq]

theorem fpEnd_of_traps {s : State} {fl : BitVec 5} (sr : Bool) (amax : Word) (k : State → Res) (h : s.fpTraps fl) :
    fpEnd s fl sr amax k = .next ((s.meet amax (s.accrue fl false)).trapTo 0x13 (w64 fl.toNat)) := by
  unfold State.fpTraps at h
  simp only [fpEnd, State.meet, State.accrue, enables, trapped, bne_iff_ne, ne_eq, h, not_false_eq_true, if_true, beq_iff_eq,
    Bool.false_eq_true, if_false]

/-- An instruction whose end is fpEnd goes on as t says where no flag traps, and traps FP-EXCEPTION otherwise. -/
theorem ends_of_fpEnd_meet {s : State} {i : Instr} {fl : BitVec 5} {sr : Bool} {amax : Word} {t : State → State}
    (h : exec i s = fpEnd s fl sr amax fun z => .next (t z)) :
    (¬ s.fpTraps fl → exec i s = .next (t (s.meet amax (s.accrue fl sr))))
      ∧ (s.fpTraps fl → exec i s = .next ((s.meet amax (s.accrue fl false)).trapTo 0x13 (w64 fl.toNat))) :=
  ⟨fun hq => h.trans (fpEnd_of_quiet sr amax _ hq), fun ht => h.trans (fpEnd_of_traps sr amax _ ht)⟩

/-- The same where AMAX meets nothing. -/
theorem ends_of_fpEnd {s : State} {i : Instr} {fl : BitVec 5} {sr : Bool} {t : State → State}
    (h : exec i s = fpEnd s fl sr (s.sr 0x021) fun z => .next (t z)) :
    (¬ s.fpTraps fl → exec i s = .next (t (s.accrue fl sr)))
      ∧ (s.fpTraps fl → exec i s = .next ((s.accrue fl false).trapTo 0x13 (w64 fl.toNat))) := by
  have hmeet : ∀ z, s.meet (s.sr 0x021) z = z := fun z => if_pos rfl
  simpa only [hmeet] using ends_of_fpEnd_meet h

/-- An instruction that rounds goes on at once, unless it rounds in SR mode behind vector instructions (R225). -/
theorem withRounding_go {s : State} {r : Nat} (k : Nat → Nat → Bool → Res) (h : rmOf (s.sr 0x020) r ≠ 5 ∨ s.me.vseq = []) :
    withRounding s r true k = k (rmOf (s.sr 0x020) r) (seedStep (s.sr 0x022)) (rmOf (s.sr 0x020) r == 5) := by
  refine if_neg ?_
  rcases h with h | h <;> simp [h]

/-! ### Instructions that round (R230, R232, R235 to R237, R240) -/

section rounds
variable {s : State} {d a b : BitVec 5} {f : BitVec 2} {r : BitVec 4} {x y : BitVec 3}

theorem fpBinary_full (g : Nat → FVal → FVal → FRes) (ha : s.ready a) (hb : s.ready b)
    (hm : rmOf (s.sr 0x020) r.toNat ≠ 5 ∨ s.me.vseq = []) :
    let m := rmOf (s.sr 0x020) r.toNat
    let v := (g m ((fmtOf f.toNat).decode (s.val a).toNat) ((fmtOf f.toNat).decode (s.val b).toNat)).to (fmtOf f.toNat) m false
      (srStep (field (s.sr 0x022) 31 0))
    fpBinary g d a b f r s = fpEnd s v.2 (m == 5) (s.sr 0x021) fun z =>
      .next (z.put d (w64 v.1) (s.bad a || s.bad b || (false && s.bad d))) := by
  rw [Bool.false_and, Bool.or_false]
  unfold fpBinary
  rw [withReg_full _ ha, withReg_full _ hb, withRounding_go _ hm]
  rfl

theorem fpTernary_full (g : Nat → FVal → FVal → FVal → FRes) (ha : s.ready a) (hb : s.ready b) (hd : s.ready d)
    (hm : rmOf (s.sr 0x020) r.toNat ≠ 5 ∨ s.me.vseq = []) :
    let m := rmOf (s.sr 0x020) r.toNat
    let t := fmtOf f.toNat
    let v := (g m (t.decode (s.val a).toNat) (t.decode (s.val b).toNat) (t.decode (s.val d).toNat)).to t m false
      (srStep (field (s.sr 0x022) 31 0))
    fpTernary g d a b f r s = fpEnd s v.2 (m == 5) (s.sr 0x021) fun z =>
      .next (z.put d (w64 v.1) (s.bad a || s.bad b || (true && s.bad d))) := by
  unfold fpTernary
  rw [withReg_full _ ha, withReg_full _ hb, withReg_full _ hd, withRounding_go _ hm]
  rfl

/-- FLDEXP is a form of two sources, the second of which is an integer. -/
theorem execFldexp_full (ha : s.ready a) (hb : s.ready b) :
    execFldexp d a b f r s = fpBinary (fun _ x _ => fLdexp x (clamp (s.val b).toInt (-8192) 8192)) d a b f r s := by
  unfold execFldexp fpBinary
  rw [withReg_full _ ha, withReg_full _ hb, withReg_full _ ha, withReg_full _ hb]
  rfl

/-- Each rounding form of major 0x2C ends with the value of its row. -/
theorem exec_fpRounding (ha : s.ready a) (hb : s.ready b) (hd : s.ready d)
    (hm : rmOf (s.sr 0x020) r.toNat ≠ 5 ∨ s.me.vseq = []) :
    let m := rmOf (s.sr 0x020) r.toNat
    let t := fmtOf f.toNat
    ∀ z ∈ fpRounding m (s.val b) d a b f r,
      let v := (z.2.1 (t.decode (s.val a).toNat) (t.decode (s.val b).toNat) (t.decode (s.val d).toNat)).to t m false
        (srStep (field (s.sr 0x022) 31 0))
      exec z.1 s = fpEnd s v.2 (m == 5) (s.sr 0x021) fun u =>
        .next (u.put d (w64 v.1) (s.bad a || s.bad b || (z.2.2 && s.bad d))) := by
  simp only [fpRounding, List.forall_mem_cons, List.not_mem_nil, false_implies, implies_true, and_true]
  exact ⟨fpBinary_full (fun m x z => fAdd m x z) ha hb hm, fpBinary_full (fun m x z => fAdd m x z.neg) ha hb hm,
    fpBinary_full (fun _ x z => fMul x z) ha hb hm, fpTernary_full (fun m x z w => fFma m x z w) ha hb hd hm,
    fpTernary_full (fun m x z w => fFma m x.neg z w) ha hb hd hm,
    (execFldexp_full ha hb).trans (fpBinary_full (fun _ x _ => fLdexp x (clamp (s.val b).toInt (-8192) 8192)) ha hb hm)⟩

theorem exec_frint_full (ha : s.ready a) (hm : rmOf (s.sr 0x020) r.toNat ≠ 5 ∨ s.me.vseq = []) :
    let m := rmOf (s.sr 0x020) r.toNat
    let v := (fmtOf x.toNat).rint m (srStep (field (s.sr 0x022) 31 0)) ((fmtOf x.toNat).decode (s.val a).toNat)
    exec (.frint d a x r) s = fpEnd s v.2 (m == 5) (s.sr 0x021) fun u => .next (u.put d (w64 v.1) (s.bad a)) := by
  change execFrint d a x r s = _
  unfold execFrint
  rw [withReg_full _ ha, withRounding_go _ hm]
  rfl

/-! ### Conversions (R232 to R234, R240) -/

theorem exec_fcvt_toInt (ha : s.ready a) (hm : rmOf (s.sr 0x020) r.toNat ≠ 5 ∨ s.me.vseq = []) (hx : 4 ≤ x.toNat) :
    let m := rmOf (s.sr 0x020) r.toNat
    let v := toInt m (srStep (field (s.sr 0x022) 31 0)) (intRange x.toNat).1 (intRange x.toNat).2
      ((fmtOf y.toNat).decode (s.val a).toNat)
    exec (.fcvt d a x y r) s = fpEnd s v.2 (m == 5) (s.sr 0x021) fun u => .next (u.put d (wrap v.1) (s.bad a)) := by
  change execFcvt d a x y r s = _
  unfold execFcvt
  rw [withReg_full _ ha, if_neg (by simp; omega), if_neg (by omega), withRounding_go _ hm]
  rfl

theorem exec_fcvt_ofInt (ha : s.ready a) (hm : rmOf (s.sr 0x020) r.toNat ≠ 5 ∨ s.me.vseq = []) (hx : x.toNat < 4)
    (hy : 4 ≤ y.toNat) :
    let m := rmOf (s.sr 0x020) r.toNat
    let i := intSource y.toNat (s.val a)
    let v := (fmtOf x.toNat).round m false (srStep (field (s.sr 0x022) 31 0)) (decide (i < 0)) i.natAbs 0 false
    exec (.fcvt d a x y r) s = fpEnd s v.2 (m == 5) (s.sr 0x021) fun u => .next (u.put d (w64 v.1) (s.bad a)) := by
  change execFcvt d a x y r s = _
  unfold execFcvt
  rw [withReg_full _ ha, if_neg (by simp; omega), if_pos hx, withRounding_go _ hm]
  rfl

theorem exec_fcvt_widens (ha : s.ready a) (hx : x.toNat < 4) (hy : y.toNat < 4)
    (hw : (fmtOf x.toNat).widens (fmtOf y.toNat) = true) :
    let v := (fmtOf x.toNat).convert 1 false 0 ((fmtOf y.toNat).decode (s.val a).toNat)
    exec (.fcvt d a x y r) s = fpEnd s v.2 false (s.sr 0x021) fun u => .next (u.put d (w64 v.1) (s.bad a)) := by
  change execFcvt d a x y r s = _
  unfold execFcvt
  rw [withReg_full _ ha, if_pos (by simp [hx, hy])]
  exact if_pos hw

theorem exec_fcvt_narrows (ha : s.ready a) (hm : rmOf (s.sr 0x020) r.toNat ≠ 5 ∨ s.me.vseq = []) (hx : x.toNat < 4)
    (hy : y.toNat < 4) (hw : (fmtOf x.toNat).widens (fmtOf y.toNat) = false) :
    let m := rmOf (s.sr 0x020) r.toNat
    let src := (fmtOf y.toNat).decode (s.val a).toNat
    let v := (fmtOf x.toNat).convert m false (srStep (field (s.sr 0x022) 31 0)) src
    exec (.fcvt d a x y r) s
      = fpEnd s v.2 (m == 5) (if (fmtOf x.toNat).w < (fmtOf y.toNat).w then amaxUpdate (s.sr 0x021) src else s.sr 0x021)
        fun u => .next (u.put d (w64 v.1) (s.bad a)) := by
  change execFcvt d a x y r s = _
  unfold execFcvt
  rw [withReg_full _ ha, if_pos (by simp [hx, hy])]
  dsimp only
  rw [if_neg (by simp [hw]), withRounding_go _ hm]
  rfl

end rounds

/-! ### Instructions that do not round (R230, R231, R235, R238) -/

section unrounded
variable {s : State} {d a b : BitVec 5} {f : BitVec 2}

theorem fpPick_full (isMax : Bool) (ha : s.ready a) (hb : s.ready b) :
    let v := (fmtOf f.toNat).pick isMax (s.val a).toNat (s.val b).toNat
    fpPick isMax d a b f s = fpEnd s v.2 false (s.sr 0x021) fun u => .next (u.put d (w64 v.1) (s.bad a || s.bad b)) := by
  unfold fpPick
  rw [withReg_full _ ha, withReg_full _ hb]
  rfl

theorem exec_fcmp_full {q : BitVec 3} {c : BitVec 2} (ha : s.ready a) (hb : s.ready b) :
    let v := fCompare c.toNat ((fmtOf f.toNat).decode (s.val a).toNat) ((fmtOf f.toNat).decode (s.val b).toNat)
    exec (.fcmp q a b f c) s = fpEnd s v.2 false (s.sr 0x021) fun u => .next (u.putQ q v.1 (s.bad a || s.bad b)) := by
  change execFcmp q a b f c s = _
  unfold execFcmp
  rw [withReg_full _ ha, withReg_full _ hb]
  rfl

theorem binary_full (g : Word → Word → Word) (ha : s.ready a) (hb : s.ready b) :
    binary g d a b s = .next (s.put d (g (s.val a) (s.val b)) (s.bad a || s.bad b)) := by
  unfold binary
  rw [withReg_full _ ha, withReg_full _ hb]
  rfl

theorem unary_full (g : Word → Word) (ha : s.ready a) : unary g d a s = .next (s.put d (g (s.val a)) (s.bad a)) :=
  withReg_full (fun x => wrote s d (g x.val) x.poison) ha

end unrounded

/-- Settles O27: each form ends as fpEnd says, and fpEnd traps where a flag of the result has its trap enabled. -/
theorem fpResults : Obligations.FpResults := by
  intro s d a b f c r e q x y ha hb hd
  refine ⟨fun hm => ⟨fun z hz => ends_of_fpEnd (exec_fpRounding ha hb hd hm z hz), ends_of_fpEnd (exec_frint_full ha hm),
      fun hx => ends_of_fpEnd (exec_fcvt_toInt ha hm hx), fun hx hy => ends_of_fpEnd (exec_fcvt_ofInt ha hm hx hy),
      fun hx hy hw => ends_of_fpEnd_meet (exec_fcvt_narrows ha hm hx hy hw)⟩,
    fun hx hy hw => ends_of_fpEnd (exec_fcvt_widens ha hx hy hw), ends_of_fpEnd (i := .fmin d a b f) (fpPick_full false ha hb),
    ends_of_fpEnd (i := .fmax d a b f) (fpPick_full true ha hb), ends_of_fpEnd (exec_fcmp_full ha hb), ?_,
    unary_full (fun v => w64 ((fmtOf f.toNat).classify v.toNat)) ha,
    unary_full (fun v => w64 (mxScale (elementEmax e.toNat) (v.toNat % 2 ^ 32))) ha⟩
  simp only [List.forall_mem_cons, List.not_mem_nil, false_implies, implies_true, and_true]
  exact ⟨binary_full (withSign (fmtOf f.toNat) fun _ y => y) ha hb, binary_full (withSign (fmtOf f.toNat) fun _ y => !y) ha hb,
    binary_full (withSign (fmtOf f.toNat) fun x y => x != y) ha hb⟩

end Sys2Proof.Machine
end

section
/-! PROOFS. Long floating point (R229, R239). -/

namespace Sys2Proof.Machine

section long
variable {s : State} {d a b : BitVec 5} {f : BitVec 2}

/-- With no trap enabled the result is to come; SRSEED makes its step at issue (R225). -/
theorem fpLong_issued {g : Fmt} {r : FRes} (la t : Nat) (p : Bool)
    (hm : field (s.sr 0x020) 2 0 ≠ 5 ∨ s.me.vseq = []) (he : field (s.sr 0x020) 13 9 = 0) :
    let m := field (s.sr 0x020) 2 0
    let step := srStep (field (s.sr 0x022) 31 0)
    let v := r.to g m false step
    fpLong s d la t p g r
      = .next (((if m = 5 then s.setSr s.cur 0x022 (w64 step) else s).issueLong (s.me.dest d) la 2 (w64 v.1) p v.2
          (s.unitFree 2 + t)).advance) := by
  unfold fpLong
  rw [withRounding_go (r := 7) _ hm]
  dsimp only
  rw [if_neg (by simpa [enables] using he)]
  simp only [beq_iff_eq]
  rfl

/-- With a trap enabled and the unit free the instruction ends in its slot. -/
theorem fpLong_in_slot {g : Fmt} {r : FRes} (la t : Nat) (p : Bool)
    (hm : field (s.sr 0x020) 2 0 ≠ 5 ∨ s.me.vseq = []) (he : field (s.sr 0x020) 13 9 ≠ 0) (hfree : s.unitFree 2 ≤ s.cycle) :
    let m := field (s.sr 0x020) 2 0
    let v := r.to g m false (srStep (field (s.sr 0x022) 31 0))
    fpLong s d la t p g r = fpEnd s v.2 (m == 5) (s.sr 0x021) fun z =>
      .next ((z.modMe fun c => { c with startAt := s.cycle + t }).put d (w64 v.1) p) := by
  unfold fpLong
  rw [withRounding_go (r := 7) _ hm]
  dsimp only
  rw [if_pos (by simpa [enables] using he), if_neg (Nat.not_lt.mpr hfree)]
  rfl

theorem fpLong1_full (g : FVal → FRes) (t64 t : Nat) (l : BitVec 4) (ha : s.ready a) :
    fpLong1 g t64 t d a f l s = fpLong s d l.toNat (if f = 0 then t64 else t) (s.bad a || (false && s.bad b)) (fmtOf f.toNat)
      (g ((fmtOf f.toNat).decode (s.val a).toNat)) := by
  rw [Bool.false_and, Bool.or_false]
  exact withReg_full _ ha

theorem exec_fdiv_full (l : BitVec 4) (ha : s.ready a) (hb : s.ready b) :
    exec (.fdiv d a b f l) s = fpLong s d l.toNat (if f = 0 then 32 else 16) (s.bad a || (true && s.bad b)) (fmtOf f.toNat)
      (fDiv ((fmtOf f.toNat).decode (s.val a).toNat) ((fmtOf f.toNat).decode (s.val b).toNat)) := by
  change execFdiv d a b f l s = _
  unfold execFdiv
  rw [withReg_full _ ha, withReg_full _ hb]
  rfl

/-- Each form of major 0x2D is fpLong of its row. -/
theorem exec_fpLongForms (l : BitVec 4) (ha : s.ready a) (hb : s.ready b) :
    ∀ z ∈ fpLongForms d a b f l,
      exec z.1 s = fpLong s d l.toNat (if f = 0 then z.2.2.1 else z.2.2.2.1) (s.bad a || (z.2.2.2.2 && s.bad b)) (fmtOf f.toNat)
        (z.2.1 ((fmtOf f.toNat).decode (s.val a).toNat) ((fmtOf f.toNat).decode (s.val b).toNat)) := by
  simp only [fpLongForms, List.forall_mem_cons, List.not_mem_nil, false_implies, implies_true, and_true]
  exact ⟨exec_fdiv_full l ha hb, fpLong1_full fSqrt 32 16 l ha, fpLong1_full fRcp 32 16 l ha, fpLong1_full fRsqrt 32 16 l ha,
    fpLong1_full fExp2 48 24 l ha, fpLong1_full fLog2 48 24 l ha, fpLong1_full fSinpi 48 24 l ha, fpLong1_full fCospi 48 24 l ha⟩

end long

/-- Settles O28: each form is fpLong of its value, which the enable bits of FCSR take to issue or to the end of its slot. -/
theorem fpLongResults : Obligations.FpLongResults := by
  intro s d a b f l ha hb m g step hm z hz
  have hex := exec_fpLongForms l ha hb z hz
  exact ⟨fun he => hex.trans (fpLong_issued _ _ _ hm he),
    fun he hfree => ends_of_fpEnd (hex.trans (fpLong_in_slot _ _ _ hm he hfree))⟩

end Sys2Proof.Machine
end

section
/-! PROOFS. Vector instructions enter the sequencer (R201, R242, R246). -/

namespace Sys2Proof.Machine

section issue
variable {s : State}

theorem enqueue_outside {e : VEntry} (gen : Dest) (hs : s.plain ∨ e.streams s.me = false) :
    enqueue s e gen = match e.wrongWay s.me with
      | some n => .next (s.trapTo 0x19 (w64 (0x8000000000000200 + n)))
      | none =>
        if (s.me.vblocks.find? fun v => v.missing != 0).isNone && decide (16 ≤ s.me.vseq.length) then parked s .sequencer
        else .next (s.enqueued e gen) := by
  have hgo : (s.inTx && e.streams s.me) = false := by
    rcases hs with h | h
    · rw [show s.inTx = false from h, Bool.false_and]
    · rw [h, Bool.and_false]
  exact if_neg (ne_true_of_eq_false hgo)

/-- A bound register that is used against its direction traps STREAM (R201). -/
theorem enqueue_wrongWay {e : VEntry} {n : Nat} (gen : Dest) (hs : s.plain ∨ e.streams s.me = false)
    (hn : e.wrongWay s.me = some n) : enqueue s e gen = .next (s.trapTo 0x19 (w64 (0x8000000000000200 + n))) := by
  rw [enqueue_outside gen hs, hn]

/-- The sequencer takes an entry while a VSEQ captures, and otherwise where it has room (R242, R246). -/
theorem enqueue_enters {e : VEntry} (gen : Dest) (hs : s.plain ∨ e.streams s.me = false) (hn : e.wrongWay s.me = none)
    (hroom : (∃ v ∈ s.me.vblocks, v.missing ≠ 0) ∨ s.me.vseq.length < 16) :
    enqueue s e gen = .next (s.enqueued e gen) := by
  rw [enqueue_outside gen hs, hn]
  refine if_neg ?_
  rcases hroom with ⟨v, hv, hm⟩ | h
  · have hsome : (s.me.vblocks.find? fun v => v.missing != 0).isSome = true :=
      List.find?_isSome.mpr ⟨v, hv, bne_iff_ne.mpr hm⟩
    simp [Option.isNone_eq_false_iff.mpr hsome]
  · simp [Nat.not_le.mpr h]

/-- A form with a general operand is put into the sequencer with the value that the register holds. -/
theorem vecY_full {y : BitVec 5} (hy : s.ready y) (j n d a : Nat) (m : BitVec 1) (t : Nat) (gen : Dest) :
    vecY s j n d a y m t gen = enqueue s { vEntry j n d a 0 m t with y := s.val y, yp := s.bad y } gen :=
  withReg_full (fun z => enqueue s { vEntry j n d a 0 m t with y := z.val, yp := z.poison } gen) hy

theorem exec_vbcast_full {x : BitVec 5} (hx : s.ready x) (d : BitVec 4) (m : BitVec 1) (t : BitVec 3) :
    exec (.vbcast d x m t) s
      = enqueue s { vEntry 0x30 0x20 d.toNat 0 0 m t.toNat with x := s.val x, xp := s.bad x } .none :=
  withReg_full (fun z => enqueue s { vEntry 0x30 0x20 d.toNat 0 0 m t.toNat with x := z.val, xp := z.poison } .none) hx

theorem exec_vins_full {x y : BitVec 5} (hx : s.ready x) (hy : s.ready y) (d : BitVec 4) (t : BitVec 3) :
    exec (.vins d x y t) s
      = enqueue s { vEntry 0x31 6 d.toNat 0 0 0 t.toNat with x := s.val x, xp := s.bad x, y := s.val y, yp := s.bad y } .none := by
  change execVins d x y t s = _
  unfold execVins
  rw [withReg_full _ hx, withReg_full _ hy]
  rfl

/-- Each vector form is put into the sequencer as the entry of its row. -/
theorem exec_vectorForms {d a b : BitVec 4} {g x y : BitVec 5} {m : BitVec 1} {t : BitVec 3} {c : BitVec 2} {cs : BitVec 5}
    {cd : BitVec 4} (hx : s.ready x) (hy : s.ready y) :
    ∀ z ∈ vectorForms s d a b g x y m t c cs cd, exec z.1 s = enqueue s z.2.1 z.2.2 := by
  simp only [vectorForms, List.forall_mem_cons, List.not_mem_nil, false_implies, implies_true, and_true]
  exact ⟨rfl, rfl, rfl, rfl, rfl, rfl, rfl, rfl, rfl, vecY_full hy 0x30 9 d.toNat a.toNat m t.toNat .none, rfl, rfl, rfl, rfl,
    rfl, rfl, rfl, rfl, rfl, rfl, rfl, rfl, rfl, rfl, rfl, rfl, rfl, exec_vbcast_full hx d m t, rfl, rfl, rfl, rfl, rfl, rfl,
    vecY_full hy 0x31 5 0 a.toNat 0 t.toNat (s.me.dest g), exec_vins_full hx hy d t,
    vecY_full hy 0x31 7 d.toNat a.toNat m t.toNat .none, rfl⟩

/-- VSEQ opens a block of the units that follow where the sequencer has room for all of them (R246). -/
theorem exec_vseq_opens {x : BitVec 5} {k : BitVec 4} (hx : s.clean x) (hroom : s.me.vseq.length + k.toNat + 1 ≤ 16) :
    exec (.vseq x k) s = .next ((({ s with nextId := s.nextId + 1 } : State).modMe fun z => { z with
      vblocks := z.vblocks ++ [{ id := s.nextId, size := k.toNat + 1, missing := k.toNat + 1
                                 reps := field (s.val x) 31 0, pc := s.upc }] }).advance) := by
  obtain ⟨hr, hp⟩ := hx
  change execVseq x k s = _
  unfold execVseq
  rw [withControl_clean _ hr hp]
  exact if_neg (Nat.not_lt.mpr hroom)

end issue

/-- Settles O29: each form is enqueue of its entry, which a misused register stops and which enters otherwise. -/
theorem vectorIssue : Obligations.VectorIssue := by
  refine fun s d a b g x y m t c cs cd => ⟨fun hx hy z hz hs => ?_, exec_vseq_opens⟩
  rw [exec_vectorForms hx hy z hz]
  exact ⟨fun n hn => enqueue_wrongWay _ hs hn, fun hn hroom => enqueue_enters _ hs hn hroom⟩

end Sys2Proof.Machine
end

section
/-! PROOFS. The vector unit (R243, R247, R249). -/

namespace Sys2Proof.Machine

/-! ### Elements of a vector register (R241) -/

theorem vPack_lt (w : Nat) (xs : List Nat) : vPack w xs < 2 ^ (w * xs.length) := by
  induction xs with
  | nil => exact Nat.one_pos
  | cons x xs ih =>
    have hx : x % 2 ^ w < 2 ^ w := Nat.mod_lt _ (Nat.two_pow_pos w)
    calc vPack w (x :: xs) < 2 ^ w + 2 ^ w * vPack w xs := Nat.add_lt_add_right hx _
      _ = 2 ^ w * (vPack w xs + 1) := by ring
      _ ≤ 2 ^ w * 2 ^ (w * xs.length) := Nat.mul_le_mul_left _ ih
      _ = 2 ^ (w * (x :: xs).length) := by rw [← Nat.pow_add, List.length_cons, Nat.mul_add_one, Nat.add_comm]

theorem vPack_element (w : Nat) {xs : List Nat} {i : Nat} (hi : i < xs.length) :
    vPack w xs / 2 ^ (w * i) % 2 ^ w = xs[i] % 2 ^ w := by
  have hw : 0 < 2 ^ w := Nat.two_pow_pos w
  induction xs generalizing i with
  | nil => exact absurd hi (Nat.not_lt_zero i)
  | cons x xs ih =>
    cases i with
    | zero => simp [vPack]
    | succ i =>
      have htail : vPack w (x :: xs) / 2 ^ w = vPack w xs := by
        rw [vPack, Nat.add_mul_div_left _ _ hw, Nat.div_eq_of_lt (Nat.mod_lt _ hw), Nat.zero_add]
      rw [Nat.mul_add_one, Nat.add_comm, Nat.pow_add, ← Nat.div_div_eq_div_mul, htail]
      exact ih (Nat.lt_of_succ_lt_succ hi)

/-- The elements of a register that is packed of them. -/
theorem vElem_vPack {w : Nat} {xs : List Nat} {i : Nat} (hw : w * xs.length ≤ 256) (hi : i < xs.length) :
    vElem (BitVec.ofNat 256 (vPack w xs)) w i = xs[i] % 2 ^ w := by
  have hlt : vPack w xs < 2 ^ 256 := (vPack_lt w xs).trans_le (Nat.pow_le_pow_right Nat.two_pos hw)
  rw [vElem, BitVec.toNat_ofNat, Nat.mod_eq_of_lt hlt, vPack_element w hi]

theorem vElem_mod (v : BitVec 256) (w i : Nat) : vElem v w i % 2 ^ w = vElem v w i := Nat.mod_mod _ _

/-- A function that leaves the rounding environment alone is applied to each selected element. -/
theorem vMap_pure (w : Nat) (on : Nat → Bool) (old : BitVec 256) (g : Nat → Nat) (is : List Nat) (env : VEnv) :
    vMap w on old (fun i v => (g i, v)) is env = (is.map fun i => if on i then g i else vElem old w i, env) := by
  induction is with
  | nil => rfl
  | cons i is ih => cases h : on i <;> simp [vMap, h, ih]

/-! ### What an entry computes -/

/-- An integer form of major 0x30 packs its function of the selected elements and the old elements besides (R247). -/
theorem VEntry.compute_integer {e : VEntry} (env : VEnv) (mask : Word) (a b d : BitVec 256) (hj : e.major = 0x30)
    (hn : e.fn < 0x20) (hc : ¬ (0x10 ≤ e.fn ∧ e.fn ≤ 0x13)) (ht : vIsFp e.t = false) :
    (e.compute env mask a b d).val = vPack (vWidth e.t) ((List.range (256 / vWidth e.t)).map fun i =>
      if !e.m || bit mask i then
        vIntElem e.fn (vWidth e.t) (vElem a (vWidth e.t) i) (vElem b (vWidth e.t) i) (vElem d (vWidth e.t) i)
      else vElem d (vWidth e.t) i) := by
  have h20 : e.fn ≠ 0x20 := by omega
  have h21 : e.fn ≠ 0x21 := by omega
  unfold VEntry.compute
  simp only [hj, h20, h21, ht, vMap_pure, if_true, if_false, Bool.and_eq_true, decide_eq_true_eq, hc, Bool.false_eq_true]

theorem VEntry.writesV_integer {e : VEntry} (hj : e.major = 0x30) (hc : ¬ (0x10 ≤ e.fn ∧ e.fn ≤ 0x13)) : e.writesV = true := by
  simp only [VEntry.writesV, hj, if_true, ← Bool.decide_and, decide_eq_false hc, Bool.not_false]

/-- VEXT gives the element that its operand names as a general result (R249). -/
theorem VEntry.compute_extract {e : VEntry} (env : VEnv) (mask : Word) (a b d : BitVec 256) (hj : e.major = 0x31)
    (hn : e.fn = 5) :
    (e.compute env mask a b d).gen = vGeneral e.t (vElem a (vWidth e.t) (e.y.toNat % (256 / vWidth e.t))) := by
  simp [VEntry.compute, hj, hn]

/-! ### An execution without streams (R243) -/

/-- The time from the execution to the result of a destination. -/
def Dest.vDelay : Dest → Nat
  | .v _ => 4
  | _ => 6

/-- The bits of a result for a vector register, or for a general one. -/
def VEntry.resultBits (e : VEntry) (r : VOut) : BitVec 256 :=
  if e.writesV then BitVec.ofNat 256 r.val else r.gen.zeroExtend 256

theorem Ctx.vStep_vres (c : Ctx) (e : VEntry) : (c.vStep e).vres = c.vres := by
  unfold Ctx.vStep
  split
  · rfl
  · split
    · rfl
    · split
      · rfl
      · split <;> rfl

section unbound
variable {c : Ctx} (h : c.streams = [])
include h

theorem Ctx.slot_unbound (n : Nat) : c.slot n = none := by
  unfold Ctx.slot
  split
  · rw [h]; rfl
  · rfl

theorem Ctx.bindsIn_unbound (n : Nat) : c.bindsIn n = false := by rw [Ctx.bindsIn, Ctx.slot_unbound h]; rfl

theorem Ctx.bindsOut_unbound (n : Nat) : c.bindsOut n = false := by rw [Ctx.bindsOut, Ctx.slot_unbound h]; rfl

end unbound

/-- In a context without streams an execution computes of the registers, and its result joins those that are to be written. -/
theorem State.vExecute_vres {s : State} {p : Pos} {e : VEntry} (last : Bool) (hstr : (s.ctx p).streams = [])
    (hdst : (∃ n, e.dst = .v n) ∨ (∃ n, e.dst = .g n) ∨ ∃ n, e.dst = .win n) :
    ∃ env bad, ((s.vExecute p e last).ctx p).vres = (s.ctx p).vres ++
      [{ id := e.id, seq := e.seq, due := s.cycle + e.dst.vDelay, dst := e.dst
         val := e.resultBits (e.compute env (s.srAt p 0x099) ((s.ctx p).vreg e.a).val ((s.ctx p).vreg e.b).val
           ((s.ctx p).vreg e.d).val)
         poison := bad, last := last }] := by
  have hpops : e.operands.filter (s.ctx p).bindsIn = [] :=
    List.filter_eq_nil_iff.mpr fun n _ => by rw [Ctx.bindsIn_unbound hstr]; exact Bool.false_ne_true
  unfold State.vExecute
  simp only [hpops, Ctx.bindsOut_unbound hstr, Ctx.vOperand, List.eraseDups_nil, List.filterMap_nil, List.find?_nil, Bool.and_false,
    Bool.false_eq_true, if_false, ite_self]
  rcases hdst with ⟨n, hn⟩ | ⟨n, hn⟩ | ⟨n, hn⟩ <;> rw [hn] <;> dsimp only <;> rw [State.ctx_setCtx] <;>
    exact ⟨_, _, congrArg (· ++ _) (Ctx.vStep_vres _ _)⟩

/-- The vector unit executes the oldest entry of the next context where that entry is ready. -/
theorem exec_vectorCycle_head {s : State} {b r k : Nat} {e : VEntry} {last : Bool} (hk : k < 16) (hnext : (s.rill b r).vNext = k)
    (hrun : (s.ctx ⟨b, r, k⟩).run = .running) (hidle : (s.ctx ⟨b, r, k⟩).vIdleBlock = none)
    (hhead : (s.ctx ⟨b, r, k⟩).vHead = some (e, last)) (hready : s.vReady ⟨b, r, k⟩ e = true) :
    exec (.vectorCycle b r) s
      = .next ((s.vExecute ⟨b, r, k⟩ e last).modRill b r fun x => { x with vNext := (k + 1) % 16 }) := by
  have hat : ((s.rill b r).vNext + 0) % 16 = k := by rw [hnext, Nat.add_zero, Nat.mod_eq_of_lt hk]
  change execVectorCycle b r s = _
  unfold execVectorCycle
  dsimp only
  have hfirst {f : Nat → Bool} (hf : f 0 = true) : (List.range 16).find? f = some 0 := List.find?_cons_of_pos hf
  rw [hfirst (by rw [hat, hrun, hhead]; simp [hready])]
  dsimp only
  rw [hat, hidle, hhead]

/-! ### A result that is due (R243) -/

theorem Ctx.fill_vres (c : Ctx) (d : Dest) (id : Nat) (v : Word) (p : Bool) : (c.fill d id v p).vres = c.vres := by
  unfold Ctx.fill
  cases d <;> dsimp only <;> split <;> rfl

/-- The last result of an instruction fills a general register that waits for it. -/
theorem Ctx.vWrite_general {x : VResult} (c : Ctx) (hl : x.last = true) (hd : ∃ n, x.dst = .g n ∨ x.dst = .win n) :
    c.vWrite x = ({ c with vres := c.vres.erase x } : Ctx).fill x.dst x.id (x.val.truncate 64) x.poison := by
  unfold Ctx.vWrite
  obtain ⟨n, hn | hn⟩ := hd <;> rw [hn] <;> exact if_pos hl

/-- It fills a vector register that waits for it. -/
theorem Ctx.vWrite_vector {x : VResult} (c : Ctx) {n : Nat} (hl : x.last = true) (hd : x.dst = .v n)
    (hf : (c.vreg n).full = false) (hs : (c.vreg n).src = x.id) :
    c.vWrite x = ({ c with vres := c.vres.erase x, vWrote := c.vWrote.put n x.seq } : Ctx).setVreg n
      { val := x.val, poison := x.poison } := by
  unfold Ctx.vWrite
  rw [hd]
  exact (if_neg (ne_true_of_eq_false hf)).trans ((if_pos hs).trans (by rw [if_pos hl]))

theorem exec_vectorResultWrite_due {s : State} {b r k : Nat} {x : VResult}
    (h : (s.ctx ⟨b, r, k⟩).vres.find? (fun x => decide (x.due ≤ s.cycle)) = some x) :
    exec (.vectorResultWrite b r k) s = .next (s.modCtx ⟨b, r, k⟩ fun c => c.vWrite x) := by
  change execVectorResultWrite b r k s = _
  unfold execVectorResultWrite
  rw [h]

/-- An execution of the head of the next context adds one result and passes the turn on. -/
theorem vectorCycle_adds {s : State} {b r k : Nat} {e : VEntry} (hk : k < 16) (hnext : (s.rill b r).vNext = k)
    (hrun : (s.ctx ⟨b, r, k⟩).run = .running) (hidle : (s.ctx ⟨b, r, k⟩).vIdleBlock = none)
    (hhead : (s.ctx ⟨b, r, k⟩).vHead = some (e, true)) (hready : s.vReady ⟨b, r, k⟩ e = true)
    (hstr : (s.ctx ⟨b, r, k⟩).streams = []) (hdst : (∃ n, e.dst = .v n) ∨ (∃ n, e.dst = .g n) ∨ ∃ n, e.dst = .win n) :
    ∃ t v env, exec (.vectorCycle b r) s = .next t ∧ (t.ctx ⟨b, r, k⟩).vres = (s.ctx ⟨b, r, k⟩).vres ++ [v]
      ∧ v.id = e.id ∧ v.due = s.cycle + e.dst.vDelay ∧ v.dst = e.dst
      ∧ v.val = e.resultBits (e.compute env (s.srAt ⟨b, r, k⟩ 0x099) ((s.ctx ⟨b, r, k⟩).vreg e.a).val
          ((s.ctx ⟨b, r, k⟩).vreg e.b).val ((s.ctx ⟨b, r, k⟩).vreg e.d).val)
      ∧ (t.rill b r).vNext = (k + 1) % 16 := by
  obtain ⟨env, bad, hres⟩ := State.vExecute_vres true hstr hdst
  refine ⟨_, _, env, exec_vectorCycle_head hk hnext hrun hidle hhead hready, hres, rfl, rfl, rfl, rfl, ?_⟩
  rw [State.rill_modRill]

/-- Settles O30: the head of the next context adds its result, whose elements are those that compute packs; a result that is
due is written where its register waits for it. -/
theorem vectorExecution : Obligations.VectorExecution := by
  refine ⟨?_, ?_, ?_, ?_⟩
  · intro s b r k e hk p w on hnext hrun hidle hhead hready hstr hj hn hc ht hdst
    obtain ⟨t, v, env, ht', hres, hid, hdue, hvd, hval, hturn⟩ :=
      vectorCycle_adds hk hnext hrun hidle hhead hready hstr (.inl ⟨_, hdst⟩)
    rw [hdst] at hdue hvd
    refine ⟨t, v, ht', hres, hid, hdue, hvd, fun i hi => ?_, hturn⟩
    rw [hval, VEntry.resultBits, if_pos (VEntry.writesV_integer hj hc), VEntry.compute_integer _ _ _ _ _ hj hn hc ht,
      vElem_vPack (by simpa using Nat.mul_div_le 256 (vWidth e.t)) (by simpa using hi), List.getElem_map, List.getElem_range]
    split
    · rfl
    · exact vElem_mod _ _ _
  · intro s b r k e hk p w hnext hrun hidle hhead hready hstr hj hn hdst
    obtain ⟨t, v, env, ht, hres, hid, hdue, hvd, hval, -⟩ :=
      vectorCycle_adds hk hnext hrun hidle hhead hready hstr (.inr (exists_or.mp hdst))
    refine ⟨t, v, ht, hres, hid, ?_, hvd, ?_⟩
    · obtain ⟨m, hm | hm⟩ := hdst <;> rw [hdue, hm] <;> rfl
    · rw [hval, VEntry.resultBits, if_neg (by simp [VEntry.writesV, hj, hn]), VEntry.compute_extract _ _ _ _ _ hj hn]
      exact (BitVec.setWidth_setWidth_of_le _ (by decide)).trans (BitVec.setWidth_eq _)
  · intro s b r k x p hx hl hd hwait
    refine ⟨_, exec_vectorResultWrite_due hx, ?_, fun d hne => ?_, ?_⟩ <;>
      rw [State.ctx_modCtx, Ctx.vWrite_general _ hl hd]
    · exact Ctx.cellAt_fill_waiting _ _ hwait
    · exact Ctx.cellAt_fill_other _ _ _ _ hne
    · exact Ctx.fill_vres _ _ _ _ _
  · intro s b r k n x hx hd hl hf hs
    refine ⟨_, exec_vectorResultWrite_due hx, ?_, ?_⟩ <;> rw [State.ctx_modCtx, Ctx.vWrite_vector _ hl hd hf hs]
    · exact Table.get_put_same _ _ _ _
    · rfl

end Sys2Proof.Machine
end

section
/-! PROOFS. Vector loads and stores (R245, R251, R252). -/

namespace Sys2Proof.Machine

section vectorMemory
variable {s : State}

/-- Registers that are not bound stop no instruction (R201). -/
theorem boundFault_none {names : List Nat} (h : ∀ n ∈ names, s.me.slot n = none) : boundFault s names = none :=
  List.find?_eq_none.mpr fun n hn => by simp [h n hn]

/-- The element accesses of a vector load or store (R252). -/
def State.elementAccesses (s : State) (load : Bool) (d e : Nat) (m : BitVec 1) (ext : List Word) (addr : Nat → Word) :
    List Access :=
  (s.selected (m == 1) (32 / e)).map fun i => s.elementAccess load d e i ext (addr i)

/-- A load without .m clears the old poison of its register (R245). -/
def Ctx.clearOld (load : Bool) (m : BitVec 1) (d : Nat) (c : Ctx) : Ctx :=
  if load && m == 0 then c.setVreg d { c.vreg d with poison := false } else c

/-- Behind no vector instruction, with registers that are full and not bound, a vector load or store outside a transaction is
judged by the addresses of its selected elements. -/
theorem vecMem_outside {d : Nat} (load : Bool) (m : BitVec 1) (e la : Nat) {names : List Nat} (ext : List Word)
    (addr : Nat → Word) (hs : s.plain) (hseq : s.me.vseq = []) (hres : s.me.vres = []) (hd : (s.me.vreg d).full = true)
    (hn : ∀ n ∈ names, s.me.slot n = none) :
    vecMem s load d m e la false names ext addr
      = ((s.selected (m == 1) (32 / e)).findSome? fun i =>
          (addressFault (addr i) e false true).map fun c => (c, addr i)).elim
        (if (s.selected (m == 1) (32 / e)).isEmpty then .next s.advance
          else issueAll s (if load then [.v d] else []) (some la) (s.elementAccesses load d e m ext addr)
            (Ctx.clearOld load m d))
        fun x => trappedAt s x.1 x.2 (!load) := by
  have huses : s.me.vUses d = false := by simp [Ctx.vUses, hseq, hres]
  have hacc : s.elementAccesses load d e m ext addr
      = ((s.selected (m == 1) (32 / e)).map fun i => (i, addr i)).map fun z =>
        { id := 0, seq := 0, kind := if load then .load false else .store, va := z.2, size := e, elem := z.1
          dst := if load then .v d else .none, data := if load then 0 else w64 (vElem (s.me.vreg d).val (8 * e) z.1)
          poison := !load && (s.me.vreg d).poison, tag := if load then none else s.me.relTag, ext := ext } := by
    rw [List.map_map]
    refine List.map_congr_left fun i _ => ?_
    cases load <;> rfl
  unfold State.plain at hs
  unfold vecMem
  simp only [hseq, hs, hd, huses, boundFault_none hn, hacc, firstFault, List.findSome?_map, List.isEmpty_map, List.isEmpty_nil,
    Bool.not_true, Bool.and_false, Bool.false_and, Bool.false_eq_true, if_false, Function.comp_def]
  cases (s.selected (m == 1) (32 / e)).findSome? fun i => (addressFault (addr i) e false true).map fun c => (c, addr i) <;> rfl

theorem vecLinear_clean {d : BitVec 4} {a b : BitVec 5} {m : BitVec 1} {z : BitVec 2} {l : BitVec 4} (load strided : Bool)
    (ha : s.clean a) (hb : s.clean b) :
    vecLinear s load strided d a b m z l = vecMem s load d.toNat m (2 ^ z.toNat) l.toNat false [d.toNat]
      (if strided then [s.val a, s.val b] else [s.val a + s.val b, 0]) fun i =>
        if strided then s.val a + w64 i * s.val b else s.val a + s.val b + w64 (i * 2 ^ z.toNat) := by
  obtain ⟨ra, pa⟩ := ha
  obtain ⟨rb, pb⟩ := hb
  unfold State.bad at pa pb
  unfold vecLinear
  rw [withReg_full _ ra, withReg_full _ rb, pa, pb]
  rfl

theorem vecIndexed_clean {d v : BitVec 4} {a : BitVec 5} {m : BitVec 1} {z : BitVec 2} {l : BitVec 4} (load : Bool) (hs : s.plain)
    (ha : s.clean a) (hv : (s.me.vreg v.toNat).full = true) (pv : (s.me.vreg v.toNat).poison = false)
    (hn : ∀ n ∈ [d.toNat, v.toNat], s.me.slot n = none) :
    vecIndexed s load d a v m z l = vecMem s load d.toNat m (2 ^ z.toNat) l.toNat false [d.toNat, v.toNat]
      (s.val a :: 0 :: vecWords (s.me.vreg v.toNat).val) (indexed (s.val a) (s.me.vreg v.toNat).val (2 ^ z.toNat)) := by
  obtain ⟨ra, pa⟩ := ha
  unfold State.bad at pa
  unfold State.plain at hs
  unfold vecIndexed
  rw [withReg_full _ ra, hs, if_neg Bool.false_ne_true, boundFault_none hn]
  dsimp only
  rw [withVreg, if_pos hv, pa, pv]
  rfl

/-- Each form is vecMem of its row, where its operands are full, clean and not bound. -/
theorem exec_vectorAccesses {d v : BitVec 4} {a b : BitVec 5} {m : BitVec 1} {z : BitVec 2} {l : BitVec 4}
    (hs : s.plain) (ha : s.clean a) (hb : s.clean b) (hv : (s.me.vreg v.toNat).full = true)
    (pv : (s.me.vreg v.toNat).poison = false) :
    ∀ x ∈ vectorAccesses s d v a b m z l, (∀ n ∈ x.2.2.1, s.me.slot n = none) →
      exec x.1 s = vecMem s x.2.1 d.toNat m (2 ^ z.toNat) l.toNat false x.2.2.1 x.2.2.2.1 x.2.2.2.2 := by
  simp only [vectorAccesses, List.forall_mem_cons (p := fun x : Instr × Bool × List Nat × List Word × (Nat → Word) =>
    (∀ n ∈ x.2.2.1, s.me.slot n = none) → _), List.not_mem_nil, false_implies, implies_true, and_true]
  exact ⟨fun _ => vecLinear_clean true false ha hb, fun _ => vecLinear_clean false false ha hb,
    fun _ => vecLinear_clean true true ha hb, fun _ => vecLinear_clean false true ha hb,
    vecIndexed_clean true hs ha hv pv, vecIndexed_clean false hs ha hv pv⟩

/-- A load or a store of an element opens a lookahead window that does not outlast the replay queue (R296). -/
theorem State.elementAccesses_keepsLa (load : Bool) (d e : Nat) (m : BitVec 1) (ext : List Word) (addr : Nat → Word) :
    ((s.elementAccesses load d e m ext addr).any fun x => x.kind.keepsLa) = false := by
  rw [List.any_eq_false]
  intro x hx
  obtain ⟨i, -, rfl⟩ := List.mem_map.mp hx
  cases load <;> exact Bool.false_ne_true

/-- Accesses that pass their translations are on their way (R144). -/
theorem issueAll_elementAccesses {s1 : State} {bs : List Access} (load : Bool) (d e la : Nat) (m : BitVec 1) (ext : List Word)
    (addr : Nat → Word) (post : Ctx → Ctx) (hroom : s.cur.k = 15 ∨ 0 < s.myRill.replayRoom)
    (h : s.passesAll (s.elementAccesses load d e m ext addr) s1 bs) :
    issueAll s (if load then [.v d] else []) (some la) (s.elementAccesses load d e m ext addr) post
      = .next (s.afterIssueAll s1 (if load then [.v d] else []) la bs post) := by
  unfold issueAll
  rw [issueThen_go _ _ _ _ hroom h]
  simp only [State.elementAccesses_keepsLa]
  rfl

end vectorMemory

/-- Settles O31: each form is vecMem of its row, and vecMem is judged by the first selected element whose address fails. -/
theorem vectorMemoryIssue : Obligations.VectorMemoryIssue := by
  intro s d v a b m z l hs ha hb hv pv hseq hres hd hroom x hx hn e els accs
  rw [exec_vectorAccesses hs ha hb hv pv x hx hn, vecMem_outside _ _ _ _ _ _ hs hseq hres hd hn]
  refine ⟨fun h => ?_, fun h hf s1 bs hp => ?_, fun c ea hf => ?_⟩
  · have hnil : s.selected (m == 1) (32 / 2 ^ z.toNat) = [] := h
    rw [hnil]
    rfl
  · have hpass : (els.findSome? fun i => (addressFault (x.2.2.2.2 i) e false true).map fun c => (c, x.2.2.2.2 i)) = none :=
      List.findSome?_eq_none_iff.mpr fun i hi => by rw [hf i hi]; rfl
    rw [hpass, Option.elim_none, if_neg (mt List.isEmpty_iff.mp h)]
    exact issueAll_elementAccesses _ _ _ _ _ _ _ _ hroom hp
  · rw [hf]
    rfl

end Sys2Proof.Machine
end

section
/-! PROOFS. Tiles of a braid under changes of several tiles (R254, R263, R281). -/

namespace Sys2Proof.Machine

theorem Braid.tile_modTile (x : Braid) (n t : Nat) (f : Tile → Tile) :
    (x.modTile n f).tile t = if t = n then f (x.tile n) else x.tile t := Table.get_put _ _ _ _ _

/-- A change of each of several different tiles changes these once and no other tile. -/
theorem Braid.tile_foldl_modTile {l : List Nat} (h : l.Nodup) (f : Tile → Tile) (x : Braid) (t : Nat) :
    (l.foldl (fun y n => y.modTile n f) x).tile t = if t ∈ l then f (x.tile t) else x.tile t := by
  induction l generalizing x with
  | nil => rfl
  | cons n l ih =>
    obtain ⟨hn, hl⟩ := List.nodup_cons.mp h
    rw [List.foldl_cons, ih hl, Braid.tile_modTile]
    by_cases ht : t = n
    · subst ht
      simp [hn]
    · simp [ht]

/-- A change of tiles keeps what does not depend on tiles. -/
theorem Braid.foldl_modTile_keeps {α : Type} {g : Braid → α} (h : ∀ y ts, g { y with tiles := ts } = g y) (f : Tile → Tile)
    (l : List Nat) (x : Braid) : g (l.foldl (fun y n => y.modTile n f) x) = g x := by
  induction l generalizing x with
  | nil => rfl
  | cons n l ih => exact (ih _).trans (h _ _)

/-- A command names each of its tiles once. -/
theorem MxCmd.nodup_named (q : MxCmd) : q.named.Nodup := by
  have hrun (n : Nat) : ((List.range n).map fun i => q.tile + i).Nodup :=
    List.nodup_range.map fun _ _ h => Nat.add_left_cancel h
  unfold MxCmd.named
  split
  · exact hrun _
  · split
    · exact hrun _
    · split
      · exact List.nodup_singleton _
      · exact List.nodup_nil

end Sys2Proof.Machine
end

section
/-! PROOFS. Matrix commands enter the queue of their rill (R262 to R264). -/

namespace Sys2Proof.Machine

/-! ### Acceptance (R263) -/

section enqueue
variable (s : State) (b : Nat) (q : MxCmd) (e : Nat)

/-- The tiles that a command counts are those that it names and its rill owns. -/
theorem State.mx_enqueueMx : ((s.enqueueMx b q e).braid b).mx = (s.braid b).mx ++
    [{ q with id := s.nextId, entry := e, tiles := ((s.braid b).countOut q.rill q.named).2 }] := by
  change ((State.setBraid _ b _).braid b).mx = _
  rw [State.braid_setBraid]
  exact congrArg (· ++ _) (Braid.foldl_modTile_keeps (g := Braid.mx) (fun _ _ => rfl) _ _ _)

theorem State.tile_enqueueMx (t : Nat) : ((s.enqueueMx b q e).braid b).tile t =
    if t ∈ ((s.braid b).countOut q.rill q.named).2 then
      { (s.braid b).tile t with out := ((s.braid b).tile t).out + 1 } else (s.braid b).tile t := by
  change ((State.setBraid _ b _).braid b).tile t = _
  rw [State.braid_setBraid]
  exact Braid.tile_foldl_modTile (q.nodup_named.filter _) _ _ _

theorem State.out_enqueueMx (t : Nat) : (((s.enqueueMx b q e).braid b).tile t).out =
    ((s.braid b).tile t).out + if ((s.braid b).countOut q.rill q.named).2.contains t then 1 else 0 := by
  rw [State.tile_enqueueMx]
  by_cases h : t ∈ ((s.braid b).countOut q.rill q.named).2 <;> simp [h]

theorem State.cc_enqueueMx : ((s.enqueueMx b q e).rill b q.rill).cc.get 0 q.cc = (s.rill b q.rill).cc.get 0 q.cc + 1 :=
  State.cc_raiseCc _ _ _ _

end enqueue

/-! ### Issue (R262, R264) -/

/-- The command that the executing unit issues with the words ws of its ox block. -/
def State.mxIssued (s : State) (op : Nat) (a b : BitVec 5) (ws : List Word) (c : BitVec 3) (xp : Bool) : MxCmd :=
  { s.mxCommand op (s.val a) (s.val b) ws c xp with after := s.wideRelease s.cur }

/-- The state once the command q of the executing unit has entered its queue, with the team that was armed. -/
def State.mxAccepted (s : State) (q : MxCmd) (e : Nat) : State :=
  ((s.enqueueMx s.cur.b q e).modMe fun z => { z with team := none }).advance

/-- Each form is matrixCmd of its row. -/
theorem exec_matrixForms (s : State) (x : BitVec 1) (a b : BitVec 5) (o c : BitVec 3) (l : BitVec 4) :
    ∀ z ∈ matrixForms x a b o c l, exec z.1 s = matrixCmd s z.2.1 z.2.2.1 b o z.2.2.2.1 c z.2.2.2.2 := by
  simp only [matrixForms, List.forall_mem_cons, List.not_mem_nil, false_implies, implies_true, and_true]
  exact ⟨rfl, rfl, rfl, rfl, rfl, rfl, rfl, rfl, rfl⟩

/-- The register of A is a's, or register 0. -/
theorem matrixForms_clean {s : State} {a : BitVec 5} (ha : s.clean a) (x : BitVec 1) (b : BitVec 5) (o c : BitVec 3)
    (l : BitVec 4) : ∀ z ∈ matrixForms x a b o c l, s.clean z.2.2.1 := by
  have h0 : s.clean 0 := ⟨rfl, rfl⟩
  simp only [matrixForms, List.forall_mem_cons, List.not_mem_nil, false_implies, implies_true, and_true]
  exact ⟨ha, ha, ha, h0, h0, ha, ha, ha, ha⟩

/-- With operands that are full and clean, a free entry and a counter that can rise, the issue checks decide. -/
theorem matrixCmd_clean {s : State} {op n e : Nat} {a b : BitVec 5} {o c : BitVec 3} (xp : Bool) (hs : s.plain)
    (ha : s.clean a) (hb : s.clean b) (ho : (s.me.oxBlock o.toNat n).all (fun y => y.full && !y.poison) = true)
    (he : (s.braid s.cur.b).mxEntry s.cur.r = some e) (hcc : s.myRill.cc.get 0 c.toNat < 0xFFFF) :
    let q := s.mxIssued op a b ((s.me.oxBlock o.toNat n).map fun y => y.val) c xp
    matrixCmd s op a b o n c xp =
      if s.mxIssueCode q != 0 then .next (s.trapTo 0x18 (w64 (0x8000000000000000 + s.mxIssueCode q)))
      else .next (s.mxAccepted q e) := by
  obtain ⟨ra, pa⟩ := ha
  obtain ⟨rb, pb⟩ := hb
  unfold State.bad at pa pb
  have hfull : (s.me.oxBlock o.toNat n).all (fun y => y.full) = true :=
    List.all_eq_true.mpr fun y hy => (Bool.and_eq_true_iff.mp (List.all_eq_true.mp ho y hy)).1
  unfold matrixCmd
  rw [outsideTx_plain hs, withReg_full _ ra, withReg_full _ rb, hfull, pa, pb, withOx_clean _ ho]
  simp only [he, Nat.ne_of_lt hcc, Bool.not_true, Bool.or_self, Bool.false_eq_true, if_false]
  rfl

theorem State.me_mxAccepted (s : State) (q : MxCmd) (e : Nat) :
    (s.mxAccepted q e).me = { s.me with team := none, pc := s.nextPc, took := false } := by
  rw [State.mxAccepted, State.me_advance, State.me_modMe]
  rfl

/-- Settles O34: each form is matrixCmd of its row, which the issue checks decide. -/
theorem matrixIssue : Obligations.MatrixIssue := by
  intro s x a b o c l ws e hs ha hb he hcc z hz ho hw q
  subst hw
  rw [exec_matrixForms s x a b o c l z hz, matrixCmd_clean _ hs (matrixForms_clean ha x b o c l z hz) hb ho he hcc]
  refine ⟨fun h => if_pos (bne_iff_ne.mpr h), fun h => ⟨_, if_neg (mt bne_iff_ne.mp (not_not.mpr h)), ?_⟩⟩
  exact ⟨s.mx_enqueueMx _ q e, s.out_enqueueMx _ q e, s.cc_enqueueMx _ q e, by rw [State.me_mxAccepted],
    by rw [State.me_mxAccepted]⟩

end Sys2Proof.Machine
end

section
/-! PROOFS. Matrix commands leave their queue, by their end or by a cancel (R263, R281, R283). -/

namespace Sys2Proof.Machine

theorem State.braid_lowerCc (s : State) (b r m c : Nat) : (s.lowerCc b r m).braid c = s.braid c := rfl

theorem State.mx_removeMx (s : State) (b : Nat) (q : MxCmd) :
    ((s.removeMx b q).braid b).mx = (s.braid b).mx.filter fun z => z.id != q.id := by
  rw [State.removeMx, State.braid_lowerCc, State.braid_modBraid]
  exact Braid.foldl_modTile_keeps (g := Braid.mx) (fun _ _ => rfl) _ _ _

theorem State.mem_mx_foldl_removeMx (s : State) (b : Nat) (l : List MxCmd) (z : MxCmd) :
    z ∈ ((l.foldl (fun t r => t.removeMx b r) s).braid b).mx ↔ z ∈ (s.braid b).mx ∧ ∀ r ∈ l, z.id ≠ r.id := by
  induction l generalizing s with
  | nil => simp
  | cons r l ih =>
    rw [List.foldl_cons, ih, State.mx_removeMx, List.mem_filter, List.forall_mem_cons, bne_iff_ne, and_assoc]

/-- A command that ends stands in its queue no longer. -/
theorem State.not_mem_mx_finishMx (s : State) (b : Nat) (q : MxCmd) : q.id ∉ ((s.finishMx b q).braid b).mx.map MxCmd.id := by
  have hmx : (s.finishMx b q).braid b
      = ((q :: (s.braid b).mx.filter fun z => z.id != q.id && z.lead == q.id).foldl (fun t r => t.removeMx b r) s).braid b := by
    unfold State.finishMx
    split <;> rfl
  rw [hmx, List.mem_map]
  rintro ⟨z, hz, hid⟩
  exact ((State.mem_mx_foldl_removeMx s b _ z).mp hz).2 q List.mem_cons_self hid

/-- A command that leads no other leaves alone. -/
theorem State.finishMx_alone {s : State} {b : Nat} {q : MxCmd} (hop : q.op ≠ 2)
    (h : ∀ z ∈ (s.braid b).mx, z.lead = q.id → z.id = q.id) : s.finishMx b q = s.removeMx b q := by
  have hnone : (s.braid b).mx.filter (fun z => z.id != q.id && z.lead == q.id) = [] :=
    List.filter_eq_nil_iff.mpr fun z hz => by simpa using fun hne hl => hne (h z hz hl)
  unfold State.finishMx
  rw [hnone]
  exact if_neg hop

theorem State.nextPc_finishMx (s : State) (b : Nat) (q : MxCmd) : (s.finishMx b q).nextPc = s.nextPc := by
  have hfold (l : List MxCmd) (t : State) : (l.foldl (fun t r => t.removeMx b r) t).nextPc = t.nextPc := by
    induction l generalizing t with
    | nil => rfl
    | cons r l ih => exact ih _
  unfold State.finishMx
  dsimp only
  split <;> exact hfold _ s

theorem State.nextPc_endStacc (s : State) (b : Nat) (q : MxCmd) (cleared : Bool) :
    (s.endStacc b q cleared).nextPc = s.nextPc := by
  unfold State.endStacc
  dsimp only
  split <;> split <;> rfl

/-- A cancelled command stands in its queue no longer. -/
theorem State.not_mem_mx_cancelMx (s : State) (b : Nat) (q : MxCmd) : q.id ∉ ((s.cancelMx b q).braid b).mx.map MxCmd.id := by
  unfold State.cancelMx
  split <;> exact State.not_mem_mx_finishMx _ _ _

theorem State.nextPc_cancelMx (s : State) (b : Nat) (q : MxCmd) : (s.cancelMx b q).nextPc = s.nextPc := by
  unfold State.cancelMx
  split
  · exact State.nextPc_finishMx _ _ _
  · refine (State.nextPc_finishMx _ _ _).trans ?_
    split <;> rfl
  · exact (State.nextPc_finishMx _ _ _).trans (State.nextPc_endStacc _ _ _ _)
  · exact State.nextPc_finishMx _ _ _

end Sys2Proof.Machine
end

section
/-! PROOFS. MXQUOTA, MXTEAM and MXRES (R281 to R283). -/

namespace Sys2Proof.Machine

theorem withCode_trap {s : State} {code : Nat} (k : Res) (h : code ≠ 0) :
    withCode s code k = .next (s.trapTo 0x18 (w64 (0x8000000000000000 + code))) := if_neg h

theorem State.braid_advance (s : State) (b : Nat) : s.advance.braid b = s.braid b := rfl

/-! ### MXQUOTA_MV (R281) -/

/-- A tile that is given to rill r goes to it, or waits for what its owner still has outstanding. -/
def Tile.moveTo (r : Nat) (w : Tile) : Tile :=
  if w.owner == some r then { w with pending := none } else ({ w with pending := some r } : Tile).settle

theorem Tile.moveTo_eq (r : Nat) (w : Tile) : w.moveTo r =
    if w.owner = some r then { w with pending := none }
    else if w.out = 0 then { w with owner := some r, pending := none }
    else { w with pending := some r } := by
  simp only [Tile.moveTo, beq_iff_eq]
  rfl

/-- The executing thread may move tile t. -/
def State.mayMove (s : State) (t : Nat) : Bool :=
  let z := (s.braid s.cur.b).tile t
  z.cohort.isSome && (s.cur.k == 15 || z.cohort == s.me.cohort)

/-- The tiles that an operand of MXQUOTA_MV names. -/
def tilesOf (x : Word) : List Nat := (List.range 64).filter (bit x)

theorem mem_tilesOf {x : Word} {t : Nat} : t ∈ tilesOf x ↔ t < 64 ∧ bit x t = true := by
  rw [tilesOf, List.mem_filter, List.mem_range]

theorem State.all_mayMove_iff (s : State) (x : Word) : (tilesOf x).all s.mayMove = true ↔
    ∀ t < 64, bit x t = true → ((s.braid s.cur.b).tile t).cohort.isSome = true
      ∧ (s.cur.k = 15 ∨ ((s.braid s.cur.b).tile t).cohort = s.me.cohort) := by
  simp [mem_tilesOf, State.mayMove]

/-- The state once the tiles of x are given to rill r. -/
def State.quotaMoved (s : State) (x : Word) (r : Nat) : State :=
  (s.modBraid s.cur.b fun br => (tilesOf x).foldl (fun z t => z.modTile t (Tile.moveTo r)) br).advance

theorem State.tile_quotaMoved (s : State) (x : Word) (r t : Nat) : ((s.quotaMoved x r).braid s.cur.b).tile t =
    if t ∈ tilesOf x then ((s.braid s.cur.b).tile t).moveTo r else (s.braid s.cur.b).tile t := by
  rw [State.quotaMoved, State.braid_advance, State.braid_modBraid]
  exact Braid.tile_foldl_modTile (List.nodup_range.filter _) _ _ _

section control
variable {s : State} {a b : BitVec 5} (hs : s.plain) (ha : s.clean a) (hb : s.clean b)
include hs ha

section
include hb

theorem exec_mxquotaMv_clean : exec (.mxquotaMv a b) s =
    withCode s (if field (s.val b) 63 3 != 0 then 0x40 else if !(tilesOf (s.val a)).all s.mayMove then 0x41 else 0)
      (.next (s.quotaMoved (s.val a) (field (s.val b) 2 0))) :=
  (outsideTx_plain hs _ _).trans (withControls_of_clean _ ha hb)

/-- Every tile that MXQUOTA_MV names goes to its rill or waits for it, and no other tile does. -/
theorem mxquotaMv_moves (hy : field (s.val b) 63 3 = 0) (hmay : (tilesOf (s.val a)).all s.mayMove = true) :
    ∃ u, exec (.mxquotaMv a b) s = .next u ∧ u.me.pc = s.nextPc ∧ ∀ t < 64, (u.braid s.cur.b).tile t =
      if bit (s.val a) t then ((s.braid s.cur.b).tile t).moveTo (field (s.val b) 2 0) else (s.braid s.cur.b).tile t := by
  refine ⟨s.quotaMoved (s.val a) (field (s.val b) 2 0), ?_, ?_, fun t ht => ?_⟩
  · rw [exec_mxquotaMv_clean hs ha hb, hy, hmay]
    rfl
  · rw [State.quotaMoved, State.me_advance]
    rfl
  · rw [State.tile_quotaMoved]
    simp only [mem_tilesOf, ht, true_and]

theorem mxquotaMv_badControl (hy : field (s.val b) 63 3 ≠ 0) :
    exec (.mxquotaMv a b) s = .next (s.trapTo 0x18 0x8000000000000040) := by
  rw [exec_mxquotaMv_clean hs ha hb, if_pos (bne_iff_ne.mpr hy)]
  rfl

theorem mxquotaMv_foreignTile (hy : field (s.val b) 63 3 = 0) (hmay : ¬ (tilesOf (s.val a)).all s.mayMove = true) :
    exec (.mxquotaMv a b) s = .next (s.trapTo 0x18 0x8000000000000041) := by
  rw [exec_mxquotaMv_clean hs ha hb, hy, Bool.eq_false_iff.mpr hmay]
  rfl

/-! ### MXQUOTA_WT (R281) -/

theorem mxquotaWt_sets (hk : s.cur.k = 15) (hy : field (s.val b) 63 3 = 0) (h1 : 1 ≤ (s.val a).toNat)
    (h16 : (s.val a).toNat ≤ 16) : exec (.mxquotaWt a b) s =
      .next ((s.setRillSr s.cur.b (field (s.val b) 2 0) 0x121
        (setField (s.rillSr s.cur.b (field (s.val b) 2 0) 0x121) 12 8 (s.val a).toNat)).advance) := by
  have hlow : field (s.val a) 4 0 = (s.val a).toNat := by simp only [field]; omega
  have hhigh : field (s.val a) 63 5 = 0 := by simp only [field]; omega
  have hcode : (field (s.val b) 63 3 != 0 || field (s.val a) 63 5 != 0 || field (s.val a) 4 0 == 0
      || decide (16 < field (s.val a) 4 0)) = false := by
    simp only [hy, hhigh, hlow, Bool.or_eq_false_iff, bne_self_eq_false, beq_eq_false_iff_ne, decide_eq_false_iff_not]
    exact ⟨⟨⟨trivial, trivial⟩, Nat.ne_of_gt h1⟩, Nat.not_lt.mpr h16⟩
  change execMxquotaWt a b s = _
  unfold execMxquotaWt
  rw [outsideTx_plain hs, supervisorOnly_context15 hk, withControls_of_clean _ ha hb, hcode, hlow]
  rfl

/-! ### MXRES (R283) -/

/-- MXRES restarts or cancels the command that it finds. -/
theorem exec_mxres_found {q : MxCmd} (hk : s.cur.k = 15) (hq : (s.braid s.cur.b).mx.find? (fun q => q.rill == s.cur.r
      && q.ctx == field (s.val a) 3 0 && q.entry == field (s.val a) 20 16 && (q.phase == 2 || q.waits)) = some q) :
    (s.val b = 0 → q.phase = 2 → exec (.mxres a b) s = .next (s.setMx s.cur.b { q with phase := 1 }).advance)
    ∧ (s.val b = 1 → exec (.mxres a b) s = .next (s.cancelMx s.cur.b q).advance) := by
  change (_ → _ → execMxres a b s = _) ∧ (_ → execMxres a b s = _)
  unfold execMxres
  rw [outsideTx_plain hs, supervisorOnly_context15 hk, withControls_of_clean _ ha hb]
  simp only [hq]
  exact ⟨fun h0 h2 => by rw [if_pos h0, if_pos h2], fun h1 => by rw [h1]; rfl⟩

end

/-! ### MXTEAM (R282) -/

theorem exec_mxteam_user (hk : s.cur.k < 15) : exec (.mxteam a) s =
    withCode s (if field (s.val a) 15 8 != 0 || field (s.val a) 63 32 != 0 then 0x40
        else if !hasBit (field (s.val a) 7 0) s.cur.r || countOnes 8 (field (s.val a) 7 0) < 2 then 0x47 else 0)
      (.next ((s.modMe fun z => { z with team := some (s.val a) }).advance)) :=
  (outsideTx_plain hs _ _).trans ((if_neg (Nat.ne_of_lt hk)).trans (withControl_of_clean _ ha))

/-- A word with a bit outside its fields arms no team. -/
theorem mxteam_badControl (hk : s.cur.k < 15) (h : field (s.val a) 15 8 ≠ 0 ∨ field (s.val a) 63 32 ≠ 0) :
    exec (.mxteam a) s = .next (s.trapTo 0x18 0x8000000000000040) := by
  rw [exec_mxteam_user hs ha hk, if_pos (by simpa using h)]
  rfl

variable (h0 : field (s.val a) 15 8 = 0) (h1 : field (s.val a) 63 32 = 0)
include h0 h1

theorem mxteam_arms (hk : s.cur.k < 15) (hmine : hasBit (field (s.val a) 7 0) s.cur.r = true)
    (htwo : 2 ≤ countOnes 8 (field (s.val a) 7 0)) :
    exec (.mxteam a) s = .next ((s.modMe fun z => { z with team := some (s.val a) }).advance) := by
  rw [exec_mxteam_user hs ha hk, h0, h1, hmine, decide_eq_false (Nat.not_lt.mpr htwo)]
  rfl

/-- A mask without the rill of the thread, or of one rill only, arms no team. -/
theorem mxteam_badMask (hk : s.cur.k < 15)
    (h : hasBit (field (s.val a) 7 0) s.cur.r = false ∨ countOnes 8 (field (s.val a) 7 0) < 2) :
    exec (.mxteam a) s = .next (s.trapTo 0x18 0x8000000000000047) := by
  have hbad : (!hasBit (field (s.val a) 7 0) s.cur.r || decide (countOnes 8 (field (s.val a) 7 0) < 2)) = true := by
    simpa using h
  rw [exec_mxteam_user hs ha hk, h0, h1, hbad]
  rfl

end control

/-- Settles O35: MXQUOTA and MXTEAM are decided by the code of their operands, MXRES by the command that it finds. -/
theorem matrixControl : Obligations.MatrixControl := by
  intro s a b hs ha hb x y br may
  have hmay := s.all_mayMove_iff x
  refine ⟨fun hy hall => ?_, mxquotaMv_badControl hs ha hb, fun hy hall => mxquotaMv_foreignTile hs ha hb hy (mt hmay.mp hall),
    fun hk => ⟨privileged_user hs hk 0x39 _, privileged_user hs hk 0x39 _⟩, mxquotaWt_sets hs ha hb, fun hk => ?_, fun hk => ?_,
    fun hk q hq => ?_⟩
  · obtain ⟨u, hu, hpc, htile⟩ := mxquotaMv_moves hs ha hb hy (hmay.mpr hall)
    simp only [Tile.moveTo_eq] at htile
    exact ⟨u, hu, hpc, htile⟩
  · exact (outsideTx_plain hs _ _).trans (if_pos hk)
  · exact ⟨mxteam_badControl hs ha hk, fun h0 h1 => ⟨mxteam_arms hs ha h0 h1 hk, mxteam_badMask hs ha h0 h1 hk⟩⟩
  · obtain ⟨hgo, hcancel⟩ := exec_mxres_found hs ha hb hk hq
    refine ⟨hgo, fun h1 => ⟨_, hcancel h1, s.not_mem_mx_cancelMx s.cur.b q, ?_⟩⟩
    rw [State.me_advance, State.nextPc_cancelMx]

end Sys2Proof.Machine
end

section
/-! PROOFS. The matrix arbiter and the ends of matrix commands (R263, R266, R268, R271, R274, R275, R279). -/

namespace Sys2Proof.Machine

/-! ### Slots and banks -/

theorem Braid.slot_modSlot_same (x : Braid) (n : Nat) (f : Slot → Slot) : (x.modSlot n f).slot n = f (x.slot n) :=
  Table.get_put_same _ _ _ _

/-- The slot with its banks exchanged. -/
def Slot.swapped (y : Slot) : Slot := { y with active := y.shadow, shadow := y.active }

theorem Braid.shadow_setBank (x : Braid) (n : Nat) (k : Bank) : ((x.setBank (2 * n + 1) k).slot n).shadow = k := by
  have hslot : (2 * n + 1) / 2 = n := by omega
  have hodd : (2 * n + 1) % 2 ≠ 0 := by omega
  rw [Braid.setBank, hslot, Braid.slot_modSlot_same, if_neg hodd]

theorem Braid.mx_setBank (x : Braid) (n : Nat) (k : Bank) : (x.setBank n k).mx = x.mx := rfl

/-! ### The start of a command (R274, R275) -/

/-- The braid with another list of matrix commands. -/
def Braid.withMx (x : Braid) (l : List MxCmd) : Braid := { x with mx := l }

theorem State.braid_setMx (s : State) (b : Nat) (q : MxCmd) : (s.setMx b q).braid b =
    (s.braid b).withMx ((s.braid b).mx.map fun z => if z.id == q.id then q else z) := State.braid_modBraid _ _ _

theorem State.mx_setMx (s : State) (b : Nat) (q : MxCmd) : ((s.setMx b q).braid b).mx =
    (s.braid b).mx.map fun z => if z.id == q.id then q else z := congrArg Braid.mx (State.braid_setMx s b q)

theorem State.braid_setMx_other (s : State) {b c : Nat} (q : MxCmd) (h : c ≠ b) : (s.setMx b q).braid c = s.braid c :=
  State.braid_modBraid_other _ _ h

/-- Only multiplies fail at their start. -/
theorem State.mxStartCode_other (s : State) (b : Nat) {q : MxCmd} (h1 : q.op ≠ 1) (h2 : q.op ≠ 2) : s.mxStartCode b q = 0 := by
  simp [State.mxStartCode, h1, h2]

/-- A command without a team that does not fail has its effect and runs. -/
theorem State.startMx_alone {s : State} {b : Nat} {q : MxCmd} (ht : q.team = none) (hc : s.mxStartCode b q = 0) :
    s.startMx b q = (s.mxEffect b q).1.setMx b
      { (s.mxEffect b q).2 with phase := 1, began := s.cycle, due := s.cycle + q.cycles } := by
  simp [State.startMx, Braid.teamOf, ht, hc]

/-- The state once the arbiter of braid b has taken a credit of rill r for the command q. -/
def State.arbitrated (s : State) (b r : Nat) (q : MxCmd) : State :=
  s.modBraid b fun y => { y with
    credits := (s.braid b).credits.put r ((s.braid b).credits.get 0 r - 1), arbNext := (r + 1) % 8
    starts := (if y.startsFrom = s.cycle / 1024 then y.starts else 0) + (if q.op == 1 || q.op == 2 then 1 else 0)
    startsFrom := s.cycle / 1024 }

section arbitrated
variable (s : State) (b r : Nat) (q : MxCmd)

theorem State.slot_arbitrated (n : Nat) : ((s.arbitrated b r q).braid b).slot n = (s.braid b).slot n := by
  rw [State.arbitrated, State.braid_modBraid]
  rfl

theorem State.tile_arbitrated (n : Nat) : ((s.arbitrated b r q).braid b).tile n = (s.braid b).tile n := by
  rw [State.arbitrated, State.braid_modBraid]
  rfl

theorem State.credits_arbitrated : ((s.arbitrated b r q).braid b).credits.get 0 r = (s.braid b).credits.get 0 r - 1 := by
  rw [State.arbitrated, State.braid_modBraid]
  exact Table.get_put_same _ _ _ _

theorem State.arbNext_arbitrated : ((s.arbitrated b r q).braid b).arbNext = (r + 1) % 8 := by
  rw [State.arbitrated, State.braid_modBraid]

end arbitrated

/-- The one rill whose command can start is found wherever the arbiter begins. -/
theorem arbiter_finds {r : Nat} (hr : r < 8) (n : Nat) {p : Nat → Bool} (h : ∀ i, p i = true ↔ i = r) :
    ((List.range 8).map fun i => (n + i) % 8).find? p = some r := by
  cases hf : ((List.range 8).map fun i => (n + i) % 8).find? p with
  | none =>
    have hmem : r ∈ (List.range 8).map fun i => (n + i) % 8 :=
      List.mem_map.mpr ⟨(r + 8 - n % 8) % 8, List.mem_range.mpr (Nat.mod_lt _ (by decide)), by omega⟩
    exact absurd ((h r).mpr rfl) (List.find?_eq_none.mp hf r hmem)
  | some i => rw [(h i).mp (List.find?_some hf)]

theorem exec_matrixArbitrate_one {s : State} {b r : Nat} {q : MxCmd} (hr : r < 8) (hq : (s.braid b).mxHead r = some q)
    (hone : ((List.range 8).filter fun i => ((s.braid b).mxHead i).any (s.canStart b)) = [r])
    (hc : (s.braid b).credits.get 0 r ≠ 0) : exec (.matrixArbitrate b) s = .next ((s.arbitrated b r q).startMx b q) := by
  have hnorefill : ([r].all fun r => (s.braid b).credits.get 0 r == 0) = false := by simpa using hc
  have hfind := arbiter_finds hr (s.braid b).arbNext (p := fun i => [r].contains i && (s.braid b).credits.get 0 i != 0)
    fun i => by
      simp only [List.contains_cons, List.contains_nil, Bool.or_false, Bool.and_eq_true, beq_iff_eq, bne_iff_ne]
      exact ⟨And.left, fun hi => ⟨hi, hi ▸ hc⟩⟩
  change execMatrixArbitrate b s = _
  unfold execMatrixArbitrate
  simp only [hone, hnorefill, Bool.false_eq_true, if_false, hfind, hq, List.isEmpty_cons]
  rfl

section start
variable {s : State} {b r : Nat} {q : MxCmd} (hr : r < 8) (hq : (s.braid b).mxHead r = some q)
  (hone : ((List.range 8).filter fun i => ((s.braid b).mxHead i).any (s.canStart b)) = [r])
  (hc : (s.braid b).credits.get 0 r ≠ 0) (ht : q.team = none)
include hr hq hone hc ht

/-- A command that cannot fail at its start has its effect with the credit taken; only the queue changes besides. -/
theorem matrixArbitrate_starts (h1 : q.op ≠ 1) (h2 : q.op ≠ 2) : ∃ t l, exec (.matrixArbitrate b) s = .next t
    ∧ t.braid b = (((s.arbitrated b r q).mxEffect b q).1.braid b).withMx l := by
  have hstart := State.startMx_alone ht ((s.arbitrated b r q).mxStartCode_other b h1 h2)
  exact ⟨_, _, exec_matrixArbitrate_one hr hq hone hc, (congrArg (·.braid b) hstart).trans (State.braid_setMx _ _ _)⟩

/-- MXSWAP exchanges the banks of its slot (R268). -/
theorem matrixArbitrate_swap (hop : q.op = 3) : ∃ t, exec (.matrixArbitrate b) s = .next t
    ∧ ((t.braid b).slot q.slot).active = ((s.braid b).slot q.slot).shadow
    ∧ ((t.braid b).slot q.slot).shadow = ((s.braid b).slot q.slot).active
    ∧ (t.braid b).credits.get 0 r = (s.braid b).credits.get 0 r - 1 ∧ (t.braid b).arbNext = (r + 1) % 8 := by
  obtain ⟨t, l, hex, hbraid⟩ := matrixArbitrate_starts hr hq hone hc ht (by omega) (by omega)
  have heffect : ((s.arbitrated b r q).mxEffect b q).1.braid b
      = ((s.arbitrated b r q).braid b).modSlot q.slot Slot.swapped := by
    simp only [State.mxEffect, hop, State.braid_setBraid]
    rfl
  have hslot : (t.braid b).slot q.slot = ((s.braid b).slot q.slot).swapped := by
    rw [hbraid, heffect, ← s.slot_arbitrated b r q]
    exact Braid.slot_modSlot_same _ _ _
  refine ⟨t, hex, by rw [hslot]; rfl, by rw [hslot]; rfl, ?_, ?_⟩ <;> rw [hbraid, heffect]
  · exact s.credits_arbitrated b r q
  · exact s.arbNext_arbitrated b r q

/-- MXCLR clears its tiles (R271). -/
theorem matrixArbitrate_clear (hop : q.op = 4) : ∃ t, exec (.matrixArbitrate b) s = .next t
    ∧ (∀ n ∈ q.named, ((t.braid b).tile n).els = []) ∧ (∀ n, n ∉ q.named → (t.braid b).tile n = (s.braid b).tile n)
    ∧ (t.braid b).credits.get 0 r = (s.braid b).credits.get 0 r - 1 := by
  obtain ⟨t, l, hex, hbraid⟩ := matrixArbitrate_starts hr hq hone hc ht (by omega) (by omega)
  have heffect : ((s.arbitrated b r q).mxEffect b q).1.braid b
      = q.named.foldl (fun y n => y.modTile n fun z => { z with els := [] }) ((s.arbitrated b r q).braid b) := by
    simp only [State.mxEffect, hop, State.braid_setBraid]
  have htile (n : Nat) : (t.braid b).tile n =
      if n ∈ q.named then { (s.braid b).tile n with els := [] } else (s.braid b).tile n := by
    rw [hbraid, heffect, ← s.tile_arbitrated b r q]
    exact Braid.tile_foldl_modTile q.nodup_named _ _ n
  refine ⟨t, hex, fun n hn => by rw [htile, if_pos hn], fun n hn => by rw [htile, if_neg hn], ?_⟩
  rw [hbraid, heffect, ← s.credits_arbitrated b r q]
  exact congrArg (Table.get 0 · r) (Braid.foldl_modTile_keeps (g := Braid.credits) (fun _ _ => rfl) _ _ _)

end start

/-! ### The end of a command (R263) -/

theorem State.cc_removeMx (s : State) (b : Nat) (q : MxCmd) :
    ((s.removeMx b q).rill b q.rill).cc.get 0 q.cc = (s.rill b q.rill).cc.get 0 q.cc - 1 := State.cc_lowerCc _ _ _ _

/-- A command without memory work ends once its time has passed. -/
theorem exec_matrixCommandComplete_due {s : State} {b n : Nat} {q : MxCmd} (hq : (s.braid b).mx.find? (fun q =>
      q.id == n && q.phase == 1 && q.lead == 0 && q.links.isEmpty) = some q) (hdue : q.due ≤ s.cycle)
    (hop : q.op = 3 ∨ q.op = 4 ∨ q.op = 7) (hc : q.code = 0) :
    exec (.matrixCommandComplete b n) s = .next ((s.setMx b q).finishMx b q) := by
  have hready : s.xpReady b q = true := by
    rcases hop with h | h | h <;> simp [State.xpReady, h]
  have hwork : s.mxWork b q = (s, q, .done) := by
    rcases hop with h | h | h <;> simp only [State.mxWork, h]
  have hend (t : State) : t.endMx b q = t.finishMx b q := by
    rcases hop with h | h | h <;> simp only [State.endMx, h, hc, if_true]
  change execMatrixCommandComplete b n s = _
  unfold execMatrixCommandComplete
  simp only [hq, hready, decide_eq_false (Nat.not_lt.mpr hdue), hwork, hend, Bool.not_true, Bool.or_self, Bool.false_eq_true,
    if_false]

/-- A command written back leads who it led. -/
theorem State.lead_setMx {s : State} {b : Nat} {q : MxCmd} (h : ∀ z ∈ (s.braid b).mx, z.lead = q.id → z.id = q.id) :
    ∀ z ∈ ((s.setMx b q).braid b).mx, z.lead = q.id → z.id = q.id := by
  rw [State.mx_setMx]
  intro z hz
  obtain ⟨y, hy, rfl⟩ := List.mem_map.mp hz
  split
  · exact fun _ => rfl
  · exact h y hy

/-! ### A failed access (R266) -/

/-- An MXLDACC whose next element fails its check stops there. -/
theorem loadAcc_fault {s : State} {p : Pos} {q : MxCmd} {c : Nat} (n : Nat) (hleft : q.done < q.rows * q.columns)
    (hsize : q.tileBytes ≠ 0) (hf : addressFault (q.elementAddr q.done) 1 false false = some c) :
    loadAcc p (n + 1) q s = (s, q, .stop c (q.elementAddr q.done) false) := by
  obtain ⟨m, hm⟩ := Nat.exists_eq_succ_of_ne_zero hsize
  rw [loadAcc, if_neg (Nat.not_le.mpr hleft), hm, mxReach, State.engineReach_fault _ _ hf]

theorem exec_matrixAccessStop_fault {s : State} {b n c : Nat} {q : MxCmd}
    (hq : (s.braid b).mx.find? (fun q => q.id == n && q.phase == 1 && q.lead == 0) = some q) (hop : q.op = 5) (hxp : q.xp = false)
    (hd : s.doneBefore ⟨b, q.rill, q.ctx⟩ q.after AccKind.writes = true) (hleft : q.done < q.rows * q.columns)
    (hsize : q.tileBytes ≠ 0) (hf : addressFault (q.elementAddr q.done) 1 false false = some c) :
    exec (.matrixAccessStop b n) s
      = .next ((s.setMx b { q with phase := 2 }).mxEvent b q c (q.elementAddr q.done) false) := by
  have hready : s.xpReady b q = true := by simp [State.xpReady, hxp, hd]
  have hwork : s.mxWork b q = (s, q, .stop c (q.elementAddr q.done) false) := by
    simp only [State.mxWork, hop, loadAcc_fault _ hleft hsize hf]
  change execMatrixAccessStop b n s = _
  unfold execMatrixAccessStop
  simp only [hq, hready, hwork, Bool.not_true, Bool.false_eq_true, if_false]

/-! ### A transfer of MXROT (R279) -/

/-- The state once q of braid b has sent its bank north, to r of braid c. -/
def State.rotatedNorth (s : State) (b c : Nat) (q r : MxCmd) : State :=
  ((s.setMx b { q with links := q.links.filter (· != 3) }).setMx c { r with links := r.links.filter (· != 1) }).modBraid c
    fun x => x.setBank (2 * r.slot + 1) q.bank

theorem exec_mxrotTransfer_north {s : State} {b c w : Nat} {q r : MxCmd} (hq : (s.braid b).rotOf w = some q)
    (hr : (s.braid c).rotOf w = some r) (hne : b ≠ c) (hnorth : torusNeighbour b 3 q.o1 = c) (hsouth : torusNeighbour c 1 r.o1 = b)
    (hql : 3 ∈ q.links) (hrl : 1 ∈ r.links) (htime : max q.began r.began + 160 ≤ s.cycle)
    (htag : ∀ x ∈ s.badTags, x.tag = w → x.braid ≠ b ∧ x.braid ≠ c) :
    exec (.mxrotTransfer b 1 w) s = .next (s.rotatedNorth b c q r) := by
  have hgood : (s.badTags.any fun x => x.tag == w && (x.braid == b || x.braid == c)) = false :=
    List.any_eq_false.mpr fun x hx => by simpa using htag x hx
  have htimely : decide (s.cycle < max q.began r.began + 160) = false := decide_eq_false (Nat.not_lt.mpr htime)
  have hcb : (c == b) = false := beq_false_of_ne hne.symm
  have hql' : q.links.contains 3 = true := List.contains_iff_mem.mpr hql
  have hrl' : r.links.contains 1 = true := List.contains_iff_mem.mpr hrl
  change execMxrotTransfer b 1 w s = _
  unfold execMxrotTransfer
  simp only [hq, Nat.one_ne_zero, if_false, hnorth, hr, hcb, hql', hrl', hsouth, htimely, hgood, Nat.lt_irrefl,
    bne_self_eq_false, decide_false, Bool.not_true, Bool.or_self, Bool.false_eq_true]
  rfl

section rotated
variable (s : State) {b c : Nat} (q r : MxCmd)

theorem State.shadow_rotatedNorth : (((s.rotatedNorth b c q r).braid c).slot r.slot).shadow = q.bank := by
  rw [State.rotatedNorth, State.braid_modBraid]
  exact Braid.shadow_setBank _ _ _

variable (h : b ≠ c)
include h

theorem State.mx_rotatedNorth_sender : ((s.rotatedNorth b c q r).braid b).mx
    = (s.braid b).mx.map fun z => if z.id == q.id then { q with links := q.links.filter (· != 3) } else z := by
  rw [State.rotatedNorth, State.braid_modBraid_other _ _ h, State.braid_setMx_other _ _ h, State.mx_setMx]

theorem State.mx_rotatedNorth_receiver : ((s.rotatedNorth b c q r).braid c).mx
    = (s.braid c).mx.map fun z => if z.id == r.id then { r with links := r.links.filter (· != 1) } else z := by
  rw [State.rotatedNorth, State.braid_modBraid, Braid.mx_setBank, State.mx_setMx, State.braid_setMx_other _ _ h.symm]

end rotated

/-- Settles O36: the arbiter finds the one command that can start; the other events are those of the command that they name. -/
theorem matrixEvents : Obligations.MatrixEvents := by
  refine ⟨fun s b r q hr hq hone hc ht => ⟨matrixArbitrate_swap hr hq hone hc ht, matrixArbitrate_clear hr hq hone hc ht⟩,
    fun s b n q hq hdue _ hop hc hlead => ?_,
    fun s b n c q hq hop hxp hd hleft hsize hf => exec_matrixAccessStop_fault hq hop hxp hd hleft hsize hf,
    fun s b c w q r hq hr hne hnorth hsouth hql hrl htime htag => ?_⟩
  · have hfound := List.find?_some hq
    simp only [Bool.and_eq_true, beq_iff_eq] at hfound
    obtain ⟨⟨⟨rfl, -⟩, -⟩, -⟩ := hfound
    refine ⟨_, exec_matrixCommandComplete_due hq hdue hop hc, State.not_mem_mx_finishMx _ _ _, ?_⟩
    rw [State.finishMx_alone (by omega) (State.lead_setMx hlead), State.cc_removeMx]
    rfl
  · exact ⟨_, exec_mxrotTransfer_north hq hr hne hnorth hsouth hql hrl htime htag, s.shadow_rotatedNorth q r,
      s.mx_rotatedNorth_sender q r hne, s.mx_rotatedNorth_receiver q r hne⟩

end Sys2Proof.Machine
end

section
/-! PROOFS. AMO, CAS and full/empty accesses are sent to the owner of their word (R289 to R291, R297). -/

namespace Sys2Proof.Machine

/-! ### AMO and CAS -/

/-- An AMO that passes the checks of its address is issued as its one access. -/
theorem amo_plain {s : State} {d a b : BitVec 5} {z o : BitVec 1} {l : BitVec 4} (op : Nat) (hs : s.plain) (ha : s.clean a)
    (hb : s.ready b) (hf : addressFault (s.val a) (4 * (1 + z.toNat)) false true = none) :
    amo s op d a b z o l = issueAll s [s.me.dest d] (some l.toNat)
      [{ id := 0, seq := 0, kind := .amo op, va := s.val a, size := 4 * (1 + z.toNat), dst := s.me.dest d
         data := w64 ((s.val b).toNat % 2 ^ (8 * (4 * (1 + z.toNat)))), poison := s.bad b, ordered := o == 1
         tag := if o = 1 then some 3 else none }] id := by
  obtain ⟨ra, pa⟩ := ha
  unfold State.bad at pa
  unfold State.plain at hs
  unfold amo
  rw [withReg_full _ ra, withReg_full _ hb, pa]
  simp only [hs, Bool.false_eq_true, if_false]
  exact withAddress_ok _ _ hf

/-- Each form is the AMO of its row. -/
theorem exec_amoForms (s : State) (d a b : BitVec 5) (z o : BitVec 1) (l : BitVec 4) :
    ∀ x ∈ amoForms d a b z o l, exec x.1 s = amo s x.2 d a b z o l := by
  simp only [amoForms, List.forall_mem_cons, List.not_mem_nil, false_implies, implies_true, and_true]
  exact ⟨rfl, rfl, rfl, rfl, rfl, rfl, rfl, rfl, rfl, rfl⟩

theorem exec_cas_plain {s : State} {d a b : BitVec 5} {z : BitVec 1} {e : BitVec 2} {sx : BitVec 3} {l : BitVec 4} (hs : s.plain)
    (hd : s.ready d) (ha : s.clean a) (hb : s.ready b) (hf : addressFault (s.val a) (4 * (1 + z.toNat)) false true = none) :
    exec (.cas d a b z e sx l) s = issueAll s [s.me.dest d] (some l.toNat)
      [{ id := 0, seq := 0, kind := .cas e.toNat sx.toNat, va := s.val a, size := 4 * (1 + z.toNat), dst := s.me.dest d
         data := w64 ((s.val b).toNat % 2 ^ (8 * (4 * (1 + z.toNat)))), poison := s.bad b
         aux := w64 ((s.val d).toNat % 2 ^ (8 * (4 * (1 + z.toNat)))), auxPoison := s.bad d
         ordered := bit (w64 e.toNat) 1, tag := if bit (w64 e.toNat) 1 then some sx.toNat else none }] id := by
  obtain ⟨ra, pa⟩ := ha
  unfold State.bad at pa
  unfold State.plain at hs
  change execCas d a b z e sx l s = _
  unfold execCas
  rw [withReg_full _ hd, withReg_full _ ra, withReg_full _ hb, pa]
  simp only [hs, Bool.false_eq_true, if_false]
  exact withAddress_ok _ _ hf

/-! ### Full/empty accesses -/

/-- A full/empty access of a user context to local store, or to a page that is not the host's, is issued as its one access: no
check is left once its address passes those of R143. -/
theorem feAccess_user {s : State} {a : BitVec 5} {p : BitVec 8} (k : AccKind) (dsts : List Dest) (v : Cell) (l : BitVec 4)
    (ha : s.clean a) (hk : s.cur.k < 15) (hf : addressFault (s.val a + scaled p 8) 8 false true = none)
    (hdev : bit (s.val a + scaled p 8) 55 = true
      ∨ ∃ s2 pa leaf, s.translate s.cur (s.val a + scaled p 8) k.need = (s2, .ok pa leaf) ∧ isHost pa = false) :
    feAccess s k dsts v a p l = issueAll s dsts (some l.toNat)
      [{ id := 0, seq := 0, kind := k, va := s.val a + scaled p 8, size := 8, dst := dsts.headD .none, data := v.val
         poison := v.poison, ordered := k == AccKind.stfe || k == AccKind.stff, ext := [s.upc, w64 s.ulen] }] id := by
  obtain ⟨ra, pa⟩ := ha
  unfold State.bad at pa
  unfold State.val at hf hdev
  have hpost : (fun c : Ctx => if s.cur.k = 15 then { c with wait := some (.access c.seq) } else c) = id :=
    funext fun c => if_neg (Nat.ne_of_lt hk)
  unfold feAccess
  rw [withReg_full _ ra, pa]
  refine (withAddress_ok _ _ hf).trans ?_
  rw [hpost]
  rcases hdev with hl | ⟨s2, q, leaf, ht, hh⟩
  · exact if_pos (by rw [hl, Bool.true_or])
  · simp only [ht, hh, Bool.false_eq_true, if_false, ite_self]
    rfl

/-- Each form is the full/empty access of its row. -/
theorem exec_feForms {s : State} {d : BitVec 5} (a : BitVec 5) (p : BitVec 8) (l : BitVec 4) (hs : s.plain) (hd : s.ready d) :
    ∀ x ∈ feForms d a p l, exec x.1 s = feAccess s x.2.1 (if x.2.2.1 then [s.me.dest d] else [])
      (if x.2.2.2 then s.me.reg d else {}) a p l := by
  simp only [feForms, List.forall_mem_cons, List.not_mem_nil, false_implies, implies_true, and_true]
  dsimp only [exec, execLdfe, execLdff, execStfe, execStff, execFeclr]
  simp only [outsideTx_plain hs, withReg_full _ hd]
  exact ⟨rfl, rfl, rfl, rfl, rfl⟩

/-- A row whose register d supplies the data is a store: STFE or STFF. -/
theorem feForms_ordered {d a : BitVec 5} {p : BitVec 8} {l : BitVec 4} :
    ∀ x ∈ feForms d a p l, (x.2.1 == AccKind.stfe || x.2.1 == AccKind.stff) = x.2.2.2 := by
  simp [feForms]

/-- Settles O19: an AMO, a CAS and a full/empty form that pass their checks are issued as their one access. -/
theorem rmwIssue : Obligations.RmwIssue := by
  refine ⟨fun s s1 d a b z o e sx l a1 hs hd ha hb hroom hf => ⟨fun x hx => ?_, ?_⟩,
    fun s s1 d a p l a1 hs hd ha hk hroom hf x hx hdev => ?_⟩
  · intro y hp
    rw [exec_amoForms s d a b z o l x hx, amo_plain x.2 hs ha hb hf]
    exact issueOne_go y hroom hp
  · intro y hp
    exact (exec_cas_plain hs hd ha hb hf).trans (issueOne_go y hroom hp)
  · intro y hp
    rw [exec_feForms a p l hs hd x hx, feAccess_user _ _ _ _ ha hk hf hdev, feForms_ordered x hx, ← issueOne_go y (.inr hroom) hp]
    obtain ⟨i, k, w, r⟩ := x
    cases w <;> cases r <;> rfl

end Sys2Proof.Machine
end

section
/-! PROOFS. The owner of a word performs AMOs and full/empty operations (R285, R288, R289, R297, R298). -/

namespace Sys2Proof.Machine

/-! ### What the owner's operations leave alone -/

theorem sameThreads_recall (s : State) (line : Nat) : SameThreads s (s.recall line) := ⟨rfl, rfl, rfl, rfl⟩

theorem sameThreads_acquire (s : State) (p : Pos) (scope pa size : Nat) : SameThreads s (s.acquire p scope pa size) :=
  ⟨rfl, rfl, rfl, rfl⟩

theorem sameThreads_wrote (s : State) (line : Nat) : SameThreads s (s.wrote line) := ⟨rfl, rfl, rfl, rfl⟩

theorem sameThreads_ownerWrite (s : State) (pa size v : Nat) (bad : Bool) (tag : Option (Option Tag)) :
    SameThreads s (s.ownerWrite pa size v bad tag) := ⟨rfl, rfl, rfl, rfl⟩

theorem sameThreads_noteRaise (s : State) (old : Memory) (p : Pos) (id pa size : Nat) :
    SameThreads s (s.noteRaise old p id pa size) := ⟨rfl, rfl, rfl, rfl⟩

/-- The owner has taken back the copies of the line of an access, of which local store has none (R285). -/
def State.lineTaken (s : State) (a : Access) : State := if isLocal a.pa then s else s.recall (lineOf a.pa)

theorem sameThreads_lineTaken (s : State) (a : Access) : SameThreads s (s.lineTaken a) := .ite (.refl s) (sameThreads_recall s _)

theorem State.lineTaken_mem (s : State) (a : Access) : (s.lineTaken a).mem = s.mem := by
  unfold State.lineTaken
  split <;> rfl

theorem State.deliver_requests (s : State) (p : Pos) (a : Access) (v : Word) (bad : Bool) :
    (s.deliver p a v bad).requests = s.requests := by
  unfold State.deliver
  cases a.dst <;> rfl

/-! ### The word that the owner writes -/

theorem Memory.isLost_setTags (m : Memory) (a n x : Nat) (t : Option Tag) : (m.setTags a t n).isLost x = m.isLost x := by
  induction n generalizing m a with
  | zero => rfl
  | succ n ih => exact ih _ _

section ownerWrite
variable (s : State) (pa size v : Nat) (bad : Bool) (tag : Option (Option Tag))

theorem State.byte_ownerWrite (x : Nat) : (s.ownerWrite pa size v bad tag).mem.byte x = (s.mem.write pa size v).byte x := by
  unfold State.ownerWrite
  rw [State.wrote_mem]
  cases tag <;> dsimp only <;> split <;> simp

theorem State.isLost_ownerWrite (x : Nat) : (s.ownerWrite pa size v bad tag).mem.isLost x = s.mem.isLost x := by
  unfold State.ownerWrite
  rw [State.wrote_mem]
  cases tag <;> dsimp only <;> split <;> simp [Memory.isLost_setTags]

theorem State.read_ownerWrite (h : ∀ i < size, s.mem.isLost (pa + i) = false) :
    (s.ownerWrite pa size v bad tag).mem.read pa size = v % 2 ^ (8 * size) := by
  rw [Memory.read_congr _ _ _ _ fun x _ _ => s.byte_ownerWrite pa size v bad tag x, Memory.read_write_same _ _ _ _ h]

end ownerWrite

/-! ### The event of the owner -/

/-- A request whose condition does not hold parks at the owner (R298). -/
theorem exec_ownerRmw_parks {s : State} {n : Nat} {p : Pos} {a : Access}
    (hq : s.requests.find? (fun q => q.2.id == n && q.2.stage == 2) = some (p, a)) (hb : p.b < 512)
    (hm : s.mayPerform p a = true) (hfe : a.kind.fe = true) (hr : feReady a.kind (s.mem.isFull a.pa) = false) :
    exec (.ownerRmw n) s = .next (s.setRequest n fun x => { x with stage := 3, since := s.cycle, retries := 0 }) := by
  have hrmw : a.kind.rmw = true := by
    unfold AccKind.fe at hfe
    split at hfe
    case h_6 => cases hfe
    all_goals next hk => rw [hk]; rfl
  change execOwnerRmw n s = _
  unfold execOwnerRmw
  simp only [hq, if_neg (Nat.not_le.mpr hb), hrmw, hm, hfe, hr, Bool.not_true, Bool.not_false, Bool.or_self, Bool.and_self,
    Bool.false_eq_true, if_false, if_true]

/-- An RMW of host memory that is no AtomicOp of the link reads its word, and writes it by a later event (R285). -/
theorem exec_ownerRmw_reads {s : State} {n : Nat} {p : Pos} {a : Access}
    (hq : s.requests.find? (fun q => q.2.id == n && q.2.stage == 2) = some (p, a)) (hb : p.b < 512)
    (hm : s.mayPerform p a = true) (hrmw : a.kind.rmw = true) (hfe : a.kind.fe = false) (hs : a.splits = true) (ho : a.old = none) :
    exec (.ownerRmw n) s = .next ((s.recall (lineOf a.pa)).setRequest n fun x =>
      { x with old := some (s.mem.load a.pa a.size) }) := by
  change execOwnerRmw n s = _
  unfold execOwnerRmw
  simp only [hq, if_neg (Nat.not_le.mpr hb), hrmw, hm, hfe, hs, ho, Option.isNone_none, Bool.not_true, Bool.or_self,
    Bool.false_and, Bool.and_self, Bool.false_eq_true, if_false, if_true]

/-- Request n is taken from its owner. -/
def State.taken (s : State) (n : Nat) : State := { s with requests := s.requests.filter fun q => q.2.id != n }

/-- Any other request that may proceed, and has no sharer to ask, is performed. -/
theorem exec_ownerRmw_performs {s : State} {n : Nat} {p : Pos} {a : Access}
    (hq : s.requests.find? (fun q => q.2.id == n && q.2.stage == 2) = some (p, a)) (hb : p.b < 512)
    (hm : s.mayPerform p a = true) (hrmw : a.kind.rmw = true)
    (hready : (a.kind.fe && !feReady a.kind (s.mem.isFull a.pa)) = false) (hs : a.splits = false) (ho : s.sharersFor p a = []) :
    exec (.ownerRmw n) s = .next ((s.taken n).performWrite p a) := by
  have ho' : (s.taken n).sharersFor p a = [] := ho
  change execOwnerRmw n s = .next ((s.taken n).performWrite p a)
  unfold execOwnerRmw
  simp only [hq, if_neg (Nat.not_le.mpr hb), hrmw, hm, hready, hs, Bool.not_true, Bool.or_self, Bool.false_and, Bool.false_eq_true,
    if_false]
  change Host.Outcome.next ((s.taken n).startWrite p a) = _
  rw [State.startWrite, ho']
  rfl

theorem requests_taken {s : State} {n pa : Nat} (h : ∀ q ∈ s.requests, q.2.id ≠ n → wordOf q.2.pa ≠ wordOf pa) :
    ∀ q ∈ (s.taken n).requests, wordOf q.2.pa ≠ wordOf pa := fun q hq => by
  obtain ⟨hmem, hne⟩ := List.mem_filter.mp hq
  exact h q hmem (by simpa using hne)

/-! ### AMOs (R288, R289) -/

/-- The state in which an RMW writes its word: copies of the line are taken back, and an acquire is judged. -/
def State.recalledFor (s : State) (p : Pos) (a : Access) : State :=
  if a.acquires && !a.kind.isRupd then (s.lineTaken a).acquire p a.kind.scope a.pa a.size else s.lineTaken a

theorem sameThreads_recalledFor (s : State) (p : Pos) (a : Access) : SameThreads s (s.recalledFor p a) :=
  .ite ((sameThreads_lineTaken s a).trans (sameThreads_acquire _ _ _ _ _)) (sameThreads_lineTaken s a)

theorem State.recalledFor_mem (s : State) (p : Pos) (a : Access) : (s.recalledFor p a).mem = s.mem := by
  unfold State.recalledFor
  split <;> exact s.lineTaken_mem a

/-- The state once AMO a has written its word (R288, R289). -/
def State.amoWritten (s : State) (p : Pos) (a : Access) (op : Nat) : State :=
  ((s.recalledFor p a).ownerWrite a.pa a.size (amoNew op a.size (s.mem.read a.pa a.size) a.data.toNat)
    (rmwPoison op a.size (s.mem.load a.pa a.size).2 a.poison) (a.tag.map fun sc => some (s.tagOf p sc a.pa a.va))).noteRaise
      s.mem p a.id a.pa a.size

section amoWritten
variable (s : State) (p : Pos) (a : Access) (op : Nat)

theorem sameThreads_amoWritten : SameThreads s (s.amoWritten p a op) :=
  (sameThreads_recalledFor s p a).trans ((sameThreads_ownerWrite _ _ _ _ _ _).trans (sameThreads_noteRaise _ _ _ _ _ _))

theorem State.read_amoWritten (h : ∀ i < a.size, s.mem.isLost (a.pa + i) = false) :
    (s.amoWritten p a op).mem.read a.pa a.size = amoNew op a.size (s.mem.read a.pa a.size) a.data.toNat % 2 ^ (8 * a.size) :=
  State.read_ownerWrite _ _ _ _ _ _ (by rwa [State.recalledFor_mem])

theorem State.byte_amoWritten {x : Nat} (h : x < a.pa ∨ a.pa + a.size ≤ x) :
    (s.amoWritten p a op).mem.byte x = s.mem.byte x := by
  rw [State.amoWritten, State.noteRaise_mem, State.byte_ownerWrite, Memory.byte_write_other _ _ _ _ _ h, State.recalledFor_mem]

end amoWritten

theorem State.applyRmw_amo (s : State) (p : Pos) {a : Access} {op : Nat} (hk : a.kind = .amo op) (ho : a.old = none) :
    s.applyRmw p a = (s.amoWritten p a op, s.mem.load a.pa a.size) := by
  unfold State.applyRmw State.applyRmwAt State.amoWritten State.recalledFor State.lineTaken
  simp only [hk, ho, Option.getD_none]
  rfl

/-- An AMO with nothing combined into it and no other request for its word: the thread receives the old value. -/
theorem performRmw_amo {s : State} {p : Pos} {a : Access} {op : Nat} (hk : a.kind = .amo op) (ho : a.old = none)
    (hmerged : a.merged = []) (hreq : ∀ q ∈ s.requests, wordOf q.2.pa ≠ wordOf a.pa) :
    s.performRmw p a = ((s.amoWritten p a op).deliver p a (zext (s.mem.read a.pa a.size) (8 * a.size))
      (s.mem.load a.pa a.size).2).retireAccess p a := by
  have hall : ({ s with requests := s.requests.filter fun _ => true } : State) = s := by
    rw [List.filter_eq_self.mpr fun _ _ => rfl]
  unfold State.performRmw
  simp only [hmerged, List.filterMap_nil, List.contains_nil, Bool.not_false, hall, s.applyRmw_amo p hk ho, applyMerged,
    State.returnRmw, hk]
  refine State.scan_other ?_
  rw [State.retireAccess_requests, State.deliver_requests, (sameThreads_amoWritten s p a op).requests]
  exact hreq

theorem ownerRmw_amo {s : State} {n op : Nat} {p : Pos} {a : Access}
    (hq : s.requests.find? (fun q => q.2.id == n && q.2.stage == 2) = some (p, a)) (hk : a.kind = .amo op) (hmerged : a.merged = [])
    (hb : p.b < 512) (hm : s.mayPerform p a = true) (ho : s.sharersFor p a = []) (hold : a.old = none)
    (hreq : ∀ q ∈ s.requests, q.2.id ≠ n → wordOf q.2.pa ≠ wordOf a.pa)
    (hlost : ∀ i < a.size, s.mem.isLost (a.pa + i) = false) (hs : a.splits = false) :
    ∃ t, exec (.ownerRmw n) s = .next t
      ∧ t.mem.read a.pa a.size = amoNew op a.size (s.mem.read a.pa a.size) a.data.toNat % 2 ^ (8 * a.size)
      ∧ (∀ x, x < a.pa ∨ a.pa + a.size ≤ x → t.mem.byte x = s.mem.byte x)
      ∧ ((s.ctx p).cellAt a.dst = { (s.ctx p).cellAt a.dst with full := false, src := a.src } →
          ((t.ctx p).cellAt a.dst).full = true
            ∧ ((t.ctx p).cellAt a.dst).val = zext (s.mem.read a.pa a.size) (8 * a.size)) := by
  have hx := exec_ownerRmw_performs hq hb hm (by rw [hk]; rfl) (by rw [hk]; rfl) hs ho
  rw [State.performWrite, hk, if_neg (by simp [AccKind.fe]), if_pos (by rfl),
    performRmw_amo hk hold hmerged (requests_taken hreq)] at hx
  refine ⟨_, hx, ?_, fun x hx => ?_, fun hd => ?_⟩
  · rw [State.retireAccess_mem, State.deliver_mem]
    exact (s.taken n).read_amoWritten p a op hlost
  · rw [State.retireAccess_mem, State.deliver_mem]
    exact (s.taken n).byte_amoWritten p a op hx
  · rw [State.cellAt_retireAccess, State.cellAt_deliver_waiting _ _ _ (by
      rw [(sameThreads_amoWritten (s.taken n) p a op).ctx]; exact hd)]
    exact ⟨rfl, rfl⟩

/-! ### Full/empty operations (R297) -/

theorem performFe_requests (s : State) (p : Pos) (a : Access) : (s.performFe p a).requests = s.requests := by
  have h0 : (s.lineTaken a).requests = s.requests := (sameThreads_lineTaken s a).requests
  unfold State.performFe
  dsimp only
  split <;> rw [State.retireAccess_requests]
  · rw [State.deliver_requests]; exact h0
  · rw [State.deliver_requests]; exact h0
  · exact h0
  · exact h0

theorem performFe_ldfe_mem (s : State) (p : Pos) {a : Access} (hk : a.kind = .ldfe) :
    (s.performFe p a).mem = s.mem.setFull a.pa false := by
  have h0 := s.lineTaken_mem a
  unfold State.lineTaken at h0
  unfold State.performFe
  simp only [hk, State.retireAccess_mem, State.deliver_mem, State.wrote_mem, State.acquire_mem, h0]

/-- An STFE at its owner: the word is written and full. -/
theorem performFe_stfe_mem (s : State) (p : Pos) {a : Access} (hk : a.kind = .stfe) :
    (s.performFe p a).mem = ((s.lineTaken a).ownerWrite a.pa 8 a.data.toNat a.poison
      (some (some (s.tagOf p 3 a.pa a.va)))).mem.setFull a.pa true := by
  unfold State.performFe
  simp only [hk, State.retireAccess_mem, State.noteRaise_mem]
  rfl

/-- A full/empty operation whose condition holds, with no other request for its word. -/
theorem exec_ownerRmw_fe {s : State} {n : Nat} {p : Pos} {a : Access}
    (hq : s.requests.find? (fun q => q.2.id == n && q.2.stage == 2) = some (p, a)) (hb : p.b < 512)
    (hm : s.mayPerform p a = true) (hh : isHost a.pa = false) (ho : s.sharersFor p a = [])
    (hreq : ∀ q ∈ s.requests, q.2.id ≠ n → wordOf q.2.pa ≠ wordOf a.pa) (hfe : a.kind.fe = true) (hrmw : a.kind.rmw = true)
    (hr : feReady a.kind (s.mem.isFull a.pa) = true) :
    exec (.ownerRmw n) s = .next ((s.taken n).performFe p a) := by
  have hs : a.splits = false := by rw [Access.splits, hh, Bool.false_and]
  rw [exec_ownerRmw_performs hq hb hm hrmw (by rw [hr, Bool.not_true, Bool.and_false]) hs ho, State.performWrite, if_pos hfe,
    State.scan_other]
  rw [performFe_requests]
  exact requests_taken hreq

theorem ownerRmw_ldfe {s : State} {n : Nat} {p : Pos} {a : Access}
    (hx : exec (.ownerRmw n) s = .next ((s.taken n).performFe p a)) (hk : a.kind = .ldfe) (hlost : s.mem.isLost a.pa = false) :
    ∃ t, exec (.ownerRmw n) s = .next t ∧ t.mem.isFull a.pa = false ∧ SameBytes s t := by
  refine ⟨_, hx, ?_, fun x => ?_⟩ <;> rw [performFe_ldfe_mem _ _ hk]
  · rw [Memory.isFull_setFull (s.taken n).mem _ _ _ hlost, if_pos rfl, Bool.and_false]
  · exact Memory.byte_setFull _ _ _ _

theorem ownerRmw_stfe {s : State} {n : Nat} {p : Pos} {a : Access}
    (hx : exec (.ownerRmw n) s = .next ((s.taken n).performFe p a)) (hk : a.kind = .stfe)
    (hlost : ∀ i < 8, s.mem.isLost (a.pa + i) = false) :
    ∃ t, exec (.ownerRmw n) s = .next t ∧ t.mem.isFull a.pa = true ∧ t.mem.read a.pa 8 = a.data.toNat
      ∧ ∀ x, x < a.pa ∨ a.pa + 8 ≤ x → t.mem.byte x = s.mem.byte x := by
  have hmem : ((s.taken n).lineTaken a).mem = s.mem := (s.taken n).lineTaken_mem a
  refine ⟨_, hx, ?_, ?_, fun x hx => ?_⟩ <;> rw [performFe_stfe_mem _ _ hk]
  · have h0 : (((s.taken n).lineTaken a).ownerWrite a.pa 8 a.data.toNat a.poison
        (some (some ((s.taken n).tagOf p 3 a.pa a.va)))).mem.isLost a.pa = false := by
      rw [State.isLost_ownerWrite, hmem]
      exact hlost 0 (by omega)
    rw [Memory.isFull_setFull _ _ _ _ h0, if_pos rfl, h0]
    rfl
  · rw [Memory.read_setFull, State.read_ownerWrite _ _ _ _ _ _ (by rwa [hmem])]
    exact Nat.mod_eq_of_lt a.data.isLt
  · rw [Memory.byte_setFull, State.byte_ownerWrite, Memory.byte_write_other _ _ _ _ _ hx, hmem]

/-- Settles O21: an AMO is applyRmw, whose one write is ownerWrite; a full/empty operation is performFe, for nothing is parked on
its word. -/
theorem ownerPerforms : Obligations.OwnerPerforms := by
  refine ⟨fun s n op p a hq hk hmerged hb hm ho hold hreq hlost => ⟨fun hs => ?_, fun hs =>
      ownerRmw_amo hq hk hmerged hb hm ho hold hreq hlost hs⟩,
    fun s n p a hq hb hm hh => ⟨fun hfe hr => exec_ownerRmw_parks hq hb hm hfe hr,
      fun ho hreq hlost => ⟨fun hk hfull => ?_, fun hk hempty => ?_⟩⟩⟩
  · exact exec_ownerRmw_reads hq hb hm (by rw [hk]; rfl) (by rw [hk]; rfl) hs hold
  · have hx := exec_ownerRmw_fe hq hb hm hh ho hreq (by rw [hk]; rfl) (by rw [hk]; rfl) (by rw [hk]; exact hfull)
    exact ownerRmw_ldfe hx hk (hlost 0 (by omega))
  · have hx := exec_ownerRmw_fe hq hb hm hh ho hreq (by rw [hk]; rfl) (by rw [hk]; rfl) (by rw [hk, hempty]; rfl)
    exact ownerRmw_stfe hx hk hlost

end Sys2Proof.Machine
end

section
/-! PROOFS. Requests on their way to the owner of their word (R286, R287, R293, R298, R365). -/

namespace Sys2Proof.Machine

/-! ### The network (R287, R365) -/

theorem Access.queued_of_combines {a : Access} (h : a.combines = true) : a.queued = true := by
  have hrmw : a.kind.rmw = true := by
    unfold Access.combines at h
    split at h
    case h_5 => cases h
    all_goals next hk => rw [hk]; rfl
  rw [Access.queued, hrmw, Bool.true_or]

theorem combines_of_mem_partners {w q : Packet} {h : List Packet} (hq : q ∈ partners w h) :
    w.acc.combines = true ∧ q.acc.combines = true := by
  unfold partners at hq
  split at hq
  · cases hq
  · next hw =>
    have hsel := (List.mem_filter.mp hq).2
    simp only [Bool.and_eq_true] at hsel
    exact ⟨by simpa using hw, by tauto⟩

/-- Packets that travel stay with those that join them. -/
theorem mem_joinFreely_of_mem {w : Packet} (s : State) (ps : List Packet) {go : List Packet} (h : w ∈ go) :
    w ∈ (joinFreely s ps go).2 := by
  induction ps generalizing s go with
  | nil => exact h
  | cons q ps ih =>
    refine ih _ ?_
    split
    · rw [← List.take_append_drop ((Config.freeWord (s.free + 1)).toNat % (go.length + 1)) go] at h
      exact (List.mem_append.mp h).elim (List.mem_append_left _) fun h => List.mem_append_right _ (List.mem_cons_of_mem _ h)
    · exact h

/-- What travels is a packet that did so before or one that may join. -/
theorem of_mem_joinFreely {w : Packet} {s : State} {ps go : List Packet} (h : w ∈ (joinFreely s ps go).2) : w ∈ ps ∨ w ∈ go := by
  induction ps generalizing s go with
  | nil => exact .inr h
  | cons q ps ih =>
    rcases ih h with h | h
    · exact .inl (List.mem_cons_of_mem _ h)
    · split at h
      · rcases List.mem_append.mp h with h | h
        · exact .inr (List.mem_of_mem_take h)
        · rcases List.mem_cons.mp h with rfl | h
          · exact .inl List.mem_cons_self
          · exact .inr (List.mem_of_mem_drop h)
      · exact .inr h

/-- A queued packet that has come through is a request at the slice, alone or combined into another one. -/
theorem arrive_queued {s : State} {go : List Packet} {w : Packet} (hw : w ∈ go) (hq : ∀ q ∈ go, q.acc.queued = true) :
    ∃ q ∈ (s.arrive go).requests, q.1 = w.pos ∧ q.2.id = w.acc.id := by
  cases go with
  | nil => cases hw
  | cons q others =>
    rw [State.arrive, if_pos (hq q List.mem_cons_self)]
    rcases List.mem_cons.mp hw with rfl | hw
    · exact ⟨_, List.mem_append_right _ List.mem_cons_self, rfl, rfl⟩
    · exact ⟨_, List.mem_append_right _ (List.mem_cons_of_mem _ (List.mem_map_of_mem hw)), rfl, rfl⟩

/-- The winner of an arbitration arrives with those that join it. -/
theorem exec_networkArbitrate_won {s : State} {o : Nat} {w : Packet}
    (hw : winner (s.portNext.get 0 o) (s.heads (s.packets.get [] o)) = some w) :
    let j := joinFreely s (partners w (s.heads (s.packets.get [] o))) [w]
    ∃ ps pn, exec (.networkArbitrate o) s = .next (({ j.1 with packets := ps, portNext := pn } : State).arrive j.2) := by
  change ∃ ps pn, execNetworkArbitrate o s = _
  unfold execNetworkArbitrate
  simp only [hw]
  exact ⟨_, _, rfl⟩

theorem networkArbitrate_arrives {s : State} {o : Nat} {w : Packet}
    (hw : winner (s.portNext.get 0 o) (s.heads (s.packets.get [] o)) = some w) :
    ∃ t, exec (.networkArbitrate o) s = .next t
      ∧ (w.acc.queued = true → ∃ q ∈ t.requests, q.1 = w.pos ∧ q.2.id = w.acc.id)
      ∧ (w.acc.queued = false → ∀ x ∈ (s.ctx w.pos).flights, x.id = w.acc.id → { x with stage := 2 } ∈ (t.ctx w.pos).flights) := by
  obtain ⟨ps, pn, hx⟩ := exec_networkArbitrate_won hw
  refine ⟨_, hx, fun hq => arrive_queued (mem_joinFreely_of_mem s _ List.mem_cons_self) fun q hq' => ?_, fun hq x hx hid => ?_⟩
  · rcases of_mem_joinFreely hq' with h | h
    · exact Access.queued_of_combines (combines_of_mem_partners h).2
    · rwa [List.mem_singleton.mp h]
  · have hnone : partners w (s.heads (s.packets.get [] o)) = [] :=
      List.eq_nil_iff_forall_not_mem.mpr fun q h => by
        rw [Access.queued_of_combines (combines_of_mem_partners h).1] at hq
        cases hq
    rw [hnone, joinFreely, State.arrive, hq, if_neg Bool.false_ne_true, State.ctx_modCtx]
    exact List.mem_map.mpr ⟨x, hx, if_pos (by simpa using hid)⟩

/-! ### The order in which a slice serves (R286) -/

theorem State.servesFirst_of_starved_ne (s : State) {x y : Waiter} (h : x.starved ≠ y.starved) : s.servesFirst x y = x.starved := by
  unfold State.servesFirst
  cases hx : x.starved <;> cases hy : y.starved <;> simp_all

/-- Of two starved waiters of which y is a thread, x is served first when it is a thread with a lower identifier. -/
theorem State.servesFirst_of_starved (s : State) {x y : Waiter} (hx : x.starved = true) (hy : y.starved = true) (hb : y.pos.b < 512) :
    s.servesFirst x y = (decide (x.pos.b < 512) && decide (s.tid x.pos < s.tid y.pos)) := by
  simp [State.servesFirst, hx, hy, hb]

theorem State.servesFirst_of_not_starved (s : State) {x y : Waiter} (hx : x.starved = false) (hy : y.starved = false) :
    s.servesFirst x y = decide (x.since < y.since) := by
  simp [State.servesFirst, hx, hy]

theorem State.served_head {s : State} {x : Waiter} {l : List Waiter} (h : ∀ y ∈ l, s.servesFirst y x = false) :
    s.served (x :: l) = some x := by
  have hfold : l.foldl (fun m y => if s.servesFirst y m then y else m) x = x := by
    induction l with
    | nil => rfl
    | cons y l ih =>
      obtain ⟨hy, hl⟩ := List.forall_mem_cons.mp h
      rw [List.foldl_cons, hy]
      exact ih hl
  exact congrArg some hfold

/-- A request as a waiter in the queue of its line. -/
def requestWaiter (q : Pos × Access) : Waiter :=
  { pos := q.1, id := q.2.id, seq := q.2.seq, since := q.2.since, starved := q.2.starved }

/-- Program order lets a request for the line be performed, and no engine owns the line before it. -/
def State.mayQueue (s : State) (line : Nat) (q : Pos × Access) : Bool :=
  s.inOrder q.1 q.2 && (q.2.old.isSome || !s.ownedFor q.1 q.2 line)

theorem State.requestWaiters_eq (s : State) (line stage : Nat) :
    s.requestWaiters line stage = ((s.requests.filter fun x => lineOf x.2.pa == line).filter fun q =>
      q.2.stage == stage && s.mayQueue line q).map requestWaiter := by
  unfold State.requestWaiters
  rw [List.filter_filter]
  refine congrArg (List.map requestWaiter) (List.filter_congr fun q _ => ?_)
  rw [State.mayQueue, Bool.and_comm _ (lineOf q.2.pa == line), Bool.and_assoc, Bool.and_assoc]

/-- The first request of a line is served when no other one comes before it, and neither a lock nor another write waits. -/
theorem exec_sliceServe_first {s : State} {line : Nat} {q : Pos × Access} {rest : List (Pos × Access)}
    (hl : (s.requests.filter fun x => lineOf x.2.pa == line) = q :: rest) (h1 : q.2.stage = 1) (ho : s.inOrder q.1 q.2 = true)
    (hown : s.ownedFor q.1 q.2 line = false) (h2 : ∀ x ∈ q :: rest, x.2.stage ≠ 2) (hlock : s.lockWaiters line = [])
    (hwrite : s.writeWaiters line = []) (hfirst : ∀ x ∈ rest, s.servesFirst (requestWaiter x) (requestWaiter q) = false) :
    exec (.sliceServe line) s = .next (s.setRequest q.2.id fun x => { x with stage := 2 }) := by
  have hidle : s.requestWaiters line 2 = [] := by
    rw [s.requestWaiters_eq, hl, List.map_eq_nil_iff, List.filter_eq_nil_iff]
    intro x hx
    simp [h2 x hx]
  have hserved : s.served (s.queueOf line) = some (requestWaiter q) := by
    rw [State.queueOf, hlock, hwrite, s.requestWaiters_eq, hl, List.nil_append, List.append_nil,
      List.filter_cons_of_pos (by simp [h1, State.mayQueue, ho, hown]), List.map_cons]
    refine State.served_head fun y hy => ?_
    obtain ⟨x, hx, rfl⟩ := List.mem_map.mp hy
    exact hfirst x (List.mem_filter.mp hx).1
  have hmem : q ∈ s.requests := (List.mem_filter.mp (hl ▸ List.mem_cons_self : q ∈ s.requests.filter _)).1
  have hthere : (s.requests.any fun x => x.2.id == (requestWaiter q).id && x.2.stage == 1) = true :=
    List.any_eq_true.mpr ⟨q, hmem, by simp [requestWaiter, h1]⟩
  change execSliceServe line s = _
  unfold execSliceServe
  rw [hidle, hserved]
  simp only [hthere]
  rfl

/-- No request is served in the turn of a lock. -/
theorem exec_sliceServe_lock {s : State} {line : Nat} {w : Waiter} (hw : s.served (s.queueOf line) = some w) (hl : w.lock = true) :
    exec (.sliceServe line) s = .next s := by
  change execSliceServe line s = _
  unfold execSliceServe
  split
  · rfl
  · simp only [hw, hl, Bool.true_or, if_true]

/-! ### Waits of a request, and remote updates (R286, R293, R298) -/

theorem exec_sliceRequestStarved_due {s : State} {n : Nat} {p : Pos} {a : Access}
    (hq : s.requests.find? (fun q => q.2.id == n && q.2.stage == 1) = some (p, a))
    (ht : a.since + Config.sliceCycles 1024 ≤ s.cycle) :
    exec (.sliceRequestStarved n) s = .next (s.setRequest n fun x => { x with starved := true }) := by
  change execSliceRequestStarved n s = _
  unfold execSliceRequestStarved
  simp only [hq]
  exact if_pos ht

/-- A request that stays parked past a retry, below the limit, counts it. -/
theorem exec_feParkedRetry_counted {s : State} {n : Nat} {p : Pos} {a : Access}
    (hq : s.requests.find? (fun q => q.2.id == n && q.2.stage == 3) = some (p, a)) (hrun : (s.ctx p).run = .running)
    (hwait : (feReady a.kind (s.mem.isFull a.pa) && s.lockOf (lineOf a.pa) == 0) = false) (ht : a.since + a.retryTime ≤ s.cycle)
    (hlimit : a.retries < field (s.srAt p 0x040) 31 0) :
    exec (.feParkedRetry n) s = .next (s.setRequest n fun x => { x with retries := x.retries + 1, since := s.cycle }) := by
  have hgoes : ((Run.running == .stopped || Run.running == .paused) && p.k != 15) = false := rfl
  change execFeParkedRetry n s = _
  unfold execFeParkedRetry
  simp only [hq, hwait, hrun, hgoes, Bool.false_eq_true, if_false, Nat.not_lt.mpr ht]
  exact if_pos (by simp [hlimit])

theorem exec_rupdSend_ready {s : State} {b r k n op : Nat} {a : Access}
    (hf : (s.ctx ⟨b, r, k⟩).flights.find? (fun x => x.id == n && x.stage == 0) = some a) (hk : a.kind = .rupd op)
    (hd : s.doneBefore ⟨b, r, k⟩ a.seq (fun _ => true) = true) :
    exec (.rupdSend b r k n) s = .next ((s.modCtx ⟨b, r, k⟩ fun c => { c with flights := c.flights.map fun x =>
      if x.id == n then { x with stage := 1 } else x }).route ⟨b, r, k⟩ a) := by
  change execRupdSend b r k n s = _
  unfold execRupdSend
  simp only [hf, hk]
  exact if_pos hd

/-- Settles O22: the winner of an arbitration arrives; a slice serves the first of the queue that none comes before; the other
events are decided by the request or update that they name. -/
theorem requestEvents : Obligations.RequestEvents := by
  intro s o line n b r k p a
  refine ⟨fun w hw _ => networkArbitrate_arrives hw,
    fun q rest hl h1 ho hown h2 hlock hwrite => ⟨fun hrest hq => ?_, fun hq hb hrest => ?_⟩,
    fun w hw hl => exec_sliceServe_lock hw hl,
    fun w v => ⟨fun hw hv => ?_, fun hw hv hbw hbv => ?_, fun hw hv => ?_⟩,
    fun hq ht => exec_sliceRequestStarved_due hq ht,
    fun hq hrun hwait ht hlimit => exec_feParkedRetry_counted hq hrun hwait ht hlimit,
    fun op hf hk hd => exec_rupdSend_ready hf hk hd⟩
  · refine exec_sliceServe_first hl h1 ho hown h2 hlock hwrite fun x hx => ?_
    obtain ⟨hxs, hsince⟩ := hrest x hx
    rw [s.servesFirst_of_not_starved hxs hq]
    exact decide_eq_false (Nat.not_lt.mpr hsince)
  · refine exec_sliceServe_first hl h1 ho hown h2 hlock hwrite fun x hx => ?_
    cases hxs : x.2.starved with
    | false => rw [s.servesFirst_of_starved_ne (by simp [requestWaiter, hxs, hq])]; exact hxs
    | true =>
      rw [s.servesFirst_of_starved hxs hq hb]
      rcases hrest x hx hxs with h | h
      · simp [requestWaiter, Nat.not_lt.mpr h]
      · simp [requestWaiter, Nat.not_lt.mpr h]
  · rw [s.servesFirst_of_starved_ne (by simp [hw, hv]), hw]
  · simp [s.servesFirst_of_starved hw hv hbv, hbw]
  · simp [s.servesFirst_of_not_starved hw hv]

end Sys2Proof.Machine
end

section
/-! PROOFS. VAMO sends no element past an entry of the replay queue for its line (R145, R295). -/

namespace Sys2Proof.Machine

/-- VAMO with index elements that are all 0, on the word of the logged LDFE: each element is logged behind it. -/
theorem vamo_behind_entry : ∃ t, exec (.vamo 0 8 0 0 0 0 0) loggedLdfe = .next t ∧ t.me.flights = [] := ⟨_, rfl, rfl⟩

/-- Refutes O23: its part on VAMO does not ask that the thread have no entry for a line of the elements, and an access to a line
with one is itself logged and not sent (R145). -/
theorem not_remoteUpdateIssue : ¬ Obligations.RemoteUpdateIssue := by
  intro h
  obtain ⟨-, -, hv⟩ := h loggedLdfe loggedLdfe 0 0 8 0 0 0 0 0 0 0 { id := 0, seq := 0, kind := .ldfe, va := 0, size := 8 }
    rfl ⟨rfl, rfl⟩ (by decide) (by decide) rfl
  obtain ⟨t, ht, hlen, -⟩ := hv rfl rfl rfl rfl rfl rfl rfl (by decide)
  obtain ⟨u, hu, hnone⟩ := vamo_behind_entry
  obtain rfl : t = u := by simpa using ht.symm.trans hu
  rw [hnone] at hlen
  exact absurd hlen (by decide)

end Sys2Proof.Machine
end

section
/-! PROOFS. Monitor slots (R300 to R303). -/

namespace Sys2Proof.Machine

/-! ### Single bits of a word -/

theorem bit_eq_testBit (x : Word) (i : Nat) : bit x i = x.toNat.testBit i := by
  rw [bit, Nat.testBit_eq_decide_div_mod_eq, beq_eq_decide]

theorem eq_of_parts (n k : Nat) : n = 2 ^ (k + 1) * (n / 2 ^ (k + 1)) + (2 ^ k * (n / 2 ^ k % 2) + n % 2 ^ k) := by
  have hlow := Nat.div_add_mod n (2 ^ k)
  have hbit := Nat.div_add_mod (n / 2 ^ k) 2
  rw [Nat.div_div_eq_div_mul, ← pow_succ] at hbit
  calc n = 2 ^ k * (2 * (n / 2 ^ (k + 1)) + n / 2 ^ k % 2) + n % 2 ^ k := by rw [hbit, hlow]
    _ = _ := by ring

/-- A number that differs from n in bit k alone. -/
theorem testBit_replaced (n k v i : Nat) :
    (2 ^ (k + 1) * (n / 2 ^ (k + 1)) + (2 ^ k * (v % 2) + n % 2 ^ k)).testBit i = if i = k then v.testBit 0 else n.testBit i := by
  have hlo : n % 2 ^ k < 2 ^ k := Nat.mod_lt _ (by positivity)
  have hb : 2 ^ k * (v % 2) + n % 2 ^ k < 2 ^ (k + 1) := by
    rw [pow_succ]
    rcases Nat.mod_two_eq_zero_or_one v with h | h <;> rw [h] <;> omega
  rw [Nat.testBit_two_pow_mul_add _ hb, Nat.testBit_two_pow_mul_add _ hlo]
  rcases Nat.lt_trichotomy i k with h | rfl | h
  · simp [h, Nat.lt_succ_of_lt h, Nat.ne_of_lt h]
  · simp [Nat.testBit_zero]
  · rw [if_neg (by omega), if_neg (by omega), Nat.testBit_div_two_pow, Nat.sub_add_cancel h]

/-- Bit i of a word of which bit k was set to that of v. -/
theorem bit_setField {k i : Nat} (hi : i < 64) (x : Word) (v : Nat) :
    bit (setField x k k v) i = if i = k then v.testBit 0 else bit x i := by
  have hparts : x.toNat - x.toNat / 2 ^ k % 2 * 2 ^ k + v % 2 * 2 ^ k
      = 2 ^ (k + 1) * (x.toNat / 2 ^ (k + 1)) + (2 ^ k * (v % 2) + x.toNat % 2 ^ k) := by
    have hx := eq_of_parts x.toNat k
    have hc := Nat.mul_comm (x.toNat / 2 ^ k % 2) (2 ^ k)
    have hv := Nat.mul_comm (v % 2) (2 ^ k)
    omega
  unfold setField field
  rw [bit_eq_testBit, bit_eq_testBit, BitVec.toNat_ofNat, Nat.testBit_mod_two_pow, Nat.add_sub_cancel_left, pow_one, hparts,
    testBit_replaced, decide_eq_true hi, Bool.true_and]

theorem bit_setField_same {k : Nat} (hk : k < 64) (x : Word) (v : Nat) : bit (setField x k k v) k = v.testBit 0 := by
  rw [bit_setField hk, if_pos rfl]

theorem bit_setField_other {k i : Nat} (hi : i < 64) (x : Word) (v : Nat) (h : i ≠ k) : bit (setField x k k v) i = bit x i := by
  rw [bit_setField hi, if_neg h]

/-- WAKE is above every other bit of MONSTAT. -/
theorem field_below_wake (x : Word) (v : Nat) : field (setField x 9 9 v) 8 0 = field x 8 0 := by
  have hx := x.isLt
  unfold setField field
  simp only [BitVec.toNat_ofNat]
  omega

/-! ### MONARM and MONDIS (R301) -/

/-- MONARM of an address that passes its checks is issued as its one access, and its thread waits for it. -/
theorem exec_monarm_plain {s : State} {a : BitVec 5} {k : BitVec 2} (hs : s.plain) (ha : s.clean a)
    (hf : addressFault (s.val a) 1 false false = none) :
    exec (.monarm k a) s = issueAll s [] none [{ id := 0, seq := 0, kind := .monarm k.toNat, va := s.val a, size := 1 }]
      fun c => { c with wait := some (.access c.seq) } := by
  obtain ⟨ra, pa⟩ := ha
  unfold State.bad at pa
  unfold State.val at hf ⊢
  change execMonarm k a s = _
  unfold execMonarm
  rw [outsideTx_plain hs, withReg_full _ ra]
  simp only [pa, hf]

/-- MONSTAT once slot k is disarmed: neither ARMED nor TRIG of the slot. -/
theorem State.srAt_disarm (s : State) (p : Pos) (k : Nat) :
    (s.disarm p k).srAt p 0x080 = setField (setField (s.srAt p 0x080) (4 + k) (4 + k) 0) k k 0 := by
  unfold State.disarm State.setSr State.srAt
  simp only [State.ctx_modCtx, Table.get_put_same]

theorem mondis_disarms {s : State} {k : BitVec 2} (hs : s.plain) :
    ∃ t, exec (.mondis k) s = .next t ∧ t = (s.disarm s.cur k.toNat).advance
      ∧ bit (t.srAt s.cur 0x080) k.toNat = false ∧ bit (t.srAt s.cur 0x080) (4 + k.toNat) = false := by
  have hk := k.isLt
  have hsr : (s.disarm s.cur k.toNat).advance.srAt s.cur 0x080
      = setField (setField (s.srAt s.cur 0x080) (4 + k.toNat) (4 + k.toNat) 0) k.toNat k.toNat 0 :=
    ((s.disarm s.cur k.toNat).sr_advance 0x080).trans (s.srAt_disarm s.cur k.toNat)
  refine ⟨_, outsideTx_plain hs _ _, rfl, ?_, ?_⟩ <;> rw [hsr]
  · exact bit_setField_same (by omega) _ _
  · rw [bit_setField_other (by omega) _ _ (by omega)]
    exact bit_setField_same (by omega) _ _

/-! ### MONWAIT and its ends (R303) -/

theorem exec_monwait_clean {s : State} {d x : BitVec 5} (hs : s.plain) (hx : s.clean x) :
    exec (.monwait d x) s = if monHolds (s.sr 0x080)
      then .next ((s.setSr s.cur 0x080 (monReport (s.sr 0x080) false).2).put d (monReport (s.sr 0x080) false).1 false)
      else .next ((s.modMe fun c => { c with wait := some (.monwait (c.dest d)
        (if field (s.val x) 31 0 = 0 then 0 else s.cycle + field (s.val x) 31 0)) }).advance) := by
  change execMonwait d x s = _
  unfold execMonwait
  rw [outsideTx_plain hs, withControl_of_clean _ hx]
  rfl

theorem exec_monwaitEnd_triggered {s : State} {b r c dl : Nat} {e : Dest} (hw : (s.ctx ⟨b, r, c⟩).wait = some (.monwait e dl))
    (hrun : (s.ctx ⟨b, r, c⟩).run = .running) (hm : monHolds (s.srAt ⟨b, r, c⟩ 0x080) = true) :
    exec (.monwaitEnd b r c) s = .next (s.endMonwait ⟨b, r, c⟩ e (decide (dl ≠ 0 ∧ dl ≤ s.cycle))) := by
  change execMonwaitEnd b r c s = _
  unfold execMonwaitEnd
  simp only [hw, hrun, hm, beq_self_eq_true, Bool.and_self, if_true, bne_iff_ne]

theorem exec_monwaitTimeout_due {s : State} {b r c dl : Nat} {e : Dest} (hw : (s.ctx ⟨b, r, c⟩).wait = some (.monwait e dl))
    (hrun : (s.ctx ⟨b, r, c⟩).run = .running) (h0 : dl ≠ 0) (hdl : dl ≤ s.cycle) :
    exec (.monwaitTimeout b r c) s = .next (s.endMonwait ⟨b, r, c⟩ e true) := by
  change execMonwaitTimeout b r c s = _
  unfold execMonwaitTimeout
  simp only [hw]
  exact if_pos (by simp [hrun, h0, hdl])

/-! ### WAKE and triggers (R300, R302) -/

theorem monstatWakeWrite_sets (s : State) (b r c : Nat) (v : Word) :
    ∃ t, exec (.monstatWakeWrite b r c v) s = .next t ∧ bit (t.srAt ⟨b, r, c⟩ 0x080) 9 = bit v 9
      ∧ field (t.srAt ⟨b, r, c⟩ 0x080) 8 0 = field (s.srAt ⟨b, r, c⟩ 0x080) 8 0 := by
  refine ⟨_, rfl, ?_, ?_⟩ <;> rw [State.srAt_setSr]
  · rw [bit_setField_same (by norm_num)]
    cases bit v 9 <;> rfl
  · exact field_below_wake _ _

/-- The one trigger that waits sets TRIG of its slot, which is armed on the line. -/
theorem monitorTrigger_sets {s : State} {b r c line j : Nat} (hj : j < 4) (hb : (s.braid b).fenced = false)
    (hm : (s.ctx ⟨b, r, c⟩).mons.find j = some line) (ht : s.triggers = [(⟨b, r, c⟩, j)]) :
    ∃ t, exec (.monitorTrigger b r c line) s = .next t ∧ bit (t.srAt ⟨b, r, c⟩ 0x080) j = true ∧ t.triggers = [] := by
  have hx : exec (.monitorTrigger b r c line) s
      = .next (({ s with triggers := [] } : State).setSr ⟨b, r, c⟩ 0x080 (setField (s.srAt ⟨b, r, c⟩ 0x080) j j 1)) := by
    change execMonitorTrigger b r c line s = _
    unfold execMonitorTrigger
    simp only [hb, Bool.false_eq_true, if_false, ht, List.filter_cons, List.filter_nil, hm, beq_self_eq_true, Bool.and_self, if_true,
      List.contains_cons, Bool.true_or, Bool.not_true, List.foldl_cons, List.foldl_nil]
    rfl
  refine ⟨_, hx, ?_, rfl⟩
  rw [State.srAt_setSr]
  exact bit_setField_same (by omega) _ _

/-- Settles O24: MONARM is issued as its one access; the other forms and events are decided by MONSTAT, of which each changes its
own bits. -/
theorem monitorResults : Obligations.MonitorResults := by
  intro s s1 d a x k b r c line v a1 hs
  refine ⟨fun ha hroom hf => ?_, mondis_disarms hs,
    fun hx => ⟨fun h => (exec_monwait_clean hs hx).trans (if_pos h), fun h => (exec_monwait_clean hs hx).trans (if_neg ?_)⟩,
    fun e dl hw hrun => ⟨exec_monwaitEnd_triggered hw hrun, exec_monwaitTimeout_due hw hrun⟩,
    monstatWakeWrite_sets s b r c v, fun j hj hb hm ht => monitorTrigger_sets hj hb hm ht⟩
  · intro y hp
    exact (exec_monarm_plain hs ha hf).trans (issueOne_go y hroom hp)
  · rw [h]
    exact Bool.false_ne_true

end Sys2Proof.Machine
end

section
/-! PROOFS. Barriers and counter waits (R277, R305, R306). -/

namespace Sys2Proof.Machine

/-! ### Who may name a barrier (R305) -/

/-- Barrier n of the executing thread's braid. -/
def State.barrierAt (s : State) (n : BitVec 4) : Barrier := (s.braid s.cur.b).barriers.get {} n.toNat

theorem withBarrier_own {s : State} {n : BitVec 4} (k : Barrier → Res)
    (h : s.cur.k = 15 ∨ (s.barrierAt n).cohort.isSome = true ∧ (s.barrierAt n).cohort = s.me.cohort) :
    withBarrier s n k = k (s.barrierAt n) := by
  refine if_pos ?_
  rcases h with h | ⟨hsome, hmine⟩
  · simp [h]
  · exact Bool.or_eq_true_iff.mpr (.inr (Bool.and_eq_true_iff.mpr ⟨hsome, beq_iff_eq.mpr hmine⟩))

/-- A user context that names a barrier of no cohort, or of another one, traps. -/
theorem withBarrier_foreign {s : State} {n : BitVec 4} (k : Barrier → Res) (hk : s.cur.k < 15)
    (h : (s.barrierAt n).cohort = none ∨ (s.barrierAt n).cohort ≠ s.me.cohort) :
    withBarrier s n k = .next (s.trapTo 0x05 (w64 n.toNat)) := by
  refine if_neg ?_
  change ¬ (s.cur.k == 15 || (s.barrierAt n).cohort.isSome && (s.barrierAt n).cohort == s.me.cohort) = true
  rw [beq_false_of_ne (Nat.ne_of_lt hk)]
  rcases h with h | h
  · simp [h]
  · simp [h]

/-! ### Arrivals (R306) -/

/-- What a phase ends with, and what it goes on with. -/
theorem Barrier.arrive_cases (y : Barrier) :
    (y.arrived + 1 = y.count → y.arrive.phase = (y.phase + 1) % 65536 ∧ y.arrive.arrived = 0)
      ∧ (y.arrived + 1 ≠ y.count → y.arrive = { y with arrived := y.arrived + 1 }) := by
  unfold Barrier.arrive
  exact ⟨fun h => by rw [if_pos h]; exact ⟨rfl, rfl⟩, fun h => if_neg h⟩

/-- What a barrier keeps of a rill cycle has no part in an arrival. -/
theorem Barrier.arrive_kept (x : Barrier) (at' : Nat) (l : List Arrival) (was : Nat × Nat × Nat × Option Nat) :
    ({ x with logAt := at', logged := l, was := was } : Barrier).arrive
      = { x.arrive with logAt := at', logged := l, was := was } := by
  unfold Barrier.arrive
  dsimp only
  split <;> rfl

/-- Barrier x after arrival a, the first of rill cycle now. -/
def Barrier.firstArrival (x : Barrier) (now : Nat) (a : Arrival) : Barrier :=
  { x.arrive with logAt := now + 1, logged := [a], was := (x.count, x.arrived, x.phase, x.nextCount) }

theorem State.arriveBar_first {s : State} {n : BitVec 4} (a : Arrival) (h : (s.barrierAt n).logAt ≠ s.cycle + 1) :
    s.arriveBar n a = (s.setBarrier n ((s.barrierAt n).firstArrival s.cycle a), (s.barrierAt n).phase,
      (s.barrierAt n).arrive.phase != (s.barrierAt n).phase) := by
  have hopen : (s.barrierAt n).reopened s.cycle = { s.barrierAt n with
      logAt := s.cycle + 1, logged := []
      was := ((s.barrierAt n).count, (s.barrierAt n).arrived, (s.barrierAt n).phase, (s.barrierAt n).nextCount) } := if_neg h
  unfold State.arriveBar
  unfold State.barrierAt at hopen ⊢
  simp only [hopen, List.filter_nil, arriveAll, List.foldl_nil, List.nil_append, Barrier.arrive_kept]
  rfl

/-- The barrier as it was before the arrivals of the rill cycle that it keeps. -/
def Barrier.undone (x : Barrier) : Barrier :=
  { x with count := x.was.1, arrived := x.was.2.1, phase := x.was.2.2.1, nextCount := x.was.2.2.2 }

/-- An arrival of a lower rill than the one arrival o that the cycle has seen: o comes after it. -/
theorem State.arriveBar_before {s : State} {n : BitVec 4} {a o : Arrival} (h : (s.barrierAt n).logAt = s.cycle + 1)
    (ho : (s.barrierAt n).logged = [o]) (hr : a.r < o.r) :
    let y := (s.barrierAt n).undone
    s.arriveBar n a = ((s.setBarrier n { y.arrive.arrive with logged := [a, o] }).correctArrival n.toNat
      (o, y.arrive.phase, y.arrive.arrive.phase != y.arrive.phase), y.phase, y.arrive.phase != y.phase) := by
  have hlogged : (s.barrierAt n).undone.logged = [o] := ho
  have hopen : (s.barrierAt n).reopened s.cycle = (s.barrierAt n).undone := if_pos h
  unfold State.arriveBar
  unfold State.barrierAt at hlogged hopen ⊢
  simp only [hopen, hlogged, List.filter_cons, List.filter_nil, hr, Nat.not_le.mpr hr, decide_true, decide_false, Bool.false_eq_true,
    if_true, if_false, arriveAll, List.foldl_cons, List.foldl_nil, List.nil_append]

section arrivals
variable {s : State} {n : BitVec 4} (hs : s.plain)
  (hown : s.cur.k = 15 ∨ (s.barrierAt n).cohort.isSome = true ∧ (s.barrierAt n).cohort = s.me.cohort) (hrel : s.releases = true)
include hs hown hrel

theorem exec_bararv_released (d : BitVec 5) :
    let z := s.arriveBar n { r := s.cur.r, k := s.cur.k, dst := s.me.dest d, sync := false }
    exec (.bararv d n) s = .next (z.1.put d (w64 z.2.1) false) := by
  change execBararv d n s = _
  unfold execBararv
  rw [outsideTx_plain hs, withBarrier_own _ hown, hrel]
  rfl

theorem exec_barsync_released :
    let z := s.arriveBar n { r := s.cur.r, k := s.cur.k, dst := .none, sync := true }
    exec (.barsync n) s = if z.2.2 then .next z.1.advance
      else .next ((z.1.modMe fun c => { c with wait := some (.barrier n.toNat z.2.1) }).advance) := by
  change execBarsync n s = _
  unfold execBarsync
  rw [outsideTx_plain hs, withBarrier_own _ hown, hrel]
  rfl

end arrivals

/-! ### An arrival that comes before one of a higher rill -/

theorem Pos.key_lt_of_rill {p q : Pos} (hb : p.b = q.b) (hr : p.r < q.r) (hk : p.k < 16) : p.key < q.key := by
  unfold Pos.key
  omega

theorem State.barrierAt_setBarrier (s : State) (n : BitVec 4) (x : Barrier) :
    ((s.setBarrier n x).braid s.cur.b).barriers.get {} n.toNat = x := by
  rw [State.setBarrier, State.braid_modBraid]
  exact Table.get_put_same _ _ _ _

/-- The thread of an arrival that is no BARSYNC's receives the phase that it arrived in after all. -/
theorem State.correctArrival_register (s : State) (n ph : Nat) (ended : Bool) {o : Arrival} (h : o.sync = false) :
    s.correctArrival n (o, ph, ended)
      = s.modCtx { s.cur with r := o.r, k := o.k } fun c => c.setCellAt o.dst { val := w64 ph } := by
  unfold State.correctArrival
  simp only [h, Bool.false_eq_true, if_false]

theorem State.ctx_put_other (s : State) {q : Pos} (d : BitVec 5) (v : Word) (bad : Bool) (h : q.key ≠ s.cur.key) :
    (s.put d v bad).ctx q = s.ctx q :=
  (State.ctx_setCtx_other _ _ h).trans (State.ctx_setCtx_other _ _ h)

theorem bararv_before {s : State} {d : BitVec 5} {n : BitVec 4} {o : Arrival} (hs : s.plain)
    (hown : s.cur.k = 15 ∨ (s.barrierAt n).cohort.isSome = true ∧ (s.barrierAt n).cohort = s.me.cohort) (hrel : s.releases = true)
    (hat : (s.barrierAt n).logAt = s.cycle + 1) (ho : (s.barrierAt n).logged = [o]) (hr : s.cur.r < o.r) (hk : s.cur.k < 16)
    (hsync : o.sync = false) (hdst : ∃ m, o.dst = .g m ∨ o.dst = .win m) :
    let y := (s.barrierAt n).undone
    ∃ t, exec (.bararv d n) s = .next t ∧ t.me.reg d = (s.me.setReg d (w64 y.phase) false).reg d
      ∧ (t.ctx { s.cur with r := o.r, k := o.k }).cellAt o.dst = { val := w64 y.arrive.phase }
      ∧ ((t.braid s.cur.b).barriers.get {} n.toNat).phase = y.arrive.arrive.phase
      ∧ ((t.braid s.cur.b).barriers.get {} n.toNat).arrived = y.arrive.arrive.arrived := by
  intro y
  let q : Pos := { s.cur with r := o.r, k := o.k }
  let z : Barrier := { y.arrive.arrive with logged := [{ r := s.cur.r, k := s.cur.k, dst := s.me.dest d, sync := false }, o] }
  have hkey : s.cur.key ≠ q.key := Nat.ne_of_lt (Pos.key_lt_of_rill rfl hr hk)
  have hbar : ((s.setBarrier n z).braid s.cur.b).barriers.get {} n.toNat = z := s.barrierAt_setBarrier n z
  let u : State := (s.setBarrier n z).modCtx q fun c => c.setCellAt o.dst { val := w64 y.arrive.phase }
  have hme : u.me = s.me := State.ctx_modCtx_other _ _ hkey
  have hq : u.ctx q = (s.ctx q).setCellAt o.dst { val := w64 y.arrive.phase } := State.ctx_modCtx _ _ _
  have hx := exec_bararv_released hs hown hrel d
  rw [State.arriveBar_before hat ho hr, State.correctArrival_register _ _ _ _ hsync] at hx
  refine ⟨u.put d (w64 y.phase) false, hx, ?_, ?_, (congrArg Barrier.phase hbar :), (congrArg Barrier.arrived hbar :)⟩
  · rw [State.put, State.reg_advance, State.me_modMe, hme]
  · rw [u.ctx_put_other _ _ _ hkey.symm, hq]
    obtain ⟨m, h | h⟩ := hdst <;> rw [h, Ctx.cellAt_setCellAt _ _ _ _ (by simp), if_pos (by simp)]

/-! ### BARCFG, BARWAIT and the release of a waiter -/

section own
variable {s : State} {n : BitVec 4} {a : BitVec 5} (hs : s.plain)
  (hown : s.cur.k = 15 ∨ (s.barrierAt n).cohort.isSome = true ∧ (s.barrierAt n).cohort = s.me.cohort) (ha : s.clean a)
include hs hown ha

theorem exec_barcfg_own : exec (.barcfg a n) s = .next ((s.setBarrier n (if (s.barrierAt n).arrived = 0
    then { s.barrierAt n with count := barCount (s.val a), nextCount := none, logAt := 0 }
    else { s.barrierAt n with nextCount := some (barCount (s.val a)), logAt := 0 })).advance) := by
  change execBarcfg a n s = _
  unfold execBarcfg
  rw [outsideTx_plain hs, withBarrier_own _ hown, withControl_of_clean _ ha]

theorem exec_barwait_own : exec (.barwait a n) s = if (s.barrierAt n).phase = field (s.val a) 15 0
    then .next ((s.modMe fun z => { z with wait := some (.barrier n.toNat (s.barrierAt n).phase) }).advance)
    else .next s.advance := by
  change execBarwait a n s = _
  unfold execBarwait
  rw [outsideTx_plain hs, withBarrier_own _ hown, withControl_of_clean _ ha]

end own

theorem exec_barrierRelease_passed {s : State} {b r k j ph : Nat} (hw : (s.ctx ⟨b, r, k⟩).wait = some (.barrier j ph))
    (hrun : (s.ctx ⟨b, r, k⟩).run = .running) (hph : ((s.braid b).barriers.get {} j).phase ≠ ph) :
    exec (.barrierRelease b r k) s = .next (s.modCtx ⟨b, r, k⟩ fun z => { z with wait := none, startAt := s.cycle + 4 }) := by
  change execBarrierRelease b r k s = _
  unfold execBarrierRelease
  simp only [hw]
  exact if_pos (by simp [hrun, hph])

theorem waitBelow_below {s : State} {c k : Nat} (h : s.myRill.cc.get 0 c < k) : waitBelow s c k = .next s.advance := if_pos h

theorem exec_waitltr_below {s : State} {c : BitVec 3} {a : BitVec 5} (ha : s.clean a)
    (h : s.myRill.cc.get 0 c.toNat < field (s.val a) 15 0) : exec (.waitltr c a) s = .next s.advance := by
  change execWaitltr c a s = _
  rw [execWaitltr, withControl_of_clean _ ha, waitBelow_below h]

/-- Settles O25: each form is arriveBar, or decided by the state of its barrier; of two arrivals the one of the lower rill is
put first. -/
theorem barrierResults : Obligations.BarrierResults := by
  intro s d a n c m b r k hs x
  have hx : x = s.barrierAt n := rfl
  clear_value x
  subst hx
  refine ⟨fun hown => ⟨fun hrel hat => ?_, fun o hrel hat ho hr hk _ hsync hdst => bararv_before hs hown hrel hat ho hr hk hsync hdst,
      fun ha => ⟨fun h0 => ?_, fun h0 => ?_, fun hp => ?_, fun hp => ?_⟩⟩,
    fun hk hforeign => (outsideTx_plain hs _ _).trans (withBarrier_foreign _ hk hforeign),
    Barrier.arrive_cases, fun j ph hw hrun hph => exec_barrierRelease_passed hw hrun hph, waitBelow_below,
    fun ha h => exec_waitltr_below ha h⟩
  · intro after me
    have hsync := exec_barsync_released hs hown hrel
    rw [State.arriveBar_first _ hat] at hsync
    refine ⟨?_, fun hsame => ?_, fun hended => ?_⟩
    · rw [exec_bararv_released hs hown hrel, State.arriveBar_first _ hat]
      rfl
    · exact hsync.trans (if_neg (by simpa using hsame))
    · exact hsync.trans (if_pos (by simpa using hended))
  · rw [exec_barcfg_own hs hown ha, if_pos h0]
    rfl
  · rw [exec_barcfg_own hs hown ha, if_neg h0]
    rfl
  · exact (exec_barwait_own hs hown ha).trans (if_pos hp)
  · exact (exec_barwait_own hs hown ha).trans (if_neg hp)

end Sys2Proof.Machine
end

section
/-! PROOFS. Fields of a word, and bytes of a word in memory (R4, R28). -/

namespace Sys2Proof.Machine

/-! ### A field that is set -/

theorem testBit_field (x : Word) (hi lo i : Nat) : (field x hi lo).testBit i = (decide (i < hi + 1 - lo) && x.toNat.testBit (lo + i)) := by
  rw [field, Nat.testBit_mod_two_pow, Nat.testBit_div_two_pow, Nat.add_comm i]

/-- A number in three parts: above bit lo + n, the n bits from lo, and below lo. -/
theorem eq_of_field_parts (x lo n : Nat) : x = 2 ^ (lo + n) * (x / 2 ^ (lo + n)) + (2 ^ lo * (x / 2 ^ lo % 2 ^ n) + x % 2 ^ lo) := by
  have hlow := Nat.div_add_mod x (2 ^ lo)
  have hmid := Nat.div_add_mod (x / 2 ^ lo) (2 ^ n)
  rw [Nat.div_div_eq_div_mul, ← pow_add] at hmid
  calc x = 2 ^ lo * (2 ^ n * (x / 2 ^ (lo + n)) + x / 2 ^ lo % 2 ^ n) + x % 2 ^ lo := by rw [hmid, hlow]
    _ = _ := by ring

/-- A number of which the n bits from lo are those of v. -/
theorem testBit_replaced_field (x lo n v i : Nat) :
    (2 ^ (lo + n) * (x / 2 ^ (lo + n)) + (2 ^ lo * (v % 2 ^ n) + x % 2 ^ lo)).testBit i
      = if lo ≤ i ∧ i < lo + n then v.testBit (i - lo) else x.testBit i := by
  have hlow : x % 2 ^ lo < 2 ^ lo := Nat.mod_lt _ (by positivity)
  have hmid : 2 ^ lo * (v % 2 ^ n) + x % 2 ^ lo < 2 ^ (lo + n) := by
    have hv : v % 2 ^ n + 1 ≤ 2 ^ n := Nat.mod_lt _ (by positivity)
    calc 2 ^ lo * (v % 2 ^ n) + x % 2 ^ lo < 2 ^ lo * (v % 2 ^ n + 1) := by rw [Nat.mul_succ]; omega
      _ ≤ 2 ^ (lo + n) := by rw [pow_add]; exact Nat.mul_le_mul_left _ hv
  rw [Nat.testBit_two_pow_mul_add _ hmid, Nat.testBit_two_pow_mul_add _ hlow]
  by_cases hn : i < lo + n
  · by_cases hl : i < lo
    · simp [hn, hl, Nat.not_le.mpr hl]
    · simp [hn, hl, Nat.le_of_not_lt hl, Nat.testBit_mod_two_pow, show i - lo < n by omega]
  · simp [hn, Nat.testBit_div_two_pow, Nat.le_of_not_lt hn]

theorem testBit_setField {hi lo : Nat} (hlo : lo ≤ hi) (hhi : hi < 64) (x : Word) (v i : Nat) :
    (setField x hi lo v).toNat.testBit i = if lo ≤ i ∧ i ≤ hi then v.testBit (i - lo) else x.toNat.testBit i := by
  have hparts : x.toNat - field x hi lo * 2 ^ lo + v % 2 ^ (hi + 1 - lo) * 2 ^ lo
      = 2 ^ (lo + (hi + 1 - lo)) * (x.toNat / 2 ^ (lo + (hi + 1 - lo))) + (2 ^ lo * (v % 2 ^ (hi + 1 - lo)) + x.toNat % 2 ^ lo) := by
    have hx := eq_of_field_parts x.toNat lo (hi + 1 - lo)
    have hc := Nat.mul_comm (x.toNat / 2 ^ lo % 2 ^ (hi + 1 - lo)) (2 ^ lo)
    have hv := Nat.mul_comm (v % 2 ^ (hi + 1 - lo)) (2 ^ lo)
    unfold field
    omega
  have hin : (lo ≤ i ∧ i < lo + (hi + 1 - lo)) ↔ lo ≤ i ∧ i ≤ hi := by omega
  unfold setField
  rw [BitVec.toNat_ofNat, Nat.testBit_mod_two_pow, hparts, testBit_replaced_field]
  simp only [hin]
  by_cases h64 : i < 64
  · simp [h64]
  · rw [if_neg (by omega), Nat.testBit_lt_two_pow (lt_of_lt_of_le x.isLt (Nat.pow_le_pow_right (by norm_num) (Nat.le_of_not_lt h64))),
      Bool.and_false]

theorem field_setField_inside {hi lo hi' lo' : Nat} (hlo : lo ≤ hi) (hhi : hi < 64) (hl : lo ≤ lo') (hh : hi' ≤ hi) (x : Word) (v : Nat) :
    field (setField x hi lo v) hi' lo' = v / 2 ^ (lo' - lo) % 2 ^ (hi' + 1 - lo') := by
  refine Nat.eq_of_testBit_eq fun i => ?_
  rw [testBit_field, testBit_setField hlo hhi, Nat.testBit_mod_two_pow, Nat.testBit_div_two_pow]
  by_cases h : i < hi' + 1 - lo'
  · rw [if_pos (by omega), show lo' + i - lo = i + (lo' - lo) by omega]
  · simp [h]

theorem field_setField_same {hi lo : Nat} (hlo : lo ≤ hi) (hhi : hi < 64) (x : Word) (v : Nat) :
    field (setField x hi lo v) hi lo = v % 2 ^ (hi + 1 - lo) := by
  rw [field_setField_inside hlo hhi le_rfl le_rfl, Nat.sub_self, pow_zero, Nat.div_one]

theorem field_setField_disjoint {hi lo hi' lo' : Nat} (hlo : lo ≤ hi) (hhi : hi < 64) (h : hi' < lo ∨ hi < lo') (x : Word) (v : Nat) :
    field (setField x hi lo v) hi' lo' = field x hi' lo' := by
  refine Nat.eq_of_testBit_eq fun i => ?_
  rw [testBit_field, testBit_field, testBit_setField hlo hhi]
  by_cases hi : i < hi' + 1 - lo'
  · rw [if_neg (by omega)]
  · simp [hi]

theorem bit_setField_inside {hi lo i : Nat} (hhi : hi < 64) (hlo : lo ≤ i) (hi' : i ≤ hi) (x : Word) (v : Nat) :
    bit (setField x hi lo v) i = v.testBit (i - lo) := by
  rw [bit_eq_testBit, testBit_setField (hlo.trans hi') hhi, if_pos ⟨hlo, hi'⟩]

theorem bit_setField_outside {hi lo i : Nat} (hlo : lo ≤ hi) (hhi : hi < 64) (h : i < lo ∨ hi < i) (x : Word) (v : Nat) :
    bit (setField x hi lo v) i = bit x i := by
  rw [bit_eq_testBit, bit_eq_testBit, testBit_setField hlo hhi, if_neg (by omega)]

/-! ### Bytes of a word -/

theorem Memory.read_lt (m : Memory) (a n : Nat) : m.read a n < 2 ^ (8 * n) := by
  induction n generalizing a with
  | zero => simp [Memory.read]
  | succ n ih =>
    have h0 : (m.byte a).toNat < 256 := (m.byte a).isLt
    have h1 := ih (a + 1)
    rw [Memory.read, Nat.mul_succ, pow_add]
    omega

theorem Memory.read_add (m : Memory) (a n k : Nat) : m.read a (n + k) = m.read a n + 2 ^ (8 * n) * m.read (a + n) k := by
  induction n generalizing a with
  | zero => simp [Memory.read]
  | succ n ih =>
    rw [show n + 1 + k = n + k + 1 by omega, Memory.read, Memory.read, ih, show a + 1 + n = a + (n + 1) by omega,
      show 8 * (n + 1) = 8 + 8 * n by omega, pow_add]
    ring

/-- The bytes of an access that stays within one word, cut out of the word. -/
theorem Memory.read_within_word (m : Memory) {a n : Nat} (h : a % 8 + n ≤ 8) :
    m.read (8 * wordOf a) 8 / 2 ^ (8 * (a % 8)) % 2 ^ (8 * n) = m.read a n := by
  have ha : 8 * wordOf a + a % 8 = a := Nat.div_add_mod a 8
  have hword := m.read_add (8 * wordOf a) (a % 8) (n + (8 - (a % 8 + n)))
  rw [show a % 8 + (n + (8 - (a % 8 + n))) = 8 by omega, ha, Memory.read_add] at hword
  rw [hword, Nat.add_mul_div_left _ _ (by positivity), Nat.div_eq_of_lt (m.read_lt _ _), Nat.zero_add, Nat.add_mul_mod_self_left,
    Nat.mod_eq_of_lt (m.read_lt _ _)]

end Sys2Proof.Machine
end

section
/-! PROOFS. Transaction instructions (R313, R314, R321, R323, R326, R331). -/

namespace Sys2Proof.Machine

/-! ### The depth of a transaction -/

theorem State.inTx_of_depth {s : State} {n : Nat} (h : s.txDepth s.cur = n + 1) : s.inTx = true := by simp [State.inTx, h]

/-! ### TBEGIN (R313, R314) -/

theorem exec_tbegin_fallback {s : State} (p : BitVec 12) (hs : s.plain) (hr : field (s.sr 0x052) 15 0 ≤ field (s.sr 0x052) 47 32) :
    exec (.tbegin p) s = checkTarget s (s.relTarget p)
      (.next ((s.setSr s.cur 0x052 (setField (s.sr 0x052) 47 32 0)).jump (s.relTarget p))) := by
  change execTbegin p s = _
  unfold State.plain at hs
  simp only [execTbegin, hs, Bool.false_eq_true, if_false, hr, if_true]

theorem exec_tbegin_begins {s : State} (p : BitVec 12) (hs : s.plain) (hr : field (s.sr 0x052) 47 32 < field (s.sr 0x052) 15 0)
    (hq : s.quiet s.cur = true) : exec (.tbegin p) s = .next ((s.beginTx (s.relTarget p) false 0).advance) := by
  change execTbegin p s = _
  unfold State.plain at hs
  simp only [execTbegin, hs, Bool.false_eq_true, if_false, Nat.not_le.mpr hr, hq, Bool.not_true]

theorem exec_tbegin_nested {s : State} (p : BitVec 12) (h : s.inTx = true) :
    exec (.tbegin p) s = if s.txDepth s.cur = 7 then .next (s.txAbort 6 0x3A)
      else .next ((s.setSr s.cur 0x050 (setField (s.sr 0x050) 2 0 (s.txDepth s.cur + 1))).advance) := by
  change execTbegin p s = _
  simp only [execTbegin, h, if_true]

/-- TXSTAT when a transaction has begun: no entry is logged, its kind is set, and its depth is 1 (R327). -/
theorem State.txstat_beginTx (s : State) (label : Word) (irrev : Bool) (spill : Word) :
    (s.beginTx label irrev spill).sr 0x050
      = setField (setField (setField (s.sr 0x050) 23 11 0) 8 7 (if irrev then 3 else 1)) 2 0 1 := by
  unfold State.beginTx
  rw [State.sr_modMe (by rfl), State.sr, State.setSr_cur, State.setSr_cur, State.srAt_setSr_other _ _ _ (by norm_num),
    State.srAt_setSr]

theorem State.txDepth_beginTx (s : State) (label : Word) (irrev : Bool) (spill : Word) :
    (s.beginTx label irrev spill).advance.txDepth s.cur = 1 := by
  change field ((s.beginTx label irrev spill).advance.sr 0x050) 2 0 = 1
  rw [State.sr_advance, State.txstat_beginTx]
  exact field_setField_same (by norm_num) (by norm_num) _ _

theorem State.irrevocable_beginTx (s : State) (label : Word) (irrev : Bool) (spill : Word) :
    bit ((s.beginTx label irrev spill).advance.srAt s.cur 0x050) 8 = irrev := by
  change bit ((s.beginTx label irrev spill).advance.sr 0x050) 8 = irrev
  rw [State.sr_advance, State.txstat_beginTx, bit_setField_outside (by norm_num) (by norm_num) (by norm_num),
    bit_setField_inside (by norm_num) (by norm_num) (by norm_num)]
  cases irrev <;> rfl

/-- The transaction that begins: where it restarts and goes after an abort, with nothing logged. -/
theorem State.tx_beginTx (s : State) (label : Word) (irrev : Bool) (spill : Word) :
    (s.beginTx label irrev spill).advance.me.tx
      = some { pc := s.upc, label := label, ckpt := s.me.checkpoint s.cur.k 0, spill := spill } := by
  rw [State.me_advance, State.beginTx, State.me_modMe]

/-! ### TXCHK (R323) -/

theorem sameThreads_recallWritable (s : State) (line : Nat) : SameThreads s (s.recallWritable line) := ⟨rfl, rfl, rfl, rfl⟩

/-- The home recalls the writable copies of the lines that xs stand for, one after another. -/
theorem sameThreads_recallWritables {α : Type} (f : α → Nat) (s : State) (xs : List α) :
    SameThreads s (xs.foldl (fun z x => z.recallWritable (f x)) s) :=
  List.foldlRecOn xs _ (motive := SameThreads s) (.refl s) fun _ h _ _ => h.trans (sameThreads_recallWritable _ _)

theorem State.recallWritables_mem {α : Type} (f : α → Nat) (s : State) (xs : List α) :
    (xs.foldl (fun z x => z.recallWritable (f x)) s).mem = s.mem := State.foldl_mem (fun _ _ => rfl) rfl

/-- Whether the logged values still hold is a matter of memory alone. -/
theorem State.readsValid_congr {s t : State} (h : t.mem = s.mem) (x : Tx) : t.readsValid x = s.readsValid x := by
  simp only [State.readsValid, h]

theorem exec_txchk_judged {s : State} {x : Tx} (hx : s.me.tx = some x) (hi : s.irrevocable = false)
    (hl : ∀ e ∈ x.reads, s.lockOf (e.word / 8) ≠ 2) :
    let s1 := x.reads.foldl (fun z e => z.recallWritable (e.word / 8)) s
    exec .txchk s = if s.readsValid x = true then .next s1.advance else .next (s1.txAbort 1 0) := by
  have hfree : (x.reads.any fun e => s.lockOf (e.word / 8) == 2) = false := by simpa using hl
  change execTxchk s = _
  simp only [execTxchk, hx, hi, hfree, Bool.false_eq_true, if_false, State.readsValid_congr (State.recallWritables_mem _ s x.reads)]

/-! ### TXLD (R316, R322) -/

/-- An aligned access of at most eight bytes in local store lies within one word. -/
theorem localPlace_within_word {ea : Word} {n : Nat} (b : Nat) (ha : ea.toNat % 2 ^ (n % 4) = 0) :
    localPlace b ea % 8 + 2 ^ (n % 4) ≤ 8 := by
  have hlow : localPlace b ea % 8 = ea.toNat % 8 := by
    unfold localPlace lsAddr lsBase field
    omega
  have h4 : n % 4 < 4 := Nat.mod_lt _ (by norm_num)
  rw [hlow]
  generalize n % 4 = k at *
  interval_cases k <;> omega

/-- A load of a word of local store. -/
theorem Memory.load_local_word (m : Memory) {pa : Nat} (hl : isLocal pa = true) :
    m.load (8 * wordOf pa) 8 = (m.read (8 * wordOf pa) 8, m.poisoned pa) := by
  have hword : isLocal (8 * wordOf pa) = true := by
    rw [isLocal_iff] at hl ⊢
    unfold wordOf
    omega
  have hsame : wordOf (8 * wordOf pa) = wordOf pa := Nat.mul_div_cancel_left _ (by norm_num)
  have h0 := isLost_of_local m hl 0
  have h1 := isLost_of_local m hword 0
  rw [Nat.add_zero] at h0 h1
  simp only [Memory.load, isHost_of_local hword, Memory.poisoned, hsame, h0, h1, Bool.not_false, Bool.true_and]

theorem exec_txld_local {s : State} {x : Tx} {d b : BitVec 5} {ty : BitVec 3} (hx : s.me.tx = some x) (hb : s.clean b)
    (h55 : bit (s.val b) 55 = true) (hc : s.cur.b < 512) (hf : addressFault (s.val b) (2 ^ (ty.toNat % 4)) false true = none)
    (ho : s.ownedLine (lineOf (localPlace s.cur.b (s.val b))) none = false)
    (hw : x.writeOf (wordOf (localPlace s.cur.b (s.val b))) = none) (hr : s.cur.k = 15 ∨ 0 < s.myRill.replayRoom) :
    exec (.txld d b ty) s = .next (s.put d (extend (decide (4 ≤ ty.toNat)) (2 ^ (ty.toNat % 4))
      (s.mem.read (localPlace s.cur.b (s.val b)) (2 ^ (ty.toNat % 4)))) (s.mem.poisoned (localPlace s.cur.b (s.val b)))) := by
  obtain ⟨rb, pb⟩ := hb
  obtain ⟨-, -, hal⟩ := addressFault_none hf
  have hloc := isLocal_localPlace hc (s.val b)
  have hin := localPlace_within_word s.cur.b (hal rfl)
  have hroom : (s.cur.k != 15 && s.myRill.replayRoom == 0) = false := by
    rcases hr with h | h
    · simp [h]
    · simp [Nat.ne_of_gt h]
  rw [← s.mem.read_within_word hin]
  unfold State.bad at pb
  unfold State.val at *
  change execTxld d b ty s = _
  unfold execTxld
  rw [withReg_full _ rb]
  simp only [hx, pb, typeSize, typeSigned]
  rw [withAddress_ok _ _ hf, if_pos h55]
  simp only [txld, hloc, ho, hroom, hw, Memory.load_local_word _ hloc, Bool.not_true, Bool.false_and, Bool.or_false, Bool.false_eq_true,
    if_false]
  rfl

/-! ### TEND (R313, R331) -/

theorem sameThreads_dropLocks (s : State) (p : Pos) : SameThreads s (s.dropLocks p) := by
  unfold State.dropLocks
  exact .ite ⟨rfl, rfl, rfl, rfl⟩ ⟨rfl, rfl, rfl, rfl⟩

/-- The context of a transaction that has ended with a commit: TXSTAT without an abort request, kind and depth, no retry
counted, TEND's predicate set. -/
theorem State.ctx_endTx (s : State) (p : Pos) (qd : Nat) :
    (s.endTx p qd).ctx p
      = { ((({ s.ctx p with
              sr := ((s.ctx p).sr.put 0x050 (setField (setField (setField (s.srAt p 0x050) 31 31 0) 8 7 0) 2 0 0)).put 0x052
                (setField (s.srAt p 0x052) 47 32 0) } : Ctx).setPred (BitVec.ofNat 3 qd) true false).xpOrdered) with
          tx := none, wait := none } := by
  have hctx : (s.dropLocks p).ctx p = s.ctx p := (sameThreads_dropLocks s p).ctx p
  simp only [State.endTx, State.setSr, State.ctx_modCtx, State.srAt, hctx]

theorem State.txDepth_endTx (s : State) (p : Pos) (qd : Nat) : (s.endTx p qd).txDepth p = 0 := by
  have hsr (c : Ctx) (q : BitVec 3) : (c.setPred q true false).xpOrdered.sr = c.sr := by
    unfold Ctx.setPred
    split <;> rfl
  unfold State.txDepth State.srAt
  rw [State.ctx_endTx]
  dsimp only
  rw [hsr, Table.get_put_other _ _ _ (by norm_num), Table.get_put_same]
  exact field_setField_same (by norm_num) (by norm_num) _ _

/-- TEND's predicate says that the transaction has committed. -/
theorem State.pred_endTx (s : State) (q : BitVec 3) : ((s.endTx s.cur q.toNat).ctx s.cur).pred q = { val := true } := by
  rw [State.ctx_endTx, BitVec.ofNat_toNat, BitVec.setWidth_eq]
  refine (Ctx.pred_setPred _ q q true false).trans ?_
  by_cases hq : q = 0
  · subst hq
    rfl
  · rw [if_pos ⟨rfl, hq⟩]

theorem State.endTx_cur (s : State) (p : Pos) (qd : Nat) : (s.endTx p qd).cur = s.cur := (sameThreads_dropLocks s p).cur

/-- TEND of the outermost transaction, whose commit has lines to lock. -/
def Tx.locking (t : Tx) (s : State) (qd : Nat) : Tx :=
  { t with qd := qd, began := s.cycle, commit := 1, verdict := 0, awaiting := s.homesOf s.cur.b t.logLines }

theorem exec_tend_outermost {s : State} {x : Tx} (q : BitVec 3) (hx : s.me.tx = some x) (hd : s.txDepth s.cur = 1)
    (hrel : s.releases = true) :
    (x.logLines = [] → exec (.tend q) s = .next ((s.endTx s.cur q.toNat).advance))
    ∧ (x.logLines ≠ [] → s.irrevocable = false → exec (.tend q) s
        = .next ((s.modMe fun c => { c with wait := some .commit, tx := some (x.locking s q.toNat) }).advance)) := by
  have hlines : ({ x with qd := q.toNat, began := s.cycle } : Tx).logLines = x.logLines := rfl
  change (_ → execTend q s = _) ∧ (_ → _ → execTend q s = _)
  unfold execTend
  simp only [hx, hd, hrel, hlines, Nat.reduceLeDiff, Bool.not_true, Bool.false_eq_true, if_false]
  refine ⟨fun h => if_pos (by simp [h]), fun h hi => ?_⟩
  rw [if_neg (by simpa using h), hi, if_neg Bool.false_ne_true]
  rfl

theorem exec_tend_nested {s : State} {x : Tx} (q : BitVec 3) (hx : s.me.tx = some x) (hd : 2 ≤ s.txDepth s.cur) :
    exec (.tend q) s = .next ((s.setSr s.cur 0x050 (setField (s.sr 0x050) 2 0 (s.txDepth s.cur - 1))).putQ q true false) := by
  change execTend q s = _
  simp only [execTend, hx, hd, if_true]
  rfl

/-- Settles O37: TBEGIN is decided by the depth and the retry count, TXCHK by the logged values, TEND by the depth and the logged
lines; TXLD cuts its bytes out of their word of memory. -/
theorem txResults : Obligations.TxResults := by
  intro s p q d b ty c tr label
  refine ⟨fun hs hr => ⟨fun h => ?_, fun h0 => ?_, fun h0 h1 => ?_, fun h0 h1 h => ?_⟩, fun hs hr hq => ?_, fun hin h7 => ?_, fun h7 => ?_,
    fun hs => ?_, fun hin => ?_, rfl, fun hx => ⟨?_, ?_⟩, fun x hx hi hl => ?_, ?_, fun x hx hd => exec_tend_nested q hx hd,
    fun x hx hd hrel => ⟨fun h => ?_, fun h hi => ?_⟩⟩
  · exact (exec_tbegin_fallback p hs hr).trans (checkTarget_good _ h)
  · exact (exec_tbegin_fallback p hs hr).trans (checkTarget_odd _ h0)
  · exact (exec_tbegin_fallback p hs hr).trans (checkTarget_beyond _ h0 h1)
  · exact (exec_tbegin_fallback p hs hr).trans (checkTarget_local _ h0 h1 h)
  · exact ⟨_, _, exec_tbegin_begins p hs hr hq, s.txDepth_beginTx _ false 0, s.irrevocable_beginTx _ false 0, s.tx_beginTx _ false 0,
      rfl, rfl, rfl, rfl, rfl, by rw [State.me_advance]; rfl, fun a => by rw [State.advance_mem, State.beginTx_mem]⟩
  · exact (exec_tbegin_nested p hin).trans (if_neg (Nat.ne_of_lt h7))
  · exact (exec_tbegin_nested p (State.inTx_of_depth h7)).trans (if_pos h7)
  · exact if_neg (by rw [State.plain] at hs; simp [hs])
  · exact if_pos hin
  · change execTxchk s = _
    simp only [execTxchk, hx]
  · change execTend q s = _
    simp only [execTend, hx]
    rfl
  · have hex := exec_txchk_judged hx hi hl
    have hsame := sameThreads_recallWritables (fun e : LogEntry => e.word / 8) s x.reads
    refine ⟨fun hv => ⟨_, hex.trans (if_pos hv), fun a => ?_, ?_, ?_⟩, fun hv => hex.trans (if_neg (by simp [hv]))⟩
    · rw [State.advance_mem, State.recallWritables_mem]
    · rw [State.me_advance, ← hsame.nextPc]
    · rw [State.me_advance, State.me, hsame.cur, hsame.ctx]
      exact hx
  · intro x ea hx hb hea h55 hc hf place ho hw hr
    subst hea
    exact exec_txld_local hx hb h55 hc hf ho hw hr
  · refine ⟨(exec_tend_outermost q hx hd hrel).1 h, ?_, s.txDepth_endTx _ _, ?_⟩ <;> rw [State.me, State.endTx_cur]
    · rw [State.ctx_endTx]
    · rw [State.pred_endTx]
  · refine ⟨_, x.locking s q.toNat, (exec_tend_outermost q hx hd hrel).2 h hi, ?_, rfl, rfl, ?_, fun a => by simp⟩ <;>
      rw [State.me_advance, State.me_modMe]

end Sys2Proof.Machine
end

section
/-! PROOFS. Events of transactions (R326, R331 to R340). -/

namespace Sys2Proof.Machine

/-! ### Replies of slices to a commit (R331 to R333) -/

theorem State.afterReplies_awaiting {s : State} {p : Pos} {t : Tx} (h : t.awaiting ≠ []) :
    s.afterReplies p t = s.modCtx p fun c => { c with tx := some t } := if_pos (by simpa using h)

/-- The transaction of a commit once slice sl has answered v. -/
def Tx.replied (t : Tx) (sl v : Nat) : Tx :=
  { t with awaiting := t.awaiting.filter fun x => x != sl, verdict := max t.verdict v }

/-- A reply that is not the last is counted; a slice that holds all its lines answers whether the values read there still hold. -/
theorem exec_txCommitLockReply_counted {s s1 : State} {b r k sl how : Nat} {t : Tx} (ht : (s.ctx ⟨b, r, k⟩).tx = some t)
    (hc : t.commit = 1) (hsl : sl ∈ t.awaiting) (hrest : (t.awaiting.filter fun x => x != sl) ≠ [])
    (hlock : lockLines ⟨b, r, k⟩ (s.linesAt b t sl) s = (s1, how)) (hhow : how = 0 ∨ how = 2) :
    ∃ u, exec (.txCommitLockReply b r k sl) s = .next u ∧ SameBytes s u
      ∧ (u.ctx ⟨b, r, k⟩).tx = some (t.replied sl (if how = 2 then 2 else s.validateAt t (s.linesAt b t sl))) := by
  have hmem : s1.mem = s.mem := by rw [← lockLines_mem ⟨b, r, k⟩ (s.linesAt b t sl) s, hlock]
  let s2 := if how = 0 then (s.linesAt b t sl).foldl (fun z l => z.recallWritable l) s1 else s1
  have hmem2 : s2.mem = s.mem := by
    simp only [s2]
    split
    · rw [State.recallWritables_mem, hmem]
    · exact hmem
  have hval : s2.validateAt t (s.linesAt b t sl) = s.validateAt t (s.linesAt b t sl) := by
    rw [State.validateAt, State.validateAt, State.readsValid_congr hmem2]
  have hno : how ≠ 1 := by omega
  have hgo : (t.commit != 1 || !t.awaiting.contains sl) = false := by simp [hc, hsl]
  have hex : exec (.txCommitLockReply b r k sl) s
      = .next (s2.afterReplies ⟨b, r, k⟩ (t.replied sl (if how = 2 then 2 else s2.validateAt t (s.linesAt b t sl)))) := by
    change execTxCommitLockReply b r k sl s = _
    unfold execTxCommitLockReply
    simp only [ht, hgo, Bool.false_eq_true, if_false, hlock, hno]
    rfl
  rw [State.afterReplies_awaiting hrest, hval] at hex
  exact ⟨_, hex, fun a => by rw [State.modCtx_mem, hmem2], by rw [State.ctx_modCtx]⟩

/-! ### One entry of a write log is applied (R146, R336) -/

theorem mergeBytes_all {old new : Nat} (ho : old < 2 ^ 64) (hn : new < 2 ^ 64) : mergeBytes old new 255 = new := by
  have hmask : maskBits 255 = 2 ^ 64 - 1 := by decide
  rw [mergeBytes, hmask, Nat.and_two_pow_sub_one_eq_mod, Nat.and_two_pow_sub_one_eq_mod, Nat.mod_eq_of_lt ho, Nat.mod_eq_of_lt hn,
    Nat.sub_self, Nat.zero_add]

/-- Tags on the bytes that c selects. -/
theorem Memory.byte_tagged (m : Memory) (is : List Nat) (c : Nat → Bool) (a : Nat) (t : Option Tag) (x : Nat) :
    (is.foldl (fun m i => if c i then m.setTags (a + i) t 1 else m) m).byte x = m.byte x :=
  List.foldlRecOn is _ (motive := fun n : Memory => n.byte x = m.byte x) rfl fun n h i _ => by
    split
    · rw [Memory.byte_setTags, h]
    · exact h

theorem Memory.poisoned_tagged (m : Memory) (is : List Nat) (c : Nat → Bool) (a : Nat) (t : Option Tag) (x : Nat) :
    (is.foldl (fun m i => if c i then m.setTags (a + i) t 1 else m) m).poisoned x = m.poisoned x :=
  List.foldlRecOn is _ (motive := fun n : Memory => n.poisoned x = m.poisoned x) rfl fun n h i _ => by
    split
    · rw [Memory.poisoned_setTags, h]
    · exact h

theorem State.byte_applyEntry (s : State) (p : Pos) {e : LogEntry} (he : e.mask = 255) (x : Nat) :
    (s.applyEntry p e).mem.byte x = (s.mem.write (8 * e.word) 8 e.val.toNat).byte x := by
  unfold State.applyEntry
  rw [State.noteRaise_mem, State.wrote_mem]
  dsimp only
  rw [Memory.byte_tagged, Memory.byte_setPoison, State.recall_mem, he, mergeBytes_all (s.mem.read_lt _ _) e.val.isLt]

theorem State.poisoned_applyEntry (s : State) (p : Pos) {e : LogEntry} (he : e.mask = 255) (hl : s.mem.isLost (8 * e.word) = false) :
    (s.applyEntry p e).mem.poisoned (8 * e.word) = e.poison := by
  unfold State.applyEntry
  rw [State.noteRaise_mem, State.wrote_mem]
  dsimp only
  rw [Memory.poisoned_tagged, State.recall_mem, Memory.poisoned_setPoison _ _ _ _ (by rw [Memory.isLost_write, hl]), if_pos rfl,
    Memory.isLost_write, hl, he, bne_self_eq_false, Bool.false_and, Bool.or_false, Bool.false_or]

theorem State.read_applyEntry (s : State) (p : Pos) {e : LogEntry} (he : e.mask = 255)
    (hl : ∀ i < 8, s.mem.isLost (8 * e.word + i) = false) : (s.applyEntry p e).mem.read (8 * e.word) 8 = e.val.toNat := by
  rw [Memory.read_congr _ _ _ _ fun x _ _ => s.byte_applyEntry p he x, Memory.read_write_same _ _ _ _ hl]
  exact Nat.mod_eq_of_lt e.val.isLt

/-! ### A slice applies its part of a commit (R331, R336) -/

/-- A write to a line that no braid is recorded for starts no fan-out. -/
theorem gate_unshared {s : State} (p : Pos) (agent : Nat) {line : Nat} (sync : Nat → Bool) (hs : s.sharersOf line = [])
    (hf : (s.fanouts.any fun f => f.line == line) = false) : s.gate p agent [line] sync = (s.dropGate agent, true) := by
  have hagent : s.agentSharers line = [] := by
    unfold State.agentSharers
    rw [hs]
    exact ite_self _
  have hnone : ∀ f ∈ s.fanouts, ¬ f.line = line := by simpa using hf
  simp only [State.gate, hs, hagent, ite_self, List.isEmpty_nil, Bool.true_or, if_true, List.foldl_cons, List.foldl_nil]
  refine if_pos ?_
  simp only [List.all_cons, List.all_nil, Bool.and_true, Bool.not_eq_true', List.any_eq_false]
  intro f hm
  simp [hnone f hm]

/-- A spilled entry as the commit applies it: its value is the one spilled or the one that stands at its place. -/
theorem State.spilledNow_one {s : State} (p : Pos) {t : Tx} {e : LogEntry} (h : t.spilled = [e]) :
    ∃ e', s.spilledNow p t = [e'] ∧ e'.word = e.word ∧ e'.mask = e.mask
      ∧ (e'.val.toNat = e.val.toNat ∨ e'.val.toNat = s.mem.read (localPlace p.b t.spill + 8) 8) := by
  let v := s.keptWord (localPlace p.b t.spill + 8) 0 (some (e.val.toNat, e.poison))
  refine ⟨{ e with val := w64 v.1, poison := v.2 }, by rw [State.spilledNow, Tx.spillWords, h]; rfl, rfl, rfl, ?_⟩
  change (w64 v.1).toNat = _ ∨ (w64 v.1).toNat = _
  rw [w64, BitVec.toNat_ofNat]
  unfold v State.keptWord
  split
  · exact .inl (Nat.mod_eq_of_lt e.val.isLt)
  · exact .inr (Nat.mod_eq_of_lt (s.mem.read_lt _ _))

/-- The one entry of a slice's part of the logs, as the commit applies it. -/
theorem State.applied_one {s : State} (p : Pos) {t : Tx} {e : LogEntry} {f : Nat → Bool}
    (hf : ((t.writes ++ t.spilled).filter fun e => f e.word) = [e]) (hs : t.spilled = [] ∨ (t.writes = [] ∧ t.spilled = [e])) :
    ∃ e', ((t.writes ++ s.spilledNow p t).filter fun e => f e.word) = [e'] ∧ e'.word = e.word ∧ e'.mask = e.mask
      ∧ (t.spilled = [] → e' = e)
      ∧ (t.spilled = [e] → e'.val.toNat = e.val.toNat ∨ e'.val.toNat = s.mem.read (localPlace p.b t.spill + 8) 8) := by
  rcases hs with h | ⟨hw, h⟩
  · have hnone : s.spilledNow p t = [] := by rw [State.spilledNow, Tx.spillWords, h]; rfl
    refine ⟨e, ?_, rfl, rfl, fun _ => rfl, fun h1 => ?_⟩
    · rw [hnone]
      rwa [h] at hf
    · rw [h] at h1
      cases h1
  · obtain ⟨e', he', hword, hmask, hval⟩ := s.spilledNow_one p h
    have hin : e ∈ (t.writes ++ t.spilled).filter fun e => f e.word := by
      rw [hf]
      exact List.mem_singleton_self e
    refine ⟨e', ?_, hword, hmask, fun h1 => ?_, fun _ => hval⟩
    · rw [hw, he', List.nil_append, List.filter_singleton, hword, (List.mem_filter.mp hin).2]
      rfl
    · rw [h] at h1
      cases h1

theorem exec_txCommitApplied_one {s : State} {b r k sl : Nat} {t : Tx} {e : LogEntry} (ht : (s.ctx ⟨b, r, k⟩).tx = some t)
    (hc : t.commit = 2) (hsl : sl ∈ t.awaiting) (hrest : (t.awaiting.filter fun x => x != sl) ≠ [])
    (hmine : ((t.writes ++ s.spilledNow ⟨b, r, k⟩ t).filter fun e => s.homeSlice (s.basinOf b) (8 * e.word) == sl) = [e])
    (hs : s.sharersOf (e.word / 8) = []) (hf : (s.fanouts.any fun f => f.line == e.word / 8) = false) :
    exec (.txCommitApplied b r k sl) s
      = .next ((((s.dropGate (commitAgent ⟨b, r, k⟩)).afterSpilled ⟨b, r, k⟩ t).applyEntry ⟨b, r, k⟩ e).modCtx ⟨b, r, k⟩ fun c =>
          { c with tx := some { t with awaiting := t.awaiting.filter fun x => x != sl } }) := by
  have hgate := gate_unshared ⟨b, r, k⟩ (commitAgent ⟨b, r, k⟩) (fun n => [e].any fun e => e.sync && e.word / 8 == n) hs hf
  have hgo : (t.commit != 2 || !t.awaiting.contains sl) = false := by simp [hc, hsl]
  change execTxCommitApplied b r k sl s = _
  unfold execTxCommitApplied
  simp only [ht, hgo, Bool.not_true, Bool.false_eq_true, if_false, hmine, List.foldl_cons, List.foldl_nil, setInsert, hgate,
    List.isEmpty_iff, hrest]

/-! ### Aborts by an event (R325, R331, R340) -/

/-- TXSTAT after an abort: its cause and information, no abort request, neither kind nor depth (R327). -/
def abortStatus (st : Word) (cause info : Nat) : Word :=
  setField (setField (setField (setField st 39 32 info) 31 31 0) 27 24 cause) 8 0 0

theorem cause_abortStatus (st : Word) (cause info : Nat) : field (abortStatus st cause info) 27 24 = cause % 16 := by
  rw [abortStatus, field_setField_disjoint (by norm_num) (by norm_num) (by norm_num)]
  exact field_setField_same (by norm_num) (by norm_num) _ _

theorem depth_abortStatus (st : Word) (cause info : Nat) : field (abortStatus st cause info) 2 0 = 0 :=
  (field_setField_inside (by norm_num) (by norm_num) le_rfl (by norm_num) _ _).trans (by norm_num)

/-- An abort for a cause that asks for no validation (R320): the transaction is gone and TXSTAT shows the cause. -/
theorem State.txAbortAt_unvalidated {s : State} {p : Pos} {t : Tx} {cause : Nat} (info : Nat) (keepPc : Option Word)
    (ht : (s.ctx p).tx = some t) (hv : validated cause = false) :
    ∃ c, s.txAbortAt p cause info keepPc = (s.setCtx p c).dropLocks p ∧ c.tx = none
      ∧ ∀ d, c.sr.get d 0x050 = abortStatus (s.srAt p 0x050) cause info := by
  unfold State.txAbortAt
  simp only [ht, hv, Bool.and_false, Bool.false_and, Bool.false_eq_true, if_false]
  exact ⟨_, rfl, rfl, fun d => by rw [Table.get_put_other _ _ _ (by norm_num), Table.get_put_same]; rfl⟩

theorem State.rescan_idle {s : State} (lines : List Nat) (h : s.requests = []) : s.rescan lines = s :=
  List.foldlRecOn _ _ (motive := fun t : State => t = s) rfl fun t ht a _ => by
    subst ht
    exact State.scan_other (by rw [h]; exact fun _ hq => nomatch hq)

theorem State.dropLocks_braids (s : State) (p : Pos) : (s.dropLocks p).braids = s.braids := by
  unfold State.dropLocks
  dsimp only
  split <;> rfl

/-- The state of such an abort, where no request is parked on a line that is freed. -/
structure Aborted (s : State) (p : Pos) (cause info : Nat) (u : State) : Prop where
  tx : (u.ctx p).tx = none
  status : u.srAt p 0x050 = abortStatus (s.srAt p 0x050) cause info
  mem : u.mem = s.mem
  braids : u.braids = s.braids

theorem State.aborted_rescan {s : State} {p : Pos} {t : Tx} {cause : Nat} (info : Nat) (keepPc : Option Word) (lines : List Nat)
    (ht : (s.ctx p).tx = some t) (hv : validated cause = false) (hr : s.requests = []) :
    Aborted s p cause info ((s.txAbortAt p cause info keepPc).rescan lines) := by
  obtain ⟨c, hab, hctx, hsr⟩ := State.txAbortAt_unvalidated info keepPc ht hv
  have hsame := sameThreads_dropLocks (s.setCtx p c) p
  rw [State.rescan_idle _ (by rw [hab, hsame.requests]; exact hr)]
  refine ⟨?_, ?_, State.txAbortAt_mem _ _ _ _ _, ?_⟩ <;> rw [hab]
  · rw [hsame.ctx, State.ctx_setCtx, hctx]
  · rw [State.srAt, hsame.ctx, State.ctx_setCtx, hsr]
  · exact State.dropLocks_braids _ _

/-- The lines whose locks a position holds. -/
def State.lockedLines (s : State) (p : Pos) : List Nat := (s.locks.filter fun e => e.2.pos == p).map Prod.fst

/-- A commit that is still locking 1.5 µs after its first request aborts with CONFLICT-LOCK. -/
theorem exec_txCommitDeadline_passed {s : State} {b r k : Nat} {t : Tx} (ht : (s.ctx ⟨b, r, k⟩).tx = some t) (hc : t.commit = 1)
    (hd : t.began + 4950 ≤ s.cycle) (hg : s.groupOf ⟨b, r, k⟩ = none) :
    exec (.txCommitDeadline b r k) s = .next ((s.txAbortAt ⟨b, r, k⟩ 2 0 none).rescan (s.lockedLines ⟨b, r, k⟩)) := by
  have hdue : decide (t.began + 3 * Config.usCycles / 2 ≤ s.cycle) = true := decide_eq_true hd
  change execTxCommitDeadline b r k s = _
  simp only [execTxCommitDeadline, ht, hc, hdue, beq_self_eq_true, Bool.and_self, if_true, State.releaseCommit, hg, Option.isSome_none,
    Bool.false_eq_true, if_false]
  rfl

/-- A deferred stop whose time has passed aborts the irrevocable transaction and stops its thread. -/
theorem exec_irrevocablePreemptTimeout_passed {s : State} {b r k : Nat} {t : Tx} (ht : (s.ctx ⟨b, r, k⟩).tx = some t)
    (hc : t.commit = 0) (hi : bit (s.srAt ⟨b, r, k⟩ 0x050) 8 = true) (h0 : (s.ctx ⟨b, r, k⟩).stopBy ≠ 0)
    (hd : (s.ctx ⟨b, r, k⟩).stopBy ≤ s.cycle) (hg : s.groupOf ⟨b, r, k⟩ = none) (hr : s.requests = []) :
    exec (.irrevocablePreemptTimeout b r k) s
      = .next (((s.txAbortAt ⟨b, r, k⟩ 8 0 none).rescan (s.lockedLines ⟨b, r, k⟩)).modCtx ⟨b, r, k⟩ fun x =>
          { x with run := .stopping, stopBy := 0, left := none }) := by
  have hbraids := (State.aborted_rescan 0 none (s.lockedLines ⟨b, r, k⟩) ht (cause := 8) rfl hr).braids
  refine (if_pos (by simp [ht, hc, hi, h0, hd])).trans (congrArg Host.Outcome.next ((leaveGroup_alone ?_).trans ?_))
  · exact (State.groupOf_congr hbraids _).trans hg
  · rw [State.modCtx_modCtx]
    rfl

/-! ### The weir token and the locks of irrevocable transactions (R335, R337) -/

theorem exec_weirTokenGrant_one {s : State} {bs : Nat} {h : Nat × Pos}
    (ht : (s.basin bs).token = { holder := none, pending := [h] }) :
    exec (.weirTokenGrant bs) s
      = .next ((s.modBasin bs fun y => { y with token := { holder := some h.2, pending := [] } }).modCtx h.2 fun c =>
          if c.wait == some .token then { c with wait := none } else c) := by
  change execWeirTokenGrant bs s = _
  unfold execWeirTokenGrant
  simp [ht]

theorem exec_irrevocableLockGrant_turn {s : State} {b r k l since : Nat} {t : Tx}
    (hw : (s.ctx ⟨b, r, k⟩).wait = some (.irrLock l since)) (ht : (s.ctx ⟨b, r, k⟩).tx = some t) (hl : s.locks.find l = none)
    (ho : s.ownedLine l none = false) (hf : ∀ f ∈ s.fanouts, f.line ≠ l) (hturn : s.lockTurn ⟨b, r, k⟩ l = true) :
    exec (.irrevocableLockGrant b r k) s
      = .next ((({ s with locks := s.locks.put l { kind := 3, pos := ⟨b, r, k⟩, tid := s.tid ⟨b, r, k⟩ } } : State).recallWritable l).modCtx
          ⟨b, r, k⟩ fun c => { c with wait := none, tx := some { t with lines := setInsert t.lines l } }) := by
  have hfan : (s.fanouts.any fun f => f.line == l) = false := by simpa using hf
  change execIrrevocableLockGrant b r k s = _
  unfold execIrrevocableLockGrant
  simp only [hw, ht, hl, ho, hfan, hturn, Option.isSome_none, Bool.not_true, Bool.or_self, Bool.false_eq_true, if_false]

/-! ### TIRREV (R335, R337) -/

section tirrev
variable {s : State} {o : BitVec 5} (off : BitVec 12) (hu : s.unfused = true) (hs : s.plain) (ho : s.ready o)
include hu hs ho

theorem exec_tirrev_badArea (hb : spillBad s.cur.r (s.me.reg o) = true) :
    exec (.tirrev o off) s = .next (s.trapTo 0x0A (s.me.reg o).val) := by
  change execTirrev o off s = _
  rw [execTirrev, hu, Bool.not_true, if_neg Bool.false_ne_true, outsideTx_plain hs, withReg_full _ ho, if_pos hb]
  rfl

variable (hq : s.quiet s.cur = true) (hb : spillBad s.cur.r (s.me.reg o) = false)
include hq hb

theorem exec_tirrev_holder (hh : (s.basin (s.basinOf s.cur.b)).token.holder = some s.cur) :
    exec (.tirrev o off) s = .next ((s.beginTx (s.relTarget off) true (s.me.reg o).val).advance) := by
  change execTirrev o off s = _
  rw [execTirrev, hu, Bool.not_true, if_neg Bool.false_ne_true, outsideTx_plain hs, withReg_full _ ho]
  simp only [hb, hq, hh, Bool.not_true, Bool.false_eq_true, if_false, beq_self_eq_true, if_true]

/-- The thread asks for the token and waits for it at this unit. -/
theorem exec_tirrev_asks (hh : (s.basin (s.basinOf s.cur.b)).token.holder ≠ some s.cur)
    (hp : ∀ e ∈ (s.basin (s.basinOf s.cur.b)).token.pending, e.2 ≠ s.cur) :
    exec (.tirrev o off) s
      = .next ((s.modBasin (s.basinOf s.cur.b) fun y =>
          { y with token := { y.token with pending := y.token.pending ++ [(s.tid s.cur, s.cur)] } }).modMe fun c =>
            { c with wait := some .token, pc := s.upc, took := false }) := by
  have hnew : ((s.basin (s.basinOf s.cur.b)).token.pending.any fun e => e.2 == s.cur) = false := by simpa using hp
  change execTirrev o off s = _
  rw [execTirrev, hu, Bool.not_true, if_neg Bool.false_ne_true, outsideTx_plain hs, withReg_full _ ho]
  simp only [hb, hq, beq_false_of_ne hh, hnew, Bool.not_true, Bool.false_eq_true, if_false]

end tirrev

/-- Settles O38: a commit goes on by the reply or the part of one slice; the other events abort, or grant the token or a lock. -/
theorem txEvents : Obligations.TxEvents := by
  intro s b r k sl t p
  refine ⟨fun ht hc hsl hrest => ⟨fun s1 hlock => exec_txCommitLockReply_counted ht hc hsl hrest hlock (.inl rfl),
      fun s1 hlock => ?_⟩, fun ht hc hsl hrest e hmine hmask hspill hs hf hl => ?_, fun ht hc hd hg hr => ?_, fun v => ?_,
    fun bs h htok => ?_, fun l since hw ht hl ho hf hturn => ?_, fun ht hc hi h0 hd hg hr => ?_, fun o off hu hs ho hq => ?_⟩
  · obtain ⟨u, hex, -, htx⟩ := exec_txCommitLockReply_counted ht hc hsl hrest hlock (.inr rfl)
    exact ⟨u, hex, htx⟩
  · obtain ⟨e', hmine', hword, hmask', hplain, hkept⟩ :=
      s.applied_one p (f := fun w => s.homeSlice (s.basinOf b) (8 * w) == sl) hmine hspill
    rw [← hword] at hs hf hl
    have hfull : e'.mask = 255 := hmask'.trans hmask
    have hex := exec_txCommitApplied_one ht hc hsl hrest hmine' hs hf
    generalize hz : (s.dropGate (commitAgent p)).afterSpilled p t = z at hex
    have hsame : z.mem = s.mem := by rw [← hz, State.afterSpilled_mem, State.dropGate_mem]
    have hlost : ∀ i < 8, z.mem.isLost (8 * e'.word + i) = false := by
      rw [hsame]
      exact hl
    have hread := z.read_applyEntry p hfull hlost
    have hbad := z.poisoned_applyEntry p hfull (hlost 0 (by norm_num))
    refine ⟨_, hex, fun h => ?_, fun h => ?_, fun x hx => ?_,
      by rw [State.ctx_modCtx]⟩ <;> rw [State.modCtx_mem]
    · obtain rfl := hplain h
      exact ⟨hread, hbad⟩
    · rw [← hword, hread]
      exact hkept h
    · rw [State.byte_applyEntry _ _ hfull, Memory.byte_write_other _ _ _ _ _ (by rw [hword]; exact hx), hsame]
  · have hab := State.aborted_rescan 0 none (s.lockedLines p) ht (cause := 2) rfl hr
    refine ⟨_, exec_txCommitDeadline_passed ht hc hd hg, hab.tx, ?_, ?_, fun a => by rw [hab.mem]⟩
    · rw [hab.status, cause_abortStatus]
    · rw [State.txDepth, hab.status, depth_abortStatus]
  · refine ⟨_, rfl, ?_, ?_⟩ <;> rw [State.writeAbortreq, State.srAt_setSr]
    · rw [bit_setField_same (by norm_num)]
      cases bit v 31 && (s.ctx p).tx.isSome <;> rfl
    · exact field_setField_disjoint (by norm_num) (by norm_num) (by norm_num) _ _
  · refine ⟨_, exec_weirTokenGrant_one htok, ?_, fun hw => ?_⟩
    · rw [State.basin_modCtx, State.basin_modBasin]
    · rw [State.ctx_modCtx, State.ctx_modBasin, hw]
      rfl
  · refine ⟨_, exec_irrevocableLockGrant_turn hw ht hl ho hf hturn, ?_, by rw [State.ctx_modCtx]⟩
    change ((s.locks.put l _).find l).elim 0 (fun x => x.kind) = 3
    rw [Table.find_put_same]
    rfl
  · have hab := State.aborted_rescan 0 none (s.lockedLines p) ht (cause := 8) rfl hr
    refine ⟨_, exec_irrevocablePreemptTimeout_passed ht hc hi h0 hd hg hr, ?_, ?_, ?_⟩
    · rw [State.ctx_modCtx]
      exact hab.tx
    · rw [State.ctx_modCtx]
    · rw [State.srAt, State.ctx_modCtx]
      exact (congrArg (field · 27 24) hab.status).trans (cause_abortStatus _ _ _)
  · intro x n
    refine ⟨exec_tirrev_badArea off hu hs ho, fun hb hh => ?_, fun hb hh hp => ?_⟩
    · exact ⟨_, _, exec_tirrev_holder off hu hs ho hq hb hh, s.irrevocable_beginTx _ true _, s.txDepth_beginTx _ true _,
        s.tx_beginTx _ true _, rfl, rfl, by rw [State.me_advance]; rfl⟩
    · refine ⟨_, exec_tirrev_asks off hu hs ho hq hb hh hp, ?_, ?_, ?_⟩
      · rw [State.me_modMe]
      · rw [State.me_modMe]
      · rw [State.modMe, State.basin_setCtx]
        exact congrArg (fun y : Basin => y.token.pending) (State.basin_modBasin _ _ _)

end Sys2Proof.Machine
end

section
/-! PROOFS. Taking an exception: what a trap of a user context and one of context 15 leave (R374 to R376, R380). -/

namespace Sys2Proof.Machine

/-! ### Positions -/

/-- Different contexts of a rill have different keys. -/
theorem Pos.key_ne_of_ctx {p : Pos} {k : Nat} (h : p.k ≠ k) : p.key ≠ ({ p with k := k } : Pos).key := by
  simp only [Pos.key]
  omega

/-! ### The fields of XSTAT (R376) -/

theorem field_xstat_ctx {kind len idx orig sub k : Nat} (w : Bool) (hk : k < 16) :
    field (xstat kind len idx orig sub k w) 3 0 = k := by
  simp only [xstat, field, w64, BitVec.toNat_ofNat]
  split <;> omega

theorem field_xstat_len {kind len k : Nat} (hl : len < 16) (hk : k < 16) :
    field (xstat kind len 0 0 0 k false) 27 24 = len := by
  simp only [xstat, field, w64, BitVec.toNat_ofNat, Bool.false_eq_true, if_false]
  omega

/-! ### A stop without work under way -/

/-- Without a block instruction and a capture there is nothing to cut. -/
theorem Ctx.cutWork_idle {c : Ctx} (hb : c.block = none) (hv : c.vblocks = []) (logged : List Access) (pc : Word) (len : Nat) :
    c.cutWork logged pc len = (c, pc, len) := by
  simp [Ctx.cutWork, Ctx.dropCapture, Ctx.capturePc, hb, hv]

theorem State.dropBlockGate_idle {s : State} {p : Pos} (hb : (s.ctx p).block = none) : s.dropBlockGate p = s := by
  simp [State.dropBlockGate, hb]

/-- What a stop makes of a context that has no work to be cut (R374): stopped, with the record in XPC to XSTAT. -/
def Ctx.stoppedWith (c : Ctx) (pc : Word) (cause : Nat) (v xs : Word) : Ctx :=
  { c with
    run := .stopped, held := none, retry := 0, heldUnit := none, triedAt := 0, stopBy := 0, pc := pc
    sr := (((c.sr.put 0x010 pc).put 0x011 (w64 cause)).put 0x012 v).put 0x013 xs }

theorem State.stopAt_idle {s : State} {p : Pos} (hb : (s.ctx p).block = none) (hv : (s.ctx p).vblocks = []) (cause : Nat) (v : Word)
    (len orig : Nat) (pc : Word) (w : Bool) :
    s.stopAt p cause v len orig pc w
      = ((s.setCtx p ((s.ctx p).stoppedWith pc cause v (xstat 0 len 0 orig 0 p.k w))).orderAfter { p with k := 15 } p.k).post p.b p.r
          { cls := 1, cause := cause, val := v, xstat := xstat 1 len 0 orig 0 p.k w, rank := p.k } := by
  unfold State.stopAt
  rw [State.dropBlockGate_idle hb]
  simp only [Ctx.cutWork_idle hb hv]
  rfl

/-- A system register that a stop does not write. -/
theorem Ctx.stoppedWith_sr_other (c : Ctx) (pc : Word) (cause : Nat) (v xs d : Word) {n : Nat} (h : n ∉ [0x010, 0x011, 0x012, 0x013]) :
    (c.stoppedWith pc cause v xs).sr.get d n = c.sr.get d n := by
  simp only [List.mem_cons, List.not_mem_nil, or_false, not_or] at h
  obtain ⟨h0, h1, h2, h3⟩ := h
  simp only [Ctx.stoppedWith, Table.get_put, h0, h1, h2, h3, if_false]

theorem State.ctx_orderAfter_other (s : State) {p q : Pos} (k : Nat) (h : q.key ≠ p.key) : (s.orderAfter p k).ctx q = s.ctx q :=
  State.ctx_modCtx_other _ _ h

theorem State.wait_orderAfter (s : State) (p : Pos) (k : Nat) : ((s.orderAfter p k).ctx p).wait = (s.ctx p).wait := by
  rw [State.orderAfter, State.addEdges, State.ctx_modCtx]

/-- The record is pending, or follows one of its source. -/
theorem mem_postRecord (x : Rill) (e : EventRec) : e ∈ (x.postRecord e).events ++ (x.postRecord e).later := by
  unfold Rill.postRecord
  split
  · simp
  · split <;> simp

/-! ### Traps -/

section
variable {s : State} (cause : Nat) (v : Word) (hs : s.plain)
include hs

theorem trapTo_user (hk : s.cur.k < 15) :
    s.trapTo cause v = (s.stopAt s.cur cause v s.ulen 0 s.upc false).modMe fun c => { c with left := some cause } := by
  have hp : s.inTx = false := hs
  simp only [State.trapTo, State.trapAs, hp, Bool.false_and, Bool.false_eq_true, if_false, Nat.ne_of_lt hk]

/-- A trap of context 15 that its handler takes (R380). -/
theorem trapTo_self (hb : s.me.block = none) (hv : s.me.vblocks = []) (hk : s.cur.k = 15) (hx : bit (s.sr 0x013) 22 = false)
    (hh : s.sr 0x09E ≠ 0) :
    s.trapTo cause v = s.setMe { s.me with
      sr := (((s.me.sr.put 0x010 s.upc).put 0x011 (w64 cause)).put 0x012 v).put 0x013
        (setField (xstat 0 s.ulen 0 0 0 15 false) 22 22 1)
      pc := s.sr 0x09E, held := none, retry := 0, heldUnit := none, took := true } := by
  have hp : s.inTx = false := hs
  have hd : (bit (s.sr 0x013) 22 || s.sr 0x09E == 0) = false := by rw [hx, Bool.false_or, beq_eq_false_iff_ne]; exact hh
  simp only [State.trapTo, State.trapAs, hp, Bool.false_and, Bool.false_eq_true, if_false, hk, if_true, hd,
    Ctx.cutWork_idle hb hv, State.dropBlockGate_idle hb]

/-- An unhandled event of context 15 contains its basin. -/
theorem contained_trapTo_double (hk : s.cur.k = 15) (hx : bit (s.sr 0x013) 22 = true ∨ s.sr 0x09E = 0) :
    Contained (s.basinOf s.cur.b) (s.trapTo cause v) := by
  have hp : s.inTx = false := hs
  have hd : (bit (s.sr 0x013) 22 || s.sr 0x09E == 0) = true := by rw [Bool.or_eq_true, beq_iff_eq]; exact hx
  have ht : s.trapTo cause v = (s.contain (s.basinOf s.cur.b)).modMe fun c => { c with run := .stopped } := by
    simp only [State.trapTo, State.trapAs, hp, Bool.false_and, Bool.false_eq_true, if_false, hk, if_true, hd]
  have hc : Contained (s.basinOf s.cur.b) (s.contain (s.basinOf s.cur.b)) := by
    unfold State.contain
    split
    next h => exact h
    · exact contained_closeBasin _ _
  rw [ht]
  exact hc

end

/-- Settles O43: a trap of a user context is a stop with its record, one of context 15 goes to its handler, and one that
finds no handler contains the basin. -/
theorem trapEntry : Obligations.TrapEntry := by
  unfold Obligations.TrapEntry
  intro s cause v hs hb hv hk15 hl hc
  refine ⟨fun hk hw => ?_, fun hk hx hh => ?_, fun hk hx => contained_trapTo_double cause v hs hk hx⟩
  · have hne : s.cur.key ≠ ({ s.cur with k := 15 } : Pos).key := Pos.key_ne_of_ctx (Nat.ne_of_lt hk)
    let c1 := s.me.stoppedWith s.upc cause v (xstat 0 s.ulen 0 0 0 s.cur.k false)
    let t0 := (s.setMe c1).orderAfter { s.cur with k := 15 } s.cur.k
    let e : EventRec := { cls := 1, cause := cause, val := v, xstat := xstat 1 s.ulen 0 0 0 s.cur.k false, rank := s.cur.k }
    have h15 : (t0.ctx { s.cur with k := 15 }).wait = none := by
      rw [State.wait_orderAfter, State.setMe, State.ctx_setCtx_other _ _ hne.symm]
      exact hw
    have ht : s.trapTo cause v = (t0.modRill s.cur.b s.cur.r fun x => x.postRecord e).modMe fun c => { c with left := some cause } := by
      rw [trapTo_user cause v hs hk, State.stopAt_idle hb hv]
      exact congrArg (fun t : State => t.modMe fun c => { c with left := some cause }) (post_not_waiting e h15)
    have hme : (s.trapTo cause v).ctx s.cur = { c1 with left := some cause } := by
      rw [ht]
      refine (State.me_modMe _ _).trans (congrArg (fun c : Ctx => { c with left := some cause }) ?_)
      exact (State.ctx_orderAfter_other _ _ hne).trans (State.me_setMe s c1)
    have hcur : (s.trapTo cause v).cur = s.cur := by rw [ht]; rfl
    have hsr : ∀ n, (s.trapTo cause v).srAt s.cur n = c1.sr.get (if n = 0x022 then 0x6A09E667 else srStart n s.cur.k 0) n :=
      fun n => by rw [State.srAt, hme]
    simp only [State.me, hcur, hme, hsr]
    refine ⟨rfl, rfl, ?_, ?_, ?_, ?_, ?_, fun n hn => Ctx.stoppedWith_sr_other _ _ _ _ _ _ hn, fun r => ?_, fun q => rfl, rfl, rfl, ?_, e, ?_, rfl,
      rfl, rfl, field_xstat_ctx _ (by omega)⟩
    · simp [c1, Ctx.stoppedWith, Table.get_put]
    · simp [c1, Ctx.stoppedWith, Table.get_put]
    · simp [c1, Ctx.stoppedWith, Table.get_put]
    · simp [c1, Ctx.stoppedWith, field_xstat_len hl (Nat.lt_of_le_of_lt hk15 (by norm_num : 15 < 16))]
    · simp [c1, Ctx.stoppedWith, field_xstat_ctx false (Nat.lt_of_le_of_lt hk15 (by norm_num : 15 < 16))]
    · exact Ctx.reg_congr rfl rfl rfl r
    · intro a
      rw [ht]
      rfl
    · have hr : (s.trapTo cause v).rill s.cur.b s.cur.r = (t0.rill s.cur.b s.cur.r).postRecord e := by
        rw [ht]
        exact State.rill_modRill t0 s.cur.b s.cur.r fun x => x.postRecord e
      rw [hr]
      exact mem_postRecord _ e
  · have ht := trapTo_self cause v hs hb hv hk hx hh
    have hme := congrArg State.me ht
    rw [State.me_setMe] at hme
    have hsr : ∀ n, (s.trapTo cause v).srAt s.cur n
        = ((s.trapTo cause v).me).sr.get (if n = 0x022 then 0x6A09E667 else srStart n s.cur.k 0) n := by
      rw [ht]
      exact fun n => rfl
    refine ⟨by rw [OnlyMe, hme]; exact ht, ?_⟩
    simp only [hsr, hme]
    refine ⟨trivial, trivial, ?_, ?_, ?_, ?_, fun n hn => ?_, fun r => Ctx.reg_congr rfl rfl rfl r⟩
    · simp [Table.get_put]
    · simp [Table.get_put]
    · simp [Table.get_put]
    · simp [bit_setField_same]
    · exact Ctx.stoppedWith_sr_other s.me s.upc cause v _ _ hn

end Sys2Proof.Machine
end

section
/-! PROOFS. SYS, TRAP, ERET, EVWAIT and the watchdog (R378, R379, R108, R382, R383). -/

namespace Sys2Proof.Machine

theorem State.ctx_advance_other (s : State) {p : Pos} (h : p.key ≠ s.cur.key) : s.advance.ctx p = s.ctx p :=
  State.ctx_setCtx_other s _ h

/-! ### Return from a self-trap of context 15 (R379) -/

section
variable {s : State} (hs : s.plain) (hk : s.cur.k = 15)
include hs hk

theorem exec_eret_self : exec (.eret 0) s = checkTarget s (s.sr 0x010) (.next (s.selfReturn false)) := by
  change eret s false 0 = _
  rw [eret, outsideTx_plain hs, supervisorOnly_context15 hk, if_pos rfl, State.selfTarget, if_neg Bool.false_ne_true]
  exact congrArg (fun t => checkTarget s t _) (BitVec.add_zero _)

theorem exec_eretN_self :
    exec (.eretN 0) s = checkTarget s (s.sr 0x010 + w64 (2 * field (s.sr 0x013) 27 24)) (.next (s.selfReturn true)) := by
  change eret s true 0 = _
  rw [eret, outsideTx_plain hs, supervisorOnly_context15 hk, if_pos rfl]
  rfl

end

theorem selfReturn_jump (s : State) (skip : Bool) {t : Word} (h : s.selfTarget skip = t) :
    s.selfReturn skip = (s.setSr s.cur 0x013 (setField (s.sr 0x013) 22 22 0)).jump t := by rw [← h]; rfl

/-- A return from a self-trap goes to its target, which is checked as that of a jump is (R38). -/
theorem checkTarget_selfReturn {s : State} {t : Word} {skip : Bool} (h : s.selfTarget skip = t) {r : Res}
    (hr : r = checkTarget s t (.next (s.selfReturn skip))) :
    (goodTarget t → r = .next ((s.setSr s.cur 0x013 (setField (s.sr 0x013) 22 22 0)).jump t))
    ∧ (bit t 0 = true → r = .next (s.trapTo 0x06 t))
    ∧ (bit t 0 = false → field t 63 56 ≠ 0 → r = .next (s.trapTo 0x09 t))
    ∧ (bit t 0 = false → field t 63 56 = 0 → bit t 55 = true → r = .next (s.trapTo 0x0A t)) := by
  refine ⟨fun hg => ?_, fun h0 => ?_, fun h0 h1 => ?_, fun h0 h1 h2 => ?_⟩
  · rw [hr, checkTarget_good _ hg, selfReturn_jump s skip h]
  · rw [hr, checkTarget_odd _ h0]
  · rw [hr, checkTarget_beyond _ h0 h1]
  · rw [hr, checkTarget_local _ h0 h1 h2]

/-! ### Return of a stopped context (R379) -/

/-- The state in which a return finds the stopped context: ERET_N has moved its XPC past the unit. -/
def State.returnPoint (s : State) (skip : Bool) (p : Pos) : State :=
  if skip then s.setSr p 0x010 (pcBits (s.srAt p 0x010 + w64 (2 * field (s.srAt p 0x013) 27 24))) else s

/-- ERET or ERET_N of context k, which register a names. -/
theorem eret_other {s : State} {a : BitVec 5} (hs : s.plain) (hk : s.cur.k = 15) (skip : Bool) (ha : a ≠ 0) (hc : s.clean a) {p : Pos}
    (hp : p = { s.cur with k := field (s.val a) 3 0 }) :
    eret s skip a = if p.k = 15 || (s.ctx p).run != .stopped then targetTrap s p.k
      else .next (((s.returnPoint skip p).resumeAt p).advance) := by
  subst hp
  rw [eret, outsideTx_plain hs, supervisorOnly_context15 hk, if_neg ha, withControl_of_clean _ hc]
  rfl

section
variable {s : State} {p : Pos}

theorem State.resume_ctx (s : State) (p : Pos) : (s.resume p).ctx p = { s.ctx p with
    run := .running, pc := (s.ctx p).sr.get 0 0x010, startAt := s.cycle + 4, lastIssue := s.cycle, triedAt := 0
    after := ((s.resume p).ctx p).after } := by
  rw [State.resume, State.orderAfter, State.addEdges, State.ctx_modCtx, State.ctx_modCtx]

theorem State.ctx_resume_other (s : State) {q : Pos} (h : q.key ≠ p.key) : (s.resume p).ctx q = s.ctx q := by
  rw [State.resume, State.ctx_orderAfter_other _ _ h, State.ctx_modCtx_other _ _ h]

/-- A wait that goes on changes nothing but the wait. -/
theorem Ctx.rewait_eq (c : Ctx) (now : Nat) : c.rewait now = { c with wait := (c.rewait now).wait } := by
  unfold Ctx.rewait
  split <;> rfl

/-- A thread outside a group returns alone. -/
theorem State.returnLane_alone (h : s.groupOf p = none) : s.returnLane p = s := by
  simp only [State.returnLane, h]

/-- A context of a braid that a CMIG names is paused until the CMIG has ended (R424, R425). -/
theorem State.holdForMove_moving (hm : (s.braid p.b).moving = true) (hk : p.k ≠ 15) :
    s.holdForMove p = s.modCtx p fun c => { c with run := .paused } := by
  simp [State.holdForMove, hm, hk]

theorem State.holdForMove_still (hm : (s.braid p.b).moving = false) : s.holdForMove p = s := by
  simp [State.holdForMove, hm]

theorem State.resumeAt_moving (hg : s.groupOf p = none) (hm : (s.braid p.b).moving = true) (hk : p.k ≠ 15) :
    s.resumeAt p = (s.resume p).modCtx p fun c => { c with run := .paused } := by
  have h1 : ((s.resume p).modCtx p id).returnLane p = (s.resume p).modCtx p id := State.returnLane_alone hg
  have h2 := State.holdForMove_moving (s := (s.resume p).modCtx p id) hm hk
  unfold State.resumeAt
  simp only [hm, if_true]
  exact (congrArg (fun t : State => t.holdForMove p) h1).trans (h2.trans (State.modCtx_modCtx _ _ _ _))

theorem State.resumeAt_still (hg : s.groupOf p = none) (hm : (s.braid p.b).moving = false) :
    s.resumeAt p = (s.resume p).modCtx p fun c => c.rewait s.cycle := by
  have h1 : ((s.resume p).modCtx p fun c => c.rewait s.cycle).returnLane p = (s.resume p).modCtx p fun c => c.rewait s.cycle :=
    State.returnLane_alone hg
  have h2 := State.holdForMove_still (s := (s.resume p).modCtx p fun c => c.rewait s.cycle) hm
  unfold State.resumeAt
  simp only [hm, Bool.false_eq_true, if_false]
  exact (congrArg (fun t : State => t.holdForMove p) h1).trans h2

end

/-! ### The statements on ERET -/

section
variable {s : State} {a : BitVec 5} {p : Pos} (hs : s.plain) (hk : s.cur.k = 15) (ha : a ≠ 0) (hc : s.clean a)
  (hp : p = { s.cur with k := field (s.val a) 3 0 })
include hs hk ha hc hp

/-- A return names a context of 0 to 14 that is stopped. -/
theorem eret_refused (skip : Bool) (h : p.k = 15 ∨ (s.ctx p).run ≠ .stopped) :
    eret s skip a = .next (s.trapTo 0x05 (w64 (0x8000000000000000 + p.k))) := by
  rw [eret_other hs hk skip ha hc hp, if_pos (by simpa using h)]
  rfl

theorem eret_returns (skip : Bool) (h15 : p.k ≠ 15) (hr : (s.ctx p).run = .stopped) :
    eret s skip a = .next (((s.returnPoint skip p).resumeAt p).advance) := by
  rw [eret_other hs hk skip ha hc hp, if_neg (by simp [h15, hr])]

end

theorem Pos.key_ne_of_user {p q : Pos} {k : Nat} (hq : q.k = 15) (hp : p = { q with k := k }) (h15 : p.k ≠ 15) : p.key ≠ q.key := by
  subst hp
  exact (Pos.key_ne_of_ctx (p := q) (by rw [hq]; exact h15.symm)).symm

section
variable {s : State} {p : Pos} (hg : s.groupOf p = none) (hne : p.key ≠ s.cur.key)
include hg hne

theorem resumeAt_advance_moving (hm : (s.braid p.b).moving = true) (hk : p.k ≠ 15) :
    ((s.resumeAt p).advance.ctx p).run = .paused ∧ (s.resumeAt p).advance.me.pc = s.nextPc := by
  rw [State.resumeAt_moving hg hm hk, State.me_advance]
  exact ⟨by rw [State.ctx_advance_other _ (by exact hne), State.ctx_modCtx], rfl⟩

/-- A context that runs again stands at its XPC with the registers that it had. -/
theorem resumeAt_advance_still (hm : (s.braid p.b).moving = false) :
    ((s.resumeAt p).advance.ctx p).run = .running ∧ ((s.resumeAt p).advance.ctx p).pc = s.srAt p 0x010
      ∧ (s.resumeAt p).advance.me.pc = s.nextPc ∧ (∀ r, ((s.resumeAt p).advance.ctx p).reg r = (s.ctx p).reg r)
      ∧ SameBytes s (s.resumeAt p).advance := by
  have hc : (s.resumeAt p).advance.ctx p = ((s.resume p).ctx p).rewait s.cycle := by
    rw [State.resumeAt_still hg hm, State.ctx_advance_other _ (by exact hne), State.ctx_modCtx]
  rw [hc, Ctx.rewait_eq, State.resume_ctx, State.me_advance, State.resumeAt_still hg hm]
  exact ⟨rfl, rfl, rfl, fun r => Ctx.reg_congr rfl rfl rfl r, fun a => rfl⟩

end

/-! ### Events (R382, R383) -/

theorem exec_evwait {s : State} (d : BitVec 5) {b : BitVec 5} (hs : s.plain) (hk : s.cur.k = 15) (hb : s.clean b) :
    exec (.evwait d b) s = (match s.takeRecord s.cur.b s.cur.r with
      | some s1 => wrote (s1.modMe fun c => { c with startAt := s.cycle + 4 }) d 0 false
      | none => .next ((s.modMe fun c => { c with
          wait := some (.evwait (c.dest d) (if field (s.val b) 31 0 = 0 then 0 else s.cycle + field (s.val b) 31 0)) }).advance)) := by
  change execEvwait d b s = _
  rw [execEvwait, outsideTx_plain hs, supervisorOnly_context15 hk, withControl_of_clean _ hb] <;> rfl

/-- A record of a class above the chains is pending at once: it is of no source that another record is of. -/
theorem postRecord_above_chains (x : Rill) {e : EventRec} (h : 4 ≤ e.cls) : x.postRecord e = { x with events := x.events ++ [e] } := by
  obtain ⟨n, hn⟩ := Nat.exists_eq_add_of_le' h
  have hs : x.events.any e.sameSource = false := by simp [EventRec.sameSource, hn]
  simp [Rill.postRecord, hs, hn]

theorem watchdog_record {s : State} {b r k : Nat} (hk : k < 15) (hr : (s.ctx ⟨b, r, k⟩).run = .running)
    (hd : (s.ctx ⟨b, r, k⟩).dogged = false) (hl : field (s.rillSr b r 0x126) 31 0 ≠ 0)
    (hc : (s.ctx ⟨b, r, k⟩).lastIssue + field (s.rillSr b r 0x126) 31 0 * 1024 ≤ s.cycle) (hw : (s.ctx ⟨b, r, 15⟩).wait = none) :
    ∃ t, exec (.watchdogExpire b r k) s = .next t ∧ (t.ctx ⟨b, r, k⟩).dogged = true
      ∧ ∃ e ∈ (t.rill b r).events, e.cls = 5 ∧ e.cause = 0x22 ∧ field e.xstat 3 0 = k := by
  let e : EventRec := { cls := 5, cause := 0x22, val := s.waitsAt ⟨b, r, k⟩, xstat := xstat 5 0 0 0 0 k false, rank := k }
  let s1 := s.modCtx ⟨b, r, k⟩ fun x => { x with dogged := true }
  have hne : (⟨b, r, 15⟩ : Pos).key ≠ (⟨b, r, k⟩ : Pos).key := Pos.key_ne_of_ctx (p := ⟨b, r, 15⟩) (by dsimp only; omega)
  have hw1 : (s1.ctx ⟨b, r, 15⟩).wait = none := by rw [State.ctx_modCtx_other _ _ hne]; exact hw
  have hx : exec (.watchdogExpire b r k) s = .next (s1.modRill b r fun x => x.postRecord e) := by
    change execWatchdogExpire b r k s = _
    rw [← post_not_waiting e hw1]
    simp [execWatchdogExpire, hr, hd, hl, hc, Nat.ne_of_lt hk, s1, e]
  refine ⟨_, hx, ?_, e, ?_, rfl, rfl, field_xstat_ctx _ (by omega)⟩
  · rw [State.ctx_modRill, State.ctx_modCtx]
  · rw [State.rill_modRill, postRecord_above_chains _ (Nat.le_succ 4)]
    exact List.mem_append_right _ (List.mem_singleton.2 rfl)

/-- Settles O45: traps with their operand, returns, and events, each by the equation of its instruction. -/
theorem systemCalls : Obligations.SystemCalls := by
  unfold Obligations.SystemCalls
  intro s d a b hs ha hb
  refine ⟨?_, fun hg => ?_, fun g hg hw => ?_, fun hk => ?_, fun hk h0 => ⟨fun h => ?_, fun h15 hr hg hm => ?_, fun h15 hr hg hm => ⟨?_, ?_⟩⟩,
    fun hk => ⟨fun s1 h1 => ?_, fun h1 => ?_⟩, fun br r e dl hw hd hdl => ?_, fun br r k hk hr hd hl hc hw => watchdog_record hk hr hd hl hc hw⟩
  · change execTrap a s = _
    rw [execTrap, outsideTx_plain hs, withControl_of_clean _ ha]
    rfl
  · change execSys a s = _
    rw [execSys, outsideTx_plain hs, withControl_of_clean _ ha, hg]
    rfl
  · change execSys a s = _
    rw [execSys, outsideTx_plain hs, withControl_of_clean _ ha, hg]
    exact if_pos hw
  · simp only [List.forall_mem_cons, List.not_mem_nil, false_implies, implies_true, and_true]
    exact ⟨checkTarget_selfReturn (BitVec.add_zero _) (exec_eret_self hs hk), checkTarget_selfReturn (skip := true) rfl (exec_eretN_self hs hk)⟩
  · simp only [List.forall_mem_cons, List.not_mem_nil, false_implies, implies_true, and_true]
    exact ⟨eret_refused hs hk h0 ha rfl false h, eret_refused hs hk h0 ha rfl true h⟩
  · have hne := Pos.key_ne_of_user hk rfl h15
    simp only [List.forall_mem_cons, List.not_mem_nil, false_implies, implies_true, and_true]
    exact ⟨⟨_, eret_returns hs hk h0 ha rfl false h15 hr, resumeAt_advance_moving hg hne hm h15⟩,
      ⟨_, eret_returns hs hk h0 ha rfl true h15 hr, resumeAt_advance_moving (s := s.returnPoint true _) hg hne hm h15⟩⟩
  · exact ⟨_, eret_returns hs hk h0 ha rfl false h15 hr, resumeAt_advance_still hg (Pos.key_ne_of_user hk rfl h15) hm⟩
  · obtain ⟨h1, h2, h3, -, -⟩ := resumeAt_advance_still (s := s.returnPoint true _) hg (Pos.key_ne_of_user hk rfl h15) hm
    exact ⟨_, eret_returns hs hk h0 ha rfl true h15 hr, h1, h3, h2.trans (State.srAt_setSr _ _ _ _)⟩
  · rw [exec_evwait d hs hk hb, h1]
    rfl
  · rw [exec_evwait d hs hk hb, h1]
  · change execEvwaitTimeout br r s = _
    simp only [execEvwaitTimeout, hw, bne_iff_ne, ne_eq, hd, not_false_eq_true, hdl, decide_true, Bool.and_true, if_true]
    rfl

end Sys2Proof.Machine
end

section
/-! PROOFS. System registers: what MFS reads and MTS writes (R370 to R373, R115, R300, R326, R355, R381). -/

namespace Sys2Proof.Machine

/-! ### Registers that stand as they were written -/

/-- A register that MTS writes as it stands, and that MFS reads as it stands. -/
def srStored (n : Nat) : Prop := srReadOnly n = false ∧ n ∉ [0x050, 0x080, 0x101, 0x122, 0x125]

theorem srReadOnly_view {n : Nat} (h : srReadOnly n = false) :
    n ≠ 0x000 ∧ n ≠ 0x001 ∧ n ≠ 0x002 ∧ n ≠ 0x070 ∧ n ≠ 0x081 ∧ n ≠ 0x100 ∧ n ≠ 0x102 ∧ ¬ (0x110 ≤ n ∧ n ≤ 0x117) ∧ n ≠ 0x120
      ∧ n ≠ 0x121 ∧ n ≠ 0x123 := by
  simp only [srReadOnly, Bool.or_eq_false_iff, decide_eq_false_iff_not, beq_eq_false_iff_ne] at h
  omega

theorem State.readSr_stored (s : State) (p : Pos) {n : Nat} (h : srStored n) :
    s.readSr p n = if 0x100 ≤ n then s.rillSr p.b p.r n else s.srAt p n := by
  obtain ⟨hr, hn⟩ := h
  obtain ⟨h0, h1, h2, h3, h4, h5, h6, h7, h8, h9, h10⟩ := srReadOnly_view hr
  simp only [List.mem_cons, List.not_mem_nil, or_false, not_or] at hn
  simp only [State.readSr, h0, h1, h2, h3, h4, h5, h6, h7, h8, h9, h10, hn, if_false]

/-- The write of a register that stands as it was written: the frames that the window engine has stored are forgotten with
the area that they lie in. -/
theorem State.writeSr_stored (s : State) (p : Pos) {n : Nat} (h : srStored n) (v : Word) :
    s.writeSr p n v = if 0x100 ≤ n then s.setRillSr p.b p.r n (srMerge n (s.rillSr p.b p.r n) v)
      else (if n = 0x030 || n == 0x031 then s.modCtx p fun c => { c with frames := [] } else s).setSr p n (srMerge n (s.srAt p n) v) := by
  obtain ⟨hr, hn⟩ := h
  simp only [List.mem_cons, List.not_mem_nil, or_false, not_or] at hn
  obtain ⟨h1, h2, h3, h4, -⟩ := hn
  simp only [State.writeSr, hr, Bool.false_eq_true, if_false, h1, h2, h3, h4]
  split
  · rfl
  · split <;> rfl

/-! ### Views -/

/-- t shows what s shows in every view of a register that is no stored word: the braids and basins are those of s, of a rill
only stored registers have changed, of a context only its place, its stored registers and its stored frames. -/
structure SameViews (s t : State) : Prop where
  braids : t.braids = s.braids
  basins : t.basins = s.basins
  rill : ∀ b r, ∃ sr, t.rill b r = { s.rill b r with sr := sr }
  spill : ∀ b r, t.rillSr b r 0x122 = s.rillSr b r 0x122
  ctx : ∀ q, ∃ pc took sr frames, t.ctx q = { s.ctx q with pc := pc, took := took, sr := sr, frames := frames }

section
variable {s t : State} (h : SameViews s t)
include h

theorem SameViews.braid (b : Nat) : t.braid b = s.braid b := by rw [State.braid, State.braid, h.braids]

theorem SameViews.laneInfo (p : Pos) : t.laneInfo p = s.laneInfo p := by
  rw [State.laneInfo, State.laneInfo, State.groupOf_congr h.braids]

theorem SameViews.rqstat (p : Pos) : t.rqstat p = s.rqstat p := by
  obtain ⟨sr, hr⟩ := h.rill p.b p.r
  rw [State.rqstat, State.rqstat, hr]

theorem SameViews.state (q : Pos) : (t.ctx q).state = (s.ctx q).state := by
  obtain ⟨pc, took, sr, frames, hc⟩ := h.ctx q
  rw [hc]
  rfl

/-- Which deques are fed from where is a matter of braids and basins alone. -/
theorem SameViews.feeders (b r : Nat) : t.feeders b r = s.feeders b r := by
  have hf : ∀ u : State, u.feeders b r = ({ State.reset with braids := u.braids, basins := u.basins } : State).feeders b r := fun _ => rfl
  rw [hf t, hf s, h.braids, h.basins]

theorem SameViews.dqWaiting (b r : Nat) : t.dqWaiting b r = s.dqWaiting b r := by
  have ha : t.dqArrivals b r = s.dqArrivals b r := by
    obtain ⟨sr, hr⟩ := h.rill b r
    have hc : ∀ q, (t.ctx q).held = (s.ctx q).held ∧ (t.ctx q).triedAt = (s.ctx q).triedAt := by
      intro q
      obtain ⟨pc, took, sr, frames, hc⟩ := h.ctx q
      rw [hc]
      exact ⟨rfl, rfl⟩
    simp only [State.dqArrivals, h.feeders, hr, hc]
  have hres : t.dqReserved b r = s.dqReserved b r := by
    have hf : ∀ q, (t.ctx q).flights = (s.ctx q).flights := by
      intro q
      obtain ⟨pc, took, sr, frames, hc⟩ := h.ctx q
      rw [hc]
    have hp : ∀ b r, (t.rill b r).replay = (s.rill b r).replay := by
      intro b r
      obtain ⟨sr, hr⟩ := h.rill b r
      rw [hr]
    obtain ⟨sr, hr⟩ := h.rill b r
    have hw : (t.rill b r).dqWait = (s.rill b r).dqWait := by rw [hr]
    simp only [State.dqReserved, h.feeders, hf, hp, hw]
  have hroom : t.dqRoom b r = s.dqRoom b r := by
    obtain ⟨sr, hr⟩ := h.rill b r
    have ht : (t.rill b r).tasks = (s.rill b r).tasks := by rw [hr]; rfl
    rw [State.dqRoom, State.dqRoom, State.dqCap, State.dqCap, h.spill, hres, ht]
  have he : ∀ u, t.dqEarlier b r u = s.dqEarlier b r u := fun u => by rw [State.dqEarlier, State.dqEarlier, ha]
  rw [State.dqWaiting, State.dqWaiting, ha, hroom]
  simp only [he]

/-- A register that a stored word does not show reads as before, and one that it shows where the word is as before. -/
theorem SameViews.readSr {p : Pos} {m : Nat} (hr : 0x100 ≤ m → t.rillSr p.b p.r m = s.rillSr p.b p.r m)
    (hs : m < 0x100 → t.srAt p m = s.srAt p m) : t.readSr p m = s.readSr p m := by
  by_cases h1 : m = 0x125
  · subst h1
    have hr := hr (by norm_num)
    change t.ctxState p.b p.r = s.ctxState p.b p.r
    simp only [State.ctxState, h.braid, h.state, hr]
  by_cases h2 : m = 0x121
  · subst h2
    have hr := hr (by norm_num)
    change w64 (field (t.rillSr p.b p.r 0x121) 12 8 * 2 ^ 8 + ((t.braid p.b).mxQueue p.r).length) = _
    rw [hr, h.braid]
    rfl
  have hstored : (if 0x100 ≤ m then t.rillSr p.b p.r m else t.srAt p m) = if 0x100 ≤ m then s.rillSr p.b p.r m else s.srAt p m := by
    split
    next h3 => exact hr h3
    next h3 => exact hs (Nat.lt_of_not_le h3)
  obtain ⟨sr, hx⟩ := h.rill p.b p.r
  have htid : t.tid p = s.tid p := by rw [State.tid, State.tid, State.rillNumber, State.rillNumber, h.braid]
  have hdq : t.dqStat p.b p.r = s.dqStat p.b p.r := by rw [State.dqStat, State.dqStat, h.dqWaiting, hx]
  unfold State.readSr
  simp only [h.laneInfo, h.rqstat, h.braid, htid, hdq, hx, h1, h2, if_false, hstored]

end

theorem SameViews.refl (s : State) : SameViews s s where
  braids := rfl
  basins := rfl
  rill b r := ⟨(s.rill b r).sr, rfl⟩
  spill _ _ := rfl
  ctx _ := ⟨_, _, _, _, rfl⟩

theorem SameViews.trans {s t u : State} (h : SameViews s t) (k : SameViews t u) : SameViews s u where
  braids := k.braids.trans h.braids
  basins := k.basins.trans h.basins
  rill b r := by
    obtain ⟨x, hx⟩ := h.rill b r
    obtain ⟨y, hy⟩ := k.rill b r
    exact ⟨y, by rw [hy, hx]⟩
  spill b r := (k.spill b r).trans (h.spill b r)
  ctx q := by
    obtain ⟨p1, k1, s1, f1, h1⟩ := h.ctx q
    obtain ⟨p2, k2, s2, f2, h2⟩ := k.ctx q
    exact ⟨p2, k2, s2, f2, by rw [h2, h1]⟩

theorem State.ctx_of_key (s : State) {p q : Pos} (h : q.key = p.key) : s.ctx q = s.ctx p := by rw [State.ctx, State.ctx, h]

theorem State.rill_of_key (s : State) {b r c q : Nat} (h : rillKey c q = rillKey b r) : s.rill c q = s.rill b r := by
  rw [State.rill, State.rill, h]

theorem State.rill_modRill_other (s : State) {b r c q : Nat} (f : Rill → Rill) (h : rillKey c q ≠ rillKey b r) :
    (s.modRill b r f).rill c q = s.rill c q := Table.get_put_other _ _ _ h

theorem State.rillSr_setRillSr_other (s : State) (b r : Nat) {n m : Nat} (v : Word) (h : m ≠ n) :
    (s.setRillSr b r n v).rillSr b r m = s.rillSr b r m := by
  rw [State.rillSr, State.setRillSr, State.rill_modRill]
  exact Table.get_put_other _ _ _ h

theorem sameViews_modCtx (s : State) (p : Pos) {f : Ctx → Ctx}
    (hf : ∀ c, ∃ pc took sr frames, f c = { c with pc := pc, took := took, sr := sr, frames := frames }) : SameViews s (s.modCtx p f) where
  braids := rfl
  basins := rfl
  rill b r := ⟨(s.rill b r).sr, rfl⟩
  spill b r := rfl
  ctx q := by
    by_cases hq : q.key = p.key
    · rw [State.ctx_of_key _ hq, State.ctx_of_key _ hq, State.ctx_modCtx]
      exact hf _
    · exact ⟨_, _, _, _, State.ctx_modCtx_other s f hq⟩

theorem sameViews_advance (s : State) : SameViews s s.advance := sameViews_modCtx s s.cur fun _ => ⟨_, _, _, _, rfl⟩

theorem sameViews_setSr (s : State) (p : Pos) (n : Nat) (v : Word) : SameViews s (s.setSr p n v) :=
  sameViews_modCtx s p fun _ => ⟨_, _, _, _, rfl⟩

theorem sameViews_setRillSr (s : State) (b r : Nat) {n : Nat} (hn : n ≠ 0x122) (v : Word) : SameViews s (s.setRillSr b r n v) where
  braids := rfl
  basins := rfl
  rill c q := by
    by_cases hq : rillKey c q = rillKey b r
    · rw [State.rill_of_key _ hq, State.rill_of_key _ hq]
      exact ⟨_, State.rill_modRill s b r _⟩
    · exact ⟨_, State.rill_modRill_other s _ hq⟩
  spill c q := by
    by_cases hq : rillKey c q = rillKey b r
    · rw [State.rillSr, State.rillSr, State.rill_of_key _ hq, State.rill_of_key _ hq]
      exact State.rillSr_setRillSr_other s b r v hn.symm
    · exact congrArg (fun x : Rill => x.sr.get (rillSrReset 0x122) 0x122) (State.rill_modRill_other s _ hq)
  ctx q := ⟨_, _, _, _, rfl⟩

/-! ### The mask of a write -/

/-- The bits of a number without those of another. -/
theorem testBit_maskMinus (x y i : Nat) : (maskMinus x y).testBit i = (x.testBit i && !y.testBit i) := by
  induction i generalizing x y with
  | zero =>
    have h := @Nat.and_mod_two_pow x y 1
    have hle := Nat.and_le_left (n := x) (m := y)
    rcases Nat.mod_two_eq_zero_or_one x with hx | hx <;> rcases Nat.mod_two_eq_zero_or_one y with hy | hy <;>
      simp only [pow_one, hx, hy, Nat.zero_and, Nat.and_zero, Nat.and_self] at h <;>
      (simp [maskMinus, hx, hy]; omega)
  | succ i ih =>
    have hd := @Nat.and_div_two x y
    have hm := @Nat.and_mod_two_pow x y 1
    have hle := Nat.and_le_left (n := x) (m := y)
    have hle2 := Nat.and_le_left (n := x % 2) (m := y % 2)
    have hhalf : maskMinus x y / 2 = maskMinus (x / 2) (y / 2) := by
      simp only [pow_one] at hm
      unfold maskMinus
      omega
    rw [Nat.testBit_succ, hhalf, ih, Nat.testBit_succ, Nat.testBit_succ]

/-- A write of CTXSTATE takes its enable bits (R381). -/
theorem field_srMerge_enables (old v : Word) : field (srMerge 0x125 old v) 46 32 = field v 46 32 := by
  have hm : ∀ i < 15, Nat.testBit 0x7FFF00000000 (32 + i) = true := by decide
  have hx : srMerge 0x125 old v = w64 ((v.toNat &&& 0x7FFF00000000) ||| maskMinus old.toNat 0x7FFF00000000) := by
    simp [srMerge, srLegal, srMask]
  refine Nat.eq_of_testBit_eq fun i => ?_
  rw [testBit_field, testBit_field, hx]
  by_cases hi : i < 15
  · have h64 : 32 + i < 64 := by omega
    rw [w64, BitVec.toNat_ofNat, Nat.testBit_mod_two_pow, Nat.testBit_or, Nat.testBit_and, testBit_maskMinus, hm i hi]
    simp [hi, h64]
  · simp [hi]

theorem sumOf_append (xs : List Nat) (x : Nat) : sumOf (xs ++ [x]) = sumOf xs + x := by simp [sumOf]

/-- The states of 16 contexts fit in 32 bits. -/
theorem sumOf_digits_lt {f : Nat → Nat} (hf : ∀ k, f k < 4) (n : Nat) : sumOf ((List.range n).map fun k => f k * 4 ^ k) < 4 ^ n := by
  induction n with
  | zero => simp [sumOf]
  | succ n ih =>
    rw [List.range_succ, List.map_append, List.map_singleton, sumOf_append, pow_succ]
    have := Nat.mul_le_mul_right (4 ^ n) (Nat.le_of_lt_succ (hf n))
    omega

theorem Ctx.state_lt (c : Ctx) : c.state < 4 := by
  unfold Ctx.state
  split
  case h_2 => split <;> decide
  all_goals decide

/-- CTXSTATE shows the enables of its rill above the states of its contexts. -/
theorem State.ctxState_parts (s : State) (b r : Nat) : ∃ x < 2 ^ 32, s.ctxState b r = w64 (field (s.rillSr b r 0x125) 46 32 * 2 ^ 32 + x)
    ∧ ∀ t : State, t.braids = s.braids → (∀ k, (t.ctx ⟨b, r, k⟩).state = (s.ctx ⟨b, r, k⟩).state) →
        t.ctxState b r = w64 (field (t.rillSr b r 0x125) 46 32 * 2 ^ 32 + x) := by
  refine ⟨_, ?_, rfl, fun t hb hc => ?_⟩
  · refine sumOf_digits_lt (fun k => ?_) 16
    split
    · split <;> decide
    · exact Ctx.state_lt _
  · rw [State.ctxState]
    simp only [hc, State.braid, hb]
    rfl

theorem field_joined {a x : Nat} (ha : a < 2 ^ 15) (hx : x < 2 ^ 32) :
    field (w64 (a * 2 ^ 32 + x)) 46 32 = a ∧ field (w64 (a * 2 ^ 32 + x)) 31 0 = x := by
  simp only [field, w64, BitVec.toNat_ofNat]
  omega

/-! ### The writes of MTS -/

theorem State.srAt_advance (s : State) (p : Pos) (n : Nat) : s.advance.srAt p n = s.srAt p n := by
  have h : (s.advance.ctx p).sr = (s.ctx p).sr := by
    by_cases hp : p.key = s.cur.key
    · rw [State.ctx_of_key _ hp, State.ctx_of_key s hp]
      change s.advance.me.sr = s.me.sr
      rw [State.me_advance]
    · rw [State.ctx_advance_other s hp]
  rw [State.srAt, State.srAt, h]

theorem State.writeSr_cur (s : State) (p : Pos) (n : Nat) (v : Word) : (s.writeSr p n v).cur = s.cur := by
  unfold State.writeSr
  repeat' split
  all_goals rfl

theorem State.writeSr_nextPc (s : State) (p : Pos) (n : Nat) (v : Word) : (s.writeSr p n v).nextPc = s.nextPc := by
  unfold State.writeSr
  repeat' split
  all_goals rfl

theorem pc_after_writeSr (s : State) (p : Pos) (n : Nat) (v : Word) : (s.writeSr p n v).advance.me.pc = s.nextPc := by
  rw [State.me_advance]
  exact State.writeSr_nextPc s p n v

theorem sameBytes_writeSr (s : State) (p : Pos) (n : Nat) (v : Word) : SameBytes s (s.writeSr p n v).advance := by
  intro a
  rw [State.advance_mem, State.writeSr_mem]

/-- A stored register reads as it was written, and every other register as before. -/
theorem readSr_after_writeSr (s : State) (p : Pos) {n : Nat} (h : srStored n) (v : Word) :
    (s.writeSr p n v).advance.readSr p n = srMerge n (s.readSr p n) v
      ∧ ∀ m, m ≠ n → (s.writeSr p n v).advance.readSr p m = s.readSr p m := by
  have hn : n ≠ 0x122 := fun e => h.2 (by simp [e])
  rw [State.readSr_stored _ p h, State.readSr_stored s p h, State.writeSr_stored s p h]
  by_cases hh : 0x100 ≤ n
  · simp only [hh, if_true]
    refine ⟨State.rillSr_setRillSr _ _ _ _ _, fun m hm => ?_⟩
    refine ((sameViews_setRillSr s p.b p.r hn _).trans (sameViews_advance _)).readSr (fun _ => ?_) (fun _ => ?_)
    · exact State.rillSr_setRillSr_other s p.b p.r _ hm
    · exact State.srAt_advance _ _ _
  · simp only [hh, if_false]
    generalize hu : (if n = 0x030 || n == 0x031 then s.modCtx p fun c => { c with frames := [] } else s) = u
    have hviews : SameViews s u ∧ u.rills = s.rills ∧ ∀ m, u.srAt p m = s.srAt p m := by
      split at hu <;> subst hu
      · exact ⟨sameViews_modCtx s p fun _ => ⟨_, _, _, _, rfl⟩, rfl, fun m => by rw [State.srAt, State.ctx_modCtx]; rfl⟩
      · exact ⟨.refl s, rfl, fun m => rfl⟩
    obtain ⟨hv, hrills, hsr⟩ := hviews
    refine ⟨?_, fun m hm => ?_⟩
    · rw [State.srAt_advance, State.srAt_setSr]
    · refine (hv.trans ((sameViews_setSr u p n _).trans (sameViews_advance _))).readSr (fun _ => ?_) (fun _ => ?_)
      · exact congrArg (fun x : Table Rill => (x.get {} (rillKey p.b p.r)).sr.get (rillSrReset m) m) hrills
      · rw [State.srAt_advance, State.srAt_setSr_other _ _ _ hm, hsr]

/-! ### MFS and MTS (R370, R371) -/

section
variable {s : State} {d k a y : BitVec 5} {x : BitVec 3} {z : BitVec 4}

theorem srSelectorOk_zero {n : Nat} (h : srAssigned n = true) : srSelectorOk 0 n = true := by simp [srSelectorOk, h]

theorem exec_mfs_own (hn : srAssigned (srNumber x y z) = true) (hw : s.srWaits s.cur (srNumber x y z) = false) :
    exec (.mfs d 0 y x z) s = .next (s.put d (s.readSr s.cur (srNumber x y z)) false) := by
  change execMfs d 0 y x z s = _
  simp only [execMfs, hn, srSelectorOk_zero hn, hw, Bool.not_true, Bool.or_self, Bool.false_eq_true, if_false, if_true]
  rfl

section
variable (hn : srAssigned (srNumber x y z) = true) (hk : srSelectorOk k (srNumber x y z) = true) (h0 : k ≠ 0)
include hn hk h0

theorem exec_mfs_selector : exec (.mfs d k y x z) s = supervisorOnly s (withControl s k fun v =>
    let p : Pos := { s.cur with k := field v 3 0 }
    if s.srWaits p (srNumber x y z) then parked s .sequencer else wrote s d (s.readSr p (srNumber x y z)) false) := by
  change execMfs d k y x z s = _
  simp only [execMfs, hn, hk, h0, Bool.not_true, Bool.or_self, Bool.false_eq_true, if_false]

theorem exec_mts_selector (hs : s.plain) : exec (.mts k a y x z) s = supervisorOnly s (withControls s a k fun v w =>
    mtsOn s { s.cur with k := field w 3 0 } (srNumber x y z) v) := by
  change execMts k a y x z s = _
  rw [execMts, outsideTx_plain hs]
  simp only [hn, hk, h0, Bool.not_true, Bool.or_self, Bool.false_eq_true, if_false]

end

theorem mtsOn_idle {p : Pos} {n : Nat} (v : Word) (hp : p = s.cur ∨ (s.ctx p).run = .stopped ∨ (s.ctx p).run = .empty)
    (hw : s.srWaits p n = false) : mtsOn s p n v = .next ((s.writeSr p n v).advance) := by
  have hc : (p != s.cur && ((s.ctx p).state == 1 || (s.ctx p).state == 2)) = false := by
    rcases hp with h | h | h <;> simp [Ctx.state, h]
  rw [mtsOn, hc, hw]
  rfl

/-- A context that runs is not taken. -/
theorem mtsOn_running {p : Pos} (n : Nat) (v : Word) (hp : p ≠ s.cur) (hr : (s.ctx p).run = .running) :
    mtsOn s p n v = .next (s.trapTo 0x05 (w64 (0x8000000000000000 + p.k))) := by
  have hc : (p != s.cur && ((s.ctx p).state == 1 || (s.ctx p).state == 2)) = true := by
    by_cases hb : (s.ctx p).stopBy = 0 <;> simp [Ctx.state, hp, hr, hb]
  rw [mtsOn, hc]
  rfl

theorem exec_mts_own (hn : srAssigned (srNumber x y z) = true) (hs : s.plain) : exec (.mts 0 a y x z) s
    = if srPrivileged (srNumber x y z) && s.cur.k != 15 then trapped s 0x05 s.uw
      else withControl s a fun v => mtsOn s s.cur (srNumber x y z) v := by
  change execMts 0 a y x z s = _
  rw [execMts, outsideTx_plain hs]
  simp only [hn, srSelectorOk_zero hn, Bool.not_true, Bool.or_self, Bool.false_eq_true, if_false, if_true]

theorem exec_mts_writes (hn : srAssigned (srNumber x y z) = true) (hs : s.plain) (ha : s.clean a)
    (hw : s.srWaits s.cur (srNumber x y z) = false) (hp : srPrivileged (srNumber x y z) = false ∨ s.cur.k = 15) :
    exec (.mts 0 a y x z) s = .next ((s.writeSr s.cur (srNumber x y z) (s.val a)).advance) := by
  have hc : (srPrivileged (srNumber x y z) && s.cur.k != 15) = false := by rcases hp with h | h <;> simp [h]
  rw [exec_mts_own hn hs, hc, if_neg Bool.false_ne_true, withControl_of_clean _ ha, mtsOn_idle _ (.inl rfl) hw]

end

/-! ### Registers of which MTS writes a part -/

section
variable (s : State) (v : Word)

theorem State.sr_after_writeSr (n : Nat) : (s.writeSr s.cur n v).advance.sr n = (s.writeSr s.cur n v).srAt s.cur n := by
  rw [State.sr, State.srAt_advance, State.advance_cur, State.writeSr_cur]

/-- TXSTAT: ABORTREQ alone can change (R326). -/
theorem writeSr_txstat : let t := (s.writeSr s.cur 0x050 v).advance
    bit (t.sr 0x050) 31 = (bit v 31 && s.me.tx.isSome) ∧ field (t.sr 0x050) 30 0 = field (s.sr 0x050) 30 0
      ∧ field (t.sr 0x050) 63 32 = field (s.sr 0x050) 63 32 := by
  intro t
  have ht : t.sr 0x050 = setField (s.sr 0x050) 31 31 (if bit v 31 && s.me.tx.isSome then 1 else 0) :=
    (State.sr_after_writeSr s v _).trans (State.srAt_setSr _ _ _ _)
  rw [ht, bit_setField_same (by norm_num), field_setField_disjoint le_rfl (by norm_num) (by norm_num),
    field_setField_disjoint le_rfl (by norm_num) (by norm_num)]
  exact ⟨by split <;> simp_all, rfl, rfl⟩

/-- MONSTAT: WAKE alone can change (R300). -/
theorem writeSr_monstat : let t := (s.writeSr s.cur 0x080 v).advance
    bit (t.sr 0x080) 9 = bit v 9 ∧ field (t.sr 0x080) 8 0 = field (s.sr 0x080) 8 0
      ∧ field (t.sr 0x080) 63 10 = field (s.sr 0x080) 63 10 := by
  intro t
  have ht : t.sr 0x080 = setField (s.sr 0x080) 9 9 (if bit v 9 then 1 else 0) :=
    (State.sr_after_writeSr s v _).trans (State.srAt_setSr _ _ _ _)
  rw [ht, bit_setField_same (by norm_num), field_setField_disjoint le_rfl (by norm_num) (by norm_num),
    field_setField_disjoint le_rfl (by norm_num) (by norm_num)]
  exact ⟨by split <;> simp_all, rfl, rfl⟩

theorem State.braid_cacheMode (b : Nat) (m : Bool) : (s.cacheMode b m).braid b = if (s.braid b).shared == m then s.braid b
    else if (s.braid b).busy then { s.braid b with shared := m, modeQueue := (s.braid b).modeQueue ++ [m] }
    else { s.braid b with shared := m, busy := true } := by
  rw [State.cacheMode, State.braid_modBraid]

/-- BMODE: the braid asks for a switch where the mode changes (R115). -/
theorem writeSr_bmode : let t := (s.writeSr s.cur 0x101 v).advance
    (t.braid s.cur.b).shared = bit v 0 ∧ ((s.braid s.cur.b).shared ≠ bit v 0 → (t.braid s.cur.b).busy = true) := by
  intro t
  have ht : t.braid s.cur.b = (s.cacheMode s.cur.b (bit v 0)).braid s.cur.b := rfl
  rw [ht, State.braid_cacheMode]
  split
  next h => exact ⟨beq_iff_eq.1 h, fun hn => absurd (beq_iff_eq.1 h) hn⟩
  · split
    next hb => exact ⟨rfl, fun _ => hb⟩
    · exact ⟨rfl, fun _ => rfl⟩

/-- DQSPILL waits until nothing is spilled (R355). -/
theorem writeSr_dqspill : let t := (s.writeSr s.cur 0x122 v).advance
    t.readSr s.cur 0x122 = s.readSr s.cur 0x122 ∧ t.myRill.dqSpillNext = some (w64 (v.toNat &&& 0xFFF0003FFE0)) := by
  intro t
  have ht := State.rill_modRill s s.cur.b s.cur.r fun x => { x with dqSpillNext := some (srMerge 0x122 0 v) }
  refine ⟨?_, (congrArg Rill.dqSpillNext ht).trans (congrArg some ?_)⟩
  · have hsr := congrArg Rill.sr ht
    exact congrArg (fun x : Table Word => x.get (rillSrReset 0x122) 0x122) hsr
  · simp [srMerge, srLegal, srMask, maskMinus]

/-- CTXSTATE: the enables alone can change (R381). -/
theorem writeSr_ctxstate : let t := (s.writeSr s.cur 0x125 v).advance
    field (t.readSr s.cur 0x125) 46 32 = field v 46 32 ∧ field (t.readSr s.cur 0x125) 31 0 = field (s.readSr s.cur 0x125) 31 0 := by
  intro t
  have hv : SameViews s t := (sameViews_setRillSr s s.cur.b s.cur.r (by norm_num) _).trans (sameViews_advance _)
  have hr : t.rillSr s.cur.b s.cur.r 0x125 = srMerge 0x125 (s.rillSr s.cur.b s.cur.r 0x125) v :=
    State.rillSr_setRillSr s s.cur.b s.cur.r 0x125 _
  obtain ⟨x, hx, hs, ht⟩ := State.ctxState_parts s s.cur.b s.cur.r
  have ht := ht t hv.braids fun k => hv.state _
  have hlt : ∀ y : Word, field y 46 32 < 2 ^ 15 := fun y => Nat.mod_lt _ (by norm_num)
  change field (t.ctxState s.cur.b s.cur.r) 46 32 = _ ∧ field (t.ctxState s.cur.b s.cur.r) 31 0 = field (s.ctxState s.cur.b s.cur.r) 31 0
  rw [ht, hs, (field_joined (hlt _) hx).1, (field_joined (hlt _) hx).2, (field_joined (hlt _) hx).2, hr, field_srMerge_enables]
  exact ⟨rfl, rfl⟩

end

/-- Settles O42: reads, privilege, and the writes of stored and of partly written registers. -/
theorem systemRegisters : Obligations.SystemRegisters := by
  unfold Obligations.SystemRegisters
  intro s d k a y x z n hn
  refine ⟨exec_mfs_own hn, fun hk h0 hu => ⟨?_, fun hs => ?_⟩, ?_, fun hs ha hw => ⟨fun hp hu => ?_, fun hr h15 => ?_, fun hp hr hm => ?_, fun hp hm => ?_⟩⟩
  · rw [exec_mfs_selector hn hk h0, supervisorOnly_user hu]
  · rw [exec_mts_selector hn hk h0 hs, supervisorOnly_user hu]
  · intro hk h0 h15 hc p hw
    refine ⟨?_, fun hs ha hp => ?_, fun hs ha hp hr => ?_⟩
    · rw [exec_mfs_selector hn hk h0, supervisorOnly_context15 h15, withControl_of_clean _ hc]
      exact if_neg (ne_true_of_eq_false hw)
    · rw [exec_mts_selector hn hk h0 hs, supervisorOnly_context15 h15, withControls_of_clean _ ha hc]
      exact mtsOn_idle _ hp hw
    · rw [exec_mts_selector hn hk h0 hs, supervisorOnly_context15 h15, withControls_of_clean _ ha hc]
      exact mtsOn_running _ _ hp hr
  · rw [exec_mts_own hn hs]
    exact if_pos (by rw [Bool.and_eq_true, bne_iff_ne]; exact ⟨hp, Nat.ne_of_lt hu⟩)
  · rw [exec_mts_writes hn hs ha hw (.inr h15), show s.writeSr s.cur (srNumber x y z) (s.val a) = s from if_pos hr]
  · obtain ⟨h1, h2⟩ := readSr_after_writeSr s s.cur ⟨hr, hm⟩ (s.val a)
    exact ⟨_, exec_mts_writes hn hs ha hw hp, pc_after_writeSr _ _ _ _, sameBytes_writeSr _ _ _ _, h1, h2⟩
  · refine ⟨_, exec_mts_writes hn hs ha hw hp, pc_after_writeSr _ _ _ _, sameBytes_writeSr _ _ _ _, fun h => ?_, fun h => ?_, fun h => ?_,
      fun h => ?_, fun h => ?_⟩ <;> simp only [n, show srNumber x y z = _ from h]
    · exact writeSr_txstat s _
    · exact writeSr_monstat s _
    · exact writeSr_bmode s _
    · exact writeSr_dqspill s _
    · exact writeSr_ctxstate s _

end Sys2Proof.Machine
end

section
/-! PROOFS. Work-creation instructions and deques (R308, R353 to R363, R413). -/

namespace Sys2Proof.Machine

/-! ### Loop nests (R360 to R363) -/

section
variable {s : State} (hs : s.plain)
include hs

theorem exec_ixmov (n : BitVec 2) (d : BitVec 5) (l : BitVec 4) :
    exec (.ixmov n d l) s = .next (s.put d (s.me.ixReg n.toNat).val (s.me.ixReg n.toNat).poison) := by
  change execIxmov n d l s = _
  rw [execIxmov, outsideTx_plain hs]
  rfl

theorem exec_nest {k : BitVec 3} (l : BitVec 4) {ws : List Word}
    (h : (s.me.oxBlock k.toNat 3).all (fun x => x.full && !x.poison) = true) (hw : ws = (s.me.oxBlock k.toNat 3).map fun x => x.val) :
    exec (.nest k l) s = if field (ws.getD 0 0) 5 0 != 0 then trapped s 0x06 (ws.getD 0 0)
      else if bit (ws.getD 0 0) 55 then trapped s 0x0A (ws.getD 0 0)
      else if field (ws.getD 2 0) 63 32 != 0 then trapped s 0x02 s.uw
      else .next ((s.modMe fun c => { c with
        nest := some { seq := c.seq, line := ws.getD 0 0, extents := ws.getD 1 0, parts := ws.getD 2 0 } }).advance) := by
  change execNest k l s = _
  rw [execNest, outsideTx_plain hs, withOx_clean _ h, ← hw]

theorem exec_iter_none (sx : BitVec 5) (l : BitVec 4) (hn : s.me.nest = none) :
    exec (.iter sx l) s = .next ((s.modMe fun c => { c with lastIter := c.seq }).put sx 0 false) := by
  change execIter sx l s = _
  rw [execIter, outsideTx_plain hs, hn]
  rfl

theorem exec_iter_some (sx : BitVec 5) (l : BitVec 4) {x : Nest} (hn : s.me.nest = some x)
    (hf : addressFault x.line 8 false true = none) :
    exec (.iter sx l) s = issueAll s [s.me.dest sx] none
      [{ id := 0, seq := 0, kind := .ticket, va := x.line, size := 8, data := 1, dst := s.me.dest sx
         ext := [x.line, x.extents, x.parts] }] fun c => { c with lastIter := s.me.seq } := by
  change execIter sx l s = _
  rw [execIter, outsideTx_plain hs, hn]
  exact withAddress_ok _ _ hf

/-- ITNEXT without a current chunk, or at its end, gives 0. -/
theorem exec_itnext_empty (sx : BitVec 5) (l : BitVec 4) (hp : s.ticketPending = false)
    (hn : ∀ x, s.me.nest = some x → x.current = false ∨ x.size ≤ x.unpacked) : exec (.itnext sx l) s = .next (s.put sx 0 false) := by
  change execItnext sx l s = _
  rw [execItnext, outsideTx_plain hs, hp, if_neg Bool.false_ne_true]
  split
  next x hx =>
    have hc : (x.current && decide (x.unpacked < x.size)) = false := by
      rcases hn x hx with h | h
      · rw [h, Bool.false_and]
      · rw [decide_eq_false (Nat.not_lt.2 h), Bool.and_false]
    rw [hc]
    rfl
  · rfl

/-- The index registers that ITNEXT writes. -/
def Nest.unpackInto (x : Nest) (ix : Table Cell) : Table Cell :=
  (List.range 4).foldl (fun t i => t.put i ({ val := w64 ((x.indices (x.start + x.unpacked)).getD i 0), poison := x.poison } : Cell)) ix

theorem exec_itnext_next (sx : BitVec 5) (l : BitVec 4) {x : Nest} (hp : s.ticketPending = false) (hn : s.me.nest = some x)
    (hc : x.current = true) (hu : x.unpacked < x.size) :
    exec (.itnext sx l) s = .next ((s.modMe fun c => { c with
      nest := some { x with unpacked := x.unpacked + 1 }, ix := x.unpackInto c.ix }).put sx 1 x.poison) := by
  change execItnext sx l s = _
  rw [execItnext, outsideTx_plain hs, hp, if_neg Bool.false_ne_true, hn]
  simp only [hc, decide_eq_true hu, Bool.and_self, if_true]
  rfl

end

theorem Nest.get_unpackInto (x : Nest) (ix : Table Cell) {i : Nat} (h : i < 4) :
    (x.unpackInto ix).get {} i = { val := w64 ((x.indices (x.start + x.unpacked)).getD i 0), poison := x.poison } := by
  have h4 : List.range 4 = [0, 1, 2, 3] := rfl
  obtain rfl | rfl | rfl | rfl : i = 0 ∨ i = 1 ∨ i = 2 ∨ i = 3 := by omega
  all_goals simp only [Nest.unpackInto, h4, List.foldl_cons, List.foldl_nil, Table.get_put]; rfl

theorem State.me_put (s : State) (d : BitVec 5) (v : Word) (p : Bool) :
    (s.put d v p).me = { s.me.setReg d v p with pc := s.nextPc, took := false } := by
  rw [State.put, State.me_advance, State.me_modMe]
  rfl

theorem Ctx.setReg_nest (c : Ctx) (r : BitVec 5) (v : Word) (p : Bool) : (c.setReg r v p).nest = c.nest := by
  unfold Ctx.setReg
  cases c.dest r <;> rfl

/-! ### Tasks (R356, R357, R359) -/

theorem Ctx.reg_emptyOx (c : Ctx) (n m id : Nat) (r : BitVec 5) : (c.emptyOx n m id).reg r = c.reg r := by
  induction m with
  | zero => rfl
  | succ m ih =>
    rw [Ctx.emptyOx_succ]
    have h : ((c.emptyOx n m id).setEmpty (.ox (n + m)) id).reg r = (c.emptyOx n m id).reg r :=
      Ctx.reg_congr (c := c.emptyOx n m id) (d := (c.emptyOx n m id).setEmpty (.ox (n + m)) id) rfl rfl rfl r
    exact h.trans ih

theorem State.rill_advance (s : State) (b r : Nat) : s.advance.rill b r = s.rill b r := rfl

theorem State.rill_modMe (s : State) (f : Ctx → Ctx) (b r : Nat) : (s.modMe f).rill b r = s.rill b r := rfl

theorem State.myRill_modMyRill (s : State) (f : Rill → Rill) : (s.modMyRill f).myRill = f s.myRill := State.rill_modRill s _ _ f

theorem State.myRill_advance (s : State) : s.advance.myRill = s.myRill := rfl

theorem exec_take (s : State) (sx : BitVec 5) (k : BitVec 3) (l : BitVec 4) :
    ∀ i ∈ [(.take sx k l : Instr), .takeL sx k l], ∃ kind, exec i s = take s kind sx k := by
  simp only [List.forall_mem_cons, List.not_mem_nil, false_implies, implies_true, and_true]
  exact ⟨⟨0, rfl⟩, ⟨1, rfl⟩⟩

section
variable {s : State} (hs : s.plain)
include hs

/-- A TAKE leaves its s and its ox block empty and its operation at the rill. -/
theorem take_asks (kind : Nat) (sx : BitVec 5) (k : BitVec 3) : ∃ t, take s kind sx k = .next t ∧ t.me.pc = s.nextPc
    ∧ (∀ j < 4, (t.me.oxReg (k.toNat + j)).full = false) ∧ (sx ≠ 0 → (t.me.reg sx).full = false)
    ∧ t.myRill.takes.map TakeOp.k = s.myRill.takes.map TakeOp.k ++ [s.cur.k] := by
  have hx : take s kind sx k = .next (((({ s with nextId := s.nextId + 1 } : State).modMe fun c =>
      (c.setEmpty (s.me.dest sx) s.nextId).emptyOx k.toNat 4 s.nextId).modMyRill fun x =>
        { x with takes := x.takes ++ [{ k := s.cur.k, id := s.nextId, s := s.me.dest sx, ox := k.toNat, kind := kind }] }).advance) := by
    rw [take, outsideTx_plain hs]
    simp only [Ctx.emptyOx, List.foldl_map]
  refine ⟨_, hx, ?_, fun j hj => ?_, fun h0 => ?_, ?_⟩
  · rw [State.me_advance]
    rfl
  · rw [State.me_advance]
    refine (congrArg (fun c : Ctx => (c.oxReg (k.toNat + j)).full) ((State.me_modMyRill _ _).trans (State.me_modMe _ _))).trans ?_
    exact Ctx.emptyOx_full _ _ _ hj
  · rw [State.reg_advance, State.me_modMyRill, State.me_modMe]
    change (((s.me.setEmpty (s.me.dest sx) s.nextId).emptyOx k.toNat 4 s.nextId).reg sx).full = false
    rw [Ctx.reg_emptyOx, Ctx.setEmpty_dest, Ctx.reg_setCellAt_dest, if_pos ⟨rfl, h0⟩]
  · rw [State.myRill_advance, State.myRill_modMyRill, State.myRill_modMe]
    exact List.map_append

/-- SYNCJ of a thread whose SPAWNs have all pushed reads its join counter. -/
theorem exec_syncj {a : BitVec 5} (sx : BitVec 5) (k : BitVec 3) (l : BitVec 4) (ha : s.clean a) (hp : s.spawnsPending = false)
    (hf : addressFault (s.val a) 8 false true = none) :
    exec (.syncj a sx k l) s = issueAll s (s.me.dest sx :: (List.range 4).map fun i => .ox (k.toNat + i)) none
      [{ id := 0, seq := 0, kind := .joinRead k.toNat, va := s.val a, size := 8, dst := s.me.dest sx }] id := by
  obtain ⟨ra, pa⟩ := ha
  unfold State.bad at pa
  unfold State.val at hf ⊢
  change execSyncj a sx k l s = _
  rw [execSyncj, outsideTx_plain hs, withReg_full _ ra, hp, if_neg Bool.false_ne_true, pa, withAddress_ok _ _ hf]

section
variable {k : BitVec 3} (l : BitVec 4) {ws : List Word} (h : (s.me.oxBlock k.toNat 4).all (fun x => x.full && !x.poison) = true)
  (hw : ws = (s.me.oxBlock k.toNat 4).map fun x => x.val) (hr : s.releases = true) {dq : Nat × Nat} (hq : s.dequeAt s.cur.b s.cur.r = dq)
  (hroom : s.dqEarlier dq.1 dq.2 s.arrival < s.dqRoom dq.1 dq.2)
include h hw hr hq hroom

/-- SPAWN without a join counter pushes its record. -/
theorem exec_spawn_push (h0 : ws.getD 3 0 = 0) :
    exec (.spawn k l) s = .next (((s.modRill dq.1 dq.2 fun x => { x with dqWait := x.dqWait ++
      [{ task := ws.map fun x => (x, false), src := some (s.cur, s.me.seq), since := s.cycle }] }).modMe fun c =>
        (c.openLa l.toNat true).xpOrdered).advance) := by
  change execSpawn k l s = _
  rw [execSpawn, outsideTx_plain hs, withOx_clean _ h, ← hw]
  simp only [hq, h0, hr, Bool.not_true, Bool.false_eq_true, Nat.not_le.2 hroom, if_false, if_true]

/-- SPAWN with a join counter increments it first. -/
theorem exec_spawn_join (h0 : ws.getD 3 0 ≠ 0) (hf : addressFault (ws.getD 3 0) 8 false true = none) :
    exec (.spawn k l) s = issueAll s [] none
      [{ id := 0, seq := 0, kind := .joinInc, va := ws.getD 3 0, size := 8, data := 1, ext := ws }] fun c => c.openLa l.toNat true := by
  change execSpawn k l s = _
  rw [execSpawn, outsideTx_plain hs, withOx_clean _ h, ← hw]
  simp only [hq, h0, hr, Bool.not_true, Bool.false_eq_true, Nat.not_le.2 hroom, if_false, withAddress_ok _ _ hf]

end

/-! ### LAUNCH and HMSG (R308, R354) -/

section
variable {a : BitVec 5} (ha : s.clean a) (hr : s.releases = true)
include ha hr

theorem exec_launch (sx : BitVec 5) (l : BitVec 4) (hf : addressFault (s.val a) 128 false true = none) :
    exec (.launch a sx l) s = issueAll s [s.me.dest sx] (some l.toNat)
      [{ id := 0, seq := 0, kind := .launch, va := s.val a, size := 128, dst := s.me.dest sx, ext := [s.upc, w64 s.ulen] }] id := by
  obtain ⟨ra, pa⟩ := ha
  unfold State.bad at pa
  unfold State.val at hf ⊢
  change execLaunch a sx l s = _
  rw [execLaunch, outsideTx_plain hs, withReg_full _ ra, pa, withAddress_ok _ _ hf, hr]
  rfl

theorem exec_hmsg (d : BitVec 5) (hf : addressFault (s.val a) 64 false true = none) :
    exec (.hmsg d a) s = issueAll s [s.me.dest d] none
      [{ id := 0, seq := 0, kind := .hmsg, va := s.val a, size := 64, dst := s.me.dest d, ext := [s.upc, w64 s.ulen] }]
      fun c => { c with wait := some (.access c.seq) } := by
  obtain ⟨ra, pa⟩ := ha
  unfold State.bad at pa
  unfold State.val at hf ⊢
  change execHmsg d a s = _
  rw [execHmsg, outsideTx_plain hs, withReg_full _ ra, pa, withAddress_ok _ _ hf, hr]
  rfl

end

end

/-! ### The delivery of a record (R357, R359) -/

/-- The first n ox registers of the block of a TAKE receive their words of its record. -/
def Ctx.fillRecord (c : Ctx) (ox id : Nat) (rec : TaskRec) (n : Nat) : Ctx :=
  (List.range n).foldl (fun c' i => c'.fill (.ox (ox + i)) id (rec.getD i (0, false)).1 (rec.getD i (0, false)).2) c

theorem State.fillTake_eq (s : State) (p : Pos) (t : TakeOp) (code : Nat) (rec : TaskRec) :
    s.fillTake p t code rec = s.modCtx p fun c => (c.fillRecord t.ox t.id rec 4).fill t.s t.id (w64 code) false := rfl

section
variable (c : Ctx) (ox id : Nat) (rec : TaskRec)

theorem Ctx.fillRecord_succ (n : Nat) : c.fillRecord ox id rec (n + 1)
    = (c.fillRecord ox id rec n).fill (.ox (ox + n)) id (rec.getD n (0, false)).1 (rec.getD n (0, false)).2 := by
  simp [Ctx.fillRecord, List.range_succ]

theorem Ctx.fillRecord_cellAt_other {n : Nat} {e : Dest} (h : ∀ i < n, e ≠ .ox (ox + i)) :
    (c.fillRecord ox id rec n).cellAt e = c.cellAt e := by
  induction n with
  | zero => rfl
  | succ n ih =>
    rw [Ctx.fillRecord_succ, Ctx.cellAt_fill_other _ _ _ _ (h n (Nat.lt_succ_self n))]
    exact ih fun i hi => h i (Nat.lt_succ_of_lt hi)

/-- Each ox register of the block that waits for the TAKE holds its word of the record. -/
theorem Ctx.fillRecord_cellAt {n i : Nat} (hi : i < n)
    (h : c.cellAt (.ox (ox + i)) = { c.cellAt (.ox (ox + i)) with full := false, src := id }) :
    (c.fillRecord ox id rec n).cellAt (.ox (ox + i)) = { val := (rec.getD i (0, false)).1, poison := (rec.getD i (0, false)).2 } := by
  have hne : ∀ {j : Nat}, i ≠ j → Dest.ox (ox + i) ≠ Dest.ox (ox + j) := fun hj hc => hj (Nat.add_left_cancel (Dest.ox.inj hc))
  induction n with
  | zero => omega
  | succ n ih =>
    rw [Ctx.fillRecord_succ]
    by_cases hin : i = n
    · subst hin
      have hold := c.fillRecord_cellAt_other ox id rec (n := i) (e := .ox (ox + i)) fun j hj => hne (Nat.ne_of_gt hj)
      exact Ctx.cellAt_fill_waiting _ _ (by rw [hold]; exact h)
    · rw [Ctx.cellAt_fill_other _ _ _ _ (hne hin)]
      exact ih (by omega)

end

/-- A TAKE that gets a record has its s and its ox block full. -/
theorem State.fillTake_delivers (s : State) (p : Pos) (t : TakeOp) (code : Nat) (rec : TaskRec) (hs : ∀ i < 4, t.s ≠ .ox (t.ox + i)) :
    ((s.ctx p).cellAt t.s = { (s.ctx p).cellAt t.s with full := false, src := t.id } →
        ((s.fillTake p t code rec).ctx p).cellAt t.s = { val := w64 code })
    ∧ ∀ i < 4, (s.ctx p).cellAt (.ox (t.ox + i)) = { (s.ctx p).cellAt (.ox (t.ox + i)) with full := false, src := t.id } →
        ((s.fillTake p t code rec).ctx p).cellAt (.ox (t.ox + i))
          = { val := (rec.getD i (0, false)).1, poison := (rec.getD i (0, false)).2 } := by
  rw [State.fillTake_eq, State.ctx_modCtx]
  refine ⟨fun h => ?_, fun i hi h => ?_⟩
  · exact Ctx.cellAt_fill_waiting _ _ (by rw [Ctx.fillRecord_cellAt_other _ _ _ _ hs]; exact h)
  · rw [Ctx.cellAt_fill_other _ _ _ _ (hs i hi).symm]
    exact Ctx.fillRecord_cellAt _ _ _ _ hi h

/-! ### DEQUE_OPERATION (R355, R357) -/

/-- Which pushes wait for room at a rill is all that the fallback of a SCRUBBING braid changes (R413). -/
theorem State.forwardPushes_keeps (s : State) (b r c q : Nat) :
    (∃ w, (s.forwardPushes b r).rill c q = { s.rill c q with dqWait := w }) ∧ ∀ p, (s.forwardPushes b r).ctx p = s.ctx p := by
  have hmod : ∀ (t : State) (b r : Nat) (f : List DqPush → List DqPush),
      ∃ w, (t.modRill b r fun y => { y with dqWait := f y.dqWait }).rill c q = { t.rill c q with dqWait := w } := by
    intro t b r f
    by_cases h : rillKey c q = rillKey b r
    · rw [State.rill_of_key _ h, State.rill_of_key _ h, State.rill_modRill]
      exact ⟨_, rfl⟩
    · exact ⟨_, State.rill_modRill_other t _ h⟩
  unfold State.forwardPushes
  dsimp only
  split
  · refine ⟨?_, fun p => rfl⟩
    obtain ⟨w, hw⟩ := hmod s b r fun _ => []
    obtain ⟨w', hw'⟩ := hmod (s.modRill b r fun y => { y with dqWait := [] }) (s.dequeAt b r).1 (s.dequeAt b r).2 (· ++ (s.rill b r).dqWait)
    exact ⟨w', hw'.trans (by rw [hw])⟩
  · exact ⟨⟨_, rfl⟩, fun p => rfl⟩

theorem State.forwardPushes_held {s : State} {b r : Nat} (h : (s.braid b).gran.state ≠ .scrubbing) : s.forwardPushes b r = s := by
  simp [State.forwardPushes, h]

/-- The one operation of its rill is the lowest. -/
theorem findSome_only {t : TakeOp} (hk : t.k < 16) {q : TakeOp → Bool} (hq : q t = true) :
    ((List.range 16).findSome? fun k => ([t].filter q).find? fun y => y.k == k) = some t := by
  have hf : ∀ k, (([t].filter q).find? fun y => y.k == k) = if t.k = k then some t else none := by
    intro k
    by_cases h : t.k = k <;> simp [hq, h]
  simp only [hf]
  cases h : (List.range 16).findSome? fun k => if t.k = k then some t else none with
  | none => simpa using List.findSome?_eq_none_iff.1 h t.k (List.mem_range.2 hk)
  | some x =>
    obtain ⟨k, -, hx⟩ := List.exists_of_findSome?_eq_some h
    split at hx
    · exact hx.symm
    · cases hx

theorem State.popBottom_unspilled {s : State} {b r : Nat} {rest : List TaskRec} {task : TaskRec}
    (hd : (s.rill b r).deque = rest ++ [task]) (hs : (s.rill b r).spilled = 0) :
    s.popBottom b r = some (task, s.modRill b r fun y => { y with deque := rest }) := by
  simp [State.popBottom, hd, hs]

theorem State.rill_fillTake (s : State) (p : Pos) (t : TakeOp) (code : Nat) (rec : TaskRec) (b r : Nat) :
    (s.fillTake p t code rec).rill b r = s.rill b r := rfl

/-- A pop of its own rill takes the record at the bottom. -/
theorem dequeOperation_pops {s : State} {b r : Nat} {t : TakeOp} {rest : List TaskRec} {task : TaskRec}
    (ht : (s.rill b r).takes = [t]) (hp : t.probe = 0) (hk : t.k < 16) (hd : (s.rill b r).deque = rest ++ [task])
    (hsp : (s.rill b r).spilled = 0) :
    ∃ u s1 : State, exec (.dequeOperation b r) s = .next u ∧ (u.rill b r).deque = rest ∧ (u.rill b r).takes = []
      ∧ (∀ p, s1.ctx p = s.ctx p) ∧ ∀ p, u.ctx p = (s1.fillTake ⟨b, r, t.k⟩ t (if t.kind = 2 then 1 else 0) task).ctx p := by
  obtain ⟨⟨w, hw⟩, hctx⟩ := s.forwardPushes_keeps b r b r
  generalize hf : s.forwardPushes b r = f at hw hctx
  have hft : (f.rill b r).takes = [t] := by rw [hw]; exact ht
  have hx : exec (.dequeOperation b r) s = .next (f.popFor ⟨b, r, t.k⟩ t) := by
    change execDequeOperation b r s = _
    unfold execDequeOperation
    simp only [hf, hft]
    rw [findSome_only hk (q := fun t => t.probe == 0) (by rw [hp]; rfl)]
  have hpop := State.popBottom_unspilled (s := f) (b := b) (r := r) (rest := rest) (task := task) (by rw [hw]; exact hd) (by rw [hw]; exact hsp)
  have hpf : f.popFor ⟨b, r, t.k⟩ t = ((f.modRill b r fun y => { y with deque := rest }).fillTake ⟨b, r, t.k⟩ t
      (if t.kind = 2 then 1 else 0) task).dropTake ⟨b, r, t.k⟩ t := by
    unfold State.popFor
    dsimp only
    rw [hpop]
  refine ⟨_, f.modRill b r fun y => { y with deque := rest }, hx, ?_, ?_, hctx, fun p => by rw [hpf]; rfl⟩
  all_goals rw [hpf, State.dropTake, State.rill_modRill, State.rill_fillTake, State.rill_modRill]
  rw [hft]
  simp

theorem State.lowerCc_keeps (s : State) (b r m : Nat) (c q : Nat) :
    ((s.lowerCc b r m).rill c q).deque = (s.rill c q).deque ∧ ((s.lowerCc b r m).rill c q).dqWait = (s.rill c q).dqWait := by
  by_cases h : rillKey c q = rillKey b r
  · rw [State.rill_of_key _ h, State.rill_of_key _ h, State.lowerCc, State.rill_modRill]
    exact ⟨rfl, rfl⟩
  · rw [State.lowerCc, State.rill_modRill_other _ _ h]
    exact ⟨rfl, rfl⟩

theorem State.push_room {s : State} {b r : Nat} (t : TaskRec) (h : (s.rill b r).deque.length < 16) :
    s.push b r t = s.modRill b r fun y => { y with deque := y.deque ++ [t] } := by
  unfold State.push
  dsimp only
  split
  · exact if_pos h
  next hd =>
    rw [State.modRill, State.modRill]
    simp only [hd, List.nil_append]

/-- A push with room enters at the bottom and waits no more. -/
theorem State.enterPush_rill {s : State} {b r : Nat} {w : DqPush} (hw : (s.rill b r).dqWait = [w]) (h : (s.rill b r).deque.length < 16) :
    ((s.enterPush b r w).rill b r).deque = (s.rill b r).deque ++ [w.task] ∧ ((s.enterPush b r w).rill b r).dqWait = [] := by
  let s1 := (s.push b r w.task).modRill b r fun x => { x with dqWait := x.dqWait.erase w }
  have h1 : (s1.rill b r).deque = (s.rill b r).deque ++ [w.task] ∧ (s1.rill b r).dqWait = [] := by
    simp only [s1, State.rill_modRill, State.push_room w.task h, hw]
    simp
  let s2 := match w.src with
    | some (p, seq) => s1.modCtx p fun c => { c with las := c.las.filter fun l => l.seq != seq }
    | none => s1
  have h2 : s2.rill b r = s1.rill b r := by
    simp only [s2]
    split <;> rfl
  have h3 : s.enterPush b r w = (match w.cc with
    | some (p, m) => s2.lowerCc p.b p.r m
    | none => s2) := rfl
  rw [h3]
  split
  · rw [(State.lowerCc_keeps _ _ _ _ _ _).1, (State.lowerCc_keeps _ _ _ _ _ _).2, h2]
    exact h1
  · rw [h2]
    exact h1

theorem dequeOperation_pushes {s : State} {b r : Nat} {w : DqPush} (ht : (s.rill b r).takes = []) (hw : (s.rill b r).dqWait = [w])
    (hs : w.src.isSome = true) (hp : s.probed b r = false) (hb : (s.braid b).gran.state ≠ .scrubbing) :
    exec (.dequeOperation b r) s = .next (s.enterPush b r w) := by
  change execDequeOperation b r s = _
  unfold execDequeOperation
  have hnone : ((List.range 16).findSome? fun k => (([] : List TakeOp).filter fun t => t.probe == 0).find? fun t => t.k == k) = none := by
    rw [List.findSome?_eq_none_iff]
    exact fun k _ => rfl
  simp only [State.forwardPushes_held hb, ht, hnone, hp, hw, hs, List.find?_cons, Bool.true_or, Bool.false_eq_true, if_false]

/-! ### STEAL_PROBE (R358) -/

theorem State.popTop_unspilled {s : State} {b r : Nat} {rest : List TaskRec} {task : TaskRec} (hd : (s.rill b r).deque = task :: rest)
    (hs : (s.rill b r).spilled = 0) : s.popTop b r = some (task, s.modRill b r fun y => { y with deque := rest }) := by
  simp [State.popTop, hd, hs]

/-- The one thief of the package takes the record at the top of its victim. -/
theorem stealProbe_steals {s : State} {b r : Nat} {t : TakeOp} {rest : List TaskRec} {task : TaskRec}
    (ht : (s.rill b r).takes = [t]) (h1 : 1 ≤ t.probe) (h7 : t.probe ≤ 7) (hk : t.k < 16) (hq : s.dequeOf b = b)
    (hv : (s.rill b ((r + t.probe) % 8)).takes = []) (hsp : (s.rill b ((r + t.probe) % 8)).spilled = 0)
    (hd : (s.rill b ((r + t.probe) % 8)).deque = task :: rest) (hth : s.thieves = [(⟨b, r, t.k⟩, t)])
    (hb : (s.braid b).gran.state ≠ .scrubbing) :
    exec (.stealProbe b r) s = .next (((s.modRill b ((r + t.probe) % 8) fun y => { y with deque := rest }).fillTake ⟨b, r, t.k⟩ t 1 task).dropTake
      ⟨b, r, t.k⟩ t) := by
  have hne : (t.probe != 0) = true := by simp; omega
  have hprobe : s.probeOf b r t.probe = some (b, (r + t.probe) % 8, if t.probe = 7 then 8 else t.probe + 1) := by
    rw [State.probeOf, if_pos (Nat.lt_succ_of_le h7), hq, ite_self]
  change execStealProbe b r s = _
  unfold execStealProbe
  simp only [ht, findSome_only hk (q := fun t => t.probe != 0) hne, hprobe, hv, hth, State.popTop_unspilled hd hsp, List.any_nil, List.any_cons,
    lt_irrefl, decide_false, Bool.false_and, Bool.or_self, Bool.false_eq_true, if_false, beq_iff_eq, hb]

/-- Settles O39: each work-creation form is the issue of its access or a change of its thread, and each deque event is
one pop, push or steal. -/
theorem workResults : Obligations.WorkResults := by
  unfold Obligations.WorkResults
  refine ⟨fun s s1 k n l sx a d a1 hs hroom => ⟨exec_ixmov hs n d l, fun ws h hw => ?_, fun hn => ⟨exec_iter_none hs sx l hn, fun hp => ?_⟩,
    fun x hn => ⟨?_, fun hp hc => ?_, fun hp hc hu => ?_⟩, fun i hi => ?_, ?_, ?_, fun ha hr => ⟨?_, ?_⟩⟩, fun s b r => ?_⟩
  · rw [exec_nest hs l h hw]
    refine ⟨fun h0 => if_pos (bne_iff_ne.2 h0), fun h0 h1 => ?_, fun h0 h1 => ⟨fun h2 => ?_, fun h2 => ?_⟩⟩
    · rw [h0, h1]
      rfl
    · rw [h0, h1]
      exact (if_pos (bne_iff_ne.2 h2) : ite ((field (ws.getD 2 0) 63 32 != 0) = true) _ _ = _)
    · rw [h0, h1, h2]
      rfl
  · exact exec_itnext_empty hs sx l hp fun x hx => by rw [hn] at hx; cases hx
  · intro hf y hp
    exact (exec_iter_some hs sx l hn hf).trans (issueOne_go y hroom hp)
  · exact exec_itnext_empty hs sx l hp fun z hz => by rw [hn] at hz; cases hz; exact hc
  · refine ⟨_, exec_itnext_next hs sx l hp hn hc hu, ?_, ?_, fun i hi => ?_, fun h0 => ?_⟩
    · rw [State.me_put]
      rfl
    · rw [State.me_put]
      exact (Ctx.setReg_nest _ _ _ _).trans (congrArg Ctx.nest (State.me_modMe s _))
    · rw [State.me_put]
      change Table.get {} (Ctx.setReg _ _ _ _).ix i = _
      rw [Ctx.setReg_ix, State.me_modMe]
      exact Nest.get_unpackInto x _ hi
    · exact (put_frame _ sx 1 x.poison).1 h0
  · obtain ⟨kind, hx⟩ := exec_take s sx k l i hi
    rw [hx]
    exact take_asks hs kind sx k
  · intro ha hp hf y hpass
    exact (exec_syncj hs sx k l ha hp hf).trans (issueOne_go y hroom hpass)
  · intro ws h hw hr dq hq
    refine ⟨fun h0 => ⟨_, { task := ws.map fun x => (x, false), src := some (s.cur, s.me.seq), since := s.cycle },
      exec_spawn_push hs l h hw hr rfl hq h0, ?_, rfl, ?_⟩, ?_⟩
    · rw [State.rill_advance, State.rill_modMe, State.rill_modRill]
    · rw [State.me_advance]
      rfl
    · intro h0 hf y hp
      exact (exec_spawn_join hs l h hw hr rfl hq h0 hf).trans (issueOne_go y hroom hp)
  · intro hf y hp
    exact (exec_launch hs ha hr sx l hf).trans (issueOne_go y hroom hp)
  · intro hf y hp
    exact (exec_hmsg hs ha hr d hf).trans (issueOne_go y hroom hp)
  · intro x
    refine ⟨fun t rest task ht hp hk hd hsp => ?_, fun w ht hw hs hl hp hb => ?_, fun t task rest ht h1 h7 hk hr8 => ?_, fun hb => ?_,
      fun e hb he => ?_, fun v hv hsp => ?_⟩
    · obtain ⟨u, s1, hx, hd', ht', hctx, hu⟩ := dequeOperation_pops ht hp hk hd hsp
      refine ⟨u, hx, hd', ht', ?_⟩
      intro c d hs
      have hdel := State.fillTake_delivers s1 ⟨b, r, t.k⟩ t (if t.kind = 2 then 1 else 0) task hs
      rw [← hu, hctx] at hdel
      refine ⟨fun h => (hdel.1 h).trans ?_, hdel.2⟩
      split <;> rfl
    · obtain ⟨h1, h2⟩ := State.enterPush_rill hw hl
      exact ⟨_, dequeOperation_pushes ht hw hs hp hb, h1, h2⟩
    · intro v hq hv hsp hd hth hb
      have hvr : v ≠ r := by omega
      refine ⟨_, stealProbe_steals ht h1 h7 hk hq hv hsp hd hth hb, ?_, ?_, fun hs h => ?_⟩
      · rw [State.dropTake, State.rill_modRill_other _ _ (by simp only [rillKey]; omega), State.rill_fillTake, State.rill_modRill]
      · rw [State.dropTake, State.rill_modRill, State.rill_fillTake, State.rill_modRill_other _ _ (by simp only [rillKey]; omega)]
        change x.takes.erase t = []
        rw [ht]
        simp
      · exact (State.fillTake_delivers _ _ t 1 task hs).1 h
    · rw [State.dequeAt, if_neg (by simpa using hb)]
    · rw [State.dequeAt, if_pos (by rw [hb]; rfl), he]
    · refine ⟨(s.setRillSr b r 0x122 v).modRill b r fun x => { x with dqSpillNext := none, spillHead := 0, dqFrames := [] }, ?_, ?_, ?_⟩
      · change execDqspillWrite b r s = _
        unfold execDqspillWrite
        rw [show (s.rill b r).dqSpillNext = some v from hv]
        exact if_pos hsp
      · rw [State.rillSr, State.rill_modRill]
        exact State.rillSr_setRillSr s b r 0x122 v
      · rw [State.rill_modRill]

end Sys2Proof.Machine
end

section
/-! PROOFS. Basin instructions and the move of a braid (R420 to R424). -/

namespace Sys2Proof.Machine

/-! ### BINFO, BHOME and BRACK -/

section
variable {s : State} {a sx : BitVec 5} (hs : s.plain) (ha : s.clean a)
include hs ha

theorem exec_binfo : exec (.binfo a sx) s = .next (s.put sx (s.binfo (s.val a)) false) := by
  change execBinfo a sx s = _
  rw [execBinfo, outsideTx_plain hs, withControl_of_clean _ ha]
  rfl

theorem exec_bhome (hf : addressFault (s.val a) 1 false true = none) : exec (.bhome a sx) s =
    if bit (s.val a) 55 then wrote s sx (w64 (2 * 2 ^ 62 + (s.basin (s.basinOf s.cur.b)).gen * 2 ^ 16)) false
    else match s.translate s.cur (s.val a) { r := true } with
      | (s1, .ok pa leaf) => wrote s1 sx (if bit leaf 9 && bit leaf 8
          then w64 (1 * 2 ^ 62 + (s.basin (s.basinOf s.cur.b)).gen * 2 ^ 16) else s1.homeWord (s.basinOf s.cur.b) pa) false
      | (s1, .fault _ _) => wrote s1 sx (w64 (3 * 2 ^ 62 + (s.basin (s.basinOf s.cur.b)).gen * 2 ^ 16)) false
      | (s1, .ask) => parked s1 .translation
      | (s1, .poisoned) => .next (s1.contain (s.basinOf s.cur.b)) := by
  obtain ⟨hfull, hbad⟩ := ha
  have hp : (s.me.reg a).poison = false := hbad
  change execBhome a sx s = _
  rw [execBhome, outsideTx_plain hs, withReg_full _ hfull, hp]
  exact withAddress_ok _ _ hf

variable (hk : s.cur.k = 15)
include hk

theorem exec_brack {code : Nat} (hc : code = field (s.val a) 15 0 * 8 + field (s.val a) 18 16) : exec (.brack a sx) s =
    if s.phaseCode (s.basinOf s.cur.b) != some code then wrote s sx 1 false
    else if code % 8 = 2 && (s.braid s.cur.b).gran.state == .leaving && !s.rillEmpty s.cur.b s.cur.r then
      .next ((s.modMe fun c => { c with wait := some (.brack (c.dest sx) code) }).advance)
    else wrote (s.recordAck s.cur.b s.cur.r code) sx 0 false := by
  subst hc
  change execBrack a sx s = _
  rw [execBrack, outsideTx_plain hs, supervisorOnly_context15 hk, withControl_of_clean _ ha]

theorem exec_cmigChk : exec (.cmigChk a sx) s = .next (s.put sx (w64 (s.migStatus (s.val a)).1) false) := by
  change execCmigChk a sx s = _
  rw [execCmigChk, outsideTx_plain hs, supervisorOnly_context15 hk, withControl_of_clean _ ha]
  rfl

/-- A CMIG of two braids that no CMIG moves answers its status, or starts and waits (R423, R424). -/
theorem exec_cmig {b d : Nat} (h9 : field (s.val a) 15 9 = 0) (h25 : field (s.val a) 63 25 = 0)
    (hb : s.braidAt (s.basinOf s.cur.b) (field (s.val a) 8 0) = some b)
    (hd : s.braidAt (s.basinOf s.cur.b) (field (s.val a) 24 16) = some d)
    (hmb : (s.braid b).moving = false) (hmd : (s.braid d).moving = false) : exec (.cmig a sx) s =
    if s.moveStatus b d != 0 then wrote s sx (w64 (s.moveStatus b d)) false
    else .next (((s.startMove b d).modMe fun c => { c with wait := some (.cmig (c.dest sx) b d) }).advance) := by
  have hst : s.migStatus (s.val a) = (s.moveStatus b d, b, d) := by
    simp only [State.migStatus, h9, h25, bne_self_eq_false, Bool.or_self, Bool.false_eq_true, if_false, hb, hd]
  change execCmig a sx s = _
  rw [execCmig, outsideTx_plain hs, supervisorOnly_context15 hk, withControl_of_clean _ ha, hst]
  simp [hb, hd, hmb, hmd]

end

theorem binfo_outside (s : State) {v : Word} (h : field v 63 16 ≠ 0 ∨ 5 < field v 15 12) : s.binfo v = 0 := by
  unfold State.binfo
  dsimp only
  split
  · rfl
  next hz =>
    obtain ⟨m, hm⟩ := Nat.exists_eq_add_of_lt (h.resolve_left (by simpa using hz))
    rw [hm, show 5 + m + 1 = m + 6 by omega]
    rfl

/-- The fields of BINFO's identification word. -/
theorem ident_fields {n g q f : Nat} (hn : n < 65536) (hg : g < 65536) (hq : q < 65536) (hf : f < 2) :
    let w := w64 (n + g * 2 ^ 16 + q * 2 ^ 32 + 0 * 2 ^ 48 + f * 2 ^ 51)
    field w 15 0 = n ∧ field w 31 16 = g ∧ field w 47 32 = q ∧ field w 50 48 = 0 ∧ bit w 51 = (f == 1) := by
  intro w
  have hw : w.toNat = n + g * 2 ^ 16 + q * 2 ^ 32 + 0 * 2 ^ 48 + f * 2 ^ 51 := by
    simp only [w, w64, BitVec.toNat_ofNat]
    omega
  have hb : w.toNat / 2 ^ 51 % 2 = f := by omega
  refine ⟨?_, ?_, ?_, ?_, by rw [bit, hb]⟩
  all_goals
    rw [field, hw]
    omega

theorem binfo_ident {s : State} {n : Nat} {x : Basin} (hn : s.basinOf s.cur.b = n) (hx : s.basin n = x) (h1 : n < 65536)
    (h2 : x.gen < 65536) (h3 : x.rseq < 65536) (hr : x.resize = none) :
    field (s.binfo 0) 15 0 = n ∧ field (s.binfo 0) 31 16 = x.gen ∧ field (s.binfo 0) 47 32 = x.rseq
      ∧ field (s.binfo 0) 50 48 = 0 ∧ bit (s.binfo 0) 51 = x.lastForced := by
  have hb : s.binfo 0 = w64 (n + x.gen * 2 ^ 16 + x.rseq * 2 ^ 32 + 0 * 2 ^ 48 + x.lastForced.toNat * 2 ^ 51) := by
    have h : s.binfo 0 = w64 (s.identWord n) := by rw [← hn]; rfl
    rw [h, State.identWord, hx]
    cases hl : x.lastForced <;> simp only [hr, Option.elim, if_true, Bool.false_eq_true, if_false, Bool.toNat, cond, Nat.one_mul,
      Nat.zero_mul]
  obtain ⟨hn, hg, hq, hp, hf⟩ := ident_fields h1 h2 h3 (Bool.toNat_lt x.lastForced)
  rw [hb]
  exact ⟨hn, hg, hq, hp, by rw [hf]; cases x.lastForced <;> rfl⟩

/-! ### Contexts that a step leaves alone -/

/-- Only contexts 15 may differ. -/
def SameUsers (s t : State) : Prop := ∀ p : Pos, p.key % 16 ≠ 15 → t.ctx p = s.ctx p

theorem SameUsers.of_ctxs {s t : State} (h : t.ctxs = s.ctxs) : SameUsers s t := fun p _ => by rw [State.ctx, State.ctx, h]

theorem SameUsers.trans {s t u : State} (h : SameUsers s t) (k : SameUsers t u) : SameUsers s u :=
  fun p hp => (k p hp).trans (h p hp)

theorem SameUsers.foldl {β : Type} {f : State → β → State} (hf : ∀ t x, SameUsers t (f t x)) (l : List β) (s : State) :
    SameUsers s (l.foldl f s) := by
  induction l generalizing s with
  | nil => exact fun _ _ => rfl
  | cons x l ih => exact (hf s x).trans (ih _)

theorem sameUsers_modCtx15 (s : State) (b r : Nat) (f : Ctx → Ctx) : SameUsers s (s.modCtx ⟨b, r, 15⟩ f) := fun p hp =>
  State.ctx_modCtx_other s f fun h => hp (by rw [h, Pos.key]; dsimp only; omega)

theorem sameUsers_takeRecord {s t : State} {b r : Nat} (h : s.takeRecord b r = some t) : SameUsers s t := by
  unfold State.takeRecord at h
  split at h
  · cases h
  · cases h
    have h1 (u : State) (n : Nat) (v : Word) : SameUsers u (u.setSr ⟨b, r, 15⟩ n v) := sameUsers_modCtx15 u b r _
    exact (((SameUsers.of_ctxs rfl).trans (h1 _ _ _)).trans (h1 _ _ _)).trans (h1 _ _ _)

/-- A record that becomes pending can end a wait of context 15 only. -/
theorem sameUsers_post (s : State) (b r : Nat) (e : EventRec) : SameUsers s (s.post b r e) := by
  have h1 : SameUsers s (s.modRill b r fun x => x.postRecord e) := .of_ctxs rfl
  unfold State.post
  dsimp only
  split
  · split
    · next h => exact (h1.trans (sameUsers_takeRecord h)).trans (sameUsers_modCtx15 _ b r _)
    · exact h1
  · exact h1

theorem sameUsers_wake (s : State) (i : Nat) (e : REntry) : SameUsers s (s.wake i e) := by
  unfold State.wake
  split
  · exact sameUsers_post _ _ _ _
  · exact .of_ctxs rfl

theorem sameUsers_wakeChains (s : State) (b r : Nat) (f : REntry → Bool) : SameUsers s (s.wakeChains b r f) :=
  SameUsers.foldl (fun t e => by
    split
    · exact (SameUsers.of_ctxs rfl).trans (sameUsers_wake _ _ _)
    · exact .of_ctxs rfl) _ s

theorem sameUsers_stopRecord (s : State) (p : Pos) : SameUsers s (s.stopRecord p) := by
  unfold State.stopRecord
  split
  · exact sameUsers_post _ _ _ _
  · exact .of_ctxs rfl

/-! ### The move of a rill's contexts -/

theorem State.pushOrWait_ctxs (b r : Nat) (s : State) (t : TaskRec) : (State.pushOrWait b r s t).ctxs = s.ctxs := by
  unfold State.pushOrWait State.push
  dsimp only
  split
  · split
    · split <;> rfl
    · rfl
  · rfl

theorem foldl_keeps {α β γ : Type} {f : α → β → α} {g : α → γ} {l : List β} (h : ∀ t, ∀ x ∈ l, g (f t x) = g t) (s : α) :
    g (l.foldl f s) = g s := by
  induction l generalizing s with
  | nil => rfl
  | cons x l ih =>
    exact (ih (fun t y hy => h t y (List.mem_cons_of_mem _ hy)) (f s x)).trans (h s x List.mem_cons_self)

/-- What only element a of a list changes is changed once. -/
theorem foldl_once {α β γ : Type} {f : α → β → α} {g : α → γ} {l : List β} {a : β} (hl : l.Nodup) (ha : a ∈ l)
    (h : ∀ t, ∀ x ∈ l, x ≠ a → g (f t x) = g t) (s : α) : ∃ t, g t = g s ∧ g (l.foldl f s) = g (f t a) := by
  obtain ⟨l1, l2, rfl⟩ := List.append_of_mem ha
  have hne : ∀ x, x ∈ l1 ∨ x ∈ l2 → x ≠ a := by
    rintro x hx rfl
    rw [List.nodup_append, List.nodup_cons] at hl
    obtain ⟨-, ⟨h2, -⟩, h1⟩ := hl
    exact hx.elim (fun h => h1 _ h _ List.mem_cons_self rfl) h2
  refine ⟨l1.foldl f s, foldl_keeps (fun t x hx => h t x (by simp [hx]) (hne x (.inl hx))) s, ?_⟩
  rw [List.foldl_append, List.foldl_cons]
  exact foldl_keeps (fun t x hx => h t x (by simp [hx]) (hne x (.inr hx))) _

/-- User context k of logical rill r goes from b to d. -/
def State.moveContext (b d r : Nat) (t : State) (k : Nat) : State :=
  if (t.ctx ⟨b, r, k⟩).run = .empty then t.modCtx ⟨d, r, k⟩ fun c => c.goOn t.cycle
  else (t.setCtx ⟨d, r, k⟩ ((t.ctx ⟨b, r, k⟩).arrive b d t.cycle)).setCtx ⟨b, r, k⟩ {}

/-- A rill moves: its own state first, then its contexts. -/
theorem State.moveRill_contexts (b d : Nat) (s : State) (r : Nat) :
    ∃ u, u.ctxs = s.ctxs ∧ s.moveRill b d r = (List.range 15).foldl (State.moveContext b d r) u := by
  unfold State.moveRill
  refine ⟨_, ?_, rfl⟩
  exact (foldl_keeps (g := State.ctxs) (fun t x _ => State.pushOrWait_ctxs d r t x) _).trans (State.afterKept_ctxs _ _ _)

section
variable {b d r k : Nat} (hbd : b ≠ d) (hr : r < 8) (hk : k < 15)

/-- The two contexts that a move of context k of rill r concerns. -/
def State.twoContexts (b d r k : Nat) (s : State) : Ctx × Ctx := (s.ctx ⟨b, r, k⟩, s.ctx ⟨d, r, k⟩)

theorem State.twoContexts_of_ctxs {s t : State} (h : t.ctxs = s.ctxs) : t.twoContexts b d r k = s.twoContexts b d r k := by
  rw [State.twoContexts, State.twoContexts, State.ctx, State.ctx, State.ctx, State.ctx, h]

include hr hk

theorem Pos.key_ne_of_place {c e q j : Nat} (hq : q < 8) (hj : j < 15) (h : q ≠ r ∨ j ≠ k) :
    (⟨e, r, k⟩ : Pos).key ≠ (⟨c, q, j⟩ : Pos).key := by
  simp only [Pos.key]
  omega

/-- Another context's move changes neither. -/
theorem State.moveContext_other {q j : Nat} (hq : q < 8) (hj : j < 15) (h : q ≠ r ∨ j ≠ k) (t : State) :
    (State.moveContext b d q t j).twoContexts b d r k = t.twoContexts b d r k := by
  have hne (e c : Nat) := Pos.key_ne_of_place (c := c) (e := e) hr hk hq hj h
  unfold State.moveContext
  split
  · rw [State.twoContexts, State.ctx_modCtx_other _ _ (hne b d), State.ctx_modCtx_other _ _ (hne d d)]
    rfl
  · rw [State.twoContexts, State.ctx_setCtx_other _ _ (hne b b), State.ctx_setCtx_other _ _ (hne b d),
      State.ctx_setCtx_other _ _ (hne d b), State.ctx_setCtx_other _ _ (hne d d)]
    rfl

/-- Another rill's move changes neither. -/
theorem State.moveRill_other {q : Nat} (hq : q < 8) (h : q ≠ r) (t : State) :
    (t.moveRill b d q).twoContexts b d r k = t.twoContexts b d r k := by
  obtain ⟨u, hu, hm⟩ := State.moveRill_contexts b d t q
  rw [hm, ← State.twoContexts_of_ctxs hu]
  exact foldl_keeps (g := State.twoContexts b d r k)
    (fun v j hj => State.moveContext_other hr hk hq (List.mem_range.1 hj) (.inl h) v) u

/-- The moves of a braid's rills move context k of rill r once. -/
theorem State.moveRills_context (s : State) : ∃ t, t.twoContexts b d r k = s.twoContexts b d r k
    ∧ ((List.range 8).foldl (State.moveRill b d) s).twoContexts b d r k = (State.moveContext b d r t k).twoContexts b d r k := by
  obtain ⟨t, ht, hf⟩ := foldl_once (f := State.moveRill b d) (g := State.twoContexts b d r k) List.nodup_range
    (List.mem_range.2 hr) (fun v q hq h => State.moveRill_other hr hk (List.mem_range.1 hq) h v) s
  obtain ⟨u, hu, hm⟩ := State.moveRill_contexts b d t r
  obtain ⟨v, hv, hg⟩ := foldl_once (f := State.moveContext b d r) (g := State.twoContexts b d r k) List.nodup_range
    (List.mem_range.2 hk) (fun v j hj h => State.moveContext_other hr hk hr (List.mem_range.1 hj) (.inr h) v) u
  exact ⟨v, (hv.trans (State.twoContexts_of_ctxs hu)).trans ht, by rw [hf, hm, hg]⟩

end

/-- The move of a braid leaves its user contexts as the moves of its rills have. -/
theorem State.sameUsers_moveBraid (s : State) (b d : Nat) :
    SameUsers ((List.range 8).foldl (State.moveRill b d) s) (s.moveBraid b d) := by
  have h1 (t : State) : SameUsers t (((t.moveBody b d).moveNames b d).cacheMode d (s.braid b).shared) := .of_ctxs rfl
  exact ((h1 _).trans (SameUsers.foldl (fun t r => sameUsers_wakeChains t d r _) _ _)).trans
    (SameUsers.foldl (fun t p => sameUsers_stopRecord t p) _ _)

theorem Ctx.reg_goOn (c : Ctx) (now : Nat) (q : BitVec 5) : (c.goOn now).reg q = c.reg q := by
  unfold Ctx.goOn
  split
  · rw [Ctx.rewait_eq]
    exact Ctx.reg_congr rfl rfl rfl q
  · rfl

theorem Ctx.reg_arrive (c : Ctx) (b d now : Nat) (q : BitVec 5) : (c.arrive b d now).reg q = c.reg q := by
  unfold Ctx.arrive
  dsimp only
  split
  · rfl
  · exact (Ctx.reg_congr rfl rfl rfl q).trans (c.reg_goOn now q)

/-- A context moves with its registers; one that the source has none of keeps what it held. -/
theorem State.moveBraid_context (s : State) {b d r k : Nat} (hbd : b ≠ d) (hr : r < 8) (hk : k < 15) (q : BitVec 5) :
    ((s.ctx ⟨b, r, k⟩).run ≠ .empty → ((s.moveBraid b d).ctx ⟨d, r, k⟩).reg q = (s.ctx ⟨b, r, k⟩).reg q
      ∧ (s.moveBraid b d).ctx ⟨b, r, k⟩ = {})
    ∧ ((s.ctx ⟨b, r, k⟩).run = .empty → ((s.moveBraid b d).ctx ⟨d, r, k⟩).reg q = (s.ctx ⟨d, r, k⟩).reg q) := by
  obtain ⟨t, ht, hm⟩ := State.moveRills_context (b := b) (d := d) hr hk s
  have huser (c : Nat) : (⟨c, r, k⟩ : Pos).key % 16 ≠ 15 := by simp only [Pos.key]; omega
  have hne : (⟨d, r, k⟩ : Pos).key ≠ (⟨b, r, k⟩ : Pos).key := by simp only [Pos.key]; omega
  have hsb := State.sameUsers_moveBraid s b d ⟨b, r, k⟩ (huser b)
  have hsd := State.sameUsers_moveBraid s b d ⟨d, r, k⟩ (huser d)
  rw [hsb, hsd]
  obtain ⟨htb, htd⟩ := Prod.ext_iff.1 ht
  obtain ⟨hmb, hmd⟩ := Prod.ext_iff.1 hm
  dsimp only [State.twoContexts] at htb htd hmb hmd
  rw [hmb, hmd, State.moveContext, htb]
  refine ⟨fun hrun => ?_, fun hrun => ?_⟩
  · rw [if_neg hrun, State.ctx_setCtx_other _ _ hne, State.ctx_setCtx, State.ctx_setCtx]
    exact ⟨Ctx.reg_arrive _ _ _ _ q, rfl⟩
  · rw [if_pos hrun, State.ctx_modCtx, Ctx.reg_goOn, htd]

/-- Settles O48. -/
theorem basinResults : Obligations.BasinResults := by
  unfold Obligations.BasinResults
  intro s a sx hs n x v
  refine ⟨fun ha => exec_binfo hs ha, binfo_outside s, binfo_ident rfl rfl, fun ha hf => ⟨fun h55 => ?_, fun h55 =>
    ⟨fun s1 pa leaf ht => ?_, fun s1 c e ht => ?_⟩⟩, fun hk ha => ⟨?_, exec_cmigChk hs ha hk,
    fun b d h9 h25 hb hd hmb hmd => ⟨fun hst => ?_, fun hst => ?_⟩⟩,
    fun b d hbd r hr k hk q => s.moveBraid_context hbd hr hk q⟩
  · rw [exec_bhome hs ha hf, if_pos h55]
    rfl
  · rw [exec_bhome hs ha hf, if_neg (by rw [h55]; exact Bool.false_ne_true), ht]
    rfl
  · rw [exec_bhome hs ha hf, if_neg (by rw [h55]; exact Bool.false_ne_true), ht]
    rfl
  · intro b r code
    have hx := exec_brack (sx := sx) hs ha hk (code := code) rfl
    refine ⟨fun hc => ?_, fun hc h => ?_, fun hc h2 hl he => ?_⟩
    · rw [hx, if_pos (bne_iff_ne.2 hc)]
      rfl
    · rw [hx, if_neg (by simpa using hc), if_neg]
      · rfl
      · rcases h with h | h | h <;> simp [h, b, r]
    · rw [hx, if_neg (by simpa using hc), if_pos (by simp [h2, hl, he, b, r])]
  · rw [exec_cmig hs ha hk h9 h25 hb hd hmb hmd, if_pos (bne_iff_ne.2 hst)]
    rfl
  · rw [exec_cmig hs ha hk h9 h25 hb hd hmb hmd, if_neg (by simp [hst])]

end Sys2Proof.Machine
end

section
/-! PROOFS. Services on basins, queues, rings and application cores (R431 to R433, R458). -/

namespace Sys2Proof.Machine

/-! ### A call that its service takes -/

/-- A call that passes every check comes to its service's own work. -/
theorem service_admitted {s s2 : State} {k : Nat} {c : Call} {ps : List (Nat × Nat)} {ws : List Word} (h : s.admits k c ps ws s2)
    (body : Ask → State → Answer) : ∃ s1, s.blockOf c = (s1, .at ps) ∧ s2 = s1.takeCall c ∧ service k (2 * c.id) body s =
      .next (match body ⟨c, field (ws.getD 0 0) 5 0, ws⟩ s2 with
        | .ends s3 n rs => s3.performed c ps n rs
        | .wait s3 => { s1 with ats := s3.ats, fanouts := s3.fanouts, nextId := s3.nextId }
        | .runs s3 => { s3 with calls := s3.calls.map fun x =>
            if x.id == c.id then { x with target := field (ws.getD 0 0) 5 0 } else x }) := by
  obtain ⟨hn, s1, hb, rfl, rfl, hv, hg, h0, hu, ht⟩ := h
  refine ⟨s1, hb, rfl, ?_⟩
  have hguest : (!(c.caller == hostCaller) && !guestMayCall k) = false := by
    rcases hg with hg | hg <;> simp [hg]
  have htarget : (!basinless k (c.caller == hostCaller) && (if c.caller == hostCaller then
      k != 17 && !((s1.takeCall c).basin (field (((List.range 32).map fun i => s1.blockWord c ps i).getD 0 0) 5 0)).alive
      else field (((List.range 32).map fun i => s1.blockWord c ps i).getD 0 0) 5 0 != c.caller)) = false := by
    rcases ht with ht | ⟨hc, ht | ht⟩ | ⟨hc, ht⟩
    · rw [ht]; rfl
    · simp [hc, ht]
    · rw [ht, hc]
      simp
    · rw [if_neg (by simpa using hc), ht, bne_self_eq_false, Bool.and_false]
  rw [service, if_neg (by omega), hn]
  dsimp only
  rw [if_pos (by omega), State.serve, hb]
  dsimp only
  rw [if_neg (by rw [hv]; exact Bool.false_ne_true), if_neg (by rw [hguest]; exact Bool.false_ne_true),
    if_neg (by simp only [h0, hu, bne_self_eq_false, Bool.not_true, Bool.or_self, Bool.false_eq_true, not_false_eq_true]),
    if_neg (by rw [htarget]; exact Bool.false_ne_true)] <;> rfl

section
variable {s s2 : State} {k : Nat} {c : Call} {ps : List (Nat × Nat)} {ws : List Word} {event : Nat → Instr}
  {body : Ask → State → Answer}

/-- A service that ends with a status has its call return it. -/
theorem returns_of_ends (he : ∀ n u, exec (event n) u = service k n body u) (h : s.admits k c ps ws s2) {t : State} {st : Nat}
    {rs : List (Nat × Word)} (hb : body ⟨c, field (ws.getD 0 0) 5 0, ws⟩ s2 = .ends t st rs) : s.returns event c ps t st rs := by
  obtain ⟨s1, -, -, hx⟩ := service_admitted h body
  rw [State.returns, he, hx, hb]

/-- A service whose work goes on keeps its call. -/
theorem exec_of_runs (he : ∀ n u, exec (event n) u = service k n body u) (h : s.admits k c ps ws s2) {t : State}
    (hb : body ⟨c, field (ws.getD 0 0) 5 0, ws⟩ s2 = .runs t) : exec (event (2 * c.id)) s =
      .next { t with calls := t.calls.map fun x => if x.id == c.id then { x with target := field (ws.getD 0 0) 5 0 } else x } := by
  obtain ⟨s1, -, -, hx⟩ := service_admitted h body
  rw [he, hx, hb]

/-- A call that its service has taken is in service. -/
theorem phase_of_admitted (h : s.admits k c ps ws s2) : ∀ x ∈ s2.calls, x.id = c.id → x.phase = 1 := by
  obtain ⟨-, s1, -, -, rfl, -⟩ := h
  intro x hx hid
  obtain ⟨y, -, rfl⟩ := List.mem_map.1 hx
  by_cases hy : y.id = c.id
  · simp [hy]
  · simp [hy] at hid

end

theorem onBuffer_at {x : Ask} {va : Word} {n : Nat} {w : Bool} {s s1 : State} {qs : List (Nat × Nat)}
    (h : s.buffer x.call va n w = (s1, .at qs)) (k : State → List (Nat × Nat) → Answer) : onBuffer x va n w s k = k s1 qs := by
  rw [onBuffer, h]

theorem withMap_at {x : Ask} {va : Word} {s s1 : State} {qs : List (Nat × Nat)} (ha : field va 5 0 = 0)
    (h : s.buffer x.call va 512 false = (s1, .at qs)) (hl : mapLegal (s1.bufValue qs) = true)
    (k : State → List (Nat × Nat) → Answer) : withMap x va s k = k s1 (mapGranules (s1.bufValue qs)) := by
  rw [withMap, if_neg (by simp [ha]), onBuffer_at h]
  exact if_pos hl

theorem writeMap_at {x : Ask} {va : Word} {gs : List (Nat × Nat)} {s s1 : State} {qs : List (Nat × Nat)} (ha : field va 5 0 = 0)
    (h : s.buffer x.call va 512 true = (s1, .at qs)) (k : State → Answer) :
    writeMap x va gs s k = k (storeBuf qs (granuleMap gs) s1) := by
  rw [writeMap, if_neg (by simp [ha]), onBuffer_at h]

/-! ### Granules -/

/-- Braids stand for kind 0, virtual functions for kind 4 and any greater one. -/
theorem State.gran_modGran (s : State) (kind n : Nat) (f : Granule → Granule) :
    (s.modGran kind n f).gran kind n = f (s.gran kind n) := by
  match kind with
  | 0 => exact congrArg Braid.gran (State.braid_modBraid s n _)
  | 1 | 2 => exact Table.get_put_same _ _ _ _
  | 3 => exact congrArg Core.gran (Table.get_put_same _ _ _ _)
  | _ + 4 => exact congrArg Vf.gran (Table.get_put_same _ _ _ _)

/-- Another granule is as before, as is one of another kind. -/
theorem State.gran_modGran_cases (s : State) (kind n j m : Nat) (f : Granule → Granule) :
    (s.modGran kind n f).gran j m = s.gran j m ∨ m = n ∧ (s.modGran kind n f).gran j m = f (s.gran j m) := by
  by_cases h : m = n
  · subst h
    match kind, j with
    | 0, 0 => exact .inr ⟨rfl, State.gran_modGran s 0 m f⟩
    | 1, 1 => exact .inr ⟨rfl, State.gran_modGran s 1 m f⟩
    | 2, 2 => exact .inr ⟨rfl, State.gran_modGran s 2 m f⟩
    | 3, 3 => exact .inr ⟨rfl, State.gran_modGran s 3 m f⟩
    | _ + 4, _ + 4 => exact .inr ⟨rfl, State.gran_modGran s 4 m f⟩
    | 0, 1 | 0, 2 | 0, 3 | 0, _ + 4 | 1, 0 | 1, 2 | 1, 3 | 1, _ + 4 | 2, 0 | 2, 1 | 2, 3 | 2, _ + 4 | 3, 0 | 3, 1 | 3, 2 | 3, _ + 4
    | _ + 4, 0 | _ + 4, 1 | _ + 4, 2 | _ + 4, 3 => exact .inl rfl
  · left
    match kind, j with
    | 0, 0 => exact congrArg Braid.gran (Table.get_put_other _ _ _ h)
    | 1, 1 | 2, 2 => exact Table.get_put_other _ _ _ h
    | 3, 3 => exact congrArg Core.gran (Table.get_put_other _ _ _ h)
    | _ + 4, _ + 4 => exact congrArg Vf.gran (Table.get_put_other _ _ _ h)
    | 0, 1 | 0, 2 | 0, 3 | 0, _ + 4 | 1, 0 | 1, 2 | 1, 3 | 1, _ + 4 | 2, 0 | 2, 1 | 2, 3 | 2, _ + 4 | 3, 0 | 3, 1 | 3, 2 | 3, _ + 4
    | _ + 4, 0 | _ + 4, 1 | _ + 4, 2 | _ + 4, 3 => rfl

/-- A braid joins with its place in the basin; its contexts 15 start, which concerns no braid and no basin. -/
theorem State.joinBraid_keeps {α : Type} {g : State → α} (h : ∀ u n b r, g (State.startSupervisor u n b r) = g u) (s : State) (n b : Nat)
    (joining : Bool) : g (s.joinBraid n b joining) = g (s.modBraid b fun x => { x with
      gran := { x.gran with state := .owned, basin := n, joining := joining }, index := s.freeIndex n, movedTo := none }) := by
  have hk (l : List Nat) (u : State) : g (l.foldl (fun t r => t.startSupervisor n b r) u) = g u :=
    foldl_keeps (fun t r _ => h t n b r) u
  exact hk _ _

theorem State.joinGranule_basins (s : State) (n : Nat) (joining : Bool) (g : Nat × Nat) : (s.joinGranule n joining g).basins = s.basins := by
  unfold State.joinGranule
  split
  · exact State.joinBraid_keeps (g := State.basins) (fun _ _ _ _ => rfl) s n g.2 joining
  · unfold State.modGran
    split <;> rfl

/-- A granule that joins a basin is OWNED by it; another one is as before. -/
theorem State.gran_joinGranule (s : State) (n : Nat) (joining : Bool) (g : Nat × Nat) (j m : Nat) :
    ((s.joinGranule n joining g).gran j m = s.gran j m
        ∨ (s.joinGranule n joining g).gran j m = { s.gran j m with state := .owned, basin := n, joining := joining })
      ∧ (s.joinGranule n joining g).gran g.1 g.2 = { s.gran g.1 g.2 with state := .owned, basin := n, joining := joining } := by
  obtain ⟨kind, i⟩ := g
  unfold State.joinGranule
  dsimp only
  split
  next h =>
    subst h
    have hk (k l : Nat) : (s.joinBraid n i joining).gran k l
        = (s.modGran 0 i fun x => { x with state := .owned, basin := n, joining := joining }).gran k l := by
      unfold State.gran
      split
      · rw [State.joinBraid_keeps (g := fun t => (t.braid l).gran) (fun _ _ _ _ => rfl)]
        simp only [State.modGran, State.braid, State.modBraid, State.setBraid, Table.get_put]
        split <;> rfl
      · rw [State.joinBraid_keeps (g := State.gslices) (fun _ _ _ _ => rfl)]
        exact Eq.trans (b := Table.get {} s.gslices l) rfl rfl
      · rw [State.joinBraid_keeps (g := State.gchans) (fun _ _ _ _ => rfl)]
        exact Eq.trans (b := Table.get {} s.gchans l) rfl rfl
      · rw [State.joinBraid_keeps (g := State.cores) (fun _ _ _ _ => rfl)]
        exact Eq.trans (b := (Table.get {} s.cores l).gran) rfl rfl
      · rw [State.joinBraid_keeps (g := State.vfs) (fun _ _ _ _ => rfl)]
        exact Eq.trans (b := (Table.get {} s.vfs l).gran) rfl rfl
    rw [hk, hk]
    exact ⟨(State.gran_modGran_cases s 0 i j m _).imp_right And.right, State.gran_modGran s 0 i _⟩
  · exact ⟨(State.gran_modGran_cases s kind i j m _).imp_right And.right, State.gran_modGran s kind i _⟩

/-- Every granule of a list that joins belongs to the basin in the end. -/
theorem State.ownedBy_joinGranules (n : Nat) (joining : Bool) (gs : List (Nat × Nat)) (s : State) {g : Nat × Nat}
    (h : g ∈ gs ∨ (s.gran g.1 g.2).ownedBy n = true) :
    ((gs.foldl (fun t x => t.joinGranule n joining x) s).gran g.1 g.2).ownedBy n = true := by
  have hown (x : Granule) : ({ x with state := .owned, basin := n, joining := joining } : Granule).ownedBy n = true := by
    simp [Granule.ownedBy]
  induction gs generalizing s with
  | nil => exact h.resolve_left List.not_mem_nil
  | cons x gs ih =>
    refine ih _ ?_
    rcases h with h | h
    · rcases List.mem_cons.1 h with rfl | h
      · exact .inr (by rw [(State.gran_joinGranule s n joining g g.1 g.2).2]; exact hown _)
      · exact .inl h
    · right
      rcases (State.gran_joinGranule s n joining x g.1 g.2).1 with he | he <;> rw [he]
      · exact h
      · exact hown _

theorem mem_foldl_setInsert {gs : List (Nat × Nat)} {l : List Nat} {j : Nat} :
    j ∈ gs.foldl (fun l g => setInsert l g.2) l ↔ j ∈ l ∨ ∃ g ∈ gs, g.2 = j := by
  induction gs generalizing l with
  | nil => simp
  | cons x gs ih =>
    simp only [List.foldl_cons, ih, mem_setInsert, List.mem_cons, exists_eq_or_imp]
    tauto

theorem mem_granuleOrder {gs : List (Nat × Nat)} {g : Nat × Nat} (h : g ∈ gs) (hk : g.1 < 5) : g ∈ granuleOrder gs := by
  refine List.mem_flatMap.2 ⟨g.1, List.mem_range.2 hk, List.mem_map.2 ⟨g.2, ?_, rfl⟩⟩
  exact mem_foldl_setInsert.2 (.inr ⟨g, List.mem_filter.2 ⟨h, beq_self_eq_true _⟩, rfl⟩)

theorem kind_of_mapGranules {m : Nat} {g : Nat × Nat} (h : g ∈ mapGranules m) : g.1 < 5 := by
  obtain ⟨k, hk, hg⟩ := List.mem_flatMap.1 h
  obtain ⟨i, -, rfl⟩ := List.mem_map.1 hg
  exact List.mem_range.1 hk

/-! ### The end of a basin (R428) -/

theorem State.cutBasin_calls (s : State) (n : Nat) : (s.cutBasin n).calls = s.calls := by
  have h (l : List (Nat × Nat)) (u : State) :
      (l.foldl (fun t e => t.modBraid e.1 fun x => { x with owed := setInsert x.owed e.2 }) u).calls = u.calls :=
    foldl_keeps (g := State.calls) (fun _ _ _ => by rfl) u
  exact h _ s

/-- The braids of a basin that is cut keep their states. -/
theorem State.gran_cutBasin (s : State) (n b : Nat) : ((s.cutBasin n).braid b).gran = (s.braid b).gran := by
  have h1 (l : List (Nat × Nat)) (u : State) :
      ((l.foldl (fun t e => t.modBraid e.1 fun x => { x with owed := setInsert x.owed e.2 }) u).braid b).gran = (u.braid b).gran :=
    foldl_keeps (g := fun t => (State.braid t b).gran) (fun t e _ => by
      simp only [State.braid, State.modBraid, State.setBraid, Table.get_put]
      split
      next h => rw [h]
      · rfl) u
  rw [← h1 (s.basin n).owed s, State.braid, State.cutBasin]
  dsimp only
  rw [Table.get_update _ _ _ _ (by split <;> rfl)]
  split <;> rfl

theorem mem_granulesOf_braid {s : State} {n b : Nat} (h : (s.braid b).gran.ownedBy n = true) : b ∈ s.granulesOf n 0 := by
  have hne : (s.braid b).gran.state ≠ .free := by
    intro hf
    rw [Granule.ownedBy, hf] at h
    simp at h
  have hlist : (b, s.braid b) ∈ s.braids := Table.mem_of_get_ne fun e => hne (congrArg (fun x : Braid => x.gran.state) e)
  have hb : b ∈ (s.braids.map Prod.fst).filter fun i => (s.gran 0 i).state != .free :=
    List.mem_filter.2 ⟨List.mem_map.2 ⟨_, hlist, rfl⟩, by simpa [State.gran] using hne⟩
  refine List.mem_map.2 ⟨(0, b), List.mem_filter.2 ⟨?_, by simpa [State.gran] using h⟩, rfl⟩
  simp only [State.granules, List.mem_append]
  exact .inl (.inl (.inl (.inl (List.mem_map.2 ⟨b, hb, rfl⟩))))

/-- Every granule of a list is SCRUBBING in the end. -/
theorem State.scrubbing_foldl (gs : List (Nat × Nat)) (s : State) {g : Nat × Nat}
    (h : g ∈ gs ∨ (s.gran g.1 g.2).state = .scrubbing) :
    ((gs.foldl (fun t x => t.modGran x.1 x.2 fun y => { y with state := .scrubbing, joining := false }) s).gran g.1 g.2).state
      = .scrubbing := by
  induction gs generalizing s with
  | nil => exact h.resolve_left List.not_mem_nil
  | cons x gs ih =>
    refine ih _ ?_
    rcases h with h | h
    · rcases List.mem_cons.1 h with rfl | h
      · exact .inr (by rw [State.gran_modGran])
      · exact .inl h
    · right
      rcases State.gran_modGran_cases s x.1 x.2 g.1 g.2 (fun y => { y with state := .scrubbing, joining := false }) with he | ⟨-, he⟩ <;>
        rw [he]
      exact h

/-- The state in which a basin's number may be free again. -/
def State.destroyed (s : State) (n : Nat) : State :=
  let s1 := (s.cutBasin n).modBasin n fun x => { x with alive := false, token := {} }
  ((List.range 5).flatMap fun k => (s1.granulesOf n k).map fun i => (k, i)).foldl
    (fun t g => t.modGran g.1 g.2 fun y => { y with state := .scrubbing, joining := false }) s1

theorem State.destroy_eq (s : State) (n : Nat) : s.destroy n = (s.destroyed n).freeNumber n := rfl

theorem State.destroyed_calls (s : State) (n : Nat) : (s.destroyed n).calls = s.calls := by
  have h (l : List (Nat × Nat)) (u : State) :
      (l.foldl (fun t g => t.modGran g.1 g.2 fun y => { y with state := .scrubbing, joining := false }) u).calls = u.calls :=
    foldl_keeps (g := State.calls) (fun t g _ => by unfold State.modGran; split <;> rfl) u
  rw [State.destroyed, h]
  exact s.cutBasin_calls n

/-- A number that is not free stays as it is. -/
theorem State.freeNumber_held {s : State} {n : Nat} (h : (s.freeNumber n).vacant n = false) : s.freeNumber n = s := by
  unfold State.freeNumber at h ⊢
  split
  next hv =>
    rw [if_pos hv] at h
    have hvac : s.vacant n = true := (Bool.and_eq_true_iff.1 hv).2
    exact absurd (h.symm.trans hvac) Bool.false_ne_true
  · rfl

theorem State.freeNumber_braids (s : State) (n : Nat) : (s.freeNumber n).braids = s.braids := by
  unfold State.freeNumber
  split <;> rfl

/-- The braids of a basin that is destroyed are to be scrubbed. -/
theorem State.scrubbing_destroy {s : State} {n b : Nat} (h1 : (s.braid b).gran.state = .owned) (h2 : (s.braid b).gran.basin = n) :
    ((s.destroy n).braid b).gran.state = .scrubbing := by
  have hb : ((s.destroy n).braid b) = (s.destroyed n).braid b := by
    rw [State.destroy_eq, State.braid, State.freeNumber_braids, State.braid]
  rw [hb]
  let s1 := (s.cutBasin n).modBasin n fun x => { x with alive := false, token := {} }
  have hown : (s1.braid b).gran.ownedBy n = true := by
    change ((s.cutBasin n).braid b).gran.ownedBy n = true
    rw [State.gran_cutBasin, Granule.ownedBy, h1, h2]
    simp
  have hmem : ((0, b) : Nat × Nat) ∈ (List.range 5).flatMap fun k => (s1.granulesOf n k).map fun i => (k, i) :=
    List.mem_flatMap.2 ⟨0, List.mem_range.2 (by decide), List.mem_map.2 ⟨b, mem_granulesOf_braid hown, rfl⟩⟩
  have hd : s.destroyed n = ((List.range 5).flatMap fun k => (s1.granulesOf n k).map fun i => (k, i)).foldl
    (fun t g => t.modGran g.1 g.2 fun y => { y with state := .scrubbing, joining := false }) s1 := rfl
  rw [hd]
  generalize (List.range 5).flatMap (fun k => (s1.granulesOf n k).map fun i => (k, i)) = gs at hmem ⊢
  exact State.scrubbing_foldl gs s1 (g := (0, b)) (.inl hmem)

/-! ### Doorbells and the end of a call (R431) -/

theorem doorbell_mailbox (i block : Nat) (s : State) :
    (List.range 32).foldl (fun t j => ({ t with mailbox := t.mailbox.put (i * 32 + j) (w64 (block / 2 ^ (64 * j))) } : State)) s
      = { s with mailbox := (List.range 32).foldl (fun t j => t.put (i * 32 + j) (w64 (block / 2 ^ (64 * j)))) s.mailbox } := by
  generalize List.range 32 = l
  induction l generalizing s with
  | nil => rfl
  | cons j l ih => exact ih _

/-- A doorbell of a slot that is not in service puts the block and the call into it. -/
theorem exec_echo_doorbell {s : State} {i block : Nat} (hi : i < 16) (h : ∀ q ∈ s.calls, ¬ (q.caller = 64 ∧ q.slot = i)) :
    exec (.echo (2 * (i + 16 * block) + 1)) s = .next { s with
      nextId := s.nextId + 1, mailStatus := s.mailStatus.put i inService
      mailbox := (List.range 32).foldl (fun t j => t.put (i * 32 + j) (w64 (block / 2 ^ (64 * j)))) s.mailbox
      calls := s.calls ++ [{ id := s.nextId, caller := hostCaller, service := 31, slot := i }] } := by
  have hfree : (s.calls.any fun c => c.caller == hostCaller && c.slot == i) = false := by
    rw [List.any_eq_false]
    intro q hq
    simpa [hostCaller] using h q hq
  change execEcho _ s = _
  rw [execEcho, service, if_pos (by omega), show (2 * (i + 16 * block) + 1) / 2 % 16 = i by omega,
    show (2 * (i + 16 * block) + 1) / 32 = block by omega, State.doorbell, doorbell_mailbox]
  dsimp only
  rw [if_neg (by rw [hfree]; exact Bool.false_ne_true)]

/-- The choice of an image concerns images only. -/
theorem State.switchImage_eq (s : State) (k : Nat) : s.switchImage k = { s with images := (s.switchImage k).images } := by
  unfold State.switchImage
  dsimp only
  split
  · split <;> rfl
  · rfl

section
variable {s : State} {n : Nat} {q : Call} (hq : s.calls.find? (fun c => c.id == n && c.phase == 2) = some q)
include hq

theorem serviceComplete_host (hc : q.caller = hostCaller) : ∃ t, exec (.serviceComplete n) s = .next t
    ∧ t.mailStatus.get 0 q.slot = q.status ∧ (∀ y ∈ t.calls, y.id ≠ n) ∧ t.msix = s.msix ++ [1] := by
  let s1 := ({ s with calls := s.calls.filter fun x => x.id != n } : State).switchImage q.service
  have hx : exec (.serviceComplete n) s
      = .next { s1 with mailStatus := s1.mailStatus.put q.slot q.status, msix := s1.msix ++ [1] } := by
    change execServiceComplete n s = _
    rw [execServiceComplete, hq]
    exact if_pos hc
  have h1 : s1 = { s with calls := s.calls.filter fun x => x.id != n, images := s1.images } := State.switchImage_eq _ _
  refine ⟨_, hx, Table.get_put_same _ _ _ _, fun y hy => ?_, by rw [h1]⟩
  rw [h1] at hy
  simpa using (List.mem_filter.1 hy).2

theorem serviceComplete_caller (hc : q.caller ≠ hostCaller) {d : Dest} (hw : (s.ctx q.pos).wait = some (.service d n)) :
    ∃ t, exec (.serviceComplete n) s = .next t ∧ (t.ctx q.pos).wait = none ∧ (∀ y ∈ t.calls, y.id ≠ n)
      ∧ ∀ m, d = .g m → (t.ctx q.pos).cellAt (.g m) = { val := q.status } := by
  have hx : exec (.serviceComplete n) s = .next ((({ s with calls := s.calls.filter fun x => x.id != n } : State).switchImage
      q.service).modCtx q.pos fun x => { (x.setCellAt d { val := q.status }) with wait := none }) := by
    have hw1 : ((({ s with calls := s.calls.filter fun x => x.id != n } : State).switchImage q.service).ctx q.pos).wait
        = some (.service d n) := by
      rw [State.switchImage_eq]
      exact hw
    change execServiceComplete n s = _
    rw [execServiceComplete, hq]
    dsimp only
    rw [if_neg hc, hw1]
    exact if_pos rfl
  refine ⟨_, hx, by rw [State.ctx_modCtx], fun y hy => ?_, fun m hm => ?_⟩
  · rw [State.switchImage_eq] at hy
    simpa using (List.mem_filter.1 hy).2
  · subst hm
    rw [State.ctx_modCtx]
    exact Table.get_put_same _ _ _ _

end

/-! ### The services -/

section
variable {s s2 s3 : State} {c : Call} {ps qs : List (Nat × Nat)} {ws : List Word}

theorem createBasin_creates {x : Ask} {gs : List (Nat × Nat)} {s : State} (hk : ∀ g ∈ gs, g.1 < 5)
    (hs : ((granuleOrder gs).filter fun g => g.1 == 1).map Prod.snd ≠ []) (ha : ∀ g ∈ gs, s.available g = true)
    (hn : s.freeBasins ≠ []) :
    ∃ t m, createBasin x gs s = .ends t 0 [(1, w64 m)] ∧ m ∈ s.freeBasins ∧ (t.basin m).alive = true
      ∧ (t.basin m).slices = ((granuleOrder gs).filter fun g => g.1 == 1).map Prod.snd ∧ (t.basin m).entry = x.w 2
      ∧ (t.basin m).aspace = x.w 3 ∧ ∀ g ∈ gs, (t.gran g.1 g.2).ownedBy m = true := by
  have hlt : (Config.freeWord s.free).toNat % s.freeBasins.length < s.freeBasins.length :=
    Nat.mod_lt _ (List.length_pos_iff.2 hn)
  have hget := List.getElem?_eq_getElem hlt
  have hempty : (((granuleOrder gs).filter fun g => g.1 == 1).map Prod.snd).isEmpty = false := by simpa using hs
  have hall : (gs.any fun g => !s.available g) = false := by
    rw [List.any_eq_false]
    intro g hg
    rw [ha g hg]
    exact Bool.false_ne_true
  unfold createBasin
  dsimp only
  rw [if_neg (by rw [hempty]; exact Bool.false_ne_true), if_neg (by rw [hall]; exact Bool.false_ne_true), hget]
  have hb (l : List (Nat × Nat)) (m : Nat) (u : State) : (l.foldl (fun t g => t.joinGranule m false g) u).basins = u.basins :=
    foldl_keeps (g := State.basins) (fun t g _ => t.joinGranule_basins m false g) u
  have hmem : ∀ g ∈ gs, g ∈ granuleOrder gs := fun g hg => mem_granuleOrder hg (hk g hg)
  refine ⟨_, _, rfl, List.getElem_mem hlt, ?_, ?_, ?_, ?_, fun g hg => ?_⟩
  case refine_5 =>
    have hg := hmem g hg
    generalize granuleOrder gs = l at hg ⊢
    exact State.ownedBy_joinGranules _ false l _ (.inl hg)
  all_goals
    rw [State.basin, hb, State.setBasin, Table.get_put_same]

theorem basinCreate_returns (h : s.admits 1 c ps ws s2) (ha : field (ws.getD 1 0) 5 0 = 0)
    (hb : s2.buffer c (ws.getD 1 0) 512 false = (s3, .at qs)) (hl : mapLegal (s3.bufValue qs) = true) {t : State} {st : Nat}
    {rs : List (Nat × Word)}
    (hc : createBasin ⟨c, field (ws.getD 0 0) 5 0, ws⟩ (mapGranules (s3.bufValue qs)) s3 = .ends t st rs) :
    s.returns .basinCreate c ps t st rs := by
  refine returns_of_ends (fun _ _ => rfl) h ?_
  dsimp only [Ask.w]
  rw [withMap_at ha hb hl]
  exact hc

theorem basinDestroy_runs (h : s.admits 2 c ps ws s2) (hv : (s2.destroy (field (ws.getD 0 0) 5 0)).vacant (field (ws.getD 0 0) 5 0) = false) :
    ∃ t, exec (.basinDestroy (2 * c.id)) s = .next t ∧ (∀ x ∈ t.calls, x.id = c.id → x.phase = 1 ∧ x.target = field (ws.getD 0 0) 5 0)
      ∧ t.basins = (s2.destroy (field (ws.getD 0 0) 5 0)).basins := by
  refine ⟨_, exec_of_runs (t := s2.destroy (field (ws.getD 0 0) 5 0)) (fun _ _ => rfl) h ?_, fun x hx hid => ?_, by dsimp only⟩
  · dsimp only
    rw [if_neg (by rw [hv]; exact Bool.false_ne_true)]
  · dsimp only at hx
    obtain ⟨y, hy, rfl⟩ := List.mem_map.1 hx
    rw [State.destroy_eq, State.freeNumber_held (s := s2.destroyed _) hv, State.destroyed_calls] at hy
    by_cases hyc : y.id = c.id
    · simp [hyc, phase_of_admitted h y hy hyc]
    · simp [hyc] at hid

end

theorem checkResize_deadline {us : Nat} (h : us < 100 ∨ 1000000 < us) (n : Nat) (add remove : List (Nat × Nat)) (dest : Table Nat)
    (s : State) : checkResize n add remove dest us s = 1 := by
  unfold checkResize
  dsimp only
  rw [if_pos]
  rcases h with h | h <;> simp [h]

section
variable {s s2 s3 : State} {c : Call} {ps qs : List (Nat × Nat)} {ws : List Word}

/-- A resize with legal maps is checked and queued. -/
theorem basinResize_returns {s4 s5 : State} {ps4 ps5 : List (Nat × Nat)} (h : s.admits 3 c ps ws s2) (h1 : field (ws.getD 1 0) 5 0 = 0)
    (h2 : field (ws.getD 2 0) 5 0 = 0) (hb : s2.buffer c (ws.getD 1 0) 512 false = (s3, .at qs))
    (hb4 : s3.buffer c (ws.getD 2 0) 512 false = (s4, .at ps4)) (hb5 : s4.buffer c (ws.getD 3 0) 1024 false = (s5, .at ps5))
    (hl : mapLegal (s3.bufValue qs) = true) (hl4 : mapLegal (s4.bufValue ps4) = true) {n us : Nat} {add remove : List (Nat × Nat)}
    {dest : Table Nat} (hn : n = field (ws.getD 0 0) 5 0) (hadd : add = mapGranules (s3.bufValue qs))
    (hrem : remove = mapGranules (s4.bufValue ps4)) (hdest : dest = destTable (s5.bufValue ps5) remove)
    (hus : us = field (ws.getD 4 0) 31 0) :
    (checkResize n add remove dest us s5 = 0 → s.returns .basinResize c ps
        (s5.queueResize n { add := add, remove := remove, dest := dest, deadline := us, seq := 0 }).1 0
        [(1, w64 (s5.queueResize n { add := add, remove := remove, dest := dest, deadline := us, seq := 0 }).2)])
      ∧ (checkResize n add remove dest us s5 ≠ 0 → s.returns .basinResize c ps s5 (checkResize n add remove dest us s5) []) := by
  refine ⟨fun hz => returns_of_ends (fun _ _ => rfl) h ?_, fun hz => returns_of_ends (fun _ _ => rfl) h ?_⟩ <;>
    dsimp only [Ask.w] <;>
    rw [withMap_at h1 hb hl, withMap_at h2 hb4 hl4, onBuffer_at hb5, ← hn, ← hadd, ← hrem, ← hdest, ← hus]
  · rw [hz]
    rfl
  · split
    · next h0 => exact absurd h0 hz
    · rfl

theorem onCore_missing {x : Ask} {s : State} (h : s.grants x.target 3 (field (x.w 1) 6 0) = false) (k : Nat → Core → Answer) :
    onCore x s k = failed s 2 := by
  rw [onCore, h]
  rfl

theorem onCore_granted {x : Ask} {s : State} (h : s.grants x.target 3 (field (x.w 1) 6 0) = true) (k : Nat → Core → Answer) :
    onCore x s k = k (field (x.w 1) 6 0) (s.cores.get {} (field (x.w 1) 6 0)) := by
  rw [onCore, h]
  rfl

end

theorem ringSize_false {k : Nat} (h : k < 4 ∨ 12 < k) : ringSize k = false := by
  rw [ringSize, decide_eq_false_iff_not]
  omega

theorem ringSize_true {k : Nat} (h4 : 4 ≤ k) (h12 : k ≤ 12) : ringSize k = true := decide_eq_true ⟨h4, h12⟩

/-- Settles O50. -/
theorem basinServices : Obligations.BasinServices := by
  unfold Obligations.BasinServices
  intro s s2 s3 c ps qs ws w n bs
  refine ⟨?create, ?destroy, ?resize, ?status, ?queueConfig, fun h => returns_of_ends (fun _ _ => rfl) h rfl,
    fun h => returns_of_ends (fun _ _ => rfl) h rfl, ?hmsg, ?notify, ?core, fun h => returns_of_ends (fun _ _ => rfl) h rfl,
    ?doorbell, ?complete⟩
  case create =>
    intro h ha hb hl gs slices
    refine ⟨fun hs => basinCreate_returns h ha hb hl ?_, fun hs hg => basinCreate_returns h ha hb hl ?_, fun hs hg hn => ?_⟩
    · rw [createBasin, if_pos (List.isEmpty_iff.2 hs), failed]
    · obtain ⟨g, hg, hav⟩ := hg
      rw [createBasin, if_neg (mt List.isEmpty_iff.1 hs), if_pos (List.any_eq_true.2 ⟨g, hg, by rw [hav]; rfl⟩), failed]
    · obtain ⟨t, m, he, hm⟩ := createBasin_creates (x := ⟨c, n, ws⟩) (fun g hg => kind_of_mapGranules hg) hs hg hn
      exact ⟨t, m, basinCreate_returns h ha hb hl he, hm⟩
  case destroy =>
    intro h
    refine ⟨fun hv => returns_of_ends (fun _ _ => rfl) h (if_pos hv), basinDestroy_runs h, fun b h1 h2 => State.scrubbing_destroy h1 h2⟩
  case resize =>
    intro h h1 h2 s4 s5 ps4 ps5 hb hb4 hb5 hl hl4 add remove dest us z
    obtain ⟨hok, hbad⟩ := basinResize_returns h h1 h2 hb hb4 hb5 hl hl4 (n := n) rfl rfl rfl rfl rfl
    exact ⟨hok, hbad, fun hus => checkResize_deadline hus _ _ _ _ _⟩
  case status =>
    intro h ha hb
    refine returns_of_ends (fun _ _ => rfl) h ?_
    dsimp only [Ask.w]
    rw [writeMap_at ha hb]
  case queueConfig =>
    intro h q vf
    refine ⟨fun hv => returns_of_ends (fun _ _ => rfl) h (if_pos hv), fun h0 hv hg => returns_of_ends (fun _ _ => rfl) h ?_,
      fun hv => returns_of_ends (fun _ _ => rfl) h ?_⟩
    · exact (if_neg (Nat.not_lt.2 hv)).trans (if_pos (show (vf != 0 && !s2.grants n 4 vf) = true by simp [h0, hg]))
    · have h1 : ¬ 1024 < vf := by omega
      have h2 : ¬ (vf != 0 && !s2.grants n 4 vf) = true := by
        rcases hv with hv | ⟨-, hv⟩ <;> simp [hv]
      exact (if_neg h1).trans (if_neg h2)
  case hmsg =>
    intro h vf k ring
    have hok (hv : vf ≤ 1024) (h4 : 4 ≤ k) (h12 : k ≤ 12) : ¬ (decide (1024 < vf) || !ringSize k) = true := by
      simp [ringSize_true h4 h12, hv]
    refine ⟨fun hv => returns_of_ends (fun _ _ => rfl) h (if_pos (show (decide (1024 < vf) || !ringSize k) = true from ?_)),
      fun h0 h4 h12 => returns_of_ends (fun _ _ => rfl) h ((if_neg (hok (h0 ▸ Nat.zero_le _) h4 h12)).trans (if_pos h0)),
      fun h0 hv h4 h12 hg => returns_of_ends (fun _ _ => rfl) h ?_, fun h0 hv h4 h12 hg => returns_of_ends (fun _ _ => rfl) h ?_⟩
    · rcases hv with hv | hv
      · simp [hv]
      · simp [ringSize_false hv]
    · exact (if_neg (hok hv h4 h12)).trans ((if_neg h0).trans (if_pos (show (!s2.grants n 4 vf) = true by simp [hg])))
    · exact (if_neg (hok hv h4 h12)).trans ((if_neg h0).trans (if_neg (show ¬ (!s2.grants n 4 vf) = true by simp [hg])))
  case notify =>
    intro h vf k
    refine ⟨fun hv => returns_of_ends (fun _ _ => rfl) h (if_pos
      (show (decide (vf = 0) || decide (1024 < vf) || !ringSize k) = true from ?_)), fun h0 hv hg h4 h12 =>
        returns_of_ends (fun _ _ => rfl) h ((if_neg (show ¬ (decide (vf = 0) || decide (1024 < vf) || !ringSize k) = true from ?_)).trans
          (if_neg (show ¬ (!s2.grants n 4 vf) = true by simp [hg])))⟩
    · rcases hv with hv | hv | hv
      · simp [hv]
      · simp [hv]
      · simp [ringSize_false hv]
    · simp [ringSize_true h4 h12, h0, hv]
  case core =>
    have hon := onCore_granted (x := ⟨c, n, ws⟩) (s := s2)
    refine ⟨fun hg => ?_, fun hg => ?_⟩
    · refine ⟨fun h => ?_, fun h => ?_, fun h => ?_, fun h => ?_⟩ <;>
        exact returns_of_ends (fun _ _ => rfl) h (onCore_missing (x := ⟨c, n, ws⟩) hg _)
    · refine ⟨fun h => ?_, fun h => ⟨fun hr => ?_, fun hr => ?_⟩, fun h => ⟨fun hr => ?_, fun hr => ?_⟩,
        fun h => ⟨fun hr => ?_, fun hr hb => ?_⟩⟩
      · exact returns_of_ends (fun _ _ => rfl) h (hon hg _)
      · exact returns_of_ends (fun _ _ => rfl) h ((hon hg _).trans (if_neg fun hb => bne_iff_ne.1 hb hr))
      · exact returns_of_ends (fun _ _ => rfl) h ((hon hg _).trans (if_pos (bne_iff_ne.2 hr)))
      · exact returns_of_ends (fun _ _ => rfl) h ((hon hg _).trans (if_pos hr))
      · exact ⟨_, returns_of_ends (fun _ _ => rfl) h ((hon hg _).trans (if_neg hr)),
          congrArg Core.run (Table.get_put_same _ _ _ _)⟩
      · exact returns_of_ends (fun _ _ => rfl) h ((hon hg _).trans (if_pos (bne_iff_ne.2 hr)))
      · exact returns_of_ends (fun _ _ => rfl) h ((hon hg _).trans ((if_neg fun hb => bne_iff_ne.1 hb hr).trans (onBuffer_at hb _)))
  case doorbell =>
    intro i block hi hq
    refine ⟨_, exec_echo_doorbell hi hq, Table.get_put_same _ _ _ _, fun j hj => ?_, rfl⟩
    dsimp only
    rw [Table.get_putRun (α := Word) 0 s.mailbox (i * 32) 32 (fun j => w64 (block / 2 ^ (64 * j))), if_pos (by omega),
      Nat.add_sub_cancel_left]
  case complete => exact fun q hq => ⟨serviceComplete_host hq, fun hc d hw => serviceComplete_caller hq hc hw⟩

end Sys2Proof.Machine
end

section
/-! PROOFS. Services on windows, errors, retirement, power, images and package links (R429 to R448, R458). -/

namespace Sys2Proof.Machine

/-! ### The event ring -/

/-- What the event ring, a written line and a recalled line leave alone, a host event does. -/
theorem State.hostEvent_keeps {α : Type} {g : State → α} (hr : ∀ u n, g (State.recall u n) = g u) (hw : ∀ u n, g (State.wrote u n) = g u)
    (hx : ∀ (u : State) ms ring m f rq, g { u with msix := ms, eventRing := ring, mem := m, free := f, requests := rq } = g u) (s : State) :
    g s.hostEvent = g s := by
  unfold State.hostEvent
  split
  · rfl
  · dsimp only
    split
    · exact hx s _ s.eventRing s.mem s.free s.requests
    · unfold State.ringWrote State.wroteAll
      refine (foldl_keeps (fun u n _ => hw u n) _).trans ?_
      exact (hx _ _ _ _ _ _).trans ((foldl_keeps (fun u n _ => hr u n) _).trans (hx s _ _ _ _ s.requests))

theorem State.images_hostEvent (s : State) : s.hostEvent.images = s.images :=
  State.hostEvent_keeps (g := State.images) (fun _ _ => rfl) (fun _ _ => rfl) (fun _ _ _ _ _ _ => rfl) s

/-! ### Retirement (R427, R429, R430) -/

/-- A retirement of a basin that has no request waiting comes next, under the next sequence number. -/
theorem State.queueRetire_first {s : State} {n : Nat} (retire : Option (Nat × Nat)) (remove : List (Nat × Nat))
    (h : (s.basin n).waiting = []) : ∃ t z, s.queueRetire n retire remove = (t, ((s.basin n).rseq + 1) % 65536)
      ∧ (t.basin n).waiting = [z] ∧ z.remove = remove ∧ z.retire = retire ∧ ∀ kind i, t.gran kind i = s.gran kind i := by
  refine ⟨(s.queueRetire n retire remove).1,
    { add := [], remove := remove, deadline := 100 + (Config.freeWord s.free).toNat % 999901
      seq := ((s.basin n).rseq + 1) % 65536, retire := retire }, ?_, ?_, rfl, rfl, fun kind i => ?_⟩
  · rw [State.queueRetire, h]
    rfl
  · rw [State.queueRetire, State.basin_modBasin, h]
    exact congrArg (· ++ _) h
  · unfold State.gran
    split <;> rfl

theorem State.basin_modGran (s : State) (kind i : Nat) (f : Granule → Granule) (n : Nat) : (s.modGran kind i f).basin n = s.basin n := by
  unfold State.modGran
  split <;> rfl

theorem retireGranule_free {x : Ask} {kind i : Nat} {s : State} (h : (s.gran kind i).state = .free) :
    retireGranule x kind i s = .ends (s.modGran kind i fun y => { y with retiring := true }) 0 [(1, 0)] := by
  unfold retireGranule
  dsimp only
  rw [h]

/-- A channel of the target basin leaves in a resize that the basin queues. -/
theorem retireGranule_channel {x : Ask} {i : Nat} {s : State} (h : s.gran 2 i = { state := .owned, basin := x.target })
    (hc : (s.basin x.target).contained = false) (hw : (s.basin x.target).waiting = []) :
    ∃ t z, retireGranule x 2 i s = .ends t 0 [(1, w64 (((s.basin x.target).rseq + 1) % 65536))]
      ∧ (t.basin x.target).waiting = [z] ∧ z.remove = [(2, i)] ∧ (t.gran 2 i).retiring = true := by
  let s1 := s.modGran 2 i fun y => { y with retiring := true }
  have hb : s1.basin x.target = s.basin x.target := s.basin_modGran 2 i _ x.target
  obtain ⟨t, z, ht, hz, hr, -, hg⟩ := s1.queueRetire_first none [(2, i)] (by rw [hb]; exact hw)
  refine ⟨t, z, ?_, hz, hr, by rw [hg, State.gran_modGran]⟩
  unfold retireGranule
  dsimp only
  rw [h]
  dsimp only
  rw [if_neg (by simp [hc]), if_neg (by simp), ht, hb]

theorem retireRill_queued {x : Ask} {b r : Nat} {s : State} (hr : r < 8) (hl : (s.braid b).l2p = [])
    (hs : (s.braid b).spare.isSome = true) (hg : (s.braid b).gran = { state := .owned, basin := x.target })
    (hc : (s.basin x.target).contained = false) (hw : (s.basin x.target).waiting = []) :
    ∃ t z, retireRill x b r s = .ends t 0 [(1, w64 (((s.basin x.target).rseq + 1) % 65536))]
      ∧ (t.basin x.target).waiting = [z] ∧ z.retire = some (b, r) := by
  obtain ⟨t, z, ht, hz, -, hret, -⟩ := s.queueRetire_first (some (b, r)) [] hw
  have hfind : ((List.range 8).find? fun q => (s.braid b).l2p.get q q == r) = some r := by
    rw [List.find?_range_eq_some, hl]
    refine ⟨by simp, List.mem_range.2 hr, fun q hq => ?_⟩
    rw [Table.get_nil, beq_eq_false_iff_ne.2 (Nat.ne_of_lt hq)]
    rfl
  have hspare : (s.braid b).spare.isNone = false := by rw [← Option.not_isSome, hs]; rfl
  refine ⟨t, z, ?_, hz, hret⟩
  unfold retireRill
  dsimp only
  rw [hfind]
  dsimp only
  rw [if_neg (by rw [hspare]; exact Bool.false_ne_true), hg]
  dsimp only
  rw [if_neg (by decide), if_neg (by decide), if_neg (by simp [hc]), ht]

/-! ### Routes and grants of ZCL (R445) -/

theorem Table.get_mapKeys {α : Type} (d : α) (l : List Nat) (f : Nat → α) (k : Nat) :
    Table.get d (l.map fun i => (i, f i)) k = if k ∈ l then f k else d := by
  induction l with
  | nil => rfl
  | cons i l ih =>
    simp only [List.map_cons, Table.get, ih, List.mem_cons]
    by_cases h : i = k
    · subst h; simp
    · simp [h, Ne.symm h]

/-- The routes that name a port for a package. -/
theorem get_routes {port : Nat → Nat} {p : Nat} (hp : p < 256) :
    Table.get 0xFF (((List.range 256).filter fun i => port i != 0xFF).map fun i => (i, port i)) p = port p := by
  rw [Table.get_mapKeys]
  split
  · rfl
  next h =>
    by_contra hne
    exact h (List.mem_filter.2 ⟨List.mem_range.2 hp, bne_iff_ne.2 (Ne.symm hne)⟩)

/-- A host's buffer is not translated. -/
theorem bufFrom_host {c : Call} (hc : c.caller = hostCaller) (w : Bool) (agent : Nat) (l : List (Nat × Nat)) (s : State) :
    (bufFrom c w agent l s).1 = s := by
  induction l generalizing s with
  | nil => rfl
  | cons e l ih =>
    obtain ⟨va, k⟩ := e
    have hp : s.bufPiece c va w agent = (s, if va < 2 ^ 64 then .at [(hostAddr va, 0)] else .bad) := if_pos hc
    rw [bufFrom, hp]
    by_cases hv : va < 2 ^ 64
    · rw [if_pos hv]
      dsimp only
      split
      next s2 qs h =>
        have := ih s
        rw [h] at this
        exact this
      · exact ih s
    · rw [if_neg hv]

theorem State.buffer_host_read {s s1 : State} {c : Call} {qs : List (Nat × Nat)} {va : Word} {n : Nat} (hc : c.caller = hostCaller)
    (h : s.buffer c va n false = (s1, .at qs)) : s1 = s := by
  rw [← bufFrom_host hc false (callAgent c.id va) (pieces (n / 4096 + 2) va.toNat n) s]
  unfold State.buffer at h
  dsimp only at h
  split at h
  next s2 ps h2 =>
    rw [h2]
    exact (congrArg Prod.fst h).symm
  · rw [h]

/-- What a grant of ranges of a package to a basin lets it reach. -/
theorem State.owns_granted {s : State} {n pk i m : Nat} (hz : s.zclIn = regrant [] ((onesOf m 0 512).map fun c => pk * 512 + c) n false)
    (hp : pk ≠ s.zclNumber) (hk : pk < 256) (hi : i < 512) : s.owns n (2 ^ 44 + pk * 2 ^ 40 + i * 2 ^ 31) = hasBit m i := by
  have h1 : ¬ 2 ^ 44 + pk * 2 ^ 40 + i * 2 ^ 31 < hbmTop := by unfold hbmTop; omega
  have h2 : (2 ^ 44 + pk * 2 ^ 40 + i * 2 ^ 31 - zclBase) / 2 ^ 40 = pk := by unfold zclBase; omega
  have h3 : (2 ^ 44 + pk * 2 ^ 40 + i * 2 ^ 31 - zclBase) / 2 ^ 31 = pk * 512 + i := by unfold zclBase; omega
  have h4 : (decide (zclBase ≤ 2 ^ 44 + pk * 2 ^ 40 + i * 2 ^ 31) && decide (2 ^ 44 + pk * 2 ^ 40 + i * 2 ^ 31 < 2 ^ 52)) = true := by
    unfold zclBase
    rw [Bool.and_eq_true, decide_eq_true_iff, decide_eq_true_iff]
    omega
  rw [State.owns, if_neg h1, h2, h3, h4, Bool.true_and, if_pos (bne_iff_ne.2 hp), hz, Bool.eq_iff_iff, List.any_eq_true]
  simp only [regrant, List.filter_nil, List.nil_append, Bool.false_eq_true, if_false, List.mem_map, onesOf, List.mem_filter,
    List.mem_range, Nat.zero_add]
  constructor
  · rintro ⟨g, ⟨k, ⟨j, ⟨-, hj⟩, rfl⟩, rfl⟩, hg⟩
    simp only [Bool.and_eq_true, beq_iff_eq] at hg
    rwa [show i = j by omega]
  · exact fun h => ⟨_, ⟨_, ⟨i, ⟨hi, h⟩, rfl⟩, rfl⟩, by simp⟩

/-! ### The services -/

section
variable {s s2 s3 : State} {c : Call} {ps qs : List (Nat × Nat)} {ws : List Word}

theorem errlogRead_returns (h : s.admits 15 c ps ws s2) {es : List ErrEntry}
    (hh : c.caller = hostCaller → es = s2.errlog.take (field (ws.getD 2 0) 15 0))
    (hg : ¬ c.caller = hostCaller →
      es = (s2.errlog.filter fun e => e.basin == some (field (ws.getD 0 0) 5 0)).take (field (ws.getD 2 0) 15 0))
    (hb : s2.buffer c (ws.getD 1 0) (64 * es.length) true = (s3, .at qs)) :
    ∃ t, s.returns .errlogRead c ps t 0 [(3, w64 es.length)]
      ∧ t.mem = (storeBuf qs (packWords (es.flatMap fun e => e.words)) s3).mem
      ∧ t.errlog = (storeBuf qs (packWords (es.flatMap fun e => e.words)) s3).errlog := by
  by_cases hc : c.caller = hostCaller
  · have hask : (⟨c, field (ws.getD 0 0) 5 0, ws⟩ : Ask).host = true := beq_iff_eq.2 hc
    refine ⟨_, returns_of_ends (fun _ _ => rfl) h (t := { storeBuf qs (packWords (es.flatMap fun e => e.words)) s3 with
      errRead := max (storeBuf qs (packWords (es.flatMap fun e => e.words)) s3).errRead es.length }) ?_, rfl, rfl⟩
    dsimp only [Ask.w]
    rw [hask, if_pos rfl, ← hh hc, onBuffer_at hb]
    rfl
  · have hask : (⟨c, field (ws.getD 0 0) 5 0, ws⟩ : Ask).host = false := beq_eq_false_iff_ne.2 hc
    refine ⟨_, returns_of_ends (fun _ _ => rfl) h (t := storeBuf qs (packWords (es.flatMap fun e => e.words)) s3) ?_, rfl, rfl⟩
    dsimp only [Ask.w]
    rw [hask, if_neg Bool.false_ne_true, ← hg hc, onBuffer_at hb]
    rfl

/-- A number outside its range is refused. -/
theorem retireRequest_refused (h : s.admits 17 c ps ws s2) {kind i : Nat} (hk : kind = field (ws.getD 1 0) 1 0)
    (hi : i = (ws.getD 2 0).toNat) (hr : kind = 3 ∨ (kind = 2 ∧ 512 ≤ i) ∨ (kind = 1 ∧ 1024 ≤ i) ∨ (kind = 0 ∧ (8192 ≤ i ∨ 8 < i % 16))) :
    s.returns .retireRequest c ps s2 1 [] := by
  refine returns_of_ends (fun _ _ => rfl) h ?_
  dsimp only [Ask.w]
  rw [← hk, ← hi]
  rcases hr with rfl | ⟨rfl, hr⟩ | ⟨rfl, hr⟩ | ⟨rfl, hr⟩
  · rfl
  · exact if_pos hr
  · exact if_pos hr
  · refine if_pos ?_
    rcases hr with hr | hr <;> simp [hr]

theorem retireRequest_channel (h : s.admits 17 c ps ws s2) (hk : field (ws.getD 1 0) 1 0 = 2) (hi : (ws.getD 2 0).toNat < 512)
    {t : State} {rs : List (Nat × Word)}
    (ht : retireGranule ⟨c, field (ws.getD 0 0) 5 0, ws⟩ 2 (ws.getD 2 0).toNat s2 = .ends t 0 rs) :
    s.returns .retireRequest c ps t 0 rs := by
  refine returns_of_ends (fun _ _ => rfl) h ?_
  dsimp only [Ask.w]
  rw [hk]
  exact (if_neg (Nat.not_le.2 hi)).trans ht

theorem retireRequest_rill (h : s.admits 17 c ps ws s2) (hk : field (ws.getD 1 0) 1 0 = 0) (hi : (ws.getD 2 0).toNat < 8192)
    (hr : (ws.getD 2 0).toNat % 16 ≤ 8) {t : State} {rs : List (Nat × Word)}
    (ht : retireRill ⟨c, field (ws.getD 0 0) 5 0, ws⟩ ((ws.getD 2 0).toNat / 16) ((ws.getD 2 0).toNat % 16) s2 = .ends t 0 rs) :
    s.returns .retireRequest c ps t 0 rs := by
  refine returns_of_ends (fun _ _ => rfl) h ?_
  dsimp only [Ask.w]
  rw [hk]
  refine (if_neg ?_).trans ht
  rw [Bool.or_eq_true, decide_eq_true_iff, decide_eq_true_iff]
  omega

/-- A staged image holds the bytes read, or its verification fails and every image is as before. -/
theorem imageStage_returns (h : s.admits 22 c ps ws s2) (hi : field (ws.getD 3 0) 5 0 ≤ 33)
    (hb : s2.buffer c (ws.getD 1 0) (field (ws.getD 2 0) 31 0) false = (s3, .at qs)) :
    ∃ t st, s.returns .imageStage c ps t st [] ∧ (st = 0 ∨ (st = 4 ∧ t.images = s3.images))
      ∧ (st = 0 → ∃ v : Firmware, Config.fusedMinimum (field (ws.getD 3 0) 5 0) ≤ v.version
          ∧ v.text = some (field (ws.getD 2 0) 31 0, s3.bufValue qs) ∧ (t.images.get {} (field (ws.getD 3 0) 5 0)).staged = some v
          ∧ (t.images.get {} (field (ws.getD 3 0) 5 0)).active = (s3.images.get {} (field (ws.getD 3 0) 5 0)).active) := by
  let i := field (ws.getD 3 0) 5 0
  let f : Firmware := { version := field (Config.freeWord (s3.free + 1)) 31 0, build := (Config.freeWord (s3.free + 2)).toNat
                        text := some (field (ws.getD 2 0) 31 0, s3.bufValue qs) }
  have hbody (t : State) (st : Nat) (ht : (if (bit (Config.freeWord s3.free) 0 && decide (Config.fusedMinimum i ≤ f.version)) = true then
      done { s3 with free := s3.free + 3, images := s3.images.put i { s3.images.get {} i with staged := some f } }
      else failed ({ s3 with free := s3.free + 3 } : State).hostEvent 4) = .ends t st []) : s.returns .imageStage c ps t st [] :=
    returns_of_ends (fun _ _ => rfl) h (((if_neg (Nat.not_lt.2 hi)).trans (onBuffer_at hb _)).trans ht)
  by_cases hg : (bit (Config.freeWord s3.free) 0 && decide (Config.fusedMinimum i ≤ f.version)) = true
  · refine ⟨_, 0, hbody _ _ (if_pos hg), .inl rfl, fun _ => ?_⟩
    obtain ⟨-, hv⟩ := Bool.and_eq_true_iff.1 hg
    exact ⟨f, of_decide_eq_true hv, rfl, by rw [Table.get_put_same], by rw [Table.get_put_same]⟩
  · exact ⟨_, 4, hbody _ _ (if_neg hg), .inr ⟨rfl, State.images_hostEvent _⟩, fun h0 => absurd h0 (by decide)⟩

theorem zclConfig_routes (h : s.admits 26 c ps ws s2) (hb : s2.buffer c (ws.getD 3 0) 256 false = (s3, .at qs)) {port : Nat → Nat}
    (hport : port = fun p => s3.bufValue qs / 256 ^ p % 256) (hp : ∀ p < 256, port p < 12 ∨ port p = 255) :
    ∃ t, s.returns .zclConfig c ps t 0 [] ∧ t.zclNumber = field (ws.getD 1 0) 7 0 ∧ t.zclPorts = field (ws.getD 2 0) 11 0
      ∧ ∀ p < 256, t.routed p = (decide (port p < 12) && hasBit (field (ws.getD 2 0) 11 0) (port p)) := by
  subst hport
  have hall : ((List.range 256).any fun p =>
      12 ≤ s3.bufValue qs / 256 ^ p % 256 && s3.bufValue qs / 256 ^ p % 256 != 0xFF) = false := by
    rw [List.any_eq_false]
    intro p hr
    rcases hp p (List.mem_range.1 hr) with h | h
    · simp only [Nat.not_le.2 h, decide_false, Bool.false_and, Bool.false_eq_true, not_false_eq_true]
    · simp only [h, bne_self_eq_false, Bool.and_false, Bool.false_eq_true, not_false_eq_true]
  refine ⟨_, returns_of_ends (fun _ _ => rfl) h ((onBuffer_at hb _).trans (if_neg (by rw [hall]; exact Bool.false_ne_true))), rfl, rfl,
    fun p hp => ?_⟩
  unfold State.routed
  dsimp only
  rw [get_routes (port := fun p => s3.bufValue qs / 256 ^ p % 256) hp]
  rfl

theorem zclGrant_grants (h : s.admits 28 c ps ws s2) (hn : field (ws.getD 1 0) 7 0 ≠ s2.zclNumber)
    (hb : s2.buffer c (ws.getD 3 0) 64 false = (s3, .at qs)) (h0 : bit (ws.getD 2 0) 0 = true) (h1 : bit (ws.getD 2 0) 1 = false)
    (hz : s3.zclIn = []) : ∃ t, s.returns .zclGrant c ps t 0 []
      ∧ ∀ i < 512, t.owns (field (ws.getD 0 0) 5 0) (2 ^ 44 + field (ws.getD 1 0) 7 0 * 2 ^ 40 + i * 2 ^ 31) = hasBit (s3.bufValue qs) i := by
  have hc : c.caller = hostCaller := by
    obtain ⟨-, -, -, -, -, -, hc, -⟩ := h
    exact hc.resolve_right (by decide)
  have hs : s3 = s2 := State.buffer_host_read hc hb
  have hk : field (ws.getD 1 0) 7 0 < 256 := Nat.mod_lt _ (by decide)
  let keys := (onesOf (s3.bufValue qs) 0 512).map fun i => field (ws.getD 1 0) 7 0 * 512 + i
  let t : State := { s3 with zclIn := regrant s3.zclIn keys (field (ws.getD 0 0) 5 0) (bit (ws.getD 2 0) 1) }
  refine ⟨t, returns_of_ends (fun _ _ => rfl) h (((if_neg hn).trans (onBuffer_at hb _)).trans ((if_pos h0).trans (if_neg ?_))),
    fun i hi => State.owns_granted (s := t) ?_ ?_ hk hi⟩
  · rw [hz]
    exact Bool.false_ne_true
  · simp only [t, hz, h1]
    rfl
  · rw [← hs] at hn
    exact hn

end

/-- The image of a service is switched once no call of it is in service. -/
theorem State.active_switchImage {s : State} {i : Nat} {v : Firmware} (h : (s.images.get {} i).next = some v) :
    ((∀ y ∈ s.calls, y.service = i → y.phase = 0) → ((s.switchImage i).images.get {} i).active = v)
    ∧ ((∃ y ∈ s.calls, y.service = i ∧ y.phase = 1) → ((s.switchImage i).images.get {} i).active = (s.images.get {} i).active) := by
  unfold State.switchImage
  dsimp only
  rw [h]
  dsimp only
  refine ⟨fun hc => ?_, fun ⟨y, hy, hi, hp⟩ => ?_⟩
  · rw [if_neg, Table.get_put_same]
    simp only [List.any_eq_true, Bool.and_eq_true, beq_iff_eq, bne_iff_ne, not_exists, not_and, not_not]
    exact hc
  · rw [if_pos (List.any_eq_true.2 ⟨y, hy, by simp [hi, hp]⟩)]

/-- Settles O51. -/
theorem packageServices : Obligations.PackageServices := by
  unfold Obligations.PackageServices
  intro s s2 s3 c ps qs ws w n host
  refine ⟨?window, fun h es hh hg hb => errlogRead_returns h hh hg hb,
    fun h => ⟨_, _, returns_of_ends (fun _ _ => rfl) h rfl, rfl, rfl⟩, ?retire, ?spares, ?limit,
    fun h => returns_of_ends (fun _ _ => rfl) h rfl, fun h hb => ⟨_, returns_of_ends (fun _ _ => rfl) h (onBuffer_at hb _)⟩,
    fun h => ⟨fun hi => returns_of_ends (fun _ _ => rfl) h (if_pos hi), imageStage_returns h⟩, ?switch, ?imageStatus, ?measure,
    ?config, ?zclStatus, fun h => ⟨fun hn => returns_of_ends (fun _ _ => rfl) h (if_pos hn), zclGrant_grants h⟩,
    fun h => returns_of_ends (fun _ _ => rfl) h rfl, ?ring, fun h => returns_of_ends (fun _ _ => rfl) h rfl⟩
  case window =>
    intro h p
    refine ⟨fun hg => returns_of_ends (fun _ _ => rfl) h (if_pos (show (!s2.grants n 2 p) = true by rw [hg]; rfl)), fun hg => ?_⟩
    have hg1 : ¬ (!s2.grants n 2 p) = true := by rw [hg]; exact Bool.false_ne_true
    exact ⟨fun h0 => returns_of_ends (fun _ _ => rfl) h ((if_neg hg1).trans (if_pos h0)),
      fun h0 => returns_of_ends (fun _ _ => rfl) h ((if_neg hg1).trans (if_neg (Bool.eq_false_iff.1 h0)))⟩
  case retire =>
    intro h kind i
    refine ⟨retireRequest_refused h rfl rfl, fun hk hi => ⟨fun hg => ?_, fun hg hc hw => ?_⟩, fun hk hi h16 r hr hl hir hsp hg hc hw => ?_⟩
    · refine ⟨_, retireRequest_channel h hk hi (retireGranule_free (by rw [hg])), ?_, rfl⟩
      rw [State.gran_modGran, hg]
    · obtain ⟨t, z, ht, hz⟩ := retireGranule_channel (x := ⟨c, n, ws⟩) hg hc hw
      exact ⟨t, z, retireRequest_channel h hk hi ht, hz⟩
    · subst hir
      obtain ⟨t, z, ht, hz⟩ := retireRill_queued (x := ⟨c, n, ws⟩) hr hl hsp hg hc hw
      exact ⟨t, z, retireRequest_rill h hk hi h16 ht, hz⟩
  case spares =>
    intro h ha hb s4 ps4 hb4
    refine returns_of_ends (fun _ _ => rfl) h ?_
    dsimp only [Ask.w]
    rw [writeMap_at ha hb, onBuffer_at hb4]
    rfl
  case limit =>
    intro h limit
    refine ⟨fun h1 h2 => returns_of_ends (fun _ _ => rfl) h (if_neg (show ¬ (decide (limit < 1500) || decide (3600 < limit)) = true from ?_)),
      fun h1 => returns_of_ends (fun _ _ => rfl) h (if_pos (show (decide (limit < 1500) || decide (3600 < limit)) = true from ?_))⟩
    · rw [Bool.or_eq_true, decide_eq_true_iff, decide_eq_true_iff]
      omega
    · rwa [Bool.or_eq_true, decide_eq_true_iff, decide_eq_true_iff]
  case switch =>
    intro h i
    refine ⟨fun hn => returns_of_ends (fun _ _ => rfl) h ?_, fun v hv => ?_⟩
    · dsimp only [Ask.w]
      rw [show (s2.images.get {} (field (ws.getD 1 0) 4 0)).staged = none from hn, failed]
    · intro t
      refine ⟨returns_of_ends (fun _ _ => rfl) h ?_, ?_⟩
      · dsimp only [Ask.w]
        rw [show (s2.images.get {} (field (ws.getD 1 0) 4 0)).staged = some v from hv]
        rfl
      have hnext : (t.images.get {} i).next = some v := congrArg Image.next (Table.get_put_same _ _ _ _)
      have hact : (t.images.get {} i).active = (s2.images.get {} i).active := by simp only [t, Table.get_put_same]
      rw [← hact]
      exact State.active_switchImage hnext
  case imageStatus =>
    intro h i
    refine ⟨fun hi => returns_of_ends (fun _ _ => rfl) h (if_pos hi), fun hi hn => returns_of_ends (fun _ _ => rfl) h ?_,
      fun v hi hv => returns_of_ends (fun _ _ => rfl) h ?_⟩
    · refine (if_neg (Nat.not_lt.2 hi)).trans ?_
      dsimp only [Ask.w]
      rw [show (s2.images.get {} (field (ws.getD 1 0) 5 0)).staged = none from hn]
    · refine (if_neg (Nat.not_lt.2 hi)).trans ?_
      dsimp only [Ask.w]
      rw [show (s2.images.get {} (field (ws.getD 1 0) 5 0)).staged = some v from hv]
  case measure =>
    intro h
    refine ⟨fun hm => returns_of_ends (fun _ _ => rfl) h ?_, fun k hm hb => returns_of_ends (fun _ _ => rfl) h ?_, fun k len text ht => ?_⟩
    · dsimp only [Ask.w]
      rw [show measured (field (ws.getD 1 0) 7 0) = none from hm]
    · dsimp only [Ask.w]
      rw [show measured (field (ws.getD 1 0) 7 0) = some k from hm]
      exact onBuffer_at hb _
    · rw [State.measurement, ht]
  case config =>
    intro h hb port
    refine ⟨fun ⟨p, hp, h12, h255⟩ => ?_, zclConfig_routes h hb rfl⟩
    refine returns_of_ends (fun _ _ => rfl) h ((onBuffer_at hb _).trans (if_pos (List.any_eq_true.2 ⟨p, List.mem_range.2 hp, ?_⟩)))
    exact Bool.and_eq_true_iff.2 ⟨decide_eq_true h12, bne_iff_ne.2 h255⟩
  case zclStatus =>
    intro h
    refine ⟨_, _, returns_of_ends (fun _ _ => rfl) h rfl, ?_, by simp⟩
    have hlt : (Config.freeWord s2.free).toNat &&& s2.zclPorts < 2 ^ 64 :=
      Nat.lt_of_le_of_lt Nat.and_le_left (BitVec.isLt _)
    rw [w64, BitVec.toNat_ofNat, Nat.mod_eq_of_lt hlt, Nat.and_assoc, Nat.and_self]
  case ring =>
    intro h k
    exact ⟨fun hk => returns_of_ends (fun _ _ => rfl) h (if_pos (show (!ringSize k) = true by rw [ringSize_false hk]; rfl)),
      fun h4 h12 => returns_of_ends (fun _ _ => rfl) h (if_neg (show ¬ (!ringSize k) = true by rw [ringSize_true h4 h12]; decide))⟩

end Sys2Proof.Machine
end

section
/-! PROOFS. Events of the host link (R435 to R439): what a compare-and-swap that fails leaves. -/

namespace Sys2Proof.Machine

/-- Pseudo-channel 0 has an open window, and a raised word is kept of which no edge is in flight any more (R180). -/
def staleRaise : State := { State.reset with windows := [0], raises := [{ word := 0, old := 0, new := 0, edges := [] }] }

/-- An AtomicOp that compares word 0, which is 0, against 1 writes nothing; the raised words of which nothing is in flight any
more are gone after it, as they are after each RMW. -/
theorem cas_drops_staleRaise : ∃ t, exec (.hostAtomicop 2 8 0 1 0) staleRaise = .next t ∧ t.raises = [] := ⟨_, rfl, rfl⟩

/-- Refutes O52: a CAS of the host that compares unequal takes the copies of its line back and answers the old value, but it
does not leave everything else as it was. The state also loses the raised words whose edges are gone (`State.noteRaise`), so it
is not the one that the statement names: `staleRaise` holds such a word. -/
theorem not_packageEvents : ¬ Obligations.PackageEvents := by
  unfold Obligations.PackageEvents
  intro h
  obtain ⟨-, hline, -⟩ := h staleRaise 0 0 0 0 0 0 1 0
  obtain ⟨-, -, -, -, -, hcas, -⟩ := hline (by decide) rfl rfl rfl rfl rfl
  have hsame := hcas (by decide)
  obtain ⟨t, ht, hr⟩ := cas_drops_staleRaise
  have htaken : t = (staleRaise.recall (lineOf 0)).answerOuter (staleRaise.mem.load 0 8) :=
    Host.Outcome.next.inj (ht.symm.trans hsame)
  rw [htaken] at hr
  exact List.cons_ne_nil _ _ hr

end Sys2Proof.Machine
end

section
/-! PROOFS. REPLAY, TLBINV, the host's answers and SVCALL (R395, R402 to R405). -/

namespace Sys2Proof.Machine

/-! ### What a record that becomes pending leaves alone -/

theorem State.modRill_keeps {α : Type} {f : Rill → Rill} {g : Rill → α} (h : ∀ x, g (f x) = g x) (s : State) (b r c q : Nat) :
    g ((s.modRill b r f).rill c q) = g (s.rill c q) := by
  by_cases hk : rillKey c q = rillKey b r
  · rw [State.rill_of_key _ hk, State.rill_of_key _ hk, State.rill_modRill, h]
  · rw [State.rill_modRill_other _ _ hk]

/-- A record concerns registers of contexts 15 and the records of rills only. -/
theorem State.post_eq (s : State) (b r : Nat) (e : EventRec) : ∃ cs rs, s.post b r e = { s with ctxs := cs, rills := rs } := by
  unfold State.post
  dsimp only
  split
  · split
    next s2 h =>
      unfold State.takeRecord at h
      split at h
      · cases h
      · cases h
        exact ⟨_, _, rfl⟩
    · exact ⟨_, _, rfl⟩
  · exact ⟨_, _, rfl⟩

theorem State.rill_post {α : Type} {g : Rill → α} (hg : ∀ x es ls, g { x with events := es, later := ls } = g x) (s : State) (b r : Nat)
    (e : EventRec) (c q : Nat) : g ((s.post b r e).rill c q) = g (s.rill c q) := by
  have hpost (x : Rill) (e : EventRec) : g (x.postRecord e) = g x := by
    unfold Rill.postRecord
    split
    · exact hg x _ x.later
    · split
      · exact hg x x.events _
      · exact hg x _ x.later
  have hdeliver (x : Rill) (e : EventRec) : g (x.deliverRecord e) = g x := by
    unfold Rill.deliverRecord
    dsimp only
    split
    · exact hg x _ _
    · exact hg x _ x.later
  have h1 : g ((s.modRill b r fun x => x.postRecord e).rill c q) = g (s.rill c q) := State.modRill_keeps (fun x => hpost x e) s b r c q
  unfold State.post
  dsimp only
  split
  · split
    next s2 h =>
      unfold State.takeRecord at h
      split at h
      · cases h
      next f hf =>
        cases h
        exact (State.modRill_keeps (fun x => hdeliver x f) _ b r c q).trans h1
    · exact h1
  · exact h1

theorem State.wake_eq (s : State) (i : Nat) (e : REntry) : ∃ cs rs, s.wake i e = { s with ctxs := cs, rills := rs } := by
  unfold State.wake
  split
  · exact State.post_eq _ _ _ _
  · exact ⟨s.ctxs, s.rills, rfl⟩

theorem State.replay_wake (s : State) (i : Nat) (e : REntry) (c q : Nat) : ((s.wake i e).rill c q).replay = (s.rill c q).replay := by
  unfold State.wake
  split
  · exact State.rill_post (g := Rill.replay) (fun _ _ _ => rfl) _ _ _ _ c q
  · rfl

/-! ### The entries behind a chain -/

theorem Table.find_put_other {α : Type} (t : Table α) {k j : Nat} (v : α) (h : k ≠ j) : (t.put j v).find k = t.find k := by
  have hmap : (t.put j v).map (fun p => (p.1, some p.2)) = Table.put (t.map fun p => (p.1, some p.2)) j (some v) := by
    induction t with
    | nil => rfl
    | cons e t ih =>
      obtain ⟨i, w⟩ := e
      simp only [Table.put, List.map_cons]
      split_ifs <;> simp [ih]
  rw [Table.find, hmap]
  exact Table.get_put_other _ _ _ h

theorem Table.ne_of_find_none {α : Type} {t : Table α} {k : Nat} (h : t.find k = none) {e : Nat × α} (he : e ∈ t) : e.1 ≠ k := by
  induction t with
  | nil => exact absurd he List.not_mem_nil
  | cons x t ih =>
    obtain ⟨j, w⟩ := x
    rw [Table.find] at h
    simp only [List.map_cons, Table.get] at h
    split at h
    · cases h
    next hj =>
      rcases List.mem_cons.1 he with rfl | he
      · exact hj
      · exact ih h he

section
variable {b r : Nat}

/-- An entry behind a chain wakes with its record; neither concerns entry i of a rill that holds no entry i. -/
def State.wakeHead (b r : Nat) (t : State) (f : Nat × REntry) : State :=
  match (t.rill b r).chain f.2 with
  | some _ => (t.modRill b r fun x => { x with replay := x.replay.put f.1 { f.2 with woken := true } }).wake f.1 f.2
  | none => t

theorem State.wakeHead_keeps (t : State) (f : Nat × REntry) : (State.wakeHead b r t f).cur = t.cur ∧ SameUsers t (State.wakeHead b r t f)
    ∧ ∀ i ≠ f.1, ((t.rill b r).replay.find i = none → ((State.wakeHead b r t f).rill b r).replay.find i = none) := by
  unfold State.wakeHead
  split
  · refine ⟨?_, (SameUsers.of_ctxs rfl).trans (sameUsers_wake _ _ _), fun i hi h => ?_⟩
    · obtain ⟨cs, rs, he⟩ := State.wake_eq (t.modRill b r fun x => { x with replay := x.replay.put f.1 { f.2 with woken := true } }) f.1 f.2
      rw [he]
      rfl
    · rw [State.replay_wake, State.rill_modRill, Table.find_put_other _ _ hi]
      exact h
  · exact ⟨rfl, fun _ _ => rfl, fun _ _ h => h⟩

theorem State.wakeHeads_foldl (l : List (Nat × REntry)) (s : State) {i : Nat} (hl : ∀ f ∈ l, f.1 ≠ i)
    (h : (s.rill b r).replay.find i = none) : (l.foldl (State.wakeHead b r) s).cur = s.cur ∧ SameUsers s (l.foldl (State.wakeHead b r) s)
      ∧ ((l.foldl (State.wakeHead b r) s).rill b r).replay.find i = none := by
  induction l generalizing s with
  | nil => exact ⟨rfl, fun _ _ => rfl, h⟩
  | cons f l ih =>
    obtain ⟨hc, hu, hr⟩ := State.wakeHead_keeps (b := b) (r := r) s f
    obtain ⟨hc', hu', hr'⟩ := ih _ (fun g hg => hl g (List.mem_cons_of_mem _ hg))
      (hr i (hl f List.mem_cons_self).symm h)
    exact ⟨hc'.trans hc, hu.trans hu', hr'⟩

/-- Waking the entries behind a chain that is gone concerns no user context and brings no entry back. -/
theorem State.wakeHeads_keeps (s : State) (gone : List (Nat × REntry)) {i : Nat} (h : (s.rill b r).replay.find i = none) :
    (s.wakeHeads b r gone).cur = s.cur ∧ SameUsers s (s.wakeHeads b r gone) ∧ ((s.wakeHeads b r gone).rill b r).replay.find i = none := by
  have hf : s.wakeHeads b r gone = ((s.rill b r).replay.filter fun f => !f.2.woken && decide (f.2.sub < 8)
      && (gone.any fun g => g.2.meets f.2)).foldl (State.wakeHead b r) s := rfl
  rw [hf]
  exact State.wakeHeads_foldl _ s (fun f hfm => Table.ne_of_find_none h (List.mem_of_mem_filter hfm)) h

end

theorem State.translate_cur (s : State) (p : Pos) (va : Word) (need : Need) : (s.translate p va need).1.cur = s.cur := by
  have hdraw (vs : List Via) : (s.afterDraw vs).cur = s.cur := by
    unfold State.afterDraw
    split <;> rfl
  have hhit (u : State) (n a : Nat) (user : Bool) (e : TlbEntry) (near : Bool) : (u.translateHit p n a user need e near).1.cur = u.cur := by
    cases near <;> rfl
  have hask (u : State) (n asid a : Nat) (leaf : Word) (size : Nat) : (u.askHost p n asid a need leaf size).1.cur = u.cur := by
    unfold State.askHost
    dsimp only
    repeat' split
    all_goals rfl
  have hwalk (u : State) (n asid a : Nat) (user : Bool) (w : Walk) : (u.translateWalk p n asid a user need w).1.cur = u.cur := by
    cases w with
    | fault c => rfl
    | poisoned => rfl
    | leaf l lvl =>
      change (u.translateLeaf p n asid a user need l lvl).1.cur = u.cur
      unfold State.translateLeaf
      dsimp only
      split
      · rfl
      · split
        · exact hask _ _ _ _ _ _
        · rfl
  unfold State.translate State.translateAs
  dsimp only
  split
  · rw [hhit, hdraw]
  · rw [hwalk, hdraw]

/-! ### REPLAY and REPLAY_DROP (R395) -/

section
variable {s : State} {d a : BitVec 5} (hs : s.plain) (hk : s.cur.k = 15) (ha : s.clean a) (hq : s.quietBefore = true)
include hs hk ha hq

theorem replay_empty (drop : Bool) (h : s.myRill.replay.find (field (s.val a) 4 0) = none) :
    replay s drop d a = .next (s.put d 2 false) := by
  rw [replay, outsideTx_plain hs, supervisorOnly_context15 hk, withControl_of_clean _ ha]
  simp only [hq, Bool.not_true, Bool.false_eq_true, if_false, h]
  rfl

theorem replay_younger (drop : Bool) {e : REntry} (h : s.myRill.replay.find (field (s.val a) 4 0) = some e) (hc : s.myRill.chain e = none) :
    replay s drop d a = .next (s.put d 3 false) := by
  rw [replay, outsideTx_plain hs, supervisorOnly_context15 hk, withControl_of_clean _ ha]
  simp only [hq, Bool.not_true, Bool.false_eq_true, if_false, h, hc]
  rfl

variable {e : REntry} {c : List (Nat × REntry)} (he : s.myRill.replay.find (field (s.val a) 4 0) = some e)
  (hc : s.myRill.chain e = some c)
include he hc

theorem replay_drops : replay s true d a = .next (((dropChain s.cur.b s.cur.r c s).wakeHeads s.cur.b s.cur.r c).put d 0 false) := by
  rw [replay, outsideTx_plain hs, supervisorOnly_context15 hk, withControl_of_clean _ ha]
  simp only [hq, Bool.not_true, Bool.false_eq_true, if_false, he, hc, if_true]
  rfl

theorem replay_sends {s1 : State} (hr : replayFrom s.cur.b s.cur.r c s = (s1, some (0, false))) :
    replay s false d a = .next ((s1.wakeHeads s.cur.b s.cur.r c).put d 0 false) := by
  rw [replay, outsideTx_plain hs, supervisorOnly_context15 hk, withControl_of_clean _ ha]
  simp only [hq, Bool.not_true, Bool.false_eq_true, if_false, he, hc, hr]
  rfl

end

/-! ### A logged load -/

section
variable {b r i : Nat} {e : REntry} {x : Access} {sx : Bool} (hx : e.accs = [x]) (hl : x.kind = .load sx)
include hx hl

/-- A load whose translation succeeds is sent with its place. -/
theorem replayFrom_load {s s1 : State} {pa : Nat} {leaf : Word} (h55 : bit x.va 55 = false)
    (ht : s.translate e.pos x.va x.kind.need = (s1, .ok pa leaf)) : replayFrom b r [(i, e)] s = ((s1.dropEntry b r i).launchAccess e.pos
      { x with pa := pa, sync := bit leaf 6, nc := bit leaf 8, replayed := true }, some (0, false)) := by
  have hretry : retryFrom e.pos e.accs s
      = (s1, .ok [{ x with pa := pa, sync := bit leaf 6, nc := bit leaf 8, replayed := true }]) := by
    have hfe : x.kind.fe = false := by rw [hl]; rfl
    rw [hx]
    simp only [retryFrom, State.retryPlace, h55, ht, Bool.false_eq_true, if_false, hfe, Bool.false_and]
  rw [replayFrom, hretry]
  rfl

theorem dropChain_load (s : State) : dropChain b r [(i, e)] s = ((s.dropEntry b r i).deliver e.pos x 0 true).retireAccess e.pos x := by
  rw [dropChain, hx, dropChain]
  change (s.dropEntry b r i).dropAccess e.pos x = _
  rw [State.dropAccess, hl]

end

theorem State.find_dropEntry (s : State) (b r i : Nat) : ((s.dropEntry b r i).rill b r).replay.find i = none := by
  rw [State.dropEntry, State.rill_modRill]
  exact Table.find_drop_same _ _

theorem State.launchAccess_rills (s : State) (p : Pos) (a : Access) : (s.launchAccess p a).rills = s.rills := by
  have hr (u : State) : (u.route p a).rills = u.rills := by
    unfold State.route
    split <;> rfl
  unfold State.launchAccess
  dsimp only
  split
  · rfl
  · split
    · exact hr _
    · rfl

theorem State.cur_deliver_retire (s : State) (p : Pos) (a : Access) (v : Word) (bad : Bool) :
    ((s.deliver p a v bad).retireAccess p a).cur = s.cur := by
  have hd : (s.deliver p a v bad).cur = s.cur := by
    unfold State.deliver
    cases a.dst <;> rfl
  have ho (u : State) : (u.orderOlder p a).cur = u.cur := by
    unfold State.orderOlder
    split <;> rfl
  unfold State.retireAccess
  dsimp only
  cases a.cc <;> dsimp only <;> split <;> exact (ho _).trans hd

theorem State.replay_deliver_retire (s : State) (p : Pos) (a : Access) (v : Word) (bad : Bool) (b r : Nat) :
    (((s.deliver p a v bad).retireAccess p a).rill b r).replay = (s.rill b r).replay := by
  have hd : (s.deliver p a v bad).rills = s.rills := by
    unfold State.deliver
    cases a.dst <;> rfl
  have ho (u : State) : (u.orderOlder p a).rills = u.rills := by
    unfold State.orderOlder
    split <;> rfl
  have hm (u : State) (f : Ctx → Ctx) (c : Nat) : ((u.modCtx p f).lowerCc p.b p.r c).rills = (u.lowerCc p.b p.r c).rills := rfl
  have hl (u : State) (c : Nat) : ((u.lowerCc p.b p.r c).rill b r).replay = (u.rill b r).replay :=
    State.modRill_keeps (g := Rill.replay) (fun _ => by rfl) u p.b p.r b r
  have hrill {u w : State} (h : u.rills = w.rills) : u.rill b r = w.rill b r := by rw [State.rill, State.rill, h]
  have h1 : (((s.deliver p a v bad).orderOlder p a).rill b r).replay = (s.rill b r).replay := by rw [hrill ((ho _).trans hd)]
  unfold State.retireAccess
  dsimp only
  cases a.cc with
  | none =>
    dsimp only
    split <;> exact h1
  | some c =>
    dsimp only
    split <;> exact (hl _ c).trans h1

section
variable {s : State} {d a : BitVec 5} (hs : s.plain) (hk : s.cur.k = 15) (ha : s.clean a) (hq : s.quietBefore = true)
  {e : REntry} {x : Access} {sx : Bool} (he : s.myRill.replay.find (field (s.val a) 4 0) = some e)
  (hc : s.myRill.chain e = some [(field (s.val a) 4 0, e)]) (hx : e.accs = [x]) (hl : x.kind = .load sx) (hu : e.pos.k < 15)
include hs hk ha hq he hc hx hl hu

theorem replay_load_sent (h55 : bit x.va 55 = false) {s1 : State} {pa : Nat} {leaf : Word}
    (ht : s.translate e.pos x.va x.kind.need = (s1, .ok pa leaf)) : ∃ t, exec (.replay d a) s = .next t ∧ (d ≠ 0 → t.me.reg d = {})
      ∧ t.myRill.replay.find (field (s.val a) 4 0) = none ∧ ∃ y ∈ (t.ctx e.pos).flights, y.id = x.id ∧ y.pa = pa := by
  let y : Access := { x with pa := pa, sync := bit leaf 6, nc := bit leaf 8, replayed := true }
  let s2 := (s1.dropEntry s.cur.b s.cur.r (field (s.val a) 4 0)).launchAccess e.pos y
  have hcur1 : s1.cur = s.cur := by
    have := s.translate_cur e.pos x.va x.kind.need
    rwa [ht] at this
  have hcur2 : s2.cur = s.cur := (State.launchAccess_cur _ _ _).trans hcur1
  have hnone : (s2.rill s.cur.b s.cur.r).replay.find (field (s.val a) 4 0) = none := by
    rw [State.rill, State.launchAccess_rills]
    exact State.find_dropEntry _ _ _ _
  obtain ⟨hcur, hsame, hfind⟩ := State.wakeHeads_keeps s2 [(field (s.val a) 4 0, e)] hnone
  have hcur3 := hcur.trans hcur2
  have huser : e.pos.key % 16 ≠ 15 := by
    simp only [Pos.key]
    omega
  have hme : e.pos.key ≠ (s2.wakeHeads s.cur.b s.cur.r [(field (s.val a) 4 0, e)]).cur.key := by
    rw [hcur3]
    simp only [Pos.key]
    omega
  have hfl : y ∈ (s2.ctx e.pos).flights := by
    rw [State.ctx, State.launchAccess_ctxs]
    change y ∈ ((State.modCtx _ e.pos fun c => { c with flights := c.flights ++ [y] }).ctx e.pos).flights
    rw [State.ctx_modCtx]
    exact List.mem_append_right _ (List.mem_singleton.2 rfl)
  refine ⟨_, replay_sends hs hk ha hq he hc (replayFrom_load hx hl h55 ht), fun hd => ?_, ?_, y, ?_, rfl, rfl⟩
  · rw [State.put, State.reg_advance, State.me_modMe, Ctx.reg_setReg, if_pos ⟨rfl, hd⟩]
  · rw [State.put, State.myRill_advance, State.myRill, State.rill_modMe]
    rw [State.modMe_cur, hcur3]
    exact hfind
  · rw [State.put, State.ctx_advance_other _ (by exact hme), State.modMe, State.ctx_setCtx_other _ _ (by exact hme), hsame e.pos huser]
    exact hfl

theorem replay_load_dropped : ∃ t, exec (.replayDrop d a) s = .next t ∧ t.myRill.replay.find (field (s.val a) 4 0) = none
    ∧ ((s.ctx e.pos).cellAt x.dst = { (s.ctx e.pos).cellAt x.dst with full := false, src := x.src } →
        (t.ctx e.pos).cellAt x.dst = { val := 0, poison := true }) := by
  let s2 := dropChain s.cur.b s.cur.r [(field (s.val a) 4 0, e)] s
  have hs2 : s2 = ((s.dropEntry s.cur.b s.cur.r (field (s.val a) 4 0)).deliver e.pos x 0 true).retireAccess e.pos x :=
    dropChain_load hx hl s
  have hcur2 : s2.cur = s.cur := by
    rw [hs2, State.cur_deliver_retire]
    rfl
  have hnone : (s2.rill s.cur.b s.cur.r).replay.find (field (s.val a) 4 0) = none := by
    rw [hs2, State.replay_deliver_retire]
    exact State.find_dropEntry _ _ _ _
  obtain ⟨hcur, hsame, hfind⟩ := State.wakeHeads_keeps s2 [(field (s.val a) 4 0, e)] hnone
  have hcur3 := hcur.trans hcur2
  have huser : e.pos.key % 16 ≠ 15 := by
    simp only [Pos.key]
    omega
  have hme : e.pos.key ≠ (s2.wakeHeads s.cur.b s.cur.r [(field (s.val a) 4 0, e)]).cur.key := by
    rw [hcur3]
    simp only [Pos.key]
    omega
  refine ⟨_, replay_drops hs hk ha hq he hc, ?_, fun hd => ?_⟩
  · rw [State.put, State.myRill_advance, State.myRill, State.rill_modMe]
    rw [State.modMe_cur, hcur3]
    exact hfind
  · rw [State.put, State.ctx_advance_other _ (by exact hme), State.modMe, State.ctx_setCtx_other _ _ (by exact hme), hsame e.pos huser,
      hs2, State.cellAt_retireAccess]
    exact State.cellAt_deliver_waiting (s.dropEntry s.cur.b s.cur.r (field (s.val a) 4 0)) 0 true hd

end

/-! ### TLBINV and invalidations (R402, R403) -/

/-- The translations of a basin that a removal leaves. -/
theorem mem_tlbOf_shootDown {s : State} {n : Nat} {f : TlbEntry → Bool} {e : TlbEntry} :
    e ∈ (s.shootDown n f []).tlbOf n ↔ e ∈ s.tlbOf n ∧ f e = false := by
  have hmap {α : Type} (t : Table α) (g : α → List TlbEntry) (u : α → α)
      (hu : ∀ x, g (u x) = (g x).filter fun y => !(y.basin == n && f y)) (y : TlbEntry) (hy : (y.basin == n) = true) :
      y ∈ (t.update fun _ x => u x).flatMap (fun p => g p.2) ↔ y ∈ t.flatMap (fun p => g p.2) ∧ f y = false := by
    simp only [Table.update, List.mem_flatMap, List.mem_map, exists_exists_and_eq_and, hu, List.mem_filter, hy, Bool.true_and,
      Bool.not_eq_true', exists_and_right, ← and_assoc]
  simp only [State.tlbOf, State.shootDown, List.foldl_nil, List.mem_filter, List.mem_append]
  constructor
  · rintro ⟨h, hb⟩
    rw [hmap s.rills Rill.tlb _ (fun _ => rfl) e hb, hmap s.braids Braid.tlb _ (fun _ => rfl) e hb, ← or_and_right] at h
    exact ⟨⟨h.1, hb⟩, h.2⟩
  · rintro ⟨⟨h, hb⟩, hf⟩
    rw [hmap s.rills Rill.tlb _ (fun _ => rfl) e hb, hmap s.braids Braid.tlb _ (fun _ => rfl) e hb, ← or_and_right]
    exact ⟨⟨h, hf⟩, hb⟩

theorem exec_tlbinv {s : State} {a b : BitVec 5} (m : BitVec 2) (hs : s.plain) (hk : s.cur.k = 15) (ha : s.clean a) (hb : s.clean b)
    (hq : s.quietBefore = true) (hx : s.shotTx (s.basinOf s.cur.b) (tlbinvHits m.toNat (s.val a) (s.val b)) = []) :
    ∃ ids, exec (.tlbinv a b m) s = .next (((s.shootDown (s.basinOf s.cur.b) (tlbinvHits m.toNat (s.val a) (s.val b)) []).modMe fun c =>
      { c with wait := some (.shootdown ids) }).advance) := by
  refine ⟨(s.shootDown (s.basinOf s.cur.b) (tlbinvHits m.toNat (s.val a) (s.val b)) []).usersOf (s.basinOf s.cur.b)
    (tlbinvHits m.toNat (s.val a) (s.val b))
    ((s.tlbOf (s.basinOf s.cur.b)).filter (tlbinvHits m.toNat (s.val a) (s.val b))), ?_⟩
  change execTlbinv a b m s = _
  rw [execTlbinv, outsideTx_plain hs, supervisorOnly_context15 hk, withControls_of_clean _ ha hb]
  dsimp only
  rw [hx, hq]
  rfl

theorem exec_atsInvalidate {s : State} {n asid : Nat} {va : Word} {f : TlbEntry → Bool}
    (hf : f = fun e => bit e.leaf 9 && e.asid == asid && decide (e.va ≤ va.toNat ∧ va.toNat < e.va + e.size)) (hx : s.shotTx n f = []) :
    exec (.atsInvalidateRequest n asid va) s = .next (s.shootDown n f []) := by
  subst hf
  change execAtsInvalidateRequest n asid va s = _
  rw [execAtsInvalidateRequest, hx]
  rfl

/-! ### SVCALL (R405) -/

theorem exec_svcall {s : State} {a b : BitVec 5} (d : BitVec 5) (hs : s.plain) (hk : s.cur.k = 15) (ha : s.clean a) (hb : s.clean b)
    (hq : s.quietBefore = true) : exec (.svcall d a b) s =
      if field (s.val b) 5 0 != 0 then .next (s.trapTo 0x06 (s.val b))
      else if field (s.val b) 63 56 != 0 then .next (s.trapTo 0x09 (s.val b))
      else if bit (s.val b) 55 then .next (s.trapTo 0x0A (s.val b))
      else if 32 ≤ (s.val a).toNat then .next (s.put d 0xFFFFFFFFFFFFFFFF false)
      else match s.blockXlat (s.val b) with
        | (s1, some (.fault c _)) => .next (s1.trapAs c (s.val b) s.ulen s.upc true)
        | (s1, some .ask) => parked s1 .translation
        | (s1, some .poisoned) => .next (s1.contain (s1.basinOf s1.cur.b))
        | (s1, some (.ok _ _)) => parked s1 .order
        | (s1, none) => .next ((({ s1 with
            nextId := s1.nextId + 1
            calls := s1.calls ++ [{ id := s1.nextId, caller := s1.basinOf s1.cur.b, service := (s.val a).toNat, pos := s1.cur
                                    va := s.val b }] } : State).modMe fun c =>
              { c with wait := some (.service (c.dest d) s1.nextId) }).advance) := by
  change execSvcall d a b s = _
  rw [execSvcall, outsideTx_plain hs, supervisorOnly_context15 hk, withControls_of_clean _ ha hb, hq] <;> rfl

/-! ### The host's answers (R403) -/

section
variable {s : State} {n : Nat} {q : AtsReq}

/-- A translation that a TLB takes is in it. -/
theorem mem_tlbPut (t : List TlbEntry) (k : Nat) (at' : TlbEntry → Bool) (e : TlbEntry) : e ∈ tlbPut t k at' e :=
  List.mem_append_right _ (List.mem_singleton.2 rfl)

theorem mem_fillTlb (s : State) (p : Pos) (e : TlbEntry) (both : Bool) : e ∈ ((s.fillTlb p e both).rill p.b p.r).tlb := by
  have h (u : State) (f : Braid → Braid) : ((u.modBraid p.b f).rill p.b p.r).tlb = (u.rill p.b p.r).tlb := rfl
  unfold State.fillTlb
  dsimp only
  split
  · rw [h, State.rill_modRill]
    exact mem_tlbPut _ _ _ _
  · rw [State.rill_modRill]
    exact mem_tlbPut _ _ _ _

theorem mem_ats_of_find {ph : Nat} (hq : s.ats.find? (fun q => q.id == n && q.phase == ph) = some q) : q ∈ s.ats ∧ q.id = n := by
  have h := List.find?_some hq
  simp only [Bool.and_eq_true, beq_iff_eq] at h
  exact ⟨List.mem_of_find?_eq_some hq, h.1⟩

/-- An entry for whose page the host has answered (R403). -/
def REntry.answered (e : REntry) (ok : Bool) : REntry := { e with sub := if ok then 1 else 3, woken := true }

theorem priResponse_answers (ok : Bool) (hq : s.ats.find? (fun q => q.id == n && q.phase == 1) = some q) :
    ∃ t, exec (.priResponse n ok) s = .next t ∧ ∀ x ∈ t.ats, x.id ≠ n := by
  have hfold (l : List (Nat × Nat × REntry)) (u : State) : (l.foldl (fun t h => (t.modRill (h.1 / 8) (h.1 % 8) fun x =>
      { x with replay := x.replay.put h.2.1 (h.2.2.answered ok) }).wake h.2.1 (h.2.2.answered ok)) u).ats = u.ats :=
    foldl_keeps (g := State.ats) (fun t h _ => by
      obtain ⟨cs, rs, he⟩ := State.wake_eq (t.modRill (h.1 / 8) (h.1 % 8) fun x =>
        { x with replay := x.replay.put h.2.1 (h.2.2.answered ok) }) h.2.1 (h.2.2.answered ok)
      rw [he]
      rfl) u
  have hx : ∃ t, exec (.priResponse n ok) s = .next t ∧ t.ats = s.ats.filter fun x => x.id != n := by
    change ∃ t, execPriResponse n ok s = .next t ∧ _
    rw [execPriResponse, hq]
    exact ⟨_, rfl, hfold _ _⟩
  obtain ⟨t, ht, hats⟩ := hx
  refine ⟨t, ht, fun x hm => ?_⟩
  rw [hats] at hm
  simpa using (List.mem_filter.1 hm).2

end

/-- Settles O47. -/
theorem translationResults : Obligations.TranslationResults := by
  unfold Obligations.TranslationResults
  refine ⟨fun s d a b m hs hk ha hb hq => ?_, fun s n q v ok => ⟨fun hf => ⟨fun hu => ?_, fun hu => ?_, ?_⟩, priResponse_answers ok⟩⟩
  · refine ⟨fun h => ⟨replay_empty hs hk ha hq false h, replay_empty hs hk ha hq true h⟩,
      fun e h hc => ⟨replay_younger hs hk ha hq false h hc, replay_younger hs hk ha hq true h hc⟩,
      fun e x sx he hc hx hl _ _ hu h55 => ⟨fun s1 pa leaf => replay_load_sent hs hk ha hq he hc hx hl hu h55,
        replay_load_dropped hs hk ha hq he hc hx hl hu⟩, ?tlbinv, ?svcall, ?invalidate⟩
    case tlbinv =>
      intro f n hx
      obtain ⟨ids, he⟩ := exec_tlbinv m hs hk ha hb hq hx
      refine ⟨_, ids, he, ?_, ?_, fun e hm => (mem_tlbOf_shootDown.1 hm).2, fun e hm hf => mem_tlbOf_shootDown.2 ⟨hm, hf⟩⟩
      · rw [State.me_advance, State.me_modMe]
      · rw [State.me_advance]
        rfl
    case svcall =>
      intro va
      have hx := exec_svcall d hs hk ha hb hq
      refine ⟨fun h0 => ?_, fun h0 h1 => ?_, fun h0 h1 h2 => ?_, fun h0 h1 h2 => ⟨fun h3 => ?_, fun h3 s1 ht => ?_⟩⟩
      · rw [hx, if_pos (bne_iff_ne.2 h0)]
      all_goals rw [hx, if_neg (by rw [show field (s.val b) 5 0 = 0 from h0]; decide)]
      · rw [if_pos (bne_iff_ne.2 h1)]
      all_goals rw [if_neg (by rw [show field (s.val b) 63 56 = 0 from h1]; decide)]
      · rw [if_pos h2]
      all_goals rw [if_neg (Bool.eq_false_iff.1 h2)]
      · rw [if_pos h3]
      · rw [if_neg (Nat.not_le.2 h3), ht]
        exact ⟨_, _, rfl, rfl, rfl, rfl, rfl, rfl⟩
    case invalidate =>
      intro hx
      refine ⟨_, exec_atsInvalidate rfl hx, fun e hm => ?_⟩
      have hf := (mem_tlbOf_shootDown.1 hm).2
      rintro ⟨h9, has, h1, h2⟩
      rw [h9, has, decide_eq_true ⟨h1, h2⟩] at hf
      simp at hf
  · refine ⟨_, ?_, ?_, _, mem_fillTlb ({ s with ats := s.ats.filter fun x => x.id != n } : State) q.pos
      { basin := s.basinOf q.pos.b, asid := q.asid, va := q.va.toNat - q.va.toNat % q.size, size := q.size
        pa := field v 51 12 * 2 ^ 12, leaf := w64 (maskMinus q.leaf.toNat (maskMinus 28 v.toNat)) } true, rfl, rfl, rfl, rfl⟩
    · change execAtsCompletion n true v s = _
      rw [execAtsCompletion, hf]
      exact if_pos hu
    · exact fun x hm => by simpa using (List.mem_filter.1 hm).2
  · obtain ⟨hm, hid⟩ := mem_ats_of_find hf
    have hx : exec (.atsCompletion n true v) s = .next { s with ats := s.ats.map fun x => if x.id == n then { x with
        phase := 3, pa := field v 51 12 * 2 ^ 12, leaf := w64 (maskMinus q.leaf.toNat (maskMinus 28 v.toNat)) } else x } := by
      change execAtsCompletion n true v s = _
      rw [execAtsCompletion, hf]
      exact if_neg (Nat.not_lt.2 hu)
    refine ⟨_, hx, _, List.mem_map.2 ⟨q, hm, rfl⟩, ?_⟩
    rw [if_pos (beq_iff_eq.2 hid)]
    exact ⟨hid, rfl, rfl⟩
  · change execAtsCompletion n false v s = _
    rw [execAtsCompletion, hf]
    rfl

end Sys2Proof.Machine
end

section
/-! PROOFS. CSAVE of a context whose stop has been deferred (R340, R388). -/

namespace Sys2Proof.Machine

/-- Context 15 of rill 0 names context 3, which still runs: a CSTOP of it has been deferred (R340), so that it is stopping. -/
def deferredStop : State :=
  { ctxs := [(3, { run := .running, stopBy := 1 }), (15, { run := .running, win := [(32752, { val := 3 })], sr := [(0x09E, 0x100)] })], cur := ⟨0, 0, 15⟩ }

/-- CSAVE waits for a context that is stopping, as a running one with a deferred stop is. -/
theorem csave_waits_deferredStop : exec (.csave 8 0) deferredStop = .next (deferredStop.park .drain) := rfl

/-- Refutes O46: CSAVE of a context that runs does not always trap. One whose stop has been deferred shows the state stopping,
and CSAVE waits for it; `deferredStop` holds such a context, and takes no exception (its CAUSE stays 0), where the statement has the
trap of a bad target. -/
theorem not_contextResults : ¬ Obligations.ContextResults := by
  unfold Obligations.ContextResults
  rintro ⟨h, -⟩
  obtain ⟨-, htrap, -⟩ := h deferredStop 0 8 0 rfl rfl ⟨rfl, rfl⟩ ⟨rfl, rfl⟩ rfl
  have hsame := (csave_waits_deferredStop.symm.trans (htrap (.inr (.inr rfl))))
  have hcause := congrArg (fun t : State => t.sr 0x011) (Host.Outcome.next.inj hsame)
  exact absurd hcause (by decide)

end Sys2Proof.Machine
end

section
/-! PROOFS. Launch records and cohorts. -/

namespace Sys2Proof.Machine

/-! ### Tables whose entries all change -/

theorem Table.get_update_proj {α β : Type} (g : α → β) {f : Nat → α → α} (hf : ∀ k v, g (f k v) = g v) (d : α) (t : Table α)
    (k : Nat) : g ((t.update f).get d k) = g (t.get d k) := by
  induction t with
  | nil => rfl
  | cons e t ih =>
    obtain ⟨j, v⟩ := e
    by_cases h : j = k
    · simp [Table.update, Table.get, h, hf]
    · simpa [Table.update, Table.get, h] using ih

/-! ### The end of reservations, and launches that are not complete -/

theorem State.cohorts_liftReservations (s : State) (n b : Nat) :
    ((s.liftReservations n).braid b).cohorts = (s.braid b).cohorts := by
  unfold State.braid State.liftReservations
  dsimp only
  refine Table.get_update_proj Braid.cohorts (fun _ _ => ?_) _ _ _
  split <;> rfl

theorem State.ctx_liftReservations (s : State) (n : Nat) (p : Pos) : (s.liftReservations n).ctx p = s.ctx p := rfl

theorem State.basin_liftReservations (s : State) (n m : Nat) : (s.liftReservations n).basin m = s.basin m := rfl

theorem State.braid_modRecord (s : State) (n id : Nat) (f : Record → Record) (b : Nat) :
    (s.modRecord n id f).braid b = s.braid b := rfl

/-- No launch of the basin is complete. -/
def State.noneComplete (s : State) (n : Nat) : Prop := ∀ x ∈ (s.basin n).records, (x.exhausted && x.running == 0) = false

theorem State.finishLaunches_of_noneComplete {s : State} {n : Nat} (h : s.noneComplete n) :
    s.finishLaunches n = s.liftReservations n := by
  rw [State.finishLaunches, List.filter_eq_nil_iff.2 fun x hx => Bool.eq_false_iff.1 (h x hx)]
  rfl

theorem State.records_modRecord {s : State} {n : Nat} {x : Record} (h : (s.basin n).records = [x]) (f : Record → Record) :
    ((s.modRecord n x.id f).basin n).records = [f x] := by
  rw [State.modRecord, State.basin_modBasin]
  simp [h]

/-! ### Submission pages -/

theorem Basin.retries_iff (x : Basin) (q : Nat) :
    x.retries q = true ↔ (x.queues.get {} q).enable = false ∨ x.contained = true ∨ 256 ≤ x.held q := by
  simp only [Basin.retries, Bool.or_eq_true, Bool.not_eq_true', decide_eq_true_eq]
  tauto

theorem State.pageBound_iff (s : State) (vf q : Nat) : s.pageBound vf q = true ↔
    vf ≠ 0 ∧ (s.vfs.get {} vf).gran.ownedBy (s.vfs.get {} vf).gran.basin = true
      ∧ ((s.basin (s.vfs.get {} vf).gran.basin).queues.get {} q).vf = vf := by
  simp only [State.pageBound, Bool.and_eq_true, decide_eq_true_eq, beq_iff_eq]
  tauto

theorem State.discardWrite_counts (s : State) (vf : Nat) :
    ((s.discardWrite vf).vfs.get {} vf).discarded = (s.vfs.get {} vf).discarded + 1
      ∧ (s.discardWrite vf).errlog.length = s.errlog.length + 1 := by
  refine ⟨?_, List.length_append⟩
  change (((s.vfs.put vf _).get {} vf : Vf)).discarded = _
  rw [Table.get_put_same]

/-- The word of a page's state is the sum of its three fields, each below the next (R437). -/
theorem Basin.pageState_fields (x : Basin) (q : Nat) (h : x.held q ≤ 256) :
    field (x.pageState q) 8 0 = x.held q ∧ bit (x.pageState q) 9 = (x.queues.get {} q).enable
      ∧ bit (x.pageState q) 10 = x.contained := by
  have hv : (x.pageState q).toNat =
      x.held q + (if (x.queues.get {} q).enable then 2 ^ 9 else 0) + if x.contained then 2 ^ 10 else 0 := by
    rw [Basin.pageState, w64, BitVec.toNat_ofNat]
    exact Nat.mod_eq_of_lt (by split <;> split <;> omega)
  refine ⟨?_, ?_, ?_⟩ <;> simp only [field, bit, hv] <;>
    cases (x.queues.get {} q).enable <;> cases x.contained <;> simp <;> omega

section
variable {s : State} {vf q : Nat} {ws : List Word}

theorem exec_submissionWrite_retry (hv : 1 ≤ vf) (hv2 : vf ≤ 1024) (hq : q ≤ 7) (hw : ws.length = 16)
    (h : s.pageBound vf q = false ∨ (s.basin (s.vfs.get {} vf).gran.basin).retries q = true) :
    exec (.submissionWrite vf q ws) s = .next (s.answerOuter (1, false)) := by
  change execSubmissionWrite vf q ws s = _
  rw [execSubmissionWrite]
  dsimp only
  rw [if_neg (by simp; omega), if_neg (by simp [hw]), if_pos]
  rcases h with h | h <;> simp [h]

theorem exec_submissionWrite_other (hv : 1 ≤ vf) (hv2 : vf ≤ 1024) (hq : q ≤ 7) (hw : ws.length ≠ 16) :
    exec (.submissionWrite vf q ws) s = .next (s.discardWrite vf) := by
  change execSubmissionWrite vf q ws s = _
  rw [execSubmissionWrite]
  dsimp only
  rw [if_neg (by simp; omega), if_pos (by simpa using hw)]

theorem exec_submissionWrite_accept (hv : 1 ≤ vf) (hv2 : vf ≤ 1024) (hq : q ≤ 7) (hw : ws.length = 16)
    (hb : s.pageBound vf q = true) (hr : (s.basin (s.vfs.get {} vf).gran.basin).retries q = false)
    (hi : ({ id := 0, queue := q, words := ws } : Record).invalid = false) :
    exec (.submissionWrite vf q ws) s =
      .next ((s.answerOuter (0, false)).accept (s.vfs.get {} vf).gran.basin { id := 0, queue := q, words := ws }) := by
  change execSubmissionWrite vf q ws s = _
  rw [execSubmissionWrite]
  dsimp only
  rw [if_neg (by simp; omega), if_neg (by simp [hw]), if_neg (by simp [hb, hr]), hi]
  rfl
end

/-! ### Dependences -/

theorem State.dependence_unused (s : State) (n : Nat) (aspace thr : Word) : s.dependence n aspace 0 thr = (s, {}) := rfl

/-- A record without dependence words becomes eligible when its queue reads them. -/
theorem State.readDependences_unused (s : State) (n : Nat) {x : Record} (he : x.eligible = false) (hs : x.status = 0)
    (h4 : x.w 4 = 0) (h6 : x.w 6 = 0) : s.readDependences n x = s.modRecord n x.id fun z =>
      { z with eligible := true, since := s.cycle, deps := [], reread := false, edges := [] } := by
  rw [State.readDependences, if_neg (by simp [he, hs]), h4, h6]
  rfl

theorem State.accept_unused (s : State) (n : Nat) {x : Record} (he : x.eligible = false) (hs : x.status = 0)
    (h4 : x.w 4 = 0) (h6 : x.w 6 = 0) : ∃ y ∈ ((s.accept n x).basin n).records,
      y.words = x.words ∧ y.queue = x.queue ∧ y.eligible = true ∧ y.since = s.cycle := by
  rw [State.accept]
  dsimp only
  rw [if_neg (by simp [hs]), State.readDependences_unused _ _ (by exact he) (by exact hs) (by exact h4) (by exact h6),
    State.modRecord, State.basin_modBasin, State.basin_modBasin]
  refine ⟨_, List.mem_map_of_mem (List.mem_append_right _ (List.mem_singleton_self _)), ?_⟩
  rw [if_pos (by simp)]
  exact ⟨rfl, rfl, rfl, rfl⟩

theorem State.reply_accept_unused (s : State) (n : Nat) {x : Record} (he : x.eligible = false) (hs : x.status = 0)
    (h4 : x.w 4 = 0) (h6 : x.w 6 = 0) : (s.accept n x).reply = s.reply := by
  rw [State.accept]
  dsimp only
  rw [if_neg (by simp [hs]), State.readDependences_unused _ _ (by exact he) (by exact hs) (by exact h4) (by exact h6)]
  rfl

theorem exec_dependenceReread {s : State} {n : Nat} {x : Record} (hr : (s.basin n).records = [x])
    (hc : (s.basin n).contained = false) : exec (.dependenceReread n x.id) s =
      .next (if x.reread then s.readDependences n x else s) := by
  change execDependenceReread n x.id s = _
  rw [execDependenceReread, hr, List.find?_cons_of_pos (by simp)]
  dsimp only
  rw [hc]
  cases x.reread <;> rfl

/-- A write to a watched line makes the queue read again. -/
theorem State.records_wrote {s : State} {n line : Nat} {x : Record} (hr : (s.basin n).records = [x]) (hl : line ∈ x.deps) :
    ((s.wrote line).basin n).records = [{ x with reread := true }] := by
  have h : (s.wrote line).basin n = { s.basin n with
      records := (s.basin n).records.map fun r => if r.deps.contains line then { r with reread := true } else r } := by
    unfold State.basin State.wrote
    exact Table.get_update _ _ (fun _ (y : Basin) => { y with
      records := y.records.map fun r => if r.deps.contains line then { r with reread := true } else r }) _ rfl
  rw [h, hr]
  simp [hl]

/-! ### Fit reads no basin -/

theorem State.fitRows_basins (s : State) (bs : Table Basin) (b t rho : Nat) (empty : Bool) : ∀ (n j : Nat) (taken : List Nat),
    ({ s with basins := bs } : State).fitRows b t rho empty n j taken = s.fitRows b t rho empty n j taken
  | 0, _, _ => rfl
  | n + 1, j, taken => by
    rw [State.fitRows, State.fitRows]
    simp only [State.fitRows_basins s bs b t rho empty n]
    rfl

theorem State.fit_basins (s : State) (bs : Table Basin) (b : Nat) (x : Record) (empty : Bool) :
    ({ s with basins := bs } : State).fit b x empty = s.fit b x empty := by
  rw [State.fit, State.fit]
  simp only [State.fitRows_basins]
  rfl

/-- Neither the basins nor the mark of age tell whether a braid could hold a cohort. -/
theorem State.unplaceable_basins (s : State) (bs : Table Basin) (n : Nat) (x : Record) :
    ({ s with basins := bs } : State).unplaceable n { x with aged := true } = s.unplaceable n x := by
  rw [State.unplaceable, State.unplaceable]
  simp only [State.fit_basins]
  rfl

/-! ### Ageing -/

theorem State.records_judgeAged_keep {s : State} {n : Nat} {x : Record} (hr : (s.basin n).records = [x])
    (h : (x.aged && !x.exhausted && s.unplaceable n x) = false) : ((s.judgeAged n).basin n).records = [x] := by
  rw [State.judgeAged, State.basin_modBasin]
  simp only [hr, List.map_cons, h, List.map_nil]
  rfl

theorem exec_recordAged {s : State} {n : Nat} {x : Record} (hr : (s.basin n).records = [x])
    (hc : (s.basin n).contained = false) (he : x.eligible = true) (ha : x.aged = false) (hx : x.exhausted = false)
    (ht : x.since + x.age * 3300 ≤ s.cycle) : exec (.recordAged n x.id) s =
      .next (((s.modRecord n x.id fun z => { z with aged := true }).judgeAged n).finishLaunches n) := by
  change execRecordAged n x.id s = _
  rw [execRecordAged, hr, List.find?_cons_of_pos (by simp)]
  dsimp only
  rw [if_pos]
  rw [he, ha, hx, hc]
  exact decide_eq_true ht

theorem exec_recordAged_records {s : State} {n : Nat} {x : Record} (hr : (s.basin n).records = [x])
    (hc : (s.basin n).contained = false) (he : x.eligible = true) (ha : x.aged = false) (hx : x.exhausted = false)
    (ht : x.since + x.age * 3300 ≤ s.cycle) (hu : s.unplaceable n x = false) :
    ∃ t, exec (.recordAged n x.id) s = .next t ∧ (t.basin n).records = [{ x with aged := true }] := by
  have hj : (((s.modRecord n x.id fun z => { z with aged := true }).judgeAged n).basin n).records = [{ x with aged := true }] :=
    State.records_judgeAged_keep (State.records_modRecord hr _) (by
      rw [show (s.modRecord n x.id fun z => { z with aged := true }).unplaceable n { x with aged := true } = false from
        (State.unplaceable_basins _ _ _ _).trans hu, Bool.and_false])
  refine ⟨_, exec_recordAged hr hc he ha hx ht, ?_⟩
  rw [State.finishLaunches_of_noneComplete fun y hy => ?_]
  · exact hj
  · rw [hj, List.mem_singleton] at hy
    subst hy
    rw [show Record.exhausted { x with aged := true } = false from hx, Bool.false_and]

/-! ### Placement -/

theorem State.fitBraid_judgeAged (s : State) (die n : Nat) (x : Record) :
    (s.judgeAged n).fitBraid die n x = s.fitBraid die n x := by
  have hp : ∀ b, (s.judgeAged n).placeable n b = s.placeable n b := fun b => by
    rw [State.placeable, State.judgeAged, State.basin_modBasin]
    rfl
  have hf : ∀ b, (s.judgeAged n).fit b x false = s.fit b x false := fun b => State.fit_basins s _ b x false
  rw [State.fitBraid, State.fitBraid]
  simp only [hp, hf]
  rfl

/-- The contexts of the rows are all different. -/
theorem State.fitRows_nodup (s : State) (b t rho : Nat) (empty : Bool) : ∀ (n j : Nat) (taken : List Nat) {rows : List Nat},
    taken.Nodup → (∀ k ∈ taken, k < 15) → s.fitRows b t rho empty n j taken = some rows →
    rows.Nodup ∧ (∀ k ∈ rows, k < 15) ∧ rows.length = taken.length + n
  | 0, j, taken, rows, hd, hk, h => by
    cases h
    exact ⟨hd, hk, rfl⟩
  | n + 1, j, taken, rows, hd, hk, h => by
    rw [State.fitRows] at h
    split at h
    · next k hf =>
      have hp := List.find?_some hf
      rw [Bool.and_eq_true, Bool.not_eq_true', List.contains_eq_mem, decide_eq_false_iff_not] at hp
      have hd2 : (taken ++ [k]).Nodup := by
        rw [List.nodup_append]
        exact ⟨hd, List.nodup_singleton k, fun a ha c hc => by rintro rfl; exact hp.1 (by simpa using List.mem_singleton.1 hc ▸ ha)⟩
      obtain ⟨h1, h2, h3⟩ := State.fitRows_nodup s b t rho empty n (j + 1) (taken ++ [k]) hd2
        (fun a ha => (List.mem_append.1 ha).elim (hk a) fun hc => by
          rw [List.mem_singleton.1 hc]
          exact List.mem_range.1 (List.mem_of_find?_eq_some hf)) h
      exact ⟨h1, h2, by rw [h3, List.length_append]; simp only [List.length_singleton]; omega⟩
    · cases h

theorem State.rows_of_fit {s : State} {b : Nat} {x : Record} {f : Fit} (h : s.fit b x false = some f) :
    f.rows.Nodup ∧ (∀ k ∈ f.rows, k < 15) ∧ f.rows.length = (x.threads + 7) / 8 := by
  rw [State.fit] at h
  obtain ⟨i, -, hi⟩ := List.exists_of_findSome?_eq_some h
  dsimp only at hi
  split at hi
  · cases hi
  · next rows hr =>
    obtain ⟨h1, h2, h3⟩ := State.fitRows_nodup s _ _ _ _ _ _ _ List.nodup_nil (by simp) hr
    split at hi
    · split at hi
      · cases hi
        exact ⟨h1, h2, by simpa using h3⟩
      · cases hi
    · cases hi

theorem State.fit_of_fitBraid {s : State} {die n b : Nat} {x : Record} {f : Fit} (h : s.fitBraid die n x = some (b, f)) :
    s.fit b x false = some f := by
  rw [State.fitBraid] at h
  obtain ⟨c, -, hc⟩ := List.exists_of_findSome?_eq_some h
  split at hc
  · cases hf : s.fit c x false with
    | none => rw [hf] at hc; cases hc
    | some g => rw [hf] at hc; cases hc; exact hf
  · cases hc

/-- Where thread i of a cohort runs. -/
def Fit.pos (f : Fit) (b i : Nat) : Pos := ⟨b, (f.rho + i) % 8, f.rows.getD (i / 8) 0⟩

/-- No other thread of a cohort has the first thread's context. -/
theorem Fit.key_pos_ne {f : Fit} {b t i : Nat} (hd : f.rows.Nodup) (hk : ∀ k ∈ f.rows, k < 15)
    (hl : f.rows.length = (t + 7) / 8) (h0 : i ≠ 0) (hi : i < t) : (f.pos b 0).key ≠ (f.pos b i).key := by
  have hlt : i / 8 < f.rows.length := by omega
  have h0t : 0 < f.rows.length := by omega
  have hb : ∀ {j}, (hj : j < f.rows.length) → f.rows[j] < 15 := fun hj => hk _ (List.getElem_mem hj)
  have g0 : f.rows.getD 0 0 = f.rows[0] := by simp [h0t]
  have gi : f.rows.getD (i / 8) 0 = f.rows[i / 8] := by simp [hlt]
  intro he
  simp only [Fit.pos, Pos.key, Nat.zero_div, g0, gi] at he
  have h1 := hb hlt
  have h2 := hb h0t
  have hr : (f.rho + 0) % 8 = (f.rho + i) % 8 := by omega
  have hrow : f.rows[0] = f.rows[i / 8] := by omega
  have := (hd.getElem_inj_iff (hi := h0t) (hj := hlt)).1 hrow
  omega

theorem foldl_setCtx_first (P : Nat → Pos) (g : Nat → Ctx) (s : State) {t : Nat} (ht : 1 ≤ t)
    (hne : ∀ i, i ≠ 0 → i < t → (P 0).key ≠ (P i).key) :
    ((List.range t).foldl (fun z i => z.setCtx (P i) (g i)) s).ctx (P 0) = g 0 := by
  obtain ⟨m, rfl⟩ : ∃ m, t = m + 1 := ⟨t - 1, by omega⟩
  rw [List.range_succ_eq_map, List.foldl_cons, List.foldl_map]
  have hk : ∀ (l : List Nat) (z : State), (∀ i ∈ l, i < m) →
      (l.foldl (fun z i => z.setCtx (P (i + 1)) (g (i + 1))) z).ctx (P 0) = z.ctx (P 0) := by
    intro l
    induction l with
    | nil => exact fun _ _ => rfl
    | cons a l ih =>
      intro z hl
      rw [List.foldl_cons, ih _ fun i hi => hl i (List.mem_cons_of_mem _ hi),
        State.ctx_setCtx_other _ _ (hne (a + 1) (by omega) (by have := hl a List.mem_cons_self; omega))]
  rw [hk _ _ fun i hi => List.mem_range.1 hi, State.ctx_setCtx]

/-- Where the allocation of a cohort begins on a rill. -/
def State.offsetOf (s : State) (b : Nat) (x : Record) (f : Fit) (r : Nat) : Nat :=
  ((List.range 8).map fun r => (s.roomsOn b r (x.demand (threadsOn x.threads f.rho r)) x.align false).headD 0).getD r 0

/-- Thread i of a cohort as Place starts it. -/
def State.threadOf (s : State) (n b : Nat) (x : Record) (f : Fit) (i : Nat) : Ctx :=
  let off := s.offsetOf b x f (f.pos b i).r
  startedCtx s x ((s.basin n).queues.get {} x.queue).aspace s.nextId (s.tid (f.pos b i)) i off (i / 8) f
    (w64 (2 ^ 55 + (f.pos b i).r * 2 ^ 21 + off))

/-- The first thread of a placed cohort starts in the first row's context. -/
theorem State.ctx_place {s : State} {n b : Nat} {x : Record} {f : Fit} (ht : 1 ≤ x.threads)
    (hf : s.fit b x false = some f) : (s.place n b x f).ctx (f.pos b 0) = s.threadOf n b x f 0 := by
  obtain ⟨hd, hk, hl⟩ := State.rows_of_fit hf
  rw [State.place]
  dsimp only
  split <;> exact foldl_setCtx_first (f.pos b) (s.threadOf n b x f) _ ht fun i => Fit.key_pos_ne hd hk hl

theorem State.records_place {s : State} {n b : Nat} {x : Record} (f : Fit) (hr : (s.basin n).records = [x]) :
    ((s.place n b x f).basin n).records = [{ x with placed := x.placed + 1, running := x.running + 1 }] := by
  rw [State.place]
  dsimp only
  have h : ∀ (l : List Nat) (P : Nat → Pos) (g : Nat → Ctx) (z : State), (z.basin n).records = [x] →
      ((l.foldl (fun z i => z.setCtx (P i) (g i)) z).basin n).records = [x] := fun l P g z hz =>
    (foldl_keeps (f := fun z i => State.setCtx z (P i) (g i)) (g := fun z => (z.basin n).records) (fun _ _ _ => rfl) z).trans hz
  have hb : ∀ (z : State) (u : Table Braid), ({ z with braids := u } : State).basin n = z.basin n := fun _ _ => rfl
  split
  · rw [hb, State.basin_modBasin]
    exact State.records_modRecord (h _ _ _ _ (by exact hr)) _
  · rw [State.basin_modBasin]
    exact State.records_modRecord (h _ _ _ _ (by exact hr)) _

/-- The first argument of a thread is word 1 of its record (R351). -/
theorem startedCtx_facts (s : State) (x : Record) (aspace : Word) (id tid i off row : Nat) (f : Fit) (l : Word) :
    (startedCtx s x aspace id tid i off row f l).run = .running
      ∧ (startedCtx s x aspace id tid i off row f l).pc = setField (setField (x.w 0) 63 56 0) 0 0 0
      ∧ (startedCtx s x aspace id tid i off row f l).cohort = some id
      ∧ (startedCtx s x aspace id tid i off row f l).reg 8 = { val := x.w 1 } := by
  exact ⟨rfl, rfl, rfl, rfl⟩

theorem exec_placementRound {s : State} {die n : Nat} (ha : (s.basin n).alive = true) (hc : (s.basin n).contained = false) :
    exec (.placementRound die n) s =
      .next ((placeFrom die n ((s.judgeAged n).basin n).order (s.judgeAged n)).finishLaunches n) := by
  change execPlacementRound die n s = _
  rw [execPlacementRound, ha, hc]
  rfl

/-- The recursion is unfolded by `delta`: its equation is checked by evaluating `fitBraid`, which no check ends. -/
theorem placeFrom_single {s : State} {die n b : Nat} {x : Record} {f : Fit} (h : s.fitBraid die n x = some (b, f)) :
    placeFrom die n [x] s = s.place n b x f := by
  delta placeFrom placeFrom._f
  dsimp only [List.brecOn, List.brecOn.go]
  rw [h]

theorem State.basin_judgeAged_one {s : State} {n : Nat} {x : Record} (hr : (s.basin n).records = [x]) (ha : x.aged = false) :
    (s.judgeAged n).basin n = s.basin n := by
  rw [State.judgeAged, State.basin_modBasin, hr]
  simp only [List.map_cons, List.map_nil, ha, Bool.false_and, Bool.false_eq_true, if_false]
  rw [← hr]

theorem exec_placementRound_one {s : State} {die n b : Nat} {x : Record} {f : Fit} (hal : (s.basin n).alive = true)
    (hc : (s.basin n).contained = false) (hr : (s.basin n).records = [x]) (ha : x.aged = false)
    (ho : (s.basin n).order = [x]) (ht : 1 ≤ x.threads) (hf : s.fitBraid die n x = some (b, f)) :
    ∃ t, exec (.placementRound die n) s = .next t
      ∧ (t.basin n).records = [{ x with placed := x.placed + 1, running := x.running + 1 }]
      ∧ t.ctx (f.pos b 0) = (s.judgeAged n).threadOf n b x f 0 := by
  have hj := State.basin_judgeAged_one hr ha
  have hfj : (s.judgeAged n).fitBraid die n x = some (b, f) := (State.fitBraid_judgeAged _ _ _ _).trans hf
  have hrec := State.records_place (s := s.judgeAged n) (b := b) f (by rw [hj, hr])
  have hctx := State.ctx_place (n := n) ht (State.fit_of_fitBraid hfj)
  refine ⟨((s.judgeAged n).place n b x f).finishLaunches n, ?_, ?_, ?_⟩
  · rw [exec_placementRound hal hc, hj, ho, placeFrom_single hfj]
  all_goals
    rw [State.finishLaunches_of_noneComplete fun y hy => by
      rw [hrec, List.mem_singleton] at hy
      subst hy
      simp]
  · rw [State.basin_liftReservations, hrec]
  · rw [State.ctx_liftReservations, hctx]

/-! ### The end of a cohort -/

theorem Braid.cohorts_freeCohort (x : Braid) (m : Nat) : (x.freeCohort m).cohorts.find m = none := Table.find_drop_same _ _

/-- A launch without completion address, POST address and notification leaves its queue when it completes (R352). -/
theorem State.completeLaunch_silent {s : State} {n : Nat} {x : Record} (h8 : x.w 8 = 0) (h10 : x.w 10 = 0)
    (h9 : bit (x.w 9) 0 = false) (hc : (s.basin n).contained = false) :
    ∃ ws fs, s.completeLaunch n x = ({ s with lineWaits := ws, fanouts := fs } : State).modBasin n fun y =>
      { y with records := y.records.filter fun z => z.id != x.id } := by
  refine ⟨s.lineWaits.filter fun w => w.id != launchAgent x.id && decide (s.cycle ≤ w.last + 32),
    s.fanouts.filter fun f => f.agent != some (launchAgent x.id), ?_⟩
  rw [State.completeLaunch]
  simp only [h8, h10, if_true, hc]
  rw [if_neg (by decide)]
  unfold State.gateInLine State.takePlace State.gate State.notifyLaunch
  simp only [h9]
  rfl

section
variable {s : State} {b m n : Nat} {c : Cohort}

theorem exec_cohortEnd (hf : (s.braid b).cohorts.find m = some c) (hh : ∀ t ∈ c.threads, t ∈ c.halted) :
    exec (.cohortEnd b m) s = .next (((s.modBraid b fun x => x.freeCohort m).modRecord c.basin c.record fun z =>
      { z with running := z.running - 1 }).finishLaunches c.basin) := by
  change execCohortEnd b m s = _
  rw [execCohortEnd, hf]
  dsimp only
  rw [if_pos (by simpa using hh)]

theorem exec_cohortEnd_others {x : Record} (hf : (s.braid b).cohorts.find m = some c) (hh : ∀ t ∈ c.threads, t ∈ c.halted)
    (hn : c.basin = n) (hr : (s.basin n).records = [x]) (hx : x.id = c.record) (h2 : 2 ≤ x.running) :
    ∃ t, exec (.cohortEnd b m) s = .next t ∧ (t.braid b).cohorts.find m = none
      ∧ (t.basin n).records = [{ x with running := x.running - 1 }] := by
  subst hn
  refine ⟨_, exec_cohortEnd hf hh, ?_⟩
  have hrec := State.records_modRecord (s := s.modBraid b fun x => x.freeCohort m) (n := c.basin) hr
    fun z => { z with running := z.running - 1 }
  rw [← hx, State.finishLaunches_of_noneComplete fun y hy => by
      rw [hrec, List.mem_singleton] at hy
      subst hy
      simp
      omega]
  refine ⟨?_, hrec⟩
  rw [State.cohorts_liftReservations, State.braid_modRecord, State.braid_modBraid, Braid.cohorts_freeCohort]

theorem exec_cohortEnd_last {x : Record} (hf : (s.braid b).cohorts.find m = some c) (hh : ∀ t ∈ c.threads, t ∈ c.halted)
    (hn : c.basin = n) (hr : (s.basin n).records = [x]) (hx : x.id = c.record) (h1 : x.running = 1)
    (he : x.exhausted = true) (hc : (s.basin n).contained = false) (h8 : x.w 8 = 0) (h10 : x.w 10 = 0)
    (h9 : bit (x.w 9) 0 = false) :
    ∃ t, exec (.cohortEnd b m) s = .next t ∧ (t.braid b).cohorts.find m = none ∧ (t.basin n).records = [] := by
  subst hn
  refine ⟨_, exec_cohortEnd hf hh, ?_⟩
  have hrec := State.records_modRecord (s := s.modBraid b fun x => x.freeCohort m) (n := c.basin) hr
    fun z => { z with running := z.running - 1 }
  rw [← hx, State.finishLaunches, hrec]
  rw [List.filter_cons_of_pos (by
    rw [h1]
    exact (Bool.and_true _).trans he), List.filter_nil, List.foldl_cons, List.foldl_nil]
  obtain ⟨ws, fs, hq⟩ := State.completeLaunch_silent
    (s := (((s.modBraid b fun x => x.freeCohort m).modRecord c.basin x.id fun z =>
      { z with running := z.running - 1 }).liftReservations c.basin)) (n := c.basin)
    (x := { x with running := x.running - 1, status := if x.cancelled && x.status == 0 then 1 else x.status })
    h8 h10 h9 (by
      rw [State.basin_liftReservations, State.modRecord, State.basin_modBasin]
      exact hc)
  refine Eq.subst (motive := fun t : State => (t.braid b).cohorts.find m = none ∧ (t.basin c.basin).records = [])
    hq.symm ⟨?_, ?_⟩
  · change (((State.liftReservations _ c.basin).braid b).cohorts).find m = none
    rw [State.cohorts_liftReservations, State.braid_modRecord, State.braid_modBraid, Braid.cohorts_freeCohort]
  · rw [State.basin_modBasin]
    refine (congrArg (List.filter _) (a₂ := [{ x with running := x.running - 1 }]) ?_).trans ?_
    · exact hrec
    · simp

end

/-- Settles O40: each event is unfolded once above; a record without dependence, completion and POST words makes the
steps that would wait fall away, and a placed cohort's threads have different contexts. -/
theorem launchEvents : Obligations.LaunchEvents := by
  unfold Obligations.LaunchEvents
  intro s n
  refine ⟨?_, fun vf q => s.pageBound_iff vf q, fun q hq => Basin.pageState_fields _ q hq, ?_, ?_, ?_, ?_, ?_, ?_⟩
  · intro vf q ws h1 h2 h3 hn
    refine ⟨fun hw h => exec_submissionWrite_retry h1 h2 h3 hw ?_, fun hw => ?_⟩
    · rw [hn, Basin.retries_iff]
      exact h
    · exact ⟨exec_submissionWrite_other h1 h2 h3 hw, rfl, State.discardWrite_counts s vf⟩
  · intro vf q ws h2 h3 hb hn hw hc he hh hi h4 h6
    have h1 : 1 ≤ vf := Nat.one_le_iff_ne_zero.2 ((s.pageBound_iff vf q).1 hb).1
    have hr : (s.basin (s.vfs.get {} vf).gran.basin).retries q = false := by
      rw [Bool.eq_false_iff, Ne, Basin.retries_iff, hn, hc, he]
      simpa using hh
    refine ⟨_, exec_submissionWrite_accept h1 h2 h3 hw hb hr hi, ?_, ?_⟩
    · rw [State.reply_accept_unused _ _ rfl rfl (by exact h4) (by exact h6)]
      rfl
    · rw [hn]
      exact State.accept_unused (s.answerOuter (0, false)) n rfl rfl (by exact h4) (by exact h6)
  · intro x hr hc he hs
    refine ⟨fun h => ?_, fun h h4 h6 => ?_⟩
    · rw [exec_dependenceReread hr hc, h]
      rfl
    · refine ⟨_, exec_dependenceReread hr hc, ?_⟩
      rw [h, if_pos rfl, State.readDependences_unused _ _ he hs h4 h6, State.records_modRecord hr]
  · exact fun x line hr hl => State.records_wrote hr hl
  · exact fun x hr hc he ha hx ht hu => exec_recordAged_records hr hc he ha hx ht hu
  · intro die x b f hal hc hr ha ho ht hf
    obtain ⟨t, hex, hrec, hctx⟩ := exec_placementRound_one hal hc hr ha ho ht hf
    refine ⟨t, hex, hrec, ?_⟩
    dsimp only
    rw [show (⟨b, f.rho % 8, f.rows.getD 0 0⟩ : Pos) = f.pos b 0 from rfl, hctx]
    exact startedCtx_facts _ _ _ _ _ _ _ _ _ _
  · intro b m c hf hh hn
    exact ⟨fun x hr hx h2 => exec_cohortEnd_others hf hh hn hr hx h2,
      fun x hr hx h1 he hc h8 h10 h9 => exec_cohortEnd_last hf hh hn hr hx h1 he hc h8 h10 h9⟩

end Sys2Proof.Machine
end

section
/-! PROOFS. The phases of a resize (R411 to R416). -/

namespace Sys2Proof.Machine

/-! ### Contexts that do not wait -/

/-- No instruction of a context waits. -/
def State.idleAt (s : State) (q : Pos) : Prop := (s.ctx q).wait = none

theorem State.idleAt_setCtx {s : State} {q : Pos} (p : Pos) {c : Ctx} (hc : c.wait = none) (h : s.idleAt q) :
    (s.setCtx p c).idleAt q := by
  unfold State.idleAt at h ⊢
  by_cases hk : q.key = p.key
  · rwa [State.ctx, hk, ← State.ctx, State.ctx_setCtx]
  · rwa [State.ctx_setCtx_other s c hk]

theorem State.idleAt_modCtx {s : State} {q : Pos} (p : Pos) {f : Ctx → Ctx} (hf : ∀ c, c.wait = none → (f c).wait = none)
    (h : s.idleAt q) : (s.modCtx p f).idleAt q := by
  unfold State.idleAt at h ⊢
  by_cases hk : q.key = p.key
  · rw [State.ctx, hk, ← State.ctx] at h ⊢
    rw [State.ctx_modCtx]
    exact hf _ h
  · rwa [State.ctx_modCtx_other s f hk]

theorem State.idleAt_foldl {β : Type} {f : State → β → State} {q : Pos} (hf : ∀ t x, State.idleAt t q → (f t x).idleAt q)
    (l : List β) {s : State} (h : s.idleAt q) : (l.foldl f s).idleAt q := by
  induction l generalizing s with
  | nil => exact h
  | cons x l ih => exact ih (hf s x h)

/-- An EVWAIT that takes a record is over. -/
theorem State.idleAt_post {s : State} {q : Pos} (b r : Nat) (e : EventRec) (h : s.idleAt q) : (s.post b r e).idleAt q := by
  unfold State.post
  dsimp only
  split
  · split
    next s2 h2 =>
      unfold State.takeRecord at h2
      split at h2
      · cases h2
      · cases h2
        refine State.idleAt_modCtx _ (fun _ _ => rfl) ?_
        refine State.idleAt_modCtx _ (fun _ hc => hc) (State.idleAt_modCtx _ (fun _ hc => hc) ?_)
        exact State.idleAt_modCtx _ (fun _ hc => hc) h
    · exact h
  · exact h

theorem State.idleAt_joinGranule {s : State} {q : Pos} (n : Nat) (joining : Bool) (g : Nat × Nat) (h : s.idleAt q) :
    (s.joinGranule n joining g).idleAt q := by
  unfold State.joinGranule
  split
  · unfold State.joinBraid
    refine State.idleAt_foldl (fun t r ht => ?_) _ ?_
    · exact State.idleAt_setCtx _ rfl ht
    · exact h
  · unfold State.modGran
    split <;> exact h

theorem State.idleAt_announce {s : State} {q : Pos} (n : Nat) (z : Resize) (h : s.idleAt q) : (s.announce n z).idleAt q := by
  have h1 := State.idleAt_foldl (fun _ g ht => State.idleAt_joinGranule n true g ht) (granuleOrder z.add) h
  have h2 := State.idleAt_foldl (f := State.leave) (q := q) (fun t g ht => by
    unfold State.leave State.modGran
    dsimp only
    split <;> exact ht) z.remove h1
  exact h2

/-! ### Notices -/

theorem State.rill_post_other (s : State) {b r c q : Nat} (e : EventRec) (h : rillKey c q ≠ rillKey b r) :
    (s.post b r e).rill c q = s.rill c q := by
  have hs : ∀ (t : State) p n v, (t.setSr p n v).rill c q = t.rill c q := fun _ _ _ _ => rfl
  have he : ∀ (t : State) d v, (t.endEvwait b r d v).rill c q = t.rill c q := fun _ _ _ => rfl
  unfold State.post
  dsimp only
  split
  · split
    next s2 h2 =>
      unfold State.takeRecord at h2
      split at h2
      · cases h2
      · cases h2
        rw [he, hs, hs, hs, State.rill_modRill_other _ _ h, State.rill_modRill_other _ _ h]
    · exact State.rill_modRill_other _ _ h
  · exact State.rill_modRill_other _ _ h

/-- A rill has an undelivered notice of the resize with a number. -/
def State.noticed (s : State) (seq key : Nat) : Prop :=
  ∃ e ∈ (s.rill (key / 8) (key % 8)).events, e.cls = 0 ∧ e.cause = 0x21 ∧ field e.val 15 0 = seq % 65536

/-- RSEQ is the low part of a resize word. -/
theorem field_noticeWord (s : State) (z : Resize) (b r : Nat) : field (s.noticeWord z b r) 15 0 = z.seq % 65536 := by
  have hf : ∀ c : Bool, ∀ k, (if c then 2 ^ (16 + k) else 0) % 65536 = 0 := by
    intro c k
    cases c
    · rfl
    · simp [pow_add, Nat.mul_mod_right]
  have h1 := hf (z.phase == 6 && z.forced) 3
  have h2 := hf ((s.braid b).gran.state == .leaving) 4
  have h3 := hf (s.braid b).gran.joining 5
  have h4 := hf (z.retire == some (b, r)) 6
  simp only [Nat.reduceAdd] at h1 h2 h3 h4
  simp only [State.noticeWord, field, w64, BitVec.toNat_ofNat, Nat.pow_zero, Nat.div_one]
  norm_num only [] at h1 h2 h3 h4 ⊢
  omega

/-- The notice of a rill is undelivered where its context 15 waits for nothing. -/
theorem State.noticed_notify {s : State} (z : Resize) {key : Nat} (h : s.idleAt ⟨key / 8, key % 8, 15⟩) :
    (s.notify z key).noticed z.seq key := by
  have hw : ∀ e : EventRec, (s.post (key / 8) (key % 8) e) = s.modRill (key / 8) (key % 8) fun x => x.postRecord e := by
    intro e
    unfold State.post
    dsimp only
    rw [State.ctx_modRill, show (s.ctx ⟨key / 8, key % 8, 15⟩).wait = none from h]
  unfold State.noticed State.notify
  rw [hw, State.rill_modRill, Rill.postRecord, if_pos rfl]
  exact ⟨_, List.mem_append_right _ (List.mem_singleton_self _), rfl, rfl, field_noticeWord s z _ _⟩

theorem State.noticed_notify_keep {s : State} (z : Resize) (k : Nat) {key : Nat} (h : s.idleAt ⟨key / 8, key % 8, 15⟩)
    (hn : s.noticed z.seq key) : (s.notify z k).noticed z.seq key := by
  by_cases hk : key = k
  · subst hk
    exact State.noticed_notify z h
  · unfold State.noticed State.notify
    rwa [State.rill_post_other _ _ (by unfold rillKey; omega)]

theorem State.noticed_foldl_notify (z : Resize) {key : Nat} : ∀ (ks : List Nat) {s : State},
    s.idleAt ⟨key / 8, key % 8, 15⟩ → s.noticed z.seq key ∨ key ∈ ks →
    (ks.foldl (fun t k => t.notify z k) s).noticed z.seq key
  | [], _, _, hk => hk.resolve_right List.not_mem_nil
  | k :: ks, s, h, hk => by
    refine State.noticed_foldl_notify z ks (State.idleAt_post _ _ _ h) ?_
    rcases hk with hk | hk
    · exact .inl (State.noticed_notify_keep z k h hk)
    · rcases List.mem_cons.1 hk with rfl | hk
      · exact .inl (State.noticed_notify z h)
      · exact .inr hk

theorem State.basin_notify (s : State) (z : Resize) (key n : Nat) : (s.notify z key).basin n = s.basin n := by
  unfold State.notify
  obtain ⟨cs, rs, h⟩ := s.post_eq (key / 8) (key % 8)
    { cls := 0, cause := 0x21, val := s.noticeWord z (key / 8) (key % 8), xstat := xstat 6 0 0 0 0 15 false, rank := 0 }
  rw [h]
  rfl

/-! ### The start of a phase -/

/-- A resize at the start of a phase with its notified rills. -/
def Resize.started (z : Resize) (now : Nat) (ns : List Nat) : Resize :=
  { z with began := true, since := now, notified := ns, acked := [], late := false, worked := false, moves := [], forcing := [] }

/-- The plan of a resize as its phase starts with it. -/
def State.planOf (s : State) (n : Nat) (z : Resize) : Resize := if z.phase = 1 then s.recheck n z else z

theorem State.basin_startPhase (s : State) (n : Nat) (z : Resize) : (s.startPhase n z).basin n =
    { (s.phaseWork n (s.planOf n z)).basin n with resize := some ((s.planOf n z).started s.cycle
        ((s.phaseWork n (s.planOf n z)).notifiedRills n (s.planOf n z).phase)) } := by
  have h (ks : List Nat) (w : Resize) (t : State) : (ks.foldl (fun t k => t.notify w k) t).basin n = t.basin n :=
    foldl_keeps (g := fun u => u.basin n) (fun u k _ => u.basin_notify w k n) t
  rw [State.startPhase]
  dsimp only
  rw [h, State.setResize, State.basin_modBasin]
  rfl

theorem State.seq_planOf (s : State) (n : Nat) (z : Resize) : (s.planOf n z).seq = z.seq := by
  unfold State.planOf
  split <;> rfl

theorem State.phase_planOf (s : State) (n : Nat) (z : Resize) : (s.planOf n z).phase = z.phase := by
  unfold State.planOf
  split <;> rfl

theorem State.idleAt_phaseWork {s : State} {q : Pos} (n : Nat) (z : Resize) (h : s.idleAt q) :
    (s.phaseWork n z).idleAt q := by
  unfold State.phaseWork
  split
  · exact State.idleAt_announce n z h
  · exact h
  · refine State.idleAt_foldl (fun t g ht => ?_) _ h
    unfold State.modGran
    split <;> exact ht
  · exact h

theorem State.noticed_startPhase {s : State} {n key : Nat} {z : Resize}
    (h : (s.phaseWork n (s.planOf n z)).idleAt ⟨key / 8, key % 8, 15⟩)
    (hk : key ∈ (s.phaseWork n (s.planOf n z)).notifiedRills n (s.planOf n z).phase) :
    (s.startPhase n z).noticed (s.planOf n z).seq key := by
  have h' : ((s.phaseWork n (s.planOf n z)).setResize n (some ((s.planOf n z).started s.cycle
      ((s.phaseWork n (s.planOf n z)).notifiedRills n (s.planOf n z).phase)))).idleAt ⟨key / 8, key % 8, 15⟩ := h
  exact State.noticed_foldl_notify ((s.planOf n z).started s.cycle _) _ h' (.inr hk)

theorem State.basin_announce (s : State) (n m : Nat) (z : Resize) : (s.announce n z).basin m = s.basin m := by
  have h1 : ((granuleOrder z.add).foldl (fun t g => t.joinGranule n true g) s).basin m = s.basin m :=
    foldl_keeps (g := fun u => u.basin m) (fun t g _ => congrArg (fun bs => Table.get {} bs m) (t.joinGranule_basins n true g)) s
  have h2 (t : State) : (z.remove.foldl (fun t g => t.leave g) t).basin m = t.basin m :=
    foldl_keeps (f := State.leave) (g := fun u => u.basin m) (fun t g _ => t.basin_modGran _ _ _ m) t
  exact (h2 _).trans h1

/-- Only Rehash starts with a change of its basin. -/
theorem State.basin_phaseWork (s : State) {n : Nat} {z : Resize} (h : z.phase ≠ 3) :
    (s.phaseWork n z).basin n = s.basin n := by
  unfold State.phaseWork
  split
  · exact s.basin_announce n n z
  · next h3 => exact absurd h3 h
  · exact foldl_keeps (g := fun u => u.basin n) (fun t g _ => t.basin_modGran _ _ _ n) s
  · rfl

/-- The resize that runs once a phase has started, and the notices of its rills. -/
theorem State.startPhase_facts (s : State) (n : Nat) {z : Resize} (h3 : z.phase ≠ 3) :
    ∃ w, (s.startPhase n z).basin n = { s.basin n with resize := some w }
    ∧ w.began = true ∧ w.phase = z.phase ∧ w.seq = z.seq ∧ w.acked = [] ∧ w.since = s.cycle
    ∧ ∀ key ∈ w.notified, s.idleAt ⟨key / 8, key % 8, 15⟩ → (s.startPhase n z).noticed z.seq key := by
  refine ⟨(s.planOf n z).started s.cycle ((s.phaseWork n (s.planOf n z)).notifiedRills n (s.planOf n z).phase),
    by rw [State.basin_startPhase, State.basin_phaseWork _ (by rwa [State.phase_planOf])], rfl, s.phase_planOf n z, s.seq_planOf n z, rfl, rfl, fun key hk hq => ?_⟩
  rw [← s.seq_planOf n z]
  exact State.noticed_startPhase (State.idleAt_phaseWork n _ hq) hk

section
variable {s : State} {n : Nat} {z : Resize} {rest : List Resize}

theorem exec_resizePhaseStart (hc : (s.basin n).contained = false) (ha : (s.basin n).alive = true)
    (hr : (s.basin n).resize = none) (hw : (s.basin n).waiting = z :: rest) : exec (.resizePhaseStart n) s =
      .next ((s.modBasin n fun y => { y with waiting := rest, rseq := z.seq }).startPhase n { z with phase := 1 }) := by
  change execResizePhaseStart n s = _
  rw [execResizePhaseStart]
  rw [hc, ha, hr, hw]
  rfl

/-- Announce: the request leaves the queue, its phase 1 runs, and its rills have their notices. -/
theorem exec_resizePhaseStart_announces (hc : (s.basin n).contained = false) (ha : (s.basin n).alive = true)
    (hr : (s.basin n).resize = none) (hw : (s.basin n).waiting = z :: rest) :
    ∃ u w, exec (.resizePhaseStart n) s = .next u ∧ (u.basin n).resize = some w ∧ w.began = true ∧ w.phase = 1
      ∧ w.seq = z.seq ∧ w.acked = [] ∧ w.since = s.cycle ∧ (u.basin n).waiting = rest ∧ (u.basin n).rseq = z.seq
      ∧ ∀ key ∈ w.notified, (s.ctx ⟨key / 8, key % 8, 15⟩).wait = none →
          ∃ e ∈ (u.rill (key / 8) (key % 8)).events, e.cls = 0 ∧ e.cause = 0x21 ∧ field e.val 15 0 = z.seq % 65536 := by
  obtain ⟨w, hres, hb, hp, hs, hack, hsince, hn⟩ := State.startPhase_facts
    (s.modBasin n fun y => { y with waiting := rest, rseq := z.seq }) n (z := { z with phase := 1 })
    (show 1 ≠ 3 by decide)
  rw [State.basin_modBasin] at hres
  exact ⟨_, w, exec_resizePhaseStart hc ha hr hw, by rw [hres], hb, hp, hs, hack, hsince, by rw [hres], by rw [hres], hn⟩

/-! ### The end of a phase -/

theorem State.makeMoves_none (hm : z.moves = []) (hf : z.forcing = []) : s.makeMoves n z = (s.setResize n (some z), z) := by
  obtain ⟨⟩ := z
  subst hm hf
  rfl

theorem State.retireGen_other (h : z.phase ≠ 3) : s.retireGen n z = s := by
  unfold State.retireGen
  split
  · next h3 _ => exact absurd h3 h
  · rfl

/-- Once no line is held, the generation before the rehash retires. -/
theorem State.retireGen_rehash {next : List Nat} (h : z.phase = 3) (hn : (s.basin n).nextSlices = some next)
    (hl : s.locks = []) (hf : s.fanouts = []) : s.retireGen n z = s.modBasin n fun x =>
      { x with slices := next, gen := (x.gen + 1) % 65536, nextSlices := none, handed := [] } := by
  unfold State.retireGen
  split
  · next _ _ hs =>
    cases hn.symm.trans hs
    exact if_neg (by simp [State.linesHeld, hl, hf])
  · next hx => exact absurd hn (hx next h)

theorem exec_resizePhaseEnd (hr : (s.basin n).resize = some z) (hb : z.began = true) (hc : (s.basin n).contained = false)
    (hm : z.moves = []) (hf : z.forcing = []) : exec (.resizePhaseEnd n) s =
      .next (if ((s.setResize n (some z)).retireGen n z).phaseWorked n z && (z.late || z.notified.all fun r => z.acked.contains r)
        then ((s.setResize n (some z)).retireGen n z).endPhase n z else (s.setResize n (some z)).retireGen n z) := by
  change execResizePhaseEnd n s = _
  rw [execResizePhaseEnd, hr]
  dsimp only
  rw [hb, hc, State.makeMoves_none hm hf, if_neg (by decide)]
  exact (apply_ite Host.Outcome.next _ _ _).symm

/-- The phase after one of Announce to Scrub. -/
theorem Resize.nextPhase_gt (h : z.phase < 6) : z.phase < z.nextPhase := by
  have hs : ((List.range 7).find? fun p => decide (z.phase < p) && z.works p).isSome := by
    rw [List.find?_isSome]
    exact ⟨6, by decide, by simp [h, Resize.works]⟩
  obtain ⟨p, hp⟩ := Option.isSome_iff_exists.1 hs
  have hq := List.find?_some hp
  rw [Resize.nextPhase, hp]
  exact of_decide_eq_true (Bool.and_eq_true_iff.1 hq).1

theorem State.resize_endPhase (h1 : 1 ≤ z.phase) (h6 : z.phase < 6) : ∃ w, ((s.endPhase n z).basin n).resize = some w
    ∧ w.phase = z.nextPhase ∧ w.began = true ∧ w.since = s.cycle ∧ w.acked = [] ∧ w.late = false ∧ w.seq = z.seq
    ∧ w.remove = z.remove := by
  have hp : s.planOf n { z with phase := z.nextPhase } = { z with phase := z.nextPhase } := by
    have := Resize.nextPhase_gt h6
    exact if_neg (by dsimp only; omega)
  rw [State.endPhase, if_neg (by omega), State.basin_startPhase, hp]
  exact ⟨_, rfl, rfl, rfl, rfl, rfl, rfl, rfl, rfl⟩

theorem State.gran_setResize (s : State) (n : Nat) (z : Option Resize) (kind i : Nat) :
    (s.setResize n z).gran kind i = s.gran kind i := by
  unfold State.gran
  split <;> rfl

theorem State.phaseWorked_of (hm : z.moves = []) (hf : z.forcing = []) (hp : z.phase ≠ 3) (h2 : z.phase = 2 → z.retire = none)
    (h5 : z.phase = 5 → ∀ g ∈ z.remove, (s.gran g.1 g.2).state ≠ .scrubbing) : s.phaseWorked n z = true := by
  unfold State.phaseWorked
  split
  · next h => rw [hm, hf, h2 h]; rfl
  · next h => exact absurd h hp
  · next h =>
    rw [Bool.not_eq_true', List.any_eq_false]
    exact fun g hg => by simpa using h5 h g hg
  · rfl

section
variable (hr : (s.basin n).resize = some z) (hb : z.began = true) (hc : (s.basin n).contained = false)
  (hm : z.moves = []) (hf : z.forcing = [])
include hr hb hc hm hf

theorem exec_resizePhaseEnd_ends (hl : z.late = true ∨ ∀ q ∈ z.notified, q ∈ z.acked) (hp : z.phase ≠ 3)
    (h2 : z.phase = 2 → z.retire = none) (h5 : z.phase = 5 → ∀ g ∈ z.remove, (s.gran g.1 g.2).state ≠ .scrubbing) :
    exec (.resizePhaseEnd n) s = .next ((s.setResize n (some z)).endPhase n z) := by
  rw [exec_resizePhaseEnd hr hb hc hm hf, State.retireGen_other hp, State.phaseWorked_of hm hf hp h2 fun h g hg => by
    rw [State.gran_setResize]
    exact h5 h g hg, Bool.true_and, if_pos (by simpa using hl)]

theorem exec_resizePhaseEnd_rehash (hp : z.phase = 3) (hl : s.locks = []) (hfan : s.fanouts = []) {next : List Nat}
    (hn : (s.basin n).nextSlices = some next) : ∃ u, exec (.resizePhaseEnd n) s = .next u ∧ (u.basin n).slices = next
      ∧ (u.basin n).nextSlices = none ∧ (u.basin n).gen = ((s.basin n).gen + 1) % 65536 := by
  refine ⟨_, exec_resizePhaseEnd hr hb hc hm hf, ?_⟩
  have hg : (s.setResize n (some z)).retireGen n z = _ :=
    State.retireGen_rehash hp (by rw [State.setResize, State.basin_modBasin]; exact hn) hl hfan
  rw [hg]
  split
  · have hgt : 3 < z.nextPhase := hp ▸ Resize.nextPhase_gt (by omega)
    rw [State.endPhase, if_neg (by omega), State.basin_startPhase, State.planOf, if_neg (by dsimp only; omega),
      State.basin_phaseWork _ (by dsimp only; omega), State.basin_modBasin, State.setResize, State.basin_modBasin]
    exact ⟨rfl, rfl, rfl⟩
  · rw [State.basin_modBasin, State.setResize, State.basin_modBasin]
    exact ⟨rfl, rfl, rfl⟩
end

/-- Where no braid of the plan could be forced to move, a deadline only ends the waiting (R414). -/
theorem exec_phaseDeadline (hr : (s.basin n).resize = some z) (hb : z.began = true) (hl : z.late = false)
    (ht : z.since + z.deadline * 3300 ≤ s.cycle) (h2 : z.phase ≠ 2 ∨ ∀ g ∈ z.remove, g.1 ≠ 0) :
    exec (.phaseDeadline n) s = .next (s.setResize n (some { z with late := true, forced := true })) := by
  change execPhaseDeadline n s = _
  rw [execPhaseDeadline, hr]
  dsimp only
  have hd : ¬ s.cycle < z.since + z.deadline * Config.usCycles := Nat.not_lt.2 ht
  rw [hb, hl, if_neg (by rw [decide_eq_false hd]; decide)]
  by_cases hp : z.phase = 2
  · have he : z.remove.filter (fun g => g.1 == 0) = [] :=
      List.filter_eq_nil_iff.2 fun g hg => by simpa using (h2.resolve_left (not_not_intro hp)) g hg
    rw [if_pos hp, he]
    rfl
  · rw [if_neg hp]

end

/-! ### Handing lines over -/

theorem State.mem_handed_hand (s : State) (n line : Nat) : line ∈ ((s.hand n line).basin n).handed := by
  rw [State.hand, State.basin_modBasin]
  exact (mem_setInsert _ _ _).2 (.inl rfl)

theorem exec_rehashHandover (s : State) (n line : Nat) : exec (.rehashHandover n line) s =
    .next (if s.toHand n line && (s.locks.find line).isNone && !(s.fanouts.any fun f => f.line == line) then s.hand n line
      else s) := by
  change execRehashHandover n line s = _
  rw [execRehashHandover]
  split <;> rfl

theorem exec_rehashFirstTouch (s : State) (n line : Nat) : exec (.rehashFirstTouch n line) s =
    .next (if s.toHand n line && !((s.locks.find line).isSome || (s.fanouts.any fun f => f.line == line)
      || s.braids.any fun e => (e.2.l1.find line).isSome) then s.hand n line else s) := by
  change execRehashFirstTouch n line s = _
  rw [execRehashFirstTouch]
  split <;> rfl

end Sys2Proof.Machine
end

section
/-! PROOFS. Scrubs, retirement of rills and hardware errors (R396, R408, R417, R418, R426, R429). -/

namespace Sys2Proof.Machine

/-! ### What a host event leaves alone -/

theorem State.hostEvent_induction {P : State → Prop} (hr : ∀ u n, P u → P (State.recall u n)) (hw : ∀ u n, P u → P (State.wrote u n))
    (hx : ∀ (u : State) ms ring m f rq, P u → P { u with msix := ms, eventRing := ring, mem := m, free := f, requests := rq })
    {s : State} (h : P s) : P s.hostEvent := by
  have hfold {f : State → Nat → State} (hf : ∀ u n, P u → P (f u n)) (l : List Nat) (u : State) (hu : P u) : P (l.foldl f u) :=
    List.foldlRecOn l f hu fun t ht n _ => hf t n ht
  unfold State.hostEvent
  split
  · exact h
  · dsimp only
    split
    · exact hx s _ s.eventRing s.mem s.free s.requests h
    · exact hfold hw _ _ (hx _ _ _ _ _ _ (hfold hr _ _ (hx s _ _ _ _ s.requests h)))

theorem State.ctx_hostEvent (s : State) (p : Pos) : s.hostEvent.ctx p = s.ctx p :=
  State.hostEvent_keeps (g := fun u => u.ctx p) (fun _ _ => rfl) (fun _ _ => rfl) (fun _ _ _ _ _ _ => rfl) s

theorem State.spareRills_hostEvent (s : State) : s.hostEvent.spareRills = s.spareRills :=
  State.hostEvent_keeps (g := State.spareRills) (fun _ _ => rfl) (fun _ _ => rfl) (fun _ _ _ _ _ _ => rfl) s

/-- Of a braid a host event changes L1 lines only. -/
theorem State.braid_hostEvent {α : Type} {g : Braid → α} (hg : ∀ x t, g { x with l1 := t } = g x) (s : State) (b : Nat) :
    g (s.hostEvent.braid b) = g (s.braid b) := by
  refine State.hostEvent_keeps (g := fun u => g (u.braid b)) (fun u n => ?_) (fun _ _ => rfl) (fun _ _ _ _ _ _ => rfl) s
  unfold State.braid State.recall
  dsimp only
  refine Table.get_update_proj g (fun _ x => ?_) _ _ _
  split
  · split
    · rfl
    · exact hg x _
  · rfl

theorem Memory.byte_hostWords (m : Memory) {a i : Nat} (ws : List Word) (h : i < hostAddr a) : (m.hostWords a ws).byte i = m.byte i := by
  induction ws generalizing m a with
  | nil => rfl
  | cons w ws ih =>
    rw [Memory.hostWords, ih _ (by unfold hostAddr at h ⊢; omega), Memory.byte_setTags, Memory.byte_write_other _ _ _ _ _ (.inl h)]

/-- Rings lie in host memory. -/
theorem State.byte_hostEvent (s : State) {i : Nat} (h : i < 2 ^ 60) : s.hostEvent.mem.byte i = s.mem.byte i := by
  have hh : ∀ a, i < hostAddr a := fun a => Nat.lt_of_lt_of_le h (Nat.le_add_right _ a)
  unfold State.hostEvent
  split
  · rfl
  · dsimp only
    split
    · rfl
    · rw [State.ringWrote_mem, Ring.append]
      dsimp only
      rw [Memory.byte_hostWords _ _ (hh _), Memory.byte_hostWords _ _ (hh _)]

/-! ### The spare of a braid takes the place of a rill -/

theorem State.braid_remap {α : Type} {g : Braid → α} (hg : ∀ x l2p spare t, g { x with l2p := l2p, spare := spare, l1 := t } = g x)
    (s : State) (b r : Nat) : g ((s.remap b r).braid b) = g (s.braid b) := by
  unfold State.remap
  dsimp only
  split
  · rfl
  · rw [State.braid_hostEvent (fun x t => hg x x.l2p x.spare t), State.braid_setBraid]
    exact hg _ _ _ (s.braid b).l1

theorem State.ctx_remap (s : State) (b r : Nat) (p : Pos) : (s.remap b r).ctx p = s.ctx p := by
  unfold State.remap
  dsimp only
  split
  · rfl
  · exact State.ctx_hostEvent _ _

theorem State.byte_remap (s : State) (b r : Nat) {i : Nat} (h : i < 2 ^ 60) : (s.remap b r).mem.byte i = s.mem.byte i := by
  unfold State.remap
  dsimp only
  split
  · rfl
  · exact State.byte_hostEvent _ h

/-- What becomes of the rill and of the spare. -/
theorem State.remap_facts {s : State} {b p : Nat} (r : Nat) (h : (s.braid b).spare = some p) :
    ((s.remap b r).braid b).l2p.get r r = p ∧ ((s.remap b r).braid b).spare = none
      ∧ (b, (s.braid b).l2p.get r r) ∈ (s.remap b r).spareRills := by
  unfold State.remap
  dsimp only
  rw [h]
  refine ⟨?_, ?_, ?_⟩
  · rw [State.braid_hostEvent (g := fun x => x.l2p.get r r) (fun _ _ => rfl), State.braid_setBraid, Table.get_put_same]
  · rw [State.braid_hostEvent (g := Braid.spare) (fun _ _ => rfl), State.braid_setBraid]
  · rw [State.spareRills_hostEvent]
    exact List.mem_append_right _ (List.mem_singleton_self _)

theorem State.askRetire_free {s : State} {b : Nat} (r : Nat) (h : (s.braid b).gran.state = .free) : State.askRetire b s r = s.remap b r := by
  unfold State.askRetire
  dsimp only
  rw [h]

/-- A free braid makes the retirements that it has kept. -/
theorem State.foldl_askRetire_free {b : Nat} : ∀ (l : List Nat) {s : State}, (s.braid b).gran.state = .free →
    l.foldl (State.askRetire b) s = l.foldl (fun t r => t.remap b r) s
  | [], _, _ => rfl
  | r :: l, s, h => by
    rw [List.foldl_cons, List.foldl_cons, State.askRetire_free r h, State.foldl_askRetire_free l]
    rw [State.braid_remap (g := fun x => x.gran.state) (fun _ _ _ _ => rfl), h]

/-- What the retirements that a free braid has kept leave alone. -/
theorem State.settleOwed_keeps {α : Type} {g : State → α} {s : State} {b : Nat} (h : (s.braid b).gran.state = .free)
    (hr : ∀ t r, g (State.remap t b r) = g t) (hm : g (s.modBraid b fun x => { x with owed := [] }) = g s) :
    g (s.settleOwed b) = g s := by
  unfold State.settleOwed
  rw [State.foldl_askRetire_free _ (by rw [State.braid_modBraid]; exact h), foldl_keeps (g := g) fun t r _ => hr t r, hm]

/-! ### Bytes that a scrub clears -/

theorem cellsRead_filterKeys (m : List Host.Cell) (keep : Nat → Bool) (i : Nat) :
    cellsRead (m.filter fun c => keep c.1) i = if keep i then cellsRead m i else 0 := by
  induction m with
  | nil => simp [cellsRead]
  | cons e t ih =>
    obtain ⟨j, v⟩ := e
    by_cases hj : j = i
    · subst hj
      by_cases hk : keep j
      · simp [hk, cellsRead]
      · simp [hk, ih]
    · by_cases hk : keep j
      · simp only [List.filter_cons, hk, if_true, cellsRead, hj, if_false, ih]
      · simp only [List.filter_cons, hk, Bool.false_eq_true, cellsRead, hj, if_false, ih]

theorem Memory.byte_clearRange (m : Memory) (a n i : Nat) :
    (m.clearRange a n).byte i = if a ≤ i ∧ i < a + n then 0 else m.byte i := by
  have hc : cellsRead (m.clearRange a n).cells i = if a ≤ i ∧ i < a + n then 0 else cellsRead m.cells i := by
    refine (cellsRead_filterKeys m.cells (fun j => !(decide (a ≤ j) && decide (j < a + n) && true)) i).trans ?_
    by_cases h : a ≤ i ∧ i < a + n
    · simp [h]
    · rw [if_neg h, if_pos]
      rw [Bool.and_true, Bool.not_eq_true', ← Bool.decide_and, decide_eq_false h]
  change (if m.isLost i then 0 else cellsRead (m.clearRange a n).cells i) = _
  rw [hc, Memory.byte]
  split <;> split <;> rfl

/-! ### Accesses to a scrubbed pseudo-channel fault -/

/-- Memory and the pseudo-channels' granules are as before. -/
def SameChannels (s t : State) : Prop := t.mem = s.mem ∧ t.gchans = s.gchans

theorem SameChannels.trans {s t u : State} (h : SameChannels s t) (k : SameChannels t u) : SameChannels s u :=
  ⟨k.1.trans h.1, k.2.trans h.2⟩

theorem SameChannels.foldl {β : Type} {f : State → β → State} (hf : ∀ t x, SameChannels t (f t x)) (l : List β) (s : State) :
    SameChannels s (l.foldl f s) := by
  induction l generalizing s with
  | nil => exact ⟨rfl, rfl⟩
  | cons x l ih => exact (hf s x).trans (ih _)

theorem sameChannels_post (s : State) (b r : Nat) (e : EventRec) : SameChannels s (s.post b r e) := by
  obtain ⟨cs, rs, h⟩ := s.post_eq b r e
  rw [h]
  exact ⟨rfl, rfl⟩

theorem sameChannels_logLate (s : State) (p : Pos) (a : Access) (cause : Nat) (behind : Bool) :
    SameChannels s (s.logLate p a cause behind) := by
  unfold State.logLate State.logEntry
  split
  · dsimp only
    split
    · exact ⟨rfl, rfl⟩
    · unfold State.wake
      dsimp only
      exact SameChannels.trans ⟨rfl, rfl⟩ (sameChannels_post _ _ _ _)
  · exact ⟨rfl, rfl⟩

theorem sameChannels_dropLocks (s : State) (p : Pos) : SameChannels s (s.dropLocks p) := by
  unfold State.dropLocks
  dsimp only
  split <;> exact ⟨rfl, rfl⟩

theorem sameChannels_txAbortAt (s : State) (p : Pos) (cause info : Nat) (keepPc : Option Word) :
    SameChannels s (s.txAbortAt p cause info keepPc) := by
  unfold State.txAbortAt
  dsimp only
  split
  · exact ⟨rfl, rfl⟩
  · next t _ =>
    obtain ⟨hm, hg⟩ := SameChannels.foldl (f := fun z e => State.recallWritable z (e.word / 8)) (fun _ _ => ⟨rfl, rfl⟩) t.reads s
    refine SameChannels.trans ?_ (sameChannels_dropLocks _ p)
    split
    · exact ⟨hm, hg⟩
    · exact ⟨rfl, rfl⟩

theorem sameChannels_leaveGroup (s : State) (p : Pos) : SameChannels s (s.leaveGroup p) := by
  unfold State.leaveGroup State.splitGroup
  split
  · refine SameChannels.trans (SameChannels.foldl (fun t r => ?_) _ s) ⟨rfl, rfl⟩
    dsimp only
    split <;> exact ⟨rfl, rfl⟩
  · exact ⟨rfl, rfl⟩

theorem sameChannels_faultChannel (s : State) (n : Nat) : SameChannels s (s.faultChannel n) := by
  unfold State.faultChannel
  refine SameChannels.trans (SameChannels.foldl (fun t q => sameChannels_logLate t _ _ _ _) _ s) (SameChannels.foldl (fun t e => ?_) _ _)
  dsimp only
  split
  · have h := ((sameChannels_txAbortAt t ⟨e.1 / 128, e.1 / 16 % 8, e.1 % 16⟩ 5 0x0B none).trans
      (u := State.modCtx _ ⟨e.1 / 128, e.1 / 16 % 8, e.1 % 16⟩ fun c => { c with left := some 0x15 }) ⟨rfl, rfl⟩).trans
      (sameChannels_leaveGroup _ ⟨e.1 / 128, e.1 / 16 % 8, e.1 % 16⟩)
    split
    · exact h.trans ⟨rfl, rfl⟩
    · exact h
  · exact ⟨rfl, rfl⟩

/-! ### Scrub -/

/-- The resources of a granule at the end of its scrub. -/
def State.scrubbed (s : State) (kind m : Nat) : State :=
  match kind with
  | 0 => s.scrubBraid m
  | 2 => s.scrubChannel m
  | 3 => { s with cores := s.cores.put m { gran := s.gran 3 m } }
  | 4 => s.scrubVf m
  | _ => s

theorem State.gran_scrubbed (s : State) {kind : Nat} (m : Nat) (h : kind < 5) : (s.scrubbed kind m).gran kind m = s.gran kind m := by
  match kind with
  | 0 => exact (congrArg Braid.gran (Table.get_put_same {} s.braids m _)).trans rfl
  | 1 => rfl
  | 2 => exact congrArg (fun t => Table.get {} t m) (sameChannels_faultChannel s m).2
  | 3 => exact (congrArg Core.gran (Table.get_put_same {} s.cores m _)).trans rfl
  | 4 => exact (congrArg Vf.gran (Table.get_put_same {} s.vfs m _)).trans rfl

theorem State.gran_freeNumber (s : State) (n kind i : Nat) : (s.freeNumber n).gran kind i = s.gran kind i := by
  unfold State.freeNumber
  split
  · unfold State.gran
    split <;> rfl
  · rfl

theorem State.mem_freeNumber (s : State) (n : Nat) : (s.freeNumber n).mem = s.mem := by
  unfold State.freeNumber
  split <;> rfl

theorem State.ctx_freeNumber (s : State) (n : Nat) (p : Pos) : (s.freeNumber n).ctx p = s.ctx p := by
  unfold State.freeNumber
  split <;> rfl

section
variable {s : State} {kind m : Nat}

/-- A granule that is not to retire is FREE after its scrub; of a braid the kept retirements are then made. -/
theorem State.releaseGranule_eq (h : (s.gran kind m).retiring = false) : s.releaseGranule kind m =
    if kind = 0 then (s.modGran kind m fun _ => {}).settleOwed m else s.modGran kind m fun _ => {} := by
  unfold State.releaseGranule
  dsimp only
  rw [h]
  rfl

theorem State.free_modGran_zero : ((s.modGran 0 m fun _ => {}).braid m).gran.state = .free :=
  congrArg Granule.state (State.gran_modGran s 0 m fun _ => {})

theorem State.gran_releaseGranule (h : (s.gran kind m).retiring = false) : (s.releaseGranule kind m).gran kind m = {} := by
  rw [State.releaseGranule_eq h]
  split
  · next hk =>
    subst hk
    rw [State.settleOwed_keeps (g := fun t => t.gran 0 m) State.free_modGran_zero
      (fun t r => State.braid_remap (g := Braid.gran) (fun _ _ _ _ => rfl) t m r)
      ((congrArg Braid.gran (State.braid_modBraid (s.modGran 0 m fun _ => {}) m _)).trans rfl), State.gran_modGran]
  · exact State.gran_modGran _ _ _ _

theorem State.ctx_releaseGranule_zero (h : (s.gran 0 m).retiring = false) (p : Pos) : (s.releaseGranule 0 m).ctx p = s.ctx p := by
  rw [State.releaseGranule_eq h, if_pos rfl]
  exact State.settleOwed_keeps (g := fun t => t.ctx p) State.free_modGran_zero (fun t r => t.ctx_remap m r p) rfl

theorem State.byte_releaseGranule_zero (h : (s.gran 0 m).retiring = false) {i : Nat} (hi : i < 2 ^ 60) :
    (s.releaseGranule 0 m).mem.byte i = s.mem.byte i := by
  rw [State.releaseGranule_eq h, if_pos rfl]
  exact State.settleOwed_keeps (g := fun t => t.mem.byte i) State.free_modGran_zero (fun t r => t.byte_remap m r hi) rfl

theorem State.mem_releaseGranule_two (h : (s.gran 2 m).retiring = false) : (s.releaseGranule 2 m).mem = s.mem := by
  rw [State.releaseGranule_eq h, if_neg (by decide)]
  rfl

section
variable (hk : kind < 5) (hs : (s.gran kind m).state = .scrubbing)
  (hc : ((s.basin (s.gran kind m).basin).contained && (s.basin (s.gran kind m).basin).alive) = false)
include hk hs hc

theorem exec_scrubComplete (hr : s.scrubReady kind m = true) : exec (.scrubComplete kind m) s =
    .next (if s.sweepsOn kind m then ({ s with free := s.free + 1 } : State).sweep kind m
      else ((s.scrubbed kind m).releaseGranule kind m).freeNumber (s.gran kind m).basin) := by
  change execScrubComplete kind m s = _
  delta execScrubComplete
  dsimp only
  have hgo : (GState.scrubbing != GState.scrubbing || decide (4 < kind) || false) = false := by
    rw [decide_eq_false (by omega)]
    rfl
  rw [hc, hs, hr, hgo, if_neg Bool.false_ne_true, if_neg (c := (!true) = true) Bool.false_ne_true,
    apply_ite Host.Outcome.next]
  refine if_congr Iff.rfl rfl (congrArg (fun t => Host.Outcome.next ((State.releaseGranule t kind m).freeNumber (s.gran kind m).basin)) ?_)
  clear hc hs hr hgo
  match kind with
  | 0 | 1 | 2 | 3 | 4 => rfl

/-- A scrub makes another pass or is over. -/
theorem exec_scrubComplete_cases (hr : s.scrubReady kind m = true) (hret : (s.gran kind m).retiring = false) :
    ∃ u, exec (.scrubComplete kind m) s = .next u ∧ (u.gran kind m = {}
      ∨ ((u.gran kind m).state = .scrubbing ∧ (u.gran kind m).sweeps = (s.gran kind m).sweeps + 1 ∧ kind ∈ [0, 2])) := by
  refine ⟨_, exec_scrubComplete hk hs hc hr, ?_⟩
  split
  · next hsw =>
    refine .inr ?_
    have hkind : kind = 0 ∨ kind = 2 := by
      have h1 := (Bool.and_eq_true_iff.1 (Bool.and_eq_true_iff.1 hsw).1).1
      simpa using h1
    have hg (t : State) : t.mem = t.mem → (State.sweep t kind m).gran kind m = { t.gran kind m with sweeps := (t.gran kind m).sweeps + 1 } := by
      intro _
      rw [State.sweep, State.gran_modGran]
      rcases hkind with rfl | rfl <;> rfl
    rw [hg _ rfl]
    have he : ({ s with free := s.free + 1 } : State).gran kind m = s.gran kind m := by
      rcases hkind with rfl | rfl <;> rfl
    rw [he]
    exact ⟨hs, rfl, by simpa using hkind⟩
  · refine .inl ?_
    rw [State.gran_freeNumber, State.gran_releaseGranule]
    rw [State.gran_scrubbed s m hk, hret]

theorem exec_scrubComplete_last (hr : s.scrubReady kind m = true) (h3 : kind ∈ [0, 2] → 3 ≤ (s.gran kind m).sweeps) :
    exec (.scrubComplete kind m) s =
      .next (((s.scrubbed kind m).releaseGranule kind m).freeNumber (s.gran kind m).basin) := by
  rw [exec_scrubComplete hk hs hc hr, if_neg]
  intro hsw
  obtain ⟨h1, -⟩ := Bool.and_eq_true_iff.1 hsw
  obtain ⟨h1, h2⟩ := Bool.and_eq_true_iff.1 h1
  have := h3 (by simpa using h1)
  have := of_decide_eq_true h2
  omega
end

theorem State.ctx_scrubBraid {i k : Nat} (hi : i < 8) (hk : k < 16) : (s.scrubBraid m).ctx ⟨m, i, k⟩ = {} := by
  unfold State.scrubBraid State.ctx
  dsimp only
  refine (Table.get_filterKeys _ _ (fun j => j / 128 != m) _).trans ?_
  rw [if_neg]
  simp only [Pos.key, bne_iff_ne, ne_eq, not_not]
  omega
end

end Sys2Proof.Machine
end

section
/-! PROOFS. What a scrub leaves, the retirement of a rill and hardware errors; the settlement of BasinEvents. -/

namespace Sys2Proof.Machine

/-! ### What a scrub of memory leaves -/

section
variable {s : State} {m : Nat}

/-- A scrubbed braid: its contexts are as after a reset and its local stores are zero. -/
theorem scrubbedBraid_facts (hret : (s.gran 0 m).retiring = false) (hm : m < 512) (n : Nat) :
    (∀ i < 8, ∀ k < 16, (((s.scrubbed 0 m).releaseGranule 0 m).freeNumber n).ctx ⟨m, i, k⟩ = {})
      ∧ ∀ i < 8 * 2 ^ 18, (((s.scrubbed 0 m).releaseGranule 0 m).freeNumber n).mem.byte (lsAddr m 0 i) = 0 := by
  have hg : ((s.scrubbed 0 m).gran 0 m).retiring = false := by
    rw [State.gran_scrubbed s m (by decide), hret]
  refine ⟨fun i hi k hk => ?_, fun i hi => ?_⟩
  · rw [State.ctx_freeNumber, State.ctx_releaseGranule_zero hg]
    exact State.ctx_scrubBraid hi hk
  · rw [State.mem_freeNumber, State.byte_releaseGranule_zero hg (by unfold lsAddr lsBase; omega)]
    refine (Memory.byte_clearRange s.mem _ _ _).trans (if_pos ?_)
    unfold lsAddr
    omega

theorem scrubbedChannel_bytes (hret : (s.gran 2 m).retiring = false) (n i : Nat) :
    (((s.scrubbed 2 m).releaseGranule 2 m).freeNumber n).mem.byte i =
      if m * 2 ^ 31 ≤ i ∧ i < m * 2 ^ 31 + 2 ^ 31 then 0 else s.mem.byte i := by
  have hg : ((s.scrubbed 2 m).gran 2 m).retiring = false := by
    rw [State.gran_scrubbed s m (by decide), hret]
  rw [State.mem_freeNumber, State.mem_releaseGranule_two hg]
  refine (Memory.byte_clearRange (s.faultChannel m).mem _ _ _).trans ?_
  rw [(sameChannels_faultChannel s m).1]
end

/-! ### Retirement of a rill -/

theorem Table.get_update_ind {α : Type} {P : α → Prop} {f : Nat → α → α} (hf : ∀ k v, P v → P (f k v)) {d : α} {t : Table α}
    {k : Nat} (h : P (t.get d k)) : P ((t.update f).get d k) := by
  induction t with
  | nil => exact h
  | cons e t ih =>
    obtain ⟨j, v⟩ := e
    by_cases hj : j = k
    · simp only [Table.update, Table.get, List.map_cons, hj, if_true] at h ⊢
      exact hf k v h
    · simp only [Table.get, hj, if_false] at h
      simpa only [Table.update, Table.get, List.map_cons, hj, if_false] using ih h

theorem Table.mem_of_find {α : Type} {t : Table α} {k : Nat} {v : α} (h : t.find k = some v) : (k, v) ∈ t := by
  induction t with
  | nil => cases h
  | cons e t ih =>
    obtain ⟨j, w⟩ := e
    by_cases hj : j = k
    · subst hj
      rw [Table.find, List.map_cons, Table.get, if_pos rfl] at h
      cases h
      exact List.mem_cons_self
    · rw [Table.find, List.map_cons, Table.get, if_neg hj] at h
      exact List.mem_cons_of_mem _ (ih h)

/-- Every L1 line of a braid satisfies Q. -/
def State.linesAll (s : State) (b : Nat) (Q : L1Line → Prop) : Prop := ∀ e ∈ (s.braid b).l1, Q e.2

theorem State.linesAll_recall {s : State} {b : Nat} {Q : L1Line → Prop} (n : Nat) (h : s.linesAll b Q) :
    (s.recall n).linesAll b Q := by
  unfold State.linesAll at h ⊢
  unfold State.braid State.recall
  dsimp only
  refine Table.get_update_ind (P := fun x : Braid => ∀ e ∈ x.l1, Q e.2) (fun _ x hx => ?_) h
  split
  · split
    · exact hx
    · exact fun e he => hx e (List.mem_of_mem_filter he)
  · exact hx

theorem State.linesAll_remap {s : State} {b : Nat} {Q : L1Line → Prop} (r : Nat) (h : s.linesAll b Q) :
    (s.remap b r).linesAll b Q := by
  unfold State.remap
  dsimp only
  split
  · exact h
  · refine State.hostEvent_induction (P := fun t => t.linesAll b Q) (fun u n hu => State.linesAll_recall n hu)
      (fun _ _ hu => hu) (fun _ _ _ _ _ _ hu => hu) ?_
    unfold State.linesAll
    rw [State.braid_setBraid]
    exact h

/-- No L1 line of a rill that has been written back is dirty. -/
theorem State.linesAll_writeBack (s : State) (b r : Nat) :
    (s.writeBack b r).linesAll b fun l => l.place = r ∨ l.place = 8 + r → l.dirty = false := by
  unfold State.linesAll State.writeBack
  rw [State.braid_modBraid]
  intro e he
  obtain ⟨x, -, rfl⟩ := List.mem_map.1 he
  dsimp only
  split
  · exact fun _ => rfl
  · next hp => exact fun h => absurd (by simpa using h) hp

theorem mem_rillPositions {b r : Nat} {p : Pos} : p ∈ rillPositions b r ↔ ∃ k < 16, p = ⟨b, r, k⟩ := by
  unfold rillPositions
  simp only [List.mem_map, List.mem_range, eq_comm]

theorem nodup_rillPositions (b r : Nat) : (rillPositions b r).Nodup := by
  unfold rillPositions
  exact List.nodup_range.map fun i j h => congrArg Pos.k h

theorem State.pause_idle {s : State} {p : Pos} (hr : (s.ctx p).run ≠ .running) (ht : (s.ctx p).tx = none) : s.pause p = s := by
  unfold State.pause
  dsimp only
  rw [ht, if_pos (by simp [hr])]
  simp

theorem State.foldl_pause_idle {s : State} {b r : Nat} (h : ∀ k < 16, (s.ctx ⟨b, r, k⟩).run ≠ .running ∧ (s.ctx ⟨b, r, k⟩).tx = none) :
    (rillPositions b r).foldl (fun t p => t.pause p) s = s := by
  have hl : ∀ l : List Pos, (∀ p ∈ l, s.pause p = s) → l.foldl (fun t p => t.pause p) s = s := by
    intro l
    induction l with
    | nil => exact fun _ => rfl
    | cons p l ih =>
      intro hp
      rw [List.foldl_cons, hp p List.mem_cons_self, ih fun q hq => hp q (List.mem_cons_of_mem _ hq)]
  refine hl _ fun p hp => ?_
  obtain ⟨k, hk, rfl⟩ := mem_rillPositions.1 hp
  obtain ⟨h1, h2⟩ := h k hk
  exact State.pause_idle h1 h2

/-- One context of a retired rill goes on, a user context only where its braid does not move. -/
def State.goOnAt (moving : Bool) (t : State) (p : Pos) : State :=
  if moving && p.k != 15 then t else t.modCtx p fun c => c.goOn t.cycle

theorem State.goOnRill_eq (s : State) (b r : Nat) :
    s.goOnRill b r = (rillPositions b r).foldl (State.goOnAt (s.braid b).moving) s := rfl

theorem State.braid_goOnRill (s : State) (b r : Nat) : (s.goOnRill b r).braid b = s.braid b := by
  rw [State.goOnRill_eq]
  refine foldl_keeps (g := fun t => t.braid b) (fun t p _ => ?_) s
  unfold State.goOnAt
  split <;> rfl

theorem State.ctx_goOnRill (s : State) {b r k : Nat} (hk : k < 16) : (s.goOnRill b r).ctx ⟨b, r, k⟩ =
    if (s.braid b).moving && k != 15 then s.ctx ⟨b, r, k⟩ else (s.ctx ⟨b, r, k⟩).goOn s.cycle := by
  have hone : ∀ t : State, ∀ p ∈ rillPositions b r, p ≠ ⟨b, r, k⟩ →
      (State.ctx (State.goOnAt (s.braid b).moving t p) ⟨b, r, k⟩, (State.goOnAt (s.braid b).moving t p).cycle)
        = (State.ctx t ⟨b, r, k⟩, t.cycle) := by
    intro t p hp hne
    obtain ⟨j, hj, rfl⟩ := mem_rillPositions.1 hp
    have hkey : (⟨b, r, k⟩ : Pos).key ≠ (⟨b, r, j⟩ : Pos).key := fun h => hne (by
      simp only [Pos.key] at h
      rw [show j = k by omega])
    unfold State.goOnAt
    split
    · rfl
    · rw [State.ctx_modCtx_other t _ hkey]
      rfl
  obtain ⟨t, ht, hf⟩ := foldl_once (f := State.goOnAt (s.braid b).moving) (g := fun t => (State.ctx t ⟨b, r, k⟩, t.cycle))
    (nodup_rillPositions b r) (mem_rillPositions.2 ⟨k, hk, rfl⟩) hone s
  obtain ⟨h1, h2⟩ := Prod.mk.inj ht
  rw [State.goOnRill_eq]
  refine (Prod.mk.inj hf).1.trans ?_
  unfold State.goOnAt
  split
  · exact h1
  · rw [State.ctx_modCtx, h1, h2]

theorem Ctx.run_goOn {c : Ctx} (now : Nat) (h : c.run = .paused) : (c.goOn now).run = .running := by
  rw [Ctx.goOn, if_pos h]

section
variable {s : State} {b r n : Nat} {z : Resize}

theorem exec_rillRetire (h : s.retiring b r = some (n, z)) (hg : (s.braid b).gran.ownedBy n = true) (hw : z.worked = false)
    (hb : z.began = true) (hp : z.phase = 2)
    (hi : ∀ k < 16, (s.ctx ⟨b, r, k⟩).run ≠ .running ∧ (s.ctx ⟨b, r, k⟩).tx = none) (hidle : s.rillIdle b r = true) :
    exec (.rillRetire b r) s =
      .next ((((s.goOnRill b r).writeBack b r).remap b r).setResize n (some { z with worked := true })) := by
  change execRillRetire b r s = _
  delta execRillRetire
  rw [h]
  dsimp only
  rw [hw, hb, hp, hg, if_neg (by decide), if_neg (by decide), State.foldl_pause_idle hi, hidle]
  rfl

/-- In Migrate the spare takes the place of an idle rill. -/
theorem exec_rillRetire_spare (h : s.retiring b r = some (n, z)) (hg : (s.braid b).gran.ownedBy n = true) (hw : z.worked = false)
    (hb : z.began = true) (hp : z.phase = 2)
    (hi : ∀ k < 16, (s.ctx ⟨b, r, k⟩).run ≠ .running ∧ (s.ctx ⟨b, r, k⟩).tx = none) (hidle : s.rillIdle b r = true) {p : Nat}
    (hs : (s.braid b).spare = some p) :
    ∃ u, exec (.rillRetire b r) s = .next u ∧ (u.braid b).l2p.get r r = p ∧ (u.braid b).spare = none
      ∧ (b, (s.braid b).l2p.get r r) ∈ u.spareRills
      ∧ (∀ k < 16, (s.ctx ⟨b, r, k⟩).run = .paused → (s.braid b).moving = false ∨ k = 15 → (u.ctx ⟨b, r, k⟩).run = .running)
      ∧ (∀ k < 15, (s.braid b).moving = true → (u.ctx ⟨b, r, k⟩).run = (s.ctx ⟨b, r, k⟩).run)
      ∧ ∀ n l, (u.braid b).l1.find n = some l → l.place = r ∨ l.place = 8 + r → l.dirty = false := by
  have hbr : ((s.goOnRill b r).writeBack b r).braid b = { s.braid b with l1 := (s.braid b).l1.update fun _ l =>
      if l.place == r || l.place == 8 + r then { l with writable := false, dirty := false } else l } := by
    rw [State.writeBack, State.braid_modBraid, State.braid_goOnRill]
  have hctx : ∀ k, (((s.goOnRill b r).writeBack b r).remap b r).ctx ⟨b, r, k⟩ = (s.goOnRill b r).ctx ⟨b, r, k⟩ := fun k =>
    State.ctx_remap _ _ _ _
  obtain ⟨h1, h2, h3⟩ := State.remap_facts (s := (s.goOnRill b r).writeBack b r) (b := b) r (by rw [hbr]; exact hs)
  rw [hbr] at h3
  refine ⟨_, exec_rillRetire h hg hw hb hp hi hidle, h1, h2, h3, fun k hk hrun hm => ?_, fun k hk hm => ?_, fun j l hl => ?_⟩
  · refine (congrArg Ctx.run ((hctx k).trans (State.ctx_goOnRill s hk))).trans ?_
    rw [if_neg (by rcases hm with hm | hm <;> simp [hm])]
    exact Ctx.run_goOn _ hrun
  · refine (congrArg Ctx.run ((hctx k).trans (State.ctx_goOnRill s (by omega)))).trans ?_
    rw [if_pos (by rw [hm, Bool.true_and, bne_iff_ne]; omega)]
  · exact State.linesAll_remap r (State.linesAll_writeBack (s.goOnRill b r) b r) _ (Table.mem_of_find hl)

/-- A free braid makes the one retirement that it has kept. -/
theorem exec_rillRetire_owed (h : s.retiring b r = none) (ho : (s.braid b).owed = [r]) (hg : (s.braid b).gran = {}) {p : Nat}
    (hs : (s.braid b).spare = some p) :
    ∃ u, exec (.rillRetire b r) s = .next u ∧ (u.braid b).l2p.get r r = p ∧ (u.braid b).spare = none
      ∧ (u.braid b).owed = [] ∧ (b, (s.braid b).l2p.get r r) ∈ u.spareRills := by
  have hb : (s.modBraid b fun x => { x with owed := [] }).braid b = { s.braid b with owed := [] } := State.braid_modBraid _ _ _
  have hset : s.settleOwed b = (s.modBraid b fun x => { x with owed := [] }).remap b r := by
    rw [State.settleOwed, ho, List.foldl_cons, List.foldl_nil, State.askRetire_free r (by rw [hb]; exact congrArg Granule.state hg)]
  obtain ⟨h1, h2, h3⟩ := State.remap_facts (s := s.modBraid b fun x => { x with owed := [] }) r (by rw [hb]; exact hs)
  rw [hb] at h3
  refine ⟨s.settleOwed b, ?_, ?_⟩
  · change execRillRetire b r s = _
    delta execRillRetire
    rw [h]
    dsimp only
    rw [ho, if_pos (by simp)]
  · rw [hset]
    refine ⟨h1, h2, ?_, h3⟩
    rw [State.braid_remap (g := Braid.owed) (fun _ _ _ _ => rfl), hb]
end

/-! ### Corrected errors (R429) -/

section
variable {s : State} {b r n : Nat}

/-- The corrected errors of the last second, with this one. -/
def State.recentErrors (s : State) (b r : Nat) : List Nat :=
  ((s.rill b r).corrected.filter fun t => decide (s.cycle < t + 3300000000)) ++ [s.cycle]

/-- The braid's basin, as the error log names it. -/
def State.errorOwner (s : State) (b : Nat) : Option Nat :=
  if (s.braid b).gran.state == .free || (s.braid b).gran.state == .retired then none else some (s.braid b).gran.basin

/-- The state after a corrected error has been counted and logged. -/
def State.errorCounted (s : State) (b r : Nat) : State :=
  (s.setRill b r { s.rill b r with corrected := s.recentErrors b r }).logError (s.errorOwner b) 0 0 (s.physicalRill b r) 0

theorem exec_correctedError_few (h : (s.recentErrors b r).length ≤ 64) :
    exec (.correctedError b r) s = .next (s.errorCounted b r) := by
  change execCorrectedError b r s = _
  delta execCorrectedError
  refine if_pos (Bool.or_eq_true_iff.2 (.inl (Bool.or_eq_true_iff.2 (.inl ?_))))
  exact decide_eq_true h

/-- More of them ask for the retirement of the rill, once. -/
theorem exec_correctedError_many (h : 64 < (s.recentErrors b r).length) (hs : (s.braid b).spare.isSome = true)
    (hg : (s.braid b).gran = { state := .owned, basin := n }) (hr : (s.basin n).resize = none)
    (hw : (s.basin n).waiting = []) (ho : (s.braid b).owed = []) :
    exec (.correctedError b r) s = .next (State.askRetire b (s.errorCounted b r) r) := by
  change execCorrectedError b r s = _
  delta execCorrectedError
  have howner : s.errorOwner b = some n := by
    unfold State.errorOwner
    rw [hg]
    rfl
  have hasked : ((s.braid b).owed.contains r || match s.errorOwner b with
      | none => false
      | some n => ((s.basin n).resize.any fun z => z.retire == some (b, r))
          || (s.basin n).waiting.any fun z => z.retire == some (b, r)) = false := by
    rw [howner, ho]
    dsimp only
    rw [hr, hw]
    rfl
  refine if_neg (Bool.eq_false_iff.1 (Bool.or_eq_false_iff.2 ⟨Bool.or_eq_false_iff.2 ⟨?_, ?_⟩, hasked⟩))
  · exact decide_eq_false (Nat.not_le.2 h)
  · rw [Option.isNone_eq_false_iff]
    exact hs

theorem State.owed_errorCounted_contained (hg : (s.braid b).gran = { state := .owned, basin := n }) (ho : (s.braid b).owed = [])
    (hc : (s.basin n).contained = true ∨ (s.basin n).alive = false) :
    ((State.askRetire b (s.errorCounted b r) r).braid b).owed = [r] := by
  have hb : (s.errorCounted b r).braid b = s.braid b := rfl
  have hn : (s.errorCounted b r).basin n = s.basin n := rfl
  unfold State.askRetire
  rw [hb, hg]
  dsimp only
  rw [hn, if_pos (by simpa using hc), State.braid_modBraid, hb, ho]
  rfl

theorem State.waiting_errorCounted (hg : (s.braid b).gran = { state := .owned, basin := n }) (hw : (s.basin n).waiting = [])
    (hc : (s.basin n).contained = false) (ha : (s.basin n).alive = true) :
    ∃ w, ((State.askRetire b (s.errorCounted b r) r).basin n).waiting = [w] ∧ w.retire = some (b, r)
      ∧ w.seq = ((s.basin n).rseq + 1) % 65536 := by
  have hb : (s.errorCounted b r).braid b = s.braid b := rfl
  have hn : (s.errorCounted b r).basin n = s.basin n := rfl
  unfold State.askRetire
  rw [hb, hg]
  dsimp only
  rw [hn, hc, ha, if_neg (by decide), State.queueRetire]
  dsimp only
  rw [State.basin_modBasin, hn, hw]
  refine ⟨_, congrArg (· ++ _) (show ((s.errorCounted b r).basin n).waiting = [] from hw), rfl, ?_⟩
  rfl
end

/-! ### Uncorrectable errors (R396) -/

section
variable {s : State}

/-- An error in a memory word poisons it and is logged. -/
theorem exec_uncorrectableError_word {x : Nat} (y : Nat) (hx : 8 * x < 2 ^ 60) (hl : s.mem.isLost (8 * x) = false) :
    ∃ u, exec (.uncorrectableError 0 x y) s = .next u ∧ u.mem.poisoned (8 * x) = true ∧ SameBytes s u
      ∧ u.errlog.length = s.errlog.length + 1 := by
  have hlog : ∀ t : State, (t.logWord (8 * x)).mem = t.mem ∧ (t.logWord (8 * x)).errlog.length = t.errlog.length + 1 := by
    intro t
    unfold State.logWord
    split <;> exact ⟨rfl, List.length_append⟩
  obtain ⟨hm, he⟩ := hlog { s with mem := s.mem.setPoison (8 * x) true }
  refine ⟨({ s with mem := s.mem.setPoison (8 * x) true } : State).logWord (8 * x), ?_, ?_, fun a => ?_, he⟩
  · change execUncorrectableError 0 x y s = _
    delta execUncorrectableError
    exact congrArg Host.Outcome.next (if_neg (Bool.eq_false_iff.1 (decide_eq_false (Nat.not_le.2 hx))))
  · rw [hm, Memory.poisoned_setPoison _ _ _ _ hl]
    simp
  · rw [hm, Memory.byte_setPoison]

theorem Ctx.reg_poisonReg (c : Ctx) {q : BitVec 5} (hq : q ≠ 0) : (c.poisonReg q.toNat).reg q = { c.reg q with poison := true } := by
  unfold Ctx.poisonReg
  rw [if_pos q.isLt, BitVec.ofNat_toNat, BitVec.setWidth_eq]
  dsimp only
  rw [Ctx.reg_setCellAt_dest, if_pos ⟨rfl, hq⟩]
  rfl

/-- An error in a general register poisons it. -/
theorem exec_uncorrectableError_reg {b r m : Nat} {q : BitVec 5} (hq : q ≠ 0) (hr : r < 8) (hm : m < 16) :
    ∃ u, exec (.uncorrectableError 1 ((b * 8 + r) * 16 + m) q.toNat) s = .next u
      ∧ (u.ctx ⟨b, r, m⟩).reg q = { (s.ctx ⟨b, r, m⟩).reg q with poison := true } ∧ SameBytes s u := by
  have hb : ((b * 8 + r) * 16 + m) / 128 = b := by omega
  have hr' : ((b * 8 + r) * 16 + m) / 16 % 8 = r := by omega
  have hm' : ((b * 8 + r) * 16 + m) % 16 = m := by omega
  refine ⟨(s.modCtx ⟨b, r, m⟩ fun c => c.poisonReg q.toNat).logSite b 0 (s.physicalRill b r), ?_, ?_, fun _ => rfl⟩
  · change execUncorrectableError 1 ((b * 8 + r) * 16 + m) q.toNat s = _
    delta execUncorrectableError
    have hq32 : ¬ (68 ≤ q.toNat) := by
      have := q.isLt
      omega
    refine congrArg Host.Outcome.next ?_
    rw [hb, hr', hm', decide_eq_false hq32]
    rfl
  · change ((s.modCtx ⟨b, r, m⟩ fun c => c.poisonReg q.toNat).ctx ⟨b, r, m⟩).reg q = _
    rw [State.ctx_modCtx, Ctx.reg_poisonReg _ hq]

/-- An error in an L1 line discards a clean one. -/
theorem exec_uncorrectableError_line {b line : Nat} {l : L1Line} (hl : (s.braid b).l1.find line = some l) :
    ∃ u, exec (.uncorrectableError 4 b line) s = .next u ∧ SameBytes s u
      ∧ (u.braid b).l1 = if l.dirty then (s.braid b).l1 else (s.braid b).l1.drop line := by
  refine ⟨s.modBraid b fun z => z.dropClean line, rfl, fun _ => rfl, ?_⟩
  rw [State.braid_modBraid, Braid.dropClean, hl]
  dsimp only
  split <;> rfl

theorem exec_uncorrectableError_state {b : Nat} (y : Nat) (h : (s.braid b).gran.state ≠ .free) :
    exec (.uncorrectableError 7 b y) s = .next (s.contain (s.basinOf b)) := by
  change execUncorrectableError 7 b y s = _
  delta execUncorrectableError
  exact congrArg Host.Outcome.next (if_neg (by simpa using h))
end

/-- Settles O49: the resize lemmas of the phases, the scrub as its resources, its granule and its number, the spare that
replaces a rill with what a host event leaves alone, and one lemma for each site of an error. The model has a function
`basinEvents`, hence the longer name. -/
theorem basinEventsHold : Obligations.BasinEvents := by
  unfold Obligations.BasinEvents
  intro s n b r line m x y z rest
  refine ⟨fun hc ha hr hw => exec_resizePhaseStart_announces hc ha hr hw, fun hr hb hc hm hf hl => ⟨fun hp h2 h5 => ?_, fun hp => ?_⟩,
    fun hr hb hc hm hf hp hl hfan next hn => exec_resizePhaseEnd_rehash hr hb hc hm hf hp hl hfan hn,
    fun hr hb hl ht h2 => exec_phaseDeadline hr hb hl ht h2, fun h => ?_, fun h hl hf => ?_, fun kind hk hs hret hc hr => ⟨?_, ?_⟩,
    fun p h hg hw hb hp _ hi hidle hs => exec_rillRetire_spare h hg hw hb hp hi hidle hs,
    fun h ho hg p hs => exec_rillRetire_owed h ho hg hs, ⟨fun h => ?_, fun h hs hg hr hw ho hc => ?_, fun h hs hg hr hw ho hc ha => ?_⟩,
    fun hx hl => exec_uncorrectableError_word y hx hl, fun q hq hr hm => exec_uncorrectableError_reg hq hr hm,
    fun l hl => exec_uncorrectableError_line hl, fun h => exec_uncorrectableError_state y h⟩
  · have hp' : 1 ≤ z.phase ∧ z.phase < 6 ∧ z.phase ≠ 3 := by
      simp only [List.mem_cons, List.not_mem_nil, or_false] at hp
      omega
    obtain ⟨w, hw⟩ := State.resize_endPhase (s := s.setResize n (some z)) (n := n) hp'.1 hp'.2.1
    exact ⟨_, w, exec_resizePhaseEnd_ends hr hb hc hm hf hl hp'.2.2 h2 h5, hw⟩
  · refine ⟨_, exec_resizePhaseEnd_ends hr hb hc hm hf hl (by omega) (fun h => by omega) (fun h => by omega), ?_⟩
    rw [State.endPhase, if_pos hp, State.basin_modBasin]
    exact ⟨rfl, rfl⟩
  · rw [exec_rehashHandover, exec_rehashFirstTouch, h]
    exact ⟨rfl, rfl⟩
  · have hfan : (s.fanouts.any fun f => f.line == line) = false := by
      rw [List.any_eq_false]
      exact fun f hmem => by simpa using hf f hmem
    refine ⟨?_, fun hb => ?_, s.mem_handed_hand n line⟩
    · rw [exec_rehashHandover, h, hl, hfan]
      rfl
    · have hbr : (s.braids.any fun e => (e.2.l1.find line).isSome) = false := by
        rw [List.any_eq_false]
        exact fun e he => by simp [hb e he]
      rw [exec_rehashFirstTouch, h, hl, hfan, hbr]
      rfl
  · exact exec_scrubComplete_cases hk hs hc hr hret
  · intro h3
    refine ⟨_, exec_scrubComplete_last hk hs hc hr h3, ?_, ?_, ?_⟩
    · rw [State.gran_freeNumber, State.gran_releaseGranule]
      rw [State.gran_scrubbed s m hk, hret]
    · rintro rfl
      refine ⟨fun i h1 h2 => ?_, fun i h => ?_⟩
      · rw [scrubbedChannel_bytes hret, if_pos (by omega)]
      · rw [scrubbedChannel_bytes hret, if_neg (by omega)]
    · rintro rfl hm
      exact scrubbedBraid_facts hret hm _
  · refine ⟨_, exec_correctedError_few h, ?_, List.length_append, rfl⟩
    exact congrArg Rill.corrected (Table.get_put_same _ _ _ _)
  · exact ⟨_, exec_correctedError_many h hs hg hr hw ho, State.owed_errorCounted_contained hg ho hc⟩
  · obtain ⟨w, hw'⟩ := State.waiting_errorCounted (r := r) hg hw hc ha
    exact ⟨_, w, exec_correctedError_many h hs hg hr hw ho, hw'⟩

end Sys2Proof.Machine
end
